-- ==== Sys2Proof/Word.lean ====
section
/-! DEFINITION. The word types of the Maltiac 440: the widths the manual gives its registers and words, by name. -/

namespace Sys2Proof

/-- An s register, a slot word, a control register (01 R14, 02 R63). -/
abbrev W64 := BitVec 64
/-- A byte of memory. -/
abbrev Byte := BitVec 8
/-- A tensor handle (01 R16). -/
abbrev W256 := BitVec 256
/-- The 512 data bytes of a beat as one little-endian number: byte i is bits [8i+7:8i] (00 R4). -/
abbrev Data := BitVec 4096
/-- The 128 sidecar bytes of a beat, likewise (00 R4). -/
abbrev Side := BitVec 1024
/-- A 6-bit format tag (03 R100). -/
abbrev Tag := BitVec 6
/-- A table with natural-number keys: strictly rising keys, and no entry equal to what an absent key reads as. -/
abbrev SMap (α : Type) := List (Nat × α)

end Sys2Proof
end

