-- ==== Sys2Proof/Config.lean ====
section
/-! DEFINITION. What one implementation fixes and the values the manual leaves open. Every open value is an opaque constant:
nothing can be proved of it. -/

namespace Sys2Proof.Config

/-- An undefined value (00 R9): the n-th drawn by the machine, at a site of the drawing step, of w bits (log 6). -/
opaque freeBits (n site w : Nat) : BitVec w

/-- The HBM channel a physical address lies on: 32 × stack + channel (14 R357 gives the numbering, no rule the map; log 8). -/
opaque channelOf (pa : Nat) : Nat

/-- The element width in bits of a tag that the manual gives none: a fabric code that no loaded skein defines, or a reserved
code (03 R100, 04 R136; log 9). -/
opaque tagWidth (tag : Nat) : Nat

/-- The header address of the object that an address of a heap lies in, as a home slice knows it for an atomic, which names no
reference (08 R245 gives no way to find it; log 15). -/
opaque headerOf (asid heap va : Nat) : BitVec 57

/-- The scalars that hold addresses at a taken YIELD, by bundle address: the safe-point map names values, and the loader's choice
of their registers is open (17 R422, R426; log 22). -/
opaque safePoint (asid pc : Nat) : BitVec 64

/-- What the n-th scan pass finds of a site's native units (19 R473): 0 where every signature matches, else unit code + 256 ×
instance of the lowest that does not (log 23). -/
opaque scanUnit (n : Nat) : Nat

/-- Whether the signature of a segment differs from its SCANSIG in the n-th scan pass (19 R473; log 23). -/
opaque scanSegment (n segment : Nat) : Bool

/-- Whether the spill buffer of a core is full when, at a cycle and with n values drawn, it spills the entry of a PC and a cause: 10
R298 gives the buffer eight entries and no rate at which it empties (log 41). -/
opaque spillFull (n core cycle pc cause : Nat) : Bool

/-- The public key that a vendor key slot's fuses hold, if it holds one (19 R464; log 25). -/
opaque vendorKey (slot : Nat) : Option (BitVec 256)

/-- Whether a signature is the Ed25519 signature, under a public key, of the SHA-512 digest of some bytes; the manual names the
algorithms and defines neither (19 R464, 20 R493, R495; log 25). -/
opaque signed (key : BitVec 256) (bytes sig : List (BitVec 8)) : Bool

/-- 16 B units beyond the least number that INIT grants on a virtual channel (18 R457; log 31). -/
opaque extraCredit (port channel : Nat) : Nat

/-- The identity public key, and the Ed25519 signature by the identity key of the SHA-512 digest of some bytes (20 R491, R493; log
25). -/
opaque identityKey : BitVec 256
/-- 20 R493; log 25 -/
opaque identitySign (bytes : List (BitVec 8)) : BitVec 512

/-- The measurement register after the boot chain, from what the creel holds and the reissued skeins (20 R492; log 25). -/
opaque bootMeasure (creel : List (Nat × BitVec 8)) (skeins : List (Nat × Nat × Nat)) : BitVec 512

/-- Whether image 0 or 1 of the supervisor firmware in the creel verifies: the manual gives no place or header for it (20 R498; log
25). -/
opaque firmwareGood (creel : List (Nat × BitVec 8)) (image : Nat) : Bool

/-- The home map that the memory supervisor's firmware sets up at boot: granules and their entries (14 R365, 20 R498; log 3). -/
opaque bootHome : List (Nat × BitVec 16)
/-- The base address that firmware gives structure i of 20 R498 at boot, in units of 512 MiB: 0 CTXBASE, 1 LOGBASE, 2 HCBBASE,
3 LCMAPBASE, 4 WHORLBASE (log 3). -/
opaque bootBase (i : Nat) : Nat

/-- The bytes that a power-fail dump image may have: the lower of the flash's size and what 20 ms of its write rate hold (20 R488; log
37). -/
opaque dumpLimit : Nat

/-- The power, in W, by which the draw rises when shedding stage i is undone by one step (20 R485; log 37). -/
opaque ratedIncrease (stage : Nat) : Nat

/-- The ciphertext and the tag of AES-256-GCM under the dump key of an OWNERSEED and a nonce (20 R489, R491; log 25). -/
opaque dumpCipher (seed : BitVec 256) (nonce : BitVec 96) (plain : List (BitVec 8)) : List (BitVec 8)
/-- 20 R489; log 25 -/
opaque dumpTag (seed : BitVec 256) (nonce : BitVec 96) (plain : List (BitVec 8)) : BitVec 128

/-- OPHASH of an op list: the first 16 bytes of a SHA-512 digest, which the manual does not define (17 R416; log 36). -/
opaque opHash (list : List (BitVec 8)) : BitVec 128

/-- What of 17 R416 to R422 an op list keeps beyond its header, function table and record fields: operand files, regions, fields
that the loader fills, safe-point maps (log 36). -/
opaque opListOk (list : List (BitVec 8)) : Bool

/-- The creel's record of an erratum, whose layout the manual does not give: whether the device's stepping has the behaviour, and
the creel offset of the skein that restores it (17 R432; log 36). -/
opaque erratum (n : Nat) : Option (Bool × Nat)

/-- The code that the loader bundles for a function of an op list under a timing profile: its size, and its bytes at an entry
address (17 R424 to R426, R429; log 36). -/
opaque bundledSize (hash index : Nat) (profile : List Nat) : Nat
/-- 17 R424; log 36 -/
opaque bundledByte (hash index : Nat) (profile : List Nat) (entry i : Nat) : BitVec 8

/-- The item-table entry and the sections that a migration record holds for a context image, and the context image that a device of
this stepping builds from them: registers are the loader's to choose (17 R434, R435; log 36). -/
opaque migrationEntry (image : List (BitVec 8)) : List (BitVec 8)
/-- 17 R434; log 36 -/
opaque migrationSections (image : List (BitVec 8)) : List (BitVec 8)
/-- The image, WID and stage of item i of a migration record (17 R435; log 36). -/
opaque migratedImage (record : List (BitVec 8)) (i : Nat) : List (BitVec 8)
/-- 17 R435; log 36 -/
opaque migratedWid (record : List (BitVec 8)) (i : Nat) : BitVec 64
/-- 17 R435; log 36 -/
opaque migratedStage (record : List (BitVec 8)) (i : Nat) : Nat

end Sys2Proof.Config
end

