-- ==== Sys2Proof/Syntax.lean ====
section
/-! DEFINITION. The abstract syntax: the operand record of each slot-word format (02 R64 to R68), the operands of the
package's events, and `Instr`, one constructor per row of the opcode table. Rows 1 to 188 are slot operations; the
rows after them are the steps the rest of the package takes. -/

namespace Sys2Proof

/-- The six issue slots of a core, in the order of their words in a bundle (01 R22, 02 R53). -/
inductive Slot where
  | s | v0 | v1 | m | c0 | c1
  deriving DecidableEq, Repr

/-- The two vector slots. -/
inductive VSlot where
  | v0 | v1
  deriving DecidableEq, Repr

/-- The two copy slots. -/
inductive CSlot where
  | c0 | c1
  deriving DecidableEq, Repr

/-- The two copy engines of a core (01 R43). -/
inductive Engine where
  | a | b
  deriving DecidableEq, Repr

/-- PN and PRED of a slot word (02 R63). -/
structure Guard where
  pn : BitVec 1
  pred : BitVec 4
  deriving DecidableEq, Repr

/-- Format SR (02 R64): [50:47] LAT, [46:41] D, [40:35] A, [34:29] B, [28:23] C, [22:16] FN, [15:0] reserved. -/
structure SR where
  lat : BitVec 4
  d : BitVec 6
  a : BitVec 6
  b : BitVec 6
  c : BitVec 6
  fn : BitVec 7
  rsv : BitVec 16
  deriving DecidableEq, Repr

/-- Format SI (02 R64): [50:47] LAT, [46:41] D, [40:35] A, [34:0] IMM. -/
structure SI where
  lat : BitVec 4
  d : BitVec 6
  a : BitVec 6
  imm : BitVec 35
  deriving DecidableEq, Repr

/-- Format SB (02 R64): [50:47] LAT, [46:41] D, [40:35] A, [34:0] DISP. -/
structure SB where
  lat : BitVec 4
  d : BitVec 6
  a : BitVec 6
  disp : BitVec 35
  deriving DecidableEq, Repr

/-- Format SM (02 R64): [50:47] LAT, [46:41] D, [40:35] A, [34:33] SIZE, [32] SGN, [31:30] QF, [29:12] OFF, [11:0] STEP. -/
structure SM where
  lat : BitVec 4
  d : BitVec 6
  a : BitVec 6
  size : BitVec 2
  sgn : BitVec 1
  qf : BitVec 2
  off : BitVec 18
  step : BitVec 12
  deriving DecidableEq, Repr

/-- Format SG (02 R64): [50:39] LAND, [38:33] D, [32:27] A, [26:25] SIZE, [24] SGN, [23:12] OFF, [11:0] STEP. -/
structure SG where
  lnd : BitVec 12
  d : BitVec 6
  a : BitVec 6
  size : BitVec 2
  sgn : BitVec 1
  off : BitVec 12
  step : BitVec 12
  deriving DecidableEq, Repr

/-- Format SA (02 R64): [50:39] LAND, [38:33] D, [32:27] A, [26:21] B, [20:15] C, [14:12] SCOPE, [11] ORD, [10:9] SIZE,
[8:0] reserved. -/
structure SA where
  lnd : BitVec 12
  d : BitVec 6
  a : BitVec 6
  b : BitVec 6
  c : BitVec 6
  scope : BitVec 3
  ord : BitVec 1
  size : BitVec 2
  rsv : BitVec 9
  deriving DecidableEq, Repr

/-- Format VR (02 R66): [50:47] LAT, [46:41] ZD, [40:35] ZA, [34:29] ZB, [28:23] ZC, [22:17] TAG, [16:14] RM, [13] SAT,
[12:0] FN. -/
structure VR where
  lat : BitVec 4
  zd : BitVec 6
  za : BitVec 6
  zb : BitVec 6
  zc : BitVec 6
  tag : BitVec 6
  rm : BitVec 3
  sat : BitVec 1
  fn : BitVec 13
  deriving DecidableEq, Repr

/-- Format VM (02 R66): [50:47] LAT, [46:41] Z, [40:35] A, [34:33] QF, [32:13] OFF, [12:0] STEP. -/
structure VM where
  lat : BitVec 4
  z : BitVec 6
  a : BitVec 6
  qf : BitVec 2
  off : BitVec 20
  step : BitVec 13
  deriving DecidableEq, Repr

/-- The M slot word (02 R67): [50:45] LAT, [44:39] KP, [38:33] KC0, [32:27] KC1, [26:21] KC2, [20:18] CMASK, [17:12] ZA,
[11:9] PL, [8] AB, [7:0] FN. -/
structure MW where
  lat : BitVec 6
  kp : BitVec 6
  kc0 : BitVec 6
  kc1 : BitVec 6
  kc2 : BitVec 6
  cmask : BitVec 3
  za : BitVec 6
  pl : BitVec 3
  ab : BitVec 1
  fn : BitVec 8
  deriving DecidableEq, Repr

/-- The C slot word (02 R68): [50:45] KP, [44:39] KC0, [38:33] KC1, [32:27] KC2, [26:24] CMASK, [23:18] A, [17:12] B,
[11:6] C, [5:0] STEP. -/
structure CW where
  kp : BitVec 6
  kc0 : BitVec 6
  kc1 : BitVec 6
  kc2 : BitVec 6
  cmask : BitVec 3
  a : BitVec 6
  b : BitVec 6
  c : BitVec 6
  step : BitVec 6
  deriving DecidableEq, Repr

/-- The bundle header (02 R54) without FRAME and the reserved bits: LOOPEND, REPEAT, QUIET, PRESENT. -/
structure Header where
  loopend : BitVec 4
  rep : BitVec 8
  quiet : BitVec 6
  present : BitVec 6
  deriving DecidableEq, Repr

/-- A message of the Zhevit link (18 R456), one field for each of its header's, and its data units. -/
structure Msg where
  mtype : BitVec 8
  tag : BitVec 16
  src : BitVec 20
  dst : BitVec 20
  rasid : BitVec 10
  ca : BitVec 52
  poison : Bool
  ord : Bool
  scope : BitVec 3
  mask : BitVec 8
  op : BitVec 8
  fmt : BitVec 8
  arg : BitVec 64
  units : List (BitVec 128)
  deriving DecidableEq, Repr

/-- A 256 B flit as one little-endian number: byte i is bits [8i+7:8i] (18 R455). -/
abbrev Flit := BitVec 2048

/-- The INIT control message (18 R455): the sender's identifier, UNSET and the three initial credits. -/
structure InitMsg where
  id : BitVec 20
  unset : Bool
  credit0 : BitVec 16
  credit1 : BitVec 16
  credit2 : BitVec 16
  deriving DecidableEq, Repr

/-- The payload of XLATE_REQ (14 R378). -/
structure XlateReq where
  tag : BitVec 16
  asid : BitVec 16
  va : BitVec 64
  pages : BitVec 16
  r : Bool
  w : Bool
  deriving DecidableEq, Repr

/-- Package registers whose write stores a value and does nothing else (00 R8, 13 R347, 20 R498). -/
inductive PkgReg where
  /-- base of the context table (14 R354) -/
  | ctxBase
  /-- base of the heap control blocks (15 R389) -/
  | hcbBase
  /-- base of the logical core map (19 R471) -/
  | lcmapBase
  /-- base of the error log (18 R438) -/
  | logBase
  /-- base of the whorl control blocks (19 R472, 22 R507) -/
  | whorlBase
  /-- a request word of a mailbox, offset 0x00 to 0x38 (13 R347) -/
  | mailboxReq (mb : Nat) (word : Nat)
  deriving DecidableEq, Repr

/-- A place of on-chip state that an uncorrectable error can poison (18 R445). -/
inductive UePlace where
  | sreg (n : Nat)
  | preg (n : Nat)
  | hreg (n : Nat)
  | kreg (n : Nat)
  | lreg (n : Nat)
  | knot (n : Nat)
  /-- the beat at a ring index of a strand -/
  | beat (z : Nat) (ring : Nat)
  /-- a landing slot -/
  | landing (idx : Nat)
  /-- the scratchpad granule at an address -/
  | spad (addr : Nat)
  /-- the memory granule at a physical address: L2, a remote-data cache or HBM -/
  | mem (pa : Nat)
  deriving DecidableEq, Repr

/-- What a remote write to a scratchpad comes from (09 R282): whole granules of a copy engine, or the 1 to 8 bytes of an
S-slot store. -/
inductive WriteSrc where
  | granules (addr : Nat) (bytes : List Byte)
  | bytes (addr : Nat) (bytes : List Byte)
  deriving DecidableEq, Repr

inductive Instr where
  /-- HEADER_ONLY_BUNDLE (R55): A header-only bundle issues REPEAT + 1 times with every slot quiet or sticky, then closes any loop that LOOPEND names. -/
  | headerOnlyBundle (l : BitVec 4) (r : BitVec 8) (q : BitVec 6)
  /-- ADD (R124): Writes the 64-bit wrapping sum of two s registers. -/
  | add (g : Guard) (w : SR)
  /-- SUB (R124): Writes the 64-bit wrapping difference of two s registers. -/
  | sub (g : Guard) (w : SR)
  /-- MUL (R124): Writes the low 64 bits of the product of two s registers. -/
  | mul (g : Guard) (w : SR)
  /-- MULH (R124): Writes the high 64 bits of the signed product. -/
  | mulh (g : Guard) (w : SR)
  /-- MULHU (R124): Writes the high 64 bits of the unsigned product. -/
  | mulhu (g : Guard) (w : SR)
  /-- AND (R124): Writes the bitwise and of two s registers. -/
  | and (g : Guard) (w : SR)
  /-- OR (R124): Writes the bitwise or of two s registers. -/
  | or (g : Guard) (w : SR)
  /-- XOR (R124): Writes the bitwise exclusive or of two s registers. -/
  | xor (g : Guard) (w : SR)
  /-- SHL (R124): Shifts s[A] left by s[B][5:0]. -/
  | shl (g : Guard) (w : SR)
  /-- SHR (R124): Shifts s[A] right logically by s[B][5:0]. -/
  | shr (g : Guard) (w : SR)
  /-- SAR (R124): Shifts s[A] right arithmetically by s[B][5:0]. -/
  | sar (g : Guard) (w : SR)
  /-- MIN (R124): Writes the signed minimum of two s registers. -/
  | min (g : Guard) (w : SR)
  /-- MAX (R124): Writes the signed maximum of two s registers. -/
  | max (g : Guard) (w : SR)
  /-- MINU (R124): Writes the unsigned minimum of two s registers. -/
  | minu (g : Guard) (w : SR)
  /-- MAXU (R124): Writes the unsigned maximum of two s registers. -/
  | maxu (g : Guard) (w : SR)
  /-- CLZ (R124): Writes the count of leading zero bits of s[A]. -/
  | clz (g : Guard) (w : SR)
  /-- POPC (R124): Writes the count of one bits of s[A]. -/
  | popc (g : Guard) (w : SR)
  /-- ADDI (R125): Adds a sign-extended 35-bit immediate to s[A]. -/
  | addi (g : Guard) (w : SI)
  /-- ANDI (R125): Ands s[A] with a sign-extended immediate. -/
  | andi (g : Guard) (w : SI)
  /-- ORI (R125): Ors s[A] with a sign-extended immediate. -/
  | ori (g : Guard) (w : SI)
  /-- XORI (R125): Exclusive-ors s[A] with a sign-extended immediate. -/
  | xori (g : Guard) (w : SI)
  /-- SHLI (R125): Shifts s[A] left by IMM[5:0]. -/
  | shli (g : Guard) (w : SI)
  /-- SHRI (R125): Shifts s[A] right logically by IMM[5:0]. -/
  | shri (g : Guard) (w : SI)
  /-- SARI (R125): Shifts s[A] right arithmetically by IMM[5:0]. -/
  | sari (g : Guard) (w : SI)
  /-- LI (R125): Loads a sign-extended 35-bit immediate into s[D]. -/
  | li (g : Guard) (w : SI)
  /-- CMPEQ (R126): Sets p[D] to whether two s registers are equal. -/
  | cmpeq (g : Guard) (w : SR)
  /-- CMPNE (R126): Sets p[D] to whether two s registers differ. -/
  | cmpne (g : Guard) (w : SR)
  /-- CMPLT (R126): Sets p[D] to a signed less-than comparison. -/
  | cmplt (g : Guard) (w : SR)
  /-- CMPLE (R126): Sets p[D] to a signed less-or-equal comparison. -/
  | cmple (g : Guard) (w : SR)
  /-- CMPLTU (R126): Sets p[D] to an unsigned less-than comparison. -/
  | cmpltu (g : Guard) (w : SR)
  /-- CMPLEU (R126): Sets p[D] to an unsigned less-or-equal comparison. -/
  | cmpleu (g : Guard) (w : SR)
  /-- CMPEQI (R126): Sets p[D] to whether s[A] equals the sign-extended immediate. -/
  | cmpeqi (g : Guard) (w : SI)
  /-- CMPLTI (R126): Sets p[D] to whether s[A] is signed-less than the immediate. -/
  | cmplti (g : Guard) (w : SI)
  /-- PAND (R127): Writes the and of two predicates. -/
  | pand (g : Guard) (w : SR)
  /-- POR (R127): Writes the or of two predicates. -/
  | por (g : Guard) (w : SR)
  /-- PXOR (R127): Writes the exclusive or of two predicates. -/
  | pxor (g : Guard) (w : SR)
  /-- PNOT (R127): Writes the negation of a predicate. -/
  | pnot (g : Guard) (w : SR)
  /-- FADD (R129): Writes the rounded FP32 sum of two scalars. -/
  | fadd (g : Guard) (w : SR)
  /-- FSUB (R129): Writes the rounded FP32 difference. -/
  | fsub (g : Guard) (w : SR)
  /-- FMUL (R129): Writes the rounded FP32 product. -/
  | fmul (g : Guard) (w : SR)
  /-- FFMA (R129): Writes a × b + c in FP32 with one rounding. -/
  | ffma (g : Guard) (w : SR)
  /-- FDIV (R129): Writes the rounded FP32 quotient. -/
  | fdiv (g : Guard) (w : SR)
  /-- FSQRT (R129): Writes the rounded FP32 square root. -/
  | fsqrt (g : Guard) (w : SR)
  /-- FMIN (R129): Writes the lesser of two FP32 values. -/
  | fmin (g : Guard) (w : SR)
  /-- FMAX (R129): Writes the greater of two FP32 values. -/
  | fmax (g : Guard) (w : SR)
  /-- FCMPEQ (R129): Sets p[D] to an FP32 equality comparison. -/
  | fcmpeq (g : Guard) (w : SR)
  /-- FCMPLT (R129): Sets p[D] to an FP32 less-than comparison. -/
  | fcmplt (g : Guard) (w : SR)
  /-- FCMPLE (R129): Sets p[D] to an FP32 less-or-equal comparison. -/
  | fcmple (g : Guard) (w : SR)
  /-- FCVTI (R130): Converts FP32 to a selected integer width with round_int and clamping. -/
  | fcvti (g : Guard) (w : SR)
  /-- ICVTF (R130): Converts a signed or unsigned 64-bit integer to FP32. -/
  | icvtf (g : Guard) (w : SR)
  /-- BR (R132): Branches to PC + 4 × DISP when its guard holds. -/
  | br (g : Guard) (w : SB)
  /-- BRI (R132): Branches to s[A] + 4 × DISP when its guard holds. -/
  | bri (g : Guard) (w : SB)
  /-- CALL (R132): Writes the link and branches to PC + 4 × DISP. -/
  | call (g : Guard) (w : SB)
  /-- CALLI (R132): Writes the link and branches to s[A] + 4 × DISP. -/
  | calli (g : Guard) (w : SB)
  /-- RET (R132): Branches to s[A], marked as a return. -/
  | ret (g : Guard) (w : SB)
  /-- LOOP (R133): Sets up a hardware loop register, or skips the loop when the count is zero. -/
  | loop (g : Guard) (w : SB)
  /-- HBASE (R140): Builds a handle with a base, space and tag and default fields. -/
  | hbase (g : Guard) (w : SR)
  /-- HSET (R140): Copies a handle with one field replaced by s[A]. -/
  | hset (g : Guard) (w : SR)
  /-- HSTEP (R140): Writes one step of a handle under its STEPMODE. -/
  | hstep (g : Guard) (w : SR)
  /-- HGET (R140): Reads one handle field into s[D]. -/
  | hget (g : Guard) (w : SR)
  /-- HMOV (R140): Copies a handle register. -/
  | hmov (g : Guard) (w : SR)
  /-- LDS (R143): Loads from the scratchpad into s[D], optionally waiting for and clearing a full-empty bit. -/
  | lds (g : Guard) (w : SM)
  /-- STS (R143): Stores s[D] to the scratchpad, optionally setting the full-empty bit. -/
  | sts (g : Guard) (w : SM)
  /-- LDG (R145): Issues a global load through the range registers that lands in s[D] at its landing time. -/
  | ldg (g : Guard) (w : SG)
  /-- STG (R146): Sends a global store into the core's store stream, cached or uncached by class. -/
  | stg (g : Guard) (w : SG)
  /-- CRR (R148): Reads a control register into s[D]. -/
  | crr (g : Guard) (w : SI)
  /-- CRW (R267): Writes s[A] into a control register, with per-register checks and effects. -/
  | crw (g : Guard) (w : SI)
  /-- ZINS (R150): Drives a strand beat with one 8-byte unit replaced by s[B]. -/
  | zins (g : Guard) (w : SR)
  /-- ZEXT (R151): Lands one 8-byte unit of a strand beat into s[D]. -/
  | zext (g : Guard) (w : SR)
  /-- AMOADD (R246): Atomic add at the home slice, returning the old value. -/
  | amoadd (g : Guard) (w : SA)
  /-- AMOAND (R246): Atomic and at the home slice, returning the old value. -/
  | amoand (g : Guard) (w : SA)
  /-- AMOOR (R246): Atomic or at the home slice, returning the old value. -/
  | amoor (g : Guard) (w : SA)
  /-- AMOXOR (R246): Atomic exclusive or at the home slice, returning the old value. -/
  | amoxor (g : Guard) (w : SA)
  /-- AMOMIN (R246): Atomic signed minimum at the home slice, returning the old value. -/
  | amomin (g : Guard) (w : SA)
  /-- AMOMAX (R246): Atomic signed maximum at the home slice, returning the old value. -/
  | amomax (g : Guard) (w : SA)
  /-- AMOSWAP (R246): Atomic swap at the home slice, returning the old value. -/
  | amoswap (g : Guard) (w : SA)
  /-- AMOCAS (R246): Atomic compare-and-swap at the home slice, returning the old value. -/
  | amocas (g : Guard) (w : SA)
  /-- AMOFADD (R249): Atomic FP32 add in RNE at the home slice, returning the old value. -/
  | amofadd (g : Guard) (w : SA)
  /-- BAR (R250): Optionally drains, sends a barrier packet and freezes until the gang's release arrives. -/
  | bar (g : Guard) (w : SI)
  /-- DRAIN (R254): Freezes until every earlier counted global write has performed at the scope. -/
  | drain (g : Guard) (w : SI)
  /-- SETTLE (R255): Freezes until landings have arrived, no knot is pending and the retirement tracker is empty. -/
  | settle (g : Guard) (w : SI)
  /-- YIELD (R256): Restarts the watchdog and, when a scheduler request is pending, takes PREEMPT at the boundary before its bundle. -/
  | yield (g : Guard) (w : SI)
  /-- TAIL (R257): Ends the item, passing outstanding writes to a retirement-tracker entry and freeing the core. -/
  | tail (g : Guard) (w : SI)
  /-- ENTER (R258): Pushes a region ID onto the region stack. -/
  | enter (g : Guard) (w : SI)
  /-- LEAVE (R258): Pops the region stack. -/
  | leave (g : Guard) (w : SI)
  /-- PROBE (R259): Tests that an extent can be accessed, raising PROBE_FAULT instead of killing the context. -/
  | probe (g : Guard) (w : SI)
  /-- TRAP (R260): Raises TRAPI or BREAK with a code. -/
  | trap (g : Guard) (w : SI)
  /-- ERET (R265): Kills the item, releases the core, or resumes the trapped bundle with latched replays. -/
  | eret (g : Guard) (w : SI)
  /-- LDREF (R236): Loads a reference, resolving and healing a stale colour. -/
  | ldref (g : Guard) (w : SG)
  /-- STREF (R237): Stores a reference, resolving it first if stale. -/
  | stref (g : Guard) (w : SG)
  /-- LDFLD (R238): Loads a non-reference object field as LDG does. -/
  | ldfld (g : Guard) (w : SG)
  /-- STFLD (R238): Stores a non-reference object field as STG does. -/
  | stfld (g : Guard) (w : SG)
  /-- PIN (R239): Heals a reference, raises the object's pin count and returns its raw address. -/
  | pin (g : Guard) (w : SR)
  /-- UNPIN (R239): Heals a reference and lowers the object's pin count. -/
  | unpin (g : Guard) (w : SR)
  /-- REFEQ (R240): Sets p[D] when two references name the same object. -/
  | refeq (g : Guard) (w : SR)
  /-- REFMK (R241): Makes a good-coloured reference from an address and heap. -/
  | refmk (g : Guard) (w : SR)
  /-- SLOTMAP (R269): Writes a target core's slot map at its next bundle boundary. -/
  | slotmap (g : Guard) (w : SR)
  /-- TTSET (R269): Writes one timing-table entry of a target core at its next bundle boundary. -/
  | ttset (g : Guard) (w : SR)
  /-- SKEINLD_LOAD (R465): Verifies a skein and loads it into free fabric segments within reach of a site. -/
  | skeinldLoad (g : Guard) (w : SR)
  /-- SKEINLD_RELEASE (R465): Frees the segments a skein holds for a unit of a site. -/
  | skeinldRelease (g : Guard) (w : SR)
  /-- SCANRUN (R473): Runs one scan pass on a drained site and resets it. -/
  | scanrun (g : Guard) (w : SR)
  /-- PREEMPT (R270): Delivers PREEMPT to a target site and returns when it has entered its handler. -/
  | preempt (g : Guard) (w : SR)
  /-- CTXSAVE (R270): Writes the context image of the core in a PREEMPT handler. -/
  | ctxsave (g : Guard) (w : SR)
  /-- CTXLOAD (R270): Checks and restores a context image for a following ERET. -/
  | ctxload (g : Guard) (w : SR)
  /-- QMAP (R344): Routes a user queue's doorbell to a loaded slot and binds it. -/
  | qmap (g : Guard) (w : SR)
  /-- QSAVE (R344): Writes a bound slot's QCB to memory and unbinds it. -/
  | qsave (g : Guard) (w : SR)
  /-- QLOAD (R344): Reads a QCB into an unbound slot. -/
  | qload (g : Guard) (w : SR)
  /-- PSTEP (R483): Sends a power level to the package power controller. -/
  | pstep (g : Guard) (w : SR)
  /-- INVAL (R375): Invalidates page translations, optionally flushing lines, in every translator. -/
  | inval (g : Guard) (w : SR)
  /-- RELOC_START (R396): Checks an evacuation-set descriptor and starts the die's relocation engine on it. -/
  | relocStart (g : Guard) (w : SR)
  /-- RELOC_QUERY (R396): Returns the relocation engine's status word. -/
  | relocQuery (g : Guard) (w : SR)
  /-- RELOC_ABORT (R396): Stops the engine claiming further objects of its set. -/
  | relocAbort (g : Guard) (w : SR)
  /-- FWDPUB (R398): Advances a heap's good colour on every core of the context and marks the set published. -/
  | fwdpub (g : Guard) (w : SR)
  /-- LOGR_APP (R441): Appends a 64 B record to the error log. -/
  | logrApp (g : Guard) (w : SR)
  /-- LOGR_READ (R441): Copies the first readable log record at or after a sequence number. -/
  | logrRead (g : Guard) (w : SR)
  /-- VLD (R160): Loads one scratchpad beat as RAW onto a strand. -/
  | vld (v : VSlot) (g : Guard) (w : VM)
  /-- VST (R161): Stores a strand beat's data to the scratchpad. -/
  | vst (v : VSlot) (g : Guard) (w : VM)
  /-- VMOV (R163): Drives a copy of a beat. -/
  | vmov (v : VSlot) (g : Guard) (w : VR)
  /-- VTAG (R163): Drives a beat with its tag replaced. -/
  | vtag (v : VSlot) (g : Guard) (w : VR)
  /-- VPERM (R164): Permutes 16- or 32-bit elements by an index beat. -/
  | vperm (v : VSlot) (g : Guard) (w : VR)
  /-- VBCST_SCALAR (R165): Broadcasts the low bits of s[A] to every element. -/
  | vbcstScalar (v : VSlot) (g : Guard) (w : VR)
  /-- VBCST_ELEMENT (R165): Broadcasts one element of a beat to every element. -/
  | vbcstElement (v : VSlot) (g : Guard) (w : VR)
  /-- VSHUF (R166): Interleaves, splits or rotates the elements of two beats. -/
  | vshuf (v : VSlot) (g : Guard) (w : VR)
  /-- VSEL (R167): Selects elements from two beats by a mask beat. -/
  | vsel (v : VSlot) (g : Guard) (w : VR)
  /-- VADD (R168): Elementwise floating-point add with one rounding. -/
  | vadd (v : VSlot) (g : Guard) (w : VR)
  /-- VSUB (R168): Elementwise floating-point subtract. -/
  | vsub (v : VSlot) (g : Guard) (w : VR)
  /-- VMUL (R168): Elementwise floating-point multiply. -/
  | vmul (v : VSlot) (g : Guard) (w : VR)
  /-- VFMA (R168): Elementwise fused multiply-add. -/
  | vfma (v : VSlot) (g : Guard) (w : VR)
  /-- VFMS (R168): Elementwise fused multiply-subtract. -/
  | vfms (v : VSlot) (g : Guard) (w : VR)
  /-- VMIN (R169): Elementwise floating-point minimum. -/
  | vmin (v : VSlot) (g : Guard) (w : VR)
  /-- VMAX (R169): Elementwise floating-point maximum. -/
  | vmax (v : VSlot) (g : Guard) (w : VR)
  /-- VABS (R169): Clears the sign of every non-NaN element. -/
  | vabs (v : VSlot) (g : Guard) (w : VR)
  /-- VNEG (R169): Inverts the sign of every non-NaN element. -/
  | vneg (v : VSlot) (g : Guard) (w : VR)
  /-- VCMP (R170): Compares floating-point elements into an unsigned mask beat. -/
  | vcmp (v : VSlot) (g : Guard) (w : VR)
  /-- VIADD (R171): Elementwise integer add, wrapping or saturating. -/
  | viadd (v : VSlot) (g : Guard) (w : VR)
  /-- VISUB (R171): Elementwise integer subtract. -/
  | visub (v : VSlot) (g : Guard) (w : VR)
  /-- VIMUL (R171): Elementwise integer multiply. -/
  | vimul (v : VSlot) (g : Guard) (w : VR)
  /-- VIMAD (R171): Elementwise integer multiply-add with one wrap or clamp. -/
  | vimad (v : VSlot) (g : Guard) (w : VR)
  /-- VAND (R171): Bitwise and over all data bytes. -/
  | vand (v : VSlot) (g : Guard) (w : VR)
  /-- VOR (R171): Bitwise or over all data bytes. -/
  | vor (v : VSlot) (g : Guard) (w : VR)
  /-- VXOR (R171): Bitwise exclusive or over all data bytes. -/
  | vxor (v : VSlot) (g : Guard) (w : VR)
  /-- VIMIN (R171): Elementwise integer minimum. -/
  | vimin (v : VSlot) (g : Guard) (w : VR)
  /-- VIMAX (R171): Elementwise integer maximum. -/
  | vimax (v : VSlot) (g : Guard) (w : VR)
  /-- VSHL (R172): Shifts every integer element left. -/
  | vshl (v : VSlot) (g : Guard) (w : VR)
  /-- VSHR (R172): Shifts every integer element right logically. -/
  | vshr (v : VSlot) (g : Guard) (w : VR)
  /-- VSAR (R172): Shifts every integer element right arithmetically. -/
  | vsar (v : VSlot) (g : Guard) (w : VR)
  /-- VICMP (R173): Compares integer elements into an unsigned mask beat. -/
  | vicmp (v : VSlot) (g : Guard) (w : VR)
  /-- VCVT (R174): Converts a beat to another format and places it by part. -/
  | vcvt (v : VSlot) (g : Guard) (w : VR)
  /-- VQZB (R175): Quantises floating-point elements into ZB blocks, optionally with given scales. -/
  | vqzb (v : VSlot) (g : Guard) (w : VR)
  /-- VMXI (R176): Imports microscaling data into ZB blocks. -/
  | vmxi (v : VSlot) (g : Guard) (w : VR)
  /-- VRSUM (R177): Sums groups of elements exactly with one rounding. -/
  | vrsum (v : VSlot) (g : Guard) (w : VR)
  /-- VRMAX (R177): Takes the maximum of groups of elements. -/
  | vrmax (v : VSlot) (g : Guard) (w : VR)
  /-- VRMIN (R177): Takes the minimum of groups of elements. -/
  | vrmin (v : VSlot) (g : Guard) (w : VR)
  /-- VEXP2 (R178): Computes 2^x per element by the fixed algorithm. -/
  | vexp2 (v : VSlot) (g : Guard) (w : VR)
  /-- VLOG2 (R178): Computes log2 x per element. -/
  | vlog2 (v : VSlot) (g : Guard) (w : VR)
  /-- VRCP (R178): Computes the reciprocal per element. -/
  | vrcp (v : VSlot) (g : Guard) (w : VR)
  /-- VRSQ (R178): Computes the reciprocal square root per element. -/
  | vrsq (v : VSlot) (g : Guard) (w : VR)
  /-- VSIN (R178): Computes the sine per element. -/
  | vsin (v : VSlot) (g : Guard) (w : VR)
  /-- VCOS (R178): Computes the cosine per element. -/
  | vcos (v : VSlot) (g : Guard) (w : VR)
  /-- VSCGET (R179): Copies a ZB beat's sidecar bytes into data bytes of another beat. -/
  | vscget (v : VSlot) (g : Guard) (w : VR)
  /-- VSCSET (R179): Builds a ZB beat from mantissa data and header bytes. -/
  | vscset (v : VSlot) (g : Guard) (w : VR)
  /-- VSCADD (R180): Scales a beat by 2^n. -/
  | vscadd (v : VSlot) (g : Guard) (w : VR)
  /-- VSCMAX (R181): Folds block exponents into an E8M0 vector by maximum. -/
  | vscmax (v : VSlot) (g : Guard) (w : VR)
  /-- FX (R182): Runs a fabric-defined vector operation given by a loaded skein. -/
  | fx (n : BitVec 4) (v : VSlot) (g : Guard) (w : VR)
  /-- MLB (R198): Loads a B plane and its header image from the scratchpad. -/
  | mlb (g : Guard) (w : MW)
  /-- MSEL (R199): Sets a bank's row and K cursor. -/
  | msel (g : Guard) (w : MW)
  /-- MAC (R200): Accumulates an A beat against a plane into a bank. -/
  | mac (g : Guard) (w : MW)
  /-- MACN (R200): Accumulates the negated A beat against a plane. -/
  | macn (g : Guard) (w : MW)
  /-- MACZ (R200): Accumulates an A beat, starting fresh sums at KQ 0. -/
  | macz (g : Guard) (w : MW)
  /-- MRD (R201): Drives a snapshot of one accumulator half-row. -/
  | mrd (g : Guard) (w : MW)
  /-- MRD_STEPS (R201): Drives a beat with a bank's STEPS, cursor, mode and plane tags. -/
  | mrdSteps (g : Guard) (w : MW)
  /-- MDR (R202): Drains an accumulator row in a selected form and clears it. -/
  | mdr (g : Guard) (w : MW)
  /-- MCLR (R203): Clears a bank's accumulators, STEPS and cursor. -/
  | mclr (g : Guard) (w : MW)
  /-- MMODE (R204): Sets a bank's rounding mode and saturation. -/
  | mmode (g : Guard) (w : MW)
  /-- CPY (R222): Queues a copy of LEN bytes between scratchpad and local global ranges. -/
  | cpy (c : CSlot) (g : Guard) (w : CW)
  /-- CPYR (R222): Queues a copy with exactly one REMOTE operand. -/
  | cpyr (c : CSlot) (g : Guard) (w : CW)
  /-- CPYT (R223): Queues a tensor copy between two handles. -/
  | cpyt (c : CSlot) (g : Guard) (w : CW)
  /-- CPYTR (R223): Queues a tensor copy with one REMOTE handle. -/
  | cpytr (c : CSlot) (g : Guard) (w : CW)
  /-- GATH (R226): Gathers table rows named by an index list. -/
  | gath (c : CSlot) (g : Guard) (w : CW)
  /-- GATHR (R226): Gathers rows from a REMOTE table. -/
  | gathr (c : CSlot) (g : Guard) (w : CW)
  /-- SCAT (R226): Scatters rows to table rows named by an index list. -/
  | scat (c : CSlot) (g : Guard) (w : CW)
  /-- SCATR (R226): Scatters rows into a REMOTE table. -/
  | scatr (c : CSlot) (g : Guard) (w : CW)
  /-- CFILL (R224): Fills LEN bytes with an 8-byte pattern. -/
  | cfill (c : CSlot) (g : Guard) (w : CW)
  /-- REDC (R227): Combines a source into a global buffer line by line at its home slice. -/
  | redc (c : CSlot) (g : Guard) (w : CW)
  /-- BCST (R228): Sends bytes to every member of a multicast group. -/
  | bcst (c : CSlot) (g : Guard) (w : CW)
  /-- LDQ (R229): Writes the item's input record to the scratchpad. -/
  | ldq (c : CSlot) (g : Guard) (w : CW)
  /-- STQ (R230): Pushes a 64 B record onto a stage queue, waiting for room. -/
  | stq (c : CSlot) (g : Guard) (w : CW)
  /-- KWAIT (R231): Waits on consumed and mask knots, optionally clearing them, and produces a joined knot. -/
  | kwait (c : CSlot) (g : Guard) (w : CW)
  /-- COPY_PERFORM (R210): A copy-engine operation performs or fails, resolving or failing its knot and freeing its queue entry. -/
  | copyPerform (core : Nat) (e : Engine) (idx : Nat)
  /-- STQ_PUSH_PERFORM (R230): A waiting STQ push enters its queue when room appears and its knot resolves. -/
  | stqPushPerform (core : Nat) (e : Engine) (idx : Nat)
  /-- M_OPERATION_PERFORM (R192): A matrix operation performs in issue order, updating matrix state and resolving its knot. -/
  | mOperationPerform (core : Nat)
  /-- LANDING_DATA_ARRIVAL (R37): Data or an atomic reply arrives for a landing slot, ending any LAND freeze at its landing time. -/
  | landingDataArrival (core : Nat) (idx : Nat)
  /-- STORE_PERFORM (R146): A store of the store stream performs at its destination, letting the next store proceed. -/
  | storePerform (core : Nat)
  /-- UNCACHED_WRITE_ACK (R146): An uncached write is acknowledged, freeing its line-request entry and request buffer slot. -/
  | uncachedWriteAck (core : Nat)
  /-- RETIREMENT_ENTRY_FREE (R257): A retirement-tracker entry frees when all its writes have performed. -/
  | retirementEntryFree (core : Nat) (idx : Nat)
  /-- HOME_SLICE_ACCESS (R277): A home slice arbitrates one access to a line, recalling, translating and forwarding as needed. -/
  | homeSliceAccess (core : Nat) (idx : Nat)
  /-- INVALIDATION (R275): A remote-data cache drops a line and its L1 copies and acknowledges the invalidation. -/
  | invalidation (die : Nat) (line : Nat)
  /-- REMOTE_WRITE (R282): A remote write reaches a core's scratchpad bank and sets the granules' full-empty bits. -/
  | remoteWrite (core : Nat) (src : WriteSrc)
  /-- FETCH_FILL (R25): The next bundle arrives in the instruction cache, ending a FETCH freeze. -/
  | fetchFill (core : Nat)
  /-- ECC_CORR (R26): A correctable error is detected in a core's on-chip memory, starting or extending a 16-cycle ECC freeze. -/
  | eccCorr (core : Nat) (counter : Nat)
  /-- ECC_FREEZE_END (R26): An ECC freeze ends 16 cycles after the latest detection. -/
  | eccFreezeEnd (core : Nat)
  /-- ONCHIP_UE (R445): An uncorrectable error in on-chip state poisons the word in place and is logged. -/
  | onchipUe (core : Nat) (place : UePlace)
  /-- SYSTEM_UE (R446): An uncorrectable error in system memory is logged as fatal and contained. -/
  | systemUe (ca : Nat) (mask : BitVec 8)
  /-- DPC_RELEASE (R448): The host releases containment and firmware reinitialises the partition's function. -/
  | dpcRelease (part : Nat)
  /-- BAR_PACKET (R251): A router takes a barrier packet and forwards or releases when every marked port has reported. -/
  | barPacket (core : Nat)
  /-- BARRIER_RELEASE (R251): The release reaches a member core and ends its BARRIER freeze. -/
  | barrierRelease (core : Nat)
  /-- FATAL_CONTEXT_ERROR (R372): A translator's refusal reaches the core and delivers MEMORY_FATAL. -/
  | fatalContextError (core : Nat)
  /-- CONTEXT_KILL (R443): A supervisor delivers CONTEXT_KILL with a reason to a core of a context. -/
  | contextKill (core : Nat) (reason : BitVec 8)
  /-- SUPSTART (R52): A write to a stopped supervisor's start register sets its PC and releases it. -/
  | supstart (die : Nat) (pc : BitVec 64)
  /-- ACCOUNT_LATCH (R290): A read at offset 0 of a site's accounting registers latches its counters, CYCLE and ASID. -/
  | accountLatch (core : Nat)
  /-- SUPERVISOR_FLUSH (R288): The die supervisor requests a flush, spilling PC-hash entries and snapshotting the matrix. -/
  | supervisorFlush (core : Nat)
  /-- CAPTURE_START (R304): A start capture packet clears a capture slot and makes it busy. -/
  | captureStart (core : Nat)
  /-- CAPTURE_STOP (R304): A stop capture packet writes the capture record and idles the slot. -/
  | captureStop (core : Nat)
  /-- SHOOTDOWN (R312): A core invalidates a patched line in its instruction cache and acknowledges. -/
  | shootdown (core : Nat)
  /-- KICK (R345): A doorbell write of a new WRIDX updates a bound slot or memory QCB and sets the pending bit. -/
  | kick (part : Nat) (qid : Nat) (wridx : BitVec 64)
  /-- PACKET_FETCH (R334): A bound slot fetches and checks its next launch packet and starts the launch. -/
  | packetFetch (slot : Nat)
  /-- LAUNCH_COMPLETE (R334): A launch completes, its completion record is written and RDIDX advances. -/
  | launchComplete (slot : Nat)
  /-- ITEM_START (R336): A core pops an input record and starts an item in its defined starting state. -/
  | itemStart (core : Nat)
  /-- RESUME_ENTRY (R271): A core given a suspended item enters system mode at the resume address with the image address. -/
  | resumeEntry (core : Nat)
  /-- REBALANCE (R338): At each epoch boundary the stage scheduler shares and assigns cores to slots and stages. -/
  | rebalance (die : Nat)
  /-- AGEING (R341): After AGEINT epochs without a share, a slot's effective priority rises by one. -/
  | ageing (slot : Nat)
  /-- WATCHDOG_EXPIRE (R342): An item's watchdog timer reaches its period and delivers WATCHDOG, starting the partition drain. -/
  | watchdogExpire (core : Nat)
  /-- PARTITION_RESET (R449): Once the partition is drained its cores are reset, the reset is logged and its slots resume. -/
  | partitionReset (part : Nat)
  /-- RANGE_RELOAD (R356): Cores of a context load its rewritten range registers. -/
  | rangeReload (asid : Nat)
  /-- BUNDLING_COMPLETE (R428): The loader finishes bundling a function and sets its stub to the PLACED form. -/
  | bundlingComplete (asid : Nat) (fn : Nat)
  /-- CODE_EVICT (R428): An evicting function's code is freed once every core has acknowledged and nothing names it. -/
  | codeEvict (asid : Nat) (fn : Nat)
  /-- OBJECT_CLAIM (R397): The relocation engine claims or skips the next object of its set at its header's home slice. -/
  | objectClaim (die : Nat)
  /-- LINE_MOVE_READ (R403): A source line enters COPYING at the engine's read step and its accesses are held. -/
  | lineMoveRead (die : Nat)
  /-- LINE_MOVE_COPIED (R403): The destination write performs, the line becomes COPIED and held accesses are forwarded. -/
  | lineMoveCopied (die : Nat)
  /-- PUBLISH (R397): When an object's last line is COPIED, its forwarding entry is inserted and held pins are released. -/
  | publish (die : Nat)
  /-- HOST_ACCESS (R377): A host access through the aperture is translated under the grant or completes as Unsupported Request. -/
  | hostAccess (part : Nat) (offset : Nat) (wr : Option (List Byte))
  /-- PCS_LOCK (R454): A scale-out port completes PCS alignment and FEC lock and starts sending idle flits. -/
  | pcsLock (port : Nat)
  /-- FLIT (R455): A flit is received, its CRC and sequence checked, acknowledgements and credits applied. -/
  | flit (port : Nat) (f : Flit)
  /-- PORT_DOWN (R451): A port's link timeout takes it out of every route and replays its flits elsewhere. -/
  | portDown (port : Nat)
  /-- RETRAIN_ATTEMPT (R451): Every 1 ms a down port attempts retraining and rejoins the routes on success. -/
  | retrainAttempt (port : Nat) (ok : Bool)
  /-- PEER_UNREACHABLE (R452): A peer timeout fails every outstanding request to the peer. -/
  | peerUnreachable (peer : Nat)
  /-- MEMBER_FENCED (R453): A group timeout fences a member and fails waiting BCST knots. -/
  | memberFenced (group : Nat) (peer : Nat)
  /-- ROUTER_BYPASS (R451): A mesh router fails its checks, its site is bypassed and dropped. -/
  | routerBypass (die : Nat) (site : Nat)
  /-- WHORL_TICK (R472): A die's whorl tick selects and marks a site for scanning. -/
  | whorlTick (die : Nat)
  /-- DRAINMAX (R474): A marked site's DRAINMAX elapses and its item is pre-empted. -/
  | drainmax (die : Nat)
  /-- POWER_WINDOW (R481): A new 64-cycle power window begins, releasing POWER freezes and applying ceiling changes. -/
  | powerWindow (core : Nat)
  /-- REGISTER_WRITE (R8): A write to a register that has no behaviour of its own stores its value. -/
  | registerWrite (reg : PkgReg) (value : W64)
  /-- MAILBOX_RING (R347): A host write to a mailbox's RING copies REQ, sets BUSY and queues the request for the package supervisor, or is dropped and logged while BUSY is set. -/
  | mailboxRing (mb : Nat) (value : BitVec 32)
  /-- VOLTAGE_DROOP (R479): A voltage-droop event on a die is counted in the wear log bin for its depth. -/
  | voltageDroop (die : Nat) (mv : Nat)
  /-- XLATE_REQ (R377): A host agent requests translations and the supervisor answers with XLATE_CPL grants. -/
  | xlateReq
  /-- REVOKE_ACK (R379): The host acknowledges a revoke, letting the supervisor change the page. -/
  | revokeAck
  /-- REVOKE_TIMEOUT (R379): 10 ms without REVOKE_ACK removes the page from the BAR and logs the timeout. -/
  | revokeTimeout
  /-- INIT (R455): An INIT control message gives the peer's identifier and initial credits. -/
  | init
  /-- NAK (R455): A NAK makes the transmitter resend data flits from the expected SEQ. -/
  | nak
  /-- RETRAIN (R455): A RETRAIN control message is taken from the peer. -/
  | retrain
  /-- READ (R456): A remote READ is checked and answered with RDATA or ERROR. -/
  | read
  /-- WRITE (R456): A remote WRITE is checked, performed and answered with WACK. -/
  | write
  /-- ATOMIC (R456): A remote ATOMIC is performed at the home slice and answered with AREPLY. -/
  | atomic
  /-- REDC_MESSAGE (R456): A remote REDC line is combined at the home slice and answered with WACK. -/
  | redcMessage
  /-- BCST_MESSAGE (R456): A member checks and writes a BCST and answers with WACK. -/
  | bcstMessage
  /-- RDATA (R456): A read response sinks into its reserved landing slot or line-request entry. -/
  | rdata
  /-- WACK (R456): A write acknowledgement frees its request buffer slot and entry. -/
  | wack
  /-- AREPLY (R456): An atomic reply sinks into its landing slot. -/
  | areply
  /-- ERROR (R456): An ERROR response fails the request, as a fatal context error or a failed knot. -/
  | error
  /-- HEARTBEAT (R458): A heartbeat from a group member restarts its group timer. -/
  | heartbeat
  /-- PROBE_MESSAGE (R458): A PROBE is answered with PROBEACK by the scale-out engine. -/
  | probeMessage
  /-- PROBEACK (R458): A PROBEACK ends a peer's unreachable state. -/
  | probeack
  /-- POWER_STEP_PIN (R483): An edge of the board's power-step pin selects or releases PINLEVEL. -/
  | powerStepPin
  /-- MALFORMED_BUNDLE (R77): The bytes at the PC fail check 1 (bad FRAME, reserved header bits, invalid LOOPEND, PRESENT and QUIET both set, unassigned opcode, reserved slot-word bits) and the bundle raises ILLEGAL with nothing performed. -/
  | malformedBundle
  /-- PATCH_ACK_TIMEOUT (R312): 1 ms after a shootdown the supervisor reports the cores that have not acknowledged. -/
  | patchAckTimeout
  /-- CTXALLOC (R348): Allocates a live ASID in the partition. -/
  | ctxalloc
  /-- CTXFREE (R348): Kills a context if live and frees its ASID. -/
  | ctxfree
  /-- KILL (R348): Kills a context with reason 0x01. -/
  | kill
  /-- RANGESET (R361): Writes a context's range register after the supervisor's checks. -/
  | rangeset
  /-- MAP (R348): Allocates or maps pages and writes the page-table leaves. -/
  | map
  /-- UNMAP (R348): Revokes grants, clears the leaves and invalidates translations. -/
  | unmap
  /-- REGQ (R349): Copies a QCB image into system memory and registers the queue. -/
  | regq
  /-- DEREGQ (R349): Deregisters an idle queue or answers BUSY. -/
  | deregq
  /-- PLACE (R423): Checks an op list, grants its errata and writes a code object for it. -/
  | place
  /-- LOADOBJ (R423): Checks a zas code object and maps its code and data. -/
  | loadobj
  /-- REGOBJ (R423): Enters a data object in the object map. -/
  | regobj
  /-- UNREGOBJ (R423): Removes a data object from the object map. -/
  | unregobj
  /-- MIGOUT (R434): Pre-empts a context's items at YIELDs and writes a migration record. -/
  | migout
  /-- MIGIN (R435): Restores a context from a migration record. -/
  | migin
  /-- HEAPSTART (R348): Starts relocation of an evacuation set on its home die. -/
  | heapstart
  /-- HEAPQUERY (R348): Returns a die's relocation status. -/
  | heapquery
  /-- HEAPABORT (R348): Aborts a die's relocation set. -/
  | heapabort
  /-- HEAPPUB (R348): Publishes a heap's completed set with FWDPUB. -/
  | heappub
  /-- HEAPFREE (R402): Frees a published set, recording spans and zeroing the forwarding table. -/
  | heapfree
  /-- CAPTURE (R348): Sends a capture packet to sites of a die. -/
  | capture
  /-- REGIONBP (R310): Writes a region-breakpoint register of a core. -/
  | regionbp
  /-- HALT (R308): Asks cores of a context to halt at their next region edge. -/
  | halt
  /-- CONTINUE (R309): Clears HALT and lets halted cores run on. -/
  | continueRun
  /-- STEP_TO_EDGE (R309): Lets halted cores run to their next region edge. -/
  | stepToEdge
  /-- STEP_BUNDLE (R309): Lets halted cores issue one bundle and halt again. -/
  | stepBundle
  /-- PATCH_SET (R311): Sets bit 24 of a bundle header and shoots down the line. -/
  | patchSet
  /-- PATCH_CLEAR (R311): Clears a patched header bit and shoots down the line. -/
  | patchClear
  /-- LOGREAD (R348): Reads a log record on the requester's behalf to host memory. -/
  | logread
  /-- ATTEST (R493): Writes a signed attestation report. -/
  | attest
  /-- DBGCHAL (R495): Issues a fresh 32 B debug challenge. -/
  | dbgchal
  /-- DBGATTACH (R495): Checks a signed record and attaches a debugger at a level. -/
  | dbgattach
  /-- DBGDETACH (R495): Ends a debug attachment. -/
  | dbgdetach
  /-- PARTSET (R357): Checks and sets an isolation partition descriptor. -/
  | partset
  /-- WHORLSET (R472): Writes a die's whorl control word. -/
  | whorlset
  /-- PINLEVEL (R486): Sets the level selected while the power-step pin is asserted. -/
  | pinlevel
  /-- WEARREAD (R479): Copies part of the wear log to host memory. -/
  | wearread
  /-- SETID (R459): Sets the package's device identifier. -/
  | setid
  /-- ROUTESET (R451): Writes an entry of the main or local route table. -/
  | routeset
  /-- GROUPSET (R453): Writes a multicast group's membership. -/
  | groupset
  /-- IMPORT (R459): Writes an entry of a partition's import table. -/
  | importEntry
  /-- CLAIM (R496): Stores a new owner key and generates OWNERSEED. -/
  | claim
  /-- TRANSFER (R496): Replaces the owner key and OWNERSEED. -/
  | transfer
  /-- RETURN (R496): Performs the key wipe and passes to RETURNED. -/
  | returnPkg
  /-- RETIRE (R496): Passes the package to RETIRED. -/
  | retire
  /-- HEARTBEAT_INTERVAL (R453): Every 500 µs a heartbeat is sent to each group that lists the package. -/
  | heartbeatInterval
  /-- PROBE_INTERVAL (R452): Every 100 µs a PROBE is sent to each unreachable peer. -/
  | probeInterval
  /-- WEAR_LOG_COMMIT (R479): Every hour the wear log is committed to the creel. -/
  | wearLogCommit
  /-- POWER_TICK (R484): Every 10 µs the power controller applies or undoes one shedding stage. -/
  | powerTick
  /-- IDLE_ENTRY (R487): After 10 ms without demand the package gates clocks and enters IDLE. -/
  | idleEntry
  /-- POWER_FAIL (R488): The power-fail signal freezes every core and starts the dump image. -/
  | powerFail
  /-- DUMP_COMPLETE (R488): The signed, encrypted dump image has been written to board flash. -/
  | dumpComplete
  /-- BOOT (R498): After power-on or hot reset the boot ROM verifies firmware, sets bases, reissues skeins and enters ACTIVE. -/
  | boot
  /-- POWER_LOST (R487): Loss of power ends PFAIL, leaves the package OFF, ends debug attachment and leaves any dump image not signed to fail verification. -/
  | powerLost
  deriving DecidableEq, Repr

end Sys2Proof
end

