-- ==== Sys2Proof/WellFormed.lean ====
section
/-! DEFINITION. Check 1 of 01 R24 for one slot word (02 R65, R77): reserved fields, register fields beyond their file,
and invalid codes. An instruction is well-formed when the check finds nothing. -/

namespace Sys2Proof

/-- What check 1 finds in a slot word; each makes the bundle raise ILLEGAL (02 R77). -/
inductive WfError where
  /-- a reserved field is not zero (02 R65) -/
  | reservedField
  /-- a register field is beyond the last register of its file (02 R65) -/
  | registerBeyondFile
  /-- LAND is 0 on a load or an atomic (02 R64) -/
  | landZero
  /-- a code its field calls invalid: QF, RM, SCOPE, SIZE or a code of FN or IMM (02 R64, R66) -/
  | invalidCode
  /-- a control-register index that R20 does not list, or that CRW may not write (04 R148, 08 R267) -/
  | badRegisterIndex
  /-- a non-zero STEP with handle operands (02 R68) -/
  | stepWithHandle
  deriving DecidableEq, Repr

/-- What a register field names: nothing (reserved), or a register of the file named. -/
inductive Fld where
  | none | s | p | h | k | l | z
  deriving DecidableEq, Repr

/-- Check 1 for one six-bit register field. -/
def Fld.check (f : Fld) (x : BitVec 6) : Option WfError :=
  match f with
  | .none => if x = 0 then .none else some .reservedField
  | .s | .z => .none
  | .p | .k => if x.toNat < 16 then .none else some .registerBeyondFile
  | .h => if x.toNat < 32 then .none else some .registerBeyondFile
  | .l => if x.toNat < 4 then .none else some .registerBeyondFile

/-- The first error of a list of checks. -/
def firstErr : List (Option WfError) → Option WfError
  | [] => none
  | some e :: _ => some e
  | none :: l => firstErr l

/-- A field that must be zero. -/
def zeroIf (b : Bool) : Option WfError := if b then none else some .reservedField
/-- A code that must be valid. -/
def code (b : Bool) : Option WfError := if b then none else some .invalidCode

/-- Check 1 of an SR word: which of LAT and the register fields it uses, and a mask of the FN bits it uses. -/
def SR.check (w : SR) (lat : Bool) (d a b c : Fld) (fn : BitVec 7) : Option WfError :=
  firstErr [zeroIf (lat || w.lat == 0), d.check w.d, a.check w.a, b.check w.b, c.check w.c,
    zeroIf (w.fn &&& ~~~fn == 0), zeroIf (w.rsv == 0)]

/-- Check 1 of an SI word, with a mask of the IMM bits it uses. -/
def SI.check (w : SI) (lat : Bool) (d a : Fld) (imm : BitVec 35) : Option WfError :=
  firstErr [zeroIf (lat || w.lat == 0), d.check w.d, a.check w.a, zeroIf (w.imm &&& ~~~imm == 0)]

/-- Check 1 of an SB word. -/
def SB.check (w : SB) (lat : Bool) (d a : Fld) (disp : Bool) : Option WfError :=
  firstErr [zeroIf (lat || w.lat == 0), d.check w.d, a.check w.a, zeroIf (disp || w.disp == 0)]

/-- Check 1 of an SG word: a load uses LAND and SGN, a store reserves both (04 R144, 07 R234). -/
def SG.check (w : SG) (load sgn : Bool) (d a : Fld) (only64 : Bool) : Option WfError :=
  firstErr [d.check w.d, a.check w.a,
    (if load then (if w.lnd = 0 then some .landZero else none) else zeroIf (w.lnd == 0)),
    (if sgn then none else if only64 || load then code (w.sgn == 0) else zeroIf (w.sgn == 0)),
    (if only64 then code (w.size == 3) else none)]

/-- Check 1 of an SA word (02 R64, 08 R244): `cas` says that C is used, `word` that only SIZE 0b10 is valid. -/
def SA.check (w : SA) (cas word : Bool) : Option WfError :=
  firstErr [(if w.lnd = 0 then some .landZero else none), code (w.scope.toNat < 4),
    code (2 ≤ w.size.toNat), code (!word || w.size == 2), zeroIf (cas || w.c == 0), zeroIf (w.rsv == 0)]

/-- Check 1 of a VR word: which fields it uses, and a mask of its FN bits (05 R156). -/
def VR.check (w : VR) (zb zc tag rm sat : Bool) (fn : BitVec 13) : Option WfError :=
  firstErr [zeroIf (zb || w.zb == 0), zeroIf (zc || w.zc == 0), zeroIf (tag || w.tag == 0),
    (if rm then code (w.rm.toNat < 6) else zeroIf (w.rm == 0)), zeroIf (sat || w.sat == 0),
    zeroIf (w.fn &&& ~~~fn == 0)]

/-- Check 1 of the knot fields: a KCi whose CMASK bit is clear is reserved (02 R67). -/
def knotCheck (cmask : BitVec 3) (kc0 kc1 kc2 : BitVec 6) : Option WfError :=
  firstErr [zeroIf (cmask.getLsbD 0 || kc0 == 0), zeroIf (cmask.getLsbD 1 || kc1 == 0), zeroIf (cmask.getLsbD 2 || kc2 == 0)]

/-- Check 1 of an M word: which of ZA, PL and AB it uses, and a mask of its FN bits (06 R196). -/
def MW.check (w : MW) (za pl ab : Bool) (fn : BitVec 8) : Option WfError :=
  firstErr [knotCheck w.cmask w.kc0 w.kc1 w.kc2, zeroIf (za || w.za == 0), zeroIf (pl || w.pl == 0), zeroIf (ab || w.ab == 0),
    zeroIf (w.fn &&& ~~~fn == 0)]

/-- Check 1 of a C word (07 R215): what A, B and C name and which bits of STEP it uses. -/
def CW.check (w : CW) (a b c : Fld) (step : Option WfError) : Option WfError :=
  firstErr [knotCheck w.cmask w.kc0 w.kc1 w.kc2, a.check w.a, b.check w.b, c.check w.c, step]

/-- The rounding field and SAT of the scalar FP32 operations (04 R128). -/
def SR.fpCheck (w : SR) (b c : Fld) : Option WfError :=
  firstErr [w.check true .s .s b c 0x0F, code ((w.fn.extractLsb' 0 3).toNat < 6)]

/-- The control-register indices of 01 R20 and R51. -/
def crListed (i : BitVec 16) : Bool :=
  i.toNat ≤ 6 || (0x10 ≤ i.toNat && i.toNat ≤ 0x14) || i == 0x20 || i == 0x21 ||
    (0x30 ≤ i.toNat && i.toNat ≤ 0x33) || i == 0x40

/-- The control registers that CRW may write (08 R267). -/
def crWritable (i : BitVec 16) : Bool :=
  i == 0 || i == 2 || i == 3 || (0x10 ≤ i.toNat && i.toNat ≤ 0x14) || (0x30 ≤ i.toNat && i.toNat ≤ 0x33)

/-- Check 1 of CRR (04 R148). -/
def SI.crrCheck (w : SI) : Option WfError :=
  let i : BitVec 16 := w.imm.extractLsb' 0 16
  firstErr [w.check true .s .none 0xFFFFF, if crListed i then none else some .badRegisterIndex,
    zeroIf (i == 0x20 || w.imm.extractLsb' 16 4 == 0)]

/-- Check 1 of CRW (08 R267). -/
def SI.crwCheck (w : SI) : Option WfError :=
  firstErr [w.check false .none .s 0xFFFF, if crWritable (w.imm.extractLsb' 0 16) then none else some .badRegisterIndex]

/-- STEP of a C word that must be zero because its address operands are handles (02 R68). -/
def CW.noStep (w : CW) : Option WfError := if w.step = 0 then none else some .stepWithHandle

/-- Check 1 of 01 R24 for the word of one instruction; an event of the package has no word. -/
def Instr.check1 : Instr → Option WfError
  | .headerOnlyBundle l _ _ => code (l.toNat ≤ 4)
  | .add _ w | .sub _ w | .mul _ w | .mulh _ w | .mulhu _ w | .and _ w | .or _ w | .xor _ w
  | .shl _ w | .shr _ w | .sar _ w | .min _ w | .max _ w | .minu _ w | .maxu _ w => w.check true .s .s .s .none 0
  | .clz _ w | .popc _ w => w.check true .s .s .none .none 0
  | .addi _ w | .andi _ w | .ori _ w | .xori _ w => w.check true .s .s (BitVec.allOnes 35)
  | .shli _ w | .shri _ w | .sari _ w => w.check true .s .s 0x3F
  | .li _ w => w.check true .s .none (BitVec.allOnes 35)
  | .cmpeq _ w | .cmpne _ w | .cmplt _ w | .cmple _ w | .cmpltu _ w | .cmpleu _ w => w.check true .p .s .s .none 0
  | .cmpeqi _ w | .cmplti _ w => w.check true .p .s (BitVec.allOnes 35)
  | .pand _ w | .por _ w | .pxor _ w => w.check true .p .p .p .none 0
  | .pnot _ w => w.check true .p .p .none .none 0
  | .fadd _ w | .fsub _ w | .fmul _ w | .fdiv _ w => w.fpCheck .s .none
  | .ffma _ w => w.fpCheck .s .s
  | .fsqrt _ w => w.fpCheck .none .none
  | .fmin _ w | .fmax _ w => w.check true .s .s .s .none 0
  | .fcmpeq _ w | .fcmplt _ w | .fcmple _ w => w.check true .p .s .s .none 0
  | .fcvti _ w => firstErr [w.check true .s .s .none .none 0x37, code ((w.fn.extractLsb' 0 3).toNat < 6)]
  | .icvtf _ w => firstErr [w.check true .s .s .none .none 0x1F, code ((w.fn.extractLsb' 0 3).toNat < 6)]
  | .br _ w => w.check false .none .none true
  | .bri _ w => w.check false .none .s true
  | .call _ w => w.check true .s .none true
  | .calli _ w => w.check true .s .s true
  | .ret _ w => w.check false .none .s false
  | .loop _ w => w.check true .l .s true
  | .hbase _ w => w.check true .h .s .none .none 0x7F
  | .hset _ w => firstErr [w.check true .h .s .h .none 0x0F, code ((w.fn.extractLsb' 0 4).toNat < 14)]
  | .hstep _ w | .hmov _ w => w.check true .h .h .none .none 0
  | .hget _ w => firstErr [w.check true .s .h .none .none 0x0F, code ((w.fn.extractLsb' 0 4).toNat < 14)]
  | .lds _ w => code (w.qf != 3)
  | .sts _ w => firstErr [code (w.qf.toNat < 2), zeroIf (w.sgn == 0)]
  | .ldg _ w => w.check true true .s .s false
  | .stg _ w => w.check false false .s .s false
  | .crr _ w => w.crrCheck
  | .crw _ w => w.crwCheck
  | .zins _ w => w.check true .z .z .s .s 0
  | .zext _ w => w.check true .s .z .s .none 0
  | .amoadd _ w | .amoand _ w | .amoor _ w | .amoxor _ w | .amomin _ w | .amomax _ w | .amoswap _ w => w.check false false
  | .amocas _ w => w.check true false
  | .amofadd _ w => w.check false true
  | .bar _ w | .drain _ w => w.check false .none .none 3
  | .settle _ w | .yield _ w | .tail _ w | .leave _ w | .eret _ w => w.check false .none .none 0
  | .enter _ w => firstErr [w.check false .none .none 0xFFFF, code (w.imm.extractLsb' 0 16 != 0)]
  | .probe _ w => w.check false .none .s 0x1FFFFFF
  | .trap _ w => w.check false .none .none 0x1FFFF
  | .ldref _ w => w.check true false .k .k true
  | .stref _ w => w.check false false .k .k true
  | .ldfld _ w => w.check true true .s .k false
  | .stfld _ w => w.check false false .s .k false
  | .pin _ w => w.check false .s .k .none .none 0
  | .unpin _ w => w.check false .none .k .none .none 0
  | .refeq _ w => w.check false .p .k .k .none 0
  | .refmk _ w => w.check false .k .s .none .none 0x0F
  | .slotmap _ w => w.check false .none .s .s .none 0
  | .ttset _ w => w.check false .none .s .s .s 0
  | .skeinldLoad _ w | .skeinldRelease _ w => w.check false .s .s .s .none 0
  | .scanrun _ w => w.check false .s .s .none .none 0
  | .preempt _ w | .ctxsave _ w | .ctxload _ w | .pstep _ w => w.check false .none .s .none .none 0
  | .qmap _ w | .qsave _ w | .qload _ w => w.check false .none .s .s .none 0
  | .inval _ w => w.check false .none .s .s .s 1
  | .relocStart _ w => firstErr [w.check false .s .s .none .none 3, code (w.fn == 0 || w.fn == 3)]
  | .relocQuery _ w => firstErr [w.check false .s .s .none .none 3, code (w.fn == 1)]
  | .relocAbort _ w => firstErr [w.check false .s .s .none .none 3, code (w.fn == 2)]
  | .fwdpub _ w => w.check false .none .s .s .none 0
  | .logrApp _ w => w.check false .s .s .none .none 0
  | .logrRead _ w => firstErr [w.check false .s .s .s .none 1, code (w.fn == 1)]
  | .vld _ _ w => code (w.qf != 3)
  | .vst _ _ w => code (w.qf.toNat < 2)
  | .vmov _ _ w | .vabs _ _ w | .vneg _ _ w => w.check false false false false false 0
  | .vtag _ _ w => firstErr [w.check false false true false false 0, code (w.tag != 0)]
  | .vperm _ _ w => w.check true false false false false 0
  | .vbcstScalar _ _ w => w.check false false true false false 0
  | .vbcstElement _ _ w => firstErr [w.check false false false false false 0x13FF, code (w.fn.getLsbD 12)]
  | .vshuf _ _ w => firstErr [w.check true false false false false 0x1FFF, code ((w.fn.extractLsb' 0 3).toNat ≤ 4),
      zeroIf (w.fn.extractLsb' 0 3 == 4 || w.fn.extractLsb' 3 10 == 0)]
  | .vsel _ _ w => w.check true true false false false 0
  | .vadd _ _ w | .vsub _ _ w | .vmul _ _ w => w.check true false true true true 1
  | .vfma _ _ w | .vfms _ _ w => w.check true true true true true 1
  | .vmin _ _ w | .vmax _ _ w => w.check true false false false false 0
  | .vcmp _ _ w => firstErr [w.check true false false false false 7, code (w.fn.extractLsb' 0 3 != 7)]
  | .vicmp _ _ w => firstErr [w.check true false false false false 7, code ((w.fn.extractLsb' 0 3).toNat < 6)]
  | .viadd _ _ w | .visub _ _ w | .vimul _ _ w => w.check true false false false true 0
  | .vimad _ _ w => w.check true true false false true 0
  | .vand _ _ w | .vor _ _ w | .vxor _ _ w | .vimin _ _ w | .vimax _ _ w => w.check true false false false false 0
  | .vshl _ _ w | .vshr _ _ w | .vsar _ _ w => w.check false false false false false 0x1F
  | .vcvt _ _ w => firstErr [w.check false (!w.fn.getLsbD 3) true true true 0x0F, code (w.tag != 0)]
  | .vqzb _ _ w => w.check (w.fn.getLsbD 4) (!w.fn.getLsbD 3) true true true 0x3F
  | .vmxi _ _ w => firstErr [w.check true (!w.fn.getLsbD 3) true true true 0x3FF, code (w.fn.extractLsb' 4 2 != 3)]
  | .vrsum _ _ w => w.check false (w.fn.getLsbD 4) true true true 0x1F
  | .vrmax _ _ w | .vrmin _ _ w => w.check false (w.fn.getLsbD 4) false false false 0x1F
  | .vexp2 _ _ w | .vlog2 _ _ w | .vrcp _ _ w | .vrsq _ _ w | .vsin _ _ w | .vcos _ _ w => w.check false false false true true 0
  | .vscget _ _ w => w.check true false false false false 7
  | .vscset _ _ w => w.check true false true false false 7
  | .vscadd _ _ w => w.check false false false true true 0x1FF
  | .vscmax _ _ w => w.check false true false false false 0x3F
  | .fx _ _ _ _ => none
  | .mlb _ w => firstErr [w.check true true false 0xFF, code (w.fn.extractLsb' 5 3 != 0)]
  | .msel _ w => w.check false false true 0xFF
  | .mac _ w | .macn _ w | .macz _ w => w.check true true true 0
  | .mrd _ w => w.check true false true 0x7F
  | .mrdSteps _ w => firstErr [w.check true false true 0x80, code (w.fn.getLsbD 7)]
  | .mdr _ w => w.check true false true 0xFF
  | .mclr _ w => w.check false false true 0
  | .mmode _ w => firstErr [w.check false false true 0x0F, code ((w.fn.extractLsb' 0 3).toNat < 6)]
  | .cpy _ _ w | .cpyr _ _ w | .cfill _ _ w | .redc _ _ w | .bcst _ _ w => w.check .s .s .s none
  | .cpyt _ _ w | .cpytr _ _ w => w.check .h .h .none w.noStep
  | .gath _ _ w | .gathr _ _ w => w.check .s .h .s w.noStep
  | .scat _ _ w | .scatr _ _ w => w.check .h .s .s w.noStep
  | .ldq _ _ w => w.check .s .none .none (zeroIf (w.step == 0))
  | .stq _ _ w => w.check .s .s .none (zeroIf (w.step == 0))
  | .kwait _ _ w => w.check .s .none .none (zeroIf (w.step &&& ~~~1 == 0))
  | .copyPerform .. | .stqPushPerform .. | .mOperationPerform .. | .landingDataArrival .. | .storePerform ..
  | .uncachedWriteAck .. | .retirementEntryFree .. | .homeSliceAccess .. | .invalidation .. | .remoteWrite ..
  | .fetchFill .. | .eccCorr .. | .eccFreezeEnd .. | .onchipUe .. | .systemUe .. | .dpcRelease .. | .barPacket ..
  | .barrierRelease .. | .fatalContextError .. | .contextKill .. | .supstart .. | .accountLatch ..
  | .supervisorFlush .. | .captureStart .. | .captureStop .. | .shootdown .. | .patchAckTimeout .. | .kick ..
  | .packetFetch .. | .launchComplete .. | .itemStart .. | .resumeEntry .. | .rebalance .. | .ageing ..
  | .watchdogExpire .. | .partitionReset .. | .ctxalloc .. | .ctxfree .. | .kill .. | .rangeset ..
  | .rangeReload .. | .map .. | .unmap .. | .regq .. | .deregq .. | .place .. | .loadobj .. | .regobj ..
  | .unregobj .. | .migout .. | .migin .. | .bundlingComplete .. | .codeEvict .. | .heapstart .. | .heapquery ..
  | .heapabort .. | .heappub .. | .heapfree .. | .objectClaim .. | .lineMoveRead .. | .lineMoveCopied ..
  | .publish .. | .capture .. | .regionbp .. | .halt .. | .continueRun .. | .stepToEdge .. | .stepBundle ..
  | .patchSet .. | .patchClear .. | .logread .. | .attest .. | .dbgchal .. | .dbgattach .. | .dbgdetach ..
  | .partset .. | .whorlset .. | .pinlevel .. | .wearread .. | .setid .. | .routeset .. | .groupset ..
  | .importEntry .. | .claim .. | .transfer .. | .returnPkg .. | .retire .. | .xlateReq .. | .revokeAck ..
  | .revokeTimeout .. | .hostAccess .. | .pcsLock .. | .flit .. | .init .. | .nak .. | .retrain .. | .read ..
  | .write .. | .atomic .. | .redcMessage .. | .bcstMessage .. | .rdata .. | .wack .. | .areply .. | .error ..
  | .heartbeat .. | .probeMessage .. | .probeack .. | .heartbeatInterval .. | .probeInterval .. | .portDown ..
  | .retrainAttempt .. | .peerUnreachable .. | .memberFenced .. | .routerBypass .. | .whorlTick .. | .drainmax ..
  | .wearLogCommit .. | .powerTick .. | .powerStepPin .. | .powerWindow .. | .idleEntry .. | .powerFail ..
  | .dumpComplete .. | .boot .. | .registerWrite .. | .malformedBundle .. | .mailboxRing .. | .voltageDroop ..
  | .powerLost .. => none

/-- An instruction whose word passes check 1. -/
abbrev Instr.WellFormed (i : Instr) : Prop := i.check1 = none

end Sys2Proof
end

