-- ==== Sys2Proof/Decode.lean ====
section
/-! DEFINITION. Decoding: the bytes at the PC as a bundle (02 R53 to R78), total on any bytes and rejecting by name, and
after it the encoder, written from the same tables. -/

namespace Sys2Proof

/-- Little-endian value of a list of bytes (00 R7). -/
def leNat : List Byte → Nat
  | [] => 0
  | b :: l => b.toNat + 256 * leNat l

/-- The `n` little-endian bytes of a number (00 R7). -/
def leBytes : Nat → Nat → List Byte
  | 0, _ => []
  | n + 1, x => BitVec.ofNat 8 x :: leBytes n (x / 256)

/-- Position of a slot in PRESENT and QUIET (02 R54). -/
def Slot.idx : Slot → Nat
  | .s => 0 | .v0 => 1 | .v1 => 2 | .m => 3 | .c0 => 4 | .c1 => 5
/-- The six slots in the order of their words (02 R53). -/
def Slot.all : List Slot := [.s, .v0, .v1, .m, .c0, .c1]
/-- The slot of a vector operation. -/
def VSlot.slot : VSlot → Slot
  | .v0 => .v0 | .v1 => .v1
/-- The slot of a copy operation. -/
def CSlot.slot : CSlot → Slot
  | .c0 => .c0 | .c1 => .c1

/-- PN and PRED of a slot word (02 R63). -/
def Guard.ofWord (w : W64) : Guard := ⟨w.extractLsb' 55 1, w.extractLsb' 51 4⟩
/-- The fields of an SR word (02 R64). -/
def SR.ofWord (w : W64) : SR := ⟨w.extractLsb' 47 4, w.extractLsb' 41 6, w.extractLsb' 35 6, w.extractLsb' 29 6,
  w.extractLsb' 23 6, w.extractLsb' 16 7, w.extractLsb' 0 16⟩
/-- The fields of an SI word (02 R64). -/
def SI.ofWord (w : W64) : SI := ⟨w.extractLsb' 47 4, w.extractLsb' 41 6, w.extractLsb' 35 6, w.extractLsb' 0 35⟩
/-- The fields of an SB word (02 R64). -/
def SB.ofWord (w : W64) : SB := ⟨w.extractLsb' 47 4, w.extractLsb' 41 6, w.extractLsb' 35 6, w.extractLsb' 0 35⟩
/-- The fields of an SM word (02 R64). -/
def SM.ofWord (w : W64) : SM := ⟨w.extractLsb' 47 4, w.extractLsb' 41 6, w.extractLsb' 35 6, w.extractLsb' 33 2,
  w.extractLsb' 32 1, w.extractLsb' 30 2, w.extractLsb' 12 18, w.extractLsb' 0 12⟩
/-- The fields of an SG word (02 R64). -/
def SG.ofWord (w : W64) : SG := ⟨w.extractLsb' 39 12, w.extractLsb' 33 6, w.extractLsb' 27 6, w.extractLsb' 25 2,
  w.extractLsb' 24 1, w.extractLsb' 12 12, w.extractLsb' 0 12⟩
/-- The fields of an SA word (02 R64). -/
def SA.ofWord (w : W64) : SA := ⟨w.extractLsb' 39 12, w.extractLsb' 33 6, w.extractLsb' 27 6, w.extractLsb' 21 6,
  w.extractLsb' 15 6, w.extractLsb' 12 3, w.extractLsb' 11 1, w.extractLsb' 9 2, w.extractLsb' 0 9⟩
/-- The fields of a VR word (02 R66). -/
def VR.ofWord (w : W64) : VR := ⟨w.extractLsb' 47 4, w.extractLsb' 41 6, w.extractLsb' 35 6, w.extractLsb' 29 6,
  w.extractLsb' 23 6, w.extractLsb' 17 6, w.extractLsb' 14 3, w.extractLsb' 13 1, w.extractLsb' 0 13⟩
/-- The fields of a VM word (02 R66). -/
def VM.ofWord (w : W64) : VM := ⟨w.extractLsb' 47 4, w.extractLsb' 41 6, w.extractLsb' 35 6, w.extractLsb' 33 2,
  w.extractLsb' 13 20, w.extractLsb' 0 13⟩
/-- The fields of an M word (02 R67). -/
def MW.ofWord (w : W64) : MW := ⟨w.extractLsb' 45 6, w.extractLsb' 39 6, w.extractLsb' 33 6, w.extractLsb' 27 6,
  w.extractLsb' 21 6, w.extractLsb' 18 3, w.extractLsb' 12 6, w.extractLsb' 9 3, w.extractLsb' 8 1, w.extractLsb' 0 8⟩
/-- The fields of a C word (02 R68). -/
def CW.ofWord (w : W64) : CW := ⟨w.extractLsb' 45 6, w.extractLsb' 39 6, w.extractLsb' 33 6, w.extractLsb' 27 6,
  w.extractLsb' 24 3, w.extractLsb' 18 6, w.extractLsb' 12 6, w.extractLsb' 6 6, w.extractLsb' 0 6⟩

/-- RELOC's command by FN (08 R268): 1 query, 2 abort; 0 starts, and 3 is the invalid command that raises RANGE. -/
def relocOf (g : Guard) (w : SR) : Instr :=
  if w.fn = 1 then .relocQuery g w else if w.fn = 2 then .relocAbort g w else .relocStart g w
/-- LOGR's form by FN (08 R268): 1 read, else append. -/
def logrOf (g : Guard) (w : SR) : Instr := if w.fn = 1 then .logrRead g w else .logrApp g w
/-- VBCST's form by FN[12] (05 R165). -/
def vbcstOf (v : VSlot) (g : Guard) (w : VR) : Instr :=
  if w.fn.getLsbD 12 then .vbcstElement v g w else .vbcstScalar v g w
/-- MRD's form by FN[7] (06 R201). -/
def mrdOf (g : Guard) (w : MW) : Instr := if w.fn.getLsbD 7 then .mrdSteps g w else .mrd g w

/-- The opcode map of the S slot (02 R70). -/
def decodeS (op : BitVec 8) (g : Guard) (w : W64) : Option Instr :=
  match op.toNat with
  | 0x01 => some (.add g (SR.ofWord w))
  | 0x02 => some (.sub g (SR.ofWord w))
  | 0x03 => some (.mul g (SR.ofWord w))
  | 0x04 => some (.mulh g (SR.ofWord w))
  | 0x05 => some (.mulhu g (SR.ofWord w))
  | 0x06 => some (.and g (SR.ofWord w))
  | 0x07 => some (.or g (SR.ofWord w))
  | 0x08 => some (.xor g (SR.ofWord w))
  | 0x09 => some (.shl g (SR.ofWord w))
  | 0x0A => some (.shr g (SR.ofWord w))
  | 0x0B => some (.sar g (SR.ofWord w))
  | 0x10 => some (.addi g (SI.ofWord w))
  | 0x11 => some (.andi g (SI.ofWord w))
  | 0x12 => some (.ori g (SI.ofWord w))
  | 0x13 => some (.xori g (SI.ofWord w))
  | 0x14 => some (.shli g (SI.ofWord w))
  | 0x15 => some (.shri g (SI.ofWord w))
  | 0x16 => some (.sari g (SI.ofWord w))
  | 0x17 => some (.li g (SI.ofWord w))
  | 0x18 => some (.min g (SR.ofWord w))
  | 0x19 => some (.max g (SR.ofWord w))
  | 0x1A => some (.minu g (SR.ofWord w))
  | 0x1B => some (.maxu g (SR.ofWord w))
  | 0x1C => some (.clz g (SR.ofWord w))
  | 0x1D => some (.popc g (SR.ofWord w))
  | 0x20 => some (.cmpeq g (SR.ofWord w))
  | 0x21 => some (.cmpne g (SR.ofWord w))
  | 0x22 => some (.cmplt g (SR.ofWord w))
  | 0x23 => some (.cmple g (SR.ofWord w))
  | 0x24 => some (.cmpltu g (SR.ofWord w))
  | 0x25 => some (.cmpleu g (SR.ofWord w))
  | 0x26 => some (.cmpeqi g (SI.ofWord w))
  | 0x27 => some (.cmplti g (SI.ofWord w))
  | 0x28 => some (.pand g (SR.ofWord w))
  | 0x29 => some (.por g (SR.ofWord w))
  | 0x2A => some (.pxor g (SR.ofWord w))
  | 0x2B => some (.pnot g (SR.ofWord w))
  | 0x30 => some (.fadd g (SR.ofWord w))
  | 0x31 => some (.fsub g (SR.ofWord w))
  | 0x32 => some (.fmul g (SR.ofWord w))
  | 0x33 => some (.ffma g (SR.ofWord w))
  | 0x34 => some (.fdiv g (SR.ofWord w))
  | 0x35 => some (.fsqrt g (SR.ofWord w))
  | 0x36 => some (.fmin g (SR.ofWord w))
  | 0x37 => some (.fmax g (SR.ofWord w))
  | 0x38 => some (.fcmpeq g (SR.ofWord w))
  | 0x39 => some (.fcmplt g (SR.ofWord w))
  | 0x3A => some (.fcmple g (SR.ofWord w))
  | 0x3B => some (.fcvti g (SR.ofWord w))
  | 0x3C => some (.icvtf g (SR.ofWord w))
  | 0x40 => some (.br g (SB.ofWord w))
  | 0x41 => some (.bri g (SB.ofWord w))
  | 0x42 => some (.call g (SB.ofWord w))
  | 0x43 => some (.calli g (SB.ofWord w))
  | 0x44 => some (.ret g (SB.ofWord w))
  | 0x45 => some (.loop g (SB.ofWord w))
  | 0x50 => some (.hbase g (SR.ofWord w))
  | 0x51 => some (.hset g (SR.ofWord w))
  | 0x52 => some (.hstep g (SR.ofWord w))
  | 0x53 => some (.hget g (SR.ofWord w))
  | 0x54 => some (.hmov g (SR.ofWord w))
  | 0x60 => some (.lds g (SM.ofWord w))
  | 0x61 => some (.sts g (SM.ofWord w))
  | 0x62 => some (.ldg g (SG.ofWord w))
  | 0x63 => some (.stg g (SG.ofWord w))
  | 0x64 => some (.crr g (SI.ofWord w))
  | 0x65 => some (.crw g (SI.ofWord w))
  | 0x66 => some (.zins g (SR.ofWord w))
  | 0x67 => some (.zext g (SR.ofWord w))
  | 0x70 => some (.amoadd g (SA.ofWord w))
  | 0x71 => some (.amoand g (SA.ofWord w))
  | 0x72 => some (.amoor g (SA.ofWord w))
  | 0x73 => some (.amoxor g (SA.ofWord w))
  | 0x74 => some (.amomin g (SA.ofWord w))
  | 0x75 => some (.amomax g (SA.ofWord w))
  | 0x76 => some (.amoswap g (SA.ofWord w))
  | 0x77 => some (.amocas g (SA.ofWord w))
  | 0x78 => some (.amofadd g (SA.ofWord w))
  | 0x80 => some (.bar g (SI.ofWord w))
  | 0x81 => some (.drain g (SI.ofWord w))
  | 0x82 => some (.settle g (SI.ofWord w))
  | 0x83 => some (.yield g (SI.ofWord w))
  | 0x84 => some (.tail g (SI.ofWord w))
  | 0x85 => some (.enter g (SI.ofWord w))
  | 0x86 => some (.leave g (SI.ofWord w))
  | 0x87 => some (.probe g (SI.ofWord w))
  | 0x88 => some (.trap g (SI.ofWord w))
  | 0x89 => some (.eret g (SI.ofWord w))
  | 0x90 => some (.ldref g (SG.ofWord w))
  | 0x91 => some (.stref g (SG.ofWord w))
  | 0x92 => some (.ldfld g (SG.ofWord w))
  | 0x93 => some (.stfld g (SG.ofWord w))
  | 0x94 => some (.pin g (SR.ofWord w))
  | 0x95 => some (.unpin g (SR.ofWord w))
  | 0x96 => some (.refeq g (SR.ofWord w))
  | 0x97 => some (.refmk g (SR.ofWord w))
  | 0xA0 => some (.slotmap g (SR.ofWord w))
  | 0xA1 => some (.ttset g (SR.ofWord w))
  | 0xA2 => some (.skeinldLoad g (SR.ofWord w))
  | 0xA3 => some (.scanrun g (SR.ofWord w))
  | 0xA4 => some (.preempt g (SR.ofWord w))
  | 0xA5 => some (.ctxsave g (SR.ofWord w))
  | 0xA6 => some (.ctxload g (SR.ofWord w))
  | 0xA7 => some (.qmap g (SR.ofWord w))
  | 0xA8 => some (.qsave g (SR.ofWord w))
  | 0xA9 => some (.qload g (SR.ofWord w))
  | 0xAA => some (.pstep g (SR.ofWord w))
  | 0xAB => some (.inval g (SR.ofWord w))
  | 0xAC => some (relocOf g (SR.ofWord w))
  | 0xAD => some (.fwdpub g (SR.ofWord w))
  | 0xAE => some (logrOf g (SR.ofWord w))
  | _ => none

/-- The opcode map of the V slots (02 R72); 0xF0 to 0xFF are FX0 to FX15. -/
def decodeV (op : BitVec 8) (v : VSlot) (g : Guard) (w : W64) : Option Instr :=
  match op.toNat with
  | 0x01 => some (.vld v g (VM.ofWord w))
  | 0x02 => some (.vst v g (VM.ofWord w))
  | 0x03 => some (.vmov v g (VR.ofWord w))
  | 0x04 => some (.vperm v g (VR.ofWord w))
  | 0x05 => some (vbcstOf v g (VR.ofWord w))
  | 0x06 => some (.vshuf v g (VR.ofWord w))
  | 0x07 => some (.vsel v g (VR.ofWord w))
  | 0x08 => some (.vtag v g (VR.ofWord w))
  | 0x10 => some (.vadd v g (VR.ofWord w))
  | 0x11 => some (.vsub v g (VR.ofWord w))
  | 0x12 => some (.vmul v g (VR.ofWord w))
  | 0x13 => some (.vfma v g (VR.ofWord w))
  | 0x14 => some (.vfms v g (VR.ofWord w))
  | 0x15 => some (.vmin v g (VR.ofWord w))
  | 0x16 => some (.vmax v g (VR.ofWord w))
  | 0x17 => some (.vabs v g (VR.ofWord w))
  | 0x18 => some (.vneg v g (VR.ofWord w))
  | 0x19 => some (.vcmp v g (VR.ofWord w))
  | 0x20 => some (.viadd v g (VR.ofWord w))
  | 0x21 => some (.visub v g (VR.ofWord w))
  | 0x22 => some (.vimul v g (VR.ofWord w))
  | 0x23 => some (.vimad v g (VR.ofWord w))
  | 0x24 => some (.vand v g (VR.ofWord w))
  | 0x25 => some (.vor v g (VR.ofWord w))
  | 0x26 => some (.vxor v g (VR.ofWord w))
  | 0x27 => some (.vshl v g (VR.ofWord w))
  | 0x28 => some (.vshr v g (VR.ofWord w))
  | 0x29 => some (.vsar v g (VR.ofWord w))
  | 0x2A => some (.vimin v g (VR.ofWord w))
  | 0x2B => some (.vimax v g (VR.ofWord w))
  | 0x2C => some (.vicmp v g (VR.ofWord w))
  | 0x30 => some (.vcvt v g (VR.ofWord w))
  | 0x31 => some (.vqzb v g (VR.ofWord w))
  | 0x32 => some (.vmxi v g (VR.ofWord w))
  | 0x40 => some (.vrsum v g (VR.ofWord w))
  | 0x41 => some (.vrmax v g (VR.ofWord w))
  | 0x42 => some (.vrmin v g (VR.ofWord w))
  | 0x50 => some (.vexp2 v g (VR.ofWord w))
  | 0x51 => some (.vlog2 v g (VR.ofWord w))
  | 0x52 => some (.vrcp v g (VR.ofWord w))
  | 0x53 => some (.vrsq v g (VR.ofWord w))
  | 0x54 => some (.vsin v g (VR.ofWord w))
  | 0x55 => some (.vcos v g (VR.ofWord w))
  | 0x60 => some (.vscget v g (VR.ofWord w))
  | 0x61 => some (.vscset v g (VR.ofWord w))
  | 0x62 => some (.vscadd v g (VR.ofWord w))
  | 0x63 => some (.vscmax v g (VR.ofWord w))
  | k => if 0xF0 ≤ k then some (.fx (op.extractLsb' 0 4) v g (VR.ofWord w)) else none

/-- The opcode map of the M slot (02 R74). -/
def decodeM (op : BitVec 8) (g : Guard) (w : W64) : Option Instr :=
  match op.toNat with
  | 0x01 => some (.mlb g (MW.ofWord w))
  | 0x02 => some (.msel g (MW.ofWord w))
  | 0x03 => some (.mac g (MW.ofWord w))
  | 0x04 => some (.macn g (MW.ofWord w))
  | 0x05 => some (.macz g (MW.ofWord w))
  | 0x06 => some (mrdOf g (MW.ofWord w))
  | 0x07 => some (.mdr g (MW.ofWord w))
  | 0x08 => some (.mclr g (MW.ofWord w))
  | 0x09 => some (.mmode g (MW.ofWord w))
  | _ => none

/-- The opcode map of the C slots (02 R75). -/
def decodeC (op : BitVec 8) (c : CSlot) (g : Guard) (w : W64) : Option Instr :=
  match op.toNat with
  | 0x01 => some (.cpy c g (CW.ofWord w))
  | 0x02 => some (.cpyr c g (CW.ofWord w))
  | 0x03 => some (.cpyt c g (CW.ofWord w))
  | 0x04 => some (.cpytr c g (CW.ofWord w))
  | 0x05 => some (.gath c g (CW.ofWord w))
  | 0x06 => some (.gathr c g (CW.ofWord w))
  | 0x07 => some (.scat c g (CW.ofWord w))
  | 0x08 => some (.scatr c g (CW.ofWord w))
  | 0x09 => some (.cfill c g (CW.ofWord w))
  | 0x0A => some (.redc c g (CW.ofWord w))
  | 0x0B => some (.bcst c g (CW.ofWord w))
  | 0x10 => some (.ldq c g (CW.ofWord w))
  | 0x11 => some (.stq c g (CW.ofWord w))
  | 0x12 => some (.kwait c g (CW.ofWord w))
  | _ => none

/-- Why bytes are no bundle (02 R77); each raises ILLEGAL at check 1. -/
inductive DecodeError where
  /-- fewer bytes than the header or its slot words need -/
  | truncated
  /-- FRAME is not 0b1011 -/
  | badFrame
  /-- header bits [27:24] are not zero -/
  | reservedHeader
  /-- LOOPEND is above 4 -/
  | badLoopend
  /-- PRESENT and QUIET are both set for a slot -/
  | presentAndQuiet
  /-- an unassigned opcode in a present slot -/
  | unassigned (slot : Slot) (op : BitVec 8)
  /-- a slot word that fails check 1 -/
  | illFormed (slot : Slot) (op : BitVec 8) (e : WfError)
  /-- REPEAT above 0 with a non-repeatable operation (02 R58) -/
  | repeated (slot : Slot) (op : BitVec 8)
  /-- LOOPEND with an operation of S row 0x4 (02 R57) -/
  | loopEnd (slot : Slot) (op : BitVec 8)
  deriving DecidableEq, Repr

/-- The slot and the opcode that an ILLEGAL of check 1 reports; none for a condition of the header (08 R263, log 7). -/
def DecodeError.site : DecodeError → Option (Slot × BitVec 8)
  | .unassigned sl o | .illFormed sl o _ | .repeated sl o | .loopEnd sl o => some (sl, o)
  | .truncated | .badFrame | .reservedHeader | .badLoopend | .presentAndQuiet => none

/-- The opcode of a slot word (02 R63). -/
def opcodeOf (w : W64) : BitVec 8 := w.extractLsb' 56 8

/-- One slot word as an instruction, by the map of its slot's class. -/
def rawSlot (slot : Slot) (w : W64) : Option Instr :=
  match slot with
  | .s => decodeS (opcodeOf w) (Guard.ofWord w) w
  | .v0 => decodeV (opcodeOf w) .v0 (Guard.ofWord w) w
  | .v1 => decodeV (opcodeOf w) .v1 (Guard.ofWord w) w
  | .m => decodeM (opcodeOf w) (Guard.ofWord w) w
  | .c0 => decodeC (opcodeOf w) .c0 (Guard.ofWord w) w
  | .c1 => decodeC (opcodeOf w) .c1 (Guard.ofWord w) w

/-- One slot word decoded and checked (02 R77). -/
def decodeSlot (slot : Slot) (w : W64) : Except DecodeError Instr :=
  match rawSlot slot w with
  | none => .error (.unassigned slot (opcodeOf w))
  | some i =>
    match i.check1 with
    | none => .ok i
    | some e => .error (.illFormed slot (opcodeOf w) e)

/-- The header's fields (02 R54). -/
def Header.ofWord (w : BitVec 32) : Header := ⟨w.extractLsb' 20 4, w.extractLsb' 12 8, w.extractLsb' 6 6, w.extractLsb' 0 6⟩

/-- The header word decoded and checked (02 R54, R55, R77). -/
def decodeHeader (w : BitVec 32) : Except DecodeError Header :=
  let h := Header.ofWord w
  if w.extractLsb' 28 4 ≠ 0b1011 then .error .badFrame
  else if w.extractLsb' 24 4 ≠ 0 then .error .reservedHeader
  else if 4 < h.loopend.toNat then .error .badLoopend
  else if h.present &&& h.quiet ≠ 0 then .error .presentAndQuiet
  else .ok h

/-- A decoded bundle: its header, and the slot, the word and the instruction of every present slot, in order. -/
structure Bundle where
  header : Header
  ops : List (Slot × W64 × Instr)
  deriving DecidableEq, Repr

/-- The slots a header names as present, in the order of their words. -/
def Header.slots (h : Header) : List Slot := Slot.all.filter fun sl => h.present.getLsbD sl.idx

/-- The length of a bundle in bytes (02 R53). -/
def Header.size (h : Header) : Nat := 4 + 8 * h.slots.length

/-- An operation that may not repeat: S rows 0x4, 0x8 and 0xA, and CRW (02 R58). -/
def nonRepeatable (slot : Slot) (op : BitVec 8) : Bool :=
  slot == .s && (op.extractLsb' 4 4 == 4 || op.extractLsb' 4 4 == 8 || op.extractLsb' 4 4 == 0xA || op == 0x65)

/-- The slot words that follow a header. -/
def decodeSlots : List Slot → List Byte → Except DecodeError (List (Slot × W64 × Instr))
  | [], _ => .ok []
  | sl :: l, bs =>
    if bs.length < 8 then .error .truncated
    else
      let w : W64 := BitVec.ofNat 64 (leNat (bs.take 8))
      match decodeSlot sl w with
      | .error e => .error e
      | .ok i =>
        match decodeSlots l (bs.drop 8) with
        | .error e => .error e
        | .ok r => .ok ((sl, w, i) :: r)

/-- The conditions of check 1 that need the header and a slot word together (02 R57, R58). -/
def crossCheck (h : Header) : List (Slot × W64 × Instr) → Option DecodeError
  | [] => none
  | (sl, w, _) :: l =>
    if h.rep ≠ 0 ∧ nonRepeatable sl (opcodeOf w) then some (.repeated sl (opcodeOf w))
    else if h.loopend ≠ 0 ∧ sl = .s ∧ (opcodeOf w).extractLsb' 4 4 = 4 then some (.loopEnd sl (opcodeOf w))
    else crossCheck h l

/-- The bytes at the PC as a bundle: total, and every rejection has a name (02 R53, R77, R78). -/
def decode (bs : List Byte) : Except DecodeError Bundle :=
  if bs.length < 4 then .error .truncated
  else
    match decodeHeader (BitVec.ofNat 32 (leNat (bs.take 4))) with
    | .error e => .error e
    | .ok h =>
      match decodeSlots h.slots (bs.drop 4) with
      | .error e => .error e
      | .ok ops =>
        match crossCheck h ops with
        | some e => .error e
        | none => .ok ⟨h, ops⟩

/-- The instruction of a bundle that holds a header alone or one slot word. -/
def Bundle.single (b : Bundle) : Option Instr :=
  match b.ops with
  | [] => some (.headerOnlyBundle b.header.loopend b.header.rep b.header.quiet)
  | [(_, _, i)] => some i
  | _ => none

/-- What the decoder reads from the bits of an opcode-table row: little-endian bytes from bit 0, and zeros above `nbits`
up to the longest bundle, 52 bytes. -/
def decodeTableWord (nbits w : Nat) : Option Instr :=
  match decode (leBytes 52 (w % 2 ^ nbits)) with
  | .ok b => b.single
  | .error _ => none

/-! ### The encoder -/

/-- Bits [50:0] of an SR word. -/
def SR.bits (w : SR) : BitVec 51 := w.lat ++ w.d ++ w.a ++ w.b ++ w.c ++ w.fn ++ w.rsv
/-- Bits [50:0] of an SI word. -/
def SI.bits (w : SI) : BitVec 51 := w.lat ++ w.d ++ w.a ++ w.imm
/-- Bits [50:0] of an SB word. -/
def SB.bits (w : SB) : BitVec 51 := w.lat ++ w.d ++ w.a ++ w.disp
/-- Bits [50:0] of an SM word. -/
def SM.bits (w : SM) : BitVec 51 := w.lat ++ w.d ++ w.a ++ w.size ++ w.sgn ++ w.qf ++ w.off ++ w.step
/-- Bits [50:0] of an SG word. -/
def SG.bits (w : SG) : BitVec 51 := w.lnd ++ w.d ++ w.a ++ w.size ++ w.sgn ++ w.off ++ w.step
/-- Bits [50:0] of an SA word. -/
def SA.bits (w : SA) : BitVec 51 := w.lnd ++ w.d ++ w.a ++ w.b ++ w.c ++ w.scope ++ w.ord ++ w.size ++ w.rsv
/-- Bits [50:0] of a VR word. -/
def VR.bits (w : VR) : BitVec 51 := w.lat ++ w.zd ++ w.za ++ w.zb ++ w.zc ++ w.tag ++ w.rm ++ w.sat ++ w.fn
/-- Bits [50:0] of a VM word. -/
def VM.bits (w : VM) : BitVec 51 := w.lat ++ w.z ++ w.a ++ w.qf ++ w.off ++ w.step
/-- Bits [50:0] of an M word. -/
def MW.bits (w : MW) : BitVec 51 :=
  w.lat ++ w.kp ++ w.kc0 ++ w.kc1 ++ w.kc2 ++ w.cmask ++ w.za ++ w.pl ++ w.ab ++ w.fn
/-- Bits [50:0] of a C word. -/
def CW.bits (w : CW) : BitVec 51 := w.kp ++ w.kc0 ++ w.kc1 ++ w.kc2 ++ w.cmask ++ w.a ++ w.b ++ w.c ++ w.step
/-- OP, PN, PRED and the format's bits (02 R63). -/
def slotBits (op : BitVec 8) (g : Guard) (b : BitVec 51) : W64 := op ++ g.pn ++ g.pred ++ b

/-- The header word of a header's fields (02 R54). -/
def Header.word (h : Header) : BitVec 32 := 0b1011#4 ++ 0#4 ++ h.loopend ++ h.rep ++ h.quiet ++ h.present

/-- The slot and the word of a slot operation (02 R63 to R68); an event and a header-only bundle have none. -/
def Instr.slotWord : Instr → Option (Slot × W64)
  | .add g w => some (.s, slotBits 0x01 g w.bits)
  | .sub g w => some (.s, slotBits 0x02 g w.bits)
  | .mul g w => some (.s, slotBits 0x03 g w.bits)
  | .mulh g w => some (.s, slotBits 0x04 g w.bits)
  | .mulhu g w => some (.s, slotBits 0x05 g w.bits)
  | .and g w => some (.s, slotBits 0x06 g w.bits)
  | .or g w => some (.s, slotBits 0x07 g w.bits)
  | .xor g w => some (.s, slotBits 0x08 g w.bits)
  | .shl g w => some (.s, slotBits 0x09 g w.bits)
  | .shr g w => some (.s, slotBits 0x0A g w.bits)
  | .sar g w => some (.s, slotBits 0x0B g w.bits)
  | .addi g w => some (.s, slotBits 0x10 g w.bits)
  | .andi g w => some (.s, slotBits 0x11 g w.bits)
  | .ori g w => some (.s, slotBits 0x12 g w.bits)
  | .xori g w => some (.s, slotBits 0x13 g w.bits)
  | .shli g w => some (.s, slotBits 0x14 g w.bits)
  | .shri g w => some (.s, slotBits 0x15 g w.bits)
  | .sari g w => some (.s, slotBits 0x16 g w.bits)
  | .li g w => some (.s, slotBits 0x17 g w.bits)
  | .min g w => some (.s, slotBits 0x18 g w.bits)
  | .max g w => some (.s, slotBits 0x19 g w.bits)
  | .minu g w => some (.s, slotBits 0x1A g w.bits)
  | .maxu g w => some (.s, slotBits 0x1B g w.bits)
  | .clz g w => some (.s, slotBits 0x1C g w.bits)
  | .popc g w => some (.s, slotBits 0x1D g w.bits)
  | .cmpeq g w => some (.s, slotBits 0x20 g w.bits)
  | .cmpne g w => some (.s, slotBits 0x21 g w.bits)
  | .cmplt g w => some (.s, slotBits 0x22 g w.bits)
  | .cmple g w => some (.s, slotBits 0x23 g w.bits)
  | .cmpltu g w => some (.s, slotBits 0x24 g w.bits)
  | .cmpleu g w => some (.s, slotBits 0x25 g w.bits)
  | .cmpeqi g w => some (.s, slotBits 0x26 g w.bits)
  | .cmplti g w => some (.s, slotBits 0x27 g w.bits)
  | .pand g w => some (.s, slotBits 0x28 g w.bits)
  | .por g w => some (.s, slotBits 0x29 g w.bits)
  | .pxor g w => some (.s, slotBits 0x2A g w.bits)
  | .pnot g w => some (.s, slotBits 0x2B g w.bits)
  | .fadd g w => some (.s, slotBits 0x30 g w.bits)
  | .fsub g w => some (.s, slotBits 0x31 g w.bits)
  | .fmul g w => some (.s, slotBits 0x32 g w.bits)
  | .ffma g w => some (.s, slotBits 0x33 g w.bits)
  | .fdiv g w => some (.s, slotBits 0x34 g w.bits)
  | .fsqrt g w => some (.s, slotBits 0x35 g w.bits)
  | .fmin g w => some (.s, slotBits 0x36 g w.bits)
  | .fmax g w => some (.s, slotBits 0x37 g w.bits)
  | .fcmpeq g w => some (.s, slotBits 0x38 g w.bits)
  | .fcmplt g w => some (.s, slotBits 0x39 g w.bits)
  | .fcmple g w => some (.s, slotBits 0x3A g w.bits)
  | .fcvti g w => some (.s, slotBits 0x3B g w.bits)
  | .icvtf g w => some (.s, slotBits 0x3C g w.bits)
  | .br g w => some (.s, slotBits 0x40 g w.bits)
  | .bri g w => some (.s, slotBits 0x41 g w.bits)
  | .call g w => some (.s, slotBits 0x42 g w.bits)
  | .calli g w => some (.s, slotBits 0x43 g w.bits)
  | .ret g w => some (.s, slotBits 0x44 g w.bits)
  | .loop g w => some (.s, slotBits 0x45 g w.bits)
  | .hbase g w => some (.s, slotBits 0x50 g w.bits)
  | .hset g w => some (.s, slotBits 0x51 g w.bits)
  | .hstep g w => some (.s, slotBits 0x52 g w.bits)
  | .hget g w => some (.s, slotBits 0x53 g w.bits)
  | .hmov g w => some (.s, slotBits 0x54 g w.bits)
  | .lds g w => some (.s, slotBits 0x60 g w.bits)
  | .sts g w => some (.s, slotBits 0x61 g w.bits)
  | .ldg g w => some (.s, slotBits 0x62 g w.bits)
  | .stg g w => some (.s, slotBits 0x63 g w.bits)
  | .crr g w => some (.s, slotBits 0x64 g w.bits)
  | .crw g w => some (.s, slotBits 0x65 g w.bits)
  | .zins g w => some (.s, slotBits 0x66 g w.bits)
  | .zext g w => some (.s, slotBits 0x67 g w.bits)
  | .amoadd g w => some (.s, slotBits 0x70 g w.bits)
  | .amoand g w => some (.s, slotBits 0x71 g w.bits)
  | .amoor g w => some (.s, slotBits 0x72 g w.bits)
  | .amoxor g w => some (.s, slotBits 0x73 g w.bits)
  | .amomin g w => some (.s, slotBits 0x74 g w.bits)
  | .amomax g w => some (.s, slotBits 0x75 g w.bits)
  | .amoswap g w => some (.s, slotBits 0x76 g w.bits)
  | .amocas g w => some (.s, slotBits 0x77 g w.bits)
  | .amofadd g w => some (.s, slotBits 0x78 g w.bits)
  | .bar g w => some (.s, slotBits 0x80 g w.bits)
  | .drain g w => some (.s, slotBits 0x81 g w.bits)
  | .settle g w => some (.s, slotBits 0x82 g w.bits)
  | .yield g w => some (.s, slotBits 0x83 g w.bits)
  | .tail g w => some (.s, slotBits 0x84 g w.bits)
  | .enter g w => some (.s, slotBits 0x85 g w.bits)
  | .leave g w => some (.s, slotBits 0x86 g w.bits)
  | .probe g w => some (.s, slotBits 0x87 g w.bits)
  | .trap g w => some (.s, slotBits 0x88 g w.bits)
  | .eret g w => some (.s, slotBits 0x89 g w.bits)
  | .ldref g w => some (.s, slotBits 0x90 g w.bits)
  | .stref g w => some (.s, slotBits 0x91 g w.bits)
  | .ldfld g w => some (.s, slotBits 0x92 g w.bits)
  | .stfld g w => some (.s, slotBits 0x93 g w.bits)
  | .pin g w => some (.s, slotBits 0x94 g w.bits)
  | .unpin g w => some (.s, slotBits 0x95 g w.bits)
  | .refeq g w => some (.s, slotBits 0x96 g w.bits)
  | .refmk g w => some (.s, slotBits 0x97 g w.bits)
  | .slotmap g w => some (.s, slotBits 0xA0 g w.bits)
  | .ttset g w => some (.s, slotBits 0xA1 g w.bits)
  | .skeinldLoad g w => some (.s, slotBits 0xA2 g w.bits)
  | .skeinldRelease g w => some (.s, slotBits 0xA2 g w.bits)
  | .scanrun g w => some (.s, slotBits 0xA3 g w.bits)
  | .preempt g w => some (.s, slotBits 0xA4 g w.bits)
  | .ctxsave g w => some (.s, slotBits 0xA5 g w.bits)
  | .ctxload g w => some (.s, slotBits 0xA6 g w.bits)
  | .qmap g w => some (.s, slotBits 0xA7 g w.bits)
  | .qsave g w => some (.s, slotBits 0xA8 g w.bits)
  | .qload g w => some (.s, slotBits 0xA9 g w.bits)
  | .pstep g w => some (.s, slotBits 0xAA g w.bits)
  | .inval g w => some (.s, slotBits 0xAB g w.bits)
  | .relocStart g w => some (.s, slotBits 0xAC g w.bits)
  | .relocQuery g w => some (.s, slotBits 0xAC g w.bits)
  | .relocAbort g w => some (.s, slotBits 0xAC g w.bits)
  | .fwdpub g w => some (.s, slotBits 0xAD g w.bits)
  | .logrApp g w => some (.s, slotBits 0xAE g w.bits)
  | .logrRead g w => some (.s, slotBits 0xAE g w.bits)
  | .vld v g w => some (v.slot, slotBits 0x01 g w.bits)
  | .vst v g w => some (v.slot, slotBits 0x02 g w.bits)
  | .vmov v g w => some (v.slot, slotBits 0x03 g w.bits)
  | .vperm v g w => some (v.slot, slotBits 0x04 g w.bits)
  | .vbcstScalar v g w => some (v.slot, slotBits 0x05 g w.bits)
  | .vbcstElement v g w => some (v.slot, slotBits 0x05 g w.bits)
  | .vshuf v g w => some (v.slot, slotBits 0x06 g w.bits)
  | .vsel v g w => some (v.slot, slotBits 0x07 g w.bits)
  | .vtag v g w => some (v.slot, slotBits 0x08 g w.bits)
  | .vadd v g w => some (v.slot, slotBits 0x10 g w.bits)
  | .vsub v g w => some (v.slot, slotBits 0x11 g w.bits)
  | .vmul v g w => some (v.slot, slotBits 0x12 g w.bits)
  | .vfma v g w => some (v.slot, slotBits 0x13 g w.bits)
  | .vfms v g w => some (v.slot, slotBits 0x14 g w.bits)
  | .vmin v g w => some (v.slot, slotBits 0x15 g w.bits)
  | .vmax v g w => some (v.slot, slotBits 0x16 g w.bits)
  | .vabs v g w => some (v.slot, slotBits 0x17 g w.bits)
  | .vneg v g w => some (v.slot, slotBits 0x18 g w.bits)
  | .vcmp v g w => some (v.slot, slotBits 0x19 g w.bits)
  | .viadd v g w => some (v.slot, slotBits 0x20 g w.bits)
  | .visub v g w => some (v.slot, slotBits 0x21 g w.bits)
  | .vimul v g w => some (v.slot, slotBits 0x22 g w.bits)
  | .vimad v g w => some (v.slot, slotBits 0x23 g w.bits)
  | .vand v g w => some (v.slot, slotBits 0x24 g w.bits)
  | .vor v g w => some (v.slot, slotBits 0x25 g w.bits)
  | .vxor v g w => some (v.slot, slotBits 0x26 g w.bits)
  | .vshl v g w => some (v.slot, slotBits 0x27 g w.bits)
  | .vshr v g w => some (v.slot, slotBits 0x28 g w.bits)
  | .vsar v g w => some (v.slot, slotBits 0x29 g w.bits)
  | .vimin v g w => some (v.slot, slotBits 0x2A g w.bits)
  | .vimax v g w => some (v.slot, slotBits 0x2B g w.bits)
  | .vicmp v g w => some (v.slot, slotBits 0x2C g w.bits)
  | .vcvt v g w => some (v.slot, slotBits 0x30 g w.bits)
  | .vqzb v g w => some (v.slot, slotBits 0x31 g w.bits)
  | .vmxi v g w => some (v.slot, slotBits 0x32 g w.bits)
  | .vrsum v g w => some (v.slot, slotBits 0x40 g w.bits)
  | .vrmax v g w => some (v.slot, slotBits 0x41 g w.bits)
  | .vrmin v g w => some (v.slot, slotBits 0x42 g w.bits)
  | .vexp2 v g w => some (v.slot, slotBits 0x50 g w.bits)
  | .vlog2 v g w => some (v.slot, slotBits 0x51 g w.bits)
  | .vrcp v g w => some (v.slot, slotBits 0x52 g w.bits)
  | .vrsq v g w => some (v.slot, slotBits 0x53 g w.bits)
  | .vsin v g w => some (v.slot, slotBits 0x54 g w.bits)
  | .vcos v g w => some (v.slot, slotBits 0x55 g w.bits)
  | .vscget v g w => some (v.slot, slotBits 0x60 g w.bits)
  | .vscset v g w => some (v.slot, slotBits 0x61 g w.bits)
  | .vscadd v g w => some (v.slot, slotBits 0x62 g w.bits)
  | .vscmax v g w => some (v.slot, slotBits 0x63 g w.bits)
  | .fx n v g w => some (v.slot, slotBits (0xF#4 ++ n) g w.bits)
  | .mlb g w => some (.m, slotBits 0x01 g w.bits)
  | .msel g w => some (.m, slotBits 0x02 g w.bits)
  | .mac g w => some (.m, slotBits 0x03 g w.bits)
  | .macn g w => some (.m, slotBits 0x04 g w.bits)
  | .macz g w => some (.m, slotBits 0x05 g w.bits)
  | .mrd g w => some (.m, slotBits 0x06 g w.bits)
  | .mrdSteps g w => some (.m, slotBits 0x06 g w.bits)
  | .mdr g w => some (.m, slotBits 0x07 g w.bits)
  | .mclr g w => some (.m, slotBits 0x08 g w.bits)
  | .mmode g w => some (.m, slotBits 0x09 g w.bits)
  | .cpy c g w => some (c.slot, slotBits 0x01 g w.bits)
  | .cpyr c g w => some (c.slot, slotBits 0x02 g w.bits)
  | .cpyt c g w => some (c.slot, slotBits 0x03 g w.bits)
  | .cpytr c g w => some (c.slot, slotBits 0x04 g w.bits)
  | .gath c g w => some (c.slot, slotBits 0x05 g w.bits)
  | .gathr c g w => some (c.slot, slotBits 0x06 g w.bits)
  | .scat c g w => some (c.slot, slotBits 0x07 g w.bits)
  | .scatr c g w => some (c.slot, slotBits 0x08 g w.bits)
  | .cfill c g w => some (c.slot, slotBits 0x09 g w.bits)
  | .redc c g w => some (c.slot, slotBits 0x0A g w.bits)
  | .bcst c g w => some (c.slot, slotBits 0x0B g w.bits)
  | .ldq c g w => some (c.slot, slotBits 0x10 g w.bits)
  | .stq c g w => some (c.slot, slotBits 0x11 g w.bits)
  | .kwait c g w => some (c.slot, slotBits 0x12 g w.bits)
  | .headerOnlyBundle _ _ _ => none
  | .copyPerform .. | .stqPushPerform .. | .mOperationPerform .. | .landingDataArrival .. | .storePerform ..
  | .uncachedWriteAck .. | .retirementEntryFree .. | .homeSliceAccess .. | .invalidation .. | .remoteWrite ..
  | .fetchFill .. | .eccCorr .. | .eccFreezeEnd .. | .onchipUe .. | .systemUe .. | .dpcRelease .. | .barPacket ..
  | .barrierRelease .. | .fatalContextError .. | .contextKill .. | .supstart .. | .accountLatch ..
  | .supervisorFlush .. | .captureStart .. | .captureStop .. | .shootdown .. | .patchAckTimeout .. | .kick ..
  | .packetFetch .. | .launchComplete .. | .itemStart .. | .resumeEntry .. | .rebalance .. | .ageing ..
  | .watchdogExpire .. | .partitionReset .. | .ctxalloc .. | .ctxfree .. | .kill .. | .rangeset ..
  | .rangeReload .. | .map .. | .unmap .. | .regq .. | .deregq .. | .place .. | .loadobj .. | .regobj ..
  | .unregobj .. | .migout .. | .migin .. | .bundlingComplete .. | .codeEvict .. | .heapstart .. | .heapquery ..
  | .heapabort .. | .heappub .. | .heapfree .. | .objectClaim .. | .lineMoveRead .. | .lineMoveCopied ..
  | .publish .. | .capture .. | .regionbp .. | .halt .. | .continueRun .. | .stepToEdge .. | .stepBundle ..
  | .patchSet .. | .patchClear .. | .logread .. | .attest .. | .dbgchal .. | .dbgattach .. | .dbgdetach ..
  | .partset .. | .whorlset .. | .pinlevel .. | .wearread .. | .setid .. | .routeset .. | .groupset ..
  | .importEntry .. | .claim .. | .transfer .. | .returnPkg .. | .retire .. | .xlateReq .. | .revokeAck ..
  | .revokeTimeout .. | .hostAccess .. | .pcsLock .. | .flit .. | .init .. | .nak .. | .retrain .. | .read ..
  | .write .. | .atomic .. | .redcMessage .. | .bcstMessage .. | .rdata .. | .wack .. | .areply .. | .error ..
  | .heartbeat .. | .probeMessage .. | .probeack .. | .heartbeatInterval .. | .probeInterval .. | .portDown ..
  | .retrainAttempt .. | .peerUnreachable .. | .memberFenced .. | .routerBypass .. | .whorlTick .. | .drainmax ..
  | .wearLogCommit .. | .powerTick .. | .powerStepPin .. | .powerWindow .. | .idleEntry .. | .powerFail ..
  | .dumpComplete .. | .boot .. | .registerWrite .. | .malformedBundle .. | .mailboxRing .. | .voltageDroop ..
  | .powerLost .. => none

/-- The header of the solo bundle of a slot: that slot present, the five others quiet, no repetition and no loop. -/
def soloHeader (slot : Slot) : Header :=
  ⟨0, 0, ~~~(1#6 <<< slot.idx), 1#6 <<< slot.idx⟩

/-- The bytes of an instruction standing alone in a bundle; an event has none. -/
def encode (i : Instr) : List Byte :=
  match i with
  | .headerOnlyBundle l r q => leBytes 4 (Header.word ⟨l, r, q, 0⟩).toNat
  | i =>
    match i.slotWord with
    | some (slot, w) => leBytes 4 (soloHeader slot).word.toNat ++ leBytes 8 w.toNat
    | none => []

end Sys2Proof
end

