-- ==== Sys2Proof/Machine/Flags.lean ====
section
/-! DEFINITION. The sticky flags and the exact arithmetic that raises them: the floating-point formats, `round`,
`round_int`, the stochastic generator, and the exact sums, products, quotients and roots they round (03 R90 to R107). -/

namespace Sys2Proof.Machine

/-- The six bits of cr.flags (03 R101). -/
abbrev Flags := BitVec 6
/-- 03 R101 [0] -/
def Flags.invalid : Flags := 1
/-- 03 R101 [1] -/
def Flags.overflow : Flags := 2
/-- 03 R101 [2] -/
def Flags.underflow : Flags := 4
/-- 03 R101 [3] -/
def Flags.inexact : Flags := 8
/-- 03 R101 [4] -/
def Flags.scaleovf : Flags := 16
/-- 03 R101 [5] -/
def Flags.wtrunc : Flags := 32
/-- A flag where a condition holds, and none elsewhere. -/
def Flags.when (b : Bool) (f : Flags) : Flags := if b then f else 0
/-- The union of the flags of a list. -/
def Flags.all (l : List Flags) : Flags := l.foldl (· ||| ·) 0

/-- The five rounding modes (03 R101). -/
inductive RMode where
  | rne | rtz | rdn | rup | sr
  deriving DecidableEq, Repr

/-- The mode of a code of cr.round or RM (02 R66, 03 R101); the codes that check 1 or R267 refuse round to nearest. -/
def RMode.ofCode (c : BitVec 3) : RMode :=
  match c.toNat with
  | 2 => .rtz
  | 3 => .rdn
  | 4 => .rup
  | 5 => .sr
  | _ => .rne

/-- A finite exact value: (−1)^neg × m × 2^e. A zero keeps its sign in `neg`. -/
structure Dy where
  neg : Bool
  m : Nat
  e : Int
  deriving DecidableEq, Repr

/-- The value of an element as the arithmetic sees it: a NaN, an infinity, or a finite value. -/
inductive Fv where
  | nan (signalling : Bool)
  | inf (neg : Bool)
  | fin (d : Dy)
  deriving DecidableEq, Repr

/-- A floating-point format (03 R91): exponent and fraction widths, bias, whether it has infinities, whether a NaN with a
clear top fraction bit signals (03 R92), the default NaN and the integer significand of the largest finite value. -/
structure FFmt where
  eb : Nat
  fb : Nat
  bias : Nat
  hasInf : Bool
  signals : Bool
  defaultNan : Nat
  maxSig : Nat
  emax : Int
  deriving DecidableEq, Repr

/-- 03 R91 -/
def fp32 : FFmt := ⟨8, 23, 127, true, true, 0x7FC00000, 0xFFFFFF, 127⟩
/-- 03 R91 -/
def bf16 : FFmt := ⟨8, 7, 127, true, true, 0x7FC0, 0xFF, 127⟩
/-- 03 R91 -/
def fp16 : FFmt := ⟨5, 10, 15, true, true, 0x7E00, 0x7FF, 15⟩
/-- 03 R91: no infinity, and the two NaNs 0x7F and 0xFF -/
def e4m3 : FFmt := ⟨4, 3, 7, false, false, 0x7F, 14, 8⟩
/-- 03 R91 -/
def e5m2 : FFmt := ⟨5, 2, 15, true, false, 0x7E, 7, 15⟩

/-- Bits of an element. -/
def FFmt.width (f : FFmt) : Nat := 1 + f.eb + f.fb
/-- The precision with the hidden bit. -/
def FFmt.p (f : FFmt) : Nat := f.fb + 1
/-- The exponent of the smallest normal. -/
def FFmt.emin (f : FFmt) : Int := 1 - (f.bias : Int)

/-- The value of an encoding (03 R91, R92). -/
def FFmt.value (f : FFmt) (x : Nat) : Fv :=
  let neg := x.testBit (f.eb + f.fb)
  let ex := (x >>> f.fb) % 2 ^ f.eb
  let fr := x % 2 ^ f.fb
  if ex = 2 ^ f.eb - 1 ∧ (f.hasInf ∨ fr = 2 ^ f.fb - 1) then
    if f.hasInf ∧ fr = 0 then .inf neg
    else .nan (f.signals && !fr.testBit (f.fb - 1))
  else if ex = 0 then .fin ⟨neg, fr, 1 - (f.bias : Int) - f.fb⟩
  else .fin ⟨neg, 2 ^ f.fb + fr, (ex : Int) - f.bias - f.fb⟩

/-- A sign bit over an encoding. -/
def FFmt.signed (f : FFmt) (neg : Bool) (x : Nat) : Nat := (if neg then 2 ^ (f.eb + f.fb) else 0) + x

/-- The encoding of ±k × 2^q, for a value the format holds. -/
def FFmt.encodeFin (f : FFmt) (neg : Bool) (k : Nat) (q : Int) : Nat :=
  if k = 0 then f.signed neg 0
  else
    let e : Int := Nat.log2 k + q
    if e < f.emin then f.signed neg (k <<< (q - (f.emin - f.fb)).toNat)
    else
      let sig := if Nat.log2 k ≤ f.fb then k <<< (f.fb - Nat.log2 k) else k >>> (Nat.log2 k - f.fb)
      f.signed neg (((e + f.bias).toNat <<< f.fb) + (sig - 2 ^ f.fb))

/-- The infinity of a sign, in a format that has one. -/
def FFmt.infinity (f : FFmt) (neg : Bool) : Nat := f.signed neg ((2 ^ f.eb - 1) <<< f.fb)
/-- The largest finite value of a sign. -/
def FFmt.maximum (f : FFmt) (neg : Bool) : Nat := f.encodeFin neg f.maxSig (f.emax - f.fb)

/-- The integer kept when a magnitude lo + rem / 2^sh is rounded (03 R103). -/
def roundMag (mode : RMode) (d : Nat) (neg : Bool) (lo rem sh : Nat) : Nat :=
  if rem = 0 then lo
  else match mode with
    | .rne => if 2 ^ sh < 2 * rem ∨ (2 * rem = 2 ^ sh ∧ lo % 2 = 1) then lo + 1 else lo
    | .rtz => lo
    | .rdn => if neg then lo + 1 else lo
    | .rup => if neg then lo else lo + 1
    | .sr => if d < (rem <<< 24) >>> sh then lo + 1 else lo

/-- The integer part, the remainder and its width when m × 2^e is cut at 2^q. -/
def cutAt (m : Nat) (e q : Int) : Nat × Nat × Nat :=
  if q ≤ e then (m <<< (e - q).toNat, 0, 0)
  else (m >>> (q - e).toNat, m % 2 ^ (q - e).toNat, (q - e).toNat)

/-- `round` of 03 R103, with the draw `d` it takes in SR; the encoding and the flags raised. -/
def round (f : FFmt) (mode : RMode) (sat : Bool) (d : Nat) (x : Fv) : Nat × Flags :=
  match x with
  | .nan _ => (f.defaultNan, 0)
  | .inf neg =>
    if f.hasInf then (f.infinity neg, 0)
    else (if sat then f.maximum neg else f.defaultNan, Flags.overflow)
  | .fin ⟨neg, m, e⟩ =>
    if m = 0 then (f.signed neg 0, 0)
    else
      let ex := max (Nat.log2 m + e) f.emin
      let q := ex - f.fb
      let c := cutAt m e q
      let k := roundMag mode d neg c.1 c.2.1 c.2.2
      let inexact := c.2.1 ≠ 0
      let fl := Flags.when inexact Flags.inexact ||| Flags.when (inexact ∧ ex = f.emin ∧ k < 2 ^ f.fb) Flags.underflow
      if f.emax < ex ∨ (ex = f.emax ∧ f.maxSig < k) then
        let fl := fl ||| Flags.overflow ||| Flags.inexact
        let y :=
          if sat then f.maximum neg
          else if !f.hasInf then f.defaultNan
          else match mode with
            | .rne | .sr => f.infinity neg
            | .rtz => f.maximum neg
            | .rdn => if neg then f.infinity true else f.maximum false
            | .rup => if neg then f.maximum true else f.infinity false
        (y, fl)
      else (f.encodeFin neg k q, fl)

/-- `round_int` of 03 R103: the integer, and whether it differs from the value. -/
def roundInt (mode : RMode) (d : Nat) (x : Dy) : Int × Bool :=
  let c := cutAt x.m x.e 0
  let k := roundMag mode d x.neg c.1 c.2.1 c.2.2
  (if x.neg then -(k : Int) else k, c.2.1 ≠ 0)

/-- One step of the generator (03 R104): the new state. -/
def srNext (seed : W64) : W64 :=
  let x := if seed = 0 then 0x9E3779B97F4A7C15#64 else seed
  let x := x ^^^ (x <<< 13)
  let x := x ^^^ (x >>> 7)
  x ^^^ (x <<< 17)

/-- The 24 bits a draw returns, from the state it leaves (03 R104). -/
def srBits (seed : W64) : Nat := (seed.extractLsb' 40 24).toNat

/-- `n` draws in order, and the state they leave (03 R104, R105). -/
def draws : Nat → W64 → List Nat × W64
  | 0, s => ([], s)
  | n + 1, s =>
    let s1 := srNext s
    let r := draws n s1
    (srBits s1 :: r.1, r.2)

/-- The draws an operation takes: `n` in SR, none in the other modes (03 R105). -/
def drawsFor (mode : RMode) (n : Nat) (seed : W64) : List Nat × W64 :=
  if mode = .sr then draws n seed else ([], seed)

/-- Negation of a value. -/
def Fv.negate : Fv → Fv
  | .nan s => .nan s
  | .inf n => .inf (!n)
  | .fin d => .fin { d with neg := !d.neg }

/-- Whether a value is a NaN. -/
def Fv.isNan : Fv → Bool
  | .nan _ => true
  | _ => false
/-- Whether a value is a signalling NaN. -/
def Fv.isSnan : Fv → Bool
  | .nan s => s
  | _ => false
/-- Whether a value is an infinity. -/
def Fv.isInf : Fv → Bool
  | .inf _ => true
  | _ => false

/-- The signed integer significand of a finite value at exponent `q`, which must be at most the value's own. -/
def Dy.at (x : Dy) (q : Int) : Int :=
  let k : Int := (x.m <<< (x.e - q).toNat : Nat)
  if x.neg then -k else k

/-- A signed significand at an exponent as a value; a zero takes the sign given. -/
def Dy.ofInt (i q : Int) (zeroNeg : Bool) : Dy :=
  ⟨if i = 0 then zeroNeg else i < 0, i.natAbs, q⟩

/-- The exact sum of two finite values; an exact-zero sum takes its sign under IEEE 754-2019 in the mode (03 R106). -/
def Dy.add (mode : RMode) (x y : Dy) : Dy :=
  let q := min x.e y.e
  Dy.ofInt (x.at q + y.at q) q
    (if x.m = 0 ∧ y.m = 0 ∧ x.neg = y.neg then x.neg else mode = .rdn)

/-- The exact product of two finite values. -/
def Dy.mul (x y : Dy) : Dy := ⟨x.neg != y.neg, x.m * y.m, x.e + y.e⟩
/-- x × 2^n. -/
def Dy.scale (x : Dy) (n : Int) : Dy := { x with e := x.e + n }

/-- Comparison of two finite values; −0 and +0 are equal. -/
def Dy.cmp (x y : Dy) : Ordering :=
  let q := min x.e y.e
  compare (x.at q) (y.at q)

/-- Exact sum, with the invalid flag for ∞ − ∞ and signalling NaNs (03 R93, R106). -/
def Fv.add (mode : RMode) (x y : Fv) : Fv × Flags :=
  let fl := Flags.when (x.isSnan || y.isSnan) Flags.invalid
  match x, y with
  | .nan _, _ | _, .nan _ => (.nan false, fl)
  | .inf a, .inf b => if a = b then (.inf a, fl) else (.nan false, fl ||| Flags.invalid)
  | .inf a, .fin _ => (.inf a, fl)
  | .fin _, .inf b => (.inf b, fl)
  | .fin a, .fin b => (.fin (a.add mode b), fl)

/-- Exact product, with the invalid flag for 0 × ∞ and signalling NaNs (03 R93). -/
def Fv.mul (x y : Fv) : Fv × Flags :=
  let fl := Flags.when (x.isSnan || y.isSnan) Flags.invalid
  match x, y with
  | .nan _, _ | _, .nan _ => (.nan false, fl)
  | .inf a, .inf b => (.inf (a != b), fl)
  | .inf a, .fin b => if b.m = 0 then (.nan false, fl ||| Flags.invalid) else (.inf (a != b.neg), fl)
  | .fin a, .inf b => if a.m = 0 then (.nan false, fl ||| Flags.invalid) else (.inf (a.neg != b), fl)
  | .fin a, .fin b => (.fin (a.mul b), fl)

/-- a × b + c exactly: a product 0 × ∞ is invalid even beside a quiet NaN addend (03 R93). -/
def Fv.fma (mode : RMode) (a b c : Fv) : Fv × Flags :=
  let p := a.mul b
  let s := p.1.add mode c
  (s.1, p.2 ||| s.2)

/-- A quotient cut to at least 64 bits, its last bit set where a remainder is left: every rounding of it is that of the
exact quotient. -/
def Dy.div (x y : Dy) : Dy :=
  let sh := 64 + Nat.log2 y.m
  let n := x.m <<< sh
  ⟨x.neg != y.neg, 2 * (n / y.m) + (if n % y.m = 0 then 0 else 1), x.e - y.e - sh - 1⟩

/-- Exact quotient: 0/0 and ∞/∞ are invalid, and a non-zero number over zero is an infinity without a flag (03 R93). -/
def Fv.div (x y : Fv) : Fv × Flags :=
  let fl := Flags.when (x.isSnan || y.isSnan) Flags.invalid
  match x, y with
  | .nan _, _ | _, .nan _ => (.nan false, fl)
  | .inf _, .inf _ => (.nan false, fl ||| Flags.invalid)
  | .inf a, .fin b => (.inf (a != b.neg), fl)
  | .fin a, .inf b => (.fin ⟨a.neg != b, 0, 0⟩, fl)
  | .fin a, .fin b =>
    if b.m = 0 then
      if a.m = 0 then (.nan false, fl ||| Flags.invalid) else (.inf (a.neg != b.neg), fl)
    else (.fin (a.div b), fl)

/-- The integer square root by bits, from bit `i` downwards. -/
def isqrt : Nat → Nat → Nat → Nat
  | 0, _, r => r
  | i + 1, n, r => isqrt i n (if (r + 2 ^ i) * (r + 2 ^ i) ≤ n then r + 2 ^ i else r)

/-- A root cut to at least 64 bits, its last bit set where a remainder is left. -/
def Dy.sqrt (x : Dy) : Dy :=
  let odd := x.e % 2 = 1
  let m := (if odd then 2 * x.m else x.m) <<< 128
  let e := (if odd then x.e - 1 else x.e) - 128
  let r := isqrt (Nat.log2 m / 2 + 1) m 0
  ⟨x.neg, 2 * r + (if r * r = m then 0 else 1), e / 2 - 1⟩

/-- Exact square root: that of a negative number is invalid, and √(−0) is −0 (03 R93, 04 R129). -/
def Fv.sqrt (x : Fv) : Fv × Flags :=
  match x with
  | .nan s => (.nan false, Flags.when s Flags.invalid)
  | .inf true => (.nan false, Flags.invalid)
  | .inf false => (.inf false, 0)
  | .fin d =>
    if d.m = 0 then (.fin d, 0)
    else if d.neg then (.nan false, Flags.invalid)
    else (.fin d.sqrt, 0)

/-- Order of two values that are no NaN; −0 and +0 are equal. -/
def Fv.cmp (x y : Fv) : Ordering :=
  match x, y with
  | .fin a, .fin b => a.cmp b
  | .inf a, .inf b => if a = b then .eq else if a then .lt else .gt
  | .inf a, _ => if a then .lt else .gt
  | _, .inf b => if b then .gt else .lt
  | _, _ => .eq

/-- Whether a value has its sign bit set. -/
def Fv.signBit : Fv → Bool
  | .nan _ => false
  | .inf n => n
  | .fin d => d.neg

/-- x < y where −0 is below +0 (04 R129). -/
def Fv.below (x y : Fv) : Bool :=
  match x.cmp y with
  | .lt => true
  | .gt => false
  | .eq => x.signBit && !y.signBit

/-- FMIN and FMAX on the values of two encodings of one format: exact, the default NaN if either is a NaN, invalid only
for a signalling NaN (04 R129). -/
def fpMinMax (f : FFmt) (max : Bool) (x y : Nat) : Nat × Flags :=
  let a := f.value x
  let b := f.value y
  let fl := Flags.when (a.isSnan || b.isSnan) Flags.invalid
  if a.isNan || b.isNan then (f.defaultNan, fl)
  else if max then (if a.below b then y else x, fl) else (if b.below a then y else x, fl)

/-- A relation of two values, with the invalid flag of FCMPEQ (`any` false) or of FCMPLT (`any` true) (04 R129). -/
def fpRel (rel : Ordering → Bool) (any : Bool) (a b : Fv) : Bool × Flags :=
  (!a.isNan && !b.isNan && rel (a.cmp b),
    Flags.when (a.isSnan || b.isSnan || (any && (a.isNan || b.isNan))) Flags.invalid)

/-- An exact value converted to an integer range [lo, hi] (03 R107): NaN gives 0 with invalid, a clamp sets invalid only, an
in-range result that differs sets inexact. -/
def toIntRange (mode : RMode) (d : Nat) (lo hi : Int) (x : Fv) : Int × Flags :=
  match x with
  | .nan _ => (0, Flags.invalid)
  | .inf neg => (if neg then lo else hi, Flags.invalid)
  | .fin v =>
    let r := roundInt mode d v
    if r.1 < lo then (lo, Flags.invalid)
    else if hi < r.1 then (hi, Flags.invalid)
    else (r.1, Flags.when r.2 Flags.inexact)

/-- An integer as an exact value. -/
def Dy.int (i : Int) : Dy := Dy.ofInt i 0 false

end Sys2Proof.Machine
end

