-- ==== Sys2Proof/Machine/Store.lean ====
section
/-! DEFINITION. Tables with natural-number keys in one canonical form: strictly rising keys and no entry equal to what an
absent key reads as. Register files, memories and the package's tables are held in it. -/

namespace Sys2Proof.Machine

/-- What a key reads as; `d` is what an absent key reads as. -/
def SMap.get {α : Type} (d : α) : SMap α → Nat → α
  | [], _ => d
  | (k, v) :: l, a => if a = k then v else SMap.get d l a

/-- A table without a key. -/
def SMap.drop {α : Type} (m : SMap α) (a : Nat) : SMap α := m.filter fun q => q.1 != a

/-- Puts a value at a key; an entry equal to `d` is taken out. -/
def SMap.set {α : Type} [DecidableEq α] (d : α) : SMap α → Nat → α → SMap α
  | [], a, x => if x = d then [] else [(a, x)]
  | (k, v) :: l, a, x =>
    if a < k then (if x = d then SMap.drop ((k, v) :: l) a else (a, x) :: (k, v) :: l)
    else if a = k then (if x = d then SMap.drop l a else (a, x) :: l)
    else (k, v) :: SMap.set d l a x

/-- Every key of the table is above `lo` and rising, and no entry equals `d`. -/
def SMap.wfFrom {α : Type} [DecidableEq α] (d : α) : Option Nat → SMap α → Bool
  | _, [] => true
  | lo, (k, v) :: l => (match lo with | none => true | some b => decide (b < k)) && decide (v ≠ d) && SMap.wfFrom d (some k) l

/-- The canonical form: strictly rising keys, and no entry equal to what an absent key reads as. -/
def SMap.wf {α : Type} [DecidableEq α] (d : α) (m : SMap α) : Bool := SMap.wfFrom d none m

/-- The entries of a list of values at consecutive keys from `a`, those equal to `d` left out. -/
def SMap.entries {α : Type} [DecidableEq α] (d : α) : Nat → List α → SMap α
  | _, [] => []
  | a, x :: l => if x = d then SMap.entries d (a + 1) l else (a, x) :: SMap.entries d (a + 1) l

/-- Puts a list of values at consecutive keys from `a`: the entries below, the new ones, and those above. -/
def SMap.setList {α : Type} [DecidableEq α] (d : α) (m : SMap α) (a : Nat) (l : List α) : SMap α :=
  m.filter (fun q => decide (q.1 < a)) ++ SMap.entries d a l ++ m.filter (fun q => decide (a + l.length ≤ q.1))

/-- The values at `n` consecutive keys from `a`. -/
def SMap.getList {α : Type} (d : α) (m : SMap α) (a n : Nat) : List α :=
  let k := m.filter fun q => decide (a ≤ q.1) && decide (q.1 < a + n)
  (List.range n).map fun i => SMap.get d k (a + i)

/-- A table without the entries at `n` consecutive keys from `a`. -/
def SMap.clear {α : Type} (m : SMap α) (a n : Nat) : SMap α :=
  m.filter fun q => decide (q.1 < a) || decide (a + n ≤ q.1)

end Sys2Proof.Machine
end

