-- ==== Sys2Proof/Machine/CoreState.lean ====
section
/-! DEFINITION. The state of one core, tile or supervisor, as plain data: the table of 01 R14, the queues and engines
behind the slots, the landing buffer, the accounts and the debugger's hooks. -/

namespace Sys2Proof.Machine

/-- A beat: 512 data bytes, 128 sidecar bytes and a format tag (00 R4). The default is zero data tagged NONE (01 R33). -/
structure Beat where
  data : Data := 0
  side : Side := 0
  tag : Tag := 0
  deriving DecidableEq, Repr

/-- A loop register (01 R18): START and COUNT. -/
structure LoopReg where
  start : BitVec 57 := 0
  count : BitVec 32 := 0
  deriving DecidableEq, Repr

/-- STATE of a knot (01 R19). -/
inductive KnotState where
  | free | pending | resolved | failed
  deriving DecidableEq, Repr

/-- A knot register (01 R19) and the count of its outstanding producing issues (07 R210). -/
structure Knot where
  source : BitVec 3 := 0
  state : KnotState := .free
  count : Nat := 0
  failedOne : Bool := false
  deriving DecidableEq, Repr

/-- The control registers that hold a value of their own (01 R20, 03 R101). -/
structure CtlRegs where
  /-- cr.status.SYS, HALT and DBG (01 R21) -/
  sys : Bool := false
  halt : Bool := false
  dbg : BitVec 2 := 0
  asid : BitVec 16 := 0
  round : BitVec 3 := 1
  seed : W64 := 0
  flags : Flags := 0
  color : BitVec 24 := 0
  ceiling : BitVec 8 := 10
  slotmap : BitVec 16 := 0x0044
  epc : W64 := 0
  cause : BitVec 8 := 0
  einfo : W64 := 0
  erep : BitVec 8 := 0
  deriving DecidableEq, Repr

/-- The address operands of a slot word (02 R60): two scalar addresses and two handles; a word uses some of them. -/
structure Addrs where
  a : W64 := 0
  b : W64 := 0
  ha : W256 := 0
  hb : W256 := 0
  deriving DecidableEq, Repr

/-- The sticky state of a slot (02 R59): the last word that was present, with its held address operands. -/
structure Sticky where
  word : W64
  addrs : Addrs
  deriving DecidableEq, Repr

/-- A write under a bound (01 R34): a register, or scratchpad bytes with the full-empty bits they set. -/
inductive Write where
  | s (n : BitVec 6) (v : W64)
  | p (n : BitVec 6) (v : Bool)
  | h (n : BitVec 6) (v : W256)
  | k (n : BitVec 6) (v : W64)
  | l (n : BitVec 6) (v : LoopReg)
  | spad (addr : Nat) (bytes : List Byte) (full : Bool)
  deriving DecidableEq, Repr

/-- A pending write: `left` more bundles issue before it has landed. -/
structure Pending where
  left : Nat
  write : Write
  deriving DecidableEq, Repr

/-- A pending drive (01 R30): `left` more bundles issue before its bundle-time. A drive of fabric may have no beat yet; the
drive of an MRD or MDR resolves its operation's knot (06 R193). -/
structure Drive where
  left : Nat
  z : BitVec 6
  ring : Nat
  beat : Option Beat
  kp : Option (BitVec 6) := none
  /-- SLOT of 14 R381: 0 S, 1 V0, 2 V1, 3 M -/
  slot : Nat := 0
  deriving DecidableEq, Repr

/-- Flag bits to be ORed into cr.flags after `left` more bundles (03 R102). -/
structure FlagOr where
  left : Nat
  flags : Flags
  deriving DecidableEq, Repr

/-- The class of a range (14 R360). -/
inductive RangeClass where
  | plain | managed | host | remote
  deriving DecidableEq, Repr

/-- A global access after the range registers have mapped it (14 R362): where it goes. -/
structure Target where
  va : BitVec 57
  ca : BitVec 52
  cls : RangeClass
  win : Bool
  peer : BitVec 20
  rasid : BitVec 10
  heap : BitVec 3
  asid : BitVec 16
  deriving DecidableEq, Repr

/-- Operation of an atomic or of a swap that heals a slot (08 R244, 07 R236). -/
inductive AmoOp where
  | add | and | or | xor | min | max | swap | cas | fadd
  deriving DecidableEq, Repr

/-- What a landing slot waits for (04 R144, 07 R236, 08 R246). -/
inductive LandKind where
  /-- a load: width code, sign extension -/
  | load (size : BitVec 2) (sgn : Bool)
  /-- a reference load: the offset in the object -/
  | ref (off : W64)
  /-- an atomic: width code, operands, scope and ordered flag -/
  | amo (op : AmoOp) (size : BitVec 2) (b c : W64) (scope : BitVec 3) (ord : Bool)
  deriving DecidableEq, Repr

/-- How far a landing has come. -/
inductive LandState where
  /-- the request has not been served -/
  | waiting
  /-- sent to another package under this tag (18 R456) -/
  | sent (tag : BitVec 16)
  /-- served: the value is on its way -/
  | replied (v : W64) (poison : Bool)
  /-- the data wait in the slot -/
  | arrived (v : W64) (poison : Bool)
  /-- the access failed: a fatal context error of this kind and address, and the bad page-table entry if there was one -/
  | failed (kind : Nat) (va : BitVec 57) (pte : Option Nat)
  deriving DecidableEq, Repr

/-- A landing slot (01 R37). `id` names it to the store stream; `live` is cleared when TAIL discards its value. -/
structure Landing where
  id : Nat
  left : Nat
  toK : Bool
  d : BitVec 6
  tgt : Target
  kind : LandKind
  state : LandState
  live : Bool
  /-- a trap handler runs: the landing neither counts down nor lands until its ERET (08 R265) -/
  held : Bool := false
  ret : Option Nat
  deriving DecidableEq, Repr

/-- What an entry of the store stream does when it performs (04 R146, 07 R236, R237, 08 R246). -/
inductive StoreKind where
  /-- plain bytes -/
  | data (bytes : List Byte)
  /-- a field of a managed object, not a reference slot -/
  | field (bytes : List Byte) (off : W64)
  /-- a reference slot -/
  | ref (v : W64) (off : W64)
  /-- the swap that heals a slot: expected and new value -/
  | heal (expect new : W64)
  /-- an ordered atomic, whose reply goes to the landing slot of this id -/
  | amo (landing : Nat)
  deriving DecidableEq, Repr

/-- How far an uncached store has come (04 R146). -/
inductive SentState where
  /-- not sent -/
  | no
  /-- performed here; its acknowledgement is on its way -/
  | acking
  /-- on the remote request channel under this tag -/
  | remote (tag : BitVec 16)
  deriving DecidableEq, Repr

/-- An entry of the store stream, oldest first (04 R146). `seq` counts on with the landing slots' identifiers, so that the
smaller of two is the earlier issued. -/
structure StoreEntry where
  seq : Nat
  tgt : Target
  kind : StoreKind
  sent : SentState := .no
  ret : Option Nat := none
  deriving DecidableEq, Repr

/-- A run of bytes of a copy: in the core's scratchpad, a global access as the issuing unit's range mapped it, or the
repeated eight bytes of a fill (zero bytes for a row that a gather does not find). -/
inductive CAddr where
  | spad (a : Nat)
  | glob (t : Target)
  | pattern (x : W64)
  deriving DecidableEq, Repr

/-- A run of bytes that a copy moves (07 R220). -/
structure Move where
  dst : CAddr
  src : CAddr
  len : Nat
  deriving DecidableEq, Repr

/-- The work of a queued C operation, with its operands as read at issue (07 R222 to R230). -/
inductive CopyJob where
  /-- runs to move in order; `miss` is the first list position whose index is out of range (07 R226) -/
  | move (l : List Move) (miss : Option Nat)
  | reduce (dst : Target) (src : CAddr) (op : BitVec 2) (tag : Tag) (len : Nat)
  | bcast (dst : Target) (src : CAddr) (len : Nat)
  | loadRecord (dst : Nat) (record : List Byte)
  | push (addr : Nat) (stage : Nat)
  deriving DecidableEq, Repr

/-- An entry of a copy engine's decoupling queue (07 R219). Of an operation whose lines travel to other packages, `todo` holds
the runs still to send once it has started, and `acks` counts the responses it waits for. `failed` holds the reason of a
failed knot with the failing list position, `refused` that a translator refused it (14 R372), and `record` the record that an
STQ has read (07 R230). -/
structure CopyOp where
  id : Nat
  engine : Engine
  kp : BitVec 6
  job : CopyJob
  asid : BitVec 16
  wid : W64
  slot : Nat
  /-- the stage of the item that issued it -/
  stage : Nat := 0
  todo : Option (List Move) := none
  acks : Nat := 0
  failed : Option (Nat × Nat) := none
  refused : Bool := false
  record : Option (List Byte) := none
  ret : Option Nat := none
  deriving DecidableEq, Repr

/-- One accumulator bank (06 R184). -/
structure Bank where
  /-- rows 0 to 63, each of 256 FP32 elements, element n in bits [32n+31:32n] -/
  acc : SMap (BitVec 8192) := []
  steps : W64 := 0
  row : BitVec 6 := 0
  kq : BitVec 2 := 0
  rm : BitVec 3 := 0
  sat : Bool := false
  deriving DecidableEq, Repr

/-- The matrix engine's state (06 R184): cells and header images by plane × column, tags by plane, and the two banks. -/
structure Matrix where
  /-- column n of plane p at key 256p + n: 256 bytes -/
  cells : SMap (BitVec 2048) := []
  /-- header image byte i of plane p at key 32768p + i -/
  headers : SMap Byte := []
  tags : SMap Tag := []
  bank0 : Bank := {}
  bank1 : Bank := {}
  deriving DecidableEq, Repr

/-- The work of an issued M operation (06 R198 to R204). -/
inductive MJob where
  | loadPlane (pl : BitVec 3) (m : Nat) (a h : Nat)
  | select (ab : BitVec 1) (row : BitVec 6) (kq : BitVec 2)
  | mac (negate fresh : Bool) (ab : BitVec 1) (pl : BitVec 3) (a : Beat) (mode : BitVec 3) (sat : Bool) (draws : List Nat)
  | read (ab : BitVec 1) (row : BitVec 6) (half : Bool)
  | readSteps (ab : BitVec 1)
  | drain (ab : BitVec 1) (row : BitVec 6) (form : BitVec 2) (mode : BitVec 3) (sat : Bool) (draws : List Nat)
  | clear (ab : BitVec 1)
  | mode (ab : BitVec 1) (rm : BitVec 3) (sat : Bool)
  deriving DecidableEq, Repr

/-- An issued M operation that has not performed, oldest first (06 R190, R191): `left` more bundles issue before its bound. -/
structure MOp where
  job : MJob
  kp : BitVec 6
  left : Nat
  z : BitVec 6
  ring : Nat
  deriving DecidableEq, Repr

/-- An asynchronous trap cause waiting for a boundary (08 R261), with its einfo. -/
structure Async where
  cause : BitVec 8
  info : W64
  /-- raised by an access of the trap handler itself, so a trap in system mode (08 R266) -/
  sys : Bool := false
  deriving DecidableEq, Repr

/-- The snapshot latch bank (08 R265, 14 R381): drives, flag updates, the bundle-time and the six sticky states. -/
structure Latch where
  drives : List Drive := []
  flagOrs : List FlagOr := []
  bt : W64 := 0
  sticky : SMap (Option Sticky) := []
  deriving DecidableEq, Repr

/-- The item a core runs (13 R336). -/
structure Item where
  wid : W64
  stage : Nat
  slot : Nat
  footprint : Nat
  strands : W64
  record : List Byte
  gang : Option Nat := none
  /-- when the watchdog timer was last restarted, and how many YIELDs have restarted it (13 R342) -/
  wdogStart : Nat := 0
  yields : Nat := 0
  /-- when the item started or resumed -/
  started : Nat := 0
  /-- the trap that stopped it was a taken YIELD (08 R256, 14 R383) -/
  atYield : Bool := false
  /-- causes that pended when it was saved, and poisoned places of its registers (log 22) -/
  causes : List Async := []
  causeSeq : Option Nat := none
  poison : List UePlace := []
  deriving DecidableEq, Repr

/-- A key and a count of the PC-hash table (10 R297). -/
structure HashEntry where
  asid : BitVec 16
  pc : BitVec 55
  cause : BitVec 4
  count : BitVec 32
  region : W64
  deriving DecidableEq, Repr

/-- A capture slot (10 R304). -/
structure Capture where
  busy : Bool := false
  window : W64 := 0
  asid : BitVec 16 := 0
  start : W64 := 0
  switched : W64 := 0
  regionStart : W64 := 0
  counts : SMap W64 := []
  deriving DecidableEq, Repr

/-- A capture packet on its way (10 R303). -/
structure CapturePacket where
  window : W64
  asid : BitVec 16
  slot : BitVec 2
  kind : BitVec 2
  deriving DecidableEq, Repr

/-- The accounting state of a core (10 R288 to R304). -/
structure Acct where
  /-- the sixteen live counters by cause -/
  live : SMap W64 := []
  /-- the context the live counters belong to -/
  owner : BitVec 16 := 0
  /-- way w of set s of the PC-hash table at key 4s + w -/
  hash : SMap (Option HashEntry) := []
  /-- counter of row r and bank b at key 32r + b -/
  bank : SMap (BitVec 32) := []
  captures : SMap Capture := []
  packets : List CapturePacket := []
  /-- the latched accounting registers (10 R290) -/
  latchCounts : SMap W64 := []
  latchCycle : W64 := 0
  latchAsid : BitVec 16 := 0
  latchPending : Bool := false
  deriving DecidableEq, Repr

/-- What a debugger has asked of a core (10 R308 to R310). -/
structure Debug where
  haltRequest : Bool := false
  /-- halt again at the next bundle boundary -/
  stepBundle : Bool := false
  /-- when the core halted: its item's watchdog is stopped from then on (10 R309) -/
  haltedAt : Nat := 0
  /-- the region-breakpoint registers -/
  regionBp : SMap W64 := []
  /-- a region breakpoint waits for the next boundary: its region ID -/
  breakNext : Option (BitVec 16) := none
  /-- shootdowns waiting: line addresses -/
  shootdowns : List Nat := []
  deriving DecidableEq, Repr

/-- What a BAR is waiting for (08 R250, R251). -/
inductive BarState where
  | none
  /-- the implied drain holds; the packet is not sent -/
  | draining (scope : BitVec 2)
  /-- the packet is on its way to the router -/
  | sent
  /-- the router has taken the packet -/
  | reported
  /-- the release is on its way -/
  | released
  deriving DecidableEq, Repr

/-- The power window of a core (20 R480, R481): the weight summed in it, its effective ceiling, the package's per-core
ceiling, and the bundle-times of M weight still to come. -/
structure PowerWin where
  sum : Nat := 0
  eff : Nat := 10
  pceil : Nat := 10
  mspan : Nat := 0
  deriving DecidableEq, Repr

/-- What a supervisor's command still waits for before the next bundle of the core issues (08 R268). -/
inductive Await where
  | none
  /-- the core named has entered its PREEMPT handler (08 R270) -/
  | preempt (core : Nat)
  /-- every core that runs the context has taken the new colour of a heap (15 R398) -/
  | recolor (asid : BitVec 16) (heap : Nat)
  /-- a scan pass of a site, begun at a time, whose status goes to a scalar (19 R473) -/
  | scan (site : Nat) (start : Nat) (d : BitVec 6)
  deriving DecidableEq, Repr

/-- One core. Tile cores and supervisor cores use the same record; a supervisor leaves what R50 takes from it unused. -/
structure Core where
  bt : W64 := 0
  pc : BitVec 57 := 0
  cycle : W64 := 0
  /-- a supervisor core, or a tile core -/
  supervisor : Bool := false
  /-- the core does not issue: a supervisor not started or stopped by a fault, a tile core stopped by R266 -/
  stopped : Bool := false
  s : SMap W64 := []
  p : SMap Bool := []
  h : SMap W256 := []
  k : SMap W64 := []
  l : SMap LoopReg := []
  kn : SMap Knot := []
  cr : CtlRegs := {}
  /-- entries of cr.timing that differ from the ship table of the core's kind -/
  timing : SMap (BitVec 8) := []
  /-- the region stack, top first -/
  region : List (BitVec 16) := []
  /-- beat at ring index i of strand z at key 20z + i -/
  strands : SMap Beat := []
  spad : SMap Byte := []
  /-- full-empty bit by granule -/
  fe : SMap Bool := []
  /-- places whose bits are poisoned (18 R445) -/
  poison : List UePlace := []
  sticky : SMap (Option Sticky) := []
  pend : List Pending := []
  drives : List Drive := []
  flagOrs : List FlagOr := []
  landings : List Landing := []
  nextLanding : Nat := 0
  mx : Matrix := {}
  mq : List MOp := []
  copies : List CopyOp := []
  nextCopy : Nat := 0
  /-- a store of the stream has faulted: no later write of it performs (14 R372) -/
  streamFault : Bool := false
  /-- the core's own performed stores to lines of other dies whose stale copies its own die still holds: chip address and
  bytes (09 R275, R276) -/
  l1 : List (Nat × List Byte) := []
  /-- refusals of the translators on their way to the core: KIND, address and bad entry (14 R372) -/
  refusals : List (Nat × BitVec 57 × Option Nat) := []
  stream : List StoreEntry := []
  /-- the eight entries of the retirement tracker: the WID and the queue slot of a retiring item -/
  tracker : SMap (Option (W64 × Nat)) := []
  /-- the range registers loaded from the context table -/
  ranges : SMap W256 := []
  /-- element bits of the fabric formats FMT0 to FMT15 that loaded FORMAT skeins define (03 R100, 19 R466) -/
  fmtBits : SMap Nat := []
  latch : Option Latch := none
  /-- repetitions still to issue of the bundle at PC, once its first has issued or ERET has set them -/
  repLeft : Option Nat := none
  /-- cycles left of an ECC freeze -/
  ecc : Nat := 0
  async : List Async := []
  item : Option Item := none
  /-- CTXSAVE has taken the item from the core; its ERET releases the core (08 R271) -/
  saved : Bool := false
  /-- the suspended item that the core has been given at the resume address (08 R271) -/
  incoming : Option Item := none
  bar : BarState := .none
  /-- the bundle of the BAR that waits (08 R252) -/
  barPc : BitVec 57 := 0
  /-- SEQ of the record of a pending kill cause (18 R439) -/
  causeSeq : Option Nat := none
  /-- the context that the SYSTEM cycles of a resume are charged to (01 R49) -/
  chargeTo : Option (BitVec 16) := none
  /-- a YIELD request of the stage scheduler is pending (08 R256) -/
  yieldReq : Bool := false
  /-- pages that a PROBE holds until the next YIELD or TAIL (08 R259): chip addresses -/
  probed : List Nat := []
  acct : Acct := {}
  hooks : Debug := {}
  /-- the command that the core waits for (supervisors) -/
  await : Await := .none
  /-- new colours on their way to the core: heap and colour (15 R398) -/
  recolors : List (Nat × BitVec 3) := []
  /-- fetched line copies: byte at a physical address -/
  icache : SMap (List Byte) := []
  power : PowerWin := {}
  /-- cr.event bits (supervisors, 01 R51) -/
  event : W64 := 0
  deriving DecidableEq, Repr

end Sys2Proof.Machine
end

