-- ==== Sys2Proof/Machine/State.lean ====
section
/-! DEFINITION. The state of the machine as plain data, the reasons a step can stop, and the state after reset. -/

namespace Sys2Proof.Machine

/-- Why a step faults. -/
inductive Fault where
  /-- No core can issue, no event is pending and nothing inside the package can move. Raised by `step` when the current core
  is stopped and the agenda is empty; safe: the hardware would only wait for the outside (log 5). -/
  | nothingToDo
  deriving DecidableEq, Repr

/-- Why a step is refused. -/
inductive Refusal where
  /-- An instruction that has no meaning yet; raised by `exec`'s refused arms only. Safe. -/
  | notModelled (mnemonic : String)
  /-- An event offered in a state in which the manual gives it no occurrence (a completion with nothing outstanding, a
  request the mailbox does not hold). Raised by the events' meanings; safe (log 5). -/
  | notEnabled
  deriving DecidableEq, Repr

/-- A PCIe vendor-defined message of 14 R378: the function's partition, the header's vendor-defined doubleword, the payload. -/
structure VendorMsg where
  part : Nat
  word : BitVec 32
  dws : List (BitVec 32)
  deriving DecidableEq, Repr

/-- One pending input of the machine: an event of the package, the turn of a core, or time passing (log 5). -/
inductive Agenda where
  | event (i : Instr)
  | turn (core : Nat)
  | elapse (ns : Nat)
  /-- the host writes its own memory -/
  | host (addr : Nat) (bytes : List Byte)
  /-- a vendor-defined message arrives at a partition's function (14 R378) -/
  | vendor (m : VendorMsg)
  /-- the host writes bytes at an offset of BAR0 of a partition's function, 16 for the upstream one (13 R346) -/
  | bar (fn : Nat) (offset : Nat) (bytes : List Byte)
  deriving DecidableEq, Repr

/-- Bases of the structures in system memory that firmware sets at boot (14 R354, 15 R389, 19 R471, 18 R438, 19 R472). -/
structure Bases where
  ctx : Nat := 0
  hcb : Nat := 0
  lcmap : Nat := 0
  log : Nat := 0
  whorl : Nat := 0
  deriving DecidableEq, Repr

/-- An isolation partition descriptor (14 R357). -/
structure Partition where
  port : Nat := 0
  strict : Bool := false
  ways : BitVec 16 := 0
  qslots : BitVec 64 := 0
  cores : BitVec 576 := 0
  channels : BitVec 384 := 0
  shares : List Nat := []
  deriving DecidableEq, Repr

/-- A translation that a home slice's translator has cached: the page's first chip address and size, where it lies, what it
permits, and the freed spans of the context's heaps as the walk read them (14 R366 to R371, 15 R402). -/
structure Leaf where
  page : Nat
  size : Nat
  pa : Nat
  host : Bool
  r : Bool
  w : Bool
  x : Bool
  freed : List (Nat × Nat)
  deriving DecidableEq, Repr

/-- A source line that relocation or migration is moving (15 R403): where to, and how far. `toPa` is set for a page
migration, where the chip address stays and the physical address changes. -/
structure LineMove where
  copied : Bool
  toCa : Nat
  toPa : Option Nat
  die : Nat
  deriving DecidableEq, Repr

/-- The state of a hardware queue slot (13 R344). -/
inductive SlotState where
  | unbound | loaded | bound
  deriving DecidableEq, Repr

/-- A stage of a launch in progress: ENTRY and QCAP of its descriptor, the input queue's first record and record count, and
the suspended items (13 R329, R335, R339). -/
structure Stage where
  entry : Nat := 0
  qcap : Nat := 0
  head : Nat := 0
  count : Nat := 0
  /-- suspended items, first to resume first, with the chip addresses of their images (13 R339) -/
  suspended : List (Nat × Item) := []
  deriving DecidableEq, Repr

/-- A launch in progress (13 R329 to R335). -/
structure Launch where
  code : Nat
  codeOff : Nat
  dataVa : Nat
  widths : List Nat
  gang : Nat
  footprint : Nat
  strands : W64
  stages : List Stage
  widbase : Nat
  total : Nat
  started : Nat := 0
  ended : Nat := 0
  qbase : Nat
  done : Nat
  seed : W64
  args : List Nat
  killed : Bool := false
  /-- the code object carries the durable flag (02 R79) -/
  durable : Bool := false
  /-- logical number and site of the cores its items ran on, for the completion record (19 R475) -/
  cores : List (Nat × Nat) := []
  /-- STATUS of the completion record (13 R334) -/
  status : Nat := 0
  /-- T of each stage at the last `rebalance` of a die (13 R338) -/
  targets : SMap (List Nat) := []
  /-- stage and target stage of the pushes since the last `rebalance` of a die (13 R338) -/
  pushed : SMap (List (Nat × Nat)) := []
  deriving DecidableEq, Repr

/-- A hardware queue slot and the queue control block it holds (13 R343, R344). -/
structure QSlot where
  state : SlotState := .unbound
  ringBase : Nat := 0
  ringLog : Nat := 0
  prio : Nat := 0
  effPrio : Nat := 0
  part : Nat := 0
  asid : BitVec 16 := 0
  qid : Nat := 0
  rdidx : Nat := 0
  wridx : Nat := 0
  wdog : Nat := 0
  ageInt : Nat := 0
  age : Nat := 0
  launch : Option Launch := none
  /-- the shares of the dies since the last ageing step (13 R338, R341) -/
  shares : SMap Nat := []
  deriving DecidableEq, Repr

/-- What the stage scheduler of its die has given a core: the slot and stage it serves, and where it passes at its next item
boundary; it leaves the slot where that is none (13 R338, R339). -/
structure Assign where
  cur : Option (Nat × Nat) := none
  tgt : Option (Nat × Nat) := none
  deriving DecidableEq, Repr

/-- A registered user queue: the chip address of its memory QCB and its partition (13 R349). -/
structure QueueReg where
  qcb : Nat
  part : Nat
  /-- when its pending bit was set, for its ageing (13 R341) -/
  since : Nat := 0
  deriving DecidableEq, Repr

/-- A gang of a launch at its innermost marked level (13 R332, 08 R251): how many items it has, the cores whose item has
reported at the present barrier, and how many members have ended. -/
structure Gang where
  slot : Nat
  high : Nat
  size : Nat
  reported : List Nat := []
  ended : Nat := 0
  deriving DecidableEq, Repr

/-- A completion record that firmware still tracks (19 R475 to R477): its context and address, FINISH, and the sites that
have not yet passed. -/
structure Tracked where
  asid : BitVec 16
  va : Nat
  finish : Nat
  sites : List Nat
  deriving DecidableEq, Repr

/-- A scale-out port (18 R454 to R457). Each data flit carries one whole message. -/
structure Port where
  /-- PCS alignment and FEC lock are complete -/
  locked : Bool := false
  /-- taken out of the routes by the link timeout -/
  down : Bool := false
  /-- the peer's INIT: its identifier and UNSET -/
  peer : Option (BitVec 20 × Bool) := none
  /-- 16 B units of the peer's receive buffer left on each virtual channel -/
  credits : SMap Nat := []
  /-- messages waiting for credit or for room in the replay buffer -/
  waiting : List Msg := []
  /-- sequence number of the next data flit -/
  txSeq : Nat := 0
  /-- the replay buffer: data flits not yet acknowledged -/
  replay : List (Nat × Msg) := []
  /-- sequence number of the next data flit to be received -/
  rxSeq : Nat := 0
  /-- units received of a message that is not complete -/
  rxUnits : List (BitVec 128) := []
  /-- units freed since the previous flit, on each channel -/
  freed : SMap Nat := []
  /-- the last control message sent -/
  control : Option (BitVec 128) := none
  /-- when an acknowledgement last came (18 R450) -/
  since : Nat := 0
  deriving DecidableEq, Repr

/-- Where the response of a remote request sinks (07 R233). -/
inductive Sink where
  /-- a landing slot, by its identifier -/
  | landing (id : Nat)
  /-- an entry of the store stream, by its sequence number -/
  | store (seq : Nat)
  /-- a line request of a copy: the copy and the run -/
  | copy (id : Nat) (m : Move)
  deriving DecidableEq, Repr

/-- An outstanding remote request (07 R232): the peer that is to answer it, its tag and its core. -/
structure Req where
  peer : BitVec 20
  tag : BitVec 16
  core : Nat
  sink : Sink
  /-- when it was sent (18 R450) -/
  sent : Nat := 0
  deriving DecidableEq, Repr

/-- The scale-out engine (18 R450 to R459). -/
structure Link where
  /-- the package's device identifier, once SETID has set one -/
  devId : Option (BitVec 20) := none
  ports : SMap Port := []
  /-- received messages not yet taken, with their ports, oldest first -/
  inbox : List (Nat × Msg) := []
  /-- received control messages not yet taken -/
  controls : List (Nat × BitVec 128) := []
  reqs : List Req := []
  nextTag : BitVec 16 := 0
  /-- the main and the local route table: port masks -/
  mainRoutes : SMap (BitVec 18) := []
  localRoutes : SMap (BitVec 18) := []
  /-- the port + 1 that a flow keeps, keyed 2^20 × source core + destination -/
  flows : SMap Nat := []
  /-- the membership table: members by group -/
  groups : SMap (List Nat) := []
  /-- entry i of partition p's import table at 64p + i: base and count -/
  imports : SMap (Nat × Nat) := []
  unreachable : List (BitVec 20) := []
  /-- when a peer last answered, and when a member of a group was last heard, keyed 2^20 × group + identifier (18 R450) -/
  answered : SMap Nat := []
  heard : SMap Nat := []
  /-- fenced members: group and identifier -/
  fenced : List (Nat × Nat) := []
  deriving DecidableEq, Repr

/-- An invalidation on its way (09 R275): die, line, and the core whose write sent it. -/
structure Inval where
  die : Nat
  line : Nat
  writer : Option Nat
  deriving DecidableEq, Repr

/-- A host mailbox (13 R347): REQ and RESP as words of 8 B, the request taken at the RING write, and STATUS. -/
structure Mailbox where
  req : SMap W64 := []
  taken : SMap W64 := []
  busy : Bool := false
  done : Bool := false
  /-- how far a request that takes several steps has come -/
  phase : Nat := 0
  resp : SMap W64 := []
  deriving DecidableEq, Repr

/-- A page granted to the host (14 R377): aperture page `index` of the partition's function is the 64 KiB of a context at a
virtual address, with the permissions granted. -/
structure Grant where
  part : Nat
  index : Nat
  asid : BitVec 16
  va : Nat
  ca : Nat
  r : Bool
  w : Bool
  deriving DecidableEq, Repr

/-- Memory that firmware has taken: physical address, length, the context it serves, and for a page of HBM the chip address it
is mapped at (14 R354, R370, log 32). -/
structure Taken where
  base : Nat
  len : Nat
  asid : BitVec 16
  ca : Option Nat := none
  deriving DecidableEq, Repr

/-- A REVOKE that has not been acknowledged (14 R379). -/
structure Revoke where
  tag : Nat
  part : Nat
  asid : BitVec 16
  va : Nat
  pages : Nat
  sent : Nat
  deriving DecidableEq, Repr

/-- What the host and the board see of the package (13 R346, R347, 14 R377 to R379, 18 R436). -/
structure HostIf where
  /-- mailboxes 0 to 15 of the partitions and 16 of the upstream function -/
  mailboxes : SMap Mailbox := []
  /-- mailboxes whose request waits, in the order of their RING writes -/
  queue : List Nat := []
  /-- MSI-X vectors signalled: function and vector -/
  msix : List (Nat × Nat) := []
  /-- error classes reported through AER: function and SEQ (18 R436) -/
  aer : List (Nat × Nat × Nat) := []
  grants : List Grant := []
  revokes : List Revoke := []
  nextTag : Nat := 0
  /-- vendor-defined messages received and not yet taken, and those sent -/
  vendorIn : List VendorMsg := []
  vendorOut : List VendorMsg := []
  /-- completions of host reads through the aperture: the bytes, none for Unsupported Request -/
  reads : List (Option (List Byte)) := []
  deriving DecidableEq, Repr

/-- The object that a relocation engine has claimed (15 R397): its index in the list, FROM and TO as virtual and as chip
addresses, its lines, the lines read and the lines COPIED so far. -/
structure ObjMove where
  index : Nat
  fromVa : Nat
  toVa : Nat
  fromCa : Nat
  toCa : Nat
  lines : Nat
  read : Nat := 0
  copied : Nat := 0
  deriving DecidableEq, Repr

/-- A relocation engine (15 R395 to R399): the active set, with STATE, DONE and SKIPPED of its status word. -/
structure Reloc where
  state : Nat := 0
  desc : Nat := 0
  done : Nat := 0
  skipped : Nat := 0
  asid : BitVec 16 := 0
  heap : Nat := 0
  /-- KIND 1: a page migration, with its new physical address and die -/
  page : Option (Nat × Nat) := none
  /-- the next list entry, and how many there are -/
  next : Nat := 0
  count : Nat := 0
  list : Nat := 0
  move : Option ObjMove := none
  /-- suspended between lines by a power step (20 R484) -/
  paused : Bool := false
  deriving DecidableEq, Repr

/-- States of a function's placement (17 R428). -/
inductive FnState where
  | unplaced | bundling | placed | evicting | stale
  deriving DecidableEq, Repr

/-- A function of a context (17 R427, R428): the OPHASH of its op list and its index there, the virtual address of its stub, its
code where it is placed, and the cores whose items wait for it in their handlers. -/
structure CodeFn where
  hash : Nat
  index : Nat
  stub : Nat
  state : FnState := .unplaced
  entry : Nat := 0
  size : Nat := 0
  waiting : List Nat := []
  /-- when its stub was last reached -/
  reached : Nat := 0
  /-- its last bundling found no room (17 R429) -/
  full : Bool := false
  deriving DecidableEq, Repr

/-- A context's code heap (17 R427): its virtual address and size, and what holds its bytes beside the functions' code: virtual
address and length. -/
structure CodeHeap where
  base : Nat
  size : Nat
  used : List (Nat × Nat) := []
  deriving DecidableEq, Repr

/-- Whorl states of a site (19 R474): at most one site of a die is MARKED or SCANNING. -/
inductive WhorlPhase where
  | serving
  | marked (site since : Nat)
  | scanning (site start : Nat)
  /-- a pass that a launch (0) or a power step (1) has aborted -/
  | aborted (site reason : Nat)
  deriving DecidableEq, Repr

/-- The whorl rotation of a die (19 R472 to R474): the site that the stage scheduler holds marked or under a pass, the site last
selected, the retry queue. The control word and MARK lie in memory (22 R507). -/
structure Whorl where
  phase : WhorlPhase := .serving
  last : Option Nat := none
  retry : List Nat := []
  deriving DecidableEq, Repr

/-- Firmware states of a site (19 R471). -/
inductive SiteState where
  | inService
  /-- whether its last scan pass succeeded -/
  | spare (passed : Bool)
  /-- whether its router is dead, so that it is dropped from the mesh (18 R451, 19 R470) -/
  | dropped (bypassed : Bool)
  deriving DecidableEq, Repr

/-- Power states (20 R487). ACTIVE and STEPPED differ by the level in force and the stages applied (20 R485). -/
inductive PowerPhase where
  | on | idle | pfail | off
  deriving DecidableEq, Repr

/-- A shedding action (20 R484): stages 1 to 5, with what it takes to undo it. -/
inductive PowerAct where
  | suspend
  | halve
  /-- the cores lowered, with their PCEIL before -/
  | lower (cores : List (Nat × Nat))
  | clock
  | park (cores : List Nat)
  deriving DecidableEq, Repr

/-- The package power controller (20 R483 to R487). -/
structure PowerCtl where
  phase : PowerPhase := .on
  /-- the last level that a PSTEP gave -/
  level : Nat := 2400
  pinLevel : Nat := 700
  pin : Bool := false
  /-- the level in force has risen since it last fell -/
  rising : Bool := false
  draw : BitVec 12 := 0
  /-- the shedding actions in effect, newest first -/
  actions : List PowerAct := []
  clock : Nat := 0
  parked : List Nat := []
  /-- when the power-fail signal came, and the highest debug level attached then (20 R489) -/
  failedAt : Nat := 0
  failLevel : Nat := 0
  deriving DecidableEq, Repr

/-- Lifecycle (20 R490). -/
inductive Lifecycle where
  | manufacture | production | returned | retired
  deriving DecidableEq, Repr

/-- Lifecycle, keys, measurement and debug attachments (20 R490 to R496). -/
structure Security where
  lifecycle : Lifecycle := .manufacture
  ownerKey : Option W256 := none
  ownerSeed : W256 := 0
  /-- revocation fuses blown, by vendor key slot -/
  revoked : SMap Bool := []
  measure : BitVec 512 := 0
  /-- debug level attached to a partition -/
  level : SMap Nat := []
  d3 : Bool := false
  /-- the challenge issued and when -/
  challenge : Option (W256 × Nat) := none
  /-- the dump image on the board's flash, once it is whole -/
  flash : Option (List Byte) := none
  deriving DecidableEq, Repr

/-- What the creel holds besides bytes (19 R462, R463, 20 R498): the active SKEINLDs in the order recorded, and the timing
tables and slot maps to restore, the segments that are FAILED, the sites that serve logical numbers, as DIE and SITE of 19 R471, and
the sites' firmware states (log 37). -/
structure Creel where
  bytes : SMap Byte := []
  skeins : List (Nat × Nat × Nat) := []
  timing : SMap (SMap (BitVec 8)) := []
  slotmaps : SMap (BitVec 16) := []
  failed : List Nat := []
  lcmap : List (Nat × Nat) := []
  sites : SMap (Option SiteState) := []
  /-- the wear log as last committed (19 R479) -/
  wear : SMap Nat := []
  /-- how many patterns the set for the device's stepping holds; 0 where there is no set (19 R473) -/
  patterns : Nat := 0
  deriving DecidableEq, Repr

/-- A bundle header that a debugger has patched (10 R311, R312): context, virtual address, its line, the cores still to
acknowledge, and when the shootdown was sent. -/
structure Patch where
  asid : BitVec 16
  va : Nat
  line : Nat
  waiting : List Nat
  /-- how many cores the shootdown went to -/
  sentTo : Nat
  sent : Nat
  /-- the mailbox whose request it answers; none for a stub (17 R427) -/
  mb : Option Nat
  deriving DecidableEq, Repr

/-- The canonical form of a memory: addresses strictly rising, and no entry equal to the 0 an unlisted address reads as
(log 4). -/
def Memory.wf (m : List Host.Cell) : Bool := SMap.wf (0 : Byte) m

/-- The machine. Cores are keyed 144 × die + site (tile cores, 01 R21) and 576 + die (supervisors). -/
structure State where
  /-- the cores; an absent key reads as the core's reset state -/
  cores : SMap Core := []
  /-- memory by physical address -/
  mem : List Host.Cell := []
  /-- poisoned 16 B granules of memory, by physical address / 16 -/
  memPoison : SMap Bool := []
  bases : Bases := {}
  /-- entries of the home map by granule (14 R365) -/
  homeMap : SMap (BitVec 16) := []
  /-- the isolation partitions by number (14 R357) -/
  parts : SMap (Option Partition) := []
  /-- cached translations, keyed 2^36 × ASID + chip address / 65,536 (14 R366) -/
  tlb : SMap (Option Leaf) := []
  /-- memory that firmware has taken for tables, pages, images and queue control blocks (log 32) -/
  taken : List Taken := []
  /-- remote-data caches: the bytes of a line held on a die, keyed 2^45 × die + line; [] where none (09 R273) -/
  rdc : SMap (List Byte) := []
  /-- invalidations sent and not yet acknowledged (09 R275) -/
  pendInv : List Inval := []
  /-- lines under a move, by line number: chip address / 128 (15 R403) -/
  moves : SMap (Option LineMove) := []
  /-- the host's memory by bus address: data from outside -/
  hostMem : SMap Byte := []
  /-- the 64 hardware queue slots (13 R344) -/
  qslots : SMap QSlot := []
  /-- registered user queues by QID (13 R349) -/
  queues : SMap (Option QueueReg) := []
  /-- the pending array (13 R345) -/
  pendingQ : SMap Bool := []
  /-- gangs by number (13 R332) -/
  gangs : SMap (Option Gang) := []
  /-- completion records that are PROVISIONAL (19 R475) -/
  tracked : List Tracked := []
  /-- the scale-out engine (18 R450 to R459) -/
  link : Link := {}
  /-- the host's side of the package -/
  host : HostIf := {}
  /-- what the stage schedulers have given the cores (13 R338, R339) -/
  assigns : SMap Assign := []
  /-- partitions that are being drained for a reset (18 R449) -/
  resets : List Nat := []
  /-- relocation engines by die (15 R395) -/
  relocs : SMap Reloc := []
  /-- code heaps by ASID, and functions keyed 65,536 × ASID + number (17 R427, R428) -/
  heaps : SMap (Option CodeHeap) := []
  fns : SMap (Option CodeFn) := []
  /-- allocation maps, keyed 2,304 × die + index (19 R462) -/
  segments : SMap W64 := []
  /-- whorl rotations by die (19 R472) -/
  whorls : SMap Whorl := []
  /-- firmware states of sites that differ from their first ones (19 R471) -/
  sites : SMap (Option SiteState) := []
  /-- LASTPASS by core (19 R474), and whether that site's last pass succeeded -/
  lastPass : SMap Nat := []
  creel : Creel := {}
  /-- wear-log counters by byte offset (19 R479) -/
  wear : SMap Nat := []
  /-- correctable errors of a unit since its last record, and when that record may be followed by another (18 R437) -/
  corr : SMap (Nat × Nat) := []
  pwr : PowerCtl := {}
  sec : Security := {}
  patches : List Patch := []
  /-- partitions whose port is contained; 31 is the upstream port (18 R448) -/
  contained : List Nat := []
  /-- next sequence number of the error log (18 R438) -/
  logSeq : Nat := 0
  /-- the boot ROM has run (20 R498) -/
  booted : Bool := false
  /-- model: the core whose turn it is -/
  cur : Nat := 576
  /-- model: pending inputs -/
  agenda : List Agenda := []
  /-- model: how many undefined values have been drawn -/
  free : Nat := 0
  /-- ns since package reset (01 R51) -/
  time : Nat := 0
  deriving DecidableEq, Repr

/-- The machine right after power-on or package reset: every field at the value the manual gives for reset, and at the value
log 1 names where it gives none. The boot ROM has not run (20 R498). -/
def State.reset : State := {}

end Sys2Proof.Machine
end

