-- ==== Sys2Proof/Machine/Operands.lean ====
section
/-! DEFINITION. Operand forms: register reads, predicates, beats tapped and driven, scratchpad bytes, format tags, tensor
handles and their addresses (01 R15 to R37, 03 R100, 04 R136 to R141). -/

namespace Sys2Proof.Machine

/-- The ship timing table (01 R41, R50); entry 32 × row + class. -/
def shipTiming (supervisor : Bool) (i : Nat) : Nat :=
  let row := i / 32
  let cls := i % 32
  if row = 0 then [1, 3, 4, 12, 3, 2, 2].getD cls 0
  else if supervisor then 0
  else if row < 3 then [2, 2, 3, 4, 5, 6, 12, 3].getD cls 0
  else [16, 8, 2, 4, 1].getD cls 0

/-- An entry of cr.timing (01 R40). -/
def Core.timingAt (c : Core) (i : Nat) : BitVec 8 := SMap.get (BitVec.ofNat 8 (shipTiming c.supervisor i)) c.timing i

/-- The latency in bundle-times an entry gives: bits [3:0] in rows 0 to 2, 4 × bits [5:0] in row 3 (01 R40, R42). -/
def Core.latencyOf (c : Core) (row cls : Nat) : Nat :=
  let e := c.timingAt (32 * row + cls)
  if row = 3 then 4 * (e.extractLsb' 0 6).toNat else (e.extractLsb' 0 4).toNat

/-- What one operation sees of its issue (01 R22): the core as it stood before the bundle, its slot, the bundle's address
and size, its address operands, and the number under which undefined values are drawn. -/
structure View where
  core : Core
  slot : Slot
  pc : BitVec 57
  size : Nat
  addrs : Addrs
  draw : Nat

/-- Undefined bits at a site of an operation (00 R9, log 6). -/
def View.undef (v : View) (site w : Nat) : BitVec w := Config.freeBits v.draw (8 * site + v.slot.idx) w

/-- The destination of a pending write is s[n] (01 R34, R37). -/
def Core.pendingS (c : Core) (n : BitVec 6) : Bool :=
  c.pend.any (fun q => match q.write with | .s m _ => m == n | _ => false) ||
    c.landings.any (fun l => l.live && !l.toK && l.d == n)
/-- The destination of a pending write is p[n]. -/
def Core.pendingP (c : Core) (n : BitVec 6) : Bool := c.pend.any fun q => match q.write with | .p m _ => m == n | _ => false
/-- The destination of a pending write is h[n]. -/
def Core.pendingH (c : Core) (n : BitVec 6) : Bool := c.pend.any fun q => match q.write with | .h m _ => m == n | _ => false
/-- The destination of a pending write is k[n]. -/
def Core.pendingK (c : Core) (n : BitVec 6) : Bool :=
  c.pend.any (fun q => match q.write with | .k m _ => m == n | _ => false) ||
    c.landings.any (fun l => l.live && l.toK && l.d == n)
/-- The destination of a pending write is l[n]. -/
def Core.pendingL (c : Core) (n : BitVec 6) : Bool := c.pend.any fun q => match q.write with | .l m _ => m == n | _ => false
/-- A pending store covers a scratchpad byte (04 R143, 05 R162). -/
def Core.pendingByte (c : Core) (a : Nat) : Bool :=
  c.pend.any fun q => match q.write with | .spad b l _ => decide (b ≤ a) && decide (a < b + l.length) | _ => false

/-- s[n] as it stands; s0 reads zero (01 R15). -/
def Core.sReg (c : Core) (n : BitVec 6) : W64 := if n = 0 then 0 else SMap.get 0 c.s n.toNat
/-- p[n] as it stands; p0 reads true (01 R15). -/
def Core.pReg (c : Core) (n : BitVec 6) : Bool := if n = 0 then true else SMap.get false c.p n.toNat
/-- h[n] as it stands. -/
def Core.hReg (c : Core) (n : BitVec 6) : W256 := SMap.get 0 c.h n.toNat
/-- k[n] as it stands. -/
def Core.kReg (c : Core) (n : BitVec 6) : W64 := SMap.get 0 c.k n.toNat
/-- l[n] as it stands. -/
def Core.lReg (c : Core) (n : BitVec 6) : LoopReg := SMap.get {} c.l n.toNat
/-- kn[n]. -/
def Core.knot (c : Core) (n : BitVec 6) : Knot := SMap.get {} c.kn n.toNat
/-- Writes kn[n]. -/
def Core.setKnot (c : Core) (n : BitVec 6) (k : Knot) : Core := { c with kn := SMap.set {} c.kn n.toNat k }
/-- A place written anew is no longer poisoned (18 R445). -/
def Core.unpoison (c : Core) (q : UePlace) : Core := { c with poison := c.poison.filter (· ≠ q) }
/-- Writes s[n]; a write to s0 is discarded (01 R15). -/
def Core.setS (c : Core) (n : BitVec 6) (v : W64) : Core :=
  if n = 0 then c else { c with s := SMap.set 0 c.s n.toNat v }
/-- Writes p[n]; a write to p0 is discarded (01 R15). -/
def Core.setP (c : Core) (n : BitVec 6) (v : Bool) : Core := if n = 0 then c else { c with p := SMap.set false c.p n.toNat v }
/-- Writes h[n]. -/
def Core.setH (c : Core) (n : BitVec 6) (v : W256) : Core := { c with h := SMap.set 0 c.h n.toNat v }
/-- Writes k[n]. -/
def Core.setK (c : Core) (n : BitVec 6) (v : W64) : Core := { c with k := SMap.set 0 c.k n.toNat v }
/-- Writes l[n]. -/
def Core.setL (c : Core) (n : BitVec 6) (v : LoopReg) : Core := { c with l := SMap.set {} c.l n.toNat v }

/-- Reads s[n] at issue: undefined while a write of it is pending (01 R34). -/
def View.s (v : View) (site : Nat) (n : BitVec 6) : W64 :=
  if n ≠ 0 ∧ v.core.pendingS n then v.undef site 64 else v.core.sReg n
/-- Reads p[n] at issue. -/
def View.p (v : View) (site : Nat) (n : BitVec 6) : Bool :=
  if n ≠ 0 ∧ v.core.pendingP n then v.undef site 1 == 1 else v.core.pReg n
/-- Reads h[n] at issue. -/
def View.h (v : View) (site : Nat) (n : BitVec 6) : W256 :=
  if v.core.pendingH n then v.undef site 256 else v.core.hReg n
/-- Reads k[n] at issue. -/
def View.k (v : View) (site : Nat) (n : BitVec 6) : W64 :=
  if v.core.pendingK n then v.undef site 64 else v.core.kReg n

/-- Whether an operation's predicate holds at issue (02 R61, R63); an undefined predicate is a free choice (04 R123). -/
def View.guard (v : View) (g : Guard) : Bool :=
  (v.p 15 (g.pred.zeroExtend 6)) != (g.pn == 1)

/-- The size of the core's scratchpad (01 R14, R50). -/
def Core.spadSize (c : Core) : Nat := if c.supervisor then 262144 else 2097152
/-- A scratchpad byte as it stands. -/
def Core.spadByte (c : Core) (a : Nat) : Byte := SMap.get 0 c.spad a
/-- A scratchpad byte as a belt-side requester reads it: undefined while a store of it is pending (04 R143, 05 R162). -/
def View.spadByte (v : View) (a : Nat) : Byte :=
  if v.core.pendingByte a then v.undef (1024 + a) 8 else v.core.spadByte a
/-- Whether a pending store of the scratchpad is outstanding. -/
def Core.spadPending (c : Core) : Bool := c.pend.any fun q => match q.write with | .spad _ _ _ => true | _ => false
/-- `n` scratchpad bytes from `a` as a belt-side requester reads them. -/
def View.spadBytes (v : View) (a n : Nat) : List Byte :=
  if v.core.spadPending then (List.range n).map fun i => v.spadByte (a + i) else SMap.getList 0 v.core.spad a n
/-- `n` scratchpad bytes from `a` as one little-endian number. -/
def View.spadLoad (v : View) (a n : Nat) : Nat := leNat (v.spadBytes a n)
/-- The full-empty bit of a granule (09 R280). -/
def Core.feBit (c : Core) (g : Nat) : Bool := SMap.get false c.fe g
/-- Sets the full-empty bit of a granule. -/
def Core.setFe (c : Core) (g : Nat) (b : Bool) : Core := { c with fe := SMap.set false c.fe g b }
/-- Sets the bits of `n` granules from `g`. -/
def Core.setFes (c : Core) (g : Nat) (b : Bool) : Nat → Core
  | 0 => c
  | n + 1 => (c.setFe g b).setFes (g + 1) b n
/-- The granules from the first byte to the last of an access. -/
def granules (a n : Nat) : Nat × Nat := (a / 16, (a + n - 1) / 16 - a / 16 + 1)
/-- Clears the poison of the scratchpad granules that are written whole (18 R445). -/
def Core.healSpad (c : Core) (a n : Nat) : Core :=
  { c with poison := c.poison.filter fun q => match q with
      | .spad g => !(decide (a ≤ 16 * (g / 16)) && decide (16 * (g / 16) + 16 ≤ a + n))
      | _ => true }
/-- Writes scratchpad bytes, and sets their granules full where `full` says so. -/
def Core.spadWrite (c : Core) (a : Nat) (bytes : List Byte) (full : Bool) : Core :=
  let c := { c with spad := SMap.setList 0 c.spad a bytes }.healSpad a bytes.length
  if full ∧ bytes ≠ [] then c.setFes (granules a bytes.length).1 true (granules a bytes.length).2 else c

/-- Lands one write (01 R34). -/
def Core.land (c : Core) : Write → Core
  | .s n v => (c.setS n v).unpoison (.sreg n.toNat)
  | .p n v => (c.setP n v).unpoison (.preg n.toNat)
  | .h n v => (c.setH n v).unpoison (.hreg n.toNat)
  | .k n v => (c.setK n v).unpoison (.kreg n.toNat)
  | .l n v => (c.setL n v).unpoison (.lreg n.toNat)
  | .spad a b f => c.spadWrite a b f

/-- Lands a list of writes in order; of several to one destination the last remains (01 R35). -/
def Core.landAll (c : Core) : List Write → Core
  | [] => c
  | w :: l => (c.land w).landAll l

/-- Places a write under a bound (01 R34). -/
def Core.pendWrite (c : Core) (bound : Nat) (w : Write) : Core := { c with pend := c.pend ++ [⟨bound, w⟩] }

/-- The tap and drive stations (01 R29): S, V0, V1, M in, and the write port. -/
def station (slot : Slot) : Nat :=
  match slot with
  | .s => 19 | .v0 => 4 | .v1 => 14 | .m => 7 | .c0 => 2 | .c1 => 12

/-- The ring index that stands at a station (01 R28, R30): (station − bt) mod 20. -/
def ringAt (st : Nat) (bt : W64) : Nat := (((st : Int) - bt.toNat) % 20).toNat

/-- The ring index a drive writes: (station − t − L) mod 20 (01 R30). -/
def ringDrive (st : Nat) (bt : W64) (bound : Nat) : Nat := (((st : Int) - bt.toNat - bound) % 20).toNat

/-- A beat of a strand at a ring index. -/
def Core.beatAt (c : Core) (z : BitVec 6) (ring : Nat) : Beat := SMap.get {} c.strands (20 * z.toNat + ring)
/-- Writes a beat at a ring index. -/
def Core.setBeat (c : Core) (z : BitVec 6) (ring : Nat) (b : Beat) : Core :=
  { c with strands := SMap.set {} c.strands (20 * z.toNat + ring) b }
/-- The beat tapped from a strand at a station (01 R30). -/
def View.tap (v : View) (st : Nat) (z : BitVec 6) : Beat := v.core.beatAt z (ringAt st v.core.bt)

/-- Places a drive from a station under a bound (01 R30). -/
def Core.drive (c : Core) (st : Nat) (bt : W64) (bound : Nat) (z : BitVec 6) (b : Option Beat) : Core :=
  { c with drives := c.drives ++
      [{ left := bound, z := z, ring := ringDrive st bt bound, beat := b, slot := match st with | 19 => 0 | 0 | 4 => 1 | _ => 2 }] }

/-- Flag bits to be ORed at t + bound (03 R102). -/
def Core.flagOr (c : Core) (bound : Nat) (f : Flags) : Core :=
  if f = 0 then c else { c with flagOrs := c.flagOrs ++ [⟨bound, f⟩] }

/-! ### Format tags -/

/-- A floating-point format named by a tag; ACC32 is read as FP32 (03 R94, R100, 05 R153). -/
def fpOfTag (t : Tag) : Option FFmt :=
  match t.toNat with
  | 0x08 | 0x20 => some fp32
  | 0x09 => some bf16
  | 0x0A => some fp16
  | 0x0B => some e4m3
  | 0x0C => some e5m2
  | _ => none

/-- Class F of 05 R153. -/
def isF (t : Tag) : Bool := t == 0x08 || t == 0x09 || t == 0x0A || t == 0x20
/-- Class F8. -/
def isF8 (t : Tag) : Bool := t == 0x0B || t == 0x0C
/-- Class I. -/
def isI (t : Tag) : Bool := decide (2 ≤ t.toNat) && decide (t.toNat ≤ 7)
/-- Class Z. -/
def isZ (t : Tag) : Bool := decide (0x10 ≤ t.toNat) && decide (t.toNat ≤ 0x16)
/-- A fabric format code FMT0 to FMT15. -/
def isFmt (t : Tag) : Bool := decide (0x30 ≤ t.toNat)
/-- A tag of 03 R100 other than NONE and the FMT codes. -/
def isNative (t : Tag) : Bool := t == 1 || isI t || isF t || isF8 t || isZ t || t == 0x18
/-- A tag that `tag_check` does not refuse by itself: not NONE, and a fabric code only where a loaded skein defines it. -/
def Core.tagKnown (c : Core) (t : Tag) : Bool := isNative t || (isFmt t && SMap.get 0 c.fmtBits (t.toNat - 0x30) != 0)
/-- The m of a ZB tag. -/
def zbM (t : Tag) : Nat := t.toNat - 0x0E
/-- B(m), blocks per beat (03 R96). -/
def zbBlocks (m : Nat) : Nat := if m ≤ 4 then 64 else 32

/-- Element width in bits of a native tag (03 R100). -/
def tagWidth (t : Tag) : Nat :=
  if isZ t then zbM t
  else match t.toNat with
    | 0x04 | 0x05 | 0x09 | 0x0A => 16
    | 0x06 | 0x07 | 0x08 | 0x20 => 32
    | 0x01 | 0x02 | 0x03 | 0x0B | 0x0C | 0x18 => 8
    | n => Config.tagWidth n

/-- Element width in bits of a tag on a core: that of a loaded FORMAT skein for a fabric code it defines (19 R466). -/
def Core.tagBits (c : Core) (t : Tag) : Nat :=
  if isFmt t ∧ SMap.get 0 c.fmtBits (t.toNat - 0x30) ≠ 0 then SMap.get 0 c.fmtBits (t.toNat - 0x30) else tagWidth t

/-- N(tag), elements per beat (03 R100). -/
def tagCount (t : Tag) : Nat := if isZ t then 16 * zbBlocks (zbM t) else 4096 / tagWidth t

/-! ### Traps an operation asks for -/

/-- A trap with its cause and einfo (08 R261). -/
structure TrapReq where
  cause : BitVec 8
  info : W64
  deriving DecidableEq, Repr

/-- The SLOT code of einfo in R158, R197, R213 and R218. -/
def slotCode (s : Slot) : Nat := s.idx
/-- The SLOT code of R263, where S is 6. -/
def slotCode263 (s : Slot) : Nat := if s = .s then 6 else s.idx

/-- einfo of R158, R197 and R218: ADDR, BADTAG, OPND and SLOT. -/
def info158 (slot : Slot) (addr : Nat) (badtag : Tag) (opnd : Nat) : W64 :=
  BitVec.ofNat 48 addr ++ badtag ++ BitVec.ofNat 2 opnd ++ (0 : BitVec 5) ++ BitVec.ofNat 3 (slotCode slot)
/-- einfo of R263: ADDR, BADTAG or OP[7:2], OP[1:0], CLASS and SLOT. -/
def info263 (slot : Slot) (addr : Nat) (bad : BitVec 6) (op : BitVec 8) (cls : Nat) : W64 :=
  BitVec.ofNat 48 addr ++ bad ++ op.extractLsb' 0 2 ++ BitVec.ofNat 5 cls ++ BitVec.ofNat 3 (slotCode263 slot)
/-- einfo of R213: KNOT, KIND and SLOT. -/
def info213 (slot : Slot) (knot : BitVec 6) (kind : Nat) : W64 :=
  (0 : BitVec 48) ++ knot ++ BitVec.ofNat 2 kind ++ (0 : BitVec 5) ++ BitVec.ofNat 3 (slotCode slot)

/-- Trap codes of 08 R261. -/
def causeIllegal : BitVec 8 := 0x01
/-- 08 R261 -/
def causePrivilege : BitVec 8 := 0x02
/-- 08 R261 -/
def causeStale : BitVec 8 := 0x03
/-- 08 R261 -/
def causeFormat : BitVec 8 := 0x04
/-- 08 R261 -/
def causeAlign : BitVec 8 := 0x05
/-- 08 R261 -/
def causeRange : BitVec 8 := 0x06
/-- 08 R261 -/
def causeKnot : BitVec 8 := 0x0B

/-- A check-5 trap of the S slot (08 R263): its address and, for FORMAT, the refused tag. -/
def trapS (cause op : BitVec 8) (addr : Nat) : TrapReq := ⟨cause, info263 .s addr (op.extractLsb' 2 6) op 0⟩
/-- A FORMAT of the S slot with the tag refused. -/
def trapSTag (op : BitVec 8) (tag : Tag) : TrapReq := ⟨causeFormat, info263 .s 0 tag op 0⟩
/-- A FORMAT of a V, M or C slot. -/
def trapTag (slot : Slot) (tag : Tag) (opnd : Nat) : TrapReq := ⟨causeFormat, info158 slot 0 tag opnd⟩
/-- An ALIGN or RANGE of a V, M or C slot. -/
def trapV (cause : BitVec 8) (slot : Slot) (addr opnd : Nat) : TrapReq := ⟨cause, info158 slot addr 0 opnd⟩

/-! ### Tensor handles (01 R16, 04 R136 to R141) -/

/-- The fields of a handle as numbers. -/
structure Handle where
  stepmode : Nat
  swizzle : Nat
  scoff : Int
  stride0 : Int
  stride1 : Int
  stride2 : Int
  stride3 : Int
  ext0 : Nat
  ext1 : Nat
  ext2 : Nat
  ext3 : Nat
  tag : Tag
  /-- element width in bits of a tag other than ZB's -/
  width : Nat
  global : Bool
  base : Nat
  deriving DecidableEq, Repr

/-- Bit position, width and signedness of the fields by FIELD code (04 R141). -/
def handleField (code : Nat) : Nat × Nat × Bool :=
  match code with
  | 0 => (0, 57, false)
  | 1 => (57, 1, false)
  | 2 => (58, 6, false)
  | 3 => (64, 16, false)
  | 4 => (80, 16, false)
  | 5 => (96, 16, false)
  | 6 => (112, 16, false)
  | 7 => (128, 24, true)
  | 8 => (152, 24, true)
  | 9 => (176, 24, true)
  | 10 => (200, 24, true)
  | 11 => (224, 24, true)
  | 12 => (251, 3, false)
  | _ => (254, 2, false)

/-- A field of a handle word as a number of its own signedness. -/
def getField (h : W256) (code : Nat) : Int :=
  let f := handleField code
  let x := (h.toNat >>> f.1) % 2 ^ f.2.1
  if f.2.2 ∧ 2 ^ (f.2.1 - 1) ≤ x then (x : Int) - 2 ^ f.2.1 else x

/-- A handle word with a field replaced. -/
def setField (h : W256) (code : Nat) (v : Int) : W256 :=
  let f := handleField code
  let x := (v % 2 ^ f.2.1).toNat
  let mask : W256 := BitVec.ofNat 256 ((2 ^ f.2.1 - 1) <<< f.1)
  (h &&& ~~~mask) ||| BitVec.ofNat 256 (x <<< f.1)

/-- A value fits a field's width. -/
def fitsField (code : Nat) (v : Int) : Bool :=
  let f := handleField code
  if f.2.2 then decide (-(2 ^ (f.2.1 - 1) : Int) ≤ v) && decide (v < 2 ^ (f.2.1 - 1)) else decide (0 ≤ v) && decide (v < 2 ^ f.2.1)

/-- The fields of a handle word (01 R16). -/
def Handle.ofWord (h : W256) : Handle :=
  { stepmode := (getField h 13).toNat, swizzle := (getField h 12).toNat, scoff := getField h 11, stride0 := getField h 7,
    stride1 := getField h 8, stride2 := getField h 9, stride3 := getField h 10, ext0 := (getField h 3).toNat,
    ext1 := (getField h 4).toNat, ext2 := (getField h 5).toNat, ext3 := (getField h 6).toNat,
    tag := h.extractLsb' 58 6, width := tagWidth (h.extractLsb' 58 6), global := h.getLsbD 57, base := (h.extractLsb' 0 57).toNat }

/-- The fields of a handle word as a core uses it. -/
def Core.handle (c : Core) (x : W256) : Handle :=
  let h := Handle.ofWord x
  { h with width := c.tagBits h.tag }

/-- Conditions on the handle that a use tests whatever the index (04 R136 to R138, 03 R97). -/
def Handle.usable (h : Handle) : Bool :=
  h.stepmode != 3 && h.ext0 != 0 && h.ext1 != 0 && h.ext2 != 0 && h.ext3 != 0 &&
  (if h.stepmode = 2 then !isZ h.tag && decide (h.ext3 ≤ h.ext0) && decide (0 ≤ h.scoff) && decide (h.scoff < h.ext0) else true) &&
  (if isZ h.tag then h.stride0 == 1 && h.stride1 % 16 == 0 && h.stride2 % 16 == 0 && h.stride3 % 16 == 0 &&
    h.ext0 % 16 == 0 && h.swizzle == 0 else true)

/-- The element offset of an index (04 R136, R137). -/
def Handle.offset (h : Handle) (i0 i1 i2 i3 : Nat) : Int :=
  if h.stepmode = 2 then (((i0 : Int) + h.scoff) % h.ext0) * h.stride0 + i1 * h.stride1 + i2 * h.stride2
  else i0 * h.stride0 + i1 * h.stride1 + i2 * h.stride2 + i3 * h.stride3

/-- The byte address of a non-ZB element, with the swizzle folded in (04 R136); `w` is the element width in bits. -/
def Handle.addr (h : Handle) (w : Nat) (i0 i1 i2 i3 : Nat) : Int :=
  let a := (h.base : Int) + h.offset i0 i1 i2 i3 * w / 8
  if h.swizzle = 0 ∨ a < 0 then a
  else ((a.toNat ^^^ (((i1 % 8) &&& h.swizzle) <<< 4) : Nat) : Int)

/-- The mantissa and header addresses of a ZB element's block (04 R136, 03 R97). -/
def Handle.zbAddr (h : Handle) (i0 i1 i2 i3 : Nat) : Int × Int :=
  let k := h.offset i0 i1 i2 i3 / 16
  ((h.base : Int) + 2 * zbM h.tag * k, (h.base : Int) + 128 * h.scoff + 2 * k)

/-- One step of a handle (04 R139); none where it raises RANGE. `w` is the element width of a non-ZB tag. -/
def hstep (w : Nat) (x : W256) : Option W256 :=
  let h := Handle.ofWord x
  match h.stepmode with
  | 0 => some x
  | 1 =>
    let d : Int := h.ext3 * h.stride3
    if isZ h.tag then
      let m := zbM h.tag
      let kb := d / 16
      let base := (h.base : Int) + 2 * m * kb
      let scoff := h.scoff - ((m : Int) - 1) * kb / 64
      if (((m : Int) - 1) * kb) % 64 ≠ 0 then none
      else if fitsField 0 base && fitsField 11 scoff then some (setField (setField x 0 base) 11 scoff) else none
    else
      let base := (h.base : Int) + d * w / 8
      if (d * w) % 8 ≠ 0 then none else if fitsField 0 base then some (setField x 0 base) else none
  | 2 => if h.ext0 = 0 then none else some (setField x 11 ((h.scoff + h.stride3) % h.ext0))
  | _ => none

end Sys2Proof.Machine
end

