-- ==== Sys2Proof/Machine/Blocks.lean ====
section
/-! DEFINITION. The nested block formats ZB2 to ZB8: blocks and their values, quantisation and the matrix K-step
(03 R95 to R99, R107 to R112). -/

namespace Sys2Proof.Machine

/-- A number of `w` bits as a signed integer. -/
def signedBits (w x : Nat) : Int := if 2 * (x % 2 ^ w) < 2 ^ w then (x % 2 ^ w : Nat) else ((x % 2 ^ w : Nat) : Int) - 2 ^ w

/-- A ZB block: E, the micro byte, and the sixteen mantissas (03 R95). -/
structure Blk where
  e : Nat
  mu : Nat
  ms : List Int
  deriving DecidableEq, Repr

/-- The mantissas of a field of bits, `p` bits apart, from its element `i`, the low `m` bits of each (03 R96, 06 R186). -/
def mantissas (p m x i : Nat) : Nat → List Int
  | 0 => []
  | n + 1 => signedBits m (x >>> (p * i)) :: mantissas p m x (i + 1) n

/-- Block `b` of a ZBm beat (03 R96). -/
def Beat.blk (b : Beat) (m i : Nat) : Blk :=
  { e := (b.side.toNat >>> (16 * i)) % 256, mu := (b.side.toNat >>> (16 * i + 8)) % 256
    ms := mantissas m m (b.data.toNat >>> (16 * m * i) % 2 ^ (16 * m)) 0 16 }

/-- The micro bit of element j. -/
def Blk.micro (b : Blk) (j : Nat) : Nat := (b.mu >>> (j / 2)) % 2

/-- The value of element j of a ZBm block (03 R95). -/
def Blk.value (b : Blk) (m j : Nat) : Fv :=
  if b.e = 0 then .fin ⟨false, 0, 0⟩
  else if b.e = 255 then .nan false
  else
    let x := b.ms.getD j 0
    .fin ⟨x < 0, x.natAbs, (b.e : Int) - 127 - b.micro j - (m - 1)⟩

/-- The mantissa field of a block: sixteen mantissas of m bits (03 R96). -/
def Blk.field (b : Blk) (m : Nat) : Nat :=
  (b.ms.mapIdx fun j x => (x % 2 ^ m).toNat <<< (m * j)).foldl (· + ·) 0

/-- A NaN block as the quantiser writes it. -/
def nanBlock : Blk := ⟨255, 0, List.replicate 16 0⟩
/-- A zero block as the quantiser writes it. -/
def zeroBlock : Blk := ⟨0, 0, List.replicate 16 0⟩

/-- A ZBm beat of blocks (03 R96): unused data and sidecar bytes are zero. -/
def zbBeat (m : Nat) (bs : List Blk) : Beat :=
  { data := BitVec.ofNat 4096 ((bs.mapIdx fun i b => b.field m <<< (16 * m * i)).foldl (· + ·) 0)
    side := BitVec.ofNat 1024 ((bs.mapIdx fun i b => (b.e + 256 * b.mu) <<< (16 * i)).foldl (· + ·) 0)
    tag := BitVec.ofNat 6 (0x0E + m) }

/-- |x| < 2^k for a finite value. -/
def Dy.absBelow (x : Dy) (k : Int) : Bool := x.m == 0 || decide ((Nat.log2 x.m : Int) + x.e < k)

/-- One mantissa of the quantiser: round_int of x × 2^(m − 1 + 127 + μ − E) (03 R109). -/
def quantMant (mode : RMode) (m : Nat) (e mu : Nat) (x : Dy) (d : Nat) : Int :=
  (roundInt mode d (x.scale ((m : Int) - 1 + 127 + mu - e))).1

/-- The micro bits and mantissas of the eight pairs at an exponent (03 R109), pair by pair; a positive mantissa that reaches
2^(m−1) at μ = 1 has its pair computed again at μ = 0. -/
def quantPairs (mode : RMode) (m e : Nat) (force : Bool) : List Dy → List Nat → List (Nat × Int × Int)
  | x :: y :: l, ds =>
    let d0 := ds.headD 0
    let d1 := ds.tail.headD 0
    let mu := if !force && x.absBelow ((e : Int) - 128) && y.absBelow ((e : Int) - 128) then 1 else 0
    let a := quantMant mode m e mu x d0
    let b := quantMant mode m e mu y d1
    (if mu = 1 ∧ (a = 2 ^ (m - 1) ∨ b = 2 ^ (m - 1)) then
        (0, quantMant mode m e 0 x d0, quantMant mode m e 0 y d1)
      else (mu, a, b)) :: quantPairs mode m e force l (ds.drop 2)
  | _, _ => []

/-- The exact value the block gives differs from the source (03 R109). -/
def dyDiffers (x y : Dy) : Bool := x.cmp y != .eq

/-- The loop of the quantiser from an exponent (03 R109); `fuel` is two. -/
def quantLoop (mode : RMode) (sat : Bool) (m : Nat) (force : Bool) (xs : List Dy) (ds : List Nat) :
    Nat → Nat → Flags → Blk × Flags
  | fuel, e, fl =>
    if 254 < e ∧ !sat then (nanBlock, fl ||| Flags.overflow)
    else
      let fl := fl ||| Flags.when (254 < e) Flags.overflow
      let e := min e 254
      let ps := quantPairs mode m e force xs ds
      let ms := ps.flatMap fun p => [p.2.1, p.2.2]
      match fuel with
      | fuel + 1 =>
        if ms.any (fun x => x == 2 ^ (m - 1)) ∧ e < 254 then quantLoop mode sat m force xs ds fuel (e + 1) fl
        else finish e ps ms fl
      | 0 => finish e ps ms fl
where
  /-- The clamp, the flags and the block after the loop. -/
  finish (e : Nat) (ps : List (Nat × Int × Int)) (ms : List Int) (fl : Flags) : Blk × Flags :=
    let lim : Int := 2 ^ (m - 1)
    let cl := ms.map fun x => max (-lim) (min (lim - 1) x)
    let blk : Blk := ⟨e, (ps.mapIdx fun i p => p.1 <<< i).foldl (· + ·) 0, cl⟩
    let fl := fl ||| Flags.when (cl != ms) Flags.overflow |||
      Flags.when ((xs.zip cl).any fun q => decide (q.1.m ≠ 0) && q.2 == 0) Flags.underflow |||
      Flags.when ((xs.mapIdx fun j x => match blk.value m j with | .fin v => dyDiffers x v | _ => true).any id) Flags.inexact
    (if cl.all (· == 0) then zeroBlock else blk, fl)

/-- `quantise_block` of 03 R109 on sixteen values of a source format, whose largest finite value is `srcMax`. The shared
exponent starts at no less than `lo`, which is 1 but for the given scales of 05 R175. -/
def quantiseBlock (srcMax : Dy) (xs : List Fv) (m : Nat) (mode : RMode) (sat force : Bool) (lo : Nat) (ds : List Nat) :
    Blk × Flags :=
  let fl := Flags.when (xs.any Fv.isSnan) Flags.invalid
  if xs.any Fv.isNan then (nanBlock, fl)
  else
    let infs := xs.any Fv.isInf
    let fl := fl ||| Flags.when infs Flags.overflow
    if infs ∧ !sat then (nanBlock, fl)
    else
      let ys := xs.map fun x => match x with | .fin v => v | .inf n => { srcMax with neg := n } | .nan _ => ⟨false, 0, 0⟩
      if ys.all (fun y => y.m == 0) then (zeroBlock, fl)
      else
        let top := (ys.filter fun y => y.m != 0).foldl (fun a y => max a ((Nat.log2 y.m : Int) + y.e)) (-1000)
        quantLoop mode sat m force ys ds 2 (max (top + 128) (max lo 1 : Nat)).toNat fl

/-- The largest finite value of a format. -/
def FFmt.maxDy (f : FFmt) : Dy := ⟨false, f.maxSig, f.emax - f.fb⟩

/-! ### The matrix K-step (03 R111) -/

/-- The exact integer P of two blocks: products scaled by 2^(2 − μa − μb). -/
def blockProduct (a b : Blk) : Int :=
  ((a.ms.zip b.ms).mapIdx fun j q => q.1 * q.2 * 2 ^ (2 - a.micro j - b.micro j)).foldl (· + ·) 0

/-- The terms (P, e) of a K-step that are not zero, and SCALEOVF. -/
def kstepTerms (mA mB : Nat) : List (Blk × Blk) → List (Int × Int) × Flags
  | [] => ([], 0)
  | (a, b) :: l =>
    let r := kstepTerms mA mB l
    if a.e = 0 ∨ b.e = 0 then r
    else
      let s : Int := (a.e : Int) + b.e - 254
      let p := blockProduct a b
      (if p = 0 then r.1 else (p, s - mA - mB) :: r.1, r.2 ||| Flags.when (127 < s) Flags.scaleovf)

/-- One K-step on an accumulator element (03 R111), with its draw in SR: the element and the flags. -/
def kstep (acc : Nat) (as bs : List Blk) (mA mB : Nat) (mode : RMode) (sat : Bool) (d : Nat) : Nat × Flags :=
  let x := fp32.value acc
  if x.isNan ∨ as.any (fun b => b.e == 255) ∨ bs.any (fun b => b.e == 255) then (fp32.defaultNan, 0)
  else
    let t := kstepTerms mA mB (as.zip bs)
    match t.1 with
    | [] => (acc, t.2)
    | (p0, e0) :: _ =>
      let h := t.1.foldl (fun a q => max a ((Nat.log2 q.1.natAbs : Int) + q.2)) ((Nat.log2 p0.natAbs : Int) + e0)
      let low := h - 59
      let cut := t.1.map fun q => (decide (q.1 < 0), cutAt q.1.natAbs q.2 low)
      let sum : Int := cut.foldl (fun a q => if q.1 then a - q.2.1 else a + q.2.1) 0
      let fl := t.2 ||| Flags.when (cut.any fun q => q.2.2.1 != 0) Flags.wtrunc
      match x with
      | .fin v =>
        if sum = 0 then (acc, fl)
        else
          let r := round fp32 mode sat d (.fin (v.add mode (Dy.ofInt sum low false)))
          (r.1, fl ||| r.2)
      | _ => (acc, fl)

end Sys2Proof.Machine
end

