-- ==== Sys2Proof/Machine/Elements.lean ====
section
/-! DEFINITION. Arithmetic on the elements of beats: element lists, the placement of parts, the transcendental algorithms with
their tables, conversions, and grouped sums (03 R90 to R117, 05 R155, R174 to R181). -/

namespace Sys2Proof.Machine

/-! ### Elements (03 R90, R91, R96) -/

/-- `n` fields of `w` bits, the lowest first. -/
def splitBits (w : Nat) : Nat → Nat → List Nat
  | 0, _ => []
  | n + 1, x => x % 2 ^ w :: splitBits w n (x >>> w)

/-- The elements of a beat under its tag. -/
def Beat.elems (b : Beat) : List Nat := splitBits (tagWidth b.tag) (tagCount b.tag) b.data.toNat
/-- The data bytes of a beat. -/
def Beat.bytes (b : Beat) : List Nat := splitBits 8 512 b.data.toNat
/-- The sidecar bytes of a beat. -/
def Beat.sideBytes (b : Beat) : List Nat := splitBits 8 128 b.side.toNat

/-- Elements side by side, `w` bits each, the first lowest. -/
def packBits (w : Nat) : List Nat → Nat
  | [] => 0
  | x :: l => x % 2 ^ w + (packBits w l) <<< w

/-- A beat of elements of `w` bits with a tag and a zero sidecar. -/
def elemBeat (w : Nat) (tag : Tag) (l : List Nat) : Beat := { data := BitVec.ofNat 4096 (packBits w l), side := 0, tag := tag }
/-- A beat of a tag's elements with a zero sidecar. -/
def tagBeat (tag : Tag) (l : List Nat) : Beat := elemBeat (tagWidth tag) tag l

/-- ACC32 read as FP32 (05 R153). -/
def normTag (t : Tag) : Tag := if t = 0x20 then 0x08 else t
/-- The FP format of a tag of class F or F8. -/
def fmtOf (t : Tag) : FFmt := (fpOfTag t).getD fp32
/-- A signed integer tag. -/
def isSigned (t : Tag) : Bool := t == 2 || t == 4 || t == 6
/-- The unsigned integer tag of an element width (05 R167, R170, R173). -/
def uintTag (w : Nat) : Tag := if w = 8 then 0x03 else if w = 16 then 0x05 else 0x07
/-- The range of an integer tag. -/
def intRange (t : Tag) : Int × Int :=
  if isSigned t then (-(2 ^ (tagWidth t - 1)), 2 ^ (tagWidth t - 1) - 1) else (0, 2 ^ tagWidth t - 1)
/-- An element of an integer tag as an integer. -/
def intOf (t : Tag) (x : Nat) : Int := if isSigned t then signedBits (tagWidth t) x else x
/-- An integer wrapped to an element. -/
def wrapTo (w : Nat) (x : Int) : Nat := (x % 2 ^ w).toNat
/-- An integer result (03 R106): wrapped, or with SAT clamped with the overflow flag. -/
def intResult (t : Tag) (sat : Bool) (x : Int) : Nat × Flags :=
  let r := intRange t
  if sat ∧ (x < r.1 ∨ r.2 < x) then (wrapTo (tagWidth t) (if x < r.1 then r.1 else r.2), Flags.overflow)
  else (wrapTo (tagWidth t) x, 0)

/-- The value of an E8M0 scale (05 R174). -/
def scaleValue (e : Nat) : Fv := if e = 255 then .nan false else .fin ⟨false, 1, (e : Int) - 127⟩

/-- The blocks of a ZB beat. -/
def Beat.blocks (b : Beat) : List Blk := (List.range (zbBlocks (zbM b.tag))).map fun i => b.blk (zbM b.tag) i

/-- The values of a beat's elements. -/
def Beat.values (b : Beat) : List Fv :=
  if isZ b.tag then b.blocks.flatMap fun k => (List.range 16).map fun j => k.value (zbM b.tag) j
  else if isI b.tag then b.elems.map fun x => .fin (Dy.int (intOf b.tag x))
  else if b.tag = 0x18 then b.elems.map scaleValue
  else b.elems.map (fmtOf b.tag).value

/-- `place` of 05 R155: first source element, first result element and count; none for RANGE. -/
def placeOf (ns nd h : Nat) : Option (Nat × Nat × Nat) :=
  if nd < ns then (if h < ns / nd then some (h * nd, 0, nd) else none)
  else if ns < nd then (if h < nd / ns then some (0, h * ns, ns) else none)
  else if h = 0 then some (0, 0, ns) else none

/-- A list with a run of entries replaced. -/
def spliceAt {α : Type} (l : List α) (i : Nat) (xs : List α) : List α := l.take i ++ xs ++ l.drop (i + xs.length)

/-! ### Transcendental operations (03 R113 to R117) -/

/-- The exact value of a finite FP32 encoding. -/
def dyOf (x : Nat) : Dy := match fp32.value x with | .fin d => d | _ => ⟨false, 0, 0⟩
/-- RNE to FP32, no flag (03 R113). -/
def rne32 (x : Dy) : Dy := dyOf (round fp32 .rne false 0 (.fin x)).1
/-- `mul` of 03 R113. -/
def mul32 (a b : Dy) : Dy := rne32 (a.mul b)
/-- `fma` of 03 R113. -/
def fma32 (a b c : Dy) : Dy := rne32 ((a.mul b).add .rne c)
/-- −x. -/
def Dy.negate (x : Dy) : Dy := { x with neg := !x.neg }
/-- floor(x). -/
def Dy.floor (x : Dy) : Int := (roundInt .rdn 0 x).1

/-- 1.0 -/
def dyOne : Dy := ⟨false, 1, 0⟩
/-- Table TX: RNE(2^(i/64)) (03 R114). -/
def tableTX : List Nat :=
  [0x3F800000, 0x3F8164D2, 0x3F82CD87, 0x3F843A29, 0x3F85AAC3, 0x3F871F62, 0x3F88980F, 0x3F8A14D5] ++
   [0x3F8B95C2, 0x3F8D1ADF, 0x3F8EA43A, 0x3F9031DC, 0x3F91C3D3, 0x3F935A2B, 0x3F94F4F0, 0x3F96942D] ++
   [0x3F9837F0, 0x3F99E046, 0x3F9B8D3A, 0x3F9D3EDA, 0x3F9EF532, 0x3FA0B051, 0x3FA27043, 0x3FA43516] ++
   [0x3FA5FED7, 0x3FA7CD94, 0x3FA9A15B, 0x3FAB7A3A, 0x3FAD583F, 0x3FAF3B79, 0x3FB123F6, 0x3FB311C4] ++
   [0x3FB504F3, 0x3FB6FD92, 0x3FB8FBAF, 0x3FBAFF5B, 0x3FBD08A4, 0x3FBF179A, 0x3FC12C4D, 0x3FC346CD] ++
   [0x3FC5672A, 0x3FC78D75, 0x3FC9B9BE, 0x3FCBEC15, 0x3FCE248C, 0x3FD06334, 0x3FD2A81E, 0x3FD4F35B] ++
   [0x3FD744FD, 0x3FD99D16, 0x3FDBFBB8, 0x3FDE60F5, 0x3FE0CCDF, 0x3FE33F89, 0x3FE5B907, 0x3FE8396A] ++
   [0x3FEAC0C7, 0x3FED4F30, 0x3FEFE4BA, 0x3FF28177, 0x3FF5257D, 0x3FF7D0DF, 0x3FFA83B3, 0x3FFD3E0C]
/-- Table LL: RNE(log2((64 + i) / 64)) (03 R114). -/
def tableLL : List Nat :=
  [0x00000000, 0x3CB73CB4, 0x3D35D69C, 0x3D8759C5, 0x3DB31FB8, 0x3DDE4212, 0x3E0462C4, 0x3E19574F] ++
   [0x3E2E00D2, 0x3E42615F, 0x3E567AF1, 0x3E6A4F72, 0x3E7DE0B6, 0x3E88983F, 0x3E92203D, 0x3E9B8926] ++
   [0x3EA4D3C2, 0x3EAE00D2, 0x3EB7110E, 0x3EC0052B, 0x3EC8DDD4, 0x3ED19BB0, 0x3EDA3F60, 0x3EE2C97D] ++
   [0x3EEB3A9F, 0x3EF39355, 0x3EFBD42B, 0x3F01FED4, 0x3F060828, 0x3F0A0650, 0x3F0DF989, 0x3F11E20F] ++
   [0x3F15C01A, 0x3F1993E3, 0x3F1D5DA0, 0x3F211D84, 0x3F24D3C2, 0x3F28808C, 0x3F2C2411, 0x3F2FBE80] ++
   [0x3F335004, 0x3F36D8CB, 0x3F3A58FF, 0x3F3DD0C8, 0x3F41404F, 0x3F44A7BA, 0x3F480731, 0x3F4B5ED7] ++
   [0x3F4EAED0, 0x3F51F740, 0x3F553848, 0x3F587209, 0x3F5BA4A4, 0x3F5ED039, 0x3F61F4E5, 0x3F6512C7] ++
   [0x3F6829FB, 0x3F6B3A9F, 0x3F6E44CD, 0x3F7148A1, 0x3F744636, 0x3F773DA4, 0x3F7A2F04, 0x3F7D1A71]
/-- Table TS: RNE(sin(i × π / 32)) (03 R114). -/
def tableTS : List Nat :=
  [0x00000000, 0x3DC8BD36, 0x3E47C5C2, 0x3E94A031, 0x3EC3EF15, 0x3EF15AEA, 0x3F0E39DA, 0x3F226799] ++
   [0x3F3504F3, 0x3F45E403, 0x3F54DB31, 0x3F61C598, 0x3F6C835E, 0x3F74FA0B, 0x3F7B14BE, 0x3F7EC46D] ++
   [0x3F800000, 0x3F7EC46D, 0x3F7B14BE, 0x3F74FA0B, 0x3F6C835E, 0x3F61C598, 0x3F54DB31, 0x3F45E403] ++
   [0x3F3504F3, 0x3F226799, 0x3F0E39DA, 0x3EF15AEA, 0x3EC3EF15, 0x3E94A031, 0x3E47C5C2, 0x3DC8BD36] ++
   [0x00000000, 0xBDC8BD36, 0xBE47C5C2, 0xBE94A031, 0xBEC3EF15, 0xBEF15AEA, 0xBF0E39DA, 0xBF226799] ++
   [0xBF3504F3, 0xBF45E403, 0xBF54DB31, 0xBF61C598, 0xBF6C835E, 0xBF74FA0B, 0xBF7B14BE, 0xBF7EC46D] ++
   [0xBF800000, 0xBF7EC46D, 0xBF7B14BE, 0xBF74FA0B, 0xBF6C835E, 0xBF61C598, 0xBF54DB31, 0xBF45E403] ++
   [0xBF3504F3, 0xBF226799, 0xBF0E39DA, 0xBEF15AEA, 0xBEC3EF15, 0xBE94A031, 0xBE47C5C2, 0xBDC8BD36]
/-- Table RS: RNE(1 / sqrt(2^(i div 32) × (1 + (2 × (i mod 32) + 1) / 64))) (03 R114). -/
def tableRS : List Nat :=
  [0x3F7E05EC, 0x3F7A33F9, 0x3F768CDC, 0x3F730D8A, 0x3F6FB345, 0x3F6C7B90, 0x3F69642A, 0x3F666B02] ++
   [0x3F638E39, 0x3F60CC16, 0x3F5E2305, 0x3F5B9193, 0x3F59166B, 0x3F56B051, 0x3F545E22, 0x3F521ED0] ++
   [0x3F4FF162, 0x3F4DD4ED, 0x3F4BC89B, 0x3F49CBA2, 0x3F47DD45, 0x3F45FCD6, 0x3F4429AF, 0x3F426337] ++
   [0x3F40A8DE, 0x3F3EFA1C, 0x3F3D5671, 0x3F3BBD67, 0x3F3A2E8C, 0x3F38A975, 0x3F372DBF, 0x3F35BB09] ++
   [0x3F339F19, 0x3F30EB96, 0x3F2E565C, 0x3F2BDD46, 0x3F297E62, 0x3F2737F0, 0x3F250855, 0x3F22EE1D] ++
   [0x3F20E7F5, 0x3F1EF4A4, 0x3F1D130E, 0x3F1B422C, 0x3F19810C, 0x3F17CED0, 0x3F162AA9, 0x3F1493D9] ++
   [0x3F1309AF, 0x3F118B87, 0x3F1018C6, 0x3F0EB0E0, 0x3F0D534F, 0x3F0BFF97, 0x3F0AB544, 0x3F0973E8] ++
   [0x3F083B1E, 0x3F070A87, 0x3F05E1C7, 0x3F04C08B, 0x3F03A682, 0x3F029362, 0x3F0186E2, 0x3F0080C1]
/-- Table LR: RNE(64 / (64 + i)) (03 R114). -/
def tableLR (i : Nat) : Dy := rne32 (Dy.div ⟨false, 64, 0⟩ ⟨false, 64 + i, 0⟩)
/-- Table RC: RNE(128 / (129 + 2i)) (03 R114). -/
def tableRC (i : Nat) : Dy := rne32 (Dy.div ⟨false, 128, 0⟩ ⟨false, 129 + 2 * i, 0⟩)

/-- e of x = ±2^e × g with g in [1, 2) (03 R116). -/
def Dy.exp (x : Dy) : Int := Nat.log2 x.m + x.e
/-- g of 03 R116. -/
def Dy.frac (x : Dy) : Dy := ⟨false, x.m, -(Nat.log2 x.m : Int)⟩
/-- floor((g − 1) × 2^k). -/
def Dy.index (x : Dy) (k : Nat) : Nat := ((x.m <<< k) >>> Nat.log2 x.m) - 2 ^ k

/-- VEXP2 on an ordinary value (03 R116, R117). -/
def exp2Fin (x : Dy) : Dy :=
  if !x.neg ∧ x.cmp ⟨false, 128, 0⟩ ≠ .lt then ⟨false, 1, 128⟩
  else if x.neg ∧ x.cmp ⟨true, 150, 0⟩ = .lt then ⟨false, 1, -151⟩
  else
    let n := (x.scale 6).floor
    let i := n % 64
    let f := x.add .rne (Dy.ofInt (-n) (-6) false)
    let t := fma32 (dyOf 0x3D635847) f (dyOf 0x3E75FDF0)
    let t := fma32 t f (dyOf 0x3F317218)
    let t := fma32 t f dyOne
    ((dyOf (tableTX.getD i.toNat 0)).mul t).scale ((n - i) / 64)

/-- VLOG2 on a positive value (03 R116); the sum's zero takes its sign in the mode. -/
def log2Fin (mode : RMode) (x : Dy) : Dy :=
  let j := x.index 6
  let t := fma32 x.frac (tableLR j) dyOne.negate
  let w := fma32 (dyOf 0x3EF6384F) t (dyOf 0xBF38AA3B)
  let w := fma32 w t (dyOf 0x3FB8AA3B)
  (Dy.int x.exp).add mode (fma32 w t (dyOf (tableLL.getD j 0)))

/-- VRCP on a non-zero value (03 R116). -/
def rcpFin (x : Dy) : Dy :=
  let g := x.frac
  let step := fun (y : Dy) => fma32 y (fma32 g.negate y dyOne) y
  { (step (step (tableRC (x.index 6)))).scale (-x.exp) with neg := x.neg }

/-- VRSQ on a positive value (03 R116). -/
def rsqFin (x : Dy) : Dy :=
  let par := x.exp % 2
  let w := x.frac.scale par
  let step := fun (y : Dy) => fma32 (mul32 ⟨false, 1, -1⟩ y) (fma32 (mul32 w y).negate y dyOne) y
  (step (step (dyOf (tableRS.getD (32 * par.toNat + x.index 5) 0)))).scale (-((x.exp - par) / 2))

/-- VSIN, or with `off` = 16 VCOS, on a value below 2^19 (03 R116). -/
def sinFin (off : Int) (mode : RMode) (x : Dy) : Dy :=
  let k := (roundInt .rne 0 (x.mul (dyOf 0x4122F983))).1
  let nk := (Dy.int k).negate
  let f := fma32 nk (dyOf 0x3DC90FDB) x
  let f := fma32 nk (dyOf 0xB13BBD2E) f
  let f := fma32 nk (dyOf 0xA4F72CED) f
  let i := ((k + off) % 64).toNat
  let z := mul32 f f
  let sf := fma32 (mul32 (fma32 z (dyOf 0x3C088889) (dyOf 0xBE2AAAAB)) z) f f
  let cf := fma32 (fma32 z (dyOf 0x3D2AAAAB) (dyOf 0xBF000000)) z dyOne
  ((dyOf (tableTS.getD i 0)).mul cf).add mode ((dyOf (tableTS.getD ((i + 16) % 64) 0)).mul sf)

/-- The six operations. -/
inductive Trans where
  | exp2 | log2 | rcp | rsq | sin | cos
  deriving DecidableEq, Repr

/-- The value before the final rounding, and the invalid flag (03 R116, R117, R93). -/
def Trans.value (op : Trans) (mode : RMode) (x : Fv) : Fv × Flags :=
  match x with
  | .nan s => (.nan false, Flags.when s Flags.invalid)
  | .inf neg =>
    match op with
    | .exp2 => (if neg then .fin ⟨false, 0, 0⟩ else .inf false, 0)
    | .log2 => if neg then (.nan false, Flags.invalid) else (.inf false, 0)
    | .rcp => (.fin ⟨neg, 0, 0⟩, 0)
    | .rsq => if neg then (.nan false, Flags.invalid) else (.fin ⟨false, 0, 0⟩, 0)
    | .sin | .cos => (.nan false, Flags.invalid)
  | .fin d =>
    if d.m = 0 then
      (match op with
        | .exp2 | .cos => .fin dyOne
        | .log2 => .inf true
        | .rcp | .rsq => .inf d.neg
        | .sin => .fin d, 0)
    else match op with
      | .exp2 => (.fin (exp2Fin d), 0)
      | .log2 => if d.neg then (.nan false, Flags.invalid) else (.fin (log2Fin mode d), 0)
      | .rcp => (.fin (rcpFin d), 0)
      | .rsq => if d.neg then (.nan false, Flags.invalid) else (.fin (rsqFin d), 0)
      | .sin => if 19 ≤ d.exp then (.nan false, Flags.invalid) else (.fin (sinFin 0 mode d), 0)
      | .cos => if 19 ≤ d.exp then (.nan false, Flags.invalid) else (.fin (sinFin 16 mode d), 0)

/-! ### Conversions (03 R107, 05 R174) -/

/-- A format that holds every value of another (03 R107). -/
def FFmt.holds (d s : FFmt) : Bool :=
  decide (s.p ≤ d.p) && decide (s.emax ≤ d.emax) && decide (d.emin - d.p ≤ s.emin - s.p) && (d.hasInf || !s.hasInf)

/-- A pair of VCVT's table (05 R174). -/
def cvtPair (s d : Tag) : Bool :=
  let f := isF s || isF8 s
  let fd := (isF d && d != 0x20) || isF8 d
  (f && (fd || isI d || isZ d)) || (isI s && (fd || isI d)) || (isZ s && fd) || (s == 0x18 && d == 0x08)

/-- A pair whose conversion calls neither `round` nor `round_int` (03 R107, 05 R174). -/
def cvtExact (s d : Tag) : Bool :=
  (isI s && isI d) || s == 0x18 || ((isF s || isF8 s) && (isF d || isF8 d) && (fmtOf d).holds (fmtOf s))

/-- One converted element that is no ZB element: the element and its flags (03 R107, 05 R174). -/
def cvtElem (s d : Tag) (mode : RMode) (sat : Bool) (draw : Nat) (raw : Nat) (x : Fv) : Nat × Flags :=
  if isI s ∧ isI d then intResult d sat (intOf s raw)
  else if isI d then
    let r := toIntRange mode draw (intRange d).1 (intRange d).2 x
    (wrapTo (tagWidth d) r.1, r.2)
  else
    let r := round (fmtOf d) mode sat draw x
    (r.1, r.2 ||| Flags.when x.isSnan Flags.invalid)

/-! ### Reductions (05 R177) -/

/-- The exact sum of a group (05 R177): its zero is −0 when every addend is −0 or the mode is RDN. -/
def groupSum (mode : RMode) (xs : List Fv) : Fv × Flags :=
  let fl := Flags.when (xs.any Fv.isSnan) Flags.invalid
  let both := xs.any (fun x => x == .inf true) && xs.any (fun x => x == .inf false)
  if both then (.nan false, fl ||| Flags.invalid)
  else if xs.any Fv.isNan then (.nan false, fl)
  else match xs.find? Fv.isInf with
    | some x => (x, fl)
    | none =>
      let s := xs.foldl (fun a x => match x with | .fin d => a.add .rne d | _ => a) (⟨false, 0, 0⟩ : Dy)
      (.fin (if s.m = 0 then { s with neg := mode == .rdn || xs.all Fv.signBit } else s), fl)

/-- The maximum or minimum of a group of encodings (04 R129, 05 R177). -/
def groupPick (f : FFmt) (max : Bool) (xs : List Nat) : Nat × Flags :=
  match xs with
  | [] => (0, 0)
  | x :: l => l.foldl (fun a y => let r := fpMinMax f max a.1 y; (r.1, a.2 ||| r.2)) (fpMinMax f max x x)

/-- The groups of `n` elements of a list. -/
def groupsOf (n : Nat) : Nat → List α → List (List α)
  | 0, _ => []
  | k + 1, l => l.take n :: groupsOf n k (l.drop n)

/-! ### Microscaling import (03 R99, 05 R176) -/

/-- An E2M1 element. -/
def e2m1Value (x : Nat) : Fv :=
  let e := x / 2 % 4
  .fin ⟨x.testBit 3, if e = 0 then x % 2 else 2 + x % 2, if e = 0 then -1 else (e : Int) - 2⟩

/-- 2^n × v. -/
def Fv.scale (x : Fv) (n : Int) : Fv := match x with | .fin d => .fin (d.scale n) | v => v

end Sys2Proof.Machine
end

