-- ==== Sys2Proof/Machine/Engine.lean ====
section
/-! DEFINITION. Knots, and the matrix engine: its planes and banks, what each of its operations does when it performs, and
what earlier-issued operations leave for the checks of later ones (06 R184 to R204, 07 R210). -/

namespace Sys2Proof.Machine

/-! ### Knots (07 R209 to R212) -/

/-- A producing issue performs or fails: the knot leaves PENDING with the last of its outstanding issues (07 R210). -/
def Core.finishKnot (c : Core) (n : BitVec 6) (ok : Bool) : Core :=
  let k := c.knot n
  let bad := k.failedOne || !ok
  if k.count ≤ 1 then
    c.setKnot n { k with count := 0, failedOne := false,
                         state := if k.state = .pending then (if bad then .failed else .resolved) else k.state }
  else c.setKnot n { k with count := k.count - 1, failedOne := bad }

/-- A producing issue: PENDING with the producer's SOURCE (07 R210). -/
def Core.produceKnot (c : Core) (n : BitVec 6) (source : BitVec 3) : Core :=
  let k := c.knot n
  c.setKnot n { source := source, state := .pending, count := k.count + 1, failedOne := k.failedOne }

/-- A knot set RESOLVED at issue: by a false-predicated producer, or by KWAIT (02 R61, 07 R231). -/
def Core.resolveKnot (c : Core) (n : BitVec 6) (source : BitVec 3) : Core :=
  c.setKnot n { c.knot n with state := .resolved, source := source }

/-! ### Planes and banks -/

/-- p of 06 R186. -/
def planeP (m : Nat) : Nat := if 5 ≤ m then 8 else if 3 ≤ m then 4 else 2
/-- Q of 06 R186. -/
def planeQ (m : Nat) : Nat := if 5 ≤ m then 1 else if 3 ≤ m then 2 else 4

/-- A bank by AB. -/
def Matrix.bank (x : Matrix) (ab : BitVec 1) : Bank := if ab = 0 then x.bank0 else x.bank1
/-- Writes a bank. -/
def Matrix.setBank (x : Matrix) (ab : BitVec 1) (b : Bank) : Matrix :=
  if ab = 0 then { x with bank0 := b } else { x with bank1 := b }

/-- An accumulator row as one number. -/
def Bank.rowBits (b : Bank) (r : Nat) : Nat := (SMap.get 0 b.acc r).toNat
/-- Element n of a row. -/
def Bank.elem (b : Bank) (r n : Nat) : Nat := (b.rowBits r >>> (32 * n)) % 2 ^ 32
/-- Writes a row. -/
def Bank.setRow (b : Bank) (r : Nat) (x : Nat) : Bank := { b with acc := SMap.set 0 b.acc r (BitVec.ofNat 8192 x) }

/-- Blocks 16q to 16q + 15 of column n of a plane (06 R186, R187). -/
def Matrix.columnBlocks (x : Matrix) (pl m n q : Nat) : List Blk :=
  let col := (SMap.get 0 x.cells (256 * pl + n)).toNat
  (List.range 16).map fun j =>
    let b := 16 * q + j
    let h := 32768 * pl + 32 * planeQ m * n + 2 * b
    { e := (SMap.get 0 x.headers h).toNat, mu := (SMap.get 0 x.headers (h + 1)).toNat
      ms := mantissas (planeP m) m (col >>> (planeP m * 16 * b)) 0 16 }

/-- The bank's cursor after one K-step (06 R188). -/
def Bank.advance (b : Bank) (q : Nat) : Bank :=
  if q ≤ b.kq.toNat + 1 then { b with steps := b.steps + 1, kq := 0, row := b.row + 1 }
  else { b with steps := b.steps + 1, kq := b.kq + 1 }

/-- One K-step of a MAC-family operation against every column (06 R200): the bank and the flags. -/
def Matrix.macStep (x : Matrix) (fresh : Bool) (bank : Bank) (pl mA mB : Nat) (blks : List Blk) (mode : RMode) (sat : Bool)
    (draw : Nat → Nat) : Bank × Flags :=
  let q := bank.kq.toNat % planeQ mB
  let r := bank.row.toNat
  let rs : List (Nat × Flags) := (List.range 256).map fun n =>
    kstep (if fresh ∧ q = 0 then 0 else bank.elem r n) blks (x.columnBlocks pl mB n q) mA mB mode sat (draw n)
  let row := packBits 32 (rs.map fun p => p.1)
  ((Bank.setRow { bank with kq := BitVec.ofNat 2 q } r row).advance (planeQ mB), Flags.all (rs.map fun p => p.2))

/-- The K-steps s, s + 1, … of a MAC-family operation (06 R188, R200). -/
def Matrix.macSteps (x : Matrix) (negate fresh : Bool) (pl mA mB : Nat) (a : Beat) (mode : RMode) (sat : Bool)
    (draws : List Nat) : Nat → Nat → Bank → Flags → Bank × Flags
  | 0, _, bank, fl => (bank, fl)
  | n + 1, s, bank, fl =>
    let blks := (List.range 16).map fun j =>
      let b := a.blk mA (16 * s + j)
      if negate then { b with ms := b.ms.map fun v => -v } else b
    let r := x.macStep fresh bank pl mA mB blks mode sat fun i => draws.getD (256 * s + i) 0
    x.macSteps negate fresh pl mA mB a mode sat draws n (s + 1) r.1 (fl ||| r.2)

/-- Elements of a row from `lo`. -/
def Bank.elems (b : Bank) (r lo n : Nat) : List Nat := (List.range n).map fun i => b.elem r (lo + i)

/-- What an M operation does when it performs: the matrix state, the beat it drives, and its flags (06 R198 to R204). -/
def Core.runJob (c : Core) : MJob → Matrix × Option Beat × Flags
  | .loadPlane pl m a h =>
    let cells := (List.range 256).foldl (fun t n =>
      SMap.set 0 t (256 * pl.toNat + n) (BitVec.ofNat 2048 (leNat (SMap.getList 0 c.spad (a + 256 * n) 256)))) c.mx.cells
    let headers := SMap.setList 0 c.mx.headers (32768 * pl.toNat) (SMap.getList 0 c.spad h (8192 * planeQ m))
    ({ c.mx with cells := cells, headers := headers, tags := SMap.set 0 c.mx.tags pl.toNat (BitVec.ofNat 6 (0x0E + m)) }, none, 0)
  | .select ab row kq => (c.mx.setBank ab { c.mx.bank ab with row := row, kq := kq }, none, 0)
  | .mac negate fresh ab pl a mode sat draws =>
    let tag := SMap.get 0 c.mx.tags pl.toNat
    let r := c.mx.macSteps negate fresh pl.toNat (zbM a.tag) (zbM tag) a (RMode.ofCode mode) sat draws
      (tagCount a.tag / 256) 0 (c.mx.bank ab) 0
    (c.mx.setBank ab r.1, none, r.2)
  | .read ab row half => (c.mx, some (elemBeat 32 0x20 ((c.mx.bank ab).elems row.toNat (if half then 128 else 0) 128)), 0)
  | .readSteps ab =>
    let b := c.mx.bank ab
    (c.mx, some (elemBeat 32 0x07 ([(b.steps.extractLsb' 0 32).toNat, (b.steps.extractLsb' 32 32).toNat,
      b.kq.toNat * 256 + b.row.toNat, (if b.sat then 8 else 0) + b.rm.toNat] ++
      (List.range 8).map fun p => (SMap.get 0 c.mx.tags p).toNat)), 0)
  | .drain ab row form mode sat draws =>
    let b := c.mx.bank ab
    let r := row.toNat
    if form.toNat < 2 then
      let lo := 128 * form.toNat
      let keep := b.rowBits r - (((b.rowBits r >>> (32 * lo)) % 2 ^ 4096) <<< (32 * lo))
      (c.mx.setBank ab (b.setRow r keep), some (elemBeat 32 0x20 (b.elems r lo 128)), 0)
    else
      let f := if form = 2 then bf16 else fp16
      let rs := (List.range 256).map fun n => round f (RMode.ofCode mode) sat (draws.getD n 0) (fp32.value (b.elem r n))
      let snan := (b.elems r 0 256).any fun x => (fp32.value x).isSnan
      (c.mx.setBank ab (b.setRow r 0), some (elemBeat 16 (if form = 2 then 0x09 else 0x0A) (rs.map (·.1))),
        Flags.all (rs.map (·.2)) ||| Flags.when snan Flags.invalid)
  | .clear ab => (c.mx.setBank ab { c.mx.bank ab with acc := [], steps := 0, row := 0, kq := 0 }, none, 0)
  | .mode ab rm sat => (c.mx.setBank ab { c.mx.bank ab with rm := rm, sat := sat }, none, 0)

/-- The oldest issued M operation performs (06 R190 to R193): matrix state, its drive and its flags at their own offset. Its
knot is resolved, but that of an MRD or MDR by its drive. -/
def Core.performM (c : Core) : Core :=
  match c.mq with
  | [] => c
  | o :: l =>
    let r := c.runJob o.job
    let c := { c with mq := l, mx := r.1 }
    let c := match r.2.1 with
      | some b => { c with drives := c.drives ++ [({ left := o.left, z := o.z, ring := o.ring, beat := some b, kp := some o.kp, slot := 3 } : Drive)] }
      | none => c.finishKnot o.kp true
    c.flagOr o.left r.2.2

/-- Pending drives that the latch bank captures, or that end with their item, resolve their knots (06 R193, R194, log 12). -/
def Core.releaseDrives (c : Core) : Core :=
  let ks := c.drives.filterMap fun d => d.kp
  ks.foldl (fun c n => c.finishKnot n true) { c with drives := c.drives.map fun d => { d with kp := none } }

/-- Every issued M operation performs, in issue order (06 R194). -/
def Core.performAllM (c : Core) : Nat → Core
  | 0 => c
  | n + 1 => c.performM.performAllM n

/-- The tag of a plane as earlier-issued operations leave it (06 R190). -/
def Core.planeTag (c : Core) (pl : BitVec 3) : Tag :=
  c.mq.foldl (fun t o => match o.job with
    | .loadPlane p m _ _ => if p = pl then BitVec.ofNat 6 (0x0E + m) else t
    | _ => t) (SMap.get 0 c.mx.tags pl.toNat)

/-- RM and SAT of a bank as earlier-issued operations leave them (06 R190, R204). -/
def Core.bankMode (c : Core) (ab : BitVec 1) : BitVec 3 × Bool :=
  c.mq.foldl (fun t o => match o.job with
    | .mode b rm sat => if b = ab then (rm, sat) else t
    | _ => t) ((c.mx.bank ab).rm, (c.mx.bank ab).sat)

end Sys2Proof.Machine
end

