-- ==== Sys2Proof/Machine/Account.lean ====
section
/-! DEFINITION. Memory by physical address and the accounts: cores by key, the context table's descriptors, the charge of
every slot of every cycle, flushes, PC-hash and bank-snapshot records, and the ring they go to (01 R46 to R49, 10 R288 to R302). -/

namespace Sys2Proof.Machine

/-- What an absent core reads as: a tile core after core reset, or a supervisor core (01 R21, R50, R52). -/
def coreDefault (key : Nat) : Core :=
  if key < 576 then {}
  else { supervisor := true, stopped := key ≠ 576, cr := { sys := true, slotmap := 0x01AA } }

/-- A core by key. -/
def State.core (s : State) (key : Nat) : Core := SMap.get (coreDefault key) s.cores key
/-- Writes a core. -/
def State.setCore (s : State) (key : Nat) (c : Core) : State :=
  { s with cores := SMap.set (coreDefault key) s.cores key c }
/-- Changes a core. -/
def State.modCore (s : State) (key : Nat) (f : Core → Core) : State := s.setCore key (f (s.core key))

/-- A byte of memory by physical address; a byte nothing has written reads zero (log 4). -/
def State.memByte (s : State) (pa : Nat) : Byte := SMap.get (0 : Byte) s.mem pa
/-- `n` bytes of memory from a physical address. -/
def State.memBytes (s : State) (pa n : Nat) : List Byte := SMap.getList (0 : Byte) s.mem pa n
/-- `n` bytes of memory as a little-endian number. -/
def State.memNat (s : State) (pa n : Nat) : Nat := leNat (s.memBytes pa n)
/-- Whether a granule of memory is poisoned (18 R445). -/
def State.poisoned (s : State) (pa : Nat) : Bool := SMap.get false s.memPoison (pa / 16)

/-- Sets or clears the poison of `n` granules from granule `g`. -/
def poisonRange (m : SMap Bool) (g : Nat) (b : Bool) : Nat → SMap Bool
  | 0 => m
  | n + 1 => poisonRange (SMap.set false m g b) (g + 1) b n

/-- Writes bytes of memory; granules written whole lose their poison (18 R445). -/
def State.memWrite (s : State) (pa : Nat) (bytes : List Byte) : State :=
  let lo := (pa + 15) / 16
  let hi := (pa + bytes.length) / 16
  { s with mem := SMap.setList (0 : Byte) s.mem pa bytes, memPoison := poisonRange s.memPoison lo false (hi - lo) }

/-- Writes an `n`-byte little-endian number. -/
def State.memPut (s : State) (pa n x : Nat) : State := s.memWrite pa (leBytes n x)

/-- The 512 B context-table entry of an ASID (14 R354). -/
def State.ctxEntry (s : State) (asid : BitVec 16) : Nat := s.bases.ctx + 512 * asid.toNat

/-- STATE of a context-table entry: 0 free, 1 live, 2 dying. -/
def State.ctxState (s : State) (asid : BitVec 16) : Nat := s.memNat (s.ctxEntry asid) 4 % 4
/-- PART of a context-table entry. -/
def State.ctxPart (s : State) (asid : BitVec 16) : Nat := (s.memNat (s.ctxEntry asid) 4 / 16) % 16

/-- The account descriptor of a context: BLOCK, RING and SIZE (10 R292). -/
def State.account (s : State) (asid : BitVec 16) : Nat × Nat × Nat :=
  let a := s.ctxEntry asid + 0x20
  (s.memNat (a + 16) 8, s.memNat a 8, s.memNat (a + 8) 8 % 64)

/-- Entry n of the logical core map (19 R471). -/
def State.lcmapEntry (s : State) (n : Nat) : BitVec 16 := BitVec.ofNat 16 (s.memNat (s.bases.lcmap + 2 * n) 2)
/-- The key of the core that serves a logical number, while it is served. -/
def State.coreOfLogical (s : State) (n : Nat) : Option Nat :=
  let e := s.lcmapEntry n
  if n < 544 ∧ e.getLsbD 15 then some (144 * (e.extractLsb' 8 2).toNat + (e.extractLsb' 0 8).toNat) else none

/-- The first n from 0 that a test accepts, below a bound. -/
def findBelow (p : Nat → Bool) : Nat → Option Nat
  | 0 => none
  | n + 1 => match findBelow p n with
    | some k => some k
    | none => if p n then some n else none

/-- The logical number a site serves, 0x3FF if withdrawn or spare (01 R21). -/
def State.logicalOf (s : State) (key : Nat) : Nat :=
  (findBelow (fun n => s.coreOfLogical n == some key) 544).getD 0x3FF

/-- The ring words of a context: the header's address and the ring's unit count, if it has a ring (10 R292, R293). -/
def State.ring (s : State) (asid : BitVec 16) : Option (Nat × Nat) :=
  let a := s.account asid
  if a.2.1 = 0 ∨ a.2.2 < 12 ∨ 30 < a.2.2 then none else some (a.2.1, 2 ^ (a.2.2 - 5))

/-- Cuts bytes into units of 32 and writes each at its place in the ring. -/
def State.ringUnits (s : State) (ring units u : Nat) : List Byte → Nat → State
  | _, 0 => s
  | bs, n + 1 => ((s.memWrite (ring + 64 + 32 * (u % units)) (bs.take 32))).ringUnits ring units (u + 1) (bs.drop 32) n

/-- Writes one record to its context's ring, or drops it for lack of room (10 R294). `count` is added to DROPCHG by a
dropped PC-hash record. -/
def State.ringRecord (s : State) (asid : BitVec 16) (body : List Byte) (count : Nat) : State :=
  match s.ring asid with
  | none => s
  | some (ring, units) =>
    let u := body.length / 32
    let reserve := s.memNat ring 8
    let consumer := s.memNat (ring + 8) 8
    if reserve + u - consumer ≤ units then
      (s.memPut ring 8 (reserve + u)).ringUnits ring units reserve body u
    else
      let s := s.memPut (ring + 16) 8 (s.memNat (ring + 16) 8 + 1)
      s.memPut (ring + 24) 8 (s.memNat (ring + 24) 8 + count)

/-- The first word of a record (10 R296): TYPE, UNITS, LCORE and the type's low bits. -/
def ringWord (typ units lcore low : Nat) : Nat := typ * 2 ^ 60 + units * 2 ^ 52 + lcore * 2 ^ 42 + low

/-- A spill that finds the spill buffer full is discarded, its count added to DROPCHG (10 R298). -/
def State.dropSpill (s : State) (asid : BitVec 16) (count : Nat) : State :=
  match s.ring asid with
  | none => s
  | some (ring, _) => s.memPut (ring + 24) 8 (s.memNat (ring + 24) 8 + count)

/-- Writes a PC-hash entry as a record, or discards it where the spill buffer is full, which is open (10 R298, R299, log 41). -/
def State.spillHash (s : State) (key : Nat) (reason : Nat) (e : HashEntry) : State :=
  if e.count = 0 then s
  else if Config.spillFull s.free key (s.core key).cycle.toNat e.pc.toNat e.cause.toNat then s.dropSpill e.asid e.count.toNat
  else s.ringRecord e.asid
    (leBytes 8 (ringWord 1 1 (s.logicalOf key) (e.cause.toNat * 2 ^ 38 + reason * 2 ^ 36)) ++
      leBytes 8 (e.pc.toNat * 4) ++ leBytes 8 e.count.toNat ++ leBytes 8 e.region.toNat) e.count.toNat

/-- cr.region: the top four region-stack entries, the top in [15:0] (01 R20). -/
def Core.crRegion (c : Core) : W64 :=
  (c.region.getD 3 0) ++ (c.region.getD 2 0) ++ (c.region.getD 1 0) ++ (c.region.getD 0 0)

/-- The set of a key of the PC-hash table (10 R297). -/
def hashSet (pc : BitVec 57) (cause : Nat) : Nat :=
  ((pc.extractLsb' 2 10) ^^^ (pc.extractLsb' 12 10) ^^^ (pc.extractLsb' 22 10) ^^^ BitVec.ofNat 10 (cause * 64)).toNat

/-- The way of a set that holds a key. -/
def hashWay (t : SMap (Option HashEntry)) (set : Nat) (asid : BitVec 16) (pc : BitVec 57) (cause : BitVec 4) : Option Nat :=
  findBelow (fun w => match SMap.get none t (4 * set + w) with
    | some e => e.asid == asid && e.pc == pc.extractLsb' 2 55 && e.cause == cause
    | none => false) 4

/-- The way a new key takes: the lowest free one, or the lowest-numbered of the smallest counts (10 R298). -/
def hashVictim (t : SMap (Option HashEntry)) (set : Nat) : Nat :=
  let c := fun w => match SMap.get none t (4 * set + w) with | some e => e.count.toNat + 1 | none => 0
  let best := fun a b => if c b < c a then b else a
  best (best (best 0 1) 2) 3

/-- Adds charges of one cause to the PC-hash table (10 R297, R298). -/
def State.hashAdd (s : State) (key : Nat) (ctx : BitVec 16) (pc : BitVec 57) (cause n : Nat) : State :=
  let c := s.core key
  let set := hashSet pc cause
  let k := BitVec.ofNat 4 cause
  let put := fun (s : State) (w : Nat) (e : HashEntry) =>
    s.modCore key fun c => { c with acct := { c.acct with hash := SMap.set none c.acct.hash (4 * set + w) (some e) } }
  match hashWay c.acct.hash set ctx pc k with
  | some w =>
    match SMap.get none c.acct.hash (4 * set + w) with
    | some e =>
      if e.count.toNat + n ≤ 0xFFFFFFFF then put s w { e with count := e.count + BitVec.ofNat 32 n }
      else put (s.spillHash key 2 { e with count := 0xFFFFFFFF }) w
        { e with count := BitVec.ofNat 32 (e.count.toNat + n - 0xFFFFFFFF) }
    | none => s
  | none =>
    let w := hashVictim c.acct.hash set
    let s := match SMap.get none c.acct.hash (4 * set + w) with | some e => s.spillHash key 0 e | none => s
    put s w ⟨ctx, pc.extractLsb' 2 55, k, BitVec.ofNat 32 n, c.crRegion⟩

/-- Spills every entry of a core's PC-hash table that a test accepts (10 R298). -/
def State.spillWhere (s : State) (key reason : Nat) (p : HashEntry → Bool) : State :=
  let t := (s.core key).acct.hash
  let go := t.foldl (fun s q => match q.2 with | some e => if p e then s.spillHash key reason e else s | none => s) s
  let kept := t.filter (fun q => match q.2 with | some e => !p e | none => false)
  go.modCore key fun c => { c with acct := { c.acct with hash := kept } }

/-- The bank-snapshot record of a core (10 R301, R302), when any counter is non-zero. -/
def State.bankSnapshot (s : State) (key loop reason exits : Nat) (pc : BitVec 57) : State :=
  let c := s.core key
  if c.acct.bank = [] ∨ c.supervisor then s
  else
    let body := leBytes 8 (ringWord 2 41 (s.logicalOf key) (loop * 2 ^ 40 + reason * 2 ^ 38 + exits * 2 ^ 30)) ++
      leBytes 8 pc.toNat ++ leBytes 8 c.cycle.toNat ++ leBytes 8 c.crRegion.toNat ++
      (List.range 320).flatMap fun i => leBytes 4 (SMap.get 0 c.acct.bank i).toNat
    (s.ringRecord c.acct.owner body 0).modCore key fun c => { c with acct := { c.acct with bank := [] } }

/-- Adds the live counters to an account block, one entry per cause from `k` upwards (10 R288, R289). -/
def State.blockAdds (s : State) (block row : Nat) (live : SMap W64) : Nat → Nat → State
  | _, 0 => s
  | k, n + 1 =>
    let a := block + 128 * row + 8 * k
    let v := SMap.get 0 live k
    (if v = 0 then s else s.memPut a 8 (s.memNat a 8 + v.toNat)).blockAdds block row live (k + 1) n

/-- A flush of the live counters to the account block of the context they belong to (10 R288). -/
def State.flushLive (s : State) (key : Nat) : State :=
  let c := s.core key
  let block := (s.account c.acct.owner).1
  let s := if block = 0 then s else s.blockAdds block key c.acct.live 0 16
  s.modCore key fun c => { c with acct := { c.acct with live := [] } }

/-- An ownership change: flush and snapshot, and the new owner's charges start in the live counters (10 R288, R301). -/
def State.setOwner (s : State) (key : Nat) (ctx : BitVec 16) : State :=
  if (s.core key).acct.owner = ctx then s
  else ((s.bankSnapshot key 0 1 0 0).flushLive key).modCore key fun c => { c with acct := { c.acct with owner := ctx } }

/-- Adds the charges of one cycle to the capture slots (10 R304). -/
def Acct.capture (a : Acct) (ctx : BitVec 16) (l : List (Nat × Nat)) : Acct :=
  { a with captures := (a.captures.map fun q =>
      if q.2.busy then
        (q.1, if q.2.asid = ctx then { q.2 with counts := (l.foldl (fun m x =>
            SMap.set 0 m x.1 (SMap.get 0 m x.1 + BitVec.ofNat 64 x.2)) q.2.counts) }
          else { q.2 with switched := q.2.switched + 1 })
      else q) }

/-- Charges one cycle of a tile core: each listed cause with the slots it takes (01 R46 to R49, 00 R11). A supervisor core
is not charged. cr.cycle advances, an ECC freeze shortens, and a new power window begins where cr.cycle reaches a multiple of
64 (20 R481). -/
def State.charge (s : State) (key : Nat) (ctx : BitVec 16) (pc : BitVec 57) (l : List (Nat × Nat)) : State :=
  let c := s.core key
  let s :=
    if c.supervisor then s
    else
      let s := s.setOwner key ctx
      let s := l.foldl (fun s x => if x.2 = 0 then s else s.hashAdd key ctx pc x.1 x.2) s
      s.modCore key fun c => { c with acct := { c.acct.capture ctx l with
        live := l.foldl (fun m x => SMap.set 0 m x.1 (SMap.get 0 m x.1 + BitVec.ofNat 64 x.2)) c.acct.live } }
  s.modCore key fun c =>
    let cyc := c.cycle + 1
    let c := { c with cycle := cyc, ecc := c.ecc - 1 }
    if cyc.extractLsb' 0 6 = 0 then
      { c with power := { c.power with sum := 0, eff := max 1 (min c.cr.ceiling.toNat c.power.pceil) } }
    else c

/-- `n` freeze cycles of one cause: all six slots (01 R47 rule 3). -/
def State.freeze (s : State) (key : Nat) (ctx : BitVec 16) (pc : BitVec 57) (cause : Nat) : Nat → State
  | 0 => s
  | n + 1 => (s.charge key ctx pc [(cause, 6)]).freeze key ctx pc cause n

end Sys2Proof.Machine
end

