-- ==== Sys2Proof/Machine/Translate.lean ====
section
/-! DEFINITION. The error log, range registers, the home map, page walks and the translators, and global accesses at their
home slices (14 R360 to R374, 09 R273 to R279, 18 R437 to R440). -/

namespace Sys2Proof.Machine

/-! ### The error log (18 R438 to R440) -/

/-- A log record before the arbiter gives it SEQ and TIME. -/
structure LogRec where
  code : Nat
  cls : Nat
  part : Nat := 31
  asid : Nat := 0
  source : Nat := 0
  addr : Nat := 0
  wid : Nat := 0
  /-- the 24 bytes of DETAIL as a little-endian number -/
  detail : Nat := 0
  deriving DecidableEq, Repr

/-- SOURCE of a core: die, unit 0 or 6, instance (18 R438). -/
def sourceOf (key : Nat) : Nat :=
  if key < 576 then (key / 144) * 16384 + key % 144 else (key - 576) * 16384 + 6 * 256

/-- The arbiter appends the bytes of a record from its CODE on, under the next SEQ and the time (18 R440). The function of its
partition, 31 the upstream one, signals MSI-X vector 1 (13 R346) and reports a record of class 1 to 3 (18 R436). -/
def State.logRaw (s : State) (cls part : Nat) (rest : List Byte) : State :=
  let a := s.bases.log + 64 * (s.logSeq % 65536)
  { s.memWrite a (leBytes 8 s.logSeq ++ leBytes 8 s.time ++ rest) with
    logSeq := s.logSeq + 1
    host := { s.host with
      aer := if cls = 0 then s.host.aer else s.host.aer ++ [(part, cls, s.logSeq)]
      msix := s.host.msix ++ [(part, 1)] } }

/-- The arbiter appends one record (18 R438, R440). -/
def State.logAppend (s : State) (r : LogRec) : State :=
  s.logRaw r.cls r.part (leBytes 2 r.code ++ leBytes 1 r.cls ++ leBytes 1 r.part ++ leBytes 2 r.asid ++ leBytes 2 r.source ++
    leBytes 8 r.addr ++ leBytes 8 r.wid ++ leBytes 24 r.detail)

/-! ### Range registers (14 R360 to R363) -/

/-- V of a range register. -/
def rangeV (g : W256) : Bool := g.getLsbD 195
/-- VBASE and VEND in 64 KiB units. -/
def rangeBounds (g : W256) : Nat × Nat := ((g.extractLsb' 0 41).toNat, (g.extractLsb' 64 41).toNat)
/-- CBASE in 64 KiB units. -/
def rangeCbase (g : W256) : Nat := (g.extractLsb' 128 36).toNat
/-- CLASS. -/
def rangeClass (g : W256) : RangeClass :=
  match (g.extractLsb' 196 2).toNat with | 0 => .plain | 1 => .managed | 2 => .host | _ => .remote

/-- What an access needs. -/
inductive Need where
  | r | w | x | rw
  deriving DecidableEq, Repr

/-- A range or a page that permits `r`, `w`, `x` admits the access. -/
def Need.ok (n : Need) (r w x : Bool) : Bool :=
  match n with | .r => r | .w => w | .x => x | .rw => r && w

/-- KIND of a permission refusal (14 R373): 6 for a fetch, 1 otherwise. -/
def Need.refused (n : Need) : Nat := if n = .x then 6 else 1

/-- The lowest-numbered valid range register that covers an address (14 R361, R362). -/
def findRange (ranges : SMap W256) (va : BitVec 57) : Nat → Nat → Option W256
  | _, 0 => none
  | i, n + 1 =>
    let g := SMap.get 0 ranges i
    let u := va.toNat / 65536
    if rangeV g ∧ (rangeBounds g).1 ≤ u ∧ u < (rangeBounds g).2 then some g else findRange ranges va (i + 1) n

/-- The target of an address under a range register. -/
def targetOf (g : W256) (va : BitVec 57) (asid : BitVec 16) : Target :=
  { va := va
    ca := BitVec.ofNat 52 (rangeCbase g * 65536 + (va.toNat - (rangeBounds g).1 * 65536))
    cls := rangeClass g, win := g.getLsbD 198, peer := g.extractLsb' 236 20, rasid := g.extractLsb' 216 10,
    heap := g.extractLsb' 200 3, asid := asid }

/-- `range_of` of 14 R362 for one byte, or the KIND of the fatal context error. -/
def Core.rangeOf (c : Core) (va : BitVec 57) (need : Need) : Except Nat Target :=
  match findRange c.ranges va 0 8 with
  | none => .error 0
  | some g =>
    if need.ok (g.getLsbD 192) (g.getLsbD 193) (g.getLsbD 194) then .ok (targetOf g va c.cr.asid) else .error need.refused

/-- Each byte of an access of `n` bytes goes through its own range (14 R362): the KIND and address of the first refusal, or
the first byte's target. -/
def Core.rangesOf (c : Core) (va : BitVec 57) (need : Need) (n : Nat) : Except (Nat × BitVec 57) Target :=
  match (List.range n).findSome? fun i =>
      match c.rangeOf (va + BitVec.ofNat 57 i) need with
      | .error k => some (k, va + BitVec.ofNat 57 i)
      | .ok _ => none with
  | some e => .error e
  | none => match c.rangeOf va need with | .error k => .error (k, va) | .ok t => .ok t

/-! ### Chip addresses (00 R11, 14 R364, R365) -/

/-- The home-map entry of a chip address: VALID, SYS and DIE. -/
def State.homeEntry (s : State) (ca : BitVec 52) : BitVec 16 := SMap.get 0 s.homeMap (ca.toNat / 2 ^ 29)
/-- The home die of a chip address. -/
def State.homeDie (s : State) (ca : BitVec 52) : Nat := ((s.homeEntry ca).extractLsb' 0 2).toNat
/-- The home slice of a chip address on its die (00 R11). -/
def homeSlice (ca : BitVec 52) : BitVec 6 := ca.extractLsb' 7 6 ^^^ ca.extractLsb' 13 6 ^^^ ca.extractLsb' 19 6
/-- A window address. -/
def isWindow (ca : BitVec 52) : Bool := ca.extractLsb' 40 12 == 0xFFF
/-- A host-aperture address. -/
def isHostCa (ca : BitVec 52) : Bool := ca.extractLsb' 40 12 == 0xFFE

/-! ### Page walks (14 R366 to R371) -/

/-- The partition descriptor of a context, where it is valid. -/
def State.partitionOf (s : State) (asid : BitVec 16) : Option Partition := SMap.get none s.parts (s.ctxPart asid)

/-- An HBM page may lie on its channel in the context's partition (14 R358); the manual gives no map from a physical address
to its channel (log 8). -/
def State.channelOk (s : State) (asid : BitVec 16) (pa : Nat) : Bool :=
  match s.partitionOf asid with
  | none => true
  | some p => p.channels == BitVec.allOnes 384 || p.channels.getLsbD (Config.channelOf pa % 384)

/-- The freed spans of a context's heaps (15 R402): chip address and length, those of length 0 left out. -/
def State.freedSpans (s : State) (asid : BitVec 16) : List (Nat × Nat) :=
  ((List.range 32).map fun i =>
    let a := s.bases.hcb + 256 * (8 * asid.toNat + i / 4) + 0x20 + 16 * (i % 4)
    (s.memNat a 8, s.memNat (a + 8) 8)).filter fun p => p.2 ≠ 0

/-- What a walk finds. -/
inductive WalkResult where
  | leaf (l : Leaf)
  /-- V = 0 -/
  | absent
  /-- a bad entry (14 R369), with its bits -/
  | bad (pte : Nat)
  deriving DecidableEq, Repr

/-- Low bit and width of a level's index in the chip address, and log2 of the page a leaf there maps (14 R367). -/
def levelBits (level : Nat) : Nat × Nat :=
  match level with | 0 => (42, 10) | 1 => (29, 13) | 2 => (21, 8) | _ => (16, 5)

/-- One page walk from a table at a level; `host` says the range is of class HOST. `fuel` counts the levels left. -/
def State.walkFrom (s : State) (asid : BitVec 16) (ca : BitVec 52) (host : Bool) (table level : Nat) : Nat → WalkResult
  | 0 => .absent
  | fuel + 1 =>
    let lb := levelBits level
    let e := BitVec.ofNat 64 (s.memNat (table + 8 * ((ca.toNat >>> lb.1) % 2 ^ lb.2)) 8)
    let pa := (e.extractLsb' 16 36).toNat * 65536
    if !e.getLsbD 63 then .absent
    else if e.getLsbD 58 ∨ e.extractLsb' 52 4 ≠ 0 ∨ e.extractLsb' 0 16 ≠ 0 ∨ 2 ≤ (e.extractLsb' 56 2).toNat then .bad e.toNat
    else if e.getLsbD 62 then
      let size := 2 ^ lb.1
      let hostPage := e.extractLsb' 56 2 == 1
      if level = 0 ∨ pa % size ≠ 0 ∨ hostPage ≠ host then .bad e.toNat
      else if ¬hostPage ∧ (pa / 2 ^ 40 ≠ s.homeDie ca ∨ 144 * 2 ^ 30 ≤ pa % 2 ^ 40 ∨ ¬s.channelOk asid pa) then .bad e.toNat
      else .leaf ⟨ca.toNat / size * size, size, pa, hostPage, e.getLsbD 61, e.getLsbD 60, e.getLsbD 59, s.freedSpans asid⟩
    else if level = 3 ∨ e.getLsbD 61 ∨ e.getLsbD 60 ∨ e.getLsbD 59 ∨ e.extractLsb' 56 2 ≠ 0 then .bad e.toNat
    else s.walkFrom asid ca host pa (level + 1) fuel

/-- A fresh walk of the page tables of a context (14 R367). -/
def State.walk (s : State) (asid : BitVec 16) (ca : BitVec 52) (host : Bool) : WalkResult :=
  s.walkFrom asid ca host (s.memNat (s.ctxEntry asid + 8) 8) 0 4

/-- Key of a cached translation. -/
def tlbKey (asid : BitVec 16) (ca : BitVec 52) : Nat := 2 ^ 36 * asid.toNat + ca.toNat / 65536

/-- Where a translated byte lies. -/
inductive Place where
  /-- physical address in HBM -/
  | mem (pa : Nat)
  /-- host bus address -/
  | host (addr : Nat)
  /-- scratchpad byte of a core -/
  | window (core : Nat) (off : Nat)
  /-- the line at this physical address is in COPYING: the access is held (15 R403) -/
  | held (pa : Nat)
  deriving DecidableEq, Repr

/-- The translator's answer for an access it serves: the place, or a KIND of 14 R373 with the bad entry if there was one. -/
structure Xlate where
  res : Except (Nat × Option Nat) Place
  st : State

/-- A leaf's answer for a chip address. -/
def Leaf.place (l : Leaf) (ca : BitVec 52) : Place :=
  if l.host then .host (l.pa + (ca.toNat - l.page)) else .mem (l.pa + (ca.toNat - l.page))

/-- A chip address falls in a freed span. -/
def Leaf.isFreed (l : Leaf) (ca : BitVec 52) : Bool :=
  l.freed.any fun p => decide (p.1 ≤ ca.toNat) && decide (ca.toNat < p.1 + p.2)

/-- A fresh walk with its result cached where it is a leaf (14 R366, R371). -/
def State.walkFresh (s : State) (asid : BitVec 16) (ca : BitVec 52) (need : Need) (host : Bool) : Xlate :=
  match s.walk asid ca host with
  | .absent => ⟨.error (2, none), s⟩
  | .bad pte => ⟨.error (2, some pte), s⟩
  | .leaf l =>
    let s := { s with tlb := SMap.set none s.tlb (tlbKey asid ca) (some l) }
    if l.isFreed ca then ⟨.error (5, none), s⟩
    else if need.ok l.r l.w l.x then ⟨.ok (l.place ca), s⟩
    else ⟨.error (need.refused, none), s⟩

/-- The translator at a home slice (14 R366, R371): system memory by identity; a cached entry that permits; else one walk. -/
def State.translate (s : State) (asid : BitVec 16) (ca : BitVec 52) (need : Need) (host : Bool) : Xlate :=
  if (s.homeEntry ca).getLsbD 2 then ⟨.ok (.mem ca.toNat), s⟩
  else match SMap.get none s.tlb (tlbKey asid ca) with
    | some l =>
      if l.isFreed ca then ⟨.error (5, none), s⟩
      else if l.host = host ∧ need.ok l.r l.w l.x then ⟨.ok (l.place ca), s⟩
      else s.walkFresh asid ca need host
    | none => s.walkFresh asid ca need host

/-- The partition of a context may name a core's window (14 R358); system context 0 may name any. -/
def State.windowCore (s : State) (ca : BitVec 52) : Option Nat :=
  if ca.extractLsb' 21 9 = 0 then s.coreOfLogical (ca.extractLsb' 30 10).toNat else none

/-- One byte of an access at its home slice (14 R363 to R365, 15 R403): windows by core, the host aperture through the page
tables, package memory at `home_of(forward_of(ca))`. -/
def State.serve (s : State) (asid : BitVec 16) (ca : BitVec 52) (need : Need) (host : Bool) : Xlate :=
  if isWindow ca then
    match s.windowCore ca with
    | some k => ⟨.ok (.window k (ca.extractLsb' 0 21).toNat), s⟩
    | none => ⟨.error (0, none), s⟩
  else if isHostCa ca then s.translate asid ca need true
  else if !(s.homeEntry ca).getLsbD 15 then ⟨.error (0, none), s⟩
  else match SMap.get none s.moves (ca.toNat / 128) with
    | none => s.translate asid ca need host
    | some m =>
      if !m.copied then
        let x := s.translate asid ca need host
        match x.res with
        | .ok (.mem pa) => ⟨.ok (.held pa), x.st⟩
        | _ => x
      else match m.toPa with
        | some pa =>
          let x := s.translate asid ca need host
          match x.res with
          | .ok (.mem _) => ⟨.ok (.mem (pa + ca.toNat % 128)), x.st⟩
          | _ => x
        | none => s.translate asid (BitVec.ofNat 52 (m.toCa + ca.toNat % 128)) need host

/-- A piece of an access, inside one 16 B granule: its chip address, where it lies, and its length. -/
structure Piece where
  ca : Nat
  place : Place
  len : Nat
  deriving DecidableEq, Repr

/-- The parts of `n` bytes from `a` that lie in one granule each: offset and length. -/
def granuleParts (a n : Nat) : List (Nat × Nat) :=
  if n = 0 then []
  else (List.range ((a + n - 1) / 16 - a / 16 + 1)).map fun i =>
    let lo := max a (16 * (a / 16 + i))
    (lo - a, min (a + n) (16 * (a / 16 + i) + 16) - lo)

/-- The pieces of an access, each at its place, or the first refusal: KIND, bad entry and offset. -/
def State.piecesOf (s : State) (asid : BitVec 16) (ca : BitVec 52) (need : Need) (host : Bool) :
    List (Nat × Nat) → Except (Nat × Option Nat × Nat) (List Piece) × State
  | [] => (.ok [], s)
  | (off, len) :: l =>
    let a := ca + BitVec.ofNat 52 off
    let x := s.serve asid a need host
    match x.res with
    | .error e => (.error (e.1, e.2, off), x.st)
    | .ok p =>
      match x.st.piecesOf asid ca need host l with
      | (.ok q, s) => (.ok (⟨a.toNat, p, len⟩ :: q), s)
      | (.error e, s) => (.error e, s)

/-- The pieces of `n` bytes from a chip address. -/
def State.pieces (s : State) (asid : BitVec 16) (ca : BitVec 52) (need : Need) (host : Bool) (n : Nat) :
    Except (Nat × Option Nat × Nat) (List Piece) × State :=
  s.piecesOf asid ca need host (granuleParts ca.toNat n)

/-- The bytes at a place. -/
def State.placeBytes (s : State) (p : Place) (n : Nat) : List Byte :=
  match p with
  | .mem pa => s.memBytes pa n
  | .host a => SMap.getList 0 s.hostMem a n
  | .window k off => SMap.getList 0 (s.core k).spad off n
  | .held pa => s.memBytes pa n

/-- The granule at a place is poisoned (18 R445). -/
def State.placePoison (s : State) : Place → Bool
  | .mem pa => s.poisoned pa
  | .window k off => (s.core k).poison.contains (.spad (off / 16 * 16))
  | _ => false

/-- A place is held by a line that is being copied (15 R403). -/
def Piece.isHeld (p : Piece) : Bool := match p.place with | .held _ => true | _ => false

/-- A write of part of a poisoned granule is accepted and its bytes are lost: SUBWORD_LOST (18 R447). -/
def State.logSubword (s : State) (asid : BitVec 16) (p : Piece) (bytes : List Byte) : State :=
  let lo := p.ca % 16
  s.logAppend
    { code := 0x0012, cls := 2, part := s.ctxPart asid, asid := asid.toNat
      source := (s.homeDie (BitVec.ofNat 52 p.ca)) * 16384 + 256 + (homeSlice (BitVec.ofNat 52 p.ca)).toNat
      addr := p.ca / 16 * 16
      detail := (2 ^ bytes.length - 1) * 2 ^ lo + leNat bytes * 2 ^ (16 + 8 * lo) }

/-- Writes the bytes of one piece. A granule written whole loses its poison (18 R445); in a scratchpad window the granule is
set full (09 R280, R282). -/
def State.writePiece (s : State) (asid : BitVec 16) (p : Piece) (bytes : List Byte) : State :=
  match p.place with
  | .mem pa =>
    if bytes.length < 16 ∧ s.poisoned pa then s.logSubword asid p bytes else s.memWrite pa bytes
  | .host a => { s with hostMem := SMap.setList 0 s.hostMem a bytes }
  | .window k off => s.modCore k fun c => c.spadWrite off bytes true
  | .held _ => s

/-- Writes bytes to pieces in order. -/
def State.writePieces (s : State) (asid : BitVec 16) : List Piece → List Byte → State
  | [], _ => s
  | p :: l, bs => (s.writePiece asid p (bs.take p.len)).writePieces asid l (bs.drop p.len)

/-- Marks the granule of a place poisoned or sound (18 R445). -/
def State.setPoison (s : State) (p : Place) (b : Bool) : State :=
  match p with
  | .mem pa => { s with memPoison := SMap.set false s.memPoison (pa / 16) b }
  | .window k off => s.modCore k fun c =>
      let q : UePlace := .spad (off / 16 * 16)
      if b then { c with poison := q :: c.poison.filter (· ≠ q) } else c.unpoison q
  | _ => s

/-- The die of a core. -/
def dieOf (key : Nat) : Nat := if key < 576 then key / 144 else key - 576

/-- Key of a line in the remote-data cache of a die. -/
def rdcKey (die line : Nat) : Nat := 2 ^ 45 * die + line

/-- The invalidations a performed write sends to the remote-data caches that hold the line (09 R275). -/
def State.sendInvalidations (s : State) (writer : Option Nat) (line : Nat) : State :=
  { s with pendInv := s.pendInv ++ ((List.range 4).filter fun d =>
      SMap.get [] s.rdc (rdcKey d line) ≠ []).map fun d => ⟨d, line, writer⟩ }

/-- Invalidations for every line that `n` bytes from a chip address touch. -/
def State.sendAll (s : State) (writer : Option Nat) (ca n : Nat) : State :=
  (List.range ((ca + n - 1) / 128 - ca / 128 + 1)).foldl (fun s i => s.sendInvalidations writer (ca / 128 + i)) s

/-- A write performs at the home slices of its lines: the bytes, and the invalidations it sends. -/
def State.homeWrite (s : State) (asid : BitVec 16) (writer : Option Nat) (ca : Nat) (ps : List Piece) (bytes : List Byte) :
    State :=
  (s.writePieces asid ps bytes).sendAll writer ca bytes.length

/-- The lines of a piece's kind are served on the reader's die through its remote-data cache: package memory homed on another
die (09 R273). -/
def State.viaRdc (s : State) (die : Nat) (p : Piece) : Bool :=
  match p.place with | .mem _ => s.homeDie (BitVec.ofNat 52 p.ca) != die | _ => false

/-- The bytes a reader on a die gets from a piece: for lines homed on another die, through the die's remote-data cache
(09 R273, R276, R277). -/
def State.readPiece (s : State) (die : Nat) (p : Piece) : List Byte :=
  if s.viaRdc die p then
    match SMap.get [] s.rdc (rdcKey die (p.ca / 128)) with
    | [] => s.placeBytes p.place p.len
    | bs => (bs.drop (p.ca % 128)).take p.len
  else s.placeBytes p.place p.len

/-- Fills the remote-data cache of a die with a line just read from its home, where the line is not being moved (09 R273, 15
R403). -/
def State.fillRdc (s : State) (die : Nat) (p : Piece) : State :=
  let line := p.ca / 128
  match p.place with
  | .mem pa =>
    if !s.viaRdc die p ∨ SMap.get none s.moves line ≠ none ∨ SMap.get [] s.rdc (rdcKey die line) ≠ [] then s
    else { s with rdc := SMap.set [] s.rdc (rdcKey die line) (s.memBytes (pa - p.ca % 128) 128) }
  | _ => s

/-- The bytes of an access's pieces for a reader on a die, whether any granule is poisoned, and the fills they cause. -/
def State.readPieces (s : State) (die : Nat) (ps : List Piece) : List Byte × Bool × State :=
  (ps.flatMap (s.readPiece die), ps.any (fun p => s.placePoison p.place), ps.foldl (fun s p => s.fillRdc die p) s)

end Sys2Proof.Machine
end

