-- ==== Sys2Proof/Machine/Kill.lean ====
section
/-! DEFINITION. How items end and contexts die: what a core drops and what its retirement tracker keeps, completion records,
the kill of a context, the reset of a core and containment (08 R257, 13 R334, 18 R443 to R449). -/

namespace Sys2Proof.Machine

/-- Adds an asynchronous cause; a cause already pending keeps its first einfo (08 R261). -/
def Core.raiseAsync (c : Core) (cause : BitVec 8) (info : W64) : Core :=
  if c.async.any (fun a => a.cause == cause) then c else { c with async := c.async ++ [⟨cause, info, false⟩] }

/-- The lowest free entry of the retirement tracker (08 R257). -/
def Core.freeTracker (c : Core) : Option Nat := findBelow (fun i => (SMap.get none c.tracker i).isNone) 8

/-- Writes that are still outstanding at the end of an item: of the store stream, the copy engines and the atomics. -/
def Core.outstanding (c : Core) : Bool :=
  c.stream.any (fun e => e.ret.isNone) || c.copies.any (fun o => o.ret.isNone) ||
    c.landings.any (fun l => l.ret.isNone && match l.kind with | .amo .. => true | _ => false)

/-- A pending scratchpad store, against a pending register write. -/
def Pending.isSpad (q : Pending) : Bool := match q.write with | .spad .. => true | _ => false

/-- Puts a pending write behind those of the same or an earlier bound. -/
def insertPending (q : Pending) : List Pending → List Pending
  | [] => [q]
  | x :: l => if q.left < x.left then q :: x :: l else x :: insertPending q l

/-- The pending writes in the order in which they land: by bound, then by issue (01 R35). -/
def Core.pendOrder (c : Core) : List Pending := c.pend.foldl (fun l q => insertPending q l) []

/-- Every pending write under R34 lands (01 R36). -/
def Core.completePend (c : Core) : Core := ({ c with pend := [] }).landAll (c.pendOrder.map Pending.write)

/-- Every pending scratchpad store performs and the other pending writes are dropped (08 R257). -/
def Core.completeStores (c : Core) : Core :=
  ({ c with pend := [] }).landAll ((c.pendOrder.filter Pending.isSpad).map Pending.write)

/-- Whether a landing is an atomic's. -/
def Landing.isAmo (l : Landing) : Bool := match l.kind with | .amo .. => true | _ => false

/-- An entry of the store stream that never performs, because a store of the stream has faulted (14 R372). -/
def Core.deadStores (c : Core) : List StoreEntry := if c.streamFault then c.stream.filter fun e => e.ret.isNone else []

/-- What a fault has stopped is dropped: the stores behind a faulting one with their atomics, and refused copies. -/
def Core.dropRefused (c : Core) : Core :=
  let dead := c.deadStores.map fun e => e.seq
  { c with
    stream := c.stream.filter fun e => !dead.contains e.seq
    landings := c.landings.filter fun l => !(l.isAmo && c.deadStores.any fun e => e.kind == .amo l.id)
    copies := c.copies.filter fun o => !o.refused
    streamFault := false, refusals := [] }

/-- A core's part in the end of its item, as at TAIL (08 R257): outstanding writes pass to a retirement-tracker entry, issued
M operations perform, landings, pending destinations, drives and causes are dropped. -/
def Core.endItem (c : Core) : Core :=
  let c := ((c.completeStores).performAllM c.mq.length).releaseDrives.dropRefused
  let e := c.freeTracker.getD 7
  let ret := fun (r : Option Nat) => if r.isNone then some e else r
  { c with
    tracker := if c.outstanding then SMap.set none c.tracker e (c.item.map fun (i : Item) => (i.wid, i.slot)) else c.tracker
    stream := c.stream.map fun q => { q with ret := ret q.ret }
    copies := c.copies.map fun q => { q with ret := ret q.ret }
    landings := (c.landings.filter fun l => l.isAmo || !(l.state == .waiting)).map fun l =>
      { l with live := false, ret := ret l.ret }
    drives := [], flagOrs := [], async := [], latch := none, repLeft := none, bar := .none, item := none, saved := false
    yieldReq := false, probed := [], recolors := [], sticky := []
    hooks := { c.hooks with haltRequest := false, stepBundle := false, breakNext := none }
    cr := { c.cr with sys := c.supervisor, halt := false } }

/-- The WID bits of a gang level's position (13 R331). -/
def Launch.levelBit (l : Launch) (j : Nat) : Nat := (l.widths.take j).foldl (· + ·) 0

/-- Every member of a gang has reported or ended: the root router releases the barrier to those that have reported (08
R251). -/
def State.releaseIfAll (s : State) (n : Nat) : State :=
  match SMap.get none s.gangs n with
  | none => s
  | some q =>
    if q.reported = [] ∨ q.reported.length + q.ended < q.size then s
    else
      let s := q.reported.foldl (fun s k => s.modCore k fun c => { c with bar := .released }) s
      { s with gangs := SMap.set none s.gangs n (some { q with reported := [] }) }

/-- A member's end counts as its report at this and every later barrier of its gang; a gang all of whose members have ended
is gone (08 R251, R257). -/
def State.leaveGang (s : State) (key : Nat) (g : Option Nat) : State :=
  match g with
  | none => s
  | some n =>
    match SMap.get none s.gangs n with
    | none => s
    | some q =>
      let q := { q with reported := q.reported.filter (· ≠ key), ended := q.ended + 1 }
      { s with gangs := SMap.set none s.gangs n (if q.size ≤ q.ended then none else some q) }.releaseIfAll n

/-- A hardware queue slot. -/
def State.slot (s : State) (n : Nat) : QSlot := SMap.get {} s.qslots n
/-- Writes a queue slot. -/
def State.setSlot (s : State) (n : Nat) (q : QSlot) : State := { s with qslots := SMap.set {} s.qslots n q }
/-- Changes the launch of a slot, if it has one. -/
def State.modLaunch (s : State) (n : Nat) (f : Launch → Launch) : State :=
  s.setSlot n { s.slot n with launch := (s.slot n).launch.map f }

/-- The item on a core ends (08 R257, R443): the core's part, its gang and its launch's count of ended items. -/
def State.endItem (s : State) (key : Nat) : State :=
  match (s.core key).item with
  | none => s
  | some it =>
    let s := s.modCore key Core.endItem
    (s.leaveGang key it.gang).modLaunch it.slot fun l => { l with ended := l.ended + 1 }

/-! ### Completion records (13 R333, R334, 19 R475) -/

/-- A context's range registers as its table entry holds them (14 R354). -/
def State.ctxRange (s : State) (asid : BitVec 16) (i : Nat) : W256 :=
  BitVec.ofNat 256 (s.memNat (s.ctxEntry asid + 0x100 + 32 * i) 32)
/-- The eight ranges of a context as a table (14 R354). -/
def State.ctxRanges (s : State) (asid : BitVec 16) : SMap W256 :=
  (List.range 8).foldl (fun m i => SMap.set 0 m i (s.ctxRange asid i)) []

/-- `n` bytes from a virtual address lie wholly in one writable PLAIN range of a context that maps no window (13 R333). -/
def State.plainWritable (s : State) (asid : BitVec 16) (va n : Nat) : Bool :=
  match findRange (s.ctxRanges asid) (BitVec.ofNat 57 va) 0 8 with
  | none => false
  | some g => decide (va < 2 ^ 57) && g.getLsbD 193 && rangeClass g == .plain && !g.getLsbD 198 &&
      decide (va + n ≤ (rangeBounds g).2 * 65536)

/-- Writes bytes at a virtual address of a context through its ranges and page tables; nothing where they refuse. -/
def State.writeVa (s : State) (asid : BitVec 16) (va : Nat) (bytes : List Byte) : State :=
  match findRange (s.ctxRanges asid) (BitVec.ofNat 57 va) 0 8 with
  | none => s
  | some g =>
    let t := targetOf g (BitVec.ofNat 57 va) asid
    match s.pieces asid t.ca .w (t.cls = .host) bytes.length with
    | (.ok ps, s) => s.homeWrite asid none t.ca.toNat ps bytes
    | (.error _, s) => s

/-- Reads bytes at a virtual address of a context; none where its ranges or page tables refuse. -/
def State.readVa (s : State) (asid : BitVec 16) (va n : Nat) : Option (List Byte) :=
  match findRange (s.ctxRanges asid) (BitVec.ofNat 57 va) 0 8 with
  | none => none
  | some g =>
    let t := targetOf g (BitVec.ofNat 57 va) asid
    match (s.pieces asid t.ca .r (t.cls = .host) n).1 with
    | .ok ps => some (ps.flatMap fun p => s.placeBytes p.place p.len)
    | .error _ => none

/-- A completion record of 128 bytes: STATUS, the items ended, FINISH and the core set (13 R334, 19 R475). -/
def State.completionRecord (s : State) (status ended : Nat) (cores : List (Nat × Nat)) : List Byte :=
  let set := (cores.map fun p => p.1).eraseDups.foldl (fun a c => a ||| 2 ^ c) 0
  leBytes 4 status ++ leBytes 4 0 ++ leBytes 8 ended ++ leBytes 8 s.time ++ leBytes 4 0 ++
    leBytes 4 (cores.map fun p => p.2).eraseDups.length ++ leBytes 72 set ++ leBytes 24 0

/-- A DONE address that a slot may write (13 R333). -/
def State.doneOk (s : State) (asid : BitVec 16) (done : Nat) : Bool :=
  done == 0 || (decide (done % 8 = 0) && s.plainWritable asid done 128)

/-- Writes the completion record of a packet, where DONE names a place, and tracks it (13 R334, 19 R475). -/
def State.complete (s : State) (asid : BitVec 16) (done status ended : Nat) (cores : List (Nat × Nat)) : State :=
  if done = 0 ∨ !s.doneOk asid done then s
  else
    let s := s.writeVa asid done (s.completionRecord status ended cores)
    if cores = [] then s else { s with tracked := s.tracked ++ [⟨asid, done, s.time, (cores.map fun p => p.2).eraseDups⟩] }

/-- Bytes at a chip address, as a queue slot reads them for a context (13 R334); none where a translator refuses. -/
def State.readCa (s : State) (asid : BitVec 16) (ca n : Nat) : Option (List Byte) :=
  match (s.pieces asid (BitVec.ofNat 52 ca) .r false n).1 with
  | .ok ps => some (ps.flatMap fun p => s.placeBytes p.place p.len)
  | .error _ => none

/-- Completes the packets `rd`, `rd + 1`, … of a ring as killed (18 R443). -/
def State.killPackets (s : State) (asid : BitVec 16) (base size rd : Nat) : Nat → State
  | 0 => s
  | n + 1 =>
    let done := match s.readCa asid (base + 128 * (rd % size) + 0x28) 8 with | some bs => leNat bs | none => 0
    (s.complete asid done 4 0 []).killPackets asid base size (rd + 1) n

/-- A launch of a killed context (18 R443): it starts no item, its suspended items have ended and its queues are empty. -/
def Launch.kill (l : Launch) : Launch :=
  { l with
    killed := true, status := 4, started := l.total
    ended := l.ended + l.stages.foldl (fun a q => a + q.suspended.length) 0
    stages := l.stages.map fun q => { q with count := 0, suspended := [] } }

/-- Step 4 of 18 R443 for a bound slot: without a launch in progress every packet completes as killed and RDIDX becomes WRIDX;
a launch in progress is marked, and does so when it completes. -/
def State.killSlot (s : State) (n : Nat) : State :=
  let q := s.slot n
  match q.launch with
  | some l => s.setSlot n { q with launch := some l.kill }
  | none => (s.killPackets q.asid q.ringBase (2 ^ q.ringLog) q.rdidx (q.wridx - q.rdidx)).setSlot n { q with rdidx := q.wridx }

/-- Step 4 of 18 R443 for an unbound queue, whose QCB lies in memory. -/
def State.killQueue (s : State) (qid : Nat) (r : QueueReg) : State :=
  let rd := s.memNat (r.qcb + 0x10) 8
  let wr := s.memNat (r.qcb + 0x18) 8
  let s := s.killPackets (BitVec.ofNat 16 (s.memNat (r.qcb + 0x0C) 2)) (s.memNat r.qcb 8) (2 ^ s.memNat (r.qcb + 8) 1) rd (wr - rd)
  { s.memPut (r.qcb + 0x10) 8 wr with pendingQ := SMap.set false s.pendingQ qid false }

/-- Whether a queue is bound or loaded in a slot. -/
def State.slotOfQueue (s : State) (qid : Nat) : Option Nat :=
  findBelow (fun n => (s.slot n).state = .bound ∧ (s.slot n).qid = qid) 64

/-- Every launch and queue of a context (18 R443). -/
def State.killLaunches (s : State) (asid : BitVec 16) : State :=
  let s := (List.range 64).foldl (fun s n =>
    if (s.slot n).state ≠ .unbound ∧ (s.slot n).asid = asid then s.killSlot n else s) s
  s.queues.foldl (fun s q => match q.2 with
    | some r => if s.slotOfQueue q.1 = none ∧ BitVec.ofNat 16 (s.memNat (r.qcb + 0x0C) 2) = asid then s.killQueue q.1 r else s
    | none => s) s

/-- Sets STATE of a context-table entry (14 R354). -/
def State.setCtxState (s : State) (asid : BitVec 16) (st : Nat) : State :=
  let a := s.ctxEntry asid
  s.memPut a 4 (s.memNat a 4 / 4 * 4 + st)

/-- What the record of a kill names: the trap cause in DETAIL byte 0, the reason, and the SEQ of the causing record
(18 R439). -/
structure KillWhy where
  cause : Nat := 0x22
  reason : Nat := 0
  seq : Option Nat := none
  deriving DecidableEq, Repr

/-- The kill of a context (18 R443), once its item with the cause has ended: STATE 2, CONTEXT_KILL with a reason to every core
that runs an item of it, its launches, its PC-hash entries and accounts, and the CONTEXT_KILLED record. A context that is not
live is not killed again. -/
def State.killContext (s : State) (asid : BitVec 16) (source : Nat) (w : KillWhy) (reason : Nat) : State :=
  if s.ctxState asid ≠ 1 then s
  else
    let s := s.setCtxState asid 2
    let keys := (s.cores.filter fun q => q.2.item.isSome && q.2.cr.asid == asid && !q.2.supervisor).map fun q => q.1
    let s := keys.foldl (fun s k => s.modCore k fun c => c.raiseAsync 0x22 (BitVec.ofNat 64 reason)) s
    let s := s.killLaunches asid
    let s := (s.cores.map fun q => q.1).foldl (fun s k => s.spillWhere k 1 fun e => e.asid == asid) s
    let owned := (s.cores.filter fun q => q.2.acct.owner == asid && !q.2.supervisor).map fun q => q.1
    let s := owned.foldl (fun s k => s.flushLive k) s
    s.logAppend { code := 0x0031, cls := 0, part := s.ctxPart asid, asid := asid.toNat, source := source,
                  detail := w.cause + 256 * w.reason + (match w.seq with | some n => 65536 + n * 2 ^ 64 | none => 0) }

/-- Every state of 01 R14 goes to its reset value; cr.timing, cr.slotmap, cr.cycle and the accounting state are kept (18 R449
step 4). -/
def Core.stateReset (c : Core) (key : Nat) : Core :=
  { coreDefault key with
    timing := c.timing, cr := { (coreDefault key).cr with slotmap := c.cr.slotmap }, cycle := c.cycle, acct := c.acct
    power := c.power, ecc := c.ecc, stopped := false, fmtBits := c.fmtBits, hooks := c.hooks, nextLanding := c.nextLanding
    nextCopy := c.nextCopy }

/-- Every context of a partition is killed with reason 0x07, its slots are unbound and its queues left idle (18 R448);
partition 31 stands for every partition. -/
def State.contain (s : State) (part source : Nat) (seq : Nat) : State :=
  let s := { s with contained := s.contained ++ [part] }
  let hit := fun (a : BitVec 16) (s : State) => part == 31 || s.ctxPart a == part
  let live := (List.range 1023).filter fun i => hit (BitVec.ofNat 16 (i + 1)) s && s.ctxState (BitVec.ofNat 16 (i + 1)) == 1
  let s := live.foldl (fun s i => s.killContext (BitVec.ofNat 16 (i + 1)) source { reason := 7, seq := some seq } 7) s
  (List.range 64).foldl (fun s n =>
    if (s.slot n).state ≠ .unbound ∧ (part = 31 ∨ (s.slot n).part = part) ∧ (s.slot n).launch = none then s.setSlot n {} else s) s

end Sys2Proof.Machine
end

