-- ==== Sys2Proof/Machine/Link.lean ====
section
/-! DEFINITION. The scale-out engine: messages and their units, routes, ports and flits sent, remote requests, and the checks of
a request from another package (07 R232, R233, 18 R450 to R459). -/

namespace Sys2Proof.Machine

/-! ### Messages (18 R456, R457) -/

/-- MTYPE codes (18 R456). -/
def mtRead : BitVec 8 := 0x01
/-- 18 R456 -/
def mtWrite : BitVec 8 := 0x02
/-- 18 R456 -/
def mtAtomic : BitVec 8 := 0x03
/-- 18 R456 -/
def mtRedc : BitVec 8 := 0x04
/-- 18 R456 -/
def mtBcst : BitVec 8 := 0x05
/-- 18 R456 -/
def mtRdata : BitVec 8 := 0x08
/-- 18 R456 -/
def mtWack : BitVec 8 := 0x09
/-- 18 R456 -/
def mtAreply : BitVec 8 := 0x0A
/-- 18 R456 -/
def mtError : BitVec 8 := 0x0B
/-- 18 R456 -/
def mtHeartbeat : BitVec 8 := 0x10
/-- 18 R456 -/
def mtProbe : BitVec 8 := 0x11
/-- 18 R456 -/
def mtProbeack : BitVec 8 := 0x12

/-- The virtual channel of a message type (18 R457). -/
def channelOfType (t : BitVec 8) : Nat := if t.toNat < 8 then 0 else if t.toNat < 0x10 then 1 else 2

/-- A message with every field zero but its type, source and destination. -/
def plainMsg (mtype : BitVec 8) (src dst : BitVec 20) : Msg :=
  { mtype := mtype, tag := 0, src := src, dst := dst, rasid := 0, ca := 0, poison := false, ord := false, scope := 0, mask := 0
    op := 0, fmt := 0, arg := 0, units := [] }

/-- The two header units of a message, followed by its data units (18 R456). -/
def Msg.toUnits (m : Msg) : List (BitVec 128) :=
  let lo : BitVec 128 :=
    (m.ca.extractLsb' 0 32) ++ ((0 : BitVec 6) ++ m.rasid) ++ ((0 : BitVec 4) ++ m.dst) ++ ((0 : BitVec 4) ++ m.src) ++ m.tag ++
      BitVec.ofNat 8 m.units.length ++ m.mtype
  let flags : BitVec 8 := (0 : BitVec 3) ++ m.scope ++ BitVec.ofBool m.ord ++ BitVec.ofBool m.poison
  let hi : BitVec 128 :=
    m.arg ++ m.fmt ++ m.op ++ (0 : BitVec 8) ++ m.mask ++ flags ++ (0 : BitVec 4) ++ (m.ca.extractLsb' 32 20)
  lo :: hi :: m.units

/-- The header of a message read from its two units; its data units are added by the receiver. -/
def Msg.ofHeader (lo hi : BitVec 128) (units : List (BitVec 128)) : Msg :=
  { mtype := lo.extractLsb' 0 8, tag := lo.extractLsb' 16 16, src := lo.extractLsb' 32 20, dst := lo.extractLsb' 56 20
    rasid := lo.extractLsb' 80 10, ca := (hi.extractLsb' 0 20) ++ (lo.extractLsb' 96 32), poison := hi.getLsbD 24
    ord := hi.getLsbD 25, scope := hi.extractLsb' 26 3, mask := hi.extractLsb' 32 8, op := hi.extractLsb' 48 8
    fmt := hi.extractLsb' 56 8, arg := hi.extractLsb' 64 64, units := units }

/-- The whole messages at the front of a run of units, and the units of one that is not complete; a unit with MTYPE 0 is
padding. `fuel` counts units. -/
def takeMessages : Nat → List (BitVec 128) → List Msg × List (BitVec 128)
  | _, [] => ([], [])
  | 0, l => ([], l)
  | n + 1, lo :: rest =>
    if lo.extractLsb' 0 8 = 0 then takeMessages n rest
    else match rest with
      | [] => ([], [lo])
      | hi :: data =>
        let len := min 8 (lo.extractLsb' 8 8).toNat
        if data.length < len then ([], lo :: rest)
        else
          let r := takeMessages n (data.drop len)
          (Msg.ofHeader lo hi (data.take len) :: r.1, r.2)

/-- 16 B units of a run of bytes. -/
def unitsOf (bytes : List Byte) : List (BitVec 128) :=
  (List.range ((bytes.length + 15) / 16)).map fun i => BitVec.ofNat 128 (leNat ((bytes.drop (16 * i)).take 16))

/-- The bytes of some units. -/
def bytesOf (units : List (BitVec 128)) : List Byte := units.flatMap fun u => leBytes 16 u.toNat

/-! ### Ports and routes (18 R451, R454 to R457) -/

/-- A scale-out port. -/
def Link.port (k : Link) (n : Nat) : Port := SMap.get {} k.ports n
/-- Writes a port. -/
def Link.setPort (k : Link) (n : Nat) (p : Port) : Link := { k with ports := SMap.set {} k.ports n p }

/-- A port carries data: it is locked, not taken out of the routes, and each side has the other's INIT with an identifier set
(18 R454, R455, R459). -/
def Link.alive (k : Link) (n : Nat) : Bool :=
  let p := k.port n
  p.locked && !p.down && k.devId.isSome && (match p.peer with | some q => !q.2 | none => false)

/-- The port mask of a destination in the route table (18 R451). -/
def Link.routeMask (k : Link) (dst : BitVec 20) : BitVec 18 :=
  if (k.devId.getD 0).extractLsb' 8 12 = dst.extractLsb' 8 12 then SMap.get 0 k.localRoutes (dst.extractLsb' 0 8).toNat
  else SMap.get 0 k.mainRoutes (dst.extractLsb' 8 12).toNat

/-- The live ports of a destination's route, lowest first. -/
def Link.routes (k : Link) (dst : BitVec 20) : List Nat :=
  (List.range 18).filter fun n => (k.routeMask dst).getLsbD n && k.alive n

/-- Puts one message of a port's queue into a flit, if the peer's buffer and the replay buffer have room (18 R455, R457): the
oldest message whose channel has credit. -/
def Port.sendOne (p : Port) : Option Port :=
  if 2048 ≤ p.replay.length then none
  else
    let fits := fun (m : Msg) => decide (2 + m.units.length ≤ SMap.get 0 p.credits (channelOfType m.mtype))
    match p.waiting.find? fits with
    | none => none
    | some m =>
      let ch := channelOfType m.mtype
      let i := p.waiting.findIdx fits
      some { p with
        waiting := p.waiting.take i ++ p.waiting.drop (i + 1)
        credits := SMap.set 0 p.credits ch (SMap.get 0 p.credits ch - (2 + m.units.length))
        replay := p.replay ++ [(p.txSeq, m)], txSeq := (p.txSeq + 1) % 4096, freed := [] }

/-- Sends what a port can send. -/
def Port.pump (p : Port) : Nat → Port
  | 0 => p
  | n + 1 => match p.sendOne with | some q => q.pump n | none => p

/-- Queues a message on a port. -/
def Link.put (k : Link) (n : Nat) (m : Msg) : Link :=
  let p := k.port n
  k.setPort n ({ p with waiting := p.waiting ++ [m] }.pump (p.waiting.length + 1))

/-- The port that a flow uses: the one it keeps while that lives, else the lowest live one of its route (18 R451). -/
def Link.flowPort (k : Link) (core : Nat) (dst : BitVec 20) : Option Nat :=
  let l := k.routes dst
  let kept := SMap.get 0 k.flows (2 ^ 20 * core + dst.toNat)
  if kept ≠ 0 ∧ l.contains (kept - 1) then some (kept - 1) else l.head?

/-- The flow of the scale-out engine's own messages: responses, heartbeats and probes. -/
def engineFlow : Nat := 1023

/-- Sends a message on its flow's port; none where no live route leads to its destination. -/
def Link.send (k : Link) (core : Nat) (m : Msg) : Option Link :=
  (k.flowPort core m.dst).map fun n =>
    ({ k with flows := SMap.set 0 k.flows (2 ^ 20 * core + m.dst.toNat) (n + 1) }).put n m

/-- Sends a message to a group on every live port of its route. -/
def Link.multicast (k : Link) (m : Msg) : Link := (k.routes m.dst).foldl (fun k n => k.put n m) k

/-- A multicast group identifier (00 R2). -/
def isGroup (id : BitVec 20) : Bool := id.getLsbD 19

/-- A peer is unreachable: declared so, or left without a route while the package has an identifier (18 R451, R452). -/
def Link.noPeer (k : Link) (peer : BitVec 20) : Bool :=
  k.unreachable.contains peer || (k.devId.isSome && (k.routes peer).isEmpty)

/-! ### Requests (07 R232, R233) -/

/-- The request buffer slots of a core that are taken: one for each request, and one for all members' acknowledgements of a
broadcast line. -/
def Link.slotsUsed (k : Link) (core : Nat) : Nat :=
  ((k.reqs.filter fun r => r.core == core).map fun r => r.tag).eraseDups.length

/-- Sends a request, which takes a slot until its response arrives; none where no slot is free or the package cannot send. -/
def State.request (s : State) (core : Nat) (sink : Sink) (m : Msg) : Option State :=
  let k := s.link
  match k.devId with
  | none => none
  | some id =>
    if 8 ≤ k.slotsUsed core then none
    else
      let m := { m with tag := k.nextTag, src := id }
      (k.send core m).map fun k =>
        { s with link := { k with nextTag := k.nextTag + 1, reqs := k.reqs ++ [⟨m.dst, m.tag, core, sink, s.time⟩] } }

/-- A request to a far package for an access: RASID and CA of its range (14 R360). -/
def Target.request (t : Target) (mtype : BitVec 8) : Msg :=
  { plainMsg mtype 0 t.peer with rasid := t.rasid, ca := t.ca }

/-- The whole granules that hold some bytes at a chip address, as data units; a byte that the access does not name is
undefined (log 20). -/
def granuleUnits (draw : Nat) (ca : Nat) (bytes : List Byte) : List (BitVec 128) :=
  let lo := ca / 16 * 16
  let n := (ca + bytes.length + 15) / 16 * 16 - lo
  unitsOf ((List.range n).map fun i =>
    if lo + i < ca ∨ ca + bytes.length ≤ lo + i then Config.freeBits draw (2 ^ 20 + i) 8 else bytes.getD (lo + i - ca) 0)

/-- A WRITE of some bytes (18 R456), with the poison of the granules it carries. -/
def Target.writeMsg (t : Target) (draw : Nat) (bytes : List Byte) (poison : BitVec 8) : Msg :=
  { t.request mtWrite with
    ca := BitVec.ofNat 52 (t.ca.toNat / 16 * 16), units := granuleUnits draw t.ca.toNat bytes, mask := poison
    poison := poison ≠ 0 }

/-! ### Answers to a request from another package (14 R363, 18 R459) -/

/-- RASID is live and its partition's import table holds the sender; a BCST needs the package to be a member of its group. -/
def State.admits (s : State) (m : Msg) : Bool :=
  let asid : BitVec 16 := m.rasid.zeroExtend 16
  let part := s.ctxPart asid
  s.ctxState asid == 1 &&
    (List.range 64).any (fun i =>
      let e := SMap.get (0, 0) s.link.imports (64 * part + i)
      decide (e.1 ≤ m.src.toNat) && decide (m.src.toNat < e.1 + e.2)) &&
    (if m.mtype = mtBcst then (SMap.get [] s.link.groups m.dst.toNat).contains (s.link.devId.getD 0).toNat else true)

/-- A fenced member's writes into this package are dropped and logged (18 R453). -/
def Link.fencedWriter (k : Link) (m : Msg) : Bool := k.fenced.any fun f => f.2 == m.src.toNat

/-- Answers a request. -/
def State.answer (s : State) (req : Msg) (f : Msg → Msg) : State :=
  let m := f { plainMsg 0 (s.link.devId.getD 0) req.src with tag := req.tag }
  match s.link.send engineFlow m with
  | some k => { s with link := k }
  | none => s

/-- Answers a request with ERROR and a KIND: 1 refused, 2 page absent, 3 poisoned line, 4 layout mismatch. -/
def State.answerError (s : State) (req : Msg) (kind : Nat) : State :=
  s.answer req fun m => { m with mtype := mtError, fmt := BitVec.ofNat 8 kind }

/-- The first message on a virtual channel, if it is of a type (18 R457): the message and the state without it. -/
def State.takeMessage (s : State) (mtype : BitVec 8) : Option (Nat × Msg × State) :=
  let ch := channelOfType mtype
  match s.link.inbox.find? fun q => channelOfType q.2.mtype == ch with
  | none => none
  | some q =>
    if q.2.mtype ≠ mtype then none
    else
      let i := s.link.inbox.findIdx fun q => channelOfType q.2.mtype == ch
      let p := s.link.port q.1
      let k := { s.link with inbox := s.link.inbox.take i ++ s.link.inbox.drop (i + 1) }
      let k := k.setPort q.1 { p with freed := SMap.set 0 p.freed ch (SMap.get 0 p.freed ch + 2 + q.2.units.length) }
      some (q.1, q.2, { s with link := k })

end Sys2Proof.Machine
end

