-- ==== Sys2Proof/Machine/Orders.lean ====
section
/-! DEFINITION. What a core's writes wait for: the writes that count at a scope, the condition of DRAIN, that of SETTLE, and the
gathering of a barrier (08 R247, R250 to R255, 09 R279). -/

namespace Sys2Proof.Machine

/-- A write counts at a scope (08 R247, R254): 1 DIE, 2 PKG, 3 SYS; CORE counts none. A scratchpad window counts as a line of
its core's die (09 R282). -/
def State.countsAt (s : State) (die : Nat) (scope : Nat) (t : Target) : Bool :=
  let far := t.cls == .remote || t.cls == .host
  let home := if t.win then (match s.windowCore t.ca with | some k => dieOf k | none => 4) else s.homeDie t.ca
  match scope with
  | 0 => false
  | 1 => !far && home == die
  | 2 => !far
  | _ => true

/-- The global destinations of a queued copy (08 R254). -/
def CopyJob.dests : CopyJob → List Target
  | .move l _ => l.filterMap fun m => match m.dst with | .glob t => some t | _ => none
  | .reduce dst _ _ _ _ => [dst]
  | .bcast dst _ _ => [dst]
  | _ => []

/-- The condition of DRAIN at a scope (08 R254): no counted write of the core is outstanding, in its store stream, its copy
queues or its retirement tracker, and the invalidations its writes sent are acknowledged. -/
def State.drained (s : State) (key scope : Nat) : Bool :=
  let c := s.core key
  let die := dieOf key
  scope == 0 ||
    (!(c.stream.any fun e => s.countsAt die scope e.tgt) &&
      !(c.copies.any fun o => o.job.dests.any fun t => s.countsAt die scope t) &&
      !(s.pendInv.any fun q => q.writer == some key && (scope != 1 || q.die == die)))

/-- The condition of SETTLE (08 R255): every landing slot holds its data, no knot is PENDING and the tracker is empty. -/
def Core.settled (c : Core) : Bool :=
  c.landings.all (fun l => !l.live || match l.state with | .arrived .. | .failed .. => true | _ => false) &&
    c.kn.all (fun q => q.2.state != .pending) && c.tracker.all (fun q => q.2.isNone)

/-- The implied drain of a BAR is over: its packet is sent (08 R250). -/
def State.sendBar (s : State) (key : Nat) : State :=
  match (s.core key).bar with
  | .draining scope => if s.drained key scope.toNat then s.modCore key fun c => { c with bar := .sent } else s
  | _ => s

end Sys2Proof.Machine
end

