-- ==== Sys2Proof/Machine/Refs.lean ====
section
/-! DEFINITION. References and the heap control blocks: the good colour, the resolution of a stale reference through the
forwarding table, object headers and layout bits (15 R388 to R394, 01 R17). -/

namespace Sys2Proof.Machine

/-- COLOR, HEAP and ADDR of a reference (01 R17). -/
def refColor (v : W64) : BitVec 3 := v.extractLsb' 61 3
/-- HEAP of a reference. -/
def refHeap (v : W64) : BitVec 4 := v.extractLsb' 57 4
/-- ADDR of a reference. -/
def refAddr (v : W64) : BitVec 57 := v.extractLsb' 0 57
/-- A reference from its fields. -/
def mkRef (color : BitVec 3) (heap : BitVec 4) (addr : BitVec 57) : W64 := color ++ heap ++ addr

/-- The good colour of a heap as a core's cr.color holds it (15 R390). -/
def Core.goodColor (c : Core) (heap : BitVec 4) : BitVec 3 := c.cr.color.extractLsb' (3 * heap.toNat) 3

/-- The chip address of a heap control block (15 R389). -/
def State.hcbAddr (s : State) (asid : BitVec 16) (heap : Nat) : Nat := s.bases.hcb + 256 * (8 * asid.toNat + heap)

/-- `fhash` of 15 R394. -/
def fhash (a : BitVec 57) (l : Nat) : Nat := ((a.toNat / 16) ^^^ (a.toNat / 16) >>> l) % 2 ^ l

/-- The probe sequence of the forwarding table (15 R394): the new address, and the entries read. -/
def State.probeFwd (s : State) (root n : Nat) (a : BitVec 57) : Nat → Nat → BitVec 57 × List Nat
  | _, 0 => (a, [])
  | i, fuel + 1 =>
    let e := root + 16 * i
    let w := BitVec.ofNat 64 (s.memNat e 8)
    if !w.getLsbD 63 then (a, [e])
    else if w.extractLsb' 0 57 = a then ((BitVec.ofNat 64 (s.memNat (e + 8) 8)).extractLsb' 0 57, [e])
    else
      let r := s.probeFwd root n a ((i + 1) % n) fuel
      (r.1, e :: r.2)

/-- `resolve` of 15 R394 for a context and a colour word: the reference, and whether a poisoned table line was read. -/
def State.resolve (s : State) (asid : BitVec 16) (c : Core) (v : W64) : W64 × Bool :=
  let g := c.goodColor (refHeap v)
  if refAddr v = 0 then (mkRef g (refHeap v) 0, false)
  else if refColor v = g then (v, false)
  else
    let h := s.hcbAddr asid (refHeap v).toNat
    let l := s.memNat (h + 4) 1
    let r := s.probeFwd (s.memNat (h + 8) 8) (2 ^ l) (refAddr v) (fhash (refAddr v) l) (2 ^ l)
    (mkRef g (refHeap v) r.1, r.2.any s.poisoned)

/-- A resolution that goes through the table (15 R394): the core freezes under REFBAR for it. -/
def Core.stale (c : Core) (v : W64) : Bool := refAddr v != 0 && refColor v != c.goodColor (refHeap v)

/-- The word at a virtual address of a context, where it can be read. -/
def State.wordVa (s : State) (asid : BitVec 16) (va : Nat) : Option W64 :=
  (s.readVa asid va 8).map fun bs => BitVec.ofNat 64 (leNat bs)

/-- The layout bit of the slot at an offset of an object (15 R392): whether it is a reference. A slot beyond the bitmap, or
one whose bitmap cannot be read, is not. -/
def State.layoutBit (s : State) (asid : BitVec 16) (obj : BitVec 57) (off : Nat) : Bool :=
  match s.wordVa asid (obj.toNat + 8) with
  | none => false
  | some w =>
    let j := (off - 16) / 8
    if w.getLsbD 63 then decide (j < 63) && w.getLsbD j
    else match s.readVa asid ((w.extractLsb' 0 57).toNat + j / 8) 1 with
      | some (b :: _) => b.getLsbD (j % 8)
      | _ => false

end Sys2Proof.Machine
end

