-- ==== Sys2Proof/Machine/Await.lean ====
section
/-! DEFINITION. What a supervisor's commands wait for: a core's entry into its PREEMPT handler, the new colour of a heap at the
cores of its context, and a scan pass; the wear log; and how a core takes a new colour (08 R270, 15 R398, 19 R473, 22 R507, R508). -/

namespace Sys2Proof.Machine

/-! ### The colour of a heap (15 R390, R398) -/

/-- A core takes the new colours that have reached it, at a boundary: its cr.color field, and every k register of the heap
resolved under REFBAR. -/
def State.takeRecolors (s : State) (key : Nat) : State :=
  let l := (s.core key).recolors
  if l = [] then s
  else l.foldl (fun s q =>
      let s := s.modCore key fun c =>
        let mask : BitVec 24 := BitVec.ofNat 24 (7 <<< (3 * q.1))
        let put : BitVec 24 := BitVec.ofNat 24 (q.2.toNat <<< (3 * q.1))
        { c with cr := { c.cr with color := (c.cr.color &&& ~~~mask) ||| put } }
      (List.range 16).foldl (fun s i =>
        let c := s.core key
        let v := c.kReg (BitVec.ofNat 6 i)
        if (refHeap v).toNat ≠ q.1 ∨ !c.stale v then s
        else s.modCore key fun c => c.setK (BitVec.ofNat 6 i) (s.resolve c.cr.asid c v).1) s)
    (s.modCore key fun c => { c with recolors := [] })

/-- The cores that run a context. -/
def State.coresOf (s : State) (asid : BitVec 16) : List Nat :=
  (s.cores.map fun q => q.1).filter fun k => !(s.core k).supervisor && (s.core k).item.isSome && (s.core k).cr.asid == asid

/-! ### The wear log (19 R479) -/

/-- Offset of a site's block in the wear log, 328 B each in the order of 19 R479's table (log 30). -/
def wearSite (key : Nat) : Nat := 328 * key
/-- Offset of a die's block, 224 B. -/
def wearDie (die : Nat) : Nat := 328 * 576 + 224 * die
/-- Offset of a port's block, 8 B. -/
def wearPort (port : Nat) : Nat := 328 * 576 + 224 * 4 + 8 * port
/-- Offset of the package's block, 32 B. -/
def wearPackage : Nat := 328 * 576 + 224 * 4 + 8 * 18

/-- Adds to a counter of the wear log, saturating at its width in bytes (19 R479). -/
def State.wearAdd (s : State) (off width n : Nat) : State :=
  { s with wear := SMap.set 0 s.wear off (min (2 ^ (8 * width) - 1) (SMap.get 0 s.wear off + n)) }

/-! ### Scan passes (19 R472 to R474) -/

/-- The level in force: the lower of the last PSTEP level and, while the pin is asserted, PINLEVEL (20 R483). -/
def PowerCtl.force (p : PowerCtl) : Nat := if p.pin then min p.level p.pinLevel else p.level

/-- STEPPED: from acceptance of a level below 2,400 W until every stage has been undone (20 R485). -/
def PowerCtl.stepped (p : PowerCtl) : Bool := decide (p.force < 2400) || decide (p.actions ≠ [])

/-- The whorl rotation of a die. -/
def State.whorl (s : State) (die : Nat) : Whorl := SMap.get {} s.whorls die
/-- Changes the whorl rotation of a die. -/
def State.modWhorl (s : State) (die : Nat) (f : Whorl → Whorl) : State :=
  { s with whorls := SMap.set {} s.whorls die (f (s.whorl die)) }

/-- The site of a phase that is MARKED or SCANNING. -/
def WhorlPhase.site : WhorlPhase → Option Nat
  | .serving => none
  | .marked n _ => some n
  | .scanning n _ => some n
  | .aborted n _ => some n

/-- An entry of a die's allocation map (19 R462). -/
def State.segment (s : State) (die i : Nat) : W64 := SMap.get 0 s.segments (2304 * die + i)
/-- STATE of a segment: 0 FREE, 1 LOADING, 2 ACTIVE, 3 FAILED. -/
def segState (e : W64) : Nat := (e.extractLsb' 62 2).toNat
/-- OSITE, OUNIT and OINST of a segment. -/
def segOwner (e : W64) : Nat × Nat × Nat := ((e.extractLsb' 52 8).toNat, (e.extractLsb' 44 8).toNat, (e.extractLsb' 40 4).toNat)
/-- Writes an entry of a die's allocation map. -/
def State.setSegment (s : State) (die i : Nat) (e : W64) : State := { s with segments := SMap.set 0 s.segments (2304 * die + i) e }

/-- The firmware state of a site (19 R471): sites 0 to 135 of a die serve and the others are passed spares until changed. -/
def State.siteState (s : State) (key : Nat) : SiteState :=
  (SMap.get none s.sites key).getD (if key % 144 < 136 then .inService else .spare true)
/-- A site has been dropped (19 R470). -/
def State.siteDropped (s : State) (key : Nat) : Bool := match s.siteState key with | .dropped _ => true | _ => false
/-- Writes the firmware state of a site. -/
def State.setSiteState (s : State) (key : Nat) (x : SiteState) : State := { s with sites := SMap.set none s.sites key (some x) }

/-- A site is drained for a pass (19 R473, 22 R507): no item, copy, landing or tracker entry, and MARKED. -/
def State.drainedSite (s : State) (key : Nat) : Bool :=
  let c := s.core key
  c.item.isNone && c.copies.isEmpty && c.landings.isEmpty && c.tracker.all (fun q => q.2.isNone) &&
    (match (s.whorl (key / 144)).phase with | .marked n _ => n == key % 144 | _ => false)

/-- The status word of SCANRUN (19 R473). -/
def scanStatus (code unit inst patterns : Nat) : W64 :=
  BitVec.ofNat 64 (code + unit * 2 ^ 8 + inst * 2 ^ 16 + patterns * 2 ^ 32)

/-- The site after a pass: reset as in step 4 of 18 R449, and held as MARKED until firmware clears MARK. -/
def State.afterScan (s : State) (key : Nat) : State :=
  (s.modCore key fun c => c.stateReset key).modWhorl (key / 144) fun w => { w with phase := .marked (key % 144) s.time }

/-- Completion records lose a site that has passed after their FINISH, or that has failed (19 R477). -/
def State.settleSite (s : State) (key start : Nat) (failed : Bool) : State :=
  { s with tracked := (s.tracked.map fun t =>
      if failed ∨ t.finish < start then { t with sites := t.sites.filter (· ≠ key) } else t).filter fun t => t.sites ≠ [] }

/-- The verdict of a pass that has run its 200 µs (19 R473, R474): the status, with segments that failed marked FAILED and a site
that failed dropped; a dropped site that passes again is a spare (19 R471). -/
def State.scanVerdict (s : State) (key start : Nat) : W64 × State :=
  let die := key / 144
  let n := s.free
  let s := { s with free := s.free + 1 }
  let bad := (List.range 2304).filter fun i =>
    segState (s.segment die i) = 2 ∧ (segOwner (s.segment die i)).1 = key % 144 ∧ Config.scanSegment n i
  let units := bad.map fun i => (segOwner (s.segment die i)).2.1 + 256 * (segOwner (s.segment die i)).2.2
  let native := Config.scanUnit n
  let all := (if native = 0 then [] else [native]) ++ units
  let s := bad.foldl (fun s i => s.setSegment die i (s.segment die i ||| BitVec.ofNat 64 (3 * 2 ^ 62))) s
  match all with
  | [] =>
    let passed := match s.siteState key with | .inService => SiteState.inService | _ => .spare true
    (scanStatus 0 0 0 s.creel.patterns,
      ({ s with lastPass := SMap.set 0 s.lastPass key start }.setSiteState key passed).settleSite key start false)
  | u :: l =>
    let best := l.foldl (fun a b => if (b % 256) * 256 + b / 256 < (a % 256) * 256 + a / 256 then b else a) u
    (scanStatus 1 (best % 256) (best / 256 % 16) s.creel.patterns,
      (s.setSiteState key (.dropped false)).settleSite key start true)

/-- The command a supervisor waits for is over where its condition holds (08 R268). A pass ends when its 200 µs have passed;
where no other input is pending, time passes by itself (log 5). -/
def State.serveAwait (s : State) (key : Nat) : State :=
  match (s.core key).await with
  | .none => s
  | .preempt k =>
    let c := s.core k
    if c.item.isNone ∨ !(c.async.any fun a => a.cause == 0x10) then s.modCore key fun c => { c with await := .none } else s
  | .recolor asid heap =>
    if (s.coresOf asid).any fun k => (s.core k).recolors.any fun q => q.1 == heap then s
    else (s.memPut (s.hcbAddr asid heap) 1 4).modCore key fun c => { c with await := .none }
  | .scan site start d =>
    let die := key - 576
    let k := 144 * die + site
    let finish := fun (s : State) (v : W64) => (s.afterScan k).modCore key fun c => { c.setS d v with await := .none }
    match (s.whorl die).phase with
    | .aborted _ reason => finish { s with free := s.free + 1 } (scanStatus 2 reason 0 (Config.freeBits s.free 0 32).toNat)
    | _ =>
      let s := if s.agenda = [] then { s with time := max s.time (start + 200000) } else s
      if s.time < start + 200000 then s
      else
        let r := s.scanVerdict k start
        finish r.2 r.1

/-- A core whose site is under a pass (19 R473): its cycles are SYSTEM's, of context 0. -/
def State.scanningSite (s : State) (key : Nat) : Bool :=
  decide (key < 576) && (match (s.whorl (key / 144)).phase with | .scanning n _ => n == key % 144 | _ => false)

end Sys2Proof.Machine
end

