-- ==== Sys2Proof/Machine/Code.lean ====
section
/-! DEFINITION. Placed code: shootdowns of a line, the stubs of a context's functions, and what reaching a stub or raising a
timing profile does to a function (10 R312, 17 R424, R427 to R431). -/

namespace Sys2Proof.Machine

/-! ### Shootdowns (10 R312) -/

/-- The tile cores of a partition. -/
def State.partCores (s : State) (part : Nat) : List Nat :=
  match SMap.get none s.parts part with
  | none => []
  | some p => ((List.range 544).filter fun n => p.cores.getLsbD n).filterMap s.coreOfLogical

/-- Sends a shootdown of a line to the tile cores of a partition, for a request of a mailbox, if it is one's, that is to be answered with
how many acknowledge; `va` is the address changed. -/
def State.shootDown (s : State) (mb : Option Nat) (asid : BitVec 16) (va line : Nat) (cores : List Nat) : State :=
  let s := cores.foldl (fun s k => s.modCore k fun c => { c with hooks := { c.hooks with shootdowns := c.hooks.shootdowns ++ [line] } }) s
  { s with patches := s.patches ++ [⟨asid, va, line, cores, cores.length, s.time, mb⟩] }

/-! ### Stubs (17 R427) -/

/-- The bytes of a virtual address of a context that may be fetched or read, as firmware writes them: its chip address and
pieces. -/
def State.codePieces (s : State) (asid : BitVec 16) (va n : Nat) : Option (Nat × List Piece) :=
  match findRange (s.ctxRanges asid) (BitVec.ofNat 57 va) 0 8 with
  | none => none
  | some g =>
    let t := targetOf g (BitVec.ofNat 57 va) asid
    match (s.pieces asid t.ca .r false n).1 with
    | .ok ps => some (t.ca.toNat, ps)
    | .error _ => none

/-- Firmware writes bytes of a context's code; nothing where they are not mapped. -/
def State.writeCode (s : State) (asid : BitVec 16) (va : Nat) (bytes : List Byte) : State :=
  match s.codePieces asid va bytes.length with
  | some (ca, ps) => s.homeWrite asid none ca ps bytes
  | none => s

/-- Bytes 8 to 15 of a stub: a branch to its function's entry, or the trap. -/
def stubWord (f : CodeFn) (placed : Bool) : Nat :=
  if placed then 0x4000000000000000 + ((f.entry - f.stub - 4) / 4) % 2 ^ 35 else 0x880000000000FFF0

/-- Changes a stub by one aligned store of 8 B, and shoots its line down on the partition's tile cores. -/
def State.setStub (s : State) (asid : BitVec 16) (f : CodeFn) (placed : Bool) : State :=
  match s.codePieces asid (f.stub + 8) 8 with
  | some (ca, ps) =>
    (s.homeWrite asid none ca ps (leBytes 8 (stubWord f placed))).shootDown none asid (f.stub + 8) (ca / 128) (s.partCores (s.ctxPart asid))
  | none => s

/-- Key of a function: ASID and number. -/
def fnKey (asid : BitVec 16) (n : Nat) : Nat := 65536 * asid.toNat + n
/-- Writes a function. -/
def State.setFn (s : State) (key : Nat) (f : CodeFn) : State := { s with fns := SMap.set none s.fns key (some f) }

/-- The function of a context whose stub's bundle lies at an address. -/
def State.fnAt (s : State) (asid : BitVec 16) (pc : Nat) : Option (Nat × CodeFn) :=
  s.fns.findSome? fun q => match q.2 with
    | some f => if q.1 / 65536 = asid.toNat ∧ f.stub + 4 = pc then some (q.1, f) else none
    | none => none

/-- A call reaches a stub in the TRAPPING form (17 R428, R429): the caller waits and bundling starts; code that was to be evicted
is used again; where the function had no room, the caller's item is killed. -/
def State.stubReached (s : State) (key pc : Nat) : State :=
  let asid := (s.core key).cr.asid
  match s.fnAt asid pc with
  | none => s
  | some (n, f) =>
    let f := { f with reached := s.time }
    if f.full then (s.setFn n f).modCore key fun c => c.raiseAsync 0x22 3
    else match f.state with
      | .placed => s.setFn n f
      | .evicting =>
        let f := { f with state := .placed }
        (s.setFn n f).setStub asid f true
      | _ => s.setFn n { f with state := .bundling, waiting := key :: f.waiting.filter (· ≠ key) }

/-! ### Timing profiles (17 R424, R431) -/

/-- The timing profile of a partition: for each entry of cr.timing the greatest among its live cores, and which slots are bound on
all of them. -/
def State.profile (s : State) (part : Nat) : List Nat :=
  let cores := s.partCores part
  let unbound := fun (c : Core) (i : Nat) => if i = 4 then c.cr.slotmap.getLsbD 8 else c.cr.slotmap.extractLsb' (2 * i) 2 == 2
  (List.range 128).map (fun i => cores.foldl (fun a k => max a (((s.core k).timingAt i).toNat)) 0) ++
    (List.range 5).map fun i => if cores.any fun k => unbound (s.core k) i then 1 else 0

/-- A profile lies above another in some entry. -/
def raised (new old : List Nat) : Bool := (new.zip old).any fun q => decide (q.2 < q.1)

/-- A change of timing or of slots on a core of some partitions: where a profile has risen, the PLACED functions of its contexts
become STALE and their stubs trap (17 R428, R431; which of them hold a bound that is now too low only their code says, log 36). -/
def State.afterProfile (s old : State) : State :=
  let parts := (List.range 16).filter fun p => raised (s.profile p) (old.profile p)
  if parts = [] then s
  else (s.fns.map fun q => q.1).foldl (fun s n =>
    let asid := BitVec.ofNat 16 (n / 65536)
    match SMap.get none s.fns n with
    | some f =>
      if f.state = .placed ∧ parts.contains (s.ctxPart asid) then
        let f := { f with state := .stale }
        (s.setFn n f).setStub asid f false
      else s
    | none => s) s

end Sys2Proof.Machine
end

