-- ==== Sys2Proof/Machine/Ops.lean ====
section
/-! DEFINITION. The issue of a bundle: taking a trap and returning from one, the boundary before a bundle, the checks of 01
R24, freezes and their charges, the operations' effects, and the end of a bundle-time (01 R22 to R49, 08 R261 to R266). -/

namespace Sys2Proof.Machine

/-! ### Charges (01 R46 to R49) -/

/-- Account codes of 01 R48 that the issue machinery names. -/
def acctLand : Nat := 3
/-- 01 R48 -/
def acctFullEmpty : Nat := 4
/-- 01 R48 -/
def acctKnot : Nat := 5
/-- 01 R48 -/
def acctBank : Nat := 6
/-- 01 R48 -/
def acctSplit : Nat := 7
/-- 01 R48 -/
def acctEcc : Nat := 8
/-- 01 R48 -/
def acctPower : Nat := 9
/-- 01 R48 -/
def acctBarrier : Nat := 10
/-- 01 R48 -/
def acctFetch : Nat := 11
/-- 01 R48 -/
def acctRefbar : Nat := 12
/-- 01 R48 -/
def acctDrain : Nat := 13

/-- The ranking of freeze causes (01 R47), highest first. -/
def freezeRank : List Nat := [8, 9, 7, 11, 6, 12, 3, 4, 5, 10, 13]
/-- The highest-ranking of some freeze causes. -/
def topFreeze (l : List Nat) : Option Nat := freezeRank.find? fun r => l.contains r

/-- The context and PC that a SYSTEM cycle is charged to (01 R49). -/
def Core.systemCharge (c : Core) : BitVec 16 × BitVec 57 :=
  match c.chargeTo with
  | some a => (a, c.cr.epc.extractLsb' 0 57)
  | none => if c.saved then (0, 0) else (c.cr.asid, c.cr.epc.extractLsb' 0 57)

/-- One cycle of freeze, or of SYSTEM where the core is in system mode or halted (01 R47, R49). -/
def State.freezeCycle (s : State) (key cause : Nat) : State :=
  let c := s.core key
  if c.cr.halt then s.charge key c.cr.asid c.pc [(14, 6)]
  else if c.cr.sys then s.charge key c.systemCharge.1 c.systemCharge.2 [(14, 6)]
  else s.charge key c.cr.asid c.pc [(cause, 6)]

/-- Several cycles of freeze. -/
def State.freezeCycles (s : State) (key cause : Nat) : Nat → State
  | 0 => s
  | n + 1 => (s.freezeCycle key cause).freezeCycles key cause n

/-! ### Taking a trap and returning from one (08 R261 to R266) -/

/-- Trap entry of 08 R265 on the core: pending writes and issued M operations complete, drives, flag updates, cr.bt and the
sticky states go to the latch bank, the saved registers are written, system mode is entered and the PC goes to the cause's
handler. -/
def Core.trapEntry (c : Core) (cause : BitVec 8) (info : W64) (epc : BitVec 57) (erep : Nat) : Core :=
  let c := c.completePend
  let c := (c.performAllM c.mq.length).releaseDrives
  { c with
    latch := some { drives := c.drives, flagOrs := c.flagOrs, bt := c.bt, sticky := c.sticky }
    drives := [], flagOrs := [], sticky := [], repLeft := none, bar := .none
    landings := c.landings.map fun l => { l with held := true }
    item := c.item.map fun it => { it with atYield := false }
    cr := { c.cr with epc := epc.zeroExtend 64, erep := BitVec.ofNat 8 erep, cause := cause, einfo := info, sys := true }
    pc := BitVec.ofNat 57 (256 * cause.toNat) }

/-- The last part of ERET (08 R265): user mode, the latched bundle-time, sticky states, drives and flag updates, and the PC
and repetitions of the bundle that resumes. -/
def Core.eretResume (c : Core) : Core :=
  let l := c.latch.getD {}
  { c with
    latch := none, bt := l.bt, sticky := l.sticky
    drives := c.drives ++ l.drives, flagOrs := c.flagOrs ++ l.flagOrs
    landings := c.landings.map fun x => { x with held := false }
    repLeft := if c.cr.erep = 0 then none else some c.cr.erep.toNat
    cr := { c.cr with sys := false }, chargeTo := none
    pc := c.cr.epc.extractLsb' 0 57 }

/-- A trap raised on a supervisor core (01 R52): it stops, SUPERVISOR_FAULT is logged and the upstream port is contained. -/
def State.supervisorFault (s : State) (key : Nat) (cause : BitVec 8) (info : W64) (epc : BitVec 57) : State :=
  let s := s.modCore key fun c =>
    { c with stopped := true, cr := { c.cr with cause := cause, einfo := info, epc := epc.zeroExtend 64 } }
  let seq := s.logSeq
  let s := s.logAppend { code := 0x0050, cls := 3, source := sourceOf key, detail := cause.toNat + epc.toNat * 2 ^ 64 }
  s.contain 31 (sourceOf key) seq

/-- A trap raised in system mode on a tile core (08 R266): logged, the owning context killed with reason 0x05, the core reset. -/
def State.systemTrap (s : State) (key : Nat) (cause : BitVec 8) : State :=
  let c := s.core key
  let asid := c.chargeTo.getD c.cr.asid
  let seq := s.logSeq
  let s := s.logAppend { code := 0x0022, cls := 2, part := s.ctxPart asid, asid := asid.toNat, source := sourceOf key,
                         wid := (c.item.map fun i => i.wid.toNat).getD 0, detail := cause.toNat + 5 * 256 }
  let s := s.endItem key
  let s := if asid = 0 then s else s.killContext asid (sourceOf key) { reason := 5, seq := some seq } 5
  s.modCore key fun c => c.stateReset key

/-- TRAPI (08 R261). -/
def causeTrapi : BitVec 8 := 0x09

/-- A trap is taken at a boundary (08 R261, R265, R266, 01 R52). TRAPI 0xFFF0 of a function's stub reaches the loader (17
R427). -/
def State.takeTrap (s : State) (key : Nat) (t : TrapReq) (epc : BitVec 57) (erep : Nat) : State :=
  let c := s.core key
  if c.supervisor then s.supervisorFault key t.cause t.info epc
  else if c.cr.sys then s.systemTrap key t.cause
  else
    let s := s.modCore key fun c => c.trapEntry t.cause t.info epc erep
    if t.cause = causeTrapi ∧ t.info.extractLsb' 0 17 = 0xFFF0 then s.stubReached key epc.toNat else s

/-- The causes after which ERET ends the item (08 R261). -/
def isKillCause (x : BitVec 8) : Bool := x == 0x11 || x == 0x20 || x == 0x21 || x == 0x22

/-- ERET on a tile core (08 R265, R271, 18 R443): a kill cause ends the item and its context, or the item alone where the loader
had no code space for it (17 R429); a core that holds no item is released; otherwise the item resumes. -/
def State.eret (s : State) (key : Nat) : State :=
  let c := s.core key
  if isKillCause c.cr.cause ∧ c.item.isSome ∧ !c.saved then
    let asid := c.cr.asid
    let s := s.endItem key
    if c.cr.cause = 0x22 ∧ c.cr.einfo.extractLsb' 0 8 = 3 then s
    else s.killContext asid (sourceOf key)
      { cause := c.cr.cause.toNat, reason := if c.cr.cause = 0x22 then (c.cr.einfo.extractLsb' 0 8).toNat else 0, seq := c.causeSeq } 2
  else if c.item.isNone ∨ c.saved then
    s.modCore key fun c => { c with
      saved := false, item := none, latch := none, repLeft := none, sticky := [], drives := [], flagOrs := [], chargeTo := none
      cr := { c.cr with sys := false } }
  else s.modCore key Core.eretResume

/-- einfo of MEMORY_FATAL (08 R264). -/
def infoFatal (kind : Nat) (va : BitVec 57) : W64 := BitVec.ofNat 4 kind ++ (0 : BitVec 3) ++ va

/-- The record of a fatal access (18 R437): FATAL_ACCESS, or BAD_PTE with the entry. The core keeps its SEQ for the kill. -/
def State.logFatal (s : State) (key kind : Nat) (va : BitVec 57) (pte : Option Nat) : State :=
  let c := s.core key
  let seq := s.logSeq
  let s := s.logAppend
    { code := if pte.isSome then 0x0021 else 0x0020, cls := 2, part := s.ctxPart c.cr.asid, asid := c.cr.asid.toNat
      source := sourceOf key, addr := va.toNat, wid := (c.item.map fun i => i.wid.toNat).getD 0
      detail := kind + (pte.getD 0) * 2 ^ 64 }
  s.modCore key fun c => { c with causeSeq := some seq }

/-- A fatal context error found at a translator reaches the core (14 R372): logged, and MEMORY_FATAL pends. -/
def State.raiseFatal (s : State) (key kind : Nat) (va : BitVec 57) (pte : Option Nat) : State :=
  (s.logFatal key kind va pte).modCore key fun c =>
    { c with async := (c.raiseAsync 0x20 (infoFatal kind va)).async.map fun a =>
        if a.cause = 0x20 ∧ ¬c.async.any (fun b => b.cause == 0x20) then { a with sys := c.cr.sys } else a }

/-- Poison is consumed (18 R445): logged with the consumer of 18 R439, and POISON pends with the chip address. -/
def State.raisePoison (s : State) (key : Nat) (ca consumer : Nat) : State :=
  let c := s.core key
  let seq := s.logSeq
  let s := s.logAppend
    { code := 0x0011, cls := 2, part := s.ctxPart c.cr.asid, asid := c.cr.asid.toNat, source := sourceOf key, addr := ca
      wid := (c.item.map fun i => i.wid.toNat).getD 0, detail := ca + consumer * 2 ^ 64 }
  s.modCore key fun c => { c with
    causeSeq := some seq
    async := (c.raiseAsync 0x21 (BitVec.ofNat 64 (ca % 2 ^ 52))).async.map fun a =>
      if a.cause = 0x21 ∧ ¬c.async.any (fun b => b.cause == 0x21) then { a with sys := c.cr.sys } else a }

/-- Ranking of the asynchronous causes, highest first (08 R261). -/
def asyncRank : List (BitVec 8) := [0x22, 0x20, 0x21, 0x11, 0x10]

/-- The asynchronous cause a boundary takes: the highest-ranking one, unless the core is in system mode; there only one that
the handler's own access has raised. -/
def Core.asyncNext (c : Core) : Option Async :=
  let l := if c.cr.sys then c.async.filter (·.sys) else c.async
  asyncRank.findSome? fun r => l.find? fun a => a.cause == r

/-- Drops a cause that is being taken. -/
def Core.dropAsync (c : Core) (a : Async) : Core := { c with async := c.async.filter fun b => b.cause ≠ a.cause }

/-! ### What an operation does -/

/-- Effects gathered while the operations of a bundle perform, in slot order: the state, the generator's chain of draws, a
value that CRW gives cr.seed, the next bundle, and what follows the bundle. -/
structure Acc where
  st : State
  seed : W64
  seedSet : Option W64 := none
  next : Option (BitVec 57) := none
  tail : Bool := false
  eret : Bool := false
  /-- a performing ENTER or LEAVE: the boundary after the bundle is a region edge (10 R307) -/
  edge : Bool := false

/-- Changes the core of an accumulated state. -/
def Acc.core (a : Acc) (key : Nat) (f : Core → Core) : Acc := { a with st := a.st.modCore key f }

/-- What the issue of an operation needs of its description. A field that a description leaves out has the value of an
operation that does nothing of the kind. -/
structure OpSem where
  slot : Slot
  op : BitVec 8
  guard : Guard
  /-- row, class and encoded bound, where a class applies (02 R69) -/
  timing : Option (Nat × Nat × Nat) := none
  /-- check 1 that depends on the core (01 R20): true where it fails -/
  check1 : Core → Bool := fun _ => false
  /-- check 2: true where user mode may not -/
  priv : Core → Bool := fun _ => false
  /-- check 3: the core may run the operation (08 R268, 01 R50) -/
  runsOn : Nat → Core → Bool := fun _ _ => true
  /-- address operands of a present word (02 R60) -/
  base : View → Addrs := fun _ => {}
  /-- one step of the held address operands (02 R60); `w` is none for an operation that does not step -/
  step : View → Addrs → Except TrapReq Addrs := fun _ a => .ok a
  /-- tests made whatever the predicate (04 R132) -/
  always5 : View → Option TrapReq := fun _ => none
  /-- check 5 -/
  check5 : State → Nat → View → Option TrapReq := fun _ _ _ => none
  /-- fatal context error found at the issuing unit: KIND and address (14 R372) -/
  fatal : State → Nat → View → Option (Nat × BitVec 57) := fun _ _ _ => none
  /-- consumed knots (07 R211) -/
  consumes : View → List (BitVec 6) := fun _ => []
  /-- produced knot and its SOURCE (07 R210) -/
  produces : View → Option (BitVec 6 × BitVec 3) := fun _ => none
  /-- knots of KWAIT's mask: waited for where PENDING (07 R231) -/
  mask : View → List (BitVec 6) := fun _ => []
  /-- KWAIT.clr accepts FAILED knots, which it clears (07 R231) -/
  lenient : Bool := false
  /-- the decoupling queue it takes an entry of (07 R219) -/
  queue : View → Option Engine := fun _ => none
  /-- a condition that freezes the core before the operation issues -/
  wait : State → Nat → View → Option Nat := fun _ _ _ => none
  /-- a trap found after the waits (08 R259, 07 R239) -/
  late5 : State → Nat → View → Option TrapReq := fun _ _ _ => none
  /-- a performing YIELD (08 R256) -/
  yields : Bool := false
  /-- a strand store, of which a bundle may hold one (01 R32) -/
  strandStore : Bool := false
  /-- belt-side scratchpad access of the issue cycle: matrix row, rank, address and bytes (01 R27, 10 R300) -/
  belt : View → Option (Nat × Nat × Nat × Nat) := fun _ => none
  /-- bundle-times of matrix weight (06 R206) -/
  span : Core → View → Nat := fun _ _ => 0
  /-- registers and beats it reads, for poison (18 R445) -/
  reads : View → List UePlace := fun _ => []
  perform : Nat → View → Acc → Acc := fun _ _ a => a

/-- An operation that issues: its slot, its word, its description, whether its word is evaluated afresh, its address operands
and whether its predicate holds. -/
structure Issuing where
  slot : Slot
  word : W64
  sem : OpSem
  fresh : Bool
  view : View
  perf : Bool
  stepErr : Option TrapReq

/-- What is to issue: the header, the present slot words with their meanings, an ILLEGAL of check 1 found by the decoder, and
the meaning of a sticky word. -/
structure Fetched where
  header : Header
  size : Nat
  present : List (Slot × W64 × OpSem)
  err : Option TrapReq := none
  look : Slot → W64 → Option OpSem := fun _ _ => none

/-- Repetitions still to issue at a boundary (02 R56). -/
def Core.repsLeft (c : Core) (h : Header) : Nat := c.repLeft.getD (h.rep.toNat + 1)

/-- The slot's held state. -/
def Core.stickyOf (c : Core) (slot : Slot) : Option Sticky := SMap.get none c.sticky slot.idx

/-- The operations that issue at this bundle-time, in slot order (02 R55 to R60): present words on the first repetition are
evaluated afresh; otherwise the held operands step. -/
def Core.issuing (c : Core) (f : Fetched) (draw : Nat) : List Issuing :=
  let first := decide (f.header.rep.toNat + 1 ≤ c.repsLeft f.header)
  Slot.all.filterMap fun sl =>
    let v : View := { core := c, slot := sl, pc := c.pc, size := f.size, addrs := {}, draw := draw }
    let again := fun (st : Sticky) (sem : OpSem) =>
      let perf := v.guard sem.guard
      match sem.step v st.addrs with
      | .ok a => some (⟨sl, st.word, sem, false, { v with addrs := a }, perf, none⟩ : Issuing)
      | .error t => some ⟨sl, st.word, sem, false, { v with addrs := st.addrs }, perf, if perf then some t else none⟩
    match f.present.find? (fun p => p.1 == sl) with
    | some p =>
      if first then
        let v := { v with addrs := p.2.2.base v }
        some ⟨sl, p.2.1, p.2.2, true, v, v.guard p.2.2.guard, none⟩
      else match c.stickyOf sl with
        | some st => again st p.2.2
        | none => none
    | none =>
      if f.header.quiet.getLsbD sl.idx then none
      else match c.stickyOf sl with
        | some st => match f.look sl st.word with | some sem => again st sem | none => none
        | none => none

/-! ### The checks of 01 R24 -/

/-- The engine instance a slot is bound to; none where it is unbound (01 R43). -/
def Core.instanceOf (c : Core) (sl : Slot) : Option Nat :=
  let f := fun (lo : Nat) => match (c.cr.slotmap.extractLsb' lo 2).toNat with | 0 => some 0 | 1 => some 1 | _ => none
  match sl with
  | .s => some 0
  | .v0 => f 0 | .v1 => f 2 | .c0 => f 4 | .c1 => f 6
  | .m => if c.cr.slotmap.getLsbD 8 then none else some 0

/-- An ILLEGAL, PRIVILEGE or BUNDLE_STALE of an operation (08 R263). -/
def illegal (cause : BitVec 8) (sl : Slot) (op : BitVec 8) (cls : Nat) : TrapReq :=
  ⟨cause, info263 sl 0 (op.extractLsb' 2 6) op cls⟩

/-- Check 1 of what depends on the core, and two strand stores in one bundle (01 R32). -/
def check1 (c : Core) (l : List Issuing) : Option TrapReq :=
  match l.find? (fun i => i.sem.check1 c) with
  | some i => some (illegal causeIllegal i.slot i.sem.op 0)
  | none =>
    match l.filter fun i => i.sem.strandStore with
    | _ :: j :: _ => some (illegal causeIllegal j.slot j.sem.op 0)
    | _ => none

/-- Check 2: privilege, in user mode. -/
def check2 (c : Core) (l : List Issuing) : Option TrapReq :=
  if c.cr.sys then none
  else (l.find? fun i => i.sem.priv c).map fun i => illegal causePrivilege i.slot i.sem.op 0

/-- Check 3: an unbound slot, a core that does not run the operation, a class whose timing entry is zero. -/
def check3 (key : Nat) (c : Core) (l : List Issuing) : Option TrapReq :=
  l.findSome? fun i =>
    if c.instanceOf i.slot = none ∨ !i.sem.runsOn key c then some (illegal causeIllegal i.slot i.sem.op 0)
    else match i.sem.timing with
      | some (row, cls, _) =>
        if c.timingAt (32 * row + cls) = 0 then some (illegal causeIllegal i.slot i.sem.op cls) else none
      | none => none

/-- Check 4: an encoded bound below the timing table (01 R42). -/
def check4 (c : Core) (l : List Issuing) : Option TrapReq :=
  l.findSome? fun i => match i.sem.timing with
    | some (row, cls, bound) =>
      if bound < c.latencyOf row cls then some (illegal causeStale i.slot i.sem.op cls) else none
    | none => none

/-- Check 5 without the knots: tests whatever the predicate, a step that fails, and the operation's own tests. -/
def check5 (s : State) (key : Nat) (l : List Issuing) : Option TrapReq :=
  l.findSome? fun i =>
    match i.sem.always5 i.view with
    | some t => some t
    | none =>
      if !i.perf then none
      else match i.stepErr with
        | some t => some t
        | none => i.sem.check5 s key i.view

/-- The knot tests of one operation (07 R210, R211, R231); `named` are the knots produced by earlier operations of the
bundle. -/
def knotTest (c : Core) (named : List (BitVec 6)) (i : Issuing) : Option TrapReq :=
  let used := i.sem.consumes i.view
  let mask := i.sem.mask i.view
  match used.findSome? fun n => match (c.knot n).state with
    | .free => some (info213 i.slot n 0)
    | .failed => if i.sem.lenient then none else some (info213 i.slot n 1)
    | _ => none with
  | some x => some ⟨causeKnot, x⟩
  | none =>
    match if i.sem.lenient then none else mask.find? fun n => (c.knot n).state == .failed with
    | some n => some ⟨causeKnot, info213 i.slot n 1⟩
    | none => match i.sem.produces i.view with
      | none => none
      | some (n, src) =>
        let k := c.knot n
        if k.state = .failed ∧ !(i.sem.lenient && (used.contains n || mask.contains n)) then some ⟨causeKnot, info213 i.slot n 1⟩
        else if named.contains n ∨ (k.state = .pending ∧ k.source ≠ src) then some ⟨causeKnot, info213 i.slot n 2⟩
        else none

/-- The knot tests of a bundle, which follow every other test of check 5 (07 R211). -/
def checkKnots (c : Core) : List (BitVec 6) → List Issuing → Option TrapReq
  | _, [] => none
  | named, i :: l =>
    if !i.perf then checkKnots c named l
    else match knotTest c named i with
      | some t => some t
      | none => checkKnots c (match i.sem.produces i.view with | some p => p.1 :: named | none => named) l

/-- The first failing check of 01 R24. -/
def firstCheck (s : State) (key : Nat) (f : Fetched) (l : List Issuing) : Option TrapReq :=
  let c := s.core key
  f.err.orElse fun _ => (check1 c l).orElse fun _ => (check2 c l).orElse fun _ => (check3 key c l).orElse fun _ =>
    (check4 c l).orElse fun _ => (check5 s key l).orElse fun _ => checkKnots c [] l

/-- A fatal context error found at the issuing unit, after check 5. -/
def firstFatal (s : State) (key : Nat) (l : List Issuing) : Option (Nat × BitVec 57) :=
  l.findSome? fun i => if i.perf then i.sem.fatal s key i.view else none

/-- The freeze that the issuing operations wait under (07 R211, R219, 04 R143, 08 R254, R255, R257). -/
def waitOf (s : State) (key : Nat) (l : List Issuing) : Option Nat :=
  let c := s.core key
  let entries := l.filterMap fun i => if i.perf then i.sem.queue i.view else none
  let full := fun (e : Engine) => entries.contains e &&
    decide (64 < (c.copies.filter fun o => o.engine == e).length + (entries.filter fun x => x == e).length)
  topFreeze ((if full .a || full .b then [acctKnot] else []) ++ l.filterMap fun i =>
    if !i.perf then none
    else if (i.sem.consumes i.view ++ i.sem.mask i.view).any (fun n => (c.knot n).state == .pending) then some acctKnot
    else i.sem.wait s key i.view)

/-- The weight of the bundle-time (20 R480). -/
def issueWeight (c : Core) (l : List Issuing) : Nat :=
  let busy := fun (e : Engine) => if c.copies.any (fun o => o.engine == e) then 1 else 0
  let m := l.any fun i => i.slot == .m
  (if 0 < c.power.mspan ∨ m then 6 else 0) +
    2 * (l.filter fun i => i.slot == .v0 || i.slot == .v1).length + busy .a + busy .b

/-- The bundle would take the window's sum above its ceiling (20 R481). -/
def powerHold (c : Core) (l : List Issuing) : Bool :=
  !c.supervisor && decide (64 * c.power.eff < c.power.sum + issueWeight c l)

/-- A bundle splits: both V, or both C slots issue and are bound to one instance (01 R44). -/
def splits (c : Core) (l : List Issuing) : Bool :=
  let both := fun (a b : Slot) => l.any (fun i => i.slot == a) && l.any (fun i => i.slot == b) &&
    c.instanceOf a == c.instanceOf b
  both .v0 .v1 || both .c0 .c1

/-! ### Bank conflicts (01 R27, 10 R300) -/

/-- Number of bytes in a bank's unit, by scratchpad (01 R27, R50): 64 B units in 32 banks. -/
def banksOf (a n : Nat) : List Nat := (List.range ((a + n - 1) / 64 - a / 64 + 1)).map fun i => (a / 64 + i) % 32

/-- Belt-side accesses of the issue cycle, by rank: matrix row and banks. -/
def beltAccesses (l : List Issuing) : List (Nat × List Nat) :=
  let q := l.filterMap fun i => if i.perf then i.sem.belt i.view else none
  (List.range 4).flatMap fun rank => (q.filter fun x => x.2.1 == rank).map fun x => (x.1, banksOf x.2.2.1 x.2.2.2)

/-- How many of the accesses ahead ask for a bank. -/
def aheadOf (l : List (Nat × List Nat)) (b : Nat) : Nat := (l.filter fun q => q.2.contains b).length

/-- The losses of an access behind others: row, bank and cycles lost. -/
def beltLosses : List (Nat × List Nat) → List (Nat × List Nat) → List (Nat × Nat × Nat)
  | _, [] => []
  | ahead, q :: l => (q.2.map fun b => (q.1, b, aheadOf ahead b)) ++ beltLosses (ahead ++ [q]) l

/-- Adds losses to the bank-conflict matrix, saturating (10 R300). -/
def Acct.addLosses (a : Acct) (l : List (Nat × Nat × Nat)) : Acct :=
  { a with bank := l.foldl (fun m x =>
      let k := 32 * x.1 + x.2.1
      SMap.set 0 m k (BitVec.ofNat 32 (min 0xFFFFFFFF ((SMap.get 0 m k).toNat + x.2.2)))) a.bank }

/-! ### The end of a bundle-time -/

/-- A drive is made: its beat stands in the ring, and the knot of an MRD or MDR has one issue less outstanding (01 R30, 06 R193). -/
def Core.makeDrive (c : Core) (d : Drive) : Core :=
  match d.beat with
  | some b =>
    let c := (c.setBeat d.z d.ring b).unpoison (.beat d.z.toNat d.ring)
    match d.kp with | some n => c.finishKnot n true | none => c
  | none => c

/-- Drives and flag updates due at this bundle-time are made, the later-issued last (01 R30, R31, 03 R102). -/
def Core.makeDue (c : Core) : Core :=
  let c := (c.drives.filter fun d => d.left == 0).foldl Core.makeDrive c
  let fl := Flags.all ((c.flagOrs.filter fun q => q.left == 0).map fun q => q.flags)
  { c with
    drives := c.drives.filter fun d => d.left != 0, flagOrs := c.flagOrs.filter fun q => q.left != 0
    cr := { c.cr with flags := c.cr.flags ||| fl } }

/-- Every distance counts one issue down. -/
def Core.countDown (c : Core) : Core :=
  { c with
    drives := c.drives.map fun d => { d with left := d.left - 1 }
    flagOrs := c.flagOrs.map fun q => { q with left := q.left - 1 }
    pend := c.pend.map fun q => { q with left := q.left - 1 }
    landings := c.landings.map fun l => if l.held then l else { l with left := l.left - 1 }
    mq := c.mq.map fun o => { o with left := o.left - 1 }
    power := { c.power with mspan := c.power.mspan - 1 } }

/-- Pending writes whose bound is reached land, in issue order (01 R34, R35). -/
def Core.landDue (c : Core) : Core :=
  let rest := c.pend.filter fun (q : Pending) => q.left != 0
  let due := c.pend.filter fun (q : Pending) => q.left == 0
  ({ c with pend := rest }).landAll (due.map Pending.write)

/-- The end of a bundle-time. -/
def Core.endBundle (c : Core) (seed : W64) : Core :=
  let c := { c with cr := { c.cr with seed := seed } }
  let c := c.makeDue.countDown.landDue
  { c with bt := c.bt + 1 }

/-! ### The boundary before a bundle -/

/-- The extension of a loaded value (02 R64): width code and sign. -/
def extendLoad (size : BitVec 2) (sgn : Bool) (v : W64) : W64 :=
  let w := 8 * 2 ^ size.toNat
  if sgn then BitVec.ofInt 64 (signedBits w v.toNat) else BitVec.ofNat 64 (v.toNat % 2 ^ w)

/-- Writes the destination of a landing. -/
def Core.landTo (c : Core) (l : Landing) (v : W64) : Core :=
  if !l.live then c
  else if l.toK then (c.setK l.d v).unpoison (.kreg l.d.toNat) else (c.setS l.d v).unpoison (.sreg l.d.toNat)

/-- A store joins the store stream (04 R146). -/
def Core.streamStore (c : Core) (t : Target) (kind : StoreKind) : Core :=
  { c with nextLanding := c.nextLanding + 1, stream := c.stream ++ [{ seq := c.nextLanding, tgt := t, kind := kind }] }

/-- A landing whose time has come and whose data are there (01 R37, 07 R236, 14 R372, 18 R445): a fatal error or poison pends,
or the value is written; a stale reference is resolved under REFBAR and its slot's heal joins the store stream. -/
def State.landOne (s : State) (key : Nat) (l : Landing) : State :=
  match l.state with
  | .failed kind va pte => if l.live then s.raiseFatal key kind va pte else s
  | .arrived v poison =>
    if poison ∧ l.live then s.raisePoison key l.tgt.ca.toNat 6
    else match l.kind with
      | .load size sgn => s.modCore key fun c => c.landTo l (extendLoad size sgn v)
      | .amo _ size _ _ _ _ => s.modCore key fun c => c.landTo l (extendLoad size false v)
      | .ref _ =>
        let c := s.core key
        if refAddr v = 0 then s.modCore key fun c => c.landTo l (mkRef (c.goodColor (l.tgt.heap.zeroExtend 4)) (l.tgt.heap.zeroExtend 4) 0)
        else if !c.stale v then s.modCore key fun c => c.landTo l v
        else
          let r := s.resolve c.cr.asid c v
          let s := s.freezeCycle key acctRefbar
          if r.2 then s.raisePoison key l.tgt.ca.toNat 6
          else s.modCore key fun c =>
            let c := c.landTo l r.1
            -- a slot that a context image has brought back names no place to heal (14 R383)
            if l.tgt.cls = .managed then c.streamStore l.tgt (.heal v r.1) else c
  | _ => s

/-- A landing at its landing time. -/
def Landing.due (l : Landing) : Bool := l.left == 0 && !l.held && l.live
/-- A landing whose data have not come. -/
def Landing.late (l : Landing) : Bool :=
  l.due && match l.state with | .arrived .. => false | .failed .. => false | _ => true

/-- Freezes that the boundary itself finds (01 R25, R30, R37, 06 R191, 08 R250). -/
def Core.boundaryFreeze (c : Core) : Option Nat :=
  topFreeze ((if 0 < c.ecc then [acctEcc] else []) ++
    (if c.landings.any Landing.late ∨ c.mq.any (fun o => o.left == 0) ∨ c.drives.any (fun d => d.left == 0 && d.beat.isNone)
      then [acctLand] else []) ++
    (if c.await = .none then [] else [acctDrain]) ++
    (match c.bar with
      | .draining _ => [acctDrain]
      | .sent | .reported | .released => [acctBarrier]
      | .none => []))

/-- The landings that are due are written, oldest first. -/
def State.landAllDue (s : State) (key : Nat) : State :=
  let l := (s.core key).landings.filter Landing.due
  if l = [] then s
  else l.foldl (fun s x => s.landOne key x)
    (s.modCore key fun c => { c with landings := c.landings.filter fun x => !x.due })

/-! ### One issue -/

/-- What one attempt to issue comes to: a bundle-time has issued, with the repetitions left; or none has. -/
inductive Issued where
  | done (s : State) (left : Nat)
  | held (s : State)

/-- The state after an attempt. -/
def Issued.state : Issued → State
  | .done s _ => s
  | .held s => s

/-- The charges of an issue cycle (01 R47 rule 4). -/
def issueCharges (first : Bool) (present : BitVec 6) (l : List Issuing) : List (Nat × Nat) :=
  let isNew := (l.filter fun i => first && present.getLsbD i.slot.idx).length
  [(0, isNew), (1, l.length - isNew), (2, 6 - l.length)]

/-- A debugger's halt takes effect: pending writes complete as at trap entry and cr.status.HALT is set (10 R308, R309). -/
def Core.haltIf (c : Core) (now : Nat) (b : Bool) : Core :=
  if !b then c
  else
    let c := c.completePend
    { c with
      cr := { c.cr with halt := true }
      hooks := { c.hooks with haltRequest := false, stepBundle := false, haltedAt := now } }

/-- Charges an issue cycle, or a SYSTEM cycle. -/
def State.chargeIssue (s : State) (key : Nat) (f : Fetched) (l : List Issuing) : State :=
  let c := s.core key
  if c.cr.sys then s.freezeCycle key 14
  else s.charge key c.cr.asid c.pc
    (issueCharges (decide (f.header.rep.toNat + 1 ≤ c.repsLeft f.header)) f.header.present l)

/-- The sticky state an issuing operation leaves (02 R58, R59): a non-repeatable one clears its slot's. -/
def Core.keepSticky (c : Core) (i : Issuing) : Core :=
  let held := if nonRepeatable i.slot i.sem.op then none else some ⟨i.word, i.view.addrs⟩
  { c with sticky := SMap.set none c.sticky i.slot.idx held }

/-- Closes loop register k after the last repetition (04 R134), with the loop register as the bundle read it: the next
bundle. A count that is still pending is undefined: either way may be taken. -/
def State.closeLoop (s : State) (key : Nat) (k : BitVec 6) (v : View) (after : BitVec 57) : State × BitVec 57 :=
  let l := v.core.lReg k
  let more := if v.core.pendingL k then v.undef 60 1 == 1 else decide (1 < l.count.toNat)
  if more then (s.modCore key fun c => c.setL k { l with count := l.count - 1 }, l.start)
  else ((s.modCore key fun c => c.setL k { l with count := 0 }).bankSnapshot key k.toNat 0 1 v.pc, after)

/-- The knot of a producing operation is PENDING when it performs (07 R210). -/
def OpSem.begun (m : OpSem) (key : Nat) (v : View) (s : State) : State :=
  match m.produces v with
  | some (n, src) => s.modCore key fun c => c.produceKnot n src
  | none => s

/-- The operations perform, in slot order, each on its own view of the core before the bundle (01 R22). -/
def performAll (key : Nat) : List Issuing → Acc → Acc
  | [], a => a
  | i :: l, a =>
    let a := a.core key fun c => c.keepSticky i
    let a := if i.perf then
        i.sem.perform key i.view { a with st := i.sem.begun key i.view a.st }
      else match i.sem.produces i.view with
        | some (n, src) => a.core key fun c => c.resolveKnot n src
        | none => a
    performAll key l a

/-- Poison that the performing operations read from registers and beats (18 R445). -/
def State.readPoison (s : State) (key : Nat) (l : List Issuing) : State :=
  let c := s.core key
  if c.poison = [] then s
  else if l.any fun i => i.perf && (i.sem.reads i.view).any fun q => c.poison.contains q then s.raisePoison key 0 6 else s

/-- What an issue costs: its cycle with those of a split and of bank conflicts, its weight, and the number under which its undefined
values were drawn. -/
def State.spend (s : State) (key : Nat) (f : Fetched) (l : List Issuing) : State :=
  let c := s.core key
  let losses := (beltLosses [] (beltAccesses l)).filter fun x => 0 < x.2.2
  let s := s.chargeIssue key f l
  let s := if splits c l then s.freezeCycle key acctSplit else s
  let s := s.freezeCycles key acctBank (losses.foldl (fun a x => max a x.2.2) 0)
  let span := l.foldl (fun a i =>
    max a (if i.slot = .m then (if i.perf then max 1 (i.sem.span c i.view) else 1) else 0)) 0
  let weight := issueWeight c l
  let s := s.modCore key fun c => { c with
    acct := if c.supervisor then c.acct else c.acct.addLosses losses
    power := { c.power with sum := c.power.sum + weight, mspan := max c.power.mspan span } }
  { s with free := s.free + 1 }

/-- What follows the effects of a bundle, which found the core as `c`: the end of the bundle-time; after the last repetition the next
bundle, by a branch, a loop or the order of addresses; the end of an item, and a return. -/
def State.afterBundle (c : Core) (key : Nat) (f : Fetched) (v : View) (left : Nat) (a : Acc) : State :=
  let s := a.st.modCore key fun c => c.endBundle (a.seedSet.getD a.seed)
  let s := if 0 < left then s.modCore key fun c => { c with repLeft := some left }
    else
      let after := c.pc + BitVec.ofNat 57 f.size
      let r := match a.next with
        | some t => (s, t)
        | none => if f.header.loopend = 0 then (s, after)
          else s.closeLoop key ((f.header.loopend - 1).zeroExtend 6) v after
      r.1.modCore key fun c =>
        ({ c with repLeft := none, pc := r.2 }).haltIf s.time (c.hooks.stepBundle || (a.edge && c.hooks.haltRequest))
  let s := if a.tail then s.endItem key else s
  if a.eret then s.eret key else s

/-- The issue of one repetition, once nothing holds it: charges, effects, the end of the bundle-time, and the next bundle. -/
def State.issueNow (s : State) (key : Nat) (f : Fetched) (l : List Issuing) : Issued :=
  let c := s.core key
  let left := c.repsLeft f.header - 1
  let v : View := { core := c, slot := .s, pc := c.pc, size := f.size, addrs := {}, draw := s.free }
  .done (State.afterBundle c key f v left (performAll key l { st := (s.spend key f l).readPoison key l, seed := c.cr.seed })) left

/-- An asynchronous cause ends a BARRIER freeze, or the drain that precedes it, with the saved PC at the BAR's bundle; the
report of a packet already sent is withdrawn (08 R252, R262). -/
def State.leaveBar (s : State) (key : Nat) (a : Async) : State :=
  let c := s.core key
  let s := match c.item with
    | some it => match it.gang with
      | some g =>
        let q := (SMap.get none s.gangs g).map fun (q : Gang) => { q with reported := q.reported.filter (· ≠ key) }
        { s with gangs := SMap.set none s.gangs g q }
      | none => s
    | none => s
  (s.modCore key fun c => c.dropAsync a).takeTrap key ⟨a.cause, a.info⟩ c.barPc 1

/-- One attempt to issue what has been fetched (01 R24, R25, 08 R261, R262): boundary freezes, a region breakpoint, the
checks, a power hold, asynchronous causes, waits, then the issue. -/
def State.issueOnce (s : State) (key : Nat) (f : Fetched) : Issued :=
  let s := ((s.sendBar key).serveAwait key).takeRecolors key
  match (s.core key).boundaryFreeze with
  | some cause =>
    match (s.core key).asyncNext with
    | some a =>
      if (cause = acctBarrier ∨ cause = acctDrain) ∧ (s.core key).bar ≠ .released then .held (s.leaveBar key a)
      else .held (s.freezeCycle key cause)
    | none => .held (s.freezeCycle key cause)
  | none =>
    let s := s.landAllDue key
    let c := s.core key
    let reps := c.repsLeft f.header
    match c.hooks.breakNext with
    | some id =>
      .held ((s.modCore key fun c => { c with hooks := { c.hooks with breakNext := none } }).takeTrap key
        ⟨0x08, BitVec.ofNat 64 (65536 + id.toNat)⟩ c.pc reps)
    | none =>
      let l := c.issuing f s.free
      if c.yieldReq ∧ l.any (fun i => i.sem.yields && i.perf) ∧ !c.cr.sys then
        if c.hooks.haltRequest then .held (s.modCore key fun c => c.haltIf s.time true)
        else .held (((s.modCore key fun c => { c with yieldReq := false }).takeTrap key ⟨0x10, 0⟩ c.pc 0).modCore key fun c =>
          { c with item := c.item.map fun it => { it with atYield := true } })
      else match firstCheck s key f l with
        | some t => .held (s.takeTrap key t c.pc reps)
        | none =>
          match firstFatal s key l with
          | some (kind, va) => .held ((s.logFatal key kind va none).takeTrap key ⟨0x20, infoFatal kind va⟩ c.pc reps)
          | none =>
            if powerHold c l then .held (s.freezeCycle key acctPower)
            else match c.asyncNext with
              | some a => .held ((s.modCore key fun c => c.dropAsync a).takeTrap key ⟨a.cause, a.info⟩ c.pc reps)
              | none =>
                match waitOf s key l with
                | some cause => .held (s.freezeCycle key cause)
                | none =>
                  match l.findSome? fun i => if i.perf then i.sem.late5 s key i.view else none with
                  | some t => .held (s.takeTrap key t c.pc reps)
                  | none => s.issueNow key f l

/-- The repetitions of a bundle, one after another while nothing else is due (02 R56, log 5). -/
def State.issueAll (s : State) (key : Nat) (f : Fetched) : Nat → State
  | 0 => s
  | n + 1 =>
    match s.issueOnce key f with
    | .done s left => if 0 < left ∧ s.agenda = [] ∧ !(s.core key).stopped then s.issueAll key f n else s
    | .held s => s

/-- Whether a core has nothing to issue: it is stopped, halted by a debugger, or holds no item in user mode. -/
def Core.idle (c : Core) : Bool := c.stopped || c.cr.halt || (!c.cr.sys && c.item.isNone)

/-- A cycle of a core that issues nothing (01 R47, R49): SYSTEM while halted, else NOWORK to context 0 at PC 0. -/
def State.idleCycle (s : State) (key : Nat) : State :=
  if (s.core key).cr.halt then s.freezeCycle key 14
  else s.charge key 0 0 [(if s.scanningSite key then 14 else 15, 6)]

/-- A cycle of a tile core that the package holds: POWER, or what 01 R47 ranks above it. -/
def State.powerCycle (s : State) (key : Nat) : State := if (s.core key).idle then s.idleCycle key else s.freezeCycle key acctPower

/-- Several of them. -/
def State.powerCycles (s : State) (key : Nat) : Nat → State
  | 0 => s
  | n + 1 => (s.powerCycle key).powerCycles key n

/-- The current core takes what has been fetched for it. -/
def State.issue (s : State) (f : Fetched) : State :=
  if (s.core s.cur).idle then s.idleCycle s.cur else s.issueAll s.cur f (f.header.rep.toNat + 1)

/-- One slot operation as a bundle of its own, every other slot quiet. -/
def runSolo (sem : OpSem) (i : Instr) (s : State) : Host.Outcome State Fault Refusal :=
  match i.slotWord with
  | some (sl, w) => .next (s.issue
      { header := soloHeader sl, size := 12, present := [(sl, w, sem)]
        err := i.check1.map fun _ => illegal causeIllegal sl (opcodeOf w) 0 })
  | none => .next s

end Sys2Proof.Machine
end

