-- ==== Sys2Proof/Machine/Fetch.lean ====
section
/-! DEFINITION. Fetching: the ranges and the context that a fetch goes through, the bytes of the instruction cache at the PC,
and the line that a fetch waits for (01 R25, 02 R53, R78, 14 R362, 08 R265). -/

namespace Sys2Proof.Machine

/-- The context whose ranges and page tables a fetch uses: a tile core in system mode fetches at system virtual addresses,
which firmware maps in the system context (08 R265, 14 R353, log 14). -/
def Core.fetchAsid (c : Core) : BitVec 16 := if c.cr.sys then 0 else c.cr.asid

/-- The range registers that a fetch uses. -/
def State.fetchRanges (s : State) (c : Core) : SMap W256 := if c.cr.sys && !c.supervisor then s.ctxRanges 0 else c.ranges

/-- A core with the ranges and the context of its fetches. -/
def State.fetchCore (s : State) (key : Nat) : Core :=
  let c := s.core key
  { c with ranges := s.fetchRanges c, cr := { c.cr with asid := c.fetchAsid } }

/-- What a fetch at the PC finds. -/
inductive FetchRes where
  /-- the bytes are not all inside an executable range: KIND and address (14 R373) -/
  | fatal (kind : Nat) (va : BitVec 57)
  /-- the bundle is not wholly in the instruction cache (01 R25): the target of its first missing line -/
  | miss (t : Target)
  | bytes (bs : List Byte)
  deriving DecidableEq, Repr

/-- Key of a line in the instruction cache. -/
def icKey (asid : BitVec 16) (line : Nat) : Nat := 2 ^ 45 * asid.toNat + line

/-- Bytes of the instruction cache from a virtual address: the first line that is missing, or the KIND where no range permits. -/
def Core.cacheBytes (c : Core) (va : BitVec 57) : Nat → FetchRes
  | 0 => .bytes []
  | n + 1 =>
    match c.cacheBytes va n with
    | .bytes bs =>
      let a := va + BitVec.ofNat 57 n
      (match c.rangeOf a .x with
      | .error kind => .fatal kind a
      | .ok t => match (SMap.get [] c.icache (icKey c.cr.asid (t.ca.toNat / 128)))[t.ca.toNat % 128]? with
        | some b => .bytes (bs ++ [b])
        | none => .miss t)
    | r => r

/-- The bundle at the PC: its header first, then all its words (02 R53, R78). -/
def State.fetch (s : State) (key : Nat) : FetchRes :=
  let c := s.fetchCore key
  match c.cacheBytes c.pc 4 with
  | .bytes bs => c.cacheBytes c.pc (Header.size (Header.ofWord (BitVec.ofNat 32 (leNat bs))))
  | r => r

/-- A fatal fetch is taken at the boundary before the bundle (14 R372). -/
def State.fetchFatal (s : State) (key kind : Nat) (va : BitVec 57) (pte : Option Nat) : State :=
  let c := s.core key
  (s.logFatal key kind va pte).takeTrap key ⟨0x20, infoFatal kind va⟩ c.pc (c.repLeft.getD 0)

/-- The line that a core's fetch waits for arrives (01 R25): it is translated for execution at its home slice and enters the
instruction cache; a refusal is a fatal context error, and poison is consumed (14 R373, 18 R445). -/
def State.fetchFill (s : State) (key : Nat) : Option State :=
  match s.fetch key with
  | .miss t =>
    let c := s.fetchCore key
    let base := t.ca.toNat / 128 * 128
    match s.pieces c.cr.asid (BitVec.ofNat 52 base) .x false 128 with
    | (.error e, s) => some (s.fetchFatal key e.1 t.va e.2.1)
    | (.ok ps, s) =>
      if ps.any Piece.isHeld then none
      else
        let r := s.readPieces (dieOf key) ps
        if r.2.1 then some (((r.2.2.raisePoison key base 0).modCore key fun c => c.dropAsync ⟨0x21, 0, false⟩).takeTrap key ⟨0x21, BitVec.ofNat 64 base⟩ c.pc (c.repLeft.getD 0))
        else some (r.2.2.modCore key fun q => { q with icache := SMap.set [] q.icache (icKey c.cr.asid (base / 128)) r.1 })
  | _ => none

end Sys2Proof.Machine
end

