-- ==== Sys2Proof/Machine/Scalar.lean ====
section
/-! DEFINITION. The scalar slot: integer, predicate and FP32 operations, branches and loops, handles, scratchpad and global
loads and stores, control registers, and the strand unit's insert and extract (04 R122 to R151, 08 R267). -/

namespace Sys2Proof.Machine

/-! ### Shared forms -/

/-- Poison places of s registers. -/
def sPlaces (l : List (BitVec 6)) : List UePlace := l.map fun n => .sreg n.toNat

/-- An operation that computes one register value with no flag (04 R124 to R127). -/
def aluOp (op : BitVec 8) (cls : Nat) (g : Guard) (lat : BitVec 4) (reads : List UePlace) (f : View → Write) : OpSem :=
  { slot := .s, op := op, guard := g, timing := some (0, cls, lat.toNat), reads := fun _ => .preg g.pred.toNat :: reads
    perform := fun key v a => a.core key fun c => c.pendWrite lat.toNat (f v) }

/-- s[D] := f(s[A], s[B]) (04 R124). -/
def aluRR (op : BitVec 8) (cls : Nat) (g : Guard) (w : SR) (f : W64 → W64 → W64) : OpSem :=
  aluOp op cls g w.lat (sPlaces [w.a, w.b]) fun v => .s w.d (f (v.s 1 w.a) (v.s 2 w.b))

/-- s[D] := f(s[A]) (04 R124). -/
def aluR (op : BitVec 8) (g : Guard) (w : SR) (f : W64 → W64) : OpSem :=
  aluOp op 0 g w.lat (sPlaces [w.a]) fun v => .s w.d (f (v.s 1 w.a))

/-- s[D] := f(s[A], imm) (04 R125). -/
def aluRI (op : BitVec 8) (g : Guard) (w : SI) (f : W64 → W64 → W64) : OpSem :=
  aluOp op 0 g w.lat (sPlaces [w.a]) fun v => .s w.d (f (v.s 1 w.a) (w.imm.signExtend 64))

/-- p[D] := f(s[A], s[B]) (04 R126). -/
def cmpRR (op : BitVec 8) (g : Guard) (w : SR) (f : W64 → W64 → Bool) : OpSem :=
  aluOp op 0 g w.lat (sPlaces [w.a, w.b]) fun v => .p w.d (f (v.s 1 w.a) (v.s 2 w.b))

/-- p[D] := f(s[A], imm) (04 R126). -/
def cmpRI (op : BitVec 8) (g : Guard) (w : SI) (f : W64 → W64 → Bool) : OpSem :=
  aluOp op 0 g w.lat (sPlaces [w.a]) fun v => .p w.d (f (v.s 1 w.a) (w.imm.signExtend 64))

/-- p[D] := f(p[A], p[B]) (04 R127). -/
def predOp (op : BitVec 8) (g : Guard) (w : SR) (f : Bool → Bool → Bool) : OpSem :=
  aluOp op 0 g w.lat [.preg w.a.toNat, .preg w.b.toNat] fun v => .p w.d (f (v.p 1 w.a) (v.p 2 w.b))

/-- The number of one bits of a number. -/
def popCount : Nat → Nat → Nat
  | 0, _ => 0
  | n + 1, x => x % 2 + popCount n (x / 2)

/-- The number of leading zero bits of a 64-bit value. -/
def leadingZeros (x : W64) : Nat := if x = 0 then 64 else 63 - Nat.log2 x.toNat

/-- The rounding mode of an operation: RM 0 selects cr.round (02 R66, 03 R101). -/
def View.mode (v : View) (rm : BitVec 3) : RMode := RMode.ofCode (if rm = 0 then v.core.cr.round else rm)

/-- The FP32 value in bits [31:0] of an s register (04 R128). -/
def View.fp (v : View) (site : Nat) (n : BitVec 6) : Fv := fp32.value ((v.s site n).extractLsb' 0 32).toNat
/-- The FP32 bits of an s register. -/
def View.fpBits (v : View) (site : Nat) (n : BitVec 6) : Nat := ((v.s site n).extractLsb' 0 32).toNat

/-- A scalar FP operation: a register write, flags at its bound, and a draw where `draw` says so (04 R128). -/
def fpOp (op : BitVec 8) (cls : Nat) (g : Guard) (w : SR) (draw : Bool) (f : View → RMode → Nat → Write × Flags) : OpSem :=
  { slot := .s, op := op, guard := g, timing := some (0, cls, w.lat.toNat)
    reads := fun _ => .preg g.pred.toNat :: sPlaces [w.a, w.b, w.c]
    perform := fun key v a =>
      let mode := v.mode (w.fn.extractLsb' 0 3)
      let d := drawsFor mode (if draw then 1 else 0) a.seed
      let r := f v mode (d.1.headD 0)
      { a.core key fun c => (c.pendWrite w.lat.toNat r.1).flagOr w.lat.toNat r.2 with seed := d.2 } }

/-- An FP32 result rounded once (04 R128): exact value and flags in, the write of s[D] out. -/
def fpRound (w : SR) (mode : RMode) (d : Nat) (x : Fv × Flags) : Write × Flags :=
  let r := round fp32 mode (w.fn.getLsbD 3) d x.1
  (.s w.d (BitVec.ofNat 64 r.1), x.2 ||| r.2)

/-! ### Integer operations (04 R124, R125) -/

/-- ADD (04 R124) -/
def semAdd (g : Guard) (w : SR) : OpSem := aluRR 0x01 0 g w fun x y => x + y
/-- SUB (04 R124) -/
def semSub (g : Guard) (w : SR) : OpSem := aluRR 0x02 0 g w fun x y => x - y
/-- MUL (04 R124) -/
def semMul (g : Guard) (w : SR) : OpSem := aluRR 0x03 1 g w fun x y => x * y
/-- MULH (04 R124) -/
def semMulh (g : Guard) (w : SR) : OpSem := aluRR 0x04 1 g w fun x y => BitVec.ofInt 64 (x.toInt * y.toInt / 2 ^ 64)
/-- MULHU (04 R124) -/
def semMulhu (g : Guard) (w : SR) : OpSem := aluRR 0x05 1 g w fun x y => BitVec.ofNat 64 (x.toNat * y.toNat / 2 ^ 64)
/-- AND (04 R124) -/
def semAnd (g : Guard) (w : SR) : OpSem := aluRR 0x06 0 g w fun x y => x &&& y
/-- OR (04 R124) -/
def semOr (g : Guard) (w : SR) : OpSem := aluRR 0x07 0 g w fun x y => x ||| y
/-- XOR (04 R124) -/
def semXor (g : Guard) (w : SR) : OpSem := aluRR 0x08 0 g w fun x y => x ^^^ y
/-- SHL (04 R124) -/
def semShl (g : Guard) (w : SR) : OpSem := aluRR 0x09 0 g w fun x y => x <<< (y.toNat % 64)
/-- SHR (04 R124) -/
def semShr (g : Guard) (w : SR) : OpSem := aluRR 0x0A 0 g w fun x y => x >>> (y.toNat % 64)
/-- SAR (04 R124) -/
def semSar (g : Guard) (w : SR) : OpSem := aluRR 0x0B 0 g w fun x y => x.sshiftRight (y.toNat % 64)
/-- MIN (04 R124) -/
def semMin (g : Guard) (w : SR) : OpSem := aluRR 0x18 0 g w fun x y => if y.slt x then y else x
/-- MAX (04 R124) -/
def semMax (g : Guard) (w : SR) : OpSem := aluRR 0x19 0 g w fun x y => if x.slt y then y else x
/-- MINU (04 R124) -/
def semMinu (g : Guard) (w : SR) : OpSem := aluRR 0x1A 0 g w fun x y => if y.ult x then y else x
/-- MAXU (04 R124) -/
def semMaxu (g : Guard) (w : SR) : OpSem := aluRR 0x1B 0 g w fun x y => if x.ult y then y else x
/-- CLZ (04 R124) -/
def semClz (g : Guard) (w : SR) : OpSem := aluR 0x1C g w fun x => BitVec.ofNat 64 (leadingZeros x)
/-- POPC (04 R124) -/
def semPopc (g : Guard) (w : SR) : OpSem := aluR 0x1D g w fun x => BitVec.ofNat 64 (popCount 64 x.toNat)
/-- ADDI (04 R125) -/
def semAddi (g : Guard) (w : SI) : OpSem := aluRI 0x10 g w fun x y => x + y
/-- ANDI (04 R125) -/
def semAndi (g : Guard) (w : SI) : OpSem := aluRI 0x11 g w fun x y => x &&& y
/-- ORI (04 R125) -/
def semOri (g : Guard) (w : SI) : OpSem := aluRI 0x12 g w fun x y => x ||| y
/-- XORI (04 R125) -/
def semXori (g : Guard) (w : SI) : OpSem := aluRI 0x13 g w fun x y => x ^^^ y
/-- SHLI (04 R125) -/
def semShli (g : Guard) (w : SI) : OpSem := aluRI 0x14 g w fun x y => x <<< (y.toNat % 64)
/-- SHRI (04 R125) -/
def semShri (g : Guard) (w : SI) : OpSem := aluRI 0x15 g w fun x y => x >>> (y.toNat % 64)
/-- SARI (04 R125) -/
def semSari (g : Guard) (w : SI) : OpSem := aluRI 0x16 g w fun x y => x.sshiftRight (y.toNat % 64)
/-- LI (04 R125) -/
def semLi (g : Guard) (w : SI) : OpSem := aluOp 0x17 0 g w.lat [] fun _ => .s w.d (w.imm.signExtend 64)

/-! ### Compares and predicates (04 R126, R127) -/

/-- CMPEQ (04 R126) -/
def semCmpeq (g : Guard) (w : SR) : OpSem := cmpRR 0x20 g w fun x y => x == y
/-- CMPNE (04 R126) -/
def semCmpne (g : Guard) (w : SR) : OpSem := cmpRR 0x21 g w fun x y => x != y
/-- CMPLT (04 R126) -/
def semCmplt (g : Guard) (w : SR) : OpSem := cmpRR 0x22 g w fun x y => x.slt y
/-- CMPLE (04 R126) -/
def semCmple (g : Guard) (w : SR) : OpSem := cmpRR 0x23 g w fun x y => x.sle y
/-- CMPLTU (04 R126) -/
def semCmpltu (g : Guard) (w : SR) : OpSem := cmpRR 0x24 g w fun x y => x.ult y
/-- CMPLEU (04 R126) -/
def semCmpleu (g : Guard) (w : SR) : OpSem := cmpRR 0x25 g w fun x y => x.ule y
/-- CMPEQI (04 R126) -/
def semCmpeqi (g : Guard) (w : SI) : OpSem := cmpRI 0x26 g w fun x y => x == y
/-- CMPLTI (04 R126) -/
def semCmplti (g : Guard) (w : SI) : OpSem := cmpRI 0x27 g w fun x y => x.slt y
/-- PAND (04 R127) -/
def semPand (g : Guard) (w : SR) : OpSem := predOp 0x28 g w fun x y => x && y
/-- POR (04 R127) -/
def semPor (g : Guard) (w : SR) : OpSem := predOp 0x29 g w fun x y => x || y
/-- PXOR (04 R127) -/
def semPxor (g : Guard) (w : SR) : OpSem := predOp 0x2A g w fun x y => x != y
/-- PNOT (04 R127) -/
def semPnot (g : Guard) (w : SR) : OpSem :=
  aluOp 0x2B 0 g w.lat [.preg w.a.toNat] fun v => .p w.d (!(v.p 1 w.a))

/-! ### Scalar FP32 (04 R128 to R130) -/

/-- FADD (04 R129) -/
def semFadd (g : Guard) (w : SR) : OpSem := fpOp 0x30 2 g w true fun v mode d => fpRound w mode d ((v.fp 1 w.a).add mode (v.fp 2 w.b))
/-- FSUB (04 R129) -/
def semFsub (g : Guard) (w : SR) : OpSem :=
  fpOp 0x31 2 g w true fun v mode d => fpRound w mode d ((v.fp 1 w.a).add mode (v.fp 2 w.b).negate)
/-- FMUL (04 R129) -/
def semFmul (g : Guard) (w : SR) : OpSem := fpOp 0x32 2 g w true fun v mode d => fpRound w mode d ((v.fp 1 w.a).mul (v.fp 2 w.b))
/-- FFMA (04 R129) -/
def semFfma (g : Guard) (w : SR) : OpSem :=
  fpOp 0x33 2 g w true fun v mode d => fpRound w mode d (Fv.fma mode (v.fp 1 w.a) (v.fp 2 w.b) (v.fp 3 w.c))
/-- FDIV (04 R129) -/
def semFdiv (g : Guard) (w : SR) : OpSem := fpOp 0x34 3 g w true fun v mode d => fpRound w mode d ((v.fp 1 w.a).div (v.fp 2 w.b))
/-- FSQRT (04 R129) -/
def semFsqrt (g : Guard) (w : SR) : OpSem := fpOp 0x35 3 g w true fun v mode d => fpRound w mode d (v.fp 1 w.a).sqrt
/-- FMIN and FMAX (04 R129): exact, with no draw. -/
def fpPick (op : BitVec 8) (g : Guard) (w : SR) (max : Bool) : OpSem :=
  fpOp op 2 g w false fun v _ _ =>
    let r := fpMinMax fp32 max (v.fpBits 1 w.a) (v.fpBits 2 w.b)
    (.s w.d (BitVec.ofNat 64 r.1), r.2)
/-- FMIN (04 R129) -/
def semFmin (g : Guard) (w : SR) : OpSem := fpPick 0x36 g w false
/-- FMAX (04 R129) -/
def semFmax (g : Guard) (w : SR) : OpSem := fpPick 0x37 g w true
/-- An FP32 compare into p[D] (04 R129). -/
def fpCmp (op : BitVec 8) (g : Guard) (w : SR) (rel : Ordering → Bool) (any : Bool) : OpSem :=
  fpOp op 2 g w false fun v _ _ =>
    let r := fpRel rel any (v.fp 1 w.a) (v.fp 2 w.b)
    (.p w.d r.1, r.2)
/-- FCMPEQ (04 R129) -/
def semFcmpeq (g : Guard) (w : SR) : OpSem := fpCmp 0x38 g w (fun o => o == .eq) false
/-- FCMPLT (04 R129) -/
def semFcmplt (g : Guard) (w : SR) : OpSem := fpCmp 0x39 g w (fun o => o == .lt) true
/-- FCMPLE (04 R129) -/
def semFcmple (g : Guard) (w : SR) : OpSem := fpCmp 0x3A g w (fun o => o != .gt) true
/-- FCVTI (04 R130): FN[5:4] selects s64, u64, s32 or u32. -/
def semFcvti (g : Guard) (w : SR) : OpSem := fpOp 0x3B 2 g w true fun v mode d =>
  let lim : Int × Int := match (w.fn.extractLsb' 4 2).toNat with
    | 0 => (-(2 ^ 63), 2 ^ 63 - 1) | 1 => (0, 2 ^ 64 - 1) | 2 => (-(2 ^ 31), 2 ^ 31 - 1) | _ => (0, 2 ^ 32 - 1)
  let r := toIntRange mode d lim.1 lim.2 (v.fp 1 w.a)
  (.s w.d (BitVec.ofInt 64 r.1), r.2)
/-- ICVTF (04 R130): FN[4] reads the source as unsigned. -/
def semIcvtf (g : Guard) (w : SR) : OpSem := fpOp 0x3C 2 g w true fun v mode d =>
  let x := v.s 1 w.a
  fpRound w mode d (.fin (Dy.int (if w.fn.getLsbD 4 then (x.toNat : Int) else x.toInt)), 0)

/-! ### Branches and loops (04 R131 to R134) -/

/-- The test of a target (04 R132): ALIGN, then RANGE. -/
def targetTest (op : BitVec 8) (t : W64) : Option TrapReq :=
  if t.toNat % 4 ≠ 0 then some (trapS causeAlign op t.toNat)
  else if 2 ^ 57 ≤ t.toNat then some (trapS causeRange op t.toNat) else none

/-- PC + 4 × DISP, or s[A] + 4 × DISP, in 64-bit arithmetic (04 R132). -/
def branchTarget (base : W64) (disp : BitVec 35) : W64 := base + disp.signExtend 64 * 4

/-- A branch with a target, and a link under LAT (04 R131, R132). -/
def branchOp (op : BitVec 8) (g : Guard) (w : SB) (link : Bool) (reads : List UePlace) (target : View → W64) : OpSem :=
  { slot := .s, op := op, guard := g, timing := if link then some (0, 0, w.lat.toNat) else none
    reads := fun _ => .preg g.pred.toNat :: reads
    always5 := fun v => targetTest op (target v)
    perform := fun key v a =>
      let a := { a with next := some ((target v).extractLsb' 0 57) }
      if link then a.core key fun c => c.pendWrite w.lat.toNat (.s w.d (v.pc.zeroExtend 64 + BitVec.ofNat 64 v.size)) else a }

/-- BR (04 R132) -/
def semBr (g : Guard) (w : SB) : OpSem := branchOp 0x40 g w false [] fun v => branchTarget (v.pc.zeroExtend 64) w.disp
/-- BRI (04 R132) -/
def semBri (g : Guard) (w : SB) : OpSem := branchOp 0x41 g w false (sPlaces [w.a]) fun v => branchTarget (v.s 1 w.a) w.disp
/-- CALL (04 R132) -/
def semCall (g : Guard) (w : SB) : OpSem := branchOp 0x42 g w true [] fun v => branchTarget (v.pc.zeroExtend 64) w.disp
/-- CALLI (04 R132) -/
def semCalli (g : Guard) (w : SB) : OpSem := branchOp 0x43 g w true (sPlaces [w.a]) fun v => branchTarget (v.s 1 w.a) w.disp
/-- RET (04 R132) -/
def semRet (g : Guard) (w : SB) : OpSem := branchOp 0x44 g w false (sPlaces [w.a]) fun v => v.s 1 w.a
/-- LOOP (04 R133): the loop register under LAT, or the loop skipped. -/
def semLoop (g : Guard) (w : SB) : OpSem :=
  { slot := .s, op := 0x45, guard := g, timing := some (0, 0, w.lat.toNat), reads := fun _ => .preg g.pred.toNat :: sPlaces [w.a]
    always5 := fun v => targetTest 0x45 (branchTarget (v.pc.zeroExtend 64) w.disp)
    check5 := fun _ _ v => if 2 ^ 32 ≤ (v.s 1 w.a).toNat then some (trapS causeRange 0x45 0) else none
    perform := fun key v a =>
      let n := (v.s 1 w.a).toNat
      if n = 0 then
        { a.core key fun c => c.pendWrite w.lat.toNat (.l w.d { v.core.lReg w.d with count := 0 }) with
          next := some ((branchTarget (v.pc.zeroExtend 64) w.disp).extractLsb' 0 57) }
      else a.core key fun c =>
        c.pendWrite w.lat.toNat (.l w.d { start := v.pc + BitVec.ofNat 57 v.size, count := BitVec.ofNat 32 n }) }

/-! ### Handles (04 R139 to R141) -/

/-- A handle operation, class 5, that may refuse with RANGE and writes one register (04 R140). -/
def handleOp (op : BitVec 8) (g : Guard) (w : SR) (reads : List UePlace) (f : View → Option Write) : OpSem :=
  { slot := .s, op := op, guard := g, timing := some (0, 5, w.lat.toNat), reads := fun _ => .preg g.pred.toNat :: reads
    check5 := fun _ _ v => if (f v).isNone then some (trapS causeRange op 0) else none
    perform := fun key v a => match f v with
      | some x => a.core key fun c => c.pendWrite w.lat.toNat x
      | none => a }

/-- A handle with default fields (04 R140). -/
def baseHandle (base : BitVec 57) (space : Bool) (tag : Tag) : W256 :=
  0#104 ++ 1#24 ++ 1#16 ++ 1#16 ++ 1#16 ++ 1#16 ++ tag ++ BitVec.ofBool space ++ base

/-- HBASE (04 R140) -/
def semHbase (g : Guard) (w : SR) : OpSem := handleOp 0x50 g w (sPlaces [w.a]) fun v =>
  let x := v.s 1 w.a
  if 2 ^ 57 ≤ x.toNat then none
  else some (.h w.d (baseHandle (x.extractLsb' 0 57) (w.fn.getLsbD 6) (w.fn.extractLsb' 0 6)))
/-- HSET (04 R140, R141) -/
def semHset (g : Guard) (w : SR) : OpSem := handleOp 0x51 g w (.hreg w.b.toNat :: sPlaces [w.a]) fun v =>
  let code := (w.fn.extractLsb' 0 4).toNat
  let x := v.s 1 w.a
  let n : Int := if (handleField code).2.2 then x.toInt else x.toNat
  if fitsField code n then some (.h w.d (setField (v.h 2 w.b) code n)) else none
/-- HSTEP (04 R139, R140) -/
def semHstep (g : Guard) (w : SR) : OpSem := handleOp 0x52 g w [.hreg w.a.toNat] fun v =>
  let h := v.h 1 w.a
  (hstep (v.core.handle h).width h).map fun x => .h w.d x
/-- HGET (04 R140, R141) -/
def semHget (g : Guard) (w : SR) : OpSem := handleOp 0x53 g w [.hreg w.a.toNat] fun v =>
  some (.s w.d (BitVec.ofInt 64 (getField (v.h 1 w.a) (w.fn.extractLsb' 0 4).toNat)))
/-- HMOV (04 R140) -/
def semHmov (g : Guard) (w : SR) : OpSem := handleOp 0x54 g w [.hreg w.a.toNat] fun v => some (.h w.d (v.h 1 w.a))

/-! ### Scratchpad accesses (04 R142, R143, 09 R281) -/

/-- Bytes of an access width code (02 R64). -/
def sizeBytes (size : BitVec 2) : Nat := 2 ^ size.toNat

/-- A pending store touches some granules. -/
def Pending.touches (g n : Nat) (q : Pending) : Bool :=
  match q.write with
  | .spad a l _ => decide (a < 16 * (g + n)) && decide (16 * g < a + l.length)
  | _ => false

/-- The core with its own pending stores to some granules completed (09 R281). -/
def Core.completeGranules (c : Core) (g n : Nat) : Core :=
  ({ c with pend := c.pend.filter fun q => !q.touches g n }).landAll ((c.pendOrder.filter (Pending.touches g n)).map Pending.write)

/-- A granule that a `.fe` load waits for: empty once the core's own pending stores to it have completed (04 R143, 09 R281). -/
def Core.feEmpty (c : Core) (a n : Nat) : Bool :=
  let q := granules a n
  let c := c.completeGranules q.1 q.2
  (List.range q.2).any fun i => !c.feBit (q.1 + i)

/-- ALIGN, then RANGE, of a scratchpad access (04 R142). -/
def spadTest (op : BitVec 8) (c : Core) (a : W64) (n : Nat) : Option TrapReq :=
  if a.toNat % n ≠ 0 then some (trapS causeAlign op a.toNat)
  else if c.spadSize < a.toNat + n then some (trapS causeRange op a.toNat) else none

/-- The held address of an SM word (02 R60, 04 R142). -/
def smBase (w : SM) (v : View) : Addrs := { a := v.s 1 w.a + w.off.signExtend 64 }
/-- Its step per issue. -/
def smStep (w : SM) (_ : View) (x : Addrs) : Except TrapReq Addrs := .ok { x with a := x.a + w.step.signExtend 64 }

/-- The bytes a `.fe` load reads, after the core's own pending stores to the granules (09 R281). -/
def View.feBytes (v : View) (a n : Nat) : List Byte :=
  let q := granules a n
  { v with core := v.core.completeGranules q.1 q.2 }.spadBytes a n

/-- What a `.fe` load does to the core: pending stores to its granules complete, and `.fe.clr` empties them (04 R143). -/
def Core.feRead (c : Core) (qf : BitVec 2) (a n : Nat) : Core :=
  let q := granules a n
  let c := c.completeGranules q.1 q.2
  if qf = 2 then c.setFes q.1 false q.2 else c

/-- LDS (04 R142, R143) -/
def semLds (g : Guard) (w : SM) : OpSem :=
  { slot := .s, op := 0x60, guard := g, timing := some (0, 4, w.lat.toNat), reads := fun v =>
      [.preg g.pred.toNat, .sreg w.a.toNat, .spad (v.addrs.a.toNat / 16 * 16)]
    base := smBase w, step := smStep w
    check5 := fun _ _ v => spadTest 0x60 v.core v.addrs.a (sizeBytes w.size)
    wait := fun _ _ v => if w.qf ≠ 0 ∧ v.core.feEmpty v.addrs.a.toNat (sizeBytes w.size) then some acctFullEmpty else none
    belt := fun v => some (0, 3, v.addrs.a.toNat, sizeBytes w.size)
    perform := fun key v a =>
      let n := v.addrs.a.toNat
      let bs := if w.qf = 0 then v.spadBytes n (sizeBytes w.size) else v.feBytes n (sizeBytes w.size)
      a.core key fun c =>
        let c := if w.qf = 0 then c else c.feRead w.qf n (sizeBytes w.size)
        c.pendWrite w.lat.toNat (.s w.d (extendLoad w.size (w.sgn == 1) (BitVec.ofNat 64 (leNat bs)))) }

/-- STS (04 R142, R143) -/
def semSts (g : Guard) (w : SM) : OpSem :=
  { slot := .s, op := 0x61, guard := g, timing := some (0, 4, w.lat.toNat), reads := fun _ => .preg g.pred.toNat :: sPlaces [w.a, w.d]
    base := smBase w, step := smStep w
    check5 := fun _ _ v => spadTest 0x61 v.core v.addrs.a (sizeBytes w.size)
    belt := fun v => some (0, 3, v.addrs.a.toNat, sizeBytes w.size)
    perform := fun key v a => a.core key fun c =>
      c.pendWrite w.lat.toNat (.spad v.addrs.a.toNat (leBytes (sizeBytes w.size) (v.s 4 w.d).toNat) (w.qf == 1)) }

/-! ### Global accesses (04 R144 to R147) -/

/-- The landing slots of a core (01 R14, R50). -/
def Core.landingSlots (c : Core) : Nat := if c.supervisor then 64 else 512
/-- Every landing slot is occupied (01 R38). -/
def Core.landingFull (c : Core) : Bool := decide (c.landingSlots ≤ (c.landings.filter Landing.live).length)

/-- ALIGN, then RANGE, of a global address (04 R144). -/
def vaTest (op : BitVec 8) (a : W64) (n : Nat) : Option TrapReq :=
  if a.toNat % n ≠ 0 then some (trapS causeAlign op a.toNat)
  else if 2 ^ 57 ≤ a.toNat then some (trapS causeRange op a.toNat) else none

/-- The refusal of an access by the range registers (04 R144, 14 R372). -/
def rangeFatal (c : Core) (va : W64) (need : Need) (n : Nat) : Option (Nat × BitVec 57) :=
  match c.rangesOf (va.extractLsb' 0 57) need n with
  | .error e => some e
  | .ok _ => none

/-- Takes a landing slot (01 R37). -/
def Core.takeLanding (c : Core) (distance : Nat) (toK : Bool) (d : BitVec 6) (t : Target) (kind : LandKind) : Core :=
  { c with
    nextLanding := c.nextLanding + 1
    landings := c.landings ++ [⟨c.nextLanding, distance, toK, d, t, kind, .waiting, true, false, none⟩] }

/-- The held address of an SG word whose base is an s register (02 R60). -/
def sgBase (w : SG) (v : View) : Addrs := { a := v.s 1 w.a + w.off.signExtend 64 }
/-- Its step per issue. -/
def sgStep (w : SG) (_ : View) (x : Addrs) : Except TrapReq Addrs := .ok { x with a := x.a + w.step.signExtend 64 }

/-- A stored value bypasses the scalar L1 (04 R146). -/
def Target.uncached (t : Target) : Bool := t.cls == .host || t.cls == .remote || t.win

/-- LDG (04 R144, R145) -/
def semLdg (g : Guard) (w : SG) : OpSem :=
  { slot := .s, op := 0x62, guard := g, reads := fun _ => .preg g.pred.toNat :: sPlaces [w.a]
    base := sgBase w, step := sgStep w
    check5 := fun _ _ v => (vaTest 0x62 v.addrs.a (sizeBytes w.size)).orElse fun _ =>
      if v.core.landingFull then some (trapS causeRange 0x62 0) else none
    fatal := fun _ _ v => rangeFatal v.core v.addrs.a .r (sizeBytes w.size)
    perform := fun key v a => match v.core.rangeOf (v.addrs.a.extractLsb' 0 57) .r with
      | .ok t => a.core key fun c => c.takeLanding w.lnd.toNat false w.d t (.load w.size (w.sgn == 1))
      | .error _ => a }

/-- STG (04 R144, R146) -/
def semStg (g : Guard) (w : SG) : OpSem :=
  { slot := .s, op := 0x63, guard := g, reads := fun _ => .preg g.pred.toNat :: sPlaces [w.a, w.d]
    base := sgBase w, step := sgStep w
    check5 := fun _ _ v => vaTest 0x63 v.addrs.a (sizeBytes w.size)
    fatal := fun _ _ v => rangeFatal v.core v.addrs.a .w (sizeBytes w.size)
    perform := fun key v a => match v.core.rangeOf (v.addrs.a.extractLsb' 0 57) .w with
      | .ok t => a.core key fun c => c.streamStore t (.data (leBytes (sizeBytes w.size) (v.s 4 w.d).toNat))
      | .error _ => a }

/-! ### Control registers (01 R20, R21, R51, 04 R148, 08 R267) -/

/-- cr.status (01 R21). -/
def Core.status (c : Core) : W64 :=
  (0 : BitVec 60) ++ c.cr.dbg ++ BitVec.ofBool c.cr.halt ++ BitVec.ofBool c.cr.sys

/-- cr.coreid (01 R21); a supervisor core has no site and serves no logical number. -/
def State.coreId (s : State) (key : Nat) : W64 :=
  if key < 576 then BitVec.ofNat 64 ((key % 144) * 4096 + key / 144 * 1024 + s.logicalOf key)
  else BitVec.ofNat 64 ((key - 576) * 1024 + 0x3FF)

/-- cr.event (01 R51): the bits posted to the core, and PENDING and MAILBOX of the D0 supervisor, which stand while the pending
array or the mailboxes hold work. -/
def State.eventWord (s : State) (key : Nat) : W64 :=
  (s.core key).event ||| (if key = 576 ∧ s.pendingQ.any (fun q => q.2) then 4 else 0) |||
    (if key = 576 ∧ s.host.queue ≠ [] then 16 else 0)

/-- Word w of cr.timing (04 R148). -/
def Core.timingWord (c : Core) (w : Nat) : W64 :=
  BitVec.ofNat 64 (leNat ((List.range 8).map fun j => c.timingAt (8 * w + j)))

/-- A control register as it stands at issue (04 R148), by index, with the word of cr.timing. -/
def crValue (s : State) (key : Nat) (c : Core) (i : BitVec 16) (word : Nat) : W64 :=
  match i.toNat with
  | 0x00 => c.status
  | 0x01 => s.coreId key
  | 0x02 => c.cr.asid.zeroExtend 64
  | 0x03 => c.bt
  | 0x04 => c.cycle
  | 0x05 => BitVec.ofNat 64 s.time
  | 0x06 => s.eventWord key
  | 0x10 => c.cr.round.zeroExtend 64
  | 0x11 => c.cr.seed
  | 0x12 => c.cr.flags.zeroExtend 64
  | 0x13 => c.cr.color.zeroExtend 64
  | 0x14 => c.cr.ceiling.zeroExtend 64
  | 0x20 => c.timingWord word
  | 0x21 => c.cr.slotmap.zeroExtend 64
  | 0x30 => c.cr.epc
  | 0x31 => c.cr.cause.zeroExtend 64
  | 0x32 => c.cr.einfo
  | 0x33 => c.cr.erep.zeroExtend 64
  | 0x40 => c.crRegion
  | _ => 0

/-- CRR (04 R148) -/
def semCrr (g : Guard) (w : SI) : OpSem :=
  let i : BitVec 16 := w.imm.extractLsb' 0 16
  { slot := .s, op := 0x64, guard := g, timing := some (0, 6, w.lat.toNat), reads := fun _ => [.preg g.pred.toNat]
    check1 := fun c => !c.supervisor && (i == 5 || i == 6)
    priv := fun _ => 0x30 ≤ i.toNat && i.toNat ≤ 0x33
    perform := fun key v a => a.core key fun c =>
      c.pendWrite w.lat.toNat (.s w.d (crValue a.st key v.core i (w.imm.extractLsb' 16 4).toNat)) }

/-- Bits of a writable control register (01 R20). -/
def crWidth (i : BitVec 16) : Nat :=
  match i.toNat with
  | 0x02 => 16 | 0x10 => 3 | 0x12 => 6 | 0x13 => 24 | 0x14 => 8 | 0x31 => 8 | 0x33 => 8 | _ => 64

/-- A value that CRW refuses with RANGE (08 R267, 14 R355). -/
def crRefused (s : State) (c : Core) (i : BitVec 16) (x : W64) : Bool :=
  decide (2 ^ crWidth i ≤ x.toNat) ||
    (i == 0x10 && (x == 0 || decide (5 < x.toNat))) ||
    (i == 0 && (!x.getLsbD 0 || x.extractLsb' 2 2 != c.cr.dbg)) ||
    (i == 2 && s.ctxState (x.extractLsb' 0 16) != 1)

/-- The write of a control register at its bundle-time (08 R267). cr.bt gives the next bundle its bundle-time; cr.asid loads
the context's ranges; on a supervisor cr.asid keeps reading 0 (01 R50). -/
def Core.writeCr (c : Core) (s : State) (i : BitVec 16) (x : W64) : Core :=
  match i.toNat with
  | 0x00 => { c with cr := { c.cr with halt := x.getLsbD 1 } }
  | 0x02 =>
    if c.supervisor then c
    else { c with cr := { c.cr with asid := x.extractLsb' 0 16 }, ranges := s.ctxRanges (x.extractLsb' 0 16) }
  | 0x03 => { c with bt := x - 1 }
  | 0x10 => { c with cr := { c.cr with round := x.extractLsb' 0 3 } }
  | 0x12 => { c with cr := { c.cr with flags := x.extractLsb' 0 6 } }
  | 0x13 => { c with cr := { c.cr with color := x.extractLsb' 0 24 } }
  | 0x14 => { c with cr := { c.cr with ceiling := x.extractLsb' 0 8 } }
  | 0x30 => { c with cr := { c.cr with epc := x } }
  | 0x31 => { c with cr := { c.cr with cause := x.extractLsb' 0 8 } }
  | 0x32 => { c with cr := { c.cr with einfo := x } }
  | 0x33 => { c with cr := { c.cr with erep := x.extractLsb' 0 8 } }
  | _ => c

/-- CRW (08 R267) -/
def semCrw (g : Guard) (w : SI) : OpSem :=
  let i : BitVec 16 := w.imm.extractLsb' 0 16
  { slot := .s, op := 0x65, guard := g, reads := fun _ => .preg g.pred.toNat :: sPlaces [w.a]
    priv := fun _ => !(0x10 ≤ i.toNat && i.toNat ≤ 0x12)
    check5 := fun s _ v => if crRefused s v.core i (v.s 1 w.a) then some (trapS causeRange 0x65 0) else none
    perform := fun key v a =>
      if i = 0x11 then { a with seedSet := some (v.s 1 w.a) }
      else { a with st := a.st.modCore key fun c => c.writeCr a.st i (v.s 1 w.a) } }

/-! ### The strand unit (04 R150, R151) -/

/-- The tests of ZINS and ZEXT: the tag, then the unit (04 R150). -/
def unitTest (op : BitVec 8) (v : View) (za : BitVec 6) (u : W64) : Option TrapReq :=
  let b := v.tap 19 za
  if !v.core.tagKnown b.tag then some (trapSTag op b.tag)
  else if 80 ≤ u.toNat then some (trapS causeRange op 0) else none

/-- A beat with one 8-byte unit replaced (04 R150). -/
def Beat.setUnit (b : Beat) (u : Nat) (x : W64) : Beat :=
  if u < 64 then { b with data := (b.data &&& ~~~((BitVec.ofNat 4096 (2 ^ 64 - 1)) <<< (64 * u))) ||| (x.zeroExtend 4096) <<< (64 * u) }
  else { b with side := (b.side &&& ~~~((BitVec.ofNat 1024 (2 ^ 64 - 1)) <<< (64 * (u - 64)))) ||| (x.zeroExtend 1024) <<< (64 * (u - 64)) }

/-- One 8-byte unit of a beat (04 R150). -/
def Beat.unit (b : Beat) (u : Nat) : W64 :=
  if u < 64 then b.data.extractLsb' (64 * u) 64 else b.side.extractLsb' (64 * (u - 64)) 64

/-- The place of a tapped beat, for poison. -/
def View.beatPlace (v : View) (st : Nat) (z : BitVec 6) : UePlace := .beat z.toNat (ringAt st v.core.bt)

/-- ZINS (04 R150) -/
def semZins (g : Guard) (w : SR) : OpSem :=
  { slot := .s, op := 0x66, guard := g, timing := some (0, 0, w.lat.toNat), runsOn := fun _ c => !c.supervisor
    reads := fun v => .preg g.pred.toNat :: v.beatPlace 19 w.a :: sPlaces [w.b, w.c]
    check5 := fun _ _ v => unitTest 0x66 v w.a (v.s 3 w.c)
    perform := fun key v a => a.core key fun c =>
      c.drive 19 v.core.bt w.lat.toNat w.d (some ((v.tap 19 w.a).setUnit (v.s 3 w.c).toNat (v.s 2 w.b))) }

/-- ZEXT (04 R151) -/
def semZext (g : Guard) (w : SR) : OpSem :=
  { slot := .s, op := 0x67, guard := g, timing := some (0, 0, w.lat.toNat), runsOn := fun _ c => !c.supervisor
    reads := fun v => .preg g.pred.toNat :: v.beatPlace 19 w.a :: sPlaces [w.b]
    check5 := fun _ _ v => unitTest 0x67 v w.a (v.s 2 w.b)
    perform := fun key v a => a.core key fun c =>
      c.pendWrite w.lat.toNat (.s w.d ((v.tap 19 w.a).unit (v.s 2 w.b).toNat)) }

/-! ### The meanings -/

/-- ADD (R124) as a bundle of its own. -/
def execAdd (g : Guard) (w : SR) (s : State) : Host.Outcome State Fault Refusal :=
  runSolo (semAdd g w) (.add g w) s
/-- SUB (R124) as a bundle of its own. -/
def execSub (g : Guard) (w : SR) (s : State) : Host.Outcome State Fault Refusal :=
  runSolo (semSub g w) (.sub g w) s
/-- MUL (R124) as a bundle of its own. -/
def execMul (g : Guard) (w : SR) (s : State) : Host.Outcome State Fault Refusal :=
  runSolo (semMul g w) (.mul g w) s
/-- MULH (R124) as a bundle of its own. -/
def execMulh (g : Guard) (w : SR) (s : State) : Host.Outcome State Fault Refusal :=
  runSolo (semMulh g w) (.mulh g w) s
/-- MULHU (R124) as a bundle of its own. -/
def execMulhu (g : Guard) (w : SR) (s : State) : Host.Outcome State Fault Refusal :=
  runSolo (semMulhu g w) (.mulhu g w) s
/-- AND (R124) as a bundle of its own. -/
def execAnd (g : Guard) (w : SR) (s : State) : Host.Outcome State Fault Refusal :=
  runSolo (semAnd g w) (.and g w) s
/-- OR (R124) as a bundle of its own. -/
def execOr (g : Guard) (w : SR) (s : State) : Host.Outcome State Fault Refusal :=
  runSolo (semOr g w) (.or g w) s
/-- XOR (R124) as a bundle of its own. -/
def execXor (g : Guard) (w : SR) (s : State) : Host.Outcome State Fault Refusal :=
  runSolo (semXor g w) (.xor g w) s
/-- SHL (R124) as a bundle of its own. -/
def execShl (g : Guard) (w : SR) (s : State) : Host.Outcome State Fault Refusal :=
  runSolo (semShl g w) (.shl g w) s
/-- SHR (R124) as a bundle of its own. -/
def execShr (g : Guard) (w : SR) (s : State) : Host.Outcome State Fault Refusal :=
  runSolo (semShr g w) (.shr g w) s
/-- SAR (R124) as a bundle of its own. -/
def execSar (g : Guard) (w : SR) (s : State) : Host.Outcome State Fault Refusal :=
  runSolo (semSar g w) (.sar g w) s
/-- MIN (R124) as a bundle of its own. -/
def execMin (g : Guard) (w : SR) (s : State) : Host.Outcome State Fault Refusal :=
  runSolo (semMin g w) (.min g w) s
/-- MAX (R124) as a bundle of its own. -/
def execMax (g : Guard) (w : SR) (s : State) : Host.Outcome State Fault Refusal :=
  runSolo (semMax g w) (.max g w) s
/-- MINU (R124) as a bundle of its own. -/
def execMinu (g : Guard) (w : SR) (s : State) : Host.Outcome State Fault Refusal :=
  runSolo (semMinu g w) (.minu g w) s
/-- MAXU (R124) as a bundle of its own. -/
def execMaxu (g : Guard) (w : SR) (s : State) : Host.Outcome State Fault Refusal :=
  runSolo (semMaxu g w) (.maxu g w) s
/-- CLZ (R124) as a bundle of its own. -/
def execClz (g : Guard) (w : SR) (s : State) : Host.Outcome State Fault Refusal :=
  runSolo (semClz g w) (.clz g w) s
/-- POPC (R124) as a bundle of its own. -/
def execPopc (g : Guard) (w : SR) (s : State) : Host.Outcome State Fault Refusal :=
  runSolo (semPopc g w) (.popc g w) s
/-- ADDI (R125) as a bundle of its own. -/
def execAddi (g : Guard) (w : SI) (s : State) : Host.Outcome State Fault Refusal :=
  runSolo (semAddi g w) (.addi g w) s
/-- ANDI (R125) as a bundle of its own. -/
def execAndi (g : Guard) (w : SI) (s : State) : Host.Outcome State Fault Refusal :=
  runSolo (semAndi g w) (.andi g w) s
/-- ORI (R125) as a bundle of its own. -/
def execOri (g : Guard) (w : SI) (s : State) : Host.Outcome State Fault Refusal :=
  runSolo (semOri g w) (.ori g w) s
/-- XORI (R125) as a bundle of its own. -/
def execXori (g : Guard) (w : SI) (s : State) : Host.Outcome State Fault Refusal :=
  runSolo (semXori g w) (.xori g w) s
/-- SHLI (R125) as a bundle of its own. -/
def execShli (g : Guard) (w : SI) (s : State) : Host.Outcome State Fault Refusal :=
  runSolo (semShli g w) (.shli g w) s
/-- SHRI (R125) as a bundle of its own. -/
def execShri (g : Guard) (w : SI) (s : State) : Host.Outcome State Fault Refusal :=
  runSolo (semShri g w) (.shri g w) s
/-- SARI (R125) as a bundle of its own. -/
def execSari (g : Guard) (w : SI) (s : State) : Host.Outcome State Fault Refusal :=
  runSolo (semSari g w) (.sari g w) s
/-- LI (R125) as a bundle of its own. -/
def execLi (g : Guard) (w : SI) (s : State) : Host.Outcome State Fault Refusal :=
  runSolo (semLi g w) (.li g w) s
/-- CMPEQ (R126) as a bundle of its own. -/
def execCmpeq (g : Guard) (w : SR) (s : State) : Host.Outcome State Fault Refusal :=
  runSolo (semCmpeq g w) (.cmpeq g w) s
/-- CMPNE (R126) as a bundle of its own. -/
def execCmpne (g : Guard) (w : SR) (s : State) : Host.Outcome State Fault Refusal :=
  runSolo (semCmpne g w) (.cmpne g w) s
/-- CMPLT (R126) as a bundle of its own. -/
def execCmplt (g : Guard) (w : SR) (s : State) : Host.Outcome State Fault Refusal :=
  runSolo (semCmplt g w) (.cmplt g w) s
/-- CMPLE (R126) as a bundle of its own. -/
def execCmple (g : Guard) (w : SR) (s : State) : Host.Outcome State Fault Refusal :=
  runSolo (semCmple g w) (.cmple g w) s
/-- CMPLTU (R126) as a bundle of its own. -/
def execCmpltu (g : Guard) (w : SR) (s : State) : Host.Outcome State Fault Refusal :=
  runSolo (semCmpltu g w) (.cmpltu g w) s
/-- CMPLEU (R126) as a bundle of its own. -/
def execCmpleu (g : Guard) (w : SR) (s : State) : Host.Outcome State Fault Refusal :=
  runSolo (semCmpleu g w) (.cmpleu g w) s
/-- CMPEQI (R126) as a bundle of its own. -/
def execCmpeqi (g : Guard) (w : SI) (s : State) : Host.Outcome State Fault Refusal :=
  runSolo (semCmpeqi g w) (.cmpeqi g w) s
/-- CMPLTI (R126) as a bundle of its own. -/
def execCmplti (g : Guard) (w : SI) (s : State) : Host.Outcome State Fault Refusal :=
  runSolo (semCmplti g w) (.cmplti g w) s
/-- PAND (R127) as a bundle of its own. -/
def execPand (g : Guard) (w : SR) (s : State) : Host.Outcome State Fault Refusal :=
  runSolo (semPand g w) (.pand g w) s
/-- POR (R127) as a bundle of its own. -/
def execPor (g : Guard) (w : SR) (s : State) : Host.Outcome State Fault Refusal :=
  runSolo (semPor g w) (.por g w) s
/-- PXOR (R127) as a bundle of its own. -/
def execPxor (g : Guard) (w : SR) (s : State) : Host.Outcome State Fault Refusal :=
  runSolo (semPxor g w) (.pxor g w) s
/-- PNOT (R127) as a bundle of its own. -/
def execPnot (g : Guard) (w : SR) (s : State) : Host.Outcome State Fault Refusal :=
  runSolo (semPnot g w) (.pnot g w) s
/-- FADD (R129) as a bundle of its own. -/
def execFadd (g : Guard) (w : SR) (s : State) : Host.Outcome State Fault Refusal :=
  runSolo (semFadd g w) (.fadd g w) s
/-- FSUB (R129) as a bundle of its own. -/
def execFsub (g : Guard) (w : SR) (s : State) : Host.Outcome State Fault Refusal :=
  runSolo (semFsub g w) (.fsub g w) s
/-- FMUL (R129) as a bundle of its own. -/
def execFmul (g : Guard) (w : SR) (s : State) : Host.Outcome State Fault Refusal :=
  runSolo (semFmul g w) (.fmul g w) s
/-- FFMA (R129) as a bundle of its own. -/
def execFfma (g : Guard) (w : SR) (s : State) : Host.Outcome State Fault Refusal :=
  runSolo (semFfma g w) (.ffma g w) s
/-- FDIV (R129) as a bundle of its own. -/
def execFdiv (g : Guard) (w : SR) (s : State) : Host.Outcome State Fault Refusal :=
  runSolo (semFdiv g w) (.fdiv g w) s
/-- FSQRT (R129) as a bundle of its own. -/
def execFsqrt (g : Guard) (w : SR) (s : State) : Host.Outcome State Fault Refusal :=
  runSolo (semFsqrt g w) (.fsqrt g w) s
/-- FMIN (R129) as a bundle of its own. -/
def execFmin (g : Guard) (w : SR) (s : State) : Host.Outcome State Fault Refusal :=
  runSolo (semFmin g w) (.fmin g w) s
/-- FMAX (R129) as a bundle of its own. -/
def execFmax (g : Guard) (w : SR) (s : State) : Host.Outcome State Fault Refusal :=
  runSolo (semFmax g w) (.fmax g w) s
/-- FCMPEQ (R129) as a bundle of its own. -/
def execFcmpeq (g : Guard) (w : SR) (s : State) : Host.Outcome State Fault Refusal :=
  runSolo (semFcmpeq g w) (.fcmpeq g w) s
/-- FCMPLT (R129) as a bundle of its own. -/
def execFcmplt (g : Guard) (w : SR) (s : State) : Host.Outcome State Fault Refusal :=
  runSolo (semFcmplt g w) (.fcmplt g w) s
/-- FCMPLE (R129) as a bundle of its own. -/
def execFcmple (g : Guard) (w : SR) (s : State) : Host.Outcome State Fault Refusal :=
  runSolo (semFcmple g w) (.fcmple g w) s
/-- FCVTI (R130) as a bundle of its own. -/
def execFcvti (g : Guard) (w : SR) (s : State) : Host.Outcome State Fault Refusal :=
  runSolo (semFcvti g w) (.fcvti g w) s
/-- ICVTF (R130) as a bundle of its own. -/
def execIcvtf (g : Guard) (w : SR) (s : State) : Host.Outcome State Fault Refusal :=
  runSolo (semIcvtf g w) (.icvtf g w) s
/-- BR (R132) as a bundle of its own. -/
def execBr (g : Guard) (w : SB) (s : State) : Host.Outcome State Fault Refusal :=
  runSolo (semBr g w) (.br g w) s
/-- BRI (R132) as a bundle of its own. -/
def execBri (g : Guard) (w : SB) (s : State) : Host.Outcome State Fault Refusal :=
  runSolo (semBri g w) (.bri g w) s
/-- CALL (R132) as a bundle of its own. -/
def execCall (g : Guard) (w : SB) (s : State) : Host.Outcome State Fault Refusal :=
  runSolo (semCall g w) (.call g w) s
/-- CALLI (R132) as a bundle of its own. -/
def execCalli (g : Guard) (w : SB) (s : State) : Host.Outcome State Fault Refusal :=
  runSolo (semCalli g w) (.calli g w) s
/-- RET (R132) as a bundle of its own. -/
def execRet (g : Guard) (w : SB) (s : State) : Host.Outcome State Fault Refusal :=
  runSolo (semRet g w) (.ret g w) s
/-- LOOP (R133) as a bundle of its own. -/
def execLoop (g : Guard) (w : SB) (s : State) : Host.Outcome State Fault Refusal :=
  runSolo (semLoop g w) (.loop g w) s
/-- HBASE (R140) as a bundle of its own. -/
def execHbase (g : Guard) (w : SR) (s : State) : Host.Outcome State Fault Refusal :=
  runSolo (semHbase g w) (.hbase g w) s
/-- HSET (R140) as a bundle of its own. -/
def execHset (g : Guard) (w : SR) (s : State) : Host.Outcome State Fault Refusal :=
  runSolo (semHset g w) (.hset g w) s
/-- HSTEP (R140) as a bundle of its own. -/
def execHstep (g : Guard) (w : SR) (s : State) : Host.Outcome State Fault Refusal :=
  runSolo (semHstep g w) (.hstep g w) s
/-- HGET (R140) as a bundle of its own. -/
def execHget (g : Guard) (w : SR) (s : State) : Host.Outcome State Fault Refusal :=
  runSolo (semHget g w) (.hget g w) s
/-- HMOV (R140) as a bundle of its own. -/
def execHmov (g : Guard) (w : SR) (s : State) : Host.Outcome State Fault Refusal :=
  runSolo (semHmov g w) (.hmov g w) s
/-- LDS (R143) as a bundle of its own. -/
def execLds (g : Guard) (w : SM) (s : State) : Host.Outcome State Fault Refusal :=
  runSolo (semLds g w) (.lds g w) s
/-- STS (R143) as a bundle of its own. -/
def execSts (g : Guard) (w : SM) (s : State) : Host.Outcome State Fault Refusal :=
  runSolo (semSts g w) (.sts g w) s
/-- LDG (R145) as a bundle of its own. -/
def execLdg (g : Guard) (w : SG) (s : State) : Host.Outcome State Fault Refusal :=
  runSolo (semLdg g w) (.ldg g w) s
/-- STG (R146) as a bundle of its own. -/
def execStg (g : Guard) (w : SG) (s : State) : Host.Outcome State Fault Refusal :=
  runSolo (semStg g w) (.stg g w) s
/-- CRR (R148) as a bundle of its own. -/
def execCrr (g : Guard) (w : SI) (s : State) : Host.Outcome State Fault Refusal :=
  runSolo (semCrr g w) (.crr g w) s
/-- CRW (R267) as a bundle of its own. -/
def execCrw (g : Guard) (w : SI) (s : State) : Host.Outcome State Fault Refusal :=
  runSolo (semCrw g w) (.crw g w) s
/-- ZINS (R150) as a bundle of its own. -/
def execZins (g : Guard) (w : SR) (s : State) : Host.Outcome State Fault Refusal :=
  runSolo (semZins g w) (.zins g w) s
/-- ZEXT (R151) as a bundle of its own. -/
def execZext (g : Guard) (w : SR) (s : State) : Host.Outcome State Fault Refusal :=
  runSolo (semZext g w) (.zext g w) s

end Sys2Proof.Machine
end

