-- ==== Sys2Proof/Machine/Vector.lean ====
section
/-! DEFINITION. The vector slots: strand loads and stores, moves and permutes, floating-point and integer arithmetic,
conversion and quantisation, reductions, transcendental and scale operations, and the fabric-defined operations
(05 R152 to R182). -/

namespace Sys2Proof.Machine

/-! ### Shared forms -/

/-- The timing row of a V slot (01 R40). -/
def vRow : VSlot → Nat
  | .v0 => 1
  | .v1 => 2

/-- The beat a V operation taps from a strand (05 R152). -/
def View.z (v : View) (n : BitVec 6) : Beat := v.tap (station v.slot) n
/-- The poison places of tapped strands. -/
def zPlaces (v : View) (st : Nat) (l : List (BitVec 6)) : List UePlace :=
  l.map fun n => .beat n.toNat (ringAt st v.core.bt)

/-- FORMAT on an operand's tag (05 R158). -/
def needTag (v : View) (b : Beat) (opnd : Nat) (ok : Bool) : Option TrapReq :=
  if ok then none else some (trapTag v.slot b.tag opnd)
/-- FORMAT on the TAG field (05 R154, R158). -/
def needResult (v : View) (tag : Tag) (ok : Bool) : Option TrapReq := if ok then none else some (trapTag v.slot tag 3)
/-- RANGE of a part or an immediate (05 R158). -/
def needRange (v : View) (ok : Bool) : Option TrapReq := if ok then none else some (trapV causeRange v.slot 0 0)
/-- The first test that fails. -/
def firstTrap (l : List (Option TrapReq)) : Option TrapReq := l.findSome? id

/-- A V operation on beats: the strands it taps, its tests of check 5, its count of draws in SR, and the beat and flags it
drives at its bound (05 R152, R157). -/
def vecOp (vs : VSlot) (op : BitVec 8) (cls : Nat) (g : Guard) (w : VR) (zs : List (BitVec 6)) (test : View → Option TrapReq)
    (count : View → Nat) (f : View → RMode → List Nat → Beat × Flags) : OpSem :=
  { slot := vs.slot, op := op, guard := g, timing := some (vRow vs, cls, w.lat.toNat)
    reads := fun v => .preg g.pred.toNat :: zPlaces v (station v.slot) zs
    check5 := fun _ _ v => test v
    perform := fun key v a =>
      let mode := v.mode w.rm
      let d := drawsFor mode (count v) a.seed
      let r := f v mode d.1
      { a.core key fun c => (c.drive (station v.slot) v.core.bt w.lat.toNat w.zd (some r.1)).flagOr w.lat.toNat r.2 with
        seed := d.2 } }

/-- A V operation that takes no draw and sets no flag. -/
def movOp (vs : VSlot) (op : BitVec 8) (cls : Nat) (g : Guard) (w : VR) (zs : List (BitVec 6)) (test : View → Option TrapReq)
    (f : View → Beat) : OpSem := vecOp vs op cls g w zs test (fun _ => 0) fun v _ _ => (f v, 0)

/-- Joins element results and flags into a beat. -/
def beatOf (tag : Tag) (l : List (Nat × Flags)) : Beat × Flags := (tagBeat tag (l.map fun q => q.1), Flags.all (l.map fun q => q.2))

/-- The tags a, b (and c) of an operation whose sources share one format (05 R158); `norm` counts ACC32 as FP32. -/
def sameTags (v : View) (ok : Tag → Bool) (norm : Bool) (zs : List (BitVec 6)) : Option TrapReq :=
  let key := fun (t : Tag) => if norm then normTag t else t
  let t0 := (v.z (zs.headD 0)).tag
  firstTrap (zs.mapIdx fun i n => needTag v (v.z n) i (ok (v.z n).tag && key (v.z n).tag == key t0))

/-! ### Scratchpad loads and stores (05 R160 to R162) -/

/-- The held address of a VM word (02 R60). -/
def vmBase (w : VM) (v : View) : Addrs := { a := v.s 1 w.a + w.off.signExtend 64 * 16 }
/-- Its step per issue. -/
def vmStep (w : VM) (_ : View) (x : Addrs) : Except TrapReq Addrs := .ok { x with a := x.a + w.step.signExtend 64 * 16 }

/-- ALIGN, then RANGE, of a strand access (05 R160). -/
def beatTest (v : View) : Option TrapReq :=
  let a := v.addrs.a.toNat
  if a % 512 ≠ 0 then some (trapV causeAlign v.slot a 0)
  else if v.core.spadSize < a + 512 then some (trapV causeRange v.slot a 0) else none

/-- VLD (05 R160) -/
def semVld (vs : VSlot) (g : Guard) (w : VM) : OpSem :=
  { slot := vs.slot, op := 0x01, guard := g, timing := some (vRow vs, 7, w.lat.toNat)
    reads := fun v => [.preg g.pred.toNat, .sreg w.a.toNat] ++
      (List.range 32).map fun i => .spad (v.addrs.a.toNat / 16 * 16 + 16 * i)
    base := vmBase w, step := vmStep w
    check5 := fun _ _ v => beatTest v
    wait := fun _ _ v => if w.qf ≠ 0 ∧ v.core.feEmpty v.addrs.a.toNat 512 then some acctFullEmpty else none
    belt := fun v => some (if vs = .v0 then (1, 1, v.addrs.a.toNat, 512) else (2, 2, v.addrs.a.toNat, 512))
    perform := fun key v a =>
      let n := v.addrs.a.toNat
      let bs := if w.qf = 0 then v.spadBytes n 512 else v.feBytes n 512
      let st := if vs = .v0 then 0 else 10
      a.core key fun c =>
        let c := if w.qf = 0 then c else c.feRead w.qf n 512
        c.drive st v.core.bt w.lat.toNat w.z (some { data := BitVec.ofNat 4096 (leNat bs), side := 0, tag := 0x01 }) }

/-- VST (05 R161, R162) -/
def semVst (vs : VSlot) (g : Guard) (w : VM) : OpSem :=
  { slot := vs.slot, op := 0x02, guard := g, timing := some (vRow vs, 7, w.lat.toNat), strandStore := true
    reads := fun v => [.preg g.pred.toNat, .sreg w.a.toNat] ++ zPlaces v 17 [w.z]
    base := vmBase w, step := vmStep w
    check5 := fun _ _ v => (needTag v (v.tap 17 w.z) 0 (v.core.tagKnown (v.tap 17 w.z).tag)).orElse fun _ => beatTest v
    belt := fun v => some (if vs = .v0 then (1, 0, v.addrs.a.toNat, 512) else (2, 0, v.addrs.a.toNat, 512))
    perform := fun key v a => a.core key fun c =>
      c.pendWrite w.lat.toNat (.spad v.addrs.a.toNat (leBytes 512 (v.tap 17 w.z).data.toNat) (w.qf == 1)) }

/-! ### Moves, tags and permutes (05 R163 to R167) -/

/-- VMOV (05 R163) -/
def semVmov (vs : VSlot) (g : Guard) (w : VR) : OpSem :=
  movOp vs 0x03 0 g w [w.za] (fun v => needTag v (v.z w.za) 0 (v.core.tagKnown (v.z w.za).tag)) fun v => v.z w.za

/-- VTAG (05 R163) -/
def semVtag (vs : VSlot) (g : Guard) (w : VR) : OpSem :=
  movOp vs 0x08 0 g w [w.za]
    (fun v => firstTrap [needTag v (v.z w.za) 0 (v.core.tagKnown (v.z w.za).tag), needResult v w.tag (v.core.tagKnown w.tag)])
    fun v => { v.z w.za with tag := w.tag }

/-- VPERM (05 R164) -/
def semVperm (vs : VSlot) (g : Guard) (w : VR) : OpSem :=
  movOp vs 0x04 0 g w [w.za, w.zb]
    (fun v =>
      let t := (v.z w.za).tag
      firstTrap [needTag v (v.z w.za) 0 ((isF t || isI t || (isFmt t && v.core.tagKnown t)) && (v.core.tagBits t == 16 || v.core.tagBits t == 32)),
        needTag v (v.z w.zb) 1 ((v.z w.zb).tag == 0x05)])
    fun v =>
      let a := v.z w.za
      let wd := v.core.tagBits a.tag
      let es := splitBits wd (4096 / wd) a.data.toNat
      elemBeat wd a.tag (((v.z w.zb).elems.take es.length).map fun i => es.getD i 0)

/-- VBCST from an s register (05 R165) -/
def semVbcstScalar (vs : VSlot) (g : Guard) (w : VR) : OpSem :=
  { movOp vs 0x05 0 g w []
      (fun v => needResult v w.tag (isNative w.tag && !isZ w.tag && w.tag != 0x18))
      fun v => tagBeat w.tag (List.replicate (tagCount w.tag) ((v.s 1 w.za).toNat % 2 ^ tagWidth w.tag)) with
    reads := fun _ => [.preg g.pred.toNat, .sreg w.za.toNat] }

/-- A tag of classes F, F8, I, E or RAW. -/
def isPlainTag (t : Tag) : Bool := isF t || isF8 t || isI t || t == 0x18 || t == 0x01

/-- VBCST of an element (05 R165) -/
def semVbcstElement (vs : VSlot) (g : Guard) (w : VR) : OpSem :=
  let i := (w.fn.extractLsb' 0 10).toNat
  movOp vs 0x05 0 g w [w.za]
    (fun v => firstTrap [needTag v (v.z w.za) 0 (isPlainTag (v.z w.za).tag), needRange v (decide (i < tagCount (v.z w.za).tag))])
    fun v => tagBeat (v.z w.za).tag (List.replicate (tagCount (v.z w.za).tag) ((v.z w.za).elems.getD i 0))

/-- Elements of two lists in turn. -/
def interleave : List Nat → List Nat → List Nat
  | x :: xs, y :: ys => x :: y :: interleave xs ys
  | _, _ => []
/-- The elements at even places. -/
def evens : List Nat → List Nat
  | x :: _ :: l => x :: evens l
  | l => l

/-- The pattern of VSHUF (05 R166). -/
def shuffle (pat rot : Nat) (a b : List Nat) : List Nat :=
  let n := a.length
  match pat with
  | 0 => interleave (a.take (n / 2)) (b.take (n / 2))
  | 1 => interleave (a.drop (n / 2)) (b.drop (n / 2))
  | 2 => evens a ++ evens b
  | 3 => evens (a.drop 1) ++ evens (b.drop 1)
  | _ => ((a ++ b).drop rot).take n

/-- The sidecar of a result that no rule gives: RAW results of VSHUF and the bitwise operations (log 10); every other format's
is zero (03 R90, R100). -/
def View.openSide (v : View) (t : Tag) : Side := if t = 0x01 then v.undef 32 1024 else 0

/-- VSHUF (05 R166) -/
def semVshuf (vs : VSlot) (g : Guard) (w : VR) : OpSem :=
  let pat := (w.fn.extractLsb' 0 3).toNat
  let rot := (w.fn.extractLsb' 3 10).toNat
  movOp vs 0x06 0 g w [w.za, w.zb]
    (fun v => firstTrap [sameTags v isPlainTag false [w.za, w.zb],
      needRange v (pat != 4 || decide (rot < tagCount (v.z w.za).tag))])
    fun v =>
      let t := (v.z w.za).tag
      { tagBeat t (shuffle pat rot (v.z w.za).elems (v.z w.zb).elems) with side := v.openSide t }

/-- VSEL (05 R167) -/
def semVsel (vs : VSlot) (g : Guard) (w : VR) : OpSem :=
  movOp vs 0x07 0 g w [w.za, w.zb, w.zc]
    (fun v => firstTrap [sameTags v isPlainTag false [w.za, w.zb],
      needTag v (v.z w.zc) 2 ((v.z w.zc).tag == uintTag (tagWidth (v.z w.za).tag))])
    fun v =>
      let ab := (v.z w.za).elems.zip (v.z w.zb).elems
      tagBeat (v.z w.za).tag ((ab.zip (v.z w.zc).elems).map fun q => if q.2 ≠ 0 then q.1.1 else q.1.2)

/-! ### Floating-point arithmetic (05 R168 to R170) -/

/-- The result format, first source element and result count of R168; none for a TAG it refuses. -/
def arithResult (w : VR) (src : Tag) : Option (Tag × Nat × Nat) :=
  let s := normTag src
  if w.tag = 0 ∨ w.tag = s then some (s, 0, tagCount s)
  else if w.tag = 0x08 ∧ (s = 0x09 ∨ s = 0x0A) then some (0x08, if w.fn.getLsbD 0 then 128 else 0, 128)
  else none

/-- The elements of an operation of R168 and their flags, in a mode and with its draws. -/
def arithBeat (w : VR) (zs : List (BitVec 6)) (f : RMode → List Fv → Fv × Flags) (v : View) (mode : RMode) (ds : List Nat) : Beat × Flags :=
  let r := (arithResult w (v.z w.za).tag).getD (0, 0, 0)
  let src := fmtOf (v.z w.za).tag
  let cols := zs.map fun n => ((v.z n).elems.drop r.2.1).take r.2.2
  beatOf r.1 ((List.range r.2.2).map fun i =>
    let x := f mode (cols.map fun c => src.value (c.getD i 0))
    let y := round (fmtOf r.1) mode (w.sat == 1) (ds.getD i 0) x.1
    (y.1, x.2 ||| y.2))

/-- An operation of R168 on the values of its sources, rounded once per element. -/
def fpArith (vs : VSlot) (op : BitVec 8) (g : Guard) (w : VR) (zs : List (BitVec 6)) (f : RMode → List Fv → Fv × Flags) : OpSem :=
  vecOp vs op 3 g w zs
    (fun v =>
      let r := arithResult w (v.z w.za).tag
      firstTrap [sameTags v isF true zs, needResult v w.tag r.isSome,
        needRange v (!(w.fn.getLsbD 0 && (r.getD (0, 0, 0)).1 == normTag (v.z w.za).tag))])
    (fun v => ((arithResult w (v.z w.za).tag).getD (0, 0, 0)).2.2) (arithBeat w zs f)

/-- The value at a place of a list of values. -/
def fvAt (l : List Fv) (i : Nat) : Fv := l.getD i (.nan false)

/-- VADD (05 R168) -/
def semVadd (vs : VSlot) (g : Guard) (w : VR) : OpSem :=
  fpArith vs 0x10 g w [w.za, w.zb] fun m x => (fvAt x 0).add m (fvAt x 1)
/-- VSUB (05 R168) -/
def semVsub (vs : VSlot) (g : Guard) (w : VR) : OpSem :=
  fpArith vs 0x11 g w [w.za, w.zb] fun m x => (fvAt x 0).add m (fvAt x 1).negate
/-- VMUL (05 R168) -/
def semVmul (vs : VSlot) (g : Guard) (w : VR) : OpSem :=
  fpArith vs 0x12 g w [w.za, w.zb] fun _ x => (fvAt x 0).mul (fvAt x 1)
/-- VFMA (05 R168) -/
def semVfma (vs : VSlot) (g : Guard) (w : VR) : OpSem :=
  fpArith vs 0x13 g w [w.za, w.zb, w.zc] fun m x => Fv.fma m (fvAt x 0) (fvAt x 1) (fvAt x 2)
/-- VFMS (05 R168) -/
def semVfms (vs : VSlot) (g : Guard) (w : VR) : OpSem :=
  fpArith vs 0x14 g w [w.za, w.zb, w.zc] fun m x => Fv.fma m (fvAt x 0) (fvAt x 1) (fvAt x 2).negate

/-- VMIN and VMAX: exact (05 R169). -/
def fpPickV (vs : VSlot) (op : BitVec 8) (g : Guard) (w : VR) (max : Bool) : OpSem :=
  vecOp vs op 3 g w [w.za, w.zb] (fun v => sameTags v isF true [w.za, w.zb]) (fun _ => 0) fun v _ _ =>
    let t := normTag (v.z w.za).tag
    beatOf t (((v.z w.za).elems.zip (v.z w.zb).elems).map fun q => fpMinMax (fmtOf t) max q.1 q.2)
/-- VMIN (05 R169) -/
def semVmin (vs : VSlot) (g : Guard) (w : VR) : OpSem := fpPickV vs 0x15 g w false
/-- VMAX (05 R169) -/
def semVmax (vs : VSlot) (g : Guard) (w : VR) : OpSem := fpPickV vs 0x16 g w true

/-- VABS and VNEG on every element that is no NaN (05 R169). -/
def fpSign (vs : VSlot) (op : BitVec 8) (g : Guard) (w : VR) (f : Bool → Bool) : OpSem :=
  vecOp vs op 0 g w [w.za] (fun v => needTag v (v.z w.za) 0 (isF (v.z w.za).tag)) (fun _ => 0) fun v _ _ =>
    let t := normTag (v.z w.za).tag
    let half := 2 ^ (tagWidth t - 1)
    beatOf t ((v.z w.za).elems.map fun x =>
      let y := (fmtOf t).value x
      if y.isNan then ((fmtOf t).defaultNan, Flags.when y.isSnan Flags.invalid)
      else ((if f (decide (half ≤ x)) then half else 0) + x % half, 0))
/-- VABS (05 R169) -/
def semVabs (vs : VSlot) (g : Guard) (w : VR) : OpSem := fpSign vs 0x17 g w fun _ => false
/-- VNEG (05 R169) -/
def semVneg (vs : VSlot) (g : Guard) (w : VR) : OpSem := fpSign vs 0x18 g w fun n => !n

/-- All bits of an element set, or zero. -/
def maskElem (w : Nat) (b : Bool) : Nat := if b then 2 ^ w - 1 else 0
/-- A relation code 0 to 5 on an order (05 R170, R173). -/
def relOf (code : Nat) (o : Ordering) : Bool :=
  match code with
  | 0 => o == .eq
  | 1 => o != .eq
  | 2 => o == .lt
  | 3 => o != .gt
  | 4 => o == .gt
  | _ => o != .lt

/-- One element of VCMP: its mask and its flags (05 R170). -/
def cmpElem (rel wd : Nat) (x y : Fv) : Nat × Flags :=
  let un := x.isNan || y.isNan
  (maskElem wd (if rel = 6 then un else if un then rel == 1 else relOf rel (x.cmp y)),
    Flags.when (x.isSnan || y.isSnan || (un && decide (2 ≤ rel) && decide (rel ≤ 5))) Flags.invalid)

/-- VCMP (05 R170) -/
def semVcmp (vs : VSlot) (g : Guard) (w : VR) : OpSem :=
  vecOp vs 0x19 1 g w [w.za, w.zb] (fun v => sameTags v isF true [w.za, w.zb]) (fun _ => 0) fun v _ _ =>
    let t := normTag (v.z w.za).tag
    beatOf (uintTag (tagWidth t)) (((v.z w.za).elems.zip (v.z w.zb).elems).map fun q =>
      cmpElem (w.fn.extractLsb' 0 3).toNat (tagWidth t) ((fmtOf t).value q.1) ((fmtOf t).value q.2))

/-! ### Integer and logic operations (05 R171 to R173) -/

/-- An integer operation on sources of one tag (05 R171). -/
def intArith (vs : VSlot) (op : BitVec 8) (cls : Nat) (g : Guard) (w : VR) (zs : List (BitVec 6)) (f : List Int → Int) : OpSem :=
  vecOp vs op cls g w zs (fun v => sameTags v isI false zs) (fun _ => 0) fun v _ _ =>
    let t := (v.z w.za).tag
    let cols := zs.map fun n => (v.z n).elems
    beatOf t ((List.range (tagCount t)).map fun i => intResult t (w.sat == 1) (f (cols.map fun c => intOf t (c.getD i 0))))
/-- The integer at a place of a list. -/
def intAt (l : List Int) (i : Nat) : Int := l.getD i 0
/-- VIADD (05 R171) -/
def semViadd (vs : VSlot) (g : Guard) (w : VR) : OpSem := intArith vs 0x20 1 g w [w.za, w.zb] fun x => intAt x 0 + intAt x 1
/-- VISUB (05 R171) -/
def semVisub (vs : VSlot) (g : Guard) (w : VR) : OpSem := intArith vs 0x21 1 g w [w.za, w.zb] fun x => intAt x 0 - intAt x 1
/-- VIMUL (05 R171) -/
def semVimul (vs : VSlot) (g : Guard) (w : VR) : OpSem := intArith vs 0x22 2 g w [w.za, w.zb] fun x => intAt x 0 * intAt x 1
/-- VIMAD (05 R171) -/
def semVimad (vs : VSlot) (g : Guard) (w : VR) : OpSem :=
  intArith vs 0x23 2 g w [w.za, w.zb, w.zc] fun x => intAt x 0 * intAt x 1 + intAt x 2
/-- VIMIN (05 R171) -/
def semVimin (vs : VSlot) (g : Guard) (w : VR) : OpSem :=
  intArith vs 0x2A 1 g w [w.za, w.zb] fun x => if intAt x 0 ≤ intAt x 1 then intAt x 0 else intAt x 1
/-- VIMAX (05 R171) -/
def semVimax (vs : VSlot) (g : Guard) (w : VR) : OpSem :=
  intArith vs 0x2B 1 g w [w.za, w.zb] fun x => if intAt x 0 ≤ intAt x 1 then intAt x 1 else intAt x 0

/-- A bitwise operation over all data bytes (05 R171). -/
def bitwise (vs : VSlot) (op : BitVec 8) (g : Guard) (w : VR) (f : Data → Data → Data) : OpSem :=
  movOp vs op 1 g w [w.za, w.zb] (fun v => sameTags v (fun t => isI t || t == 0x01) false [w.za, w.zb]) fun v =>
    { data := f (v.z w.za).data (v.z w.zb).data, side := v.openSide (v.z w.za).tag, tag := (v.z w.za).tag }
/-- VAND (05 R171) -/
def semVand (vs : VSlot) (g : Guard) (w : VR) : OpSem := bitwise vs 0x24 g w fun x y => x &&& y
/-- VOR (05 R171) -/
def semVor (vs : VSlot) (g : Guard) (w : VR) : OpSem := bitwise vs 0x25 g w fun x y => x ||| y
/-- VXOR (05 R171) -/
def semVxor (vs : VSlot) (g : Guard) (w : VR) : OpSem := bitwise vs 0x26 g w fun x y => x ^^^ y

/-- A shift of every element by FN[4:0] (05 R172); `f` takes the width, the amount and the element. -/
def shiftOp (vs : VSlot) (op : BitVec 8) (g : Guard) (w : VR) (f : Nat → Nat → Nat → Nat) : OpSem :=
  movOp vs op 1 g w [w.za] (fun v => needTag v (v.z w.za) 0 (isI (v.z w.za).tag)) fun v =>
    let t := (v.z w.za).tag
    tagBeat t ((v.z w.za).elems.map fun x => f (tagWidth t) (w.fn.extractLsb' 0 5).toNat x)
/-- VSHL (05 R172) -/
def semVshl (vs : VSlot) (g : Guard) (w : VR) : OpSem := shiftOp vs 0x27 g w fun k n x => (x <<< n) % 2 ^ k
/-- VSHR (05 R172) -/
def semVshr (vs : VSlot) (g : Guard) (w : VR) : OpSem := shiftOp vs 0x28 g w fun _ n x => x >>> n
/-- VSAR (05 R172) -/
def semVsar (vs : VSlot) (g : Guard) (w : VR) : OpSem := shiftOp vs 0x29 g w fun k n x => wrapTo k (signedBits k x / 2 ^ n)

/-- VICMP (05 R173) -/
def semVicmp (vs : VSlot) (g : Guard) (w : VR) : OpSem :=
  movOp vs 0x2C 1 g w [w.za, w.zb] (fun v => sameTags v isI false [w.za, w.zb]) fun v =>
    let t := (v.z w.za).tag
    tagBeat (uintTag (tagWidth t)) (((v.z w.za).elems.zip (v.z w.zb).elems).map fun q =>
      maskElem (tagWidth t) (relOf (w.fn.extractLsb' 0 3).toNat (compare (intOf t q.1) (intOf t q.2))))

/-! ### Conversion and quantisation (05 R155, R174 to R176) -/

/-- PART and ZM of a conversion. -/
def vrPart (w : VR) : Nat := (w.fn.extractLsb' 0 3).toNat
/-- ZM = 1: the other elements are zero. -/
def vrZm (w : VR) : Bool := w.fn.getLsbD 3
/-- The strands that a conversion with a merge taps. -/
def vrMergeZ (w : VR) : List (BitVec 6) := if vrZm w then [] else [w.zc]
/-- With ZM = 0, c must carry the result tag (05 R155). -/
def mergeTest (v : View) (w : VR) : Option TrapReq :=
  if vrZm w then none else needTag v (v.z w.zc) 2 (v.core.tagKnown (v.z w.zc).tag && (v.z w.zc).tag == w.tag)

/-- Blocks placed among those of c, or among zero blocks (05 R155). -/
def placeBlocks (v : View) (w : VR) (dst : Nat) (bs : List Blk) : Beat :=
  let m := zbM w.tag
  let old := if vrZm w then List.replicate (zbBlocks m) zeroBlock else (v.z w.zc).blocks
  { zbBeat m (spliceAt old dst bs) with tag := w.tag }

/-- Elements placed among those of c, or among zeros (05 R155). -/
def placeElems (v : View) (w : VR) (dst : Nat) (l : List (Nat × Flags)) : Beat × Flags :=
  let old := if vrZm w then List.replicate (tagCount w.tag) 0 else (v.z w.zc).elems
  (tagBeat w.tag (spliceAt old dst (l.map fun q => q.1)), Flags.all (l.map fun q => q.2))

/-- Quantises consecutive groups of sixteen values; `lo` gives each block's least exponent, or none for a NaN block. -/
def quantGroups (srcMax : Nat → Dy) (m : Nat) (mode : RMode) (sat force : Bool) (lo : Nat → Option Nat) (ds : List Nat) :
    Nat → List (List Fv) → List (Blk × Flags)
  | _, [] => []
  | i, x :: l =>
    (match lo i with
      | none => (nanBlock, 0)
      | some e => quantiseBlock (srcMax i) x m mode sat force e ((ds.drop (16 * i)).take 16)) ::
    quantGroups srcMax m mode sat force lo ds (i + 1) l

/-- The part that VCVT and VQZB convert: its first source element, its first result element and its count; none for RANGE. -/
def cvtPlace (w : VR) (v : View) : Option (Nat × Nat × Nat) := placeOf (tagCount (v.z w.za).tag) (tagCount w.tag) (vrPart w)

/-- The beat and flags of VCVT (05 R174). -/
def cvtBeat (w : VR) (v : View) (mode : RMode) (ds : List Nat) : Beat × Flags :=
  let t := (v.z w.za).tag
  let p := (cvtPlace w v).getD (0, 0, 0)
  let xs := ((v.z w.za).values.drop p.1).take p.2.2
  if isZ w.tag then
    let r := quantGroups (fun _ => (fmtOf t).maxDy) (zbM w.tag) mode (w.sat == 1) false (fun _ => some 1) ds 0
      (groupsOf 16 (p.2.2 / 16) xs)
    (placeBlocks v w (p.2.1 / 16) (r.map fun q => q.1), Flags.all (r.map fun q => q.2))
  else
    let raws := if isZ t then [] else ((v.z w.za).elems.drop p.1).take p.2.2
    placeElems v w p.2.1 (xs.mapIdx fun i x => cvtElem t w.tag mode (w.sat == 1) (ds.getD i 0) (raws.getD i 0) x)

/-- VCVT (05 R174) -/
def semVcvt (vs : VSlot) (g : Guard) (w : VR) : OpSem :=
  vecOp vs 0x30 4 g w (w.za :: (vrMergeZ w))
    (fun v =>
      let t := (v.z w.za).tag
      firstTrap [needTag v (v.z w.za) 0 (isF t || isF8 t || isI t || isZ t || t == 0x18), mergeTest v w,
        needResult v w.tag (cvtPair t w.tag), needRange v (cvtPlace w v).isSome])
    (fun v => if cvtExact (v.z w.za).tag w.tag then 0 else ((cvtPlace w v).getD (0, 0, 0)).2.2) (cvtBeat w)

/-- The least exponent that XS of VQZB gives result block k: byte k of b, none for a NaN block (05 R175). -/
def qzbLow (w : VR) (v : View) (k : Nat) : Option Nat :=
  if !w.fn.getLsbD 4 then some 1
  else
    let e := ((v.z w.zb).data.toNat >>> (8 * k)) % 256
    if e = 255 then none else some e

/-- The beat and flags of VQZB (05 R175). -/
def qzbBeat (w : VR) (v : View) (mode : RMode) (ds : List Nat) : Beat × Flags :=
  let p := (cvtPlace w v).getD (0, 0, 0)
  let r := quantGroups (fun _ => (fmtOf (v.z w.za).tag).maxDy) (zbM w.tag) mode (w.sat == 1) (w.fn.getLsbD 5)
    (fun i => qzbLow w v (p.2.1 / 16 + i)) ds 0 (groupsOf 16 (p.2.2 / 16) (((v.z w.za).values.drop p.1).take p.2.2))
  (placeBlocks v w (p.2.1 / 16) (r.map fun q => q.1), Flags.all (r.map fun q => q.2))

/-- VQZB (05 R175) -/
def semVqzb (vs : VSlot) (g : Guard) (w : VR) : OpSem :=
  vecOp vs 0x31 4 g w (w.za :: (if w.fn.getLsbD 4 then [w.zb] else []) ++ (vrMergeZ w))
    (fun v =>
      let t := (v.z w.za).tag
      firstTrap [needTag v (v.z w.za) 0 (isF t || isF8 t),
        if w.fn.getLsbD 4 then needTag v (v.z w.zb) 1 ((v.z w.zb).tag == 0x18) else none,
        mergeTest v w, needResult v w.tag (isZ w.tag), needRange v (cvtPlace w v).isSome])
    (fun v => ((cvtPlace w v).getD (0, 0, 0)).2.2) (qzbBeat w)

/-- KIND of VMXI (05 R176): the tag of a, its element count, and its values. -/
def mxSource (kind : Nat) : Tag × Nat × (Beat → List Fv) :=
  match kind with
  | 0 => (0x0B, 512, fun b => b.bytes.map e4m3.value)
  | 1 => (0x0C, 512, fun b => b.bytes.map e5m2.value)
  | _ => (0x01, 1024, fun b => (splitBits 4 1024 b.data.toNat).map e2m1Value)
/-- The largest finite value of an MX element type. -/
def mxMax (kind : Nat) : Dy := match kind with | 0 => e4m3.maxDy | 1 => e5m2.maxDy | _ => ⟨false, 6, 0⟩
/-- KIND. -/
def mxKind (w : VR) : Nat := (w.fn.extractLsb' 4 2).toNat
/-- 32 × SBASE. -/
def mxBase (w : VR) : Nat := 32 * (w.fn.extractLsb' 6 4).toNat
/-- The part that VMXI converts. -/
def mxPlace (w : VR) : Option (Nat × Nat × Nat) := placeOf (mxSource (mxKind w)).2.1 (tagCount w.tag) (vrPart w)
/-- The scale of source element j: byte 32 × SBASE + j div 32 of b. -/
def mxScale (w : VR) (v : View) (j : Nat) : Nat := ((v.z w.zb).data.toNat >>> (8 * (mxBase w + j / 32))) % 256

/-- The beat and flags of VMXI (05 R176, 03 R99). -/
def mxiBeat (w : VR) (v : View) (mode : RMode) (ds : List Nat) : Beat × Flags :=
  let p := (mxPlace w).getD (0, 0, 0)
  let scale := fun i => mxScale w v (p.1 + 16 * i)
  let xs := (groupsOf 16 (p.2.2 / 16) ((((mxSource (mxKind w)).2.2 (v.z w.za)).drop p.1).take p.2.2)).mapIdx fun i l =>
    l.map fun x => x.scale ((scale i : Int) - 127)
  let r := quantGroups (fun i => (mxMax (mxKind w)).scale ((scale i : Int) - 127)) (zbM w.tag) mode (w.sat == 1) true
    (fun i => if scale i = 255 then none else some 1) ds 0 xs
  (placeBlocks v w (p.2.1 / 16) (r.map fun q => q.1), Flags.all (r.map fun q => q.2))

/-- VMXI (05 R176) -/
def semVmxi (vs : VSlot) (g : Guard) (w : VR) : OpSem :=
  vecOp vs 0x32 4 g w (w.za :: w.zb :: (vrMergeZ w))
    (fun v => firstTrap [needTag v (v.z w.za) 0 ((v.z w.za).tag == (mxSource (mxKind w)).1), needTag v (v.z w.zb) 1 ((v.z w.zb).tag == 0x18),
      mergeTest v w, needResult v w.tag (isZ w.tag),
      needRange v (match mxPlace w with | some p => decide (mxBase w + (p.1 + p.2.2 - 1) / 32 < 512) | none => false)])
    (fun _ => ((mxPlace w).getD (0, 0, 0)).2.2) (mxiBeat w)

/-! ### Reductions (05 R177) -/

/-- g and ACC of a reduction. -/
def vrGrp (w : VR) : Nat := (w.fn.extractLsb' 0 4).toNat
/-- ACC = 1: c takes part. -/
def vrAcc (w : VR) : Bool := w.fn.getLsbD 4

/-- The result tag of VRSUM, and whether R177 allows it. -/
def sumTag (w : VR) (src : Tag) : Tag × Bool :=
  let s := normTag src
  if w.tag = 0 ∨ w.tag = s then (s, true)
  else (w.tag, (w.tag == 0x08 && (s == 0x09 || s == 0x0A)) || (w.tag == 0x06 && isI s && isSigned s) ||
    (w.tag == 0x07 && isI s && !isSigned s))

/-- How a reduction reduces a group with its accumulator. -/
abbrev Reducer := Tag → Tag → RMode → Nat → List Nat → List Nat → Nat × Flags

/-- The beat and flags of a reduction to the tag t: each group's result, then zeros. -/
def reduceBeat (w : VR) (t : Tag) (f : Reducer) (v : View) (mode : RMode) (ds : List Nat) : Beat × Flags :=
  let src := (v.z w.za).tag
  let n := tagCount src / 2 ^ vrGrp w
  let cs := if vrAcc w then (v.z w.zc).elems else []
  let rs := (groupsOf (2 ^ vrGrp w) n (v.z w.za).elems).mapIdx fun k l => f src t mode (ds.getD k 0) l ((cs.drop k).take 1)
  beatOf t (rs ++ List.replicate (tagCount t - n) (0, 0))

/-- A reduction: `tag` gives the result tag and whether it is allowed, `f` reduces a group with its accumulator. -/
def reduceOp (vs : VSlot) (op : BitVec 8) (g : Guard) (w : VR) (tag : Tag → Tag × Bool) (draw : Bool)
    (f : Reducer) : OpSem :=
  let src := fun (v : View) => (v.z w.za).tag
  let groups := fun (v : View) => tagCount (src v) / 2 ^ (vrGrp w)
  vecOp vs op 5 g w (w.za :: if vrAcc w then [w.zc] else [])
    (fun v =>
      let t := tag (src v)
      firstTrap [needTag v (v.z w.za) 0 (isF (src v) || isI (src v)),
        if vrAcc w then needTag v (v.z w.zc) 2 ((v.z w.zc).tag == t.1) else none, needResult v w.tag t.2,
        needRange v ((vrGrp w) != 0 && decide (2 ^ (vrGrp w) ≤ tagCount (src v)) && decide (groups v ≤ tagCount t.1))])
    (fun v => if draw ∧ isF (src v) then groups v else 0)
    fun v => reduceBeat w (tag (src v)).1 f v

/-- A group's sum, rounded once (05 R177). -/
def sumReducer (w : VR) : Reducer := fun s t mode d l c =>
  if isI s then intResult t (w.sat == 1) ((l.map (intOf s)).foldl (· + ·) 0 + (c.map (intOf t)).foldl (· + ·) 0)
  else
    let x := groupSum mode (l.map (fmtOf s).value ++ c.map (fmtOf t).value)
    let r := round (fmtOf t) mode (w.sat == 1) d x.1
    (r.1, x.2 ||| r.2)

/-- VRSUM (05 R177) -/
def semVrsum (vs : VSlot) (g : Guard) (w : VR) : OpSem :=
  reduceOp vs 0x40 g w (sumTag w) true (sumReducer w)

/-- The maximum or minimum of integers. -/
def intPick (max : Bool) : List Int → Int
  | [] => 0
  | x :: l => l.foldl (fun a y => if max then (if a ≤ y then y else a) else (if a ≤ y then a else y)) x

/-- A group's maximum or minimum (05 R177). -/
def pickReducer (max : Bool) : Reducer := fun s t _ _ l c =>
  if isI s then (wrapTo (tagWidth t) (intPick max ((l ++ c).map (intOf s))), 0) else groupPick (fmtOf t) max (l ++ c)

/-- VRMAX and VRMIN (05 R177) -/
def reducePick (vs : VSlot) (op : BitVec 8) (g : Guard) (w : VR) (max : Bool) : OpSem :=
  reduceOp vs op g w (fun s => (normTag s, true)) false (pickReducer max)
/-- VRMAX (05 R177) -/
def semVrmax (vs : VSlot) (g : Guard) (w : VR) : OpSem := reducePick vs 0x41 g w true
/-- VRMIN (05 R177) -/
def semVrmin (vs : VSlot) (g : Guard) (w : VR) : OpSem := reducePick vs 0x42 g w false

/-! ### Transcendental operations (05 R178) -/

/-- An element of a transcendental operation (03 R113). -/
def transElem (f : Trans) (t : Tag) (mode : RMode) (sat : Bool) (d x : Nat) : Nat × Flags :=
  let y := f.value mode ((fmtOf t).value x)
  let r := round (fmtOf t) mode sat d y.1
  (r.1, y.2 ||| r.2)

/-- An operation of class 6: every element by its algorithm, with one final rounding (05 R178, 03 R113). -/
def transOp (vs : VSlot) (op : BitVec 8) (g : Guard) (w : VR) (f : Trans) : OpSem :=
  vecOp vs op 6 g w [w.za] (fun v => needTag v (v.z w.za) 0 (isF (v.z w.za).tag)) (fun v => tagCount (v.z w.za).tag)
    fun v mode ds =>
      let t := normTag (v.z w.za).tag
      beatOf t ((v.z w.za).elems.mapIdx fun i x => transElem f t mode (w.sat == 1) (ds.getD i 0) x)
/-- VEXP2 (05 R178) -/
def semVexp2 (vs : VSlot) (g : Guard) (w : VR) : OpSem := transOp vs 0x50 g w .exp2
/-- VLOG2 (05 R178) -/
def semVlog2 (vs : VSlot) (g : Guard) (w : VR) : OpSem := transOp vs 0x51 g w .log2
/-- VRCP (05 R178) -/
def semVrcp (vs : VSlot) (g : Guard) (w : VR) : OpSem := transOp vs 0x52 g w .rcp
/-- VRSQ (05 R178) -/
def semVrsq (vs : VSlot) (g : Guard) (w : VR) : OpSem := transOp vs 0x53 g w .rsq
/-- VSIN (05 R178) -/
def semVsin (vs : VSlot) (g : Guard) (w : VR) : OpSem := transOp vs 0x54 g w .sin
/-- VCOS (05 R178) -/
def semVcos (vs : VSlot) (g : Guard) (w : VR) : OpSem := transOp vs 0x55 g w .cos

/-! ### Scale operations (05 R179 to R181) -/

/-- L of R179: the header bytes of a ZB beat. -/
def headerLen (t : Tag) : Nat := 2 * zbBlocks (zbM t)

/-- VSCGET (05 R179) -/
def semVscget (vs : VSlot) (g : Guard) (w : VR) : OpSem :=
  let q := 64 * (w.fn.extractLsb' 0 3).toNat
  movOp vs 0x60 4 g w [w.za, w.zb]
    (fun v => firstTrap [needTag v (v.z w.za) 0 (isZ (v.z w.za).tag), needTag v (v.z w.zb) 1 (v.core.tagKnown (v.z w.zb).tag),
      needRange v (decide (q + headerLen (v.z w.za).tag ≤ 512))])
    fun v => elemBeat 8 0x01 (spliceAt (v.z w.zb).bytes q ((v.z w.za).sideBytes.take (headerLen (v.z w.za).tag)))

/-- VSCSET (05 R179) -/
def semVscset (vs : VSlot) (g : Guard) (w : VR) : OpSem :=
  let q := 64 * (w.fn.extractLsb' 0 3).toNat
  movOp vs 0x61 4 g w [w.za, w.zb]
    (fun v => firstTrap [needTag v (v.z w.za) 0 (v.core.tagKnown (v.z w.za).tag),
      needTag v (v.z w.zb) 1 (v.core.tagKnown (v.z w.zb).tag), needResult v w.tag (isZ w.tag),
      needRange v (decide (q + headerLen w.tag ≤ 512))])
    fun v =>
      let used := 2 * zbM w.tag * zbBlocks (zbM w.tag)
      { data := BitVec.ofNat 4096 ((v.z w.za).data.toNat % 2 ^ (8 * used))
        side := BitVec.ofNat 1024 ((v.z w.zb).data.toNat >>> (8 * q) % 2 ^ (8 * headerLen w.tag))
        tag := w.tag }

/-- VSCADD of one block (05 R180). -/
def scaleBlock (m : Nat) (n : Int) (sat : Bool) (b : Blk) : Blk × Flags :=
  if b.e = 0 ∨ b.e = 255 then (b, 0)
  else
    let e : Int := b.e + n
    if 254 < e then
      (if sat then ⟨254, 0, b.ms.map fun x => if 0 < x then 2 ^ (m - 1) - 1 else if x < 0 then -(2 ^ (m - 1)) else 0⟩ else nanBlock,
        Flags.overflow ||| Flags.inexact)
    else if e < 1 then (zeroBlock, Flags.when (b.ms.any fun x => x != 0) (Flags.underflow ||| Flags.inexact))
    else ({ b with e := e.toNat }, 0)

/-- The beat and flags of VSCADD (05 R180). -/
def vscaddBeat (w : VR) (v : View) (mode : RMode) (ds : List Nat) : Beat × Flags :=
  let n := (w.fn.extractLsb' 0 9).toInt
  let a := v.z w.za
  if isZ a.tag then
    let r := a.blocks.map (scaleBlock (zbM a.tag) n (w.sat == 1))
    ({ zbBeat (zbM a.tag) (r.map fun q => q.1) with tag := a.tag }, Flags.all (r.map fun q => q.2))
  else
    let t := normTag a.tag
    beatOf t (a.elems.mapIdx fun i x =>
      let y := (fmtOf t).value x
      let r := round (fmtOf t) mode (w.sat == 1) (ds.getD i 0) (y.scale n)
      (r.1, r.2 ||| Flags.when y.isSnan Flags.invalid))

/-- VSCADD (05 R180) -/
def semVscadd (vs : VSlot) (g : Guard) (w : VR) : OpSem :=
  vecOp vs 0x62 4 g w [w.za] (fun v => needTag v (v.z w.za) 0 (isF (v.z w.za).tag || isZ (v.z w.za).tag))
    (fun v => if isF (v.z w.za).tag then tagCount (v.z w.za).tag else 0) (vscaddBeat w)

/-- The exponent s_b of sixteen values (05 R181). -/
def blockExp (l : List Fv) : Nat :=
  if l.any fun x => x.isNan || x.isInf then 255
  else
    let es := l.filterMap fun x => match x with | .fin d => if d.m = 0 then none else some d.exp | _ => none
    match es with
    | [] => 0
    | e :: r => (min (max (r.foldl max e + 128) 1) 255).toNat

/-- The bytes of VSCMAX's result (05 R181). -/
def vscmaxBytes (w : VR) (v : View) : List Nat :=
  let a := v.z w.za
  let n := tagCount a.tag / 16
  let at' := (w.fn.extractLsb' 0 6).toNat * n
  let es := if isZ a.tag then a.blocks.map fun b => b.e else (groupsOf 16 n a.values).map blockExp
  let old := (v.z w.zc).bytes
  spliceAt old at' (es.mapIdx fun b x => max (old.getD (at' + b) 0) x)

/-- VSCMAX (05 R181) -/
def semVscmax (vs : VSlot) (g : Guard) (w : VR) : OpSem :=
  let h := (w.fn.extractLsb' 0 6).toNat
  movOp vs 0x63 4 g w [w.za, w.zc]
    (fun v => firstTrap [needTag v (v.z w.za) 0 (isF (v.z w.za).tag || isZ (v.z w.za).tag),
      needTag v (v.z w.zc) 2 ((v.z w.zc).tag == 0x18), needRange v (decide ((h + 1) * (tagCount (v.z w.za).tag / 16) ≤ 512))])
    fun v => elemBeat 8 0x18 (vscmaxBytes w v)

/-! ### Fabric-defined operations (05 R182) -/

/-- FX0 to FX15 (05 R182): the strands tapped, the tags accepted, the beat driven, if any, and the flags are the loaded
skein's, so free (log 11); NONE and reserved tags raise FORMAT on a strand it taps. -/
def semFx (n : BitVec 4) (vs : VSlot) (g : Guard) (w : VR) : OpSem :=
  let tapped := fun (v : View) (i : Nat) => v.undef (40 + i) 1 == 1
  { slot := vs.slot, op := 0xF0 + n.zeroExtend 8, guard := g, timing := some (vRow vs, 16 + n.toNat, w.lat.toNat)
    reads := fun v => .preg g.pred.toNat ::
      (if tapped v 0 then zPlaces v (station v.slot) [w.za] else []) ++
      (if tapped v 1 then zPlaces v (station v.slot) [w.zb] else []) ++
      (if tapped v 2 then zPlaces v (station v.slot) [w.zc] else [])
    check5 := fun _ _ v => firstTrap ([w.za, w.zb, w.zc].mapIdx fun i z =>
      if tapped v i then needTag v (v.z z) i (v.core.tagKnown (v.z z).tag && v.undef (44 + i) 1 == 1) else none)
    perform := fun key v a => a.core key fun c =>
      let b : Beat := { data := v.undef 48 4096, side := v.undef 49 1024, tag := v.undef 50 6 }
      (if v.undef 51 1 = 1 then c.drive (station v.slot) v.core.bt w.lat.toNat w.zd (some b) else c).flagOr w.lat.toNat (v.undef 52 6) }

/-! ### The meanings -/

/-- VLD (R160) as a bundle of its own. -/
def execVld (v : VSlot) (g : Guard) (w : VM) (s : State) : Host.Outcome State Fault Refusal :=
  runSolo (semVld v g w) (.vld v g w) s
/-- VST (R161) as a bundle of its own. -/
def execVst (v : VSlot) (g : Guard) (w : VM) (s : State) : Host.Outcome State Fault Refusal :=
  runSolo (semVst v g w) (.vst v g w) s
/-- VMOV (R163) as a bundle of its own. -/
def execVmov (v : VSlot) (g : Guard) (w : VR) (s : State) : Host.Outcome State Fault Refusal :=
  runSolo (semVmov v g w) (.vmov v g w) s
/-- VTAG (R163) as a bundle of its own. -/
def execVtag (v : VSlot) (g : Guard) (w : VR) (s : State) : Host.Outcome State Fault Refusal :=
  runSolo (semVtag v g w) (.vtag v g w) s
/-- VPERM (R164) as a bundle of its own. -/
def execVperm (v : VSlot) (g : Guard) (w : VR) (s : State) : Host.Outcome State Fault Refusal :=
  runSolo (semVperm v g w) (.vperm v g w) s
/-- VBCST_SCALAR (R165) as a bundle of its own. -/
def execVbcstScalar (v : VSlot) (g : Guard) (w : VR) (s : State) : Host.Outcome State Fault Refusal :=
  runSolo (semVbcstScalar v g w) (.vbcstScalar v g w) s
/-- VBCST_ELEMENT (R165) as a bundle of its own. -/
def execVbcstElement (v : VSlot) (g : Guard) (w : VR) (s : State) : Host.Outcome State Fault Refusal :=
  runSolo (semVbcstElement v g w) (.vbcstElement v g w) s
/-- VSHUF (R166) as a bundle of its own. -/
def execVshuf (v : VSlot) (g : Guard) (w : VR) (s : State) : Host.Outcome State Fault Refusal :=
  runSolo (semVshuf v g w) (.vshuf v g w) s
/-- VSEL (R167) as a bundle of its own. -/
def execVsel (v : VSlot) (g : Guard) (w : VR) (s : State) : Host.Outcome State Fault Refusal :=
  runSolo (semVsel v g w) (.vsel v g w) s
/-- VADD (R168) as a bundle of its own. -/
def execVadd (v : VSlot) (g : Guard) (w : VR) (s : State) : Host.Outcome State Fault Refusal :=
  runSolo (semVadd v g w) (.vadd v g w) s
/-- VSUB (R168) as a bundle of its own. -/
def execVsub (v : VSlot) (g : Guard) (w : VR) (s : State) : Host.Outcome State Fault Refusal :=
  runSolo (semVsub v g w) (.vsub v g w) s
/-- VMUL (R168) as a bundle of its own. -/
def execVmul (v : VSlot) (g : Guard) (w : VR) (s : State) : Host.Outcome State Fault Refusal :=
  runSolo (semVmul v g w) (.vmul v g w) s
/-- VFMA (R168) as a bundle of its own. -/
def execVfma (v : VSlot) (g : Guard) (w : VR) (s : State) : Host.Outcome State Fault Refusal :=
  runSolo (semVfma v g w) (.vfma v g w) s
/-- VFMS (R168) as a bundle of its own. -/
def execVfms (v : VSlot) (g : Guard) (w : VR) (s : State) : Host.Outcome State Fault Refusal :=
  runSolo (semVfms v g w) (.vfms v g w) s
/-- VMIN (R169) as a bundle of its own. -/
def execVmin (v : VSlot) (g : Guard) (w : VR) (s : State) : Host.Outcome State Fault Refusal :=
  runSolo (semVmin v g w) (.vmin v g w) s
/-- VMAX (R169) as a bundle of its own. -/
def execVmax (v : VSlot) (g : Guard) (w : VR) (s : State) : Host.Outcome State Fault Refusal :=
  runSolo (semVmax v g w) (.vmax v g w) s
/-- VABS (R169) as a bundle of its own. -/
def execVabs (v : VSlot) (g : Guard) (w : VR) (s : State) : Host.Outcome State Fault Refusal :=
  runSolo (semVabs v g w) (.vabs v g w) s
/-- VNEG (R169) as a bundle of its own. -/
def execVneg (v : VSlot) (g : Guard) (w : VR) (s : State) : Host.Outcome State Fault Refusal :=
  runSolo (semVneg v g w) (.vneg v g w) s
/-- VCMP (R170) as a bundle of its own. -/
def execVcmp (v : VSlot) (g : Guard) (w : VR) (s : State) : Host.Outcome State Fault Refusal :=
  runSolo (semVcmp v g w) (.vcmp v g w) s
/-- VIADD (R171) as a bundle of its own. -/
def execViadd (v : VSlot) (g : Guard) (w : VR) (s : State) : Host.Outcome State Fault Refusal :=
  runSolo (semViadd v g w) (.viadd v g w) s
/-- VISUB (R171) as a bundle of its own. -/
def execVisub (v : VSlot) (g : Guard) (w : VR) (s : State) : Host.Outcome State Fault Refusal :=
  runSolo (semVisub v g w) (.visub v g w) s
/-- VIMUL (R171) as a bundle of its own. -/
def execVimul (v : VSlot) (g : Guard) (w : VR) (s : State) : Host.Outcome State Fault Refusal :=
  runSolo (semVimul v g w) (.vimul v g w) s
/-- VIMAD (R171) as a bundle of its own. -/
def execVimad (v : VSlot) (g : Guard) (w : VR) (s : State) : Host.Outcome State Fault Refusal :=
  runSolo (semVimad v g w) (.vimad v g w) s
/-- VIMIN (R171) as a bundle of its own. -/
def execVimin (v : VSlot) (g : Guard) (w : VR) (s : State) : Host.Outcome State Fault Refusal :=
  runSolo (semVimin v g w) (.vimin v g w) s
/-- VIMAX (R171) as a bundle of its own. -/
def execVimax (v : VSlot) (g : Guard) (w : VR) (s : State) : Host.Outcome State Fault Refusal :=
  runSolo (semVimax v g w) (.vimax v g w) s
/-- VAND (R171) as a bundle of its own. -/
def execVand (v : VSlot) (g : Guard) (w : VR) (s : State) : Host.Outcome State Fault Refusal :=
  runSolo (semVand v g w) (.vand v g w) s
/-- VOR (R171) as a bundle of its own. -/
def execVor (v : VSlot) (g : Guard) (w : VR) (s : State) : Host.Outcome State Fault Refusal :=
  runSolo (semVor v g w) (.vor v g w) s
/-- VXOR (R171) as a bundle of its own. -/
def execVxor (v : VSlot) (g : Guard) (w : VR) (s : State) : Host.Outcome State Fault Refusal :=
  runSolo (semVxor v g w) (.vxor v g w) s
/-- VSHL (R172) as a bundle of its own. -/
def execVshl (v : VSlot) (g : Guard) (w : VR) (s : State) : Host.Outcome State Fault Refusal :=
  runSolo (semVshl v g w) (.vshl v g w) s
/-- VSHR (R172) as a bundle of its own. -/
def execVshr (v : VSlot) (g : Guard) (w : VR) (s : State) : Host.Outcome State Fault Refusal :=
  runSolo (semVshr v g w) (.vshr v g w) s
/-- VSAR (R172) as a bundle of its own. -/
def execVsar (v : VSlot) (g : Guard) (w : VR) (s : State) : Host.Outcome State Fault Refusal :=
  runSolo (semVsar v g w) (.vsar v g w) s
/-- VICMP (R173) as a bundle of its own. -/
def execVicmp (v : VSlot) (g : Guard) (w : VR) (s : State) : Host.Outcome State Fault Refusal :=
  runSolo (semVicmp v g w) (.vicmp v g w) s
/-- VCVT (R174) as a bundle of its own. -/
def execVcvt (v : VSlot) (g : Guard) (w : VR) (s : State) : Host.Outcome State Fault Refusal :=
  runSolo (semVcvt v g w) (.vcvt v g w) s
/-- VQZB (R175) as a bundle of its own. -/
def execVqzb (v : VSlot) (g : Guard) (w : VR) (s : State) : Host.Outcome State Fault Refusal :=
  runSolo (semVqzb v g w) (.vqzb v g w) s
/-- VMXI (R176) as a bundle of its own. -/
def execVmxi (v : VSlot) (g : Guard) (w : VR) (s : State) : Host.Outcome State Fault Refusal :=
  runSolo (semVmxi v g w) (.vmxi v g w) s
/-- VRSUM (R177) as a bundle of its own. -/
def execVrsum (v : VSlot) (g : Guard) (w : VR) (s : State) : Host.Outcome State Fault Refusal :=
  runSolo (semVrsum v g w) (.vrsum v g w) s
/-- VRMAX (R177) as a bundle of its own. -/
def execVrmax (v : VSlot) (g : Guard) (w : VR) (s : State) : Host.Outcome State Fault Refusal :=
  runSolo (semVrmax v g w) (.vrmax v g w) s
/-- VRMIN (R177) as a bundle of its own. -/
def execVrmin (v : VSlot) (g : Guard) (w : VR) (s : State) : Host.Outcome State Fault Refusal :=
  runSolo (semVrmin v g w) (.vrmin v g w) s
/-- VEXP2 (R178) as a bundle of its own. -/
def execVexp2 (v : VSlot) (g : Guard) (w : VR) (s : State) : Host.Outcome State Fault Refusal :=
  runSolo (semVexp2 v g w) (.vexp2 v g w) s
/-- VLOG2 (R178) as a bundle of its own. -/
def execVlog2 (v : VSlot) (g : Guard) (w : VR) (s : State) : Host.Outcome State Fault Refusal :=
  runSolo (semVlog2 v g w) (.vlog2 v g w) s
/-- VRCP (R178) as a bundle of its own. -/
def execVrcp (v : VSlot) (g : Guard) (w : VR) (s : State) : Host.Outcome State Fault Refusal :=
  runSolo (semVrcp v g w) (.vrcp v g w) s
/-- VRSQ (R178) as a bundle of its own. -/
def execVrsq (v : VSlot) (g : Guard) (w : VR) (s : State) : Host.Outcome State Fault Refusal :=
  runSolo (semVrsq v g w) (.vrsq v g w) s
/-- VSIN (R178) as a bundle of its own. -/
def execVsin (v : VSlot) (g : Guard) (w : VR) (s : State) : Host.Outcome State Fault Refusal :=
  runSolo (semVsin v g w) (.vsin v g w) s
/-- VCOS (R178) as a bundle of its own. -/
def execVcos (v : VSlot) (g : Guard) (w : VR) (s : State) : Host.Outcome State Fault Refusal :=
  runSolo (semVcos v g w) (.vcos v g w) s
/-- VSCGET (R179) as a bundle of its own. -/
def execVscget (v : VSlot) (g : Guard) (w : VR) (s : State) : Host.Outcome State Fault Refusal :=
  runSolo (semVscget v g w) (.vscget v g w) s
/-- VSCSET (R179) as a bundle of its own. -/
def execVscset (v : VSlot) (g : Guard) (w : VR) (s : State) : Host.Outcome State Fault Refusal :=
  runSolo (semVscset v g w) (.vscset v g w) s
/-- VSCADD (R180) as a bundle of its own. -/
def execVscadd (v : VSlot) (g : Guard) (w : VR) (s : State) : Host.Outcome State Fault Refusal :=
  runSolo (semVscadd v g w) (.vscadd v g w) s
/-- VSCMAX (R181) as a bundle of its own. -/
def execVscmax (v : VSlot) (g : Guard) (w : VR) (s : State) : Host.Outcome State Fault Refusal :=
  runSolo (semVscmax v g w) (.vscmax v g w) s
/-- FX (R182) as a bundle of its own. -/
def execFx (n : BitVec 4) (v : VSlot) (g : Guard) (w : VR) (s : State) : Host.Outcome State Fault Refusal :=
  runSolo (semFx n v g w) (.fx n v g w) s

end Sys2Proof.Machine
end

