-- ==== Sys2Proof/Machine/MatrixOps.lean ====
section
/-! DEFINITION. The matrix slot: plane loads, the MAC family, reads and drains of accumulators, and bank control
(06 R184 to R206). -/

namespace Sys2Proof.Machine

/-- The knots that CMASK names (02 R67, R68). -/
def maskKnots (cmask : BitVec 3) (kc0 kc1 kc2 : BitVec 6) : List (BitVec 6) :=
  (if cmask.getLsbD 0 then [kc0] else []) ++ (if cmask.getLsbD 1 then [kc1] else []) ++ (if cmask.getLsbD 2 then [kc2] else [])

/-- The bound of an M operation (02 R67, 06 R191). -/
def mBound (w : MW) : Nat := 4 * w.lat.toNat

/-- An M operation joins the engine (06 R190, R191, R193). -/
def Core.issueM (c : Core) (w : MW) (bt : W64) (job : MJob) : Core :=
  { c with mq := c.mq ++ [⟨job, w.kp, mBound w, w.za, ringDrive 9 bt (mBound w)⟩] }

/-- An M operation: its tests, its span of weight, its draws in SR and its work (06 R196 to R206). -/
def matOp (op : BitVec 8) (cls : Nat) (g : Guard) (w : MW) (reads : View → List UePlace) (test : View → Option TrapReq)
    (span : Core → View → Nat) (count : View → RMode × Nat) (job : View → List Nat → MJob) : OpSem :=
  { slot := .m, op := op, guard := g, timing := some (3, cls, mBound w)
    reads := fun v => .preg g.pred.toNat :: reads v
    check5 := fun _ _ v => test v
    consumes := fun _ => maskKnots w.cmask w.kc0 w.kc1 w.kc2, produces := fun _ => some (w.kp, 1), span := span
    perform := fun key v a =>
      let d := drawsFor (count v).1 (count v).2 a.seed
      { a.core key fun c => c.issueM w v.core.bt (job v d.1) with seed := d.2 } }

/-- An M operation with no test and no draw. -/
def matPlain (op : BitVec 8) (cls : Nat) (g : Guard) (w : MW) (job : MJob) : OpSem :=
  matOp op cls g w (fun _ => []) (fun _ => none) (fun _ _ => 1) (fun _ => (.rne, 0)) fun _ _ => job

/-- m of an MLB. -/
def mlbM (w : MW) : Nat := (w.fn.extractLsb' 5 3).toNat + 1
/-- The header image address of an MLB (06 R198). -/
def mlbHeader (w : MW) (a : W64) : Int := a.toNat + 32768 * (w.fn.extractLsb' 0 5).toInt

/-- MLB (06 R198) -/
def semMlb (g : Guard) (w : MW) : OpSem :=
  { matOp 0x01 0 g w
      (fun v => .sreg w.za.toNat :: ((List.range 4096).map fun i => .spad (v.addrs.a.toNat / 16 * 16 + 16 * i)) ++
        (List.range (512 * planeQ (mlbM w))).map fun i => .spad ((mlbHeader w v.addrs.a).toNat / 16 * 16 + 16 * i))
      (fun v =>
        let a := v.addrs.a.toNat
        let h := mlbHeader w v.addrs.a
        if a % 512 ≠ 0 then some (trapV causeAlign .m a 0)
        else if 2097152 < a + 65536 then some (trapV causeRange .m a 0)
        else if h < 0 ∨ 2097152 < h + 8192 * planeQ (mlbM w) then some (trapV causeRange .m a 2) else none)
      (fun _ _ => 32 + 4 * planeQ (mlbM w)) (fun _ => (.rne, 0))
      (fun v _ => .loadPlane w.pl (mlbM w) v.addrs.a.toNat (mlbHeader w v.addrs.a).toNat) with
    base := fun v => { a := v.s 1 w.za }
    step := fun _ x => .ok { x with a := x.a + 65536 } }

/-- MSEL (06 R199) -/
def semMsel (g : Guard) (w : MW) : OpSem :=
  matPlain 0x02 4 g w (.select w.ab (w.fn.extractLsb' 2 6) (w.fn.extractLsb' 0 2))

/-- The code of the mode an operation on a bank rounds in (06 R200, R204). -/
def View.bankRound (v : View) (ab : BitVec 1) : BitVec 3 :=
  let rm := (v.core.bankMode ab).1
  if rm = 0 then v.core.cr.round else rm

/-- O of a MAC-family operation (06 R189). -/
def macCycles (a plane : Tag) : Nat := (tagCount a * zbM a * planeP (zbM plane) + 2047) / 2048

/-- MAC, MACN and MACZ (06 R200). -/
def macOp (op : BitVec 8) (g : Guard) (w : MW) (negate fresh : Bool) : OpSem :=
  matOp op 1 g w (fun v => zPlaces v 7 [w.za])
    (fun v =>
      let a := v.tap 7 w.za
      if !isZ a.tag then some (trapTag .m a.tag 0)
      else if v.core.planeTag w.pl = 0 then some (trapTag .m 0 1) else none)
    (fun _ v => macCycles (v.tap 7 w.za).tag (v.core.planeTag w.pl))
    (fun v => (RMode.ofCode (v.bankRound w.ab), tagCount (v.tap 7 w.za).tag))
    fun v ds => .mac negate fresh w.ab w.pl (v.tap 7 w.za) (v.bankRound w.ab) (v.core.bankMode w.ab).2 ds
/-- MAC (06 R200) -/
def semMac (g : Guard) (w : MW) : OpSem := macOp 0x03 g w false false
/-- MACN (06 R200) -/
def semMacn (g : Guard) (w : MW) : OpSem := macOp 0x04 g w true false
/-- MACZ (06 R200) -/
def semMacz (g : Guard) (w : MW) : OpSem := macOp 0x05 g w false true

/-- MRD (06 R201) -/
def semMrd (g : Guard) (w : MW) : OpSem := matPlain 0x06 2 g w (.read w.ab (w.fn.extractLsb' 0 6) (w.fn.getLsbD 6))
/-- MRD.steps (06 R201) -/
def semMrdSteps (g : Guard) (w : MW) : OpSem := matPlain 0x06 2 g w (.readSteps w.ab)
/-- MDR (06 R202) -/
def semMdr (g : Guard) (w : MW) : OpSem :=
  let form : BitVec 2 := w.fn.extractLsb' 6 2
  matOp 0x07 3 g w (fun _ => []) (fun _ => none) (fun _ _ => 1)
    (fun v => (RMode.ofCode (v.bankRound w.ab), if form.toNat < 2 then 0 else 256))
    fun v ds => .drain w.ab (w.fn.extractLsb' 0 6) form (v.bankRound w.ab) (v.core.bankMode w.ab).2 ds
/-- MCLR (06 R203) -/
def semMclr (g : Guard) (w : MW) : OpSem := matPlain 0x08 4 g w (.clear w.ab)
/-- MMODE (06 R204) -/
def semMmode (g : Guard) (w : MW) : OpSem := matPlain 0x09 4 g w (.mode w.ab (w.fn.extractLsb' 0 3) (w.fn.getLsbD 3))

/-! ### The meanings -/

/-- MLB (R198) as a bundle of its own. -/
def execMlb (g : Guard) (w : MW) (s : State) : Host.Outcome State Fault Refusal :=
  runSolo (semMlb g w) (.mlb g w) s
/-- MSEL (R199) as a bundle of its own. -/
def execMsel (g : Guard) (w : MW) (s : State) : Host.Outcome State Fault Refusal :=
  runSolo (semMsel g w) (.msel g w) s
/-- MAC (R200) as a bundle of its own. -/
def execMac (g : Guard) (w : MW) (s : State) : Host.Outcome State Fault Refusal :=
  runSolo (semMac g w) (.mac g w) s
/-- MACN (R200) as a bundle of its own. -/
def execMacn (g : Guard) (w : MW) (s : State) : Host.Outcome State Fault Refusal :=
  runSolo (semMacn g w) (.macn g w) s
/-- MACZ (R200) as a bundle of its own. -/
def execMacz (g : Guard) (w : MW) (s : State) : Host.Outcome State Fault Refusal :=
  runSolo (semMacz g w) (.macz g w) s
/-- MRD (R201) as a bundle of its own. -/
def execMrd (g : Guard) (w : MW) (s : State) : Host.Outcome State Fault Refusal :=
  runSolo (semMrd g w) (.mrd g w) s
/-- MRD_STEPS (R201) as a bundle of its own. -/
def execMrdSteps (g : Guard) (w : MW) (s : State) : Host.Outcome State Fault Refusal :=
  runSolo (semMrdSteps g w) (.mrdSteps g w) s
/-- MDR (R202) as a bundle of its own. -/
def execMdr (g : Guard) (w : MW) (s : State) : Host.Outcome State Fault Refusal :=
  runSolo (semMdr g w) (.mdr g w) s
/-- MCLR (R203) as a bundle of its own. -/
def execMclr (g : Guard) (w : MW) (s : State) : Host.Outcome State Fault Refusal :=
  runSolo (semMclr g w) (.mclr g w) s
/-- MMODE (R204) as a bundle of its own. -/
def execMmode (g : Guard) (w : MW) (s : State) : Host.Outcome State Fault Refusal :=
  runSolo (semMmode g w) (.mmode g w) s

end Sys2Proof.Machine
end

