-- ==== Sys2Proof/Machine/CopyOps.lean ====
section
/-! DEFINITION. The copy slots: operand checks, and the operations that hand work to the copy engines (07 R209 to R231). -/

namespace Sys2Proof.Machine

/-! ### Operands (07 R215 to R218) -/

/-- The engine a C slot is bound to (01 R43). -/
def View.engine (v : View) : Engine := if v.core.instanceOf v.slot = some 1 then .b else .a

/-- SOURCE of an engine's knots (07 R209). -/
def engineSource (e : Engine) : BitVec 3 := match e with | .a => 2 | .b => 3

/-- The step of a scalar address operand: STEP lines of 128 B (02 R60, R68). -/
def cStep (w : CW) : W64 := w.step.signExtend 64 * 128

/-- An address operand names the global space (07 R216). -/
def isGlobal (a : W64) : Bool := a.getLsbD 57

/-- Its address in that space. -/
def addrOf (a : W64) : BitVec 57 := a.extractLsb' 0 57

/-- The tests of a scalar address operand over `n` bytes: ALIGN, then RANGE (07 R216, R218). -/
def addrTest (v : View) (opnd : Nat) (a : W64) (align n : Nat) : Option TrapReq :=
  if a.toNat % align ≠ 0 then some (trapV causeAlign v.slot a.toNat opnd)
  else if 2 ^ 58 ≤ a.toNat ∨ (!isGlobal a ∧ v.core.spadSize < a.toNat + n) then some (trapV causeRange v.slot a.toNat opnd)
  else none

/-- LEN of a length operand (07 R216); none where it breaks a limit. -/
def lenOf (x : W64) : Option Nat :=
  if x.toNat < 2 ^ 22 ∧ x.toNat % 16 = 0 ∧ 16 ≤ x.toNat ∧ x.toNat ≤ 2097152 then some x.toNat else none

/-- LEN as the operand's extent test takes it. -/
def lenBits (x : W64) : Nat := (x.extractLsb' 0 22).toNat

/-- Classes a global operand may have (07 R222 to R228). -/
def localClasses : List RangeClass := [.plain, .managed, .host]
/-- Any class. -/
def anyClass : List RangeClass := [.plain, .managed, .host, .remote]

/-- A global extent lies wholly in one range that grants the access and is of an admitted class, or the KIND and address of the
fatal context error (07 R217, 14 R373). -/
def extentFatal (c : Core) (va : BitVec 57) (need : Need) (n : Nat) (classes : List RangeClass) : Option (Nat × BitVec 57) :=
  match findRange c.ranges va 0 8 with
  | none => some (0, va)
  | some g =>
    if !need.ok (g.getLsbD 192) (g.getLsbD 193) (g.getLsbD 194) then some (need.refused, va)
    else if (rangeBounds g).2 * 65536 < va.toNat + n then some (0, BitVec.ofNat 57 ((rangeBounds g).2 * 65536))
    else if !classes.contains (rangeClass g) then some (1, va)
    else none

/-- The class of the range of a global address. -/
def Core.classAt (c : Core) (va : BitVec 57) : Option RangeClass := (findRange c.ranges va 0 8).map rangeClass

/-- The extent test of a scalar address operand, where it is global. -/
def addrFatal (v : View) (a : W64) (need : Need) (n : Nat) (classes : List RangeClass) : Option (Nat × BitVec 57) :=
  if isGlobal a then extentFatal v.core (addrOf a) need n classes else none

/-- A scalar address operand as the engine takes it. -/
def Core.caddr (c : Core) (a : W64) (need : Need) : CAddr :=
  if isGlobal a then
    match c.rangeOf (addrOf a) need with
    | .ok t => .glob t
    | .error _ => .spad 0
  else .spad a.toNat
/-- The same for an issuing operation. -/
abbrev View.caddr (v : View) (a : W64) (need : Need) : CAddr := v.core.caddr a need

/-- The operand lies in a REMOTE range. -/
def Core.isRemote (c : Core) (a : W64) : Bool := isGlobal a && c.classAt (addrOf a) == some .remote
/-- The same for an issuing operation. -/
abbrev View.isRemote (v : View) (a : W64) : Bool := v.core.isRemote a

/-- Exactly one of two operands is global in a REMOTE range (07 R222, R223), or the fatal context error of KIND 1. -/
def oneRemote (r1 r2 : Bool) (va : BitVec 57) : Option (Nat × BitVec 57) := if r1 == r2 then some (1, va) else none

/-- The address of the first global operand of two. -/
def firstGlobal (g1 : Bool) (a1 a2 : BitVec 57) : BitVec 57 := if g1 then a1 else a2

/-- A place `n` bytes further on. -/
def CAddr.plus (x : CAddr) (n : Nat) : CAddr :=
  match x with
  | .spad a => .spad (a + n)
  | .glob t => .glob { t with va := t.va + BitVec.ofNat 57 n, ca := t.ca + BitVec.ofNat 52 n }
  | .pattern p => .pattern p

/-! ### Queued operations (07 R209, R219) -/

/-- A queued C operation: tests, fatal errors, and the job its engine takes (07 R218, R219). -/
def copyOp (op : BitVec 8) (sl : CSlot) (g : Guard) (w : CW) (reads : List UePlace) (base : View → Addrs)
    (step : View → Addrs → Except TrapReq Addrs) (test : State → Nat → View → Option TrapReq)
    (fatal : View → Option (Nat × BitVec 57)) (job : View → CopyJob) : OpSem :=
  { slot := sl.slot, op := op, guard := g, reads := fun _ => .preg g.pred.toNat :: reads, base := base, step := step
    check5 := test, fatal := fun _ _ v => fatal v
    consumes := fun _ => maskKnots w.cmask w.kc0 w.kc1 w.kc2
    produces := fun v => some (w.kp, engineSource v.engine), queue := fun v => some v.engine
    perform := fun key v a => a.core key fun c => { c with
      nextCopy := c.nextCopy + 1
      copies := c.copies ++ [{ id := c.nextCopy, engine := v.engine, kp := w.kp, job := job v, asid := v.core.cr.asid
                               wid := (c.item.map Item.wid).getD 0, slot := (c.item.map Item.slot).getD 64
                               stage := (c.item.map Item.stage).getD 0 }] } }

/-- Both scalar address operands, held and stepped. -/
def cBase (w : CW) (v : View) : Addrs := { a := v.s 1 w.a, b := v.s 2 w.b }
/-- Their step per issue. -/
def cStepAB (w : CW) (_ : View) (x : Addrs) : Except TrapReq Addrs := .ok { x with a := x.a + cStep w, b := x.b + cStep w }

/-- CPY and CPYR (07 R222). -/
def copyBytes (op : BitVec 8) (remote : Bool) (sl : CSlot) (g : Guard) (w : CW) : OpSem :=
  let classes := if remote then anyClass else localClasses
  copyOp op sl g w (sPlaces [w.a, w.b, w.c]) (cBase w) (cStepAB w)
    (fun _ _ v =>
      let n := lenBits (v.s 3 w.c)
      (addrTest v 0 v.addrs.a 16 n).orElse fun _ => (addrTest v 1 v.addrs.b 16 n).orElse fun _ =>
        if (lenOf (v.s 3 w.c)).isNone then some (trapV causeRange v.slot 0 2) else none)
    (fun v =>
      let n := lenBits (v.s 3 w.c)
      (addrFatal v v.addrs.a .w n classes).orElse fun _ => (addrFatal v v.addrs.b .r n classes).orElse fun _ =>
        if remote then oneRemote (v.isRemote v.addrs.a) (v.isRemote v.addrs.b)
          (firstGlobal (isGlobal v.addrs.a) (addrOf v.addrs.a) (addrOf v.addrs.b))
        else none)
    (fun v => .move [⟨v.caddr v.addrs.a .w, v.caddr v.addrs.b .r, lenBits (v.s 3 w.c)⟩] none)

/-- CPY (07 R222) -/
def semCpy (c : CSlot) (g : Guard) (w : CW) : OpSem := copyBytes 0x01 false c g w
/-- CPYR (07 R222) -/
def semCpyr (c : CSlot) (g : Guard) (w : CW) : OpSem := copyBytes 0x02 true c g w

/-- CFILL (07 R224) -/
def semCfill (c : CSlot) (g : Guard) (w : CW) : OpSem :=
  copyOp 0x09 c g w (sPlaces [w.a, w.b, w.c]) (fun v => { a := v.s 1 w.a }) (fun _ x => .ok { x with a := x.a + cStep w })
    (fun _ _ v => (addrTest v 0 v.addrs.a 16 (lenBits (v.s 3 w.c))).orElse fun _ =>
      if (lenOf (v.s 3 w.c)).isNone then some (trapV causeRange v.slot 0 2) else none)
    (fun v => addrFatal v v.addrs.a .w (lenBits (v.s 3 w.c)) localClasses)
    (fun v => .move [⟨v.caddr v.addrs.a .w, .pattern (v.s 2 w.b), lenBits (v.s 3 w.c)⟩] none)

/-! ### Tensors (07 R223, R226) -/

/-- The byte runs of one element, or of one ZB block: address and length (04 R136, R138, 03 R97); none where a byte offset is
not whole. -/
def Handle.runs (h : Handle) (i0 i1 i2 i3 : Nat) : Option (List (Int × Nat)) :=
  if isZ h.tag then
    let a := h.zbAddr i0 i1 i2 i3
    some [(a.1, 2 * zbM h.tag), (a.2, 2)]
  else
    let w := h.width
    if (h.offset i0 i1 i2 i3 * w) % 8 ≠ 0 then none else some [(h.addr w i0 i1 i2 i3, (w + 7) / 8)]

/-- The elements of a handle in order, dimension 0 fastest; a ZB tensor's by blocks, a wrap handle's by its window (07 R223). -/
def Handle.indices (h : Handle) : List (Nat × Nat × Nat × Nat) :=
  let n0 := if h.stepmode = 2 then h.ext3 else h.ext0
  let n3 := if h.stepmode = 2 then 1 else h.ext3
  let l0 := if isZ h.tag then (List.range (n0 / 16)).map (16 * ·) else List.range n0
  (List.range n3).flatMap fun i3 => (List.range h.ext2).flatMap fun i2 => (List.range h.ext1).flatMap fun i1 =>
    l0.map fun i0 => (i0, i1, i2, i3)

/-- The byte runs of some elements. -/
def Handle.runsAt (h : Handle) (l : List (Nat × Nat × Nat × Nat)) : Option (List (Int × Nat)) :=
  (l.mapM fun (i : Nat × Nat × Nat × Nat) => h.runs i.1 i.2.1 i.2.2.1 i.2.2.2).map List.flatten

/-- A run lies in its handle's space (04 R136). -/
def runInside (c : Core) (global : Bool) (q : Int × Nat) : Bool :=
  decide (0 ≤ q.1) && decide (q.1 + q.2 ≤ if global then 2 ^ 57 else (c.spadSize : Int))

/-- The RANGE tests of a handle's use over some elements (04 R136 to R138). -/
def handleTest (v : View) (opnd : Nat) (h : Handle) (l : List (Nat × Nat × Nat × Nat)) : Option TrapReq :=
  if !h.usable then some (trapV causeRange v.slot 0 opnd)
  else match h.runsAt l with
    | none => some (trapV causeRange v.slot 0 opnd)
    | some q => (q.find? fun x => !runInside v.core h.global x).map fun x => trapV causeRange v.slot (x.1.toNat % 2 ^ 57) opnd

/-- The extent test of a global handle over some elements: every byte in the one range of the first element (07 R217). -/
def handleFatal (v : View) (h : Handle) (l : List (Nat × Nat × Nat × Nat)) (need : Need) (classes : List RangeClass) :
    Option (Nat × BitVec 57) :=
  if !h.global then none
  else match h.runsAt l with
    | none => none
    | some [] => none
    | some (q :: rest) =>
      (extentFatal v.core (BitVec.ofNat 57 q.1.toNat) need q.2 classes).orElse fun _ =>
        match findRange v.core.ranges (BitVec.ofNat 57 q.1.toNat) 0 8 with
        | none => none
        | some g =>
          (rest.find? fun x => decide (x.1.toNat < (rangeBounds g).1 * 65536) ||
            decide ((rangeBounds g).2 * 65536 < x.1.toNat + x.2)).map fun x => (0, BitVec.ofNat 57 x.1.toNat)

/-- A run of a handle as the engine takes it. -/
def Core.hrun (c : Core) (h : Handle) (need : Need) (a : Int) : CAddr :=
  c.caddr (BitVec.ofNat 64 ((if h.global then 2 ^ 57 else 0) + a.toNat)) need

/-- A handle names the REMOTE range of its first element. -/
def Core.handleRemote (c : Core) (h : Handle) (l : List (Nat × Nat × Nat × Nat)) : Bool :=
  match (h.runsAt l).getD [] with
  | q :: _ => h.global && c.classAt (BitVec.ofNat 57 q.1.toNat) == some .remote
  | [] => false

/-- One step of each held handle (04 R139, 07 R223); a step that fails raises RANGE. -/
def stepHandles (c : Core) (sl : Slot) (both : Bool) (x : Addrs) : Except TrapReq Addrs :=
  match hstep (c.handle x.ha).width x.ha with
  | none => .error (trapV causeRange sl 0 0)
  | some ha =>
    if !both then .ok { x with ha := ha }
    else match hstep (c.handle x.hb).width x.hb with
      | none => .error (trapV causeRange sl 0 1)
      | some hb => .ok { x with ha := ha, hb := hb }

/-- CPYT and CPYTR (07 R223). -/
def copyTensor (op : BitVec 8) (remote : Bool) (sl : CSlot) (g : Guard) (w : CW) : OpSem :=
  let classes := if remote then anyClass else localClasses
  copyOp op sl g w [.hreg w.a.toNat, .hreg w.b.toNat] (fun v => { ha := v.h 1 w.a, hb := v.h 2 w.b })
    (fun v x => stepHandles v.core v.slot true x)
    (fun _ _ v =>
      let d := v.core.handle v.addrs.ha
      let s := v.core.handle v.addrs.hb
      if !v.core.tagKnown d.tag then some (trapTag v.slot d.tag 1)
      else if s.tag ≠ d.tag then some (trapTag v.slot s.tag 1)
      else if s.ext0 ≠ d.ext0 ∨ s.ext1 ≠ d.ext1 ∨ s.ext2 ≠ d.ext2 ∨ s.ext3 ≠ d.ext3 then some (trapV causeRange v.slot 0 1)
      else (handleTest v 0 d d.indices).orElse fun _ => handleTest v 1 s s.indices)
    (fun v =>
      let d := v.core.handle v.addrs.ha
      let s := v.core.handle v.addrs.hb
      (handleFatal v d d.indices .w classes).orElse fun _ => (handleFatal v s s.indices .r classes).orElse fun _ =>
        if remote then oneRemote (v.core.handleRemote d d.indices) (v.core.handleRemote s s.indices)
          (firstGlobal d.global (BitVec.ofNat 57 d.base) (BitVec.ofNat 57 s.base))
        else none)
    (fun v =>
      let d := v.core.handle v.addrs.ha
      let s := v.core.handle v.addrs.hb
      .move ((((d.runsAt d.indices).getD []).zip ((s.runsAt s.indices).getD [])).map fun q =>
        ⟨v.core.hrun d .w q.1.1, v.core.hrun s .r q.2.1, q.1.2⟩) none)

/-- CPYT (07 R223) -/
def semCpyt (c : CSlot) (g : Guard) (w : CW) : OpSem := copyTensor 0x03 false c g w
/-- CPYTR (07 R223) -/
def semCpytr (c : CSlot) (g : Guard) (w : CW) : OpSem := copyTensor 0x04 true c g w

/-- N of an index descriptor (07 R225). -/
def indexCount (x : W64) : Nat := (x.extractLsb' 32 16).toNat
/-- IDX of an index descriptor. -/
def indexList (x : W64) : Nat := (x.extractLsb' 0 21).toNat
/-- The limits of an index descriptor (07 R225). -/
def indexOk (c : Core) (x : W64) : Bool :=
  x.extractLsb' 48 16 == 0 && x.extractLsb' 21 11 == 0 && decide (1 ≤ indexCount x) && decide (indexCount x ≤ 4096) &&
    decide (indexList x % 16 = 0) && decide (indexList x + 4 * indexCount x ≤ c.spadSize)

/-- Row size of a gather's table in bytes (07 R226). -/
def rowBytes (h : Handle) : Nat := h.ext0 * h.width / 8

/-- The indices of a gather or scatter, as they stand at issue (log 13). -/
def View.indexValues (v : View) (x : W64) : List Nat :=
  (List.range (indexCount x)).map fun k => v.spadLoad (indexList x + 4 * k) 4

/-- The elements of a row. -/
def Handle.rowElems (h : Handle) (r : Nat) : List (Nat × Nat × Nat × Nat) := (List.range h.ext0).map fun j => (j, r, 0, 0)

/-- The elements of every row that the indices find. -/
def Handle.rowsElems (h : Handle) (rows : List Nat) : List (Nat × Nat × Nat × Nat) :=
  (rows.filter fun r => decide (r < h.ext1)).flatMap h.rowElems

/-- The runs of a gather or scatter: list position k moves row index[k] against the contiguous operand's row k; an index of
EXT1 or more gives zero bytes, or nothing (07 R226). -/
def Core.rowMoves (core : Core) (gath : Bool) (h : Handle) (flat : W64) (rows : List Nat) : List Move :=
  let rb := rowBytes h
  ((List.range rows.length).flatMap fun k =>
    let r := rows.getD k 0
    let at_ := fun (off : Nat) => core.caddr (flat + BitVec.ofNat 64 (k * rb + off)) (if gath then .w else .r)
    if h.ext1 ≤ r then (if gath then [⟨at_ 0, .pattern 0, rb⟩] else [])
    else
      let runs := (h.runsAt (h.rowElems r)).getD []
      (List.range runs.length).map fun j =>
        let q := runs.getD j (0, 0)
        let t := core.hrun h (if gath then .r else .w) q.1
        let c := at_ (j * q.2)
        if gath then ⟨c, t, q.2⟩ else ⟨t, c, q.2⟩)

/-- The first list position whose index is out of range. -/
def firstMiss (h : Handle) (rows : List Nat) : Option Nat :=
  findBelow (fun k => decide (h.ext1 ≤ rows.getD k 0)) rows.length

/-- GATH, GATHR, SCAT and SCATR (07 R225, R226). -/
def rowCopy (op : BitVec 8) (gath remote : Bool) (sl : CSlot) (g : Guard) (w : CW) : OpSem :=
  let table := fun (v : View) => v.core.handle v.addrs.ha
  let desc := fun (v : View) => v.s 3 w.c
  let rows := fun (v : View) => if indexOk v.core (desc v) then v.indexValues (desc v) else []
  let classes := if remote then [RangeClass.remote] else localClasses
  let testTable := fun (v : View) (opnd : Nat) =>
    let h := table v
    if !v.core.tagKnown h.tag ∨ isZ h.tag then some (trapTag v.slot h.tag opnd)
    else if 2 ≤ h.stepmode ∨ (h.ext0 * h.width) % 128 ≠ 0 then some (trapV causeRange v.slot 0 opnd)
    else handleTest v opnd h (h.rowsElems (rows v))
  let testFlat := fun (v : View) (opnd : Nat) => addrTest v opnd v.addrs.a 16 (indexCount (desc v) * rowBytes (table v))
  let fatalTable := fun (v : View) =>
    if remote ∧ !(table v).global then some (1, BitVec.ofNat 57 (table v).base)
    else handleFatal v (table v) ((table v).rowsElems (rows v)) (if gath then .r else .w) classes
  let fatalFlat := fun (v : View) =>
    addrFatal v v.addrs.a (if gath then .w else .r) (indexCount (desc v) * rowBytes (table v)) localClasses
  copyOp op sl g w (if gath then .hreg w.b.toNat :: sPlaces [w.a, w.c] else .hreg w.a.toNat :: sPlaces [w.b, w.c])
    (fun v => if gath then { a := v.s 1 w.a, ha := v.h 2 w.b } else { a := v.s 2 w.b, ha := v.h 1 w.a })
    (fun v x => match stepHandles v.core v.slot false x with
      | .ok y => .ok y
      | .error _ => .error (trapV causeRange v.slot 0 (if gath then 1 else 0)))
    (fun _ _ v =>
      (if gath then (testFlat v 0).orElse fun _ => testTable v 1 else (testTable v 0).orElse fun _ => testFlat v 1).orElse fun _ =>
        if indexOk v.core (desc v) then none else some (trapV causeRange v.slot 0 2))
    (fun v => if gath then (fatalFlat v).orElse fun _ => fatalTable v else (fatalTable v).orElse fun _ => fatalFlat v)
    (fun v => .move (v.core.rowMoves gath (table v) v.addrs.a (rows v)) (firstMiss (table v) (rows v)))

/-- GATH (07 R226) -/
def semGath (c : CSlot) (g : Guard) (w : CW) : OpSem := rowCopy 0x05 true false c g w
/-- GATHR (07 R226) -/
def semGathr (c : CSlot) (g : Guard) (w : CW) : OpSem := rowCopy 0x06 true true c g w
/-- SCAT (07 R226) -/
def semScat (c : CSlot) (g : Guard) (w : CW) : OpSem := rowCopy 0x07 false false c g w
/-- SCATR (07 R226) -/
def semScatr (c : CSlot) (g : Guard) (w : CW) : OpSem := rowCopy 0x08 false true c g w

/-! ### Collective operations (07 R227, R228) -/

/-- A destination that must be global: ALIGN to 128, then RANGE. -/
def globalDest (v : View) : Option TrapReq :=
  (addrTest v 0 v.addrs.a 128 0).orElse fun _ =>
    if isGlobal v.addrs.a then none else some (trapV causeRange v.slot v.addrs.a.toNat 0)

/-- The device identifier or group that the range of a global address names. -/
def Core.peerAt (c : Core) (a : W64) : BitVec 20 :=
  match findRange c.ranges (addrOf a) 0 8 with | some g => g.extractLsb' 236 20 | none => 0

/-- A global address lies in a REMOTE range whose target is a multicast group. -/
def Core.namesGroup (c : Core) (a : W64) : Bool := c.isRemote a && isGroup (c.peerAt a)

/-- TAG of a REDC's control word. -/
def redcTag (x : W64) : Tag := x.extractLsb' 32 6
/-- The limits of a REDC's control word (07 R227). -/
def redcOk (x : W64) : Bool :=
  x.extractLsb' 42 22 == 0 && x.extractLsb' 38 2 == 0 && x.extractLsb' 22 10 == 0 && x.extractLsb' 40 2 != 3 &&
    decide (lenBits x % 128 = 0) && decide (1 ≤ lenBits x) && decide (lenBits x ≤ 2097152)

/-- The target of a global destination. -/
def Core.target (c : Core) (a : W64) (need : Need) : Target :=
  match c.rangeOf (addrOf a) need with
  | .ok t => t
  | .error _ => { va := addrOf a, ca := 0, cls := .plain, win := false, peer := 0, rasid := 0, heap := 0, asid := 0 }

/-- REDC (07 R227) -/
def semRedc (c : CSlot) (g : Guard) (w : CW) : OpSem :=
  copyOp 0x0A c g w (sPlaces [w.a, w.b, w.c]) (cBase w) (cStepAB w)
    (fun _ _ v =>
      let x := v.s 3 w.c
      (globalDest v).orElse fun _ => (addrTest v 1 v.addrs.b 128 (lenBits x)).orElse fun _ =>
        if !([0x08, 0x09, 0x06, 0x07].contains (redcTag x).toNat) then some (trapTag v.slot (redcTag x) 2)
        else if redcOk x then none else some (trapV causeRange v.slot 0 2))
    (fun v =>
      let n := lenBits (v.s 3 w.c)
      (addrFatal v v.addrs.a .w n [.plain, .remote]).orElse fun _ =>
        if v.core.namesGroup v.addrs.a then some (1, addrOf v.addrs.a) else addrFatal v v.addrs.b .r n localClasses)
    (fun v =>
      let x := v.s 3 w.c
      .reduce (v.core.target v.addrs.a .w) (v.caddr v.addrs.b .r) (x.extractLsb' 40 2) (redcTag x) (lenBits x))

/-- BCST (07 R228) -/
def semBcst (c : CSlot) (g : Guard) (w : CW) : OpSem :=
  copyOp 0x0B c g w (sPlaces [w.a, w.b, w.c]) (cBase w) (cStepAB w)
    (fun _ _ v =>
      (globalDest v).orElse fun _ => (addrTest v 1 v.addrs.b 128 (lenBits (v.s 3 w.c))).orElse fun _ =>
        if (lenOf (v.s 3 w.c)).isNone then some (trapV causeRange v.slot 0 2) else none)
    (fun v =>
      let n := lenBits (v.s 3 w.c)
      (addrFatal v v.addrs.a .w n [.remote]).orElse fun _ =>
        if v.core.namesGroup v.addrs.a then addrFatal v v.addrs.b .r n localClasses else some (1, addrOf v.addrs.a))
    (fun v => .bcast (v.core.target v.addrs.a .w) (v.caddr v.addrs.b .r) (lenBits (v.s 3 w.c)))

/-! ### Work records and KWAIT (07 R229 to R231) -/

/-- The tests of a record's scratchpad address (07 R229, R230). -/
def recordTest (v : View) : Option TrapReq :=
  if v.addrs.a.toNat % 64 ≠ 0 then some (trapV causeAlign v.slot v.addrs.a.toNat 0)
  else if v.core.spadSize < v.addrs.a.toNat + 64 then some (trapV causeRange v.slot v.addrs.a.toNat 0) else none

/-- LDQ (07 R229) -/
def semLdq (c : CSlot) (g : Guard) (w : CW) : OpSem :=
  copyOp 0x10 c g w (sPlaces [w.a]) (fun v => { a := v.s 1 w.a }) (fun _ x => .ok x)
    (fun _ _ v => recordTest v) (fun _ => none)
    (fun v => .loadRecord v.addrs.a.toNat (match v.core.item with | some it => it.record | none => List.replicate 64 0))

/-- QCAP of a stage of the item's launch; 0 where there is none (07 R230, 13 R335). -/
def State.stageCap (s : State) (c : Core) (stage : Nat) : Nat :=
  match c.item with
  | none => 0
  | some it => match (s.slot it.slot).launch with
    | none => 0
    | some l => ((l.stages[stage]?).map Stage.qcap).getD 0

/-- STQ (07 R230, 13 R335) -/
def semStq (c : CSlot) (g : Guard) (w : CW) : OpSem :=
  copyOp 0x11 c g w (sPlaces [w.a, w.b]) (fun v => { a := v.s 1 w.a }) (fun _ x => .ok x)
    (fun s _ v => (recordTest v).orElse fun _ =>
      if s.stageCap v.core (v.s 2 w.b).toNat = 0 then some (trapV causeRange v.slot 0 1) else none)
    (fun _ => none)
    (fun v => .push v.addrs.a.toNat (v.s 2 w.b).toNat)

/-- The knots of a mask. -/
def maskOf (x : W64) : List (BitVec 6) := (List.range 64).filterMap fun i => if x.getLsbD i then some (BitVec.ofNat 6 i) else none

/-- KWAIT (07 R231): CLR returns every knot waited for to FREE, then the produced knot resolves, unless earlier issues that
produce it are outstanding. -/
def semKwait (c : CSlot) (g : Guard) (w : CW) : OpSem :=
  let clr := w.step.getLsbD 0
  { slot := c.slot, op := 0x12, guard := g, reads := fun _ => .preg g.pred.toNat :: sPlaces [w.a]
    consumes := fun _ => maskKnots w.cmask w.kc0 w.kc1 w.kc2, mask := fun v => maskOf (v.s 1 w.a), lenient := clr
    produces := fun v => some (w.kp, engineSource v.engine)
    perform := fun key v a => a.core key fun c =>
      let l := maskKnots w.cmask w.kc0 w.kc1 w.kc2 ++ maskOf (v.s 1 w.a)
      let c := if clr then l.foldl (fun c n =>
          if n = w.kp then c else c.setKnot n { c.knot n with source := 0, state := .free }) c else c
      c.finishKnot w.kp true }

/-! ### The meanings -/

/-- CPY (R222) as a bundle of its own. -/
def execCpy (c : CSlot) (g : Guard) (w : CW) (s : State) : Host.Outcome State Fault Refusal :=
  runSolo (semCpy c g w) (.cpy c g w) s
/-- CPYR (R222) as a bundle of its own. -/
def execCpyr (c : CSlot) (g : Guard) (w : CW) (s : State) : Host.Outcome State Fault Refusal :=
  runSolo (semCpyr c g w) (.cpyr c g w) s
/-- CFILL (R224) as a bundle of its own. -/
def execCfill (c : CSlot) (g : Guard) (w : CW) (s : State) : Host.Outcome State Fault Refusal :=
  runSolo (semCfill c g w) (.cfill c g w) s
/-- CPYT (R223) as a bundle of its own. -/
def execCpyt (c : CSlot) (g : Guard) (w : CW) (s : State) : Host.Outcome State Fault Refusal :=
  runSolo (semCpyt c g w) (.cpyt c g w) s
/-- CPYTR (R223) as a bundle of its own. -/
def execCpytr (c : CSlot) (g : Guard) (w : CW) (s : State) : Host.Outcome State Fault Refusal :=
  runSolo (semCpytr c g w) (.cpytr c g w) s
/-- GATH (R226) as a bundle of its own. -/
def execGath (c : CSlot) (g : Guard) (w : CW) (s : State) : Host.Outcome State Fault Refusal :=
  runSolo (semGath c g w) (.gath c g w) s
/-- GATHR (R226) as a bundle of its own. -/
def execGathr (c : CSlot) (g : Guard) (w : CW) (s : State) : Host.Outcome State Fault Refusal :=
  runSolo (semGathr c g w) (.gathr c g w) s
/-- SCAT (R226) as a bundle of its own. -/
def execScat (c : CSlot) (g : Guard) (w : CW) (s : State) : Host.Outcome State Fault Refusal :=
  runSolo (semScat c g w) (.scat c g w) s
/-- SCATR (R226) as a bundle of its own. -/
def execScatr (c : CSlot) (g : Guard) (w : CW) (s : State) : Host.Outcome State Fault Refusal :=
  runSolo (semScatr c g w) (.scatr c g w) s
/-- REDC (R227) as a bundle of its own. -/
def execRedc (c : CSlot) (g : Guard) (w : CW) (s : State) : Host.Outcome State Fault Refusal :=
  runSolo (semRedc c g w) (.redc c g w) s
/-- BCST (R228) as a bundle of its own. -/
def execBcst (c : CSlot) (g : Guard) (w : CW) (s : State) : Host.Outcome State Fault Refusal :=
  runSolo (semBcst c g w) (.bcst c g w) s
/-- LDQ (R229) as a bundle of its own. -/
def execLdq (c : CSlot) (g : Guard) (w : CW) (s : State) : Host.Outcome State Fault Refusal :=
  runSolo (semLdq c g w) (.ldq c g w) s
/-- STQ (R230) as a bundle of its own. -/
def execStq (c : CSlot) (g : Guard) (w : CW) (s : State) : Host.Outcome State Fault Refusal :=
  runSolo (semStq c g w) (.stq c g w) s
/-- KWAIT (R231) as a bundle of its own. -/
def execKwait (c : CSlot) (g : Guard) (w : CW) (s : State) : Host.Outcome State Fault Refusal :=
  runSolo (semKwait c g w) (.kwait c g w) s

end Sys2Proof.Machine
end

