-- ==== Sys2Proof/Machine/RefOps.lean ====
section
/-! DEFINITION. The reference operations of the S map's row 0x9: accesses through k registers, pins, comparison and making of
references (07 R234 to R242). -/

namespace Sys2Proof.Machine

/-- The bundle's address at issue: k[A].ADDR + OFF; `b` is 1 once the held address has gone through the barrier (07 R235). -/
def refBase (w : SG) (v : View) : Addrs := { a := (refAddr (v.k 1 w.a)).zeroExtend 64 + w.off.signExtend 64 }

/-- The resolved k[A] and the access's address: a held address moves with the object that the barrier finds (07 R235). -/
structure RefUse where
  k : W64
  va : W64
  stale : Bool
  poison : Bool

/-- What an access through k[A] comes to at issue. -/
def State.refUse (s : State) (v : View) (n : BitVec 6) : RefUse :=
  let k := v.k 1 n
  let r := s.resolve v.core.cr.asid v.core k
  { k := r.1, stale := v.core.stale k, poison := r.2
    va := if v.addrs.b = 1 then v.addrs.a else v.addrs.a - (refAddr k).zeroExtend 64 + (refAddr r.1).zeroExtend 64 }

/-- The tests of R235 on k[A], OFF and the address: ALIGN first where both fail (01 R24). -/
def refTest (op : BitVec 8) (w : SG) (n : Nat) (v : View) : Option TrapReq :=
  let k := v.k 1 w.a
  if v.addrs.a.toNat % n ≠ 0 then some (trapS causeAlign op v.addrs.a.toNat)
  else if 8 ≤ (refHeap k).toNat ∨ refAddr k = 0 ∨ w.off.toInt < 16 ∨ 2 ^ 57 ≤ v.addrs.a.toNat then
    some (trapS causeRange op v.addrs.a.toNat)
  else none

/-- va lies in a MANAGED range of heap k[A].HEAP, or the fatal context error (07 R235, 15 R388). -/
def refFatal (c : Core) (k va : W64) (need : Need) (n : Nat) : Option (Nat × BitVec 57) :=
  let a := va.extractLsb' 0 57
  let heap := (refHeap k).extractLsb' 0 3
  let ofHeap := fun (g : W256) => rangeV g && rangeClass g == .managed && g.extractLsb' 200 3 == heap
  if !((List.range 8).any fun i => ofHeap (SMap.get 0 c.ranges i)) then some (0, a)
  else match rangeFatal c va need n with
    | some e => some e
    | none => match findRange c.ranges a 0 8 with
      | some g => if ofHeap g then none else some (1, a)
      | none => some (0, a)

/-- The slot's held address has gone through the barrier. -/
def Core.holdVa (c : Core) (sl : Slot) (va : W64) : Core :=
  match c.stickyOf sl with
  | some st => { c with sticky := SMap.set none c.sticky sl.idx (some { st with addrs := { st.addrs with a := va, b := 1 } }) }
  | none => c

/-- An access through k[A] (07 R235): the tests, the barrier with the register's heal, then the access at the address. -/
def refAccess (op : BitVec 8) (g : Guard) (w : SG) (load : Bool) (n : Nat) (reads : List UePlace)
    (more : View → Option TrapReq) (act : Nat → View → RefUse → Target → Acc → Acc) : OpSem :=
  { slot := .s, op := op, guard := g, reads := fun _ => .preg g.pred.toNat :: .kreg w.a.toNat :: reads
    runsOn := fun _ c => !c.supervisor, base := refBase w
    step := fun _ x => .ok { x with a := x.a + w.step.signExtend 64 }
    check5 := fun _ _ v => (refTest op w n v).orElse fun _ =>
      if load ∧ v.core.landingFull then some (trapS causeRange op 0) else more v
    fatal := fun s _ v =>
      let u := s.refUse v w.a
      refFatal v.core u.k u.va (if load then .r else .w) n
    perform := fun key v a =>
      let u := a.st.refUse v w.a
      let a := if u.stale then { a with st := a.st.freezeCycle key acctRefbar } else a
      if u.poison then { a with st := a.st.raisePoison key 0 6 }
      else
        let a := a.core key fun c => (if u.stale then c.setK w.a u.k else c).holdVa v.slot u.va
        act key v u (v.core.target u.va (if load then .r else .w)) a }

/-- The object offset of an access: va less the header's address. -/
def RefUse.off (u : RefUse) : W64 := u.va - (refAddr u.k).zeroExtend 64

/-- LDREF (07 R236) -/
def semLdref (g : Guard) (w : SG) : OpSem :=
  refAccess 0x90 g w true 8 [] (fun _ => none) fun key _ u t a =>
    a.core key fun c => c.takeLanding w.lnd.toNat true w.d t (.ref u.off)

/-- LDFLD (07 R238) -/
def semLdfld (g : Guard) (w : SG) : OpSem :=
  refAccess 0x92 g w true (sizeBytes w.size) [] (fun _ => none) fun key _ _ t a =>
    a.core key fun c => c.takeLanding w.lnd.toNat false w.d t (.load w.size (w.sgn == 1))

/-- STREF (07 R237): a stale value is resolved first; a null is stored as it is. -/
def semStref (g : Guard) (w : SG) : OpSem :=
  refAccess 0x91 g w false 8 [.kreg w.d.toNat]
    (fun v => if refAddr (v.k 2 w.d) ≠ 0 ∧ 8 ≤ (refHeap (v.k 2 w.d)).toNat then some (trapS causeRange 0x91 0) else none)
    fun key v u t a =>
      let x := v.k 2 w.d
      if refAddr x = 0 then a.core key fun c => c.streamStore t (.ref x u.off)
      else
        let r := a.st.resolve v.core.cr.asid v.core x
        let a := if v.core.stale x then { a with st := a.st.freezeCycle key acctRefbar } else a
        if r.2 then { a with st := a.st.raisePoison key 0 6 } else a.core key fun c => c.streamStore t (.ref r.1 u.off)

/-- STFLD (07 R238) -/
def semStfld (g : Guard) (w : SG) : OpSem :=
  refAccess 0x93 g w false (sizeBytes w.size) (sPlaces [w.d]) (fun _ => none) fun key v u t a =>
    a.core key fun c => c.streamStore t (.field (leBytes (sizeBytes w.size) (v.s 4 w.d).toNat) u.off)

/-! ### Pins (07 R239, 15 R391, R400) -/

/-- What the home slice finds at an object header: a refusal, a hold until publication, or the place of its word 0 with the
address of the header that counts, the from-space one or, once FWD is set, the one the forwarding table names. -/
inductive PinTarget where
  | refused (kind : Nat) (pte : Option Nat)
  | held
  | header (obj : BitVec 57) (piece : Piece) (word : W64)

/-- The header word at an address of a context, for reading and writing. -/
def State.headerAt (s : State) (c : Core) (obj : BitVec 57) : Except (Nat × Option Nat) (Piece × W64) × State :=
  match c.rangeOf obj .rw with
  | .error k => (.error (k, none), s)
  | .ok t => match s.pieces c.cr.asid t.ca .rw false 8 with
    | (.ok [p], s) => (.ok (p, BitVec.ofNat 64 (leNat (s.placeBytes p.place 8))), s)
    | (.ok _, s) => (.error (0, none), s)
    | (.error e, s) => (.error (e.1, e.2.1), s)

/-- The header word at an address as its own home slice holds it, whether or not its line has been forwarded (15 R400). -/
def State.headerHome (s : State) (c : Core) (obj : BitVec 57) : Except (Nat × Option Nat) (Piece × W64) × State :=
  match c.rangeOf obj .rw with
  | .error k => (.error (k, none), s)
  | .ok t =>
    let x := s.translate c.cr.asid t.ca .rw false
    match x.res with
    | .ok q => (.ok (⟨t.ca.toNat, q, 8⟩, BitVec.ofNat 64 (leNat (x.st.placeBytes q 8))), x.st)
    | .error e => (.error e, x.st)

/-- The header that a pin of a resolved reference counts at: the from-space header until the object is claimed, none until it
is published, then the one that the forwarding table names (15 R400). -/
def State.pinTarget (s : State) (c : Core) (k : W64) : PinTarget × State :=
  match s.headerHome c (refAddr k) with
  | (.error e, s) => (.refused e.1 e.2, s)
  | (.ok (p, x), s) =>
    if x.getLsbD 62 then (.held, s)
    else if !x.getLsbD 63 then (.header (refAddr k) p x, s)
    else
      let h := s.hcbAddr c.cr.asid (refHeap k).toNat
      let l := s.memNat (h + 4) 1
      let toVa := (s.probeFwd (s.memNat (h + 8) 8) (2 ^ l) (refAddr k) (fhash (refAddr k) l) (2 ^ l)).1
      match s.headerAt c toVa with
      | (.error e, s) => (.refused e.1 e.2, s)
      | (.ok (p, x), s) => if p.isHeld then (.held, s) else (.header toVa p x, s)

/-- PIN of a header word. -/
def pinCount (x : W64) : BitVec 16 := x.extractLsb' 40 16
/-- A header word with another pin count. -/
def setPin (x : W64) (n : BitVec 16) : W64 := (x.extractLsb' 56 8) ++ n ++ (x.extractLsb' 0 40)

/-- The RANGE tests of k[A] for PIN and UNPIN. -/
def pinTest (op : BitVec 8) (w : SR) (v : View) : Option TrapReq :=
  let k := v.k 1 w.a
  if 8 ≤ (refHeap k).toNat ∨ refAddr k = 0 then some (trapS causeRange op (refAddr k).toNat) else none

/-- PIN and UNPIN: the barrier, the count at the header's home slice, and what the reply writes. A count that the home slice
refuses raises RANGE with nothing performed; a claimed object holds a pin until it is published (15 R400). -/
def pinOp (op : BitVec 8) (g : Guard) (w : SR) (refuse : BitVec 16 → Bool) (next : BitVec 16 → BitVec 16)
    (reply : W64 → BitVec 57 → Core → Core) : OpSem :=
  let use := fun (s : State) (v : View) => s.resolve v.core.cr.asid v.core (v.k 1 w.a)
  { slot := .s, op := op, guard := g, reads := fun _ => [.preg g.pred.toNat, .kreg w.a.toNat]
    runsOn := fun _ c => !c.supervisor, check5 := fun _ _ v => pinTest op w v
    fatal := fun s _ v => refFatal v.core (use s v).1 ((refAddr (use s v).1).zeroExtend 64) .rw 8
    wait := fun s _ v => match (s.pinTarget v.core (use s v).1).1 with | .held => some acctRefbar | _ => none
    late5 := fun s _ v => match (s.pinTarget v.core (use s v).1).1 with
      | .header _ _ x => if refuse (pinCount x) then some (trapS causeRange op (refAddr (use s v).1).toNat) else none
      | _ => none
    perform := fun key v a =>
      let r := use a.st v
      let a := { a with st := a.st.freezeCycle key acctRefbar }
      if r.2 then { a with st := a.st.raisePoison key 0 6 }
      else match a.st.pinTarget v.core r.1 with
        | (.refused kind pte, s) => { a with st := s.raiseFatal key kind (refAddr r.1) pte }
        | (.held, s) => { a with st := s }
        | (.header obj p x, s) =>
          if s.placePoison p.place then { a with st := s.raisePoison key p.ca 6 }
          else
            let s := s.homeWrite v.core.cr.asid none p.ca [p] (leBytes 8 (setPin x (next (pinCount x))).toNat)
            { a with st := s.modCore key fun c => reply (mkRef (refColor r.1) (refHeap r.1) obj) obj c } }

/-- PIN (07 R239) -/
def semPin (g : Guard) (w : SR) : OpSem :=
  pinOp 0x94 g w (fun n => n == 0xFFFF) (fun n => n + 1) fun k obj c =>
    (c.pendWrite 1 (.s w.d (obj.zeroExtend 64))).pendWrite 1 (.k w.a k)

/-- UNPIN (07 R239) -/
def semUnpin (g : Guard) (w : SR) : OpSem :=
  pinOp 0x95 g w (fun n => n == 0) (fun n => n - 1) fun k _ c => c.pendWrite 1 (.k w.a k)

/-! ### Comparison and making of references (07 R240, R241) -/

/-- REFEQ (07 R240) -/
def semRefeq (g : Guard) (w : SR) : OpSem :=
  { slot := .s, op := 0x96, guard := g, reads := fun _ => [.preg g.pred.toNat, .kreg w.a.toNat, .kreg w.b.toNat]
    runsOn := fun _ c => !c.supervisor
    check5 := fun _ _ v =>
      if 8 ≤ (refHeap (v.k 1 w.a)).toNat then some (trapS causeRange 0x96 (refAddr (v.k 1 w.a)).toNat)
      else if 8 ≤ (refHeap (v.k 2 w.b)).toNat then some (trapS causeRange 0x96 (refAddr (v.k 2 w.b)).toNat) else none
    perform := fun key v a =>
      let x := v.k 1 w.a
      let y := v.k 2 w.b
      let put := fun (a : Acc) (b : Bool) => a.core key fun c => c.pendWrite 1 (.p w.d b)
      if refAddr x = 0 ∨ refAddr y = 0 then put a (refAddr x == refAddr y)
      else
        let rx := a.st.resolve v.core.cr.asid v.core x
        let ry := a.st.resolve v.core.cr.asid v.core y
        let stale := v.core.stale x || v.core.stale y
        let a := if stale then { a with st := a.st.freezeCycle key acctRefbar } else a
        if rx.2 ∨ ry.2 then { a with st := a.st.raisePoison key 0 6 }
        else
          let a := if stale then a.core key fun c => (c.setK w.a rx.1).setK w.b ry.1 else a
          put a (refHeap rx.1 == refHeap ry.1 && refAddr rx.1 == refAddr ry.1) }

/-- REFMK (07 R241) -/
def semRefmk (g : Guard) (w : SR) : OpSem :=
  let heap := w.fn.extractLsb' 0 4
  { slot := .s, op := 0x97, guard := g, reads := fun _ => .preg g.pred.toNat :: sPlaces [w.a]
    runsOn := fun _ c => !c.supervisor
    check5 := fun _ _ v =>
      if 8 ≤ heap.toNat ∨ 2 ^ 57 ≤ (v.s 1 w.a).toNat then some (trapS causeRange 0x97 (v.s 1 w.a).toNat) else none
    perform := fun key v a => a.core key fun c =>
      c.pendWrite 1 (.k w.d (mkRef (v.core.goodColor heap) heap ((v.s 1 w.a).extractLsb' 0 57))) }

/-! ### The meanings -/

/-- LDREF (R236) as a bundle of its own. -/
def execLdref (g : Guard) (w : SG) (s : State) : Host.Outcome State Fault Refusal :=
  runSolo (semLdref g w) (.ldref g w) s
/-- LDFLD (R238) as a bundle of its own. -/
def execLdfld (g : Guard) (w : SG) (s : State) : Host.Outcome State Fault Refusal :=
  runSolo (semLdfld g w) (.ldfld g w) s
/-- STREF (R237) as a bundle of its own. -/
def execStref (g : Guard) (w : SG) (s : State) : Host.Outcome State Fault Refusal :=
  runSolo (semStref g w) (.stref g w) s
/-- STFLD (R238) as a bundle of its own. -/
def execStfld (g : Guard) (w : SG) (s : State) : Host.Outcome State Fault Refusal :=
  runSolo (semStfld g w) (.stfld g w) s
/-- PIN (R239) as a bundle of its own. -/
def execPin (g : Guard) (w : SR) (s : State) : Host.Outcome State Fault Refusal :=
  runSolo (semPin g w) (.pin g w) s
/-- UNPIN (R239) as a bundle of its own. -/
def execUnpin (g : Guard) (w : SR) (s : State) : Host.Outcome State Fault Refusal :=
  runSolo (semUnpin g w) (.unpin g w) s
/-- REFEQ (R240) as a bundle of its own. -/
def execRefeq (g : Guard) (w : SR) (s : State) : Host.Outcome State Fault Refusal :=
  runSolo (semRefeq g w) (.refeq g w) s
/-- REFMK (R241) as a bundle of its own. -/
def execRefmk (g : Guard) (w : SR) (s : State) : Host.Outcome State Fault Refusal :=
  runSolo (semRefmk g w) (.refmk g w) s

end Sys2Proof.Machine
end

