-- ==== Sys2Proof/Machine/MemEvents.lean ====
section
/-! DEFINITION. The memory system's own steps: home-slice accesses, replies and arrivals, the store stream, the retirement
tracker, invalidations, remote writes, fills, the matrix engine's steps and the refusals of translators (01 R25, R37, 04 R145,
R146, 07 R236, R237, 08 R246, R257, 09 R273 to R285, 14 R372). -/

namespace Sys2Proof.Machine

/-- An event that has no occurrence in a state is refused (log 5). -/
def offered (o : Option State) : Host.Outcome State Fault Refusal :=
  match o with | some s => .next s | none => .refused .notEnabled

/-! ### Atomics at the home slice (08 R244, R246, R249) -/

/-- The value an atomic writes, from the old value and its operands, at a width of 32 or 64 bits (08 R244). -/
def amoValue (op : AmoOp) (size : BitVec 2) (x b c : W64) : W64 :=
  let w := 8 * 2 ^ size.toNat
  let t := fun (n : Nat) => BitVec.ofNat 64 (n % 2 ^ w)
  let sx := signedBits w (x.toNat % 2 ^ w)
  let sb := signedBits w (b.toNat % 2 ^ w)
  match op with
  | .add => t (x.toNat + b.toNat)
  | .and => t (x &&& b).toNat
  | .or => t (x ||| b).toNat
  | .xor => t (x ^^^ b).toNat
  | .min => if sx ≤ sb then t x.toNat else t b.toNat
  | .max => if sb ≤ sx then t x.toNat else t b.toNat
  | .swap => t b.toNat
  | .cas => if x.toNat % 2 ^ w = b.toNat % 2 ^ w then t c.toNat else t x.toNat
  | .fadd => t (round fp32 .rne false 0 (Fv.add .rne (fp32.value (x.toNat % 2 ^ 32)) (fp32.value (b.toNat % 2 ^ 32))).1).1

/-- An atomic's step at the home slice: the old value, whether the line is poisoned, and the state; a poisoned line is left as
it is (08 R249). -/
def State.amoStep (s : State) (asid : BitVec 16) (writer : Option Nat) (ps : List Piece) (op : AmoOp) (size : BitVec 2)
    (b c : W64) : W64 × Bool × State :=
  let old := BitVec.ofNat 64 (leNat (ps.flatMap fun p => s.placeBytes p.place p.len))
  if ps.any fun p => s.placePoison p.place then (old, true, s)
  else
    let n := 2 ^ size.toNat
    let ca := match ps with | p :: _ => p.ca | [] => 0
    (old, false, s.homeWrite asid writer ca ps (leBytes n (amoValue op size old b c).toNat))

/-- An atomic of a MANAGED range on a reference slot is refused with KIND 3 (08 R245, log 15). -/
def State.amoOnRef (s : State) (t : Target) : Bool :=
  t.cls == .managed &&
    (let h := Config.headerOf t.asid.toNat t.heap.toNat t.va.toNat
     s.layoutBit t.asid h (t.va.toNat - h.toNat))

/-! ### Orders within a core (08 R247, 09 R278) -/

/-- Two targets name bytes of one line. -/
def Target.sameLine (t u : Target) : Bool :=
  t.ca.toNat / 128 == u.ca.toNat / 128 && (t.cls == .remote) == (u.cls == .remote) && (t.cls != .remote || t.peer == u.peer)

/-- An earlier atomic of the core to the line has not performed (08 R247). -/
def Core.earlierAmo (c : Core) (seq : Nat) (t : Target) : Bool :=
  c.landings.any fun l => decide (l.id < seq) && l.isAmo && l.tgt.sameLine t &&
    match l.state with | .waiting | .sent _ => true | _ => false

/-- An atomic may leave the core: every write of the stream issued before it has performed at its scope, and every earlier
write and atomic of the core to its line (08 R247). -/
def State.amoReleased (s : State) (key : Nat) (l : Landing) (scope : BitVec 3) : Bool :=
  let c := s.core key
  !(c.earlierAmo l.id l.tgt) &&
    c.stream.all fun e => decide (l.id < e.seq) || !(s.countsAt (dieOf key) scope.toNat e.tgt || e.tgt.sameLine l.tgt)

/-! ### Loads and atomics (04 R145, 07 R236, 08 R246) -/

/-- The bytes of a store that the scalar L1 keeps (09 R273, R274). -/
def StoreEntry.l1Bytes (e : StoreEntry) : List Byte :=
  if e.tgt.uncached then []
  else match e.kind with
    | .data bs => bs
    | .field bs _ => bs
    | .ref v _ => leBytes 8 v.toNat
    | .heal _ _ => []
    | .amo _ => []

/-- Bytes of a load with the core's own stores before it laid over them (09 R276, R278). -/
def overlay (ca : Nat) (bytes : List Byte) (stores : List (Nat × List Byte)) : List Byte :=
  (List.range bytes.length).map fun i =>
    stores.foldl (fun b q => if q.1 ≤ ca + i ∧ ca + i < q.1 + q.2.length then q.2.getD (ca + i - q.1) b else b)
      (bytes.getD i 0)

/-- Writes back a landing. -/
def Core.setLanding (c : Core) (i : Nat) (st : LandState) : Core :=
  { c with landings := c.landings.mapIdx fun j l => if j = i then { l with state := st } else l }

/-- A refused access (14 R372, 07 R214): a landing that lives carries the error to its landing time; of an item that has ended
the failure is logged with its WID and the landing is gone. -/
def State.failLanding (s : State) (key i : Nat) (l : Landing) (kind : Nat) (va : BitVec 57) (pte : Option Nat) : State :=
  if l.live then s.modCore key fun c => c.setLanding i (.failed kind va pte)
  else
    let c := s.core key
    let wid := match l.ret with | some r => ((SMap.get none c.tracker r).getD (0, 0)).1.toNat | none => 0
    let s := s.logAppend
      { code := if pte.isSome then 0x0021 else 0x0020, cls := 2, part := s.ctxPart l.tgt.asid, asid := l.tgt.asid.toNat
        source := sourceOf key, addr := va.toNat, wid := wid, detail := kind + (pte.getD 0) * 2 ^ 64 }
    s.modCore key fun c => { c with landings := c.landings.filter fun x => x.id ≠ l.id }

/-- An access that waits for its turn at its home slice is arbitrated there: a local one is served and its reply leaves, a
REMOTE one is sent to its peer (09 R277, 07 R232). None where the access may not be taken yet. -/
def State.serveLanding (s : State) (key i : Nat) (l : Landing) : Option State :=
  let t := l.tgt
  if t.cls = .remote then
    if s.link.noPeer t.peer then some (s.failLanding key i l 4 t.va none)
    else
      let m := match l.kind with
        | .amo op size b c scope ord =>
          { t.request mtAtomic with
            ord := ord, scope := scope, arg := b
            op := BitVec.ofNat 8 ((match op with
              | .add => 0 | .and => 1 | .or => 2 | .xor => 3 | .min => 4 | .max => 5 | .swap => 6 | .cas => 7 | .fadd => 8) +
              (if size = 3 then 16 else 0))
            units := if op = .cas then [c.zeroExtend 128] else [] }
        | _ => { t.request mtRead with ca := BitVec.ofNat 52 (t.ca.toNat / 128 * 128) }
      let tag := s.link.nextTag
      (s.request key (.landing l.id) m).map fun s => s.modCore key fun c => c.setLanding i (.sent tag)
  else
    let need := match l.kind with | .amo .. => Need.rw | _ => Need.r
    let n := match l.kind with | .load size _ => sizeBytes size | .amo _ size _ _ _ _ => sizeBytes size | .ref _ => 8
    match s.pieces t.asid t.ca need (t.cls = .host) n with
    | (.error e, s) => some (s.failLanding key i l e.1 (t.va + BitVec.ofNat 57 e.2.2) e.2.1)
    | (.ok ps, s) =>
      if ps.any Piece.isHeld then none
      else match l.kind with
        | .amo op size b c _ _ =>
          if s.amoOnRef t then some (s.failLanding key i l 3 t.va none)
          else
            let r := s.amoStep t.asid (some key) ps op size b c
            some (r.2.2.modCore key fun c => c.setLanding i (.replied r.1 r.2.1))
        | k =>
          let unmarked := match k with
            | .ref off => !s.layoutBit t.asid (t.va - off.extractLsb' 0 57) off.toNat
            | _ => false
          if unmarked then some (s.failLanding key i l 3 t.va none)
          else
            let r := s.readPieces (dieOf key) ps
            let c := s.core key
            let own := if t.uncached then [] else
              c.l1 ++ (c.stream.filter fun e => decide (e.seq < l.id)).map fun e => (e.tgt.ca.toNat, e.l1Bytes)
            let bytes := overlay t.ca.toNat r.1 own
            some (r.2.2.modCore key fun c => c.setLanding i (.replied (BitVec.ofNat 64 (leNat bytes)) r.2.1))

/-- HOME_SLICE_ACCESS (09 R277): the access of landing slot `idx` of a core, in the order of the core's landings. -/
def execHomeSliceAccess (core : Nat) (idx : Nat) (s : State) : Host.Outcome State Fault Refusal :=
  offered (match (s.core core).landings[idx]? with
    | none => none
    | some l =>
      if l.state ≠ .waiting then none
      else match l.kind with
        | .amo _ _ _ _ scope ord => if ord ∨ !s.amoReleased core l scope then none else s.serveLanding core idx l
        | _ => s.serveLanding core idx l)

/-- LANDING_DATA_ARRIVAL (01 R37): data reach a landing slot, or are discarded where its item has ended (08 R257). -/
def execLandingDataArrival (core : Nat) (idx : Nat) (s : State) : Host.Outcome State Fault Refusal :=
  offered (match (s.core core).landings[idx]? with
    | none => none
    | some l => match l.state with
      | .replied v poison =>
        some (s.modCore core fun c =>
          if l.live then c.setLanding idx (.arrived v poison)
          else { c with landings := c.landings.filter fun x => x.id ≠ l.id })
      | _ => none)

/-- FATAL_CONTEXT_ERROR (14 R372): a translator's refusal reaches the core, ahead of any landing time, and MEMORY_FATAL
pends. An access whose peer is unreachable fails at its landing time (18 R452). -/
def execFatalContextError (core : Nat) (s : State) : Host.Outcome State Fault Refusal :=
  let c := s.core core
  offered (match c.refusals with
    | (kind, va, pte) :: rest => some ((s.modCore core fun c => { c with refusals := rest }).raiseFatal core kind va pte)
    | [] =>
      match c.landings.find? fun l => l.live && match l.state with | .failed kind _ _ => kind != 4 | _ => false with
      | none => none
      | some l => match l.state with
        | .failed kind va pte =>
          some ((s.modCore core fun c => { c with landings := c.landings.map fun x =>
            if x.id = l.id then { x with live := false } else x }).raiseFatal core kind va pte)
        | _ => none)

/-! ### The store stream (04 R146, 07 R236, R237, 08 R247) -/

/-- Removes the first entry of the store stream. -/
def Core.popStore (c : Core) : Core := { c with stream := c.stream.drop 1 }

/-- A store of the stream is refused (14 R372): no later write of the item's stream performs; of an item that has ended, the
failure is logged with its WID and its entries are gone (07 R214). -/
def State.failStore (s : State) (key : Nat) (e : StoreEntry) (kind : Nat) (va : BitVec 57) (pte : Option Nat) : State :=
  match e.ret with
  | none => s.modCore key fun c => { c with streamFault := true, refusals := c.refusals ++ [(kind, va, pte)] }
  | some r =>
    let wid := ((SMap.get none (s.core key).tracker r).getD (0, 0)).1.toNat
    let s := s.logAppend
      { code := if pte.isSome then 0x0021 else 0x0020, cls := 2, part := s.ctxPart e.tgt.asid, asid := e.tgt.asid.toNat
        source := sourceOf key, addr := va.toNat, wid := wid, detail := kind + (pte.getD 0) * 2 ^ 64 }
    s.modCore key fun c => { c with
      stream := c.stream.filter fun x => x.ret ≠ some r
      landings := c.landings.filter fun l => !(c.stream.any fun x => x.ret == some r && x.kind == .amo l.id) }

/-- The scalar L1 keeps the bytes of a performed store to a line of another die while its own die holds an older copy (09
R275, R276). -/
def State.keepL1 (s : State) (key ca : Nat) (bytes : List Byte) : State :=
  if s.pendInv.any fun q => q.die == dieOf key && q.line == ca / 128 then
    s.modCore key fun c => { c with l1 := c.l1 ++ [(ca, bytes)] }
  else s

/-- A cached store, or one through a window or to the host, performs at its destination. -/
def State.storeBytes (s : State) (key : Nat) (e : StoreEntry) (bytes : List Byte) : Option State :=
  let t := e.tgt
  match s.pieces t.asid t.ca .w (t.cls = .host) bytes.length with
  | (.error r, s) => some (s.failStore key e r.1 (t.va + BitVec.ofNat 57 r.2.2) r.2.1)
  | (.ok ps, s) =>
    if ps.any Piece.isHeld then none
    else
      let s := s.homeWrite t.asid (some key) t.ca.toNat ps bytes
      if t.uncached then some (s.modCore key fun c => { c with stream := match c.stream with
        | q :: l => { q with sent := .acking } :: l
        | [] => [] })
      else some ((s.modCore key Core.popStore).keepL1 key t.ca.toNat bytes)

/-- The heal of a reference slot: a compare-and-swap at its home slice, expecting the stale value (07 R236). A slot that may
not be written keeps its value (log 16). -/
def State.healSlot (s : State) (key : Nat) (e : StoreEntry) (expect new : W64) : Option State :=
  let t := e.tgt
  match s.pieces t.asid t.ca .rw false 8 with
  | (.error _, s) => some (s.modCore key Core.popStore)
  | (.ok ps, s) =>
    if ps.any Piece.isHeld then none
    else
      let old := BitVec.ofNat 64 (leNat (ps.flatMap fun p => s.placeBytes p.place p.len))
      let s := s.modCore key Core.popStore
      if old = expect ∧ !(ps.any fun p => s.placePoison p.place) then
        some (s.homeWrite t.asid (some key) t.ca.toNat ps (leBytes 8 new.toNat))
      else some s

/-- A slot whose layout bit is not as the store needs: a fatal context error of KIND 3 (07 R237, R238). -/
def State.slotMismatch (s : State) (t : Target) (off : W64) (ref : Bool) : Bool :=
  s.layoutBit t.asid (t.va - off.extractLsb' 0 57) off.toNat != ref

/-- The oldest store of the stream performs, or is sent (04 R146). -/
def State.performStore (s : State) (key : Nat) (e : StoreEntry) : Option State :=
  let t := e.tgt
  let c := s.core key
  if e.sent ≠ .no ∨ (c.streamFault ∧ e.ret.isNone) ∨ c.earlierAmo e.seq t then none
  else match e.kind with
    | .amo id =>
      match c.landings.findIdx? fun l => l.id == id with
      | none => some (s.modCore key Core.popStore)
      | some i => match c.landings[i]? with
        | none => none
        | some l =>
          if t.cls = .remote ∧ !s.link.noPeer t.peer then
            let tag := s.link.nextTag
            (s.serveLanding key i l).map fun s => s.modCore key fun c => { c with stream := match c.stream with
              | q :: r => { q with sent := .remote tag } :: r
              | [] => [] }
          else (s.serveLanding key i l).map fun s => s.modCore key Core.popStore
    | .heal expect new => s.healSlot key e expect new
    | k =>
      if t.cls = .remote then
        if s.link.noPeer t.peer then some (s.failStore key e 4 t.va none)
        else
          let tag := s.link.nextTag
          let bytes := match k with | .data bs => bs | _ => []
          (s.request key (.store e.seq) (t.writeMsg s.free bytes 0)).map fun s =>
            { s with free := s.free + 1 }.modCore key fun c => { c with stream := match c.stream with
              | q :: r => { q with sent := .remote tag } :: r
              | [] => [] }
      else match k with
        | .data bs => s.storeBytes key e bs
        | .field bs off => if s.slotMismatch t off false then some (s.failStore key e 3 t.va none) else s.storeBytes key e bs
        | .ref v off =>
          if s.slotMismatch t off true then some (s.failStore key e 3 t.va none) else s.storeBytes key e (leBytes 8 v.toNat)
        | _ => none

/-- STORE_PERFORM (04 R146). -/
def execStorePerform (core : Nat) (s : State) : Host.Outcome State Fault Refusal :=
  offered (match (s.core core).stream with
    | e :: _ => s.performStore core e
    | [] => none)

/-- UNCACHED_WRITE_ACK (04 R146): the host or the target core's bank acknowledges the oldest store. -/
def execUncachedWriteAck (core : Nat) (s : State) : Host.Outcome State Fault Refusal :=
  offered (match (s.core core).stream with
    | e :: _ => if e.sent = .acking then some (s.modCore core Core.popStore) else none
    | [] => none)

/-- Work of a retirement-tracker entry that has not performed (08 R257). -/
def Core.trackerBusy (c : Core) (i : Nat) : Bool :=
  c.stream.any (fun e => e.ret == some i) || c.copies.any (fun o => o.ret == some i) ||
    c.landings.any fun l => l.isAmo && l.ret == some i

/-- RETIREMENT_ENTRY_FREE (08 R257). -/
def execRetirementEntryFree (core : Nat) (idx : Nat) (s : State) : Host.Outcome State Fault Refusal :=
  let c := s.core core
  offered (if (SMap.get none c.tracker idx).isSome ∧ !c.trackerBusy idx then
      some (s.modCore core fun c => { c with tracker := SMap.set none c.tracker idx none })
    else none)

/-! ### Caches, banks and engines -/

/-- INVALIDATION (09 R275): the die's remote-data cache and the scalar L1s beneath it drop the line, and acknowledge. -/
def execInvalidation (die : Nat) (line : Nat) (s : State) : Host.Outcome State Fault Refusal :=
  let hit := fun (q : Inval) => q.die == die && q.line == line
  offered (if s.pendInv.any hit then
      let s := { s with
        rdc := SMap.set [] s.rdc (rdcKey die line) []
        pendInv := s.pendInv.filter fun q => !hit q }
      some ((s.cores.filter fun q => dieOf q.1 == die).foldl (fun s q => s.modCore q.1 fun c =>
        { c with l1 := c.l1.filter fun x => x.1 / 128 ≠ line }) s)
    else none)

/-- REMOTE_WRITE (09 R282): bytes reach a core's bank through its remote requester, whole granules of a copy engine or the 1 to
8 bytes of a store, and the granules become full. -/
def execRemoteWrite (core : Nat) (src : WriteSrc) (s : State) : Host.Outcome State Fault Refusal :=
  let c := s.core core
  offered (match src with
    | .granules a bs =>
      if a % 16 = 0 ∧ bs.length % 16 = 0 ∧ a + bs.length ≤ c.spadSize ∧ !c.supervisor then
        some (s.modCore core fun c => c.spadWrite a bs true)
      else none
    | .bytes a bs =>
      if 1 ≤ bs.length ∧ bs.length ≤ 8 ∧ a + bs.length ≤ c.spadSize ∧ !c.supervisor then
        some (s.modCore core fun c => c.spadWrite a bs true)
      else none)

/-- FETCH_FILL (01 R25). -/
def execFetchFill (core : Nat) (s : State) : Host.Outcome State Fault Refusal := offered (s.fetchFill core)

/-- M_OPERATION_PERFORM (06 R192): the oldest issued matrix operation performs. -/
def execMOperationPerform (core : Nat) (s : State) : Host.Outcome State Fault Refusal :=
  offered (if (s.core core).mq = [] then none else some (s.modCore core Core.performM))

end Sys2Proof.Machine
end

