-- ==== Sys2Proof/Machine/CopyEvents.lean ====
section
/-! DEFINITION. The copy engines at work: runs moved inside the package, lines sent to other packages, reductions, broadcasts,
record loads and stage-queue pushes, and how an operation ends (07 R210 to R230, 13 R335). -/

namespace Sys2Proof.Machine

/-! ### Runs -/

/-- The pieces of a run: own scratchpad granules, or a global access's pieces, or the refusal's KIND, address and bad entry. A
pattern has none. -/
def State.runPieces (s : State) (key : Nat) (x : CAddr) (need : Need) (n : Nat) :
    Except (Nat × BitVec 57 × Option Nat) (List Piece) × State :=
  match x with
  | .pattern _ => (.ok [], s)
  | .spad a => (.ok ((granuleParts a n).map fun q => ⟨a + q.1, .window key (a + q.1), q.2⟩), s)
  | .glob t => match s.pieces t.asid t.ca need (t.cls = .host) n with
    | (.ok ps, s) => (.ok ps, s)
    | (.error e, s) => (.error (e.1, t.va + BitVec.ofNat 57 e.2.2, e.2.1), s)

/-- What a copy engine reads from a run: the bytes, and for each whether its granule is poisoned (07 R220). -/
def State.runBytes (s : State) (key : Nat) (x : CAddr) (ps : List Piece) (n : Nat) : List (Byte × Bool) :=
  match x with
  | .pattern p => (List.range n).map fun i => (p.extractLsb' (8 * (i % 8)) 8, false)
  | _ => ps.flatMap fun p => (s.readPiece (dieOf key) p).map fun b => (b, s.placePoison p.place)

/-- A byte `i` of a piece lies in another piece. -/
def Piece.meets (p : Piece) (i : Nat) (q : Piece) : Bool :=
  match p.place, q.place with
  | .mem a, .mem b => decide (b ≤ a + i) && decide (a + i < b + q.len)
  | .host a, .host b => decide (b ≤ a + i) && decide (a + i < b + q.len)
  | .window k a, .window l b => k == l && decide (b ≤ a + i) && decide (a + i < b + q.len)
  | _, _ => false

/-- Bytes to be written to some pieces, undefined where they overlap the operation's source (07 R220). -/
def undefOverlap (draw : Nat) (srcs dsts : List Piece) (bytes : List (Byte × Bool)) : List (Byte × Bool) :=
  let at_ := dsts.flatMap fun p => (List.range p.len).map fun i => srcs.any fun q => p.meets i q
  if at_.all fun b => !b then bytes
  else (List.range bytes.length).map fun i =>
    let b := bytes.getD i (0, false)
    if at_.getD i false then (Config.freeBits draw (2 ^ 21 + i) 8, b.2) else b

/-- Writes bytes to pieces; a granule that takes a poisoned byte becomes poisoned (07 R220). -/
def State.putRun (s : State) (key : Nat) (asid : BitVec 16) : List Piece → List (Byte × Bool) → State
  | [], _ => s
  | p :: l, bs =>
    let here := bs.take p.len
    let data := here.map fun (b : Byte × Bool) => b.1
    let s := match p.place with
      | .window _ _ => s.writePiece asid p data
      | _ => s.homeWrite asid (some key) p.ca [p] data
    let s := if here.any fun (b : Byte × Bool) => b.2 then s.setPoison p.place true else s
    s.putRun key asid l (bs.drop p.len)

/-! ### How an operation ends (07 R210, R213, R214) -/

/-- Changes a queued copy. -/
def State.modCopy (s : State) (key id : Nat) (f : CopyOp → CopyOp) : State :=
  s.modCore key fun c => { c with copies := c.copies.map fun o => if o.id = id then f o else o }

/-- KNOT_FAILED (18 R439). -/
def State.logKnot (s : State) (key : Nat) (o : CopyOp) (reason pos : Nat) : State :=
  s.logAppend
    { code := 0x0023, cls := 0, part := s.ctxPart o.asid, asid := o.asid.toNat, source := sourceOf key, wid := o.wid.toNat
      detail := o.kp.toNat + 256 * reason + 2 ^ 32 * pos }

/-- An operation performs, or fails with a reason and a list position: its entry frees, and its knot resolves or fails unless
its item has ended. -/
def State.finishCopy (s : State) (key : Nat) (o : CopyOp) (fail : Option (Nat × Nat)) : State :=
  let s := match fail with | some (reason, pos) => s.logKnot key o reason pos | none => s
  s.modCore key fun c =>
    let c := { c with copies := c.copies.filter fun x => x.id ≠ o.id }
    if o.ret.isNone then c.finishKnot o.kp fail.isNone else c

/-- A translator refuses an operation (14 R372): its knot stays PENDING until the kill; of an item that has ended, the failure is
logged with its WID and the operation is gone. -/
def State.refuseCopy (s : State) (key : Nat) (o : CopyOp) (kind : Nat) (va : BitVec 57) (pte : Option Nat) : State :=
  let s := { s with link := { s.link with reqs := s.link.reqs.filter fun r => !(r.core == key &&
    match r.sink with | .copy id _ => id == o.id | _ => false) } }
  if o.ret.isNone then
    (s.modCopy key o.id fun o => { o with refused := true }).modCore key fun c =>
      { c with refusals := c.refusals ++ [(kind, va, pte)] }
  else
    (s.logAppend
      { code := if pte.isSome then 0x0021 else 0x0020, cls := 2, part := s.ctxPart o.asid, asid := o.asid.toNat
        source := sourceOf key, addr := va.toNat, wid := o.wid.toNat, detail := kind + (pte.getD 0) * 2 ^ 64 }).modCore key fun c =>
      { c with copies := c.copies.filter fun x => x.id ≠ o.id }

/-! ### Moves inside the package (07 R220 to R226) -/

/-- The source and destination pieces of every run, or the first refusal. -/
def State.planMoves (s : State) (key : Nat) : List Move →
    Except (Nat × BitVec 57 × Option Nat) (List (Move × List Piece × List Piece)) × State
  | [] => (.ok [], s)
  | m :: l =>
    match s.runPieces key m.src .r m.len with
    | (.error e, s) => (.error e, s)
    | (.ok src, s) => match s.runPieces key m.dst .w m.len with
      | (.error e, s) => (.error e, s)
      | (.ok dst, s) => match s.planMoves key l with
        | (.error e, s) => (.error e, s)
        | (.ok r, s) => (.ok ((m, src, dst) :: r), s)

/-- Runs are read, then written in order; none where a line is held (log 17). -/
def State.performMoves (s : State) (key : Nat) (o : CopyOp) (l : List Move) : Option (Bool × State) :=
  match s.planMoves key l with
  | (.error e, s) => some (false, s.refuseCopy key o e.1 e.2.1 e.2.2)
  | (.ok plan, s) =>
    if plan.any fun q => q.2.1.any Piece.isHeld || q.2.2.any Piece.isHeld then none
    else
      let srcs := plan.flatMap fun q => q.2.1
      let data := plan.map fun q => (q.2.2, undefOverlap s.free srcs q.2.2 (s.runBytes key q.1.src q.2.1 q.1.len))
      let s := { s with free := s.free + 1 }
      let s := srcs.foldl (fun s p => s.fillRdc (dieOf key) p) s
      some (true, data.foldl (fun s q => s.putRun key o.asid q.1 q.2) s)

/-! ### Reductions (07 R227) -/

/-- One element of a reduction: x of the destination, y of the source. -/
def redcElem (op : BitVec 2) (tag : Tag) (x y : Nat) : Nat :=
  match fpOfTag tag with
  | some f =>
    if op = 0 then (round f .rne false 0 (Fv.add .rne (f.value x) (f.value y)).1).1 else (fpMinMax f (op == 2) x y).1
  | none =>
    if op = 0 then (x + y) % 2 ^ 32
    else
      let le := if tag = 0x06 then decide (signedBits 32 x ≤ signedBits 32 y) else decide (x ≤ y)
      if op = 1 then (if le then x else y) else (if le then y else x)

/-- The bytes of a line after a reduction. -/
def redcBytes (op : BitVec 2) (tag : Tag) (x y : List Byte) : List Byte :=
  let w := if tag = 0x09 then 2 else 4
  (List.range (x.length / w)).flatMap fun i =>
    leBytes w (redcElem op tag (leNat ((x.drop (w * i)).take w)) (leNat ((y.drop (w * i)).take w)))

/-- A reduction's step at the home slice of a line: a poisoned line is left as it is, and poison of the source passes to the
line (07 R220, 18 R445, log 18). -/
def State.redcStep (s : State) (asid : BitVec 16) (writer : Option Nat) (ps : List Piece) (op : BitVec 2) (tag : Tag)
    (src : List Byte) (poison : Bool) : State :=
  if ps.any fun p => s.placePoison p.place then s
  else
    let old := ps.flatMap fun p => s.placeBytes p.place p.len
    let ca := match ps with | p :: _ => p.ca | [] => 0
    let s := s.homeWrite asid writer ca ps (redcBytes op tag old src)
    if poison then ps.foldl (fun s p => s.setPoison p.place true) s else s

/-- The lines of a local reduction from offset `off`; `n` counts them. -/
def State.reduceLines (s : State) (key : Nat) (o : CopyOp) (dst : Target) (src : CAddr) (op : BitVec 2) (tag : Tag) :
    Nat → Nat → Option (Bool × State)
  | _, 0 => some (true, s)
  | off, n + 1 =>
    match s.runPieces key (src.plus off) .r 128 with
    | (.error e, s) => some (false, s.refuseCopy key o e.1 e.2.1 e.2.2)
    | (.ok sp, s) => match s.runPieces key ((CAddr.glob dst).plus off) .w 128 with
      | (.error e, s) => some (false, s.refuseCopy key o e.1 e.2.1 e.2.2)
      | (.ok dp, s) =>
        if sp.any Piece.isHeld || dp.any Piece.isHeld then none
        else
          let bs := s.runBytes key (src.plus off) sp 128
          (s.redcStep o.asid (some key) dp op tag (bs.map (·.1)) (bs.any (·.2))).reduceLines key o dst src op tag (off + 128) n

/-! ### Lines to and from other packages (07 R232, R233, 18 R456) -/

/-- The target of a run, where it is REMOTE. -/
def CAddr.remote (x : CAddr) : Option Target :=
  match x with | .glob t => if t.cls = .remote then some t else none | _ => none

/-- The remote side of a run: its target and whether it is the destination. -/
def Move.far (m : Move) : Option (Target × Bool) :=
  match m.dst.remote with
  | some t => some (t, true)
  | none => m.src.remote.map fun t => (t, false)

/-- The parts of a run that lie in one 128 B line of an address. -/
def lineParts (a n : Nat) : List (Nat × Nat) :=
  if n = 0 then []
  else (List.range ((a + n - 1) / 128 - a / 128 + 1)).map fun i =>
    let lo := max a (128 * (a / 128 + i))
    (lo - a, min (a + n) (128 * (a / 128 + i) + 128) - lo)

/-- A run cut at the lines of its remote side. -/
def Move.lines (m : Move) : List Move :=
  match m.far with
  | none => [m]
  | some (t, _) => (lineParts t.ca.toNat m.len).map fun q => ⟨m.dst.plus q.1, m.src.plus q.1, q.2⟩

/-- The runs that an operation sends to other packages. -/
def CopyJob.remoteMoves : CopyJob → List Move
  | .move l _ => if l.any fun m => m.far.isSome then l.flatMap Move.lines else []
  | .reduce dst src _ _ len => if dst.cls = .remote then Move.lines ⟨.glob dst, src, len⟩ else []
  | .bcast dst src len => Move.lines ⟨.glob dst, src, len⟩
  | _ => []

/-- Poison of a line's data units, one bit each (18 R456). -/
def unitPoison (bytes : List (Byte × Bool)) : BitVec 8 :=
  BitVec.ofNat 8 ((List.range 8).foldl (fun a i =>
    if ((bytes.drop (16 * i)).take 16).any (·.2) then a + 2 ^ i else a) 0)

/-- The members of a group that this package still counts: its table less those it has fenced (18 R453). -/
def Link.members (k : Link) (group : Nat) : List Nat :=
  (SMap.get [] k.groups group).filter fun m => !k.fenced.contains (group, m)

/-- The refusal of an access by a run, as a step of the operation. -/
def State.refused (s : State) (key : Nat) (o : CopyOp) (e : Nat × BitVec 57 × Option Nat) : State :=
  s.refuseCopy key o e.1 e.2.1 e.2.2

/-- A broadcast line: the package's own copy is written here, and every other member is to acknowledge (07 R228). -/
def State.sendBcast (s : State) (key : Nat) (o : CopyOp) (t : Target) (m : Move) (bytes : List (Byte × Bool)) : Option State :=
  match s.link.devId with
  | none => none
  | some id =>
    let all := s.link.members t.peer.toNat
    let others := all.filter fun x => x ≠ id.toNat
    let here := fun (s : State) =>
      if !all.contains id.toNat then s
      else
        let asid : BitVec 16 := t.rasid.zeroExtend 16
        let msg : Msg := { t.request mtBcst with src := id }
        if !s.admits msg then s.modCopy key o.id fun o => { o with failed := some (4, 0) }
        else match s.pieces asid t.ca .w false m.len with
          | (.ok ps, s) => s.putRun key asid ps bytes
          | (.error _, s) => s.modCopy key o.id fun o => { o with failed := some (4, 0) }
    if others.any fun x => s.link.unreachable.contains (BitVec.ofNat 20 x) then
      some (s.modCopy key o.id fun o => { o with failed := some (1, 0), todo := some [] })
    else if others = [] then some (here s)
    else if 8 ≤ s.link.slotsUsed key then none
    else
      let s := here s
      let k := s.link
      let msg := { t.writeMsg s.free (bytes.map (·.1)) (unitPoison bytes) with mtype := mtBcst, tag := k.nextTag, src := id }
      let k := k.multicast msg
      let reqs := others.map fun x => (⟨BitVec.ofNat 20 x, msg.tag, key, .copy o.id m, s.time⟩ : Req)
      some ({ s with free := s.free + 1, link := { k with nextTag := k.nextTag + 1, reqs := k.reqs ++ reqs } }.modCopy key o.id
        fun o => { o with acks := o.acks + others.length })

/-- Sends the next line of an operation: a READ for a remote source, else a WRITE, REDC or BCST with the bytes read here. None
where no request slot is free or a line is held. -/
def State.sendLine (s : State) (key : Nat) (o : CopyOp) (m : Move) : Option State :=
  match m.far with
  | none =>
    -- a row of a remote gather that is not found: written here
    (s.performMoves key o [m]).map fun r => r.2
  | some (t, true) =>
    (match s.runPieces key m.src .r m.len with
    | (.error e, s) => some (s.refused key o e)
    | (.ok ps, s) =>
      if ps.any Piece.isHeld then none
      else
        let bytes := s.runBytes key m.src ps m.len
        match o.job with
        | .bcast _ _ _ => s.sendBcast key o t m bytes
        | job =>
          let msg := t.writeMsg s.free (bytes.map (·.1)) (unitPoison bytes)
          let msg := match job with
            | .reduce _ _ op tag _ => { msg with mtype := mtRedc, op := op.zeroExtend 8, fmt := tag.zeroExtend 8 }
            | _ => msg
          if s.link.noPeer t.peer then some (s.modCopy key o.id fun o => { o with failed := some (1, 0), todo := some [] })
          else (s.request key (.copy o.id m) msg).map fun s =>
            { s with free := s.free + 1 }.modCopy key o.id fun o => { o with acks := o.acks + 1 })
  | some (t, false) =>
    if s.link.noPeer t.peer then some (s.modCopy key o.id fun o => { o with failed := some (1, 0), todo := some [] })
    else (s.request key (.copy o.id m) { t.request mtRead with ca := BitVec.ofNat 52 (t.ca.toNat / 128 * 128) }).map fun s =>
      s.modCopy key o.id fun o => { o with acks := o.acks + 1 }

/-- The operation as the core holds it now. -/
def State.copyOf (s : State) (key id : Nat) : Option CopyOp := (s.core key).copies.find? fun o => o.id == id

/-- Sends lines while request slots are free; `n` bounds them. -/
def State.sendLines (s : State) (key id : Nat) : Nat → State
  | 0 => s
  | n + 1 =>
    match s.copyOf key id with
    | none => s
    | some o =>
      if o.refused ∨ o.failed.isSome then s
      else match o.todo with
        | some (m :: l) => match s.sendLine key o m with
          | some t => (t.modCopy key id fun o => { o with todo := if o.todo = some [] then some [] else some l }).sendLines key id n
          | none => s
        | _ => s

/-- One step of an operation whose lines travel: the lines that can leave are sent; when none is left and every response has
come, it performs or fails. None where nothing can move. -/
def State.stepRemote (s : State) (key : Nat) (o : CopyOp) (moves : List Move) : Option State :=
  let finish := fun (s : State) (o : CopyOp) => s.finishCopy key o (match o.failed with
    | some f => some f
    | none => match o.job with | .move _ (some k) => some (0, k) | _ => none)
  let s' := match o.todo with
    | none => s.modCopy key o.id fun o => { o with todo := some moves }
    | some _ => s
  let t := s'.sendLines key o.id (moves.length + 1)
  match t.copyOf key o.id with
  | none => some t
  | some p =>
    if p.refused then some t
    else if p.todo = some [] ∧ p.acks = 0 then some (finish t p)
    else if p = o then none
    else some t

/-! ### Stage queues (07 R230, 13 R335) -/

/-- Where record `i` of a stage's queue lies: a virtual address of the launch's context. -/
def Launch.recordVa (l : Launch) (stage i : Nat) : Nat :=
  let base := (l.stages.take stage).foldl (fun a q => a + q.qcap) 0
  l.qbase + 64 * (base + i % max 1 ((l.stages[stage]?.map Stage.qcap).getD 1))

/-- Changes a stage of the launch of a slot. -/
def State.modStage (s : State) (slot stage : Nat) (f : Stage → Stage) : State :=
  s.modLaunch slot fun l => { l with stages := l.stages.mapIdx fun i q => if i = stage then f q else q }

/-- A record enters a stage's queue, if it has room, pushed from another stage (13 R335, R338). -/
def State.pushRecord (s : State) (slot frm stage : Nat) (record : List Byte) : Option State :=
  let note := fun (l : Launch) => { l with pushed := (List.range 4).foldl (fun m d =>
      SMap.set [] m d ((SMap.get [] m d).filter (· ≠ (frm, stage)) ++ [(frm, stage)])) l.pushed }
  match (s.slot slot).launch with
  | none => none
  | some l => match l.stages[stage]? with
    | none => none
    | some q =>
      if q.qcap ≤ q.count then none
      else
        let s := s.writeVa (s.slot slot).asid (l.recordVa stage (q.head + q.count)) record
        some ((s.modStage slot stage fun q => { q with count := q.count + 1 }).modLaunch slot note)

/-- The queue of a stage is one that an earlier push of the same engine still waits for (07 R230). -/
def Core.earlierPush (c : Core) (o : CopyOp) (stage : Nat) : Bool :=
  c.copies.any fun p => decide (p.id < o.id) && p.engine == o.engine && p.slot == o.slot && p.ret == o.ret &&
    match p.job with | .push _ st => st == stage | _ => false

/-- A push whose record has been read enters its queue. -/
def State.pushReady (s : State) (key : Nat) (o : CopyOp) : Option State :=
  match o.job, o.record with
  | .push _ stage, some r =>
    if (s.core key).earlierPush o stage then none
    else (s.pushRecord o.slot o.stage stage r).map fun s => s.finishCopy key o none
  | _, _ => none

/-! ### The events -/

/-- The `idx`-th operation of an engine, oldest first. -/
def Core.copyAt (c : Core) (e : Engine) (idx : Nat) : Option CopyOp := (c.copies.filter fun o => o.engine == e)[idx]?

/-- One step of a queued operation: it performs, fails, sends lines or reads its record. -/
def State.stepCopy (s : State) (key : Nat) (o : CopyOp) : Option State :=
  if o.refused then none
  else match o.job with
    | .move l miss =>
      if l.any fun m => m.far.isSome then s.stepRemote key o o.job.remoteMoves
      else match s.performMoves key o l with
        | some (true, s) => some (s.finishCopy key o (miss.map fun k => (0, k)))
        | some (false, s) => some s
        | none => none
    | .reduce dst src op tag len =>
      if dst.cls = .remote then s.stepRemote key o o.job.remoteMoves
      else match s.reduceLines key o dst src op tag 0 (len / 128) with
        | some (true, s) => some (s.finishCopy key o none)
        | some (false, s) => some s
        | none => none
    | .bcast _ _ _ => s.stepRemote key o o.job.remoteMoves
    | .loadRecord dst record => some ((s.modCore key fun c => c.spadWrite dst record true).finishCopy key o none)
    | .push addr _ =>
      match o.record with
      | some _ => none
      | none =>
        let c := s.core key
        if (granuleParts addr 64).any fun q => c.poison.contains (.spad ((addr + q.1) / 16 * 16)) then
          some (s.finishCopy key o (some (3, 0)))
        else
          let r := SMap.getList 0 c.spad addr 64
          let t := s.modCopy key o.id fun o => { o with record := some r }
          match t.pushReady key { o with record := some r } with
          | some u => some u
          | none => some t

/-- COPY_PERFORM (07 R210, R219): the `idx`-th operation of an engine moves: it performs or fails, or sends the lines that
can leave. -/
def execCopyPerform (core : Nat) (e : Engine) (idx : Nat) (s : State) : Host.Outcome State Fault Refusal :=
  offered (match (s.core core).copyAt e idx with
    | none => none
    | some o => s.stepCopy core o)

/-- STQ_PUSH_PERFORM (07 R230): a push that waits for room enters its queue. -/
def execStqPushPerform (core : Nat) (e : Engine) (idx : Nat) (s : State) : Host.Outcome State Fault Refusal :=
  offered (match (s.core core).copyAt e idx with
    | none => none
    | some o => s.pushReady core o)

end Sys2Proof.Machine
end

