-- ==== Sys2Proof/Machine/Sync.lean ====
section
/-! DEFINITION. Atomics, barriers, drains, item boundaries, regions, PROBE, TRAP and ERET, with the router's and the gang's steps
(08 R244 to R266). -/

namespace Sys2Proof.Machine

/-! ### Atomics (08 R244 to R248) -/

/-- An atomic: its tests, and a landing slot whose request leaves in its own order, or in the store stream where ORD is set. -/
def amoOp (opc : BitVec 8) (op : AmoOp) (g : Guard) (w : SA) : OpSem :=
  let n := sizeBytes w.size
  { slot := .s, op := opc, guard := g
    reads := fun _ => .preg g.pred.toNat :: sPlaces ([w.a, w.b] ++ if op = .cas then [w.c] else [])
    base := fun v => { a := v.s 1 w.a }
    check5 := fun _ _ v => (vaTest opc v.addrs.a n).orElse fun _ =>
      if v.core.landingFull then some (trapS causeRange opc 0) else none
    fatal := fun _ _ v => (rangeFatal v.core v.addrs.a .rw n).orElse fun _ =>
      if v.core.classAt (addrOf v.addrs.a) = some .host then some (1, addrOf v.addrs.a) else none
    perform := fun key v a => a.core key fun c =>
      let t := v.core.target v.addrs.a .rw
      let id := c.nextLanding
      let c := c.takeLanding w.lnd.toNat false w.d t (.amo op w.size (v.s 2 w.b) (v.s 3 w.c) w.scope (w.ord == 1))
      if w.ord = 1 then { c with stream := c.stream ++ [{ seq := id, tgt := t, kind := .amo id }] } else c }

/-- AMOADD (08 R244) -/
def semAmoadd (g : Guard) (w : SA) : OpSem := amoOp 0x70 .add g w
/-- AMOAND (08 R244) -/
def semAmoand (g : Guard) (w : SA) : OpSem := amoOp 0x71 .and g w
/-- AMOOR (08 R244) -/
def semAmoor (g : Guard) (w : SA) : OpSem := amoOp 0x72 .or g w
/-- AMOXOR (08 R244) -/
def semAmoxor (g : Guard) (w : SA) : OpSem := amoOp 0x73 .xor g w
/-- AMOMIN (08 R244) -/
def semAmomin (g : Guard) (w : SA) : OpSem := amoOp 0x74 .min g w
/-- AMOMAX (08 R244) -/
def semAmomax (g : Guard) (w : SA) : OpSem := amoOp 0x75 .max g w
/-- AMOSWAP (08 R244) -/
def semAmoswap (g : Guard) (w : SA) : OpSem := amoOp 0x76 .swap g w
/-- AMOCAS (08 R244) -/
def semAmocas (g : Guard) (w : SA) : OpSem := amoOp 0x77 .cas g w
/-- AMOFADD (08 R244, R249) -/
def semAmofadd (g : Guard) (w : SA) : OpSem := amoOp 0x78 .fadd g w

/-! ### Barriers and drains (08 R250 to R255) -/

/-- An SI operation with no register operand and no class. -/
def plainSI (op : BitVec 8) (g : Guard) : OpSem :=
  { slot := .s, op := op, guard := g, reads := fun _ => [.preg g.pred.toNat] }

/-- BAR (08 R250, R253): the packet follows the implied drain. -/
def semBar (g : Guard) (w : SI) : OpSem :=
  { plainSI 0x80 g with
    check5 := fun _ _ v => match v.core.item.bind Item.gang with
      | none => some (trapS causeRange 0x80 0)
      | some _ => none
    perform := fun key v a => a.core key fun c => { c with
      barPc := v.pc, bar := if w.imm.extractLsb' 0 2 = 0 then .sent else .draining (w.imm.extractLsb' 0 2) } }

/-- BAR_PACKET (08 R251): the router takes a core's packet; the release goes out once every member has reported or ended. -/
def execBarPacket (core : Nat) (s : State) : Host.Outcome State Fault Refusal :=
  let c := s.core core
  offered (if c.bar ≠ .sent then none
    else match c.item.bind Item.gang with
      | none => none
      | some n =>
        let s := s.modCore core fun c => { c with bar := .reported }
        let q := (SMap.get none s.gangs n).map fun (q : Gang) =>
          { q with reported := q.reported.filter (· ≠ core) ++ [core] }
        some ({ s with gangs := SMap.set none s.gangs n q }.releaseIfAll n))

/-- BARRIER_RELEASE (08 R250, R251): the release reaches a member. -/
def execBarrierRelease (core : Nat) (s : State) : Host.Outcome State Fault Refusal :=
  offered (if (s.core core).bar = .released then some (s.modCore core fun c => { c with bar := .none }) else none)

/-- DRAIN (08 R254) -/
def semDrain (g : Guard) (w : SI) : OpSem :=
  { plainSI 0x81 g with
    wait := fun s key _ => if s.drained key (w.imm.extractLsb' 0 2).toNat then none else some acctDrain }

/-- SETTLE (08 R255) -/
def semSettle (g : Guard) (_w : SI) : OpSem :=
  { plainSI 0x82 g with wait := fun _ _ v => if v.core.settled then none else some acctDrain }

/-! ### Item boundaries (08 R256, R257) -/

/-- YIELD (08 R256): where it does not hand the core over, it restarts the watchdog and lets go of probed pages (14 R374). -/
def semYield (g : Guard) (_w : SI) : OpSem :=
  { plainSI 0x83 g with
    yields := true
    perform := fun key _ a =>
      let now := a.st.time
      a.core key fun c => { c with
        probed := []
        item := c.item.map fun it => { it with wdogStart := now, yields := it.yields + 1 } } }

/-- TAIL (08 R257) -/
def semTail (g : Guard) (_w : SI) : OpSem :=
  { plainSI 0x84 g with
    wait := fun _ _ v => if v.core.freeTracker.isNone then some acctDrain else none
    perform := fun _ _ a => { a with tail := true } }

/-! ### Regions (08 R258, 10 R307, R310) -/

/-- A region breakpoint armed for an ID at an ENTER (bit 0 of KIND) or a LEAVE (bit 1) of the owning context (10 R310). -/
def Core.regionHit (c : Core) (id : BitVec 16) (bit : Nat) : Bool :=
  id != 0 && (List.range 4).any fun i =>
    let r := SMap.get 0 c.hooks.regionBp i
    r.extractLsb' 0 16 == id && r.extractLsb' 48 16 == c.cr.asid && r.getLsbD (16 + bit)

/-- A pushed or popped region meets the breakpoints. -/
def Core.regionEdge (c : Core) (id : BitVec 16) (bit : Nat) : Core :=
  if c.regionHit id bit then { c with hooks := { c.hooks with breakNext := some id } } else c

/-- ENTER (08 R258): a push onto a full stack of 16 discards the bottom entry. -/
def semEnter (g : Guard) (w : SI) : OpSem :=
  let id := w.imm.extractLsb' 0 16
  { plainSI 0x85 g with
    perform := fun key _ a =>
      { a.core key fun c => { c with region := (id :: c.region).take 16 }.regionEdge id 0 with edge := true } }

/-- LEAVE (08 R258): an empty stack stays empty. -/
def semLeave (g : Guard) (_w : SI) : OpSem :=
  { plainSI 0x86 g with
    perform := fun key _ a =>
      { a.core key fun c => match c.region with
          | [] => c
          | id :: l => { c with region := l }.regionEdge id 1 with edge := true } }

/-! ### PROBE (08 R259, R264, 14 R374) -/

/-- The KIND of PROBE_FAULT for the page of one address, walked afresh: 0 absent, 1 no range, 2 refused. A REMOTE page lies with
another package and is not walked (log 19). -/
def State.probePage (s : State) (c : Core) (va : BitVec 57) (need : Need) : Option Nat :=
  match c.rangeOf va need with
  | .error 0 => some 1
  | .error _ => some 2
  | .ok t =>
    if t.cls = .remote then none
    else if isWindow t.ca then (if (s.windowCore t.ca).isSome then none else some 1)
    else if !isHostCa t.ca ∧ !(s.homeEntry t.ca).getLsbD 15 then some 1
    else if !isHostCa t.ca ∧ (s.homeEntry t.ca).getLsbD 2 then none
    else match s.walk c.cr.asid t.ca (isHostCa t.ca || t.cls == .host) with
      | .absent => some 0
      | .bad _ => some 0
      | .leaf l => if l.isFreed t.ca then some 0 else if need.ok l.r l.w l.x then none else some 2

/-- The first address of an extent, then each 64 KiB boundary inside it. -/
def probePoints (va n : Nat) : List Nat :=
  va :: (List.range ((va + n - 1) / 65536 - va / 65536)).map fun i => (va / 65536 + i + 1) * 65536

/-- The first failing byte of an extent: KIND and address. -/
def State.probe (s : State) (c : Core) (va n : Nat) (need : Need) : Option (Nat × Nat) :=
  (probePoints va n).findSome? fun a => (s.probePage c (BitVec.ofNat 57 a) need).map fun k => (k, a)

/-- PROBE (08 R259) -/
def semProbe (g : Guard) (w : SI) : OpSem :=
  let len := (w.imm.extractLsb' 0 24).toNat
  let wr := w.imm.getLsbD 24
  let need := if wr then Need.rw else Need.r
  { slot := .s, op := 0x87, guard := g, reads := fun _ => .preg g.pred.toNat :: sPlaces [w.a]
    base := fun v => { a := v.s 1 w.a }
    check5 := fun _ _ v => if len = 0 ∨ 2 ^ 57 ≤ v.addrs.a.toNat then some (trapS causeRange 0x87 v.addrs.a.toNat) else none
    late5 := fun s _ v => (s.probe v.core v.addrs.a.toNat len need).map fun q =>
      ⟨0x07, BitVec.ofBool wr ++ BitVec.ofNat 2 q.1 ++ (0 : BitVec 4) ++ BitVec.ofNat 57 q.2⟩
    perform := fun key v a =>
      let pages := (probePoints v.addrs.a.toNat len).filterMap fun x =>
        match v.core.rangeOf (BitVec.ofNat 57 x) need with
        | .ok t => some (t.ca.toNat / 65536 * 65536)
        | .error _ => none
      { a with st := a.st.freezeCycle key acctDrain }.core key fun c => { c with probed := c.probed ++ pages } }

/-! ### Traps and their return (08 R260, R265) -/

/-- TRAP and TRAP.brk (08 R260, R264) -/
def semTrap (g : Guard) (w : SI) : OpSem :=
  { plainSI 0x88 g with
    check5 := fun _ _ v => some ⟨if w.imm.getLsbD 16 then 0x08 else 0x09,
      (0 : BitVec 40) ++ BitVec.ofNat 6 v.size ++ (0 : BitVec 1) ++ w.imm.extractLsb' 0 17⟩ }

/-- ERET (08 R265): a return address is tested before system mode is left. -/
def semEret (g : Guard) (_w : SI) : OpSem :=
  { plainSI 0x89 g with
    priv := fun _ => true, runsOn := fun _ c => !c.supervisor
    check5 := fun _ _ v =>
      let c := v.core
      if isKillCause c.cr.cause ∨ c.item.isNone ∨ c.saved then none
      else if c.cr.epc.extractLsb' 0 2 ≠ 0 then some (trapS causeAlign 0x89 c.cr.epc.toNat)
      else if c.cr.epc.extractLsb' 57 7 ≠ 0 then some (trapS causeRange 0x89 c.cr.epc.toNat) else none
    perform := fun _ _ a => { a with eret := true } }

/-! ### The meanings -/

/-- AMOADD (R246) as a bundle of its own. -/
def execAmoadd (g : Guard) (w : SA) (s : State) : Host.Outcome State Fault Refusal :=
  runSolo (semAmoadd g w) (.amoadd g w) s
/-- AMOAND (R246) as a bundle of its own. -/
def execAmoand (g : Guard) (w : SA) (s : State) : Host.Outcome State Fault Refusal :=
  runSolo (semAmoand g w) (.amoand g w) s
/-- AMOOR (R246) as a bundle of its own. -/
def execAmoor (g : Guard) (w : SA) (s : State) : Host.Outcome State Fault Refusal :=
  runSolo (semAmoor g w) (.amoor g w) s
/-- AMOXOR (R246) as a bundle of its own. -/
def execAmoxor (g : Guard) (w : SA) (s : State) : Host.Outcome State Fault Refusal :=
  runSolo (semAmoxor g w) (.amoxor g w) s
/-- AMOMIN (R246) as a bundle of its own. -/
def execAmomin (g : Guard) (w : SA) (s : State) : Host.Outcome State Fault Refusal :=
  runSolo (semAmomin g w) (.amomin g w) s
/-- AMOMAX (R246) as a bundle of its own. -/
def execAmomax (g : Guard) (w : SA) (s : State) : Host.Outcome State Fault Refusal :=
  runSolo (semAmomax g w) (.amomax g w) s
/-- AMOSWAP (R246) as a bundle of its own. -/
def execAmoswap (g : Guard) (w : SA) (s : State) : Host.Outcome State Fault Refusal :=
  runSolo (semAmoswap g w) (.amoswap g w) s
/-- AMOCAS (R246) as a bundle of its own. -/
def execAmocas (g : Guard) (w : SA) (s : State) : Host.Outcome State Fault Refusal :=
  runSolo (semAmocas g w) (.amocas g w) s
/-- AMOFADD (R249) as a bundle of its own. -/
def execAmofadd (g : Guard) (w : SA) (s : State) : Host.Outcome State Fault Refusal :=
  runSolo (semAmofadd g w) (.amofadd g w) s
/-- BAR (R250) as a bundle of its own. -/
def execBar (g : Guard) (w : SI) (s : State) : Host.Outcome State Fault Refusal :=
  runSolo (semBar g w) (.bar g w) s
/-- DRAIN (R254) as a bundle of its own. -/
def execDrain (g : Guard) (w : SI) (s : State) : Host.Outcome State Fault Refusal :=
  runSolo (semDrain g w) (.drain g w) s
/-- SETTLE (R255) as a bundle of its own. -/
def execSettle (g : Guard) (w : SI) (s : State) : Host.Outcome State Fault Refusal :=
  runSolo (semSettle g w) (.settle g w) s
/-- YIELD (R256) as a bundle of its own. -/
def execYield (g : Guard) (w : SI) (s : State) : Host.Outcome State Fault Refusal :=
  runSolo (semYield g w) (.yield g w) s
/-- TAIL (R257) as a bundle of its own. -/
def execTail (g : Guard) (w : SI) (s : State) : Host.Outcome State Fault Refusal :=
  runSolo (semTail g w) (.tail g w) s
/-- ENTER (R258) as a bundle of its own. -/
def execEnter (g : Guard) (w : SI) (s : State) : Host.Outcome State Fault Refusal :=
  runSolo (semEnter g w) (.enter g w) s
/-- LEAVE (R258) as a bundle of its own. -/
def execLeave (g : Guard) (w : SI) (s : State) : Host.Outcome State Fault Refusal :=
  runSolo (semLeave g w) (.leave g w) s
/-- PROBE (R259) as a bundle of its own. -/
def execProbe (g : Guard) (w : SI) (s : State) : Host.Outcome State Fault Refusal :=
  runSolo (semProbe g w) (.probe g w) s
/-- TRAP (R260) as a bundle of its own. -/
def execTrap (g : Guard) (w : SI) (s : State) : Host.Outcome State Fault Refusal :=
  runSolo (semTrap g w) (.trap g w) s
/-- ERET (R265) as a bundle of its own. -/
def execEret (g : Guard) (w : SI) (s : State) : Host.Outcome State Fault Refusal :=
  runSolo (semEret g w) (.eret g w) s

end Sys2Proof.Machine
end

