-- ==== Sys2Proof/Machine/Image.lean ====
section
/-! DEFINITION. The context image: what CTXSAVE writes and CTXLOAD reads (08 R270, 14 R380 to R387). -/

namespace Sys2Proof.Machine

/-! ### Portable words (14 R385) -/

/-- The device's stepping ID (02 R80). -/
def deviceStepping : Nat := 0x03020100

/-- An entry of a context's object map (14 R385; the order of its fields is the model's, log 22). -/
structure ObjEntry where
  vbase : Nat
  size : Nat
  kind : Nat
  id : Nat
  deriving DecidableEq, Repr

/-- The object map of a context. -/
def State.objMap (s : State) (asid : BitVec 16) : List ObjEntry :=
  let base := s.memNat (s.ctxEntry asid + 0x18) 8
  (List.range (s.memNat (s.ctxEntry asid + 4) 4)).map fun i =>
    let a := base + 32 * i
    ⟨s.memNat a 8, s.memNat (a + 8) 6, s.memNat (a + 14) 2, s.memNat (a + 16) 16⟩

/-- The object that an address lies in. -/
def objOf (objs : List ObjEntry) (va : Nat) : Option ObjEntry :=
  objs.find? fun o => decide (o.vbase ≤ va) && decide (va < o.vbase + o.size)

/-- The portable word of an address, given the objects of section 12; an address that lies in no object stays raw. -/
def portableWord (tbl objs : List ObjEntry) (va : Nat) : Nat :=
  match objOf objs va with
  | some o => 2 ^ 63 + tbl.idxOf o * 2 ^ 51 + (va - o.vbase)
  | none => va

/-- The address of a portable word on the loading device: each object of section 12 is looked up by its kind and name. -/
def reboundWord (tbl objs : List ObjEntry) (w : W64) : Nat :=
  if !w.getLsbD 63 then w.toNat
  else match tbl[(w.extractLsb' 51 12).toNat]? with
    | some e => match objs.find? fun o => o.kind == e.kind && o.id == e.id with
      | some o => o.vbase + (w.extractLsb' 0 51).toNat
      | none => 0
    | none => 0

/-! ### What is saved (14 R383, R384) -/

/-- A saved push of an STQ (07 R214). -/
def CopyOp.deferred (o : CopyOp) : Bool := match o.job, o.record with | .push _ _, some _ => true | _, _ => false

/-- CTXSAVE may save (07 R214, 14 R380): every landing slot holds its data, every write has performed, every copy is over but
the pushes that wait for room, and the retirement tracker is empty. -/
def Core.saveReady (c : Core) : Bool :=
  c.landings.all (fun l => !l.live || match l.state with | .arrived .. | .failed .. => true | _ => false) &&
    c.stream.isEmpty && c.copies.all CopyOp.deferred && c.tracker.all (fun q => q.2.isNone)

/-- What a landing slot saves: destination file and number, remaining distance, how its value lands, and the value (section 7;
the bytes beside R383's are the model's, log 22). -/
def Landing.image (l : Landing) : List Byte :=
  let how := match l.kind with | .ref _ => 8 + l.tgt.heap.toNat | _ => 0
  let v := match l.state, l.kind with
    | .arrived v p, .load size sgn => (extendLoad size sgn v, if p then 1 else 0, 0)
    | .arrived v p, .amo _ size _ _ _ _ => (extendLoad size false v, if p then 1 else 0, 0)
    | .arrived v p, .ref _ => (v, if p then 1 else 0, 0)
    | .failed kind va _, _ => (va.zeroExtend 64, 2, kind)
    | _, _ => (0, 0, 0)
  leBytes 1 (if l.toK then 1 else 0) ++ leBytes 1 l.d.toNat ++ leBytes 2 l.left ++ leBytes 1 how ++ leBytes 1 v.2.1 ++
    leBytes 1 v.2.2 ++ leBytes 1 0 ++ leBytes 8 v.1.toNat

/-- A latch of the snapshot latch bank (14 R381); SLOT 7 holds flag bits without a drive (log 22). -/
def latchImage (off slot z index tag flags : Nat) (data : Data) (side : Side) : List Byte :=
  leBytes 8 (off * 2 ^ 56 + slot * 2 ^ 53 + z * 2 ^ 47 + index * 2 ^ 42 + tag * 2 ^ 36 + flags * 2 ^ 30) ++
    leBytes 512 data.toNat ++ leBytes 128 side.toNat ++ leBytes 8 0

/-- Flag bits that fall due at an offset. -/
def Latch.flagsAt (l : Latch) (n : Nat) : Flags :=
  Flags.all ((l.flagOrs.filter fun q => q.left == n).map fun q => q.flags)

/-- The latches of an item: each drive, the first at an offset with the flag bits that fall due with it, then flag bits that no
drive carries. -/
def Latch.images (l : Latch) : List (List Byte) :=
  let d := l.drives.filter fun d => d.beat.isSome
  (d.mapIdx fun i x =>
    let b := x.beat.getD {}
    let first := !((d.take i).any fun y => y.left == x.left)
    latchImage x.left x.slot x.z.toNat x.ring b.tag.toNat (if first then (l.flagsAt x.left).toNat else 0) b.data b.side) ++
  ((l.flagOrs.map FlagOr.left).eraseDups.filter fun n => !(d.any fun x => x.left == n)).map fun n =>
    latchImage n 7 0 0 0 (l.flagsAt n).toNat 0 0

/-- The sticky state of a slot (14 R384). -/
def stickyImage (q : Option Sticky) : List Byte :=
  match q with
  | none => leBytes 96 0
  | some st => leBytes 8 st.word.toNat ++ leBytes 8 1 ++ leBytes 8 st.addrs.a.toNat ++ leBytes 8 st.addrs.b.toNat ++
      leBytes 32 st.addrs.ha.toNat ++ leBytes 32 st.addrs.hb.toNat

/-- SOURCE and STATE of a knot in its register's bits (01 R19). -/
def Knot.byte (k : Knot) : Nat :=
  k.source.toNat * 32 + match k.state with | .free => 0 | .pending => 1 | .resolved => 2 | .failed => 3

/-- A bank of accumulators (06 R184). -/
def Bank.rows (b : Bank) : List Byte := (List.range 64).flatMap fun r => leBytes 1024 (SMap.get 0 b.acc r).toNat

/-- The matrix state, in the order of 06 R184's table (log 22). -/
def Matrix.image (m : Matrix) : List Byte :=
  ((List.range 2048).flatMap fun i => leBytes 256 (SMap.get 0 m.cells i).toNat) ++
    SMap.getList 0 m.headers 0 262144 ++ (List.range 8).flatMap (fun p => leBytes 1 (SMap.get 0 m.tags p).toNat) ++
    m.bank0.rows ++ m.bank1.rows ++
    ([m.bank0, m.bank1].flatMap fun b => leBytes 8 b.steps.toNat ++ leBytes 1 b.row.toNat ++ leBytes 1 b.kq.toNat ++
      leBytes 1 b.rm.toNat ++ leBytes 1 (if b.sat then 1 else 0) ++ leBytes 4 0)

/-- The declared strands, 648 B for each ring index (14 R383). -/
def Core.strandImage (c : Core) (mask : W64) : List Byte :=
  ((List.range 64).filter fun z => mask.getLsbD z).flatMap fun z => (List.range 20).flatMap fun i =>
    let b := c.beatAt (BitVec.ofNat 6 z) i
    leBytes 512 b.data.toNat ++ leBytes 128 b.side.toNat ++ leBytes 8 b.tag.toNat

/-- Full-empty bits of `n` granules, eight to a byte, the lowest granule in bit 0. -/
def Core.feImage (c : Core) (n : Nat) : List Byte :=
  (List.range ((n + 7) / 8)).map fun i =>
    BitVec.ofNat 8 ((List.range 8).foldl (fun a j => if decide (8 * i + j < n) && c.feBit (8 * i + j) then a + 2 ^ j else a) 0)

/-- The addresses that an image holds (14 R385), in the order of the sections; `mask` names scalars. -/
def Core.imageAddrs (c : Core) (mask : W64) : List Nat :=
  let e := (c.cr.epc.extractLsb' 0 57).toNat
  e :: ((List.range 64).filter (fun i => mask.getLsbD i)).map (fun i => (c.sReg (BitVec.ofNat 6 i)).toNat) ++
    ((List.range 32).filter (fun i => (c.hReg (BitVec.ofNat 6 i)).getLsbD 57)).map
      (fun i => ((c.hReg (BitVec.ofNat 6 i)).extractLsb' 0 57).toNat) ++
    (List.range 16).map (fun i => ((c.kReg (BitVec.ofNat 6 i)).extractLsb' 0 57).toNat) ++
    (List.range 4).map (fun i => (c.lReg (BitVec.ofNat 6 i)).start.toNat)

/-- Saved at a taken YIELD with no latch, landing, pending knot or deferred push (14 R383). -/
def Core.portable (c : Core) : Bool :=
  (c.item.map Item.atYield).getD false &&
    (match c.latch with | some l => l.drives.isEmpty && l.flagOrs.isEmpty | none => true) &&
    c.landings.all (fun l => !l.live) && c.kn.all (fun q => q.2.state != .pending) && !(c.copies.any CopyOp.deferred)

/-- The fourteen sections of the image of the item that a core holds (14 R383). -/
def Core.sections (c : Core) (tbl objs : List ObjEntry) (mask : W64) : List (List Byte) :=
  let pw := fun (va : Nat) => leBytes 8 (portableWord tbl objs va)
  let latch := c.latch.getD {}
  let it := c.item
  let foot := (it.map Item.footprint).getD 0
  let live := c.landings.filter fun l => l.live
  let pushes := c.copies.filter CopyOp.deferred
  let epc := (c.cr.epc.extractLsb' 0 57).toNat
  [ pw epc ++ pw epc ++ leBytes 8 c.cr.erep.toNat ++ leBytes 8 c.cr.cause.toNat ++ leBytes 8 c.cr.einfo.toNat ++
      leBytes 8 c.cr.round.toNat ++ leBytes 8 c.cr.seed.toNat ++ leBytes 8 c.cr.flags.toNat ++ leBytes 8 c.cr.color.toNat ++
      leBytes 8 c.cr.ceiling.toNat ++ leBytes 8 c.region.length ++
      (List.range 16).flatMap (fun i => leBytes 2 (c.region.getD i 0).toNat),
    (List.range 64).flatMap (fun i =>
        let v := (c.sReg (BitVec.ofNat 6 i)).toNat
        if mask.getLsbD i then pw v else leBytes 8 v) ++
      leBytes 2 ((List.range 16).foldl (fun a i => if c.pReg (BitVec.ofNat 6 i) then a + 2 ^ i else a) 0) ++
      (if c.portable then leBytes 8 mask.toNat else []),
    (List.range 32).flatMap (fun i =>
      let h := c.hReg (BitVec.ofNat 6 i)
      leBytes 32 h.toNat ++ (if h.getLsbD 57 then pw (h.extractLsb' 0 57).toNat else leBytes 8 0)),
    (List.range 16).flatMap (fun i =>
      let k := c.kReg (BitVec.ofNat 6 i)
      leBytes 8 k.toNat ++ pw (k.extractLsb' 0 57).toNat),
    (List.range 4).flatMap (fun i =>
      let l := c.lReg (BitVec.ofNat 6 i)
      leBytes 8 l.count.toNat ++ pw l.start.toNat),
    (List.range 64).flatMap (fun i => leBytes 1 (c.knot (BitVec.ofNat 6 i)).byte),
    [Slot.s, .v0, .v1, .m, .c0, .c1].flatMap (fun sl => stickyImage (SMap.get none latch.sticky sl.idx)),
    leBytes 8 live.length ++ live.flatMap Landing.image,
    leBytes 8 latch.images.length ++ latch.images.flatten,
    c.mx.image,
    c.strandImage ((it.map Item.strands).getD 0),
    SMap.getList 0 c.spad 0 foot ++ c.feImage (foot / 16),
    tbl.flatMap (fun o => leBytes 16 o.id ++ leBytes 8 o.size ++ leBytes 8 o.kind),
    leBytes 8 pushes.length ++ pushes.flatMap fun o =>
      (o.record.getD []) ++ leBytes 1 (match o.job with | .push _ st => st | _ => 0) ++ leBytes 1 o.kp.toNat ++
        leBytes 1 (match o.engine with | .a => 2 | .b => 3) ++ leBytes 13 0 ]

/-- Offset, bytes of each section from an offset on, each on a 128 B boundary. -/
def placeSections : Nat → List (List Byte) → List (Nat × List Byte)
  | _, [] => []
  | off, b :: l => (off, b) :: placeSections ((off + b.length + 127) / 128 * 128) l

/-- The header of an image (14 R383). -/
def State.imageHeader (s : State) (key : Nat) (isLocal : Bool) (secs : List (Nat × List Byte)) : List Byte :=
  let c := s.core key
  leBytes 4 0x5A435458 ++ leBytes 4 deviceStepping ++ leBytes 2 c.cr.asid.toNat ++
    leBytes 2 ((if c.portable then 1 else 0) + if isLocal then 2 else 0) ++ leBytes 4 (s.logicalOf key) ++
    leBytes 8 (c.latch.getD {}).bt.toNat ++ leBytes 4 ((c.item.map Item.footprint).getD 0) ++ leBytes 4 0 ++
    leBytes 8 ((c.item.map Item.strands).getD 0).toNat ++ leBytes 24 0 ++
    secs.flatMap (fun q => leBytes 4 q.1 ++ leBytes 4 q.2.length) ++ leBytes 80 0

/-- The image of the item that a core holds, as runs of bytes at offsets from its header. -/
def State.image (s : State) (key : Nat) : List (Nat × List Byte) :=
  let c := s.core key
  let objs := s.objMap c.cr.asid
  let mask := if c.portable then Config.safePoint c.cr.asid.toNat c.cr.epc.toNat else 0
  let addrs := (c.imageAddrs mask).filter (· ≠ 0)
  let tbl := (addrs.filterMap (objOf objs)).eraseDups
  let secs := placeSections 256 (c.sections tbl objs mask)
  (0, s.imageHeader key (addrs.any fun a => (objOf objs a).isNone) secs) :: secs

/-- A run of system memory: every home granule that it touches is valid and system memory (14 R365). -/
def State.systemRun (s : State) (ca n : Nat) : Bool :=
  decide (ca + n ≤ 2 ^ 52) && (List.range ((ca + n - 1) / 2 ^ 29 - ca / 2 ^ 29 + 1)).all fun i =>
    let e := SMap.get 0 s.homeMap (ca / 2 ^ 29 + i)
    e.getLsbD 15 && e.getLsbD 2

/-- Writes runs of bytes to system memory at their home slices. -/
def State.writeRuns (s : State) (base : Nat) (l : List (Nat × List Byte)) : State :=
  l.foldl (fun s q => (s.memWrite (base + q.1) q.2).sendAll none (base + q.1) q.2.length) s

/-- The end of an image's bytes. -/
def imageEnd (l : List (Nat × List Byte)) : Nat := l.foldl (fun a q => max a (q.1 + q.2.length)) 0

/-- The core after a save: it holds no state of the context (08 R270); the control registers and the accounts stay. -/
def Core.clearSaved (c : Core) (key : Nat) : Core :=
  { coreDefault key with
    bt := c.bt, pc := c.pc, cycle := c.cycle, cr := c.cr, timing := c.timing, fmtBits := c.fmtBits, ecc := c.ecc, acct := c.acct
    icache := c.icache, power := c.power, hooks := c.hooks, ranges := c.ranges, nextLanding := c.nextLanding
    nextCopy := c.nextCopy, yieldReq := c.yieldReq, saved := true }

/-- The save of 08 R270: the image is written, the item joins the suspended list of its stage, and the core is cleared. -/
def State.ctxSave (s : State) (key base : Nat) : State :=
  let c := s.core key
  let s := s.writeRuns base (s.image key)
  let s := match c.item with
    | none => s
    | some it =>
      let causes := c.async.filter fun (a : Async) => a.cause ≠ 0x10
      let it := { it with atYield := false, causes := causes, causeSeq := c.causeSeq, poison := c.poison }
      let put := fun (i : Nat) (q : Stage) => if i = it.stage then { q with suspended := q.suspended ++ [(base, it)] } else q
      s.modLaunch it.slot fun l => { l with stages := l.stages.mapIdx put }
  s.modCore key fun c => c.clearSaved key

/-! ### Loading (08 R270, 14 R386) -/

/-- `n` bytes of an image at an offset of a section, as a number. -/
def State.imgNat (s : State) (base sec off n : Nat) : Nat :=
  s.memNat (base + s.memNat (base + 0x40 + 8 * sec) 4 + off) n

/-- Section 12 of an image. -/
def State.imgObjects (s : State) (base : Nat) : List ObjEntry :=
  (List.range (s.memNat (base + 0x40 + 8 * 12 + 4) 4 / 32)).map fun i =>
    ⟨0, s.imgNat base 12 (32 * i + 16) 8, s.imgNat base 12 (32 * i + 24) 8, s.imgNat base 12 (32 * i) 16⟩

/-- Every check of 14 R386 passes. -/
def State.imageOk (s : State) (base : Nat) : Bool :=
  let asid := BitVec.ofNat 16 (s.memNat (base + 8) 2)
  let objs := s.objMap asid
  s.memNat base 4 == 0x5A435458 && s.memNat (base + 4) 4 == deviceStepping && decide (asid.toNat < 1024) && s.ctxState asid == 1 &&
    decide (s.memNat (base + 0x18) 4 ≤ 2097152) && decide (s.memNat (base + 0x0A) 2 < 4) && s.memNat (base + 0x1C) 4 == 0 &&
    s.memNat (base + 0x28) 24 == 0 && s.memNat (base + 0xB0) 80 == 0 &&
    (s.imgObjects base).all fun e => objs.any fun o => o.kind == e.kind && o.id == e.id

/-- A landing slot of section 7. -/
def State.imgLanding (s : State) (base i id : Nat) : Landing :=
  let a := 8 + 16 * i
  let how := s.imgNat base 7 (a + 4) 1
  let v := BitVec.ofNat 64 (s.imgNat base 7 (a + 8) 8)
  let bad := s.imgNat base 7 (a + 5) 1
  { id := id, left := s.imgNat base 7 (a + 2) 2, toK := s.imgNat base 7 a 1 == 1, d := BitVec.ofNat 6 (s.imgNat base 7 (a + 1) 1)
    tgt := { va := 0, ca := 0, cls := .plain, win := false, peer := 0, rasid := 0, heap := BitVec.ofNat 3 how, asid := 0 }
    kind := if 8 ≤ how then .ref 0 else .load 3 false
    state := if bad = 2 then .failed (s.imgNat base 7 (a + 6) 1) (v.extractLsb' 0 57) none else .arrived v (bad == 1)
    live := true, held := true, ret := none }

/-- A latch of section 8: its drive, if it has one, and its flag bits. -/
def State.imgLatch (s : State) (base i : Nat) : List Drive × List FlagOr :=
  let a := 8 + 656 * i
  let w := BitVec.ofNat 64 (s.imgNat base 8 a 8)
  let off := (w.extractLsb' 56 8).toNat
  let slot := (w.extractLsb' 53 3).toNat
  let fl : Flags := w.extractLsb' 30 6
  (if slot = 7 then [] else
    [{ left := off, z := w.extractLsb' 47 6, ring := (w.extractLsb' 42 5).toNat, slot := slot
       beat := some ⟨BitVec.ofNat 4096 (s.imgNat base 8 (a + 8) 512), BitVec.ofNat 1024 (s.imgNat base 8 (a + 0x208) 128),
         w.extractLsb' 36 6⟩ }],
   if fl = 0 then [] else [⟨off, fl⟩])

/-- The sticky state of a slot in section 6. -/
def State.imgSticky (s : State) (base i : Nat) : Option Sticky :=
  let a := 96 * i
  if s.imgNat base 6 (a + 8) 1 ≠ 1 then none
  else some ⟨BitVec.ofNat 64 (s.imgNat base 6 a 8),
    { a := BitVec.ofNat 64 (s.imgNat base 6 (a + 16) 8), b := BitVec.ofNat 64 (s.imgNat base 6 (a + 24) 8)
      ha := BitVec.ofNat 256 (s.imgNat base 6 (a + 32) 32), hb := BitVec.ofNat 256 (s.imgNat base 6 (a + 64) 32) }⟩

/-- A table from a function on 0 to n − 1. -/
def tableOf {α : Type} [DecidableEq α] (d : α) (n : Nat) (f : Nat → α) : SMap α := SMap.entries d 0 ((List.range n).map f)

/-- A bank of section 9. -/
def State.imgBank (s : State) (base i : Nat) : Bank :=
  let rows := 786432 + 8 + 65536 * i
  let a := 786432 + 8 + 131072 + 16 * i
  { acc := tableOf 0 64 fun r => BitVec.ofNat 8192 (s.imgNat base 9 (rows + 1024 * r) 1024)
    steps := BitVec.ofNat 64 (s.imgNat base 9 a 8), row := BitVec.ofNat 6 (s.imgNat base 9 (a + 8) 1)
    kq := BitVec.ofNat 2 (s.imgNat base 9 (a + 9) 1), rm := BitVec.ofNat 3 (s.imgNat base 9 (a + 10) 1)
    sat := s.imgNat base 9 (a + 11) 1 == 1 }

/-- The matrix state of section 9. -/
def State.imgMatrix (s : State) (base : Nat) : Matrix :=
  let sec := base + s.memNat (base + 0x40 + 8 * 9) 4
  { cells := tableOf 0 2048 fun i => BitVec.ofNat 2048 (s.memNat (sec + 256 * i) 256)
    headers := SMap.entries 0 0 (s.memBytes (sec + 524288) 262144)
    tags := tableOf 0 8 fun p => BitVec.ofNat 6 (s.memNat (sec + 786432 + p) 1)
    bank0 := s.imgBank base 0, bank1 := s.imgBank base 1 }

/-- The strands of section 10. -/
def State.imgStrands (s : State) (base : Nat) (mask : W64) : SMap Beat :=
  let zs := (List.range 64).filter fun z => mask.getLsbD z
  let l := zs.mapIdx fun n z => (List.range 20).map fun i =>
    let a := 648 * (20 * n + i)
    (20 * z + i, (⟨BitVec.ofNat 4096 (s.imgNat base 10 a 512), BitVec.ofNat 1024 (s.imgNat base 10 (a + 512) 128),
      BitVec.ofNat 6 (s.imgNat base 10 (a + 640) 1)⟩ : Beat))
  l.flatten.filter fun q => q.2 ≠ {}

/-- STATE of a knot's register bits. -/
def knotStateOf (n : Nat) : KnotState := match n % 4 with | 0 => .free | 1 => .pending | 2 => .resolved | _ => .failed

/-- The pushes of section 13, handed back to their engines (07 R214). -/
def State.imgPushes (s : State) (base nextId : Nat) (asid : BitVec 16) (it : Item) : List CopyOp :=
  (List.range (s.imgNat base 13 0 8)).map fun i =>
    let a := 8 + 80 * i
    { id := nextId + i, engine := if s.imgNat base 13 (a + 66) 1 = 3 then .b else .a
      kp := BitVec.ofNat 6 (s.imgNat base 13 (a + 65) 1), job := .push 0 (s.imgNat base 13 (a + 64) 1), asid := asid
      wid := it.wid, slot := it.slot, stage := it.stage
      record := some (s.memBytes (base + s.memNat (base + 0x40 + 8 * 13) 4 + a) 64) }

/-- A core with the state of an image (08 R270, 14 R386). -/
def State.imgCore (s : State) (key base : Nat) (c : Core) : Core :=
  let asid := BitVec.ofNat 16 (s.memNat (base + 8) 2)
  let objs := s.objMap asid
  let tbl := s.imgObjects base
  let va := fun (n : Nat) => reboundWord tbl objs (BitVec.ofNat 64 n)
  let foot := s.memNat (base + 0x18) 4
  let mask := BitVec.ofNat 64 (s.memNat (base + 0x20) 8)
  let port := s.memNat (base + 0x0A) 2 % 2 = 1
  let scal := if port then BitVec.ofNat 64 (s.imgNat base 1 514 8) else 0
  let it := c.incoming.getD { wid := 0, stage := 0, slot := 64, footprint := foot, strands := mask, record := [] }
  let pushes := s.imgPushes base c.nextCopy asid it
  let lat := (List.range (s.imgNat base 8 0 8)).map (s.imgLatch base)
  let n7 := s.imgNat base 7 0 8
  let sec11 := base + s.memNat (base + 0x40 + 8 * 11) 4
  { coreDefault key with
    bt := c.bt, pc := c.pc, cycle := c.cycle, timing := c.timing, fmtBits := c.fmtBits, ecc := c.ecc, acct := c.acct
    icache := c.icache, power := c.power, hooks := c.hooks, chargeTo := c.chargeTo
    cr := { c.cr with
      asid := asid, epc := BitVec.ofNat 64 (va (s.imgNat base 0 8 8)), erep := BitVec.ofNat 8 (s.imgNat base 0 16 8)
      cause := BitVec.ofNat 8 (s.imgNat base 0 24 8), einfo := BitVec.ofNat 64 (s.imgNat base 0 32 8)
      round := BitVec.ofNat 3 (s.imgNat base 0 40 8), seed := BitVec.ofNat 64 (s.imgNat base 0 48 8)
      flags := BitVec.ofNat 6 (s.imgNat base 0 56 8), color := BitVec.ofNat 24 (s.memNat (s.ctxEntry asid + 0x40) 4)
      ceiling := BitVec.ofNat 8 (s.imgNat base 0 72 8) }
    region := (List.range (min 16 (s.imgNat base 0 80 8))).map fun i => BitVec.ofNat 16 (s.imgNat base 0 (88 + 2 * i) 2)
    s := tableOf 0 64 fun i =>
      let v := s.imgNat base 1 (8 * i) 8
      if scal.getLsbD i then BitVec.ofNat 64 (va v) else BitVec.ofNat 64 v
    p := tableOf false 16 fun i => i ≠ 0 && (s.imgNat base 1 512 2).testBit i
    h := tableOf 0 32 fun i =>
      let h : W256 := BitVec.ofNat 256 (s.imgNat base 2 (40 * i) 32)
      if h.getLsbD 57 then setField h 0 (va (s.imgNat base 2 (40 * i + 32) 8) : Nat) else h
    k := tableOf 0 16 fun i =>
      let k : W64 := BitVec.ofNat 64 (s.imgNat base 3 (16 * i) 8)
      (k.extractLsb' 57 7) ++ BitVec.ofNat 57 (va (s.imgNat base 3 (16 * i + 8) 8))
    l := tableOf {} 4 fun i => ⟨BitVec.ofNat 57 (va (s.imgNat base 4 (16 * i + 8) 8)), BitVec.ofNat 32 (s.imgNat base 4 (16 * i) 8)⟩
    kn := tableOf {} 64 fun i =>
      let b := s.imgNat base 5 i 1
      { source := BitVec.ofNat 3 (b / 32), state := knotStateOf b, count := (pushes.filter fun o => o.kp.toNat == i).length }
    strands := s.imgStrands base mask
    spad := SMap.entries 0 0 (s.memBytes sec11 foot)
    fe := tableOf false (foot / 16) fun g => (s.memByte (sec11 + foot + g / 8)).getLsbD (g % 8)
    poison := it.poison
    landings := (List.range n7).map fun i => s.imgLanding base i (c.nextLanding + i)
    nextLanding := c.nextLanding + n7
    mx := s.imgMatrix base
    copies := pushes, nextCopy := c.nextCopy + pushes.length
    ranges := s.ctxRanges asid
    latch := some
      { drives := lat.flatMap fun q => q.1, flagOrs := lat.flatMap fun q => q.2
        bt := BitVec.ofNat 64 (s.memNat (base + 0x10) 8)
        sticky := tableOf none 6 (s.imgSticky base) }
    async := it.causes, causeSeq := it.causeSeq
    item := some { it with causes := [], poison := [], footprint := foot, strands := mask }
    incoming := none }

/-- The load of 08 R270: the core takes the image's state; the next ERET resumes it. -/
def State.ctxLoad (s : State) (key base : Nat) : State := s.modCore key (s.imgCore key base)

/-- A refused load (08 R271): the core keeps no part of the image and holds no item; the supervisor logs the refusal with a code
of software's own and kills the image's context with reason 0x09 (log 22). -/
def State.ctxLoadRefused (s : State) (key base : Nat) : State :=
  let asid := BitVec.ofNat 16 (s.memNat (base + 8) 2)
  let s := match (s.core key).incoming with
    | some it => s.modLaunch it.slot fun l => { l with ended := l.ended + 1 }
    | none => s
  let s := s.modCore key fun c => { c with incoming := none, item := none, saved := true }
  let seq := s.logSeq
  let s := s.logAppend { code := 0x0F00, cls := 0, part := s.ctxPart asid, asid := asid.toNat, source := sourceOf key, addr := base }
  if 1023 < asid.toNat ∨ asid = 0 then s else s.killContext asid (sourceOf key) { reason := 9, seq := some seq } 9

end Sys2Proof.Machine
end

