-- ==== Sys2Proof/Machine/SysOps.lean ====
section
/-! DEFINITION. The commands of a supervisor and of a handler: slot maps and timing entries, pre-emption, context images, queue
slots, power levels, translation invalidations and the error log (08 R268 to R271, 13 R344, 14 R375, 18 R441, 20 R483). -/

namespace Sys2Proof.Machine

/-- An SR command: privileged, no class, on the cores named. -/
def command (op : BitVec 8) (g : Guard) (runs : Nat → Core → Bool) (reads : List (BitVec 6)) : OpSem :=
  { slot := .s, op := op, guard := g, priv := fun _ => true, runsOn := runs, reads := fun _ => .preg g.pred.toNat :: sPlaces reads }

/-- Every supervisor core. -/
def onSupervisor (_ : Nat) (c : Core) : Bool := c.supervisor
/-- The D0 supervisor. -/
def onD0 (key : Nat) (_ : Core) : Bool := key == 576
/-- Every tile core. -/
def onTile (_ : Nat) (c : Core) : Bool := !c.supervisor

/-- A RANGE of a command. -/
def rangeTrap (op : BitVec 8) (addr : W64) : TrapReq := trapS causeRange op addr.toNat
/-- RANGE where a test fails. -/
def rangeUnless (op : BitVec 8) (addr : W64) (ok : Bool) : Option TrapReq := if ok then none else some (rangeTrap op addr)

/-! ### Target sites (08 R268, R269) -/

/-- The core at a site of the issuing supervisor's die. -/
def siteKey (key : Nat) (x : W64) : Nat := 144 * (key - 576) + x.toNat

/-- A target site: 0 to 143 and not dropped from the mesh (08 R268). -/
def State.targetOk (s : State) (key : Nat) (x : W64) : Bool :=
  decide (x.toNat < 144) && decide (s.siteState (siteKey key x) ≠ .dropped true)

/-- A value that cr.slotmap may take (01 R43, 08 R269). -/
def slotmapOk (x : W64) : Bool :=
  decide (x.toNat < 512) && (List.range 4).all fun i => x.extractLsb' (2 * i) 2 != 3

/-- SLOTMAP (08 R269) -/
def semSlotmap (g : Guard) (w : SR) : OpSem :=
  { command 0xA0 g onSupervisor [w.a, w.b] with
    check5 := fun s key v => rangeUnless 0xA0 (v.s 1 w.a) (s.targetOk key (v.s 1 w.a) && slotmapOk (v.s 2 w.b))
    perform := fun key v a =>
      let b := a.core (siteKey key (v.s 1 w.a)) fun c =>
        { c with cr := { c.cr with slotmap := (v.s 2 w.b).extractLsb' 0 16 } }
      if a.st.fns = [] then b else { b with st := b.st.afterProfile a.st } }

/-- A value that an entry of cr.timing may take (01 R40, 08 R269). -/
def timingOk (entry value : W64) : Bool :=
  decide (entry.toNat < 128) && decide (value.toNat < if entry.toNat < 96 then 16 else 64)

/-- Writes an entry of cr.timing. -/
def Core.setTiming (c : Core) (i : Nat) (v : BitVec 8) : Core :=
  { c with timing := if v = BitVec.ofNat 8 (shipTiming c.supervisor i) then SMap.clear c.timing i 1
                     else SMap.set (BitVec.ofNat 8 (shipTiming c.supervisor i)) c.timing i v }

/-- TTSET (08 R269) -/
def semTtset (g : Guard) (w : SR) : OpSem :=
  { command 0xA1 g onSupervisor [w.a, w.b, w.c] with
    check5 := fun s key v =>
      rangeUnless 0xA1 (v.s 1 w.a) (s.targetOk key (v.s 1 w.a) && timingOk (v.s 2 w.b) (v.s 3 w.c))
    perform := fun key v a =>
      let b := a.core (siteKey key (v.s 1 w.a)) fun c => c.setTiming (v.s 2 w.b).toNat ((v.s 3 w.c).extractLsb' 0 8)
      if a.st.fns = [] then b else { b with st := b.st.afterProfile a.st } }

/-! ### Pre-emption and context images (08 R270, R271) -/

/-- PREEMPT (08 R270): the command is over when the target has entered its handler. -/
def semPreempt (g : Guard) (w : SR) : OpSem :=
  { command 0xA4 g onSupervisor [w.a] with
    check5 := fun s key v => rangeUnless 0xA4 (v.s 1 w.a) (s.targetOk key (v.s 1 w.a))
    perform := fun key v a =>
      let k := siteKey key (v.s 1 w.a)
      if (a.st.core k).item.isNone then a
      else (a.core k fun c => c.raiseAsync 0x10 0).core key fun c => { c with await := .preempt k } }

/-- The chip address of an image: s[A], or where A is s0 the one in the context-table entry of cr.asid (08 R270, 14 R354). -/
def imageBase (w : SR) (s : State) (v : View) : Nat :=
  if w.a = 0 then s.memNat (s.ctxEntry v.core.cr.asid + 0x10) 8 else (v.s 1 w.a).toNat

/-- A structure in system memory at a chip address: KIND 0 where the home map gives it none (14 R362, log 22). -/
def State.systemFatal (s : State) (a n : Nat) : Option (Nat × BitVec 57) :=
  if s.systemRun a n then none else some (0, BitVec.ofNat 57 a)

/-- A chip address has 52 bits (08 R268). -/
def chipOk (op : BitVec 8) (a : Nat) : Option TrapReq := rangeUnless op (BitVec.ofNat 64 a) (decide (a < 2 ^ 52))

/-- CTXSAVE (08 R270): only in a PREEMPT handler. -/
def semCtxsave (g : Guard) (w : SR) : OpSem :=
  { command 0xA5 g (fun _ c => !c.supervisor && c.cr.cause == 0x10) [w.a] with
    check5 := fun s _ v => chipOk 0xA5 (imageBase w s v)
    fatal := fun s key v => s.systemFatal (imageBase w s v) (imageEnd (s.image key))
    wait := fun _ _ v => if v.core.saveReady then none else some acctDrain
    perform := fun key v a => { a with st := a.st.ctxSave key (imageBase w a.st v) } }

/-- CTXLOAD (08 R270, R271, 14 R386). -/
def semCtxload (g : Guard) (w : SR) : OpSem :=
  { command 0xA6 g onTile [w.a] with
    check5 := fun s _ v => chipOk 0xA6 (imageBase w s v)
    fatal := fun s _ v => s.systemFatal (imageBase w s v) 256
    perform := fun key v a =>
      let base := imageBase w a.st v
      { a with st := if a.st.imageOk base then a.st.ctxLoad key base else a.st.ctxLoadRefused key base } }

/-! ### Queue slots (13 R343, R344) -/

/-- A queue control block in memory is valid (13 R343). -/
def State.qcbOk (s : State) (a : Nat) : Bool :=
  let lg := s.memNat (a + 8) 1
  let rd := s.memNat (a + 0x10) 8
  let wr := s.memNat (a + 0x18) 8
  decide (1 ≤ lg) && decide (lg ≤ 16) && decide (s.memNat (a + 9) 1 < 8) && decide (s.memNat (a + 0x0A) 1 < 8) &&
    s.memNat (a + 0x2C) 212 == 0 && decide (rd ≤ wr) && decide (wr ≤ rd + 2 ^ lg)

/-- The queue control block at an address, as a loaded slot holds it. -/
def State.qcbAt (s : State) (a : Nat) : QSlot :=
  let prio := s.memNat (a + 9) 1
  { state := .loaded, ringBase := s.memNat a 8, ringLog := s.memNat (a + 8) 1, prio := prio, effPrio := prio
    part := s.memNat (a + 0x0B) 1, asid := BitVec.ofNat 16 (s.memNat (a + 0x0C) 2), qid := s.memNat (a + 0x0E) 2
    rdidx := s.memNat (a + 0x10) 8, wridx := s.memNat (a + 0x18) 8, wdog := s.memNat (a + 0x20) 4
    ageInt := s.memNat (a + 0x24) 4, age := 0 }

/-- The bytes of a slot's queue control block. -/
def QSlot.qcb (q : QSlot) : List Byte :=
  leBytes 8 q.ringBase ++ leBytes 1 q.ringLog ++ leBytes 1 q.prio ++ leBytes 1 q.effPrio ++ leBytes 1 q.part ++
    leBytes 2 q.asid.toNat ++ leBytes 2 q.qid ++ leBytes 8 q.rdidx ++ leBytes 8 q.wridx ++ leBytes 4 q.wdog ++ leBytes 4 q.ageInt ++
    leBytes 4 q.age ++ leBytes 212 0

/-- A slot number of a command, and an address on a 128 B boundary. -/
def slotAddrOk (a slot : W64) : Bool := decide (slot.toNat < 64) && decide (a.toNat < 2 ^ 52) && a.toNat % 128 == 0

/-- QLOAD (13 R344) -/
def semQload (g : Guard) (w : SR) : OpSem :=
  { command 0xA9 g onSupervisor [w.a, w.b] with
    check5 := fun s _ v =>
      let a := v.s 1 w.a
      let b := v.s 2 w.b
      rangeUnless 0xA9 a (slotAddrOk a b && decide ((s.slot b.toNat).state = .unbound) &&
        (!s.systemRun a.toNat 256 || (s.qcbOk a.toNat && (s.slotOfQueue (s.memNat (a.toNat + 0x0E) 2)).isNone)))
    fatal := fun s _ v => s.systemFatal (v.s 1 w.a).toNat 256
    perform := fun _ v a =>
      { a with st := a.st.setSlot (v.s 2 w.b).toNat (a.st.qcbAt (v.s 1 w.a).toNat) } }

/-- QMAP (13 R344) -/
def semQmap (g : Guard) (w : SR) : OpSem :=
  { command 0xA7 g onSupervisor [w.a, w.b] with
    check5 := fun s _ v =>
      let q := v.s 1 w.a
      let n := v.s 2 w.b
      rangeUnless 0xA7 q (decide (q.toNat < 4096) && decide (n.toNat < 64) && decide ((s.slot n.toNat).state = .loaded) &&
        (s.slot n.toNat).qid == q.toNat && (s.slotOfQueue q.toNat).isNone)
    perform := fun _ v a =>
      let n := (v.s 2 w.b).toNat
      let s := a.st
      { a with st := { s.setSlot n { s.slot n with state := .bound } with
          pendingQ := SMap.set false s.pendingQ (v.s 1 w.a).toNat false } } }

/-- A slot's queue control block goes to memory and the slot is unbound; a queue with packets left is pending (13 R344, R349). -/
def State.qsave (s : State) (n a : Nat) : State :=
  let q := s.slot n
  let s := (s.memWrite a q.qcb).sendAll none a 256
  let reg := (SMap.get none s.queues q.qid).map fun (r : QueueReg) =>
    { r with qcb := a, since := if q.rdidx < q.wridx then s.time else r.since }
  { s.setSlot n {} with
    queues := SMap.set none s.queues q.qid reg
    pendingQ := if q.rdidx < q.wridx then SMap.set false s.pendingQ q.qid true else s.pendingQ }

/-- QSAVE (13 R344) -/
def semQsave (g : Guard) (w : SR) : OpSem :=
  { command 0xA8 g onSupervisor [w.a, w.b] with
    check5 := fun s _ v =>
      let a := v.s 1 w.a
      let b := v.s 2 w.b
      rangeUnless 0xA8 a (slotAddrOk a b && decide ((s.slot b.toNat).state = .bound) && (s.slot b.toNat).launch.isNone)
    fatal := fun s _ v => s.systemFatal (v.s 1 w.a).toNat 256
    perform := fun _ v a => { a with st := a.st.qsave (v.s 2 w.b).toNat (v.s 1 w.a).toNat } }

/-! ### Power levels (20 R483, R485, R486) -/

/-- STAGE of an action. -/
def PowerAct.stage : PowerAct → Nat
  | .suspend => 1 | .halve => 2 | .lower _ => 3 | .clock => 4 | .park _ => 5

/-- PWRSTAT (20 R486). -/
def PowerCtl.pwrstat (p : PowerCtl) : W64 :=
  BitVec.ofNat 12 p.force ++ BitVec.ofNat 12 p.pinLevel ++ p.draw ++ (0 : BitVec 8) ++
    BitVec.ofNat 3 ((p.actions.head?.map PowerAct.stage).getD 0) ++ BitVec.ofNat 2 p.clock ++ BitVec.ofNat 10 p.parked.length ++
    (0 : BitVec 4) ++ BitVec.ofBool p.pin

/-- The controller's new state: POWER of the D0 supervisor's cr.event where PWRSTAT has changed (01 R51). -/
def State.setPower (s : State) (p : PowerCtl) : State :=
  { s with pwr := p }.modCore 576 fun c => if p.pwrstat = s.pwr.pwrstat then c else { c with event := c.event ||| 0x80 }

/-- The controller takes a change of its levels; a step into STEPPED is counted in the wear log (19 R479, log 30). -/
def State.setLevels (s : State) (f : PowerCtl → PowerCtl) : State :=
  let p := f s.pwr
  let t := s.setPower { p with rising := if s.pwr.force < p.force then true else if p.force < s.pwr.force then false else p.rising }
  if !s.pwr.stepped && t.pwr.stepped then t.wearAdd (wearPackage + 8) 8 1 else t

/-- PSTEP (20 R483) -/
def semPstep (g : Guard) (w : SR) : OpSem :=
  { command 0xAA g onSupervisor [w.a] with
    check5 := fun _ _ v =>
      rangeUnless 0xAA (v.s 1 w.a) (decide (700 ≤ (v.s 1 w.a).toNat) && decide ((v.s 1 w.a).toNat ≤ 2400))
    perform := fun _ v a => { a with st := a.st.setLevels fun p => { p with level := (v.s 1 w.a).toNat } } }

/-! ### Translation invalidations (14 R375) -/

/-- The translators drop the entries of a context (0xFFFF: of every one) whose page meets an extent; FLUSH drops the extent's
lines from every remote-data cache, with their first-level copies (09 R275), and ends the forwarding of migrated lines (15 R405). -/
def State.inval (s : State) (asid base len : Nat) (flush : Bool) : State :=
  let s := { s with tlb := s.tlb.filter fun q => match q.2 with
    | none => false
    | some l => !((asid = 0xFFFF || q.1 / 2 ^ 36 == asid) && decide (l.page < base + len) && decide (base < l.page + l.size)) }
  if !flush then s
  else
    let hit := fun (line : Nat) => decide (base / 128 ≤ line) && decide (line < (base + len) / 128)
    let s := { s with
      rdc := s.rdc.filter fun q => !hit (q.1 % 2 ^ 45)
      moves := s.moves.filter fun q => match q.2 with | some m => !(hit q.1 && m.copied && m.toPa.isSome) | none => true }
    (s.cores.filter fun q => q.2.l1 ≠ []).foldl (fun s q => s.modCore q.1 fun c =>
      { c with l1 := c.l1.filter fun x => !hit (x.1 / 128) }) s

/-- A page of an extent that a PROBE of the context holds (14 R374). -/
def State.probedIn (s : State) (asid base len : Nat) : Bool :=
  s.cores.any fun q => (asid == 0xFFFF || q.2.cr.asid.toNat == asid) &&
    q.2.probed.any fun p => decide (p < base + len) && decide (base < p + 65536)

/-- INVAL (14 R375) -/
def semInval (g : Guard) (w : SR) : OpSem :=
  { command 0xAB g onD0 [w.a, w.b, w.c] with
    check5 := fun _ _ v =>
      let x := (v.s 1 w.a).toNat
      let b := (v.s 2 w.b).toNat
      let n := (v.s 3 w.c).toNat
      rangeUnless 0xAB (v.s 1 w.a) ((decide (x < 1024) || x == 0xFFFF) && b % 65536 == 0 && n % 65536 == 0 &&
        decide (65536 ≤ n) && decide (b + n ≤ 2 ^ 52))
    wait := fun s key v =>
      if s.drained key 2 ∧ !s.probedIn (v.s 1 w.a).toNat (v.s 2 w.b).toNat (v.s 3 w.c).toNat then none else some acctDrain
    perform := fun _ v a =>
      { a with st := a.st.inval (v.s 1 w.a).toNat (v.s 2 w.b).toNat (v.s 3 w.c).toNat (w.fn.getLsbD 0) } }

/-! ### The error log (18 R438, R441, R442) -/

/-- An address of a log record: a chip address on a 64 B boundary. -/
def recordOk (op : BitVec 8) (a : W64) : Option TrapReq := rangeUnless op a (decide (a.toNat < 2 ^ 52) && a.toNat % 64 == 0)

/-- The record that LOGR.app finds in memory may be appended by the core (18 R441). -/
def State.appendOk (s : State) (key a : Nat) : Bool :=
  let code := s.memNat (a + 0x10) 2
  let cls := s.memNat (a + 0x12) 1
  if key < 576 then decide (0x0F00 ≤ code) && decide (code ≤ 0x0FFF) && cls % 4 == 0
  else code != 0 && decide (cls < 4) && decide (s.memNat (a + 0x13) 1 < 32)

/-- LOGR.app (18 R441) -/
def State.logrApp (s : State) (key a : Nat) : State :=
  let c := s.core key
  let bs := s.memBytes (a + 0x10) 48
  if key < 576 then
    let part := s.ctxPart c.cr.asid
    s.logRaw 0 part (bs.take 3 ++ leBytes 1 part ++ leBytes 2 c.cr.asid.toNat ++ leBytes 2 (sourceOf key) ++ bs.drop 8)
  else s.logRaw (s.memNat (a + 0x12) 1) (s.memNat (a + 0x13) 1) bs

/-- LOGR.app (18 R441) -/
def semLogrApp (g : Guard) (w : SR) : OpSem :=
  { command 0xAE g (fun _ _ => true) [w.a] with
    check5 := fun s key v => (recordOk 0xAE (v.s 1 w.a)).orElse fun _ =>
      if s.systemRun (v.s 1 w.a).toNat 64 then rangeUnless 0xAE (v.s 1 w.a) (s.appendOk key (v.s 1 w.a).toNat) else none
    fatal := fun s _ v => s.systemFatal (v.s 1 w.a).toNat 64
    perform := fun key v a =>
      let seq := a.st.logSeq
      { a with st := a.st.logrApp key (v.s 1 w.a).toNat }.core key fun c => c.pendWrite 1 (.s w.d (BitVec.ofNat 64 seq)) }

/-- The address of record n. -/
def State.recordAt (s : State) (n : Nat) : Nat := s.bases.log + 64 * (n % 65536)

/-- A core may read a record (18 R442). -/
def State.mayRead (s : State) (key n : Nat) : Bool :=
  decide (576 ≤ key) || s.memNat (s.recordAt n + 0x13) 1 % 32 == s.ctxPart (s.core key).cr.asid

/-- The first record with SEQ ≥ max(n, oldest held) that a test accepts. -/
def State.findRecord (s : State) (n : Nat) (p : Nat → Bool) : Option Nat :=
  let lo := max n (s.logSeq - 65536)
  ((List.range (s.logSeq - lo)).map fun i => lo + i).find? p

/-- LOGR.read (18 R441) -/
def semLogrRead (g : Guard) (w : SR) : OpSem :=
  { command 0xAE g (fun _ _ => true) [w.a, w.b] with
    check5 := fun _ _ v => recordOk 0xAE (v.s 1 w.a)
    fatal := fun s _ v => s.systemFatal (v.s 1 w.a).toNat 64
    perform := fun key v a =>
      let s := a.st
      match s.findRecord (v.s 2 w.b).toNat (s.mayRead key) with
      | none => a.core key fun c => c.pendWrite 1 (.s w.d (BitVec.ofNat 64 (2 ^ 63 + s.logSeq)))
      | some n =>
        { a with st := (s.memWrite (v.s 1 w.a).toNat (s.memBytes (s.recordAt n) 64)).sendAll none (v.s 1 w.a).toNat 64 }.core key
          fun c => c.pendWrite 1 (.s w.d (BitVec.ofNat 64 n)) }

/-! ### The meanings -/

/-- SLOTMAP (R269) as a bundle of its own. -/
def execSlotmap (g : Guard) (w : SR) (s : State) : Host.Outcome State Fault Refusal :=
  runSolo (semSlotmap g w) (.slotmap g w) s
/-- TTSET (R269) as a bundle of its own. -/
def execTtset (g : Guard) (w : SR) (s : State) : Host.Outcome State Fault Refusal :=
  runSolo (semTtset g w) (.ttset g w) s
/-- PREEMPT (R270) as a bundle of its own. -/
def execPreempt (g : Guard) (w : SR) (s : State) : Host.Outcome State Fault Refusal :=
  runSolo (semPreempt g w) (.preempt g w) s
/-- CTXSAVE (R270) as a bundle of its own. -/
def execCtxsave (g : Guard) (w : SR) (s : State) : Host.Outcome State Fault Refusal :=
  runSolo (semCtxsave g w) (.ctxsave g w) s
/-- CTXLOAD (R270) as a bundle of its own. -/
def execCtxload (g : Guard) (w : SR) (s : State) : Host.Outcome State Fault Refusal :=
  runSolo (semCtxload g w) (.ctxload g w) s
/-- QLOAD (R344) as a bundle of its own. -/
def execQload (g : Guard) (w : SR) (s : State) : Host.Outcome State Fault Refusal :=
  runSolo (semQload g w) (.qload g w) s
/-- QMAP (R344) as a bundle of its own. -/
def execQmap (g : Guard) (w : SR) (s : State) : Host.Outcome State Fault Refusal :=
  runSolo (semQmap g w) (.qmap g w) s
/-- QSAVE (R344) as a bundle of its own. -/
def execQsave (g : Guard) (w : SR) (s : State) : Host.Outcome State Fault Refusal :=
  runSolo (semQsave g w) (.qsave g w) s
/-- PSTEP (R483) as a bundle of its own. -/
def execPstep (g : Guard) (w : SR) (s : State) : Host.Outcome State Fault Refusal :=
  runSolo (semPstep g w) (.pstep g w) s
/-- INVAL (R375) as a bundle of its own. -/
def execInval (g : Guard) (w : SR) (s : State) : Host.Outcome State Fault Refusal :=
  runSolo (semInval g w) (.inval g w) s
/-- LOGR_APP (R441) as a bundle of its own. -/
def execLogrApp (g : Guard) (w : SR) (s : State) : Host.Outcome State Fault Refusal :=
  runSolo (semLogrApp g w) (.logrApp g w) s
/-- LOGR_READ (R441) as a bundle of its own. -/
def execLogrRead (g : Guard) (w : SR) (s : State) : Host.Outcome State Fault Refusal :=
  runSolo (semLogrRead g w) (.logrRead g w) s

end Sys2Proof.Machine
end

