-- ==== Sys2Proof/Machine/Heap.lean ====
section
/-! DEFINITION. The relocation engines: RELOC, the claim, copy and publication of objects and pages, and FWDPUB (15 R395 to R405). -/

namespace Sys2Proof.Machine

/-! ### Sets and their checks (15 R395, R396) -/

/-- The relocation engine of a die. -/
def State.reloc (s : State) (die : Nat) : Reloc := SMap.get {} s.relocs die
/-- Writes a relocation engine. -/
def State.setReloc (s : State) (die : Nat) (r : Reloc) : State := { s with relocs := SMap.set {} s.relocs die r }

/-- The status word of RELOC (15 R396). -/
def Reloc.status (r : Reloc) (code : Nat) : W64 :=
  BitVec.ofNat 32 r.done ++ BitVec.ofNat 16 r.skipped ++ BitVec.ofNat 8 r.state ++ BitVec.ofNat 8 code

/-- The chip address of a virtual address that lies in a MANAGED range of a heap homed on a die (15 R395). -/
def State.managedAt (s : State) (asid : BitVec 16) (heap die va : Nat) : Option (BitVec 52) :=
  if 2 ^ 57 ≤ va then none
  else match findRange (s.ctxRanges asid) (BitVec.ofNat 57 va) 0 8 with
    | none => none
    | some g =>
      let t := targetOf g (BitVec.ofNat 57 va) asid
      if t.cls = .managed ∧ t.heap.toNat = heap ∧ (s.homeEntry t.ca).getLsbD 15 ∧ s.homeDie t.ca = die then some t.ca else none

/-- Entry i of a set's list: FROM and TO. -/
def State.setEntry (s : State) (list i : Nat) : Nat × Nat := (s.memNat (list + 16 * i) 8, s.memNat (list + 16 * i + 8) 8)

/-- log2 of a page by PSIZE (15 R395). -/
def pageLog (psize : Nat) : Nat := match psize with | 0 => 16 | 1 => 21 | _ => 29

/-- The physical address of a page of a chip address: system memory by identity, else as a context's table maps it; every
table that maps it maps it alike (14 R370). -/
def State.pagePa (s : State) (ca : BitVec 52) : Option Nat :=
  if (s.homeEntry ca).getLsbD 2 then some ca.toNat
  else (List.range 1024).findSome? fun a =>
    if s.ctxState (BitVec.ofNat 16 a) ≠ 1 then none
    else match s.walk (BitVec.ofNat 16 a) ca false with
      | .leaf l => if l.host then none else some (l.pa + (ca.toNat - l.page))
      | _ => none

/-- A descriptor of KIND 0 keeps 15 R395 for the engine of a die. -/
def State.evacuationOk (s : State) (die a : Nat) : Bool :=
  let heap := s.memNat (a + 1) 1
  let asid := s.memNat (a + 2) 2
  let n := s.memNat (a + 4) 4
  let list := s.memNat (a + 8) 8
  decide (heap < 8) && decide (asid < 1024) && s.ctxState (BitVec.ofNat 16 asid) == 1 && decide (1 ≤ n) && decide (n ≤ 65535) &&
    s.systemRun list (16 * n) &&
    (List.range n).all fun i =>
      let e := s.setEntry list i
      e.1 % 128 == 0 && e.2 % 128 == 0 && (s.managedAt (BitVec.ofNat 16 asid) heap die e.1).isSome &&
        (s.managedAt (BitVec.ofNat 16 asid) heap die e.2).isSome

/-- A descriptor of KIND 1 keeps 15 R395: the page and its new place; a page that no table maps has no bytes to move
(log 24). -/
def State.migrationOk (s : State) (die a : Nat) : Bool :=
  let src := s.memNat (a + 0x10) 8
  let pa := s.memNat (a + 0x18) 8
  let psize := s.memNat (a + 0x20) 1
  let toDie := s.memNat (a + 0x21) 1
  let size := 2 ^ pageLog psize
  decide (psize ≤ 2) && decide (toDie < 4) && (psize == 2 || toDie == die) && decide (src < 2 ^ 52) && src % size == 0 &&
    (s.homeEntry (BitVec.ofNat 52 src)).getLsbD 15 && s.homeDie (BitVec.ofNat 52 src) == die && pa % size == 0 &&
    pa / 2 ^ 40 == toDie && decide (pa % 2 ^ 40 + size ≤ 144 * 2 ^ 30) && (s.pagePa (BitVec.ofNat 52 src)).isSome

/-- Writes the engine's counts and state into its heap's control block (15 R389). -/
def State.postHcb (s : State) (r : Reloc) : State :=
  if r.page.isSome then s
  else
    let h := s.hcbAddr r.asid r.heap
    ((s.memPut h 1 r.state).memPut (h + 0x18) 4 r.done).memPut (h + 0x1C) 4 r.skipped

/-- Writes an engine, with its counts and state in the control block. -/
def State.putReloc (s : State) (die : Nat) (r : Reloc) : State := (s.setReloc die r).postHcb r

/-- RELOC.start (15 R396): the code it answers with. -/
def State.relocStart (s : State) (die a : Nat) : Nat × State :=
  let r := s.reloc die
  let kind := s.memNat a 1
  if r.state = 1 ∨ r.state = 2 then (1, s)
  else if !s.systemRun a 128 ∨ s.memNat (a + 0x22) 94 ≠ 0 ∨ 2 ≤ kind then (2, s)
  else if kind = 0 then
    if !s.evacuationOk die a then (2, s)
    else
      let asid := BitVec.ofNat 16 (s.memNat (a + 2) 2)
      let heap := s.memNat (a + 1) 1
      let n := s.memNat (a + 4) 4
      let h := s.hcbAddr asid heap
      if 2 ^ s.memNat (h + 4) 1 < 2 * n then (3, s)
      else if s.memNat h 1 ≠ 0 then (4, s)
      else (0, (s.memPut (h + 0x10) 8 a).putReloc die
        { state := 1, desc := a, asid := asid, heap := heap, count := n, list := s.memNat (a + 8) 8, paused := r.paused })
  else if !s.migrationOk die a then (2, s)
  else (0, s.putReloc die
    { state := 1, desc := a, count := 1, page := some (s.memNat (a + 0x18) 8, s.memNat (a + 0x21) 1), paused := r.paused })

/-- RELOC.abort (15 R396, R399): an object in progress is finished, and no further one is claimed. -/
def State.relocAbort (s : State) (die : Nat) : Nat × State :=
  let r := s.reloc die
  if r.state ≠ 1 then (5, s)
  else (0, s.putReloc die { r with state := if r.move.isSome then 2 else 3 })

/-- The tests of the three forms of RELOC: the alignment of s[A], and FN 3 (08 R268, 15 R396). -/
def relocTest (w : SR) (v : View) : Option TrapReq :=
  let a := v.s 1 w.a
  rangeUnless 0xAC a (w.fn.extractLsb' 0 2 != 3 && decide (a.toNat < 2 ^ 52) && a.toNat % 128 == 0)

/-- A form of RELOC: what the die's engine does, and its status word to s[D]. -/
def relocOp (g : Guard) (w : SR) (f : State → Nat → Nat → Nat × State) : OpSem :=
  { command 0xAC g onSupervisor [w.a] with
    check5 := fun _ _ v => relocTest w v
    perform := fun key v a =>
      let die := key - 576
      let r := f a.st die (v.s 1 w.a).toNat
      { a with st := r.2 }.core key fun c => c.pendWrite 1 (.s w.d ((r.2.reloc die).status r.1)) }

/-- RELOC.start (15 R396) -/
def semRelocStart (g : Guard) (w : SR) : OpSem := relocOp g w State.relocStart
/-- RELOC.query (15 R396) -/
def semRelocQuery (g : Guard) (w : SR) : OpSem := relocOp g w fun s _ _ => (0, s)
/-- RELOC.abort (15 R396) -/
def semRelocAbort (g : Guard) (w : SR) : OpSem := relocOp g w fun s die _ => s.relocAbort die

/-! ### FWDPUB (15 R398) -/

/-- GOOD of a heap's control block (15 R389). -/
def State.good (s : State) (asid : BitVec 16) (heap : Nat) : BitVec 3 := BitVec.ofNat 3 (s.memNat (s.hcbAddr asid heap + 1) 1)

/-- Publication of a heap's set: the colour advances in the control block and in GOODCOLOR, and is sent to the context's cores
(15 R398). -/
def State.publishHeap (s : State) (asid : BitVec 16) (heap : Nat) : State :=
  let g := s.good asid heap + 1
  let e := s.ctxEntry asid + 0x40
  let word : BitVec 32 := BitVec.ofNat 32 (s.memNat e 4)
  let mask : BitVec 32 := BitVec.ofNat 32 (7 <<< (3 * heap))
  let s := s.memPut (s.hcbAddr asid heap + 1) 1 g.toNat
  let s := s.memPut e 4 ((word &&& ~~~mask) ||| BitVec.ofNat 32 (g.toNat <<< (3 * heap))).toNat
  let s := (List.range 4).foldl (fun s d =>
    let r := s.reloc d
    if r.state = 3 ∧ r.page = none ∧ r.asid = asid ∧ r.heap = heap then s.setReloc d { r with state := 4 } else s) s
  (s.coresOf asid).foldl (fun s k => s.modCore k fun c => { c with recolors := c.recolors ++ [(heap, g)] }) s

/-- FWDPUB (15 R398): the command is over when every core of the context has taken the colour. -/
def semFwdpub (g : Guard) (w : SR) : OpSem :=
  { command 0xAD g onSupervisor [w.a, w.b] with
    check5 := fun s _ v =>
      let a := v.s 1 w.a
      let h := (v.s 2 w.b).toNat
      rangeUnless 0xAD a (decide (a.toNat < 1024) && decide (h < 8) && s.ctxState (a.extractLsb' 0 16) == 1 &&
        s.memNat (s.hcbAddr (a.extractLsb' 0 16) h) 1 == 3)
    perform := fun key v a =>
      let asid := (v.s 1 w.a).extractLsb' 0 16
      let h := (v.s 2 w.b).toNat
      { a with st := a.st.publishHeap asid h }.core key fun c => { c with await := .recolor asid h } }

/-! ### Moving objects (15 R397, R403) -/

/-- The physical address of a chip address of a context in package memory at its own home, forwarding apart. -/
def State.homePa (s : State) (asid : BitVec 16) (ca : BitVec 52) : Option Nat :=
  if (s.homeEntry ca).getLsbD 2 then some ca.toNat
  else match s.walk asid ca false with
    | .leaf l => if l.host then none else some (l.pa + (ca.toNat - l.page))
    | _ => none

/-- An extent of `n` lines from a virtual address lies wholly in MANAGED ranges of the heap homed on the die, on pages that the
context's tables map (15 R397, log 24). -/
def State.extentOk (s : State) (r : Reloc) (die va n : Nat) : Bool :=
  (List.range ((va + 128 * n - 1) / 65536 - va / 65536 + 1)).all fun i =>
    match s.managedAt r.asid r.heap die (max va ((va / 65536 + i) * 65536)) with
    | some ca => (s.homePa r.asid ca).isSome
    | none => false

/-- An engine's writes at a home slice. -/
def State.engineWrite (s : State) (ca pa : Nat) (bytes : List Byte) : State := (s.memWrite pa bytes).sendAll none ca bytes.length

/-- The engine passes to its next entry: after the last one, or where no more are claimed, its set is COPIED. -/
def Reloc.advance (r : Reloc) : Reloc :=
  let r := { r with next := r.next + 1, move := none }
  if r.state = 2 ∨ r.count ≤ r.next then { r with state := 3 } else r

/-- An entry is left in place (15 R397). -/
def State.skipObject (s : State) (die : Nat) (r : Reloc) : State := s.putReloc die { r with skipped := r.skipped + 1 }.advance

/-- The claim of the next object of an evacuation set (15 R397 step 1). -/
def State.claimObject (s : State) (die : Nat) (r : Reloc) : State :=
  let e := s.setEntry r.list r.next
  let bad := fun (s : State) => (s.logAppend
    { code := 0x0025, cls := 0, part := s.ctxPart r.asid, asid := r.asid.toNat, source := die * 16384 + 3 * 256
      detail := r.next + r.desc * 2 ^ 64 }).skipObject die r
  match s.managedAt r.asid r.heap die e.1, s.managedAt r.asid r.heap die e.2 with
  | some fca, some tca =>
    match s.homePa r.asid fca with
    | none => bad s
    | some pa =>
      let x : W64 := BitVec.ofNat 64 (s.memNat pa 8)
      let n := (16 * (x.extractLsb' 0 32).toNat + 127) / 128
      if pinCount x ≠ 0 ∨ x.getLsbD 63 then s.skipObject die r
      else if !s.extentOk r die e.1 (max 1 n) ∨ !s.extentOk r die e.2 (max 1 n) then bad s
      else
        let m : ObjMove :=
          { index := r.next, fromVa := e.1, toVa := e.2, fromCa := fca.toNat, toCa := tca.toNat, lines := max 1 n }
        (s.engineWrite fca.toNat pa (leBytes 8 (x ||| 0x4000000000000000).toNat)).setReloc die { r with move := some m }
  | _, _ => bad s

/-- Chip addresses of line i of a move, at its source and at its destination. -/
def State.moveLine (s : State) (r : Reloc) (die : Nat) (m : ObjMove) (i : Nat) : Nat × Nat :=
  if r.page.isSome then (m.fromCa + 128 * i, m.toCa + 128 * i)
  else (((s.managedAt r.asid r.heap die (m.fromVa + 128 * i)).getD 0).toNat,
        ((s.managedAt r.asid r.heap die (m.toVa + 128 * i)).getD 0).toNat)

/-- LINE_MOVE_READ (15 R403): the next source line becomes COPYING; every copy of it is invalidated. At most 16 lines are in
flight (15 R397). -/
def execLineMoveRead (die : Nat) (s : State) : Host.Outcome State Fault Refusal :=
  let r := s.reloc die
  offered (match r.move with
    | none => none
    | some m =>
      if r.paused ∨ m.lines ≤ m.read ∨ m.copied + 16 ≤ m.read then none
      else
        let ca := s.moveLine r die m m.read
        let line := ca.1 / 128
        let mv : LineMove :=
          { copied := false, toCa := ca.2, toPa := r.page.map fun (p : Nat × Nat) => p.1 + 128 * m.read, die := (r.page.map Prod.snd).getD die }
        let s : State := { s with
          moves := SMap.set none s.moves line (some mv)
          rdc := s.rdc.filter fun q => q.1 % 2 ^ 45 ≠ line }
        let s := (s.cores.filter fun q => q.2.l1 ≠ []).foldl (fun s q => s.modCore q.1 fun c =>
          { c with l1 := c.l1.filter fun x => x.1 / 128 ≠ line }) s
        some (s.setReloc die { r with move := some { m with read := m.read + 1 } }))

/-- The physical addresses of a line of a move, at its source and at its destination. -/
def State.movePas (s : State) (r : Reloc) (ca : Nat × Nat) (i : Nat) : Option (Nat × Nat) :=
  match r.page with
  | some p => (s.pagePa (BitVec.ofNat 52 ca.1)).map fun a => (a, p.1 + 128 * i)
  | none => match s.homePa r.asid (BitVec.ofNat 52 ca.1), s.homePa r.asid (BitVec.ofNat 52 ca.2) with
    | some a, some b => some (a, b)
    | _, _ => none

/-- The destination write of a line (15 R397 step 2, R403): its bytes, with MOV and FWD clear in an object's header, its poison,
and the line COPIED. -/
def State.copyLine (s : State) (r : Reloc) (ca pa : Nat × Nat) (isHeader : Bool) : State :=
  let bs := s.memBytes pa.1 128
  let bad := (List.range 8).map fun i => s.poisoned (pa.1 + 16 * i)
  let bs := if isHeader then bs.take 7 ++ [(bs.getD 7 0) &&& 0x3F] ++ bs.drop 8 else bs
  let s := if r.page.isSome then s.memWrite pa.2 bs else s.engineWrite ca.2 pa.2 bs
  let s := (List.range 8).foldl (fun s i => if bad.getD i false then s.setPoison (.mem (pa.2 + 16 * i)) true else s) s
  let m := SMap.get none s.moves (ca.1 / 128)
  { s with moves := SMap.set none s.moves (ca.1 / 128) (m.map fun (m : LineMove) => { m with copied := true }) }

/-- LINE_MOVE_COPIED (15 R403): the oldest line in flight has been written at its destination. -/
def execLineMoveCopied (die : Nat) (s : State) : Host.Outcome State Fault Refusal :=
  let r := s.reloc die
  offered (match r.move with
    | none => none
    | some m =>
      if m.read ≤ m.copied then none
      else
        let ca := s.moveLine r die m m.copied
        let s := match s.movePas r ca m.copied with
          | some pa => s.copyLine r ca pa (m.copied = 0 && r.page.isNone)
          | none => s
        some (s.setReloc die { r with move := some { m with copied := m.copied + 1 } }))

/-- Puts an entry at the first free place of its probe sequence (15 R394, R397 step 3). -/
def State.insertFwd (s : State) (root n : Nat) (frm dest : Nat) : Nat → Nat → State
  | _, 0 => s
  | i, fuel + 1 =>
    if (s.memByte (root + 16 * i + 7)).getLsbD 7 then s.insertFwd root n frm dest ((i + 1) % n) fuel
    else s.memWrite (root + 16 * i) (leBytes 8 (2 ^ 63 + frm % 2 ^ 57) ++ leBytes 8 (dest % 2 ^ 57))

/-! ### The meanings -/

/-- RELOC_START (R396) as a bundle of its own. -/
def execRelocStart (g : Guard) (w : SR) (s : State) : Host.Outcome State Fault Refusal :=
  runSolo (semRelocStart g w) (.relocStart g w) s
/-- RELOC_QUERY (R396) as a bundle of its own. -/
def execRelocQuery (g : Guard) (w : SR) (s : State) : Host.Outcome State Fault Refusal :=
  runSolo (semRelocQuery g w) (.relocQuery g w) s
/-- RELOC_ABORT (R396) as a bundle of its own. -/
def execRelocAbort (g : Guard) (w : SR) (s : State) : Host.Outcome State Fault Refusal :=
  runSolo (semRelocAbort g w) (.relocAbort g w) s
/-- FWDPUB (R398) as a bundle of its own. -/
def execFwdpub (g : Guard) (w : SR) (s : State) : Host.Outcome State Fault Refusal :=
  runSolo (semFwdpub g w) (.fwdpub g w) s

end Sys2Proof.Machine
end

