-- ==== Sys2Proof/Machine/Repair.lean ====
section
/-! DEFINITION. Fabric repair and the whorl rotation: SKEINLD, SCANRUN, ticks, marks and unmarks, and a router that dies (18 R451,
19 R460 to R477, 22 R507, R508). -/

namespace Sys2Proof.Machine

/-! ### Skeins (19 R461 to R466) -/

/-- An unsigned field of a skein's header in the creel. -/
def State.skein (s : State) (off at' n : Nat) : Nat := leNat (SMap.getList 0 s.creel.bytes (off + at') n)

/-- Instances of a unit code; 0 for a reserved code (19 R461). -/
def unitInstances (u : Nat) : Nat :=
  match u with | 1 => 16 | 2 => 16 | 3 => 2 | 4 => 16 | 5 => 1 | 6 => 3 | 7 => 5 | 8 => 16 | _ => 0

/-- SITE, UNIT and INST of a target descriptor (19 R465). -/
def skeinTarget (b : W64) : Nat × Nat × Nat := ((b.extractLsb' 0 8).toNat, (b.extractLsb' 8 8).toNat, (b.extractLsb' 20 4).toNat)

/-- The tests of SKEINLD at check 5 (19 R465); a dropped site has no fabric to load for. -/
def State.skeinOk (s : State) (key : Nat) (a b : W64) : Bool :=
  let t := skeinTarget b
  a.toNat % 4096 == 0 && decide (a.toNat + 256 ≤ 2 ^ 32) && b.extractLsb' 32 32 == 0 && b.extractLsb' 24 4 == 0 &&
    b.extractLsb' 16 4 == 0 && decide ((b.extractLsb' 28 4).toNat < 2) && decide (t.2.2 < unitInstances t.2.1) &&
    decide (t.1 < 144) &&
    (match s.siteState (144 * (key - 576) + t.1) with | .dropped _ => false | _ => true)

/-- The status word of SKEINLD (19 R465). -/
def skeinStatus (id first nseg code : Nat) : W64 := BitVec.ofNat 64 (id * 2 ^ 32 + first * 2 ^ 20 + nseg * 2 ^ 8 + code)

/-- The first failing check of 19 R464, in its order: 1 BAD_HEADER, 2 STEPPING, 3 KEY_REVOKED, 4 BAD_SIGNATURE. -/
def State.skeinCheck (s : State) (off : Nat) : Option Nat :=
  let f := s.skein off
  let typ := f 8 1
  let unit := f 0x14 1
  let slot := f 9 1
  let agrees := if typ = 1 then decide (1 ≤ unit) && decide (unit ≤ 7) else (typ == 2 || typ == 3) && unit == 8
  if f 0 4 ≠ 0x5A534B4E ∨ f 0x42 126 ≠ 0 ∨ 2 ≤ slot ∨ !agrees then some 1
  else if f 0x0C 4 ≠ deviceStepping then some 2
  else match Config.vendorKey slot with
    | none => some 3
    | some k =>
      if SMap.get false s.sec.revoked slot then some 3
      else
        let bytes := SMap.getList 0 s.creel.bytes off 0xC0 ++ SMap.getList 0 s.creel.bytes (off + 256) (f 0x10 4)
        if Config.signed k bytes (SMap.getList 0 s.creel.bytes (off + 0xC0) 64) then none else some 4

/-- The segments within reach of a site, in the order in which they are picked (19 R460, R465). -/
def reach (site : Nat) : List Nat :=
  let row := site / 12
  let rows := [row] ++ (if 1 ≤ row then [row - 1] else []) ++ [row + 1] ++ (if 2 ≤ row then [row - 2] else []) ++ [row + 2]
  (rows.filter fun r => r < 12).flatMap fun r => (List.range 16).map fun g => 16 * (12 * r + site % 12) + g

/-- An ACTIVE allocation-map entry (19 R462). -/
def activeSegment (t : Nat × Nat × Nat) (id : Nat) : W64 :=
  BitVec.ofNat 64 (2 * 2 ^ 62 + t.1 * 2 ^ 52 + t.2.1 * 2 ^ 44 + t.2.2 * 2 ^ 40 + id)

/-- The site is under a pass (19 R472). -/
def State.siteScanning (s : State) (die site : Nat) : Bool :=
  match (s.whorl die).phase with | .scanning n _ => n == site | .aborted n _ => n == site | _ => false

/-- SKEINLD, load (19 R465, R466): the status word, and the state with the segments ACTIVE. A FORMAT skein defines its format on
the site; the creel records the load (19 R462). -/
def State.skeinLoad (s : State) (die off : Nat) (b : W64) : W64 × State :=
  let t := skeinTarget b
  let f := s.skein off
  let id := f 4 4
  let key := 144 * die + t.1
  let fmt := f 0x15 1 % 16
  if s.siteScanning die t.1 then (skeinStatus id 0 0 6, s)
  else match s.skeinCheck off with
    | some code => (skeinStatus id 0 0 code, s)
    | none =>
      let isFormat := f 8 1 == 3
      if f 0x14 1 ≠ t.2.1 ∨ (isFormat ∧ SMap.get 0 (s.core key).fmtBits fmt ≠ 0) then (skeinStatus id 0 0 1, s)
      else
        let n := f 0x0A 2
        let picked := ((reach t.1).filter fun i => segState (s.segment die i) == 0).take n
        if picked.length < n then (skeinStatus id 0 0 5, s)
        else
          let s := picked.foldl (fun s i => s.setSegment die i (activeSegment t id)) s
          let s := if isFormat then s.modCore key fun c => { c with fmtBits := SMap.set 0 c.fmtBits fmt (f 0x41 1) } else s
          (skeinStatus id (picked.foldl min (picked.headD 0)) n 0,
            { s with creel := { s.creel with skeins := s.creel.skeins ++ [(die, off, b.toNat)] } })

/-- SKEINLD, release (19 R465). -/
def State.skeinRelease (s : State) (die off : Nat) (b : W64) : W64 × State :=
  let t := skeinTarget b
  let f := s.skein off
  let id := f 4 4
  let key := 144 * die + t.1
  let c := s.core key
  if s.siteScanning die t.1 then (skeinStatus id 0 0 6, s)
  else
    let mine := (List.range 2304).filter fun i =>
      let e := s.segment die i
      segState e == 2 && (e.extractLsb' 0 32).toNat == id && segOwner e == t
    if mine = [] then (skeinStatus id 0 0 7, s)
    else if c.item.isSome ∨ (t.2.1 = 8 ∧ (c.timingAt (32 + 16 + t.2.2) ≠ 0 ∨ c.timingAt (64 + 16 + t.2.2) ≠ 0)) then
      (skeinStatus id 0 0 6, s)
    else
      let s := mine.foldl (fun s i => s.setSegment die i 0) s
      let s := if f 8 1 = 3 then s.modCore key fun c => { c with fmtBits := SMap.set 0 c.fmtBits (f 0x15 1 % 16) 0 } else s
      (skeinStatus id 0 mine.length 0, { s with creel := { s.creel with
        skeins := s.creel.skeins.filter fun q => !(q.1 == die && skeinTarget (BitVec.ofNat 64 q.2.2) == t && q.2.1 == off) } })

/-- SKEINLD (19 R465): ACTION of s[B] selects a load or a release, whichever of the two forms names the word (log 26). -/
def skeinOp (g : Guard) (w : SR) : OpSem :=
  { command 0xA2 g onSupervisor [w.a, w.b] with
    check5 := fun s key v => rangeUnless 0xA2 (v.s 1 w.a) (s.skeinOk key (v.s 1 w.a) (v.s 2 w.b))
    perform := fun key v a =>
      let b := v.s 2 w.b
      let die := key - 576
      let r := if b.extractLsb' 28 4 = 0 then a.st.skeinLoad die (v.s 1 w.a).toNat b else a.st.skeinRelease die (v.s 1 w.a).toNat b
      { a with st := r.2 }.core key fun c => c.pendWrite 1 (.s w.d r.1) }

/-- SKEINLD, ACTION 0 (19 R465) -/
def semSkeinldLoad (g : Guard) (w : SR) : OpSem := skeinOp g w
/-- SKEINLD, ACTION 1 (19 R465) -/
def semSkeinldRelease (g : Guard) (w : SR) : OpSem := skeinOp g w

/-! ### Scan passes (19 R473, R474) -/

/-- SCANRUN (19 R473): a status at once, or a pass that the supervisor waits for. -/
def semScanrun (g : Guard) (w : SR) : OpSem :=
  { command 0xA3 g onSupervisor [w.a] with
    check5 := fun s key v => rangeUnless 0xA3 (v.s 1 w.a) (s.targetOk key (v.s 1 w.a))
    perform := fun key v a =>
      let site := (v.s 1 w.a).toNat
      let s := a.st
      let answer := fun (code : Nat) => a.core key fun c => c.pendWrite 1 (.s w.d (scanStatus code 0 0 0))
      if !s.drainedSite (siteKey key (v.s 1 w.a)) then answer 3
      else if s.pwr.stepped then answer 5
      else if s.creel.patterns = 0 then answer 4
      else
        let now := s.time
        { a with st := s.modWhorl (key - 576) fun q => { q with phase := .scanning site now } }.core key fun c =>
          { c with await := .scan site now w.d } }

/-! ### The rotation (19 R472, R474, 22 R507) -/

/-- The whorl control word of a die (19 R472, 22 R507). -/
def State.whorlCtl (s : State) (die : Nat) : W64 := BitVec.ofNat 64 (s.memNat (s.bases.whorl + 64 * die) 8)
/-- MARK of a die's whorl block. -/
def State.whorlMark (s : State) (die : Nat) : W64 := BitVec.ofNat 64 (s.memNat (s.bases.whorl + 64 * die + 8) 8)
/-- Writes MARK. -/
def State.setMark (s : State) (die x : Nat) : State := s.memPut (s.bases.whorl + 64 * die + 8) 8 x

/-- The next site of a die's rotation list after one (19 R472). -/
def State.nextSite (s : State) (die : Nat) (last : Option Nat) : Option Nat :=
  let l := (List.range 144).filter fun i => match s.siteState (144 * die + i) with | .dropped _ => false | _ => true
  match last with
  | none => l.head?
  | some n => (l.find? fun i => decide (n < i)).orElse fun _ => l.head?

/-- WHORL_TICK (19 R472, R474): a site is selected and marked; a tick is skipped while a site is MARKED or SCANNING, and the
rotation rests while it is not enabled or the package is STEPPED. -/
def execWhorlTick (die : Nat) (s : State) : Host.Outcome State Fault Refusal :=
  let w := s.whorl die
  offered (if !s.booted ∨ 4 ≤ die then none
    else if w.phase ≠ .serving ∨ !(s.whorlCtl die).getLsbD 0 ∨ s.pwr.stepped then some s
    else
      let pick := match w.retry with | n :: l => some (n, l, w.last) | [] => (s.nextSite die w.last).map fun n => (n, [], some n)
      match pick with
      | none => some s
      | some (n, l, last) =>
        some ((s.setMark die (0x8000 + n)).modWhorl die fun w => { w with phase := .marked n s.time, retry := l, last := last }))

/-- A marked site is unmarked, or a pass is aborted for a reason: 0 a high-priority launch, 1 a power step. Either goes to the
head of the retry queue (19 R474, 22 R507). -/
def State.unmark (s : State) (die reason : Nat) : State :=
  match (s.whorl die).phase with
  | .marked n _ => (s.setMark die (0x4000 + n)).modWhorl die fun w => { w with phase := .serving, retry := n :: w.retry }
  | .scanning n _ => s.modWhorl die fun w => { w with phase := .aborted n reason, retry := n :: w.retry }
  | _ => s

/-- The stage scheduler reads MARK (22 R507): a site newly marked, or one that firmware has let go. -/
def State.readMark (s : State) (die : Nat) : State :=
  let m := s.whorlMark die
  let n := (m.extractLsb' 0 8).toNat
  match (s.whorl die).phase with
  | .serving => if m.getLsbD 15 ∧ n < 144 then s.modWhorl die fun w => { w with phase := .marked n s.time } else s
  | .marked k _ => if m.getLsbD 15 ∧ n = k then s else s.modWhorl die fun w => { w with phase := .serving }
  | _ => s

/-- DRAINMAX (19 R474): the marked site's item is pre-empted. -/
def execDrainmax (die : Nat) (s : State) : Host.Outcome State Fault Refusal :=
  offered (match (s.whorl die).phase with
    | .marked n since =>
      let key := 144 * die + n
      if (s.core key).item.isNone then none
      else some ({ s with time := max s.time (since + 1000000 * ((s.whorlCtl die).extractLsb' 16 16).toNat) }.modCore key fun c =>
        c.raiseAsync 0x10 0)
    | _ => none)

/-! ### A dead router (18 R451, 19 R470, R477) -/

/-- The lowest-numbered spare of a die whose last pass succeeded (19 R470). -/
def State.spareOf (s : State) (die : Nat) : Option Nat :=
  (List.range 144).find? fun i => s.siteState (144 * die + i) == .spare true

/-- The logical number of a dropped site goes to a spare, or is withdrawn (19 R470); SITE of a withdrawn number stands. -/
def State.handOver (s : State) (die site : Nat) : Option Nat × State :=
  let n := s.logicalOf (144 * die + site)
  if n = 0x3FF then (none, s)
  else match s.spareOf die with
    | some k => (some k, (s.memPut (s.bases.lcmap + 2 * n) 2 (0x8000 + 256 * die + k)).setSiteState (144 * die + k) .inService)
    | none => (none, s.memPut (s.bases.lcmap + 2 * n) 2 ((s.lcmapEntry n).toNat % 2 ^ 15))

/-- The records whose set holds a site that has not passed become SUSPECT, each with its window, and are logged (19 R475 to
R478). -/
def State.suspectRecords (s : State) (key lcore upto : Nat) : State :=
  let frm := SMap.get 0 s.lastPass key
  let hit := s.tracked.filter fun t => t.sites.contains key
  hit.foldl (fun s t =>
      let s := match s.readVa t.asid (t.va + 0x18) 4 with
        | some bs =>
          if leNat bs = 0 then
            ((s.writeVa t.asid (t.va + 0x68) (leBytes 8 frm)).writeVa t.asid (t.va + 0x70) (leBytes 8 upto)).writeVa t.asid
              (t.va + 0x18) (leBytes 4 2)
          else s
        | none => s
      s.logAppend { code := 0x0065, cls := 2, part := s.ctxPart t.asid, asid := t.asid.toNat, source := 6 * 256, addr := t.va
                    detail := frm + upto * 2 ^ 64 + lcore * 2 ^ 128 })
    { s with tracked := (s.tracked.map fun (t : Tracked) => { t with sites := t.sites.filter (· ≠ key) }).filter fun t =>
        t.sites ≠ [] }

/-- ROUTER_BYPASS (18 R451, 19 R470): the site is bypassed and dropped, its item is lost with its context, and so is any
context that holds a gang member there. -/
def execRouterBypass (die : Nat) (site : Nat) (s : State) : Host.Outcome State Fault Refusal :=
  let key := 144 * die + site
  offered (if 4 ≤ die ∨ 144 ≤ site ∨ s.siteState key = .dropped true then none
    else
      let c := s.core key
      let seq := s.logSeq
      let s := s.logAppend { code := 0x0043, cls := 2, source := die * 16384 + 5 * 256 + site, addr := s.logicalOf key }
      let s := match c.item with
        | none => s
        | some it =>
          let s := s.endItem key
          if it.gang.isSome then s.killContext c.cr.asid (die * 16384 + 5 * 256 + site) { reason := 6, seq := some seq } 6
          else s.killContext c.cr.asid (die * 16384 + 5 * 256 + site) { cause := 0x20, seq := some seq } 2
      let lcore := s.logicalOf key
      let s := s.setSiteState key (.dropped true)
      let r := s.handOver die site
      let s := r.2.logAppend
        { code := 0x0064, cls := 2, source := (sourceOf (576 + die)), addr := if lcore = 0x3FF then 0 else lcore
          detail := site + 3 * 256 + (r.1.getD 0xFFFF) * 2 ^ 32 }
      let s := (s.modCore key fun c => { (c.stateReset key) with stopped := true }).suspectRecords key lcore s.time
      some (s.modWhorl die fun w =>
        { w with
          phase := (if w.phase.site = some site then .serving else w.phase)
          retry := w.retry.filter (· ≠ site) }))

/-! ### The meanings -/

/-- SKEINLD_LOAD (R465) as a bundle of its own. -/
def execSkeinldLoad (g : Guard) (w : SR) (s : State) : Host.Outcome State Fault Refusal :=
  runSolo (semSkeinldLoad g w) (.skeinldLoad g w) s
/-- SKEINLD_RELEASE (R465) as a bundle of its own. -/
def execSkeinldRelease (g : Guard) (w : SR) (s : State) : Host.Outcome State Fault Refusal :=
  runSolo (semSkeinldRelease g w) (.skeinldRelease g w) s
/-- SCANRUN (R473) as a bundle of its own. -/
def execScanrun (g : Guard) (w : SR) (s : State) : Host.Outcome State Fault Refusal :=
  runSolo (semScanrun g w) (.scanrun g w) s

end Sys2Proof.Machine
end

