-- ==== Sys2Proof/Machine/Meaning.lean ====
section
/-! DEFINITION. What the issue of a slot word needs of its instruction, for every instruction that has a slot word: the
bundle's issue and a sticky re-issue look it up here. -/

namespace Sys2Proof.Machine

/-- The description of a slot operation; none for the events of the package and for the header alone. -/
def semOf : Instr → Option OpSem
  | .headerOnlyBundle .. => none
  | .add g w => some (semAdd g w)
  | .sub g w => some (semSub g w)
  | .mul g w => some (semMul g w)
  | .mulh g w => some (semMulh g w)
  | .mulhu g w => some (semMulhu g w)
  | .and g w => some (semAnd g w)
  | .or g w => some (semOr g w)
  | .xor g w => some (semXor g w)
  | .shl g w => some (semShl g w)
  | .shr g w => some (semShr g w)
  | .sar g w => some (semSar g w)
  | .min g w => some (semMin g w)
  | .max g w => some (semMax g w)
  | .minu g w => some (semMinu g w)
  | .maxu g w => some (semMaxu g w)
  | .clz g w => some (semClz g w)
  | .popc g w => some (semPopc g w)
  | .addi g w => some (semAddi g w)
  | .andi g w => some (semAndi g w)
  | .ori g w => some (semOri g w)
  | .xori g w => some (semXori g w)
  | .shli g w => some (semShli g w)
  | .shri g w => some (semShri g w)
  | .sari g w => some (semSari g w)
  | .li g w => some (semLi g w)
  | .cmpeq g w => some (semCmpeq g w)
  | .cmpne g w => some (semCmpne g w)
  | .cmplt g w => some (semCmplt g w)
  | .cmple g w => some (semCmple g w)
  | .cmpltu g w => some (semCmpltu g w)
  | .cmpleu g w => some (semCmpleu g w)
  | .cmpeqi g w => some (semCmpeqi g w)
  | .cmplti g w => some (semCmplti g w)
  | .pand g w => some (semPand g w)
  | .por g w => some (semPor g w)
  | .pxor g w => some (semPxor g w)
  | .pnot g w => some (semPnot g w)
  | .fadd g w => some (semFadd g w)
  | .fsub g w => some (semFsub g w)
  | .fmul g w => some (semFmul g w)
  | .ffma g w => some (semFfma g w)
  | .fdiv g w => some (semFdiv g w)
  | .fsqrt g w => some (semFsqrt g w)
  | .fmin g w => some (semFmin g w)
  | .fmax g w => some (semFmax g w)
  | .fcmpeq g w => some (semFcmpeq g w)
  | .fcmplt g w => some (semFcmplt g w)
  | .fcmple g w => some (semFcmple g w)
  | .fcvti g w => some (semFcvti g w)
  | .icvtf g w => some (semIcvtf g w)
  | .br g w => some (semBr g w)
  | .bri g w => some (semBri g w)
  | .call g w => some (semCall g w)
  | .calli g w => some (semCalli g w)
  | .ret g w => some (semRet g w)
  | .loop g w => some (semLoop g w)
  | .hbase g w => some (semHbase g w)
  | .hset g w => some (semHset g w)
  | .hstep g w => some (semHstep g w)
  | .hget g w => some (semHget g w)
  | .hmov g w => some (semHmov g w)
  | .lds g w => some (semLds g w)
  | .sts g w => some (semSts g w)
  | .ldg g w => some (semLdg g w)
  | .stg g w => some (semStg g w)
  | .crr g w => some (semCrr g w)
  | .crw g w => some (semCrw g w)
  | .zins g w => some (semZins g w)
  | .zext g w => some (semZext g w)
  | .amoadd g w => some (semAmoadd g w)
  | .amoand g w => some (semAmoand g w)
  | .amoor g w => some (semAmoor g w)
  | .amoxor g w => some (semAmoxor g w)
  | .amomin g w => some (semAmomin g w)
  | .amomax g w => some (semAmomax g w)
  | .amoswap g w => some (semAmoswap g w)
  | .amocas g w => some (semAmocas g w)
  | .amofadd g w => some (semAmofadd g w)
  | .bar g w => some (semBar g w)
  | .drain g w => some (semDrain g w)
  | .settle g w => some (semSettle g w)
  | .yield g w => some (semYield g w)
  | .tail g w => some (semTail g w)
  | .enter g w => some (semEnter g w)
  | .leave g w => some (semLeave g w)
  | .probe g w => some (semProbe g w)
  | .trap g w => some (semTrap g w)
  | .eret g w => some (semEret g w)
  | .ldref g w => some (semLdref g w)
  | .stref g w => some (semStref g w)
  | .ldfld g w => some (semLdfld g w)
  | .stfld g w => some (semStfld g w)
  | .pin g w => some (semPin g w)
  | .unpin g w => some (semUnpin g w)
  | .refeq g w => some (semRefeq g w)
  | .refmk g w => some (semRefmk g w)
  | .slotmap g w => some (semSlotmap g w)
  | .ttset g w => some (semTtset g w)
  | .skeinldLoad g w => some (semSkeinldLoad g w)
  | .skeinldRelease g w => some (semSkeinldRelease g w)
  | .scanrun g w => some (semScanrun g w)
  | .preempt g w => some (semPreempt g w)
  | .ctxsave g w => some (semCtxsave g w)
  | .ctxload g w => some (semCtxload g w)
  | .qmap g w => some (semQmap g w)
  | .qsave g w => some (semQsave g w)
  | .qload g w => some (semQload g w)
  | .pstep g w => some (semPstep g w)
  | .inval g w => some (semInval g w)
  | .relocStart g w => some (semRelocStart g w)
  | .relocQuery g w => some (semRelocQuery g w)
  | .relocAbort g w => some (semRelocAbort g w)
  | .fwdpub g w => some (semFwdpub g w)
  | .logrApp g w => some (semLogrApp g w)
  | .logrRead g w => some (semLogrRead g w)
  | .vld v g w => some (semVld v g w)
  | .vst v g w => some (semVst v g w)
  | .vmov v g w => some (semVmov v g w)
  | .vtag v g w => some (semVtag v g w)
  | .vperm v g w => some (semVperm v g w)
  | .vbcstScalar v g w => some (semVbcstScalar v g w)
  | .vbcstElement v g w => some (semVbcstElement v g w)
  | .vshuf v g w => some (semVshuf v g w)
  | .vsel v g w => some (semVsel v g w)
  | .vadd v g w => some (semVadd v g w)
  | .vsub v g w => some (semVsub v g w)
  | .vmul v g w => some (semVmul v g w)
  | .vfma v g w => some (semVfma v g w)
  | .vfms v g w => some (semVfms v g w)
  | .vmin v g w => some (semVmin v g w)
  | .vmax v g w => some (semVmax v g w)
  | .vabs v g w => some (semVabs v g w)
  | .vneg v g w => some (semVneg v g w)
  | .vcmp v g w => some (semVcmp v g w)
  | .viadd v g w => some (semViadd v g w)
  | .visub v g w => some (semVisub v g w)
  | .vimul v g w => some (semVimul v g w)
  | .vimad v g w => some (semVimad v g w)
  | .vand v g w => some (semVand v g w)
  | .vor v g w => some (semVor v g w)
  | .vxor v g w => some (semVxor v g w)
  | .vimin v g w => some (semVimin v g w)
  | .vimax v g w => some (semVimax v g w)
  | .vshl v g w => some (semVshl v g w)
  | .vshr v g w => some (semVshr v g w)
  | .vsar v g w => some (semVsar v g w)
  | .vicmp v g w => some (semVicmp v g w)
  | .vcvt v g w => some (semVcvt v g w)
  | .vqzb v g w => some (semVqzb v g w)
  | .vmxi v g w => some (semVmxi v g w)
  | .vrsum v g w => some (semVrsum v g w)
  | .vrmax v g w => some (semVrmax v g w)
  | .vrmin v g w => some (semVrmin v g w)
  | .vexp2 v g w => some (semVexp2 v g w)
  | .vlog2 v g w => some (semVlog2 v g w)
  | .vrcp v g w => some (semVrcp v g w)
  | .vrsq v g w => some (semVrsq v g w)
  | .vsin v g w => some (semVsin v g w)
  | .vcos v g w => some (semVcos v g w)
  | .vscget v g w => some (semVscget v g w)
  | .vscset v g w => some (semVscset v g w)
  | .vscadd v g w => some (semVscadd v g w)
  | .vscmax v g w => some (semVscmax v g w)
  | .fx n v g w => some (semFx n v g w)
  | .mlb g w => some (semMlb g w)
  | .msel g w => some (semMsel g w)
  | .mac g w => some (semMac g w)
  | .macn g w => some (semMacn g w)
  | .macz g w => some (semMacz g w)
  | .mrd g w => some (semMrd g w)
  | .mrdSteps g w => some (semMrdSteps g w)
  | .mdr g w => some (semMdr g w)
  | .mclr g w => some (semMclr g w)
  | .mmode g w => some (semMmode g w)
  | .cpy c g w => some (semCpy c g w)
  | .cpyr c g w => some (semCpyr c g w)
  | .cpyt c g w => some (semCpyt c g w)
  | .cpytr c g w => some (semCpytr c g w)
  | .gath c g w => some (semGath c g w)
  | .gathr c g w => some (semGathr c g w)
  | .scat c g w => some (semScat c g w)
  | .scatr c g w => some (semScatr c g w)
  | .cfill c g w => some (semCfill c g w)
  | .redc c g w => some (semRedc c g w)
  | .bcst c g w => some (semBcst c g w)
  | .ldq c g w => some (semLdq c g w)
  | .stq c g w => some (semStq c g w)
  | .kwait c g w => some (semKwait c g w)
  | .copyPerform .. => none
  | .stqPushPerform .. => none
  | .mOperationPerform .. => none
  | .landingDataArrival .. => none
  | .storePerform .. => none
  | .uncachedWriteAck .. => none
  | .retirementEntryFree .. => none
  | .homeSliceAccess .. => none
  | .invalidation .. => none
  | .remoteWrite .. => none
  | .fetchFill .. => none
  | .eccCorr .. => none
  | .eccFreezeEnd .. => none
  | .onchipUe .. => none
  | .systemUe .. => none
  | .dpcRelease .. => none
  | .barPacket .. => none
  | .barrierRelease .. => none
  | .fatalContextError .. => none
  | .contextKill .. => none
  | .supstart .. => none
  | .accountLatch .. => none
  | .supervisorFlush .. => none
  | .captureStart .. => none
  | .captureStop .. => none
  | .shootdown .. => none
  | .kick .. => none
  | .packetFetch .. => none
  | .launchComplete .. => none
  | .itemStart .. => none
  | .resumeEntry .. => none
  | .rebalance .. => none
  | .ageing .. => none
  | .watchdogExpire .. => none
  | .partitionReset .. => none
  | .rangeReload .. => none
  | .bundlingComplete .. => none
  | .codeEvict .. => none
  | .objectClaim .. => none
  | .lineMoveRead .. => none
  | .lineMoveCopied .. => none
  | .publish .. => none
  | .hostAccess .. => none
  | .pcsLock .. => none
  | .flit .. => none
  | .portDown .. => none
  | .retrainAttempt .. => none
  | .peerUnreachable .. => none
  | .memberFenced .. => none
  | .routerBypass .. => none
  | .whorlTick .. => none
  | .drainmax .. => none
  | .powerWindow .. => none
  | .registerWrite .. => none
  | .mailboxRing .. => none
  | .voltageDroop .. => none
  | .xlateReq => none
  | .revokeAck => none
  | .revokeTimeout => none
  | .init => none
  | .nak => none
  | .retrain => none
  | .read => none
  | .write => none
  | .atomic => none
  | .redcMessage => none
  | .bcstMessage => none
  | .rdata => none
  | .wack => none
  | .areply => none
  | .error => none
  | .heartbeat => none
  | .probeMessage => none
  | .probeack => none
  | .powerStepPin => none
  | .malformedBundle => none
  | .patchAckTimeout => none
  | .ctxalloc => none
  | .ctxfree => none
  | .kill => none
  | .rangeset => none
  | .map => none
  | .unmap => none
  | .regq => none
  | .deregq => none
  | .place => none
  | .loadobj => none
  | .regobj => none
  | .unregobj => none
  | .migout => none
  | .migin => none
  | .heapstart => none
  | .heapquery => none
  | .heapabort => none
  | .heappub => none
  | .heapfree => none
  | .capture => none
  | .regionbp => none
  | .halt => none
  | .continueRun => none
  | .stepToEdge => none
  | .stepBundle => none
  | .patchSet => none
  | .patchClear => none
  | .logread => none
  | .attest => none
  | .dbgchal => none
  | .dbgattach => none
  | .dbgdetach => none
  | .partset => none
  | .whorlset => none
  | .pinlevel => none
  | .wearread => none
  | .setid => none
  | .routeset => none
  | .groupset => none
  | .importEntry => none
  | .claim => none
  | .transfer => none
  | .returnPkg => none
  | .retire => none
  | .heartbeatInterval => none
  | .probeInterval => none
  | .wearLogCommit => none
  | .powerTick => none
  | .idleEntry => none
  | .powerFail => none
  | .dumpComplete => none
  | .boot => none
  | .powerLost => none

end Sys2Proof.Machine
end

