-- ==== Sys2Proof/Machine/Bundle.lean ====
section
/-! DEFINITION. Issuing whole bundles: the header-only bundle, bundles of several slots, and bytes that are no bundle (02 R53
to R62, R77). -/

namespace Sys2Proof.Machine

/-- The meaning of a slot word, as a sticky re-issue finds it (02 R59). -/
def lookWord (sl : Slot) (w : W64) : Option OpSem :=
  match decodeSlot sl w with
  | .ok i => semOf i
  | .error _ => none

/-- A decoded bundle as the issue takes it. -/
def fetchedBundle (b : Bundle) : Fetched :=
  { header := b.header, size := b.header.size
    present := b.ops.filterMap fun q => (semOf q.2.2).map fun m => (q.1, q.2.1, m)
    look := lookWord }

/-- A bundle issues on the current core (02 R55 to R62). -/
def State.issueBundle (s : State) (b : Bundle) : State := s.issue (fetchedBundle b)

/-- The instruction a bundle is, where it is a header alone or one slot word with every other slot quiet and no repetition. -/
def soloInstr (b : Bundle) : Option Instr :=
  match b.ops with
  | [] => some (.headerOnlyBundle b.header.loopend b.header.rep b.header.quiet)
  | [(sl, _, i)] => if b.header = soloHeader sl then some i else none
  | _ => none

/-- Bytes that are no bundle, as the issue takes them (02 R77): an ILLEGAL of check 1, before any of the repetitions that the REPEAT
field of their header asks for (08 R265). -/
def malformed (rep : BitVec 8) (slot : BitVec 3) (op : BitVec 8) : Fetched :=
  { header := ⟨0, rep, 0x3F, 0⟩, size := 4, present := []
    err := some ⟨causeIllegal, (0 : BitVec 48) ++ op.extractLsb' 2 6 ++ op.extractLsb' 0 2 ++ (0 : BitVec 5) ++ slot⟩ }

/-- What the issue takes for some bytes: of no bundle, an ILLEGAL with the slot and the opcode at fault, both 0 for the header (08 R263). -/
def fetchedOf (bs : List Byte) : Fetched :=
  match decode bs with
  | .ok b => fetchedBundle b
  | .error e =>
    let rep := (Header.ofWord (BitVec.ofNat 32 (leNat (bs.take 4)))).rep
    match e.site with
    | none => malformed rep 0 0
    | some (sl, op) => malformed rep (BitVec.ofNat 3 (slotCode263 sl)) op

/-- The bytes at the PC issue on the current core. -/
def State.issueBytes (s : State) (bs : List Byte) : State := s.issue (fetchedOf bs)

/-- The bundle of some bytes waits for something inside the package, so that its turn is a freeze cycle. -/
def State.waiting (s : State) (key : Nat) (bs : List Byte) : Bool :=
  let c := s.core key
  match c.boundaryFreeze with
  | some cause => cause == acctLand || cause == acctBarrier || cause == acctDrain
  | none =>
    let l := c.issuing (fetchedOf bs) s.free
    (firstCheck s key (fetchedOf bs) l).isNone && (firstFatal s key l).isNone && c.asyncNext.isNone &&
      c.hooks.breakNext.isNone && (waitOf s key l).isSome

/-- The outstanding work of a core that could move next, in the order in which it is tried (log 5). -/
def State.backgroundWork (s : State) (key : Nat) : List Instr :=
  let c := s.core key
  (if c.mq = [] then [] else [.mOperationPerform key]) ++
    (c.landings.mapIdx fun i l => match l.state with
      | .waiting => [Instr.homeSliceAccess key i]
      | .replied .. => [Instr.landingDataArrival key i]
      | _ => []).flatten ++
    (if c.stream = [] then [] else [.storePerform key, .uncachedWriteAck key]) ++
    [Engine.a, .b].flatMap (fun e => (c.copies.filter fun o => o.engine = e).mapIdx (fun i _ => i) |>.flatMap fun i =>
      [Instr.copyPerform key e i, Instr.stqPushPerform key e i]) ++
    (List.range 8).map (fun i => Instr.retirementEntryFree key i) ++
    s.pendInv.map (fun p => Instr.invalidation p.die p.line) ++
    [.barPacket key, .barrierRelease key]

/-- A header-only bundle: every slot quiet or sticky, REPEAT + 1 times, then the close of any loop (02 R55 to R57). A header
that fails check 1 raises ILLEGAL. -/
def execHeaderOnlyBundle (l : BitVec 4) (r : BitVec 8) (q : BitVec 6) (s : State) : Host.Outcome State Fault Refusal :=
  if 4 < l.toNat then .next (s.issue (malformed r 0 0)) else .next (s.issueBundle ⟨⟨l, r, q, 0⟩, []⟩)

/-- Bytes at the PC that fail check 1 (02 R77): ILLEGAL with the slot and opcode at fault. Where the bytes at the PC are a
bundle, or are not there to be decoded, there is no malformed bundle (log 5). -/
def execMalformedBundle (s : State) : Host.Outcome State Fault Refusal :=
  match s.fetch s.cur with
  | .bytes bs => match decode bs with
    | .error _ => .next (s.issueBytes bs)
    | .ok _ => .refused .notEnabled
  | _ => .refused .notEnabled

/-! ### Windows (20 R481, R482) -/

/-- The next power window of a core begins: its sum restarts, under the ceilings in force by now. -/
def Core.newWindow (c : Core) : Core :=
  { c with power := { c.power with sum := 0, eff := max 1 (min c.cr.ceiling.toNat c.power.pceil) } }

/-- POWER_WINDOW (20 R481): a window begins on a tile core where cr.cycle mod 64 = 0; a core that issues nothing, or is held at its
ceiling, passes the rest of its window first. -/
def execPowerWindow (core : Nat) (s : State) : Host.Outcome State Fault Refusal :=
  let c := s.core core
  let left := (64 - c.cycle.toNat % 64) % 64
  let held : Bool := match s.fetch core with | .bytes bs => powerHold c (c.issuing (fetchedOf bs) s.free) | _ => false
  if 576 ≤ core then .refused .notEnabled
  else if left = 0 then .next (s.modCore core Core.newWindow)
  else if c.idle ∨ held then .next (s.powerCycles core left)
  else .refused .notEnabled

end Sys2Proof.Machine
end

