-- ==== Sys2Proof/Machine/Sched.lean ====
section
/-! DEFINITION. Launches and the stage scheduler: kicks, packets, item starts and resumes, epochs, ageing, watchdogs and partition
resets (08 R271, 13 R329 to R345, 14 R355, R356, 18 R448, R449). -/

namespace Sys2Proof.Machine

/-! ### Kicks (13 R345, R349, R351) -/

/-- A host write that the package drops (18 R437, R439). -/
def State.hostDropped (s : State) (part kind qid : Nat) (value : Nat) : State :=
  s.logAppend { code := 0x0026, cls := 0, part := part, source := 8 * 256, detail := kind + qid * 2 ^ 16 + value * 2 ^ 64 }

/-- KICK (13 R345): a new WRIDX at the queue-slot arbiter. A contained partition's doorbells are dropped (18 R448); a kick
ends IDLE (20 R487). -/
def execKick (part : Nat) (qid : Nat) (wridx : BitVec 64) (s : State) : Host.Outcome State Fault Refusal :=
  let s := if s.pwr.phase = .idle then { s with pwr := { s.pwr with phase := .on } } else s
  let v := wridx.toNat
  .next (if s.contained.contains part ∨ s.contained.contains 31 then s
    else match SMap.get none s.queues qid with
      | none => s.hostDropped part 0 qid v
      | some r =>
        if r.part ≠ part then s.hostDropped part 0 qid v
        else match s.slotOfQueue qid with
          | some n =>
            let q := s.slot n
            if v < q.wridx ∨ q.rdidx + 2 ^ q.ringLog < v then s.hostDropped r.part 1 qid v else s.setSlot n { q with wridx := v }
          | none =>
            if v < s.memNat (r.qcb + 0x18) 8 ∨ s.memNat (r.qcb + 0x10) 8 + 2 ^ s.memNat (r.qcb + 8) 1 < v then
              s.hostDropped r.part 1 qid v
            else
              let t := (s.memPut (r.qcb + 0x18) 8 v).sendAll none (r.qcb + 0x18) 8
              { t with
                queues := SMap.set none t.queues qid (some { r with since := if SMap.get false s.pendingQ qid then r.since else s.time })
                pendingQ := SMap.set false t.pendingQ qid true })

/-! ### Packets (13 R329 to R335) -/

/-- The cores of a partition's live logical numbers, on one die (13 R338, 19 R470). -/
def State.liveCores (s : State) (part die : Nat) : List Nat :=
  match SMap.get none s.parts part with
  | none => []
  | some p => (List.range 544).filterMap fun n =>
      match s.coreOfLogical n with
      | some k => if p.cores.getLsbD n ∧ dieOf k = die then some k else none
      | none => none

/-- Live cores of a partition on each die. -/
def State.liveCounts (s : State) (part : Nat) : List Nat := (List.range 4).map fun d => (s.liveCores part d).length

/-- A little-endian field of some bytes. -/
def fieldOf (bs : List Byte) (off n : Nat) : Nat := leNat ((bs.drop off).take n)

/-- Widths of the WID fields of a launch descriptor. -/
def descWidths (d : List Byte) : List Nat := (List.range (fieldOf d 0 1)).map fun i => fieldOf d (4 + i) 1

/-- QCAP of every stage. -/
def descCaps (d : List Byte) : List Nat := (List.range 8).map fun i => fieldOf d (0x24 + 16 * i) 2

/-- A launch descriptor keeps 13 R330. -/
def descOk (d : List Byte) (codeSize : Nat) : Bool :=
  let nf := fieldOf d 0 1
  let ns := fieldOf d 2 1
  decide (1 ≤ nf) && decide (nf ≤ 6) && decide (fieldOf d 1 1 < 2 ^ nf) && decide (1 ≤ ns) && decide (ns ≤ 8) && fieldOf d 3 1 == 0 &&
    (descWidths d).all (fun w => decide (1 ≤ w) && decide (w ≤ 64)) && fieldOf d (4 + nf) (6 - nf) == 0 &&
    decide ((descWidths d).foldl (· + ·) 0 ≤ 64) && fieldOf d 0x0A 6 == 0 && fieldOf d 0x14 4 == 0 &&
    fieldOf d 0x10 4 % 16 == 0 && decide (fieldOf d 0x10 4 ≤ 2097152) &&
    (List.range 8).all fun i =>
      let e := 0x20 + 16 * i
      if ns ≤ i then fieldOf d e 16 == 0
      else fieldOf d e 4 % 4 == 0 && decide (fieldOf d e 4 < codeSize) && decide (fieldOf d (e + 4) 2 ≤ 4096) &&
        fieldOf d (e + 6) 10 == 0 && (i == 0 || fieldOf d (e + 4) 2 != 0)

/-- Boundary bit of a gang-marked level: of the innermost one, or of the outermost (13 R331, R332). -/
def gangBit (widths : List Nat) (gang : Nat) (outer : Bool) : Option Nat :=
  let marked := (List.range widths.length).filter fun j => gang.testBit j
  (if outer then marked.getLast? else marked.head?).map fun j => (widths.take (j + 1)).foldl (· + ·) 0

/-- The items of a launch whose WID lies in group k at a boundary bit. -/
def gangItems (base total bit k : Nat) : Nat := min (base + total) ((k + 1) * 2 ^ bit) - max base (k * 2 ^ bit)

/-- The largest gang of a launch at a boundary bit: the first group, the one after it, or the last. -/
def largestGang (base total bit : Nat) : Nat :=
  let k := base / 2 ^ bit
  max (gangItems base total bit k) (max (gangItems base total bit (k + 1)) (gangItems base total bit ((base + total - 1) / 2 ^ bit)))

/-- What a slot makes of its next packet: consumed without effect; refused with a STATUS, with or without a completion record;
or a launch (13 R333). -/
inductive Packet where
  | noop
  | refused (status : Nat) (record : Bool)
  | launch (l : Launch)

/-- The packet's launch, or its refusal (10 R292, 13 R330 to R335, 14 R355). -/
def State.checkPacket (s : State) (q : QSlot) (p : List Byte) : Packet :=
  let f := fieldOf p
  let done := f 0x28 8
  let base := f 0x10 8
  let total := f 0x18 8
  let code := f 8 8
  if f 0 4 = 0 then .noop
  else if f 0 4 ≠ 1 then .refused 3 true
  else if !s.doneOk q.asid done then .refused 1 false
  else
    let acc := s.account q.asid
    if acc.2.1 ≠ 0 ∧ (acc.2.2 < 12 ∨ 30 < acc.2.2) then .refused 5 true
    else match s.readVa q.asid code 64 with
      | none => .refused 1 true
      | some h =>
        match s.readVa q.asid (code + fieldOf h 0x28 4) 160 with
        | none => .refused 1 true
        | some d =>
          let caps := descCaps d
          let store := 64 * caps.foldl (· + ·) 0
          let widths := descWidths d
          let qbase := f 0x20 8
          if 2 ^ 57 ≤ code ∨ fieldOf h 0 4 ≠ 0x5A434F44 ∨ total = 0 ∨ 2 ^ 48 < total ∨ f 4 4 ≠ 0 ∨ f 0x70 16 ≠ 0 ∨
              !descOk d (fieldOf h 0x1C 4) ∨ 2 ^ widths.foldl (· + ·) 0 < base + total ∨
              (0 < store ∧ (qbase % 128 ≠ 0 ∨ !s.plainWritable q.asid qbase store)) then .refused 1 true
          else
            let gang := fieldOf d 1 1
            let live := (s.liveCounts q.part).foldl (· + ·) 0
            match gangBit widths gang true with
            | some bit => if live < largestGang base total bit then .refused 2 true else mk h d widths gang
            | none => mk h d widths gang
where
  /-- The accepted launch. -/
  mk (h d : List Byte) (widths : List Nat) (gang : Nat) : Packet :=
    let f := fieldOf p
    let code := f 8 8
    .launch
      { code := code, codeOff := fieldOf h 0x18 4, dataVa := if fieldOf h 0x24 4 = 0 then 0 else code + fieldOf h 0x20 4
        widths := widths, gang := gang, footprint := fieldOf d 0x10 4, strands := BitVec.ofNat 64 (fieldOf d 0x18 8)
        stages := (List.range (fieldOf d 2 1)).map fun i =>
          { entry := fieldOf d (0x20 + 16 * i) 4, qcap := fieldOf d (0x24 + 16 * i) 2 }
        durable := fieldOf h 0x32 2 % 2 == 1
        widbase := f 0x10 8, total := f 0x18 8, qbase := f 0x20 8, done := f 0x28 8, seed := BitVec.ofNat 64 (f 0x30 8)
        args := (List.range 7).map fun i => f (0x38 + 8 * i) 8 }

/-- PACKET_FETCH (13 R333, R334): the slot's next packet starts a launch or is refused. A high-priority launch unmarks or aborts
on the dies of its partition's cores (13 R341). A ring that a translator refuses is a bad packet (log 27). -/
def execPacketFetch (slot : Nat) (s : State) : Host.Outcome State Fault Refusal :=
  let q := s.slot slot
  offered (if 64 ≤ slot ∨ q.state ≠ .bound ∨ q.launch.isSome ∨ q.wridx ≤ q.rdidx then none
    else
      let next := fun (s : State) => s.setSlot slot { q with rdidx := q.rdidx + 1 }
      match s.readCa q.asid (q.ringBase + 128 * (q.rdidx % 2 ^ q.ringLog)) 128 with
      | none => some (next s)
      | some p =>
        let high := fun (s : State) =>
          if q.prio ≠ 7 then s
          else (List.range 4).foldl (fun s d => if (s.liveCores q.part d).isEmpty then s else s.unmark d 0) s
        match s.checkPacket q p with
        | .noop => some (next s)
        | .refused status record =>
          let s := if status = 3 then s else high s
          some (next (if record then s.complete q.asid (fieldOf p 0x28 8) status 0 [] else s))
        | .launch l =>
          let l := if s.ctxState q.asid = 1 then l else l.kill
          some ((high s).setSlot slot { q with launch := some l }))

/-! ### Completion (13 R334, 18 R443, 10 R288, R298, R301) -/

/-- A core runs or is resuming an item of a slot. -/
def Core.serves (c : Core) (slot : Nat) : Bool :=
  (match c.item with | some it => it.slot == slot && !c.saved | none => false) ||
    (match c.incoming with | some it => it.slot == slot | none => false)

/-- Every item of a slot's launch has ended, its queues are empty, and its tracker entries have performed. -/
def State.launchOver (s : State) (slot : Nat) (l : Launch) : Bool :=
  decide (l.total ≤ l.started) && l.stages.all (fun q => q.count == 0 && q.suspended.isEmpty) &&
    s.cores.all fun q => !q.2.serves slot && q.2.tracker.all fun e => match e.2 with | some x => x.2 != slot | none => true

/-- The end of a context's kernel: its live counters are flushed, its PC-hash entries spilled and its matrices snapshot. -/
def State.kernelEnd (s : State) (asid : BitVec 16) : State :=
  let keys := (s.cores.filter fun q => !q.2.supervisor).map fun q => q.1
  keys.foldl (fun s k =>
    let s := s.spillWhere k 1 fun e => e.asid == asid
    if (s.core k).acct.owner = asid then (s.bankSnapshot k 0 2 0 0).flushLive k else s) s

/-- LAUNCH_COMPLETE (13 R334): the completion record, and the next packet; a killed launch's queue is emptied (18 R443). -/
def execLaunchComplete (slot : Nat) (s : State) : Host.Outcome State Fault Refusal :=
  let q := s.slot slot
  offered (match q.launch with
    | none => none
    | some l =>
      if !s.launchOver slot l then none
      else
        let s := s.complete q.asid l.done (if l.killed then 4 else 0) l.ended l.cores
        let s := if l.killed then s.killPackets q.asid q.ringBase (2 ^ q.ringLog) (q.rdidx + 1) (q.wridx - (q.rdidx + 1)) else s
        some ((s.setSlot slot { q with launch := none, rdidx := if l.killed then max q.wridx (q.rdidx + 1) else q.rdidx + 1 }).kernelEnd
          q.asid))

/-! ### Assignment (13 R336, R338 to R340) -/

/-- What the scheduler has given a core. -/
def State.assign (s : State) (key : Nat) : Assign := SMap.get {} s.assigns key
/-- Writes what the scheduler has given a core. -/
def State.setAssign (s : State) (key : Nat) (a : Assign) : State := { s with assigns := SMap.set {} s.assigns key a }

/-- Unstarted WIDs of a launch. -/
def Launch.unstarted (l : Launch) : Nat := l.total - l.started

/-- D of a stage (13 R338): records, suspended items, and for stage 0 unstarted WIDs. -/
def Launch.demand (l : Launch) (i : Nat) : Nat :=
  (match l.stages[i]? with | some q => q.count + q.suspended.length | none => 0) + if i = 0 then l.unstarted else 0

/-- The demand of a slot. -/
def QSlot.demand (q : QSlot) : Nat :=
  match q.launch with | none => 0 | some l => (List.range l.stages.length).foldl (fun a i => a + l.demand i) 0

/-- A core takes no item: it serves no logical number, is stopped or parked, its site is marked or under a pass, or the package is
RETIRED or without power (19 R474, 20 R484, R488, R490, 22 R507, R509). -/
def State.coreOut (s : State) (key : Nat) : Bool :=
  (s.core key).stopped || s.pwr.parked.contains key || s.logicalOf key == 0x3FF || s.siteDropped key || s.sec.lifecycle == .retired ||
    s.pwr.phase == .pfail || s.pwr.phase == .off ||
    (s.whorl (key / 144)).phase.site == some (key % 144)

/-- A stage holds something that a core may take outside an epoch boundary: a suspended item, a record, or a WID of a launch
without gangs (13 R340). -/
def Launch.ready (l : Launch) (i : Nat) : Bool :=
  match l.stages[i]? with
  | none => false
  | some q => !q.suspended.isEmpty || decide (0 < q.count) ||
      (i == 0 && decide (0 < l.unstarted) && (gangBit l.widths l.gang true).isNone)

/-- Cores of a die assigned to a stage of a slot, or marked to move to it: A of 13 R338. -/
def State.assigned (s : State) (die slot stage : Nat) : Nat :=
  (s.assigns.filter fun q => dieOf q.1 == die && q.2.tgt == some (slot, stage)).length

/-- The stage from which a core takes its next item (13 R339, R340): its own where it holds something; a waiting record of
its slot before a head gang; else the lowest stage that wants cores, else the lowest with demand. -/
def State.stageFor (s : State) (key slot stage : Nat) (l : Launch) : Option Nat :=
  let all := List.range l.stages.length
  if l.ready stage then some stage
  else if 0 < l.demand stage then all.find? fun i => match l.stages[i]? with | some q => decide (0 < q.count) | none => false
  else
    let t := SMap.get [] l.targets (dieOf key)
    let want := all.find? fun i => l.ready i && decide (s.assigned (dieOf key) slot i < t.getD i 0)
    want.orElse fun _ => all.find? fun i => l.ready i

/-- A partition's cores may take items: it is not being drained (18 R449). -/
def State.draining (s : State) (part : Nat) : Bool := s.resets.contains part

/-- A tile core that may take an item: it holds none, is in user mode, and its slot's launch has one for it. -/
def State.nextOf (s : State) (key : Nat) : Option (Nat × Nat × Launch) :=
  let c := s.core key
  if 576 ≤ key ∨ c.item.isSome ∨ c.incoming.isSome ∨ c.cr.sys ∨ s.coreOut key then none
  else match (s.assign key).tgt with
    | none => none
    | some (n, st) =>
      let q := s.slot n
      match q.launch with
      | none => none
      | some l => if q.state ≠ .bound ∨ s.draining q.part then none else (s.stageFor key n st l).map fun i => (n, i, l)

/-! ### Item starts (13 R335, R336) -/

/-- The strands named in STRANDS are undefined at an item's start, the others zero (13 R336). -/
def freeStrands (draw : Nat) (mask : W64) : SMap Beat :=
  ((List.range 64).filter fun z => mask.getLsbD z).foldl (fun m z => (List.range 20).foldl (fun m i =>
    let n := 20 * z + i
    SMap.set {} m n ⟨Config.freeBits draw (3 * n) 4096, Config.freeBits draw (3 * n + 1) 1024, Config.freeBits draw (3 * n + 2) 6⟩) m) []

/-- The starting state of an item on a core (13 R336). -/
def State.startState (s : State) (c : Core) (asid : BitVec 16) (l : Launch) (it : Item) : Core :=
  let same := c.cr.asid == asid
  let entry := (l.stages[it.stage]?.map Stage.entry).getD 0
  { c with
    bt := 0, pc := BitVec.ofNat 57 (l.code + l.codeOff + entry), s := SMap.set 0 [] 63 (BitVec.ofNat 64 l.dataVa)
    p := [], h := [], k := [], l := [], kn := [], sticky := [], pend := [], drives := [], flagOrs := [], mq := []
    landings := c.landings.filter fun x => x.ret.isSome
    cr := { c.cr with
      asid := asid, round := 1, flags := 0, ceiling := 10, seed := l.seed ^^^ it.wid, sys := false, halt := false
      color := BitVec.ofNat 24 (s.memNat (s.ctxEntry asid + 0x40) 4) }
    region := [], strands := freeStrands s.free it.strands
    spad := if same then c.spad else [], fe := if same then c.fe else [], mx := if same then c.mx else {}
    poison := if same then c.poison.filter fun q => match q with | .spad _ => true | _ => false else []
    ranges := s.ctxRanges asid, latch := none, repLeft := none, async := [], causeSeq := none, bar := .none, saved := false
    chargeTo := none, yieldReq := false, probed := [], recolors := [], streamFault := false, refusals := []
    item := some { it with wdogStart := s.time, started := s.time } }

/-- An item starts on a core of a slot's launch; its core enters the launch's core set (19 R475). A context that is not live
starts no item: its launch ends as killed (14 R355). -/
def State.startItem (s : State) (key slot : Nat) (l : Launch) (it : Item) : State :=
  let q := s.slot slot
  if s.ctxState q.asid ≠ 1 then s.modLaunch slot Launch.kill
  else
    let s := s.setCore key (s.startState (s.core key) q.asid l it)
    let s := { s with free := if it.strands = 0 then s.free else s.free + 1 }
    let s := s.setAssign key { cur := some (slot, it.stage), tgt := some (slot, it.stage) }
    s.modLaunch slot fun l => { l with cores := l.cores.filter (· ≠ (s.logicalOf key, key)) ++ [(s.logicalOf key, key)] }

/-- The record of a launch item: its WID and the launch arguments (07 R229). -/
def Launch.widRecord (l : Launch) (wid : Nat) : List Byte := leBytes 8 wid ++ l.args.flatMap (leBytes 8)

/-- An item of a stage's record, or of a WID. -/
def Launch.itemOf (l : Launch) (slot stage : Nat) (wid : Nat) (record : List Byte) (gang : Option Nat) : Item :=
  { wid := BitVec.ofNat 64 wid, stage := stage, slot := slot, footprint := l.footprint, strands := l.strands, record := record
    gang := gang }

/-- ITEM_START (13 R336, R339): an idle core takes the next record of its stage, or the launch's next WID. -/
def execItemStart (core : Nat) (s : State) : Host.Outcome State Fault Refusal :=
  offered (match s.nextOf core with
    | none => none
    | some (n, i, l) => match l.stages[i]? with
      | none => none
      | some q =>
        if !q.suspended.isEmpty then none
        else if 0 < q.count then
          let rec' := (s.readVa (s.slot n).asid (l.recordVa i q.head) 64).getD (List.replicate 64 0)
          let it := l.itemOf n i (leNat (rec'.take 8)) rec' none
          let s := s.modStage n i fun q => { q with head := q.head + 1, count := q.count - 1 }
          some (s.startItem core n l it)
        else
          let wid := l.widbase + l.started
          let s := s.modLaunch n fun l => { l with started := l.started + 1 }
          some (s.startItem core n l (l.itemOf n 0 wid (l.widRecord wid) none)))

/-- RESUME_ENTRY (08 R271, 13 R339): an idle core takes the first suspended item of its stage and enters the resume handler, which
is charged to the incoming context (01 R49). -/
def execResumeEntry (core : Nat) (s : State) : Host.Outcome State Fault Refusal :=
  offered (match s.nextOf core with
    | none => none
    | some (n, i, l) => match l.stages[i]?.map Stage.suspended with
      | some ((image, it) :: rest) =>
        let s := s.modStage n i fun q => { q with suspended := rest }
        let s := s.modCore core fun c => { c with
          pc := 0x2300, sticky := [], pend := [], drives := [], flagOrs := [], repLeft := none, latch := none, saved := false
          cr := { c.cr with sys := true, cause := 0x10, asid := 0, einfo := BitVec.ofNat 64 image }
          ranges := s.ctxRanges 0, async := [], yieldReq := false
          incoming := some { it with wdogStart := s.time, started := s.time }, chargeTo := some (s.slot n).asid }
        let s := s.setAssign core { cur := some (n, i), tgt := some (n, i) }
        some (s.modLaunch n fun l => { l with cores := l.cores.filter (· ≠ (s.logicalOf core, core)) ++ [(s.logicalOf core, core)] })
      | _ => none)

/-! ### Epochs (13 R338 to R340) -/

/-- The number in a list at an index. -/
def at' (l : List Nat) (i : Nat) : Nat := l.getD i 0

/-- Changes one number of a list. -/
def bump (l : List Nat) (i : Nat) (f : Nat → Nat) : List Nat := l.mapIdx fun j x => if j = i then f x else x

/-- The lowest index below n at which a measure is greatest. -/
def argMax (n : Nat) (f : Nat → Int) : Nat := (List.range n).foldl (fun b i => if f b < f i then i else b) 0

/-- Hands `k` remaining cores to the stages in an order, cycling. -/
def handOut (order : List Nat) (t : List Nat) : Nat → List Nat
  | 0 => t
  | k + 1 => match order with
    | [] => t
    | i :: rest => handOut (rest ++ [i]) (bump t i (· + 1)) k

/-- Gives every wanting stage a core while another has more than one. -/
def spread (w : List Nat) (t : List Nat) : Nat → List Nat
  | 0 => t
  | k + 1 =>
    let n := w.length
    match (List.range n).find? fun i => decide (0 < at' w i) && at' t i == 0 with
    | none => t
    | some i =>
      let r := argMax n fun j => at' t j
      if 1 < at' t r then spread w (bump (bump t r (· - 1)) i (· + 1)) k else t

/-- The stages with a positive weight by descending weight, then ascending number. -/
def byWeight (w : List Nat) : List Nat :=
  let pos := (List.range w.length).filter fun i => 0 < at' w i
  pos.foldl (fun l i => l.filter (fun j => at' w i ≤ at' w j) ++ [i] ++ l.filter (fun j => at' w j < at' w i)) []

/-- T of every stage from the weights and a share (13 R338). -/
def targetsOf (w : List Nat) (c : Nat) : List Nat :=
  let sum := w.foldl (· + ·) 0
  if c = 0 ∨ sum = 0 then w.map fun _ => 0
  else
    let t := w.map fun x => c * x / sum
    spread w (handOut (byWeight w) t (c - t.foldl (· + ·) 0)) w.length

/-- A stage is blocked on a die: a queue it pushed into during the last epoch is at least 7/8 full (13 R338). -/
def Launch.blocked (l : Launch) (die i : Nat) : Bool :=
  (SMap.get [] l.pushed die).any fun p => p.1 == i && match l.stages[p.2]? with | some q => decide (7 * q.qcap ≤ 8 * q.count) | none => false

/-- When the item of a core started; 0 for a core without one. -/
def State.startedAt (s : State) (key : Nat) : Nat := ((s.core key).item.map Item.started).getD 0
/-- A core holds an item, or is resuming one. -/
def State.busyCore (s : State) (key : Nat) : Bool := (s.core key).item.isSome || (s.core key).incoming.isSome

/-- The core of some whose item started latest; a core without an item goes first. -/
def State.latest (s : State) (l : List Nat) : Option Nat :=
  match l.find? fun k => !s.busyCore k with
  | some k => some k
  | none => l.foldl (fun b k => match b with | none => some k | some x => if s.startedAt x < s.startedAt k then some k else b) none

/-- The stage a core is given to, within a slot. -/
def State.stageOf (s : State) (slot key : Nat) : Option Nat :=
  match (s.assign key).tgt with | some (n, i) => if n = slot then some i else none | none => none

/-- A of each stage of a slot, over some cores. -/
def State.counts (s : State) (slot n : Nat) (cores : List Nat) : List Nat :=
  (List.range n).map fun i => (cores.filter fun k => s.stageOf slot k == some i).length

/-- Marks a core for a stage, or to leave. -/
def State.mark (s : State) (key : Nat) (t : Option (Nat × Nat)) : State := s.setAssign key { s.assign key with tgt := t }

/-- Cores beyond a slot's share are marked to leave it (13 R338). -/
def State.shrink (s : State) (slot n share : Nat) (t : List Nat) (cores : List Nat) : Nat → State
  | 0 => s
  | k + 1 =>
    let mine := cores.filter fun c => (s.stageOf slot c).isSome
    if mine.length ≤ share then s
    else
      let a := s.counts slot n mine
      let r := argMax n fun i => (at' a i : Int) - at' t i
      let pick := match mine.find? fun c => !s.busyCore c with
        | some c => some c
        | none => s.latest (mine.filter fun c => s.stageOf slot c == some r)
      match pick.orElse fun _ => mine.head? with
      | none => s
      | some c => (s.mark c none).shrink slot n share t cores k

/-- Free cores join a slot that is short of its share, each at the stage that wants most (log 28). -/
def State.grow (s : State) (slot n share : Nat) (t : List Nat) (cores : List Nat) : Nat → State
  | 0 => s
  | k + 1 =>
    let mine := cores.filter fun c => (s.stageOf slot c).isSome
    let free := cores.filter fun c => (s.assign c).tgt = none
    match (free.find? fun c => !s.busyCore c).orElse fun _ => free.head? with
    | none => s
    | some c =>
      if share ≤ mine.length then s
      else
        let a := s.counts slot n mine
        (s.mark c (some (slot, argMax n fun i => (at' t i : Int) - at' a i))).grow slot n share t cores k

/-- Cores move from the stages with too many to those with too few, at most max(1, C div 8) of them (13 R338). -/
def State.moveCores (s : State) (slot n : Nat) (t : List Nat) (cores : List Nat) : Nat → State
  | 0 => s
  | k + 1 =>
    let mine := cores.filter fun c => (s.stageOf slot c).isSome
    let a := s.counts slot n mine
    let above := argMax n fun i => (at' a i : Int) - at' t i
    let below := argMax n fun i => (at' t i : Int) - at' a i
    if at' a above ≤ at' t above ∨ at' t below ≤ at' a below then s
    else match s.latest (mine.filter fun c => s.stageOf slot c == some above) with
      | none => s
      | some c => (s.mark c (some (slot, below))).moveCores slot n t cores k

/-- `assign` of 13 R338 for one slot of a partition on a die: its weights, its share, and its cores. -/
def State.assignSlot (s : State) (die slot share : Nat) (cores : List Nat) : State :=
  let q := s.slot slot
  match q.launch with
  | none => s.shrink slot 1 0 [0] cores cores.length
  | some l =>
    let n := l.stages.length
    let w := (List.range n).map fun i => if l.blocked die i then 0 else l.demand i
    let t := targetsOf w share
    let s := s.shrink slot n share t cores cores.length
    let s := s.grow slot n share t cores cores.length
    let s := s.moveCores slot n t cores (max 1 (share / 8))
    s.modLaunch slot fun l => { l with targets := SMap.set [] l.targets die t, pushed := SMap.set [] l.pushed die [] }

/-- Bound slots of a partition by descending effective priority, then slot number. -/
def State.slotsOf (s : State) (part : Nat) : List Nat :=
  let l := (List.range 64).filter fun n => decide ((s.slot n).state = .bound) && (s.slot n).part == part
  (List.range 8).flatMap fun i => l.filter fun n => (s.slot n).effPrio == 7 - i

/-- The shares of a partition's slots among some cores. -/
def State.sharesOf (s : State) : List Nat → Nat → List (Nat × Nat)
  | [], _ => []
  | n :: l, f => let c := min (s.slot n).demand f; (n, c) :: s.sharesOf l (f - c)

/-- The cores of a partition on a die are shared among its slots (13 R338); a slot whose share becomes non-zero returns to its
base priority (13 R341). -/
def State.rebalancePart (s : State) (part die : Nat) : State :=
  let cores := if s.draining part then [] else (s.liveCores part die).filter fun k => !s.coreOut k
  let shares := s.sharesOf (s.slotsOf part) cores.length
  let s := shares.foldl (fun s x =>
    let q := s.slot x.1
    let q := { q with shares := SMap.set 0 q.shares die x.2 }
    s.setSlot x.1 (if x.2 = 0 then q else { q with effPrio := q.prio, age := 0 })) s
  let s := shares.foldl (fun s x => match (s.slot x.1).launch with
    | some l => s.shrink x.1 l.stages.length x.2 (targetsOf ((List.range l.stages.length).map fun i =>
        if l.blocked die i then 0 else l.demand i) x.2) cores cores.length
    | none => s) s
  shares.foldl (fun s x => s.assignSlot die x.1 x.2 cores) s

/-- Cores whose slot no longer is theirs are marked to leave it: a core that takes no item, one of a slot that is not bound, of
a partition being drained, or of another partition. -/
def State.dropStale (s : State) (die : Nat) : State :=
  (s.assigns.filter fun q => dieOf q.1 == die).foldl (fun s x => match x.2.tgt with
    | none => s
    | some (n, _) =>
      let q := s.slot n
      if s.coreOut x.1 ∨ q.state ≠ .bound ∨ s.draining q.part ∨ !(s.liveCores q.part die).contains x.1 then s.mark x.1 none else s) s

/-- A mark takes effect at once on a core without an item; the scheduler asks the others for their core at a YIELD (08 R256,
13 R339). -/
def State.settleMarks (s : State) (die : Nat) : State :=
  (s.assigns.filter fun q => dieOf q.1 == die).foldl (fun s x =>
    if s.busyCore x.1 then
      if x.2.cur = x.2.tgt then s else s.modCore x.1 fun c => { c with yieldReq := c.item.isSome }
    else s.setAssign x.1 { x.2 with cur := x.2.tgt }) s

/-- The items of one gang start together on some cores (13 R332, R340): the innermost marked level's gang is what BAR uses. -/
def State.startGang (s : State) (slot : Nat) (l : Launch) (inner : Nat) : List Nat → State
  | [] => s
  | k :: rest =>
    match (s.slot slot).launch with
    | none => s
    | some cur =>
      let wid := cur.widbase + cur.started
      let high := wid / 2 ^ inner
      let known := s.gangs.find? fun q => match q.2 with | some (g : Gang) => g.slot == slot && g.high == high | none => false
      let id := match known with | some q => q.1 | none => (findBelow (fun i => (SMap.get none s.gangs i).isNone) 1024).getD 0
      let s := match known with
        | some _ => s
        | none => { s with gangs := SMap.set none s.gangs id (some
            { slot := slot, high := high, size := gangItems l.widbase l.total inner high }) }
      let s := s.modLaunch slot fun l => { l with started := l.started + 1 }
      (s.startItem k slot l (l.itemOf slot 0 wid (l.widRecord wid) (some id))).startGang slot l inner rest

/-- The head gang of a slot's stage 0 starts once as many held cores wait for it as it has members: on one die where it fits on
every die's live cores, else over the dies (13 R332, R340). -/
def State.headGang (s : State) (die slot : Nat) : State :=
  let q := s.slot slot
  match q.launch with
  | none => s
  | some l =>
    match gangBit l.widths l.gang true, gangBit l.widths l.gang false with
    | some outer, some inner =>
      if l.unstarted = 0 ∨ s.draining q.part then s
      else
        let wid := l.widbase + l.started
        let size := gangItems wid l.unstarted outer (wid / 2 ^ outer)
        let one := (s.liveCounts q.part).all fun n => decide (size ≤ n)
        let held := (s.assigns.filter fun x => (!one || dieOf x.1 == die) && x.2.tgt == some (slot, 0) && !s.busyCore x.1 &&
          !(s.core x.1).cr.sys && !s.coreOut x.1).map fun x => x.1
        if held.length < size then s else s.startGang slot l inner (held.take size)
    | _, _ => s

/-- REBALANCE (13 R338 to R340): an epoch boundary of a die's stage scheduler. -/
def execRebalance (die : Nat) (s : State) : Host.Outcome State Fault Refusal :=
  offered (if 4 ≤ die then none
    else
      let s := (s.readMark die).dropStale die
      let s := ((List.range 16).filter fun p => (SMap.get none s.parts p).isSome).foldl (fun s p => s.rebalancePart p die) s
      let s := s.settleMarks die
      some ((List.range 64).foldl (fun s n => if (s.slot n).state = .bound then s.headGang die n else s) s))

/-! ### Ageing (13 R341) -/

/-- AGEING (13 R341): one epoch of a bound slot with demand and no share; after AGEINT of them its effective priority rises. -/
def execAgeing (slot : Nat) (s : State) : Host.Outcome State Fault Refusal :=
  let q := s.slot slot
  offered (if 64 ≤ slot ∨ q.state ≠ .bound then none
    else
      let interval := if q.ageInt = 0 then 256 else q.ageInt
      let waits := q.demand ≠ 0 ∧ q.shares = []
      let q' := { q with shares := [] }
      some (s.setSlot slot (if !waits then q'
        else if q.age + 1 < interval then { q' with age := q.age + 1 }
        else { q' with age := 0, effPrio := min 7 (q.effPrio + 1) })))

/-! ### Watchdogs and partition resets (13 R342, 18 R449) -/

/-- WATCHDOG_EXPIRE (13 R342, 18 R449): an item's timer reaches its slot's period. WATCHDOG is logged and pends at the item's
core; the partition's other items are pre-empted. A halted core's timer is stopped (10 R309). -/
def execWatchdogExpire (core : Nat) (s : State) : Host.Outcome State Fault Refusal :=
  let c := s.core core
  offered (match c.item with
    | none => none
    | some it =>
      let q := s.slot it.slot
      if c.cr.halt ∨ c.saved ∨ q.state ≠ .bound ∨ c.async.any (fun a => a.cause == 0x11) then none
      else
        let s := { s with time := max s.time (it.wdogStart + 1000 * (if q.wdog = 0 then 50000 else q.wdog)) }
        let seq := s.logSeq
        let s := s.logAppend { code := 0x0030, cls := 2, part := q.part, asid := q.asid.toNat, source := 8 * 256 + it.slot
                               wid := it.wid.toNat, detail := it.slot + it.yields * 2 ^ 64 }
        let s := s.modCore core fun c => { c.raiseAsync 0x11 (BitVec.ofNat 64 it.slot) with causeSeq := some seq }
        let s := { s with resets := s.resets.filter (· ≠ q.part) ++ [q.part] }
        let others := (List.range 4).flatMap fun d => (s.liveCores q.part d).filter fun k =>
          match (s.core k).item.orElse fun _ => (s.core k).incoming with
          | some x => (s.slot x.slot).asid != q.asid
          | none => false
        some (others.foldl (fun s k => s.modCore k fun c => c.raiseAsync 0x10 0) s))

/-- PARTITION_RESET (18 R449 steps 3 to 5): the drained partition's cores are reset and its slots resume. -/
def execPartitionReset (part : Nat) (s : State) : Host.Outcome State Fault Refusal :=
  let cores := (List.range 4).flatMap fun d => s.liveCores part d
  let empty := fun (k : Nat) =>
    let c := s.core k
    c.item.isNone && c.incoming.isNone && !c.cr.sys && c.copies.isEmpty && c.tracker.all fun q => q.2.isNone
  offered (if !s.draining part ∨ !cores.all empty then none
    else
      let s := cores.foldl (fun s k => s.modCore k fun c => c.stateReset k) s
      let s := s.logAppend { code := 0x0032, cls := 2, part := part, source := sourceOf 576 }
      some { s with resets := s.resets.filter (· ≠ part) })

/-- RANGE_RELOAD (14 R356): the cores of a context load its range registers. -/
def execRangeReload (asid : Nat) (s : State) : Host.Outcome State Fault Refusal :=
  let a := BitVec.ofNat 16 asid
  let r := s.ctxRanges a
  .next ((s.coresOf a).foldl (fun s k => s.modCore k fun c => { c with ranges := r }) s)

end Sys2Proof.Machine
end

