-- ==== Sys2Proof/Machine/Mailbox.lean ====
section
/-! DEFINITION. The host mailboxes: REQ and RING, the requests in the order of their RING writes, and responses (13 R346 to R348). -/

namespace Sys2Proof.Machine

/-- A mailbox: 0 to 15 those of the partitions, 16 the management one. -/
def State.mailbox (s : State) (mb : Nat) : Mailbox := SMap.get {} s.host.mailboxes mb
/-- Writes a mailbox. -/
def State.setMailbox (s : State) (mb : Nat) (m : Mailbox) : State :=
  { s with host := { s.host with mailboxes := SMap.set {} s.host.mailboxes mb m } }
/-- The function of a mailbox: its partition, 31 for the upstream one. -/
def functionOf (mb : Nat) : Nat := if mb = 16 then 31 else mb

/-- A word of a request taken: 0 CODE and TAG, then W1 to W7. -/
def Mailbox.word (m : Mailbox) (i : Nat) : W64 := SMap.get 0 m.taken i
/-- CODE of a request. -/
def Mailbox.code (m : Mailbox) : Nat := ((m.word 0).extractLsb' 0 32).toNat

/-- Outcomes of 13 R348. -/
def outOk : Nat := 0
/-- 13 R348 -/
def outBadRequest : Nat := 0x20
/-- 13 R348 -/
def outNotPermitted : Nat := 0x21
/-- 13 R348 -/
def outNoResource : Nat := 0x22
/-- 13 R348 -/
def outBadSignature : Nat := 0x23
/-- 13 R348 -/
def outBusy : Nat := 0x24

/-- Which mailboxes take a code, 0 the partitions', 1 the management one, 2 both, and how many operands it lists (13 R348). -/
def requestShape (code : Nat) : Option (Nat × Nat) :=
  match code with
  | 0x01 => some (0, 5) | 0x02 => some (0, 1) | 0x03 => some (0, 1) | 0x04 => some (0, 6) | 0x05 => some (0, 5)
  | 0x06 => some (0, 3) | 0x08 => some (0, 2) | 0x09 => some (0, 1) | 0x10 => some (0, 2) | 0x11 => some (0, 2)
  | 0x12 => some (0, 4) | 0x13 => some (0, 2) | 0x14 => some (0, 2) | 0x15 => some (0, 2) | 0x18 => some (0, 1)
  | 0x19 => some (0, 1) | 0x1A => some (0, 1) | 0x1B => some (0, 2) | 0x1C => some (0, 2) | 0x20 => some (0, 6)
  | 0x21 => some (0, 4) | 0x22 => some (0, 3) | 0x23 => some (0, 3) | 0x28 => some (2, 2) | 0x30 => some (2, 5)
  | 0x31 => some (2, 0) | 0x32 => some (2, 1) | 0x33 => some (2, 1) | 0x40 => some (1, 2) | 0x41 => some (1, 2)
  | 0x42 => some (1, 1) | 0x43 => some (1, 3) | 0x44 => some (1, 1) | 0x45 => some (1, 3) | 0x46 => some (1, 3)
  | 0x47 => some (1, 4) | 0x48 => some (1, 1) | 0x49 => some (1, 1) | 0x4A => some (1, 1) | 0x4B => some (1, 1)
  | _ => none

/-- A request has a code of its mailbox, and zeros where it lists no operand. -/
def requestOk (mb : Nat) (m : Mailbox) : Bool :=
  match requestShape m.code with
  | none => false
  | some (k, n) => (k == 2 || (k == 1) == (mb == 16)) && (List.range 7).all fun i => decide (i < n) || m.word (i + 1) == 0

/-- Writes a response: TAG and OUTCOME, V1 to V7, DONE; BUSY is clear and MSI-X vector 0 is signalled (13 R347). -/
def State.putResponse (s : State) (mb outcome : Nat) (vals : List W64) : State :=
  let m := s.mailbox mb
  let head : W64 := BitVec.ofNat 32 outcome ++ (m.word 0).extractLsb' 32 32
  let s := s.setMailbox mb { m with busy := false, done := true, resp := SMap.entries 0 0 (head :: (vals ++ List.replicate (7 - vals.length) 0)) }
  { s with host := { s.host with msix := s.host.msix ++ [(functionOf mb, 0)] } }

/-- Requests at the head of the queue that no code or operand admits are answered BAD_REQUEST. -/
def State.rejectBad (s : State) : Nat → State
  | 0 => s
  | n + 1 => match s.host.queue with
    | [] => s
    | mb :: l =>
      if requestOk mb (s.mailbox mb) then s
      else (({ s with host := { s.host with queue := l } }).putResponse mb outBadRequest []).rejectBad n

/-- The response to a mailbox's request; the next request comes to the head. -/
def State.respond (s : State) (mb outcome : Nat) (vals : List W64) : State :=
  let s := s.putResponse mb outcome vals
  let s := { s with host := { s.host with queue := s.host.queue.filter (· ≠ mb) } }
  s.rejectBad (s.host.queue.length + 1)

/-- The mailbox whose request is at the head of the queue, if the request has a code. The package answers nothing while the
upstream port is contained (18 R448). -/
def State.headRequest (s : State) (code : Nat) : Option (Nat × Mailbox) :=
  match s.host.queue with
  | [] => none
  | mb :: _ => if (s.mailbox mb).code = code ∧ !s.contained.contains 31 then some (mb, s.mailbox mb) else none

/-- What serving a request comes to: an answer, or a wait. -/
inductive Served where
  | answer (outcome : Nat) (vals : List W64) (s : State)
  | wait (s : State)

/-- Serves the request at the head: `f` gets the mailbox and the operands. In RETIRED the package answers attestation and
wear-log reads only (20 R490). -/
def State.serveRequest (s : State) (code : Nat) (f : Nat → (Nat → W64) → State → Served) : Host.Outcome State Fault Refusal :=
  match s.headRequest code with
  | none => .refused .notEnabled
  | some (mb, m) =>
    if s.sec.lifecycle = .retired ∧ code ≠ 0x30 ∧ code ≠ 0x43 then .next (s.respond mb outNotPermitted [])
    else match f mb m.word s with
      | .answer o v s => .next (s.respond mb o v)
      | .wait s => .next s

/-- Serves a request of which one operand says the form. -/
def State.serveForm (s : State) (code i : Nat) (form : W64 → Bool) (f : Nat → (Nat → W64) → State → Served) :
    Host.Outcome State Fault Refusal :=
  match s.headRequest code with
  | none => .refused .notEnabled
  | some (_, m) => if form (m.word i) then s.serveRequest code f else .refused .notEnabled

/-- A request of a mailbox goes on to its next phase. -/
def State.setPhase (s : State) (mb n : Nat) : State := s.setMailbox mb { s.mailbox mb with phase := n }

/-- An answer that leaves the state as it is. -/
def Served.refuse (s : State) (outcome : Nat) : Served := .answer outcome [] s

/-- An ASID operand: outside 1 to 1,023 or not in use BAD_REQUEST; of another partition NOT_PERMITTED (13 R348). -/
def State.ownContext (s : State) (mb : Nat) (w : W64) : Except Nat (BitVec 16) :=
  let asid := w.extractLsb' 0 16
  if w.toNat = 0 ∨ 1023 < w.toNat ∨ s.ctxState asid = 0 then .error outBadRequest
  else if s.ctxPart asid ≠ mb then .error outNotPermitted else .ok asid

/-- Serves a request that names a context. -/
def State.withContext (s : State) (mb : Nat) (w : W64) (f : BitVec 16 → Served) : Served :=
  match s.ownContext mb w with
  | .error e => .refuse s e
  | .ok a => f a

/-- MAILBOX_RING (13 R347): a write of 1 submits REQ; other values are dropped; a write while BUSY is dropped and logged. -/
def execMailboxRing (mb : Nat) (value : BitVec 32) (s : State) : Host.Outcome State Fault Refusal :=
  let m := s.mailbox mb
  offered (if 16 < mb then none
    else if m.busy then some (s.hostDropped (functionOf mb) 4 0 value.toNat)
    else if value ≠ 1 then some s
    else
      let s := s.setMailbox mb { m with taken := m.req, busy := true, done := false, phase := 0 }
      let s := { s with host := { s.host with queue := s.host.queue ++ [mb] } }
      some (s.rejectBad (s.host.queue.length + 1)))

/-- REGISTER_WRITE: a register that only holds a value takes it: a base that firmware sets (20 R498), or a word of REQ. -/
def execRegisterWrite (reg : PkgReg) (value : W64) (s : State) : Host.Outcome State Fault Refusal :=
  .next (match reg with
    | .ctxBase => { s with bases := { s.bases with ctx := value.toNat } }
    | .hcbBase => { s with bases := { s.bases with hcb := value.toNat } }
    | .lcmapBase => { s with bases := { s.bases with lcmap := value.toNat } }
    | .logBase => { s with bases := { s.bases with log := value.toNat } }
    | .whorlBase => { s with bases := { s.bases with whorl := value.toNat } }
    | .mailboxReq mb word => s.setMailbox mb { s.mailbox mb with req := SMap.set 0 (s.mailbox mb).req word value })

end Sys2Proof.Machine
end

