-- ==== Sys2Proof/Machine/Errors.lean ====
section
/-! DEFINITION. Errors, kills and the observers of a core: ECC, poison, containment, supervisors' start, accounting latches, flushes,
capture packets and shootdowns (01 R26, R52, 10 R288 to R306, R312, 18 R437 to R448). -/

namespace Sys2Proof.Machine

/-! ### Errors (01 R26, 18 R437, R445, R446) -/

/-- A correctable error is counted, and logged at most once per unit and millisecond with the count since the last record (18 R437,
R439). -/
def State.logCorr (s : State) (unit code part source index : Nat) : State :=
  let q := SMap.get (0, 0) s.corr unit
  if s.time < q.2 then { s with corr := SMap.set (0, 0) s.corr unit (q.1 + 1, q.2) }
  else
    { s with corr := SMap.set (0, 0) s.corr unit (0, s.time + 1000000) }.logAppend
      { code := code, cls := 1, part := part, source := source, detail := min (2 ^ 32 - 1) (q.1 + 1) + index * 2 ^ 32 }

/-- ECC_CORR (01 R26): a correctable error in one of a core's memories, numbered as the wear log's counters are. The core
freezes for 16 cycles from the detection. -/
def execEccCorr (core : Nat) (counter : Nat) (s : State) : Host.Outcome State Fault Refusal :=
  offered (if 580 ≤ core ∨ 6 ≤ counter then none
    else
      let s := s.modCore core fun c => { c with ecc := 16 }
      let s := if core < 576 then s.wearAdd (wearSite core + 8 * counter) 8 1 else s
      some (s.logCorr core 0x0001 (if core < 576 then s.ctxPart (s.core core).cr.asid else 31) (sourceOf core) counter))

/-- ECC_FREEZE_END (01 R26): the cycles left of an ECC freeze pass. -/
def execEccFreezeEnd (core : Nat) (s : State) : Host.Outcome State Fault Refusal :=
  offered (if (s.core core).ecc = 0 then none else some (s.freezeCycles core acctEcc (s.core core).ecc))

/-- The mask of a poisoned granule's place in its line (18 R439). -/
def granuleMask (a : Nat) : Nat := 2 ^ (a / 16 % 8)

/-- The data in a landing slot are poisoned. -/
def Landing.spoil (l : Landing) : Landing :=
  match l.state with
  | .arrived v _ => { l with state := .arrived v true }
  | .replied v _ => { l with state := .replied v true }
  | _ => l

/-- ONCHIP_UE (18 R445, R446): the word is poisoned in place and logged. A granule of package memory that is uncorrectable is
logged as POISON_EVICT; its chip address and partition are not the manual's to name from a physical address (log 29). In a
supervisor core the error is SUPERVISOR_FAULT (18 R437). -/
def execOnchipUe (core : Nat) (place : UePlace) (s : State) : Host.Outcome State Fault Refusal :=
  let c := s.core core
  let log := fun (s : State) (mask : Nat) => s.logAppend
    { code := 0x0013, cls := 2, part := s.ctxPart c.cr.asid, asid := c.cr.asid.toNat, source := sourceOf core
      wid := (c.item.map fun i => i.wid.toNat).getD 0, detail := mask }
  let mark := fun (s : State) (q : UePlace) => s.modCore core fun c => { c with poison := q :: c.poison.filter (· ≠ q) }
  offered (match place with
    | .mem pa =>
      some (({ s.setPoison (.mem pa) true with free := s.free + 1 }).logAppend
        { code := 0x0010, cls := 2, part := (Config.freeBits s.free 1 4).toNat, source := 256
          addr := (Config.freeBits s.free 0 45).toNat * 128, detail := granuleMask pa })
    | q =>
      if 580 ≤ core then none
      else if 576 ≤ core then some (s.supervisorFault core 0x21 0 c.pc)
      else match q with
        | .landing i => some (log (s.modCore core fun c => { c with
            landings := c.landings.mapIdx fun j l => if j = i then l.spoil else l }) 0)
        | .spad a => some (log (mark s (.spad (a / 16 * 16))) (granuleMask a))
        | q => some (log (mark s q) 0))

/-- SYSTEM_UE (18 R446, R448): system memory is uncorrectable: fatal, of the whole package. -/
def execSystemUe (ca : Nat) (mask : BitVec 8) (s : State) : Host.Outcome State Fault Refusal :=
  let line := ca / 128 * 128
  let a := BitVec.ofNat 52 ca
  let source := s.homeDie a * 16384 + 256 + (homeSlice a).toNat
  let s := (List.range 8).foldl (fun s i => if mask.getLsbD i then s.setPoison (.mem (line + 16 * i)) true else s) s
  let seq := s.logSeq
  let s := s.logAppend { code := 0x0014, cls := 3, source := source, addr := line, detail := mask.toNat }
  .next (s.contain 31 source seq)

/-- What the creel has recorded by now (19 R462, R471, 20 R498): it records each change at once (log 37). -/
def State.recorded (s : State) : Creel :=
  if !s.booted then s.creel
  else
    { s.creel with
      timing := (s.cores.filter fun q => q.2.timing ≠ []).map fun q => (q.1, q.2.timing)
      slotmaps := (s.cores.filter fun q => q.2.cr.slotmap ≠ (coreDefault q.1).cr.slotmap).map fun q => (q.1, q.2.cr.slotmap)
      failed := (s.segments.filter fun q => segState q.2 == 3).map fun q => q.1
      lcmap := (List.range 544).map fun n => (((s.lcmapEntry n).extractLsb' 8 2).toNat, ((s.lcmapEntry n).extractLsb' 0 8).toNat)
      sites := s.sites }

/-- Package reset: everything but the creel and the fuses is as after reset. The host and what is pending lie outside; board flash
keeps its image (18 R448, 20 R497). -/
def State.packageReset (s : State) : State :=
  { State.reset with
    creel := s.recorded, hostMem := s.hostMem, agenda := s.agenda, free := s.free
    sec := { lifecycle := s.sec.lifecycle, ownerKey := s.sec.ownerKey, ownerSeed := s.sec.ownerSeed, revoked := s.sec.revoked
             flash := s.sec.flash } }

/-- DPC_RELEASE (18 R448): the host releases a containment and firmware reinitialises the partition's function; that of the
upstream port ends with the link's hot reset, which resets the package except for the creel and the fuses. -/
def execDpcRelease (part : Nat) (s : State) : Host.Outcome State Fault Refusal :=
  offered (if !s.contained.contains part then none
    else if part = 31 then
      some s.packageReset
    else
      let h := s.host
      some { s with
        contained := s.contained.filter (· ≠ part)
        host := { h with
          mailboxes := SMap.set {} h.mailboxes part {}, queue := h.queue.filter (· ≠ part)
          grants := h.grants.filter fun g => g.part ≠ part, revokes := h.revokes.filter fun r => r.part ≠ part } })

/-- CONTEXT_KILL (08 R261, 18 R443, R444): a supervisor delivers a reason to a tile core that runs an item. -/
def execContextKill (core : Nat) (reason : BitVec 8) (s : State) : Host.Outcome State Fault Refusal :=
  offered (if 576 ≤ core ∨ reason = 0 ∨ 9 < reason.toNat ∨ (s.core core).item.isNone then none
    else some (s.modCore core fun c => c.raiseAsync 0x22 (reason.zeroExtend 64)))

/-! ### Supervisors (01 R52) -/

/-- SUPSTART (01 R52): the D0 supervisor releases a stopped supervisor core at a PC; a running one refuses the write. -/
def execSupstart (die : Nat) (pc : BitVec 64) (s : State) : Host.Outcome State Fault Refusal :=
  offered (if 4 ≤ die ∨ (s.core 576).stopped then none
    else if !(s.core (576 + die)).stopped then some s
    else some (s.modCore (576 + die) fun c => { c with stopped := false, pc := pc.extractLsb' 0 57 }))

/-! ### Accounts (10 R288 to R306) -/

/-- ACCOUNT_LATCH (10 R290): the live counters, CYCLE and ASID are latched. A flush's adds perform with the flush, so that PENDING
is 0. -/
def execAccountLatch (core : Nat) (s : State) : Host.Outcome State Fault Refusal :=
  offered (if 576 ≤ core then none
    else some (s.modCore core fun c => { c with acct := { c.acct with
      latchCounts := c.acct.live, latchCycle := c.cycle, latchAsid := c.acct.owner, latchPending := false } }))

/-- SUPERVISOR_FLUSH (10 R288, R298, R301) -/
def execSupervisorFlush (core : Nat) (s : State) : Host.Outcome State Fault Refusal :=
  offered (if 576 ≤ core then none
    else some (((s.spillWhere core 3 fun _ => true).bankSnapshot core 0 3 0 0).flushLive core))

/-- The record of a capture slot (10 R305). -/
def State.captureRecord (s : State) (key slot : Nat) (aborted : Bool) : State :=
  let c := s.core key
  let q := SMap.get {} c.acct.captures slot
  s.ringRecord q.asid
    (leBytes 8 (ringWord 3 6 (s.logicalOf key) (slot * 2 ^ 40 + (if aborted then 2 ^ 39 else 0) + q.asid.toNat * 2 ^ 23)) ++
      leBytes 8 q.window.toNat ++ leBytes 8 q.start.toNat ++ leBytes 8 c.cycle.toNat ++ leBytes 8 q.switched.toNat ++
      leBytes 8 q.regionStart.toNat ++ leBytes 8 c.crRegion.toNat ++ leBytes 8 0 ++
      (List.range 16).flatMap fun i => leBytes 8 (SMap.get 0 q.counts i).toNat) 0

/-- The packets of a core from the first that starts or stops a window; the others are ignored (10 R303). -/
def Core.capturePackets (c : Core) : List CapturePacket := c.acct.packets.dropWhile fun p => 2 ≤ p.kind.toNat

/-- Takes a packet off a core. -/
def Core.takePacket (c : Core) : Core := { c with acct := { c.acct with packets := c.capturePackets.drop 1 } }

/-- Writes a capture slot. -/
def Core.setCapture (c : Core) (slot : Nat) (q : Capture) : Core :=
  { c with acct := { c.acct with captures := SMap.set {} c.acct.captures slot q } }

/-- CAPTURE_START (10 R304): a busy slot's window ends aborted; the slot starts afresh. -/
def execCaptureStart (core : Nat) (s : State) : Host.Outcome State Fault Refusal :=
  offered (match (s.core core).capturePackets with
    | p :: _ =>
      if p.kind ≠ 0 then none
      else
        let n := p.slot.toNat
        let s := if (SMap.get {} (s.core core).acct.captures n).busy then s.captureRecord core n true else s
        some (s.modCore core fun c => c.takePacket.setCapture n
          { busy := true, window := p.window, asid := p.asid, start := c.cycle, regionStart := c.crRegion })
    | [] => none)

/-- CAPTURE_STOP (10 R304): a busy slot's record is written and the slot is idle; on an idle slot the packet has no effect. -/
def execCaptureStop (core : Nat) (s : State) : Host.Outcome State Fault Refusal :=
  offered (match (s.core core).capturePackets with
    | p :: _ =>
      if p.kind ≠ 1 then none
      else
        let n := p.slot.toNat
        let s := if (SMap.get {} (s.core core).acct.captures n).busy then s.captureRecord core n false else s
        some (s.modCore core fun c => c.takePacket.setCapture n {})
    | [] => none)

/-! ### Shootdowns (10 R311, R312, 17 R427) -/

/-- The bundle that a core still has to repeat lies in a line, so that it cannot acknowledge the line's shootdown (10 R312). -/
def State.holdsLine (s : State) (key line : Nat) : Bool :=
  let c := s.fetchCore key
  c.repLeft.isSome &&
    [c.pc, c.pc + 51].any fun va => match c.rangeOf va .x with | .ok t => t.ca.toNat / 128 == line | .error _ => false

/-- The request of a patch is answered with how many cores have acknowledged (13 R348); a stub's has no request. -/
def State.answerPatch (s : State) (p : Patch) (n : Nat) : State :=
  match p.mb with | some mb => s.respond mb outOk [BitVec.ofNat 64 n] | none => s

/-- A core has acknowledged a line: a patch that waits for no further core is answered with the number of cores (13 R348). -/
def State.acknowledge (s : State) (key line : Nat) : State :=
  let l := s.patches.map fun (p : Patch) => if p.line = line then { p with waiting := p.waiting.filter (· ≠ key) } else p
  let acked := l.filter fun p => p.waiting = []
  acked.foldl (fun s p => s.answerPatch p p.sentTo) { s with patches := l.filter fun p => p.waiting ≠ [] }

/-- SHOOTDOWN (10 R312): a core drops a line from its instruction cache and acknowledges, once no bundle fetched from the old
line remains to issue. -/
def execShootdown (core : Nat) (s : State) : Host.Outcome State Fault Refusal :=
  offered (match (s.core core).hooks.shootdowns with
    | [] => none
    | line :: rest =>
      if s.holdsLine core line then none
      else some ((s.modCore core fun c => { c with
        icache := c.icache.filter fun q => q.1 % 2 ^ 45 ≠ line, hooks := { c.hooks with shootdowns := rest } }).acknowledge core line))

/-- PATCH_ACK_TIMEOUT (10 R312): 1 ms after a shootdown the supervisor answers with the cores that have acknowledged. -/
def execPatchAckTimeout (s : State) : Host.Outcome State Fault Refusal :=
  offered (match s.patches with
    | [] => none
    | p :: rest =>
      let s := { s with time := max s.time (p.sent + 1000000), patches := rest }
      some (s.answerPatch p (p.sentTo - p.waiting.length)))

end Sys2Proof.Machine
end

