-- ==== Sys2Proof/Machine/LinkEvents.lean ====
section
/-! DEFINITION. The scale-out engine at work: flits received, control messages, requests of other packages and the responses to
this one's, timeouts, heartbeats and probes (07 R228, R233, 14 R363, 18 R450 to R459). -/

namespace Sys2Proof.Machine

/-! ### Flits (18 R454, R455) -/

/-- One bit of CRC-32: the bit enters the reflected register. -/
def crcBit (c : BitVec 32) (b : Bool) : BitVec 32 :=
  let x := c >>> 1
  if c.getLsbD 0 ^^ b then x ^^^ 0xEDB88320 else x

/-- CRC-32 over `n` bits of a number, bit 0 first. -/
def crcBits (c : BitVec 32) (x : Nat) : Nat → BitVec 32
  | 0 => c
  | n + 1 => crcBits (crcBit c (x % 2 == 1)) (x / 2) n

/-- The IEEE 802.3 frame check sequence of bytes 0 to 251 of a flit. -/
def flitCrc (f : Flit) : BitVec 32 := ~~~ crcBits 0xFFFFFFFF (f.toNat % 2 ^ 2016) 2016

/-- Unit `i` of a flit's payload. -/
def flitPayload (f : Flit) (i : Nat) : BitVec 128 := f.extractLsb' (128 + 128 * i) 128

/-- INIT of this package on a port: its identifier, or UNSET, and the credits it grants (18 R455, R457, R459). -/
def Link.initUnit (k : Link) (port : Nat) : BitVec 128 :=
  let c := fun (ch least : Nat) => BitVec.ofNat 16 (min 65535 (least + Config.extraCredit port ch))
  (0 : BitVec 16) ++ c 2 64 ++ c 1 1024 ++ c 0 1024 ++ (0 : BitVec 7) ++ BitVec.ofBool k.devId.isNone ++ (0 : BitVec 4) ++
    k.devId.getD 0 ++ (0 : BitVec 24) ++ (1 : BitVec 8)

/-- NAK with the expected SEQ. -/
def nakUnit (seq : Nat) : BitVec 128 := BitVec.ofNat 128 (2 + 2 ^ 32 * seq)

/-- Drops the flits of a replay buffer up to the acknowledged one, if it is there. -/
def ackReplay (l : List (Nat × Msg)) (seq : Nat) : List (Nat × Msg) :=
  match l.findIdx? fun q => q.1 == seq with | some i => l.drop (i + 1) | none => l

/-- Takes the acknowledgement and the credits of a flit, and sends what they allow. -/
def Port.credit (p : Port) (f : Flit) (now : Nat) : Port :=
  let p := if f.getLsbD 47 then
      { p with replay := ackReplay p.replay (f.extractLsb' 32 12).toNat, since := now }
    else p
  let give := fun (m : SMap Nat) (ch : Nat) => SMap.set 0 m ch (SMap.get 0 m ch + (f.extractLsb' (48 + 16 * ch) 16).toNat)
  { p with credits := [0, 1, 2].foldl give p.credits }.pump (p.waiting.length + 1)

/-- PCS_LOCK (18 R454): the port locks and sends INIT among its idle flits. A port that is down locks by its retraining. -/
def execPcsLock (port : Nat) (s : State) : Host.Outcome State Fault Refusal :=
  let p := s.link.port port
  offered (if 17 < port ∨ p.locked ∨ p.down then none
    else some { s with link := s.link.setPort port { p with locked := true, control := some (s.link.initUnit port) } })

/-- FLIT (18 R455). A flit whose CRC is bad, and a data flit out of order, are discarded, and NAK carries the expected SEQ. A
package without an identifier takes no data flit (18 R459); a flit or control message of a reserved type carries nothing (log
31). -/
def execFlit (port : Nat) (f : Flit) (s : State) : Host.Outcome State Fault Refusal :=
  let p := s.link.port port
  let typ := f.extractLsb' 0 8
  let nak := fun (p : Port) => { p with control := some (nakUnit p.rxSeq) }
  let put := fun (p : Port) => { s with link := s.link.setPort port p }
  offered (if 17 < port ∨ !p.locked then none
    else if flitCrc f ≠ f.extractLsb' 2016 32 then some (put (nak p))
    else if 2 < typ.toNat then some s
    else
      let p := p.credit f s.time
      if typ = 0 then some (put p)
      else if typ = 2 then
        let unit := flitPayload f 0
        let kind := (unit.extractLsb' 0 8).toNat
        let s := put p
        some (if 1 ≤ kind ∧ kind ≤ 3 then { s with link := { s.link with controls := s.link.controls ++ [(port, unit)] } } else s)
      else if s.link.devId.isNone then some (put p)
      else if (f.extractLsb' 16 12).toNat ≠ p.rxSeq then some (put (nak p))
      else
        let units := p.rxUnits ++ (List.range 14).map (flitPayload f)
        let r := takeMessages (units.length + 1) units
        let s := put { p with rxSeq := (p.rxSeq + 1) % 4096, rxUnits := r.2 }
        some { s with link := { s.link with inbox := s.link.inbox ++ r.1.map fun m => (port, m) } })

/-! ### Control messages (18 R455) -/

/-- The control message at the head of the queue, if it is of a kind: its port, the message and the state without it. -/
def State.takeControl (s : State) (kind : Nat) : Option (Nat × BitVec 128 × State) :=
  match s.link.controls with
  | [] => none
  | (port, u) :: l =>
    if (u.extractLsb' 0 8).toNat = kind then some (port, u, { s with link := { s.link with controls := l } }) else none

/-- INIT: the peer's identifier and the credits it grants. -/
def execInit (s : State) : Host.Outcome State Fault Refusal :=
  offered ((s.takeControl 1).map fun q =>
    let s := q.2.2
    let u := q.2.1
    let p := s.link.port q.1
    let credits := SMap.entries 0 0 ((List.range 3).map fun ch => (u.extractLsb' (64 + 16 * ch) 16).toNat)
    let p := { p with peer := some (u.extractLsb' 32 20, u.getLsbD 56), credits := credits }
    { s with link := s.link.setPort q.1 (p.pump (p.waiting.length + 1)) })

/-- NAK: the transmitter resends from the expected SEQ, in order; each resend counts one LINK_REPLAY (18 R437, 19 R479). -/
def execNak (s : State) : Host.Outcome State Fault Refusal :=
  offered ((s.takeControl 2).map fun q =>
    let s := q.2.2
    let seq := (q.2.1.extractLsb' 32 12).toNat
    if (s.link.port q.1).replay.any fun r => r.1 == seq then
      (s.wearAdd (wearPort q.1 + 4) 4 1).logCorr (600 + q.1) 0x0003 31 (4 * 256 + q.1) 0
    else s)

/-- RETRAIN: it is taken from the peer; the manual gives it no further effect here (log 31). -/
def execRetrain (s : State) : Host.Outcome State Fault Refusal :=
  offered ((s.takeControl 3).map fun q => q.2.2)

/-! ### Requests of other packages (14 R363, 18 R456, R459) -/

/-- Poison of a line's granules, one bit each. -/
def State.piecePoison (s : State) (ps : List Piece) : BitVec 8 :=
  BitVec.ofNat 8 ((List.range 8).foldl (fun a i =>
    match ps[i]? with | some p => if s.placePoison p.place then a + 2 ^ i else a | none => a) 0)

/-- Takes a request, checks the sender, translates its address in RASID's page tables and hands the places to its meaning; a
refusal is answered with ERROR. None where a line is held. -/
def State.farRequest (s : State) (mtype : BitVec 8) (need : Need) (n : Msg → Nat) (ca : Msg → BitVec 52)
    (f : Msg → List Piece → State → State) : Host.Outcome State Fault Refusal :=
  offered (match s.takeMessage mtype with
    | none => none
    | some (_, m, s) =>
      if !s.admits m then some (s.answerError m 1)
      else match s.pieces (m.rasid.zeroExtend 16) (ca m) need false (n m) with
        | (.error e, s) => some (s.answerError m (if e.1 = 2 then 2 else 1))
        | (.ok ps, s) => if ps.any Piece.isHeld then none else some (f m ps s))

/-- Writes the data units of a message, with their poison, and acknowledges. -/
def State.farWrite (s : State) (m : Msg) (ps : List Piece) : State :=
  let bytes := bytesOf m.units
  let s := s.homeWrite (m.rasid.zeroExtend 16) none m.ca.toNat ps bytes
  let s := ((List.range m.units.length).filter fun i => m.mask.getLsbD i).foldl (fun s i =>
    match ps[i]? with | some p => s.setPoison p.place true | none => s) s
  s.answer m fun r => { r with mtype := mtWack }

/-- READ: the line at CA, its poisoned units marked in MASK. -/
def execRead (s : State) : Host.Outcome State Fault Refusal :=
  s.farRequest mtRead .r (fun _ => 128) (fun m => BitVec.ofNat 52 (m.ca.toNat / 128 * 128)) fun m ps s =>
    let bytes := ps.flatMap fun p => s.placeBytes p.place p.len
    let mask := s.piecePoison ps
    s.answer m fun r => { r with mtype := mtRdata, mask := mask, poison := mask ≠ 0, units := unitsOf bytes }

/-- The log record of a fenced member's dropped write (18 R453, log 21). -/
def State.logFenced (s : State) (peer : Nat) : State :=
  s.logAppend { code := 0x0042, cls := 2, part := 31, source := 4 * 256, addr := peer, detail := peer * 2 ^ 32 }

/-- Takes a request that a fenced member's writes may be: such a write is dropped and logged (18 R453). -/
def State.unlessFenced (s : State) (mtype : BitVec 8) (f : Host.Outcome State Fault Refusal) : Host.Outcome State Fault Refusal :=
  match s.takeMessage mtype with
  | some (_, m, t) => if s.link.fencedWriter m then .next (t.logFenced m.src.toNat) else f
  | none => f

/-- WRITE: whole granules from CA onward. -/
def execWrite (s : State) : Host.Outcome State Fault Refusal :=
  s.unlessFenced mtWrite
    (s.farRequest mtWrite .w (fun m => 16 * m.units.length) (fun m => BitVec.ofNat 52 (m.ca.toNat / 16 * 16)) fun m ps s =>
      s.farWrite { m with ca := BitVec.ofNat 52 (m.ca.toNat / 16 * 16) } ps)

/-- The operation of an ATOMIC, by OP[3:0] (18 R456, 08 R244). -/
def amoOfCode (x : Nat) : Option AmoOp :=
  match x with
  | 0 => some .add | 1 => some .and | 2 => some .or | 3 => some .xor | 4 => some .min | 5 => some .max | 6 => some .swap
  | 7 => some .cas | 8 => some .fadd | _ => none

/-- ATOMIC: it performs at the home slice and is answered with the old value; on a poisoned line with ERROR 3; an operation
that is none is refused. -/
def execAtomic (s : State) : Host.Outcome State Fault Refusal :=
  let size := fun (m : Msg) => if m.op.getLsbD 4 then 3 else 2
  s.unlessFenced mtAtomic (s.farRequest mtAtomic .rw (fun m => 2 ^ size m) (fun m => m.ca) fun m ps s =>
    match amoOfCode (m.op.extractLsb' 0 4).toNat with
    | none => s.answerError m 1
    | some op =>
      let c : W64 := (m.units.headD 0).extractLsb' 0 64
      let r := s.amoStep (m.rasid.zeroExtend 16) none ps op (BitVec.ofNat 2 (size m)) m.arg c
      if r.2.1 then r.2.2.answerError m 3 else r.2.2.answer m fun a => { a with mtype := mtAreply, arg := r.1 })

/-- REDC: one line is combined at its home slice (07 R227); a poisoned line is left as it is and answered with ERROR 3. -/
def execRedcMessage (s : State) : Host.Outcome State Fault Refusal :=
  s.unlessFenced mtRedc
    (s.farRequest mtRedc .rw (fun _ => 128) (fun m => BitVec.ofNat 52 (m.ca.toNat / 128 * 128)) fun m ps s =>
      if ps.any fun p => s.placePoison p.place then s.answerError m 3
      else
        (s.redcStep (m.rasid.zeroExtend 16) none ps (m.op.extractLsb' 0 2) (m.fmt.extractLsb' 0 6) (bytesOf m.units)
          (m.mask != 0)).answer m fun r => { r with mtype := mtWack })

/-- BCST: a member checks and writes it, and acknowledges. -/
def execBcstMessage (s : State) : Host.Outcome State Fault Refusal :=
  s.unlessFenced mtBcst
    (s.farRequest mtBcst .w (fun m => 16 * m.units.length) (fun m => BitVec.ofNat 52 (m.ca.toNat / 16 * 16)) fun m ps s =>
      s.farWrite { m with ca := BitVec.ofNat 52 (m.ca.toNat / 16 * 16) } ps)

/-! ### Responses (07 R233, 18 R452, R456) -/

/-- Takes a response: the request it answers, or none where the response is late or answers nothing, so that it is discarded. -/
def State.takeResponse (s : State) (mtype : BitVec 8) : Option (Msg × Option Req × State) :=
  (s.takeMessage mtype).map fun q =>
    let m := q.2.1
    let s := q.2.2
    let req := if s.link.unreachable.contains m.src then none else s.link.reqs.find? fun r => r.tag == m.tag && r.peer == m.src
    match req with
    | none => (m, none, s)
    | some r => (m, some r, { s with link := { s.link with
        reqs := s.link.reqs.filter (· ≠ r), answered := SMap.set 0 s.link.answered m.src.toNat s.time } })

/-- The landing slot of a response: its index and contents. -/
def State.landingOf (s : State) (key id : Nat) : Option (Nat × Landing) :=
  let c := s.core key
  match c.landings.findIdx? fun l => l.id == id with
  | none => none
  | some i => c.landings[i]?.map fun l => (i, l)

/-- Takes the entry of a store or an atomic from the store stream of a core. -/
def State.popSent (s : State) (key : Nat) (p : StoreEntry → Bool) : State :=
  s.modCore key fun c => { c with stream := c.stream.filter fun e => !p e }

/-- An atomic's entry in the store stream. -/
def StoreEntry.isAmoOf (e : StoreEntry) (id : Nat) : Bool := e.kind == .amo id

/-- One line of a copy has come back. -/
def State.ackCopy (s : State) (key id : Nat) : State := s.modCopy key id fun o => { o with acks := o.acks - 1 }

/-- RDATA: the line sinks into its landing slot or, for a copy, at the destination of its line request. None where that line is
held. -/
def execRdata (s : State) : Host.Outcome State Fault Refusal :=
  offered (match s.takeResponse mtRdata with
    | none => none
    | some (_, none, s) => some s
    | some (m, some r, s) => match r.sink with
      | .store _ => some s
      | .landing id => match s.landingOf r.core id with
        | none => some s
        | some (i, l) =>
          let off := l.tgt.ca.toNat % 128
          let n := match l.kind with | .load size _ => sizeBytes size | .amo _ size _ _ _ _ => sizeBytes size | .ref _ => 8
          let v := BitVec.ofNat 64 (leNat (((bytesOf m.units).drop off).take n))
          let bad := (granuleParts off n).any fun q => m.mask.getLsbD ((off + q.1) / 16)
          some (s.modCore r.core fun c => c.setLanding i (.replied v bad))
      | .copy id mv => match s.copyOf r.core id with
        | none => some s
        | some o =>
          let off := match mv.src.remote with | some t => t.ca.toNat % 128 | none => 0
          let all := bytesOf m.units
          let bytes := (List.range mv.len).map fun i => (all.getD (off + i) 0, m.mask.getLsbD ((off + i) / 16))
          match s.runPieces r.core mv.dst .w mv.len with
          | (.error e, s) => some (s.refused r.core o e)
          | (.ok ps, s) =>
            if ps.any Piece.isHeld then none else some ((s.putRun r.core o.asid ps bytes).ackCopy r.core id))

/-- WACK: the write is acknowledged, and its slot and entry are free. -/
def execWack (s : State) : Host.Outcome State Fault Refusal :=
  offered ((s.takeResponse mtWack).map fun q => match q.2.1 with
    | none => q.2.2
    | some r => match r.sink with
      | .store seq => q.2.2.popSent r.core fun e => e.seq == seq
      | .copy id _ => q.2.2.ackCopy r.core id
      | .landing _ => q.2.2)

/-- AREPLY: the old value sinks into its landing slot, and the atomic has performed. -/
def execAreply (s : State) : Host.Outcome State Fault Refusal :=
  offered ((s.takeResponse mtAreply).map fun q => match q.2.1 with
    | none => q.2.2
    | some r => match r.sink with
      | .landing id =>
        let s := q.2.2.popSent r.core fun e => e.isAmoOf id
        (match s.landingOf r.core id with
        | none => s
        | some (i, _) => s.modCore r.core fun c => c.setLanding i (.replied q.1.arg q.1.poison))
      | _ => q.2.2)

/-- The KIND of the fatal context error that an ERROR's KIND makes of a unicast access (14 R363, R373, log 31). -/
def fatalOfError (kind : Nat) : Nat := if kind = 2 then 2 else if kind = 4 then 3 else 1

/-- A member's ERROR fails a broadcast (07 R228); a poisoned line poisons what would have been read and leaves what would have
been written (18 R445, log 18); any other refusal is a fatal context error. -/
def State.copyError (s : State) (key : Nat) (o : CopyOp) (mv : Move) (kind : Nat) : State :=
  match o.job with
  | .bcast _ _ _ => if o.failed.isNone then s.finishCopy key o (some (4, 0)) else s
  | _ =>
    if kind = 3 then
      (match mv.src.remote with
      | none => s
      | some _ => match s.runPieces key mv.dst .w mv.len with
        | (.ok ps, s) => ps.foldl (fun s (p : Piece) => s.setPoison p.place true) s
        | (.error _, s) => s).ackCopy key o.id
    else
      let va := match mv.far with | some (t, _) => t.va | none => 0
      s.refuseCopy key o (fatalOfError kind) va none

/-- ERROR: the request fails: a fatal context error, poison at the landing, or a FAILED knot. -/
def execError (s : State) : Host.Outcome State Fault Refusal :=
  offered ((s.takeResponse mtError).map fun q => match q.2.1 with
    | none => q.2.2
    | some r =>
      let s := q.2.2
      let kind := q.1.fmt.toNat
      match r.sink with
      | .landing id =>
        let s := s.popSent r.core fun e => e.isAmoOf id
        (match s.landingOf r.core id with
        | none => s
        | some (i, l) =>
          if kind = 3 then s.modCore r.core fun c => c.setLanding i (.replied 0 true)
          else s.failLanding r.core i l (fatalOfError kind) l.tgt.va none)
      | .store seq =>
        (match (s.core r.core).stream.find? fun e => e.seq == seq with
        | none => s
        | some e => if kind = 3 then s.popSent r.core fun x => x.seq == seq else s.failStore r.core e (fatalOfError kind) e.tgt.va none)
      | .copy id mv => match s.copyOf r.core id with
        | none => s
        | some o => s.copyError r.core o mv kind)

/-! ### Heartbeats and probes (18 R452, R453, R458) -/

/-- HEARTBEAT: the timer of the group's member restarts. -/
def execHeartbeat (s : State) : Host.Outcome State Fault Refusal :=
  offered ((s.takeMessage mtHeartbeat).map fun q =>
    let s := q.2.2
    let m := q.2.1
    { s with link := { s.link with heard := SMap.set 0 s.link.heard (2 ^ 20 * m.dst.toNat + m.src.toNat) s.time } })

/-- PROBE: answered with PROBEACK without any core. -/
def execProbeMessage (s : State) : Host.Outcome State Fault Refusal :=
  offered ((s.takeMessage mtProbe).map fun q => q.2.2.answer q.2.1 fun m => { m with mtype := mtProbeack })

/-- PROBEACK: its sender is no longer unreachable. -/
def execProbeack (s : State) : Host.Outcome State Fault Refusal :=
  offered ((s.takeMessage mtProbeack).map fun q =>
    let s := q.2.2
    { s with link := { s.link with unreachable := s.link.unreachable.filter (· ≠ q.2.1.src) } })

/-- HEARTBEAT_INTERVAL: a heartbeat to each group whose membership table lists the package. -/
def execHeartbeatInterval (s : State) : Host.Outcome State Fault Refusal :=
  offered (s.link.devId.map fun id =>
    let mine := s.link.groups.filter fun g => g.2.contains id.toNat
    { s with link := mine.foldl (fun k g => k.multicast (plainMsg mtHeartbeat id (BitVec.ofNat 20 g.1))) s.link })

/-- PROBE_INTERVAL: a probe to each unreachable peer. -/
def execProbeInterval (s : State) : Host.Outcome State Fault Refusal :=
  offered (s.link.devId.map fun id =>
    { s with link := s.link.unreachable.foldl (fun k p => (k.send engineFlow (plainMsg mtProbe id p)).getD k) s.link })

/-! ### Timeouts (18 R450 to R453) -/

/-- A timeout is declared no earlier than it is due. -/
def State.until (s : State) (t : Nat) : State := { s with time := max s.time t }

/-- A request to an unreachable peer fails: a landing and a store with KIND 4, a copy's knot with reason 1. -/
def State.failRequest (s : State) (r : Req) : State :=
  match r.sink with
  | .landing id =>
    let s := s.popSent r.core fun e => e.isAmoOf id
    (match s.landingOf r.core id with
    | none => s
    | some (i, l) => s.failLanding r.core i l 4 l.tgt.va none)
  | .store seq =>
    (match (s.core r.core).stream.find? fun e => e.seq == seq with
    | none => s
    | some e => s.failStore r.core e 4 e.tgt.va none)
  | .copy id _ => match s.copyOf r.core id with
    | none => s
    | some o => s.finishCopy r.core o (some (1, 0))

/-- A peer becomes unreachable: PEER_UNREACHABLE, and every request outstanding to it fails. -/
def State.losePeer (s : State) (peer : BitVec 20) : State :=
  let mine := s.link.reqs.filter fun r => r.peer == peer
  let s := s.logAppend
    { code := 0x0041, cls := 2, part := 31, source := 4 * 256, addr := peer.toNat
      detail := ((s.link.flowPort engineFlow peer).getD 0) + peer.toNat * 2 ^ 32 }
  let s := { s with link := { s.link with
    unreachable := s.link.unreachable ++ [peer], reqs := s.link.reqs.filter fun r => r.peer ≠ peer } }
  mine.foldl State.failRequest s

/-- PEER_UNREACHABLE (18 R450, R452). -/
def execPeerUnreachable (peer : Nat) (s : State) : Host.Outcome State Fault Refusal :=
  let p := BitVec.ofNat 20 peer
  let mine := s.link.reqs.filter fun r => r.peer == p
  offered (match mine with
    | [] => none
    | r :: l =>
      if 2 ^ 20 ≤ peer ∨ s.link.unreachable.contains p then none
      else
        let first := l.foldl (fun t q => min t q.sent) r.sent
        some ((s.until (max first (SMap.get 0 s.link.answered peer) + 200000)).losePeer p))

/-- The core of the flow that a message travels on. -/
def Link.coreOf (k : Link) (m : Msg) : Nat :=
  match k.reqs.find? fun r => r.tag == m.tag && r.peer == m.dst && channelOfType m.mtype == 0 with
  | some r => r.core
  | none => engineFlow

/-- Sends the messages of a lost port on the ports that are left. -/
def Link.reroute (k : Link) : List Msg → Link
  | [] => k
  | m :: l => ((k.send (k.coreOf m) m).getD k).reroute l

/-- PORT_DOWN (18 R450, R451): the port leaves every route, its unacknowledged flits are replayed on the remaining ports, and a
peer left without a route is at once unreachable. -/
def execPortDown (port : Nat) (s : State) : Host.Outcome State Fault Refusal :=
  let p := s.link.port port
  offered (if 17 < port ∨ p.down ∨ p.replay = [] then none
    else
      let s := s.until (p.since + 20000)
      let peer := match p.peer with | some q => q.1.toNat | none => 0
      let s := s.logAppend
        { code := 0x0040, cls := 2, part := 31, source := 4 * 256 + port, addr := peer, detail := port + peer * 2 ^ 32 }
      let k := s.link.setPort port { down := true, since := s.time }
      let k := k.reroute (p.replay.map (·.2) ++ p.waiting)
      let s := { s with link := k }
      let lost := ((k.reqs.map Req.peer).eraseDups).filter fun q => (k.routes q).isEmpty && !k.unreachable.contains q
      some (lost.foldl State.losePeer s))

/-- RETRAIN_ATTEMPT (18 R451): every 1 ms a down port tries; when it succeeds the port locks anew, sends INIT and is again in the
routes. -/
def execRetrainAttempt (port : Nat) (ok : Bool) (s : State) : Host.Outcome State Fault Refusal :=
  let p := s.link.port port
  offered (if 17 < port ∨ !p.down then none
    else
      let s := s.until (p.since + 1000000)
      if ok then
        let s := s.wearAdd (wearPort port) 4 1
        some { s with link := s.link.setPort port { locked := true, since := s.time, control := some (s.link.initUnit port) } }
      else some { s with link := s.link.setPort port { p with since := s.time } })

/-- MEMBER_FENCED (18 R450, R453): the member leaves this package's view of the group, and the broadcasts that wait on its
acknowledgement fail. -/
def execMemberFenced (group : Nat) (peer : Nat) (s : State) : Host.Outcome State Fault Refusal :=
  let k := s.link
  offered (if !(SMap.get [] k.groups group).contains peer ∨ k.fenced.contains (group, peer) ∨ k.devId = some (BitVec.ofNat 20 peer) then none
    else
      let s := s.until (SMap.get 0 k.heard (2 ^ 20 * group + peer) + 2000000)
      let s := s.logAppend { code := 0x0042, cls := 2, part := 31, source := 4 * 256, addr := peer, detail := peer * 2 ^ 32 }
      let waits := k.reqs.filter fun r => r.peer.toNat == peer && match r.sink with
        | .copy id _ => (match (s.copyOf r.core id).map CopyOp.job with
          | some (.bcast dst _ _) => dst.peer.toNat == group
          | _ => false)
        | _ => false
      let s := { s with link := { s.link with
        fenced := s.link.fenced ++ [(group, peer)], reqs := s.link.reqs.filter fun r => !waits.contains r } }
      some (waits.foldl (fun s r => match r.sink with
        | .copy id _ => (match s.copyOf r.core id with
          | some o => s.finishCopy r.core o (some (2, 0))
          | none => s)
        | _ => s) s))

end Sys2Proof.Machine
end

