-- ==== Sys2Proof/Machine/Firmware.lean ====
section
/-! DEFINITION. What firmware does with memory for a request: places in system memory, pages, page-table entries, and the pages
granted to a host agent (14 R365 to R370, R377 to R379). Where firmware chooses, the choice is open (log 32). -/

namespace Sys2Proof.Machine

/-! ### Choices and places -/

/-- A choice that the manual leaves to firmware: `w` bits. -/
def State.choose (s : State) (w : Nat) : Nat × State := ((Config.freeBits s.free (2 ^ 22) w).toNat, { s with free := s.free + 1 })

/-- One of some numbers, firmware choosing which. -/
def State.chooseFrom (s : State) (l : List Nat) : Option (Nat × State) :=
  let c := s.choose 32
  l[c.1 % max 1 l.length]?.map fun x => (x, c.2)

/-- Bytes overlap memory that firmware has taken. -/
def State.isTaken (s : State) (base len : Nat) : Bool :=
  s.taken.any fun t => decide (t.base < base + len) && decide (base < t.base + t.len)

/-- Takes zeroed system memory at a place that firmware chooses; none where that place will not do. -/
def State.takeSystem (s : State) (asid : BitVec 16) (len : Nat) : Option (Nat × State) :=
  let c := s.choose 36
  let base := 65536 * c.1
  if !c.2.systemRun base len ∨ c.2.isTaken base len then none
  else some (base, { c.2 with mem := SMap.clear c.2.mem base len, taken := c.2.taken ++ [⟨base, len, asid, none⟩] })

/-- Writes bytes of a structure in system memory. -/
def State.putSystem (s : State) (a : Nat) (bytes : List Byte) : State := (s.memWrite a bytes).sendAll none a bytes.length

/-- Reads host memory. -/
def State.hostRead (s : State) (a n : Nat) : List Byte := SMap.getList 0 s.hostMem a n
/-- Writes host memory. -/
def State.hostWrite (s : State) (a : Nat) (bytes : List Byte) : State := { s with hostMem := SMap.setList 0 s.hostMem a bytes }

/-! ### Pages (14 R367 to R370) -/

/-- log2 of the page of a size code: 64 KiB, 2 MiB, 512 MiB. -/
def sizeLog (code : Nat) : Nat := if code = 0 then 16 else if code = 1 then 21 else 29
/-- The level of its leaves. -/
def sizeLevel (code : Nat) : Nat := 3 - code

/-- The HBM page of a chip address: the one that a table already maps there (14 R370), else one that firmware chooses on the
chip address's home die and the partition's channels; none where that page will not do. -/
def State.takePage (s : State) (asid : BitVec 16) (ca size : Nat) : Option (Nat × State) :=
  match s.taken.find? fun t => t.ca == some ca with
  | some t => if t.len = size then some (t.base, s) else none
  | none =>
    let a := BitVec.ofNat 52 ca
    let c := s.choose 32
    let pa := s.homeDie a * 2 ^ 40 + size * (c.1 % (144 * 2 ^ 30 / size))
    let sys := (s.homeEntry (BitVec.ofNat 52 pa)).getLsbD 15 && (s.homeEntry (BitVec.ofNat 52 pa)).getLsbD 2
    if sys ∨ c.2.isTaken pa size ∨ !c.2.channelOk asid pa then none
    else some (pa, { c.2 with taken := c.2.taken ++ [⟨pa, size, asid, some ca⟩] })

/-- Bytes of a table of a level (14 R367). -/
def tableBytes (level : Nat) : Nat := 8 * 2 ^ (levelBits level).2

/-- Writes a leaf of a level into the tables of a context, with the tables above it where they are missing; none where a page
is mapped there already, or no memory is left. -/
def State.putLeaf (s : State) (asid : BitVec 16) (ca : Nat) (pte : W64) (target table level : Nat) : Nat → Option State
  | 0 => none
  | fuel + 1 =>
    let lb := levelBits level
    let a := table + 8 * ((ca >>> lb.1) % 2 ^ lb.2)
    let e := BitVec.ofNat 64 (s.memNat a 8)
    if level = target then (if e.getLsbD 63 then none else some (s.putSystem a (leBytes 8 pte.toNat)))
    else if e.getLsbD 63 then
      (if e.getLsbD 62 then none else s.putLeaf asid ca pte target ((e.extractLsb' 16 36).toNat * 65536) (level + 1) fuel)
    else match s.takeSystem asid (tableBytes (level + 1)) with
      | none => none
      | some (t, s) =>
        (s.putSystem a (leBytes 8 (2 ^ 63 + t))).putLeaf asid ca pte target t (level + 1) fuel

/-- The entry bits of MAP's W4: V, LEAF, R, W, X and MEM. -/
def pteFlags (r w x host : Bool) : W64 :=
  (0b11 : BitVec 2) ++ BitVec.ofBool r ++ BitVec.ofBool w ++ BitVec.ofBool x ++ (0 : BitVec 2) ++ BitVec.ofBool host ++ (0 : BitVec 56)

/-- Maps `n` pages of a size code from a chip address, at host addresses from `host` on or in HBM. -/
def State.mapPages (s : State) (asid : BitVec 16) (ca code : Nat) (flags : W64) (host : Option Nat) : Nat → Option State
  | 0 => some s
  | n + 1 =>
    let size := 2 ^ sizeLog code
    let page := match host with | some a => some (a, s) | none => s.takePage asid ca size
    match page with
    | none => none
    | some (pa, s) =>
      match s.putLeaf asid ca (flags ||| BitVec.ofNat 64 pa) (sizeLevel code) (s.memNat (s.ctxEntry asid + 8) 8) 0 4 with
      | none => none
      | some s => s.mapPages asid (ca + size) code flags (host.map (· + size)) n

/-- The address of the leaf that maps a chip address, with the log2 of its page. -/
def State.leafAt (s : State) (ca table level : Nat) : Nat → Option (Nat × Nat)
  | 0 => none
  | fuel + 1 =>
    let lb := levelBits level
    let a := table + 8 * ((ca >>> lb.1) % 2 ^ lb.2)
    let e := BitVec.ofNat 64 (s.memNat a 8)
    if !e.getLsbD 63 then none
    else if e.getLsbD 62 then some (a, lb.1)
    else s.leafAt ca ((e.extractLsb' 16 36).toNat * 65536) (level + 1) fuel

/-- The leaf of a context that maps a chip address. -/
def State.leafOf (s : State) (asid : BitVec 16) (ca : Nat) : Option (Nat × Nat) :=
  s.leafAt ca (s.memNat (s.ctxEntry asid + 8) 8) 0 4

/-- The leaves of a context that meet an extent: chip address, log2 of the page and address of the entry. `n` counts 64 KiB
pages. -/
def State.leavesIn (s : State) (asid : BitVec 16) (ca hi : Nat) : Nat → List (Nat × Nat × Nat)
  | 0 => []
  | n + 1 =>
    if hi ≤ ca then []
    else match s.leafOf asid ca with
      | some (a, lg) => (ca / 2 ^ lg * 2 ^ lg, lg, a) :: s.leavesIn asid ((ca / 2 ^ lg + 1) * 2 ^ lg) hi n
      | none => s.leavesIn asid (ca + 65536) hi n

/-- A context other than one maps a chip address. -/
def State.mappedElsewhere (s : State) (asid : BitVec 16) (ca : Nat) : Bool :=
  (List.range 1024).any fun i =>
    let a := BitVec.ofNat 16 i
    a != asid && s.ctxState a != 0 && (s.leafOf a ca).isSome

/-- Clears a leaf; an HBM page that no other context maps is free again. -/
def State.clearLeaf (s : State) (asid : BitVec 16) (l : Nat × Nat × Nat) : State :=
  let s := s.putSystem l.2.2 (leBytes 8 0)
  if s.mappedElsewhere asid l.1 then s else { s with taken := s.taken.filter fun t => t.ca ≠ some l.1 }

/-! ### Grants (14 R377 to R379) -/

/-- Sends a vendor-defined message to the host. -/
def State.sendVendor (s : State) (part code : Nat) (dws : List (BitVec 32)) : State :=
  { s with host := { s.host with vendorOut := s.host.vendorOut ++ [⟨part, BitVec.ofNat 32 (code * 2 ^ 24), dws⟩] } }

/-- A grant is named by a REVOKE that is not acknowledged. -/
def Revoke.names (r : Revoke) (g : Grant) : Bool :=
  r.part == g.part && r.asid == g.asid && decide (r.va ≤ g.va) && decide (g.va < r.va + 65536 * r.pages)

/-- Sends REVOKE for the granted pages that a test accepts and no REVOKE names yet, one a page. -/
def State.revokeGrants (s : State) (p : Grant → Bool) : State :=
  (s.host.grants.filter fun g => p g && !s.host.revokes.any fun r => r.names g).foldl (fun s (g : Grant) =>
    let tag := s.host.nextTag
    let r : Revoke := ⟨tag, g.part, g.asid, g.va, 1, s.time⟩
    let s := { s with host := { s.host with nextTag := (tag + 1) % 65536, revokes := s.host.revokes ++ [r] } }
    s.sendVendor g.part 3
      [g.asid ++ BitVec.ofNat 16 tag, BitVec.ofNat 32 g.va, BitVec.ofNat 32 (g.va / 2 ^ 32), 1]) s

/-- Goes on when no granted page that a test accepts is left; until then REVOKEs are sent and the request waits (14 R379). -/
def State.afterRevoke (s : State) (p : Grant → Bool) (f : State → Served) : Served :=
  if s.host.grants.any p then .wait (s.revokeGrants p) else f s

/-- A grant of a context whose page lies in an extent of chip addresses. -/
def Grant.inExtent (g : Grant) (asid : BitVec 16) (ca len : Nat) : Bool :=
  g.asid == asid && decide (g.ca < ca + len) && decide (ca < g.ca + 65536)

/-- The pages that a REVOKE names leave the function's aperture. -/
def State.dropGrants (s : State) (r : Revoke) : State :=
  { s with host := { s.host with
    grants := s.host.grants.filter fun g => !r.names g, revokes := s.host.revokes.filter (· ≠ r) } }

end Sys2Proof.Machine
end

