-- ==== Sys2Proof/Machine/Contexts.lean ====
section
/-! DEFINITION. Requests of a driver about its contexts: allocation and freeing, kills, range registers, pages, and queues
(13 R348, R349, 14 R353 to R361). -/

namespace Sys2Proof.Machine

/-! ### CTXALLOC, CTXFREE and KILL -/

/-- An account descriptor keeps 10 R292: reserved bits zero, and RING a multiple of 128. -/
def accountOk (d : BitVec 256) : Bool :=
  d.extractLsb' 192 64 == 0 && d.extractLsb' 70 58 == 0 && d.extractLsb' 0 7 == 0

/-- A PLAIN range with R and X (17 R427). -/
def codeRange (vbase vend cbase : Nat) : W256 :=
  BitVec.ofNat 256 (vbase + vend * 2 ^ 64 + cbase * 2 ^ 128 + 0b1101 * 2 ^ 192)

/-- The code heap of a context: a range register, addresses and pages that firmware chooses (17 R427, log 32). -/
def State.putCodeHeap (s : State) (asid : BitVec 16) (bytes : Nat) : Option State :=
  if bytes = 0 then some s
  else
    let n := (bytes + 65535) / 65536
    let reg := s.choose 3
    let va := reg.2.choose 40
    let ca := va.2.choose 36
    if 2 ^ 41 ≤ va.1 + n ∨ 2 ^ 36 ≤ ca.1 + n then none
    else
      let s := ca.2.putSystem (s.ctxEntry asid + 0x100 + 32 * reg.1) (leBytes 32 (codeRange va.1 (va.1 + n) ca.1).toNat)
      let s := { s with heaps := SMap.set none s.heaps asid.toNat (some ⟨65536 * va.1, bytes, []⟩) }
      s.mapPages asid (65536 * ca.1) 0 (pteFlags true false true false) none n

/-- The bytes of a fresh context-table entry (14 R354). -/
def ctxEntryBytes (part root image objmap : Nat) (account : BitVec 256) (colors : Nat) : List Byte :=
  leBytes 4 (1 + 16 * part) ++ leBytes 4 0 ++ leBytes 8 root ++ leBytes 8 image ++ leBytes 8 objmap ++ leBytes 32 account.toNat ++
    leBytes 4 colors ++ leBytes 188 0 ++ leBytes 256 0

/-- Takes what a context needs: a page table, an image and an object map. -/
def State.takeContext (s : State) (asid : BitVec 16) : Option (Nat × Nat × Nat × State) :=
  match s.takeSystem asid (tableBytes 0) with
  | none => none
  | some (root, s) => match s.takeSystem asid (2 ^ 22) with
    | none => none
    | some (image, s) => (s.takeSystem asid (32 * 4096)).map fun q => (root, image, q.1, q.2)

/-- CTXALLOC (13 R348, 14 R353, R354): a live ASID of the partition, with its page table, account descriptor and code heap. -/
def execCtxalloc (s : State) : Host.Outcome State Fault Refusal :=
  s.serveRequest 0x01 fun mb w s =>
    let account := w 5 ++ w 4 ++ w 3 ++ w 2
    let free := ((List.range 1023).map (· + 1)).filter fun i => s.ctxState (BitVec.ofNat 16 i) == 0
    if !accountOk account then .refuse s outBadRequest
    else match s.chooseFrom free with
      | none => .refuse s outNoResource
      | some (n, t) =>
        let asid := BitVec.ofNat 16 n
        match t.takeContext asid with
        | none => .refuse s outNoResource
        | some (root, image, objmap, t) =>
          let colors := (List.range 8).foldl (fun a h => a + (t.good asid h).toNat * 2 ^ (3 * h)) 0
          let t := t.putSystem (t.ctxEntry asid) (ctxEntryBytes mb root image objmap account colors)
          match t.putCodeHeap asid (w 1).toNat with
          | none => .refuse s outNoResource
          | some t => .answer outOk [BitVec.ofNat 64 n] t

/-- A core still runs an item of a context, or its writes are not over. -/
def State.contextBusy (s : State) (asid : BitVec 16) : Bool :=
  s.cores.any fun q => !q.2.supervisor && ((q.2.item.isSome && q.2.cr.asid == asid) || q.2.stream.any (fun e => e.tgt.asid == asid) ||
    q.2.copies.any (fun o => o.asid == asid) || q.2.landings.any fun l => l.tgt.asid == asid)

/-- An ASID is free again: its translations, its memory and its code heap are gone (14 R353, R376). -/
def State.freeContext (s : State) (asid : BitVec 16) : State :=
  let s := (s.inval asid.toNat 0 (2 ^ 52) false).putSystem (s.ctxEntry asid) (leBytes 4 0)
  { s with
    taken := s.taken.filter fun t => t.asid ≠ asid
    heaps := SMap.set none s.heaps asid.toNat none
    fns := s.fns.filter fun q => q.1 / 65536 ≠ asid.toNat }

/-- CTXFREE (13 R348, 14 R353): a live context is killed with reason 1; the ASID is free once its items have ended, its granted
pages are revoked and no PROBE holds a page. -/
def execCtxfree (s : State) : Host.Outcome State Fault Refusal :=
  s.serveRequest 0x02 fun mb w s => s.withContext mb (w 1) fun asid =>
    let s := s.killContext asid (6 * 256) { reason := 1 } 1
    if s.contextBusy asid ∨ s.probedIn asid.toNat 0 (2 ^ 52) then .wait s
    else s.afterRevoke (fun g => g.asid == asid) fun s => .answer outOk [] (s.freeContext asid)

/-- KILL (13 R348, 18 R443, R444): CONTEXT_KILL with reason 1. -/
def execKill (s : State) : Host.Outcome State Fault Refusal :=
  s.serveRequest 0x03 fun mb w s => s.withContext mb (w 1) fun asid =>
    .answer outOk [] (s.killContext asid (6 * 256) { reason := 1 } 1)

/-! ### RANGESET -/

/-- The cores that a window range names belong to a partition (14 R358, R361). -/
def Partition.windows (p : Partition) (cbase n : Nat) : Bool :=
  decide (0xFFF * 2 ^ 24 ≤ cbase) && decide (cbase + n ≤ 2 ^ 36) &&
    (List.range ((cbase + n - 1) / 2 ^ 14 - cbase / 2 ^ 14 + 1)).all fun i =>
      let c := (cbase / 2 ^ 14 + i) % 1024
      decide (c < 544) && p.cores.getLsbD c

/-- A range register that the memory supervisor writes for a partition (14 R361). -/
def rangeAllowed (p : Option Partition) (g : W256) : Bool :=
  let cls := g.extractLsb' 196 2
  let b := rangeBounds g
  let n := b.2 - b.1
  g.extractLsb' 226 10 == 0 && g.extractLsb' 203 13 == 0 && !g.getLsbD 199 && g.extractLsb' 164 28 == 0 &&
    g.extractLsb' 105 23 == 0 && g.extractLsb' 41 23 == 0 && (!rangeV g || decide (b.1 < b.2)) &&
    decide (rangeCbase g + n ≤ 2 ^ 36) && (!g.getLsbD 194 || cls == 0) && (!g.getLsbD 198 || cls == 0) &&
    (g.extractLsb' 200 3 == 0 || cls == 1) &&
    (!g.getLsbD 198 || !rangeV g || (match p with | some p => p.windows (rangeCbase g) n | none => false))

/-- RANGESET (13 R348, 14 R356, R361): the entry's register; the cores see it at their next range reload. -/
def execRangeset (s : State) : Host.Outcome State Fault Refusal :=
  s.serveRequest 0x04 fun mb w s => s.withContext mb (w 1) fun asid =>
    let g : W256 := w 6 ++ w 5 ++ w 4 ++ w 3
    if 7 < (w 2).toNat ∨ !rangeAllowed (s.partitionOf asid) g then .refuse s outBadRequest
    else .answer outOk [] (s.putSystem (s.ctxEntry asid + 0x100 + 32 * (w 2).toNat) (leBytes 32 g.toNat))

/-! ### MAP and UNMAP -/

/-- MAP (13 R348, 14 R368, R370). A page that is mapped already, or an address off its page, is a bad request (log 32). -/
def execMap (s : State) : Host.Outcome State Fault Refusal :=
  s.serveRequest 0x05 fun mb w s => s.withContext mb (w 1) fun asid =>
    let ca := (w 2).toNat
    let len := (w 3).toNat
    let code := ((w 4).extractLsb' 4 2).toNat
    let mem := ((w 4).extractLsb' 8 2).toNat
    let size := 2 ^ sizeLog code
    let n := len / size
    if (w 4).extractLsb' 10 54 ≠ 0 ∨ (w 4).extractLsb' 6 2 ≠ 0 ∨ (w 4).getLsbD 3 ∨ code = 3 ∨ 2 ≤ mem ∨ len = 0 ∨ ca % size ≠ 0 ∨
        len % size ≠ 0 ∨ 2 ^ 52 < ca + len ∨ (mem = 1 ∧ ((w 5).toNat % size ≠ 0 ∨ 2 ^ 52 < (w 5).toNat + len)) ∨
        s.leavesIn asid ca (ca + len) (len / 65536) ≠ [] then .refuse s outBadRequest
    else
      let flags := pteFlags ((w 4).getLsbD 0) ((w 4).getLsbD 1) ((w 4).getLsbD 2) (mem = 1)
      match s.mapPages asid ca code flags (if mem = 1 then some (w 5).toNat else none) n with
      | some t => .answer outOk [BitVec.ofNat 64 n] t
      | none => .refuse s outNoResource

/-- UNMAP (13 R348, 14 R370, R375, R379): the grants are revoked, the leaves cleared and their translations and lines
invalidated. An extent that cuts a page is a bad request (log 32). -/
def execUnmap (s : State) : Host.Outcome State Fault Refusal :=
  s.serveRequest 0x06 fun mb w s => s.withContext mb (w 1) fun asid =>
    let ca := (w 2).toNat
    let len := (w 3).toNat
    let leaves := s.leavesIn asid ca (ca + len) (len / 65536)
    if ca % 65536 ≠ 0 ∨ len % 65536 ≠ 0 ∨ len = 0 ∨ 2 ^ 52 < ca + len ∨
        (leaves.any fun l => decide (l.1 < ca) || decide (ca + len < l.1 + 2 ^ l.2.1)) then .refuse s outBadRequest
    else s.afterRevoke (fun g => g.inExtent asid ca len) fun s =>
      if s.probedIn asid.toNat ca len then .wait s
      else .answer outOk [] ((leaves.foldl (fun s l => s.clearLeaf asid l) s).inval asid.toNat ca len true)

/-! ### REGQ and DEREGQ -/

/-- A QCB image with PART, ASID and QID written into it (13 R343, R349). -/
def qcbImage (img : List Byte) (part qid : Nat) (asid : BitVec 16) : List Byte :=
  img.take 0x0B ++ leBytes 1 part ++ leBytes 2 asid.toNat ++ leBytes 2 qid ++ img.drop 0x10

/-- REGQ (13 R348, R349): the image is read once into system memory and checked; a queue that already holds packets is
pending. -/
def execRegq (s : State) : Host.Outcome State Fault Refusal :=
  s.serveRequest 0x08 fun mb w s => s.withContext mb (w 1) fun asid =>
    let free := (List.range 4096).filter fun q => SMap.get none s.queues q == none
    match s.chooseFrom free with
    | none => .refuse s outNoResource
    | some (qid, t) => match t.takeSystem asid 256 with
      | none => .refuse s outNoResource
      | some (a, t) =>
        let t := t.putSystem a (qcbImage (s.hostRead (w 2).toNat 256) mb qid asid)
        if s.ctxState asid ≠ 1 ∨ !t.qcbOk a then .refuse s outBadRequest
        else
          let pending := decide (t.memNat (a + 0x10) 8 < t.memNat (a + 0x18) 8)
          .answer outOk [BitVec.ofNat 64 qid] { t with
            queues := SMap.set none t.queues qid (some { qcb := a, part := mb, since := t.time })
            pendingQ := if pending then SMap.set false t.pendingQ qid true else t.pendingQ }

/-- A queue operand: not registered BAD_REQUEST, another partition's NOT_PERMITTED. -/
def execDeregq (s : State) : Host.Outcome State Fault Refusal :=
  s.serveRequest 0x09 fun mb w s =>
    match SMap.get none s.queues (w 1).toNat with
    | none => .refuse s outBadRequest
    | some r =>
      let qid := (w 1).toNat
      let held := (List.range 64).any fun n => (s.slot n).state != .unbound && (s.slot n).qid == qid
      if r.part ≠ mb then .refuse s outNotPermitted
      else if SMap.get false s.pendingQ qid ∨ held then .refuse s outBusy
      else .answer outOk [] { s with
        queues := SMap.set none s.queues qid none, taken := s.taken.filter fun t => t.base ≠ r.qcb }

end Sys2Proof.Machine
end

