-- ==== Sys2Proof/Machine/HostMsgs.lean ====
section
/-! DEFINITION. What the host does to a function: its BARs, accesses to granted pages, and the vendor-defined messages (13 R345 to
R347, 14 R377 to R379). -/

namespace Sys2Proof.Machine

/-- HOST_UR in a partition (18 R437). -/
def State.logHostUr (s : State) (part : Nat) (asid : BitVec 16) (ca : Nat) : State :=
  s.logAppend { code := 0x0024, cls := 0, part := part, asid := asid.toNat, source := 6 * 256, addr := ca }

/-! ### Accesses through the aperture (14 R377) -/

/-- A host read completes: with bytes, or as Unsupported Request. -/
def State.hostReply (s : State) (r : Option (List Byte)) : State := { s with host := { s.host with reads := s.host.reads ++ [r] } }

/-- An access that completes as Unsupported Request, and its record. -/
def State.hostRefused (s : State) (part : Nat) (asid : BitVec 16) (ca : Nat) (isRead : Bool) : State :=
  (if isRead then s.hostReply none else s).logHostUr part asid ca

/-- HOST_ACCESS (14 R377): a write of some bytes, or a read of 8, at an offset of a partition's aperture. -/
def execHostAccess (part : Nat) (offset : Nat) (wr : Option (List Byte)) (s : State) : Host.Outcome State Fault Refusal :=
  let n := match wr with | some bs => bs.length | none => 8
  offered (if 15 < part ∨ n = 0 ∨ 65536 < offset % 65536 + n then none
    else match s.host.grants.find? fun g => g.part == part && g.index == offset / 65536 with
      | none => some (s.hostRefused part 0 0 wr.isNone)
      | some g =>
        let ca := g.ca + offset % 65536
        if !(if wr.isSome then g.w else g.r) then some (s.hostRefused part g.asid ca wr.isNone)
        else match s.pieces g.asid (BitVec.ofNat 52 ca) (if wr.isSome then .w else .r) false n with
          | (.error _, s) => some (s.hostRefused part g.asid ca wr.isNone)
          | (.ok ps, s) =>
            if ps.any Piece.isHeld then none
            else match wr with
              | some bs => some (s.homeWrite g.asid none ca ps bs)
              | none => some (s.hostReply (some (ps.flatMap fun p => s.placeBytes p.place p.len))))

/-! ### Vendor-defined messages (14 R378, R379) -/

/-- A message of a code that the host sends, of its length and with its reserved bits zero (14 R378). -/
def VendorMsg.ok (m : VendorMsg) : Bool :=
  let dw := fun i => m.dws.getD i 0
  m.word.extractLsb' 0 24 == 0 &&
    match (m.word.extractLsb' 24 8).toNat with
    | 1 => m.dws.length == 6 && (dw 1).extractLsb' 0 16 == 0 && (dw 2).extractLsb' 25 7 == 0 && (dw 3).extractLsb' 18 14 == 0 &&
        (dw 3).extractLsb' 0 16 != 0 && dw 4 == 0 && dw 5 == 0
    | 4 => m.dws.length == 1 && (dw 0).extractLsb' 16 16 == 0
    | _ => false

/-- A message arrives at a function: a malformed one is dropped and logged. -/
def State.vendorArrive (s : State) (m : VendorMsg) : State :=
  if m.ok then { s with host := { s.host with vendorIn := s.host.vendorIn ++ [m] } }
  else s.hostDropped m.part 5 0 m.word.toNat

/-- Takes the message at the head of the queue, if it has a code. -/
def State.takeVendor (s : State) (code : Nat) : Option (VendorMsg × State) :=
  match s.host.vendorIn with
  | m :: l =>
    if (m.word.extractLsb' 24 8).toNat = code then some (m, { s with host := { s.host with vendorIn := l } }) else none
  | [] => none

/-- The chip address and permissions of a page of a unified range: PLAIN or MANAGED, backed by HBM, present in the ASID's page
table (14 R377). -/
def State.unifiedPage (s : State) (asid : BitVec 16) (va : Nat) : Option (Nat × Bool × Bool) :=
  match findRange (s.ctxRanges asid) (BitVec.ofNat 57 va) 0 8 with
  | none => none
  | some g =>
    let t := targetOf g (BitVec.ofNat 57 va) asid
    if t.win ∨ (t.cls ≠ .plain ∧ t.cls ≠ .managed) then none
    else match s.walk asid t.ca false with
      | .leaf l => if l.host then none else some (t.ca.toNat, l.r && g.getLsbD 192, l.w && g.getLsbD 193)
      | _ => none

/-- Grants a page if it may be had: its doubleword of XLATE_CPL. A page that a REVOKE names is not granted anew; where it lies in
the aperture is firmware's choice, one place for one page (log 32). -/
def State.grantPage (s : State) (part : Nat) (asid : BitVec 16) (va : Nat) (r w : Bool) : BitVec 32 × State :=
  match s.unifiedPage asid va with
  | none => (0, s)
  | some (ca, pr, pw) =>
    let c := match s.host.grants.find? fun g => g.part == part && g.asid == asid && g.va == va with
      | some g => (g.index, s)
      | none => s.choose 14
    let other := s.host.grants.any fun g => g.part == part && g.index == c.1 && !(g.asid == asid && g.va == va)
    let g : Grant := ⟨part, c.1, asid, va, ca, r, w⟩
    if (r && !pr) || (w && !pw) || other || s.host.revokes.any (fun q => q.names g) then (0, c.2)
    else
      let rest := c.2.host.grants.filter fun q => !(q.part == part && q.index == c.1)
      (BitVec.ofNat 24 c.1 ++ (0 : BitVec 5) ++ BitVec.ofBool w ++ BitVec.ofBool r ++ (1 : BitVec 1),
        { c.2 with host := { c.2.host with grants := rest ++ [g] } })

/-- Grants some pages in order. -/
def State.grantPages (s : State) (part : Nat) (asid : BitVec 16) (va : Nat) (r w : Bool) : Nat → List (BitVec 32) × State
  | 0 => ([], s)
  | n + 1 =>
    let q := s.grantPage part asid va r w
    let rest := q.2.grantPages part asid (va + 65536) r w n
    (q.1 :: rest.1, rest.2)

/-- XLATE_REQ (14 R377, R378): answered with XLATE_CPL; a request for more than 64 pages, or for a context that is not the
partition's, is refused whole. -/
def execXlateReq (s : State) : Host.Outcome State Fault Refusal :=
  offered ((s.takeVendor 1).map fun (q : VendorMsg × State) =>
    let m := q.1
    let s := q.2
    let dw := fun i => m.dws.getD i 0
    let asid : BitVec 16 := (dw 0).extractLsb' 16 16
    let va := (dw 1).toNat + (dw 2).toNat * 2 ^ 32
    let n := ((dw 3).extractLsb' 0 16).toNat
    let head := fun (n : Nat) => BitVec.ofNat 32 (((dw 0).extractLsb' 0 16).toNat + n * 65536)
    if 64 < n ∨ 1023 < asid.toNat ∨ s.ctxState asid ≠ 1 ∨ s.ctxPart asid ≠ m.part then
      s.sendVendor m.part 2 (head (min n 64) :: List.replicate (min n 64) 0)
    else
      let r := s.grantPages m.part asid va ((dw 3).getLsbD 16) ((dw 3).getLsbD 17) n
      r.2.sendVendor m.part 2 (head n :: r.1))

/-- REVOKE_ACK (14 R379): the pages that the REVOKE names leave the aperture. -/
def execRevokeAck (s : State) : Host.Outcome State Fault Refusal :=
  offered ((s.takeVendor 4).map fun q =>
    let tag := ((q.1.dws.getD 0 0).extractLsb' 0 16).toNat
    match q.2.host.revokes.find? fun r => r.tag == tag && r.part == q.1.part with
    | some r => q.2.dropGrants r
    | none => q.2)

/-- REVOKE_TIMEOUT (14 R379): 10 ms without REVOKE_ACK; the pages leave the aperture all the same, and the timeout is logged. -/
def execRevokeTimeout (s : State) : Host.Outcome State Fault Refusal :=
  offered (match s.host.revokes with
    | [] => none
    | r :: _ =>
      let s := s.until (r.sent + 10000000)
      some ((s.dropGrants r).logHostUr r.part r.asid
        (match s.host.grants.find? fun g => r.names g with | some g => g.ca | none => 0)))

/-! ### Writes to BAR0 (13 R346, R347) -/

/-- A host write to a mailbox region: REQ's words, RING, or a reserved or read-only place. -/
def State.mailboxWrite (s : State) (mb off : Nat) (bytes : List Byte) (drop : State) : State :=
  if off < 64 ∧ off + bytes.length ≤ 64 then
    let m := s.mailbox mb
    let old := (List.range 8).flatMap fun i => leBytes 8 (SMap.get 0 m.req i).toNat
    let new := old.take off ++ bytes ++ old.drop (off + bytes.length)
    s.setMailbox mb { m with
      req := SMap.entries 0 0 ((List.range 8).map fun i => BitVec.ofNat 64 (leNat ((new.drop (8 * i)).take 8))) }
  else if off = 64 ∧ bytes.length = 4 then
    match execMailboxRing mb (BitVec.ofNat 32 (leNat bytes)) s with | .next t => t | _ => s
  else drop

/-- A host write at an offset of BAR0 of a function, 16 the upstream one: a doorbell, a mailbox, the MSI-X structures (which the
manual leaves to PCIe, log 33), or a place whose writes are dropped and logged. -/
def State.barWrite (s : State) (fn off : Nat) (bytes : List Byte) : State :=
  let part := functionOf fn
  let n := bytes.length
  if off < 0x8000 ∧ fn ≠ 16 then
    (if n = 8 ∧ off % 8 = 0 then
      (match execKick fn (off / 8) (BitVec.ofNat 64 (leNat bytes)) s with | .next t => t | _ => s)
    else s.hostDropped part 2 0 off)
  else if 0x8000 ≤ off ∧ off + n ≤ 0x80C0 then s.mailboxWrite fn (off - 0x8000) bytes (s.hostDropped part 3 0 off)
  else if (0x10000 ≤ off ∧ off + n ≤ 0x10040) ∨ (0x18000 ≤ off ∧ off + n ≤ 0x18008) then s
  else s.hostDropped part 3 0 off

end Sys2Proof.Machine
end

