-- ==== Sys2Proof/Machine/HeapReqs.lean ====
section
/-! DEFINITION. Claims and publications of the relocation engines, with the memory supervisor's part in a page migration, and the
requests about heaps (13 R348, 15 R396 to R405). -/

namespace Sys2Proof.Machine

/-! ### Claims (15 R397, R405) -/

/-- The claim of a page: its lines move in place; a page that a PROBE holds, or that is granted to the host, is left until it is
let go (14 R374, R379, 15 R405). -/
def State.claimPage (s : State) (die : Nat) (r : Reloc) : Option State :=
  let src := s.memNat (r.desc + 0x10) 8
  let size := 2 ^ pageLog (s.memNat (r.desc + 0x20) 1)
  let mine := fun (g : Grant) => decide (g.ca < src + size) && decide (src < g.ca + 65536)
  if s.probedIn 0xFFFF src size then none
  else if s.host.grants.any mine then
    let t := s.revokeGrants mine
    if t = s then none else some t
  else
    let m : ObjMove := { index := 0, fromVa := 0, toVa := 0, fromCa := src, toCa := src, lines := size / 128 }
    some (s.setReloc die { r with move := some m })

/-- OBJECT_CLAIM (15 R397) -/
def execObjectClaim (die : Nat) (s : State) : Host.Outcome State Fault Refusal :=
  let r := s.reloc die
  offered (if r.state ≠ 1 ∨ r.paused ∨ r.move.isSome then none
    else if r.page.isSome then s.claimPage die r
    else some (s.claimObject die r))

/-! ### Publications (15 R397, R405) -/

/-- Rewrites the leaves of a context that map some pages (15 R405). -/
def State.rewriteLeaves (s : State) (asid : BitVec 16) (src size pa : Nat) : State :=
  (s.leavesIn asid src (src + size) (size / 65536)).foldl (fun s (l : Nat × Nat × Nat) =>
    if l.1 < src ∨ src + size < l.1 + 2 ^ l.2.1 then s
    else
      let e : W64 := BitVec.ofNat 64 (s.memNat l.2.2 8)
      s.putSystem l.2.2 (leBytes 8 ((e &&& 0xFFF000000000FFFF) ||| BitVec.ofNat 64 (pa + (l.1 - src))).toNat)) s

/-- The memory supervisor's part once every line of a page is COPIED (15 R405): the leaves, the home map for a move to another
die, INVAL with FLUSH, and the old page is released. -/
def State.settlePage (s : State) (r : Reloc) (pa die : Nat) : State :=
  let src := s.memNat (r.desc + 0x10) 8
  let size := 2 ^ pageLog (s.memNat (r.desc + 0x20) 1)
  let s := (List.range 1024).foldl (fun s i =>
    let a := BitVec.ofNat 16 i
    if s.ctxState a = 0 then s else s.rewriteLeaves a src size pa) s
  let g := src / 2 ^ 29
  let e := SMap.get 0 s.homeMap g
  let s := if (e.extractLsb' 0 2).toNat = die then s
    else { s with homeMap := SMap.set 0 s.homeMap g ((e &&& 0xFFFC) ||| BitVec.ofNat 16 die) }
  let moved := fun (t : Taken) => match t.ca with
    | some ca => if src ≤ ca ∧ ca < src + size then { t with base := pa + (ca - src) } else t
    | none => t
  { s with taken := s.taken.map moved }.inval 0xFFFF src size true

/-- PUBLISH (15 R397 steps 3 and 4): the forwarding entry, FWD in the from-space header, and the next object; a migrated page is
settled. Pins held at a header are released with it. -/
def execPublish (die : Nat) (s : State) : Host.Outcome State Fault Refusal :=
  let r := s.reloc die
  offered (match r.move with
    | none => none
    | some m =>
      if m.copied < m.lines then none
      else
        let r' := { r with done := r.done + 1 }.advance
        match r.page with
        | some (pa, home) => some ((s.settlePage r pa home).putReloc die r')
        | none =>
          let h := s.hcbAddr r.asid r.heap
          let l := s.memNat (h + 4) 1
          let s := s.insertFwd (s.memNat (h + 8) 8) (2 ^ l) m.fromVa m.toVa (fhash (BitVec.ofNat 57 m.fromVa) l) (2 ^ l)
          let s := match s.homePa r.asid (BitVec.ofNat 52 m.fromCa) with
            | some pa =>
              let x : W64 := BitVec.ofNat 64 (s.memNat pa 8)
              s.memPut pa 8 ((x &&& 0x3FFFFFFFFFFFFFFF) ||| 0x8000000000000000).toNat
            | none => s
          some (s.putReloc die r'))

/-! ### Requests (13 R348) -/

/-- The die that homes the set of a descriptor: that of its first entry, or of its page (13 R348, 15 R395); D0 where none does,
so that the start is refused. -/
def State.setDie (s : State) (a : Nat) : Nat :=
  if s.memNat a 1 = 1 then s.homeDie (BitVec.ofNat 52 (s.memNat (a + 0x10) 8))
  else
    let asid := BitVec.ofNat 16 (s.memNat (a + 2) 2)
    let frm := (s.setEntry (s.memNat (a + 8) 8) 0).1
    ((List.range 4).find? fun d => (s.managedAt asid (s.memNat (a + 1) 1) d frm).isSome).getD 0

/-- A descriptor names a context, or a page, of a partition. -/
def State.setOwned (s : State) (mb a : Nat) : Bool :=
  if s.memNat a 1 = 1 then
    (List.range 1024).any fun i =>
      let c := BitVec.ofNat 16 i
      s.ctxState c == 1 && s.ctxPart c == mb && (s.leafOf c (s.memNat (a + 0x10) 8)).isSome
  else s.ctxPart (BitVec.ofNat 16 (s.memNat (a + 2) 2)) == mb

/-- HEAPSTART: RELOC.start on the die that homes the set; V1 its status word. -/
def execHeapstart (s : State) : Host.Outcome State Fault Refusal :=
  s.serveRequest 0x18 fun mb w s =>
    let a := (w 1).toNat
    if a % 128 ≠ 0 ∨ !s.systemRun a 128 then .refuse s outBadRequest
    else if !s.setOwned mb a then .refuse s outNotPermitted
    else
      let die := s.setDie a
      let r := s.relocStart die a
      .answer outOk [(r.2.reloc die).status r.1] r.2

/-- HEAPQUERY: the status word of a die's engine. -/
def execHeapquery (s : State) : Host.Outcome State Fault Refusal :=
  s.serveRequest 0x19 fun _ w s =>
    if 3 < (w 1).toNat then .refuse s outBadRequest else .answer outOk [(s.reloc (w 1).toNat).status 0] s

/-- HEAPABORT: RELOC.abort on a die; a set of another partition's context is not the driver's to abort. -/
def execHeapabort (s : State) : Host.Outcome State Fault Refusal :=
  s.serveRequest 0x1A fun mb w s =>
    let die := (w 1).toNat
    let r := s.reloc die
    if 3 < die then .refuse s outBadRequest
    else if r.state = 1 ∧ r.page.isNone ∧ s.ctxPart r.asid ≠ mb then .refuse s outNotPermitted
    else
      let q := s.relocAbort die
      .answer outOk [(q.2.reloc die).status q.1] q.2

/-- HEAPPUB (15 R398): a set that is not COPIED is BUSY; the answer follows the last core's acknowledgement. -/
def execHeappub (s : State) : Host.Outcome State Fault Refusal :=
  s.serveRequest 0x1B fun mb w s => s.withContext mb (w 1) fun asid =>
    let h := (w 2).toNat
    if 7 < h then .refuse s outBadRequest
    else if (s.mailbox mb).phase = 0 then
      (if s.ctxState asid ≠ 1 then .refuse s outBadRequest
      else if s.memNat (s.hcbAddr asid h) 1 ≠ 3 then .refuse s outBusy
      else .wait ((s.publishHeap asid h).setPhase mb 1))
    else if (s.coresOf asid).any fun k => (s.core k).recolors.any fun q => q.1 == h then .wait s
    else .answer outOk [] (s.memPut (s.hcbAddr asid h) 1 4)

/-- The source span of entry i of a published set, if its object has moved: chip address and length (15 R402). -/
def State.movedSpan (s : State) (asid : BitVec 16) (heap list i : Nat) : Option (Nat × Nat) :=
  match (List.range 4).findSome? fun d => s.managedAt asid heap d (s.setEntry list i).1 with
  | none => none
  | some ca => match s.homePa asid ca with
    | none => none
    | some pa =>
      let x : W64 := BitVec.ofNat 64 (s.memNat pa 8)
      if x.getLsbD 63 then some (ca.toNat, (16 * (x.extractLsb' 0 32).toNat + 127) / 128 * 128) else none

/-- Puts a span into a sorted list; one that is there already is not put twice. -/
def putSpan (x : Nat × Nat) : List (Nat × Nat) → List (Nat × Nat)
  | [] => [x]
  | y :: l => if x = y then y :: l else if x.1 < y.1 then x :: y :: l else y :: putSpan x l

/-- Merges adjacent spans of a sorted list. -/
def mergeSpans : List (Nat × Nat) → List (Nat × Nat)
  | [] => []
  | x :: l => match mergeSpans l with
    | y :: r => if x.1 + x.2 = y.1 then (x.1, x.2 + y.2) :: r else x :: y :: r
    | [] => [x]

/-- HEAPFREE (15 R402): the merged spans, four of them recorded where there are more, which four being firmware's choice (log
32); the table zeroed, SETDESC and STATE 0, INVAL over the spans. -/
def State.freeHeap (s : State) (asid : BitVec 16) (heap : Nat) : State :=
  let h := s.hcbAddr asid heap
  let desc := s.memNat (h + 0x10) 8
  let list := s.memNat (desc + 8) 8
  let spans := mergeSpans (((List.range (s.memNat (desc + 4) 4)).filterMap (s.movedSpan asid heap list)).foldl (fun l x => putSpan x l) [])
  let c := s.choose 32
  let s := c.2
  let kept := (spans.rotateLeft (c.1 % max 1 spans.length)).take 4
  let record := (List.range 4).flatMap fun i => leBytes 8 (kept.getD i (0, 0)).1 ++ leBytes 8 (kept.getD i (0, 0)).2
  let s := s.putSystem (h + 0x20) record
  let s := { s with mem := SMap.clear s.mem (s.memNat (h + 8) 8) (16 * 2 ^ s.memNat (h + 4) 1) }
  let s := (s.putSystem h (leBytes 1 0)).putSystem (h + 0x10) (leBytes 8 0)
  let s := (List.range 4).foldl (fun s d =>
    let r := s.reloc d
    if r.state = 4 ∧ r.page.isNone ∧ r.asid = asid ∧ r.heap = heap then s.setReloc d { r with state := 0 } else s) s
  spans.foldl (fun s x =>
    let s := s.inval asid.toNat (x.1 / 65536 * 65536) ((x.1 + x.2 + 65535) / 65536 * 65536 - x.1 / 65536 * 65536) false
    { s with moves := s.moves.filter fun q => !(decide (x.1 / 128 ≤ q.1) && decide (q.1 < (x.1 + x.2) / 128)) }) s

/-- HEAPFREE (13 R348, 15 R402): a set that is not PUBLISHED is BUSY. -/
def execHeapfree (s : State) : Host.Outcome State Fault Refusal :=
  s.serveRequest 0x1C fun mb w s => s.withContext mb (w 1) fun asid =>
    let h := (w 2).toNat
    if 7 < h then .refuse s outBadRequest
    else if s.memNat (s.hcbAddr asid h) 1 ≠ 4 then .refuse s outBusy
    else .answer outOk [] (s.freeHeap asid h)

end Sys2Proof.Machine
end

