-- ==== Sys2Proof/Machine/DebugReqs.lean ====
section
/-! DEFINITION. Requests of a driver's tools and of a debugger: capture packets, region breakpoints, halts, patched bundles, and log
records (10 R303, R308 to R312, 13 R348, 18 R442). -/

namespace Sys2Proof.Machine

/-- The level of a debugger attached to a partition; one at D3 is attached to the package (20 R494). -/
def State.debugLevel (s : State) (part : Nat) : Nat := if s.sec.d3 then 3 else SMap.get 0 s.sec.level part

/-- CAPTURE (10 R303): the packet goes to the sites of a die that a mask names. -/
def execCapture (s : State) : Host.Outcome State Fault Refusal :=
  s.serveRequest 0x20 fun mb w s =>
    let mask : BitVec 192 := w 6 ++ w 5 ++ w 4
    if (w 1).extractLsb' 0 44 ≠ 0 ∨ 3 < (w 3).toNat ∨ mask.extractLsb' 144 48 ≠ 0 then .refuse s outBadRequest
    else s.withContext mb (((w 1).extractLsb' 48 16).zeroExtend 64) fun asid =>
      let p : CapturePacket := ⟨w 2, asid, (w 1).extractLsb' 46 2, (w 1).extractLsb' 44 2⟩
      let sites := (List.range 144).filter fun i => mask.getLsbD i
      .answer outOk [] (sites.foldl (fun s i => s.modCore (144 * (w 3).toNat + i) fun c =>
        { c with acct := { c.acct with packets := c.acct.packets ++ [p] } }) s)

/-- REGIONBP (10 R310): for a debugger at D2; the register may watch a context of the partition only. -/
def execRegionbp (s : State) : Host.Outcome State Fault Refusal :=
  s.serveRequest 0x21 fun mb w s =>
    let asid := (w 4).extractLsb' 48 16
    if s.debugLevel mb < 2 then .refuse s outNotPermitted
    else if 3 < (w 1).toNat ∨ 143 < (w 2).toNat ∨ 3 < (w 3).toNat ∨ (w 4).extractLsb' 18 30 ≠ 0 then .refuse s outBadRequest
    else if asid ≠ 0 ∧ s.ctxPart asid ≠ mb then .refuse s outNotPermitted
    else .answer outOk [] (s.modCore (144 * (w 1).toNat + (w 2).toNat) fun c =>
      { c with hooks := { c.hooks with regionBp := SMap.set 0 c.hooks.regionBp (w 3).toNat (w 4) } })

/-! ### Halts (10 R308, R309) -/

/-- Cores of a context that a request names: those whose logical number a mask holds, or all for 0 (log 34). -/
def State.maskedCores (s : State) (asid : BitVec 16) (mask : W64) : List Nat :=
  (s.coresOf asid).filter fun k => (s.core k).item.isSome && (mask == 0 || (decide (s.logicalOf k < 64) && mask.getLsbD (s.logicalOf k)))

/-- Serves HALT's request in one of its modes, for a debugger at D2, on each core named. -/
def State.haltRequest (s : State) (mode : W64 → Bool) (f : Core → Nat → Core) : Host.Outcome State Fault Refusal :=
  s.serveForm 0x22 2 mode fun mb w s =>
    if 3 < (w 2).toNat then .refuse s outBadRequest
    else s.withContext mb (w 1) fun asid =>
      if s.debugLevel mb < 2 then .refuse s outNotPermitted
      else .answer outOk [] ((s.maskedCores asid (w 3)).foldl (fun s k => s.modCore k fun c => f c s.time) s)

/-- A halted core runs on; its item's watchdog timer has stood still (10 R309). -/
def Core.unhalt (c : Core) (now : Nat) : Core :=
  if !c.cr.halt then c
  else { c with
    cr := { c.cr with halt := false }
    item := c.item.map fun i => { i with wdogStart := i.wdogStart + (now - c.hooks.haltedAt) } }

/-- HALT (10 R308): each core halts at its next region edge. -/
def execHalt (s : State) : Host.Outcome State Fault Refusal :=
  s.haltRequest (fun x => x == 0 || decide (3 < x.toNat)) fun c _ => { c with hooks := { c.hooks with haltRequest := true } }

/-- CONTINUE (10 R309) -/
def execContinueRun (s : State) : Host.Outcome State Fault Refusal := s.haltRequest (· == 1) Core.unhalt

/-- STEP_TO_EDGE (10 R309): HALT is cleared and the halt request renewed. -/
def execStepToEdge (s : State) : Host.Outcome State Fault Refusal :=
  s.haltRequest (· == 2) fun c now =>
    if c.cr.halt then { c.unhalt now with hooks := { c.hooks with haltRequest := true } } else c

/-- STEP_BUNDLE (10 R309): the core halts again at the next bundle boundary. -/
def execStepBundle (s : State) : Host.Outcome State Fault Refusal :=
  s.haltRequest (· == 3) fun c now =>
    if c.cr.halt then { c.unhalt now with hooks := { c.hooks with stepBundle := true } } else c

/-! ### Patches (10 R311, R312) -/

/-- Sets or clears bit 24 of a bundle header of a context, and shoots the line down; none where no page is there to fetch. -/
def State.patchHeader (s : State) (mb : Nat) (asid : BitVec 16) (va : Nat) (on : Bool) : Option State :=
  match findRange (s.ctxRanges asid) (BitVec.ofNat 57 va) 0 8 with
  | none => none
  | some g =>
    let t := targetOf g (BitVec.ofNat 57 (va + 3)) asid
    if !g.getLsbD 194 then none
    else match s.pieces asid t.ca .x false 1 with
      | (.ok ps, s) =>
        let old := (ps.flatMap fun p => s.placeBytes p.place p.len).getD 0 0
        let new := if on then old ||| 1 else old &&& 0xFE
        some ((s.homeWrite asid none t.ca.toNat ps [new]).shootDown (some mb) asid va (t.ca.toNat / 128) (s.partCores mb))
      | (.error _, _) => none

/-- Serves PATCH: the answer follows the last acknowledgement, or its timeout. -/
def State.patchRequest (s : State) (on : Bool) (form : W64 → Bool) : Host.Outcome State Fault Refusal :=
  s.serveForm 0x23 3 form fun mb w s =>
    if (s.mailbox mb).phase = 1 then .wait s
    else if s.debugLevel mb < 2 then .refuse s outNotPermitted
    else if 1 < (w 3).toNat ∨ (w 2).toNat % 4 ≠ 0 ∨ 2 ^ 57 ≤ (w 2).toNat then .refuse s outBadRequest
    else s.withContext mb (w 1) fun asid =>
      match s.patchHeader mb asid (w 2).toNat on with
      | none => .refuse s outBadRequest
      | some t =>
        if s.partCores mb = [] then .answer outOk [0] { t with patches := s.patches } else .wait (t.setPhase mb 1)

/-- PATCH_SET (10 R311, R312) -/
def execPatchSet (s : State) : Host.Outcome State Fault Refusal := s.patchRequest true fun x => x == 0 || decide (1 < x.toNat)

/-- PATCH_CLEAR (10 R311, R312) -/
def execPatchClear (s : State) : Host.Outcome State Fault Refusal := s.patchRequest false fun x => x == 1

/-! ### LOGREAD (18 R441, R442) -/

/-- LOGREAD: LOGR.read on the requester's behalf: a partition's driver reads its records, the upstream function's those of PART
31. -/
def execLogread (s : State) : Host.Outcome State Fault Refusal :=
  s.serveRequest 0x28 fun mb w s =>
    match s.findRecord (w 1).toNat fun n => s.memNat (s.recordAt n + 0x13) 1 % 32 == functionOf mb with
    | none => .answer outOk [BitVec.ofNat 64 (2 ^ 63 + s.logSeq)] s
    | some n => .answer outOk [BitVec.ofNat 64 n] (s.hostWrite (w 2).toNat (s.memBytes (s.recordAt n) 64))

end Sys2Proof.Machine
end

