-- ==== Sys2Proof/Machine/Admin.lean ====
section
/-! DEFINITION. Requests of the upstream function's driver, attestation, debug attachment and ownership (13 R348, 14 R357, 18 R451,
R453, R459, 19 R472, R479, 20 R486, R490 to R496). -/

namespace Sys2Proof.Machine

/-! ### PARTSET (14 R357) -/

/-- The descriptor in 256 bytes; none where a reserved field is not zero or a port or share is out of range. -/
def partitionOfBytes (b : List Byte) : Option Partition :=
  let flags := fieldOf b 1 1
  let shares := (List.range 18).map fun i => fieldOf b (0x88 + i) 1
  if 15 < fieldOf b 0 1 ∨ 4 ≤ flags ∨ fieldOf b 4 4 ≠ 0 ∨ fieldOf b 0x9A 102 ≠ 0 ∨ 2 ^ 544 ≤ fieldOf b 0x10 72 ∨
      (shares.any fun x => decide (16 < x)) then none
  else some
    { port := fieldOf b 0 1, strict := flags / 2 == 1, ways := BitVec.ofNat 16 (fieldOf b 2 2)
      qslots := BitVec.ofNat 64 (fieldOf b 8 8), cores := BitVec.ofNat 576 (fieldOf b 0x10 72)
      channels := BitVec.ofNat 384 (fieldOf b 0x58 48), shares := shares }

/-- Two partitions share a core, way, channel or queue slot. -/
def Partition.meets (p q : Partition) : Bool :=
  p.ways &&& q.ways != 0 || p.qslots &&& q.qslots != 0 || p.cores &&& q.cores != 0 || p.channels &&& q.channels != 0

/-- The supervisor's checks of a descriptor against the other valid partitions. -/
def Partition.admitted (p : Partition) (others : List Partition) : Bool :=
  (others.all fun q => !((p.strict || q.strict) && p.meets q) && p.port != q.port) &&
    (List.range 18).all fun i => decide (others.foldl (fun a q => a + q.shares.getD i 0) (p.shares.getD i 0) ≤ 16)

/-- cr.status.DBG shows the level attached to each core's partition (20 R494). -/
def State.refreshDbg (s : State) : State :=
  let levels := (s.parts.filterMap fun q => q.2.map fun _ => q.1).flatMap fun p => (s.partCores p).map fun k => (k, s.debugLevel p)
  (List.range 580).foldl (fun s k =>
    let d := match levels.find? fun q => q.1 == k with | some q => q.2 | none => if s.sec.d3 then 3 else 0
    if (s.core k).cr.dbg.toNat = d then s else s.modCore k fun c => { c with cr := { c.cr with dbg := BitVec.ofNat 2 d } }) s

/-- PARTSET -/
def execPartset (s : State) : Host.Outcome State Fault Refusal :=
  s.serveRequest 0x40 fun _ w s =>
    let n := (w 1).toNat
    let b := s.hostRead (w 2).toNat 256
    if 15 < n then .refuse s outBadRequest
    else match partitionOfBytes b with
      | none => .refuse s outBadRequest
      | some p =>
        let others := s.parts.filterMap fun q => if q.1 = n then none else q.2
        let valid := fieldOf b 1 1 % 2 == 1
        if valid && !p.admitted others then .refuse s outBadRequest
        else .answer outOk [] { s with parts := SMap.set none s.parts n (if valid then some p else none) }.refreshDbg

/-! ### WHORLSET, PINLEVEL and WEARREAD -/

/-- WHORLSET (19 R472) -/
def execWhorlset (s : State) : Host.Outcome State Fault Refusal :=
  s.serveRequest 0x41 fun _ w s =>
    let period := ((w 2).extractLsb' 32 32).toNat
    let drain := ((w 2).extractLsb' 16 16).toNat
    if 3 < (w 1).toNat ∨ period < 100 ∨ 600000 < period ∨ drain < 1 ∨ 1000 < drain ∨ (w 2).extractLsb' 1 15 ≠ 0 then
      .refuse s outBadRequest
    else .answer outOk [] (s.putSystem (s.bases.whorl + 64 * (w 1).toNat) (leBytes 8 (w 2).toNat))

/-- PINLEVEL (20 R486) -/
def execPinlevel (s : State) : Host.Outcome State Fault Refusal :=
  s.serveRequest 0x42 fun _ w s =>
    if (w 1).toNat < 700 ∨ 2400 < (w 1).toNat then .refuse s outBadRequest
    else .answer outOk [] (s.setLevels fun p => { p with pinLevel := (w 1).toNat })

/-- Bytes of the wear log. -/
def wearSize : Nat := wearPackage + 32

/-- The counter that a byte of the wear log belongs to: its offset and width (19 R479, log 30). -/
def wearCounter (i : Nat) : Nat × Nat :=
  let at_ := fun (base w : Nat) => (base + (i - base) / w * w, w)
  if i < wearDie 0 then
    let b := i / 328 * 328
    if i < b + 48 then at_ b 8 else if i < b + 72 then at_ (b + 48) 4 else at_ (b + 72) 16
  else if i < wearPort 0 then
    let b := wearDie 0 + (i - wearDie 0) / 224 * 224
    if i < b + 216 then at_ b 8 else at_ (b + 216) 4
  else if i < wearPackage then at_ (wearPort 0) 4
  else at_ wearPackage 8

/-- `n` bytes of the wear log from an offset. -/
def State.wearBytes (s : State) (off n : Nat) : List Byte :=
  (List.range n).map fun i => BitVec.ofNat 8 (SMap.get 0 s.wear (wearCounter (off + i)).1 / 2 ^ (8 * (off + i - (wearCounter (off + i)).1)))

/-- WEARREAD (19 R479) -/
def execWearread (s : State) : Host.Outcome State Fault Refusal :=
  s.serveRequest 0x43 fun _ w s =>
    let off := (w 1).toNat
    let n := (w 2).toNat
    if wearSize < off + n then .refuse s outBadRequest
    else .answer outOk [] (s.hostWrite (w 3).toNat (s.wearBytes off n))

/-! ### The scale-out engine's tables (18 R451, R453, R459) -/

/-- SETID: the identifier may be set again only after every port has been taken down; the ports send INIT anew. -/
def execSetid (s : State) : Host.Outcome State Fault Refusal :=
  s.serveRequest 0x44 fun _ w s =>
    let k := s.link
    if 0x7FFFF < (w 1).toNat then .refuse s outBadRequest
    else if k.devId.isSome ∧ ((List.range 18).any fun n => (k.port n).locked && !(k.port n).down) then .refuse s outBusy
    else
      let k := { k with devId := some ((w 1).extractLsb' 0 20) }
      let k := (List.range 18).foldl (fun k n =>
        if (k.port n).locked then k.setPort n { k.port n with control := some (k.initUnit n) } else k) k
      .answer outOk [] { s with link := k }

/-- ROUTESET -/
def execRouteset (s : State) : Host.Outcome State Fault Refusal :=
  s.serveRequest 0x45 fun _ w s =>
    let i := (w 2).toNat
    let mask := (w 3).extractLsb' 0 18
    if 1 < (w 1).toNat ∨ (if w 1 = 0 then 4096 else 256) ≤ i ∨ 2 ^ 18 ≤ (w 3).toNat then .refuse s outBadRequest
    else if w 1 = 0 then .answer outOk [] { s with link := { s.link with mainRoutes := SMap.set 0 s.link.mainRoutes i mask } }
    else .answer outOk [] { s with link := { s.link with localRoutes := SMap.set 0 s.link.localRoutes i mask } }

/-- GROUPSET: the members, four bytes each (log 35), of one of up to 256 groups; a fenced member that is listed is readmitted. -/
def execGroupset (s : State) : Host.Outcome State Fault Refusal :=
  s.serveRequest 0x46 fun _ w s =>
    let g := (w 1).toNat
    let n := (w 3).toNat
    let k := s.link
    let members := if n ≤ 1024 then (List.range n).map fun i => leNat (s.hostRead ((w 2).toNat + 4 * i) 4) else []
    if g < 0x80000 ∨ 0xFFFFF < g ∨ 1024 < n ∨ (members.any fun m => decide (0x7FFFF < m)) then .refuse s outBadRequest
    else if SMap.get [] k.groups g = [] ∧ 256 ≤ k.groups.length then .refuse s outNoResource
    else .answer outOk [] { s with link := { k with
      groups := SMap.set [] k.groups g members
      fenced := k.fenced.filter fun f => f.1 ≠ g
      heard := members.foldl (fun h m => SMap.set 0 h (2 ^ 20 * g + m) s.time) k.heard } }

/-- IMPORT -/
def execImportEntry (s : State) : Host.Outcome State Fault Refusal :=
  s.serveRequest 0x47 fun _ w s =>
    let base := (w 3).toNat
    let n := (w 4).toNat
    if 15 < (w 1).toNat ∨ 63 < (w 2).toNat ∨ 0x7FFFF < base ∨ 0x80000 < base + n then .refuse s outBadRequest
    else .answer outOk [] { s with link := { s.link with
      imports := SMap.set (0, 0) s.link.imports (64 * (w 1).toNat + (w 2).toNat) (if n = 0 then (0, 0) else (base, n)) } }

/-! ### Attestation (20 R492, R493) -/

/-- LIFECYCLE as reports code it. -/
def Lifecycle.code : Lifecycle → Nat
  | .manufacture => 0 | .production => 1 | .returned => 2 | .retired => 3

/-- An attestation report with a scope: 0xFF, or a partition. -/
def State.report (s : State) (scope : Nat) (nonce : W256) : List Byte :=
  let level := fun p => if scope = 0xFF ∨ scope = p then SMap.get 0 s.sec.level p else 0
  let body := leBytes 4 0x5A415454 ++ leBytes 4 deviceStepping ++ leBytes 1 s.sec.lifecycle.code ++ leBytes 1 scope ++
    (List.range 16).flatMap (fun p => leBytes 1 (level p)) ++ leBytes 1 (if s.sec.d3 then 1 else 0) ++ leBytes 5 0 ++
    leBytes 32 nonce.toNat ++ leBytes 64 s.sec.measure.toNat ++ leBytes 32 Config.identityKey.toNat ++
    leBytes 32 (s.sec.ownerKey.getD 0).toNat
  body ++ leBytes 64 (Config.identitySign body).toNat

/-- ATTEST (20 R493) -/
def execAttest (s : State) : Host.Outcome State Fault Refusal :=
  s.serveRequest 0x30 fun mb w s =>
    .answer outOk [] (s.hostWrite (w 5).toNat (s.report (if mb = 16 then 0xFF else mb) (w 4 ++ w 3 ++ w 2 ++ w 1)))

/-! ### Signed records (20 R494, R495) -/

/-- DBGCHAL: a fresh challenge. -/
def execDbgchal (s : State) : Host.Outcome State Fault Refusal :=
  s.serveRequest 0x31 fun _ _ s =>
    let x := Config.freeBits s.free (2 ^ 22) 256
    .answer outOk [x.extractLsb' 0 64, x.extractLsb' 64 64, x.extractLsb' 128 64, x.extractLsb' 192 64]
      { s with free := s.free + 1, sec := { s.sec with challenge := some (x, s.time) } }

/-- A record of a code, with its zero fields zero. -/
def recordShape (b : List Byte) (code : Nat) (newKey : Bool) : Bool :=
  fieldOf b 0 4 == code && decide (fieldOf b 4 1 ≤ 3) && fieldOf b 7 25 == 0 && fieldOf b 0x60 32 == 0 &&
    (newKey || fieldOf b 0x40 32 == 0)

/-- The key that a record's SIGNER names: the owner's, an intact vendor slot's, or NEWKEY. -/
def State.signerKey (s : State) (b : List Byte) : Option W256 :=
  match fieldOf b 4 1 with
  | 0 => s.sec.ownerKey
  | 1 => if SMap.get false s.sec.revoked 0 then none else Config.vendorKey 0
  | 2 => if SMap.get false s.sec.revoked 1 then none else Config.vendorKey 1
  | _ => some (BitVec.ofNat 256 (fieldOf b 0x40 32))

/-- The challenge is the one issued, not a second old, and the signature holds. -/
def State.recordSigned (s : State) (b : List Byte) : Bool :=
  match s.sec.challenge, s.signerKey b with
  | some (x, t), some k =>
    fieldOf b 0x20 32 == x.toNat && decide (s.time ≤ t + 1000000000) &&
      Config.signed k (b.take 0x80 ++ leBytes 32 Config.identityKey.toNat) (b.drop 0x80)
  | _, _ => false

/-- A challenge is used once. -/
def State.useChallenge (s : State) : State := { s with sec := { s.sec with challenge := none } }

/-- A debug level that a lifecycle state allows (20 R494). -/
def Lifecycle.allows (l : Lifecycle) (level : Nat) : Bool :=
  match l with
  | .manufacture => decide (level ≤ 3)
  | .production => decide (level ≤ 2)
  | .returned => level == 0 || level == 3
  | .retired => level == 0

/-- DBGATTACH (20 R495): D1 and D2 for the owner and one partition, D3 for the vendor and the package. -/
def execDbgattach (s : State) : Host.Outcome State Fault Refusal :=
  s.serveRequest 0x32 fun mb w s =>
    let b := s.hostRead (w 1).toNat 192
    let level := fieldOf b 5 1
    let part := fieldOf b 6 1
    let signer := fieldOf b 4 1
    if !recordShape b 0x32 false ∨ level = 0 ∨ 3 < level ∨ (if level = 3 then part ≠ 0xFF else 15 < part) then .refuse s outBadRequest
    else if !s.sec.lifecycle.allows level ∨ (mb ≠ 16 ∧ level ≠ 3 ∧ part ≠ mb) then .refuse s outNotPermitted
    else if !(if level = 3 then signer == 1 || signer == 2 else signer == 0) ∨ !s.recordSigned b then
      .refuse s.useChallenge outBadSignature
    else
      let s := s.useChallenge
      let sec := if level = 3 then { s.sec with d3 := true } else { s.sec with level := SMap.set 0 s.sec.level part level }
      .answer outOk [] { s with sec := sec }.refreshDbg

/-- Every core that a debugger may no longer hold runs on (10 R309). -/
def State.releaseHalts (s : State) : State :=
  (s.cores.map fun q => q.1).foldl (fun s k =>
    let c := s.core k
    if (c.cr.halt || c.hooks.haltRequest || c.hooks.stepBundle) && decide (s.debugLevel (s.ctxPart c.cr.asid) < 2) then
      s.modCore k fun c => { c.unhalt s.time with hooks := { c.hooks with haltRequest := false, stepBundle := false } }
    else s) s

/-- Every attachment ends: at the power-fail signal, and at a change of the lifecycle (20 R495). -/
def State.detachAll (s : State) : State :=
  ({ s with sec := { s.sec with level := [], d3 := false } }.refreshDbg).releaseHalts

/-- DBGDETACH (20 R495): a partition's driver may end its own attachment only. -/
def execDbgdetach (s : State) : Host.Outcome State Fault Refusal :=
  s.serveRequest 0x33 fun mb w s =>
    let p := (w 1).toNat
    if p ≠ 0xFF ∧ 15 < p then .refuse s outBadRequest
    else if mb ≠ 16 ∧ p ≠ mb then .refuse s outNotPermitted
    else
      let sec := if p = 0xFF then { s.sec with d3 := false } else { s.sec with level := SMap.set 0 s.sec.level p 0 }
      .answer outOk [] ({ s with sec := sec }.refreshDbg).releaseHalts

/-! ### Ownership and lifecycle (20 R490, R496) -/

/-- Serves a lifecycle request: a record that does not fit the state is NOT_PERMITTED, one that is not signed as it must be
BAD_SIGNATURE. -/
def State.lifecycleRequest (s : State) (code : Nat) (newKey : Bool) (fits : Security → Nat → Bool)
    (f : List Byte → State → State) : Host.Outcome State Fault Refusal :=
  s.serveRequest code fun _ w s =>
    let b := s.hostRead (w 1).toNat 192
    if !recordShape b code newKey ∨ fieldOf b 5 1 ≠ 0 ∨ fieldOf b 6 1 ≠ 0xFF then .refuse s outBadRequest
    else if !fits s.sec (fieldOf b 4 1) then .refuse s outNotPermitted
    else if !s.recordSigned b then .refuse s.useChallenge outBadSignature
    else .answer outOk [] (f b s.useChallenge)

/-- A new owner: NEWKEY and a fresh OWNERSEED (20 R496). -/
def State.newOwner (s : State) (b : List Byte) : State :=
  { s with
    free := s.free + 1
    sec := { s.sec with ownerKey := some (BitVec.ofNat 256 (fieldOf b 0x40 32)), ownerSeed := Config.freeBits s.free (2 ^ 22) 256 } }

/-- The key wipe (20 R490): OWNERSEED and the owner's key; every scratchpad, every cache and HBM zeroed. -/
def State.keyWipe (s : State) : State :=
  (s.cores.map fun q => q.1).foldl (fun s k => s.modCore k fun c => { c with spad := [], l1 := [], icache := [] })
    { s with mem := [], memPoison := [], rdc := [], tlb := [], sec := { s.sec with ownerKey := none, ownerSeed := 0 } }

/-- A change of the lifecycle is counted, and ends every attachment. -/
def State.setLifecycle (s : State) (l : Lifecycle) : State :=
  ({ s with sec := { s.sec with lifecycle := l } }.wearAdd (wearPackage + 24) 8 1).detachAll

/-- CLAIM -/
def execClaim (s : State) : Host.Outcome State Fault Refusal :=
  s.lifecycleRequest 0x48 true
    (fun q signer => q.lifecycle == .production && q.ownerKey.isNone && signer == 3) fun b s => s.newOwner b

/-- TRANSFER -/
def execTransfer (s : State) : Host.Outcome State Fault Refusal :=
  s.lifecycleRequest 0x49 true
    (fun q signer => q.lifecycle == .production && q.ownerKey.isSome && signer == 0) fun b s => s.newOwner b

/-- RETURN -/
def execReturnPkg (s : State) : Host.Outcome State Fault Refusal :=
  s.lifecycleRequest 0x4A false
    (fun q signer => q.lifecycle == .production && q.ownerKey.isSome && signer == 0) fun _ s => s.keyWipe.setLifecycle .returned

/-- RETIRE -/
def execRetire (s : State) : Host.Outcome State Fault Refusal :=
  s.lifecycleRequest 0x4B false
    (fun q signer => (q.lifecycle == .production && q.ownerKey.isSome && signer == 0) ||
      (q.lifecycle == .returned && (signer == 1 || signer == 2))) fun _ s => s.setLifecycle .retired

end Sys2Proof.Machine
end

