-- ==== Sys2Proof/Machine/Loader.lean ====
section
/-! DEFINITION. The loader: op lists and code objects placed, functions bundled and evicted, data objects, and migration (14 R385,
17 R416 to R435). What the bundler makes of an op list, and where the loader puts things, is open (log 36). -/

namespace Sys2Proof.Machine

/-- Outcomes of 17 R423. -/
def ldBadOplist : Nat := 1
/-- 17 R423 -/
def ldErratumUnavailable : Nat := 2
/-- 17 R423 -/
def ldErratumUnknown : Nat := 3
/-- 17 R423 -/
def ldHeapFull : Nat := 4
/-- 17 R423 -/
def ldFabricUnavailable : Nat := 5
/-- 17 R423 -/
def ldMigrateRefused : Nat := 6
/-- 17 R423 -/
def ldStepping : Nat := 7
/-- 17 R423 -/
def ldBadObject : Nat := 8
/-- 17 R423 -/
def ldBadAccount : Nat := 9

/-- The account descriptor of a context is invalid: RING non-zero and SIZE outside 12 to 30 (10 R292). -/
def State.badAccount (s : State) (asid : BitVec 16) : Bool :=
  let a := s.account asid
  a.2.1 != 0 && (decide (a.2.2 < 12) || decide (30 < a.2.2))

/-! ### The code heap (17 R427) -/

/-- The functions of a context, with their keys. -/
def State.fnsOf (s : State) (asid : BitVec 16) : List (Nat × CodeFn) :=
  s.fns.filterMap fun q => if q.1 / 65536 = asid.toNat then q.2.map fun f => (q.1, f) else none

/-- What holds bytes of a context's code heap: the stubs, the functions' code, and what was placed beside them. -/
def State.heapUsed (s : State) (asid : BitVec 16) (h : CodeHeap) : List (Nat × Nat) :=
  (s.fnsOf asid).flatMap (fun q => [(q.2.stub, 16), (q.2.entry, q.2.size)]) ++ h.used

/-- The addresses of a code heap, on a boundary, at which some bytes fit. -/
def State.heapRoom (s : State) (asid : BitVec 16) (h : CodeHeap) (n align : Nat) : List Nat :=
  let used := s.heapUsed asid h
  ((List.range (h.size / align)).map fun i => h.base + align * i).filter fun a =>
    decide (a + n ≤ h.base + h.size) && used.all fun u => u.2 == 0 || decide (a + n ≤ u.1) || decide (u.1 + u.2 ≤ a)

/-- Puts bytes into the code heap where the loader chooses; none where they do not fit. -/
def State.heapPut (s : State) (asid : BitVec 16) (n : Nat) (bytes : Nat → List Byte) : Option (Nat × State) :=
  match SMap.get none s.heaps asid.toNat with
  | none => none
  | some h => match s.chooseFrom (s.heapRoom asid h n 16) with
    | none => none
    | some (a, s) =>
      let s := { s with heaps := SMap.set none s.heaps asid.toNat (some { h with used := h.used ++ [(a, n)] }) }
      some (a, s.writeCode asid a (bytes a))

/-- Maps a data image where the loader chooses, in a range register that holds no range; its virtual address, 0 for an image of no
bytes. The manual does not say where an image's `.const` part ends, so all of it is writable (02 R88, log 36). -/
def State.putImage (s : State) (asid : BitVec 16) (bytes : List Byte) : Option (Nat × State) :=
  if bytes = [] then some (0, s)
  else
    let n := (bytes.length + 65535) / 65536
    match s.chooseFrom ((List.range 8).filter fun i => !rangeV (s.ctxRange asid i)) with
    | none => none
    | some (reg, s) =>
      let va := s.choose 40
      let ca := va.2.choose 36
      if 2 ^ 41 ≤ va.1 + n ∨ 2 ^ 36 ≤ ca.1 + n then none
      else
        let g := va.1 + (va.1 + n) * 2 ^ 64 + ca.1 * 2 ^ 128 + 0b1011 * 2 ^ 192
        let s := ca.2.putSystem (s.ctxEntry asid + 0x100 + 32 * reg) (leBytes 32 g)
        match s.mapPages asid (65536 * ca.1) 0 (pteFlags true true false false) none n with
        | none => none
        | some s => some (65536 * va.1, s.writeCode asid (65536 * va.1) bytes)

/-! ### The object map (14 R385) -/

/-- An entry's 32 bytes. -/
def ObjEntry.bytes (o : ObjEntry) : List Byte := leBytes 8 o.vbase ++ leBytes 6 o.size ++ leBytes 2 o.kind ++ leBytes 16 o.id

/-- Writes a context's object map, sorted by VBASE. -/
def State.putObjects (s : State) (asid : BitVec 16) (l : List ObjEntry) : State :=
  let e := s.ctxEntry asid
  (s.putSystem (s.memNat (e + 0x18) 8) (l.flatMap ObjEntry.bytes)).putSystem (e + 4) (leBytes 4 l.length)

/-- Puts an entry into a sorted object map. -/
def insertObj (o : ObjEntry) : List ObjEntry → List ObjEntry
  | [] => [o]
  | x :: l => if o.vbase < x.vbase then o :: x :: l else x :: insertObj o l

/-- Enters an object; none where the map is full. -/
def State.addObject (s : State) (asid : BitVec 16) (o : ObjEntry) : Option State :=
  let l := s.objMap asid
  if 4096 ≤ l.length then none else some (s.putObjects asid (insertObj o l))

/-- REGOBJ (17 R423, 14 R385): a data object named by a 64-bit ID. An object of no bytes, outside the virtual addresses, or over
another's is a bad request. -/
def execRegobj (s : State) : Host.Outcome State Fault Refusal :=
  s.serveRequest 0x12 fun mb w s => s.withContext mb (w 1) fun asid =>
    let base := (w 2).toNat
    let size := (w 3).toNat
    let clash := (s.objMap asid).any fun o =>
      (decide (o.vbase < base + size) && decide (base < o.vbase + o.size)) || (o.kind == 1 && o.id == (w 4).toNat)
    if size = 0 ∨ 2 ^ 48 ≤ size ∨ 2 ^ 57 < base + size ∨ clash then .refuse s outBadRequest
    else match s.addObject asid ⟨base, size, 1, (w 4).toNat⟩ with
      | some t => .answer outOk [] t
      | none => .refuse s outNoResource

/-- UNREGOBJ (17 R423) -/
def execUnregobj (s : State) : Host.Outcome State Fault Refusal :=
  s.serveRequest 0x13 fun mb w s => s.withContext mb (w 1) fun asid =>
    let mine := fun (o : ObjEntry) => o.kind == 1 && o.id == (w 2).toNat
    if !(s.objMap asid).any mine then .refuse s outBadRequest
    else .answer outOk [] (s.putObjects asid ((s.objMap asid).filter fun o => !mine o))

/-! ### LOADOBJ (02 R79, R81, R88, 17 R423) -/

/-- A code object in the code heap: header, launch descriptor and code, with the data image elsewhere. -/
def placedObject (hash budget flags : Nat) (desc code : List Byte) (image imageSize self : Nat) : List Byte :=
  leBytes 4 0x5A434F44 ++ leBytes 4 deviceStepping ++ leBytes 16 hash ++ leBytes 4 224 ++ leBytes 4 code.length ++
    leBytes 4 (if imageSize = 0 then 0 else image - self) ++ leBytes 4 imageSize ++ leBytes 4 64 ++ leBytes 4 0 ++
    leBytes 2 budget ++ leBytes 2 flags ++ leBytes 12 0 ++ desc ++ code

/-- Places a code object's bundles and data image; none where the heap has no room, or the image no place after the object. -/
def State.placeObject (s : State) (asid : BitVec 16) (hash budget flags : Nat) (desc image : List Byte) (codeSize : Nat)
    (code : Nat → List Byte) : Option State :=
  match s.putImage asid image with
  | none => none
  | some (iva, s) =>
    match s.heapPut asid (224 + codeSize) (fun a => placedObject hash budget flags desc (code (a + 224)) iva image.length a) with
    | none => none
    | some (a, s) =>
      if image ≠ [] ∧ (iva < a ∨ a + 2 ^ 32 ≤ iva) then none else s.addObject asid ⟨a, 224 + codeSize, 0, hash⟩

/-- LOADOBJ: a code object of zas. -/
def execLoadobj (s : State) : Host.Outcome State Fault Refusal :=
  s.serveRequest 0x11 fun mb w s => s.withContext mb (w 1) fun asid =>
    let va := (w 2).toNat
    let part := fun (off n : Nat) => if n = 0 then some [] else s.readVa asid (va + off) n
    match part 0 64 with
    | none => .refuse s ldBadObject
    | some h =>
      let f := fieldOf h
      if f 0 4 ≠ 0x5A434F44 ∨ 4 ≤ f 0x32 2 ∨ f 0x34 12 ≠ 0 ∨ 2 ≤ f 0x32 2 then .refuse s ldBadObject
      else if f 4 4 ≠ deviceStepping then .refuse s ldStepping
      else if s.badAccount asid then .refuse s ldBadAccount
      else match part (f 0x18 4) (f 0x1C 4), part (f 0x20 4) (f 0x24 4), part (f 0x28 4) 160 with
        | some code, some image, some desc =>
          (match s.placeObject asid (f 8 16) (f 0x30 2) (f 0x32 2) desc image code.length fun _ => code with
          | some t => .answer outOk [] t
          | none => .refuse s ldHeapFull)
        | _, _, _ => .refuse s ldBadObject

/-! ### PLACE (17 R416 to R423) -/

/-- The header of an op list keeps 17 R416, its hash included. -/
def opHeaderOk (l : List Byte) : Bool :=
  let f := fieldOf l
  f 0 4 == 0x4856584C && f 4 2 == 1 && decide (1 ≤ f 6 2) && decide (f 6 2 ≤ 4096) && f 0x10 4 % 16 == 0 && decide (f 0x24 2 ≤ 12) &&
    decide (f 0x26 2 < 2) && decide (f 0x28 2 ≤ 16) && decide (f 0x2A 2 ≤ 16) && f 0x2C 4 % 16 == 0 &&
    f 0x30 16 == (Config.opHash (l.take 0x30 ++ leBytes 16 0 ++ l.drop 0x40)).toNat

/-- The functions of an op list: OPFIRST, NOPS and FLAGS bit 0. -/
def opFns (l : List Byte) : List (Nat × Nat × Bool) :=
  (List.range (fieldOf l 6 2)).map fun i =>
    let e := fieldOf l 0x0C 4 + 32 * i
    (fieldOf l e 4, fieldOf l (e + 4) 4, fieldOf l (e + 10) 2 % 2 == 1)

/-- The function table keeps 17 R417: the fields, no overlap, every op covered. -/
def opFnsOk (l : List Byte) : Bool :=
  let fns := opFns l
  ((List.range (fieldOf l 6 2)).all fun i =>
    let e := fieldOf l 0x0C 4 + 32 * i
    decide (fieldOf l (e + 8) 1 ≤ 4) && decide (fieldOf l (e + 9) 1 ≤ 4) && decide (fieldOf l (e + 10) 2 < 2) &&
      fieldOf l (e + 20) 12 == 0) &&
    fns.foldl (fun a f => a + f.2.1) 0 == fieldOf l 8 4 &&
    fns.Pairwise (fun f g => f.1 + f.2.1 ≤ g.1 ∨ g.1 + g.2.1 ≤ f.1) && fns.all fun f => decide (f.1 + f.2.1 ≤ fieldOf l 8 4)

/-- Op record `i` of a function that begins at `first` keeps 17 R418 to R420. -/
def opOk (l : List Byte) (first : Nat) (entry : Bool) (i : Nat) : Bool :=
  let a := fieldOf l 0x10 4 + 16 * i
  let w : W64 := BitVec.ofNat 64 (fieldOf l a 8)
  let t : W64 := BitVec.ofNat 64 (fieldOf l (a + 8) 8)
  let n := (w.extractLsb' 8 3).toNat
  let cls := (w.extractLsb' 4 4).toNat
  let op := (t.extractLsb' 56 8).toNat
  w.extractLsb' 0 4 == 0 && !w.getLsbD 11 && w.extractLsb' 14 2 == 0 && decide (n ≤ 4) && (decide (cls ≤ 3) || cls == 15) &&
    ((List.range n).all fun j =>
      let d := (w.extractLsb' (16 + 12 * j) 12).toNat
      decide (1 ≤ d) && decide (first + d ≤ i)) &&
    (if cls = 15 then decide (1 ≤ op) && decide (op ≤ 14) && (op != 1 || decide ((t.extractLsb' 0 56).toNat < 4))
    else if cls = 0 then op / 16 != 4 && op / 16 != 10 && op != 0x89 && !(op == 0x88 && t.extractLsb' 0 17 == 0xFFF0) && (op != 0x84 || entry)
    else true)

/-- An op list keeps 17 R416 to R422. -/
def opListGood (l : List Byte) : Bool :=
  opHeaderOk l && opFnsOk l &&
    ((opFns l).all fun f => (List.range f.2.1).all fun i => opOk l f.1 f.2.2 (f.1 + i)) && Config.opListOk l

/-- The bytes of an op list that its header spans. -/
def opListSize (h : List Byte) : Nat :=
  let f := fieldOf h
  [128, f 0x0C 4 + 32 * f 6 2, f 0x10 4 + 16 * f 8 4, f 0x14 4, f 0x18 4 + f 0x1C 4, f 0x20 4 + 160].foldl max 0

/-- A skein serves on each die of a partition: it is loaded there, or it loads at a site that the loader chooses (17 R432, R433). -/
def State.bindSkein (s : State) (part off : Nat) : List Nat → Option State
  | [] => some s
  | d :: l =>
    if (s.liveCores part d).isEmpty ∨ s.creel.skeins.any fun q => q.1 == d && q.2.1 == off then s.bindSkein part off l
    else
      let c := s.choose 8
      let b : W64 := BitVec.ofNat 64 (c.1 % 144 + 8 * 256)
      let r := c.2.skeinLoad d off b
      if (r.1.extractLsb' 0 8) = 0 then r.2.bindSkein part off l else none

/-- Grants the errata that an op list asks for, in order (17 R432). -/
def State.grantErrata (s : State) (part : Nat) : List Nat → Except Nat State
  | [] => .ok s
  | n :: l => match Config.erratum n with
    | none => .error ldErratumUnknown
    | some (true, _) => s.grantErrata part l
    | some (false, off) => match s.bindSkein part off [0, 1, 2, 3] with
      | some t => t.grantErrata part l
      | none => .error ldErratumUnavailable

/-- The FORMAT skein of a function ID in the creel (17 R433, 19 R463). -/
def State.formatSkein (s : State) (id : Nat) : Option Nat :=
  ((List.range (2 ^ 20)).map (4096 * ·)).find? fun off =>
    s.skein off 0 4 == 0x5A534B4E && s.skein off 8 1 == 3 && s.skein off 0x16 2 == id

/-- Binds the fabric entries of an op list (17 R433). -/
def State.bindFabric (s : State) (part : Nat) : List Nat → Option State
  | [] => some s
  | id :: l => match s.formatSkein id with
    | none => none
    | some off => match s.bindSkein part off [0, 1, 2, 3] with
      | some t => t.bindFabric part l
      | none => none

/-- Enters the functions of an op list, UNPLACED, each with its stub in the TRAPPING form at the start of the heap (17 R427,
R428); none where the stubs meet what the heap holds. -/
def State.addFns (s : State) (asid : BitVec 16) (h : CodeHeap) (hash n0 i : Nat) : Nat → Option State
  | 0 => some s
  | k + 1 =>
    let stub := h.base + 16 * (n0 + i)
    let clash := (s.heapUsed asid h).any fun u => u.2 != 0 && decide (u.1 < stub + 16) && decide (stub < u.1 + u.2)
    if h.base + h.size < stub + 16 ∨ clash then none
    else
      let f : CodeFn := { hash := hash, index := i, stub := stub }
      let bytes := leBytes 4 0xB0000FC0 ++ leBytes 4 0xB0000001 ++ leBytes 8 (stubWord f false)
      ((s.setFn (fnKey asid (n0 + i)) f).writeCode asid stub bytes).addFns asid h hash n0 (i + 1) k

/-- The code of a placed op list's object: for each stage a stub that branches to its function's (log 36). -/
def stageCode (stubs : List Nat) (at_ : Nat) : List Byte :=
  (stubs.mapIdx fun i t => leBytes 4 0xB0000FC0 ++ leBytes 4 0xB0000001 ++
    leBytes 8 (0x4000000000000000 + (((t : Int) - (at_ + 16 * i : Nat)) / 4 % 2 ^ 35).toNat)).flatten

/-- A launch descriptor whose ENTRYs name functions becomes one whose ENTRYs name the stage stubs (17 R416). -/
def stageDesc (d : List Byte) : List Byte :=
  d.take 0x20 ++ (List.range 8).flatMap fun i =>
    leBytes 4 (if i < fieldOf d 2 1 then 16 * i + 4 else 0) ++ (d.drop (0x24 + 16 * i)).take 12

/-- Places an op list that has been checked: functions, stubs, code object and data image. -/
def State.placeList (s : State) (asid : BitVec 16) (l : List Byte) : Option State :=
  match SMap.get none s.heaps asid.toNat with
  | none => none
  | some h =>
    let f := fieldOf l
    let n0 := (s.fnsOf asid).length
    let desc := (l.drop (f 0x20 4)).take 160
    let stubs := (List.range (fieldOf desc 2 1)).map fun i => h.base + 16 * (n0 + fieldOf desc (0x20 + 16 * i) 4)
    match s.addFns asid h (f 0x30 16) n0 0 (f 6 2) with
    | none => none
    | some s => s.placeObject asid (f 0x30 16) (f 0x24 2) (f 0x26 2 % 2) (stageDesc desc) ((l.drop (f 0x18 4)).take (f 0x1C 4))
        (16 * stubs.length) fun a => stageCode stubs a

/-- Every stage's ENTRY names a stage entry function. -/
def stagesOk (l : List Byte) : Bool :=
  let desc := (l.drop (fieldOf l 0x20 4)).take 160
  descOk (stageDesc desc) (16 * fieldOf desc 2 1) &&
    (List.range (fieldOf desc 2 1)).all fun i =>
      match (opFns l)[fieldOf desc (0x20 + 16 * i) 4]? with | some f => f.2.2 | none => false

/-- PLACE: a placement that fails leaves nothing of the op list mapped. -/
def execPlace (s : State) : Host.Outcome State Fault Refusal :=
  s.serveRequest 0x10 fun mb w s => s.withContext mb (w 1) fun asid =>
    if s.badAccount asid then .refuse s ldBadAccount
    else match (s.readVa asid (w 2).toNat 128).bind fun h => s.readVa asid (w 2).toNat (opListSize h) with
      | none => .refuse s ldBadOplist
      | some l =>
        if !opListGood l ∨ !stagesOk l then .refuse s ldBadOplist
        else match s.grantErrata mb ((List.range (fieldOf l 0x28 2)).map fun i => fieldOf l (0x40 + 2 * i) 2) with
          | .error e => .refuse s e
          | .ok t => match t.bindFabric mb ((List.range (fieldOf l 0x2A 2)).map fun i => fieldOf l (0x60 + 2 * i) 2) with
            | none => .refuse s ldFabricUnavailable
            | some t => match t.placeList asid l with
              | some t => .answer outOk [] t
              | none => .refuse s ldHeapFull

/-! ### Bundling and eviction (17 R428, R429) -/

/-- An address lies in a function's code. -/
def CodeFn.names (f : CodeFn) (a : Nat) : Bool := decide (f.entry ≤ a) && decide (a < f.entry + f.size)

/-- PC or cr.epc of a saved image names a function's code. -/
def State.imageNames (s : State) (asid : BitVec 16) (f : CodeFn) (base : Nat) : Bool :=
  [0, 8].any fun off => f.names (reboundWord (s.imgObjects base) (s.objMap asid) (BitVec.ofNat 64 (s.imgNat base 0 off 8)))

/-- No core or saved image of a context has a PC, a cr.epc or a frame record that names a function's code; any word of an item's
scratchpad that could be a return link counts as one (17 R426, R428). -/
def State.codeFree (s : State) (asid : BitVec 16) (f : CodeFn) : Bool :=
  (s.coresOf asid).all (fun k =>
    let c := s.core k
    !f.names c.pc.toNat && !f.names c.cr.epc.toNat && ((List.range (((c.item.map Item.footprint).getD 0) / 16)).all fun i =>
      !f.names (leNat (SMap.getList 0 c.spad (16 * i) 8)))) &&
    (List.range 64).all fun n => match (s.slot n).launch with
      | some l => (s.slot n).asid != asid || l.stages.all fun q => q.suspended.all fun x => !s.imageNames asid f x.1
      | none => true

/-- The cold function of a context whose stub was last reached longest ago (17 R428). -/
def State.coldest (s : State) (asid : BitVec 16) : Option (Nat × CodeFn) :=
  ((s.fnsOf asid).filter fun q => q.2.state == .placed && s.codeFree asid q.2).foldl (fun b q => match b with
    | none => some q
    | some p => if q.2.reached < p.2.reached then some q else b) none

/-- BUNDLING_COMPLETE (17 R428, R429): the code is complete and the stub takes its PLACED form; where the heap is exhausted, the
coldest function is chosen for eviction, and where none is cold or being evicted, the waiting callers' items are killed with
CODE_HEAP_FULL (18 R444). -/
def execBundlingComplete (asid : Nat) (fn : Nat) (s : State) : Host.Outcome State Fault Refusal :=
  let a := BitVec.ofNat 16 asid
  let key := fnKey a fn
  offered (match SMap.get none s.fns key, SMap.get none s.heaps asid with
    | some f, some h =>
      if 1023 < asid ∨ 65535 < fn ∨ f.state ≠ .bundling then none
      else
        let p := s.profile (s.ctxPart a)
        let size := Config.bundledSize f.hash f.index p
        match s.chooseFrom (s.heapRoom a h size 4) with
        | some (entry, s) =>
          let f := { f with state := .placed, entry := entry, size := size, waiting := [], full := false }
          let s := (s.setFn key f).writeCode a entry ((List.range size).map (Config.bundledByte f.hash f.index p entry))
          some (s.setStub a f true)
        | none => match s.coldest a with
          | some (n, g) =>
            let g := { g with state := .evicting }
            some ((s.setFn n g).setStub a g false)
          | none =>
            if (s.fnsOf a).any fun q => q.2.state == .evicting then none
            else some (f.waiting.foldl (fun s k =>
              if (s.core k).cr.asid = a then s.modCore k fun c => c.raiseAsync 0x22 3 else s)
              (s.setFn key { f with state := .unplaced, waiting := [], full := true }))
    | _, _ => none)

/-- CODE_EVICT (17 R428): every core has acknowledged the trapping stub, and nothing of the context names the code: its space is
free. -/
def execCodeEvict (asid : Nat) (fn : Nat) (s : State) : Host.Outcome State Fault Refusal :=
  let a := BitVec.ofNat 16 asid
  let key := fnKey a fn
  offered (match SMap.get none s.fns key with
    | some f =>
      if 1023 < asid ∨ 65535 < fn ∨ f.state ≠ .evicting ∨ !s.codeFree a f ∨
          (s.patches.any fun p => p.asid == a && p.va == f.stub + 8) then none
      else some (s.setFn key { f with state := .unplaced, entry := 0, size := 0 })
    | none => none)

/-! ### Migration (17 R434, R435) -/

/-- The suspended items of a context: slot, stage, image address and item. -/
def State.suspendedOf (s : State) (asid : BitVec 16) : List (Nat × Nat × Item) :=
  (List.range 64).flatMap fun n => match (s.slot n).launch with
    | some l => if (s.slot n).asid = asid then l.stages.flatMap fun q => q.suspended.map fun x => (n, x.1, x.2) else []
    | none => []

/-- The bytes of an image in system memory. -/
def State.imageBytes (s : State) (base : Nat) : List Byte :=
  s.memBytes base ((List.range 14).foldl (fun a i =>
    max a (s.memNat (base + 0x40 + 8 * i) 4 + s.memNat (base + 0x44 + 8 * i) 4)) 256)

/-- An image may migrate: PORTABLE and not LOCAL. -/
def State.imageMigrates (s : State) (base : Nat) : Bool := s.memNat (base + 0x0A) 2 % 4 == 1

/-- OPHASH of the op list that a slot's launch runs; 0 where there is none. -/
def State.launchHash (s : State) (n : Nat) : Nat :=
  match (s.slot n).launch with
  | some l => match s.readVa (s.slot n).asid l.code 64 with | some h => fieldOf h 8 16 | none => 0
  | none => 0

/-- A migration record. -/
def migrationRecord (hash : Nat) (images : List (List Byte)) : List Byte :=
  let items := images.flatMap Config.migrationEntry
  leBytes 4 0x4856584D ++ leBytes 4 images.length ++ leBytes 16 hash ++ leBytes 8 64 ++ leBytes 8 (64 + items.length) ++ leBytes 24 0 ++
    items ++ images.flatMap Config.migrationSections

/-- MIGOUT: every item of the context is pre-empted at its next YIELD; then the record is written. -/
def execMigout (s : State) : Host.Outcome State Fault Refusal :=
  s.serveRequest 0x14 fun mb w s => s.withContext mb (w 1) fun asid =>
    let running := (s.coresOf asid).filter fun k => !(s.core k).saved
    let l := s.suspendedOf asid
    let hash := match l with | x :: _ => s.launchHash x.1 | [] => 0
    let record := migrationRecord hash (l.map fun x => s.imageBytes x.2.1)
    if running ≠ [] then .wait (running.foldl (fun s k => s.modCore k fun c => { c with yieldReq := true }) s)
    else if l = [] ∨ hash = 0 ∨ (l.any fun x => !s.imageMigrates x.2.1 || s.launchHash x.1 != hash) ∨
        !s.systemRun (w 2).toNat record.length then .refuse s ldMigrateRefused
    else .answer outOk [] (s.putSystem (w 2).toNat record)

/-- Puts item `i` of a migration record, as an image of this device, on the suspended list of its stage. -/
def State.migrateItem (s : State) (asid : BitVec 16) (slot : Nat) (record : List Byte) (i : Nat) : Option State :=
  let image := Config.migratedImage record i
  match s.takeSystem asid image.length with
  | none => none
  | some (a, s) =>
    let stage := Config.migratedStage record i
    let it : Item :=
      { wid := Config.migratedWid record i, stage := stage, slot := slot, footprint := s.memNat (a + 0x18) 4
        strands := BitVec.ofNat 64 (s.memNat (a + 0x20) 8), record := List.replicate 64 0 }
    let s := s.putSystem a image
    some (s.modLaunch slot fun l => { l with
      total := l.total + 1, started := l.started + 1
      stages := l.stages.mapIdx fun j q => if j = stage then { q with suspended := q.suspended ++ [(a, it)] } else q })

/-- MIGIN: the items of a record join a launch of the context that runs the op list; each is restored by the CTXLOAD of the core
that takes it. -/
def execMigin (s : State) : Host.Outcome State Fault Refusal :=
  s.serveRequest 0x15 fun mb w s => s.withContext mb (w 1) fun asid =>
    let a := (w 2).toNat
    let hash := s.memNat (a + 8) 16
    let n := s.memNat (a + 4) 4
    let record := s.memBytes a (64 + s.memNat (a + 0x20) 8)
    let placed := (s.fnsOf asid).any fun q => q.2.hash == hash
    match (List.range 64).find? fun k => (s.slot k).asid == asid && (s.slot k).launch.isSome && s.launchHash k == hash with
    | none => .refuse s ldMigrateRefused
    | some slot =>
      if !s.systemRun a 64 ∨ s.memNat a 4 ≠ 0x4856584D ∨ s.memNat (a + 0x28) 24 ≠ 0 ∨ hash = 0 ∨ !placed then .refuse s ldMigrateRefused
      else match (List.range n).foldl (fun o i => o.bind fun t => t.migrateItem asid slot record i) (some s) with
        | some t => .answer outOk [] t
        | none => .refuse s ldMigrateRefused

end Sys2Proof.Machine
end

