-- ==== Sys2Proof/Machine/Power.lean ====
section
/-! DEFINITION. The package power controller, power states, the power-fail dump, the wear log's commits and the boot ROM (19 R479, 20
R480 to R489, R497, R498). -/

namespace Sys2Proof.Machine

/-! ### Ticks of the controller (20 R483 to R485) -/

/-- The sites that serve logical numbers. -/
def State.servingCores (s : State) : List Nat := (List.range 544).filterMap s.coreOfLogical

/-- The group that a core is in for shedding: 0 without an item, else 1 + the effective priority of its item's slot. -/
def State.shedGroup (s : State) (key : Nat) : Nat :=
  match (s.core key).item with
  | none => 0
  | some it => min 7 (s.slot it.slot).effPrio + 1

/-- The next PCEIL below one: 10, 8, 6, 4, 3. -/
def lowerCeil (n : Nat) : Nat := if 8 < n then 8 else if 6 < n then 6 else if 4 < n then 4 else 3

/-- The cores whose PCEIL goes down next, with their PCEIL: those above 3 of the first group that has any. -/
def State.lowerable (s : State) : List (Nat × Nat) :=
  let l := (s.servingCores.map fun k => (s.shedGroup k, k, (s.core k).power.pceil)).filter fun q => 3 < q.2.2
  let g := l.foldl (fun a q => min a q.1) 9
  (l.filter fun q => q.1 = g).map fun q => q.2

/-- The cores parked next: 34, in the order of the groups. -/
def State.parkable (s : State) : List Nat :=
  let l := s.servingCores.filter fun k => !s.pwr.parked.contains k
  (((List.range 9).flatMap fun g => l.filter fun k => s.shedGroup k = g)).take 34

/-- The action that the controller takes next; no stage is skipped. -/
def State.nextAct (s : State) : Option PowerAct :=
  let p := s.pwr
  if !p.actions.contains .suspend then some .suspend
  else if !p.actions.contains .halve then some .halve
  else if s.lowerable ≠ [] then some (.lower s.lowerable)
  else if p.clock < 2 then some .clock
  else if s.parkable ≠ [] then some (.park s.parkable) else none

/-- A clock change freezes every tile core for at most 2 µs: how many cycles is open. -/
def State.clockChange (s : State) (clock : Nat) : State :=
  let n := (s.choose 13).1 % 4201
  let s := (s.choose 13).2
  let s := (s.cores.map fun q => q.1).foldl (fun s k => if k < 576 then s.powerCycles k n else s) s
  s.setPower { s.pwr with clock := clock }

/-- A core's PCEIL, in force from its next window on (20 R482). -/
def State.setCeil (s : State) (q : Nat × Nat) : State :=
  s.modCore q.1 fun c => { c with power := { c.power with pceil := q.2 } }

/-- Every relocation engine pauses between lines, or goes on. -/
def State.pauseRelocs (s : State) (b : Bool) : State :=
  { s with relocs := (List.range 4).foldl (fun m d => SMap.set {} m d { SMap.get {} m d with paused := b }) s.relocs }

/-- Takes a shedding action (20 R484). Halved line-request rates change timing only. -/
def State.shed (s : State) (a : PowerAct) : State :=
  let s := match a with
    | .suspend => ((List.range 4).foldl (fun (s : State) d => s.unmark d 1) s).pauseRelocs true
    | .halve => s
    | .lower l => (l.map fun (q : Nat × Nat) => (q.1, lowerCeil q.2)).foldl State.setCeil s
    | .clock => s.clockChange (s.pwr.clock + 1)
    | .park l =>
      let s := { s with pwr := { s.pwr with parked := s.pwr.parked ++ l } }
      l.foldl (fun s k => if (s.core k).item.isSome then s.modCore k fun c => c.raiseAsync 0x10 0 else s) s
  { s with pwr := { s.pwr with actions := a :: s.pwr.actions } }

/-- Undoes the newest shedding action (20 R485). -/
def State.unshed (s : State) : State :=
  match s.pwr.actions with
  | [] => s
  | a :: l =>
    let s := match a with
      | .suspend => s.pauseRelocs false
      | .halve => s
      | .lower l => l.foldl State.setCeil s
      | .clock => s.clockChange (s.pwr.clock - 1)
      | .park l => { s with pwr := { s.pwr with parked := s.pwr.parked.filter fun k => !l.contains k } }
    { s with pwr := { s.pwr with actions := l } }

/-- POWER_TICK (20 R484, R485): every 10 µs, on the controller's own estimates of the draw of the last 10 µs and of the last 100 µs,
which are open. -/
def execPowerTick (s : State) : Host.Outcome State Fault Refusal :=
  offered (if !s.booted ∨ s.pwr.phase ≠ .on then none
    else
      let old := s.pwr
      let est := (s.choose 12).1
      let s := (s.choose 12).2
      let avg := (s.choose 12).1
      let s := (s.choose 12).2
      let s := { s with time := (s.time / 10000 + 1) * 10000 }
      let s :=
        if s.pwr.force < est then (match s.nextAct with | some a => s.shed a | none => s)
        else match s.pwr.actions with
          | a :: _ => if s.pwr.rising ∧ est + Config.ratedIncrease a.stage ≤ s.pwr.force then s.unshed else s
          | [] => s
      some ({ s with pwr := old }.setPower { s.pwr with draw := BitVec.ofNat 12 avg }))

/-- POWER_STEP_PIN (20 R483): an edge of the board's pin selects or releases PINLEVEL. -/
def execPowerStepPin (s : State) : Host.Outcome State Fault Refusal :=
  offered (if !s.booted ∨ s.pwr.phase = .pfail ∨ s.pwr.phase = .off then none else some (s.setLevels fun p => { p with pin := !p.pin }))

/-! ### Power states (20 R487, R497) -/

/-- IDLE_ENTRY (20 R487): after 10 ms in which no bound slot has demand. -/
def execIdleEntry (s : State) : Host.Outcome State Fault Refusal :=
  offered (if !s.booted ∨ s.pwr.phase ≠ .on ∨ ((List.range 64).any fun n => (s.slot n).state == .bound && (s.slot n).demand != 0) then none
    else some { s with time := s.time + 10000000, pwr := { s.pwr with phase := .idle } })

/-- The highest debug level that is attached (20 R489). -/
def Security.highest (q : Security) : Nat := if q.d3 then 3 else q.level.foldl (fun a x => max a x.2) 0

/-- POWER_FAIL (20 R488, R495, R497): whatever goes on is overridden. The whorl rotation is lost, debuggers are detached, and the wear
log counts the event. -/
def execPowerFail (s : State) : Host.Outcome State Fault Refusal :=
  offered (if !s.booted ∨ s.pwr.phase = .pfail ∨ s.pwr.phase = .off then none
    else
      let p := { s.pwr with phase := .pfail, failedAt := s.time, failLevel := s.sec.highest }
      some (({ s with pwr := p, whorls := [] }.wearAdd wearPackage 8 1).detachAll))

/-- POWER_LOST (20 R487, R497): the package is OFF, and every volatile state is wiped. -/
def State.powerOff (s : State) : State :=
  let t := s.packageReset
  { t with pwr := { t.pwr with phase := .off } }

/-- POWER_LOST -/
def execPowerLost (s : State) : Host.Outcome State Fault Refusal :=
  offered (if s.pwr.phase = .off then none else some s.powerOff)

/-! ### The dump image (20 R488, R489) -/

/-- What a core's registers, handles, references, landing buffer and latch bank are in an image, results in flight as their latches
(14 R383). -/
def Core.dump (c : Core) : List Byte :=
  let c := match c.latch with
    | some _ => c
    | none => { c with latch := some { drives := c.drives, flagOrs := c.flagOrs, bt := c.bt, sticky := c.sticky } }
  let secs := c.sections [] [] 0
  [1, 2, 3, 7, 8].flatMap fun i => secs.getD i []

/-- The plain bytes of the image but for the durable scratchpads. -/
def State.dumpBody (s : State) : List Byte :=
  let tiles := s.cores.filter fun q => q.1 < 576
  let live := (List.range 1024).filter fun a => s.ctxState (BitVec.ofNat 16 a) ≠ 0
  let n := min s.logSeq 4096
  (tiles.filter fun q => q.2.item.isSome).flatMap (fun q => q.2.dump) ++
    ((List.range 64).filter fun i => (s.slot i).state = .bound).flatMap (fun i => (s.slot i).qcb) ++
    live.flatMap (fun a => (List.range 8).flatMap fun h => s.memBytes (s.hcbAddr (BitVec.ofNat 16 a) h) 256) ++
    (List.range n).flatMap (fun i => s.memBytes (s.recordAt (s.logSeq - n + i)) 64) ++
    tiles.flatMap (fun q => (List.range 16).flatMap fun i => leBytes 8 (SMap.get 0 q.2.acct.live i).toNat) ++ s.wearBytes 0 wearSize

/-- The scratchpads that the image should hold: footprint bytes of the items of contexts with a durable launch, by ASID and logical
core. -/
def State.durablePads (s : State) : List (List Byte) :=
  let durable := fun (a : Nat) => (List.range 64).any fun n =>
    (s.slot n).asid.toNat == a && ((s.slot n).launch.map Launch.durable).getD false
  ((List.range 1024).filter durable).flatMap fun a => s.servingCores.filterMap fun k =>
    let c := s.core k
    match c.item with
    | some it => if c.cr.asid.toNat = a then some (SMap.getList 0 c.spad 0 it.footprint) else none
    | none => none

/-- Adds the scratchpads that the limit leaves room for; how many it omits. -/
def addPads (body : List Byte) (drop : Nat) : List (List Byte) → List Byte × Nat
  | [] => (body, drop)
  | p :: l =>
    if Config.dumpLimit < 128 + body.length + p.length then addPads body (drop + 1) l else addPads (body ++ p) drop l

/-- The image: header, signature and ciphertext. -/
def State.dumpImage (s : State) (nonce : BitVec 96) : List Byte :=
  let r := addPads s.dumpBody 0 s.durablePads
  let seed := if s.sec.lifecycle = .production then s.sec.ownerSeed else 0
  let cipher := Config.dumpCipher seed nonce r.1
  let head := leBytes 4 0x5A444D50 ++ leBytes 1 s.sec.lifecycle.code ++ leBytes 1 s.pwr.failLevel ++ leBytes 2 r.2 ++
    leBytes 8 s.pwr.failedAt ++ leBytes 8 cipher.length ++ leBytes 12 nonce.toNat ++ leBytes 16 (Config.dumpTag seed nonce r.1).toNat ++
    leBytes 12 0
  head ++ leBytes 64 (Config.identitySign (head ++ cipher)).toNat ++ cipher

/-- DUMP_COMPLETE (20 R487, R488, R497): the image is whole on board flash, with the wear log committed, and PFAIL ends; there is no
image in RETIRED. -/
def execDumpComplete (s : State) : Host.Outcome State Fault Refusal :=
  offered (if s.pwr.phase ≠ .pfail ∨ s.sec.lifecycle = .retired then none
    else
      let image := s.dumpImage (Config.freeBits s.free (2 ^ 22) 96)
      some { s with
        free := s.free + 1
        sec := { s.sec with flash := some image }
        creel := { s.creel with wear := s.wear } }.powerOff)

/-! ### The wear log (19 R479) -/

/-- WEAR_LOG_COMMIT: every hour the hour and each die's temperature are counted and the log is committed to the creel. -/
def execWearLogCommit (s : State) : Host.Outcome State Fault Refusal :=
  offered (if !s.booted ∨ s.pwr.phase = .pfail ∨ s.pwr.phase = .off then none
    else
      let s := { s with time := (s.time / 3600000000000 + 1) * 3600000000000 }
      let s := s.wearAdd (wearPackage + 16) 8 1
      let s := (List.range 4).foldl (fun s d =>
        let c := s.choose 4
        c.2.wearAdd (wearDie d + 8 * c.1) 8 3600) s
      some { s with creel := { s.creel with wear := s.wear } })

/-- VOLTAGE_DROOP: counted in the bin of its depth; one below 20 mV is in none. -/
def execVoltageDroop (die : Nat) (mv : Nat) (s : State) : Host.Outcome State Fault Refusal :=
  offered (if 4 ≤ die ∨ s.pwr.phase = .off then none
    else if mv < 20 then some s
    else some (s.wearAdd (wearDie die + 128 + 8 * min 7 ((mv - 20) / 10)) 8 1))

/-! ### Boot (20 R498) -/

/-- A range register that maps every address to the chip address of the same value, readable, writable and executable (01 R50). -/
def identityRange : W256 := BitVec.ofNat 256 (0xF * 2 ^ 192 + (2 ^ 36) * 2 ^ 64)

/-- Step 2: the bases, the home map with the bases' granules in system memory, the range registers of context 0, the logical core map
(19 R471) and the whorl control words (19 R472). -/
def State.bootMemory (s : State) : State :=
  let base := fun i => 2 ^ 29 * (Config.bootBase i % 2 ^ 23)
  let home := Config.bootHome.foldl (fun m q => SMap.set 0 m (q.1 % 2 ^ 23) q.2) []
  let home := (List.range 5).foldl (fun m i =>
    SMap.set 0 m (Config.bootBase i % 2 ^ 23) (SMap.get 0 m (Config.bootBase i % 2 ^ 23) ||| 0x8004)) home
  let s := { s with homeMap := home, bases := { ctx := base 0, log := base 1, hcb := base 2, lcmap := base 3, whorl := base 4 } }
  let s := s.memWrite (s.ctxEntry 0) (leBytes 4 1)
  let s := s.memWrite (s.ctxEntry 0 + 0x100) (leBytes 32 identityRange.toNat)
  let s := [576, 577, 578, 579].foldl (fun s k => s.modCore k fun c => { c with ranges := [(0, identityRange)] }) s
  let s := (List.range 544).foldl (fun s n =>
    let q := s.creel.lcmap.getD n (n / 136, n % 136)
    s.memPut (s.bases.lcmap + 2 * n) 2 (2 ^ 15 + 256 * q.1 + q.2)) s
  (List.range 4).foldl (fun s d => s.memPut (s.bases.whorl + 64 * d) 8 (1000 * 2 ^ 32 + 10 * 2 ^ 16 + 1)) s

/-- Step 3: the recorded SKEINLDs in order, then cr.timing and cr.slotmap, the firmware states of the sites and the wear log as the
creel holds them. -/
def State.bootCreel (s : State) : State :=
  let k := s.creel
  let s := { s with
    segments := k.failed.foldl (fun m i => SMap.set 0 m i (BitVec.ofNat 64 (3 * 2 ^ 62))) s.segments
    creel := { k with skeins := [] }, sites := k.sites, wear := k.wear }
  let s := k.skeins.foldl (fun s q => (s.skeinLoad q.1 q.2.1 (BitVec.ofNat 64 q.2.2)).2) s
  let s := k.timing.foldl (fun s q => s.modCore q.1 fun c => { c with timing := q.2 }) s
  k.slotmaps.foldl (fun s q => s.modCore q.1 fun c => { c with cr := { c.cr with slotmap := q.2 } }) s

/-- BOOT: where neither firmware image verifies, the PCIe link stays down and the package does not start. -/
def execBoot (s : State) : Host.Outcome State Fault Refusal :=
  offered (if s.booted then none
    else if !Config.firmwareGood s.creel.bytes 0 ∧ !Config.firmwareGood s.creel.bytes 1 then some s
    else
      let s := s.bootMemory.bootCreel
      some { s with
        booted := true, pwr := { s.pwr with phase := .on }
        sec := { s.sec with measure := Config.bootMeasure s.creel.bytes s.creel.skeins } })

end Sys2Proof.Machine
end

