-- ==== Sys2Proof/Machine/Dispatch.lean ====
section
/-! DEFINITION. The dispatch: one arm per instruction, each one direct call of that instruction's meaning. -/

namespace Sys2Proof.Machine

/-- One instruction at a state: a slot operation issues as a bundle of its own on the current core, an event of the package
takes its step. -/
def exec (i : Instr) (s : State) : Host.Outcome State Fault Refusal :=
  match i with
  | .headerOnlyBundle l r q => Sys2Proof.Machine.execHeaderOnlyBundle l r q s
  | .add g w => Sys2Proof.Machine.execAdd g w s
  | .sub g w => Sys2Proof.Machine.execSub g w s
  | .mul g w => Sys2Proof.Machine.execMul g w s
  | .mulh g w => Sys2Proof.Machine.execMulh g w s
  | .mulhu g w => Sys2Proof.Machine.execMulhu g w s
  | .and g w => Sys2Proof.Machine.execAnd g w s
  | .or g w => Sys2Proof.Machine.execOr g w s
  | .xor g w => Sys2Proof.Machine.execXor g w s
  | .shl g w => Sys2Proof.Machine.execShl g w s
  | .shr g w => Sys2Proof.Machine.execShr g w s
  | .sar g w => Sys2Proof.Machine.execSar g w s
  | .min g w => Sys2Proof.Machine.execMin g w s
  | .max g w => Sys2Proof.Machine.execMax g w s
  | .minu g w => Sys2Proof.Machine.execMinu g w s
  | .maxu g w => Sys2Proof.Machine.execMaxu g w s
  | .clz g w => Sys2Proof.Machine.execClz g w s
  | .popc g w => Sys2Proof.Machine.execPopc g w s
  | .addi g w => Sys2Proof.Machine.execAddi g w s
  | .andi g w => Sys2Proof.Machine.execAndi g w s
  | .ori g w => Sys2Proof.Machine.execOri g w s
  | .xori g w => Sys2Proof.Machine.execXori g w s
  | .shli g w => Sys2Proof.Machine.execShli g w s
  | .shri g w => Sys2Proof.Machine.execShri g w s
  | .sari g w => Sys2Proof.Machine.execSari g w s
  | .li g w => Sys2Proof.Machine.execLi g w s
  | .cmpeq g w => Sys2Proof.Machine.execCmpeq g w s
  | .cmpne g w => Sys2Proof.Machine.execCmpne g w s
  | .cmplt g w => Sys2Proof.Machine.execCmplt g w s
  | .cmple g w => Sys2Proof.Machine.execCmple g w s
  | .cmpltu g w => Sys2Proof.Machine.execCmpltu g w s
  | .cmpleu g w => Sys2Proof.Machine.execCmpleu g w s
  | .cmpeqi g w => Sys2Proof.Machine.execCmpeqi g w s
  | .cmplti g w => Sys2Proof.Machine.execCmplti g w s
  | .pand g w => Sys2Proof.Machine.execPand g w s
  | .por g w => Sys2Proof.Machine.execPor g w s
  | .pxor g w => Sys2Proof.Machine.execPxor g w s
  | .pnot g w => Sys2Proof.Machine.execPnot g w s
  | .fadd g w => Sys2Proof.Machine.execFadd g w s
  | .fsub g w => Sys2Proof.Machine.execFsub g w s
  | .fmul g w => Sys2Proof.Machine.execFmul g w s
  | .ffma g w => Sys2Proof.Machine.execFfma g w s
  | .fdiv g w => Sys2Proof.Machine.execFdiv g w s
  | .fsqrt g w => Sys2Proof.Machine.execFsqrt g w s
  | .fmin g w => Sys2Proof.Machine.execFmin g w s
  | .fmax g w => Sys2Proof.Machine.execFmax g w s
  | .fcmpeq g w => Sys2Proof.Machine.execFcmpeq g w s
  | .fcmplt g w => Sys2Proof.Machine.execFcmplt g w s
  | .fcmple g w => Sys2Proof.Machine.execFcmple g w s
  | .fcvti g w => Sys2Proof.Machine.execFcvti g w s
  | .icvtf g w => Sys2Proof.Machine.execIcvtf g w s
  | .br g w => Sys2Proof.Machine.execBr g w s
  | .bri g w => Sys2Proof.Machine.execBri g w s
  | .call g w => Sys2Proof.Machine.execCall g w s
  | .calli g w => Sys2Proof.Machine.execCalli g w s
  | .ret g w => Sys2Proof.Machine.execRet g w s
  | .loop g w => Sys2Proof.Machine.execLoop g w s
  | .hbase g w => Sys2Proof.Machine.execHbase g w s
  | .hset g w => Sys2Proof.Machine.execHset g w s
  | .hstep g w => Sys2Proof.Machine.execHstep g w s
  | .hget g w => Sys2Proof.Machine.execHget g w s
  | .hmov g w => Sys2Proof.Machine.execHmov g w s
  | .lds g w => Sys2Proof.Machine.execLds g w s
  | .sts g w => Sys2Proof.Machine.execSts g w s
  | .ldg g w => Sys2Proof.Machine.execLdg g w s
  | .stg g w => Sys2Proof.Machine.execStg g w s
  | .crr g w => Sys2Proof.Machine.execCrr g w s
  | .crw g w => Sys2Proof.Machine.execCrw g w s
  | .zins g w => Sys2Proof.Machine.execZins g w s
  | .zext g w => Sys2Proof.Machine.execZext g w s
  | .amoadd g w => Sys2Proof.Machine.execAmoadd g w s
  | .amoand g w => Sys2Proof.Machine.execAmoand g w s
  | .amoor g w => Sys2Proof.Machine.execAmoor g w s
  | .amoxor g w => Sys2Proof.Machine.execAmoxor g w s
  | .amomin g w => Sys2Proof.Machine.execAmomin g w s
  | .amomax g w => Sys2Proof.Machine.execAmomax g w s
  | .amoswap g w => Sys2Proof.Machine.execAmoswap g w s
  | .amocas g w => Sys2Proof.Machine.execAmocas g w s
  | .amofadd g w => Sys2Proof.Machine.execAmofadd g w s
  | .bar g w => Sys2Proof.Machine.execBar g w s
  | .drain g w => Sys2Proof.Machine.execDrain g w s
  | .settle g w => Sys2Proof.Machine.execSettle g w s
  | .yield g w => Sys2Proof.Machine.execYield g w s
  | .tail g w => Sys2Proof.Machine.execTail g w s
  | .enter g w => Sys2Proof.Machine.execEnter g w s
  | .leave g w => Sys2Proof.Machine.execLeave g w s
  | .probe g w => Sys2Proof.Machine.execProbe g w s
  | .trap g w => Sys2Proof.Machine.execTrap g w s
  | .eret g w => Sys2Proof.Machine.execEret g w s
  | .ldref g w => Sys2Proof.Machine.execLdref g w s
  | .stref g w => Sys2Proof.Machine.execStref g w s
  | .ldfld g w => Sys2Proof.Machine.execLdfld g w s
  | .stfld g w => Sys2Proof.Machine.execStfld g w s
  | .pin g w => Sys2Proof.Machine.execPin g w s
  | .unpin g w => Sys2Proof.Machine.execUnpin g w s
  | .refeq g w => Sys2Proof.Machine.execRefeq g w s
  | .refmk g w => Sys2Proof.Machine.execRefmk g w s
  | .slotmap g w => Sys2Proof.Machine.execSlotmap g w s
  | .ttset g w => Sys2Proof.Machine.execTtset g w s
  | .skeinldLoad g w => Sys2Proof.Machine.execSkeinldLoad g w s
  | .skeinldRelease g w => Sys2Proof.Machine.execSkeinldRelease g w s
  | .scanrun g w => Sys2Proof.Machine.execScanrun g w s
  | .preempt g w => Sys2Proof.Machine.execPreempt g w s
  | .ctxsave g w => Sys2Proof.Machine.execCtxsave g w s
  | .ctxload g w => Sys2Proof.Machine.execCtxload g w s
  | .qmap g w => Sys2Proof.Machine.execQmap g w s
  | .qsave g w => Sys2Proof.Machine.execQsave g w s
  | .qload g w => Sys2Proof.Machine.execQload g w s
  | .pstep g w => Sys2Proof.Machine.execPstep g w s
  | .inval g w => Sys2Proof.Machine.execInval g w s
  | .relocStart g w => Sys2Proof.Machine.execRelocStart g w s
  | .relocQuery g w => Sys2Proof.Machine.execRelocQuery g w s
  | .relocAbort g w => Sys2Proof.Machine.execRelocAbort g w s
  | .fwdpub g w => Sys2Proof.Machine.execFwdpub g w s
  | .logrApp g w => Sys2Proof.Machine.execLogrApp g w s
  | .logrRead g w => Sys2Proof.Machine.execLogrRead g w s
  | .vld v g w => Sys2Proof.Machine.execVld v g w s
  | .vst v g w => Sys2Proof.Machine.execVst v g w s
  | .vmov v g w => Sys2Proof.Machine.execVmov v g w s
  | .vtag v g w => Sys2Proof.Machine.execVtag v g w s
  | .vperm v g w => Sys2Proof.Machine.execVperm v g w s
  | .vbcstScalar v g w => Sys2Proof.Machine.execVbcstScalar v g w s
  | .vbcstElement v g w => Sys2Proof.Machine.execVbcstElement v g w s
  | .vshuf v g w => Sys2Proof.Machine.execVshuf v g w s
  | .vsel v g w => Sys2Proof.Machine.execVsel v g w s
  | .vadd v g w => Sys2Proof.Machine.execVadd v g w s
  | .vsub v g w => Sys2Proof.Machine.execVsub v g w s
  | .vmul v g w => Sys2Proof.Machine.execVmul v g w s
  | .vfma v g w => Sys2Proof.Machine.execVfma v g w s
  | .vfms v g w => Sys2Proof.Machine.execVfms v g w s
  | .vmin v g w => Sys2Proof.Machine.execVmin v g w s
  | .vmax v g w => Sys2Proof.Machine.execVmax v g w s
  | .vabs v g w => Sys2Proof.Machine.execVabs v g w s
  | .vneg v g w => Sys2Proof.Machine.execVneg v g w s
  | .vcmp v g w => Sys2Proof.Machine.execVcmp v g w s
  | .viadd v g w => Sys2Proof.Machine.execViadd v g w s
  | .visub v g w => Sys2Proof.Machine.execVisub v g w s
  | .vimul v g w => Sys2Proof.Machine.execVimul v g w s
  | .vimad v g w => Sys2Proof.Machine.execVimad v g w s
  | .vand v g w => Sys2Proof.Machine.execVand v g w s
  | .vor v g w => Sys2Proof.Machine.execVor v g w s
  | .vxor v g w => Sys2Proof.Machine.execVxor v g w s
  | .vimin v g w => Sys2Proof.Machine.execVimin v g w s
  | .vimax v g w => Sys2Proof.Machine.execVimax v g w s
  | .vshl v g w => Sys2Proof.Machine.execVshl v g w s
  | .vshr v g w => Sys2Proof.Machine.execVshr v g w s
  | .vsar v g w => Sys2Proof.Machine.execVsar v g w s
  | .vicmp v g w => Sys2Proof.Machine.execVicmp v g w s
  | .vcvt v g w => Sys2Proof.Machine.execVcvt v g w s
  | .vqzb v g w => Sys2Proof.Machine.execVqzb v g w s
  | .vmxi v g w => Sys2Proof.Machine.execVmxi v g w s
  | .vrsum v g w => Sys2Proof.Machine.execVrsum v g w s
  | .vrmax v g w => Sys2Proof.Machine.execVrmax v g w s
  | .vrmin v g w => Sys2Proof.Machine.execVrmin v g w s
  | .vexp2 v g w => Sys2Proof.Machine.execVexp2 v g w s
  | .vlog2 v g w => Sys2Proof.Machine.execVlog2 v g w s
  | .vrcp v g w => Sys2Proof.Machine.execVrcp v g w s
  | .vrsq v g w => Sys2Proof.Machine.execVrsq v g w s
  | .vsin v g w => Sys2Proof.Machine.execVsin v g w s
  | .vcos v g w => Sys2Proof.Machine.execVcos v g w s
  | .vscget v g w => Sys2Proof.Machine.execVscget v g w s
  | .vscset v g w => Sys2Proof.Machine.execVscset v g w s
  | .vscadd v g w => Sys2Proof.Machine.execVscadd v g w s
  | .vscmax v g w => Sys2Proof.Machine.execVscmax v g w s
  | .fx n v g w => Sys2Proof.Machine.execFx n v g w s
  | .mlb g w => Sys2Proof.Machine.execMlb g w s
  | .msel g w => Sys2Proof.Machine.execMsel g w s
  | .mac g w => Sys2Proof.Machine.execMac g w s
  | .macn g w => Sys2Proof.Machine.execMacn g w s
  | .macz g w => Sys2Proof.Machine.execMacz g w s
  | .mrd g w => Sys2Proof.Machine.execMrd g w s
  | .mrdSteps g w => Sys2Proof.Machine.execMrdSteps g w s
  | .mdr g w => Sys2Proof.Machine.execMdr g w s
  | .mclr g w => Sys2Proof.Machine.execMclr g w s
  | .mmode g w => Sys2Proof.Machine.execMmode g w s
  | .cpy c g w => Sys2Proof.Machine.execCpy c g w s
  | .cpyr c g w => Sys2Proof.Machine.execCpyr c g w s
  | .cpyt c g w => Sys2Proof.Machine.execCpyt c g w s
  | .cpytr c g w => Sys2Proof.Machine.execCpytr c g w s
  | .gath c g w => Sys2Proof.Machine.execGath c g w s
  | .gathr c g w => Sys2Proof.Machine.execGathr c g w s
  | .scat c g w => Sys2Proof.Machine.execScat c g w s
  | .scatr c g w => Sys2Proof.Machine.execScatr c g w s
  | .cfill c g w => Sys2Proof.Machine.execCfill c g w s
  | .redc c g w => Sys2Proof.Machine.execRedc c g w s
  | .bcst c g w => Sys2Proof.Machine.execBcst c g w s
  | .ldq c g w => Sys2Proof.Machine.execLdq c g w s
  | .stq c g w => Sys2Proof.Machine.execStq c g w s
  | .kwait c g w => Sys2Proof.Machine.execKwait c g w s
  | .copyPerform core e idx => Sys2Proof.Machine.execCopyPerform core e idx s
  | .stqPushPerform core e idx => Sys2Proof.Machine.execStqPushPerform core e idx s
  | .mOperationPerform core => Sys2Proof.Machine.execMOperationPerform core s
  | .landingDataArrival core idx => Sys2Proof.Machine.execLandingDataArrival core idx s
  | .storePerform core => Sys2Proof.Machine.execStorePerform core s
  | .uncachedWriteAck core => Sys2Proof.Machine.execUncachedWriteAck core s
  | .retirementEntryFree core idx => Sys2Proof.Machine.execRetirementEntryFree core idx s
  | .homeSliceAccess core idx => Sys2Proof.Machine.execHomeSliceAccess core idx s
  | .invalidation die line => Sys2Proof.Machine.execInvalidation die line s
  | .remoteWrite core src => Sys2Proof.Machine.execRemoteWrite core src s
  | .fetchFill core => Sys2Proof.Machine.execFetchFill core s
  | .eccCorr core counter => Sys2Proof.Machine.execEccCorr core counter s
  | .eccFreezeEnd core => Sys2Proof.Machine.execEccFreezeEnd core s
  | .onchipUe core place => Sys2Proof.Machine.execOnchipUe core place s
  | .systemUe ca mask => Sys2Proof.Machine.execSystemUe ca mask s
  | .dpcRelease part => Sys2Proof.Machine.execDpcRelease part s
  | .barPacket core => Sys2Proof.Machine.execBarPacket core s
  | .barrierRelease core => Sys2Proof.Machine.execBarrierRelease core s
  | .fatalContextError core => Sys2Proof.Machine.execFatalContextError core s
  | .contextKill core reason => Sys2Proof.Machine.execContextKill core reason s
  | .supstart die pc => Sys2Proof.Machine.execSupstart die pc s
  | .accountLatch core => Sys2Proof.Machine.execAccountLatch core s
  | .supervisorFlush core => Sys2Proof.Machine.execSupervisorFlush core s
  | .captureStart core => Sys2Proof.Machine.execCaptureStart core s
  | .captureStop core => Sys2Proof.Machine.execCaptureStop core s
  | .shootdown core => Sys2Proof.Machine.execShootdown core s
  | .kick part qid wridx => Sys2Proof.Machine.execKick part qid wridx s
  | .packetFetch slot => Sys2Proof.Machine.execPacketFetch slot s
  | .launchComplete slot => Sys2Proof.Machine.execLaunchComplete slot s
  | .itemStart core => Sys2Proof.Machine.execItemStart core s
  | .resumeEntry core => Sys2Proof.Machine.execResumeEntry core s
  | .rebalance die => Sys2Proof.Machine.execRebalance die s
  | .ageing slot => Sys2Proof.Machine.execAgeing slot s
  | .watchdogExpire core => Sys2Proof.Machine.execWatchdogExpire core s
  | .partitionReset part => Sys2Proof.Machine.execPartitionReset part s
  | .rangeReload asid => Sys2Proof.Machine.execRangeReload asid s
  | .bundlingComplete asid fn => Sys2Proof.Machine.execBundlingComplete asid fn s
  | .codeEvict asid fn => Sys2Proof.Machine.execCodeEvict asid fn s
  | .objectClaim die => Sys2Proof.Machine.execObjectClaim die s
  | .lineMoveRead die => Sys2Proof.Machine.execLineMoveRead die s
  | .lineMoveCopied die => Sys2Proof.Machine.execLineMoveCopied die s
  | .publish die => Sys2Proof.Machine.execPublish die s
  | .hostAccess part offset wr => Sys2Proof.Machine.execHostAccess part offset wr s
  | .pcsLock port => Sys2Proof.Machine.execPcsLock port s
  | .flit port f => Sys2Proof.Machine.execFlit port f s
  | .portDown port => Sys2Proof.Machine.execPortDown port s
  | .retrainAttempt port ok => Sys2Proof.Machine.execRetrainAttempt port ok s
  | .peerUnreachable peer => Sys2Proof.Machine.execPeerUnreachable peer s
  | .memberFenced group peer => Sys2Proof.Machine.execMemberFenced group peer s
  | .routerBypass die site => Sys2Proof.Machine.execRouterBypass die site s
  | .whorlTick die => Sys2Proof.Machine.execWhorlTick die s
  | .drainmax die => Sys2Proof.Machine.execDrainmax die s
  | .powerWindow core => Sys2Proof.Machine.execPowerWindow core s
  | .registerWrite reg value => Sys2Proof.Machine.execRegisterWrite reg value s
  | .mailboxRing mb value => Sys2Proof.Machine.execMailboxRing mb value s
  | .voltageDroop die mv => Sys2Proof.Machine.execVoltageDroop die mv s
  | .xlateReq => Sys2Proof.Machine.execXlateReq s
  | .revokeAck => Sys2Proof.Machine.execRevokeAck s
  | .revokeTimeout => Sys2Proof.Machine.execRevokeTimeout s
  | .init => Sys2Proof.Machine.execInit s
  | .nak => Sys2Proof.Machine.execNak s
  | .retrain => Sys2Proof.Machine.execRetrain s
  | .read => Sys2Proof.Machine.execRead s
  | .write => Sys2Proof.Machine.execWrite s
  | .atomic => Sys2Proof.Machine.execAtomic s
  | .redcMessage => Sys2Proof.Machine.execRedcMessage s
  | .bcstMessage => Sys2Proof.Machine.execBcstMessage s
  | .rdata => Sys2Proof.Machine.execRdata s
  | .wack => Sys2Proof.Machine.execWack s
  | .areply => Sys2Proof.Machine.execAreply s
  | .error => Sys2Proof.Machine.execError s
  | .heartbeat => Sys2Proof.Machine.execHeartbeat s
  | .probeMessage => Sys2Proof.Machine.execProbeMessage s
  | .probeack => Sys2Proof.Machine.execProbeack s
  | .powerStepPin => Sys2Proof.Machine.execPowerStepPin s
  | .malformedBundle => Sys2Proof.Machine.execMalformedBundle s
  | .patchAckTimeout => Sys2Proof.Machine.execPatchAckTimeout s
  | .ctxalloc => Sys2Proof.Machine.execCtxalloc s
  | .ctxfree => Sys2Proof.Machine.execCtxfree s
  | .kill => Sys2Proof.Machine.execKill s
  | .rangeset => Sys2Proof.Machine.execRangeset s
  | .map => Sys2Proof.Machine.execMap s
  | .unmap => Sys2Proof.Machine.execUnmap s
  | .regq => Sys2Proof.Machine.execRegq s
  | .deregq => Sys2Proof.Machine.execDeregq s
  | .place => Sys2Proof.Machine.execPlace s
  | .loadobj => Sys2Proof.Machine.execLoadobj s
  | .regobj => Sys2Proof.Machine.execRegobj s
  | .unregobj => Sys2Proof.Machine.execUnregobj s
  | .migout => Sys2Proof.Machine.execMigout s
  | .migin => Sys2Proof.Machine.execMigin s
  | .heapstart => Sys2Proof.Machine.execHeapstart s
  | .heapquery => Sys2Proof.Machine.execHeapquery s
  | .heapabort => Sys2Proof.Machine.execHeapabort s
  | .heappub => Sys2Proof.Machine.execHeappub s
  | .heapfree => Sys2Proof.Machine.execHeapfree s
  | .capture => Sys2Proof.Machine.execCapture s
  | .regionbp => Sys2Proof.Machine.execRegionbp s
  | .halt => Sys2Proof.Machine.execHalt s
  | .continueRun => Sys2Proof.Machine.execContinueRun s
  | .stepToEdge => Sys2Proof.Machine.execStepToEdge s
  | .stepBundle => Sys2Proof.Machine.execStepBundle s
  | .patchSet => Sys2Proof.Machine.execPatchSet s
  | .patchClear => Sys2Proof.Machine.execPatchClear s
  | .logread => Sys2Proof.Machine.execLogread s
  | .attest => Sys2Proof.Machine.execAttest s
  | .dbgchal => Sys2Proof.Machine.execDbgchal s
  | .dbgattach => Sys2Proof.Machine.execDbgattach s
  | .dbgdetach => Sys2Proof.Machine.execDbgdetach s
  | .partset => Sys2Proof.Machine.execPartset s
  | .whorlset => Sys2Proof.Machine.execWhorlset s
  | .pinlevel => Sys2Proof.Machine.execPinlevel s
  | .wearread => Sys2Proof.Machine.execWearread s
  | .setid => Sys2Proof.Machine.execSetid s
  | .routeset => Sys2Proof.Machine.execRouteset s
  | .groupset => Sys2Proof.Machine.execGroupset s
  | .importEntry => Sys2Proof.Machine.execImportEntry s
  | .claim => Sys2Proof.Machine.execClaim s
  | .transfer => Sys2Proof.Machine.execTransfer s
  | .returnPkg => Sys2Proof.Machine.execReturnPkg s
  | .retire => Sys2Proof.Machine.execRetire s
  | .heartbeatInterval => Sys2Proof.Machine.execHeartbeatInterval s
  | .probeInterval => Sys2Proof.Machine.execProbeInterval s
  | .wearLogCommit => Sys2Proof.Machine.execWearLogCommit s
  | .powerTick => Sys2Proof.Machine.execPowerTick s
  | .idleEntry => Sys2Proof.Machine.execIdleEntry s
  | .powerFail => Sys2Proof.Machine.execPowerFail s
  | .dumpComplete => Sys2Proof.Machine.execDumpComplete s
  | .boot => Sys2Proof.Machine.execBoot s
  | .powerLost => Sys2Proof.Machine.execPowerLost s

end Sys2Proof.Machine
end

