-- ==== Sys2Proof/Machine/Step.lean ====
section
/-! DEFINITION. One step of the machine: a pending input, the boot ROM, or one issue of the current core, with the fetch of
its bundle; and how an instruction is placed where the next step fetches. -/

namespace Sys2Proof.Machine

/-- What the current core does with its turn (01 R24, R25, log 5): the bundle its instruction cache holds at the PC; where
that bundle waits for something inside the package, the first piece of outstanding work that can move. -/
def State.runCore (s : State) : Host.Outcome State Fault Refusal :=
  let key := s.cur
  let c := s.core key
  if c.stopped ∨ s.pwr.phase = .off then .fault .nothingToDo
  else if s.pwr.phase = .pfail ∧ key < 576 then .next (s.powerCycle key)
  else if c.idle then .next (s.idleCycle key)
  else match s.fetch key with
    | .fatal kind va => .next (s.fetchFatal key kind va none)
    | .miss _ => match exec (.fetchFill key) (s.freezeCycle key acctFetch) with
      | .next t => .next t
      | _ => .next (s.freezeCycle key acctFetch)
    | .bytes bs =>
      if s.waiting key bs then
        let held := s.issueBytes bs
        match (s.backgroundWork key).findSome? fun i => match exec i held with | .next t => some t | _ => none with
        | some t => .next t
        | none => .next held
      else match decode bs with
        | .ok b => match soloInstr b with
          | some i => exec i s
          | none => .next (s.issueBundle b)
        | .error _ => exec .malformedBundle s

/-- One step: the first pending input; or the boot ROM's work; or the current core's turn. -/
def step (s : State) : Host.Outcome State Fault Refusal :=
  match s.agenda with
  | .event i :: l => exec i { s with agenda := l }
  | .turn core :: l => State.runCore { s with agenda := l, cur := core }
  | .elapse ns :: l => .next { s with agenda := l, time := s.time + ns }
  | .vendor m :: l => .next ({ s with agenda := l }.vendorArrive m)
  | .bar fn off bytes :: l => .next ({ s with agenda := l }.barWrite fn off bytes)
  | .host addr bytes :: l => .next { s with agenda := l, hostMem := SMap.setList 0 s.hostMem addr bytes }
  | [] => if s.booted then s.runCore else exec .boot s

/-- The lines of the instruction cache that hold 52 bytes from a chip address, with these bytes in place. -/
def fillLines (ic : SMap (List Byte)) (asid : BitVec 16) (ca : Nat) (bytes : List Byte) : SMap (List Byte) :=
  let base := ca / 128 * 128
  let old := SMap.get [] ic (icKey asid (ca / 128))
  let whole := (List.range (ca - base)).map (fun i => old.getD i 0) ++ bytes ++ List.replicate 256 0
  SMap.set [] (SMap.set [] ic (icKey asid (ca / 128)) (whole.take 128)) (icKey asid (ca / 128 + 1)) ((whole.drop 128).take 128)

/-- The state with an instruction placed where the next step fetches (log 3): the boot ROM has run, no input is pending, the
current core's instruction cache holds the instruction's bytes at its PC, which an executable range covers. -/
def State.withFetchWord (s : State) (nbits w : Nat) : State :=
  let key := s.cur
  let bytes := leBytes 52 (w % 2 ^ nbits)
  let c := s.core key
  let c := match c.rangesOf c.pc .x 52 with
    | .ok _ => c
    | .error _ => { c with ranges := [(0, identityRange)] }
  let ca := match c.rangeOf c.pc .x with | .ok t => t.ca.toNat | .error _ => c.pc.toNat
  { s.setCore key { c with icache := fillLines c.icache c.fetchAsid ca bytes } with agenda := [], booted := true }

end Sys2Proof.Machine
end

