-- ==== Sys2Proof/Machine/Ready.lean ====
section
/-! DEFINITION. When the next bundle of the current core issues and what it leaves: the conditions of 01 R24 and R25 as predicates on
the state, and the ways in which one state follows another. The statements speak in them; no step does. -/

namespace Sys2Proof.Machine

/-- The current core. -/
def State.now (s : State) : Core := s.core s.cur

/-- The core has nothing outstanding and nothing holds it: it runs an item or is in system mode, every earlier result has landed, no
cause of an exception waits, and its power window has room for any bundle (01 R25, 08 R261, 20 R481). -/
structure Core.Quiet (c : Core) : Prop where
  issues : c.idle = false
  bar : c.bar = .none
  await : c.await = .none
  recolors : c.recolors = []
  ecc : c.ecc = 0
  async : c.async = []
  breakNext : c.hooks.breakNext = none
  haltRequest : c.hooks.haltRequest = false
  stepBundle : c.hooks.stepBundle = false
  yieldReq : c.yieldReq = false
  repLeft : c.repLeft = none
  pend : c.pend = []
  landings : c.landings = []
  drives : c.drives = []
  flagOrs : c.flagOrs = []
  mq : c.mq = []
  poison : c.poison = []
  room : c.supervisor = true ∨ c.power.sum + 12 ≤ 64 * c.power.eff

/-- What an operation sees when it issues in a bundle of its own on the current core. -/
def State.view (s : State) (m : OpSem) : View :=
  let c := s.core s.cur
  let v : View := { core := c, slot := m.slot, pc := c.pc, size := 12, addrs := {}, draw := s.free }
  { v with addrs := m.base v }

/-- The operation as the issue of its bundle of its own takes it. -/
def State.soloIssuing (s : State) (m : OpSem) (w : W64) : Issuing :=
  { slot := m.slot, word := w, sem := m, fresh := true, view := s.view m, perf := (s.view m).guard m.guard, stepErr := none }

/-- The checks of 01 R24 that hold of every operation alike: it may run in the core's mode, its slot is bound, the core runs it, and its
encoded bound is not below the timing table. -/
structure OpSem.Admitted (m : OpSem) (s : State) : Prop where
  priv : (s.core s.cur).cr.sys = true ∨ m.priv (s.core s.cur) = false
  bound : (s.core s.cur).instanceOf m.slot ≠ none
  runsOn : m.runsOn s.cur (s.core s.cur) = true
  timing : ∀ row cls b, m.timing = some (row, cls, b) →
    (s.core s.cur).timingAt (32 * row + cls) ≠ 0 ∧ (s.core s.cur).latencyOf row cls ≤ b

/-- An operation of a slot, a predicate, and a timing row, class and encoded bound where it has one, may issue on the current core in a
bundle of its own: the core is quiet, the predicate is true, the slot is bound to an engine, the timing table has an entry for the class
that is not above the bound (01 R24, R42, R43, 02 R61). What else an operation needs is its own. -/
structure State.Issues (s : State) (slot : Slot) (g : Guard) (timing : Option (Nat × Nat × Nat)) : Prop where
  quiet : (s.core s.cur).Quiet
  guard : ((s.core s.cur).pReg (g.pred.zeroExtend 6) != (g.pn == 1)) = true
  bound : (s.core s.cur).instanceOf slot ≠ none
  timing : ∀ row cls b, timing = some (row, cls, b) →
    (s.core s.cur).timingAt (32 * row + cls) ≠ 0 ∧ (s.core s.cur).latencyOf row cls ≤ b

/-- An operation performs in a bundle of its own: the core is quiet and every check of 01 R24 passes, the predicate is true, and it
waits for nothing. -/
structure OpSem.Performs (m : OpSem) (s : State) : Prop where
  quiet : (s.core s.cur).Quiet
  admitted : m.Admitted s
  guard : (s.view m).guard m.guard = true
  check1 : m.check1 (s.core s.cur) = false
  always5 : m.always5 (s.view m) = none
  check5 : m.check5 s s.cur (s.view m) = none
  knots : checkKnots (s.core s.cur) [] [s.soloIssuing m 0] = none
  fatal : m.fatal s s.cur (s.view m) = none
  waits : waitOf s s.cur [s.soloIssuing m 0] = none
  late5 : m.late5 s s.cur (s.view m) = none

/-- No context has an account block or a ring, so that no charge writes memory (10 R288, R292). -/
def State.Unaccounted (s : State) : Prop := ∀ a, (s.account a).1 = 0 ∧ (s.account a).2.1 = 0

/-- A core agrees with another in all but its accounts, its count of cycles, what remains of an ECC freeze, its power window and its
sticky slots. -/
def Core.Agrees (c e : Core) : Prop :=
  c = { e with acct := c.acct, cycle := c.cycle, ecc := c.ecc, power := c.power, sticky := c.sticky }

/-- The state when an operation performs: its cycle has been charged, its slot holds its word, and the rest is as it was. -/
structure State.Charged (s u : State) : Prop where
  rest : u = { s with cores := u.cores, mem := u.mem, memPoison := u.memPoison, free := s.free + 1 }
  others : ∀ k, k ≠ s.cur → u.core k = s.core k
  memory : s.Unaccounted → u.mem = s.mem ∧ u.memPoison = s.memPoison
  core : (u.core s.cur).Agrees (s.core s.cur)
  cycle : (u.core s.cur).cycle = (s.core s.cur).cycle + 1

/-- One issue cycle of the current core has passed, which leaves it as `e`: every other core is unchanged, of the rest of the machine
nothing changes but accounts, and memory not at all where no context is accounted for. -/
structure State.Follows (s t : State) (e : Core) : Prop where
  rest : t = { s with cores := t.cores, mem := t.mem, memPoison := t.memPoison, free := s.free + 1 }
  others : ∀ k, k ≠ s.cur → t.core k = s.core k
  memory : s.Unaccounted → t.mem = s.mem ∧ t.memPoison = s.memPoison
  core : (t.core s.cur).Agrees e
  cycle : (t.core s.cur).cycle = (s.core s.cur).cycle + 1

/-- The core one bundle later: the bundle-time and the PC have advanced (01 R22, 02 R53). -/
def Core.after (c : Core) : Core := { c with bt := c.bt + 1, pc := c.pc + 12 }

/-- The core one bundle later, with one write placed under a bound: it has landed where the bound is 1, and lands at the end of the
bundle-time t + bound - 1 otherwise (01 R34). -/
def Core.later (c : Core) (bound : Nat) (x : Write) : Core :=
  (if bound ≤ 1 then c.land x else { c with pend := [⟨bound - 1, x⟩] }).after

/-- The core with another value in cr.seed. -/
def Core.withSeed (c : Core) (x : W64) : Core := { c with cr := { c.cr with seed := x } }

/-- Flag bits placed under a bound: they are ORed into cr.flags at the bundle-time t + bound (03 R102). -/
def Core.flagsAt (c : Core) (bound : Nat) (f : Flags) : Core :=
  if f = 0 then c
  else if bound = 0 then { c with cr := { c.cr with flags := c.cr.flags ||| f } }
  else { c with flagOrs := [⟨bound - 1, f⟩] }

/-- A beat on its way to a strand from a drive station: it stands at its ring index from the bundle-time t + bound (01 R30). -/
def Core.driveFrom (c : Core) (st slot : Nat) (bound : Nat) (z : BitVec 6) (b : Beat) : Core :=
  let ring := ringDrive st c.bt bound
  if bound = 0 then c.setBeat z ring b
  else { c with drives := [{ left := bound - 1, z := z, ring := ring, beat := some b, slot := slot }] }

/-- The same from the station of a slot. -/
def Core.driveAt (c : Core) (slot : Slot) (bound : Nat) (z : BitVec 6) (b : Beat) : Core :=
  c.driveFrom (station slot) (match slot with | .s => 0 | .v0 => 1 | _ => 2) bound z b

/-! ### Elements -/

/-- Element i of a beat under its tag: the bits [w × i + w − 1 : w × i] of its data (03 R90). -/
def Beat.at (b : Beat) (i : Nat) : Nat := (b.data.extractLsb' (tagWidth b.tag * i) (tagWidth b.tag)).toNat

/-- A beat of a tag whose elements are the values of `f`, cut to the element width, with a zero sidecar. -/
def Beat.Holds (b : Beat) (t : Tag) (f : Nat → Nat) : Prop :=
  b.tag = t ∧ b.side = 0 ∧ ∀ i, i < tagCount t → b.at i = f i % 2 ^ tagWidth t

/-- The beat that an operation of a slot taps from a strand when it issues (01 R30, 05 R152). -/
def State.tapped (s : State) (vs : VSlot) (n : BitVec 6) : Beat := s.now.beatAt n (ringAt (station vs.slot) s.now.bt)

/-- The mode a vector operation rounds in: RM, where 0 selects cr.round (02 R66). -/
def State.vecMode (s : State) (w : VR) : RMode := RMode.ofCode (if w.rm = 0 then s.now.cr.round else w.rm)

/-- cr.seed after `n` draws (03 R104). -/
def seedStep : Nat → W64 → W64
  | 0, x => x
  | n + 1, x => seedStep n (srNext x)

/-- Draw k, from 0, of an operation: the draws of SR are taken in ascending order, and other modes take none (03 R105). -/
def State.drawAt (s : State) (m : RMode) (k : Nat) : Nat := if m = .sr then srBits (seedStep (k + 1) s.now.cr.seed) else 0
/-- cr.seed after an operation with `n` draws. -/
def State.seedFor (s : State) (m : RMode) (n : Nat) : W64 := if m = .sr then seedStep n s.now.cr.seed else s.now.cr.seed

/-- The core one bundle later, with a beat on its way to its strand, flags under the same bound and cr.seed stepped. -/
def Core.vector (c : Core) (vs : VSlot) (w : VR) (b : Beat) (f : Flags) (seed : W64) : Core :=
  (((c.flagsAt w.lat.toNat f).withSeed seed).driveAt vs.slot w.lat.toNat w.zd b).after

end Sys2Proof.Machine
end

