-- ==== Sys2Proof/Machine/Forms.lean ====
section
/-! DEFINITION. The forms in which the statements speak of an instruction: what it leaves of its core and of the machine. No step uses
them. -/

namespace Sys2Proof.Machine

/-- An instruction answers a next state, in which one issue cycle has passed and the current core is as `e`. -/
def Completes (i : Instr) (s : State) (e : Core) : Prop := ∃ t, exec i s = .next t ∧ s.Follows t e

/-- s[D] := r(s[A], s[B]) under the bound LAT. -/
def ScalarRR (f : Guard → SR → Instr) (cls : Nat) (r : W64 → W64 → W64) : Prop :=
  ∀ (s : State) (g : Guard) (w : SR), s.Issues .s g (some (0, cls, w.lat.toNat)) → (f g w).check1 = none →
    Completes (f g w) s (s.now.later w.lat.toNat (.s w.d (r (s.now.sReg w.a) (s.now.sReg w.b))))

/-- s[D] := r(s[A], imm) under the bound LAT, the immediate sign-extended to 64 bits. -/
def ScalarRI (f : Guard → SI → Instr) (r : W64 → W64 → W64) : Prop :=
  ∀ (s : State) (g : Guard) (w : SI), s.Issues .s g (some (0, 0, w.lat.toNat)) → (f g w).check1 = none →
    Completes (f g w) s (s.now.later w.lat.toNat (.s w.d (r (s.now.sReg w.a) (w.imm.signExtend 64))))

/-- p[D] := r(s[A], s[B]) under the bound LAT. -/
def CompareRR (f : Guard → SR → Instr) (r : W64 → W64 → Prop) : Prop :=
  ∀ (s : State) (g : Guard) (w : SR) (b : Bool), s.Issues .s g (some (0, 0, w.lat.toNat)) → (f g w).check1 = none →
    (b = true ↔ r (s.now.sReg w.a) (s.now.sReg w.b)) → Completes (f g w) s (s.now.later w.lat.toNat (.p w.d b))

/-- p[D] := r(s[A], imm) under the bound LAT. -/
def CompareRI (f : Guard → SI → Instr) (r : W64 → W64 → Prop) : Prop :=
  ∀ (s : State) (g : Guard) (w : SI) (b : Bool), s.Issues .s g (some (0, 0, w.lat.toNat)) → (f g w).check1 = none →
    (b = true ↔ r (s.now.sReg w.a) (w.imm.signExtend 64)) → Completes (f g w) s (s.now.later w.lat.toNat (.p w.d b))

/-- p[D] := r(p[A], p[B]) under the bound LAT. -/
def PredicateOp (f : Guard → SR → Instr) (r : Bool → Bool → Bool) : Prop :=
  ∀ (s : State) (g : Guard) (w : SR), s.Issues .s g (some (0, 0, w.lat.toNat)) → (f g w).check1 = none →
    Completes (f g w) s (s.now.later w.lat.toNat (.p w.d (r (s.now.pReg w.a) (s.now.pReg w.b))))

/-- The FP32 value in bits [31:0] of an s register of the current core. -/
def State.fpOf (s : State) (n : BitVec 6) : Fv := fp32.value ((s.now.sReg n).toNat % 2 ^ 32)

/-- The rounding mode of a scalar FP32 operation: FN[2:0], where 0 selects cr.round. -/
def State.fpMode (s : State) (w : SR) : RMode := RMode.ofCode (if w.fn.extractLsb' 0 3 = 0 then s.now.cr.round else w.fn.extractLsb' 0 3)

/-- The draw an operation takes in SR: one step of the generator (03 R104, R105). -/
def State.drawn (s : State) (w : SR) : Nat := if s.fpMode w = .sr then srBits (srNext s.now.cr.seed) else 0
/-- cr.seed after it. -/
def State.seedAfter (s : State) (w : SR) : W64 := if s.fpMode w = .sr then srNext s.now.cr.seed else s.now.cr.seed

/-- s[D] := the exact result x rounded once, with the flags of both (04 R128): `x` gives the exact value and its flags in a mode. -/
def FpArith (f : Guard → SR → Instr) (cls : Nat) (x : State → SR → RMode → Fv × Flags) : Prop :=
  ∀ (s : State) (g : Guard) (w : SR), s.Issues .s g (some (0, cls, w.lat.toNat)) → (f g w).check1 = none →
    let e := x s w (s.fpMode w)
    let r := round fp32 (s.fpMode w) (w.fn.getLsbD 3) (s.drawn w) e.1
    Completes (f g w) s (((s.now.flagsAt w.lat.toNat (e.2 ||| r.2)).withSeed (s.seedAfter w)).later w.lat.toNat (.s w.d (BitVec.ofNat 64 r.1)))

/-- An operation that takes no draw and writes one register, with flags under the same bound. -/
def FpExact (f : Guard → SR → Instr) (x : State → SR → Write × Flags) : Prop :=
  ∀ (s : State) (g : Guard) (w : SR), s.Issues .s g (some (0, 2, w.lat.toNat)) → (f g w).check1 = none →
    Completes (f g w) s ((s.now.flagsAt w.lat.toNat (x s w).2).later w.lat.toNat (x s w).1)

/-- The core at another address. -/
def Core.at (c : Core) (pc : BitVec 57) : Core := { c with pc := pc }

/-- A branch target that its tests accept: 4-byte aligned, with bits [63:57] zero (04 R132). -/
def TargetOk (t : W64) : Prop := t.toNat % 4 = 0 ∧ t.toNat < 2 ^ 57

/-- base + 4 × DISP in 64-bit arithmetic. -/
def displaced (base : Int) (disp : BitVec 35) : W64 := BitVec.ofInt 64 (base + 4 * disp.toInt)

/-- A little-endian value of `n` bytes extended to 64 bits, with its sign or with zeros. -/
def extended (n : Nat) (sgn : Bool) (v : Nat) : W64 :=
  if sgn ∧ 2 ^ (8 * n - 1) ≤ v then BitVec.ofInt 64 ((v : Int) - 2 ^ (8 * n)) else BitVec.ofNat 64 v

/-- The little-endian value of `n` scratchpad bytes of a core. -/
def Core.spadValue (c : Core) (a n : Nat) : Nat := leNat ((List.range n).map fun i => c.spadByte (a + i))

/-- A scratchpad access that the tests accept: aligned to its width and wholly inside the scratchpad (04 R142). -/
def Core.SpadOk (c : Core) (a : W64) (n : Nat) : Prop := a.toNat % n = 0 ∧ a.toNat + n ≤ c.spadSize

/-- A global access that the tests accept and a range register maps: aligned to its width, bits [63:57] zero, every byte permitted; its
first byte's target (04 R144). -/
def Core.MapsTo (c : Core) (a : W64) (n : Nat) (need : Need) (t : Target) : Prop :=
  a.toNat % n = 0 ∧ a.toNat < 2 ^ 57 ∧ (∀ i, i < n → ∃ u, c.rangeOf (a.extractLsb' 0 57 + BitVec.ofNat 57 i) need = .ok u) ∧
    c.rangeOf (a.extractLsb' 0 57) need = .ok t

/-- The core with a landing slot taken: `left` more issues until its landing time. -/
def Core.withLanding (c : Core) (left : Nat) (toK : Bool) (d : BitVec 6) (t : Target) (kind : LandKind) : Core :=
  { c with
    nextLanding := c.nextLanding + 1
    landings := [⟨c.nextLanding, left, toK, d, t, kind, .waiting, true, false, none⟩] }

/-- The core with a store at the end of its store stream. -/
def Core.withStore (c : Core) (t : Target) (kind : StoreKind) : Core :=
  { c with nextLanding := c.nextLanding + 1, stream := c.stream ++ [⟨c.nextLanding, t, kind, .no, none⟩] }

/-- The core with other control registers. -/
def Core.withCr (c : Core) (r : CtlRegs) : Core := { c with cr := r }

/-- The core with the landing slot of an atomic taken, whose request is in the store stream too where ORD is set (08 R246). -/
def Core.withAtomic (c : Core) (w : SA) (op : AmoOp) (t : Target) : Core :=
  let e := c.withLanding (w.lnd.toNat - 1) false w.d t (.amo op w.size (c.sReg w.b) (c.sReg w.c) w.scope (w.ord == 1))
  if w.ord = 1 then { e with stream := c.stream ++ [⟨c.nextLanding, t, .amo c.nextLanding, .no, none⟩] } else e

/-- The core that has entered a trap handler before the bundle at its PC, with nothing in flight but what the latch bank takes (08 R265). -/
def Core.trapped (c : Core) (cause : BitVec 8) (info : W64) : Core :=
  { c with
    latch := some { bt := c.bt, sticky := c.sticky }
    sticky := []
    item := c.item.map fun it => { it with atYield := false }
    cr := { c.cr with sys := true, epc := c.pc.zeroExtend 64, erep := 1, cause := cause, einfo := info }
    pc := BitVec.ofNat 57 (256 * cause.toNat) }

/-- An instruction raises a trap in user mode: the core enters the handler, and nothing else of the machine changes. -/
def Traps (i : Instr) (s : State) (cause : BitVec 8) (info : W64) : Prop :=
  exec i s = .next (s.setCore s.cur (s.now.trapped cause info))

/-- The current core is a tile core in user mode. -/
def State.User (s : State) : Prop := s.now.cr.sys = false ∧ s.now.supervisor = false

/-- A usable reference: a heap below 8, not null, with the good colour of its heap (07 R235, 15 R390). -/
def Core.Fresh (c : Core) (k : W64) : Prop := (refHeap k).toNat < 8 ∧ refAddr k ≠ 0 ∧ refColor k = c.goodColor (refHeap k)

/-- An access of `n` bytes at an offset of an object through a usable reference that the tests accept: the offset is no header's, the
address aligned, and a MANAGED range of the reference's heap maps it to `t` (07 R235). -/
def Core.RefersTo (c : Core) (k : W64) (off : BitVec 12) (n : Nat) (need : Need) (t : Target) : Prop :=
  c.Fresh k ∧ 16 ≤ off.toInt ∧ c.MapsTo ((refAddr k).zeroExtend 64 + off.signExtend 64) n need t ∧ t.cls = .managed ∧
    t.heap = (refHeap k).extractLsb' 0 3

/-- The header of a usable reference's object lies in package memory at `pa`, sound, neither claimed nor forwarded, and holds the pin
count `n` (15 R400). -/
def State.HeaderAt (s : State) (k : W64) (t : Target) (pa : Nat) (n : BitVec 16) : Prop :=
  s.now.Fresh k ∧ s.now.MapsTo ((refAddr k).zeroExtend 64) 8 .rw t ∧ t.cls = .managed ∧ t.heap = (refHeap k).extractLsb' 0 3 ∧
    (∃ st, s.translate s.now.cr.asid t.ca .rw false = ⟨.ok (.mem pa), st⟩) ∧ s.poisoned pa = false ∧
    ∃ x : W64, x = BitVec.ofNat 64 (s.memNat pa 8) ∧ x.getLsbD 63 = false ∧ x.getLsbD 62 = false ∧ pinCount x = n

/-- As `Completes`, where the instruction also acts on the machine beside its core: `f` of the state that follows. -/
def CompletesWith (i : Instr) (s : State) (e : Core) (f : State → State) : Prop := ∃ t, s.Follows t e ∧ exec i s = .next (f t)

/-- As `Completes`, where the instruction changes another core too, by `f`. -/
def CompletesAt (i : Instr) (s : State) (e : Core) (k : Nat) (f : Core → Core) : Prop :=
  ∃ t, exec i s = .next t ∧ (t.core s.cur).Agrees e ∧ t.core k = f (s.core k) ∧ (∀ j, j ≠ s.cur → j ≠ k → t.core j = s.core j) ∧
    t = { s with cores := t.cores, mem := t.mem, memPoison := t.memPoison, free := s.free + 1 } ∧ (s.Unaccounted → t.mem = s.mem)

/-- The current core is the supervisor of a die. -/
def State.Supervises (s : State) (die : Nat) : Prop := s.cur = 576 + die ∧ die < 4 ∧ s.now.supervisor = true ∧ s.now.cr.sys = true

/-- A target site of a command: on the die, and not dropped from the mesh (08 R268). -/
def State.TargetSite (s : State) (die : Nat) (x : W64) : Prop := x.toNat < 144 ∧ s.siteState (144 * die + x.toNat) ≠ .dropped true

/-- A vector operation drives the beat `b` at its bound, with flags `f` and `n` draws in SR (05 R152, R157). -/
def VectorDrives (i : Instr) (s : State) (vs : VSlot) (w : VR) (b : Beat) (f : Flags) (n : Nat) : Prop :=
  Completes i s (s.now.vector vs w b f (s.seedFor (s.vecMode w) n))

/-- A vector operation drives a beat of the tag `t` whose element k and its flags are `q k`, with `n` draws in SR. -/
def VectorGives (i : Instr) (s : State) (vs : VSlot) (w : VR) (t : Tag) (n : Nat) (q : Nat → Nat × Flags) : Prop :=
  ∃ b : Beat, b.Holds t (fun k => (q k).1) ∧
    VectorDrives i s vs w b (Flags.all ((List.range (tagCount t)).map fun k => (q k).2)) n

/-- An element of an integer tag as a number, signed as the tag says. -/
def Beat.int (b : Beat) (k : Nat) : Int :=
  let x := b.data.extractLsb' (tagWidth b.tag * k) (tagWidth b.tag)
  if b.tag = 2 ∨ b.tag = 4 ∨ b.tag = 6 then x.toInt else x.toNat

/-- An integer result (03 R106): clamped with the overflow flag under SAT, and wrapped otherwise. -/
def clamped (t : Tag) (sat : Bool) (x : Int) : Nat × Flags :=
  let lo : Int := if t = 2 ∨ t = 4 ∨ t = 6 then -(2 ^ (tagWidth t - 1)) else 0
  let hi : Int := if t = 2 ∨ t = 4 ∨ t = 6 then 2 ^ (tagWidth t - 1) - 1 else 2 ^ tagWidth t - 1
  let y := if sat then max lo (min hi x) else x
  ((y % 2 ^ tagWidth t).toNat, if y = x then 0 else 2)

/-- All bits of an element of a tag where a condition holds. -/
def allOnes (t : Tag) (b : Bool) : Nat := if b then 2 ^ tagWidth t - 1 else 0

/-- `place` of 05 R155: from the element `first` of the source, `n` elements become those of the result from `dst`; Ns, Nd and h are the
element counts and the part. -/
def Placed (ns nd h first dst n : Nat) : Prop :=
  nd < ns ∧ h < ns / nd ∧ first = h * nd ∧ dst = 0 ∧ n = nd ∨ ns < nd ∧ h < nd / ns ∧ first = 0 ∧ dst = h * ns ∧ n = ns ∨
    ns = nd ∧ h = 0 ∧ first = 0 ∧ dst = 0 ∧ n = ns

/-- A data byte of a beat. -/
def Beat.byte (b : Beat) (i : Nat) : Nat := (b.data.extractLsb' (8 * i) 8).toNat
/-- A sidecar byte of a beat. -/
def Beat.sideByte (b : Beat) (i : Nat) : Nat := (b.side.extractLsb' (8 * i) 8).toNat

/-- The value of an element under its tag: of a ZB block (03 R95), an integer, an E8M0 scale (05 R174) or a floating-point encoding. -/
def Beat.valueAt (b : Beat) (j : Nat) : Fv :=
  if isZ b.tag then (b.blk (zbM b.tag) (j / 16)).value (zbM b.tag) (j % 16)
  else if isI b.tag then .fin (Dy.int (b.int j))
  else if b.tag = 0x18 then (if b.at j = 255 then .nan false else .fin ⟨false, 1, (b.at j : Int) - 127⟩)
  else (fmtOf b.tag).value (b.at j)

/-- The sixteen draws of a quantised block in SR (05 R157). -/
def State.blockDraws (s : State) (m : RMode) (i : Nat) : List Nat :=
  if m = .sr then (List.range 16).map fun j => s.drawAt m (16 * i + j) else []

/-- A ZB operation drives a beat of the tag `t` with the blocks `blk k`. -/
def VectorBlocks (i : Instr) (s : State) (vs : VSlot) (w : VR) (t : Tag) (blk : Nat → Blk) (f : Flags) (n : Nat) : Prop :=
  VectorDrives i s vs w { zbBeat (zbM t) ((List.range (zbBlocks (zbM t))).map blk) with tag := t } f n

/-- The core one bundle later, with a matrix operation in the engine: its produced knot is PENDING with SOURCE 1, one more issue of it is
outstanding, and its drive and flags fall due at the bundle-time t + 4 × LAT (06 R191, R193). -/
def Core.joinsEngine (c : Core) (w : MW) (job : MJob) (seed : W64) : Core :=
  let k := c.knot w.kp
  { (c.setKnot w.kp { k with source := 1, state := .pending, count := k.count + 1 }).withSeed seed with
    mq := [⟨job, w.kp, 4 * w.lat.toNat - 1, w.za, ringDrive 9 c.bt (4 * w.lat.toNat)⟩] }.after

/-- The draws of an operation: in SR one for each of its `n` roundings, and none in another mode (03 R105). -/
def State.drawList (s : State) (m : RMode) (n : Nat) : List Nat := if m = .sr then (List.range n).map (s.drawAt m) else []

/-- The knots of an operation allow it to issue: those it waits on are RESOLVED, and the one it produces is not FAILED and, where it is
PENDING, has the same SOURCE (07 R210, R211). -/
def Core.KnotsAllow (c : Core) (consumed : List (BitVec 6)) (kp : BitVec 6) (source : BitVec 3) : Prop :=
  (∀ n ∈ consumed, (c.knot n).state = .resolved) ∧ (c.knot kp).state ≠ .failed ∧ ((c.knot kp).state = .pending → (c.knot kp).source = source)

/-- The copy engine of a C slot: B where its map entry is 1 (01 R43). -/
def Core.engineOf (c : Core) (cs : CSlot) : Engine := if c.instanceOf cs.slot = some 1 then .b else .a

/-- The core one bundle later, with an operation in the decoupling queue of an engine: its produced knot is PENDING with the engine's
SOURCE, and one more issue of it is outstanding (07 R209, R210, R219). -/
def Core.queues (c : Core) (w : CW) (e : Engine) (job : CopyJob) : Core :=
  let k := c.knot w.kp
  let d := c.setKnot w.kp { k with source := engineSource e, state := .pending, count := k.count + 1 }
  let o : CopyOp := { id := c.nextCopy, engine := e, kp := w.kp, job := job, asid := c.cr.asid, wid := (c.item.map Item.wid).getD 0
                      slot := (c.item.map Item.slot).getD 64, stage := (c.item.map Item.stage).getD 0 }
  Core.after { d with nextCopy := c.nextCopy + 1, copies := c.copies ++ [o] }

/-- A scalar address operand passes its tests over `n` bytes: aligned; in scratchpad below its size, or, with bit 57, wholly inside the
one range register that covers it, which grants the access and has an admitted class (07 R216, R217). -/
def Core.Reaches (c : Core) (a : W64) (align n : Nat) (need : Need) (classes : List RangeClass) : Prop :=
  a.toNat % align = 0 ∧ a.toNat < 2 ^ 58 ∧ (isGlobal a = false → a.toNat + n ≤ c.spadSize) ∧
    (isGlobal a = true → ∃ g, findRange c.ranges (addrOf a) 0 8 = some g ∧ need.ok (g.getLsbD 192) (g.getLsbD 193) (g.getLsbD 194) = true ∧
      (addrOf a).toNat + n ≤ (rangeBounds g).2 * 65536 ∧ rangeClass g ∈ classes)

/-- A tensor operand passes its tests over some of its elements, whose byte runs are `runs`: the handle is usable, every run lies in its
space, and a global one's lie in the one range of the first (04 R136 to R138, 07 R217). -/
def Core.Holds (c : Core) (h : Handle) (l : List (Nat × Nat × Nat × Nat)) (runs : List (Int × Nat)) (need : Need) (classes : List RangeClass) : Prop :=
  h.usable = true ∧ h.runsAt l = some runs ∧ (∀ q ∈ runs, 0 ≤ q.1 ∧ q.1 + q.2 ≤ if h.global then 2 ^ 57 else (c.spadSize : Int)) ∧
    ∀ q rest, runs = q :: rest → h.global = true → ∃ g, findRange c.ranges (BitVec.ofNat 57 q.1.toNat) 0 8 = some g ∧
      need.ok (g.getLsbD 192) (g.getLsbD 193) (g.getLsbD 194) = true ∧ (BitVec.ofNat 57 q.1.toNat).toNat + q.2 ≤ (rangeBounds g).2 * 65536 ∧
      rangeClass g ∈ classes ∧ ∀ x ∈ rest, (rangeBounds g).1 * 65536 ≤ x.1.toNat ∧ x.1.toNat + x.2 ≤ (rangeBounds g).2 * 65536

/-- The four extents of two handles agree. -/
def Handle.SameExtents (d h : Handle) : Prop := h.ext0 = d.ext0 ∧ h.ext1 = d.ext1 ∧ h.ext2 = d.ext2 ∧ h.ext3 = d.ext3

/-- The request of a mailbox is at the head of the queue, under a code, and the package answers requests (13 R347, 18 R448, 20 R490). -/
def State.Serves (s : State) (code mb : Nat) : Prop :=
  s.host.queue.head? = some mb ∧ (s.mailbox mb).code = code ∧ s.contained.contains 31 = false ∧ s.sec.lifecycle ≠ .retired

/-- An operand W1 to W7 of the request that a mailbox holds. -/
def State.operand (s : State) (mb i : Nat) : W64 := (s.mailbox mb).word i

/-- A request is answered with an outcome and values, the machine being as `t` but for the response. -/
def Answers (i : Instr) (s : State) (mb outcome : Nat) (vals : List W64) (t : State) : Prop := exec i s = .next (t.respond mb outcome vals)

end Sys2Proof.Machine
end

