-- ==== Sys2Proof/Certificates/Slice0/Obligations.lean ====
section
/-! DEFINITION. The statements about the machine, each a proposition that formalises rules of the spec. -/

open Sys2Proof Sys2Proof.Machine

/-! ### The scalar slot -/

/-- 04 R124: the register-form integer operations; a field that one reserves is not zero only where check 1 refuses it. -/
def Obligations.IntegerRegisterForms : Prop :=
  ScalarRR .add 0 (fun x y => BitVec.ofInt 64 (x.toInt + y.toInt)) ∧
  ScalarRR .sub 0 (fun x y => BitVec.ofInt 64 (x.toInt - y.toInt)) ∧
  ScalarRR .mul 1 (fun x y => BitVec.ofInt 64 (x.toInt * y.toInt)) ∧
  ScalarRR .mulh 1 (fun x y => BitVec.ofInt 64 (x.toInt * y.toInt / 2 ^ 64)) ∧
  ScalarRR .mulhu 1 (fun x y => BitVec.ofNat 64 (x.toNat * y.toNat / 2 ^ 64)) ∧
  ScalarRR .and 0 (fun x y => x &&& y) ∧ ScalarRR .or 0 (fun x y => x ||| y) ∧ ScalarRR .xor 0 (fun x y => x ^^^ y) ∧
  ScalarRR .shl 0 (fun x y => BitVec.ofNat 64 (x.toNat * 2 ^ (y.toNat % 64))) ∧
  ScalarRR .shr 0 (fun x y => BitVec.ofNat 64 (x.toNat / 2 ^ (y.toNat % 64))) ∧
  ScalarRR .sar 0 (fun x y => BitVec.ofInt 64 (x.toInt / 2 ^ (y.toNat % 64))) ∧
  ScalarRR .min 0 (fun x y => BitVec.ofInt 64 (min x.toInt y.toInt)) ∧
  ScalarRR .max 0 (fun x y => BitVec.ofInt 64 (max x.toInt y.toInt)) ∧
  ScalarRR .minu 0 (fun x y => BitVec.ofNat 64 (min x.toNat y.toNat)) ∧
  ScalarRR .maxu 0 (fun x y => BitVec.ofNat 64 (max x.toNat y.toNat)) ∧
  ScalarRR .clz 0 (fun x _ => BitVec.ofNat 64 (if x = 0 then 64 else 63 - Nat.log2 x.toNat)) ∧
  ScalarRR .popc 0 (fun x _ => BitVec.ofNat 64 ((List.range 64).countP fun i => x.getLsbD i)) ∧
  ∀ (g : Guard) (w : SR), w.b ≠ 0 → (Instr.clz g w).check1 ≠ none ∧ (Instr.popc g w).check1 ≠ none

/-- 04 R125: the immediate-form integer operations, and the bits that the shifts and LI reserve. -/
def Obligations.IntegerImmediateForms : Prop :=
  ScalarRI .addi (fun x y => BitVec.ofInt 64 (x.toInt + y.toInt)) ∧
  ScalarRI .andi (fun x y => x &&& y) ∧ ScalarRI .ori (fun x y => x ||| y) ∧ ScalarRI .xori (fun x y => x ^^^ y) ∧
  ScalarRI .shli (fun x y => BitVec.ofNat 64 (x.toNat * 2 ^ (y.toNat % 64))) ∧
  ScalarRI .shri (fun x y => BitVec.ofNat 64 (x.toNat / 2 ^ (y.toNat % 64))) ∧
  ScalarRI .sari (fun x y => BitVec.ofInt 64 (x.toInt / 2 ^ (y.toNat % 64))) ∧
  ScalarRI .li (fun _ y => y) ∧
  ∀ (g : Guard) (w : SI),
    (w.imm.extractLsb' 6 29 ≠ 0 → (Instr.shli g w).check1 ≠ none ∧ (Instr.shri g w).check1 ≠ none ∧ (Instr.sari g w).check1 ≠ none) ∧
    (w.a ≠ 0 → (Instr.li g w).check1 ≠ none)

/-- 04 R126, R127: the compares and the predicate operations, and the field that PNOT reserves. -/
def Obligations.ComparesAndPredicates : Prop :=
  CompareRR .cmpeq (fun x y => x = y) ∧ CompareRR .cmpne (fun x y => x ≠ y) ∧
  CompareRR .cmplt (fun x y => x.toInt < y.toInt) ∧ CompareRR .cmple (fun x y => x.toInt ≤ y.toInt) ∧
  CompareRR .cmpltu (fun x y => x.toNat < y.toNat) ∧ CompareRR .cmpleu (fun x y => x.toNat ≤ y.toNat) ∧
  CompareRI .cmpeqi (fun x y => x = y) ∧ CompareRI .cmplti (fun x y => x.toInt < y.toInt) ∧
  PredicateOp .pand (fun x y => x && y) ∧ PredicateOp .por (fun x y => x || y) ∧
  PredicateOp .pxor (fun x y => x ^^ y) ∧ PredicateOp .pnot (fun x _ => !x) ∧
  ∀ (g : Guard) (w : SR), w.b ≠ 0 → (Instr.pnot g w).check1 ≠ none

/-- 04 R128 to R130: scalar FP32, every result rounded once with its flags at the bound and one draw in SR. -/
def Obligations.ScalarFloat : Prop :=
  FpArith .fadd 2 (fun s w m => (s.fpOf w.a).add m (s.fpOf w.b)) ∧
  FpArith .fsub 2 (fun s w m => (s.fpOf w.a).add m (s.fpOf w.b).negate) ∧
  FpArith .fmul 2 (fun s w _ => (s.fpOf w.a).mul (s.fpOf w.b)) ∧
  FpArith .ffma 2 (fun s w m => Fv.fma m (s.fpOf w.a) (s.fpOf w.b) (s.fpOf w.c)) ∧
  FpArith .fdiv 3 (fun s w _ => (s.fpOf w.a).div (s.fpOf w.b)) ∧
  FpArith .fsqrt 3 (fun s w _ => (s.fpOf w.a).sqrt) ∧
  FpArith .icvtf 2 (fun s w _ =>
    (.fin (Dy.int (if w.fn.getLsbD 4 then ((s.now.sReg w.a).toNat : Int) else (s.now.sReg w.a).toInt)), 0)) ∧
  FpExact .fmin (fun s w =>
    let r := fpMinMax fp32 false ((s.now.sReg w.a).toNat % 2 ^ 32) ((s.now.sReg w.b).toNat % 2 ^ 32)
    (.s w.d (BitVec.ofNat 64 r.1), r.2)) ∧
  FpExact .fmax (fun s w =>
    let r := fpMinMax fp32 true ((s.now.sReg w.a).toNat % 2 ^ 32) ((s.now.sReg w.b).toNat % 2 ^ 32)
    (.s w.d (BitVec.ofNat 64 r.1), r.2)) ∧
  FpExact .fcmpeq (fun s w => let r := fpRel (fun o => o == .eq) false (s.fpOf w.a) (s.fpOf w.b); (.p w.d r.1, r.2)) ∧
  FpExact .fcmplt (fun s w => let r := fpRel (fun o => o == .lt) true (s.fpOf w.a) (s.fpOf w.b); (.p w.d r.1, r.2)) ∧
  FpExact .fcmple (fun s w => let r := fpRel (fun o => o != .gt) true (s.fpOf w.a) (s.fpOf w.b); (.p w.d r.1, r.2)) ∧
  ∀ (s : State) (g : Guard) (w : SR), s.Issues .s g (some (0, 2, w.lat.toNat)) → (Instr.fcvti g w).check1 = none →
    let lim : Int × Int := match (w.fn.extractLsb' 4 2).toNat with
      | 0 => (-(2 ^ 63), 2 ^ 63 - 1) | 1 => (0, 2 ^ 64 - 1) | 2 => (-(2 ^ 31), 2 ^ 31 - 1) | _ => (0, 2 ^ 32 - 1)
    let r := toIntRange (s.fpMode w) (s.drawn w) lim.1 lim.2 (s.fpOf w.a)
    Completes (.fcvti g w) s
      (((s.now.flagsAt w.lat.toNat r.2).withSeed (s.seedAfter w)).later w.lat.toNat (.s w.d (BitVec.ofInt 64 r.1)))

/-- 04 R131, R132: a branch whose guard is true makes the bundle at its target the next one; CALL and CALLI write the link. -/
def Obligations.BranchesTaken : Prop :=
  ∀ (s : State) (g : Guard) (w : SB),
    (∀ t, t = displaced s.now.pc.toNat w.disp → TargetOk t → s.Issues .s g none → (Instr.br g w).check1 = none →
      Completes (.br g w) s (s.now.after.at (t.extractLsb' 0 57))) ∧
    (∀ t, t = displaced (s.now.sReg w.a).toNat w.disp → TargetOk t → s.Issues .s g none → (Instr.bri g w).check1 = none →
      Completes (.bri g w) s (s.now.after.at (t.extractLsb' 0 57))) ∧
    (∀ t, t = displaced s.now.pc.toNat w.disp → TargetOk t → s.Issues .s g (some (0, 0, w.lat.toNat)) → (Instr.call g w).check1 = none →
      Completes (.call g w) s ((s.now.later w.lat.toNat (.s w.d (BitVec.ofNat 64 (s.now.pc.toNat + 12)))).at (t.extractLsb' 0 57))) ∧
    (∀ t, t = displaced (s.now.sReg w.a).toNat w.disp → TargetOk t → s.Issues .s g (some (0, 0, w.lat.toNat)) →
      (Instr.calli g w).check1 = none →
      Completes (.calli g w) s ((s.now.later w.lat.toNat (.s w.d (BitVec.ofNat 64 (s.now.pc.toNat + 12)))).at (t.extractLsb' 0 57))) ∧
    (TargetOk (s.now.sReg w.a) → s.Issues .s g none → (Instr.ret g w).check1 = none →
      Completes (.ret g w) s (s.now.after.at ((s.now.sReg w.a).extractLsb' 0 57)))

/-- 04 R133: LOOP with a count of zero clears COUNT and branches; with another count it opens the loop at the next bundle. -/
def Obligations.LoopOpens : Prop :=
  ∀ (s : State) (g : Guard) (w : SB) (t : W64), t = displaced s.now.pc.toNat w.disp → TargetOk t →
    s.Issues .s g (some (0, 0, w.lat.toNat)) → (Instr.loop g w).check1 = none →
    (s.now.sReg w.a = 0 →
      Completes (.loop g w) s ((s.now.later w.lat.toNat (.l w.d { s.now.lReg w.d with count := 0 })).at (t.extractLsb' 0 57))) ∧
    (s.now.sReg w.a ≠ 0 → (s.now.sReg w.a).toNat < 2 ^ 32 →
      Completes (.loop g w) s (s.now.later w.lat.toNat
        (.l w.d { start := s.now.pc + 12, count := (s.now.sReg w.a).extractLsb' 0 32 })))

/-- 04 R139 to R141: HBASE writes a handle with the default fields, HSET replaces one field, HSTEP steps, HGET reads a field and HMOV
copies. -/
def Obligations.HandleOperations : Prop :=
  ∀ (s : State) (g : Guard) (w : SR), s.Issues .s g (some (0, 5, w.lat.toNat)) →
    ((s.now.sReg w.a).toNat < 2 ^ 57 → (Instr.hbase g w).check1 = none →
      Completes (.hbase g w) s (s.now.later w.lat.toNat (.h w.d
        (0#104 ++ 1#24 ++ 1#16 ++ 1#16 ++ 1#16 ++ 1#16 ++ w.fn.extractLsb' 0 6 ++ w.fn.extractLsb' 6 1 ++ (s.now.sReg w.a).extractLsb' 0 57)))) ∧
    ((Instr.hset g w).check1 = none →
      let code := (w.fn.extractLsb' 0 4).toNat
      let v : Int := if (handleField code).2.2 then (s.now.sReg w.a).toInt else (s.now.sReg w.a).toNat
      fitsField code v = true →
      ∃ h : W256, getField h code = v ∧
        (∀ i, i < (handleField code).1 ∨ (handleField code).1 + (handleField code).2.1 ≤ i → h.getLsbD i = (s.now.hReg w.b).getLsbD i) ∧
        Completes (.hset g w) s (s.now.later w.lat.toNat (.h w.d h))) ∧
    (∀ h, (Instr.hstep g w).check1 = none → hstep (s.now.handle (s.now.hReg w.a)).width (s.now.hReg w.a) = some h →
      Completes (.hstep g w) s (s.now.later w.lat.toNat (.h w.d h))) ∧
    ((Instr.hget g w).check1 = none →
      Completes (.hget g w) s (s.now.later w.lat.toNat
        (.s w.d (BitVec.ofInt 64 (getField (s.now.hReg w.a) (w.fn.extractLsb' 0 4).toNat))))) ∧
    ((Instr.hmov g w).check1 = none → Completes (.hmov g w) s (s.now.later w.lat.toNat (.h w.d (s.now.hReg w.a))))

/-- 04 R142, R143: a scratchpad load reads its bytes at issue and extends them; `.fe` needs a full granule and `.fe.clr` empties it; a
store writes its bytes under its bound, and sets the granule full where it is `.fe`. -/
def Obligations.ScratchpadAccesses : Prop :=
  ∀ (s : State) (g : Guard) (w : SM) (a : W64), a = s.now.sReg w.a + w.off.signExtend 64 →
    let n := 2 ^ w.size.toNat
    let x := extended n (w.sgn == 1) (s.now.spadValue a.toNat n)
    s.Issues .s g (some (0, 4, w.lat.toNat)) → s.now.SpadOk a n →
    ((Instr.lds g w).check1 = none → w.qf = 0 → Completes (.lds g w) s (s.now.later w.lat.toNat (.s w.d x))) ∧
    ((Instr.lds g w).check1 = none → w.qf = 1 → s.now.feBit (a.toNat / 16) = true →
      Completes (.lds g w) s (s.now.later w.lat.toNat (.s w.d x))) ∧
    ((Instr.lds g w).check1 = none → w.qf = 2 → s.now.feBit (a.toNat / 16) = true →
      Completes (.lds g w) s ((s.now.setFe (a.toNat / 16) false).later w.lat.toNat (.s w.d x))) ∧
    ((Instr.sts g w).check1 = none →
      Completes (.sts g w) s (s.now.later w.lat.toNat (.spad a.toNat (leBytes n (s.now.sReg w.d).toNat) (w.qf == 1))))

/-- 04 R144 to R146: a global load takes a landing slot for its landing distance, and a global store joins the store stream. -/
def Obligations.GlobalAccesses : Prop :=
  ∀ (s : State) (g : Guard) (w : SG) (a : W64) (t : Target), a = s.now.sReg w.a + w.off.signExtend 64 →
    s.Issues .s g none →
    ((Instr.ldg g w).check1 = none → s.now.MapsTo a (2 ^ w.size.toNat) .r t →
      Completes (.ldg g w) s (s.now.withLanding (w.lnd.toNat - 1) false w.d t (.load w.size (w.sgn == 1))).after) ∧
    ((Instr.stg g w).check1 = none → s.now.MapsTo a (2 ^ w.size.toNat) .w t →
      Completes (.stg g w) s (s.now.withStore t (.data (leBytes (2 ^ w.size.toNat) (s.now.sReg w.d).toNat))).after)

/-- 04 R148: CRR reads a control register as it stands at issue: the status word, cr.asid, the issue bundle-time, the issue cycle, time
since reset, the user registers, a word of cr.timing, cr.slotmap, the trap registers in system mode, and the region stack. -/
def Obligations.ControlRegisterReads : Prop :=
  ∀ (s : State) (g : Guard) (w : SI) (x : W64), s.Issues .s g (some (0, 6, w.lat.toNat)) → (Instr.crr g w).check1 = none →
    let c := s.now
    let i := w.imm.extractLsb' 0 16
    (i = 0 ∧ x = 0#60 ++ c.cr.dbg ++ BitVec.ofBool c.cr.halt ++ BitVec.ofBool c.cr.sys ∨
      i = 1 ∧ s.Unaccounted ∧ x = s.coreId s.cur ∨ i = 2 ∧ x = c.cr.asid.zeroExtend 64 ∨ i = 3 ∧ x = c.bt ∨ i = 4 ∧ x = c.cycle ∨
      i = 5 ∧ c.supervisor = true ∧ x = BitVec.ofNat 64 s.time ∨ i = 6 ∧ c.supervisor = true ∧ x = s.eventWord s.cur ∨
      i = 0x10 ∧ x = c.cr.round.zeroExtend 64 ∨ i = 0x11 ∧ x = c.cr.seed ∨ i = 0x12 ∧ x = c.cr.flags.zeroExtend 64 ∨
      i = 0x13 ∧ x = c.cr.color.zeroExtend 64 ∨ i = 0x14 ∧ x = c.cr.ceiling.zeroExtend 64 ∨
      i = 0x20 ∧ (∀ j, j < 8 → x.extractLsb' (8 * j) 8 = c.timingAt (8 * (w.imm.extractLsb' 16 4).toNat + j)) ∨
      i = 0x21 ∧ x = c.cr.slotmap.zeroExtend 64 ∨
      c.cr.sys = true ∧ (i = 0x30 ∧ x = c.cr.epc ∨ i = 0x31 ∧ x = c.cr.cause.zeroExtend 64 ∨ i = 0x32 ∧ x = c.cr.einfo ∨
        i = 0x33 ∧ x = c.cr.erep.zeroExtend 64) ∨
      i = 0x40 ∧ x = c.crRegion) →
    Completes (.crr g w) s (c.later w.lat.toNat (.s w.d x))

/-- 08 R267: CRW writes a control register at its bundle-time; user mode may write cr.round, cr.seed and cr.flags alone. -/
def Obligations.ControlRegisterWrites : Prop :=
  ∀ (s : State) (g : Guard) (w : SI) (e : CtlRegs), s.Issues .s g none → (Instr.crw g w).check1 = none →
    let c := s.now
    let i := w.imm.extractLsb' 0 16
    let x := s.now.sReg w.a
    (i = 0x10 ∧ 1 ≤ x.toNat ∧ x.toNat ≤ 5 ∧ e = { c.cr with round := x.extractLsb' 0 3 } ∨
      i = 0x11 ∧ e = { c.cr with seed := x } ∨
      i = 0x12 ∧ x.toNat < 2 ^ 6 ∧ e = { c.cr with flags := x.extractLsb' 0 6 } ∨
      c.cr.sys = true ∧ (i = 0 ∧ x.extractLsb' 2 2 = c.cr.dbg ∧ x.getLsbD 0 = true ∧ e = { c.cr with halt := x.getLsbD 1 } ∨
        i = 0x13 ∧ x.toNat < 2 ^ 24 ∧ e = { c.cr with color := x.extractLsb' 0 24 } ∨
        i = 0x14 ∧ x.toNat < 2 ^ 8 ∧ e = { c.cr with ceiling := x.extractLsb' 0 8 } ∨
        i = 0x30 ∧ e = { c.cr with epc := x } ∨ i = 0x31 ∧ x.toNat < 2 ^ 8 ∧ e = { c.cr with cause := x.extractLsb' 0 8 } ∨
        i = 0x32 ∧ e = { c.cr with einfo := x } ∨ i = 0x33 ∧ x.toNat < 2 ^ 8 ∧ e = { c.cr with erep := x.extractLsb' 0 8 }) →
      Completes (.crw g w) s (c.withCr e).after) ∧
    (c.cr.sys = true → i = 3 → Completes (.crw g w) s { c.after with bt := x }) ∧
    (c.cr.sys = true → c.supervisor = false → s.Unaccounted → i = 2 → x.toNat < 2 ^ 16 → s.ctxState (x.extractLsb' 0 16) = 1 →
      Completes (.crw g w) s
        { c.after with cr := { c.cr with asid := x.extractLsb' 0 16 }, ranges := s.ctxRanges (x.extractLsb' 0 16) })

/-- 04 R150, R151: ZINS drives the tapped beat with one 8-byte unit replaced, ZEXT lands one unit. -/
def Obligations.StrandInsertExtract : Prop :=
  ∀ (s : State) (g : Guard) (w : SR) (b : Beat), s.Issues .s g (some (0, 0, w.lat.toNat)) → s.now.supervisor = false →
    b = s.now.beatAt w.a (ringAt 19 s.now.bt) → s.now.tagKnown b.tag = true →
    (∀ b' : Beat, (Instr.zins g w).check1 = none → (s.now.sReg w.c).toNat < 80 → b'.tag = b.tag →
      (∀ u, u < 80 → (b'.side ++ b'.data).extractLsb' (64 * u) 64 =
        if u = (s.now.sReg w.c).toNat then s.now.sReg w.b else (b.side ++ b.data).extractLsb' (64 * u) 64) →
      Completes (.zins g w) s (s.now.driveAt .s w.lat.toNat w.d b').after) ∧
    ((Instr.zext g w).check1 = none → (s.now.sReg w.b).toNat < 80 →
      Completes (.zext g w) s (s.now.later w.lat.toNat (.s w.d ((b.side ++ b.data).extractLsb' (64 * (s.now.sReg w.b).toNat) 64))))

/-! ### Atomics, barriers, regions and traps -/

/-- 08 R244 to R246: an atomic takes a landing slot for its landing distance, which holds its operation and operands; ORD places it in
the store stream. -/
def Obligations.AtomicsIssue : Prop :=
  ∀ (s : State) (g : Guard) (w : SA) (t : Target), s.Issues .s g none → s.now.MapsTo (s.now.sReg w.a) (2 ^ w.size.toNat) .rw t →
    t.cls ≠ .host →
    ((Instr.amoadd g w).check1 = none → Completes (.amoadd g w) s (s.now.withAtomic w .add t).after) ∧
    ((Instr.amoand g w).check1 = none → Completes (.amoand g w) s (s.now.withAtomic w .and t).after) ∧
    ((Instr.amoor g w).check1 = none → Completes (.amoor g w) s (s.now.withAtomic w .or t).after) ∧
    ((Instr.amoxor g w).check1 = none → Completes (.amoxor g w) s (s.now.withAtomic w .xor t).after) ∧
    ((Instr.amomin g w).check1 = none → Completes (.amomin g w) s (s.now.withAtomic w .min t).after) ∧
    ((Instr.amomax g w).check1 = none → Completes (.amomax g w) s (s.now.withAtomic w .max t).after) ∧
    ((Instr.amoswap g w).check1 = none → Completes (.amoswap g w) s (s.now.withAtomic w .swap t).after) ∧
    ((Instr.amocas g w).check1 = none → Completes (.amocas g w) s (s.now.withAtomic w .cas t).after) ∧
    ((Instr.amofadd g w).check1 = none → Completes (.amofadd g w) s (s.now.withAtomic w .fadd t).after)

/-- 08 R250, R254 to R256: BAR reports to the gang, after a drain where it selects one; DRAIN and SETTLE issue once their conditions hold
and freeze under DRAIN until then; YIELD with no request pending restarts the watchdog. -/
def Obligations.BarriersAndDrains : Prop :=
  ∀ (s : State) (g : Guard) (w : SI), s.Issues .s g none →
    ((Instr.bar g w).check1 = none → (s.now.item.bind Item.gang).isSome = true →
      Completes (.bar g w) s
        { s.now.after with
          barPc := s.now.pc, bar := if w.imm.extractLsb' 0 2 = 0 then .sent else .draining (w.imm.extractLsb' 0 2) }) ∧
    ((Instr.drain g w).check1 = none →
      (s.drained s.cur (w.imm.extractLsb' 0 2).toNat = true → Completes (.drain g w) s s.now.after) ∧
      (s.drained s.cur (w.imm.extractLsb' 0 2).toNat = false → exec (.drain g w) s = .next (s.freezeCycle s.cur 13))) ∧
    ((Instr.settle g w).check1 = none →
      (s.now.settled = true → Completes (.settle g w) s s.now.after) ∧
      (s.now.settled = false → exec (.settle g w) s = .next (s.freezeCycle s.cur 13))) ∧
    ((Instr.yield g w).check1 = none →
      Completes (.yield g w) s
        { s.now.after with
          probed := [], item := s.now.item.map fun it => { it with wdogStart := s.time, yields := it.yields + 1 } })

/-- 08 R257, R258: ENTER pushes a region onto a stack of 16 and LEAVE pops it; TAIL frees the core and ends its item. -/
def Obligations.RegionsAndTail : Prop :=
  ∀ (s : State) (g : Guard) (w : SI), s.Issues .s g none →
    ((Instr.enter g w).check1 = none → s.now.regionHit (w.imm.extractLsb' 0 16) 0 = false →
      Completes (.enter g w) s { s.now.after with region := (w.imm.extractLsb' 0 16 :: s.now.region).take 16 }) ∧
    ((Instr.leave g w).check1 = none → (∀ id l, s.now.region = id :: l → s.now.regionHit id 1 = false) →
      Completes (.leave g w) s { s.now.after with region := s.now.region.tail }) ∧
    (∀ it : Item, s.now.item = some it → s.now.freeTracker.isSome = true → (Instr.tail g w).check1 = none →
      ∃ t, exec (.tail g w) s = .next t ∧ (t.core s.cur).item = none ∧ (it.gang = none → ∀ k, k ≠ s.cur → t.core k = s.core k) ∧
        (t.core s.cur).landings = [] ∧ (t.core s.cur).pend = [])

/-- 08 R259: PROBE of an extent whose every page its ranges and page tables admit goes on to the next bundle; of another it takes
PROBE_FAULT with the first failing byte. -/
def Obligations.ProbeTestsPages : Prop :=
  ∀ (s : State) (g : Guard) (w : SI), s.User → s.Issues .s g none → (Instr.probe g w).check1 = none →
    let a := (s.now.sReg w.a).toNat
    let len := (w.imm.extractLsb' 0 24).toNat
    let need := if w.imm.getLsbD 24 then Need.rw else Need.r
    len ≠ 0 → a < 2 ^ 57 →
    (s.probe s.now a len need = none →
      ∃ t, exec (.probe g w) s = .next t ∧ (t.core s.cur).pc = s.now.pc + 12 ∧ (t.core s.cur).bt = s.now.bt + 1 ∧
        (∀ n, (t.core s.cur).sReg n = s.now.sReg n) ∧ (∀ k, k ≠ s.cur → t.core k = s.core k)) ∧
    (∀ kind va, s.probe s.now a len need = some (kind, va) →
      Traps (.probe g w) s 0x07 (BitVec.ofBool (w.imm.getLsbD 24) ++ BitVec.ofNat 2 kind ++ (0 : BitVec 4) ++ BitVec.ofNat 57 va))

/-- 08 R260, R264, R265: TRAP takes TRAPI, or BREAK where IMM[16] is set, with its size and code in cr.einfo; the handler starts at 256
times the cause in system mode with the bundle's address and repetitions saved. Code 0xFFF0 of TRAPI, the loader's, is apart. -/
def Obligations.TrapTakes : Prop :=
  ∀ (s : State) (g : Guard) (w : SI), s.User → s.Issues .s g none → (Instr.trap g w).check1 = none → w.imm.extractLsb' 0 17 ≠ 0xFFF0 →
    Traps (.trap g w) s (if w.imm.getLsbD 16 then 0x08 else 0x09) ((0 : BitVec 40) ++ (12 : BitVec 6) ++ (0 : BitVec 1) ++ w.imm.extractLsb' 0 17)

/-- 08 R265: ERET of a core that holds an item leaves system mode for the saved PC, repetitions, bundle-time, drives and flag updates. -/
def Obligations.EretReturns : Prop :=
  ∀ (s : State) (g : Guard) (w : SI) (l : Latch), s.Issues .s g none → (Instr.eret g w).check1 = none → s.now.supervisor = false →
    s.now.cr.sys = true → isKillCause s.now.cr.cause = false → s.now.item.isSome = true → s.now.saved = false → s.now.latch = some l →
    s.now.cr.epc.toNat % 4 = 0 → s.now.cr.epc.toNat < 2 ^ 57 →
    ∃ t, exec (.eret g w) s = .next t ∧ (∀ k, k ≠ s.cur → t.core k = s.core k) ∧ (t.core s.cur).sticky = l.sticky ∧
      (t.core s.cur).Agrees { s.now with
        latch := none, bt := l.bt, drives := l.drives, flagOrs := l.flagOrs, chargeTo := none
        repLeft := if s.now.cr.erep = 0 then none else some s.now.cr.erep.toNat
        cr := { s.now.cr with sys := false }, pc := s.now.cr.epc.extractLsb' 0 57 }

/-- 08 R265: what trap entry of a core with writes, drives, landings and copies in flight saves and where it goes, once its M operations
have performed. -/
def Obligations.TrapEntrySaves : Prop :=
  ∀ (s : State) (key : Nat) (t : TrapReq) (epc : BitVec 57) (erep : Nat), (s.core key).cr.sys = false → (s.core key).supervisor = false →
    (s.core key).mq = [] → (t.cause = 0x09 → t.info.extractLsb' 0 17 ≠ 0xFFF0) →
    let c := s.core key
    let d := (s.takeTrap key t epc erep).core key
    d.cr.sys = true ∧ d.cr.cause = t.cause ∧ d.cr.einfo = t.info ∧ d.cr.epc = epc.zeroExtend 64 ∧ d.cr.erep = BitVec.ofNat 8 erep ∧
      d.pc = BitVec.ofNat 57 (256 * t.cause.toNat) ∧ d.bt = c.bt ∧ d.pend = [] ∧ d.drives = [] ∧ d.flagOrs = [] ∧
      d.latch = some { drives := c.drives.map fun q => { q with kp := none }, flagOrs := c.flagOrs, bt := c.bt, sticky := c.sticky } ∧ d.copies = c.copies ∧ d.stream = c.stream ∧
      (∀ l ∈ d.landings, l.held = true) ∧ ∀ k, k ≠ key → (s.takeTrap key t epc erep).core k = s.core k

/-! ### References -/

/-- 07 R235 to R238: an access through a reference of the good colour takes its landing slot or joins the store stream, as the object
offset says. -/
def Obligations.ReferenceAccesses : Prop :=
  ∀ (s : State) (g : Guard) (w : SG) (t : Target), s.Issues .s g none → s.now.supervisor = false →
    let k := s.now.kReg w.a
    let off : W64 := w.off.signExtend 64
    ((Instr.ldref g w).check1 = none → s.now.RefersTo k w.off 8 .r t →
      Completes (.ldref g w) s (s.now.withLanding (w.lnd.toNat - 1) true w.d t (.ref off)).after) ∧
    ((Instr.ldfld g w).check1 = none → s.now.RefersTo k w.off (2 ^ w.size.toNat) .r t →
      Completes (.ldfld g w) s (s.now.withLanding (w.lnd.toNat - 1) false w.d t (.load w.size (w.sgn == 1))).after) ∧
    ((Instr.stfld g w).check1 = none → s.now.RefersTo k w.off (2 ^ w.size.toNat) .w t →
      Completes (.stfld g w) s (s.now.withStore t (.field (leBytes (2 ^ w.size.toNat) (s.now.sReg w.d).toNat) off)).after) ∧
    ((Instr.stref g w).check1 = none → s.now.RefersTo k w.off 8 .w t →
      refAddr (s.now.kReg w.d) = 0 ∨ s.now.Fresh (s.now.kReg w.d) →
      Completes (.stref g w) s (s.now.withStore t (.ref (s.now.kReg w.d) off)).after)

/-- 07 R240, R241: REFEQ compares references that are null or of the good colour, and REFMK makes one of the good colour. -/
def Obligations.ReferenceValues : Prop :=
  ∀ (s : State) (g : Guard) (w : SR), s.Issues .s g none → s.now.supervisor = false →
    (∀ b : Bool, (Instr.refeq g w).check1 = none →
      let x := s.now.kReg w.a
      let y := s.now.kReg w.b
      (refHeap x).toNat < 8 → (refHeap y).toNat < 8 → refAddr x = 0 ∨ refAddr y = 0 ∨ s.now.Fresh x ∧ s.now.Fresh y →
      (b = true ↔ refAddr x = refAddr y ∧ (refAddr x = 0 ∨ refHeap x = refHeap y)) →
      Completes (.refeq g w) s (s.now.later 1 (.p w.d b))) ∧
    ((Instr.refmk g w).check1 = none → (w.fn.extractLsb' 0 4).toNat < 8 → (s.now.sReg w.a).toNat < 2 ^ 57 →
      Completes (.refmk g w) s (s.now.later 1 (.k w.d
        (s.now.goodColor (w.fn.extractLsb' 0 4) ++ w.fn.extractLsb' 0 4 ++ (s.now.sReg w.a).extractLsb' 0 57))))

/-- 07 R239, 15 R391: PIN raises the count in the object's header by one and gives the header's address, and UNPIN lowers it; a count at
its limit is refused with RANGE. -/
def Obligations.PinsCount : Prop :=
  ∀ (s : State) (g : Guard) (w : SR) (t : Target) (pa : Nat) (n : BitVec 16), s.Issues .s g none → s.now.supervisor = false →
    s.Unaccounted → s.HeaderAt (s.now.kReg w.a) t pa n →
    let k := s.now.kReg w.a
    let x : W64 := BitVec.ofNat 64 (s.memNat pa 8)
    let counted := fun (u : State) (n : BitVec 16) =>
      (∀ a, u.memByte a = if pa ≤ a ∧ a < pa + 8 then (leBytes 8 (setPin x n).toNat).getD (a - pa) 0 else s.memByte a) ∧
        (u.core s.cur).kReg w.a = k ∧ (u.core s.cur).pc = s.now.pc + 12
    ((Instr.pin g w).check1 = none →
      (n ≠ 0xFFFF → ∃ u, exec (.pin g w) s = .next u ∧ counted u (n + 1) ∧
        (u.core s.cur).sReg w.d = if w.d = 0 then 0 else (refAddr k).zeroExtend 64) ∧
      (n = 0xFFFF → s.User → Traps (.pin g w) s 0x06 (info263 .s (refAddr k).toNat 0x25 0x94 0))) ∧
    ((Instr.unpin g w).check1 = none →
      (n ≠ 0 → ∃ u, exec (.unpin g w) s = .next u ∧ counted u (n - 1)) ∧
      (n = 0 → s.User → Traps (.unpin g w) s 0x06 (info263 .s (refAddr k).toNat 0x25 0x95 0)))

/-! ### The commands of the supervisors -/

/-- 08 R268, R269, 20 R483, 14 R375: SLOTMAP and TTSET write the slot map and a timing entry of a site of the die, PSTEP the level of the
power controller, and INVAL drops the translations of a context that meet an extent. -/
def Obligations.SupervisorTables : Prop :=
  ∀ (s : State) (g : Guard) (w : SR) (die : Nat), s.Issues .s g none → s.Supervises die →
    let a := s.now.sReg w.a
    let b := s.now.sReg w.b
    let c := s.now.sReg w.c
    let k := 144 * die + a.toNat
    ((Instr.slotmap g w).check1 = none → s.TargetSite die a → b.toNat < 512 → (∀ i, i < 4 → b.extractLsb' (2 * i) 2 ≠ 3) →
      (∃ t, exec (.slotmap g w) s = .next t ∧ (t.core k).cr.slotmap = b.extractLsb' 0 16) ∧
      (s.fns = [] → CompletesAt (.slotmap g w) s s.now.after k fun d => { d with cr := { d.cr with slotmap := b.extractLsb' 0 16 } })) ∧
    ((Instr.ttset g w).check1 = none → s.TargetSite die a → b.toNat < 128 → c.toNat < (if b.toNat < 96 then 16 else 64) →
      (∃ t, exec (.ttset g w) s = .next t ∧
        ∀ i, i < 128 → (t.core k).timingAt i = if i = b.toNat then c.extractLsb' 0 8 else (s.core k).timingAt i) ∧
      (s.fns = [] → CompletesAt (.ttset g w) s s.now.after k fun d => d.setTiming b.toNat (c.extractLsb' 0 8))) ∧
    ((Instr.pstep g w).check1 = none → 700 ≤ a.toNat → a.toNat ≤ 2400 →
      ∃ t, exec (.pstep g w) s = .next t ∧ t.pwr.level = a.toNat ∧ (∀ k, k ≠ s.cur → k ≠ 576 → t.core k = s.core k) ∧
        (s.Unaccounted → t.mem = s.mem)) ∧
    ((Instr.inval g w).check1 = none → die = 0 → a.toNat < 1024 ∨ a.toNat = 0xFFFF → b.toNat % 65536 = 0 → c.toNat % 65536 = 0 →
      65536 ≤ c.toNat → b.toNat + c.toNat ≤ 2 ^ 52 → s.drained s.cur 2 = true → s.probedIn a.toNat b.toNat c.toNat = false →
      ∃ t, exec (.inval g w) s = .next t ∧ (s.Unaccounted → t.mem = s.mem) ∧
        (∀ q l, (q, some l) ∈ t.tlb ↔ (q, some l) ∈ s.tlb ∧
          ¬ ((a.toNat = 0xFFFF ∨ q / 2 ^ 36 = a.toNat) ∧ l.page < b.toNat + c.toNat ∧ b.toNat < l.page + l.size)) ∧
        (w.fn.getLsbD 0 = true → ∀ q ∈ t.rdc, ¬ (b.toNat ≤ 128 * (q.1 % 2 ^ 45) ∧ 128 * (q.1 % 2 ^ 45) < b.toNat + c.toNat)))

/-- 13 R343, R344: QLOAD reads a control block into an unbound slot, QMAP binds it to its queue, and QSAVE writes the block back and
unbinds the slot, with the queue pending where it has packets left. -/
def Obligations.QueueSlots : Prop :=
  ∀ (s : State) (g : Guard) (w : SR) (die : Nat), s.Issues .s g none → s.Supervises die → s.Unaccounted →
    let a := (s.now.sReg w.a).toNat
    let n := (s.now.sReg w.b).toNat
    let rest := fun (t : State) => (t.core s.cur).Agrees s.now.after ∧ (∀ k, k ≠ s.cur → t.core k = s.core k) ∧
      ∀ m, m ≠ n → t.slot m = s.slot m
    ((Instr.qload g w).check1 = none → n < 64 → a < 2 ^ 52 → a % 128 = 0 → (s.slot n).state = .unbound → s.systemRun a 256 = true →
      1 ≤ s.memNat (a + 8) 1 → s.memNat (a + 8) 1 ≤ 16 → s.memNat (a + 9) 1 < 8 → s.memNat (a + 0x0A) 1 < 8 →
      s.memNat (a + 0x2C) 212 = 0 → s.memNat (a + 0x10) 8 ≤ s.memNat (a + 0x18) 8 →
      s.memNat (a + 0x18) 8 ≤ s.memNat (a + 0x10) 8 + 2 ^ s.memNat (a + 8) 1 →
      (∀ m, m < 64 → ¬ ((s.slot m).state = .bound ∧ (s.slot m).qid = s.memNat (a + 0x0E) 2)) →
      ∃ t, exec (.qload g w) s = .next t ∧ rest t ∧ t.mem = s.mem ∧ t.slot n =
        { state := .loaded, ringBase := s.memNat a 8, ringLog := s.memNat (a + 8) 1, prio := s.memNat (a + 9) 1
          effPrio := s.memNat (a + 9) 1, part := s.memNat (a + 0x0B) 1, asid := BitVec.ofNat 16 (s.memNat (a + 0x0C) 2)
          qid := s.memNat (a + 0x0E) 2, rdidx := s.memNat (a + 0x10) 8, wridx := s.memNat (a + 0x18) 8, wdog := s.memNat (a + 0x20) 4
          ageInt := s.memNat (a + 0x24) 4, age := 0 }) ∧
    ((Instr.qmap g w).check1 = none → a < 4096 → n < 64 → (s.slot n).state = .loaded → (s.slot n).qid = a →
      (∀ m, m < 64 → ¬ ((s.slot m).state = .bound ∧ (s.slot m).qid = a)) →
      ∃ t, exec (.qmap g w) s = .next t ∧ rest t ∧ t.mem = s.mem ∧ t.slot n = { s.slot n with state := .bound } ∧
        ∀ q, SMap.get false t.pendingQ q = if q = a then false else SMap.get false s.pendingQ q) ∧
    ((Instr.qsave g w).check1 = none → n < 64 → a < 2 ^ 52 → a % 128 = 0 → (s.slot n).state = .bound → (s.slot n).launch = none →
      s.systemRun a 256 = true →
      ∃ t, exec (.qsave g w) s = .next t ∧ rest t ∧ (t.slot n).state = .unbound ∧
        (∀ x, x < a ∨ a + 256 ≤ x → t.memByte x = s.memByte x) ∧
        (∀ off len v, (off, len, v) ∈
          [(0, 8, (s.slot n).ringBase), (8, 1, (s.slot n).ringLog), (9, 1, (s.slot n).prio), (0x0A, 1, (s.slot n).effPrio),
            (0x0B, 1, (s.slot n).part), (0x0C, 2, (s.slot n).asid.toNat), (0x0E, 2, (s.slot n).qid), (0x10, 8, (s.slot n).rdidx),
            (0x18, 8, (s.slot n).wridx), (0x20, 4, (s.slot n).wdog), (0x24, 4, (s.slot n).ageInt), (0x28, 4, (s.slot n).age)] →
          ∀ i, i < len → t.memByte (a + off + i) = BitVec.ofNat 8 (v / 2 ^ (8 * i))) ∧
        ∀ q, SMap.get false t.pendingQ q =
          (SMap.get false s.pendingQ q || q == (s.slot n).qid && decide ((s.slot n).rdidx < (s.slot n).wridx)))

/-- 18 R438, R441, R442: LOGR.app appends a record with the next sequence number and the time, a tile core's with its own partition,
context and number; LOGR.read gives the first record from a number on that the core may read. -/
def Obligations.LogRecords : Prop :=
  ∀ (s : State) (g : Guard) (w : SR), s.Issues .s g none → s.now.cr.sys = true → s.Unaccounted →
    let a := (s.now.sReg w.a).toNat
    let b := (s.now.sReg w.b).toNat
    let record := fun (n : Nat) => s.bases.log + 64 * (n % 65536)
    let code := s.memNat (a + 0x10) 2
    let cls := s.memNat (a + 0x12) 1
    let answers := fun (t : State) (x : W64) =>
      (t.core s.cur).Agrees (s.now.later 1 (.s w.d x)) ∧ ∀ k, k ≠ s.cur → t.core k = s.core k
    a < 2 ^ 52 → a % 64 = 0 → s.systemRun a 64 = true →
    ((Instr.logrApp g w).check1 = none →
      (if s.cur < 576 then 0x0F00 ≤ code ∧ code ≤ 0x0FFF ∧ cls % 4 = 0 else code ≠ 0 ∧ cls < 4 ∧ s.memNat (a + 0x13) 1 < 32) →
      ∃ t, exec (.logrApp g w) s = .next t ∧ answers t (BitVec.ofNat 64 s.logSeq) ∧ t.logSeq = s.logSeq + 1 ∧
        (∀ x, x < record s.logSeq ∨ record s.logSeq + 64 ≤ x → t.memByte x = s.memByte x) ∧
        t.memNat (record s.logSeq) 8 = s.logSeq % 2 ^ 64 ∧ t.memNat (record s.logSeq + 8) 8 = s.time % 2 ^ 64 ∧
        ∀ i, 16 ≤ i → i < 64 → t.memByte (record s.logSeq + i) =
          if s.cur < 576 ∧ i = 0x13 then BitVec.ofNat 8 (s.ctxPart s.now.cr.asid)
          else if s.cur < 576 ∧ 0x14 ≤ i ∧ i < 0x16 then BitVec.ofNat 8 (s.now.cr.asid.toNat / 2 ^ (8 * (i - 0x14)))
          else if s.cur < 576 ∧ 0x16 ≤ i ∧ i < 0x18 then BitVec.ofNat 8 (sourceOf s.cur / 2 ^ (8 * (i - 0x16)))
          else s.memByte (a + i)) ∧
    ((Instr.logrRead g w).check1 = none →
      let held := fun (n : Nat) => b ≤ n ∧ s.logSeq ≤ n + 65536 ∧ n < s.logSeq ∧
        (576 ≤ s.cur ∨ s.memNat (record n + 0x13) 1 % 32 = s.ctxPart s.now.cr.asid)
      (∀ n, held n → (∀ m, m < n → ¬ held m) →
        ∃ t, exec (.logrRead g w) s = .next t ∧ answers t (BitVec.ofNat 64 n) ∧ t.logSeq = s.logSeq ∧
          ∀ x, t.memByte x = if a ≤ x ∧ x < a + 64 then s.memByte (record n + (x - a)) else s.memByte x) ∧
      ((∀ n, ¬ held n) →
        ∃ t, exec (.logrRead g w) s = .next t ∧ answers t (BitVec.ofNat 64 (2 ^ 63 + s.logSeq)) ∧ t.mem = s.mem))

/-- 15 R396, R398: RELOC starts, reports and aborts a set of the die's relocation engine and answers with its status; FWDPUB publishes a
COPIED heap with the next good colour, sent to every core of the context. -/
def Obligations.RelocationCommands : Prop :=
  ∀ (s : State) (g : Guard) (w : SR) (die : Nat), s.Issues .s g none → s.Supervises die → s.Unaccounted →
    let a := (s.now.sReg w.a).toNat
    let r := s.reloc die
    let word := fun (e : Reloc) (code : Nat) => BitVec.ofNat 32 e.done ++ BitVec.ofNat 16 e.skipped ++ BitVec.ofNat 8 e.state ++ BitVec.ofNat 8 code
    let answers := fun (t : State) (e : Reloc) (code : Nat) =>
      (t.core s.cur).Agrees (s.now.later 1 (.s w.d (word e code))) ∧ (∀ k, k ≠ s.cur → t.core k = s.core k) ∧
        ∀ d, t.reloc d = if d = die then e else s.reloc d
    (w.fn.extractLsb' 0 2 ≠ 3 → a < 2 ^ 52 → a % 128 = 0 →
      ((Instr.relocStart g w).check1 = none →
        (r.state = 1 ∨ r.state = 2 → ∃ t, exec (.relocStart g w) s = .next t ∧ answers t r 1 ∧ t.mem = s.mem) ∧
        (r.state ≠ 1 → r.state ≠ 2 → s.systemRun a 128 = true → s.memNat (a + 0x22) 94 = 0 → s.memNat a 1 = 0 → s.evacuationOk die a = true →
          let asid := BitVec.ofNat 16 (s.memNat (a + 2) 2)
          let heap := s.memNat (a + 1) 1
          let h := s.hcbAddr asid heap
          (2 ^ s.memNat (h + 4) 1 < 2 * s.memNat (a + 4) 4 → ∃ t, exec (.relocStart g w) s = .next t ∧ answers t r 3 ∧ t.mem = s.mem) ∧
          (2 * s.memNat (a + 4) 4 ≤ 2 ^ s.memNat (h + 4) 1 → s.memNat h 1 ≠ 0 →
            ∃ t, exec (.relocStart g w) s = .next t ∧ answers t r 4 ∧ t.mem = s.mem) ∧
          (2 * s.memNat (a + 4) 4 ≤ 2 ^ s.memNat (h + 4) 1 → s.memNat h 1 = 0 →
            ∃ t, exec (.relocStart g w) s = .next t ∧ t.memNat h 1 = 1 ∧ t.memNat (h + 0x10) 8 = a ∧
              (∀ x, x < h ∨ h + 0x20 ≤ x → t.memByte x = s.memByte x) ∧
              answers t { state := 1, desc := a, asid := asid, heap := heap, count := s.memNat (a + 4) 4, list := s.memNat (a + 8) 8
                          paused := r.paused } 0))) ∧
      ((Instr.relocQuery g w).check1 = none → ∃ t, exec (.relocQuery g w) s = .next t ∧ answers t r 0 ∧ t.mem = s.mem) ∧
      ((Instr.relocAbort g w).check1 = none →
        (r.state ≠ 1 → ∃ t, exec (.relocAbort g w) s = .next t ∧ answers t r 5 ∧ t.mem = s.mem) ∧
        (r.state = 1 → ∃ t, exec (.relocAbort g w) s = .next t ∧
          answers t { r with state := if r.move.isSome then 2 else 3 } 0))) ∧
    ((Instr.fwdpub g w).check1 = none → a < 1024 → (s.now.sReg w.b).toNat < 8 →
      let asid := (s.now.sReg w.a).extractLsb' 0 16
      let heap := (s.now.sReg w.b).toNat
      let h := s.hcbAddr asid heap
      let e := s.ctxEntry asid + 0x40
      let good := s.good asid heap + 1
      s.ctxState asid = 1 → s.memNat h 1 = 3 →
      ∃ t, exec (.fwdpub g w) s = .next t ∧ (t.core s.cur).await = .recolor asid heap ∧ (t.core s.cur).pc = s.now.pc + 12 ∧
        (∀ k, k ≠ s.cur → k ∉ s.coresOf asid → t.core k = s.core k) ∧
        (∀ k, k ≠ s.cur → k ∈ s.coresOf asid →
          t.core k = { s.core k with recolors := (t.core k).recolors } ∧ (heap, good) ∈ (t.core k).recolors) ∧
        (h + 1 < e ∨ e + 4 ≤ h + 1 →
          t.memNat (h + 1) 1 = good.toNat ∧ (∀ x, x ≠ h + 1 → x < e ∨ e + 4 ≤ x → t.memByte x = s.memByte x) ∧
          ∀ i, i < 32 → (t.memNat e 4).testBit i =
            if 3 * heap ≤ i ∧ i < 3 * heap + 3 then good.getLsbD (i - 3 * heap) else (s.memNat e 4).testBit i))

/-- 08 R270, 19 R473: PREEMPT raises cause 0x10 at a site that holds an item and waits for its handler; SCANRUN answers why a site
cannot be scanned, or starts a pass and waits for it. -/
def Obligations.PreemptAndScan : Prop :=
  ∀ (s : State) (g : Guard) (w : SR) (die : Nat), s.Issues .s g none → s.Supervises die →
    let a := s.now.sReg w.a
    let k := 144 * die + a.toNat
    s.TargetSite die a →
    ((Instr.preempt g w).check1 = none →
      ((s.core k).item = none → Completes (.preempt g w) s s.now.after) ∧
      ((s.core k).item.isSome = true →
        CompletesAt (.preempt g w) s { s.now.after with await := .preempt k } k fun c => c.raiseAsync 0x10 0)) ∧
    ((Instr.scanrun g w).check1 = none →
      (s.drainedSite k = false → Completes (.scanrun g w) s (s.now.later 1 (.s w.d 3))) ∧
      (s.drainedSite k = true → s.pwr.stepped = true → Completes (.scanrun g w) s (s.now.later 1 (.s w.d 5))) ∧
      (s.drainedSite k = true → s.pwr.stepped = false → s.creel.patterns = 0 → Completes (.scanrun g w) s (s.now.later 1 (.s w.d 4))) ∧
      (s.drainedSite k = true → s.pwr.stepped = false → s.creel.patterns ≠ 0 →
        ∃ t, exec (.scanrun g w) s = .next t ∧ (t.whorl die).phase = .scanning a.toNat s.time ∧
          (∀ d, d ≠ die → t.whorl d = s.whorl d) ∧ (∀ j, j ≠ s.cur → t.core j = s.core j) ∧
          (t.core s.cur).Agrees { s.now.after with await := .scan a.toNat s.time w.d }))

/-- 19 R464, R465: SKEINLD answers with its status word; a load takes the nearest free segments within reach of the site for their
owner, a release frees the owner's segments, and no segment changes where a check fails. -/
def Obligations.SkeinLoads : Prop :=
  ∀ (s : State) (g : Guard) (w : SR) (die : Nat), s.Issues .s g none → s.Supervises die → s.Unaccounted →
    let b := s.now.sReg w.b
    let off := (s.now.sReg w.a).toNat
    let site := (b.extractLsb' 0 8).toNat
    let unit := (b.extractLsb' 8 8).toNat
    let inst := (b.extractLsb' 20 4).toNat
    let id := s.skein off 4 4
    let n := s.skein off 0x0A 2
    let answers := fun (t : State) (first nseg code : Nat) =>
      (t.core s.cur).Agrees (s.now.later 1 (.s w.d (BitVec.ofNat 64 (id * 2 ^ 32 + first * 2 ^ 20 + nseg * 2 ^ 8 + code))))
    let free := (reach site).filter fun i => segState (s.segment die i) == 0
    off % 4096 = 0 → off + 256 ≤ 2 ^ 32 → b.extractLsb' 32 32 = 0 → b.extractLsb' 24 4 = 0 → b.extractLsb' 16 4 = 0 →
    inst < unitInstances unit → s.TargetSite die (b.extractLsb' 0 8 |>.zeroExtend 64) → s.siteDropped (144 * die + site) = false →
    (∀ i : Instr, i = .skeinldLoad g w ∨ i = .skeinldRelease g w → i.check1 = none →
      (b.extractLsb' 28 4).toNat < 2 → s.siteScanning die site = true →
      ∃ t, exec i s = .next t ∧ answers t 0 0 6 ∧ t.segments = s.segments) ∧
    ((Instr.skeinldLoad g w).check1 = none → b.extractLsb' 28 4 = 0 → s.siteScanning die site = false →
      (∀ code, s.skeinCheck off = some code → ∃ t, exec (.skeinldLoad g w) s = .next t ∧ answers t 0 0 code ∧ t.segments = s.segments) ∧
      (s.skeinCheck off = none → s.skein off 0x14 1 = unit → s.skein off 8 1 ≠ 3 →
        (free.length < n → ∃ t, exec (.skeinldLoad g w) s = .next t ∧ answers t 0 0 5 ∧ t.segments = s.segments) ∧
        (n ≤ free.length → ∃ t, exec (.skeinldLoad g w) s = .next t ∧ answers t ((free.take n).foldl min ((free.take n).headD 0)) n 0 ∧
          ∀ d i, i < 2304 → t.segment d i =
            if d = die ∧ i ∈ free.take n then
              BitVec.ofNat 64 (2 * 2 ^ 62 + site * 2 ^ 52 + unit * 2 ^ 44 + inst * 2 ^ 40 + id)
            else s.segment d i))) ∧
    ((Instr.skeinldRelease g w).check1 = none → b.extractLsb' 28 4 = 1 → s.siteScanning die site = false →
      let mine := (List.range 2304).filter fun i => segState (s.segment die i) == 2 &&
        ((s.segment die i).extractLsb' 0 32).toNat == id && segOwner (s.segment die i) == (site, unit, inst)
      (mine = [] → ∃ t, exec (.skeinldRelease g w) s = .next t ∧ answers t 0 0 7 ∧ t.segments = s.segments) ∧
      (mine ≠ [] → (s.core (144 * die + site)).item.isSome = true →
        ∃ t, exec (.skeinldRelease g w) s = .next t ∧ answers t 0 0 6 ∧ t.segments = s.segments) ∧
      (mine ≠ [] → (s.core (144 * die + site)).item = none → unit ≠ 8 →
        ∃ t, exec (.skeinldRelease g w) s = .next t ∧ answers t 0 mine.length 0 ∧
          ∀ d i, i < 2304 → t.segment d i = if d = die ∧ i ∈ mine then 0 else s.segment d i))

/-- 08 R270, 14 R380 to R384: CTXSAVE writes the image of the core's item in a PREEMPT handler and leaves no state of the context
there; CTXLOAD of a sound image takes its context, registers and latches. -/
def Obligations.ContextImages : Prop :=
  ∀ (s : State) (g : Guard) (w : SR), s.Issues .s g none → s.now.cr.sys = true → s.now.supervisor = false → s.Unaccounted →
    let base := if w.a = 0 then s.memNat (s.ctxEntry s.now.cr.asid + 0x10) 8 else (s.now.sReg w.a).toNat
    base < 2 ^ 52 →
    ((Instr.ctxsave g w).check1 = none → s.now.cr.cause = 0x10 → s.now.saveReady = true → s.systemRun base (imageEnd (s.image s.cur)) = true →
      ∃ t, exec (.ctxsave g w) s = .next t ∧ (∀ k, k ≠ s.cur → t.core k = s.core k) ∧
        (t.core s.cur).item = none ∧ (t.core s.cur).saved = true ∧ (t.core s.cur).latch = none ∧ (t.core s.cur).cr = s.now.cr ∧
        (∀ n, (t.core s.cur).sReg n = 0) ∧ (t.core s.cur).mx = {} ∧
        (∀ x, x < base ∨ base + imageEnd (s.image s.cur) ≤ x → t.memByte x = s.memByte x) ∧
        t.memNat base 4 = 0x5A435458 ∧ t.memNat (base + 8) 2 = s.now.cr.asid.toNat ∧
        ∀ off bs, (off, bs) ∈ s.image s.cur → ∀ i, i < bs.length → t.memByte (base + off + i) = bs.getD i 0) ∧
    ((Instr.ctxload g w).check1 = none → s.systemRun base 256 = true → s.imageOk base = true →
      ∃ t, exec (.ctxload g w) s = .next t ∧ (∀ k, k ≠ s.cur → t.core k = s.core k) ∧ t.mem = s.mem ∧
        (t.core s.cur).cr.asid = BitVec.ofNat 16 (s.memNat (base + 8) 2) ∧ (t.core s.cur).cr.sys = true ∧
        (t.core s.cur).pc = s.now.pc + 12 ∧ (t.core s.cur).item.isSome = true ∧
        (t.core s.cur).ranges = s.ctxRanges (BitVec.ofNat 16 (s.memNat (base + 8) 2)) ∧
        (t.core s.cur).cr.erep = BitVec.ofNat 8 (s.memNat (base + s.memNat (base + 0x40) 4 + 16) 8) ∧
        (s.memNat (base + 0x0A) 2 % 2 = 0 → ∀ n : BitVec 6, n ≠ 0 →
          (t.core s.cur).sReg n = BitVec.ofNat 64 (s.memNat (base + s.memNat (base + 0x48) 4 + 8 * n.toNat) 8)))

/-! ### The vector slots -/

/-- 05 R160, R161: VLD drives the 512 bytes at an address as a RAW beat, and waits for and empties their granules as QF says; VST writes
the 512 data bytes of the tapped beat under its bound. -/
def Obligations.VectorMemory : Prop :=
  ∀ (s : State) (vs : VSlot) (g : Guard) (w : VM) (a : W64), a = s.now.sReg w.a + w.off.signExtend 64 * 16 →
    s.Issues vs.slot g (some (vRow vs, 7, w.lat.toNat)) → s.now.SpadOk a 512 →
    ((Instr.vld vs g w).check1 = none → (w.qf ≠ 0 → ∀ i, i < 32 → s.now.feBit (a.toNat / 16 + i) = true) →
      ∃ (b : Beat) (f : SMap Bool), b.tag = 0x01 ∧ b.side = 0 ∧
        (∀ i, i < 512 → b.data.extractLsb' (8 * i) 8 = s.now.spadByte (a.toNat + i)) ∧
        (∀ i, SMap.get false f i =
          if w.qf = 2 ∧ a.toNat / 16 ≤ i ∧ i < a.toNat / 16 + 32 then false else s.now.feBit i) ∧
        Completes (.vld vs g w) s
          (({ s.now with fe := f } : Core).driveFrom (match vs with | .v0 => 0 | .v1 => 10) (match vs with | .v0 => 1 | .v1 => 2)
            w.lat.toNat w.z b).after) ∧
    ((Instr.vst vs g w).check1 = none → s.now.tagKnown (s.now.beatAt w.z (ringAt 17 s.now.bt)).tag = true →
      Completes (.vst vs g w) s (s.now.later w.lat.toNat (.spad a.toNat
        ((List.range 512).map fun i => (s.now.beatAt w.z (ringAt 17 s.now.bt)).data.extractLsb' (8 * i) 8) (w.qf == 1))))

/-- 05 R163 to R167: moves, tags, permutes, broadcasts, shuffles and selects. The sidecar of a RAW shuffle is open (log 10). -/
def Obligations.VectorMoves : Prop :=
  ∀ (s : State) (vs : VSlot) (g : Guard) (w : VR), s.Issues vs.slot g (some (vRow vs, 0, w.lat.toNat)) →
    let a := s.tapped vs w.za
    let b := s.tapped vs w.zb
    let c := s.tapped vs w.zc
    let n := tagCount a.tag
    ((Instr.vmov vs g w).check1 = none → s.now.tagKnown a.tag = true → VectorDrives (.vmov vs g w) s vs w a 0 0) ∧
    ((Instr.vtag vs g w).check1 = none → s.now.tagKnown a.tag = true → s.now.tagKnown w.tag = true →
      VectorDrives (.vtag vs g w) s vs w { a with tag := w.tag } 0 0) ∧
    (∀ e, (Instr.vperm vs g w).check1 = none → e = s.now.tagBits a.tag → e = 16 ∨ e = 32 →
      isF a.tag = true ∨ isI a.tag = true ∨ isFmt a.tag = true ∧ s.now.tagKnown a.tag = true → b.tag = 0x05 →
      ∃ r : Beat, r.tag = a.tag ∧ r.side = 0 ∧
        (∀ k, k < 4096 / e → r.data.extractLsb' (e * k) e = if b.at k < 4096 / e then a.data.extractLsb' (e * b.at k) e else 0) ∧
        VectorDrives (.vperm vs g w) s vs w r 0 0) ∧
    ((Instr.vbcstScalar vs g w).check1 = none → isF w.tag = true ∨ isF8 w.tag = true ∨ isI w.tag = true ∨ w.tag = 0x01 →
      VectorGives (.vbcstScalar vs g w) s vs w w.tag 0 fun _ => ((s.now.sReg w.za).toNat, 0)) ∧
    (isPlainTag a.tag = true →
      ((Instr.vbcstElement vs g w).check1 = none → (w.fn.extractLsb' 0 10).toNat < n →
        VectorGives (.vbcstElement vs g w) s vs w a.tag 0 fun _ => (a.at (w.fn.extractLsb' 0 10).toNat, 0)) ∧
      (b.tag = a.tag → (Instr.vshuf vs g w).check1 = none →
        let rot := (w.fn.extractLsb' 3 10).toNat
        (w.fn.extractLsb' 0 3 = 4 → rot < n) →
        ∃ r : Beat, ({ r with side := 0 } : Beat).Holds a.tag (fun k =>
            match (w.fn.extractLsb' 0 3).toNat with
            | 0 => if k % 2 = 0 then a.at (k / 2) else b.at (k / 2)
            | 1 => if k % 2 = 0 then a.at (n / 2 + k / 2) else b.at (n / 2 + k / 2)
            | 2 => if k < n / 2 then a.at (2 * k) else b.at (2 * (k - n / 2))
            | 3 => if k < n / 2 then a.at (2 * k + 1) else b.at (2 * (k - n / 2) + 1)
            | _ => if rot + k < n then a.at (rot + k) else b.at (rot + k - n)) ∧
          (a.tag ≠ 0x01 → r.side = 0) ∧ VectorDrives (.vshuf vs g w) s vs w r 0 0) ∧
      (b.tag = a.tag → isI c.tag = true → c.tag ≠ 2 → c.tag ≠ 4 → c.tag ≠ 6 → tagWidth c.tag = tagWidth a.tag → (Instr.vsel vs g w).check1 = none →
        VectorGives (.vsel vs g w) s vs w a.tag 0 fun k => (if c.at k ≠ 0 then a.at k else b.at k, 0)))

/-- 05 R168 to R170: floating-point arithmetic, exact and rounded once, minima and maxima, signs and compares, with their flags. -/
def Obligations.VectorFloat : Prop :=
  ∀ (s : State) (vs : VSlot) (g : Guard) (w : VR),
    let a := s.tapped vs w.za
    let b := s.tapped vs w.zb
    let c := s.tapped vs w.zc
    let t := normTag a.tag
    let f := fmtOf t
    let m := s.vecMode w
    let val := fun (x : Beat) k => f.value (x.at k)
    isF a.tag = true →
    (s.Issues vs.slot g (some (vRow vs, 3, w.lat.toNat)) → isF b.tag = true → normTag b.tag = t →
      (∀ (r : Tag) (first : Nat),
        (w.tag = 0 ∨ w.tag = t) ∧ w.fn.getLsbD 0 = false ∧ r = t ∧ first = 0 ∨
          w.tag = 0x08 ∧ (t = 0x09 ∨ t = 0x0A) ∧ r = 0x08 ∧ first = (if w.fn.getLsbD 0 then 128 else 0) →
        let gives := fun (i : Instr) (x : Nat → Fv × Flags) =>
          i.check1 = none → VectorGives i s vs w r (tagCount r) fun k =>
            let e := x (first + k)
            let y := round (fmtOf r) m (w.sat == 1) (s.drawAt m k) e.1
            (y.1, e.2 ||| y.2)
        gives (.vadd vs g w) (fun k => (val a k).add m (val b k)) ∧
        gives (.vsub vs g w) (fun k => (val a k).add m (val b k).negate) ∧
        gives (.vmul vs g w) (fun k => (val a k).mul (val b k)) ∧
        (isF c.tag = true → normTag c.tag = t →
          gives (.vfma vs g w) (fun k => Fv.fma m (val a k) (val b k) (val c k)) ∧
          gives (.vfms vs g w) (fun k => Fv.fma m (val a k) (val b k) (val c k).negate))) ∧
      ((Instr.vmin vs g w).check1 = none → VectorGives (.vmin vs g w) s vs w t 0 fun k => fpMinMax f false (a.at k) (b.at k)) ∧
      ((Instr.vmax vs g w).check1 = none → VectorGives (.vmax vs g w) s vs w t 0 fun k => fpMinMax f true (a.at k) (b.at k))) ∧
    (s.Issues vs.slot g (some (vRow vs, 0, w.lat.toNat)) →
      let half := 2 ^ (tagWidth t - 1)
      let sign := fun (i : Instr) (y : Nat → Nat) =>
        i.check1 = none → VectorGives i s vs w t 0 fun k =>
          if (val a k).isNan then (f.defaultNan, if (val a k).isSnan then 1 else 0) else (y (a.at k), 0)
      sign (.vabs vs g w) (fun x => x % half) ∧ sign (.vneg vs g w) (fun x => if x < half then x + half else x - half)) ∧
    (s.Issues vs.slot g (some (vRow vs, 1, w.lat.toNat)) → isF b.tag = true → normTag b.tag = t → (Instr.vcmp vs g w).check1 = none →
      let rel := (w.fn.extractLsb' 0 3).toNat
      VectorGives (.vcmp vs g w) s vs w (if tagWidth t = 32 then 0x07 else 0x05) 0 fun k =>
        let un := (val a k).isNan || (val b k).isNan
        let o := (val a k).cmp (val b k)
        (allOnes t (match rel with
            | 0 => decide (un = false ∧ o = .eq) | 1 => decide (un = true ∨ o ≠ .eq) | 2 => decide (un = false ∧ o = .lt)
            | 3 => decide (un = false ∧ o ≠ .gt) | 4 => decide (un = false ∧ o = .gt) | 5 => decide (un = false ∧ o ≠ .lt) | _ => un),
          if (val a k).isSnan ∨ (val b k).isSnan ∨ un = true ∧ 2 ≤ rel ∧ rel ≤ 5 then 1 else 0))

/-- 05 R171 to R173: integer arithmetic wrapped or clamped, bitwise operations, shifts and compares. The sidecar of a RAW bitwise result is
open (log 10). -/
def Obligations.VectorInteger : Prop :=
  ∀ (s : State) (vs : VSlot) (g : Guard) (w : VR),
    let a := s.tapped vs w.za
    let b := s.tapped vs w.zb
    let c := s.tapped vs w.zc
    let t := a.tag
    let gives := fun (i : Instr) (x : Nat → Int) => i.check1 = none → VectorGives i s vs w t 0 fun k => clamped t (w.sat == 1) (x k)
    let exact := fun (i : Instr) (x : Nat → Int) =>
      i.check1 = none → VectorGives i s vs w t 0 fun k => ((x k % 2 ^ tagWidth t).toNat, 0)
    let bits := fun (i : Instr) (d : Data) =>
      i.check1 = none → ∃ r : Beat, r.tag = t ∧ r.data = d ∧ (t ≠ 0x01 → r.side = 0) ∧ VectorDrives i s vs w r 0 0
    (s.Issues vs.slot g (some (vRow vs, 1, w.lat.toNat)) →
      (b.tag = t → isI t = true →
        gives (.viadd vs g w) (fun k => a.int k + b.int k) ∧ gives (.visub vs g w) (fun k => a.int k - b.int k) ∧
        exact (.vimin vs g w) (fun k => min (a.int k) (b.int k)) ∧ exact (.vimax vs g w) (fun k => max (a.int k) (b.int k)) ∧
        ((Instr.vicmp vs g w).check1 = none →
          VectorGives (.vicmp vs g w) s vs w (if tagWidth t = 8 then 3 else if tagWidth t = 16 then 5 else 7) 0 fun k =>
            (allOnes t (match (w.fn.extractLsb' 0 3).toNat with
              | 0 => decide (a.int k = b.int k) | 1 => decide (a.int k ≠ b.int k) | 2 => decide (a.int k < b.int k)
              | 3 => decide (a.int k ≤ b.int k) | 4 => decide (a.int k > b.int k) | _ => decide (a.int k ≥ b.int k)), 0))) ∧
      (b.tag = t → isI t = true ∨ t = 0x01 →
        bits (.vand vs g w) (a.data &&& b.data) ∧ bits (.vor vs g w) (a.data ||| b.data) ∧ bits (.vxor vs g w) (a.data ^^^ b.data)) ∧
      (isI t = true →
        let n := (w.fn.extractLsb' 0 5).toNat
        let signed := fun k => (a.data.extractLsb' (tagWidth t * k) (tagWidth t)).toInt
        exact (.vshl vs g w) (fun k => (a.at k : Int) * 2 ^ n) ∧ exact (.vshr vs g w) (fun k => (a.at k : Int) / 2 ^ n) ∧
        exact (.vsar vs g w) (fun k => signed k / 2 ^ n))) ∧
    (s.Issues vs.slot g (some (vRow vs, 2, w.lat.toNat)) → b.tag = t → isI t = true →
      gives (.vimul vs g w) (fun k => a.int k * b.int k) ∧
      (c.tag = t → gives (.vimad vs g w) (fun k => a.int k * b.int k + c.int k)))

/-- 05 R155, R174 to R176: conversions between formats, quantisation to blocks and the import of microscaling data, a part at a time,
merged with c or with zeros. -/
def Obligations.VectorConversions : Prop :=
  ∀ (s : State) (vs : VSlot) (g : Guard) (w : VR) (first dst n : Nat), s.Issues vs.slot g (some (vRow vs, 4, w.lat.toNat)) →
    let a := s.tapped vs w.za
    let b := s.tapped vs w.zb
    let c := s.tapped vs w.zc
    let d := w.tag
    let m := s.vecMode w
    let sat := w.sat == 1
    let zm := w.fn.getLsbD 3
    let h := (w.fn.extractLsb' 0 3).toNat
    let merged := fun (q : Nat → Blk) k =>
      if dst / 16 ≤ k ∧ k < dst / 16 + n / 16 then q (k - dst / 16) else if zm then zeroBlock else c.blk (zbM d) k
    let blocks := fun (i : Instr) (q : Nat → Blk × Flags) =>
      VectorBlocks i s vs w d (merged fun k => (q k).1) (Flags.all ((List.range (n / 16)).map fun k => (q k).2)) n
    zm = true ∨ c.tag = d →
    (Placed (tagCount a.tag) (tagCount d) h first dst n →
      ((Instr.vcvt vs g w).check1 = none → cvtPair a.tag d = true →
        (isZ d = false →
          let q := fun j =>
            let x := a.valueAt (first + j)
            let dr := if cvtExact a.tag d then 0 else s.drawAt m j
            if isI d then
              if isI a.tag then clamped d sat (a.int (first + j))
              else
                let r := toIntRange m dr (intRange d).1 (intRange d).2 x
                ((r.1 % 2 ^ tagWidth d).toNat, r.2)
            else
              let r := round (fmtOf d) m sat dr x
              (r.1, r.2 ||| if x.isSnan then 1 else 0)
          ∃ r : Beat, r.Holds d (fun k => if dst ≤ k ∧ k < dst + n then (q (k - dst)).1 else if zm then 0 else c.at k) ∧
            VectorDrives (.vcvt vs g w) s vs w r (Flags.all ((List.range n).map fun j => (q j).2)) (if cvtExact a.tag d then 0 else n)) ∧
        (isZ d = true → blocks (.vcvt vs g w) fun i =>
          quantiseBlock (fmtOf a.tag).maxDy ((List.range 16).map fun j => a.valueAt (first + 16 * i + j)) (zbM d) m sat false 1
            (s.blockDraws m i))) ∧
      ((Instr.vqzb vs g w).check1 = none → isF a.tag = true ∨ isF8 a.tag = true → isZ d = true →
        w.fn.getLsbD 4 = true → b.tag = 0x18 →
        blocks (.vqzb vs g w) fun i =>
          if b.byte (dst / 16 + i) = 255 then (nanBlock, 0)
          else quantiseBlock (fmtOf a.tag).maxDy ((List.range 16).map fun j => a.valueAt (first + 16 * i + j)) (zbM d) m sat
            (w.fn.getLsbD 5) (b.byte (dst / 16 + i)) (s.blockDraws m i)) ∧
      ((Instr.vqzb vs g w).check1 = none → isF a.tag = true ∨ isF8 a.tag = true → isZ d = true → w.fn.getLsbD 4 = false →
        blocks (.vqzb vs g w) fun i =>
          quantiseBlock (fmtOf a.tag).maxDy ((List.range 16).map fun j => a.valueAt (first + 16 * i + j)) (zbM d) m sat
            (w.fn.getLsbD 5) 1 (s.blockDraws m i))) ∧
    (∀ (ns : Nat) (t : Tag) (val : Nat → Fv) (top : Dy), Placed ns (tagCount d) h first dst n →
      w.fn.extractLsb' 4 2 = 0 ∧ ns = 512 ∧ t = 0x0B ∧ val = (fun j => e4m3.value (a.byte j)) ∧ top = e4m3.maxDy ∨
        w.fn.extractLsb' 4 2 = 1 ∧ ns = 512 ∧ t = 0x0C ∧ val = (fun j => e5m2.value (a.byte j)) ∧ top = e5m2.maxDy ∨
        w.fn.extractLsb' 4 2 = 2 ∧ ns = 1024 ∧ t = 0x01 ∧ val = (fun j => e2m1Value (a.data.extractLsb' (4 * j) 4).toNat) ∧ top = ⟨false, 6, 0⟩ →
      let scale := fun j => b.byte (32 * (w.fn.extractLsb' 6 4).toNat + j / 32)
      (Instr.vmxi vs g w).check1 = none → a.tag = t → b.tag = 0x18 → isZ d = true →
      32 * (w.fn.extractLsb' 6 4).toNat + (first + n - 1) / 32 < 512 →
      blocks (.vmxi vs g w) fun i =>
        let e := scale (first + 16 * i)
        if e = 255 then (nanBlock, 0)
        else quantiseBlock (top.scale ((e : Int) - 127)) ((List.range 16).map fun j => (val (first + 16 * i + j)).scale ((e : Int) - 127))
          (zbM d) m sat true 1 (s.blockDraws m i))

/-- 05 R179 to R182: headers moved between sidecar and data, beats scaled by a power of two, exponents folded into scales, and the
fabric-defined operations, whose beat and flags are the loaded skein's (log 11). -/
def Obligations.VectorScales : Prop :=
  ∀ (s : State) (vs : VSlot) (g : Guard) (w : VR),
    let a := s.tapped vs w.za
    let b := s.tapped vs w.zb
    let c := s.tapped vs w.zc
    let m := s.vecMode w
    let q := 64 * (w.fn.extractLsb' 0 3).toNat
    let len := fun (t : Tag) => 2 * zbBlocks (zbM t)
    (s.Issues vs.slot g (some (vRow vs, 4, w.lat.toNat)) →
      ((Instr.vscget vs g w).check1 = none → isZ a.tag = true → s.now.tagKnown b.tag = true → q + len a.tag ≤ 512 →
        ∃ r : Beat, r.Holds 0x01 (fun i => if q ≤ i ∧ i < q + len a.tag then a.sideByte (i - q) else b.byte i) ∧
          VectorDrives (.vscget vs g w) s vs w r 0 0) ∧
      ((Instr.vscset vs g w).check1 = none → s.now.tagKnown a.tag = true → s.now.tagKnown b.tag = true → isZ w.tag = true →
        q + len w.tag ≤ 512 →
        ∃ r : Beat, r.tag = w.tag ∧ (∀ i, i < 512 → r.byte i = if i < zbM w.tag * len w.tag then a.byte i else 0) ∧
          (∀ i, i < 128 → r.sideByte i = if i < len w.tag then b.byte (q + i) else 0) ∧ VectorDrives (.vscset vs g w) s vs w r 0 0) ∧
      ((Instr.vscadd vs g w).check1 = none →
        let n := (w.fn.extractLsb' 0 9).toInt
        (isF a.tag = true →
          VectorGives (.vscadd vs g w) s vs w (normTag a.tag) (tagCount a.tag) fun k =>
            let x := a.valueAt k
            let r := round (fmtOf a.tag) m (w.sat == 1) (s.drawAt m k) (x.scale n)
            (r.1, r.2 ||| if x.isSnan then 1 else 0)) ∧
        (isZ a.tag = true →
          let z := zbM a.tag
          let x := fun k => a.blk z k
          let e := fun k => ((x k).e : Int) + n
          VectorBlocks (.vscadd vs g w) s vs w a.tag
            (fun k =>
              if (x k).e = 0 ∨ (x k).e = 255 then x k
              else if 254 < e k then
                if w.sat = 1 then ⟨254, 0, (x k).ms.map fun y => if 0 < y then 2 ^ (z - 1) - 1 else if y < 0 then -(2 ^ (z - 1)) else 0⟩
                else nanBlock
              else if e k < 1 then zeroBlock else { x k with e := (e k).toNat })
            (Flags.all ((List.range (zbBlocks z)).map fun k =>
              if (x k).e = 0 ∨ (x k).e = 255 then 0 else if 254 < e k then 2 ||| 8
              else if e k < 1 then (if (x k).ms.any fun y => y != 0 then 4 ||| 8 else 0) else 0)) 0)) ∧
      ((Instr.vscmax vs g w).check1 = none → isF a.tag = true ∨ isZ a.tag = true → c.tag = 0x18 →
        let nb := tagCount a.tag / 16
        let h := (w.fn.extractLsb' 0 6).toNat
        (h + 1) * nb ≤ 512 →
        VectorGives (.vscmax vs g w) s vs w 0x18 0 fun k =>
          (if h * nb ≤ k ∧ k < h * nb + nb then
            max (c.byte k) (if isZ a.tag then (a.blk (zbM a.tag) (k - h * nb)).e
              else blockExp ((List.range 16).map fun j => a.valueAt (16 * (k - h * nb) + j)))
          else c.byte k, 0))) ∧
    ∀ x : BitVec 4, s.Issues vs.slot g (some (vRow vs, 16 + x.toNat, w.lat.toNat)) → (Instr.fx x vs g w).check1 = none →
      let open' := fun (site n : Nat) => Config.freeBits s.free (8 * site + vs.slot.idx) n
      (∀ i z, (i, z) ∈ [(0, a), (1, b), (2, c)] → open' (40 + i) 1 = 1 → s.now.tagKnown (z : Beat).tag = true ∧ open' (44 + i) 1 = 1) →
      (open' 51 1 = 1 → VectorDrives (.fx x vs g w) s vs w { data := open' 48 4096, side := open' 49 1024, tag := open' 50 6 } (open' 52 6) 0) ∧
      (open' 51 1 ≠ 1 → Completes (.fx x vs g w) s (s.now.flagsAt w.lat.toNat (open' 52 6)).after)

/-- 05 R177, R178: sums, maxima and minima of groups of elements, rounded once, and the transcendental operations, whose algorithms 03
R113 to R117 give. -/
def Obligations.VectorReductions : Prop :=
  ∀ (s : State) (vs : VSlot) (g : Guard) (w : VR),
    let a := s.tapped vs w.za
    let c := s.tapped vs w.zc
    let t := normTag a.tag
    let m := s.vecMode w
    let sat := w.sat == 1
    let n := 2 ^ (w.fn.extractLsb' 0 4).toNat
    let acc := w.fn.getLsbD 4
    let groups := tagCount a.tag / n
    (s.Issues vs.slot g (some (vRow vs, 5, w.lat.toNat)) → 2 ≤ n → n ≤ tagCount a.tag →
      (∀ r : Tag, (Instr.vrsum vs g w).check1 = none → acc = false ∨ c.tag = r → groups ≤ tagCount r →
        (isI a.tag = true → (w.tag = 0 ∨ w.tag = t) ∧ r = t ∨
            w.tag = r ∧ (a.tag = 2 ∨ a.tag = 4 ∨ a.tag = 6) ∧ r = 6 ∨ w.tag = r ∧ (a.tag = 3 ∨ a.tag = 5 ∨ a.tag = 7) ∧ r = 7 →
          VectorGives (.vrsum vs g w) s vs w r 0 fun k =>
            if k < groups then
              clamped r sat (((List.range n).map fun j => a.int (n * k + j)).sum + if acc then c.int k else 0)
            else (0, 0)) ∧
        (isF a.tag = true → (w.tag = 0 ∨ w.tag = t) ∧ r = t ∨ w.tag = r ∧ (t = 0x09 ∨ t = 0x0A) ∧ r = 0x08 →
          VectorGives (.vrsum vs g w) s vs w r groups fun k =>
            if k < groups then
              let x := groupSum m (((List.range n).map fun j => a.valueAt (n * k + j)) ++ if acc then [c.valueAt k] else [])
              let y := round (fmtOf r) m sat (s.drawAt m k) x.1
              (y.1, x.2 ||| y.2)
            else (0, 0))) ∧
      (acc = false ∨ c.tag = t → ∀ (i : Instr) (max : Bool), i = .vrmax vs g w ∧ max = true ∨ i = .vrmin vs g w ∧ max = false →
        i.check1 = none →
        (isF a.tag = true → VectorGives i s vs w t 0 fun k =>
          if k < groups then groupPick (fmtOf t) max (((List.range n).map fun j => a.at (n * k + j)) ++ if acc then [c.at k] else [])
          else (0, 0)) ∧
        (isI a.tag = true → VectorGives i s vs w t 0 fun k =>
          if k < groups then
            ((intPick max (((List.range n).map fun j => a.int (n * k + j)) ++ if acc then [c.int k] else []) % 2 ^ tagWidth t).toNat, 0)
          else (0, 0)))) ∧
    (s.Issues vs.slot g (some (vRow vs, 6, w.lat.toNat)) → isF a.tag = true →
      ∀ (i : Instr) (f : Trans), (i, f) ∈ [(.vexp2 vs g w, .exp2), (.vlog2 vs g w, .log2), (.vrcp vs g w, .rcp), (.vrsq vs g w, .rsq),
        (.vsin vs g w, .sin), (.vcos vs g w, .cos)] → i.check1 = none →
        VectorGives i s vs w t (tagCount a.tag) fun k =>
          let y := f.value m ((fmtOf t).value (a.at k))
          let r := round (fmtOf t) m sat (s.drawAt m k) y.1
          (r.1, y.2 ||| r.2))

/-! ### The matrix slot -/

/-- 06 R191, R193, R196 to R204: a matrix operation that may issue joins the engine with its knot PENDING; the tests that let MLB and the
MAC family issue; the rounding mode, the saturation and the draws that an operation takes at issue. -/
def Obligations.MatrixIssues : Prop :=
  ∀ (s : State) (g : Guard) (w : MW), s.now.KnotsAllow (maskKnots w.cmask w.kc0 w.kc1 w.kc2) w.kp 1 →
    let issues := fun (i : Instr) (cls : Nat) (job : MJob) (seed : W64) =>
      s.Issues .m g (some (3, cls, 4 * w.lat.toNat)) → i.check1 = none → Completes i s (s.now.joinsEngine w job seed)
    let seed := s.now.cr.seed
    let a := (s.now.sReg w.za).toNat
    let m := (w.fn.extractLsb' 5 3).toNat + 1
    let h := (a : Int) + 32768 * (w.fn.extractLsb' 0 5).toInt
    let z := s.now.beatAt w.za (ringAt 7 s.now.bt)
    let bank := s.now.mx.bank w.ab
    let rm := if bank.rm = 0 then s.now.cr.round else bank.rm
    let row : BitVec 6 := w.fn.extractLsb' 0 6
    let form : BitVec 2 := w.fn.extractLsb' 6 2
    (a % 512 = 0 → a + 65536 ≤ 2097152 → 0 ≤ h → h + 8192 * (if 5 ≤ m then 1 else if 3 ≤ m then 2 else 4 : Nat) ≤ 2097152 →
      issues (.mlb g w) 0 (.loadPlane w.pl m a h.toNat) seed) ∧
    issues (.msel g w) 4 (.select w.ab (w.fn.extractLsb' 2 6) (w.fn.extractLsb' 0 2)) seed ∧
    (isZ z.tag = true → SMap.get 0 s.now.mx.tags w.pl.toNat ≠ 0 →
      ∀ (i : Instr) (negate fresh : Bool), (i, negate, fresh) ∈ [(.mac g w, false, false), (.macn g w, true, false), (.macz g w, false, true)] →
        issues i 1 (.mac negate fresh w.ab w.pl z rm bank.sat (s.drawList (RMode.ofCode rm) (tagCount z.tag)))
          (s.seedFor (RMode.ofCode rm) (tagCount z.tag))) ∧
    issues (.mrd g w) 2 (.read w.ab row (w.fn.getLsbD 6)) seed ∧ issues (.mrdSteps g w) 2 (.readSteps w.ab) seed ∧
    (form = 0 ∨ form = 1 → issues (.mdr g w) 3 (.drain w.ab row form rm bank.sat []) seed) ∧
    (form = 2 ∨ form = 3 → issues (.mdr g w) 3 (.drain w.ab row form rm bank.sat (s.drawList (RMode.ofCode rm) 256))
      (s.seedFor (RMode.ofCode rm) 256)) ∧
    issues (.mclr g w) 4 (.clear w.ab) seed ∧ issues (.mmode g w) 4 (.mode w.ab (w.fn.extractLsb' 0 3) (w.fn.getLsbD 3)) seed

/-- 06 R186 to R188, R190, R193, R198 to R204: the oldest operation of the engine performs: what it makes of planes and banks, the beat it
drives and the flags it places, both at its own bound; its knot is finished at once, or, with a beat, when the beat is driven. -/
def Obligations.MatrixPerforms : Prop :=
  ∀ (s : State) (core : Nat) (o : MOp) (l : List MOp), (s.core core).mq = o :: l →
    let c := s.core core
    let x := c.mx
    let done := fun (y : Matrix) (f : Flags) => exec (.mOperationPerform core) s =
      .next (s.setCore core ((({ c with mq := l, mx := y } : Core).finishKnot o.kp true).flagOr o.left f))
    let drives := fun (y : Matrix) (b : Beat) (f : Flags) => exec (.mOperationPerform core) s =
      .next (s.setCore core (({ c with mq := l, mx := y, drives := c.drives ++ [{ left := o.left, z := o.z, ring := o.ring, beat := some b, kp := some o.kp, slot := 3 }] } : Core).flagOr o.left f))
    (∀ (pl : BitVec 3) (m a h : Nat), o.job = .loadPlane pl m a h →
      ∃ y : Matrix, done y 0 ∧ y.bank0 = x.bank0 ∧ y.bank1 = x.bank1 ∧
        (∀ p n i, i < 256 → n < 256 → (SMap.get 0 y.cells (256 * p + n)).extractLsb' (8 * i) 8 =
          if p = pl.toNat then SMap.get 0 c.spad (a + 256 * n + i) else (SMap.get 0 x.cells (256 * p + n)).extractLsb' (8 * i) 8) ∧
        (∀ p i, i < 32768 → SMap.get 0 y.headers (32768 * p + i) =
          if p = pl.toNat ∧ i < 8192 * (if 5 ≤ m then 1 else if 3 ≤ m then 2 else 4) then SMap.get 0 c.spad (h + i)
          else SMap.get 0 x.headers (32768 * p + i)) ∧
        ∀ p, SMap.get 0 y.tags p = if p = pl.toNat then BitVec.ofNat 6 (0x0E + m) else SMap.get 0 x.tags p) ∧
    (∀ ab row kq, o.job = .select ab row kq → done (x.setBank ab { x.bank ab with row := row, kq := kq }) 0) ∧
    (∀ ab rm sat, o.job = .mode ab rm sat → done (x.setBank ab { x.bank ab with rm := rm, sat := sat }) 0) ∧
    (∀ ab, o.job = .clear ab → ∃ b : Bank, done (x.setBank ab b) 0 ∧ (∀ r n, b.elem r n = 0) ∧ b.steps = 0 ∧ b.row = 0 ∧ b.kq = 0 ∧
      b.rm = (x.bank ab).rm ∧ b.sat = (x.bank ab).sat) ∧
    (∀ (negate fresh : Bool) (ab : BitVec 1) (pl : BitVec 3) (a : Beat) (mode : BitVec 3) (sat : Bool) (draws : List Nat),
      o.job = .mac negate fresh ab pl a mode sat draws →
      let mA := zbM a.tag
      let mB := zbM (SMap.get 0 x.tags pl.toNat)
      let q := if 5 ≤ mB then 1 else if 3 ≤ mB then 2 else 4
      let blk := fun (i j : Nat) =>
        let k := a.blk mA (16 * i + j)
        if negate then { k with ms := k.ms.map fun v => -v } else k
      ∃ b : Nat → Bank,
        let r := fun i => (b i).row.toNat
        let kq := fun i => (b i).kq.toNat % q
        let y := fun i n => kstep (if fresh ∧ kq i = 0 then 0 else (b i).elem (r i) n) ((List.range 16).map (blk i))
          (x.columnBlocks pl.toNat mB n (kq i)) mA mB (RMode.ofCode mode) sat (draws.getD (256 * i + n) 0)
        b 0 = x.bank ab ∧
        (∀ i, i < tagCount a.tag / 256 →
          (∀ r' n, n < 256 → (b (i + 1)).elem r' n = if r' = r i then (y i n).1 % 2 ^ 32 else (b i).elem r' n) ∧
          (b (i + 1)).steps = (b i).steps + 1 ∧
          ((b (i + 1)).row, (b (i + 1)).kq) = (if q ≤ kq i + 1 then ((b i).row + 1, 0) else ((b i).row, BitVec.ofNat 2 (kq i + 1))) ∧
          (b (i + 1)).rm = (b i).rm ∧ (b (i + 1)).sat = (b i).sat) ∧
        done (x.setBank ab (b (tagCount a.tag / 256)))
          (Flags.all ((List.range (tagCount a.tag / 256)).map fun i => Flags.all ((List.range 256).map fun n => (y i n).2)))) ∧
    (∀ ab (row : BitVec 6) (half : Bool), o.job = .read ab row half →
      ∃ z : Beat, z.Holds 0x20 (fun i => (x.bank ab).elem row.toNat ((if half then 128 else 0) + i)) ∧ drives x z 0) ∧
    (∀ ab, o.job = .readSteps ab → ∃ z : Beat, z.Holds 0x07 (fun i =>
        let b := x.bank ab
        if i = 0 then b.steps.toNat % 2 ^ 32 else if i = 1 then b.steps.toNat / 2 ^ 32 else if i = 2 then 256 * b.kq.toNat + b.row.toNat
        else if i = 3 then (if b.sat then 8 else 0) + b.rm.toNat else if i < 12 then (SMap.get 0 x.tags (i - 4)).toNat else 0) ∧ drives x z 0) ∧
    ∀ (ab : BitVec 1) (row : BitVec 6) (form : BitVec 2) (mode : BitVec 3) (sat : Bool) (draws : List Nat),
      o.job = .drain ab row form mode sat draws →
      let e := (x.bank ab).elem row.toNat
      let f := if form = 2 then bf16 else fp16
      let y := fun n => round f (RMode.ofCode mode) sat (draws.getD n 0) (fp32.value (e n))
      ∃ (b : Bank) (z : Beat), (b.steps, b.row, b.kq, b.rm, b.sat) = (let k := x.bank ab; (k.steps, k.row, k.kq, k.rm, k.sat)) ∧
        (∀ r n, n < 256 → b.elem r n = if r = row.toNat ∧ (form = 0 → n < 128) ∧ (form = 1 → 128 ≤ n) then 0 else (x.bank ab).elem r n) ∧
        (form = 0 → z.Holds 0x20 e ∧ drives (x.setBank ab b) z 0) ∧
        (form = 1 → z.Holds 0x20 (fun n => e (128 + n)) ∧ drives (x.setBank ab b) z 0) ∧
        (form = 2 ∨ form = 3 → z.Holds (if form = 2 then 0x09 else 0x0A) (fun n => (y n).1) ∧
          drives (x.setBank ab b) z (Flags.all ((List.range 256).map fun n => (y n).2) |||
            if (List.range 256).any fun n => (fp32.value (e n)).isSnan then 1 else 0))

/-! ### The copy slots -/

/-- 07 R209 to R211, R216 to R219, R222 to R231: a copy operation that may issue joins its engine's decoupling queue with its knot PENDING
and its work fixed; KWAIT joins knots, and with CLR frees them. -/
def Obligations.CopyIssues : Prop :=
  ∀ (s : State) (cs : CSlot) (g : Guard) (w : CW),
    let c := s.now
    let e := c.engineOf cs
    let used := maskKnots w.cmask w.kc0 w.kc1 w.kc2
    (c.KnotsAllow used w.kp (engineSource e) → (c.copies.filter fun o => o.engine == e).length < 64 →
      let queues := fun (i : Instr) (job : CopyJob) => s.Issues cs.slot g none → i.check1 = none → Completes i s (c.queues w e job)
      let a := c.sReg w.a
      let b := c.sReg w.b
      let x := c.sReg w.c
      let n := x.toNat % 2 ^ 22
      let here : List RangeClass := [.plain, .managed, .host]
      let anywhere : List RangeClass := [.plain, .managed, .host, .remote]
      let sized := x.toNat < 2 ^ 22 ∧ n % 16 = 0 ∧ 16 ≤ n ∧ n ≤ 2097152
      (sized → c.Reaches a 16 n .w here → c.Reaches b 16 n .r here →
        queues (.cpy cs g w) (.move [⟨c.caddr a .w, c.caddr b .r, n⟩] none)) ∧
      (sized → c.Reaches a 16 n .w anywhere → c.Reaches b 16 n .r anywhere → c.isRemote a ≠ c.isRemote b →
        queues (.cpyr cs g w) (.move [⟨c.caddr a .w, c.caddr b .r, n⟩] none)) ∧
      (sized → c.Reaches a 16 n .w here → queues (.cfill cs g w) (.move [⟨c.caddr a .w, .pattern b, n⟩] none)) ∧
      (let d := c.handle (c.hReg w.a)
       let t := c.handle (c.hReg w.b)
       let move := fun (q r : List (Int × Nat)) => CopyJob.move ((q.zip r).map fun p => ⟨c.hrun d .w p.1.1, c.hrun t .r p.2.1, p.1.2⟩) none
       ∀ q r, c.tagKnown d.tag = true → t.tag = d.tag → d.SameExtents t →
         (c.Holds d d.indices q .w here → c.Holds t t.indices r .r here → queues (.cpyt cs g w) (move q r)) ∧
         (c.Holds d d.indices q .w anywhere → c.Holds t t.indices r .r anywhere →
           c.handleRemote d d.indices ≠ c.handleRemote t t.indices → queues (.cpytr cs g w) (move q r))) ∧
      (x.extractLsb' 48 16 = 0 → x.extractLsb' 21 11 = 0 →
       let list := (x.extractLsb' 0 21).toNat
       let count := (x.extractLsb' 32 16).toNat
       1 ≤ count → count ≤ 4096 → list % 16 = 0 → list + 4 * count ≤ c.spadSize →
       let rows := (List.range count).map fun k => leNat (SMap.getList 0 c.spad (list + 4 * k) 4)
       ∀ (i : Instr) (gath remote : Bool), (i, gath, remote) ∈
           [(.gath cs g w, true, false), (.gathr cs g w, true, true), (.scat cs g w, false, false), (.scatr cs g w, false, true)] →
         let t := c.handle (c.hReg (if gath then w.b else w.a))
         let flat := if gath then a else b
         ∀ runs, c.tagKnown t.tag = true → isZ t.tag = false → t.stepmode < 2 → t.ext0 * t.width % 128 = 0 →
           c.Holds t (t.rowsElems rows) runs (if gath then .r else .w) (if remote then [.remote] else here) → (remote = true → t.global = true) →
           c.Reaches flat 16 (count * rowBytes t) (if gath then .w else .r) here →
           queues i (.move (c.rowMoves gath t flat rows) (firstMiss t rows))) ∧
      (let op : BitVec 2 := x.extractLsb' 40 2
       let tag : Tag := x.extractLsb' 32 6
       isGlobal a = true → c.Reaches a 128 n .w [.plain, .remote] → c.namesGroup a = false → c.Reaches b 128 n .r here →
       tag = 0x08 ∨ tag = 0x09 ∨ tag = 0x06 ∨ tag = 0x07 → op ≠ 3 → x.extractLsb' 42 22 = 0 → x.extractLsb' 38 2 = 0 →
       x.extractLsb' 22 10 = 0 → n % 128 = 0 → 1 ≤ n → n ≤ 2097152 →
       queues (.redc cs g w) (.reduce (c.target a .w) (c.caddr b .r) op tag n)) ∧
      (sized → isGlobal a = true → c.Reaches a 128 n .w [.remote] → c.namesGroup a = true → c.Reaches b 128 n .r here →
        queues (.bcst cs g w) (.bcast (c.target a .w) (c.caddr b .r) n)) ∧
      (a.toNat % 64 = 0 → a.toNat + 64 ≤ c.spadSize →
        queues (.ldq cs g w) (.loadRecord a.toNat ((c.item.map Item.record).getD (List.replicate 64 0)))) ∧
      (a.toNat % 64 = 0 → a.toNat + 64 ≤ c.spadSize → s.stageCap c b.toNat ≠ 0 → queues (.stq cs g w) (.push a.toNat b.toNat))) ∧
    (let clr := w.step.getLsbD 0
     let mask := c.sReg w.a
     let waits := fun (n : BitVec 6) => n ∈ used ∨ mask.getLsbD n.toNat = true
     let k := c.knot w.kp
     s.Issues cs.slot g none → (Instr.kwait cs g w).check1 = none →
     (∀ n, n ∈ used → (c.knot n).state = .resolved ∨ clr = true ∧ (c.knot n).state = .failed) →
     (∀ n, mask.getLsbD n.toNat = true → (c.knot n).state ≠ .pending ∧ (clr = true ∨ (c.knot n).state ≠ .failed)) →
     (k.state = .failed → clr = true ∧ waits w.kp) → (k.state = .pending → k.source = engineSource e) →
     ∃ d : Core, Completes (.kwait cs g w) s d.after ∧ d = { c with kn := d.kn } ∧ ∀ n, d.knot n =
       if n = w.kp then
         if k.count = 0 then { source := engineSource e, state := if k.failedOne then .failed else .resolved, count := 0, failedOne := false }
         else { source := engineSource e, state := .pending, count := k.count, failedOne := k.failedOne }
       else if clr = true ∧ waits n then { c.knot n with source := 0, state := .free } else c.knot n)

/-! ### Bundles -/

/-- 02 R55, R56, R57, R77: a bundle of no operation. Its LOOPEND above 4 is ILLEGAL; the last repetition closes the loop of LOOPEND, with
COUNT one less and a branch to START, or COUNT 0 and the next bundle; an earlier repetition leaves the PC. -/
def Obligations.HeaderOnlyBundles : Prop :=
  ∀ (s : State) (l : BitVec 4) (r : BitVec 8) (q : BitVec 6), s.now.Quiet →
    (∀ sl : Slot, q.getLsbD sl.idx = true ∨ s.now.stickyOf sl = none) →
    let c := s.now
    let i := Instr.headerOnlyBundle l r q
    (4 < l.toNat → exec i s = .next (s.takeTrap s.cur ⟨causeIllegal, 0⟩ c.pc (r.toNat + 1))) ∧
    (r = 0 → l = 0 → Completes i s { c with bt := c.bt + 1, pc := c.pc + 4 }) ∧
    (r = 0 → 1 ≤ l.toNat → l.toNat ≤ 4 →
      let k := BitVec.ofNat 6 (l.toNat - 1)
      let x := c.lReg k
      (1 < x.count.toNat → Completes i s { c.setL k { x with count := x.count - 1 } with bt := c.bt + 1, pc := x.start }) ∧
      (x.count.toNat ≤ 1 → Completes i s { c.setL k { x with count := 0 } with bt := c.bt + 1, pc := c.pc + 4 })) ∧
    (r ≠ 0 → l.toNat ≤ 4 → s.agenda ≠ [] → Completes i s { c with bt := c.bt + 1, repLeft := some r.toNat })

/-! ### The checks of a bundle -/

/-- 01 R24, 02 R61, 08 R263: for every slot operation in a bundle of its own, the first check that fails takes its trap, with the slot,
the opcode and the class in cr.einfo; an operation whose predicate is false passes checks 1 to 4 all the same, performs nothing, and
leaves the knot it produces RESOLVED. -/
def Obligations.ChecksInOrder : Prop :=
  ∀ (s : State) (i : Instr) (m : OpSem) (sl : Slot) (w : W64), semOf i = some m → i.slotWord = some (sl, w) → s.now.Quiet →
    let c := s.now
    let op := opcodeOf w
    let slot := BitVec.ofNat 3 (match sl with | .s => 6 | .v0 => 1 | .v1 => 2 | .m => 3 | .c0 => 4 | .c1 => 5)
    let stops := fun (t : TrapReq) => exec i s = .next (s.takeTrap s.cur t c.pc 1)
    let named := fun (cause : BitVec 8) (cls : BitVec 5) =>
      stops ⟨cause, 0#48 ++ op.extractLsb' 2 6 ++ op.extractLsb' 0 2 ++ cls ++ slot⟩
    let first := i.check1 = none ∧ m.check1 c = false
    let second := c.cr.sys = true ∨ m.priv c = false
    let third := c.instanceOf sl ≠ none ∧ m.runsOn s.cur c = true ∧ ∀ row cls b, m.timing = some (row, cls, b) → c.timingAt (32 * row + cls) ≠ 0
    let fourth := ∀ row cls b, m.timing = some (row, cls, b) → c.latencyOf row cls ≤ b
    let performs := c.pReg (m.guard.pred.zeroExtend 6) != (m.guard.pn == 1)
    (¬ first → named 0x01 0) ∧
    (first → ¬ second → named 0x02 0) ∧
    (first → second → c.instanceOf sl = none ∨ m.runsOn s.cur c = false → named 0x01 0) ∧
    (first → second → c.instanceOf sl ≠ none → m.runsOn s.cur c = true → ∀ row cls b, m.timing = some (row, cls, b) →
      (c.timingAt (32 * row + cls) = 0 → named 0x01 (BitVec.ofNat 5 cls)) ∧
      (c.timingAt (32 * row + cls) ≠ 0 → b < c.latencyOf row cls → named 0x03 (BitVec.ofNat 5 cls))) ∧
    (first → second → third → fourth →
      (∀ t, m.always5 (s.view m) = some t → stops t) ∧
      (m.always5 (s.view m) = none →
        (performs = true → ∀ t, m.check5 s s.cur (s.view m) = some t → stops t) ∧
        (performs = false → Completes i s (match m.produces (s.view m) with
          | some (n, src) => (c.setKnot n { c.knot n with source := src, state := .resolved }).after
          | none => c.after))))

/-- 08 R268, R265, 04 R148, R267: a privileged operation in user mode raises PRIVILEGE at check 2. -/
def Obligations.PrivilegedOperations : Prop :=
  ∀ (s : State) (g : Guard) (r : SR) (j : SI) (i : Instr), s.now.Quiet → s.now.cr.sys = false → i.check1 = none →
    let x : BitVec 16 := j.imm.extractLsb' 0 16
    i ∈ [.slotmap g r, .ttset g r, .skeinldLoad g r, .scanrun g r, .preempt g r, .ctxsave g r, .ctxload g r, .qmap g r, .qsave g r,
        .qload g r, .pstep g r, .inval g r, .relocStart g r, .relocQuery g r, .relocAbort g r, .fwdpub g r, .logrApp g r,
        .logrRead g r, .eret g j] ∨
      i = .crw g j ∧ x ∉ [0x10, 0x11, 0x12] ∨ i = .crr g j ∧ x ∈ [0x30, 0x31, 0x32, 0x33] →
    ∀ sl w, i.slotWord = some (sl, w) →
      exec i s = .next (s.takeTrap s.cur ⟨0x02, info263 .s 0 ((opcodeOf w).extractLsb' 2 6) (opcodeOf w) 0⟩ s.now.pc 1)

/-! ### One step, and the encodings -/

/-- Where no input is pending and the boot ROM has run, a step whose fetch finds the bytes of one slot operation, or of a header alone, and
whose bundle waits for nothing, is `exec` of the instruction they decode to; of several slot words it is the issue of their bundle; bytes
that are no bundle are the event of a malformed bundle. A step with a pending event is `exec` of the event, and one that gives a core its
turn makes it the current core. (02 R53, R77; the pending inputs are the model's, log 5.) -/
def Obligations.StepRunsDecoded : Prop :=
  (∀ (s : State) (bs : List Byte), s.agenda = [] → s.booted = true → s.now.stopped = false → s.now.idle = false →
    s.pwr.phase ≠ .off → (s.pwr.phase = .pfail → 576 ≤ s.cur) → s.fetch s.cur = .bytes bs → s.waiting s.cur bs = false →
    (∀ b i, decode bs = .ok b → soloInstr b = some i → step s = exec i s) ∧
    (∀ b, decode bs = .ok b → soloInstr b = none → step s = .next (s.issueBundle b)) ∧
    (∀ e, decode bs = .error e → step s = exec .malformedBundle s)) ∧
  (∀ (s : State) (i : Instr) (l : List Agenda), s.agenda = .event i :: l → step s = exec i { s with agenda := l }) ∧
  (∀ (s : State), s.agenda = [] → s.booted = false → step s = exec .boot s)

/-- 02 R53, R54, R63 to R68: an encoded instruction that passes check 1, alone in its bundle, is decoded to itself; SKEINLD has one
encoding, which reads as its load form (log 26); and a slot word that decodes to an instruction is that instruction's word. -/
def Obligations.DecodeEncode : Prop :=
  (∀ i : Instr, i.WellFormed → encode i ≠ [] → (∀ g w, i ≠ .skeinldRelease g w) → ∃ b, decode (encode i) = .ok b ∧ soloInstr b = some i) ∧
  (∀ (g : Guard) (w : SR), (Instr.skeinldRelease g w).WellFormed →
    ∃ b, decode (encode (.skeinldRelease g w)) = .ok b ∧ soloInstr b = some (.skeinldLoad g w)) ∧
  (∀ (sl : Slot) (w : W64) (i : Instr), decodeSlot sl w = .ok i → i.WellFormed ∧ i.slotWord = some (sl, w))

/-- The words that the spec writes out (02 R78, 04 R152, 05 R171, 06 R208, 07 R232, 08 R244, R269, 12 R334, 16 R421, 18 R440) decode to the
operations they stand for; words and headers that 02 R70 to R77 reject are refused by name. -/
def Obligations.WrittenWordsDecode : Prop :=
  (∀ q ∈ [(Slot.v0, 0x0101862000000020#64, Instr.vld .v0 ⟨0, 0⟩ ⟨3, 3, 4, 0, 0, 32⟩),
      (.v0, 0x0806020800100000#64, .vtag .v0 ⟨0, 0⟩ ⟨12, 1, 1, 0, 0, 0x08, 0, 0, 0⟩),
      (.v1, 0x1302080841800000#64, .vfma .v1 ⟨0, 0⟩ ⟨4, 4, 1, 2, 3, 0, 0, 0, 0⟩),
      (.v1, 0x02018800000C0000#64, .vst .v1 ⟨0, 0⟩ ⟨3, 4, 0, 0, 96, 0⟩),
      (.s, 0x450080100000000F#64, .loop ⟨0, 0⟩ ⟨1, 0, 2, 15⟩),
      (.s, 0x6001860E00000000#64, .lds ⟨0, 0⟩ ⟨3, 3, 1, 3, 0, 0, 0, 0⟩),
      (.s, 0x25008630E0000000#64, .cmpleu ⟨0, 0⟩ ⟨1, 3, 6, 7, 0, 0, 0⟩),
      (.s, 0x40A00007FFFFFFDB#64, .br ⟨1, 4⟩ ⟨0, 0, 0, -37⟩),
      (.s, 0x64011A0000000005#64, .crr ⟨0, 0⟩ ⟨2, 13, 0, 5⟩),
      (.s, 0x7700640EA104A600#64, .amocas ⟨0, 0⟩ ⟨200, 7, 20, 8, 9, 2, 0, 3, 0⟩),
      (.s, 0x620020065E000000#64, .ldg ⟨0, 0⟩ ⟨64, 3, 11, 3, 0, 0, 0⟩),
      (.s, 0x6300000256000000#64, .stg ⟨0, 0⟩ ⟨0, 1, 10, 3, 0, 0, 0⟩),
      (.s, 0x8100000000000002#64, .drain ⟨0, 0⟩ ⟨0, 0, 0, 2⟩),
      (.s, 0x9700021000000000#64, .refmk ⟨0, 0⟩ ⟨0, 1, 2, 0, 0, 0, 0⟩),
      (.s, 0x900014040E010000#64, .ldref ⟨0, 0⟩ ⟨40, 2, 1, 3, 0, 16, 0⟩),
      (.s, 0x9418101000000000#64, .pin ⟨0, 3⟩ ⟨0, 8, 2, 0, 0, 0, 0⟩),
      (.s, 0xA100000841800000#64, .ttset ⟨0, 0⟩ ⟨0, 0, 1, 2, 3, 0, 0⟩),
      (.s, 0xAE000E20A0010000#64, .logrRead ⟨0, 0⟩ ⟨0, 7, 4, 5, 0, 1, 0⟩),
      (.m, 0x0102010000006062#64, .mlb ⟨0, 0⟩ ⟨16, 2, 0, 0, 0, 0, 6, 0, 0, 0x62⟩),
      (.m, 0x0301020000005000#64, .mac ⟨0, 0⟩ ⟨8, 4, 0, 0, 0, 0, 5, 0, 0, 0⟩),
      (.m, 0x0600C40000009080#64, .mrdSteps ⟨0, 0⟩ ⟨6, 8, 0, 0, 0, 0, 9, 0, 0, 0x80⟩),
      (.c0, 0x020020000000B301#64, .cpyr .c0 ⟨0, 0⟩ ⟨1, 0, 0, 0, 0, 0, 11, 12, 1⟩),
      (.c1, 0x01186000005C9580#64, .cpy .c1 ⟨0, 3⟩ ⟨3, 0, 0, 0, 0, 23, 9, 22, 0⟩),
      (.c0, 0x1200408001000000#64, .kwait .c0 ⟨0, 0⟩ ⟨2, 1, 0, 0, 1, 0, 0, 0, 0⟩)],
    decodeSlot q.1 q.2.1 = .ok q.2.2) ∧
  (∀ q ∈ [(Slot.s, 0x0C00000000000000#64), (.s, 0x0000000000000000), (.v0, 0x0900000000000000), (.m, 0x0A00000000000000),
      (.c1, 0x0C00000000000000)], decodeSlot q.1 q.2 = .error (.unassigned q.1 (opcodeOf q.2))) ∧
  decodeSlot .s 0x450080100000000F = .ok (.loop ⟨0, 0⟩ ⟨1, 0, 2, 15⟩) ∧
  decodeSlot .s 0x450088100000000F = .error (.illFormed .s 0x45 .registerBeyondFile) ∧
  decodeSlot .s 0x6200000000000000 = .error (.illFormed .s 0x62 .landZero) ∧
  decodeSlot .s 0x0100000000000001 = .error (.illFormed .s 0x01 .reservedField) ∧
  decodeHeader 0xA0000FC0 = .error .badFrame ∧ decodeHeader 0xB1000FC0 = .error .reservedHeader ∧
  decodeHeader 0xB0500FC0 = .error .badLoopend ∧ decodeHeader 0xB0000041 = .error .presentAndQuiet ∧
  decodeHeader 0xB0003103 = .ok ⟨0, 3, 4, 3⟩

/-! ### Reset -/

/-- The values that the spec gives for reset (01 R14 to R20, R33, R41, R43, R46, R50, R51, 03 R101, 06 R184, 09 R280, 20 R480): of a tile core, of
the supervisor cores, and of the machine; memory has its canonical form. -/
def Obligations.ResetValues : Prop :=
  let s := State.reset
  let ship := fun (i : Nat) => (([(0, 1), (1, 3), (2, 4), (3, 12), (4, 3), (5, 2), (6, 2),
    (32, 2), (33, 2), (34, 3), (35, 4), (36, 5), (37, 6), (38, 12), (39, 3), (64, 2), (65, 2), (66, 3), (67, 4), (68, 5), (69, 6), (70, 12), (71, 3),
    (96, 16), (97, 8), (98, 2), (99, 4), (100, 1)] : List (Nat × Nat)).lookup i).getD 0
  (∀ k, k < 576 →
    let c := s.core k
    c.cr.sys = false ∧ c.cr.halt = false ∧ c.cr.dbg = 0 ∧ c.cr.round = 1 ∧ c.cr.seed = 0 ∧ c.cr.flags = 0 ∧ c.cr.ceiling = 10 ∧
    c.cr.slotmap = 0x0044 ∧ c.cycle = 0 ∧ c.power.pceil = 10 ∧ (∀ i, i < 128 → c.timingAt i = BitVec.ofNat 8 (ship i)) ∧
    (∀ n, c.hReg n = 0 ∧ c.kReg n = 0 ∧ c.lReg n = ⟨0, 0⟩ ∧ (c.knot n).state = .free ∧ (c.knot n).source = 0) ∧
    c.sReg 0 = 0 ∧ c.pReg 0 = true ∧ (∀ z i, c.beatAt z i = { data := 0, side := 0, tag := 0 }) ∧
    (∀ a, SMap.get false c.fe a = false) ∧
    (∀ n, SMap.get 0 c.mx.cells n = 0 ∧ SMap.get 0 c.mx.headers n = 0 ∧ SMap.get 0 c.mx.tags n = 0) ∧
    c.mx.bank0 = { acc := [], steps := 0, row := 0, kq := 0, rm := 0, sat := false } ∧ c.mx.bank1 = c.mx.bank0) ∧
  (∀ die, die < 4 →
    let c := s.core (576 + die)
    c.supervisor = true ∧ c.cr.sys = true ∧ c.cr.asid = 0 ∧ c.cr.slotmap = 0x01AA ∧
    (∀ i, i < 128 → c.timingAt i = if i < 32 then BitVec.ofNat 8 (ship i) else 0)) ∧
  s.time = 0 ∧ Memory.wf s.mem = true ∧ ∀ a, s.memByte a = 0

/-- 01 R15: s0 reads as zero and p0 as true, and a write to either is discarded without a trap: an operation whose destination is s0 or p0
leaves the registers as they were and goes on to the next bundle. -/
def Obligations.HardWiredRegisters : Prop :=
  (∀ (c : Core) (v : W64) (b : Bool), c.sReg 0 = 0 ∧ c.pReg 0 = true ∧ c.setS 0 v = c ∧ c.setP 0 b = c) ∧
  (∀ (s : State) (g : Guard) (w : SR), w.lat = 1 → w.d = 0 →
    (s.Issues .s g (some (0, 0, 1)) → (Instr.add g w).check1 = none → Completes (.add g w) s s.now.after) ∧
    (s.Issues .s g (some (0, 0, 1)) → (Instr.cmpeq g w).check1 = none → Completes (.cmpeq g w) s s.now.after))

/-! ### The events of the memory system -/

/-- 01 R25, R37, 04 R145, R146, 07 R210, R220, R229, R230, 08 R246, R257, 09 R275, R277, R282, 14 R372: what each step of the memory system
and of a copy engine does where its condition holds. A turn of an event that has no occurrence is not taken (log 5). -/
def Obligations.MemorySystemSteps : Prop :=
  ∀ (s : State) (core : Nat),
    let c := s.core core
    (∀ (i : Nat) (l : Landing), c.landings[i]? = some l →
      let put := fun (u : State) (st : LandState) => u.modCore core fun d => d.setLanding i st
      (∀ v p, l.state = .replied v p →
        exec (.landingDataArrival core i) s = .next (if l.live = true then put s (.arrived v p)
          else s.modCore core fun d => { d with landings := d.landings.filter fun x => x.id ≠ l.id })) ∧
      (l.state = .waiting → l.tgt.cls ≠ .remote →
        (∀ size sgn ps u, l.kind = .load size sgn → s.pieces l.tgt.asid l.tgt.ca .r (l.tgt.cls = .host) (sizeBytes size) = (.ok ps, u) →
          ps.any Piece.isHeld = false →
          let r := u.readPieces (dieOf core) ps
          let d := u.core core
          let own := if l.tgt.uncached then [] else d.l1 ++ (d.stream.filter fun e => decide (e.seq < l.id)).map fun e => (e.tgt.ca.toNat, e.l1Bytes)
          exec (.homeSliceAccess core i) s = .next (put r.2.2 (.replied (BitVec.ofNat 64 (leNat (overlay l.tgt.ca.toNat r.1 own))) r.2.1))) ∧
        (∀ op size b x scope ps u, l.kind = .amo op size b x scope false → s.amoReleased core l scope = true →
          s.pieces l.tgt.asid l.tgt.ca .rw (l.tgt.cls = .host) (sizeBytes size) = (.ok ps, u) → ps.any Piece.isHeld = false →
          u.amoOnRef l.tgt = false →
          let r := u.amoStep l.tgt.asid (some core) ps op size b x
          exec (.homeSliceAccess core i) s = .next (put r.2.2 (.replied r.1 r.2.1))))) ∧
    (∀ (e : StoreEntry) (l : List StoreEntry), c.stream = e :: l →
      (e.sent = .acking → exec (.uncachedWriteAck core) s = .next (s.modCore core Core.popStore)) ∧
      (∀ bs ps u, e.sent = .no → e.kind = .data bs → e.tgt.cls ≠ .remote → (c.streamFault = false ∨ e.ret.isSome = true) →
        c.earlierAmo e.seq e.tgt = false → s.pieces e.tgt.asid e.tgt.ca .w (e.tgt.cls = .host) bs.length = (.ok ps, u) →
        ps.any Piece.isHeld = false →
        let v := u.homeWrite e.tgt.asid (some core) e.tgt.ca.toNat ps bs
        exec (.storePerform core) s = .next (if e.tgt.uncached then v.modCore core fun d =>
            { d with stream := match d.stream with | q :: r => { q with sent := .acking } :: r | [] => [] }
          else (v.modCore core Core.popStore).keepL1 core e.tgt.ca.toNat bs))) ∧
    (∀ i, (SMap.get none c.tracker i).isSome = true → c.trackerBusy i = false →
      exec (.retirementEntryFree core i) s = .next (s.modCore core fun d => { d with tracker := SMap.set none d.tracker i none })) ∧
    (∀ die line, (s.pendInv.any fun q => q.die == die && q.line == line) = true →
      ∃ t, exec (.invalidation die line) s = .next t ∧ SMap.get [] t.rdc (rdcKey die line) = [] ∧
        t.pendInv = s.pendInv.filter (fun q => !(q.die == die && q.line == line)) ∧ t.mem = s.mem ∧
        ∀ k, dieOf k ≠ die → t.core k = s.core k) ∧
    (∀ src a bs, src = .granules a bs ∧ a % 16 = 0 ∧ bs.length % 16 = 0 ∨ src = .bytes a bs ∧ 1 ≤ bs.length ∧ bs.length ≤ 8 →
      a + bs.length ≤ c.spadSize → c.supervisor = false →
      exec (.remoteWrite core src) s = .next (s.modCore core fun d => d.spadWrite a bs true)) ∧
    (∀ t ps u, s.fetch core = .miss t →
      let base := t.ca.toNat / 128 * 128
      let asid := (s.fetchCore core).cr.asid
      s.pieces asid (BitVec.ofNat 52 base) .x false 128 = (.ok ps, u) → ps.any Piece.isHeld = false →
      let r := u.readPieces (dieOf core) ps
      r.2.1 = false →
      exec (.fetchFill core) s = .next (r.2.2.modCore core fun d => { d with icache := SMap.set [] d.icache (icKey asid (base / 128)) r.1 })) ∧
    (∀ e i o, c.copyAt e i = some o → o.refused = false →
      (∀ l miss u, o.job = .move l miss → (l.any fun m => m.far.isSome) = false → s.performMoves core o l = some (true, u) →
        exec (.copyPerform core e i) s = .next (u.finishCopy core o (miss.map fun k => (0, k)))) ∧
      (∀ dst r, o.job = .loadRecord dst r →
        exec (.copyPerform core e i) s = .next ((s.modCore core fun d => d.spadWrite dst r true).finishCopy core o none)) ∧
      (∀ addr stage r u, o.job = .push addr stage → o.record = some r → c.earlierPush o stage = false →
        s.pushRecord o.slot o.stage stage r = some u → exec (.stqPushPerform core e i) s = .next (u.finishCopy core o none))) ∧
    (∀ kind va pte rest, c.refusals = (kind, va, pte) :: rest →
      exec (.fatalContextError core) s = .next ((s.modCore core fun d => { d with refusals := rest }).raiseFatal core kind va pte))

/-- 01 R26, R52, 08 R261, 10 R288, R290, R304, R312, 18 R437, R443 to R446, R448: errors, kills and the observers of a core. -/
def Obligations.ErrorsAndObservers : Prop :=
  ∀ (s : State) (core : Nat),
    let c := s.core core
    (∀ n, core < 576 → n < 6 →
      let u := (s.modCore core fun d => { d with ecc := 16 }).wearAdd (wearSite core + 8 * n) 8 1
      exec (.eccCorr core n) s = .next (u.logCorr core 0x0001 (u.ctxPart c.cr.asid) (sourceOf core) n)) ∧
    (0 < c.ecc → ∃ t, exec (.eccFreezeEnd core) s = .next t ∧ t = s.freezeCycles core acctEcc c.ecc) ∧
    (∀ a, core < 576 →
      let u := s.modCore core fun d => { d with poison := .spad (a / 16 * 16) :: d.poison.filter (· ≠ .spad (a / 16 * 16)) }
      exec (.onchipUe core (.spad a)) s = .next (u.logAppend
        { code := 0x0013, cls := 2, part := u.ctxPart c.cr.asid, asid := c.cr.asid.toNat, source := sourceOf core
          wid := (c.item.map fun i => i.wid.toNat).getD 0, detail := 2 ^ (a / 16 % 8) })) ∧
    (∀ n, core < 576 →
      let u := s.modCore core fun d => { d with poison := .sreg n :: d.poison.filter (· ≠ .sreg n) }
      exec (.onchipUe core (.sreg n)) s = .next (u.logAppend
        { code := 0x0013, cls := 2, part := u.ctxPart c.cr.asid, asid := c.cr.asid.toNat, source := sourceOf core
          wid := (c.item.map fun i => i.wid.toNat).getD 0, detail := 0 })) ∧
    (∀ place : UePlace, (∀ pa, place ≠ .mem pa) → 576 ≤ core → core < 580 →
      exec (.onchipUe core place) s = .next (s.supervisorFault core 0x21 0 c.pc)) ∧
    (∀ ca (mask : BitVec 8), ∃ (u : State) (source : Nat), u = { s with memPoison := u.memPoison } ∧
      (∀ i, i < 8 → mask.getLsbD i = true → u.poisoned (ca / 128 * 128 + 16 * i) = true) ∧
      exec (.systemUe ca mask) s = .next ((u.logAppend
        { code := 0x0014, cls := 3, source := source, addr := ca / 128 * 128, detail := mask.toNat }).contain 31 source s.logSeq)) ∧
    (∀ part, s.contained.contains part = true →
      (part = 31 → ∃ t, exec (.dpcRelease part) s = .next t ∧ t.mem = [] ∧ t.time = 0 ∧ t.booted = false ∧ t.contained = [] ∧
        t.sec.lifecycle = s.sec.lifecycle ∧ t.sec.revoked = s.sec.revoked ∧ ∀ k, t.core k = State.reset.core k) ∧
      (part ≠ 31 → ∃ t, exec (.dpcRelease part) s = .next t ∧ t.contained = s.contained.filter (· ≠ part) ∧ t.mem = s.mem ∧ t.cores = s.cores)) ∧
    (∀ reason : BitVec 8, core < 576 → 1 ≤ reason.toNat → reason.toNat ≤ 9 → c.item.isSome = true →
      exec (.contextKill core reason) s = .next (s.modCore core fun d => d.raiseAsync 0x22 (reason.zeroExtend 64))) ∧
    (∀ die (pc : BitVec 64), die < 4 → (s.core 576).stopped = false →
      exec (.supstart die pc) s = .next (if (s.core (576 + die)).stopped = true then
        s.modCore (576 + die) fun d => { d with stopped := false, pc := pc.extractLsb' 0 57 } else s)) ∧
    (core < 576 →
      exec (.accountLatch core) s = .next (s.modCore core fun d => { d with acct := { d.acct with
        latchCounts := d.acct.live, latchCycle := d.cycle, latchAsid := d.acct.owner, latchPending := false } }) ∧
      (c.supervisor = false → ∃ t, exec (.supervisorFlush core) s = .next t ∧ (t.core core).acct.live = [] ∧ (t.core core).acct.bank = [] ∧
        (∀ k, k ≠ core → t.core k = s.core k))) ∧
    (∀ p l, c.acct.packets.dropWhile (fun p => 2 ≤ p.kind.toNat) = p :: l →
      let u := fun aborted => if (SMap.get {} c.acct.captures p.slot.toNat).busy then s.captureRecord core p.slot.toNat aborted else s
      (p.kind = 0 → exec (.captureStart core) s = .next ((u true).modCore core fun d => d.takePacket.setCapture p.slot.toNat
        { busy := true, window := p.window, asid := p.asid, start := d.cycle, regionStart := d.crRegion })) ∧
      (p.kind = 1 → exec (.captureStop core) s = .next ((u false).modCore core fun d => d.takePacket.setCapture p.slot.toNat {}))) ∧
    (∀ line rest, c.hooks.shootdowns = line :: rest → s.holdsLine core line = false →
      exec (.shootdown core) s = .next ((s.modCore core fun d => { d with
        icache := d.icache.filter fun q => q.1 % 2 ^ 45 ≠ line, hooks := { d.hooks with shootdowns := rest } }).acknowledge core line)) ∧
    (∀ p rest, s.patches = p :: rest →
      exec .patchAckTimeout s = .next
        (({ s with time := max s.time (p.sent + 1000000), patches := rest }).answerPatch p (p.sentTo - p.waiting.length)))

/-! ### Launches and the stage scheduler -/

/-- 08 R250, R251, R271, 13 R333 to R336, R339, R341, R345, 14 R356: kicks, packets, item starts and resumes, gangs' reports and
releases, ageing and range reloads. -/
def Obligations.LaunchEvents : Prop :=
  ∀ s : State,
    (∀ (part qid : Nat) (wr : BitVec 64) (r : QueueReg) (n : Nat), s.pwr.phase ≠ .idle → s.contained.contains part = false →
      s.contained.contains 31 = false → SMap.get none s.queues qid = some r → r.part = part → s.slotOfQueue qid = some n →
      let q := s.slot n
      exec (.kick part qid wr) s = .next (if wr.toNat < q.wridx ∨ q.rdidx + 2 ^ q.ringLog < wr.toNat
        then s.hostDropped part 1 qid wr.toNat else s.setSlot n { q with wridx := wr.toNat })) ∧
    (∀ (n : Nat) (p : List Byte), let q := s.slot n
      n < 64 → q.state = .bound → q.launch = none → q.rdidx < q.wridx →
      s.readCa q.asid (q.ringBase + 128 * (q.rdidx % 2 ^ q.ringLog)) 128 = some p →
      let taken := fun (u : State) => u.setSlot n { q with rdidx := q.rdidx + 1 }
      (fieldOf p 0 4 = 0 → exec (.packetFetch n) s = .next (taken s)) ∧
      (2 ≤ fieldOf p 0 4 → exec (.packetFetch n) s = .next (taken (s.complete q.asid (fieldOf p 0x28 8) 3 0 []))) ∧
      (∀ l, s.checkPacket q p = .launch l → q.prio ≠ 7 → s.ctxState q.asid = 1 →
        exec (.packetFetch n) s = .next (s.setSlot n { q with launch := some l }) ∧
        fieldOf p 0 4 = 1 ∧ l.started = 0 ∧ l.ended = 0 ∧ l.widbase = fieldOf p 0x10 8 ∧ 1 ≤ l.total ∧ l.total ≤ 2 ^ 48 ∧
        l.done = fieldOf p 0x28 8 ∧ l.args.length = 7)) ∧
    (∀ (n : Nat) (l : Launch), let q := s.slot n
      q.launch = some l → s.launchOver n l = true → l.killed = false →
      exec (.launchComplete n) s = .next (((s.complete q.asid l.done 0 l.ended l.cores).setSlot n
        { q with launch := none, rdidx := q.rdidx + 1 }).kernelEnd q.asid)) ∧
    (∀ (core n : Nat) (l : Launch) (q : Stage), s.nextOf core = some (n, 0, l) → l.stages[0]? = some q → q.suspended = [] →
      q.count = 0 → s.ctxState (s.slot n).asid = 1 → ∃ t, exec (.itemStart core) s = .next t ∧
        let d := t.core core
        let wid := l.widbase + l.started
        d.pc = BitVec.ofNat 57 (l.code + l.codeOff + q.entry) ∧ d.cr.asid = (s.slot n).asid ∧ d.cr.flags = 0 ∧ d.cr.ceiling = 10 ∧
        d.cr.seed = l.seed ^^^ BitVec.ofNat 64 wid ∧ d.cr.round = 1 ∧ d.cr.sys = false ∧ d.cr.halt = false ∧ d.p = [] ∧ d.h = [] ∧
        d.item.map Item.record = some (l.widRecord wid) ∧ d.item.map Item.wid = some (BitVec.ofNat 64 wid) ∧
        d.ranges = s.ctxRanges (s.slot n).asid ∧ (t.slot n).launch.map Launch.started = (s.slot n).launch.map fun l => l.started + 1) ∧
    (∀ (core n i image : Nat) (l : Launch) (q : Stage) (it : Item) rest, s.nextOf core = some (n, i, l) → l.stages[i]? = some q →
      q.suspended = (image, it) :: rest → ∃ t, exec (.resumeEntry core) s = .next t ∧
        let d := t.core core
        d.pc = 0x2300 ∧ d.cr.sys = true ∧ d.cr.cause = 0x10 ∧ d.cr.asid = 0 ∧ d.cr.einfo = BitVec.ofNat 64 image ∧
        d.chargeTo = some (s.slot n).asid ∧ d.ranges = s.ctxRanges 0 ∧ t.mem = s.mem) ∧
    (∀ core n, (s.core core).bar = .sent → (s.core core).item.bind Item.gang = some n →
      let u := s.modCore core fun c => { c with bar := .reported }
      exec (.barPacket core) s = .next ({ u with gangs := SMap.set none u.gangs n ((SMap.get none u.gangs n).map fun (q : Gang) =>
        { q with reported := q.reported.filter (· ≠ core) ++ [core] }) }.releaseIfAll n)) ∧
    (∀ core, (s.core core).bar = .released →
      exec (.barrierRelease core) s = .next (s.modCore core fun c => { c with bar := .none })) ∧
    (∀ n, let q := s.slot n
      n < 64 → q.state = .bound → q.demand ≠ 0 → q.shares = [] →
      let interval := if q.ageInt = 0 then 256 else q.ageInt
      exec (.ageing n) s = .next (s.setSlot n (if q.age + 1 < interval then { q with age := q.age + 1 }
        else { q with age := 0, effPrio := min 7 (q.effPrio + 1) }))) ∧
    (∀ asid, ∃ t, exec (.rangeReload asid) s = .next t ∧ t.mem = s.mem ∧
      ∀ k, t.core k = if s.coresOf (BitVec.ofNat 16 asid) |>.contains k then { s.core k with ranges := s.ctxRanges (BitVec.ofNat 16 asid) }
        else s.core k)

/-- 13 R338 to R342, 18 R449, R451, 19 R472, R474: epochs, watchdogs, partition resets, the whorl rotation and dead routers. -/
def Obligations.EpochsAndRepair : Prop :=
  ∀ s : State,
    (∀ die, die < 4 → ∃ t, exec (.rebalance die) s = .next t ∧ t.mem = s.mem ∧ t.logSeq = s.logSeq ∧
      t.queues = s.queues ∧ t.parts = s.parts ∧ t.time = s.time ∧ ∀ k, (s.core k).item.isSome = true → (t.core k).item = (s.core k).item) ∧
    (∀ core it, (s.core core).item = some it → (s.core core).cr.halt = false → (s.core core).saved = false →
      (s.slot it.slot).state = .bound → (s.core core).async = [] → ∃ t, exec (.watchdogExpire core) s = .next t ∧
        t.resets.contains (s.slot it.slot).part = true ∧ t.logSeq = s.logSeq + 1 ∧
        (t.core core).async.head? = some ⟨0x11, BitVec.ofNat 64 it.slot, false⟩ ∧ (t.core core).causeSeq = some s.logSeq ∧
        s.time ≤ t.time ∧ it.wdogStart + 1000 * (if (s.slot it.slot).wdog = 0 then 50000 else (s.slot it.slot).wdog) ≤ t.time) ∧
    (∀ part, s.draining part = true →
      (∀ d k, d < 4 → k ∈ s.liveCores part d → (s.core k).item = none ∧ (s.core k).incoming = none ∧ (s.core k).cr.sys = false ∧
        (s.core k).copies = [] ∧ ∀ e ∈ (s.core k).tracker, e.2 = none) →
      ∃ t, exec (.partitionReset part) s = .next t ∧ t.resets = s.resets.filter (· ≠ part) ∧ t.logSeq = s.logSeq + 1 ∧
        ∀ k, (∀ d, k ∉ s.liveCores part d) → t.core k = s.core k) ∧
    (∀ die n, s.booted = true → die < 4 → (s.whorl die).phase = .serving → (s.whorlCtl die).getLsbD 0 = true → s.pwr.stepped = false →
      (∀ l, (s.whorl die).retry = n :: l → exec (.whorlTick die) s = .next ((s.setMark die (0x8000 + n)).modWhorl die fun w =>
        { w with phase := .marked n s.time, retry := l })) ∧
      ((s.whorl die).retry = [] → s.nextSite die (s.whorl die).last = some n →
        exec (.whorlTick die) s = .next ((s.setMark die (0x8000 + n)).modWhorl die fun w =>
          { w with phase := .marked n s.time, last := some n }))) ∧
    (∀ die n since, (s.whorl die).phase = .marked n since → (s.core (144 * die + n)).item.isSome = true →
      exec (.drainmax die) s = .next ({ s with
        time := max s.time (since + 1000000 * ((s.whorlCtl die).extractLsb' 16 16).toNat) }.modCore (144 * die + n) fun c =>
          c.raiseAsync 0x10 0)) ∧
    (∀ die site, die < 4 → site < 144 → s.siteState (144 * die + site) ≠ .dropped true →
      ∃ t, exec (.routerBypass die site) s = .next t ∧ (t.whorl die).phase.site ≠ some site ∧ site ∉ (t.whorl die).retry)

/-- 19 R479, 20 R481 to R489, R497: the power controller, the power states, the dump and the wear log. -/
def Obligations.PowerEvents : Prop :=
  ∀ s : State,
    (s.booted = true → s.pwr.phase = .on →
      let est := s.choose 12
      let avg := est.2.choose 12
      let u := { avg.2 with time := (s.time / 10000 + 1) * 10000 }
      let tick := fun (v : State) => exec .powerTick s = .next ({ v with pwr := s.pwr }.setPower { v.pwr with draw := BitVec.ofNat 12 avg.1 })
      (∀ a, s.pwr.force < est.1 → u.nextAct = some a → tick (u.shed a)) ∧
      (s.pwr.force < est.1 → u.nextAct = none → tick u) ∧
      (∀ a l, est.1 ≤ s.pwr.force → s.pwr.actions = a :: l → s.pwr.rising = true →
        est.1 + Config.ratedIncrease a.stage ≤ s.pwr.force → tick u.unshed) ∧
      (est.1 ≤ s.pwr.force → s.pwr.actions = [] → tick u)) ∧
    (s.booted = true → s.pwr.phase ≠ .pfail → s.pwr.phase ≠ .off →
      exec .powerStepPin s = .next (s.setLevels fun p => { p with pin := !p.pin })) ∧
    (∀ core, core < 576 →
      ((s.core core).cycle.toNat % 64 = 0 → exec (.powerWindow core) s = .next (s.modCore core fun c =>
        { c with power := { c.power with sum := 0, eff := max 1 (min c.cr.ceiling.toNat c.power.pceil) } })) ∧
      ((s.core core).cycle.toNat % 64 ≠ 0 → (s.core core).idle = true →
        exec (.powerWindow core) s = .next (s.powerCycles core (64 - (s.core core).cycle.toNat % 64)))) ∧
    (s.booted = true → s.pwr.phase = .on → (∀ n, n < 64 → (s.slot n).state = .bound → (s.slot n).demand = 0) →
      exec .idleEntry s = .next { s with time := s.time + 10000000, pwr := { s.pwr with phase := .idle } }) ∧
    (s.booted = true → s.pwr.phase ≠ .pfail → s.pwr.phase ≠ .off → ∃ t, exec .powerFail s = .next t ∧
      t.pwr.phase = .pfail ∧ t.pwr.failedAt = s.time ∧ t.pwr.failLevel = s.sec.highest ∧ t.mem = s.mem ∧
      t.sec.level = [] ∧ t.sec.d3 = false) ∧
    (s.pwr.phase = .pfail → s.sec.lifecycle ≠ .retired → ∃ t, exec .dumpComplete s = .next t ∧ t.pwr.phase = .off ∧ t.mem = [] ∧
      t.sec.flash = some (s.dumpImage (Config.freeBits s.free (2 ^ 22) 96)) ∧ t.creel.wear = s.wear) ∧
    (s.booted = true → s.pwr.phase ≠ .pfail → s.pwr.phase ≠ .off → ∃ t, exec .wearLogCommit s = .next t ∧
      t.time = (s.time / 3600000000000 + 1) * 3600000000000 ∧ t.creel.wear = t.wear ∧ t.mem = s.mem ∧ t.cores = s.cores) ∧
    (∀ die mv, die < 4 → s.pwr.phase ≠ .off →
      (mv < 20 → exec (.voltageDroop die mv) s = .next s) ∧
      (20 ≤ mv → exec (.voltageDroop die mv) s = .next (s.wearAdd (wearDie die + 128 + 8 * min 7 ((mv - 20) / 10)) 8 1))) ∧
    (s.pwr.phase ≠ .off → ∃ t, exec .powerLost s = .next t ∧ t.pwr.phase = .off ∧ t.mem = [] ∧ t.sec.lifecycle = s.sec.lifecycle ∧
      t.sec.flash = s.sec.flash ∧ t.creel = s.recorded ∧ ∀ k, t.core k = State.reset.core k)

/-! ### The requests of the host -/

/-- 13 R347 to R349, 14 R353, R356, R360, R361, R368, R370, R375, R379, 18 R443: the requests of a driver about its contexts and
queues. -/
def Obligations.ContextRequests : Prop :=
  ∀ (s : State) (mb : Nat),
    let w := s.operand mb
    (s.Serves 0x01 mb →
      let account := w 5 ++ w 4 ++ w 3 ++ w 2
      let free := ((List.range 1023).map (· + 1)).filter fun i => s.ctxState (BitVec.ofNat 16 i) == 0
      (accountOk account = false → Answers .ctxalloc s mb 0x20 [] s) ∧
      (accountOk account = true → free = [] → Answers .ctxalloc s mb 0x22 [] s) ∧
      (∀ n t root image objmap u v, accountOk account = true → s.chooseFrom free = some (n, t) →
        t.takeContext (BitVec.ofNat 16 n) = some (root, image, objmap, u) →
        (u.putSystem (u.ctxEntry (BitVec.ofNat 16 n)) (ctxEntryBytes mb root image objmap account
          ((List.range 8).foldl (fun a h => a + (u.good (BitVec.ofNat 16 n) h).toNat * 2 ^ (3 * h)) 0))).putCodeHeap
            (BitVec.ofNat 16 n) (w 1).toNat = some v →
        1 ≤ n ∧ n ≤ 1023 ∧ s.ctxState (BitVec.ofNat 16 n) = 0 ∧ Answers .ctxalloc s mb 0 [BitVec.ofNat 64 n] v)) ∧
    (∀ asid, s.ownContext mb (w 1) = .ok asid →
      let killed := s.killContext asid (6 * 256) { reason := 1 } 1
      (s.Serves 0x02 mb → killed.contextBusy asid = false → killed.probedIn asid.toNat 0 (2 ^ 52) = false →
        (∀ g ∈ killed.host.grants, g.asid ≠ asid) → Answers .ctxfree s mb 0 [] (killed.freeContext asid)) ∧
      (s.Serves 0x02 mb → killed.contextBusy asid = true → exec .ctxfree s = .next killed) ∧
      (s.Serves 0x03 mb → Answers .kill s mb 0 [] killed) ∧
      (s.Serves 0x04 mb →
        let g : W256 := w 6 ++ w 5 ++ w 4 ++ w 3
        ((w 2).toNat ≤ 7 → rangeAllowed (s.partitionOf asid) g = true → Answers .rangeset s mb 0 []
          (s.putSystem (s.ctxEntry asid + 0x100 + 32 * (w 2).toNat) (leBytes 32 g.toNat))) ∧
        (7 < (w 2).toNat ∨ rangeAllowed (s.partitionOf asid) g = false → Answers .rangeset s mb 0x20 [] s)) ∧
      (s.Serves 0x05 mb →
        let code := ((w 4).extractLsb' 4 2).toNat
        let mem := ((w 4).extractLsb' 8 2).toNat
        let size := 2 ^ sizeLog code
        (w 4).extractLsb' 10 54 = 0 → (w 4).extractLsb' 6 2 = 0 → (w 4).getLsbD 3 = false → code ≠ 3 → mem < 2 →
        (mem = 1 → (w 5).toNat % size = 0 ∧ (w 5).toNat + (w 3).toNat ≤ 2 ^ 52) →
        (w 3).toNat ≠ 0 → (w 2).toNat % size = 0 → (w 3).toNat % size = 0 → (w 2).toNat + (w 3).toNat ≤ 2 ^ 52 →
        s.leavesIn asid (w 2).toNat ((w 2).toNat + (w 3).toNat) ((w 3).toNat / 65536) = [] →
        ∀ t, s.mapPages asid (w 2).toNat code (pteFlags ((w 4).getLsbD 0) ((w 4).getLsbD 1) ((w 4).getLsbD 2) (mem = 1))
            (if mem = 1 then some (w 5).toNat else none) ((w 3).toNat / size) = some t →
          Answers .map s mb 0 [BitVec.ofNat 64 ((w 3).toNat / size)] t) ∧
      (s.Serves 0x06 mb → ∀ leaves, leaves = s.leavesIn asid (w 2).toNat ((w 2).toNat + (w 3).toNat) ((w 3).toNat / 65536) →
        (w 2).toNat % 65536 = 0 → (w 3).toNat % 65536 = 0 → (w 3).toNat ≠ 0 → (w 2).toNat + (w 3).toNat ≤ 2 ^ 52 →
        (∀ l ∈ leaves, (w 2).toNat ≤ l.1 ∧ l.1 + 2 ^ l.2.1 ≤ (w 2).toNat + (w 3).toNat) →
        (∀ g ∈ s.host.grants, g.inExtent asid (w 2).toNat (w 3).toNat = false) →
        s.probedIn asid.toNat (w 2).toNat (w 3).toNat = false →
        Answers .unmap s mb 0 [] ((leaves.foldl (fun s l => s.clearLeaf asid l) s).inval asid.toNat (w 2).toNat (w 3).toNat true)) ∧
      (s.Serves 0x08 mb → ∀ qid t a u, s.chooseFrom ((List.range 4096).filter fun q => SMap.get none s.queues q == none) = some (qid, t) →
        t.takeSystem asid 256 = some (a, u) → s.ctxState asid = 1 →
        let v := u.putSystem a (qcbImage (s.hostRead (w 2).toNat 256) mb qid asid)
        v.qcbOk a = true → ∃ x, Answers .regq s mb 0 [BitVec.ofNat 64 qid] x ∧ x.mem = v.mem ∧
          x.queues = SMap.set none v.queues qid (some { qcb := a, part := mb, since := v.time }) ∧
          SMap.get none s.queues qid = none ∧
          (v.memNat (a + 0x10) 8 < v.memNat (a + 0x18) 8 → SMap.get false x.pendingQ qid = true))) ∧
    (s.Serves 0x09 mb → ∀ r, SMap.get none s.queues (w 1).toNat = some r → r.part = mb →
      let held := (List.range 64).any fun n => (s.slot n).state != .unbound && (s.slot n).qid == (w 1).toNat
      (SMap.get false s.pendingQ (w 1).toNat = true ∨ held = true → Answers .deregq s mb 0x24 [] s) ∧
      (SMap.get false s.pendingQ (w 1).toNat = false → held = false → Answers .deregq s mb 0 []
        { s with queues := SMap.set none s.queues (w 1).toNat none, taken := s.taken.filter fun t => t.base ≠ r.qcb }))

/-- 17 R416 to R423, R426 to R435: op lists and code objects placed, data objects, migration, bundling and eviction. -/
def Obligations.LoaderEvents : Prop :=
  ∀ (s : State) (mb : Nat) (asid : BitVec 16),
    let w := s.operand mb
    s.ownContext mb (w 1) = .ok asid →
      (s.Serves 0x10 mb → s.badAccount asid = false →
        (s.readVa asid (w 2).toNat 128 = none → Answers .place s mb 1 [] s) ∧
        (∀ h l, s.readVa asid (w 2).toNat 128 = some h → s.readVa asid (w 2).toNat (opListSize h) = some l →
          (opListGood l = false ∨ stagesOk l = false → Answers .place s mb 1 [] s) ∧
          (opListGood l = true → stagesOk l = true →
            (∀ e, s.grantErrata mb ((List.range (fieldOf l 0x28 2)).map fun i => fieldOf l (0x40 + 2 * i) 2) = .error e →
              Answers .place s mb e [] s) ∧
            (∀ t u v, s.grantErrata mb ((List.range (fieldOf l 0x28 2)).map fun i => fieldOf l (0x40 + 2 * i) 2) = .ok t →
              t.bindFabric mb ((List.range (fieldOf l 0x2A 2)).map fun i => fieldOf l (0x60 + 2 * i) 2) = some u →
              u.placeList asid l = some v → Answers .place s mb 0 [] v)))) ∧
      (s.Serves 0x11 mb → ∀ h, s.readVa asid (w 2).toNat 64 = some h → fieldOf h 0 4 = 0x5A434F44 → fieldOf h 0x32 2 < 2 →
        fieldOf h 0x34 12 = 0 →
        (fieldOf h 4 4 ≠ deviceStepping → Answers .loadobj s mb 7 [] s) ∧
        (fieldOf h 4 4 = deviceStepping → s.badAccount asid = true → Answers .loadobj s mb 9 [] s) ∧
        (∀ code image desc t, fieldOf h 4 4 = deviceStepping → s.badAccount asid = false →
          (if fieldOf h 0x1C 4 = 0 then some [] else s.readVa asid ((w 2).toNat + fieldOf h 0x18 4) (fieldOf h 0x1C 4)) = some code →
          (if fieldOf h 0x24 4 = 0 then some [] else s.readVa asid ((w 2).toNat + fieldOf h 0x20 4) (fieldOf h 0x24 4)) = some image →
          s.readVa asid ((w 2).toNat + fieldOf h 0x28 4) 160 = some desc →
          s.placeObject asid (fieldOf h 8 16) (fieldOf h 0x30 2) (fieldOf h 0x32 2) desc image code.length (fun _ => code) = some t →
          Answers .loadobj s mb 0 [] t)) ∧
      (s.Serves 0x12 mb → 0 < (w 3).toNat → (w 3).toNat < 2 ^ 48 → (w 2).toNat + (w 3).toNat ≤ 2 ^ 57 →
        (∀ o ∈ s.objMap asid, (o.vbase + o.size ≤ (w 2).toNat ∨ (w 2).toNat + (w 3).toNat ≤ o.vbase) ∧ (o.kind = 1 → o.id ≠ (w 4).toNat)) →
        ((s.objMap asid).length < 4096 → Answers .regobj s mb 0 []
          (s.putObjects asid (insertObj ⟨(w 2).toNat, (w 3).toNat, 1, (w 4).toNat⟩ (s.objMap asid)))) ∧
        (4096 ≤ (s.objMap asid).length → Answers .regobj s mb 0x22 [] s)) ∧
      (s.Serves 0x13 mb → (∃ o ∈ s.objMap asid, o.kind = 1 ∧ o.id = (w 2).toNat) → Answers .unregobj s mb 0 []
        (s.putObjects asid ((s.objMap asid).filter fun o => !(o.kind == 1 && o.id == (w 2).toNat)))) ∧
      (s.Serves 0x14 mb → (∀ k ∈ s.coresOf asid, (s.core k).saved = true) →
        ∀ x l, s.suspendedOf asid = x :: l → s.launchHash x.1 ≠ 0 →
        (∀ y ∈ x :: l, s.imageMigrates y.2.1 = true ∧ s.launchHash y.1 = s.launchHash x.1) →
        let record := migrationRecord (s.launchHash x.1) ((x :: l).map fun y => s.imageBytes y.2.1)
        s.systemRun (w 2).toNat record.length = true → Answers .migout s mb 0 [] (s.putSystem (w 2).toNat record)) ∧
      (s.Serves 0x15 mb →
        let a := (w 2).toNat
        let hash := s.memNat (a + 8) 16
        ∀ slot t, ((List.range 64).find? fun k => (s.slot k).asid == asid && (s.slot k).launch.isSome && s.launchHash k == hash) = some slot →
          s.systemRun a 64 = true → s.memNat a 4 = 0x4856584D → s.memNat (a + 0x28) 24 = 0 → hash ≠ 0 →
          (∃ q ∈ s.fnsOf asid, q.2.hash = hash) →
          (List.range (s.memNat (a + 4) 4)).foldl (fun o i => o.bind fun t =>
            t.migrateItem asid slot (s.memBytes a (64 + s.memNat (a + 0x20) 8)) i) (some s) = some t →
          Answers .migin s mb 0 [] t) ∧
      (∀ fn f h entry t, asid.toNat ≤ 1023 → fn ≤ 65535 → SMap.get none s.fns (fnKey asid fn) = some f →
        SMap.get none s.heaps asid.toNat = some h → f.state = .bundling →
        let p := s.profile (s.ctxPart asid)
        let size := Config.bundledSize f.hash f.index p
        s.chooseFrom (s.heapRoom asid h size 4) = some (entry, t) →
        let g := { f with state := .placed, entry := entry, size := size, waiting := [], full := false }
        exec (.bundlingComplete asid.toNat fn) s = .next
          (((t.setFn (fnKey asid fn) g).writeCode asid entry ((List.range size).map (Config.bundledByte f.hash f.index p entry))).setStub
            asid g true)) ∧
      (∀ fn f, asid.toNat ≤ 1023 → fn ≤ 65535 → SMap.get none s.fns (fnKey asid fn) = some f → f.state = .evicting →
        s.codeFree asid f = true → (∀ p ∈ s.patches, p.asid = asid → p.va ≠ f.stub + 8) →
        exec (.codeEvict asid.toNat fn) s = .next (s.setFn (fnKey asid fn) { f with state := .unplaced, entry := 0, size := 0 }))

/-- 13 R348, 15 R396 to R405: the requests about heaps, and the steps of a relocation engine. -/
def Obligations.HeapEvents : Prop :=
  ∀ (s : State) (mb : Nat),
    let w := s.operand mb
    (s.Serves 0x18 mb →
      let a := (w 1).toNat
      (a % 128 ≠ 0 → Answers .heapstart s mb 0x20 [] s) ∧
      (a % 128 = 0 → s.systemRun a 128 = true → s.setOwned mb a = true →
        let r := s.relocStart (s.setDie a) a
        Answers .heapstart s mb 0 [(r.2.reloc (s.setDie a)).status r.1] r.2)) ∧
    (s.Serves 0x19 mb → (w 1).toNat < 4 → Answers .heapquery s mb 0 [(s.reloc (w 1).toNat).status 0] s) ∧
    (s.Serves 0x1A mb → (w 1).toNat < 4 → s.ctxPart (s.reloc (w 1).toNat).asid = mb →
      let r := s.relocAbort (w 1).toNat
      Answers .heapabort s mb 0 [(r.2.reloc (w 1).toNat).status r.1] r.2) ∧
    (∀ asid, s.ownContext mb (w 1) = .ok asid → (w 2).toNat < 8 →
      let h := s.hcbAddr asid (w 2).toNat
      (s.Serves 0x1B mb → (s.mailbox mb).phase = 0 → s.ctxState asid = 1 →
        (s.memNat h 1 ≠ 3 → Answers .heappub s mb 0x24 [] s) ∧
        (s.memNat h 1 = 3 → exec .heappub s = .next ((s.publishHeap asid (w 2).toNat).setPhase mb 1))) ∧
      (s.Serves 0x1B mb → (s.mailbox mb).phase ≠ 0 → (∀ k ∈ s.coresOf asid, ∀ q ∈ (s.core k).recolors, q.1 ≠ (w 2).toNat) →
        Answers .heappub s mb 0 [] (s.memPut h 1 4)) ∧
      (s.Serves 0x1C mb →
        (s.memNat h 1 ≠ 4 → Answers .heapfree s mb 0x24 [] s) ∧
        (s.memNat h 1 = 4 → Answers .heapfree s mb 0 [] (s.freeHeap asid (w 2).toNat)))) ∧
    (∀ die, let r := s.reloc die
      (r.state = 1 → r.paused = false → r.move = none → r.page = none →
        let e := s.setEntry r.list r.next
        ∀ fca tca pa, s.managedAt r.asid r.heap die e.1 = some fca → s.managedAt r.asid r.heap die e.2 = some tca →
          s.homePa r.asid fca = some pa →
          let x : W64 := BitVec.ofNat 64 (s.memNat pa 8)
          let n := max 1 ((16 * (x.extractLsb' 0 32).toNat + 127) / 128)
          (pinCount x ≠ 0 ∨ x.getLsbD 63 = true → exec (.objectClaim die) s = .next (s.skipObject die r)) ∧
          (pinCount x = 0 → x.getLsbD 63 = false → s.extentOk r die e.1 n = true → s.extentOk r die e.2 n = true →
            exec (.objectClaim die) s = .next ((s.engineWrite fca.toNat pa (leBytes 8 (x ||| 0x4000000000000000).toNat)).setReloc die
              { r with move := some { index := r.next, fromVa := e.1, toVa := e.2, fromCa := fca.toNat, toCa := tca.toNat, lines := n } }))) ∧
      (∀ m, r.move = some m →
        (r.paused = false → m.read < m.lines → m.read < m.copied + 16 → ∃ t, exec (.lineMoveRead die) s = .next t ∧
          let ca := s.moveLine r die m m.read
          t.reloc die = { r with move := some { m with read := m.read + 1 } } ∧ t.mem = s.mem ∧
          (SMap.get none t.moves (ca.1 / 128)).map LineMove.copied = some false ∧
          ∀ l, l ≠ ca.1 / 128 → SMap.get none t.moves l = SMap.get none s.moves l) ∧
        (m.copied < m.read →
          let ca := s.moveLine r die m m.copied
          (∀ pa, s.movePas r ca m.copied = some pa → exec (.lineMoveCopied die) s = .next
            ((s.copyLine r ca pa (m.copied = 0 && r.page.isNone)).setReloc die { r with move := some { m with copied := m.copied + 1 } }))) ∧
        (m.lines ≤ m.copied → r.page = none →
          let h := s.hcbAddr r.asid r.heap
          let u := s.insertFwd (s.memNat (h + 8) 8) (2 ^ s.memNat (h + 4) 1) m.fromVa m.toVa
            (fhash (BitVec.ofNat 57 m.fromVa) (s.memNat (h + 4) 1)) (2 ^ s.memNat (h + 4) 1)
          ∀ pa, u.homePa r.asid (BitVec.ofNat 52 m.fromCa) = some pa →
            let x : W64 := BitVec.ofNat 64 (u.memNat pa 8)
            exec (.publish die) s = .next ((u.memPut pa 8 ((x &&& 0x3FFFFFFFFFFFFFFF) ||| 0x8000000000000000).toNat).putReloc die
              { r with done := r.done + 1 }.advance)) ∧
        (m.lines ≤ m.copied → ∀ page, r.page = some page →
          exec (.publish die) s = .next ((s.settlePage r page.1 page.2).putReloc die { r with done := r.done + 1 }.advance))))

/-- 10 R303, R308 to R312, 13 R348, 18 R441, R442: the requests of a driver's tools and of a debugger. -/
def Obligations.DebugRequests : Prop :=
  ∀ (s : State) (mb : Nat),
    let w := s.operand mb
    (s.Serves 0x20 mb → (w 1).extractLsb' 0 44 = 0 → (w 3).toNat < 4 → (w 6 ++ w 5 ++ w 4 : BitVec 192).extractLsb' 144 48 = 0 →
      ∀ asid, s.ownContext mb (((w 1).extractLsb' 48 16).zeroExtend 64) = .ok asid →
        ∃ t, Answers .capture s mb 0 [] t ∧ t.mem = s.mem ∧
          ∀ k, t.core k = if 144 * (w 3).toNat ≤ k ∧ k < 144 * (w 3).toNat + 144 ∧
              (w 6 ++ w 5 ++ w 4 : BitVec 192).getLsbD (k - 144 * (w 3).toNat) = true
            then { s.core k with acct := { (s.core k).acct with
              packets := (s.core k).acct.packets ++ [⟨w 2, asid, (w 1).extractLsb' 46 2, (w 1).extractLsb' 44 2⟩] } }
            else s.core k) ∧
    (s.Serves 0x21 mb → (w 1).toNat < 4 → (w 2).toNat < 144 → (w 3).toNat < 4 → (w 4).extractLsb' 18 30 = 0 →
      (s.debugLevel mb < 2 → Answers .regionbp s mb 0x21 [] s) ∧
      (2 ≤ s.debugLevel mb → ((w 4).extractLsb' 48 16 = 0 ∨ s.ctxPart ((w 4).extractLsb' 48 16) = mb) →
        Answers .regionbp s mb 0 [] (s.modCore (144 * (w 1).toNat + (w 2).toNat) fun c =>
          { c with hooks := { c.hooks with regionBp := SMap.set 0 c.hooks.regionBp (w 3).toNat (w 4) } }))) ∧
    (∀ asid, s.Serves 0x22 mb → s.ownContext mb (w 1) = .ok asid →
      let named := fun (f : Core → Core) => (s.maskedCores asid (w 3)).foldl (fun s k => s.modCore k f) s
      (s.debugLevel mb < 2 → w 2 = 0 → Answers .halt s mb 0x21 [] s) ∧
      (2 ≤ s.debugLevel mb →
        (w 2 = 0 → Answers .halt s mb 0 [] (named fun c => { c with hooks := { c.hooks with haltRequest := true } })) ∧
        (w 2 = 1 → Answers .continueRun s mb 0 [] (named fun c => c.unhalt s.time)) ∧
        (w 2 = 2 → Answers .stepToEdge s mb 0 [] (named fun c =>
          if c.cr.halt then { c.unhalt s.time with hooks := { c.hooks with haltRequest := true } } else c)) ∧
        (w 2 = 3 → Answers .stepBundle s mb 0 [] (named fun c =>
          if c.cr.halt then { c.unhalt s.time with hooks := { c.hooks with stepBundle := true } } else c)))) ∧
    (∀ asid t, s.Serves 0x23 mb → (s.mailbox mb).phase ≠ 1 → 2 ≤ s.debugLevel mb → (w 2).toNat % 4 = 0 → (w 2).toNat < 2 ^ 57 →
      s.ownContext mb (w 1) = .ok asid → s.partCores mb ≠ [] →
      (w 3 = 0 → s.patchHeader mb asid (w 2).toNat true = some t → exec .patchSet s = .next (t.setPhase mb 1)) ∧
      (w 3 = 1 → s.patchHeader mb asid (w 2).toNat false = some t → exec .patchClear s = .next (t.setPhase mb 1))) ∧
    (s.Serves 0x28 mb →
      let mine := fun n => s.memNat (s.recordAt n + 0x13) 1 % 32 == functionOf mb
      (s.findRecord (w 1).toNat mine = none → Answers .logread s mb 0 [BitVec.ofNat 64 (2 ^ 63 + s.logSeq)] s) ∧
      (∀ n, s.findRecord (w 1).toNat mine = some n →
        Answers .logread s mb 0 [BitVec.ofNat 64 n] (s.hostWrite (w 2).toNat (s.memBytes (s.recordAt n) 64))))

/-- 14 R357, 18 R451, R453, R459, 19 R472, R479, 20 R486, R490 to R496: the requests of the upstream function's driver, attestation,
debug attachment and ownership. -/
def Obligations.AdminRequests : Prop :=
  ∀ (s : State) (mb : Nat),
    let w := s.operand mb
    let b := s.hostRead (w 1).toNat 192
    (∀ p, s.Serves 0x40 mb → (w 1).toNat < 16 → partitionOfBytes (s.hostRead (w 2).toNat 256) = some p →
      let others := s.parts.filterMap fun q => if q.1 = (w 1).toNat then none else q.2
      (fieldOf (s.hostRead (w 2).toNat 256) 1 1 % 2 = 1 →
        (p.admitted others = true → Answers .partset s mb 0 [] { s with parts := SMap.set none s.parts (w 1).toNat (some p) }.refreshDbg) ∧
        (p.admitted others = false → Answers .partset s mb 0x20 [] s)) ∧
      (fieldOf (s.hostRead (w 2).toNat 256) 1 1 % 2 = 0 →
        Answers .partset s mb 0 [] { s with parts := SMap.set none s.parts (w 1).toNat none }.refreshDbg)) ∧
    (s.Serves 0x41 mb → (w 1).toNat < 4 → 100 ≤ ((w 2).extractLsb' 32 32).toNat → ((w 2).extractLsb' 32 32).toNat ≤ 600000 →
      1 ≤ ((w 2).extractLsb' 16 16).toNat → ((w 2).extractLsb' 16 16).toNat ≤ 1000 → (w 2).extractLsb' 1 15 = 0 →
      Answers .whorlset s mb 0 [] (s.putSystem (s.bases.whorl + 64 * (w 1).toNat) (leBytes 8 (w 2).toNat))) ∧
    (s.Serves 0x42 mb →
      ((w 1).toNat < 700 ∨ 2400 < (w 1).toNat → Answers .pinlevel s mb 0x20 [] s) ∧
      (700 ≤ (w 1).toNat → (w 1).toNat ≤ 2400 → Answers .pinlevel s mb 0 [] (s.setLevels fun p => { p with pinLevel := (w 1).toNat }))) ∧
    (s.Serves 0x43 mb → (w 1).toNat + (w 2).toNat ≤ wearSize →
      Answers .wearread s mb 0 [] (s.hostWrite (w 3).toNat (s.wearBytes (w 1).toNat (w 2).toNat))) ∧
    (s.Serves 0x44 mb → (w 1).toNat ≤ 0x7FFFF →
      (s.link.devId.isSome = true → (∃ n, n < 18 ∧ (s.link.port n).locked = true ∧ (s.link.port n).down = false) →
        Answers .setid s mb 0x24 [] s) ∧
      ((∀ n, n < 18 → (s.link.port n).locked = false) →
        Answers .setid s mb 0 [] { s with link := { s.link with devId := some ((w 1).extractLsb' 0 20) } })) ∧
    (s.Serves 0x45 mb → (w 3).toNat < 2 ^ 18 →
      (w 1 = 0 → (w 2).toNat < 4096 → Answers .routeset s mb 0 [] { s with link := { s.link with
        mainRoutes := SMap.set 0 s.link.mainRoutes (w 2).toNat ((w 3).extractLsb' 0 18) } }) ∧
      (w 1 = 1 → (w 2).toNat < 256 → Answers .routeset s mb 0 [] { s with link := { s.link with
        localRoutes := SMap.set 0 s.link.localRoutes (w 2).toNat ((w 3).extractLsb' 0 18) } })) ∧
    (s.Serves 0x46 mb → 0x80000 ≤ (w 1).toNat → (w 1).toNat ≤ 0xFFFFF → (w 3).toNat ≤ 1024 →
      let members := (List.range (w 3).toNat).map fun i => leNat (s.hostRead ((w 2).toNat + 4 * i) 4)
      (∀ m ∈ members, m ≤ 0x7FFFF) → (SMap.get [] s.link.groups (w 1).toNat ≠ [] ∨ s.link.groups.length < 256) →
      Answers .groupset s mb 0 [] { s with link := { s.link with
        groups := SMap.set [] s.link.groups (w 1).toNat members
        fenced := s.link.fenced.filter fun f => f.1 ≠ (w 1).toNat
        heard := members.foldl (fun h m => SMap.set 0 h (2 ^ 20 * (w 1).toNat + m) s.time) s.link.heard } }) ∧
    (s.Serves 0x47 mb → (w 1).toNat < 16 → (w 2).toNat < 64 → (w 3).toNat ≤ 0x7FFFF → (w 3).toNat + (w 4).toNat ≤ 0x80000 →
      Answers .importEntry s mb 0 [] { s with link := { s.link with
        imports := SMap.set (0, 0) s.link.imports (64 * (w 1).toNat + (w 2).toNat)
          (if (w 4).toNat = 0 then (0, 0) else ((w 3).toNat, (w 4).toNat)) } }) ∧
    (s.Serves 0x30 mb → Answers .attest s mb 0 []
      (s.hostWrite (w 5).toNat (s.report (if mb = 16 then 0xFF else mb) (w 4 ++ w 3 ++ w 2 ++ w 1)))) ∧
    (s.Serves 0x31 mb → ∃ x : BitVec 256, Answers .dbgchal s mb 0
      [x.extractLsb' 0 64, x.extractLsb' 64 64, x.extractLsb' 128 64, x.extractLsb' 192 64]
      { s with free := s.free + 1, sec := { s.sec with challenge := some (x, s.time) } }) ∧
    (s.Serves 0x32 mb → recordShape b 0x32 false = true →
      let level := fieldOf b 5 1
      let part := fieldOf b 6 1
      (1 ≤ level → level ≤ 2 → part < 16 →
        (s.sec.lifecycle.allows level = false → Answers .dbgattach s mb 0x21 [] s) ∧
        (s.sec.lifecycle.allows level = true → (mb = 16 ∨ part = mb) →
          (fieldOf b 4 1 ≠ 0 ∨ s.recordSigned b = false → Answers .dbgattach s mb 0x23 [] s.useChallenge) ∧
          (fieldOf b 4 1 = 0 → s.recordSigned b = true → Answers .dbgattach s mb 0 []
            { s.useChallenge with sec := { s.useChallenge.sec with level := SMap.set 0 s.sec.level part level } }.refreshDbg))) ∧
      (level = 3 → part = 0xFF → s.sec.lifecycle.allows 3 = true → (fieldOf b 4 1 = 1 ∨ fieldOf b 4 1 = 2) → s.recordSigned b = true →
        Answers .dbgattach s mb 0 [] { s.useChallenge with sec := { s.useChallenge.sec with d3 := true } }.refreshDbg)) ∧
    (s.Serves 0x33 mb → (w 1).toNat < 16 → (mb = 16 ∨ (w 1).toNat = mb) →
      Answers .dbgdetach s mb 0 [] ({ s with sec := { s.sec with level := SMap.set 0 s.sec.level (w 1).toNat 0 } }.refreshDbg).releaseHalts) ∧
    (fieldOf b 5 1 = 0 → fieldOf b 6 1 = 0xFF → s.recordSigned b = true →
      let u := s.useChallenge
      (s.Serves 0x48 mb → recordShape b 0x48 true = true → s.sec.lifecycle = .production → s.sec.ownerKey = none → fieldOf b 4 1 = 3 →
        Answers .claim s mb 0 [] (u.newOwner b)) ∧
      (s.Serves 0x49 mb → recordShape b 0x49 true = true → s.sec.lifecycle = .production → s.sec.ownerKey.isSome = true →
        fieldOf b 4 1 = 0 → Answers .transfer s mb 0 [] (u.newOwner b)) ∧
      (s.Serves 0x4A mb → recordShape b 0x4A false = true → s.sec.lifecycle = .production → s.sec.ownerKey.isSome = true →
        fieldOf b 4 1 = 0 → Answers .returnPkg s mb 0 [] (u.keyWipe.setLifecycle .returned)) ∧
      (s.Serves 0x4B mb → recordShape b 0x4B false = true →
        (s.sec.lifecycle = .production ∧ s.sec.ownerKey.isSome = true ∧ fieldOf b 4 1 = 0 ∨
          s.sec.lifecycle = .returned ∧ (fieldOf b 4 1 = 1 ∨ fieldOf b 4 1 = 2)) →
        Answers .retire s mb 0 [] (u.setLifecycle .retired)))

/-- 13 R346, R347, 14 R377 to R379: mailboxes, the grants of unified pages, and accesses through the aperture. -/
def Obligations.HostEvents : Prop :=
  ∀ s : State,
    (∀ mb (value : BitVec 32), mb < 17 →
      let m := s.mailbox mb
      (m.busy = true → exec (.mailboxRing mb value) s = .next (s.hostDropped (functionOf mb) 4 0 value.toNat)) ∧
      (m.busy = false → value ≠ 1 → exec (.mailboxRing mb value) s = .next s) ∧
      (m.busy = false → value = 1 → s.host.queue = [] →
        let taken := { m with taken := m.req, busy := true, done := false, phase := 0 }
        requestOk mb taken = true →
        exec (.mailboxRing mb value) s = .next { s.setMailbox mb taken with host := { (s.setMailbox mb taken).host with queue := [mb] } })) ∧
    (∀ mb o vals, vals.length ≤ 7 →
      let t := s.putResponse mb o vals
      (t.mailbox mb).busy = false ∧ (t.mailbox mb).done = true ∧ (t.mailbox mb).req = (s.mailbox mb).req ∧
        SMap.get 0 (t.mailbox mb).resp 0 = (BitVec.ofNat 32 o ++ ((s.mailbox mb).word 0).extractLsb' 32 32 : W64) ∧
        t.host.msix = s.host.msix ++ [(functionOf mb, 0)] ∧ t.mem = s.mem) ∧
    (∀ value : W64,
      exec (.registerWrite .ctxBase value) s = .next { s with bases := { s.bases with ctx := value.toNat } } ∧
      exec (.registerWrite .hcbBase value) s = .next { s with bases := { s.bases with hcb := value.toNat } } ∧
      exec (.registerWrite .lcmapBase value) s = .next { s with bases := { s.bases with lcmap := value.toNat } } ∧
      exec (.registerWrite .logBase value) s = .next { s with bases := { s.bases with log := value.toNat } } ∧
      exec (.registerWrite .whorlBase value) s = .next { s with bases := { s.bases with whorl := value.toNat } } ∧
      ∀ mb word, exec (.registerWrite (.mailboxReq mb word) value) s =
        .next (s.setMailbox mb { s.mailbox mb with req := SMap.set 0 (s.mailbox mb).req word value })) ∧
    (∀ m rest, s.host.vendorIn = m :: rest →
      let u := { s with host := { s.host with vendorIn := rest } }
      let dw := fun i => m.dws.getD i 0
      (m.word.extractLsb' 24 8 = 1 →
        let asid := (dw 0).extractLsb' 16 16
        let n := ((dw 3).extractLsb' 0 16).toNat
        let head := fun (n : Nat) => BitVec.ofNat 32 (((dw 0).extractLsb' 0 16).toNat + n * 65536)
        (64 < n → exec .xlateReq s = .next (u.sendVendor m.part 2 (head 64 :: List.replicate 64 0))) ∧
        (n ≤ 64 → asid.toNat < 1024 → s.ctxState asid = 1 → s.ctxPart asid = m.part →
          let r := u.grantPages m.part asid ((dw 1).toNat + (dw 2).toNat * 2 ^ 32) ((dw 3).getLsbD 16) ((dw 3).getLsbD 17) n
          exec .xlateReq s = .next (r.2.sendVendor m.part 2 (head n :: r.1)))) ∧
      (m.word.extractLsb' 24 8 = 4 → ∀ r, (s.host.revokes.find? fun r => r.tag == ((dw 0).extractLsb' 0 16).toNat && r.part == m.part) = some r →
        exec .revokeAck s = .next (u.dropGrants r))) ∧
    (∀ r rest, s.host.revokes = r :: rest → ∃ t, exec .revokeTimeout s = .next t ∧ r.sent + 10000000 ≤ t.time ∧
      t.host.grants = s.host.grants.filter (fun g => !r.names g) ∧ t.logSeq = s.logSeq + 1) ∧
    (∀ part offset g, part < 16 →
      (s.host.grants.find? fun g => g.part == part && g.index == offset / 65536) = some g →
      let ca := g.ca + offset % 65536
      (∀ ps u, offset % 65536 + 8 ≤ 65536 → g.r = true → s.pieces g.asid (BitVec.ofNat 52 ca) .r false 8 = (.ok ps, u) → ps.any Piece.isHeld = false →
        exec (.hostAccess part offset none) s = .next (u.hostReply (some (ps.flatMap fun p => u.placeBytes p.place p.len)))) ∧
      (∀ bs ps u, 0 < bs.length → offset % 65536 + bs.length ≤ 65536 → g.w = true →
        s.pieces g.asid (BitVec.ofNat 52 ca) .w false bs.length = (.ok ps, u) → ps.any Piece.isHeld = false →
        exec (.hostAccess part offset (some bs)) s = .next (u.homeWrite g.asid none ca ps bs))) ∧
    (∀ part offset, part < 16 → offset % 65536 + 8 ≤ 65536 →
      (s.host.grants.find? fun g => g.part == part && g.index == offset / 65536) = none → ∃ t, exec (.hostAccess part offset none) s = .next t ∧
        t.host.reads = s.host.reads ++ [none] ∧ t.logSeq = s.logSeq + 1)

/-! ### The scale-out engine -/

/-- 07 R228, R233, 14 R363, 18 R450 to R459: ports, control messages, requests of other packages, responses, heartbeats, probes and
timeouts. -/
def Obligations.LinkEvents : Prop :=
  ∀ s : State,
    let k := s.link
    (∀ port, port < 18 → (k.port port).locked = false → (k.port port).down = false →
      exec (.pcsLock port) s = .next { s with link := k.setPort port { k.port port with locked := true, control := some (k.initUnit port) } }) ∧
    (∀ port (f : Flit), port < 18 → (k.port port).locked = true →
      (flitCrc f ≠ f.extractLsb' 2016 32 → exec (.flit port f) s = .next
        { s with link := k.setPort port { k.port port with control := some (nakUnit (k.port port).rxSeq) } }) ∧
      (flitCrc f = f.extractLsb' 2016 32 →
        (f.extractLsb' 0 8 = 0 → exec (.flit port f) s = .next { s with link := k.setPort port ((k.port port).credit f s.time) }) ∧
        (f.extractLsb' 0 8 = 1 → k.devId.isSome = true →
          let p := (k.port port).credit f s.time
          let r := takeMessages (p.rxUnits ++ (List.range 14).map (flitPayload f)).length.succ (p.rxUnits ++ (List.range 14).map (flitPayload f))
          ((f.extractLsb' 16 12).toNat = p.rxSeq → ∃ t, exec (.flit port f) s = .next t ∧
            t.link.port port = { p with rxSeq := (p.rxSeq + 1) % 4096, rxUnits := r.2 } ∧
            t.link.inbox = k.inbox ++ r.1.map fun m => (port, m)) ∧
          ((f.extractLsb' 16 12).toNat ≠ p.rxSeq → ∃ t, exec (.flit port f) s = .next t ∧
            t.link.port port = { p with control := some (nakUnit p.rxSeq) } ∧ t.link.inbox = k.inbox)))) ∧
    (∀ port u rest, k.controls = (port, u) :: rest →
      let t := { s with link := { k with controls := rest } }
      (u.extractLsb' 0 8 = 1 → ∃ v, exec .init s = .next v ∧ (v.link.port port).peer = some (u.extractLsb' 32 20, u.getLsbD 56)) ∧
      (u.extractLsb' 0 8 = 2 → ((k.port port).replay.any fun r => r.1 == (u.extractLsb' 32 12).toNat) = true → exec .nak s = .next
        ((t.wearAdd (wearPort port + 4) 4 1).logCorr (600 + port) 0x0003 31 (4 * 256 + port) 0)) ∧
      (u.extractLsb' 0 8 = 3 → exec .retrain s = .next t)) ∧
    (∀ port m t, (∀ mt, s.takeMessage mt = some (port, m, t) → t.admits m = false →
        (mt = mtRead → exec .read s = .next (t.answerError m 1)) ∧
        (mt = mtWrite → k.fencedWriter m = true → exec .write s = .next (t.logFenced m.src.toNat))) ∧
      (∀ ps u, t.admits m = true → k.fencedWriter m = false → ps.any Piece.isHeld = false →
        let asid := m.rasid.zeroExtend 16
        let line := BitVec.ofNat 52 (m.ca.toNat / 128 * 128)
        let grain := BitVec.ofNat 52 (m.ca.toNat / 16 * 16)
        (s.takeMessage mtRead = some (port, m, t) → t.pieces asid line .r false 128 = (.ok ps, u) →
          exec .read s = .next (u.answer m fun r =>
            { r with
              mtype := mtRdata, mask := u.piecePoison ps, poison := u.piecePoison ps ≠ 0
              units := unitsOf (ps.flatMap fun p => u.placeBytes p.place p.len) })) ∧
        (s.takeMessage mtWrite = some (port, m, t) → t.pieces asid grain .w false (16 * m.units.length) = (.ok ps, u) →
          exec .write s = .next (u.farWrite { m with ca := grain } ps)) ∧
        (s.takeMessage mtBcst = some (port, m, t) → t.pieces asid grain .w false (16 * m.units.length) = (.ok ps, u) →
          exec .bcstMessage s = .next (u.farWrite { m with ca := grain } ps)) ∧
        (∀ op, s.takeMessage mtAtomic = some (port, m, t) → amoOfCode (m.op.extractLsb' 0 4).toNat = some op →
          let size := if m.op.getLsbD 4 then 3 else 2
          t.pieces asid m.ca .rw false (2 ^ size) = (.ok ps, u) →
          let r := u.amoStep asid none ps op (BitVec.ofNat 2 size) m.arg ((m.units.headD 0).extractLsb' 0 64)
          exec .atomic s = .next (if r.2.1 then r.2.2.answerError m 3 else r.2.2.answer m fun a => { a with mtype := mtAreply, arg := r.1 })) ∧
        (s.takeMessage mtRedc = some (port, m, t) → t.pieces asid line .rw false 128 = (.ok ps, u) →
          ((ps.any fun p => u.placePoison p.place) = true → exec .redcMessage s = .next (u.answerError m 3)) ∧
          ((ps.any fun p => u.placePoison p.place) = false → exec .redcMessage s = .next
            ((u.redcStep asid none ps (m.op.extractLsb' 0 2) (m.fmt.extractLsb' 0 6) (bytesOf m.units) (m.mask != 0)).answer m
              fun r => { r with mtype := mtWack }))))) ∧
    (∀ m r t, (s.takeResponse mtRdata = some (m, none, t) → exec .rdata s = .next t) ∧
      (∀ id i l size sgn, s.takeResponse mtRdata = some (m, some r, t) → r.sink = .landing id → t.landingOf r.core id = some (i, l) →
        l.kind = .load size sgn →
        let off := l.tgt.ca.toNat % 128
        exec .rdata s = .next (t.modCore r.core fun c => c.setLanding i (.replied
          (BitVec.ofNat 64 (leNat (((bytesOf m.units).drop off).take (sizeBytes size))))
          ((granuleParts off (sizeBytes size)).any fun q => m.mask.getLsbD ((off + q.1) / 16))))) ∧
      (∀ seq, s.takeResponse mtWack = some (m, some r, t) → r.sink = .store seq →
        exec .wack s = .next (t.popSent r.core fun e => e.seq == seq)) ∧
      (∀ id i l, s.takeResponse mtAreply = some (m, some r, t) → r.sink = .landing id →
        (t.popSent r.core fun e => e.isAmoOf id).landingOf r.core id = some (i, l) →
        exec .areply s = .next ((t.popSent r.core fun e => e.isAmoOf id).modCore r.core fun c => c.setLanding i (.replied m.arg m.poison))) ∧
      (∀ id i l, s.takeResponse mtError = some (m, some r, t) → r.sink = .landing id →
        let u := t.popSent r.core fun e => e.isAmoOf id
        u.landingOf r.core id = some (i, l) →
        exec .error s = .next (if m.fmt.toNat = 3 then u.modCore r.core fun c => c.setLanding i (.replied 0 true)
          else u.failLanding r.core i l (fatalOfError m.fmt.toNat) l.tgt.va none))) ∧
    (∀ port m t,
      (s.takeMessage mtHeartbeat = some (port, m, t) → exec .heartbeat s = .next { t with link := { t.link with
        heard := SMap.set 0 t.link.heard (2 ^ 20 * m.dst.toNat + m.src.toNat) t.time } }) ∧
      (s.takeMessage mtProbe = some (port, m, t) → exec .probeMessage s = .next (t.answer m fun r => { r with mtype := mtProbeack })) ∧
      (s.takeMessage mtProbeack = some (port, m, t) → exec .probeack s = .next { t with link := { t.link with
        unreachable := t.link.unreachable.filter (· ≠ m.src) } })) ∧
    (∀ id, k.devId = some id →
      let beat := fun (k : Link) (g : Nat × List Nat) => k.multicast (plainMsg mtHeartbeat id (BitVec.ofNat 20 g.1))
      let probe := fun (k : Link) (p : BitVec 20) => (k.send engineFlow (plainMsg mtProbe id p)).getD k
      exec .heartbeatInterval s = .next { s with link := (k.groups.filter fun g => g.2.contains id.toNat).foldl beat k } ∧
      exec .probeInterval s = .next { s with link := k.unreachable.foldl probe k }) ∧
    (∀ port, port < 18 → (k.port port).down = false → (k.port port).replay ≠ [] → k.reqs = [] →
      ∃ t, exec (.portDown port) s = .next t ∧ t.logSeq = s.logSeq + 1 ∧ t.time = max s.time ((k.port port).since + 20000)) ∧
    (∀ port, port < 18 → (k.port port).down = true →
      let u := s.until ((k.port port).since + 1000000)
      let fresh : Port := { locked := true, since := u.time, control := some (u.link.initUnit port) }
      exec (.retrainAttempt port true) s = .next { u.wearAdd (wearPort port) 4 1 with link := u.link.setPort port fresh } ∧
      exec (.retrainAttempt port false) s = .next { u with link := u.link.setPort port { k.port port with since := u.time } }) ∧
    (∀ peer r l, peer < 2 ^ 20 → (k.reqs.filter fun r => r.peer == BitVec.ofNat 20 peer) = r :: l →
      k.unreachable.contains (BitVec.ofNat 20 peer) = false →
      exec (.peerUnreachable peer) s = .next ((s.until (max (l.foldl (fun t q => min t q.sent) r.sent)
        (SMap.get 0 k.answered peer) + 200000)).losePeer (BitVec.ofNat 20 peer))) ∧
    (∀ group peer, (SMap.get [] k.groups group).contains peer = true → k.fenced.contains (group, peer) = false →
      k.devId ≠ some (BitVec.ofNat 20 peer) → k.reqs = [] → ∃ t, exec (.memberFenced group peer) s = .next t ∧
        t.link.fenced = k.fenced ++ [(group, peer)] ∧ t.logSeq = s.logSeq + 1 ∧ t.cores = s.cores)

/-- 00 R2 (the memory that the agents share), with the model's canonical form of it (log 4): every step keeps memory canonical, so that
equal memories are equal data. -/
def Obligations.StepKeepsMemory : Prop :=
  ∀ s t : State, Memory.wf s.mem → step s = .next t → Memory.wf t.mem
end

