-- ==== Sys2Proof/Laws/Store.lean ====
section
/-! SUPPORT. Tables in canonical form: what a read gives after a write, and that every operation keeps the form. -/

namespace Sys2Proof.Machine

section Reads

variable {α : Type}

@[simp] theorem SMap.get_nil (d : α) (a : Nat) : SMap.get d [] a = d := rfl

theorem SMap.get_drop_same (d : α) (m : SMap α) (a : Nat) : SMap.get d (SMap.drop m a) a = d := by
  induction m with
  | nil => rfl
  | cons q l ih =>
    obtain ⟨k, v⟩ := q
    by_cases h : k = a
    · simp [SMap.drop, h] at *; exact ih
    · have h' : ¬ a = k := fun e => h e.symm
      simp [SMap.drop, h, h', SMap.get] at *; exact ih

theorem SMap.get_drop_ne (d : α) (m : SMap α) {a b : Nat} (h : b ≠ a) : SMap.get d (SMap.drop m a) b = SMap.get d m b := by
  induction m with
  | nil => rfl
  | cons q l ih =>
    obtain ⟨k, v⟩ := q
    by_cases hk : k = a
    · subst hk; simp [SMap.drop, SMap.get, h] at *; exact ih
    · simp [SMap.drop, hk, SMap.get] at *
      rw [ih]

theorem SMap.get_append (d : α) (m n : SMap α) (b : Nat) :
    SMap.get d (m ++ n) b = if b ∈ m.map (·.1) then SMap.get d m b else SMap.get d n b := by
  induction m with
  | nil => simp
  | cons q l ih =>
    obtain ⟨k, v⟩ := q
    by_cases h : b = k
    · subst h; simp [SMap.get]
    · have : (b ∈ ((k, v) :: l).map fun x => x.1) ↔ b ∈ l.map fun x => x.1 := by simp [h]
      simp only [List.cons_append, SMap.get, h, if_false, ih]
      by_cases hm : b ∈ l.map fun x => x.1
      · rw [if_pos hm, if_pos (this.mpr hm)]
      · rw [if_neg hm, if_neg (fun e => hm (this.mp e))]

theorem SMap.get_absent (d : α) (m : SMap α) (b : Nat) (h : ∀ q ∈ m, q.1 ≠ b) : SMap.get d m b = d := by
  induction m with
  | nil => rfl
  | cons q l ih =>
    obtain ⟨k, v⟩ := q
    have := h (k, v) (List.mem_cons_self ..)
    simp only [SMap.get]
    rw [if_neg (fun e => this e.symm)]
    exact ih fun q hq => h q (List.mem_cons_of_mem _ hq)

theorem SMap.get_filter (d : α) (m : SMap α) (p : Nat → Bool) (b : Nat) :
    SMap.get d (m.filter fun q => p q.1) b = if p b then SMap.get d m b else d := by
  induction m with
  | nil => simp
  | cons q l ih =>
    obtain ⟨k, v⟩ := q
    by_cases h : b = k
    · subst h
      by_cases hp : p b
      · simp [hp, SMap.get]
      · simp only [List.filter_cons, hp, Bool.false_eq_true, if_false] at *
        exact ih
    · by_cases hk : p k
      · simp only [List.filter_cons, hk, if_true, SMap.get, h, if_false]; exact ih
      · simp only [List.filter_cons, hk, Bool.false_eq_true, if_false, SMap.get, h]; exact ih

end Reads

variable {α : Type} [DecidableEq α]

/-- A read of the key just written. -/
@[simp] theorem SMap.get_set_same (d : α) (m : SMap α) (a : Nat) (x : α) : SMap.get d (SMap.set d m a x) a = x := by
  induction m with
  | nil => by_cases h : x = d <;> simp [SMap.set, h, SMap.get]
  | cons q l ih =>
    obtain ⟨k, v⟩ := q
    simp only [SMap.set]
    split
    · split
      · next hx => rw [SMap.get_drop_same, hx]
      · simp [SMap.get]
    · split
      · split
        · next hx => rw [SMap.get_drop_same, hx]
        · simp [SMap.get]
      · next h1 h2 => simp [SMap.get, h2, ih]

/-- A read of another key, whatever default it is read with. -/
theorem SMap.get_set_ne (d e : α) (m : SMap α) {a b : Nat} (x : α) (h : b ≠ a) :
    SMap.get e (SMap.set d m a x) b = SMap.get e m b := by
  induction m with
  | nil => by_cases hx : x = d <;> simp [SMap.set, hx, SMap.get, h]
  | cons q l ih =>
    obtain ⟨k, v⟩ := q
    simp only [SMap.set]
    split
    · split
      · rw [SMap.get_drop_ne _ _ h]
      · simp [SMap.get, h]
    · split
      · next h1 h2 =>
        subst h2
        split
        · rw [SMap.get_drop_ne _ _ h]; simp [SMap.get, h]
        · simp [SMap.get, h]
      · simp [SMap.get, ih]

/-- Reads after writes. -/
theorem SMap.get_set (d : α) (m : SMap α) (a b : Nat) (x : α) :
    SMap.get d (SMap.set d m a x) b = if b = a then x else SMap.get d m b := by
  by_cases h : b = a
  · subst h; simp
  · rw [if_neg h, SMap.get_set_ne _ _ _ _ h]

/-! ### The canonical form -/

theorem SMap.wfFrom_weaken {d : α} {b c : Nat} (h : b ≤ c) : ∀ {m : SMap α}, SMap.wfFrom d (some c) m = true →
    SMap.wfFrom d (some b) m = true
  | [], _ => rfl
  | (k, v) :: l, hm => by
    simp only [SMap.wfFrom, Bool.and_eq_true, decide_eq_true_eq] at *
    exact ⟨⟨by omega, hm.1.2⟩, hm.2⟩

theorem SMap.wfFrom_none {d : α} {b : Option Nat} : ∀ {m : SMap α}, SMap.wfFrom d b m = true → SMap.wfFrom d none m = true
  | [], _ => rfl
  | (k, v) :: l, hm => by
    simp only [SMap.wfFrom, Bool.and_eq_true, decide_eq_true_eq] at *
    exact ⟨⟨trivial, hm.1.2⟩, hm.2⟩

/-- The form as a statement about the keys and the entries. -/
theorem SMap.wfFrom_iff {d : α} : ∀ {b : Option Nat} {m : SMap α}, SMap.wfFrom d b m = true ↔
    (m.Pairwise (fun p q => p.1 < q.1) ∧ ∀ q ∈ m, q.2 ≠ d ∧ ∀ n, b = some n → n < q.1)
  | b, [] => by simp [SMap.wfFrom]
  | b, (k, v) :: l => by
    simp only [SMap.wfFrom, Bool.and_eq_true, decide_eq_true_eq, List.pairwise_cons, List.mem_cons]
    rw [SMap.wfFrom_iff (b := some k) (m := l)]
    constructor
    · rintro ⟨⟨hb, hv⟩, hp, hq⟩
      refine ⟨⟨fun q hq' => (hq q hq').2 k rfl, hp⟩, ?_⟩
      rintro q (rfl | h)
      · exact ⟨hv, fun n hn => by subst hn; simpa using hb⟩
      · refine ⟨(hq q h).1, fun n hn => ?_⟩
        subst hn
        have := (hq q h).2 k rfl
        have hb' : n < k := by simpa using hb
        omega
    · rintro ⟨⟨h1, h2⟩, h3⟩
      refine ⟨⟨?_, (h3 (k, v) (Or.inl rfl)).1⟩, h2, fun q hq => ⟨(h3 q (Or.inr hq)).1, fun n hn => ?_⟩⟩
      · cases b with
        | none => rfl
        | some n => simpa using (h3 (k, v) (Or.inl rfl)).2 n rfl
      · cases hn; exact h1 q hq

/-- The canonical form: keys rise, and no entry is the default. -/
theorem SMap.wf_iff {d : α} {m : SMap α} : SMap.wf d m = true ↔ (m.Pairwise (fun p q => p.1 < q.1) ∧ ∀ q ∈ m, q.2 ≠ d) := by
  simp [SMap.wf, SMap.wfFrom_iff]

theorem SMap.wf_filter {d : α} {m : SMap α} (p : Nat × α → Bool) (h : SMap.wf d m = true) : SMap.wf d (m.filter p) = true := by
  rw [SMap.wf_iff] at *
  exact ⟨h.1.filter p, fun q hq => h.2 q (List.mem_filter.mp hq).1⟩

theorem SMap.wf_drop {d : α} {m : SMap α} (a : Nat) (h : SMap.wf d m = true) : SMap.wf d (SMap.drop m a) = true := SMap.wf_filter _ h

theorem SMap.wf_clear {d : α} {m : SMap α} (a n : Nat) (h : SMap.wf d m = true) : SMap.wf d (SMap.clear m a n) = true :=
  SMap.wf_filter _ h

theorem SMap.mem_set {d : α} {m : SMap α} {a : Nat} {x : α} {q : Nat × α} (h : q ∈ SMap.set d m a x) :
    q ∈ m ∨ (q = (a, x) ∧ x ≠ d) := by
  induction m with
  | nil =>
    by_cases hx : x = d <;> simp [SMap.set, hx] at h
    exact Or.inr ⟨h, hx⟩
  | cons p l ih =>
    obtain ⟨k, v⟩ := p
    simp only [SMap.set] at h
    split at h
    · split at h
      · exact Or.inl (List.mem_filter.mp h).1
      · next hx =>
        rcases List.mem_cons.mp h with h | h
        · exact Or.inr ⟨h, hx⟩
        · exact Or.inl h
    · split at h
      · split at h
        · exact Or.inl (List.mem_cons_of_mem _ (List.mem_filter.mp h).1)
        · next hx =>
          rcases List.mem_cons.mp h with h | h
          · exact Or.inr ⟨h, hx⟩
          · exact Or.inl (List.mem_cons_of_mem _ h)
      · rcases List.mem_cons.mp h with h | h
        · exact Or.inl (h ▸ List.mem_cons_self ..)
        · rcases ih h with h | h
          · exact Or.inl (List.mem_cons_of_mem _ h)
          · exact Or.inr h

/-- A write keeps the canonical form. -/
theorem SMap.wf_set {d : α} {m : SMap α} (a : Nat) (x : α) (h : SMap.wf d m = true) : SMap.wf d (SMap.set d m a x) = true := by
  rw [SMap.wf_iff] at *
  refine ⟨?_, fun q hq => ?_⟩
  · induction m with
    | nil => by_cases hx : x = d <;> simp [SMap.set, hx]
    | cons p l ih =>
      obtain ⟨k, v⟩ := p
      have hp := List.pairwise_cons.mp h.1
      simp only [SMap.set]
      split
      · next hk =>
        split
        · exact h.1.filter _
        · refine List.pairwise_cons.mpr ⟨fun q hq => ?_, h.1⟩
          rcases List.mem_cons.mp hq with e | e
          · subst e; exact hk
          · have := hp.1 q e; simp only at *; omega
      · split
        · next hk =>
          subst hk
          split
          · exact hp.2.filter _
          · exact List.pairwise_cons.mpr ⟨fun q hq => hp.1 q hq, hp.2⟩
        · next h1 h2 =>
          refine List.pairwise_cons.mpr ⟨fun q hq => ?_, ih ⟨hp.2, fun q hq => h.2 q (List.mem_cons_of_mem _ hq)⟩⟩
          rcases SMap.mem_set hq with e | e
          · exact hp.1 q e
          · rw [e.1]; simp only; omega
  · rcases SMap.mem_set hq with e | e
    · exact h.2 q e
    · rw [e.1]; exact e.2

theorem SMap.mem_entries {d : α} {l : List α} {a : Nat} {q : Nat × α} (h : q ∈ SMap.entries d a l) :
    q.2 ≠ d ∧ a ≤ q.1 ∧ q.1 < a + l.length := by
  induction l generalizing a with
  | nil => simp [SMap.entries] at h
  | cons x l ih =>
    simp only [SMap.entries] at h
    split at h
    · have := ih h; simp only [List.length_cons]; refine ⟨this.1, ?_, ?_⟩ <;> omega
    · next hx =>
      rcases List.mem_cons.mp h with e | e
      · subst e; simp [hx]
      · have := ih e; simp only [List.length_cons]; refine ⟨this.1, ?_, ?_⟩ <;> omega

theorem SMap.pairwise_entries {d : α} {l : List α} {a : Nat} : (SMap.entries d a l).Pairwise (fun p q => p.1 < q.1) := by
  induction l generalizing a with
  | nil => simp [SMap.entries]
  | cons x l ih =>
    simp only [SMap.entries]
    split
    · exact ih
    · refine List.pairwise_cons.mpr ⟨fun q hq => ?_, ih⟩
      have := (SMap.mem_entries hq).2.1; simp only; omega

/-- A write of a run of values keeps the canonical form. -/
theorem SMap.wf_setList {d : α} {m : SMap α} (a : Nat) (l : List α) (h : SMap.wf d m = true) : SMap.wf d (SMap.setList d m a l) = true := by
  rw [SMap.wf_iff] at *
  refine ⟨?_, fun q hq => ?_⟩
  · simp only [SMap.setList, List.append_assoc]
    refine List.pairwise_append.mpr ⟨h.1.filter _, List.pairwise_append.mpr ⟨SMap.pairwise_entries, h.1.filter _, ?_⟩, ?_⟩
    · intro p hp q hq
      have h1 := (SMap.mem_entries hp).2.2
      have h2 := (List.mem_filter.mp hq).2
      simp only [decide_eq_true_eq] at h2; omega
    · intro p hp q hq
      have h1 := (List.mem_filter.mp hp).2
      simp only [decide_eq_true_eq] at h1
      rcases List.mem_append.mp hq with e | e
      · have := (SMap.mem_entries e).2.1; omega
      · have h2 := (List.mem_filter.mp e).2
        simp only [decide_eq_true_eq] at h2; omega
  · simp only [SMap.setList, List.mem_append] at hq
    rcases hq with (hq | hq) | hq
    · exact h.2 q (List.mem_filter.mp hq).1
    · exact (SMap.mem_entries hq).1
    · exact h.2 q (List.mem_filter.mp hq).1

/-! ### Runs of values -/

theorem SMap.get_entries (d : α) (l : List α) (a b : Nat) :
    SMap.get d (SMap.entries d a l) b = if a ≤ b then l.getD (b - a) d else d := by
  induction l generalizing a with
  | nil => simp [SMap.entries]
  | cons x l ih =>
    simp only [SMap.entries]
    by_cases hb : b = a
    · subst hb
      by_cases hx : x = d
      · rw [if_pos hx, ih, if_neg (by omega)]; simp [hx]
      · simp [hx, SMap.get]
    · have : SMap.get d (SMap.entries d (a + 1) l) b = if a ≤ b then (x :: l).getD (b - a) d else d := by
        rw [ih]
        by_cases h : a ≤ b
        · have : b - a = (b - (a + 1)) + 1 := by omega
          rw [if_pos h, if_pos (by omega), this]; simp
        · rw [if_neg h, if_neg (by omega)]
      split
      · exact this
      · simp [SMap.get, hb, this]

/-- A read after a write of a run of values: the value written inside the run, what was there outside it. -/
theorem SMap.get_setList (d : α) (m : SMap α) (a b : Nat) (l : List α) :
    SMap.get d (SMap.setList d m a l) b = if a ≤ b ∧ b < a + l.length then l.getD (b - a) d else SMap.get d m b := by
  have h3 := SMap.get_filter d m (fun k => decide (a + l.length ≤ k)) b
  have h1 := SMap.get_filter d m (fun k => decide (k < a)) b
  have h2 := SMap.get_entries d l a b
  simp only [SMap.setList, List.append_assoc]
  by_cases hlt : b < a
  · rw [if_neg (by omega), SMap.get_append]
    split
    · rw [h1]; simp [hlt]
    · next hn =>
      rw [SMap.get_append]
      have hd : SMap.get d m b = d := by
        have : SMap.get d (m.filter fun q => decide (q.1 < a)) b = d :=
          SMap.get_absent d _ b fun q hq e => hn (List.mem_map.mpr ⟨q, hq, e⟩)
        rw [h1] at this; simpa [hlt] using this
      split
      · rw [h2, if_neg (by omega), hd]
      · rw [h3, hd]; simp
  · have hno : b ∉ (m.filter fun q => decide (q.1 < a)).map (·.1) := by
      intro hm
      obtain ⟨q, hq, e⟩ := List.mem_map.mp hm
      have := (List.mem_filter.mp hq).2
      simp only [decide_eq_true_eq] at this; omega
    rw [SMap.get_append, if_neg hno, SMap.get_append]
    by_cases hin : a ≤ b ∧ b < a + l.length
    · rw [if_pos hin]
      by_cases hn : b ∈ (SMap.entries d a l).map fun x => x.1
      · rw [if_pos hn, h2, if_pos hin.1]
      · have : SMap.get d (SMap.entries d a l) b = d :=
          SMap.get_absent d _ b fun q hq e => hn (List.mem_map.mpr ⟨q, hq, e⟩)
        rw [h2, if_pos hin.1] at this
        rw [if_neg hn, h3, this]; simp [show ¬ a + l.length ≤ b by omega]
    · have hno' : b ∉ (SMap.entries d a l).map fun x => x.1 := by
        intro hm
        obtain ⟨q, hq, e⟩ := List.mem_map.mp hm
        have := SMap.mem_entries hq; exact hin (by omega)
      rw [if_neg hin, if_neg hno', h3]; simp [show a + l.length ≤ b by omega]

/-! ### The values at consecutive keys -/

theorem SMap.getList_eq {α : Type} (d : α) (m : SMap α) (a n : Nat) :
    SMap.getList d m a n = (List.range n).map fun i => SMap.get d m (a + i) := by
  simp only [SMap.getList]
  apply List.map_congr_left
  intro i hi
  rw [SMap.get_filter (p := fun k => decide (a ≤ k) && decide (k < a + n))]
  rw [List.mem_range] at hi
  rw [if_pos]
  simp only [Bool.and_eq_true, decide_eq_true_eq]; omega

@[simp] theorem SMap.length_getList {α : Type} (d : α) (m : SMap α) (a n : Nat) : (SMap.getList d m a n).length = n := by
  rw [SMap.getList_eq]; simp

end Sys2Proof.Machine
end

