-- ==== Sys2Proof/Laws/State.lean ====
section
/-! SUPPORT. One law for each field of the state under each of the shared updates, so that no later proof unfolds a record. -/

namespace Sys2Proof.Machine

/-! ### Cores -/

@[simp] theorem State.core_setCore (s : State) (k : Nat) (c : Core) : (s.setCore k c).core k = c := by
  simp [State.core, State.setCore]
theorem State.core_setCore_ne (s : State) (c : Core) {j k : Nat} (h : j ≠ k) : (s.setCore k c).core j = s.core j := by
  simp only [State.core, State.setCore, SMap.get_set_ne _ _ _ _ h]
@[simp] theorem State.core_modCore (s : State) (k : Nat) (f : Core → Core) : (s.modCore k f).core k = f (s.core k) :=
  State.core_setCore ..
theorem State.core_modCore_ne (s : State) (f : Core → Core) {j k : Nat} (h : j ≠ k) : (s.modCore k f).core j = s.core j :=
  State.core_setCore_ne _ _ h
@[simp] theorem State.core_memWrite (s : State) (a k : Nat) (b : List Byte) : (s.memWrite a b).core k = s.core k := rfl
@[simp] theorem State.core_memPut (s : State) (a n x k : Nat) : (s.memPut a n x).core k = s.core k := rfl

/-! ### setCore -/

@[simp] theorem State.mem_setCore (s : State) (k : Nat) (c : Core) : (s.setCore k c).mem = s.mem := rfl
@[simp] theorem State.memPoison_setCore (s : State) (k : Nat) (c : Core) : (s.setCore k c).memPoison = s.memPoison := rfl
@[simp] theorem State.bases_setCore (s : State) (k : Nat) (c : Core) : (s.setCore k c).bases = s.bases := rfl
@[simp] theorem State.homeMap_setCore (s : State) (k : Nat) (c : Core) : (s.setCore k c).homeMap = s.homeMap := rfl
@[simp] theorem State.parts_setCore (s : State) (k : Nat) (c : Core) : (s.setCore k c).parts = s.parts := rfl
@[simp] theorem State.tlb_setCore (s : State) (k : Nat) (c : Core) : (s.setCore k c).tlb = s.tlb := rfl
@[simp] theorem State.taken_setCore (s : State) (k : Nat) (c : Core) : (s.setCore k c).taken = s.taken := rfl
@[simp] theorem State.rdc_setCore (s : State) (k : Nat) (c : Core) : (s.setCore k c).rdc = s.rdc := rfl
@[simp] theorem State.pendInv_setCore (s : State) (k : Nat) (c : Core) : (s.setCore k c).pendInv = s.pendInv := rfl
@[simp] theorem State.moves_setCore (s : State) (k : Nat) (c : Core) : (s.setCore k c).moves = s.moves := rfl
@[simp] theorem State.hostMem_setCore (s : State) (k : Nat) (c : Core) : (s.setCore k c).hostMem = s.hostMem := rfl
@[simp] theorem State.qslots_setCore (s : State) (k : Nat) (c : Core) : (s.setCore k c).qslots = s.qslots := rfl
@[simp] theorem State.queues_setCore (s : State) (k : Nat) (c : Core) : (s.setCore k c).queues = s.queues := rfl
@[simp] theorem State.pendingQ_setCore (s : State) (k : Nat) (c : Core) : (s.setCore k c).pendingQ = s.pendingQ := rfl
@[simp] theorem State.gangs_setCore (s : State) (k : Nat) (c : Core) : (s.setCore k c).gangs = s.gangs := rfl
@[simp] theorem State.tracked_setCore (s : State) (k : Nat) (c : Core) : (s.setCore k c).tracked = s.tracked := rfl
@[simp] theorem State.link_setCore (s : State) (k : Nat) (c : Core) : (s.setCore k c).link = s.link := rfl
@[simp] theorem State.host_setCore (s : State) (k : Nat) (c : Core) : (s.setCore k c).host = s.host := rfl
@[simp] theorem State.assigns_setCore (s : State) (k : Nat) (c : Core) : (s.setCore k c).assigns = s.assigns := rfl
@[simp] theorem State.resets_setCore (s : State) (k : Nat) (c : Core) : (s.setCore k c).resets = s.resets := rfl
@[simp] theorem State.relocs_setCore (s : State) (k : Nat) (c : Core) : (s.setCore k c).relocs = s.relocs := rfl
@[simp] theorem State.heaps_setCore (s : State) (k : Nat) (c : Core) : (s.setCore k c).heaps = s.heaps := rfl
@[simp] theorem State.fns_setCore (s : State) (k : Nat) (c : Core) : (s.setCore k c).fns = s.fns := rfl
@[simp] theorem State.segments_setCore (s : State) (k : Nat) (c : Core) : (s.setCore k c).segments = s.segments := rfl
@[simp] theorem State.whorls_setCore (s : State) (k : Nat) (c : Core) : (s.setCore k c).whorls = s.whorls := rfl
@[simp] theorem State.sites_setCore (s : State) (k : Nat) (c : Core) : (s.setCore k c).sites = s.sites := rfl
@[simp] theorem State.lastPass_setCore (s : State) (k : Nat) (c : Core) : (s.setCore k c).lastPass = s.lastPass := rfl
@[simp] theorem State.creel_setCore (s : State) (k : Nat) (c : Core) : (s.setCore k c).creel = s.creel := rfl
@[simp] theorem State.wear_setCore (s : State) (k : Nat) (c : Core) : (s.setCore k c).wear = s.wear := rfl
@[simp] theorem State.corr_setCore (s : State) (k : Nat) (c : Core) : (s.setCore k c).corr = s.corr := rfl
@[simp] theorem State.pwr_setCore (s : State) (k : Nat) (c : Core) : (s.setCore k c).pwr = s.pwr := rfl
@[simp] theorem State.sec_setCore (s : State) (k : Nat) (c : Core) : (s.setCore k c).sec = s.sec := rfl
@[simp] theorem State.patches_setCore (s : State) (k : Nat) (c : Core) : (s.setCore k c).patches = s.patches := rfl
@[simp] theorem State.contained_setCore (s : State) (k : Nat) (c : Core) : (s.setCore k c).contained = s.contained := rfl
@[simp] theorem State.logSeq_setCore (s : State) (k : Nat) (c : Core) : (s.setCore k c).logSeq = s.logSeq := rfl
@[simp] theorem State.booted_setCore (s : State) (k : Nat) (c : Core) : (s.setCore k c).booted = s.booted := rfl
@[simp] theorem State.cur_setCore (s : State) (k : Nat) (c : Core) : (s.setCore k c).cur = s.cur := rfl
@[simp] theorem State.agenda_setCore (s : State) (k : Nat) (c : Core) : (s.setCore k c).agenda = s.agenda := rfl
@[simp] theorem State.free_setCore (s : State) (k : Nat) (c : Core) : (s.setCore k c).free = s.free := rfl
@[simp] theorem State.time_setCore (s : State) (k : Nat) (c : Core) : (s.setCore k c).time = s.time := rfl

/-! ### modCore -/

@[simp] theorem State.mem_modCore (s : State) (k : Nat) (f : Core → Core) : (s.modCore k f).mem = s.mem := rfl
@[simp] theorem State.memPoison_modCore (s : State) (k : Nat) (f : Core → Core) : (s.modCore k f).memPoison = s.memPoison := rfl
@[simp] theorem State.bases_modCore (s : State) (k : Nat) (f : Core → Core) : (s.modCore k f).bases = s.bases := rfl
@[simp] theorem State.homeMap_modCore (s : State) (k : Nat) (f : Core → Core) : (s.modCore k f).homeMap = s.homeMap := rfl
@[simp] theorem State.parts_modCore (s : State) (k : Nat) (f : Core → Core) : (s.modCore k f).parts = s.parts := rfl
@[simp] theorem State.tlb_modCore (s : State) (k : Nat) (f : Core → Core) : (s.modCore k f).tlb = s.tlb := rfl
@[simp] theorem State.taken_modCore (s : State) (k : Nat) (f : Core → Core) : (s.modCore k f).taken = s.taken := rfl
@[simp] theorem State.rdc_modCore (s : State) (k : Nat) (f : Core → Core) : (s.modCore k f).rdc = s.rdc := rfl
@[simp] theorem State.pendInv_modCore (s : State) (k : Nat) (f : Core → Core) : (s.modCore k f).pendInv = s.pendInv := rfl
@[simp] theorem State.moves_modCore (s : State) (k : Nat) (f : Core → Core) : (s.modCore k f).moves = s.moves := rfl
@[simp] theorem State.hostMem_modCore (s : State) (k : Nat) (f : Core → Core) : (s.modCore k f).hostMem = s.hostMem := rfl
@[simp] theorem State.qslots_modCore (s : State) (k : Nat) (f : Core → Core) : (s.modCore k f).qslots = s.qslots := rfl
@[simp] theorem State.queues_modCore (s : State) (k : Nat) (f : Core → Core) : (s.modCore k f).queues = s.queues := rfl
@[simp] theorem State.pendingQ_modCore (s : State) (k : Nat) (f : Core → Core) : (s.modCore k f).pendingQ = s.pendingQ := rfl
@[simp] theorem State.gangs_modCore (s : State) (k : Nat) (f : Core → Core) : (s.modCore k f).gangs = s.gangs := rfl
@[simp] theorem State.tracked_modCore (s : State) (k : Nat) (f : Core → Core) : (s.modCore k f).tracked = s.tracked := rfl
@[simp] theorem State.link_modCore (s : State) (k : Nat) (f : Core → Core) : (s.modCore k f).link = s.link := rfl
@[simp] theorem State.host_modCore (s : State) (k : Nat) (f : Core → Core) : (s.modCore k f).host = s.host := rfl
@[simp] theorem State.assigns_modCore (s : State) (k : Nat) (f : Core → Core) : (s.modCore k f).assigns = s.assigns := rfl
@[simp] theorem State.resets_modCore (s : State) (k : Nat) (f : Core → Core) : (s.modCore k f).resets = s.resets := rfl
@[simp] theorem State.relocs_modCore (s : State) (k : Nat) (f : Core → Core) : (s.modCore k f).relocs = s.relocs := rfl
@[simp] theorem State.heaps_modCore (s : State) (k : Nat) (f : Core → Core) : (s.modCore k f).heaps = s.heaps := rfl
@[simp] theorem State.fns_modCore (s : State) (k : Nat) (f : Core → Core) : (s.modCore k f).fns = s.fns := rfl
@[simp] theorem State.segments_modCore (s : State) (k : Nat) (f : Core → Core) : (s.modCore k f).segments = s.segments := rfl
@[simp] theorem State.whorls_modCore (s : State) (k : Nat) (f : Core → Core) : (s.modCore k f).whorls = s.whorls := rfl
@[simp] theorem State.sites_modCore (s : State) (k : Nat) (f : Core → Core) : (s.modCore k f).sites = s.sites := rfl
@[simp] theorem State.lastPass_modCore (s : State) (k : Nat) (f : Core → Core) : (s.modCore k f).lastPass = s.lastPass := rfl
@[simp] theorem State.creel_modCore (s : State) (k : Nat) (f : Core → Core) : (s.modCore k f).creel = s.creel := rfl
@[simp] theorem State.wear_modCore (s : State) (k : Nat) (f : Core → Core) : (s.modCore k f).wear = s.wear := rfl
@[simp] theorem State.corr_modCore (s : State) (k : Nat) (f : Core → Core) : (s.modCore k f).corr = s.corr := rfl
@[simp] theorem State.pwr_modCore (s : State) (k : Nat) (f : Core → Core) : (s.modCore k f).pwr = s.pwr := rfl
@[simp] theorem State.sec_modCore (s : State) (k : Nat) (f : Core → Core) : (s.modCore k f).sec = s.sec := rfl
@[simp] theorem State.patches_modCore (s : State) (k : Nat) (f : Core → Core) : (s.modCore k f).patches = s.patches := rfl
@[simp] theorem State.contained_modCore (s : State) (k : Nat) (f : Core → Core) : (s.modCore k f).contained = s.contained := rfl
@[simp] theorem State.logSeq_modCore (s : State) (k : Nat) (f : Core → Core) : (s.modCore k f).logSeq = s.logSeq := rfl
@[simp] theorem State.booted_modCore (s : State) (k : Nat) (f : Core → Core) : (s.modCore k f).booted = s.booted := rfl
@[simp] theorem State.cur_modCore (s : State) (k : Nat) (f : Core → Core) : (s.modCore k f).cur = s.cur := rfl
@[simp] theorem State.agenda_modCore (s : State) (k : Nat) (f : Core → Core) : (s.modCore k f).agenda = s.agenda := rfl
@[simp] theorem State.free_modCore (s : State) (k : Nat) (f : Core → Core) : (s.modCore k f).free = s.free := rfl
@[simp] theorem State.time_modCore (s : State) (k : Nat) (f : Core → Core) : (s.modCore k f).time = s.time := rfl

/-! ### memWrite -/

@[simp] theorem State.cores_memWrite (s : State) (a : Nat) (b : List Byte) : (s.memWrite a b).cores = s.cores := rfl
@[simp] theorem State.bases_memWrite (s : State) (a : Nat) (b : List Byte) : (s.memWrite a b).bases = s.bases := rfl
@[simp] theorem State.homeMap_memWrite (s : State) (a : Nat) (b : List Byte) : (s.memWrite a b).homeMap = s.homeMap := rfl
@[simp] theorem State.parts_memWrite (s : State) (a : Nat) (b : List Byte) : (s.memWrite a b).parts = s.parts := rfl
@[simp] theorem State.tlb_memWrite (s : State) (a : Nat) (b : List Byte) : (s.memWrite a b).tlb = s.tlb := rfl
@[simp] theorem State.taken_memWrite (s : State) (a : Nat) (b : List Byte) : (s.memWrite a b).taken = s.taken := rfl
@[simp] theorem State.rdc_memWrite (s : State) (a : Nat) (b : List Byte) : (s.memWrite a b).rdc = s.rdc := rfl
@[simp] theorem State.pendInv_memWrite (s : State) (a : Nat) (b : List Byte) : (s.memWrite a b).pendInv = s.pendInv := rfl
@[simp] theorem State.moves_memWrite (s : State) (a : Nat) (b : List Byte) : (s.memWrite a b).moves = s.moves := rfl
@[simp] theorem State.hostMem_memWrite (s : State) (a : Nat) (b : List Byte) : (s.memWrite a b).hostMem = s.hostMem := rfl
@[simp] theorem State.qslots_memWrite (s : State) (a : Nat) (b : List Byte) : (s.memWrite a b).qslots = s.qslots := rfl
@[simp] theorem State.queues_memWrite (s : State) (a : Nat) (b : List Byte) : (s.memWrite a b).queues = s.queues := rfl
@[simp] theorem State.pendingQ_memWrite (s : State) (a : Nat) (b : List Byte) : (s.memWrite a b).pendingQ = s.pendingQ := rfl
@[simp] theorem State.gangs_memWrite (s : State) (a : Nat) (b : List Byte) : (s.memWrite a b).gangs = s.gangs := rfl
@[simp] theorem State.tracked_memWrite (s : State) (a : Nat) (b : List Byte) : (s.memWrite a b).tracked = s.tracked := rfl
@[simp] theorem State.link_memWrite (s : State) (a : Nat) (b : List Byte) : (s.memWrite a b).link = s.link := rfl
@[simp] theorem State.host_memWrite (s : State) (a : Nat) (b : List Byte) : (s.memWrite a b).host = s.host := rfl
@[simp] theorem State.assigns_memWrite (s : State) (a : Nat) (b : List Byte) : (s.memWrite a b).assigns = s.assigns := rfl
@[simp] theorem State.resets_memWrite (s : State) (a : Nat) (b : List Byte) : (s.memWrite a b).resets = s.resets := rfl
@[simp] theorem State.relocs_memWrite (s : State) (a : Nat) (b : List Byte) : (s.memWrite a b).relocs = s.relocs := rfl
@[simp] theorem State.heaps_memWrite (s : State) (a : Nat) (b : List Byte) : (s.memWrite a b).heaps = s.heaps := rfl
@[simp] theorem State.fns_memWrite (s : State) (a : Nat) (b : List Byte) : (s.memWrite a b).fns = s.fns := rfl
@[simp] theorem State.segments_memWrite (s : State) (a : Nat) (b : List Byte) : (s.memWrite a b).segments = s.segments := rfl
@[simp] theorem State.whorls_memWrite (s : State) (a : Nat) (b : List Byte) : (s.memWrite a b).whorls = s.whorls := rfl
@[simp] theorem State.sites_memWrite (s : State) (a : Nat) (b : List Byte) : (s.memWrite a b).sites = s.sites := rfl
@[simp] theorem State.lastPass_memWrite (s : State) (a : Nat) (b : List Byte) : (s.memWrite a b).lastPass = s.lastPass := rfl
@[simp] theorem State.creel_memWrite (s : State) (a : Nat) (b : List Byte) : (s.memWrite a b).creel = s.creel := rfl
@[simp] theorem State.wear_memWrite (s : State) (a : Nat) (b : List Byte) : (s.memWrite a b).wear = s.wear := rfl
@[simp] theorem State.corr_memWrite (s : State) (a : Nat) (b : List Byte) : (s.memWrite a b).corr = s.corr := rfl
@[simp] theorem State.pwr_memWrite (s : State) (a : Nat) (b : List Byte) : (s.memWrite a b).pwr = s.pwr := rfl
@[simp] theorem State.sec_memWrite (s : State) (a : Nat) (b : List Byte) : (s.memWrite a b).sec = s.sec := rfl
@[simp] theorem State.patches_memWrite (s : State) (a : Nat) (b : List Byte) : (s.memWrite a b).patches = s.patches := rfl
@[simp] theorem State.contained_memWrite (s : State) (a : Nat) (b : List Byte) : (s.memWrite a b).contained = s.contained := rfl
@[simp] theorem State.logSeq_memWrite (s : State) (a : Nat) (b : List Byte) : (s.memWrite a b).logSeq = s.logSeq := rfl
@[simp] theorem State.booted_memWrite (s : State) (a : Nat) (b : List Byte) : (s.memWrite a b).booted = s.booted := rfl
@[simp] theorem State.cur_memWrite (s : State) (a : Nat) (b : List Byte) : (s.memWrite a b).cur = s.cur := rfl
@[simp] theorem State.agenda_memWrite (s : State) (a : Nat) (b : List Byte) : (s.memWrite a b).agenda = s.agenda := rfl
@[simp] theorem State.free_memWrite (s : State) (a : Nat) (b : List Byte) : (s.memWrite a b).free = s.free := rfl
@[simp] theorem State.time_memWrite (s : State) (a : Nat) (b : List Byte) : (s.memWrite a b).time = s.time := rfl

/-! ### pendWrite -/

@[simp] theorem Core.bt_pendWrite (c : Core) (n : Nat) (x : Write) : (c.pendWrite n x).bt = c.bt := rfl
@[simp] theorem Core.pc_pendWrite (c : Core) (n : Nat) (x : Write) : (c.pendWrite n x).pc = c.pc := rfl
@[simp] theorem Core.cycle_pendWrite (c : Core) (n : Nat) (x : Write) : (c.pendWrite n x).cycle = c.cycle := rfl
@[simp] theorem Core.supervisor_pendWrite (c : Core) (n : Nat) (x : Write) : (c.pendWrite n x).supervisor = c.supervisor := rfl
@[simp] theorem Core.stopped_pendWrite (c : Core) (n : Nat) (x : Write) : (c.pendWrite n x).stopped = c.stopped := rfl
@[simp] theorem Core.s_pendWrite (c : Core) (n : Nat) (x : Write) : (c.pendWrite n x).s = c.s := rfl
@[simp] theorem Core.p_pendWrite (c : Core) (n : Nat) (x : Write) : (c.pendWrite n x).p = c.p := rfl
@[simp] theorem Core.h_pendWrite (c : Core) (n : Nat) (x : Write) : (c.pendWrite n x).h = c.h := rfl
@[simp] theorem Core.k_pendWrite (c : Core) (n : Nat) (x : Write) : (c.pendWrite n x).k = c.k := rfl
@[simp] theorem Core.l_pendWrite (c : Core) (n : Nat) (x : Write) : (c.pendWrite n x).l = c.l := rfl
@[simp] theorem Core.kn_pendWrite (c : Core) (n : Nat) (x : Write) : (c.pendWrite n x).kn = c.kn := rfl
@[simp] theorem Core.cr_pendWrite (c : Core) (n : Nat) (x : Write) : (c.pendWrite n x).cr = c.cr := rfl
@[simp] theorem Core.timing_pendWrite (c : Core) (n : Nat) (x : Write) : (c.pendWrite n x).timing = c.timing := rfl
@[simp] theorem Core.region_pendWrite (c : Core) (n : Nat) (x : Write) : (c.pendWrite n x).region = c.region := rfl
@[simp] theorem Core.strands_pendWrite (c : Core) (n : Nat) (x : Write) : (c.pendWrite n x).strands = c.strands := rfl
@[simp] theorem Core.spad_pendWrite (c : Core) (n : Nat) (x : Write) : (c.pendWrite n x).spad = c.spad := rfl
@[simp] theorem Core.fe_pendWrite (c : Core) (n : Nat) (x : Write) : (c.pendWrite n x).fe = c.fe := rfl
@[simp] theorem Core.poison_pendWrite (c : Core) (n : Nat) (x : Write) : (c.pendWrite n x).poison = c.poison := rfl
@[simp] theorem Core.sticky_pendWrite (c : Core) (n : Nat) (x : Write) : (c.pendWrite n x).sticky = c.sticky := rfl
@[simp] theorem Core.drives_pendWrite (c : Core) (n : Nat) (x : Write) : (c.pendWrite n x).drives = c.drives := rfl
@[simp] theorem Core.flagOrs_pendWrite (c : Core) (n : Nat) (x : Write) : (c.pendWrite n x).flagOrs = c.flagOrs := rfl
@[simp] theorem Core.landings_pendWrite (c : Core) (n : Nat) (x : Write) : (c.pendWrite n x).landings = c.landings := rfl
@[simp] theorem Core.nextLanding_pendWrite (c : Core) (n : Nat) (x : Write) : (c.pendWrite n x).nextLanding = c.nextLanding := rfl
@[simp] theorem Core.mx_pendWrite (c : Core) (n : Nat) (x : Write) : (c.pendWrite n x).mx = c.mx := rfl
@[simp] theorem Core.mq_pendWrite (c : Core) (n : Nat) (x : Write) : (c.pendWrite n x).mq = c.mq := rfl
@[simp] theorem Core.copies_pendWrite (c : Core) (n : Nat) (x : Write) : (c.pendWrite n x).copies = c.copies := rfl
@[simp] theorem Core.nextCopy_pendWrite (c : Core) (n : Nat) (x : Write) : (c.pendWrite n x).nextCopy = c.nextCopy := rfl
@[simp] theorem Core.streamFault_pendWrite (c : Core) (n : Nat) (x : Write) : (c.pendWrite n x).streamFault = c.streamFault := rfl
@[simp] theorem Core.l1_pendWrite (c : Core) (n : Nat) (x : Write) : (c.pendWrite n x).l1 = c.l1 := rfl
@[simp] theorem Core.refusals_pendWrite (c : Core) (n : Nat) (x : Write) : (c.pendWrite n x).refusals = c.refusals := rfl
@[simp] theorem Core.stream_pendWrite (c : Core) (n : Nat) (x : Write) : (c.pendWrite n x).stream = c.stream := rfl
@[simp] theorem Core.tracker_pendWrite (c : Core) (n : Nat) (x : Write) : (c.pendWrite n x).tracker = c.tracker := rfl
@[simp] theorem Core.ranges_pendWrite (c : Core) (n : Nat) (x : Write) : (c.pendWrite n x).ranges = c.ranges := rfl
@[simp] theorem Core.fmtBits_pendWrite (c : Core) (n : Nat) (x : Write) : (c.pendWrite n x).fmtBits = c.fmtBits := rfl
@[simp] theorem Core.latch_pendWrite (c : Core) (n : Nat) (x : Write) : (c.pendWrite n x).latch = c.latch := rfl
@[simp] theorem Core.repLeft_pendWrite (c : Core) (n : Nat) (x : Write) : (c.pendWrite n x).repLeft = c.repLeft := rfl
@[simp] theorem Core.ecc_pendWrite (c : Core) (n : Nat) (x : Write) : (c.pendWrite n x).ecc = c.ecc := rfl
@[simp] theorem Core.async_pendWrite (c : Core) (n : Nat) (x : Write) : (c.pendWrite n x).async = c.async := rfl
@[simp] theorem Core.item_pendWrite (c : Core) (n : Nat) (x : Write) : (c.pendWrite n x).item = c.item := rfl
@[simp] theorem Core.saved_pendWrite (c : Core) (n : Nat) (x : Write) : (c.pendWrite n x).saved = c.saved := rfl
@[simp] theorem Core.incoming_pendWrite (c : Core) (n : Nat) (x : Write) : (c.pendWrite n x).incoming = c.incoming := rfl
@[simp] theorem Core.bar_pendWrite (c : Core) (n : Nat) (x : Write) : (c.pendWrite n x).bar = c.bar := rfl
@[simp] theorem Core.barPc_pendWrite (c : Core) (n : Nat) (x : Write) : (c.pendWrite n x).barPc = c.barPc := rfl
@[simp] theorem Core.causeSeq_pendWrite (c : Core) (n : Nat) (x : Write) : (c.pendWrite n x).causeSeq = c.causeSeq := rfl
@[simp] theorem Core.chargeTo_pendWrite (c : Core) (n : Nat) (x : Write) : (c.pendWrite n x).chargeTo = c.chargeTo := rfl
@[simp] theorem Core.yieldReq_pendWrite (c : Core) (n : Nat) (x : Write) : (c.pendWrite n x).yieldReq = c.yieldReq := rfl
@[simp] theorem Core.probed_pendWrite (c : Core) (n : Nat) (x : Write) : (c.pendWrite n x).probed = c.probed := rfl
@[simp] theorem Core.acct_pendWrite (c : Core) (n : Nat) (x : Write) : (c.pendWrite n x).acct = c.acct := rfl
@[simp] theorem Core.hooks_pendWrite (c : Core) (n : Nat) (x : Write) : (c.pendWrite n x).hooks = c.hooks := rfl
@[simp] theorem Core.await_pendWrite (c : Core) (n : Nat) (x : Write) : (c.pendWrite n x).await = c.await := rfl
@[simp] theorem Core.recolors_pendWrite (c : Core) (n : Nat) (x : Write) : (c.pendWrite n x).recolors = c.recolors := rfl
@[simp] theorem Core.icache_pendWrite (c : Core) (n : Nat) (x : Write) : (c.pendWrite n x).icache = c.icache := rfl
@[simp] theorem Core.power_pendWrite (c : Core) (n : Nat) (x : Write) : (c.pendWrite n x).power = c.power := rfl
@[simp] theorem Core.event_pendWrite (c : Core) (n : Nat) (x : Write) : (c.pendWrite n x).event = c.event := rfl

/-! ### drive -/

@[simp] theorem Core.bt_drive (c : Core) (st : Nat) (bt : W64) (n : Nat) (z : BitVec 6) (b : Option Beat) : (c.drive st bt n z b).bt = c.bt := rfl
@[simp] theorem Core.pc_drive (c : Core) (st : Nat) (bt : W64) (n : Nat) (z : BitVec 6) (b : Option Beat) : (c.drive st bt n z b).pc = c.pc := rfl
@[simp] theorem Core.cycle_drive (c : Core) (st : Nat) (bt : W64) (n : Nat) (z : BitVec 6) (b : Option Beat) : (c.drive st bt n z b).cycle = c.cycle := rfl
@[simp] theorem Core.supervisor_drive (c : Core) (st : Nat) (bt : W64) (n : Nat) (z : BitVec 6) (b : Option Beat) : (c.drive st bt n z b).supervisor = c.supervisor := rfl
@[simp] theorem Core.stopped_drive (c : Core) (st : Nat) (bt : W64) (n : Nat) (z : BitVec 6) (b : Option Beat) : (c.drive st bt n z b).stopped = c.stopped := rfl
@[simp] theorem Core.s_drive (c : Core) (st : Nat) (bt : W64) (n : Nat) (z : BitVec 6) (b : Option Beat) : (c.drive st bt n z b).s = c.s := rfl
@[simp] theorem Core.p_drive (c : Core) (st : Nat) (bt : W64) (n : Nat) (z : BitVec 6) (b : Option Beat) : (c.drive st bt n z b).p = c.p := rfl
@[simp] theorem Core.h_drive (c : Core) (st : Nat) (bt : W64) (n : Nat) (z : BitVec 6) (b : Option Beat) : (c.drive st bt n z b).h = c.h := rfl
@[simp] theorem Core.k_drive (c : Core) (st : Nat) (bt : W64) (n : Nat) (z : BitVec 6) (b : Option Beat) : (c.drive st bt n z b).k = c.k := rfl
@[simp] theorem Core.l_drive (c : Core) (st : Nat) (bt : W64) (n : Nat) (z : BitVec 6) (b : Option Beat) : (c.drive st bt n z b).l = c.l := rfl
@[simp] theorem Core.kn_drive (c : Core) (st : Nat) (bt : W64) (n : Nat) (z : BitVec 6) (b : Option Beat) : (c.drive st bt n z b).kn = c.kn := rfl
@[simp] theorem Core.cr_drive (c : Core) (st : Nat) (bt : W64) (n : Nat) (z : BitVec 6) (b : Option Beat) : (c.drive st bt n z b).cr = c.cr := rfl
@[simp] theorem Core.timing_drive (c : Core) (st : Nat) (bt : W64) (n : Nat) (z : BitVec 6) (b : Option Beat) : (c.drive st bt n z b).timing = c.timing := rfl
@[simp] theorem Core.region_drive (c : Core) (st : Nat) (bt : W64) (n : Nat) (z : BitVec 6) (b : Option Beat) : (c.drive st bt n z b).region = c.region := rfl
@[simp] theorem Core.strands_drive (c : Core) (st : Nat) (bt : W64) (n : Nat) (z : BitVec 6) (b : Option Beat) : (c.drive st bt n z b).strands = c.strands := rfl
@[simp] theorem Core.spad_drive (c : Core) (st : Nat) (bt : W64) (n : Nat) (z : BitVec 6) (b : Option Beat) : (c.drive st bt n z b).spad = c.spad := rfl
@[simp] theorem Core.fe_drive (c : Core) (st : Nat) (bt : W64) (n : Nat) (z : BitVec 6) (b : Option Beat) : (c.drive st bt n z b).fe = c.fe := rfl
@[simp] theorem Core.poison_drive (c : Core) (st : Nat) (bt : W64) (n : Nat) (z : BitVec 6) (b : Option Beat) : (c.drive st bt n z b).poison = c.poison := rfl
@[simp] theorem Core.sticky_drive (c : Core) (st : Nat) (bt : W64) (n : Nat) (z : BitVec 6) (b : Option Beat) : (c.drive st bt n z b).sticky = c.sticky := rfl
@[simp] theorem Core.pend_drive (c : Core) (st : Nat) (bt : W64) (n : Nat) (z : BitVec 6) (b : Option Beat) : (c.drive st bt n z b).pend = c.pend := rfl
@[simp] theorem Core.flagOrs_drive (c : Core) (st : Nat) (bt : W64) (n : Nat) (z : BitVec 6) (b : Option Beat) : (c.drive st bt n z b).flagOrs = c.flagOrs := rfl
@[simp] theorem Core.landings_drive (c : Core) (st : Nat) (bt : W64) (n : Nat) (z : BitVec 6) (b : Option Beat) : (c.drive st bt n z b).landings = c.landings := rfl
@[simp] theorem Core.nextLanding_drive (c : Core) (st : Nat) (bt : W64) (n : Nat) (z : BitVec 6) (b : Option Beat) : (c.drive st bt n z b).nextLanding = c.nextLanding := rfl
@[simp] theorem Core.mx_drive (c : Core) (st : Nat) (bt : W64) (n : Nat) (z : BitVec 6) (b : Option Beat) : (c.drive st bt n z b).mx = c.mx := rfl
@[simp] theorem Core.mq_drive (c : Core) (st : Nat) (bt : W64) (n : Nat) (z : BitVec 6) (b : Option Beat) : (c.drive st bt n z b).mq = c.mq := rfl
@[simp] theorem Core.copies_drive (c : Core) (st : Nat) (bt : W64) (n : Nat) (z : BitVec 6) (b : Option Beat) : (c.drive st bt n z b).copies = c.copies := rfl
@[simp] theorem Core.nextCopy_drive (c : Core) (st : Nat) (bt : W64) (n : Nat) (z : BitVec 6) (b : Option Beat) : (c.drive st bt n z b).nextCopy = c.nextCopy := rfl
@[simp] theorem Core.streamFault_drive (c : Core) (st : Nat) (bt : W64) (n : Nat) (z : BitVec 6) (b : Option Beat) : (c.drive st bt n z b).streamFault = c.streamFault := rfl
@[simp] theorem Core.l1_drive (c : Core) (st : Nat) (bt : W64) (n : Nat) (z : BitVec 6) (b : Option Beat) : (c.drive st bt n z b).l1 = c.l1 := rfl
@[simp] theorem Core.refusals_drive (c : Core) (st : Nat) (bt : W64) (n : Nat) (z : BitVec 6) (b : Option Beat) : (c.drive st bt n z b).refusals = c.refusals := rfl
@[simp] theorem Core.stream_drive (c : Core) (st : Nat) (bt : W64) (n : Nat) (z : BitVec 6) (b : Option Beat) : (c.drive st bt n z b).stream = c.stream := rfl
@[simp] theorem Core.tracker_drive (c : Core) (st : Nat) (bt : W64) (n : Nat) (z : BitVec 6) (b : Option Beat) : (c.drive st bt n z b).tracker = c.tracker := rfl
@[simp] theorem Core.ranges_drive (c : Core) (st : Nat) (bt : W64) (n : Nat) (z : BitVec 6) (b : Option Beat) : (c.drive st bt n z b).ranges = c.ranges := rfl
@[simp] theorem Core.fmtBits_drive (c : Core) (st : Nat) (bt : W64) (n : Nat) (z : BitVec 6) (b : Option Beat) : (c.drive st bt n z b).fmtBits = c.fmtBits := rfl
@[simp] theorem Core.latch_drive (c : Core) (st : Nat) (bt : W64) (n : Nat) (z : BitVec 6) (b : Option Beat) : (c.drive st bt n z b).latch = c.latch := rfl
@[simp] theorem Core.repLeft_drive (c : Core) (st : Nat) (bt : W64) (n : Nat) (z : BitVec 6) (b : Option Beat) : (c.drive st bt n z b).repLeft = c.repLeft := rfl
@[simp] theorem Core.ecc_drive (c : Core) (st : Nat) (bt : W64) (n : Nat) (z : BitVec 6) (b : Option Beat) : (c.drive st bt n z b).ecc = c.ecc := rfl
@[simp] theorem Core.async_drive (c : Core) (st : Nat) (bt : W64) (n : Nat) (z : BitVec 6) (b : Option Beat) : (c.drive st bt n z b).async = c.async := rfl
@[simp] theorem Core.item_drive (c : Core) (st : Nat) (bt : W64) (n : Nat) (z : BitVec 6) (b : Option Beat) : (c.drive st bt n z b).item = c.item := rfl
@[simp] theorem Core.saved_drive (c : Core) (st : Nat) (bt : W64) (n : Nat) (z : BitVec 6) (b : Option Beat) : (c.drive st bt n z b).saved = c.saved := rfl
@[simp] theorem Core.incoming_drive (c : Core) (st : Nat) (bt : W64) (n : Nat) (z : BitVec 6) (b : Option Beat) : (c.drive st bt n z b).incoming = c.incoming := rfl
@[simp] theorem Core.bar_drive (c : Core) (st : Nat) (bt : W64) (n : Nat) (z : BitVec 6) (b : Option Beat) : (c.drive st bt n z b).bar = c.bar := rfl
@[simp] theorem Core.barPc_drive (c : Core) (st : Nat) (bt : W64) (n : Nat) (z : BitVec 6) (b : Option Beat) : (c.drive st bt n z b).barPc = c.barPc := rfl
@[simp] theorem Core.causeSeq_drive (c : Core) (st : Nat) (bt : W64) (n : Nat) (z : BitVec 6) (b : Option Beat) : (c.drive st bt n z b).causeSeq = c.causeSeq := rfl
@[simp] theorem Core.chargeTo_drive (c : Core) (st : Nat) (bt : W64) (n : Nat) (z : BitVec 6) (b : Option Beat) : (c.drive st bt n z b).chargeTo = c.chargeTo := rfl
@[simp] theorem Core.yieldReq_drive (c : Core) (st : Nat) (bt : W64) (n : Nat) (z : BitVec 6) (b : Option Beat) : (c.drive st bt n z b).yieldReq = c.yieldReq := rfl
@[simp] theorem Core.probed_drive (c : Core) (st : Nat) (bt : W64) (n : Nat) (z : BitVec 6) (b : Option Beat) : (c.drive st bt n z b).probed = c.probed := rfl
@[simp] theorem Core.acct_drive (c : Core) (st : Nat) (bt : W64) (n : Nat) (z : BitVec 6) (b : Option Beat) : (c.drive st bt n z b).acct = c.acct := rfl
@[simp] theorem Core.hooks_drive (c : Core) (st : Nat) (bt : W64) (n : Nat) (z : BitVec 6) (b : Option Beat) : (c.drive st bt n z b).hooks = c.hooks := rfl
@[simp] theorem Core.await_drive (c : Core) (st : Nat) (bt : W64) (n : Nat) (z : BitVec 6) (b : Option Beat) : (c.drive st bt n z b).await = c.await := rfl
@[simp] theorem Core.recolors_drive (c : Core) (st : Nat) (bt : W64) (n : Nat) (z : BitVec 6) (b : Option Beat) : (c.drive st bt n z b).recolors = c.recolors := rfl
@[simp] theorem Core.icache_drive (c : Core) (st : Nat) (bt : W64) (n : Nat) (z : BitVec 6) (b : Option Beat) : (c.drive st bt n z b).icache = c.icache := rfl
@[simp] theorem Core.power_drive (c : Core) (st : Nat) (bt : W64) (n : Nat) (z : BitVec 6) (b : Option Beat) : (c.drive st bt n z b).power = c.power := rfl
@[simp] theorem Core.event_drive (c : Core) (st : Nat) (bt : W64) (n : Nat) (z : BitVec 6) (b : Option Beat) : (c.drive st bt n z b).event = c.event := rfl

/-! ### unpoison -/

@[simp] theorem Core.bt_unpoison (c : Core) (q : UePlace) : (c.unpoison q).bt = c.bt := rfl
@[simp] theorem Core.pc_unpoison (c : Core) (q : UePlace) : (c.unpoison q).pc = c.pc := rfl
@[simp] theorem Core.cycle_unpoison (c : Core) (q : UePlace) : (c.unpoison q).cycle = c.cycle := rfl
@[simp] theorem Core.supervisor_unpoison (c : Core) (q : UePlace) : (c.unpoison q).supervisor = c.supervisor := rfl
@[simp] theorem Core.stopped_unpoison (c : Core) (q : UePlace) : (c.unpoison q).stopped = c.stopped := rfl
@[simp] theorem Core.s_unpoison (c : Core) (q : UePlace) : (c.unpoison q).s = c.s := rfl
@[simp] theorem Core.p_unpoison (c : Core) (q : UePlace) : (c.unpoison q).p = c.p := rfl
@[simp] theorem Core.h_unpoison (c : Core) (q : UePlace) : (c.unpoison q).h = c.h := rfl
@[simp] theorem Core.k_unpoison (c : Core) (q : UePlace) : (c.unpoison q).k = c.k := rfl
@[simp] theorem Core.l_unpoison (c : Core) (q : UePlace) : (c.unpoison q).l = c.l := rfl
@[simp] theorem Core.kn_unpoison (c : Core) (q : UePlace) : (c.unpoison q).kn = c.kn := rfl
@[simp] theorem Core.cr_unpoison (c : Core) (q : UePlace) : (c.unpoison q).cr = c.cr := rfl
@[simp] theorem Core.timing_unpoison (c : Core) (q : UePlace) : (c.unpoison q).timing = c.timing := rfl
@[simp] theorem Core.region_unpoison (c : Core) (q : UePlace) : (c.unpoison q).region = c.region := rfl
@[simp] theorem Core.strands_unpoison (c : Core) (q : UePlace) : (c.unpoison q).strands = c.strands := rfl
@[simp] theorem Core.spad_unpoison (c : Core) (q : UePlace) : (c.unpoison q).spad = c.spad := rfl
@[simp] theorem Core.fe_unpoison (c : Core) (q : UePlace) : (c.unpoison q).fe = c.fe := rfl
@[simp] theorem Core.sticky_unpoison (c : Core) (q : UePlace) : (c.unpoison q).sticky = c.sticky := rfl
@[simp] theorem Core.pend_unpoison (c : Core) (q : UePlace) : (c.unpoison q).pend = c.pend := rfl
@[simp] theorem Core.drives_unpoison (c : Core) (q : UePlace) : (c.unpoison q).drives = c.drives := rfl
@[simp] theorem Core.flagOrs_unpoison (c : Core) (q : UePlace) : (c.unpoison q).flagOrs = c.flagOrs := rfl
@[simp] theorem Core.landings_unpoison (c : Core) (q : UePlace) : (c.unpoison q).landings = c.landings := rfl
@[simp] theorem Core.nextLanding_unpoison (c : Core) (q : UePlace) : (c.unpoison q).nextLanding = c.nextLanding := rfl
@[simp] theorem Core.mx_unpoison (c : Core) (q : UePlace) : (c.unpoison q).mx = c.mx := rfl
@[simp] theorem Core.mq_unpoison (c : Core) (q : UePlace) : (c.unpoison q).mq = c.mq := rfl
@[simp] theorem Core.copies_unpoison (c : Core) (q : UePlace) : (c.unpoison q).copies = c.copies := rfl
@[simp] theorem Core.nextCopy_unpoison (c : Core) (q : UePlace) : (c.unpoison q).nextCopy = c.nextCopy := rfl
@[simp] theorem Core.streamFault_unpoison (c : Core) (q : UePlace) : (c.unpoison q).streamFault = c.streamFault := rfl
@[simp] theorem Core.l1_unpoison (c : Core) (q : UePlace) : (c.unpoison q).l1 = c.l1 := rfl
@[simp] theorem Core.refusals_unpoison (c : Core) (q : UePlace) : (c.unpoison q).refusals = c.refusals := rfl
@[simp] theorem Core.stream_unpoison (c : Core) (q : UePlace) : (c.unpoison q).stream = c.stream := rfl
@[simp] theorem Core.tracker_unpoison (c : Core) (q : UePlace) : (c.unpoison q).tracker = c.tracker := rfl
@[simp] theorem Core.ranges_unpoison (c : Core) (q : UePlace) : (c.unpoison q).ranges = c.ranges := rfl
@[simp] theorem Core.fmtBits_unpoison (c : Core) (q : UePlace) : (c.unpoison q).fmtBits = c.fmtBits := rfl
@[simp] theorem Core.latch_unpoison (c : Core) (q : UePlace) : (c.unpoison q).latch = c.latch := rfl
@[simp] theorem Core.repLeft_unpoison (c : Core) (q : UePlace) : (c.unpoison q).repLeft = c.repLeft := rfl
@[simp] theorem Core.ecc_unpoison (c : Core) (q : UePlace) : (c.unpoison q).ecc = c.ecc := rfl
@[simp] theorem Core.async_unpoison (c : Core) (q : UePlace) : (c.unpoison q).async = c.async := rfl
@[simp] theorem Core.item_unpoison (c : Core) (q : UePlace) : (c.unpoison q).item = c.item := rfl
@[simp] theorem Core.saved_unpoison (c : Core) (q : UePlace) : (c.unpoison q).saved = c.saved := rfl
@[simp] theorem Core.incoming_unpoison (c : Core) (q : UePlace) : (c.unpoison q).incoming = c.incoming := rfl
@[simp] theorem Core.bar_unpoison (c : Core) (q : UePlace) : (c.unpoison q).bar = c.bar := rfl
@[simp] theorem Core.barPc_unpoison (c : Core) (q : UePlace) : (c.unpoison q).barPc = c.barPc := rfl
@[simp] theorem Core.causeSeq_unpoison (c : Core) (q : UePlace) : (c.unpoison q).causeSeq = c.causeSeq := rfl
@[simp] theorem Core.chargeTo_unpoison (c : Core) (q : UePlace) : (c.unpoison q).chargeTo = c.chargeTo := rfl
@[simp] theorem Core.yieldReq_unpoison (c : Core) (q : UePlace) : (c.unpoison q).yieldReq = c.yieldReq := rfl
@[simp] theorem Core.probed_unpoison (c : Core) (q : UePlace) : (c.unpoison q).probed = c.probed := rfl
@[simp] theorem Core.acct_unpoison (c : Core) (q : UePlace) : (c.unpoison q).acct = c.acct := rfl
@[simp] theorem Core.hooks_unpoison (c : Core) (q : UePlace) : (c.unpoison q).hooks = c.hooks := rfl
@[simp] theorem Core.await_unpoison (c : Core) (q : UePlace) : (c.unpoison q).await = c.await := rfl
@[simp] theorem Core.recolors_unpoison (c : Core) (q : UePlace) : (c.unpoison q).recolors = c.recolors := rfl
@[simp] theorem Core.icache_unpoison (c : Core) (q : UePlace) : (c.unpoison q).icache = c.icache := rfl
@[simp] theorem Core.power_unpoison (c : Core) (q : UePlace) : (c.unpoison q).power = c.power := rfl
@[simp] theorem Core.event_unpoison (c : Core) (q : UePlace) : (c.unpoison q).event = c.event := rfl

/-! ### setS -/

@[simp] theorem Core.bt_setS (c : Core) (n : BitVec 6) (v : W64) : (c.setS n v).bt = c.bt := by unfold Core.setS; split <;> rfl
@[simp] theorem Core.pc_setS (c : Core) (n : BitVec 6) (v : W64) : (c.setS n v).pc = c.pc := by unfold Core.setS; split <;> rfl
@[simp] theorem Core.cycle_setS (c : Core) (n : BitVec 6) (v : W64) : (c.setS n v).cycle = c.cycle := by unfold Core.setS; split <;> rfl
@[simp] theorem Core.supervisor_setS (c : Core) (n : BitVec 6) (v : W64) : (c.setS n v).supervisor = c.supervisor := by unfold Core.setS; split <;> rfl
@[simp] theorem Core.stopped_setS (c : Core) (n : BitVec 6) (v : W64) : (c.setS n v).stopped = c.stopped := by unfold Core.setS; split <;> rfl
@[simp] theorem Core.p_setS (c : Core) (n : BitVec 6) (v : W64) : (c.setS n v).p = c.p := by unfold Core.setS; split <;> rfl
@[simp] theorem Core.h_setS (c : Core) (n : BitVec 6) (v : W64) : (c.setS n v).h = c.h := by unfold Core.setS; split <;> rfl
@[simp] theorem Core.k_setS (c : Core) (n : BitVec 6) (v : W64) : (c.setS n v).k = c.k := by unfold Core.setS; split <;> rfl
@[simp] theorem Core.l_setS (c : Core) (n : BitVec 6) (v : W64) : (c.setS n v).l = c.l := by unfold Core.setS; split <;> rfl
@[simp] theorem Core.kn_setS (c : Core) (n : BitVec 6) (v : W64) : (c.setS n v).kn = c.kn := by unfold Core.setS; split <;> rfl
@[simp] theorem Core.cr_setS (c : Core) (n : BitVec 6) (v : W64) : (c.setS n v).cr = c.cr := by unfold Core.setS; split <;> rfl
@[simp] theorem Core.timing_setS (c : Core) (n : BitVec 6) (v : W64) : (c.setS n v).timing = c.timing := by unfold Core.setS; split <;> rfl
@[simp] theorem Core.region_setS (c : Core) (n : BitVec 6) (v : W64) : (c.setS n v).region = c.region := by unfold Core.setS; split <;> rfl
@[simp] theorem Core.strands_setS (c : Core) (n : BitVec 6) (v : W64) : (c.setS n v).strands = c.strands := by unfold Core.setS; split <;> rfl
@[simp] theorem Core.spad_setS (c : Core) (n : BitVec 6) (v : W64) : (c.setS n v).spad = c.spad := by unfold Core.setS; split <;> rfl
@[simp] theorem Core.fe_setS (c : Core) (n : BitVec 6) (v : W64) : (c.setS n v).fe = c.fe := by unfold Core.setS; split <;> rfl
@[simp] theorem Core.poison_setS (c : Core) (n : BitVec 6) (v : W64) : (c.setS n v).poison = c.poison := by unfold Core.setS; split <;> rfl
@[simp] theorem Core.sticky_setS (c : Core) (n : BitVec 6) (v : W64) : (c.setS n v).sticky = c.sticky := by unfold Core.setS; split <;> rfl
@[simp] theorem Core.pend_setS (c : Core) (n : BitVec 6) (v : W64) : (c.setS n v).pend = c.pend := by unfold Core.setS; split <;> rfl
@[simp] theorem Core.drives_setS (c : Core) (n : BitVec 6) (v : W64) : (c.setS n v).drives = c.drives := by unfold Core.setS; split <;> rfl
@[simp] theorem Core.flagOrs_setS (c : Core) (n : BitVec 6) (v : W64) : (c.setS n v).flagOrs = c.flagOrs := by unfold Core.setS; split <;> rfl
@[simp] theorem Core.landings_setS (c : Core) (n : BitVec 6) (v : W64) : (c.setS n v).landings = c.landings := by unfold Core.setS; split <;> rfl
@[simp] theorem Core.nextLanding_setS (c : Core) (n : BitVec 6) (v : W64) : (c.setS n v).nextLanding = c.nextLanding := by unfold Core.setS; split <;> rfl
@[simp] theorem Core.mx_setS (c : Core) (n : BitVec 6) (v : W64) : (c.setS n v).mx = c.mx := by unfold Core.setS; split <;> rfl
@[simp] theorem Core.mq_setS (c : Core) (n : BitVec 6) (v : W64) : (c.setS n v).mq = c.mq := by unfold Core.setS; split <;> rfl
@[simp] theorem Core.copies_setS (c : Core) (n : BitVec 6) (v : W64) : (c.setS n v).copies = c.copies := by unfold Core.setS; split <;> rfl
@[simp] theorem Core.nextCopy_setS (c : Core) (n : BitVec 6) (v : W64) : (c.setS n v).nextCopy = c.nextCopy := by unfold Core.setS; split <;> rfl
@[simp] theorem Core.streamFault_setS (c : Core) (n : BitVec 6) (v : W64) : (c.setS n v).streamFault = c.streamFault := by unfold Core.setS; split <;> rfl
@[simp] theorem Core.l1_setS (c : Core) (n : BitVec 6) (v : W64) : (c.setS n v).l1 = c.l1 := by unfold Core.setS; split <;> rfl
@[simp] theorem Core.refusals_setS (c : Core) (n : BitVec 6) (v : W64) : (c.setS n v).refusals = c.refusals := by unfold Core.setS; split <;> rfl
@[simp] theorem Core.stream_setS (c : Core) (n : BitVec 6) (v : W64) : (c.setS n v).stream = c.stream := by unfold Core.setS; split <;> rfl
@[simp] theorem Core.tracker_setS (c : Core) (n : BitVec 6) (v : W64) : (c.setS n v).tracker = c.tracker := by unfold Core.setS; split <;> rfl
@[simp] theorem Core.ranges_setS (c : Core) (n : BitVec 6) (v : W64) : (c.setS n v).ranges = c.ranges := by unfold Core.setS; split <;> rfl
@[simp] theorem Core.fmtBits_setS (c : Core) (n : BitVec 6) (v : W64) : (c.setS n v).fmtBits = c.fmtBits := by unfold Core.setS; split <;> rfl
@[simp] theorem Core.latch_setS (c : Core) (n : BitVec 6) (v : W64) : (c.setS n v).latch = c.latch := by unfold Core.setS; split <;> rfl
@[simp] theorem Core.repLeft_setS (c : Core) (n : BitVec 6) (v : W64) : (c.setS n v).repLeft = c.repLeft := by unfold Core.setS; split <;> rfl
@[simp] theorem Core.ecc_setS (c : Core) (n : BitVec 6) (v : W64) : (c.setS n v).ecc = c.ecc := by unfold Core.setS; split <;> rfl
@[simp] theorem Core.async_setS (c : Core) (n : BitVec 6) (v : W64) : (c.setS n v).async = c.async := by unfold Core.setS; split <;> rfl
@[simp] theorem Core.item_setS (c : Core) (n : BitVec 6) (v : W64) : (c.setS n v).item = c.item := by unfold Core.setS; split <;> rfl
@[simp] theorem Core.saved_setS (c : Core) (n : BitVec 6) (v : W64) : (c.setS n v).saved = c.saved := by unfold Core.setS; split <;> rfl
@[simp] theorem Core.incoming_setS (c : Core) (n : BitVec 6) (v : W64) : (c.setS n v).incoming = c.incoming := by unfold Core.setS; split <;> rfl
@[simp] theorem Core.bar_setS (c : Core) (n : BitVec 6) (v : W64) : (c.setS n v).bar = c.bar := by unfold Core.setS; split <;> rfl
@[simp] theorem Core.barPc_setS (c : Core) (n : BitVec 6) (v : W64) : (c.setS n v).barPc = c.barPc := by unfold Core.setS; split <;> rfl
@[simp] theorem Core.causeSeq_setS (c : Core) (n : BitVec 6) (v : W64) : (c.setS n v).causeSeq = c.causeSeq := by unfold Core.setS; split <;> rfl
@[simp] theorem Core.chargeTo_setS (c : Core) (n : BitVec 6) (v : W64) : (c.setS n v).chargeTo = c.chargeTo := by unfold Core.setS; split <;> rfl
@[simp] theorem Core.yieldReq_setS (c : Core) (n : BitVec 6) (v : W64) : (c.setS n v).yieldReq = c.yieldReq := by unfold Core.setS; split <;> rfl
@[simp] theorem Core.probed_setS (c : Core) (n : BitVec 6) (v : W64) : (c.setS n v).probed = c.probed := by unfold Core.setS; split <;> rfl
@[simp] theorem Core.acct_setS (c : Core) (n : BitVec 6) (v : W64) : (c.setS n v).acct = c.acct := by unfold Core.setS; split <;> rfl
@[simp] theorem Core.hooks_setS (c : Core) (n : BitVec 6) (v : W64) : (c.setS n v).hooks = c.hooks := by unfold Core.setS; split <;> rfl
@[simp] theorem Core.await_setS (c : Core) (n : BitVec 6) (v : W64) : (c.setS n v).await = c.await := by unfold Core.setS; split <;> rfl
@[simp] theorem Core.recolors_setS (c : Core) (n : BitVec 6) (v : W64) : (c.setS n v).recolors = c.recolors := by unfold Core.setS; split <;> rfl
@[simp] theorem Core.icache_setS (c : Core) (n : BitVec 6) (v : W64) : (c.setS n v).icache = c.icache := by unfold Core.setS; split <;> rfl
@[simp] theorem Core.power_setS (c : Core) (n : BitVec 6) (v : W64) : (c.setS n v).power = c.power := by unfold Core.setS; split <;> rfl
@[simp] theorem Core.event_setS (c : Core) (n : BitVec 6) (v : W64) : (c.setS n v).event = c.event := by unfold Core.setS; split <;> rfl

/-! ### setP -/

@[simp] theorem Core.bt_setP (c : Core) (n : BitVec 6) (v : Bool) : (c.setP n v).bt = c.bt := by unfold Core.setP; split <;> rfl
@[simp] theorem Core.pc_setP (c : Core) (n : BitVec 6) (v : Bool) : (c.setP n v).pc = c.pc := by unfold Core.setP; split <;> rfl
@[simp] theorem Core.cycle_setP (c : Core) (n : BitVec 6) (v : Bool) : (c.setP n v).cycle = c.cycle := by unfold Core.setP; split <;> rfl
@[simp] theorem Core.supervisor_setP (c : Core) (n : BitVec 6) (v : Bool) : (c.setP n v).supervisor = c.supervisor := by unfold Core.setP; split <;> rfl
@[simp] theorem Core.stopped_setP (c : Core) (n : BitVec 6) (v : Bool) : (c.setP n v).stopped = c.stopped := by unfold Core.setP; split <;> rfl
@[simp] theorem Core.s_setP (c : Core) (n : BitVec 6) (v : Bool) : (c.setP n v).s = c.s := by unfold Core.setP; split <;> rfl
@[simp] theorem Core.h_setP (c : Core) (n : BitVec 6) (v : Bool) : (c.setP n v).h = c.h := by unfold Core.setP; split <;> rfl
@[simp] theorem Core.k_setP (c : Core) (n : BitVec 6) (v : Bool) : (c.setP n v).k = c.k := by unfold Core.setP; split <;> rfl
@[simp] theorem Core.l_setP (c : Core) (n : BitVec 6) (v : Bool) : (c.setP n v).l = c.l := by unfold Core.setP; split <;> rfl
@[simp] theorem Core.kn_setP (c : Core) (n : BitVec 6) (v : Bool) : (c.setP n v).kn = c.kn := by unfold Core.setP; split <;> rfl
@[simp] theorem Core.cr_setP (c : Core) (n : BitVec 6) (v : Bool) : (c.setP n v).cr = c.cr := by unfold Core.setP; split <;> rfl
@[simp] theorem Core.timing_setP (c : Core) (n : BitVec 6) (v : Bool) : (c.setP n v).timing = c.timing := by unfold Core.setP; split <;> rfl
@[simp] theorem Core.region_setP (c : Core) (n : BitVec 6) (v : Bool) : (c.setP n v).region = c.region := by unfold Core.setP; split <;> rfl
@[simp] theorem Core.strands_setP (c : Core) (n : BitVec 6) (v : Bool) : (c.setP n v).strands = c.strands := by unfold Core.setP; split <;> rfl
@[simp] theorem Core.spad_setP (c : Core) (n : BitVec 6) (v : Bool) : (c.setP n v).spad = c.spad := by unfold Core.setP; split <;> rfl
@[simp] theorem Core.fe_setP (c : Core) (n : BitVec 6) (v : Bool) : (c.setP n v).fe = c.fe := by unfold Core.setP; split <;> rfl
@[simp] theorem Core.poison_setP (c : Core) (n : BitVec 6) (v : Bool) : (c.setP n v).poison = c.poison := by unfold Core.setP; split <;> rfl
@[simp] theorem Core.sticky_setP (c : Core) (n : BitVec 6) (v : Bool) : (c.setP n v).sticky = c.sticky := by unfold Core.setP; split <;> rfl
@[simp] theorem Core.pend_setP (c : Core) (n : BitVec 6) (v : Bool) : (c.setP n v).pend = c.pend := by unfold Core.setP; split <;> rfl
@[simp] theorem Core.drives_setP (c : Core) (n : BitVec 6) (v : Bool) : (c.setP n v).drives = c.drives := by unfold Core.setP; split <;> rfl
@[simp] theorem Core.flagOrs_setP (c : Core) (n : BitVec 6) (v : Bool) : (c.setP n v).flagOrs = c.flagOrs := by unfold Core.setP; split <;> rfl
@[simp] theorem Core.landings_setP (c : Core) (n : BitVec 6) (v : Bool) : (c.setP n v).landings = c.landings := by unfold Core.setP; split <;> rfl
@[simp] theorem Core.nextLanding_setP (c : Core) (n : BitVec 6) (v : Bool) : (c.setP n v).nextLanding = c.nextLanding := by unfold Core.setP; split <;> rfl
@[simp] theorem Core.mx_setP (c : Core) (n : BitVec 6) (v : Bool) : (c.setP n v).mx = c.mx := by unfold Core.setP; split <;> rfl
@[simp] theorem Core.mq_setP (c : Core) (n : BitVec 6) (v : Bool) : (c.setP n v).mq = c.mq := by unfold Core.setP; split <;> rfl
@[simp] theorem Core.copies_setP (c : Core) (n : BitVec 6) (v : Bool) : (c.setP n v).copies = c.copies := by unfold Core.setP; split <;> rfl
@[simp] theorem Core.nextCopy_setP (c : Core) (n : BitVec 6) (v : Bool) : (c.setP n v).nextCopy = c.nextCopy := by unfold Core.setP; split <;> rfl
@[simp] theorem Core.streamFault_setP (c : Core) (n : BitVec 6) (v : Bool) : (c.setP n v).streamFault = c.streamFault := by unfold Core.setP; split <;> rfl
@[simp] theorem Core.l1_setP (c : Core) (n : BitVec 6) (v : Bool) : (c.setP n v).l1 = c.l1 := by unfold Core.setP; split <;> rfl
@[simp] theorem Core.refusals_setP (c : Core) (n : BitVec 6) (v : Bool) : (c.setP n v).refusals = c.refusals := by unfold Core.setP; split <;> rfl
@[simp] theorem Core.stream_setP (c : Core) (n : BitVec 6) (v : Bool) : (c.setP n v).stream = c.stream := by unfold Core.setP; split <;> rfl
@[simp] theorem Core.tracker_setP (c : Core) (n : BitVec 6) (v : Bool) : (c.setP n v).tracker = c.tracker := by unfold Core.setP; split <;> rfl
@[simp] theorem Core.ranges_setP (c : Core) (n : BitVec 6) (v : Bool) : (c.setP n v).ranges = c.ranges := by unfold Core.setP; split <;> rfl
@[simp] theorem Core.fmtBits_setP (c : Core) (n : BitVec 6) (v : Bool) : (c.setP n v).fmtBits = c.fmtBits := by unfold Core.setP; split <;> rfl
@[simp] theorem Core.latch_setP (c : Core) (n : BitVec 6) (v : Bool) : (c.setP n v).latch = c.latch := by unfold Core.setP; split <;> rfl
@[simp] theorem Core.repLeft_setP (c : Core) (n : BitVec 6) (v : Bool) : (c.setP n v).repLeft = c.repLeft := by unfold Core.setP; split <;> rfl
@[simp] theorem Core.ecc_setP (c : Core) (n : BitVec 6) (v : Bool) : (c.setP n v).ecc = c.ecc := by unfold Core.setP; split <;> rfl
@[simp] theorem Core.async_setP (c : Core) (n : BitVec 6) (v : Bool) : (c.setP n v).async = c.async := by unfold Core.setP; split <;> rfl
@[simp] theorem Core.item_setP (c : Core) (n : BitVec 6) (v : Bool) : (c.setP n v).item = c.item := by unfold Core.setP; split <;> rfl
@[simp] theorem Core.saved_setP (c : Core) (n : BitVec 6) (v : Bool) : (c.setP n v).saved = c.saved := by unfold Core.setP; split <;> rfl
@[simp] theorem Core.incoming_setP (c : Core) (n : BitVec 6) (v : Bool) : (c.setP n v).incoming = c.incoming := by unfold Core.setP; split <;> rfl
@[simp] theorem Core.bar_setP (c : Core) (n : BitVec 6) (v : Bool) : (c.setP n v).bar = c.bar := by unfold Core.setP; split <;> rfl
@[simp] theorem Core.barPc_setP (c : Core) (n : BitVec 6) (v : Bool) : (c.setP n v).barPc = c.barPc := by unfold Core.setP; split <;> rfl
@[simp] theorem Core.causeSeq_setP (c : Core) (n : BitVec 6) (v : Bool) : (c.setP n v).causeSeq = c.causeSeq := by unfold Core.setP; split <;> rfl
@[simp] theorem Core.chargeTo_setP (c : Core) (n : BitVec 6) (v : Bool) : (c.setP n v).chargeTo = c.chargeTo := by unfold Core.setP; split <;> rfl
@[simp] theorem Core.yieldReq_setP (c : Core) (n : BitVec 6) (v : Bool) : (c.setP n v).yieldReq = c.yieldReq := by unfold Core.setP; split <;> rfl
@[simp] theorem Core.probed_setP (c : Core) (n : BitVec 6) (v : Bool) : (c.setP n v).probed = c.probed := by unfold Core.setP; split <;> rfl
@[simp] theorem Core.acct_setP (c : Core) (n : BitVec 6) (v : Bool) : (c.setP n v).acct = c.acct := by unfold Core.setP; split <;> rfl
@[simp] theorem Core.hooks_setP (c : Core) (n : BitVec 6) (v : Bool) : (c.setP n v).hooks = c.hooks := by unfold Core.setP; split <;> rfl
@[simp] theorem Core.await_setP (c : Core) (n : BitVec 6) (v : Bool) : (c.setP n v).await = c.await := by unfold Core.setP; split <;> rfl
@[simp] theorem Core.recolors_setP (c : Core) (n : BitVec 6) (v : Bool) : (c.setP n v).recolors = c.recolors := by unfold Core.setP; split <;> rfl
@[simp] theorem Core.icache_setP (c : Core) (n : BitVec 6) (v : Bool) : (c.setP n v).icache = c.icache := by unfold Core.setP; split <;> rfl
@[simp] theorem Core.power_setP (c : Core) (n : BitVec 6) (v : Bool) : (c.setP n v).power = c.power := by unfold Core.setP; split <;> rfl
@[simp] theorem Core.event_setP (c : Core) (n : BitVec 6) (v : Bool) : (c.setP n v).event = c.event := by unfold Core.setP; split <;> rfl

/-! ### setH -/

@[simp] theorem Core.bt_setH (c : Core) (n : BitVec 6) (v : W256) : (c.setH n v).bt = c.bt := rfl
@[simp] theorem Core.pc_setH (c : Core) (n : BitVec 6) (v : W256) : (c.setH n v).pc = c.pc := rfl
@[simp] theorem Core.cycle_setH (c : Core) (n : BitVec 6) (v : W256) : (c.setH n v).cycle = c.cycle := rfl
@[simp] theorem Core.supervisor_setH (c : Core) (n : BitVec 6) (v : W256) : (c.setH n v).supervisor = c.supervisor := rfl
@[simp] theorem Core.stopped_setH (c : Core) (n : BitVec 6) (v : W256) : (c.setH n v).stopped = c.stopped := rfl
@[simp] theorem Core.s_setH (c : Core) (n : BitVec 6) (v : W256) : (c.setH n v).s = c.s := rfl
@[simp] theorem Core.p_setH (c : Core) (n : BitVec 6) (v : W256) : (c.setH n v).p = c.p := rfl
@[simp] theorem Core.k_setH (c : Core) (n : BitVec 6) (v : W256) : (c.setH n v).k = c.k := rfl
@[simp] theorem Core.l_setH (c : Core) (n : BitVec 6) (v : W256) : (c.setH n v).l = c.l := rfl
@[simp] theorem Core.kn_setH (c : Core) (n : BitVec 6) (v : W256) : (c.setH n v).kn = c.kn := rfl
@[simp] theorem Core.cr_setH (c : Core) (n : BitVec 6) (v : W256) : (c.setH n v).cr = c.cr := rfl
@[simp] theorem Core.timing_setH (c : Core) (n : BitVec 6) (v : W256) : (c.setH n v).timing = c.timing := rfl
@[simp] theorem Core.region_setH (c : Core) (n : BitVec 6) (v : W256) : (c.setH n v).region = c.region := rfl
@[simp] theorem Core.strands_setH (c : Core) (n : BitVec 6) (v : W256) : (c.setH n v).strands = c.strands := rfl
@[simp] theorem Core.spad_setH (c : Core) (n : BitVec 6) (v : W256) : (c.setH n v).spad = c.spad := rfl
@[simp] theorem Core.fe_setH (c : Core) (n : BitVec 6) (v : W256) : (c.setH n v).fe = c.fe := rfl
@[simp] theorem Core.poison_setH (c : Core) (n : BitVec 6) (v : W256) : (c.setH n v).poison = c.poison := rfl
@[simp] theorem Core.sticky_setH (c : Core) (n : BitVec 6) (v : W256) : (c.setH n v).sticky = c.sticky := rfl
@[simp] theorem Core.pend_setH (c : Core) (n : BitVec 6) (v : W256) : (c.setH n v).pend = c.pend := rfl
@[simp] theorem Core.drives_setH (c : Core) (n : BitVec 6) (v : W256) : (c.setH n v).drives = c.drives := rfl
@[simp] theorem Core.flagOrs_setH (c : Core) (n : BitVec 6) (v : W256) : (c.setH n v).flagOrs = c.flagOrs := rfl
@[simp] theorem Core.landings_setH (c : Core) (n : BitVec 6) (v : W256) : (c.setH n v).landings = c.landings := rfl
@[simp] theorem Core.nextLanding_setH (c : Core) (n : BitVec 6) (v : W256) : (c.setH n v).nextLanding = c.nextLanding := rfl
@[simp] theorem Core.mx_setH (c : Core) (n : BitVec 6) (v : W256) : (c.setH n v).mx = c.mx := rfl
@[simp] theorem Core.mq_setH (c : Core) (n : BitVec 6) (v : W256) : (c.setH n v).mq = c.mq := rfl
@[simp] theorem Core.copies_setH (c : Core) (n : BitVec 6) (v : W256) : (c.setH n v).copies = c.copies := rfl
@[simp] theorem Core.nextCopy_setH (c : Core) (n : BitVec 6) (v : W256) : (c.setH n v).nextCopy = c.nextCopy := rfl
@[simp] theorem Core.streamFault_setH (c : Core) (n : BitVec 6) (v : W256) : (c.setH n v).streamFault = c.streamFault := rfl
@[simp] theorem Core.l1_setH (c : Core) (n : BitVec 6) (v : W256) : (c.setH n v).l1 = c.l1 := rfl
@[simp] theorem Core.refusals_setH (c : Core) (n : BitVec 6) (v : W256) : (c.setH n v).refusals = c.refusals := rfl
@[simp] theorem Core.stream_setH (c : Core) (n : BitVec 6) (v : W256) : (c.setH n v).stream = c.stream := rfl
@[simp] theorem Core.tracker_setH (c : Core) (n : BitVec 6) (v : W256) : (c.setH n v).tracker = c.tracker := rfl
@[simp] theorem Core.ranges_setH (c : Core) (n : BitVec 6) (v : W256) : (c.setH n v).ranges = c.ranges := rfl
@[simp] theorem Core.fmtBits_setH (c : Core) (n : BitVec 6) (v : W256) : (c.setH n v).fmtBits = c.fmtBits := rfl
@[simp] theorem Core.latch_setH (c : Core) (n : BitVec 6) (v : W256) : (c.setH n v).latch = c.latch := rfl
@[simp] theorem Core.repLeft_setH (c : Core) (n : BitVec 6) (v : W256) : (c.setH n v).repLeft = c.repLeft := rfl
@[simp] theorem Core.ecc_setH (c : Core) (n : BitVec 6) (v : W256) : (c.setH n v).ecc = c.ecc := rfl
@[simp] theorem Core.async_setH (c : Core) (n : BitVec 6) (v : W256) : (c.setH n v).async = c.async := rfl
@[simp] theorem Core.item_setH (c : Core) (n : BitVec 6) (v : W256) : (c.setH n v).item = c.item := rfl
@[simp] theorem Core.saved_setH (c : Core) (n : BitVec 6) (v : W256) : (c.setH n v).saved = c.saved := rfl
@[simp] theorem Core.incoming_setH (c : Core) (n : BitVec 6) (v : W256) : (c.setH n v).incoming = c.incoming := rfl
@[simp] theorem Core.bar_setH (c : Core) (n : BitVec 6) (v : W256) : (c.setH n v).bar = c.bar := rfl
@[simp] theorem Core.barPc_setH (c : Core) (n : BitVec 6) (v : W256) : (c.setH n v).barPc = c.barPc := rfl
@[simp] theorem Core.causeSeq_setH (c : Core) (n : BitVec 6) (v : W256) : (c.setH n v).causeSeq = c.causeSeq := rfl
@[simp] theorem Core.chargeTo_setH (c : Core) (n : BitVec 6) (v : W256) : (c.setH n v).chargeTo = c.chargeTo := rfl
@[simp] theorem Core.yieldReq_setH (c : Core) (n : BitVec 6) (v : W256) : (c.setH n v).yieldReq = c.yieldReq := rfl
@[simp] theorem Core.probed_setH (c : Core) (n : BitVec 6) (v : W256) : (c.setH n v).probed = c.probed := rfl
@[simp] theorem Core.acct_setH (c : Core) (n : BitVec 6) (v : W256) : (c.setH n v).acct = c.acct := rfl
@[simp] theorem Core.hooks_setH (c : Core) (n : BitVec 6) (v : W256) : (c.setH n v).hooks = c.hooks := rfl
@[simp] theorem Core.await_setH (c : Core) (n : BitVec 6) (v : W256) : (c.setH n v).await = c.await := rfl
@[simp] theorem Core.recolors_setH (c : Core) (n : BitVec 6) (v : W256) : (c.setH n v).recolors = c.recolors := rfl
@[simp] theorem Core.icache_setH (c : Core) (n : BitVec 6) (v : W256) : (c.setH n v).icache = c.icache := rfl
@[simp] theorem Core.power_setH (c : Core) (n : BitVec 6) (v : W256) : (c.setH n v).power = c.power := rfl
@[simp] theorem Core.event_setH (c : Core) (n : BitVec 6) (v : W256) : (c.setH n v).event = c.event := rfl

/-! ### setK -/

@[simp] theorem Core.bt_setK (c : Core) (n : BitVec 6) (v : W64) : (c.setK n v).bt = c.bt := rfl
@[simp] theorem Core.pc_setK (c : Core) (n : BitVec 6) (v : W64) : (c.setK n v).pc = c.pc := rfl
@[simp] theorem Core.cycle_setK (c : Core) (n : BitVec 6) (v : W64) : (c.setK n v).cycle = c.cycle := rfl
@[simp] theorem Core.supervisor_setK (c : Core) (n : BitVec 6) (v : W64) : (c.setK n v).supervisor = c.supervisor := rfl
@[simp] theorem Core.stopped_setK (c : Core) (n : BitVec 6) (v : W64) : (c.setK n v).stopped = c.stopped := rfl
@[simp] theorem Core.s_setK (c : Core) (n : BitVec 6) (v : W64) : (c.setK n v).s = c.s := rfl
@[simp] theorem Core.p_setK (c : Core) (n : BitVec 6) (v : W64) : (c.setK n v).p = c.p := rfl
@[simp] theorem Core.h_setK (c : Core) (n : BitVec 6) (v : W64) : (c.setK n v).h = c.h := rfl
@[simp] theorem Core.l_setK (c : Core) (n : BitVec 6) (v : W64) : (c.setK n v).l = c.l := rfl
@[simp] theorem Core.kn_setK (c : Core) (n : BitVec 6) (v : W64) : (c.setK n v).kn = c.kn := rfl
@[simp] theorem Core.cr_setK (c : Core) (n : BitVec 6) (v : W64) : (c.setK n v).cr = c.cr := rfl
@[simp] theorem Core.timing_setK (c : Core) (n : BitVec 6) (v : W64) : (c.setK n v).timing = c.timing := rfl
@[simp] theorem Core.region_setK (c : Core) (n : BitVec 6) (v : W64) : (c.setK n v).region = c.region := rfl
@[simp] theorem Core.strands_setK (c : Core) (n : BitVec 6) (v : W64) : (c.setK n v).strands = c.strands := rfl
@[simp] theorem Core.spad_setK (c : Core) (n : BitVec 6) (v : W64) : (c.setK n v).spad = c.spad := rfl
@[simp] theorem Core.fe_setK (c : Core) (n : BitVec 6) (v : W64) : (c.setK n v).fe = c.fe := rfl
@[simp] theorem Core.poison_setK (c : Core) (n : BitVec 6) (v : W64) : (c.setK n v).poison = c.poison := rfl
@[simp] theorem Core.sticky_setK (c : Core) (n : BitVec 6) (v : W64) : (c.setK n v).sticky = c.sticky := rfl
@[simp] theorem Core.pend_setK (c : Core) (n : BitVec 6) (v : W64) : (c.setK n v).pend = c.pend := rfl
@[simp] theorem Core.drives_setK (c : Core) (n : BitVec 6) (v : W64) : (c.setK n v).drives = c.drives := rfl
@[simp] theorem Core.flagOrs_setK (c : Core) (n : BitVec 6) (v : W64) : (c.setK n v).flagOrs = c.flagOrs := rfl
@[simp] theorem Core.landings_setK (c : Core) (n : BitVec 6) (v : W64) : (c.setK n v).landings = c.landings := rfl
@[simp] theorem Core.nextLanding_setK (c : Core) (n : BitVec 6) (v : W64) : (c.setK n v).nextLanding = c.nextLanding := rfl
@[simp] theorem Core.mx_setK (c : Core) (n : BitVec 6) (v : W64) : (c.setK n v).mx = c.mx := rfl
@[simp] theorem Core.mq_setK (c : Core) (n : BitVec 6) (v : W64) : (c.setK n v).mq = c.mq := rfl
@[simp] theorem Core.copies_setK (c : Core) (n : BitVec 6) (v : W64) : (c.setK n v).copies = c.copies := rfl
@[simp] theorem Core.nextCopy_setK (c : Core) (n : BitVec 6) (v : W64) : (c.setK n v).nextCopy = c.nextCopy := rfl
@[simp] theorem Core.streamFault_setK (c : Core) (n : BitVec 6) (v : W64) : (c.setK n v).streamFault = c.streamFault := rfl
@[simp] theorem Core.l1_setK (c : Core) (n : BitVec 6) (v : W64) : (c.setK n v).l1 = c.l1 := rfl
@[simp] theorem Core.refusals_setK (c : Core) (n : BitVec 6) (v : W64) : (c.setK n v).refusals = c.refusals := rfl
@[simp] theorem Core.stream_setK (c : Core) (n : BitVec 6) (v : W64) : (c.setK n v).stream = c.stream := rfl
@[simp] theorem Core.tracker_setK (c : Core) (n : BitVec 6) (v : W64) : (c.setK n v).tracker = c.tracker := rfl
@[simp] theorem Core.ranges_setK (c : Core) (n : BitVec 6) (v : W64) : (c.setK n v).ranges = c.ranges := rfl
@[simp] theorem Core.fmtBits_setK (c : Core) (n : BitVec 6) (v : W64) : (c.setK n v).fmtBits = c.fmtBits := rfl
@[simp] theorem Core.latch_setK (c : Core) (n : BitVec 6) (v : W64) : (c.setK n v).latch = c.latch := rfl
@[simp] theorem Core.repLeft_setK (c : Core) (n : BitVec 6) (v : W64) : (c.setK n v).repLeft = c.repLeft := rfl
@[simp] theorem Core.ecc_setK (c : Core) (n : BitVec 6) (v : W64) : (c.setK n v).ecc = c.ecc := rfl
@[simp] theorem Core.async_setK (c : Core) (n : BitVec 6) (v : W64) : (c.setK n v).async = c.async := rfl
@[simp] theorem Core.item_setK (c : Core) (n : BitVec 6) (v : W64) : (c.setK n v).item = c.item := rfl
@[simp] theorem Core.saved_setK (c : Core) (n : BitVec 6) (v : W64) : (c.setK n v).saved = c.saved := rfl
@[simp] theorem Core.incoming_setK (c : Core) (n : BitVec 6) (v : W64) : (c.setK n v).incoming = c.incoming := rfl
@[simp] theorem Core.bar_setK (c : Core) (n : BitVec 6) (v : W64) : (c.setK n v).bar = c.bar := rfl
@[simp] theorem Core.barPc_setK (c : Core) (n : BitVec 6) (v : W64) : (c.setK n v).barPc = c.barPc := rfl
@[simp] theorem Core.causeSeq_setK (c : Core) (n : BitVec 6) (v : W64) : (c.setK n v).causeSeq = c.causeSeq := rfl
@[simp] theorem Core.chargeTo_setK (c : Core) (n : BitVec 6) (v : W64) : (c.setK n v).chargeTo = c.chargeTo := rfl
@[simp] theorem Core.yieldReq_setK (c : Core) (n : BitVec 6) (v : W64) : (c.setK n v).yieldReq = c.yieldReq := rfl
@[simp] theorem Core.probed_setK (c : Core) (n : BitVec 6) (v : W64) : (c.setK n v).probed = c.probed := rfl
@[simp] theorem Core.acct_setK (c : Core) (n : BitVec 6) (v : W64) : (c.setK n v).acct = c.acct := rfl
@[simp] theorem Core.hooks_setK (c : Core) (n : BitVec 6) (v : W64) : (c.setK n v).hooks = c.hooks := rfl
@[simp] theorem Core.await_setK (c : Core) (n : BitVec 6) (v : W64) : (c.setK n v).await = c.await := rfl
@[simp] theorem Core.recolors_setK (c : Core) (n : BitVec 6) (v : W64) : (c.setK n v).recolors = c.recolors := rfl
@[simp] theorem Core.icache_setK (c : Core) (n : BitVec 6) (v : W64) : (c.setK n v).icache = c.icache := rfl
@[simp] theorem Core.power_setK (c : Core) (n : BitVec 6) (v : W64) : (c.setK n v).power = c.power := rfl
@[simp] theorem Core.event_setK (c : Core) (n : BitVec 6) (v : W64) : (c.setK n v).event = c.event := rfl

/-! ### setL -/

@[simp] theorem Core.bt_setL (c : Core) (n : BitVec 6) (v : LoopReg) : (c.setL n v).bt = c.bt := rfl
@[simp] theorem Core.pc_setL (c : Core) (n : BitVec 6) (v : LoopReg) : (c.setL n v).pc = c.pc := rfl
@[simp] theorem Core.cycle_setL (c : Core) (n : BitVec 6) (v : LoopReg) : (c.setL n v).cycle = c.cycle := rfl
@[simp] theorem Core.supervisor_setL (c : Core) (n : BitVec 6) (v : LoopReg) : (c.setL n v).supervisor = c.supervisor := rfl
@[simp] theorem Core.stopped_setL (c : Core) (n : BitVec 6) (v : LoopReg) : (c.setL n v).stopped = c.stopped := rfl
@[simp] theorem Core.s_setL (c : Core) (n : BitVec 6) (v : LoopReg) : (c.setL n v).s = c.s := rfl
@[simp] theorem Core.p_setL (c : Core) (n : BitVec 6) (v : LoopReg) : (c.setL n v).p = c.p := rfl
@[simp] theorem Core.h_setL (c : Core) (n : BitVec 6) (v : LoopReg) : (c.setL n v).h = c.h := rfl
@[simp] theorem Core.k_setL (c : Core) (n : BitVec 6) (v : LoopReg) : (c.setL n v).k = c.k := rfl
@[simp] theorem Core.kn_setL (c : Core) (n : BitVec 6) (v : LoopReg) : (c.setL n v).kn = c.kn := rfl
@[simp] theorem Core.cr_setL (c : Core) (n : BitVec 6) (v : LoopReg) : (c.setL n v).cr = c.cr := rfl
@[simp] theorem Core.timing_setL (c : Core) (n : BitVec 6) (v : LoopReg) : (c.setL n v).timing = c.timing := rfl
@[simp] theorem Core.region_setL (c : Core) (n : BitVec 6) (v : LoopReg) : (c.setL n v).region = c.region := rfl
@[simp] theorem Core.strands_setL (c : Core) (n : BitVec 6) (v : LoopReg) : (c.setL n v).strands = c.strands := rfl
@[simp] theorem Core.spad_setL (c : Core) (n : BitVec 6) (v : LoopReg) : (c.setL n v).spad = c.spad := rfl
@[simp] theorem Core.fe_setL (c : Core) (n : BitVec 6) (v : LoopReg) : (c.setL n v).fe = c.fe := rfl
@[simp] theorem Core.poison_setL (c : Core) (n : BitVec 6) (v : LoopReg) : (c.setL n v).poison = c.poison := rfl
@[simp] theorem Core.sticky_setL (c : Core) (n : BitVec 6) (v : LoopReg) : (c.setL n v).sticky = c.sticky := rfl
@[simp] theorem Core.pend_setL (c : Core) (n : BitVec 6) (v : LoopReg) : (c.setL n v).pend = c.pend := rfl
@[simp] theorem Core.drives_setL (c : Core) (n : BitVec 6) (v : LoopReg) : (c.setL n v).drives = c.drives := rfl
@[simp] theorem Core.flagOrs_setL (c : Core) (n : BitVec 6) (v : LoopReg) : (c.setL n v).flagOrs = c.flagOrs := rfl
@[simp] theorem Core.landings_setL (c : Core) (n : BitVec 6) (v : LoopReg) : (c.setL n v).landings = c.landings := rfl
@[simp] theorem Core.nextLanding_setL (c : Core) (n : BitVec 6) (v : LoopReg) : (c.setL n v).nextLanding = c.nextLanding := rfl
@[simp] theorem Core.mx_setL (c : Core) (n : BitVec 6) (v : LoopReg) : (c.setL n v).mx = c.mx := rfl
@[simp] theorem Core.mq_setL (c : Core) (n : BitVec 6) (v : LoopReg) : (c.setL n v).mq = c.mq := rfl
@[simp] theorem Core.copies_setL (c : Core) (n : BitVec 6) (v : LoopReg) : (c.setL n v).copies = c.copies := rfl
@[simp] theorem Core.nextCopy_setL (c : Core) (n : BitVec 6) (v : LoopReg) : (c.setL n v).nextCopy = c.nextCopy := rfl
@[simp] theorem Core.streamFault_setL (c : Core) (n : BitVec 6) (v : LoopReg) : (c.setL n v).streamFault = c.streamFault := rfl
@[simp] theorem Core.l1_setL (c : Core) (n : BitVec 6) (v : LoopReg) : (c.setL n v).l1 = c.l1 := rfl
@[simp] theorem Core.refusals_setL (c : Core) (n : BitVec 6) (v : LoopReg) : (c.setL n v).refusals = c.refusals := rfl
@[simp] theorem Core.stream_setL (c : Core) (n : BitVec 6) (v : LoopReg) : (c.setL n v).stream = c.stream := rfl
@[simp] theorem Core.tracker_setL (c : Core) (n : BitVec 6) (v : LoopReg) : (c.setL n v).tracker = c.tracker := rfl
@[simp] theorem Core.ranges_setL (c : Core) (n : BitVec 6) (v : LoopReg) : (c.setL n v).ranges = c.ranges := rfl
@[simp] theorem Core.fmtBits_setL (c : Core) (n : BitVec 6) (v : LoopReg) : (c.setL n v).fmtBits = c.fmtBits := rfl
@[simp] theorem Core.latch_setL (c : Core) (n : BitVec 6) (v : LoopReg) : (c.setL n v).latch = c.latch := rfl
@[simp] theorem Core.repLeft_setL (c : Core) (n : BitVec 6) (v : LoopReg) : (c.setL n v).repLeft = c.repLeft := rfl
@[simp] theorem Core.ecc_setL (c : Core) (n : BitVec 6) (v : LoopReg) : (c.setL n v).ecc = c.ecc := rfl
@[simp] theorem Core.async_setL (c : Core) (n : BitVec 6) (v : LoopReg) : (c.setL n v).async = c.async := rfl
@[simp] theorem Core.item_setL (c : Core) (n : BitVec 6) (v : LoopReg) : (c.setL n v).item = c.item := rfl
@[simp] theorem Core.saved_setL (c : Core) (n : BitVec 6) (v : LoopReg) : (c.setL n v).saved = c.saved := rfl
@[simp] theorem Core.incoming_setL (c : Core) (n : BitVec 6) (v : LoopReg) : (c.setL n v).incoming = c.incoming := rfl
@[simp] theorem Core.bar_setL (c : Core) (n : BitVec 6) (v : LoopReg) : (c.setL n v).bar = c.bar := rfl
@[simp] theorem Core.barPc_setL (c : Core) (n : BitVec 6) (v : LoopReg) : (c.setL n v).barPc = c.barPc := rfl
@[simp] theorem Core.causeSeq_setL (c : Core) (n : BitVec 6) (v : LoopReg) : (c.setL n v).causeSeq = c.causeSeq := rfl
@[simp] theorem Core.chargeTo_setL (c : Core) (n : BitVec 6) (v : LoopReg) : (c.setL n v).chargeTo = c.chargeTo := rfl
@[simp] theorem Core.yieldReq_setL (c : Core) (n : BitVec 6) (v : LoopReg) : (c.setL n v).yieldReq = c.yieldReq := rfl
@[simp] theorem Core.probed_setL (c : Core) (n : BitVec 6) (v : LoopReg) : (c.setL n v).probed = c.probed := rfl
@[simp] theorem Core.acct_setL (c : Core) (n : BitVec 6) (v : LoopReg) : (c.setL n v).acct = c.acct := rfl
@[simp] theorem Core.hooks_setL (c : Core) (n : BitVec 6) (v : LoopReg) : (c.setL n v).hooks = c.hooks := rfl
@[simp] theorem Core.await_setL (c : Core) (n : BitVec 6) (v : LoopReg) : (c.setL n v).await = c.await := rfl
@[simp] theorem Core.recolors_setL (c : Core) (n : BitVec 6) (v : LoopReg) : (c.setL n v).recolors = c.recolors := rfl
@[simp] theorem Core.icache_setL (c : Core) (n : BitVec 6) (v : LoopReg) : (c.setL n v).icache = c.icache := rfl
@[simp] theorem Core.power_setL (c : Core) (n : BitVec 6) (v : LoopReg) : (c.setL n v).power = c.power := rfl
@[simp] theorem Core.event_setL (c : Core) (n : BitVec 6) (v : LoopReg) : (c.setL n v).event = c.event := rfl

/-! ### Registers after a write -/

@[simp] theorem Core.sReg_setS (c : Core) (n : BitVec 6) (v : W64) : (c.setS n v).sReg n = if n = 0 then 0 else v := by
  unfold Core.sReg Core.setS; split <;> simp_all
theorem Core.sReg_setS_ne (c : Core) {m n : BitVec 6} (v : W64) (h : m ≠ n) : (c.setS n v).sReg m = c.sReg m := by
  have : m.toNat ≠ n.toNat := fun e => h (BitVec.eq_of_toNat_eq e)
  unfold Core.sReg Core.setS; split
  · rfl
  · split
    · rfl
    · exact SMap.get_set_ne _ _ _ _ this
@[simp] theorem Core.pReg_setP (c : Core) (n : BitVec 6) (v : Bool) : (c.setP n v).pReg n = if n = 0 then true else v := by
  unfold Core.pReg Core.setP; split <;> simp_all
theorem Core.pReg_setP_ne (c : Core) {m n : BitVec 6} (v : Bool) (h : m ≠ n) : (c.setP n v).pReg m = c.pReg m := by
  have : m.toNat ≠ n.toNat := fun e => h (BitVec.eq_of_toNat_eq e)
  unfold Core.pReg Core.setP; split
  · rfl
  · split
    · rfl
    · exact SMap.get_set_ne _ _ _ _ this
@[simp] theorem Core.hReg_setH (c : Core) (n : BitVec 6) (v : W256) : (c.setH n v).hReg n = v := by simp [Core.hReg, Core.setH]
@[simp] theorem Core.kReg_setK (c : Core) (n : BitVec 6) (v : W64) : (c.setK n v).kReg n = v := by simp [Core.kReg, Core.setK]
@[simp] theorem Core.lReg_setL (c : Core) (n : BitVec 6) (v : LoopReg) : (c.setL n v).lReg n = v := by simp [Core.lReg, Core.setL]

/-! ### Memory -/

/-- A byte after a write of bytes. -/
theorem State.memByte_memWrite (s : State) (a b : Nat) (l : List Byte) :
    (s.memWrite a l).memByte b = if a ≤ b ∧ b < a + l.length then l.getD (b - a) 0 else s.memByte b := by
  simp only [State.memByte, State.memWrite, SMap.get_setList]
/-- A write of memory keeps the canonical form. -/
theorem State.wf_memWrite (s : State) (a : Nat) (l : List Byte) (h : Memory.wf s.mem = true) : Memory.wf (s.memWrite a l).mem = true :=
  SMap.wf_setList a l h
/-- So does a write of a number. -/
theorem State.wf_memPut (s : State) (a n x : Nat) (h : Memory.wf s.mem = true) : Memory.wf (s.memPut a n x).mem = true :=
  State.wf_memWrite s a _ h
/-- So does zeroing a run of memory. -/
theorem State.wf_clear (s : State) (a n : Nat) (h : Memory.wf s.mem = true) : Memory.wf (SMap.clear s.mem a n) = true :=
  SMap.wf_clear a n h
/-- Memory is in canonical form after reset. -/
theorem State.wf_reset : Memory.wf State.reset.mem = true := rfl

end Sys2Proof.Machine
end

