-- ==== Sys2Proof/Laws/Charge.lean ====
section
/-! SUPPORT. What a charge does: it changes the accounts of its core, and memory only where a context is accounted for (10 R288 to
R299). -/

namespace Sys2Proof.Machine

/-- Only memory differs, and not even that where no context is accounted for. -/
structure State.Spills (s t : State) : Prop where
  rest : t = { s with mem := t.mem, memPoison := t.memPoison }
  memory : s.Unaccounted → t = s

theorem State.Spills.refl (s : State) : s.Spills s := ⟨rfl, fun _ => rfl⟩

theorem State.Spills.trans {s t u : State} (h : s.Spills t) (k : t.Spills u) : s.Spills u where
  rest := by rw [k.rest, h.rest]
  memory hs := by
    have e := h.memory hs
    subst e
    exact k.memory hs

theorem State.Spills.core {s t : State} (h : s.Spills t) (k : Nat) : t.core k = s.core k := by rw [h.rest]; rfl

theorem State.spills_memPut (s : State) (a n x : Nat) : (s.memPut a n x) = { s with mem := (s.memPut a n x).mem, memPoison := (s.memPut a n x).memPoison } := rfl

theorem State.ring_none {s : State} (h : s.Unaccounted) (asid : BitVec 16) : s.ring asid = none := by
  simp [State.ring, (h asid).2]

theorem State.rest_ringUnits (ring units : Nat) : ∀ (n u : Nat) (bs : List Byte) (s : State),
    ∃ m p, s.ringUnits ring units u bs n = { s with mem := m, memPoison := p }
  | 0, _, _, s => ⟨s.mem, s.memPoison, rfl⟩
  | n + 1, u, bs, s => by
    obtain ⟨m, p, h⟩ := State.rest_ringUnits ring units n (u + 1) (bs.drop 32) (s.memWrite (ring + 64 + 32 * (u % units)) (bs.take 32))
    exact ⟨m, p, by simp only [State.ringUnits, h]; rfl⟩

theorem State.Spills.of_eq {s t : State} {m : List Host.Cell} {p : SMap Bool} (h : t = { s with mem := m, memPoison := p })
    (hu : s.Unaccounted → t = s) : s.Spills t := ⟨by subst h; rfl, hu⟩

theorem State.spills_ringRecord (s : State) (asid : BitVec 16) (body : List Byte) (n : Nat) : s.Spills (s.ringRecord asid body n) := by
  unfold State.ringRecord
  cases hr : s.ring asid with
  | none => exact State.Spills.refl s
  | some q =>
    obtain ⟨ring, units⟩ := q
    have hu : ∀ t : State, s.Unaccounted → t = s := fun t k => by simp [State.ring_none k] at hr
    simp only
    split
    · obtain ⟨m, p, h⟩ := State.rest_ringUnits ring units (body.length / 32) (s.memNat ring 8) body
        (s.memPut ring 8 (s.memNat ring 8 + body.length / 32))
      exact State.Spills.of_eq (m := m) (p := p) (by rw [h]; rfl) (hu _)
    · exact ⟨rfl, hu _⟩

theorem State.spills_dropSpill (s : State) (asid : BitVec 16) (n : Nat) : s.Spills (s.dropSpill asid n) := by
  unfold State.dropSpill
  cases hr : s.ring asid with
  | none => exact State.Spills.refl s
  | some q => exact ⟨rfl, fun k => by simp [State.ring_none k] at hr⟩

theorem State.spills_spillHash (s : State) (key reason : Nat) (e : HashEntry) : s.Spills (s.spillHash key reason e) := by
  unfold State.spillHash
  split
  · exact State.Spills.refl s
  · split
    · exact State.spills_dropSpill ..
    · exact State.spills_ringRecord ..

/-- Only the accounts of one core differ, and memory where a context is accounted for. -/
structure State.Counts (s t : State) (key : Nat) : Prop where
  rest : t = { s with cores := t.cores, mem := t.mem, memPoison := t.memPoison }
  others : ∀ k, k ≠ key → t.core k = s.core k
  core : t.core key = { s.core key with acct := (t.core key).acct }
  memory : s.Unaccounted → t.mem = s.mem ∧ t.memPoison = s.memPoison

theorem State.Counts.refl (s : State) (key : Nat) : s.Counts s key := ⟨rfl, fun _ _ => rfl, rfl, fun _ => ⟨rfl, rfl⟩⟩

theorem State.unaccounted_of {s t : State} (h : t.mem = s.mem) (b : t.bases = s.bases) (k : s.Unaccounted) : t.Unaccounted := by
  intro a
  have e : t.account a = s.account a := by simp only [State.account, State.memNat, State.memBytes, State.ctxEntry, h, b]
  rw [e]; exact k a

theorem State.Counts.trans {s t u : State} {key : Nat} (h : s.Counts t key) (k : t.Counts u key) : s.Counts u key where
  rest := by rw [k.rest, h.rest]
  others j hj := (k.others j hj).trans (h.others j hj)
  core := by rw [k.core, h.core]
  memory hs := by
    have e := h.memory hs
    have b : t.bases = s.bases := by rw [h.rest]
    have e' := k.memory (State.unaccounted_of e.1 b hs)
    exact ⟨e'.1.trans e.1, e'.2.trans e.2⟩

theorem State.Spills.counts {s t : State} (h : s.Spills t) (key : Nat) : s.Counts t key where
  rest := by
    have e := h.rest
    have : t.cores = s.cores := by rw [e]
    rw [this]; exact e
  others k _ := h.core k
  core := by rw [h.core]
  memory hs := by rw [h.memory hs]; exact ⟨rfl, rfl⟩

theorem State.counts_modCore (s : State) (key : Nat) (f : Core → Core) (hf : ∀ c, f c = { c with acct := (f c).acct }) :
    s.Counts (s.modCore key f) key where
  rest := rfl
  others k hk := State.core_modCore_ne _ _ hk
  core := by rw [State.core_modCore]; exact hf _
  memory _ := ⟨rfl, rfl⟩

theorem State.counts_hashAdd (s : State) (key : Nat) (ctx : BitVec 16) (pc : BitVec 57) (cause n : Nat) :
    s.Counts (s.hashAdd key ctx pc cause n) key := by
  have hput : ∀ (u : State) (f : Core → Acct), u.Counts (u.modCore key fun c => { c with acct := f c }) key :=
    fun u f => State.counts_modCore u key _ fun _ => rfl
  have hspill : ∀ (u : State) (r : Nat) (e : HashEntry), u.Counts (u.spillHash key r e) key :=
    fun u r e => (State.spills_spillHash u key r e).counts key
  unfold State.hashAdd
  simp only
  split
  · split
    · split
      · exact hput ..
      · exact (hspill ..).trans (hput ..)
    · exact State.Counts.refl ..
  · split
    · exact (hspill ..).trans (hput ..)
    · exact hput ..

theorem State.counts_bankSnapshot (s : State) (key loop reason exits : Nat) (pc : BitVec 57) :
    s.Counts (s.bankSnapshot key loop reason exits pc) key := by
  unfold State.bankSnapshot
  simp only
  split
  · exact State.Counts.refl ..
  · exact ((State.spills_ringRecord ..).counts key).trans (State.counts_modCore _ key _ fun _ => rfl)

theorem State.rest_blockAdds (block row : Nat) (live : SMap W64) : ∀ (n k : Nat) (s : State),
    ∃ m p, s.blockAdds block row live k n = { s with mem := m, memPoison := p }
  | 0, _, s => ⟨s.mem, s.memPoison, rfl⟩
  | n + 1, k, s => by
    simp only [State.blockAdds]
    split
    · exact State.rest_blockAdds block row live n (k + 1) s
    · obtain ⟨m, p, h⟩ := State.rest_blockAdds block row live n (k + 1)
        (s.memPut (block + 128 * row + 8 * k) 8 (s.memNat (block + 128 * row + 8 * k) 8 + (SMap.get 0 live k).toNat))
      exact ⟨m, p, by rw [h]; rfl⟩

theorem State.counts_flushLive (s : State) (key : Nat) : s.Counts (s.flushLive key) key := by
  unfold State.flushLive
  simp only
  refine State.Counts.trans (State.Spills.counts ?_ key) (State.counts_modCore _ key _ fun _ => rfl)
  split
  · exact State.Spills.refl s
  · next h =>
    obtain ⟨m, p, e⟩ := State.rest_blockAdds (s.account (s.core key).acct.owner).1 key (s.core key).acct.live 16 0 s
    exact State.Spills.of_eq e fun k => absurd (k _).1 h

theorem State.counts_setOwner (s : State) (key : Nat) (ctx : BitVec 16) : s.Counts (s.setOwner key ctx) key := by
  unfold State.setOwner
  split
  · exact State.Counts.refl ..
  · exact ((State.counts_bankSnapshot ..).trans (State.counts_flushLive ..)).trans (State.counts_modCore _ key _ fun _ => rfl)

theorem State.counts_foldl {α : Type} (key : Nat) (f : State → α → State) (h : ∀ (s : State) (x : α), s.Counts (f s x) key) :
    ∀ (l : List α) (s : State), s.Counts (l.foldl f s) key
  | [], s => State.Counts.refl s key
  | x :: l, s => (h s x).trans (State.counts_foldl key f h l (f s x))

/-- One cycle of a core: its count of cycles is one more, its accounts, its power window and an ECC freeze go on, and nothing else of
the machine changes but memory that accounts are kept in. -/
structure State.Cycles (s t : State) (key : Nat) : Prop where
  rest : t = { s with cores := t.cores, mem := t.mem, memPoison := t.memPoison }
  others : ∀ k, k ≠ key → t.core k = s.core k
  core : t.core key = { s.core key with acct := (t.core key).acct, cycle := (s.core key).cycle + 1, ecc := (s.core key).ecc - 1
                                        power := (t.core key).power }
  memory : s.Unaccounted → t.mem = s.mem ∧ t.memPoison = s.memPoison

/-- What a charge does. -/
theorem State.cycles_charge (s : State) (key : Nat) (ctx : BitVec 16) (pc : BitVec 57) (l : List (Nat × Nat)) :
    s.Cycles (s.charge key ctx pc l) key := by
  unfold State.charge
  simp only
  generalize hu : (if (s.core key).supervisor = true then s else _) = u
  have hc : s.Counts u key := by
    rw [← hu]
    split
    · exact State.Counts.refl ..
    · refine ((State.counts_setOwner ..).trans (State.counts_foldl key _ (fun s x => ?_) l _)).trans
        (State.counts_modCore _ key _ fun _ => rfl)
      split
      · exact State.Counts.refl ..
      · exact State.counts_hashAdd ..
  refine ⟨?_, fun k hk => ?_, ?_, fun hs => hc.memory hs⟩
  · have e := hc.rest
    simp only [State.modCore, State.setCore]
    rw [e]
  · rw [State.core_modCore_ne _ _ hk]; exact hc.others k hk
  · rw [State.core_modCore]
    have e := hc.core
    rw [e]
    simp only
    split <;> rfl

end Sys2Proof.Machine
end

