-- ==== Sys2Proof/Laws/Issue.lean ====
section
/-! SUPPORT. What the issue of an operation in a bundle of its own does on a quiet core (01 R22 to R25): the law that the statements
about single instructions rest on. -/

namespace Sys2Proof.Machine

/-! ### The boundary before the bundle -/

theorem State.sendBar_quiet {s : State} {key : Nat} (h : (s.core key).Quiet) : s.sendBar key = s := by simp [State.sendBar, h.bar]
theorem State.serveAwait_quiet {s : State} {key : Nat} (h : (s.core key).Quiet) : s.serveAwait key = s := by
  simp [State.serveAwait, h.await]
theorem State.takeRecolors_quiet {s : State} {key : Nat} (h : (s.core key).Quiet) : s.takeRecolors key = s := by
  simp [State.takeRecolors, h.recolors]
theorem Core.boundaryFreeze_quiet {c : Core} (h : c.Quiet) : c.boundaryFreeze = none := by
  have e : ¬ 0 < c.ecc := by rw [h.ecc]; simp
  simp [Core.boundaryFreeze, e, h.landings, h.mq, h.drives, h.await, h.bar, topFreeze, freezeRank]
theorem Core.asyncNext_quiet {c : Core} (h : c.Quiet) : c.asyncNext = none := by
  simp [Core.asyncNext, h.async, asyncRank]
theorem State.landAllDue_quiet {s : State} {key : Nat} (h : (s.core key).Quiet) : s.landAllDue key = s := by
  simp [State.landAllDue, h.landings]

/-! ### What issues -/

theorem Slot.find_one (sl sl' : Slot) (x : W64 × OpSem) :
    [(sl, x)].find? (fun p => p.1 == sl') = if sl' = sl then some (sl, x) else none := by
  cases sl <;> cases sl' <;> rfl

/-- The bundle of one operation holds that operation alone. -/
theorem Core.issuing_solo {c : Core} (h : c.Quiet) (m : OpSem) (w : W64) (err : Option TrapReq) (draw : Nat) :
    c.issuing { header := soloHeader m.slot, size := 12, present := [(m.slot, w, m)], err := err } draw =
      [let v : View := { core := c, slot := m.slot, pc := c.pc, size := 12, addrs := {}, draw := draw }
       let v := { v with addrs := m.base v }
       ⟨m.slot, w, m, true, v, v.guard m.guard, none⟩] := by
  have hr : c.repsLeft (soloHeader m.slot) = (soloHeader m.slot).rep.toNat + 1 := by simp [Core.repsLeft, h.repLeft]
  unfold Core.issuing
  simp only [hr, Slot.find_one, Slot.all, Nat.le_refl, decide_true, if_true]
  generalize hs : m.slot = sl
  cases sl <;> simp [List.filterMap, soloHeader, Slot.idx]

/-! ### Cores that agree -/

theorem Core.Agrees.refl (c : Core) : c.Agrees c := rfl

theorem Core.agrees_iff {c e : Core} : c.Agrees e ↔ ∃ a y x p k, c = { e with acct := a, cycle := y, ecc := x, power := p, sticky := k } := by
  constructor
  · intro h; exact ⟨_, _, _, _, _, h⟩
  · rintro ⟨a, y, x, p, k, h⟩; subst h; rfl

theorem Core.Agrees.trans {c d e : Core} (h : c.Agrees d) (k : d.Agrees e) : c.Agrees e := by
  obtain ⟨a, y, x, p, q, rfl⟩ := Core.agrees_iff.mp h
  obtain ⟨a', y', x', p', q', rfl⟩ := Core.agrees_iff.mp k
  rfl

/-- A change of a core that neither reads nor writes its accounts, cycles, power window or sticky slots. -/
def Core.Plain (f : Core → Core) : Prop :=
  ∀ (c : Core) (a : Acct) (y : W64) (x : Nat) (p : PowerWin) (k : SMap (Option Sticky)),
    f { c with acct := a, cycle := y, ecc := x, power := p, sticky := k } =
      { f c with acct := a, cycle := y, ecc := x, power := p, sticky := k }

theorem Core.Plain.agrees {f : Core → Core} (hf : Core.Plain f) {c e : Core} (h : c.Agrees e) : (f c).Agrees (f e) := by
  obtain ⟨a, y, x, p, k, rfl⟩ := Core.agrees_iff.mp h
  rw [hf]; rfl

theorem Core.plain_pendWrite (n : Nat) (x : Write) : Core.Plain fun c => c.pendWrite n x := fun _ _ _ _ _ _ => rfl

/-! ### The end of the bundle-time -/

theorem Core.makeDue_none {c : Core} (hd : c.drives = []) (hf : c.flagOrs = []) : c.makeDue = c := by
  cases c
  simp only at hd hf
  subst hd hf
  simp [Core.makeDue, Flags.all]

/-- A core has nothing that the end of a bundle-time counts down. -/
structure Core.Still (c : Core) : Prop where
  pend : c.pend = []
  landings : c.landings = []
  drives : c.drives = []
  flagOrs : c.flagOrs = []
  mq : c.mq = []
  repLeft : c.repLeft = none
  poison : c.poison = []

theorem Core.Quiet.still {c : Core} (h : c.Quiet) : c.Still := ⟨h.pend, h.landings, h.drives, h.flagOrs, h.mq, h.repLeft, h.poison⟩

/-- The counts of a core that has nothing else outstanding than what is given. -/
theorem Core.countDown_of {c : Core} (hl : c.landings = []) (hm : c.mq = []) :
    c.countDown = { c with
      drives := c.drives.map fun d => { d with left := d.left - 1 }
      flagOrs := c.flagOrs.map fun q => { q with left := q.left - 1 }
      pend := c.pend.map fun q => { q with left := q.left - 1 }
      power := { c.power with mspan := c.power.mspan - 1 } } := by
  cases c
  simp only at hl hm
  subst hl hm
  rfl

theorem Core.landDue_nil {c : Core} (hp : c.pend = []) : c.landDue = c := by
  cases c
  simp only at hp
  subst hp
  rfl

theorem Core.land_power (c : Core) (p : PowerWin) (x : Write) : ({ c with power := p } : Core).land x = { c.land x with power := p } := by
  cases x with
  | s n v => simp only [Core.land, Core.setS]; split <;> rfl
  | p n v => simp only [Core.land, Core.setP]; split <;> rfl
  | spad a b f =>
    simp only [Core.land, Core.spadWrite]
    split
    · generalize (granules a b.length).2 = n
      generalize (granules a b.length).1 = g
      generalize hc : ({ c with spad := SMap.setList 0 c.spad a b } : Core).healSpad a b.length = d
      have e : ({ c with power := p, spad := SMap.setList 0 c.spad a b } : Core).healSpad a b.length = { d with power := p } := by
        rw [← hc]; rfl
      rw [e]
      clear hc e
      induction n generalizing d g with
      | zero => rfl
      | succ n ih => simp only [Core.setFes]; rw [← ih]; rfl
    · rfl
  | _ => rfl

theorem Core.bt_setFes (b : Bool) : ∀ (n g : Nat) (c : Core), (c.setFes g b n).bt = c.bt
  | 0, _, _ => rfl
  | n + 1, g, c => Core.bt_setFes b n (g + 1) (c.setFe g b)

@[simp] theorem Core.bt_land (c : Core) (x : Write) : (c.land x).bt = c.bt := by
  cases x with
  | spad a b f =>
    simp only [Core.land, Core.spadWrite]
    split
    · rw [Core.bt_setFes]; rfl
    · rfl
  | _ => simp [Core.land]

/-- The end of a bundle-time of a core that has only placed a write. -/
theorem Core.endBundle_pendWrite {c : Core} (h : c.Still) (bound : Nat) (x : Write) :
    (c.pendWrite bound x).endBundle c.cr.seed =
      { (if bound ≤ 1 then c.land x else { c with pend := [⟨bound - 1, x⟩] }) with
        bt := c.bt + 1, power := { c.power with mspan := c.power.mspan - 1 } } := by
  have hp := h.pend; have hl := h.landings; have hd := h.drives; have hf := h.flagOrs; have hm := h.mq
  have e0 : (c.pendWrite bound x).endBundle c.cr.seed =
      let d := (c.pendWrite bound x).countDown.landDue
      { d with bt := d.bt + 1 } := by
    simp only [Core.endBundle]
    rw [Core.makeDue_none (by simp [hd]) (by simp [hf])]
    rfl
  rw [e0]
  simp only
  rw [Core.countDown_of (by simp [hl]) (by simp [hm])]
  by_cases hb1 : bound ≤ 1
  · have hz : bound - 1 = 0 := by omega
    rw [if_pos hb1]
    have : (Core.landDue { c.pendWrite bound x with
        drives := (c.pendWrite bound x).drives.map fun d => { d with left := d.left - 1 }
        flagOrs := (c.pendWrite bound x).flagOrs.map fun q => { q with left := q.left - 1 }
        pend := (c.pendWrite bound x).pend.map fun q => { q with left := q.left - 1 }
        power := { (c.pendWrite bound x).power with mspan := (c.pendWrite bound x).power.mspan - 1 } }) =
        ({ c with power := { c.power with mspan := c.power.mspan - 1 } } : Core).land x := by
      simp only [Core.pendWrite, hp, hd, hf, Core.landDue, List.nil_append, List.map_cons, List.map_nil, hz]
      simp only [List.filter_cons, List.filter_nil, bne_self_eq_false, Bool.false_eq_true, if_false, beq_self_eq_true, if_true,
        List.map_cons, List.map_nil, Core.landAll]
    rw [this, Core.land_power]
    simp only
    rw [Core.bt_land]
  · have e1 : bound - 1 ≠ 0 := by omega
    rw [if_neg hb1]
    simp only [Core.pendWrite, hp, hd, hf, Core.landDue, List.nil_append, List.map_cons, List.map_nil, List.filter_cons, List.filter_nil]
    simp only [bne_iff_ne, ne_eq, e1, not_false_eq_true, if_true, beq_iff_eq, if_false, List.map_nil, Core.landAll]

/-! ### One operation in a bundle of its own -/

/-- The end of the bundle-time of an operation in a bundle of its own, and the next bundle. -/
def State.close (s : State) (a : Acc) : State :=
  let c := s.core s.cur
  let t := a.st.modCore s.cur fun c => c.endBundle (a.seedSet.getD a.seed)
  t.modCore s.cur fun d =>
    ({ d with repLeft := none, pc := a.next.getD (c.pc + 12) }).haltIf t.time (d.hooks.stepBundle || (a.edge && d.hooks.haltRequest))

/-- What follows the effects of an operation in a bundle of its own. -/
def State.finish (s : State) (a : Acc) : State :=
  let t := s.close a
  let t := if a.tail then t.endItem s.cur else t
  if a.eret then t.eret s.cur else t

theorem State.afterBundle_solo (s : State) {f : Fetched} {sl : Slot} (hh : f.header = soloHeader sl) (hs : f.size = 12) (v : View) (a : Acc) :
    State.afterBundle (s.core s.cur) s.cur f v 0 a = s.finish a := by
  have hlo : f.header.loopend = 0 := by rw [hh]; rfl
  unfold State.afterBundle State.finish State.close
  simp only [Nat.lt_irrefl, if_false, hlo, if_true, hs]
  cases a.next <;> rfl

theorem State.beltAccesses_solo (i : Issuing) : (beltAccesses [i]).length ≤ 1 := by
  unfold beltAccesses
  have hr : List.range 4 = [0, 1, 2, 3] := rfl
  have hl : ([i].filterMap fun i => if i.perf then i.sem.belt i.view else none) = [] ∨
      ∃ q, ([i].filterMap fun i => if i.perf then i.sem.belt i.view else none) = [q] := by
    simp only [List.filterMap_cons, List.filterMap_nil]
    split <;> simp
  simp only [hr, List.flatMap_cons, List.flatMap_nil, List.append_nil, List.length_append, List.length_map]
  rcases hl with e | ⟨q, e⟩
  · simp only [e, List.filter_nil, List.length_nil]; omega
  · simp only [e, List.filter_cons, List.filter_nil, beq_iff_eq]
    split
    · next h0 => simp [h0]
    · split
      · next h1 => simp [h1]
      · split
        · next h2 => simp [h2]
        · split <;> simp

theorem State.cycles_freezeCycle (s : State) (key cause : Nat) : s.Cycles (s.freezeCycle key cause) key := by
  unfold State.freezeCycle
  simp only
  repeat' split
  all_goals exact State.cycles_charge ..

theorem State.cycles_chargeIssue (s : State) (key : Nat) (f : Fetched) (l : List Issuing) : s.Cycles (s.chargeIssue key f l) key := by
  unfold State.chargeIssue
  simp only
  split
  · exact State.cycles_freezeCycle ..
  · exact State.cycles_charge ..

theorem State.splits_solo (c : Core) (i : Issuing) : splits c [i] = false := by
  cases hs : i.slot <;> simp [splits, hs]

theorem State.losses_solo (i : Issuing) : (beltLosses [] (beltAccesses [i])).filter (fun x => 0 < x.2.2) = [] := by
  have : ∃ l, beltAccesses [i] = l ∧ l.length ≤ 1 := ⟨_, rfl, State.beltAccesses_solo _⟩
  obtain ⟨l, hl', hlen⟩ := this
  rw [hl']
  match l, hlen with
  | [], _ => rfl
  | [q], _ => simp [beltLosses, aheadOf, List.filter_map, Function.comp_def]

theorem State.charged_bump {s u : State} (h : s.Cycles u s.cur) (g : Core → Core) (hg : ∀ c, (g c).Agrees c)
    (hc : ∀ c, (g c).cycle = c.cycle) : s.Charged { u.modCore s.cur g with free := u.free + 1 } := by
  have hf : u.free = s.free := by rw [h.rest]
  have hk : ∀ k, State.core { u.modCore s.cur g with free := u.free + 1 } k = (u.modCore s.cur g).core k := fun _ => rfl
  refine ⟨?_, fun k hne => ?_, fun hs => h.memory hs, ?_, ?_⟩
  · simp only [State.modCore, State.setCore]; rw [h.rest]
  · rw [hk, State.core_modCore_ne u _ hne]; exact h.others k hne
  · rw [hk, State.core_modCore]
    exact (hg _).trans (Core.agrees_iff.mpr ⟨_, _, _, _, _, h.core⟩)
  · rw [hk, State.core_modCore, hc, h.core]

/-- What the issue of one operation costs. -/
theorem State.charged_spend (s : State) (f : Fetched) (i : Issuing) : s.Charged (s.spend s.cur f [i]) := by
  unfold State.spend
  simp only [State.splits_solo, State.losses_solo, Bool.false_eq_true, if_false, List.foldl_nil, State.freezeCycles]
  exact State.charged_bump (State.cycles_chargeIssue s s.cur f [i]) _ (fun _ => rfl) fun _ => rfl

/-- The one law of an operation that performs in a bundle of its own: it answers a next state, which its effects on the charged state
give. -/
theorem runSolo_performs {m : OpSem} {i : Instr} {s : State} {w : W64} (h : m.Performs s) (hw : i.slotWord = some (m.slot, w))
    (hc : i.check1 = none) :
    ∃ u, s.Charged u ∧ runSolo m i s =
      .next (s.finish (m.perform s.cur (s.view m)
        { st := m.begun s.cur (s.view m) u, seed := (s.core s.cur).cr.seed })) := by
  have hq := h.quiet
  have hi : (s.core s.cur).idle = false := hq.issues
  have hstop : (s.core s.cur).stopped = false := by
    simp only [Core.idle, Bool.or_eq_false_iff] at hi; exact hi.1.1
  simp only [runSolo, hw, hc, Option.map_none]
  generalize hf : ({ header := soloHeader m.slot, size := 12, present := [(m.slot, w, m)], err := none } : Fetched) = f
  have hhead : f.header = soloHeader m.slot := by rw [← hf]
  have hsize : f.size = 12 := by rw [← hf]
  have herr : f.err = none := by rw [← hf]
  have hrep : (s.core s.cur).repsLeft f.header = 1 := by rw [hhead]; simp [Core.repsLeft, hq.repLeft, soloHeader]
  have hl : (s.core s.cur).issuing f s.free = [s.soloIssuing m w] := by
    rw [← hf, Core.issuing_solo hq]; rfl
  have hfirst : firstCheck s s.cur f [s.soloIssuing m w] = none := by
    have e1 : check1 (s.core s.cur) [s.soloIssuing m w] = none := by
      simp only [check1, State.soloIssuing, List.find?_cons, h.check1, List.find?_nil, List.filter_cons, List.filter_nil]
      cases m.strandStore <;> rfl
    have e2 : check2 (s.core s.cur) [s.soloIssuing m w] = none := by
      rcases h.admitted.priv with e | e <;> simp [check2, State.soloIssuing, e]
    have e3 : check3 s.cur (s.core s.cur) [s.soloIssuing m w] = none := by
      have hb := h.admitted.bound
      have hr := h.admitted.runsOn
      simp only [check3, State.soloIssuing, List.findSome?_cons, List.findSome?_nil, hb, hr, Bool.not_true, Bool.false_eq_true, or_self, if_false]
      cases ht : m.timing with
      | none => rfl
      | some q =>
        obtain ⟨row, cls, b⟩ := q
        simp only [(h.admitted.timing row cls b ht).1, if_false]
    have e4 : check4 (s.core s.cur) [s.soloIssuing m w] = none := by
      simp only [check4, State.soloIssuing, List.findSome?_cons, List.findSome?_nil]
      cases ht : m.timing with
      | none => rfl
      | some q =>
        obtain ⟨row, cls, b⟩ := q
        have := (h.admitted.timing row cls b ht).2
        simp only [Nat.not_lt.mpr this, if_false]
    have e5 : check5 s s.cur [s.soloIssuing m w] = none := by
      simp [check5, State.soloIssuing, h.always5, h.guard, h.check5]
    have e6 : checkKnots (s.core s.cur) [] [s.soloIssuing m w] = none := h.knots
    simp [firstCheck, herr, e1, e2, e3, e4, e5, e6]
  have hfatal : firstFatal s s.cur [s.soloIssuing m w] = none := by
    simp [firstFatal, State.soloIssuing, h.guard, h.fatal]
  have hwait : waitOf s s.cur [s.soloIssuing m w] = none := h.waits
  have hlate : ([s.soloIssuing m w].findSome? fun i => if i.perf then i.sem.late5 s s.cur i.view else none) = none := by
    simp [State.soloIssuing, h.guard, h.late5]
  have hpower : powerHold (s.core s.cur) [s.soloIssuing m w] = false := by
    have hw : issueWeight (s.core s.cur) [s.soloIssuing m w] ≤ 12 := by
      have h1 : ([s.soloIssuing m w].filter fun i => i.slot == .v0 || i.slot == .v1).length ≤ 1 := by
        simpa using List.length_filter_le (fun i => i.slot == .v0 || i.slot == .v1) [s.soloIssuing m w]
      simp only [issueWeight]
      split <;> split <;> split <;> omega
    rcases hq.room with e | e
    · simp [powerHold, e]
    · simp only [powerHold, Bool.and_eq_false_iff, decide_eq_false_iff_not]; right; omega
  have honce : s.issueOnce s.cur f = s.issueNow s.cur f [s.soloIssuing m w] := by
    unfold State.issueOnce
    simp only [State.sendBar_quiet hq, State.serveAwait_quiet hq, State.takeRecolors_quiet hq, Core.boundaryFreeze_quiet hq,
      State.landAllDue_quiet hq, hq.breakNext, hl, hq.yieldReq, Bool.false_eq_true, false_and, if_false, hfirst, hfatal, hpower,
      Core.asyncNext_quiet hq, hwait, hlate]
  have hcs := State.charged_spend s f (s.soloIssuing m w)
  generalize hu : s.spend s.cur f [s.soloIssuing m w] = u at hcs
  refine ⟨u.modCore s.cur fun c => c.keepSticky (s.soloIssuing m w), ⟨?_, fun k hk => ?_, fun hs => ?_, ?_, ?_⟩, ?_⟩
  · simp only [State.modCore, State.setCore]; rw [hcs.rest]
  · rw [State.core_modCore_ne _ _ hk]; exact hcs.others k hk
  · exact hcs.memory hs
  · rw [State.core_modCore]
    exact Core.Agrees.trans (Core.agrees_iff.mpr ⟨_, _, _, _, _, rfl⟩) hcs.core
  · rw [State.core_modCore]; exact hcs.cycle
  · have hpoison : (u.core s.cur).poison = [] := by
      obtain ⟨_, _, _, _, _, e⟩ := Core.agrees_iff.mp hcs.core
      rw [e]; exact hq.poison
    have hread : u.readPoison s.cur [s.soloIssuing m w] = u := by simp [State.readPoison, hpoison]
    have hperf : (s.soloIssuing m w).perf = true := h.guard
    have hnow : s.issueNow s.cur f [s.soloIssuing m w] = .done (s.finish (m.perform s.cur (s.view m)
        { st := m.begun s.cur (s.view m) (u.modCore s.cur fun c => c.keepSticky (s.soloIssuing m w))
          seed := (s.core s.cur).cr.seed })) 0 := by
      unfold State.issueNow
      simp only [hrep, Nat.sub_self, hu, hread, State.afterBundle_solo s hhead hsize]
      simp only [performAll, hperf, if_true]
      have hsem : (s.soloIssuing m w).sem = m := rfl
      have hview : (s.soloIssuing m w).view = s.view m := rfl
      rw [hsem, hview]
      rfl
    simp only [State.issue, hi, Bool.false_eq_true, if_false, hhead]
    have hr0 : (soloHeader m.slot).rep.toNat + 1 = 1 := rfl
    rw [hr0]
    simp only [State.issueAll, honce, hnow, Nat.lt_irrefl, false_and, if_false]

/-- What the issue takes for an operation in a bundle of its own. -/
def soloFetched (m : OpSem) (i : Instr) (w : W64) : Fetched :=
  { header := soloHeader m.slot, size := 12, present := [(m.slot, w, m)]
    err := i.check1.map fun _ => illegal causeIllegal m.slot (opcodeOf w) 0 }

/-- An operation in a bundle of its own is one attempt to issue it. -/
theorem runSolo_once {m : OpSem} {i : Instr} {s : State} {w : W64} (h : (s.core s.cur).Quiet) (hw : i.slotWord = some (m.slot, w)) :
    runSolo m i s = .next (s.issueOnce s.cur (soloFetched m i w)).state := by
  have hi : (s.core s.cur).idle = false := h.issues
  simp only [runSolo, hw, State.issue, hi, Bool.false_eq_true, if_false]
  have hr0 : (soloHeader m.slot).rep.toNat + 1 = 1 := rfl
  rw [hr0]
  simp only [State.issueAll, soloFetched]
  split
  · next s' left e => rw [e]; simp only [Issued.state]; split <;> rfl
  · next s' e => rw [e]; rfl

/-- A check of 01 R24 that fails takes its trap. -/
theorem runSolo_traps {m : OpSem} {i : Instr} {s : State} {w : W64} (h : (s.core s.cur).Quiet) (hw : i.slotWord = some (m.slot, w))
    {t : TrapReq} (ht : firstCheck s s.cur (soloFetched m i w) [s.soloIssuing m w] = some t) :
    runSolo m i s = .next (s.takeTrap s.cur t (s.core s.cur).pc 1) := by
  have hrep : (s.core s.cur).repsLeft (soloHeader m.slot) = 1 := by simp [Core.repsLeft, h.repLeft, soloHeader]
  have hl : (s.core s.cur).issuing (soloFetched m i w) s.free = [s.soloIssuing m w] := by
    rw [soloFetched, Core.issuing_solo h]; rfl
  rw [runSolo_once h hw]
  unfold State.issueOnce
  simp only [State.sendBar_quiet h, State.serveAwait_quiet h, State.takeRecolors_quiet h, Core.boundaryFreeze_quiet h,
    State.landAllDue_quiet h, h.breakNext, hl, h.yieldReq, Bool.false_eq_true, false_and, if_false, ht]
  rw [show (soloFetched m i w).header = soloHeader m.slot from rfl, hrep]
  rfl

/-- A slot word that check 1 refuses is an ILLEGAL. -/
theorem firstCheck_illFormed {m : OpSem} {i : Instr} {s : State} {w : W64} (h : i.check1 ≠ none) :
    firstCheck s s.cur (soloFetched m i w) [s.soloIssuing m w] = some (illegal causeIllegal m.slot (opcodeOf w) 0) := by
  cases hc : i.check1 with
  | none => exact absurd hc h
  | some e => simp [firstCheck, soloFetched, hc]

/-- The first four checks of one operation pass. -/
theorem firstCheck_admitted {m : OpSem} {i : Instr} {s : State} {w : W64} (hc : i.check1 = none) (h1 : m.check1 (s.core s.cur) = false)
    (h : m.Admitted s) :
    firstCheck s s.cur (soloFetched m i w) [s.soloIssuing m w] =
      (check5 s s.cur [s.soloIssuing m w]).orElse fun _ => checkKnots (s.core s.cur) [] [s.soloIssuing m w] := by
  have e1 : Sys2Proof.Machine.check1 (s.core s.cur) [s.soloIssuing m w] = none := by
    simp only [Sys2Proof.Machine.check1, State.soloIssuing, List.find?_cons, h1, List.find?_nil, List.filter_cons, List.filter_nil]
    cases m.strandStore <;> rfl
  have e2 : check2 (s.core s.cur) [s.soloIssuing m w] = none := by
    rcases h.priv with e | e <;> simp [check2, State.soloIssuing, e]
  have e3 : check3 s.cur (s.core s.cur) [s.soloIssuing m w] = none := by
    have hb := h.bound
    have hr := h.runsOn
    simp only [check3, State.soloIssuing, List.findSome?_cons, List.findSome?_nil, hb, hr, Bool.not_true, Bool.false_eq_true, or_self, if_false]
    cases ht : m.timing with
    | none => rfl
    | some q =>
      obtain ⟨row, cls, b⟩ := q
      simp only [(h.timing row cls b ht).1, if_false]
  have e4 : check4 (s.core s.cur) [s.soloIssuing m w] = none := by
    simp only [check4, State.soloIssuing, List.findSome?_cons, List.findSome?_nil]
    cases ht : m.timing with
    | none => rfl
    | some q =>
      obtain ⟨row, cls, b⟩ := q
      have := (h.timing row cls b ht).2
      simp only [Nat.not_lt.mpr this, if_false]
  simp [firstCheck, soloFetched, hc, e1, e2, e3, e4]

/-- An operation whose own test of check 5 fails takes that trap. -/
theorem runSolo_check5 {m : OpSem} {i : Instr} {s : State} {w : W64} (h : s.Issues m.slot m.guard m.timing) (hw : i.slotWord = some (m.slot, w))
    (hc : i.check1 = none) (h1 : m.check1 (s.core s.cur) = false) (hp : (s.core s.cur).cr.sys = true ∨ m.priv (s.core s.cur) = false)
    (hr : m.runsOn s.cur (s.core s.cur) = true) (ha : m.always5 (s.view m) = none) {t : TrapReq}
    (ht : m.check5 s s.cur (s.view m) = some t) :
    runSolo m i s = .next (s.takeTrap s.cur t (s.core s.cur).pc 1) := by
  have hg : (s.view m).guard m.guard = true := by
    have : (s.view m).core.pend = [] := h.quiet.pend
    have e : (s.view m).guard m.guard = ((s.core s.cur).pReg (m.guard.pred.zeroExtend 6) != (m.guard.pn == 1)) := by
      simp only [View.guard, View.p, Core.pendingP, this, List.any_nil, Bool.false_eq_true, and_false, if_false]
      rfl
    rw [e]; exact h.guard
  refine runSolo_traps h.quiet hw ?_
  rw [firstCheck_admitted hc h1 ⟨hp, h.bound, hr, h.timing⟩]
  simp [check5, State.soloIssuing, ha, hg, ht]

/-- An operation that performs but for its wait takes one freeze cycle. -/
theorem runSolo_waits {m : OpSem} {i : Instr} {s : State} {w : W64} (h : s.Issues m.slot m.guard m.timing) (hw : i.slotWord = some (m.slot, w))
    (hc : i.check1 = none) (h1 : m.check1 (s.core s.cur) = false) (hp : (s.core s.cur).cr.sys = true ∨ m.priv (s.core s.cur) = false)
    (hr : m.runsOn s.cur (s.core s.cur) = true) (h5 : check5 s s.cur [s.soloIssuing m w] = none)
    (hk : checkKnots (s.core s.cur) [] [s.soloIssuing m w] = none) (hf : m.fatal s s.cur (s.view m) = none)
    {cause : Nat} (ht : waitOf s s.cur [s.soloIssuing m w] = some cause) :
    runSolo m i s = .next (s.freezeCycle s.cur cause) := by
  have hq := h.quiet
  have hl : (s.core s.cur).issuing (soloFetched m i w) s.free = [s.soloIssuing m w] := by
    rw [soloFetched, Core.issuing_solo hq]; rfl
  have hfirst : firstCheck s s.cur (soloFetched m i w) [s.soloIssuing m w] = none := by
    rw [firstCheck_admitted hc h1 ⟨hp, h.bound, hr, h.timing⟩, h5, hk]; rfl
  have hfatal : firstFatal s s.cur [s.soloIssuing m w] = none := by
    simp [firstFatal, State.soloIssuing, hf]
  have hpower : powerHold (s.core s.cur) [s.soloIssuing m w] = false := by
    have hw : issueWeight (s.core s.cur) [s.soloIssuing m w] ≤ 12 := by
      have h1 : ([s.soloIssuing m w].filter fun i => i.slot == .v0 || i.slot == .v1).length ≤ 1 := by
        simpa using List.length_filter_le (fun i => i.slot == .v0 || i.slot == .v1) [s.soloIssuing m w]
      simp only [issueWeight]
      split <;> split <;> split <;> omega
    rcases hq.room with e | e
    · simp [powerHold, e]
    · simp only [powerHold, Bool.and_eq_false_iff, decide_eq_false_iff_not]; right; omega
  rw [runSolo_once hq hw]
  unfold State.issueOnce
  simp only [State.sendBar_quiet hq, State.serveAwait_quiet hq, State.takeRecolors_quiet hq, Core.boundaryFreeze_quiet hq,
      State.landAllDue_quiet hq, hq.breakNext, hl, hq.yieldReq, Bool.false_eq_true, false_and, if_false, hfirst, hfatal, hpower,
      Core.asyncNext_quiet hq, ht]
  rfl

/-- An operation that performs but for a test made after its waits takes that trap. -/
theorem runSolo_late {m : OpSem} {i : Instr} {s : State} {w : W64} (h : s.Issues m.slot m.guard m.timing) (hw : i.slotWord = some (m.slot, w))
    (hc : i.check1 = none) (h1 : m.check1 (s.core s.cur) = false) (hp : (s.core s.cur).cr.sys = true ∨ m.priv (s.core s.cur) = false)
    (hr : m.runsOn s.cur (s.core s.cur) = true) (h5 : check5 s s.cur [s.soloIssuing m w] = none)
    (hk : checkKnots (s.core s.cur) [] [s.soloIssuing m w] = none) (hf : m.fatal s s.cur (s.view m) = none)
    (hg : (s.view m).guard m.guard = true) (hn : waitOf s s.cur [s.soloIssuing m w] = none) {t : TrapReq}
    (ht : m.late5 s s.cur (s.view m) = some t) :
    runSolo m i s = .next (s.takeTrap s.cur t (s.core s.cur).pc 1) := by
  have hq := h.quiet
  have hl : (s.core s.cur).issuing (soloFetched m i w) s.free = [s.soloIssuing m w] := by
    rw [soloFetched, Core.issuing_solo hq]; rfl
  have hfirst : firstCheck s s.cur (soloFetched m i w) [s.soloIssuing m w] = none := by
    rw [firstCheck_admitted hc h1 ⟨hp, h.bound, hr, h.timing⟩, h5, hk]; rfl
  have hfatal : firstFatal s s.cur [s.soloIssuing m w] = none := by
    simp [firstFatal, State.soloIssuing, hf]
  have hpower : powerHold (s.core s.cur) [s.soloIssuing m w] = false := by
    have hw : issueWeight (s.core s.cur) [s.soloIssuing m w] ≤ 12 := by
      have h1 : ([s.soloIssuing m w].filter fun i => i.slot == .v0 || i.slot == .v1).length ≤ 1 := by
        simpa using List.length_filter_le (fun i => i.slot == .v0 || i.slot == .v1) [s.soloIssuing m w]
      simp only [issueWeight]
      split <;> split <;> split <;> omega
    rcases hq.room with e | e
    · simp [powerHold, e]
    · simp only [powerHold, Bool.and_eq_false_iff, decide_eq_false_iff_not]; right; omega
  have hlate : ([s.soloIssuing m w].findSome? fun i => if i.perf then i.sem.late5 s s.cur i.view else none) = some t := by
    simp [State.soloIssuing, hg, ht]
  have hrep : (s.core s.cur).repsLeft (soloFetched m i w).header = 1 := by simp [soloFetched, Core.repsLeft, hq.repLeft, soloHeader]
  rw [runSolo_once hq hw]
  unfold State.issueOnce
  simp only [State.sendBar_quiet hq, State.serveAwait_quiet hq, State.takeRecolors_quiet hq, Core.boundaryFreeze_quiet hq,
      State.landAllDue_quiet hq, hq.breakNext, hl, hq.yieldReq, Bool.false_eq_true, false_and, if_false, hfirst, hfatal, hpower,
      Core.asyncNext_quiet hq, hn, hlate, hrep]
  rfl

end Sys2Proof.Machine
end

