-- ==== Sys2Proof/Laws/Effect.lean ====
section
/-! SUPPORT. What the end of a bundle-time makes of each kind of effect that one operation places (01 R30, R34, 03 R102), and the
forms of the law of a single operation that the statements cite. -/

namespace Sys2Proof.Machine

/-! ### Changes that leave accounts, cycles, power and sticky slots alone -/

theorem Core.Plain.comp {f g : Core → Core} (hf : Core.Plain f) (hg : Core.Plain g) : Core.Plain fun c => f (g c) := by
  intro c a y x p k
  show f (g _) = _
  rw [hg, hf]

theorem Core.plain_id : Core.Plain fun c => c := fun _ _ _ _ _ _ => rfl
theorem Core.plain_flagOr (n : Nat) (f : Flags) : Core.Plain fun c => c.flagOr n f := by
  intro c a y x p k; simp only [Core.flagOr]; split <;> rfl
theorem Core.plain_drive (st : Nat) (bt : W64) (n : Nat) (z : BitVec 6) (b : Option Beat) : Core.Plain fun c => c.drive st bt n z b :=
  fun _ _ _ _ _ _ => rfl
theorem Core.plain_setS (n : BitVec 6) (v : W64) : Core.Plain fun c => c.setS n v := by
  intro c a y x p k; simp only [Core.setS]; split <;> rfl
theorem Core.plain_setP (n : BitVec 6) (v : Bool) : Core.Plain fun c => c.setP n v := by
  intro c a y x p k; simp only [Core.setP]; split <;> rfl
theorem Core.plain_unpoison (q : UePlace) : Core.Plain fun c => c.unpoison q := fun _ _ _ _ _ _ => rfl
theorem Core.plain_setFes (b : Bool) : ∀ (n g : Nat), Core.Plain fun c => c.setFes g b n
  | 0, _ => Core.plain_id
  | n + 1, g => by
    intro c a y x p k
    simp only [Core.setFes]
    exact Core.plain_setFes b n (g + 1) (c.setFe g b) a y x p k
theorem Core.plain_spadWrite (a : Nat) (b : List Byte) (f : Bool) : Core.Plain fun c => c.spadWrite a b f := by
  intro c ac y x p k
  simp only [Core.spadWrite]
  split
  · exact Core.plain_setFes true _ _ ({ c with spad := SMap.setList 0 c.spad a b }.healSpad a b.length) ac y x p k
  · rfl
theorem Core.plain_land (x : Write) : Core.Plain fun c => c.land x := by
  cases x with
  | s n v => exact Core.Plain.comp (Core.plain_unpoison (.sreg n.toNat)) (Core.plain_setS n v)
  | p n v => exact Core.Plain.comp (Core.plain_unpoison (.preg n.toNat)) (Core.plain_setP n v)
  | spad a b f => exact Core.plain_spadWrite a b f
  | h n v => exact fun _ _ _ _ _ _ => rfl
  | k n v => exact fun _ _ _ _ _ _ => rfl
  | l n v => exact fun _ _ _ _ _ _ => rfl
theorem Core.plain_landAll : ∀ l : List Write, Core.Plain fun c => c.landAll l
  | [] => Core.plain_id
  | x :: l => Core.Plain.comp (Core.plain_landAll l) (Core.plain_land x)
theorem Core.plain_setKnot (n : BitVec 6) (q : Knot) : Core.Plain fun c => c.setKnot n q := fun _ _ _ _ _ _ => rfl
theorem Core.plain_finishKnot (n : BitVec 6) (ok : Bool) : Core.Plain fun c => c.finishKnot n ok := by
  intro c a y x p k
  by_cases h : (SMap.get {} c.kn n.toNat).count ≤ 1 <;> simp only [Core.finishKnot, Core.knot, h, if_true, if_false] <;> rfl
theorem Core.plain_produceKnot (n : BitVec 6) (src : BitVec 3) : Core.Plain fun c => c.produceKnot n src := fun _ _ _ _ _ _ => rfl

theorem Core.plain_foldl {α : Type} (f : Core → α → Core) (h : ∀ x, Core.Plain fun c => f c x) :
    ∀ l : List α, Core.Plain fun c => l.foldl f c
  | [] => Core.plain_id
  | x :: l => Core.Plain.comp (Core.plain_foldl f h l) (h x)

theorem Core.plain_makeDrive (d : Drive) : Core.Plain fun c => c.makeDrive d := by
  intro c a y x p k
  cases hb : d.beat with
  | none => simp only [Core.makeDrive, hb]
  | some b =>
    cases hk : d.kp with
    | none => simp only [Core.makeDrive, hb, hk]; rfl
    | some n =>
      simp only [Core.makeDrive, hb, hk]
      exact Core.plain_finishKnot n true ((c.setBeat d.z d.ring b).unpoison (.beat d.z.toNat d.ring)) a y x p k

theorem Core.plain_makeDue : Core.Plain Core.makeDue := by
  intro c a y x p k
  have h := Core.plain_foldl Core.makeDrive Core.plain_makeDrive (c.drives.filter fun d => d.left == 0)
  exact congrArg (fun d : Core => ({ d with
    drives := d.drives.filter fun d => d.left != 0, flagOrs := d.flagOrs.filter fun q => q.left != 0
    cr := { d.cr with flags := d.cr.flags ||| Flags.all ((d.flagOrs.filter fun q => q.left == 0).map fun q => q.flags) } } : Core)) (h c a y x p k)

theorem Core.plain_landDue : Core.Plain Core.landDue := by
  intro c a y x p k
  exact Core.plain_landAll _ ({ c with pend := c.pend.filter fun (q : Pending) => q.left != 0 }) a y x p k

theorem Core.agrees_countDown {c e : Core} (h : c.Agrees e) : c.countDown.Agrees e.countDown := by
  obtain ⟨a, y, x, p, k, rfl⟩ := Core.agrees_iff.mp h
  rfl

/-- The end of a bundle-time does the same to cores that agree. -/
theorem Core.agrees_endBundle {c e : Core} (h : c.Agrees e) (seed : W64) : (c.endBundle seed).Agrees (e.endBundle seed) := by
  have h1 : (({ c with cr := { c.cr with seed := seed } } : Core)).Agrees { e with cr := { e.cr with seed := seed } } := by
    obtain ⟨a, y, x, p, k, rfl⟩ := Core.agrees_iff.mp h
    rfl
  have h2 := Core.plain_landDue.agrees (Core.agrees_countDown (Core.plain_makeDue.agrees h1))
  obtain ⟨a, y, x, p, k, e2⟩ := Core.agrees_iff.mp h2
  exact Core.agrees_iff.mpr ⟨a, y, x, p, k, by simp only [Core.endBundle]; rw [e2]⟩

/-! ### Fields that the end of a bundle-time leaves alone -/

theorem Core.kept_setFes (b : Bool) : ∀ (n g : Nat) (c : Core), ∃ f, c.setFes g b n = { c with fe := f }
  | 0, _, c => ⟨c.fe, rfl⟩
  | n + 1, g, c => by
    obtain ⟨f, h⟩ := Core.kept_setFes b n (g + 1) (c.setFe g b)
    exact ⟨f, h⟩

/-- Full-empty bits set from a granule on. -/
def setFeMap (m : SMap Bool) (g : Nat) (b : Bool) : Nat → SMap Bool
  | 0 => m
  | n + 1 => setFeMap (SMap.set false m g b) (g + 1) b n

theorem Core.setFes_eq (b : Bool) : ∀ (n g : Nat) (c : Core), c.setFes g b n = { c with fe := setFeMap c.fe g b n }
  | 0, _, _ => rfl
  | n + 1, g, c => Core.setFes_eq b n (g + 1) (c.setFe g b)

/-- The landing of writes changes registers, the scratchpad, full-empty bits and poison alone. -/
theorem Core.kept_land (c : Core) (x : Write) : ∃ s p h k l sp fe po,
    c.land x = { c with s := s, p := p, h := h, k := k, l := l, spad := sp, fe := fe, poison := po } := by
  cases x with
  | s n v => simp only [Core.land, Core.setS]; split <;> exact ⟨_, _, _, _, _, _, _, _, rfl⟩
  | p n v => simp only [Core.land, Core.setP]; split <;> exact ⟨_, _, _, _, _, _, _, _, rfl⟩
  | spad a b f =>
    simp only [Core.land, Core.spadWrite]
    split
    · obtain ⟨fe, e⟩ := Core.kept_setFes true (granules a b.length).2 (granules a b.length).1
        ({ c with spad := SMap.setList 0 c.spad a b }.healSpad a b.length)
      exact ⟨_, _, _, _, _, _, _, _, e⟩
    · exact ⟨_, _, _, _, _, _, _, _, rfl⟩
  | _ => exact ⟨_, _, _, _, _, _, _, _, rfl⟩

/-- The landing of writes in order. -/
theorem Core.kept_landAll : ∀ (w : List Write) (c : Core), ∃ s p h k l sp fe po,
    c.landAll w = { c with s := s, p := p, h := h, k := k, l := l, spad := sp, fe := fe, poison := po }
  | [], c => ⟨_, _, _, _, _, _, _, _, rfl⟩
  | x :: w, c => by
    obtain ⟨_, _, _, _, _, _, _, _, e⟩ := Core.kept_land c x
    obtain ⟨s, p, h, k, l, sp, fe, po, e'⟩ := Core.kept_landAll w (c.land x)
    refine ⟨s, p, h, k, l, sp, fe, po, e'.trans ?_⟩
    rw [e]

theorem Core.kept_finishKnot (c : Core) (n : BitVec 6) (ok : Bool) : ∃ k, c.finishKnot n ok = { c with kn := k } := by
  simp only [Core.finishKnot]; split <;> exact ⟨_, rfl⟩

/-- What is due at a bundle-time changes beats, knots, poison and flags alone. -/
theorem Core.kept_makeDue (c : Core) : ∃ z p k d f fl,
    c.makeDue = { c with strands := z, poison := p, kn := k, drives := d, flagOrs := f, cr := { c.cr with flags := fl } } := by
  have h : ∀ (l : List Drive) (c : Core), ∃ z p k, l.foldl Core.makeDrive c = { c with strands := z, poison := p, kn := k } := by
    intro l
    induction l with
    | nil => intro c; exact ⟨_, _, _, rfl⟩
    | cons d l ih =>
      intro c
      simp only [List.foldl_cons]
      have hd : ∃ z p k, c.makeDrive d = { c with strands := z, poison := p, kn := k } := by
        cases hb : d.beat with
        | none => exact ⟨_, _, _, by simp only [Core.makeDrive, hb]; rfl⟩
        | some b =>
          cases hk : d.kp with
          | none => exact ⟨_, _, _, by simp only [Core.makeDrive, hb, hk]; rfl⟩
          | some n =>
            obtain ⟨k, e⟩ := Core.kept_finishKnot ((c.setBeat d.z d.ring b).unpoison (.beat d.z.toNat d.ring)) n true
            exact ⟨_, _, k, by simp only [Core.makeDrive, hb, hk]; exact e⟩
      obtain ⟨_, _, _, e⟩ := hd
      obtain ⟨z, p, k, e'⟩ := ih (c.makeDrive d)
      exact ⟨z, p, k, by rw [e', e]⟩
  obtain ⟨z, p, k, e⟩ := h (c.drives.filter fun d => d.left == 0) c
  simp only [Core.makeDue]
  rw [e]
  exact ⟨_, _, _, _, _, _, rfl⟩

/-- What the end of a bundle-time never changes. -/
theorem Core.kept_endBundle (c : Core) (x : W64) :
    (c.endBundle x).hooks = c.hooks ∧ (c.endBundle x).repLeft = c.repLeft ∧ (c.endBundle x).cycle = c.cycle ∧
      (c.endBundle x).item = c.item ∧ (c.endBundle x).copies = c.copies ∧ (c.endBundle x).stream = c.stream := by
  simp only [Core.endBundle, Core.landDue]
  obtain ⟨_, _, _, _, _, _, e⟩ := Core.kept_makeDue { c with cr := { c.cr with seed := x } }
  rw [e, Core.countDown]
  simp only
  obtain ⟨_, _, _, _, _, _, _, _, e'⟩ := Core.kept_landAll _ _
  rw [e']
  exact ⟨rfl, rfl, rfl, rfl, rfl, rfl⟩

/-! ### An operation that is ready and whose own tests pass -/

/-- The tests and waits of an operation's own all pass. -/
structure OpSem.Clear (m : OpSem) (s : State) : Prop where
  check1 : m.check1 (s.core s.cur) = false
  always5 : m.always5 (s.view m) = none
  check5 : m.check5 s s.cur (s.view m) = none
  fatal : m.fatal s s.cur (s.view m) = none
  consumes : ∀ n ∈ m.consumes (s.view m), ((s.core s.cur).knot n).state = .resolved
  mask : m.mask (s.view m) = []
  produces : ∀ n src, m.produces (s.view m) = some (n, src) → ((s.core s.cur).knot n).state ≠ .failed ∧
    (((s.core s.cur).knot n).state = .pending → ((s.core s.cur).knot n).source = src)
  queue : ∀ e, m.queue (s.view m) = some e → (((s.core s.cur).copies.filter fun o => o.engine == e).length < 64)
  wait : m.wait s s.cur (s.view m) = none
  late5 : m.late5 s s.cur (s.view m) = none

theorem View.guard_quiet {v : View} (h : v.core.pend = []) (g : Guard) :
    v.guard g = (v.core.pReg (g.pred.zeroExtend 6) != (g.pn == 1)) := by
  simp [View.guard, View.p, Core.pendingP, h]

theorem State.Issues.guarded {m : OpSem} {s : State} (h : s.Issues m.slot m.guard m.timing) : (s.view m).guard m.guard = true :=
  (View.guard_quiet (v := s.view m) h.quiet.pend m.guard).trans h.guard

theorem State.Issues.admitted {m : OpSem} {s : State} (h : s.Issues m.slot m.guard m.timing)
    (hp : (s.core s.cur).cr.sys = true ∨ m.priv (s.core s.cur) = false) (hr : m.runsOn s.cur (s.core s.cur) = true) : m.Admitted s :=
  ⟨hp, h.bound, hr, h.timing⟩

theorem State.Issues.performs {m : OpSem} {s : State} (h : s.Issues m.slot m.guard m.timing)
    (hp : (s.core s.cur).cr.sys = true ∨ m.priv (s.core s.cur) = false) (hr : m.runsOn s.cur (s.core s.cur) = true) (k : m.Clear s) :
    m.Performs s := by
  refine ⟨h.quiet, h.admitted hp hr, h.guarded, k.check1, k.always5, k.check5, ?_, k.fatal, ?_, k.late5⟩
  · have hp : (s.soloIssuing m 0).perf = true := h.guarded
    have ht : knotTest (s.core s.cur) [] (s.soloIssuing m 0) = none := by
      simp only [knotTest, State.soloIssuing, k.mask, List.find?_nil, ite_self]
      split
      · next x hx =>
        obtain ⟨n, hn, e⟩ := List.exists_of_findSome?_eq_some hx
        rw [k.consumes n hn] at e
        cases e
      cases hpr : m.produces (s.view m) with
      | none => rfl
      | some q =>
        obtain ⟨n, src⟩ := q
        have ⟨k1, k2⟩ := k.produces n src hpr
        simp only [k1, false_and, if_false, List.contains_nil, Bool.false_eq_true, false_or]
        split
        · next hc => exact absurd (k2 hc.1) hc.2
        · rfl
    simp only [checkKnots, hp, Bool.not_true, Bool.false_eq_true, if_false, ht]
  · have hp : (s.soloIssuing m 0).perf = true := h.guarded
    have hc : (m.consumes (s.view m) ++ m.mask (s.view m)).any (fun n => ((s.core s.cur).knot n).state == .pending) = false := by
      rw [k.mask, List.append_nil, List.any_eq_false]
      intro n hn
      rw [k.consumes n hn]; decide
    have e2 : (s.soloIssuing m 0).sem.wait s s.cur (s.soloIssuing m 0).view = none := k.wait
    have e3 : ((s.soloIssuing m 0).sem.consumes (s.soloIssuing m 0).view ++ (s.soloIssuing m 0).sem.mask (s.soloIssuing m 0).view).any
        (fun n => ((s.core s.cur).knot n).state == .pending) = false := hc
    have e4 : (s.soloIssuing m 0).sem.queue (s.soloIssuing m 0).view = m.queue (s.view m) := rfl
    simp only [waitOf, List.filterMap_cons, List.filterMap_nil, hp, Bool.not_true, Bool.false_eq_true, if_false, if_true, e2, e3, e4]
    cases hq : m.queue (s.view m) with
    | none => rfl
    | some e =>
      have hl := k.queue e hq
      have hn : ∀ e', ([e].contains e' && decide (64 < ((s.core s.cur).copies.filter fun o => o.engine == e').length +
          ([e].filter fun x => x == e').length)) = false := by
        intro e'
        by_cases he : e' = e
        · subst he
          have : ([e'].filter fun x => x == e').length = 1 := by simp
          rw [this, Bool.and_eq_false_iff, decide_eq_false_iff_not]
          right; omega
        · simp [he]
      simp only [hn, Bool.or_self, Bool.false_eq_true, if_false]
      rfl

/-! ### The law of an operation whose effects are its core's alone -/

theorem Core.agrees_next {c e : Core} (h : c.Agrees e) (r : Option Nat) (pc : BitVec 57) :
    ({ c with repLeft := r, pc := pc } : Core).Agrees { e with repLeft := r, pc := pc } := by
  obtain ⟨_, _, _, _, _, rfl⟩ := Core.agrees_iff.mp h
  rfl

/-- An operation that performs in a bundle of its own and changes its core alone: the core it leaves, before the end of an item or a
return. `a` is what it gathers, `F` what it does to the state, `g` to the core. -/
theorem runSolo_post {m : OpSem} {i : Instr} {s : State} {w : W64} (h : m.Performs s) (hw : i.slotWord = some (m.slot, w))
    (hc : i.check1 = none) {F : State → State} {g : Core → Core} {sd : W64} {nx : Option (BitVec 57)} {tl er : Bool} (hg : Core.Plain g)
    (hh : ∀ c, (g c).hooks = c.hooks) (hy : ∀ c, (g c).cycle = c.cycle)
    (hF : ∀ u : State, s.Charged u → (F u).core s.cur = g (u.core s.cur) ∧ (∀ k, k ≠ s.cur → (F u).core k = u.core k) ∧ F u = { u with cores := (F u).cores })
    {a : State → Acc}
    (hp : ∀ u : State, s.Charged u → (m.perform s.cur (s.view m)
        { st := m.begun s.cur (s.view m) u, seed := (s.core s.cur).cr.seed }) = a u)
    (ha : ∀ u, s.Charged u → (a u).st = F u ∧ (a u).seedSet.getD (a u).seed = sd ∧ (a u).next = nx ∧ (a u).tail = tl ∧ (a u).eret = er) :
    ∃ t, runSolo m i s = .next (if er then (if tl then t.endItem s.cur else t).eret s.cur else (if tl then t.endItem s.cur else t)) ∧
      s.Follows t { (g (s.core s.cur)).endBundle sd with repLeft := none, pc := nx.getD ((s.core s.cur).pc + 12) } := by
  obtain ⟨u, hu, e⟩ := runSolo_performs h hw hc
  rw [hp u hu] at e
  obtain ⟨f1, f2, f3⟩ := hF u hu
  obtain ⟨a1, a2, a3, a4, a5⟩ := ha u hu
  have hag : (g (u.core s.cur)).Agrees (g (s.core s.cur)) := hg.agrees hu.core
  have hb := Core.agrees_endBundle hag sd
  have hhook : ((g (u.core s.cur)).endBundle sd).hooks = (s.core s.cur).hooks := by
    rw [(Core.kept_endBundle ..).1]
    obtain ⟨a, y, x, p, k, e⟩ := Core.agrees_iff.mp hu.core
    simp only [hh]
    rw [e]
  have hcyc : ((g (u.core s.cur)).endBundle sd).cycle = (u.core s.cur).cycle := by
    rw [(Core.kept_endBundle ..).2.2.1]; exact hy _
  have hz : ∀ (c d : Core) (n : Nat) (b : Bool), d.hooks = (s.core s.cur).hooks →
      c.haltIf n (d.hooks.stepBundle || (b && d.hooks.haltRequest)) = c := by
    intro c d n b hd
    rw [hd, h.quiet.stepBundle, h.quiet.haltRequest]; cases b <;> rfl
  refine ⟨s.close (a u), e.trans (by simp only [State.finish, a4, a5]), ?_⟩
  simp only [State.close, a1, a2, a3]
  refine ⟨?_, fun k hk => ?_, fun hs => ?_, ?_, ?_⟩
  · simp only [State.modCore, State.setCore]; rw [f3, hu.rest]
  · rw [State.core_modCore_ne _ _ hk, State.core_modCore_ne _ _ hk, f2 k hk]; exact hu.others k hk
  · simp only [State.modCore, State.setCore]; rw [f3]; exact hu.memory hs
  · rw [State.core_modCore, State.core_modCore, f1, hz _ _ _ _ hhook]
    exact Core.agrees_next hb _ _
  · rw [State.core_modCore, State.core_modCore, f1, hz _ _ _ _ hhook]
    rw [hcyc, hu.cycle]

/-- The same for an operation that neither ends the item nor returns. -/
theorem runSolo_fin {m : OpSem} {i : Instr} {s : State} {w : W64} (h : m.Performs s) (hw : i.slotWord = some (m.slot, w))
    (hc : i.check1 = none) {F : State → State} {g : Core → Core} {sd : W64} {nx : Option (BitVec 57)} (hg : Core.Plain g)
    (hh : ∀ c, (g c).hooks = c.hooks) (hy : ∀ c, (g c).cycle = c.cycle)
    (hF : ∀ u : State, s.Charged u → (F u).core s.cur = g (u.core s.cur) ∧ (∀ k, k ≠ s.cur → (F u).core k = u.core k) ∧ F u = { u with cores := (F u).cores })
    {a : State → Acc}
    (hp : ∀ u : State, s.Charged u → (m.perform s.cur (s.view m)
        { st := m.begun s.cur (s.view m) u, seed := (s.core s.cur).cr.seed }) = a u)
    (ha : ∀ u, s.Charged u → (a u).st = F u ∧ (a u).seedSet.getD (a u).seed = sd ∧ (a u).next = nx ∧ (a u).tail = false ∧ (a u).eret = false) :
    ∃ t, runSolo m i s = .next t ∧
      s.Follows t { (g (s.core s.cur)).endBundle sd with repLeft := none, pc := nx.getD ((s.core s.cur).pc + 12) } := by
  obtain ⟨t, e, hf⟩ := runSolo_post (tl := false) (er := false) h hw hc hg hh hy hF hp ha
  exact ⟨t, e, hf⟩

/-- The same for an operation that gathers no more than its changes of the core, its draws and a next bundle. -/
theorem runSolo_coreF {m : OpSem} {i : Instr} {s : State} {w : W64} (h : m.Performs s) (hw : i.slotWord = some (m.slot, w))
    (hc : i.check1 = none) {F : State → State} {g : Core → Core} {sd : W64} {nx : Option (BitVec 57)} (hg : Core.Plain g)
    (hh : ∀ c, (g c).hooks = c.hooks) (hy : ∀ c, (g c).cycle = c.cycle)
    (hF : ∀ u : State, s.Charged u → (F u).core s.cur = g (u.core s.cur) ∧ (∀ k, k ≠ s.cur → (F u).core k = u.core k) ∧ F u = { u with cores := (F u).cores })
    (hp : ∀ u : State, s.Charged u → (m.perform s.cur (s.view m)
        { st := m.begun s.cur (s.view m) u, seed := (s.core s.cur).cr.seed }) = { st := F u, seed := sd, next := nx }) :
    ∃ t, runSolo m i s = .next t ∧
      s.Follows t { (g (s.core s.cur)).endBundle sd with repLeft := none, pc := nx.getD ((s.core s.cur).pc + 12) } :=
  runSolo_fin h hw hc hg hh hy hF hp fun _ _ => ⟨rfl, rfl, rfl, rfl, rfl⟩

/-- The same for an operation that changes the core in one piece. -/
theorem runSolo_core {m : OpSem} {i : Instr} {s : State} {w : W64} (h : m.Performs s) (hw : i.slotWord = some (m.slot, w))
    (hc : i.check1 = none) {g : Core → Core} {sd : W64} {nx : Option (BitVec 57)} (hg : Core.Plain g)
    (hh : ∀ c, (g c).hooks = c.hooks) (hy : ∀ c, (g c).cycle = c.cycle)
    (hp : ∀ u : State, s.Charged u → (m.perform s.cur (s.view m)
        { st := m.begun s.cur (s.view m) u, seed := (s.core s.cur).cr.seed }) = { st := u.modCore s.cur g, seed := sd, next := nx }) :
    ∃ t, runSolo m i s = .next t ∧
      s.Follows t { (g (s.core s.cur)).endBundle sd with repLeft := none, pc := nx.getD ((s.core s.cur).pc + 12) } :=
  runSolo_coreF h hw hc hg hh hy (fun _ _ => ⟨State.core_modCore .., fun _ hk => State.core_modCore_ne _ _ hk, rfl⟩) hp

/-! ### The forms of the law -/

theorem State.Follows.of_core {s t : State} {e f : Core} (h : s.Follows t e) (k : e.Agrees f) : s.Follows t f :=
  { h with core := h.core.trans k }

/-- The core after a bundle that placed one write and named its next bundle. -/
theorem Core.agrees_later {c : Core} (h : c.Still) (bound : Nat) (x : Write) (pc : BitVec 57) :
    ({ (c.pendWrite bound x).endBundle c.cr.seed with repLeft := none, pc := pc } : Core).Agrees { c.later bound x with pc := pc } := by
  rw [Core.endBundle_pendWrite h]
  have hr := h.repLeft
  simp only [Core.later, Core.after]
  split
  · obtain ⟨_, _, _, _, _, _, _, _, e⟩ := Core.kept_land c x
    rw [e]
    simp only [Core.Agrees, hr]
  · simp only [Core.Agrees, hr]

/-- The core after a bundle that placed nothing. -/
theorem Core.agrees_after {c : Core} (h : c.Still) (seed : W64) (pc : BitVec 57) :
    ({ c.endBundle seed with repLeft := none, pc := pc } : Core).Agrees { (c.withSeed seed).after with pc := pc } := by
  obtain ⟨hp, hl, hd, hf, hm, hr, _⟩ := h
  have hz : ∀ x : Flags, x ||| 0 = x := fun x => BitVec.or_zero
  cases c with
  | mk bt pc cycle supervisor stopped rs rp rh rk rl kn cr timing region strands spad fe poison sticky pend drives flagOrs landings
      nextLanding mx mq copies nextCopy streamFault l1 refusals stream tracker ranges fmtBits latch repLeft =>
  simp only at hd hl hm hp hf hr
  subst hd hl hm hp hf hr
  simp only [Core.withSeed, Core.after, Core.endBundle, Core.makeDue, Core.landDue, Core.countDown, List.filter_nil, List.foldl_nil,
    List.map_nil, Core.landAll, Flags.all, hz]
  rfl

/-- The core after a bundle that placed one drive. -/
theorem Core.agrees_drive {c : Core} (h : c.Still) (sl : Slot) (bound : Nat) (z : BitVec 6) (b : Beat) (hs : sl = .s ∨ sl = .v0 ∨ sl = .v1)
    (pc : BitVec 57) :
    ({ (c.drive (station sl) c.bt bound z (some b)).endBundle c.cr.seed with repLeft := none, pc := pc } : Core).Agrees
      { (c.driveAt sl bound z b).after with pc := pc } := by
  obtain ⟨hp, hl, hd, hf, hm, hr, ho⟩ := h
  have hz : ∀ x : Flags, x ||| 0 = x := fun x => BitVec.or_zero
  cases c with
  | mk bt pc cycle supervisor stopped rs rp rh rk rl kn cr timing region strands spad fe poison sticky pend drives flagOrs landings
      nextLanding mx mq copies nextCopy streamFault l1 refusals stream tracker ranges fmtBits latch repLeft =>
  simp only at hd hl hm hp hf hr ho
  subst hd hl hm hp hf hr ho
  by_cases h0 : bound = 0
  · subst h0
    rcases hs with rfl | rfl | rfl <;>
    · simp only [Core.drive, Core.driveAt, Core.driveFrom, Core.after, Core.endBundle, Core.makeDue, Core.landDue, Core.countDown, List.filter_nil,
        List.foldl_nil, List.map_nil, Core.landAll, Flags.all, hz, List.nil_append, List.filter_cons, if_false, Core.makeDrive,
        bne_self_eq_false, Bool.false_eq_true, if_true, beq_self_eq_true, station, List.foldl_cons, Core.setBeat, Core.unpoison]
      rfl
  · rcases hs with rfl | rfl | rfl <;>
    · simp only [Core.drive, Core.driveAt, Core.driveFrom, Core.after, Core.endBundle, Core.makeDue, Core.landDue, Core.countDown, List.filter_nil,
        List.foldl_nil, List.map_nil, List.map_cons, Core.landAll, Flags.all, hz, List.nil_append, List.filter_cons, h0, if_false,
        bne_iff_ne, ne_eq, not_false_eq_true, if_true, beq_iff_eq, station]
      rfl

/-- The core after a bundle that took a landing slot. -/
theorem Core.agrees_landing {c : Core} (h : c.Still) (n : Nat) (toK : Bool) (d : BitVec 6) (t : Target) (k : LandKind) (pc : BitVec 57) :
    ({ ({ c with
        nextLanding := c.nextLanding + 1
        landings := c.landings ++ [⟨c.nextLanding, n, toK, d, t, k, .waiting, true, false, none⟩] } : Core).endBundle c.cr.seed with
      repLeft := none, pc := pc } : Core).Agrees
      { c with
        nextLanding := c.nextLanding + 1
        landings := [⟨c.nextLanding, n - 1, toK, d, t, k, .waiting, true, false, none⟩]
        bt := c.bt + 1, pc := pc } := by
  obtain ⟨hp, hl, hd, hf, hm, hr, _⟩ := h
  have hz : ∀ x : Flags, x ||| 0 = x := fun x => BitVec.or_zero
  cases c with
  | mk bt pc cycle supervisor stopped rs rp rh rk rl kn cr timing region strands spad fe poison sticky pend drives flagOrs landings
      nextLanding mx mq copies nextCopy streamFault l1 refusals stream tracker ranges fmtBits latch repLeft =>
  simp only at hd hl hm hp hf hr
  subst hd hl hm hp hf hr
  simp only [Core.endBundle, Core.makeDue, Core.landDue, Core.countDown, List.filter_nil, List.foldl_nil, List.map_nil, List.map_cons,
    Core.landAll, Flags.all, hz, List.nil_append, Bool.false_eq_true, if_false]
  rfl

theorem Core.withSeed_self (c : Core) : c.withSeed c.cr.seed = c := rfl

theorem Core.later_pc (c : Core) (bound : Nat) (x : Write) : (c.later bound x).pc = c.pc + 12 := by
  simp only [Core.later, Core.after]
  split
  · obtain ⟨_, _, _, _, _, _, _, _, e⟩ := Core.kept_land c x
    rw [e]
  · rfl

theorem Core.setFes_with (cr : CtlRegs) (d : List Drive) (fl : List FlagOr) (pe : List Pending) (b : Bool) : ∀ (n g : Nat) (c : Core),
    ({ c with cr := cr, drives := d, flagOrs := fl, pend := pe } : Core).setFes g b n =
      { c.setFes g b n with cr := cr, drives := d, flagOrs := fl, pend := pe }
  | 0, _, _ => rfl
  | n + 1, g, c => Core.setFes_with cr d fl pe b n (g + 1) (c.setFe g b)

/-- The landing of a write neither reads nor changes control registers, drives, flag updates and other writes. -/
theorem Core.land_with (c : Core) (cr : CtlRegs) (d : List Drive) (fl : List FlagOr) (pe : List Pending) (x : Write) :
    ({ c with cr := cr, drives := d, flagOrs := fl, pend := pe } : Core).land x =
      { c.land x with cr := cr, drives := d, flagOrs := fl, pend := pe } := by
  cases x with
  | s n v => simp only [Core.land, Core.setS]; split <;> rfl
  | p n v => simp only [Core.land, Core.setP]; split <;> rfl
  | spad a b f =>
    simp only [Core.land, Core.spadWrite]
    split
    · exact Core.setFes_with cr d fl pe true (granules a b.length).2 (granules a b.length).1
        ({ c with spad := SMap.setList 0 c.spad a b }.healSpad a b.length)
    · rfl
  | _ => rfl

/-- An operation that places one write and names the next bundle, or does not. -/
theorem runSolo_writeNext {m : OpSem} {i : Instr} {s : State} {w : W64} (h : m.Performs s) (hw : i.slotWord = some (m.slot, w))
    (hc : i.check1 = none) (hpr : m.produces (s.view m) = none) {bound : Nat} {x : Write} {nx : Option (BitVec 57)}
    (hp : ∀ a : Acc, a.next = none → m.perform s.cur (s.view m) a =
      { a.core s.cur (fun c => c.pendWrite bound x) with next := nx }) :
    ∃ t, runSolo m i s = .next t ∧
      s.Follows t { (s.core s.cur).later bound x with pc := nx.getD ((s.core s.cur).pc + 12) } := by
  obtain ⟨t, e, hf⟩ := runSolo_core h hw hc (g := fun c => c.pendWrite bound x) (sd := (s.core s.cur).cr.seed) (nx := nx)
    (Core.plain_pendWrite bound x) (fun _ => rfl) (fun _ => rfl) (fun u _ => by
      rw [hp _ rfl, OpSem.begun, hpr]; rfl)
  exact ⟨t, e, hf.of_core (Core.agrees_later h.quiet.still ..)⟩

/-- An operation that names the next bundle and changes nothing else. -/
theorem runSolo_next {m : OpSem} {i : Instr} {s : State} {w : W64} (h : m.Performs s) (hw : i.slotWord = some (m.slot, w))
    (hc : i.check1 = none) (hpr : m.produces (s.view m) = none) {nx : Option (BitVec 57)}
    (hp : ∀ a : Acc, a.next = none → m.perform s.cur (s.view m) a = { a with next := nx }) :
    ∃ t, runSolo m i s = .next t ∧ s.Follows t { (s.core s.cur).after with pc := nx.getD ((s.core s.cur).pc + 12) } := by
  obtain ⟨t, e, hf⟩ := runSolo_coreF h hw hc (F := fun u => u) (g := fun c => c) (sd := (s.core s.cur).cr.seed) (nx := nx)
    Core.plain_id (fun _ => rfl) (fun _ => rfl) (fun _ _ => ⟨rfl, fun _ _ => rfl, rfl⟩) (fun _ _ => by
      rw [hp _ rfl, OpSem.begun, hpr])
  exact ⟨t, e, hf.of_core (Core.agrees_after h.quiet.still ..)⟩

/-- An operation that drives one beat. -/
theorem runSolo_drive {m : OpSem} {i : Instr} {s : State} {w : W64} (h : m.Performs s) (hw : i.slotWord = some (m.slot, w))
    (hc : i.check1 = none) (hpr : m.produces (s.view m) = none) {bound : Nat} {z : BitVec 6} {b : Beat} (hs : m.slot = .s ∨ m.slot = .v0 ∨ m.slot = .v1)
    (hp : ∀ a : Acc, m.perform s.cur (s.view m) a = a.core s.cur fun c => c.drive (station m.slot) (s.core s.cur).bt bound z (some b)) :
    ∃ t, runSolo m i s = .next t ∧ s.Follows t ((s.core s.cur).driveAt m.slot bound z b).after := by
  obtain ⟨t, e, hf⟩ := runSolo_core h hw hc (g := fun c => c.drive (station m.slot) (s.core s.cur).bt bound z (some b))
    (sd := (s.core s.cur).cr.seed) (nx := none) (Core.plain_drive _ _ _ _ _) (fun _ => rfl) (fun _ => rfl) (fun u _ => by
      rw [hp, OpSem.begun, hpr]; rfl)
  refine ⟨t, e, hf.of_core (Core.Agrees.trans (Core.agrees_drive h.quiet.still m.slot bound z b hs _) ?_)⟩
  have : ((s.core s.cur).driveAt m.slot bound z b).after.pc = (s.core s.cur).pc + 12 := by
    simp only [Core.driveAt, Core.driveFrom, Core.after]; split <;> rfl
  simp only [Option.getD_none, ← this]
  exact Core.Agrees.refl _

/-- An operation that places one write. -/
theorem runSolo_write {m : OpSem} {i : Instr} {s : State} {w : W64} (h : m.Performs s) (hw : i.slotWord = some (m.slot, w))
    (hc : i.check1 = none) (hpr : m.produces (s.view m) = none) {bound : Nat} {x : Write}
    (hp : ∀ a : Acc, m.perform s.cur (s.view m) a = a.core s.cur fun c => c.pendWrite bound x) :
    ∃ t, runSolo m i s = .next t ∧ s.Follows t ((s.core s.cur).later bound x) := by
  obtain ⟨t, e, hf⟩ := runSolo_writeNext h hw hc hpr (nx := none) fun a ha => by
    rw [hp]; cases a; simp only at ha; subst ha; rfl
  refine ⟨t, e, hf.of_core ?_⟩
  simp only [Option.getD_none]
  rw [← Core.later_pc]
  exact Core.Agrees.refl _

/-- An operation that changes its core alone, and leaves nothing there for the end of a bundle-time. -/
theorem runSolo_change {m : OpSem} {i : Instr} {s : State} {w : W64} (h : m.Performs s) (hw : i.slotWord = some (m.slot, w))
    (hc : i.check1 = none) {g : Core → Core} (hg : Core.Plain g) (hh : ∀ c, (g c).hooks = c.hooks) (hy : ∀ c, (g c).cycle = c.cycle)
    (hs : ∀ c, c.Still → (g c).Still) (hd : ∀ c, (g c).cr.seed = c.cr.seed) (hpc : ∀ c, (g c).pc = c.pc)
    (hp : ∀ u : State, s.Charged u → (m.perform s.cur (s.view m)
        { st := m.begun s.cur (s.view m) u, seed := (s.core s.cur).cr.seed }) = { st := u.modCore s.cur g, seed := (s.core s.cur).cr.seed }) :
    ∃ t, runSolo m i s = .next t ∧ s.Follows t (g (s.core s.cur)).after := by
  obtain ⟨t, e, hf⟩ := runSolo_core h hw hc (nx := none) hg hh hy hp
  refine ⟨t, e, hf.of_core ?_⟩
  have := Core.agrees_after (hs _ h.quiet.still) (s.core s.cur).cr.seed ((s.core s.cur).pc + 12)
  rw [← hd, Core.withSeed_self] at this
  rw [← hd]
  refine this.trans ?_
  simp only [Core.after, hpc]
  exact Core.Agrees.refl _

/-- The core at the end of a bundle-time of an operation in a bundle of its own, whatever it did to the rest of the machine. -/
theorem State.close_agrees {s : State} (hq : (s.core s.cur).Quiet) {a : Acc} {e : Core} (h : (a.st.core s.cur).Agrees e)
    (hh : e.hooks = (s.core s.cur).hooks) :
    ((s.close a).core s.cur).Agrees
      { e.endBundle (a.seedSet.getD a.seed) with repLeft := none, pc := a.next.getD ((s.core s.cur).pc + 12) } := by
  have hb := Core.agrees_endBundle h (a.seedSet.getD a.seed)
  have hhook : ((a.st.core s.cur).endBundle (a.seedSet.getD a.seed)).hooks = (s.core s.cur).hooks := by
    rw [(Core.kept_endBundle ..).1]
    obtain ⟨a, y, x, p, k, e⟩ := Core.agrees_iff.mp h
    rw [e]; exact hh
  have hz : ∀ (c d : Core) (n : Nat) (b : Bool), d.hooks = (s.core s.cur).hooks →
      c.haltIf n (d.hooks.stepBundle || (b && d.hooks.haltRequest)) = c := by
    intro c d n b hd
    rw [hd, hq.stepBundle, hq.haltRequest]; cases b <;> rfl
  simp only [State.close]
  rw [State.core_modCore, State.core_modCore, hz _ _ _ _ hhook]
  exact Core.agrees_next hb _ _

/-- The end of a bundle-time changes the current core alone. -/
theorem State.core_close_ne (s : State) (a : Acc) {k : Nat} (h : k ≠ s.cur) : (s.close a).core k = a.st.core k := by
  simp only [State.close]; rw [State.core_modCore_ne _ _ h, State.core_modCore_ne _ _ h]
theorem State.rest_close (s : State) (a : Acc) : s.close a = { a.st with cores := (s.close a).cores } := rfl

/-- The core after a bundle that did nothing to it. -/
theorem State.close_after {s : State} (hq : (s.core s.cur).Quiet) {a : Acc} (h : (a.st.core s.cur).Agrees (s.core s.cur))
    (hs : a.seedSet.getD a.seed = (s.core s.cur).cr.seed) (hn : a.next = none) : ((s.close a).core s.cur).Agrees (s.core s.cur).after := by
  have := State.close_agrees hq h rfl
  rw [hs, hn] at this
  exact this.trans (Core.agrees_after hq.still _ _)

/-- The core after a bundle that placed one write. -/
theorem State.close_later {s : State} (hq : (s.core s.cur).Quiet) {a : Acc} {n : Nat} {x : Write}
    (h : (a.st.core s.cur).Agrees ((s.core s.cur).pendWrite n x))
    (hs : a.seedSet.getD a.seed = (s.core s.cur).cr.seed) (hn : a.next = none) : ((s.close a).core s.cur).Agrees ((s.core s.cur).later n x) := by
  have := State.close_agrees hq h rfl
  rw [hs, hn] at this
  refine (this.trans (Core.agrees_later hq.still ..)).trans ?_
  simp only [Option.getD_none]
  rw [← Core.later_pc]
  exact Core.Agrees.refl _

/-- What an operation gathers on a charged state, where it changes its core alone: the core comes to agree with `e`. -/
structure Acc.Makes (a : Acc) (u : State) (key : Nat) (e : Core) (sd : W64) (nx : Option (BitVec 57)) : Prop where
  core : (a.st.core key).Agrees e
  cycle : (a.st.core key).cycle = (u.core key).cycle
  others : ∀ k, k ≠ key → a.st.core k = u.core k
  rest : a.st = { u with cores := a.st.cores }
  seed : a.seedSet.getD a.seed = sd
  next : a.next = nx
  tail : a.tail = false
  eret : a.eret = false

/-- The end of the bundle-time of an operation that made its core agree with another. -/
theorem State.close_follows {s u : State} (hq : (s.core s.cur).Quiet) (hu : s.Charged u) {a : Acc} {e : Core} {sd : W64}
    {nx : Option (BitVec 57)} (hm : a.Makes u s.cur e sd nx) (he : e.hooks = (s.core s.cur).hooks) :
    s.Follows (s.close a) { e.endBundle sd with repLeft := none, pc := nx.getD ((s.core s.cur).pc + 12) } := by
  have hcl := State.close_agrees hq hm.core he
  rw [hm.seed, hm.next] at hcl
  have hhook : ((a.st.core s.cur).endBundle (a.seedSet.getD a.seed)).hooks = (s.core s.cur).hooks := by
    rw [(Core.kept_endBundle ..).1]
    obtain ⟨_, _, _, _, _, e'⟩ := Core.agrees_iff.mp hm.core
    rw [e']; exact he
  have hz : ∀ (c d : Core) (n : Nat) (b : Bool), d.hooks = (s.core s.cur).hooks →
      c.haltIf n (d.hooks.stepBundle || (b && d.hooks.haltRequest)) = c := by
    intro c d n b hd
    rw [hd, hq.stepBundle, hq.haltRequest]; cases b <;> rfl
  refine ⟨?_, fun k hk => ?_, fun hs => ?_, hcl, ?_⟩
  · simp only [State.close, State.modCore, State.setCore]; rw [hm.rest, hu.rest]
  · simp only [State.close]
    rw [State.core_modCore_ne _ _ hk, State.core_modCore_ne _ _ hk, hm.others k hk]; exact hu.others k hk
  · simp only [State.close, State.modCore, State.setCore]; rw [hm.rest]; exact hu.memory hs
  · simp only [State.close]
    rw [State.core_modCore, State.core_modCore, hz _ _ _ _ hhook]
    show ((a.st.core s.cur).endBundle _).cycle = _
    rw [(Core.kept_endBundle ..).2.2.1, hm.cycle, hu.cycle]

/-- An operation that performs in a bundle of its own and makes its core agree with another. -/
theorem runSolo_makes {m : OpSem} {i : Instr} {s : State} {w : W64} (h : m.Performs s) (hw : i.slotWord = some (m.slot, w))
    (hc : i.check1 = none) {e : Core} {sd : W64} {nx : Option (BitVec 57)} (he : e.hooks = (s.core s.cur).hooks)
    (hp : ∀ u : State, s.Charged u → (m.perform s.cur (s.view m)
        { st := m.begun s.cur (s.view m) u, seed := (s.core s.cur).cr.seed }).Makes u s.cur e sd nx) :
    ∃ t, runSolo m i s = .next t ∧ s.Follows t { e.endBundle sd with repLeft := none, pc := nx.getD ((s.core s.cur).pc + 12) } := by
  obtain ⟨u, hu, eq⟩ := runSolo_performs h hw hc
  have hm := hp u hu
  generalize (m.perform s.cur (s.view m) { st := m.begun s.cur (s.view m) u, seed := (s.core s.cur).cr.seed }) = a at hm eq
  exact ⟨s.close a, eq.trans (by simp only [State.finish, hm.tail, hm.eret, Bool.false_eq_true, if_false]),
    State.close_follows h.quiet hu hm he⟩

/-- An operation that performs in a bundle of its own, changes its core and acts on the rest of the machine beside it: what it does
there may stand after the end of the bundle-time. -/
theorem runSolo_beside {m : OpSem} {i : Instr} {s : State} {w : W64} (h : m.Performs s) (hw : i.slotWord = some (m.slot, w))
    (hc : i.check1 = none) {F : State → State} {g : Core → Core} {sd : W64} (hg : Core.Plain g)
    (hh : ∀ c, (g c).hooks = c.hooks) (hy : ∀ c, (g c).cycle = c.cycle)
    (hF : ∀ u f, F (u.modCore s.cur f) = (F u).modCore s.cur f)
    (ht : ∀ u, (F u).time = u.time)
    (hp : ∀ u : State, s.Charged u → (m.perform s.cur (s.view m)
        { st := m.begun s.cur (s.view m) u, seed := (s.core s.cur).cr.seed }) = { st := (F u).modCore s.cur g, seed := sd }) :
    ∃ t, s.Follows t { (g (s.core s.cur)).endBundle sd with repLeft := none, pc := (s.core s.cur).pc + 12 } ∧
      runSolo m i s = .next (F t) := by
  obtain ⟨u, hu, eq⟩ := runSolo_performs h hw hc
  rw [hp u hu] at eq
  obtain ⟨_, _, _, _, _, ea⟩ := Core.agrees_iff.mp hu.core
  have hm : Acc.Makes { st := u.modCore s.cur g, seed := sd } u s.cur (g (s.core s.cur)) sd none :=
    ⟨by rw [State.core_modCore]; exact hg.agrees hu.core, by rw [State.core_modCore]; exact hy _,
      fun k hk => State.core_modCore_ne _ _ hk, rfl, rfl, rfl, rfl, rfl⟩
  refine ⟨_, State.close_follows h.quiet hu hm (hh _), eq.trans ?_⟩
  have e1 : s.finish { st := (F u).modCore s.cur g, seed := sd } = s.close { st := (F u).modCore s.cur g, seed := sd } := rfl
  rw [e1]
  congr 1
  simp only [State.close]
  rw [hF, hF, hF]
  simp only [State.modCore, State.setCore, ht]

end Sys2Proof.Machine
end

