-- ==== Sys2Proof/Laws/Scalar.lean ====
section
/-! SUPPORT. What the scalar operations do in a bundle of their own: one law for each shared form of 04 R124 to R141. -/

namespace Sys2Proof.Machine

/-! ### Reads on a quiet core -/

theorem View.s_quiet {v : View} (h : v.core.Quiet) (site : Nat) (n : BitVec 6) : v.s site n = v.core.sReg n := by
  simp [View.s, Core.pendingS, h.pend, h.landings]
theorem View.p_quiet {v : View} (h : v.core.Quiet) (site : Nat) (n : BitVec 6) : v.p site n = v.core.pReg n := by
  simp [View.p, Core.pendingP, h.pend]
theorem View.h_quiet {v : View} (h : v.core.Quiet) (site : Nat) (n : BitVec 6) : v.h site n = v.core.hReg n := by
  simp [View.h, Core.pendingH, h.pend]
theorem View.k_quiet {v : View} (h : v.core.Quiet) (site : Nat) (n : BitVec 6) : v.k site n = v.core.kReg n := by
  simp [View.k, Core.pendingK, h.pend, h.landings]

/-! ### Forms -/

/-- An operation with no test of its own that writes one register (04 R124 to R127). -/
theorem runSolo_aluOp {op : BitVec 8} {cls : Nat} {g : Guard} {lat : BitVec 4} {reads : List UePlace} {f : View → Write} {i : Instr}
    {s : State} {w : W64} (h : s.Issues .s g (some (0, cls, lat.toNat))) (hw : i.slotWord = some (.s, w)) (hc : i.check1 = none) :
    ∃ t, runSolo (aluOp op cls g lat reads f) i s = .next t ∧
      s.Follows t ((s.core s.cur).later lat.toNat (f (s.view (aluOp op cls g lat reads f)))) := by
  have hp : (aluOp op cls g lat reads f).Performs s :=
    State.Issues.performs (m := aluOp op cls g lat reads f) h (.inr rfl) rfl
      ⟨rfl, rfl, rfl, rfl, by simp [aluOp], rfl, by simp [aluOp], by simp [aluOp], rfl, rfl⟩
  exact runSolo_write hp hw hc rfl fun _ => rfl

theorem Flags.or_none (x : Flags) : x ||| 0 = x := BitVec.or_zero
theorem Flags.none_or (x : Flags) : 0 ||| x = x := BitVec.zero_or

/-- The end of a bundle-time on a core with one pending write and some flag updates, and nothing else outstanding. -/
theorem Core.endBundle_of {c : Core} (hd : c.drives = []) (hl : c.landings = []) (hm : c.mq = []) {bound : Nat} {x : Write}
    (hp : c.pend = [⟨bound, x⟩]) (seed : W64) :
    (c.endBundle seed).Agrees { (if bound ≤ 1 then ({ c with pend := [] } : Core).land x else { c with pend := [⟨bound - 1, x⟩] }) with
      bt := c.bt + 1
      flagOrs := (c.flagOrs.filter fun q => q.left != 0).map fun q => { q with left := q.left - 1 }
      cr := { c.cr with seed := seed
                        flags := c.cr.flags ||| Flags.all ((c.flagOrs.filter fun q => q.left == 0).map fun q => q.flags) } } := by
  cases c with
  | mk bt pc cycle supervisor stopped rs rp rh rk rl kn cr timing region strands spad fe poison sticky pend drives flagOrs landings =>
  simp only at hd hl hm hp
  subst hd hl hm hp
  simp only [Core.endBundle, Core.makeDue, Core.countDown, Core.landDue, List.filter_nil, List.foldl_nil, List.map_nil, List.map_cons,
    List.filter_cons]
  by_cases hb : bound ≤ 1
  · have hz : bound - 1 = 0 := by omega
    simp only [hz, hb, if_true, bne_self_eq_false, Bool.false_eq_true, if_false, beq_self_eq_true, List.map_cons, List.map_nil, Core.landAll]
    cases x with
    | s n v => simp only [Core.land, Core.setS]; split <;> rfl
    | p n v => simp only [Core.land, Core.setP]; split <;> rfl
    | spad a b f =>
      simp only [Core.land, Core.spadWrite]
      split
      · rw [Core.setFes_eq, Core.setFes_eq]; rfl
      · rfl
    | _ => rfl
  · have hz : bound - 1 ≠ 0 := by omega
    simp only [hb, if_false, bne_iff_ne, ne_eq, hz, not_false_eq_true, if_true, beq_iff_eq, List.map_nil, Core.landAll]
    rfl

theorem Core.agrees_laterFp {c : Core} (h : c.Still) (bound : Nat) (x : Write) (fl : Flags) (seed : W64) :
    ({ ((c.pendWrite bound x).flagOr bound fl).endBundle seed with repLeft := none, pc := c.pc + 12 } : Core).Agrees
      (((c.flagsAt bound fl).withSeed seed).later bound x) := by
  have hp := h.pend; have hl := h.landings; have hd := h.drives; have hf := h.flagOrs; have hm := h.mq; have hr := h.repLeft
  clear h
  cases c with
  | mk bt pc cycle supervisor stopped rs rp rh rk rl kn cr timing region strands spad fe poison sticky pend drives flagOrs landings
      nextLanding mx mq copies nextCopy streamFault l1 refusals stream tracker ranges fmtBits latch repLeft =>
  simp only at hd hl hm hp hf hr
  subst hd hl hm hp hf hr
  simp only [Core.pendWrite, Core.flagOr, Core.flagsAt, Core.withSeed, Core.later, Core.after, List.nil_append, Core.endBundle,
    Core.makeDue, Core.landDue]
  by_cases hfl : fl = 0
  · subst hfl
    by_cases hb : bound ≤ 1
    · have hz : bound - 1 = 0 := by omega
      simp only [if_true, hb, Core.countDown, List.filter_nil, List.foldl_nil, List.map_nil, List.map_cons, hz, List.filter_cons,
        bne_self_eq_false, Bool.false_eq_true, if_false, beq_self_eq_true, Core.landAll, Flags.all, Flags.or_none]
      cases x with
      | s n v => simp only [Core.land, Core.setS]; split <;> rfl
      | p n v => simp only [Core.land, Core.setP]; split <;> rfl
      | spad a b f =>
        simp only [Core.land, Core.spadWrite]
        split
        · rw [Core.setFes_eq, Core.setFes_eq]; rfl
        · rfl
      | _ => rfl
    · have hz : bound - 1 ≠ 0 := by omega
      simp only [if_true, hb, Core.countDown, List.filter_nil, List.foldl_nil, List.map_nil, List.map_cons, List.filter_cons,
        bne_iff_ne, ne_eq, hz, not_false_eq_true, if_false, beq_iff_eq, Core.landAll, Flags.all, Flags.or_none]
      rfl
  · by_cases h0 : bound = 0
    · subst h0
      simp only [hfl, if_true, if_false, Core.countDown, List.filter_nil, List.foldl_nil, List.map_nil, List.map_cons, List.filter_cons,
        bne_self_eq_false, Bool.false_eq_true, beq_self_eq_true, Core.landAll, Flags.all, List.foldl_cons, Nat.zero_le,
        Nat.zero_sub, Flags.none_or]
      cases x with
      | s n v => simp only [Core.land, Core.setS]; split <;> rfl
      | p n v => simp only [Core.land, Core.setP]; split <;> rfl
      | spad a b f =>
        simp only [Core.land, Core.spadWrite]
        split
        · rw [Core.setFes_eq, Core.setFes_eq]; rfl
        · rfl
      | _ => rfl
    · by_cases hb : bound ≤ 1
      · have hz : bound = 1 := by omega
        subst hz
        simp only [hfl, if_true, if_false, Core.countDown, List.filter_nil, List.foldl_nil, List.map_nil, List.map_cons, List.filter_cons,
          Core.landAll, Flags.all, Nat.le_refl, Nat.sub_self, bne_self_eq_false, beq_self_eq_true, Bool.false_eq_true, Nat.one_ne_zero,
          bne_iff_ne, ne_eq, not_false_eq_true, beq_iff_eq, Flags.or_none]
        cases x with
        | s n v => simp only [Core.land, Core.setS]; split <;> rfl
        | p n v => simp only [Core.land, Core.setP]; split <;> rfl
        | spad a b f =>
          simp only [Core.land, Core.spadWrite]
          split
          · rw [Core.setFes_eq, Core.setFes_eq]; rfl
          · rfl
        | _ => rfl
      · have hz : bound - 1 ≠ 0 := by omega
        simp only [hfl, hb, h0, if_true, if_false, Core.countDown, List.filter_nil, List.foldl_nil, List.map_nil, List.map_cons,
          List.filter_cons, Core.landAll, Flags.all, bne_iff_ne, ne_eq, hz, not_false_eq_true, beq_iff_eq, Flags.or_none]
        rfl

/-- A scalar FP operation: one register write and its flags under the bound, and the generator after its draw (04 R128). -/
theorem runSolo_fpOp {op : BitVec 8} {cls : Nat} {g : Guard} {q : SR} {draw : Bool} {f : View → RMode → Nat → Write × Flags} {i : Instr}
    {s : State} {w : W64} (h : s.Issues .s g (some (0, cls, q.lat.toNat))) (hw : i.slotWord = some (.s, w)) (hc : i.check1 = none) :
    ∃ t, runSolo (fpOp op cls g q draw f) i s = .next t ∧
      let v := s.view (fpOp op cls g q draw f)
      let mode := v.mode (q.fn.extractLsb' 0 3)
      let d := drawsFor mode (if draw then 1 else 0) (s.core s.cur).cr.seed
      let r := f v mode (d.1.headD 0)
      s.Follows t ((((s.core s.cur).flagsAt q.lat.toNat r.2).withSeed d.2).later q.lat.toNat r.1) := by
  have hp : (fpOp op cls g q draw f).Performs s :=
    State.Issues.performs (m := fpOp op cls g q draw f) h (.inr rfl) rfl
      ⟨rfl, rfl, rfl, rfl, by simp [fpOp], rfl, by simp [fpOp], by simp [fpOp], rfl, rfl⟩
  let v := s.view (fpOp op cls g q draw f)
  let mode := v.mode (q.fn.extractLsb' 0 3)
  let d := drawsFor mode (if draw then 1 else 0) (s.core s.cur).cr.seed
  let r := f v mode (d.1.headD 0)
  obtain ⟨t, e, hf⟩ := runSolo_core hp hw hc (g := fun c => (c.pendWrite q.lat.toNat r.1).flagOr q.lat.toNat r.2) (sd := d.2) (nx := none)
    (Core.Plain.comp (Core.plain_flagOr q.lat.toNat r.2) (Core.plain_pendWrite q.lat.toNat r.1))
    (fun c => by simp only [Core.flagOr]; split <;> rfl) (fun c => by simp only [Core.flagOr]; split <;> rfl) (fun u _ => rfl)
  exact ⟨t, e, hf.of_core (Core.agrees_laterFp hp.quiet.still ..)⟩

/-! ### Branches (04 R131, R132) -/

theorem targetTest_ok (op : BitVec 8) {t : W64} (h4 : t.toNat % 4 = 0) (h57 : t.toNat < 2 ^ 57) : targetTest op t = none := by
  have : ¬ 2 ^ 57 ≤ t.toNat := Nat.not_le.mpr h57
  simp only [targetTest, h4, ne_eq, not_true_eq_false, if_false, this]

/-- A branch that writes no link. -/
theorem runSolo_branch {op : BitVec 8} {g : Guard} {q : SB} {reads : List UePlace} {target : View → W64} {i : Instr} {s : State} {w t : W64}
    (h : s.Issues .s g none) (hw : i.slotWord = some (.s, w)) (hc : i.check1 = none)
    (ht : target (s.view (branchOp op g q false reads target)) = t) (h4 : t.toNat % 4 = 0) (h57 : t.toNat < 2 ^ 57) :
    ∃ u, runSolo (branchOp op g q false reads target) i s = .next u ∧
      s.Follows u { (s.core s.cur).after with pc := t.extractLsb' 0 57 } := by
  have hp : (branchOp op g q false reads target).Performs s :=
    State.Issues.performs (m := branchOp op g q false reads target) h (.inr rfl) rfl
      ⟨rfl, by simp only [branchOp]; exact (congrArg (targetTest op) ht).trans (targetTest_ok op h4 h57), rfl, rfl, by simp [branchOp], rfl,
       by simp [branchOp], by simp [branchOp], rfl, rfl⟩
  obtain ⟨u, e, hf⟩ := runSolo_next hp hw hc rfl (nx := some (t.extractLsb' 0 57)) fun a _ => by
    rw [← ht]; rfl
  exact ⟨u, e, hf⟩

/-- A branch that writes a link. -/
theorem runSolo_link {op : BitVec 8} {g : Guard} {q : SB} {reads : List UePlace} {target : View → W64} {i : Instr} {s : State} {w t : W64}
    (h : s.Issues .s g (some (0, 0, q.lat.toNat))) (hw : i.slotWord = some (.s, w)) (hc : i.check1 = none)
    (ht : target (s.view (branchOp op g q true reads target)) = t) (h4 : t.toNat % 4 = 0) (h57 : t.toNat < 2 ^ 57) :
    ∃ u, runSolo (branchOp op g q true reads target) i s = .next u ∧
      s.Follows u { (s.core s.cur).later q.lat.toNat (.s q.d ((s.core s.cur).pc.zeroExtend 64 + 12)) with pc := t.extractLsb' 0 57 } := by
  have hp : (branchOp op g q true reads target).Performs s :=
    State.Issues.performs (m := branchOp op g q true reads target) h (.inr rfl) rfl
      ⟨rfl, by simp only [branchOp]; exact (congrArg (targetTest op) ht).trans (targetTest_ok op h4 h57), rfl, rfl, by simp [branchOp], rfl,
       by simp [branchOp], by simp [branchOp], rfl, rfl⟩
  obtain ⟨u, e, hf⟩ := runSolo_writeNext hp hw hc rfl (bound := q.lat.toNat)
    (x := .s q.d ((s.core s.cur).pc.zeroExtend 64 + 12)) (nx := some (t.extractLsb' 0 57)) fun a _ => by
    rw [← ht]; rfl
  exact ⟨u, e, hf⟩

/-! ### Handles (04 R140) -/

/-- A handle operation whose value is not refused. -/
theorem runSolo_handleOp {op : BitVec 8} {g : Guard} {q : SR} {reads : List UePlace} {f : View → Option Write} {i : Instr} {s : State}
    {w : W64} {x : Write} (h : s.Issues .s g (some (0, 5, q.lat.toNat))) (hw : i.slotWord = some (.s, w)) (hc : i.check1 = none)
    (hf : f (s.view (handleOp op g q reads f)) = some x) :
    ∃ t, runSolo (handleOp op g q reads f) i s = .next t ∧ s.Follows t ((s.core s.cur).later q.lat.toNat x) := by
  have hp : (handleOp op g q reads f).Performs s :=
    State.Issues.performs (m := handleOp op g q reads f) h (.inr rfl) rfl
      ⟨rfl, rfl, by simp only [handleOp] at hf ⊢; rw [hf]; rfl, rfl, by simp [handleOp], rfl,
       by simp [handleOp], by simp [handleOp], rfl, rfl⟩
  exact runSolo_write hp hw hc rfl fun a => by simp only [handleOp] at hf ⊢; rw [hf]

/-! ### Fields of a handle word (01 R16, 04 R141) -/

theorem setField_bit (h : W256) (code : Nat) (v : Int) (i : Nat) :
    (setField h code v).getLsbD i =
      if (handleField code).1 ≤ i ∧ i < (handleField code).1 + (handleField code).2.1 ∧ i < 256 then
        ((v % 2 ^ (handleField code).2.1).toNat).testBit (i - (handleField code).1)
      else h.getLsbD i := by
  have hx : (v % 2 ^ (handleField code).2.1).toNat < 2 ^ (handleField code).2.1 := by
    have h1 := Int.emod_lt_of_pos v (b := 2 ^ (handleField code).2.1) (Int.pow_pos (by decide))
    have h2 := Int.emod_nonneg v (b := 2 ^ (handleField code).2.1) (Int.ne_of_gt (Int.pow_pos (by decide)))
    rw [Int.toNat_lt h2]; push_cast; exact h1
  simp only [setField]
  generalize (v % 2 ^ (handleField code).2.1).toNat = x at *
  generalize (handleField code).1 = p at *
  generalize (handleField code).2.1 = w at *
  by_cases hi : i < 256
  · simp only [BitVec.getLsbD_or, BitVec.getLsbD_and, BitVec.getLsbD_not, BitVec.getLsbD_ofNat, Nat.testBit_shiftLeft,
      Nat.testBit_two_pow_sub_one, hi, decide_true, Bool.true_and]
    by_cases h1 : p ≤ i
    · by_cases h2 : i < p + w
      · have : i - p < w := by omega
        simp [h1, h2, this]
      · have h3 : ¬ i - p < w := by omega
        have h4 : x.testBit (i - p) = false := Nat.testBit_lt_two_pow (Nat.lt_of_lt_of_le hx (Nat.pow_le_pow_right (by decide) (by omega)))
        simp [h1, h2, h3, h4]
    · simp [h1]
  · rw [BitVec.getLsbD_of_ge _ _ (by omega), BitVec.getLsbD_of_ge h _ (by omega)]; simp [hi]

theorem handleField_fits (code : Nat) : (handleField code).1 + (handleField code).2.1 ≤ 256 ∧ 0 < (handleField code).2.1 := by
  unfold handleField
  split <;> decide

/-- A field written and read again, where the value fits. -/
theorem getField_setField (h : W256) (code : Nat) (v : Int) (hf : fitsField code v = true) : getField (setField h code v) code = v := by
  have ⟨h1, h2⟩ := handleField_fits code
  have hx : ((setField h code v).toNat >>> (handleField code).1) % 2 ^ (handleField code).2.1 = (v % 2 ^ (handleField code).2.1).toNat := by
    have hlt : (v % 2 ^ (handleField code).2.1).toNat < 2 ^ (handleField code).2.1 := by
      have h1 := Int.emod_lt_of_pos v (b := 2 ^ (handleField code).2.1) (Int.pow_pos (by decide))
      have h2 := Int.emod_nonneg v (b := 2 ^ (handleField code).2.1) (Int.ne_of_gt (Int.pow_pos (by decide)))
      rw [Int.toNat_lt h2]; push_cast; exact h1
    apply Nat.eq_of_testBit_eq
    intro i
    rw [Nat.testBit_mod_two_pow, Nat.testBit_shiftRight]
    by_cases hi : i < (handleField code).2.1
    · have := setField_bit h code v ((handleField code).1 + i)
      rw [BitVec.getLsbD] at this
      rw [this, if_pos ⟨by omega, by omega, by omega⟩]
      simp [hi]
    · rw [Nat.testBit_lt_two_pow (Nat.lt_of_lt_of_le hlt (Nat.pow_le_pow_right (by decide) (by omega)))]
      simp [hi]
  simp only [getField, hx]
  simp only [fitsField] at hf
  generalize (handleField code).2.1 = w at *
  obtain ⟨k, rfl⟩ : ∃ k, w = k + 1 := ⟨w - 1, by omega⟩
  have hp : (2 : Int) ^ (k + 1) = 2 * 2 ^ k := by rw [Int.pow_succ]; omega
  have hn : (2 : Nat) ^ (k + 1) = 2 * 2 ^ k := by rw [Nat.pow_succ]; omega
  have hpos : (0 : Int) < 2 ^ k := Int.pow_pos (by decide)
  have hc : ((2 ^ k : Nat) : Int) = 2 ^ k := by push_cast; rfl
  by_cases hs : (handleField code).2.2 = true
  · simp only [hs, if_true, Bool.and_eq_true, decide_eq_true_eq, Nat.add_sub_cancel, true_and] at hf ⊢
    by_cases hneg : v < 0
    · have e : v % 2 ^ (k + 1) = v + 2 ^ (k + 1) := by
        rw [← Int.add_mul_emod_self_left v (2 ^ (k + 1)) 1, Int.mul_one]
        exact Int.emod_eq_of_lt (by omega) (by omega)
      rw [e, if_pos (by omega)]; omega
    · have e : v % 2 ^ (k + 1) = v := Int.emod_eq_of_lt (by omega) (by omega)
      rw [e, if_neg (by omega)]; omega
  · simp only [hs, Bool.false_eq_true, if_false, false_and, Bool.and_eq_true, decide_eq_true_eq] at hf ⊢
    rw [Int.emod_eq_of_lt (by omega) (by omega)]; omega

/-! ### Scratchpad accesses (04 R142, R143) -/

/-- An aligned access of up to eight bytes lies in one granule. -/
theorem granules_aligned (a k : Nat) (hk : k < 4) (h : a % 2 ^ k = 0) : granules a (2 ^ k) = (a / 16, 1) := by
  have : k = 0 ∨ k = 1 ∨ k = 2 ∨ k = 3 := by omega
  simp only [granules, Prod.mk.injEq, true_and]
  rcases this with rfl | rfl | rfl | rfl <;> simp at h ⊢ <;> omega

theorem Core.completeGranules_still {c : Core} (h : c.pend = []) (g n : Nat) : c.completeGranules g n = c := by
  cases c
  simp only at h
  subst h
  rfl

theorem Core.feRead_still {c : Core} (h : c.pend = []) (qf : BitVec 2) (a k : Nat) (hk : k < 4) (ha : a % 2 ^ k = 0) :
    c.feRead qf a (2 ^ k) = if qf = 2 then c.setFe (a / 16) false else c := by
  simp only [Core.feRead, granules_aligned a k hk ha, Core.completeGranules_still h]
  rfl

theorem Core.feEmpty_still {c : Core} (h : c.pend = []) (a k : Nat) (hk : k < 4) (ha : a % 2 ^ k = 0) :
    c.feEmpty a (2 ^ k) = !c.feBit (a / 16) := by
  simp only [Core.feEmpty, granules_aligned a k hk ha, Core.completeGranules_still h]
  simp only [List.range_succ, List.range_zero, List.nil_append, List.any_cons, List.any_nil, Bool.or_false, Nat.add_zero]

theorem spadTest_ok (op : BitVec 8) (c : Core) {a : W64} {n : Nat} (h1 : a.toNat % n = 0) (h2 : a.toNat + n ≤ c.spadSize) :
    spadTest op c a n = none := by
  simp [spadTest, h1, Nat.not_lt.mpr h2]

theorem View.spadBytes_quiet {v : View} (h : v.core.pend = []) (a n : Nat) : v.spadBytes a n = SMap.getList 0 v.core.spad a n := by
  simp [View.spadBytes, Core.spadPending, h]

/-- A scratchpad load. -/
theorem runSolo_lds {g : Guard} {q : SM} {i : Instr} {s : State} {w a : W64} (h : s.Issues .s g (some (0, 4, q.lat.toNat)))
    (hw : i.slotWord = some (.s, w)) (hc : i.check1 = none) (ha : a = (s.core s.cur).sReg q.a + q.off.signExtend 64)
    (h1 : a.toNat % sizeBytes q.size = 0) (h2 : a.toNat + sizeBytes q.size ≤ (s.core s.cur).spadSize)
    (hf : q.qf = 0 ∨ (s.core s.cur).feBit (a.toNat / 16) = true) :
    ∃ t, runSolo (semLds g q) i s = .next t ∧
      s.Follows t ((if q.qf = 2 then (s.core s.cur).setFe (a.toNat / 16) false else s.core s.cur).later q.lat.toNat
        (.s q.d (extendLoad q.size (q.sgn == 1) (BitVec.ofNat 64 (leNat (SMap.getList 0 (s.core s.cur).spad a.toNat (sizeBytes q.size))))))) := by
  have hq := h.quiet
  have hva : (s.view (semLds g q)).addrs.a = a := by
    rw [ha]; show View.s _ 1 q.a + _ = _; rw [View.s_quiet (by exact hq)]
  have hwt : (if q.qf ≠ 0 ∧ Core.feEmpty (s.core s.cur) a.toNat (sizeBytes q.size) then some acctFullEmpty else none) = none := by
    refine if_neg fun ⟨hne, he⟩ => ?_
    rw [show sizeBytes q.size = 2 ^ q.size.toNat from rfl, Core.feEmpty_still hq.pend _ _ q.size.isLt h1] at he
    rcases hf with hf | hf
    · exact hne hf
    · rw [hf] at he; exact absurd he (by decide)
  have hp : (semLds g q).Performs s :=
    State.Issues.performs (m := semLds g q) h (.inr rfl) rfl
      ⟨rfl, rfl, by simp only [semLds] at hva ⊢; rw [hva]; exact spadTest_ok _ _ h1 h2, rfl, by simp [semLds], rfl, by simp [semLds],
       by simp [semLds], by simp only [semLds] at hva ⊢; rw [hva]; exact hwt, rfl⟩
  have hbs : (if q.qf = 0 then (s.view (semLds g q)).spadBytes a.toNat (sizeBytes q.size)
      else (s.view (semLds g q)).feBytes a.toNat (sizeBytes q.size)) = SMap.getList 0 (s.core s.cur).spad a.toNat (sizeBytes q.size) := by
    split
    · exact View.spadBytes_quiet (by exact hq.pend) ..
    · simp only [View.feBytes]
      rw [Core.completeGranules_still (by exact hq.pend)]
      exact View.spadBytes_quiet (by exact hq.pend) ..
  generalize hx : extendLoad q.size (q.sgn == 1) (BitVec.ofNat 64 (leNat (SMap.getList 0 (s.core s.cur).spad a.toNat (sizeBytes q.size)))) = x
  have hpl : Core.Plain fun c => (if q.qf = 2 then c.setFe (a.toNat / 16) false else c).pendWrite q.lat.toNat (.s q.d x) := by
    intro c ac y x p k; split <;> rfl
  have hfe : ∀ c : Core, c.pend = [] → (if q.qf = 0 then c else c.feRead q.qf a.toNat (sizeBytes q.size)) =
      if q.qf = 2 then c.setFe (a.toNat / 16) false else c := by
    intro c hc
    by_cases h0 : q.qf = 0
    · rw [if_pos h0, if_neg (by rw [h0]; decide)]
    · rw [if_neg h0]; exact Core.feRead_still hc q.qf _ _ q.size.isLt h1
  obtain ⟨t, e, hfo⟩ := runSolo_coreF hp hw hc
    (F := fun u => u.modCore s.cur fun c => (if q.qf = 0 then c else c.feRead q.qf a.toNat (sizeBytes q.size)).pendWrite q.lat.toNat (.s q.d x))
    (g := fun c => (if q.qf = 2 then c.setFe (a.toNat / 16) false else c).pendWrite q.lat.toNat (.s q.d x))
    (sd := (s.core s.cur).cr.seed) (nx := none) hpl (fun c => by split <;> rfl) (fun c => by split <;> rfl)
    (fun u hu => ⟨by
      rw [State.core_modCore, hfe]
      obtain ⟨_, _, _, _, _, e⟩ := Core.agrees_iff.mp hu.core
      rw [e]; exact hq.pend, fun _ hk => State.core_modCore_ne _ _ hk, rfl⟩) (fun u _ => by
      simp only [semLds] at hva hbs ⊢
      rw [hva, hbs, hx]
      rfl)
  have hs : (if q.qf = 2 then (s.core s.cur).setFe (a.toNat / 16) false else s.core s.cur).Still := by
    have := hq.still
    split
    · exact ⟨this.1, this.2, this.3, this.4, this.5, this.6, this.7⟩
    · exact this
  have hl := Core.agrees_later hs q.lat.toNat (.s q.d x) ((s.core s.cur).pc + 12)
  refine ⟨t, e, hfo.of_core ?_⟩
  simp only [Option.getD_none]
  refine Core.Agrees.trans (d := { (if q.qf = 2 then (s.core s.cur).setFe (a.toNat / 16) false else s.core s.cur).later q.lat.toNat (.s q.d x)
    with pc := (s.core s.cur).pc + 12 }) ?_ ?_
  · have hsd : (if q.qf = 2 then (s.core s.cur).setFe (a.toNat / 16) false else s.core s.cur).cr.seed = (s.core s.cur).cr.seed := by
      split <;> rfl
    rw [hsd] at hl
    exact hl
  · have : (s.core s.cur).pc + 12 =
        ((if q.qf = 2 then (s.core s.cur).setFe (a.toNat / 16) false else s.core s.cur).later q.lat.toNat (.s q.d x)).pc := by
      rw [Core.later_pc]; split <;> rfl
    rw [this]
    exact Core.Agrees.refl _

end Sys2Proof.Machine
end

