-- ==== Sys2Proof/Laws/Boundary.lean ====
section
/-! SUPPORT. Reset values, register landings, bulk folds over cores and poison delivery. -/

namespace Sys2Proof.Machine

theorem core_reset (k : Nat) : State.reset.core k = coreDefault k := rfl

theorem tile_timing : ∀ i < 128, BitVec.ofNat 8 (shipTiming false i) = BitVec.ofNat 8 ((([(0, 1), (1, 3), (2, 4), (3, 12), (4, 3), (5, 2), (6, 2),
    (32, 2), (33, 2), (34, 3), (35, 4), (36, 5), (37, 6), (38, 12), (39, 3), (64, 2), (65, 2), (66, 3), (67, 4), (68, 5), (69, 6), (70, 12), (71, 3),
    (96, 16), (97, 8), (98, 2), (99, 4), (100, 1)] : List (Nat × Nat)).lookup i).getD 0) := by decide

theorem supervisor_timing : ∀ i < 128, BitVec.ofNat 8 (shipTiming true i) = if i < 32 then BitVec.ofNat 8 ((([(0, 1), (1, 3), (2, 4), (3, 12), (4, 3), (5, 2), (6, 2),
    (32, 2), (33, 2), (34, 3), (35, 4), (36, 5), (37, 6), (38, 12), (39, 3), (64, 2), (65, 2), (66, 3), (67, 4), (68, 5), (69, 6), (70, 12), (71, 3),
    (96, 16), (97, 8), (98, 2), (99, 4), (100, 1)] : List (Nat × Nat)).lookup i).getD 0) else 0 := by decide

theorem land_s0 {c : Core} (h : c.poison = []) (v : W64) : c.land (.s 0 v) = c := by
  cases c; simp only at h; subst h; rfl

theorem land_p0 {c : Core} (h : c.poison = []) (b : Bool) : c.land (.p 0 b) = c := by
  cases c; simp only at h; subst h; rfl

theorem dieOf_foldl (line : Nat) (die : Nat) : ∀ (l : List (Nat × Core)) (u : State),
    (∀ k, dieOf k ≠ die → ((l.filter fun q => dieOf q.1 == die).foldl (fun s q => s.modCore q.1 fun c =>
        { c with l1 := c.l1.filter fun x => x.1 / 128 ≠ line }) u).core k = u.core k) ∧
    ((l.filter fun q => dieOf q.1 == die).foldl (fun s q => s.modCore q.1 fun c =>
        { c with l1 := c.l1.filter fun x => x.1 / 128 ≠ line }) u) = { u with cores := ((l.filter fun q => dieOf q.1 == die).foldl (fun s q => s.modCore q.1 fun c =>
        { c with l1 := c.l1.filter fun x => x.1 / 128 ≠ line }) u).cores }
  | [], u => ⟨fun _ _ => rfl, rfl⟩
  | q :: l, u => by
    by_cases hq : (dieOf q.1 == die) = true
    · simp only [List.filter_cons, hq, if_true, List.foldl_cons]
      obtain ⟨h1, h2⟩ := dieOf_foldl line die l (u.modCore q.1 fun c => { c with l1 := c.l1.filter fun x => x.1 / 128 ≠ line })
      refine ⟨fun k hk => ?_, ?_⟩
      · rw [h1 k hk, State.core_modCore_ne]
        intro e; rw [e] at hk; exact hk (beq_iff_eq.mp hq)
      · rw [h2]; rfl
    · simp only [List.filter_cons, hq, Bool.false_eq_true, if_false]
      exact dieOf_foldl line die l u

theorem counts_spillWhere (s : State) (key r : Nat) (q : HashEntry → Bool) : s.Counts (s.spillWhere key r q) key := by
  unfold State.spillWhere
  refine (State.counts_foldl key _ (fun s x => ?_) _ s).trans (State.counts_modCore _ key _ fun _ => rfl)
  split
  · split
    · exact (State.spills_spillHash ..).counts key
    · exact State.Counts.refl ..
  · exact State.Counts.refl ..

theorem poison_fold (mask : BitVec 8) (line : Nat) : ∀ (l : List Nat) (s : State), ∃ p,
    l.foldl (fun s i => if mask.getLsbD i then s.setPoison (.mem (line + 16 * i)) true else s) s = { s with memPoison := p } ∧
    (∀ i ∈ l, mask.getLsbD i = true → SMap.get false p ((line + 16 * i) / 16) = true) ∧
    ∀ k, SMap.get false s.memPoison k = true → SMap.get false p k = true
  | [], s => ⟨s.memPoison, rfl, fun _ h => (List.not_mem_nil h).elim, fun _ h => h⟩
  | i :: l, s => by
    by_cases hb : mask.getLsbD i = true
    · obtain ⟨p, h1, h2, h3⟩ := poison_fold mask line l (s.setPoison (.mem (line + 16 * i)) true)
      refine ⟨p, ?_, fun j hj hm => ?_, fun k hk => h3 k ?_⟩
      · simp only [List.foldl_cons, hb, if_true]; rw [h1]; rfl
      · rcases List.mem_cons.mp hj with rfl | hj
        · exact h3 _ (by simp [State.setPoison])
        · exact h2 j hj hm
      · by_cases hk2 : k = (line + 16 * i) / 16
        · simp [State.setPoison, hk2]
        · simp only [State.setPoison]; rw [SMap.get_set_ne _ _ _ _ hk2]; exact hk
    · obtain ⟨p, h1, h2, h3⟩ := poison_fold mask line l s
      refine ⟨p, ?_, fun j hj hm => ?_, h3⟩
      · simp only [List.foldl_cons, hb, Bool.false_eq_true, if_false]; exact h1
      · rcases List.mem_cons.mp hj with rfl | hj
        · exact absurd hm hb
        · exact h2 j hj hm

end Sys2Proof.Machine
end

