-- ==== Sys2Proof/Laws/Encoding.lean ====
section
/-! SUPPORT. The encoder and the decoder of slot words agree, field by field (02 R63 to R68). -/

namespace Sys2Proof

theorem join_bits {n : Nat} (x : BitVec n) (i j a b : Nat) (h : i = j + b) :
    x.extractLsb' i a ++ x.extractLsb' j b = x.extractLsb' j (a + b) := BitVec.extractLsb'_append_extractLsb'_eq_extractLsb' h

theorem opcodeOf_slotBits (o : BitVec 8) (g : Guard) (b : BitVec 51) : opcodeOf (slotBits o g b) = o := by
  show @BitVec.extractLsb' (8+1+4+51) 56 8 (o ++ g.pn ++ g.pred ++ b) = o
  rw [BitVec.extractLsb'_append_eq_of_le (by decide), BitVec.extractLsb'_append_eq_of_le (by decide),
    BitVec.extractLsb'_append_eq_of_le (by decide)]
  exact BitVec.extractLsb'_eq_self

theorem guard_slotBits (o : BitVec 8) (g : Guard) (b : BitVec 51) : Guard.ofWord (slotBits o g b) = g := by
  have e1 : @BitVec.extractLsb' (8+1+4+51) 55 1 (o ++ g.pn ++ g.pred ++ b) = g.pn := by
    rw [BitVec.extractLsb'_append_eq_of_le (by decide), BitVec.extractLsb'_append_eq_of_le (by decide),
      BitVec.extractLsb'_append_eq_of_add_le (by decide)]
    exact BitVec.extractLsb'_eq_self
  have e2 : @BitVec.extractLsb' (8+1+4+51) 51 4 (o ++ g.pn ++ g.pred ++ b) = g.pred := by
    rw [BitVec.extractLsb'_append_eq_of_le (by decide), BitVec.extractLsb'_append_eq_of_add_le (by decide)]
    exact BitVec.extractLsb'_eq_self
  exact (Guard.mk.injEq ..).mpr ⟨e1, e2⟩

theorem low_slotBits (o : BitVec 8) (g : Guard) (b : BitVec 51) (i n : Nat) (h : i + n ≤ 51) :
    (slotBits o g b).extractLsb' i n = b.extractLsb' i n := by
  show @BitVec.extractLsb' (8+1+4+51) i n (o ++ g.pn ++ g.pred ++ b) = _
  exact BitVec.extractLsb'_append_eq_of_add_le h

theorem slotBits_split (w : W64) : slotBits (opcodeOf w) (Guard.ofWord w) (w.extractLsb' 0 51) = w := by
  show w.extractLsb' 56 8 ++ w.extractLsb' 55 1 ++ w.extractLsb' 51 4 ++ w.extractLsb' 0 51 = w
  rw [join_bits w 56 55 8 1 rfl, join_bits w 55 51 9 4 rfl, join_bits w 51 0 13 51 rfl]
  exact BitVec.extractLsb'_eq_self

theorem SR.ofWord_slotBits (o : BitVec 8) (g : Guard) (w : SR) : SR.ofWord (slotBits o g w.bits) = w := by
  have e0 : (slotBits o g w.bits).extractLsb' 47 4 = w.lat := by
    rw [low_slotBits _ _ _ _ _ (by decide)]
    show @BitVec.extractLsb' (4+6+6+6+6+7+16) 47 4 (w.lat ++ w.d ++ w.a ++ w.b ++ w.c ++ w.fn ++ w.rsv) = w.lat
    rw [BitVec.extractLsb'_append_eq_of_le (by decide),
      BitVec.extractLsb'_append_eq_of_le (by decide),
      BitVec.extractLsb'_append_eq_of_le (by decide),
      BitVec.extractLsb'_append_eq_of_le (by decide),
      BitVec.extractLsb'_append_eq_of_le (by decide),
      BitVec.extractLsb'_append_eq_of_le (by decide)]
    exact BitVec.extractLsb'_eq_self
  have e1 : (slotBits o g w.bits).extractLsb' 41 6 = w.d := by
    rw [low_slotBits _ _ _ _ _ (by decide)]
    show @BitVec.extractLsb' (4+6+6+6+6+7+16) 41 6 (w.lat ++ w.d ++ w.a ++ w.b ++ w.c ++ w.fn ++ w.rsv) = w.d
    rw [BitVec.extractLsb'_append_eq_of_le (by decide),
      BitVec.extractLsb'_append_eq_of_le (by decide),
      BitVec.extractLsb'_append_eq_of_le (by decide),
      BitVec.extractLsb'_append_eq_of_le (by decide),
      BitVec.extractLsb'_append_eq_of_le (by decide),
      BitVec.extractLsb'_append_eq_of_add_le (by decide)]
    exact BitVec.extractLsb'_eq_self
  have e2 : (slotBits o g w.bits).extractLsb' 35 6 = w.a := by
    rw [low_slotBits _ _ _ _ _ (by decide)]
    show @BitVec.extractLsb' (4+6+6+6+6+7+16) 35 6 (w.lat ++ w.d ++ w.a ++ w.b ++ w.c ++ w.fn ++ w.rsv) = w.a
    rw [BitVec.extractLsb'_append_eq_of_le (by decide),
      BitVec.extractLsb'_append_eq_of_le (by decide),
      BitVec.extractLsb'_append_eq_of_le (by decide),
      BitVec.extractLsb'_append_eq_of_le (by decide),
      BitVec.extractLsb'_append_eq_of_add_le (by decide)]
    exact BitVec.extractLsb'_eq_self
  have e3 : (slotBits o g w.bits).extractLsb' 29 6 = w.b := by
    rw [low_slotBits _ _ _ _ _ (by decide)]
    show @BitVec.extractLsb' (4+6+6+6+6+7+16) 29 6 (w.lat ++ w.d ++ w.a ++ w.b ++ w.c ++ w.fn ++ w.rsv) = w.b
    rw [BitVec.extractLsb'_append_eq_of_le (by decide),
      BitVec.extractLsb'_append_eq_of_le (by decide),
      BitVec.extractLsb'_append_eq_of_le (by decide),
      BitVec.extractLsb'_append_eq_of_add_le (by decide)]
    exact BitVec.extractLsb'_eq_self
  have e4 : (slotBits o g w.bits).extractLsb' 23 6 = w.c := by
    rw [low_slotBits _ _ _ _ _ (by decide)]
    show @BitVec.extractLsb' (4+6+6+6+6+7+16) 23 6 (w.lat ++ w.d ++ w.a ++ w.b ++ w.c ++ w.fn ++ w.rsv) = w.c
    rw [BitVec.extractLsb'_append_eq_of_le (by decide),
      BitVec.extractLsb'_append_eq_of_le (by decide),
      BitVec.extractLsb'_append_eq_of_add_le (by decide)]
    exact BitVec.extractLsb'_eq_self
  have e5 : (slotBits o g w.bits).extractLsb' 16 7 = w.fn := by
    rw [low_slotBits _ _ _ _ _ (by decide)]
    show @BitVec.extractLsb' (4+6+6+6+6+7+16) 16 7 (w.lat ++ w.d ++ w.a ++ w.b ++ w.c ++ w.fn ++ w.rsv) = w.fn
    rw [BitVec.extractLsb'_append_eq_of_le (by decide),
      BitVec.extractLsb'_append_eq_of_add_le (by decide)]
    exact BitVec.extractLsb'_eq_self
  have e6 : (slotBits o g w.bits).extractLsb' 0 16 = w.rsv := by
    rw [low_slotBits _ _ _ _ _ (by decide)]
    show @BitVec.extractLsb' (4+6+6+6+6+7+16) 0 16 (w.lat ++ w.d ++ w.a ++ w.b ++ w.c ++ w.fn ++ w.rsv) = w.rsv
    rw [BitVec.extractLsb'_append_eq_of_add_le (by decide)]
    exact BitVec.extractLsb'_eq_self
  exact (SR.mk.injEq ..).mpr ⟨e0, e1, e2, e3, e4, e5, e6⟩
theorem SR.bits_ofWord (w : W64) : (SR.ofWord w).bits = w.extractLsb' 0 51 := by
  show w.extractLsb' 47 4 ++ w.extractLsb' 41 6 ++ w.extractLsb' 35 6 ++ w.extractLsb' 29 6 ++ w.extractLsb' 23 6 ++ w.extractLsb' 16 7 ++ w.extractLsb' 0 16 = _
  rw [join_bits w 47 41 4 6 rfl, join_bits w 41 35 10 6 rfl, join_bits w 35 29 16 6 rfl, join_bits w 29 23 22 6 rfl, join_bits w 23 16 28 7 rfl, join_bits w 16 0 35 16 rfl]
theorem SR.slotBits_ofWord (w : W64) : slotBits (opcodeOf w) (Guard.ofWord w) (SR.ofWord w).bits = w := by
  rw [SR.bits_ofWord, slotBits_split]

theorem SI.ofWord_slotBits (o : BitVec 8) (g : Guard) (w : SI) : SI.ofWord (slotBits o g w.bits) = w := by
  have e0 : (slotBits o g w.bits).extractLsb' 47 4 = w.lat := by
    rw [low_slotBits _ _ _ _ _ (by decide)]
    show @BitVec.extractLsb' (4+6+6+35) 47 4 (w.lat ++ w.d ++ w.a ++ w.imm) = w.lat
    rw [BitVec.extractLsb'_append_eq_of_le (by decide),
      BitVec.extractLsb'_append_eq_of_le (by decide),
      BitVec.extractLsb'_append_eq_of_le (by decide)]
    exact BitVec.extractLsb'_eq_self
  have e1 : (slotBits o g w.bits).extractLsb' 41 6 = w.d := by
    rw [low_slotBits _ _ _ _ _ (by decide)]
    show @BitVec.extractLsb' (4+6+6+35) 41 6 (w.lat ++ w.d ++ w.a ++ w.imm) = w.d
    rw [BitVec.extractLsb'_append_eq_of_le (by decide),
      BitVec.extractLsb'_append_eq_of_le (by decide),
      BitVec.extractLsb'_append_eq_of_add_le (by decide)]
    exact BitVec.extractLsb'_eq_self
  have e2 : (slotBits o g w.bits).extractLsb' 35 6 = w.a := by
    rw [low_slotBits _ _ _ _ _ (by decide)]
    show @BitVec.extractLsb' (4+6+6+35) 35 6 (w.lat ++ w.d ++ w.a ++ w.imm) = w.a
    rw [BitVec.extractLsb'_append_eq_of_le (by decide),
      BitVec.extractLsb'_append_eq_of_add_le (by decide)]
    exact BitVec.extractLsb'_eq_self
  have e3 : (slotBits o g w.bits).extractLsb' 0 35 = w.imm := by
    rw [low_slotBits _ _ _ _ _ (by decide)]
    show @BitVec.extractLsb' (4+6+6+35) 0 35 (w.lat ++ w.d ++ w.a ++ w.imm) = w.imm
    rw [BitVec.extractLsb'_append_eq_of_add_le (by decide)]
    exact BitVec.extractLsb'_eq_self
  exact (SI.mk.injEq ..).mpr ⟨e0, e1, e2, e3⟩
theorem SI.bits_ofWord (w : W64) : (SI.ofWord w).bits = w.extractLsb' 0 51 := by
  show w.extractLsb' 47 4 ++ w.extractLsb' 41 6 ++ w.extractLsb' 35 6 ++ w.extractLsb' 0 35 = _
  rw [join_bits w 47 41 4 6 rfl, join_bits w 41 35 10 6 rfl, join_bits w 35 0 16 35 rfl]
theorem SI.slotBits_ofWord (w : W64) : slotBits (opcodeOf w) (Guard.ofWord w) (SI.ofWord w).bits = w := by
  rw [SI.bits_ofWord, slotBits_split]

theorem SB.ofWord_slotBits (o : BitVec 8) (g : Guard) (w : SB) : SB.ofWord (slotBits o g w.bits) = w := by
  have e0 : (slotBits o g w.bits).extractLsb' 47 4 = w.lat := by
    rw [low_slotBits _ _ _ _ _ (by decide)]
    show @BitVec.extractLsb' (4+6+6+35) 47 4 (w.lat ++ w.d ++ w.a ++ w.disp) = w.lat
    rw [BitVec.extractLsb'_append_eq_of_le (by decide),
      BitVec.extractLsb'_append_eq_of_le (by decide),
      BitVec.extractLsb'_append_eq_of_le (by decide)]
    exact BitVec.extractLsb'_eq_self
  have e1 : (slotBits o g w.bits).extractLsb' 41 6 = w.d := by
    rw [low_slotBits _ _ _ _ _ (by decide)]
    show @BitVec.extractLsb' (4+6+6+35) 41 6 (w.lat ++ w.d ++ w.a ++ w.disp) = w.d
    rw [BitVec.extractLsb'_append_eq_of_le (by decide),
      BitVec.extractLsb'_append_eq_of_le (by decide),
      BitVec.extractLsb'_append_eq_of_add_le (by decide)]
    exact BitVec.extractLsb'_eq_self
  have e2 : (slotBits o g w.bits).extractLsb' 35 6 = w.a := by
    rw [low_slotBits _ _ _ _ _ (by decide)]
    show @BitVec.extractLsb' (4+6+6+35) 35 6 (w.lat ++ w.d ++ w.a ++ w.disp) = w.a
    rw [BitVec.extractLsb'_append_eq_of_le (by decide),
      BitVec.extractLsb'_append_eq_of_add_le (by decide)]
    exact BitVec.extractLsb'_eq_self
  have e3 : (slotBits o g w.bits).extractLsb' 0 35 = w.disp := by
    rw [low_slotBits _ _ _ _ _ (by decide)]
    show @BitVec.extractLsb' (4+6+6+35) 0 35 (w.lat ++ w.d ++ w.a ++ w.disp) = w.disp
    rw [BitVec.extractLsb'_append_eq_of_add_le (by decide)]
    exact BitVec.extractLsb'_eq_self
  exact (SB.mk.injEq ..).mpr ⟨e0, e1, e2, e3⟩
theorem SB.bits_ofWord (w : W64) : (SB.ofWord w).bits = w.extractLsb' 0 51 := by
  show w.extractLsb' 47 4 ++ w.extractLsb' 41 6 ++ w.extractLsb' 35 6 ++ w.extractLsb' 0 35 = _
  rw [join_bits w 47 41 4 6 rfl, join_bits w 41 35 10 6 rfl, join_bits w 35 0 16 35 rfl]
theorem SB.slotBits_ofWord (w : W64) : slotBits (opcodeOf w) (Guard.ofWord w) (SB.ofWord w).bits = w := by
  rw [SB.bits_ofWord, slotBits_split]

theorem SM.ofWord_slotBits (o : BitVec 8) (g : Guard) (w : SM) : SM.ofWord (slotBits o g w.bits) = w := by
  have e0 : (slotBits o g w.bits).extractLsb' 47 4 = w.lat := by
    rw [low_slotBits _ _ _ _ _ (by decide)]
    show @BitVec.extractLsb' (4+6+6+2+1+2+18+12) 47 4 (w.lat ++ w.d ++ w.a ++ w.size ++ w.sgn ++ w.qf ++ w.off ++ w.step) = w.lat
    rw [BitVec.extractLsb'_append_eq_of_le (by decide),
      BitVec.extractLsb'_append_eq_of_le (by decide),
      BitVec.extractLsb'_append_eq_of_le (by decide),
      BitVec.extractLsb'_append_eq_of_le (by decide),
      BitVec.extractLsb'_append_eq_of_le (by decide),
      BitVec.extractLsb'_append_eq_of_le (by decide),
      BitVec.extractLsb'_append_eq_of_le (by decide)]
    exact BitVec.extractLsb'_eq_self
  have e1 : (slotBits o g w.bits).extractLsb' 41 6 = w.d := by
    rw [low_slotBits _ _ _ _ _ (by decide)]
    show @BitVec.extractLsb' (4+6+6+2+1+2+18+12) 41 6 (w.lat ++ w.d ++ w.a ++ w.size ++ w.sgn ++ w.qf ++ w.off ++ w.step) = w.d
    rw [BitVec.extractLsb'_append_eq_of_le (by decide),
      BitVec.extractLsb'_append_eq_of_le (by decide),
      BitVec.extractLsb'_append_eq_of_le (by decide),
      BitVec.extractLsb'_append_eq_of_le (by decide),
      BitVec.extractLsb'_append_eq_of_le (by decide),
      BitVec.extractLsb'_append_eq_of_le (by decide),
      BitVec.extractLsb'_append_eq_of_add_le (by decide)]
    exact BitVec.extractLsb'_eq_self
  have e2 : (slotBits o g w.bits).extractLsb' 35 6 = w.a := by
    rw [low_slotBits _ _ _ _ _ (by decide)]
    show @BitVec.extractLsb' (4+6+6+2+1+2+18+12) 35 6 (w.lat ++ w.d ++ w.a ++ w.size ++ w.sgn ++ w.qf ++ w.off ++ w.step) = w.a
    rw [BitVec.extractLsb'_append_eq_of_le (by decide),
      BitVec.extractLsb'_append_eq_of_le (by decide),
      BitVec.extractLsb'_append_eq_of_le (by decide),
      BitVec.extractLsb'_append_eq_of_le (by decide),
      BitVec.extractLsb'_append_eq_of_le (by decide),
      BitVec.extractLsb'_append_eq_of_add_le (by decide)]
    exact BitVec.extractLsb'_eq_self
  have e3 : (slotBits o g w.bits).extractLsb' 33 2 = w.size := by
    rw [low_slotBits _ _ _ _ _ (by decide)]
    show @BitVec.extractLsb' (4+6+6+2+1+2+18+12) 33 2 (w.lat ++ w.d ++ w.a ++ w.size ++ w.sgn ++ w.qf ++ w.off ++ w.step) = w.size
    rw [BitVec.extractLsb'_append_eq_of_le (by decide),
      BitVec.extractLsb'_append_eq_of_le (by decide),
      BitVec.extractLsb'_append_eq_of_le (by decide),
      BitVec.extractLsb'_append_eq_of_le (by decide),
      BitVec.extractLsb'_append_eq_of_add_le (by decide)]
    exact BitVec.extractLsb'_eq_self
  have e4 : (slotBits o g w.bits).extractLsb' 32 1 = w.sgn := by
    rw [low_slotBits _ _ _ _ _ (by decide)]
    show @BitVec.extractLsb' (4+6+6+2+1+2+18+12) 32 1 (w.lat ++ w.d ++ w.a ++ w.size ++ w.sgn ++ w.qf ++ w.off ++ w.step) = w.sgn
    rw [BitVec.extractLsb'_append_eq_of_le (by decide),
      BitVec.extractLsb'_append_eq_of_le (by decide),
      BitVec.extractLsb'_append_eq_of_le (by decide),
      BitVec.extractLsb'_append_eq_of_add_le (by decide)]
    exact BitVec.extractLsb'_eq_self
  have e5 : (slotBits o g w.bits).extractLsb' 30 2 = w.qf := by
    rw [low_slotBits _ _ _ _ _ (by decide)]
    show @BitVec.extractLsb' (4+6+6+2+1+2+18+12) 30 2 (w.lat ++ w.d ++ w.a ++ w.size ++ w.sgn ++ w.qf ++ w.off ++ w.step) = w.qf
    rw [BitVec.extractLsb'_append_eq_of_le (by decide),
      BitVec.extractLsb'_append_eq_of_le (by decide),
      BitVec.extractLsb'_append_eq_of_add_le (by decide)]
    exact BitVec.extractLsb'_eq_self
  have e6 : (slotBits o g w.bits).extractLsb' 12 18 = w.off := by
    rw [low_slotBits _ _ _ _ _ (by decide)]
    show @BitVec.extractLsb' (4+6+6+2+1+2+18+12) 12 18 (w.lat ++ w.d ++ w.a ++ w.size ++ w.sgn ++ w.qf ++ w.off ++ w.step) = w.off
    rw [BitVec.extractLsb'_append_eq_of_le (by decide),
      BitVec.extractLsb'_append_eq_of_add_le (by decide)]
    exact BitVec.extractLsb'_eq_self
  have e7 : (slotBits o g w.bits).extractLsb' 0 12 = w.step := by
    rw [low_slotBits _ _ _ _ _ (by decide)]
    show @BitVec.extractLsb' (4+6+6+2+1+2+18+12) 0 12 (w.lat ++ w.d ++ w.a ++ w.size ++ w.sgn ++ w.qf ++ w.off ++ w.step) = w.step
    rw [BitVec.extractLsb'_append_eq_of_add_le (by decide)]
    exact BitVec.extractLsb'_eq_self
  exact (SM.mk.injEq ..).mpr ⟨e0, e1, e2, e3, e4, e5, e6, e7⟩
theorem SM.bits_ofWord (w : W64) : (SM.ofWord w).bits = w.extractLsb' 0 51 := by
  show w.extractLsb' 47 4 ++ w.extractLsb' 41 6 ++ w.extractLsb' 35 6 ++ w.extractLsb' 33 2 ++ w.extractLsb' 32 1 ++ w.extractLsb' 30 2 ++ w.extractLsb' 12 18 ++ w.extractLsb' 0 12 = _
  rw [join_bits w 47 41 4 6 rfl, join_bits w 41 35 10 6 rfl, join_bits w 35 33 16 2 rfl, join_bits w 33 32 18 1 rfl, join_bits w 32 30 19 2 rfl, join_bits w 30 12 21 18 rfl, join_bits w 12 0 39 12 rfl]
theorem SM.slotBits_ofWord (w : W64) : slotBits (opcodeOf w) (Guard.ofWord w) (SM.ofWord w).bits = w := by
  rw [SM.bits_ofWord, slotBits_split]

theorem SG.ofWord_slotBits (o : BitVec 8) (g : Guard) (w : SG) : SG.ofWord (slotBits o g w.bits) = w := by
  have e0 : (slotBits o g w.bits).extractLsb' 39 12 = w.lnd := by
    rw [low_slotBits _ _ _ _ _ (by decide)]
    show @BitVec.extractLsb' (12+6+6+2+1+12+12) 39 12 (w.lnd ++ w.d ++ w.a ++ w.size ++ w.sgn ++ w.off ++ w.step) = w.lnd
    rw [BitVec.extractLsb'_append_eq_of_le (by decide),
      BitVec.extractLsb'_append_eq_of_le (by decide),
      BitVec.extractLsb'_append_eq_of_le (by decide),
      BitVec.extractLsb'_append_eq_of_le (by decide),
      BitVec.extractLsb'_append_eq_of_le (by decide),
      BitVec.extractLsb'_append_eq_of_le (by decide)]
    exact BitVec.extractLsb'_eq_self
  have e1 : (slotBits o g w.bits).extractLsb' 33 6 = w.d := by
    rw [low_slotBits _ _ _ _ _ (by decide)]
    show @BitVec.extractLsb' (12+6+6+2+1+12+12) 33 6 (w.lnd ++ w.d ++ w.a ++ w.size ++ w.sgn ++ w.off ++ w.step) = w.d
    rw [BitVec.extractLsb'_append_eq_of_le (by decide),
      BitVec.extractLsb'_append_eq_of_le (by decide),
      BitVec.extractLsb'_append_eq_of_le (by decide),
      BitVec.extractLsb'_append_eq_of_le (by decide),
      BitVec.extractLsb'_append_eq_of_le (by decide),
      BitVec.extractLsb'_append_eq_of_add_le (by decide)]
    exact BitVec.extractLsb'_eq_self
  have e2 : (slotBits o g w.bits).extractLsb' 27 6 = w.a := by
    rw [low_slotBits _ _ _ _ _ (by decide)]
    show @BitVec.extractLsb' (12+6+6+2+1+12+12) 27 6 (w.lnd ++ w.d ++ w.a ++ w.size ++ w.sgn ++ w.off ++ w.step) = w.a
    rw [BitVec.extractLsb'_append_eq_of_le (by decide),
      BitVec.extractLsb'_append_eq_of_le (by decide),
      BitVec.extractLsb'_append_eq_of_le (by decide),
      BitVec.extractLsb'_append_eq_of_le (by decide),
      BitVec.extractLsb'_append_eq_of_add_le (by decide)]
    exact BitVec.extractLsb'_eq_self
  have e3 : (slotBits o g w.bits).extractLsb' 25 2 = w.size := by
    rw [low_slotBits _ _ _ _ _ (by decide)]
    show @BitVec.extractLsb' (12+6+6+2+1+12+12) 25 2 (w.lnd ++ w.d ++ w.a ++ w.size ++ w.sgn ++ w.off ++ w.step) = w.size
    rw [BitVec.extractLsb'_append_eq_of_le (by decide),
      BitVec.extractLsb'_append_eq_of_le (by decide),
      BitVec.extractLsb'_append_eq_of_le (by decide),
      BitVec.extractLsb'_append_eq_of_add_le (by decide)]
    exact BitVec.extractLsb'_eq_self
  have e4 : (slotBits o g w.bits).extractLsb' 24 1 = w.sgn := by
    rw [low_slotBits _ _ _ _ _ (by decide)]
    show @BitVec.extractLsb' (12+6+6+2+1+12+12) 24 1 (w.lnd ++ w.d ++ w.a ++ w.size ++ w.sgn ++ w.off ++ w.step) = w.sgn
    rw [BitVec.extractLsb'_append_eq_of_le (by decide),
      BitVec.extractLsb'_append_eq_of_le (by decide),
      BitVec.extractLsb'_append_eq_of_add_le (by decide)]
    exact BitVec.extractLsb'_eq_self
  have e5 : (slotBits o g w.bits).extractLsb' 12 12 = w.off := by
    rw [low_slotBits _ _ _ _ _ (by decide)]
    show @BitVec.extractLsb' (12+6+6+2+1+12+12) 12 12 (w.lnd ++ w.d ++ w.a ++ w.size ++ w.sgn ++ w.off ++ w.step) = w.off
    rw [BitVec.extractLsb'_append_eq_of_le (by decide),
      BitVec.extractLsb'_append_eq_of_add_le (by decide)]
    exact BitVec.extractLsb'_eq_self
  have e6 : (slotBits o g w.bits).extractLsb' 0 12 = w.step := by
    rw [low_slotBits _ _ _ _ _ (by decide)]
    show @BitVec.extractLsb' (12+6+6+2+1+12+12) 0 12 (w.lnd ++ w.d ++ w.a ++ w.size ++ w.sgn ++ w.off ++ w.step) = w.step
    rw [BitVec.extractLsb'_append_eq_of_add_le (by decide)]
    exact BitVec.extractLsb'_eq_self
  exact (SG.mk.injEq ..).mpr ⟨e0, e1, e2, e3, e4, e5, e6⟩
theorem SG.bits_ofWord (w : W64) : (SG.ofWord w).bits = w.extractLsb' 0 51 := by
  show w.extractLsb' 39 12 ++ w.extractLsb' 33 6 ++ w.extractLsb' 27 6 ++ w.extractLsb' 25 2 ++ w.extractLsb' 24 1 ++ w.extractLsb' 12 12 ++ w.extractLsb' 0 12 = _
  rw [join_bits w 39 33 12 6 rfl, join_bits w 33 27 18 6 rfl, join_bits w 27 25 24 2 rfl, join_bits w 25 24 26 1 rfl, join_bits w 24 12 27 12 rfl, join_bits w 12 0 39 12 rfl]
theorem SG.slotBits_ofWord (w : W64) : slotBits (opcodeOf w) (Guard.ofWord w) (SG.ofWord w).bits = w := by
  rw [SG.bits_ofWord, slotBits_split]

theorem SA.ofWord_slotBits (o : BitVec 8) (g : Guard) (w : SA) : SA.ofWord (slotBits o g w.bits) = w := by
  have e0 : (slotBits o g w.bits).extractLsb' 39 12 = w.lnd := by
    rw [low_slotBits _ _ _ _ _ (by decide)]
    show @BitVec.extractLsb' (12+6+6+6+6+3+1+2+9) 39 12 (w.lnd ++ w.d ++ w.a ++ w.b ++ w.c ++ w.scope ++ w.ord ++ w.size ++ w.rsv) = w.lnd
    rw [BitVec.extractLsb'_append_eq_of_le (by decide),
      BitVec.extractLsb'_append_eq_of_le (by decide),
      BitVec.extractLsb'_append_eq_of_le (by decide),
      BitVec.extractLsb'_append_eq_of_le (by decide),
      BitVec.extractLsb'_append_eq_of_le (by decide),
      BitVec.extractLsb'_append_eq_of_le (by decide),
      BitVec.extractLsb'_append_eq_of_le (by decide),
      BitVec.extractLsb'_append_eq_of_le (by decide)]
    exact BitVec.extractLsb'_eq_self
  have e1 : (slotBits o g w.bits).extractLsb' 33 6 = w.d := by
    rw [low_slotBits _ _ _ _ _ (by decide)]
    show @BitVec.extractLsb' (12+6+6+6+6+3+1+2+9) 33 6 (w.lnd ++ w.d ++ w.a ++ w.b ++ w.c ++ w.scope ++ w.ord ++ w.size ++ w.rsv) = w.d
    rw [BitVec.extractLsb'_append_eq_of_le (by decide),
      BitVec.extractLsb'_append_eq_of_le (by decide),
      BitVec.extractLsb'_append_eq_of_le (by decide),
      BitVec.extractLsb'_append_eq_of_le (by decide),
      BitVec.extractLsb'_append_eq_of_le (by decide),
      BitVec.extractLsb'_append_eq_of_le (by decide),
      BitVec.extractLsb'_append_eq_of_le (by decide),
      BitVec.extractLsb'_append_eq_of_add_le (by decide)]
    exact BitVec.extractLsb'_eq_self
  have e2 : (slotBits o g w.bits).extractLsb' 27 6 = w.a := by
    rw [low_slotBits _ _ _ _ _ (by decide)]
    show @BitVec.extractLsb' (12+6+6+6+6+3+1+2+9) 27 6 (w.lnd ++ w.d ++ w.a ++ w.b ++ w.c ++ w.scope ++ w.ord ++ w.size ++ w.rsv) = w.a
    rw [BitVec.extractLsb'_append_eq_of_le (by decide),
      BitVec.extractLsb'_append_eq_of_le (by decide),
      BitVec.extractLsb'_append_eq_of_le (by decide),
      BitVec.extractLsb'_append_eq_of_le (by decide),
      BitVec.extractLsb'_append_eq_of_le (by decide),
      BitVec.extractLsb'_append_eq_of_le (by decide),
      BitVec.extractLsb'_append_eq_of_add_le (by decide)]
    exact BitVec.extractLsb'_eq_self
  have e3 : (slotBits o g w.bits).extractLsb' 21 6 = w.b := by
    rw [low_slotBits _ _ _ _ _ (by decide)]
    show @BitVec.extractLsb' (12+6+6+6+6+3+1+2+9) 21 6 (w.lnd ++ w.d ++ w.a ++ w.b ++ w.c ++ w.scope ++ w.ord ++ w.size ++ w.rsv) = w.b
    rw [BitVec.extractLsb'_append_eq_of_le (by decide),
      BitVec.extractLsb'_append_eq_of_le (by decide),
      BitVec.extractLsb'_append_eq_of_le (by decide),
      BitVec.extractLsb'_append_eq_of_le (by decide),
      BitVec.extractLsb'_append_eq_of_le (by decide),
      BitVec.extractLsb'_append_eq_of_add_le (by decide)]
    exact BitVec.extractLsb'_eq_self
  have e4 : (slotBits o g w.bits).extractLsb' 15 6 = w.c := by
    rw [low_slotBits _ _ _ _ _ (by decide)]
    show @BitVec.extractLsb' (12+6+6+6+6+3+1+2+9) 15 6 (w.lnd ++ w.d ++ w.a ++ w.b ++ w.c ++ w.scope ++ w.ord ++ w.size ++ w.rsv) = w.c
    rw [BitVec.extractLsb'_append_eq_of_le (by decide),
      BitVec.extractLsb'_append_eq_of_le (by decide),
      BitVec.extractLsb'_append_eq_of_le (by decide),
      BitVec.extractLsb'_append_eq_of_le (by decide),
      BitVec.extractLsb'_append_eq_of_add_le (by decide)]
    exact BitVec.extractLsb'_eq_self
  have e5 : (slotBits o g w.bits).extractLsb' 12 3 = w.scope := by
    rw [low_slotBits _ _ _ _ _ (by decide)]
    show @BitVec.extractLsb' (12+6+6+6+6+3+1+2+9) 12 3 (w.lnd ++ w.d ++ w.a ++ w.b ++ w.c ++ w.scope ++ w.ord ++ w.size ++ w.rsv) = w.scope
    rw [BitVec.extractLsb'_append_eq_of_le (by decide),
      BitVec.extractLsb'_append_eq_of_le (by decide),
      BitVec.extractLsb'_append_eq_of_le (by decide),
      BitVec.extractLsb'_append_eq_of_add_le (by decide)]
    exact BitVec.extractLsb'_eq_self
  have e6 : (slotBits o g w.bits).extractLsb' 11 1 = w.ord := by
    rw [low_slotBits _ _ _ _ _ (by decide)]
    show @BitVec.extractLsb' (12+6+6+6+6+3+1+2+9) 11 1 (w.lnd ++ w.d ++ w.a ++ w.b ++ w.c ++ w.scope ++ w.ord ++ w.size ++ w.rsv) = w.ord
    rw [BitVec.extractLsb'_append_eq_of_le (by decide),
      BitVec.extractLsb'_append_eq_of_le (by decide),
      BitVec.extractLsb'_append_eq_of_add_le (by decide)]
    exact BitVec.extractLsb'_eq_self
  have e7 : (slotBits o g w.bits).extractLsb' 9 2 = w.size := by
    rw [low_slotBits _ _ _ _ _ (by decide)]
    show @BitVec.extractLsb' (12+6+6+6+6+3+1+2+9) 9 2 (w.lnd ++ w.d ++ w.a ++ w.b ++ w.c ++ w.scope ++ w.ord ++ w.size ++ w.rsv) = w.size
    rw [BitVec.extractLsb'_append_eq_of_le (by decide),
      BitVec.extractLsb'_append_eq_of_add_le (by decide)]
    exact BitVec.extractLsb'_eq_self
  have e8 : (slotBits o g w.bits).extractLsb' 0 9 = w.rsv := by
    rw [low_slotBits _ _ _ _ _ (by decide)]
    show @BitVec.extractLsb' (12+6+6+6+6+3+1+2+9) 0 9 (w.lnd ++ w.d ++ w.a ++ w.b ++ w.c ++ w.scope ++ w.ord ++ w.size ++ w.rsv) = w.rsv
    rw [BitVec.extractLsb'_append_eq_of_add_le (by decide)]
    exact BitVec.extractLsb'_eq_self
  exact (SA.mk.injEq ..).mpr ⟨e0, e1, e2, e3, e4, e5, e6, e7, e8⟩
theorem SA.bits_ofWord (w : W64) : (SA.ofWord w).bits = w.extractLsb' 0 51 := by
  show w.extractLsb' 39 12 ++ w.extractLsb' 33 6 ++ w.extractLsb' 27 6 ++ w.extractLsb' 21 6 ++ w.extractLsb' 15 6 ++ w.extractLsb' 12 3 ++ w.extractLsb' 11 1 ++ w.extractLsb' 9 2 ++ w.extractLsb' 0 9 = _
  rw [join_bits w 39 33 12 6 rfl, join_bits w 33 27 18 6 rfl, join_bits w 27 21 24 6 rfl, join_bits w 21 15 30 6 rfl, join_bits w 15 12 36 3 rfl, join_bits w 12 11 39 1 rfl, join_bits w 11 9 40 2 rfl, join_bits w 9 0 42 9 rfl]
theorem SA.slotBits_ofWord (w : W64) : slotBits (opcodeOf w) (Guard.ofWord w) (SA.ofWord w).bits = w := by
  rw [SA.bits_ofWord, slotBits_split]

theorem VR.ofWord_slotBits (o : BitVec 8) (g : Guard) (w : VR) : VR.ofWord (slotBits o g w.bits) = w := by
  have e0 : (slotBits o g w.bits).extractLsb' 47 4 = w.lat := by
    rw [low_slotBits _ _ _ _ _ (by decide)]
    show @BitVec.extractLsb' (4+6+6+6+6+6+3+1+13) 47 4 (w.lat ++ w.zd ++ w.za ++ w.zb ++ w.zc ++ w.tag ++ w.rm ++ w.sat ++ w.fn) = w.lat
    rw [BitVec.extractLsb'_append_eq_of_le (by decide),
      BitVec.extractLsb'_append_eq_of_le (by decide),
      BitVec.extractLsb'_append_eq_of_le (by decide),
      BitVec.extractLsb'_append_eq_of_le (by decide),
      BitVec.extractLsb'_append_eq_of_le (by decide),
      BitVec.extractLsb'_append_eq_of_le (by decide),
      BitVec.extractLsb'_append_eq_of_le (by decide),
      BitVec.extractLsb'_append_eq_of_le (by decide)]
    exact BitVec.extractLsb'_eq_self
  have e1 : (slotBits o g w.bits).extractLsb' 41 6 = w.zd := by
    rw [low_slotBits _ _ _ _ _ (by decide)]
    show @BitVec.extractLsb' (4+6+6+6+6+6+3+1+13) 41 6 (w.lat ++ w.zd ++ w.za ++ w.zb ++ w.zc ++ w.tag ++ w.rm ++ w.sat ++ w.fn) = w.zd
    rw [BitVec.extractLsb'_append_eq_of_le (by decide),
      BitVec.extractLsb'_append_eq_of_le (by decide),
      BitVec.extractLsb'_append_eq_of_le (by decide),
      BitVec.extractLsb'_append_eq_of_le (by decide),
      BitVec.extractLsb'_append_eq_of_le (by decide),
      BitVec.extractLsb'_append_eq_of_le (by decide),
      BitVec.extractLsb'_append_eq_of_le (by decide),
      BitVec.extractLsb'_append_eq_of_add_le (by decide)]
    exact BitVec.extractLsb'_eq_self
  have e2 : (slotBits o g w.bits).extractLsb' 35 6 = w.za := by
    rw [low_slotBits _ _ _ _ _ (by decide)]
    show @BitVec.extractLsb' (4+6+6+6+6+6+3+1+13) 35 6 (w.lat ++ w.zd ++ w.za ++ w.zb ++ w.zc ++ w.tag ++ w.rm ++ w.sat ++ w.fn) = w.za
    rw [BitVec.extractLsb'_append_eq_of_le (by decide),
      BitVec.extractLsb'_append_eq_of_le (by decide),
      BitVec.extractLsb'_append_eq_of_le (by decide),
      BitVec.extractLsb'_append_eq_of_le (by decide),
      BitVec.extractLsb'_append_eq_of_le (by decide),
      BitVec.extractLsb'_append_eq_of_le (by decide),
      BitVec.extractLsb'_append_eq_of_add_le (by decide)]
    exact BitVec.extractLsb'_eq_self
  have e3 : (slotBits o g w.bits).extractLsb' 29 6 = w.zb := by
    rw [low_slotBits _ _ _ _ _ (by decide)]
    show @BitVec.extractLsb' (4+6+6+6+6+6+3+1+13) 29 6 (w.lat ++ w.zd ++ w.za ++ w.zb ++ w.zc ++ w.tag ++ w.rm ++ w.sat ++ w.fn) = w.zb
    rw [BitVec.extractLsb'_append_eq_of_le (by decide),
      BitVec.extractLsb'_append_eq_of_le (by decide),
      BitVec.extractLsb'_append_eq_of_le (by decide),
      BitVec.extractLsb'_append_eq_of_le (by decide),
      BitVec.extractLsb'_append_eq_of_le (by decide),
      BitVec.extractLsb'_append_eq_of_add_le (by decide)]
    exact BitVec.extractLsb'_eq_self
  have e4 : (slotBits o g w.bits).extractLsb' 23 6 = w.zc := by
    rw [low_slotBits _ _ _ _ _ (by decide)]
    show @BitVec.extractLsb' (4+6+6+6+6+6+3+1+13) 23 6 (w.lat ++ w.zd ++ w.za ++ w.zb ++ w.zc ++ w.tag ++ w.rm ++ w.sat ++ w.fn) = w.zc
    rw [BitVec.extractLsb'_append_eq_of_le (by decide),
      BitVec.extractLsb'_append_eq_of_le (by decide),
      BitVec.extractLsb'_append_eq_of_le (by decide),
      BitVec.extractLsb'_append_eq_of_le (by decide),
      BitVec.extractLsb'_append_eq_of_add_le (by decide)]
    exact BitVec.extractLsb'_eq_self
  have e5 : (slotBits o g w.bits).extractLsb' 17 6 = w.tag := by
    rw [low_slotBits _ _ _ _ _ (by decide)]
    show @BitVec.extractLsb' (4+6+6+6+6+6+3+1+13) 17 6 (w.lat ++ w.zd ++ w.za ++ w.zb ++ w.zc ++ w.tag ++ w.rm ++ w.sat ++ w.fn) = w.tag
    rw [BitVec.extractLsb'_append_eq_of_le (by decide),
      BitVec.extractLsb'_append_eq_of_le (by decide),
      BitVec.extractLsb'_append_eq_of_le (by decide),
      BitVec.extractLsb'_append_eq_of_add_le (by decide)]
    exact BitVec.extractLsb'_eq_self
  have e6 : (slotBits o g w.bits).extractLsb' 14 3 = w.rm := by
    rw [low_slotBits _ _ _ _ _ (by decide)]
    show @BitVec.extractLsb' (4+6+6+6+6+6+3+1+13) 14 3 (w.lat ++ w.zd ++ w.za ++ w.zb ++ w.zc ++ w.tag ++ w.rm ++ w.sat ++ w.fn) = w.rm
    rw [BitVec.extractLsb'_append_eq_of_le (by decide),
      BitVec.extractLsb'_append_eq_of_le (by decide),
      BitVec.extractLsb'_append_eq_of_add_le (by decide)]
    exact BitVec.extractLsb'_eq_self
  have e7 : (slotBits o g w.bits).extractLsb' 13 1 = w.sat := by
    rw [low_slotBits _ _ _ _ _ (by decide)]
    show @BitVec.extractLsb' (4+6+6+6+6+6+3+1+13) 13 1 (w.lat ++ w.zd ++ w.za ++ w.zb ++ w.zc ++ w.tag ++ w.rm ++ w.sat ++ w.fn) = w.sat
    rw [BitVec.extractLsb'_append_eq_of_le (by decide),
      BitVec.extractLsb'_append_eq_of_add_le (by decide)]
    exact BitVec.extractLsb'_eq_self
  have e8 : (slotBits o g w.bits).extractLsb' 0 13 = w.fn := by
    rw [low_slotBits _ _ _ _ _ (by decide)]
    show @BitVec.extractLsb' (4+6+6+6+6+6+3+1+13) 0 13 (w.lat ++ w.zd ++ w.za ++ w.zb ++ w.zc ++ w.tag ++ w.rm ++ w.sat ++ w.fn) = w.fn
    rw [BitVec.extractLsb'_append_eq_of_add_le (by decide)]
    exact BitVec.extractLsb'_eq_self
  exact (VR.mk.injEq ..).mpr ⟨e0, e1, e2, e3, e4, e5, e6, e7, e8⟩
theorem VR.bits_ofWord (w : W64) : (VR.ofWord w).bits = w.extractLsb' 0 51 := by
  show w.extractLsb' 47 4 ++ w.extractLsb' 41 6 ++ w.extractLsb' 35 6 ++ w.extractLsb' 29 6 ++ w.extractLsb' 23 6 ++ w.extractLsb' 17 6 ++ w.extractLsb' 14 3 ++ w.extractLsb' 13 1 ++ w.extractLsb' 0 13 = _
  rw [join_bits w 47 41 4 6 rfl, join_bits w 41 35 10 6 rfl, join_bits w 35 29 16 6 rfl, join_bits w 29 23 22 6 rfl, join_bits w 23 17 28 6 rfl, join_bits w 17 14 34 3 rfl, join_bits w 14 13 37 1 rfl, join_bits w 13 0 38 13 rfl]
theorem VR.slotBits_ofWord (w : W64) : slotBits (opcodeOf w) (Guard.ofWord w) (VR.ofWord w).bits = w := by
  rw [VR.bits_ofWord, slotBits_split]

theorem VM.ofWord_slotBits (o : BitVec 8) (g : Guard) (w : VM) : VM.ofWord (slotBits o g w.bits) = w := by
  have e0 : (slotBits o g w.bits).extractLsb' 47 4 = w.lat := by
    rw [low_slotBits _ _ _ _ _ (by decide)]
    show @BitVec.extractLsb' (4+6+6+2+20+13) 47 4 (w.lat ++ w.z ++ w.a ++ w.qf ++ w.off ++ w.step) = w.lat
    rw [BitVec.extractLsb'_append_eq_of_le (by decide),
      BitVec.extractLsb'_append_eq_of_le (by decide),
      BitVec.extractLsb'_append_eq_of_le (by decide),
      BitVec.extractLsb'_append_eq_of_le (by decide),
      BitVec.extractLsb'_append_eq_of_le (by decide)]
    exact BitVec.extractLsb'_eq_self
  have e1 : (slotBits o g w.bits).extractLsb' 41 6 = w.z := by
    rw [low_slotBits _ _ _ _ _ (by decide)]
    show @BitVec.extractLsb' (4+6+6+2+20+13) 41 6 (w.lat ++ w.z ++ w.a ++ w.qf ++ w.off ++ w.step) = w.z
    rw [BitVec.extractLsb'_append_eq_of_le (by decide),
      BitVec.extractLsb'_append_eq_of_le (by decide),
      BitVec.extractLsb'_append_eq_of_le (by decide),
      BitVec.extractLsb'_append_eq_of_le (by decide),
      BitVec.extractLsb'_append_eq_of_add_le (by decide)]
    exact BitVec.extractLsb'_eq_self
  have e2 : (slotBits o g w.bits).extractLsb' 35 6 = w.a := by
    rw [low_slotBits _ _ _ _ _ (by decide)]
    show @BitVec.extractLsb' (4+6+6+2+20+13) 35 6 (w.lat ++ w.z ++ w.a ++ w.qf ++ w.off ++ w.step) = w.a
    rw [BitVec.extractLsb'_append_eq_of_le (by decide),
      BitVec.extractLsb'_append_eq_of_le (by decide),
      BitVec.extractLsb'_append_eq_of_le (by decide),
      BitVec.extractLsb'_append_eq_of_add_le (by decide)]
    exact BitVec.extractLsb'_eq_self
  have e3 : (slotBits o g w.bits).extractLsb' 33 2 = w.qf := by
    rw [low_slotBits _ _ _ _ _ (by decide)]
    show @BitVec.extractLsb' (4+6+6+2+20+13) 33 2 (w.lat ++ w.z ++ w.a ++ w.qf ++ w.off ++ w.step) = w.qf
    rw [BitVec.extractLsb'_append_eq_of_le (by decide),
      BitVec.extractLsb'_append_eq_of_le (by decide),
      BitVec.extractLsb'_append_eq_of_add_le (by decide)]
    exact BitVec.extractLsb'_eq_self
  have e4 : (slotBits o g w.bits).extractLsb' 13 20 = w.off := by
    rw [low_slotBits _ _ _ _ _ (by decide)]
    show @BitVec.extractLsb' (4+6+6+2+20+13) 13 20 (w.lat ++ w.z ++ w.a ++ w.qf ++ w.off ++ w.step) = w.off
    rw [BitVec.extractLsb'_append_eq_of_le (by decide),
      BitVec.extractLsb'_append_eq_of_add_le (by decide)]
    exact BitVec.extractLsb'_eq_self
  have e5 : (slotBits o g w.bits).extractLsb' 0 13 = w.step := by
    rw [low_slotBits _ _ _ _ _ (by decide)]
    show @BitVec.extractLsb' (4+6+6+2+20+13) 0 13 (w.lat ++ w.z ++ w.a ++ w.qf ++ w.off ++ w.step) = w.step
    rw [BitVec.extractLsb'_append_eq_of_add_le (by decide)]
    exact BitVec.extractLsb'_eq_self
  exact (VM.mk.injEq ..).mpr ⟨e0, e1, e2, e3, e4, e5⟩
theorem VM.bits_ofWord (w : W64) : (VM.ofWord w).bits = w.extractLsb' 0 51 := by
  show w.extractLsb' 47 4 ++ w.extractLsb' 41 6 ++ w.extractLsb' 35 6 ++ w.extractLsb' 33 2 ++ w.extractLsb' 13 20 ++ w.extractLsb' 0 13 = _
  rw [join_bits w 47 41 4 6 rfl, join_bits w 41 35 10 6 rfl, join_bits w 35 33 16 2 rfl, join_bits w 33 13 18 20 rfl, join_bits w 13 0 38 13 rfl]
theorem VM.slotBits_ofWord (w : W64) : slotBits (opcodeOf w) (Guard.ofWord w) (VM.ofWord w).bits = w := by
  rw [VM.bits_ofWord, slotBits_split]

theorem MW.ofWord_slotBits (o : BitVec 8) (g : Guard) (w : MW) : MW.ofWord (slotBits o g w.bits) = w := by
  have e0 : (slotBits o g w.bits).extractLsb' 45 6 = w.lat := by
    rw [low_slotBits _ _ _ _ _ (by decide)]
    show @BitVec.extractLsb' (6+6+6+6+6+3+6+3+1+8) 45 6 (w.lat ++ w.kp ++ w.kc0 ++ w.kc1 ++ w.kc2 ++ w.cmask ++ w.za ++ w.pl ++ w.ab ++ w.fn) = w.lat
    rw [BitVec.extractLsb'_append_eq_of_le (by decide),
      BitVec.extractLsb'_append_eq_of_le (by decide),
      BitVec.extractLsb'_append_eq_of_le (by decide),
      BitVec.extractLsb'_append_eq_of_le (by decide),
      BitVec.extractLsb'_append_eq_of_le (by decide),
      BitVec.extractLsb'_append_eq_of_le (by decide),
      BitVec.extractLsb'_append_eq_of_le (by decide),
      BitVec.extractLsb'_append_eq_of_le (by decide),
      BitVec.extractLsb'_append_eq_of_le (by decide)]
    exact BitVec.extractLsb'_eq_self
  have e1 : (slotBits o g w.bits).extractLsb' 39 6 = w.kp := by
    rw [low_slotBits _ _ _ _ _ (by decide)]
    show @BitVec.extractLsb' (6+6+6+6+6+3+6+3+1+8) 39 6 (w.lat ++ w.kp ++ w.kc0 ++ w.kc1 ++ w.kc2 ++ w.cmask ++ w.za ++ w.pl ++ w.ab ++ w.fn) = w.kp
    rw [BitVec.extractLsb'_append_eq_of_le (by decide),
      BitVec.extractLsb'_append_eq_of_le (by decide),
      BitVec.extractLsb'_append_eq_of_le (by decide),
      BitVec.extractLsb'_append_eq_of_le (by decide),
      BitVec.extractLsb'_append_eq_of_le (by decide),
      BitVec.extractLsb'_append_eq_of_le (by decide),
      BitVec.extractLsb'_append_eq_of_le (by decide),
      BitVec.extractLsb'_append_eq_of_le (by decide),
      BitVec.extractLsb'_append_eq_of_add_le (by decide)]
    exact BitVec.extractLsb'_eq_self
  have e2 : (slotBits o g w.bits).extractLsb' 33 6 = w.kc0 := by
    rw [low_slotBits _ _ _ _ _ (by decide)]
    show @BitVec.extractLsb' (6+6+6+6+6+3+6+3+1+8) 33 6 (w.lat ++ w.kp ++ w.kc0 ++ w.kc1 ++ w.kc2 ++ w.cmask ++ w.za ++ w.pl ++ w.ab ++ w.fn) = w.kc0
    rw [BitVec.extractLsb'_append_eq_of_le (by decide),
      BitVec.extractLsb'_append_eq_of_le (by decide),
      BitVec.extractLsb'_append_eq_of_le (by decide),
      BitVec.extractLsb'_append_eq_of_le (by decide),
      BitVec.extractLsb'_append_eq_of_le (by decide),
      BitVec.extractLsb'_append_eq_of_le (by decide),
      BitVec.extractLsb'_append_eq_of_le (by decide),
      BitVec.extractLsb'_append_eq_of_add_le (by decide)]
    exact BitVec.extractLsb'_eq_self
  have e3 : (slotBits o g w.bits).extractLsb' 27 6 = w.kc1 := by
    rw [low_slotBits _ _ _ _ _ (by decide)]
    show @BitVec.extractLsb' (6+6+6+6+6+3+6+3+1+8) 27 6 (w.lat ++ w.kp ++ w.kc0 ++ w.kc1 ++ w.kc2 ++ w.cmask ++ w.za ++ w.pl ++ w.ab ++ w.fn) = w.kc1
    rw [BitVec.extractLsb'_append_eq_of_le (by decide),
      BitVec.extractLsb'_append_eq_of_le (by decide),
      BitVec.extractLsb'_append_eq_of_le (by decide),
      BitVec.extractLsb'_append_eq_of_le (by decide),
      BitVec.extractLsb'_append_eq_of_le (by decide),
      BitVec.extractLsb'_append_eq_of_le (by decide),
      BitVec.extractLsb'_append_eq_of_add_le (by decide)]
    exact BitVec.extractLsb'_eq_self
  have e4 : (slotBits o g w.bits).extractLsb' 21 6 = w.kc2 := by
    rw [low_slotBits _ _ _ _ _ (by decide)]
    show @BitVec.extractLsb' (6+6+6+6+6+3+6+3+1+8) 21 6 (w.lat ++ w.kp ++ w.kc0 ++ w.kc1 ++ w.kc2 ++ w.cmask ++ w.za ++ w.pl ++ w.ab ++ w.fn) = w.kc2
    rw [BitVec.extractLsb'_append_eq_of_le (by decide),
      BitVec.extractLsb'_append_eq_of_le (by decide),
      BitVec.extractLsb'_append_eq_of_le (by decide),
      BitVec.extractLsb'_append_eq_of_le (by decide),
      BitVec.extractLsb'_append_eq_of_le (by decide),
      BitVec.extractLsb'_append_eq_of_add_le (by decide)]
    exact BitVec.extractLsb'_eq_self
  have e5 : (slotBits o g w.bits).extractLsb' 18 3 = w.cmask := by
    rw [low_slotBits _ _ _ _ _ (by decide)]
    show @BitVec.extractLsb' (6+6+6+6+6+3+6+3+1+8) 18 3 (w.lat ++ w.kp ++ w.kc0 ++ w.kc1 ++ w.kc2 ++ w.cmask ++ w.za ++ w.pl ++ w.ab ++ w.fn) = w.cmask
    rw [BitVec.extractLsb'_append_eq_of_le (by decide),
      BitVec.extractLsb'_append_eq_of_le (by decide),
      BitVec.extractLsb'_append_eq_of_le (by decide),
      BitVec.extractLsb'_append_eq_of_le (by decide),
      BitVec.extractLsb'_append_eq_of_add_le (by decide)]
    exact BitVec.extractLsb'_eq_self
  have e6 : (slotBits o g w.bits).extractLsb' 12 6 = w.za := by
    rw [low_slotBits _ _ _ _ _ (by decide)]
    show @BitVec.extractLsb' (6+6+6+6+6+3+6+3+1+8) 12 6 (w.lat ++ w.kp ++ w.kc0 ++ w.kc1 ++ w.kc2 ++ w.cmask ++ w.za ++ w.pl ++ w.ab ++ w.fn) = w.za
    rw [BitVec.extractLsb'_append_eq_of_le (by decide),
      BitVec.extractLsb'_append_eq_of_le (by decide),
      BitVec.extractLsb'_append_eq_of_le (by decide),
      BitVec.extractLsb'_append_eq_of_add_le (by decide)]
    exact BitVec.extractLsb'_eq_self
  have e7 : (slotBits o g w.bits).extractLsb' 9 3 = w.pl := by
    rw [low_slotBits _ _ _ _ _ (by decide)]
    show @BitVec.extractLsb' (6+6+6+6+6+3+6+3+1+8) 9 3 (w.lat ++ w.kp ++ w.kc0 ++ w.kc1 ++ w.kc2 ++ w.cmask ++ w.za ++ w.pl ++ w.ab ++ w.fn) = w.pl
    rw [BitVec.extractLsb'_append_eq_of_le (by decide),
      BitVec.extractLsb'_append_eq_of_le (by decide),
      BitVec.extractLsb'_append_eq_of_add_le (by decide)]
    exact BitVec.extractLsb'_eq_self
  have e8 : (slotBits o g w.bits).extractLsb' 8 1 = w.ab := by
    rw [low_slotBits _ _ _ _ _ (by decide)]
    show @BitVec.extractLsb' (6+6+6+6+6+3+6+3+1+8) 8 1 (w.lat ++ w.kp ++ w.kc0 ++ w.kc1 ++ w.kc2 ++ w.cmask ++ w.za ++ w.pl ++ w.ab ++ w.fn) = w.ab
    rw [BitVec.extractLsb'_append_eq_of_le (by decide),
      BitVec.extractLsb'_append_eq_of_add_le (by decide)]
    exact BitVec.extractLsb'_eq_self
  have e9 : (slotBits o g w.bits).extractLsb' 0 8 = w.fn := by
    rw [low_slotBits _ _ _ _ _ (by decide)]
    show @BitVec.extractLsb' (6+6+6+6+6+3+6+3+1+8) 0 8 (w.lat ++ w.kp ++ w.kc0 ++ w.kc1 ++ w.kc2 ++ w.cmask ++ w.za ++ w.pl ++ w.ab ++ w.fn) = w.fn
    rw [BitVec.extractLsb'_append_eq_of_add_le (by decide)]
    exact BitVec.extractLsb'_eq_self
  exact (MW.mk.injEq ..).mpr ⟨e0, e1, e2, e3, e4, e5, e6, e7, e8, e9⟩
theorem MW.bits_ofWord (w : W64) : (MW.ofWord w).bits = w.extractLsb' 0 51 := by
  show w.extractLsb' 45 6 ++ w.extractLsb' 39 6 ++ w.extractLsb' 33 6 ++ w.extractLsb' 27 6 ++ w.extractLsb' 21 6 ++ w.extractLsb' 18 3 ++ w.extractLsb' 12 6 ++ w.extractLsb' 9 3 ++ w.extractLsb' 8 1 ++ w.extractLsb' 0 8 = _
  rw [join_bits w 45 39 6 6 rfl, join_bits w 39 33 12 6 rfl, join_bits w 33 27 18 6 rfl, join_bits w 27 21 24 6 rfl, join_bits w 21 18 30 3 rfl, join_bits w 18 12 33 6 rfl, join_bits w 12 9 39 3 rfl, join_bits w 9 8 42 1 rfl, join_bits w 8 0 43 8 rfl]
theorem MW.slotBits_ofWord (w : W64) : slotBits (opcodeOf w) (Guard.ofWord w) (MW.ofWord w).bits = w := by
  rw [MW.bits_ofWord, slotBits_split]

theorem CW.ofWord_slotBits (o : BitVec 8) (g : Guard) (w : CW) : CW.ofWord (slotBits o g w.bits) = w := by
  have e0 : (slotBits o g w.bits).extractLsb' 45 6 = w.kp := by
    rw [low_slotBits _ _ _ _ _ (by decide)]
    show @BitVec.extractLsb' (6+6+6+6+3+6+6+6+6) 45 6 (w.kp ++ w.kc0 ++ w.kc1 ++ w.kc2 ++ w.cmask ++ w.a ++ w.b ++ w.c ++ w.step) = w.kp
    rw [BitVec.extractLsb'_append_eq_of_le (by decide),
      BitVec.extractLsb'_append_eq_of_le (by decide),
      BitVec.extractLsb'_append_eq_of_le (by decide),
      BitVec.extractLsb'_append_eq_of_le (by decide),
      BitVec.extractLsb'_append_eq_of_le (by decide),
      BitVec.extractLsb'_append_eq_of_le (by decide),
      BitVec.extractLsb'_append_eq_of_le (by decide),
      BitVec.extractLsb'_append_eq_of_le (by decide)]
    exact BitVec.extractLsb'_eq_self
  have e1 : (slotBits o g w.bits).extractLsb' 39 6 = w.kc0 := by
    rw [low_slotBits _ _ _ _ _ (by decide)]
    show @BitVec.extractLsb' (6+6+6+6+3+6+6+6+6) 39 6 (w.kp ++ w.kc0 ++ w.kc1 ++ w.kc2 ++ w.cmask ++ w.a ++ w.b ++ w.c ++ w.step) = w.kc0
    rw [BitVec.extractLsb'_append_eq_of_le (by decide),
      BitVec.extractLsb'_append_eq_of_le (by decide),
      BitVec.extractLsb'_append_eq_of_le (by decide),
      BitVec.extractLsb'_append_eq_of_le (by decide),
      BitVec.extractLsb'_append_eq_of_le (by decide),
      BitVec.extractLsb'_append_eq_of_le (by decide),
      BitVec.extractLsb'_append_eq_of_le (by decide),
      BitVec.extractLsb'_append_eq_of_add_le (by decide)]
    exact BitVec.extractLsb'_eq_self
  have e2 : (slotBits o g w.bits).extractLsb' 33 6 = w.kc1 := by
    rw [low_slotBits _ _ _ _ _ (by decide)]
    show @BitVec.extractLsb' (6+6+6+6+3+6+6+6+6) 33 6 (w.kp ++ w.kc0 ++ w.kc1 ++ w.kc2 ++ w.cmask ++ w.a ++ w.b ++ w.c ++ w.step) = w.kc1
    rw [BitVec.extractLsb'_append_eq_of_le (by decide),
      BitVec.extractLsb'_append_eq_of_le (by decide),
      BitVec.extractLsb'_append_eq_of_le (by decide),
      BitVec.extractLsb'_append_eq_of_le (by decide),
      BitVec.extractLsb'_append_eq_of_le (by decide),
      BitVec.extractLsb'_append_eq_of_le (by decide),
      BitVec.extractLsb'_append_eq_of_add_le (by decide)]
    exact BitVec.extractLsb'_eq_self
  have e3 : (slotBits o g w.bits).extractLsb' 27 6 = w.kc2 := by
    rw [low_slotBits _ _ _ _ _ (by decide)]
    show @BitVec.extractLsb' (6+6+6+6+3+6+6+6+6) 27 6 (w.kp ++ w.kc0 ++ w.kc1 ++ w.kc2 ++ w.cmask ++ w.a ++ w.b ++ w.c ++ w.step) = w.kc2
    rw [BitVec.extractLsb'_append_eq_of_le (by decide),
      BitVec.extractLsb'_append_eq_of_le (by decide),
      BitVec.extractLsb'_append_eq_of_le (by decide),
      BitVec.extractLsb'_append_eq_of_le (by decide),
      BitVec.extractLsb'_append_eq_of_le (by decide),
      BitVec.extractLsb'_append_eq_of_add_le (by decide)]
    exact BitVec.extractLsb'_eq_self
  have e4 : (slotBits o g w.bits).extractLsb' 24 3 = w.cmask := by
    rw [low_slotBits _ _ _ _ _ (by decide)]
    show @BitVec.extractLsb' (6+6+6+6+3+6+6+6+6) 24 3 (w.kp ++ w.kc0 ++ w.kc1 ++ w.kc2 ++ w.cmask ++ w.a ++ w.b ++ w.c ++ w.step) = w.cmask
    rw [BitVec.extractLsb'_append_eq_of_le (by decide),
      BitVec.extractLsb'_append_eq_of_le (by decide),
      BitVec.extractLsb'_append_eq_of_le (by decide),
      BitVec.extractLsb'_append_eq_of_le (by decide),
      BitVec.extractLsb'_append_eq_of_add_le (by decide)]
    exact BitVec.extractLsb'_eq_self
  have e5 : (slotBits o g w.bits).extractLsb' 18 6 = w.a := by
    rw [low_slotBits _ _ _ _ _ (by decide)]
    show @BitVec.extractLsb' (6+6+6+6+3+6+6+6+6) 18 6 (w.kp ++ w.kc0 ++ w.kc1 ++ w.kc2 ++ w.cmask ++ w.a ++ w.b ++ w.c ++ w.step) = w.a
    rw [BitVec.extractLsb'_append_eq_of_le (by decide),
      BitVec.extractLsb'_append_eq_of_le (by decide),
      BitVec.extractLsb'_append_eq_of_le (by decide),
      BitVec.extractLsb'_append_eq_of_add_le (by decide)]
    exact BitVec.extractLsb'_eq_self
  have e6 : (slotBits o g w.bits).extractLsb' 12 6 = w.b := by
    rw [low_slotBits _ _ _ _ _ (by decide)]
    show @BitVec.extractLsb' (6+6+6+6+3+6+6+6+6) 12 6 (w.kp ++ w.kc0 ++ w.kc1 ++ w.kc2 ++ w.cmask ++ w.a ++ w.b ++ w.c ++ w.step) = w.b
    rw [BitVec.extractLsb'_append_eq_of_le (by decide),
      BitVec.extractLsb'_append_eq_of_le (by decide),
      BitVec.extractLsb'_append_eq_of_add_le (by decide)]
    exact BitVec.extractLsb'_eq_self
  have e7 : (slotBits o g w.bits).extractLsb' 6 6 = w.c := by
    rw [low_slotBits _ _ _ _ _ (by decide)]
    show @BitVec.extractLsb' (6+6+6+6+3+6+6+6+6) 6 6 (w.kp ++ w.kc0 ++ w.kc1 ++ w.kc2 ++ w.cmask ++ w.a ++ w.b ++ w.c ++ w.step) = w.c
    rw [BitVec.extractLsb'_append_eq_of_le (by decide),
      BitVec.extractLsb'_append_eq_of_add_le (by decide)]
    exact BitVec.extractLsb'_eq_self
  have e8 : (slotBits o g w.bits).extractLsb' 0 6 = w.step := by
    rw [low_slotBits _ _ _ _ _ (by decide)]
    show @BitVec.extractLsb' (6+6+6+6+3+6+6+6+6) 0 6 (w.kp ++ w.kc0 ++ w.kc1 ++ w.kc2 ++ w.cmask ++ w.a ++ w.b ++ w.c ++ w.step) = w.step
    rw [BitVec.extractLsb'_append_eq_of_add_le (by decide)]
    exact BitVec.extractLsb'_eq_self
  exact (CW.mk.injEq ..).mpr ⟨e0, e1, e2, e3, e4, e5, e6, e7, e8⟩
theorem CW.bits_ofWord (w : W64) : (CW.ofWord w).bits = w.extractLsb' 0 51 := by
  show w.extractLsb' 45 6 ++ w.extractLsb' 39 6 ++ w.extractLsb' 33 6 ++ w.extractLsb' 27 6 ++ w.extractLsb' 24 3 ++ w.extractLsb' 18 6 ++ w.extractLsb' 12 6 ++ w.extractLsb' 6 6 ++ w.extractLsb' 0 6 = _
  rw [join_bits w 45 39 6 6 rfl, join_bits w 39 33 12 6 rfl, join_bits w 33 27 18 6 rfl, join_bits w 27 24 24 3 rfl, join_bits w 24 18 27 6 rfl, join_bits w 18 12 33 6 rfl, join_bits w 12 6 39 6 rfl, join_bits w 6 0 45 6 rfl]
theorem CW.slotBits_ofWord (w : W64) : slotBits (opcodeOf w) (Guard.ofWord w) (CW.ofWord w).bits = w := by
  rw [CW.bits_ofWord, slotBits_split]

end Sys2Proof
end

