-- ==== Sys2Proof/Laws/Bundles.lean ====
section
/-! SUPPORT. The header-only bundle, the guards, the privilege checks and the loops. -/

namespace Sys2Proof.Machine

theorem Core.issuing_none {c : Core} {h : Header} {sz : Nat} {err : Option TrapReq} {look : Slot → W64 → Option OpSem} {draw : Nat}
    (hq : ∀ sl : Slot, h.quiet.getLsbD sl.idx = true ∨ c.stickyOf sl = none) :
    c.issuing { header := h, size := sz, present := [], err := err, look := look } draw = [] := by
  unfold Core.issuing
  apply List.filterMap_eq_nil_iff.mpr
  intro sl _
  rcases hq sl with e | e <;> simp [e]

theorem State.charged_spend_nil (s : State) (f : Fetched) : s.Charged (s.spend s.cur f []) := by
  have e : splits (s.core s.cur) [] = false := rfl
  have e2 : (beltLosses [] (beltAccesses [])).filter (fun x => 0 < x.2.2) = [] := rfl
  unfold State.spend
  simp only [e, e2, Bool.false_eq_true, if_false, List.foldl_nil, State.freezeCycles]
  exact State.charged_bump (State.cycles_chargeIssue s s.cur f []) _ (fun _ => rfl) fun _ => rfl

/-- A bundle of no operation performs. -/
theorem issueOnce_nil {s : State} {h : Header} {sz : Nat} {look : Slot → W64 → Option OpSem} (hq : s.now.Quiet)
    (hs : ∀ sl : Slot, h.quiet.getLsbD sl.idx = true ∨ s.now.stickyOf sl = none) :
    s.issueOnce s.cur { header := h, size := sz, present := [], look := look } =
      s.issueNow s.cur { header := h, size := sz, present := [], look := look } [] := by
  have hq' : (s.core s.cur).Quiet := hq
  have hl : (s.core s.cur).issuing { header := h, size := sz, present := [], look := look } s.free = [] := Core.issuing_none hs
  have hfirst : firstCheck s s.cur { header := h, size := sz, present := [], look := look } [] = none := by
    simp [firstCheck, check1, check2, check3, check4, check5, checkKnots]
  have hfatal : firstFatal s s.cur [] = none := rfl
  have hwait : waitOf s s.cur [] = none := by simp [waitOf, topFreeze, freezeRank]
  have hpower : powerHold (s.core s.cur) [] = false := by
    have hw : issueWeight (s.core s.cur) [] ≤ 12 := by
      have : ([].filter fun (i : Issuing) => i.slot == .v0 || i.slot == .v1).length = 0 := rfl
      simp only [issueWeight]
      repeat' split
      all_goals simp
      all_goals omega
    rcases hq'.room with e | e
    · simp [powerHold, e]
    · simp only [powerHold, Bool.and_eq_false_iff, decide_eq_false_iff_not]; right; omega
  unfold State.issueOnce
  simp only [State.sendBar_quiet hq', State.serveAwait_quiet hq', State.takeRecolors_quiet hq', Core.boundaryFreeze_quiet hq',
      State.landAllDue_quiet hq', hq'.breakNext, hl, hq'.yieldReq, Bool.false_eq_true, false_and, if_false, hfirst, hfatal, hpower,
      Core.asyncNext_quiet hq', hwait, List.findSome?_nil]

theorem Core.agrees_over {c : Core} (h : c.Still) :
    (c.endBundle c.cr.seed).Agrees { c with bt := c.bt + 1 } := by
  obtain ⟨hp, hl, hd, hf, hm, hr, _⟩ := h
  have hz : ∀ x : Flags, x ||| 0 = x := fun x => BitVec.or_zero
  cases c with
  | mk bt pc cycle supervisor stopped rs rp rh rk rl kn cr timing region strands spad fe poison sticky pend drives flagOrs landings
      nextLanding mx mq copies nextCopy streamFault l1 refusals stream tracker ranges fmtBits latch repLeft =>
  simp only at hd hl hm hp hf hr
  subst hd hl hm hp hf hr
  simp only [Core.endBundle, Core.makeDue, Core.landDue, Core.countDown, List.filter_nil, List.foldl_nil,
    List.map_nil, Core.landAll, Flags.all, hz]
  rfl

theorem State.modCore_at (s : State) (k : Nat) (f g : Core → Core) (h : f (s.core k) = g (s.core k)) : s.modCore k f = s.modCore k g := by
  simp only [State.modCore, h]

theorem State.hooks_closeLoop (u : State) (key : Nat) (k : BitVec 6) (v : View) (a : BitVec 57) :
    ((u.closeLoop key k v a).1.core key).hooks = (u.core key).hooks := by
  unfold State.closeLoop
  simp only
  generalize (if v.core.pendingL k = true then _ else _ : Bool) = b
  cases b
  · simp only [Bool.false_eq_true, if_false]
    rw [(State.counts_bankSnapshot ..).core, State.core_modCore]; rfl
  · simp only [if_true]
    rw [State.core_modCore]; rfl

/-- A bundle of no operation, at the end of its bundle-time. -/
theorem headerOnly_core {s : State} {l : BitVec 4} {r : BitVec 8} {q : BitVec 6} (hq : s.now.Quiet)
    (hs : ∀ sl : Slot, q.getLsbD sl.idx = true ∨ s.now.stickyOf sl = none) (hl : ¬ 4 < l.toNat) :
    ∃ u : State, s.Follows u { s.now with bt := s.now.bt + 1 } ∧
      (r ≠ 0 → s.agenda ≠ [] → exec (.headerOnlyBundle l r q) s = .next (u.modCore s.cur fun c => { c with repLeft := some r.toNat })) ∧
      (r = 0 → l = 0 → exec (.headerOnlyBundle l r q) s = .next (u.modCore s.cur fun c => { c with repLeft := none, pc := s.now.pc + 4 })) ∧
      (r = 0 → l ≠ 0 → ∃ v : View, v.core = s.now ∧ exec (.headerOnlyBundle l r q) s = .next
        ((u.closeLoop s.cur ((l - 1).zeroExtend 6) v (s.now.pc + 4)).1.modCore s.cur fun c =>
          { c with repLeft := none, pc := (u.closeLoop s.cur ((l - 1).zeroExtend 6) v (s.now.pc + 4)).2 })) := by
  have hq' : (s.core s.cur).Quiet := hq
  have hi : (s.core s.cur).idle = false := hq'.issues
  have hx : exec (.headerOnlyBundle l r q) s = .next (s.issueBundle ⟨⟨l, r, q, 0⟩, []⟩) := by
    show execHeaderOnlyBundle l r q s = _
    simp only [execHeaderOnlyBundle, hl, if_false]
  rw [hx]
  generalize hh : (⟨l, r, q, 0⟩ : Header) = h
  have hf : fetchedBundle ⟨h, []⟩ = { header := h, size := 4, present := [], look := lookWord } := by
    rw [← hh]; simp only [fetchedBundle, List.filterMap_nil]; congr 1; simp [Header.size, Header.slots, Slot.all]
  have hlo : h.loopend = l := by rw [← hh]
  have hrep : h.rep = r := by rw [← hh]
  have ho := issueOnce_nil (s := s) (h := h) (sz := 4) (look := lookWord) hq (by rw [← hh]; exact hs)
  generalize hft : ({ header := h, size := 4, present := [], look := lookWord } : Fetched) = f at ho hf
  have hfh : f.header = h := by rw [← hft]
  have hfs : f.size = 4 := by rw [← hft]
  have hcs := State.charged_spend_nil s f
  generalize hu : s.spend s.cur f [] = u0 at hcs
  have hpoison : (u0.core s.cur).poison = [] := by
    obtain ⟨_, _, _, _, _, e⟩ := Core.agrees_iff.mp hcs.core
    rw [e]; exact hq'.poison
  have hread : u0.readPoison s.cur [] = u0 := by simp [State.readPoison, hpoison]
  have hreps : (s.core s.cur).repsLeft f.header = r.toNat + 1 := by rw [hfh]; simp [Core.repsLeft, hq'.repLeft, hrep]
  have hnow : s.issueNow s.cur f [] = .done (State.afterBundle (s.core s.cur) s.cur f
      { core := s.core s.cur, slot := .s, pc := (s.core s.cur).pc, size := f.size, addrs := {}, draw := s.free } r.toNat
      { st := u0, seed := (s.core s.cur).cr.seed }) r.toNat := by
    unfold State.issueNow
    simp only [hreps, hu, hread, performAll, Nat.add_sub_cancel]
  have hE := (Core.agrees_endBundle hcs.core (s.core s.cur).cr.seed).trans (Core.agrees_over hq'.still)
  have hhook : ((u0.core s.cur).endBundle (s.core s.cur).cr.seed).hooks = (s.core s.cur).hooks := by
    obtain ⟨_, _, _, _, _, e⟩ := Core.agrees_iff.mp hE
    rw [e]
  have hcyc : ((u0.core s.cur).endBundle (s.core s.cur).cr.seed).cycle = (s.core s.cur).cycle + 1 := by
    rw [(Core.kept_endBundle ..).2.2.1, hcs.cycle]
  have hz : ∀ (c d : Core) (n : Nat) (b : Bool), d.hooks = (s.core s.cur).hooks →
      c.haltIf n (d.hooks.stepBundle || (b && d.hooks.haltRequest)) = c := by
    intro c d n b hd
    rw [hd, hq'.stepBundle, hq'.haltRequest]; cases b <;> rfl
  have hiss : s.issueBundle ⟨h, []⟩ = if 0 < r.toNat ∧ (State.afterBundle (s.core s.cur) s.cur f
      { core := s.core s.cur, slot := .s, pc := (s.core s.cur).pc, size := f.size, addrs := {}, draw := s.free } r.toNat
      { st := u0, seed := (s.core s.cur).cr.seed }).agenda = [] ∧ !((State.afterBundle (s.core s.cur) s.cur f
      { core := s.core s.cur, slot := .s, pc := (s.core s.cur).pc, size := f.size, addrs := {}, draw := s.free } r.toNat
      { st := u0, seed := (s.core s.cur).cr.seed }).core s.cur).stopped then
        (State.afterBundle (s.core s.cur) s.cur f
      { core := s.core s.cur, slot := .s, pc := (s.core s.cur).pc, size := f.size, addrs := {}, draw := s.free } r.toNat
      { st := u0, seed := (s.core s.cur).cr.seed }).issueAll s.cur f r.toNat else
        State.afterBundle (s.core s.cur) s.cur f
      { core := s.core s.cur, slot := .s, pc := (s.core s.cur).pc, size := f.size, addrs := {}, draw := s.free } r.toNat
      { st := u0, seed := (s.core s.cur).cr.seed } := by
    simp only [State.issueBundle, hf, State.issue, hi, Bool.false_eq_true, if_false, hfh, hrep, State.issueAll, ho, hnow]
  generalize hun : (u0.modCore s.cur fun c => c.endBundle (s.core s.cur).cr.seed) = u at *
  have hcore : u.core s.cur = (u0.core s.cur).endBundle (s.core s.cur).cr.seed := by rw [← hun, State.core_modCore]
  refine ⟨u, ⟨?_, fun k hk => ?_, fun hm => ?_, ?_, ?_⟩, fun hr ha => ?_, fun hr h0 => ?_, fun hr h0 => ?_⟩
  · rw [← hun]; simp only [State.modCore, State.setCore]; rw [hcs.rest]
  · rw [← hun, State.core_modCore_ne _ _ hk]; exact hcs.others k hk
  · rw [← hun]; exact hcs.memory hm
  · rw [hcore]; exact hE
  · rw [hcore]; exact hcyc
  · have hr' : 0 < r.toNat := Nat.pos_of_ne_zero fun e => hr (BitVec.eq_of_toNat_eq e)
    have hag : u.agenda = s.agenda := by
      rw [← hun]; show u0.agenda = _; rw [hcs.rest]
    rw [hiss]
    have : State.afterBundle (s.core s.cur) s.cur f { core := s.core s.cur, slot := .s, pc := (s.core s.cur).pc, size := f.size, addrs := {}, draw := s.free } r.toNat
        { st := u0, seed := (s.core s.cur).cr.seed } = u.modCore s.cur fun c => { c with repLeft := some r.toNat } := by
      rw [← hun]
      simp only [State.afterBundle, hr', if_true, Bool.false_eq_true, if_false, Option.getD_none]
    rw [this]
    have hag2 : (u.modCore s.cur fun c => { c with repLeft := some r.toNat }).agenda = s.agenda := hag
    simp only [hag2, ha, false_and, and_false, if_false]
  · rw [hiss, hr]
    have h00 : (0 : BitVec 8).toNat = 0 := rfl
    simp only [h00, Nat.lt_irrefl, false_and, if_false]
    simp only [State.afterBundle, Nat.lt_irrefl, if_false, Bool.false_eq_true, Option.getD_none, hfh, hlo, h0, if_true, hfs, hun]
    refine congrArg _ (State.modCore_at _ _ _ _ (hz _ _ _ _ ?_))
    rw [hcore]; exact hhook
  · rw [hiss, hr]
    have h00 : (0 : BitVec 8).toNat = 0 := rfl
    simp only [h00, Nat.lt_irrefl, false_and, if_false]
    refine ⟨{ core := s.core s.cur, slot := .s, pc := (s.core s.cur).pc, size := f.size, addrs := {}, draw := s.free }, rfl, ?_⟩
    simp only [State.afterBundle, Nat.lt_irrefl, if_false, Bool.false_eq_true, Option.getD_none, hfh, hlo, h0, hun]
    rw [hfs]
    refine congrArg _ (State.modCore_at _ _ _ _ (hz _ _ _ _ ?_))
    rw [State.hooks_closeLoop, hcore]; exact hhook

theorem State.Follows.modCore {s u : State} {e : Core} (h : s.Follows u e) {f : Core → Core} (hf : Core.Plain f)
    (hc : ∀ c, (f c).cycle = c.cycle) : s.Follows (u.modCore s.cur f) (f e) := by
  refine ⟨?_, fun k hk => ?_, fun hs => h.memory hs, ?_, ?_⟩
  · simp only [State.modCore, State.setCore]; rw [h.rest]
  · rw [State.core_modCore_ne _ _ hk]; exact h.others k hk
  · rw [State.core_modCore]; exact hf.agrees h.core
  · rw [State.core_modCore, hc]; exact h.cycle

theorem State.Follows.counts {s u v : State} {e : Core} (h : s.Follows u e) (k : u.Counts v s.cur) : s.Follows v e := by
  refine ⟨?_, fun j hj => ?_, fun hs => ?_, ?_, ?_⟩
  · rw [k.rest, h.rest]
  · rw [k.others j hj]; exact h.others j hj
  · have e1 := h.memory hs
    have b : u.bases = s.bases := by rw [h.rest]
    have e2 := k.memory (State.unaccounted_of e1.1 b hs)
    exact ⟨e2.1.trans e1.1, e2.2.trans e1.2⟩
  · rw [k.core]
    exact Core.Agrees.trans (Core.agrees_iff.mpr ⟨_, _, _, _, _, rfl⟩) h.core
  · rw [k.core]; exact h.cycle

theorem State.Follows.jump {s u : State} {e : Core} (h : s.Follows u e) (hr : e.repLeft = none) (p : BitVec 57) :
    s.Follows (u.modCore s.cur fun c => { c with repLeft := none, pc := p }) { e with pc := p } := by
  have := State.Follows.modCore h (f := fun c => { c with repLeft := none, pc := p }) (fun _ _ _ _ _ _ => rfl) fun _ => rfl
  cases e
  simp only at hr
  subst hr
  exact this

theorem fx_op : ∀ n : BitVec 4, 0xF0#8 + n.zeroExtend 8 = 0xF#4 ++ n := by decide

/-- What a slot operation is: its slot, its word with its opcode, and its meaning by the issue of a bundle of its own. -/
theorem semOf_spec {i : Instr} {m : OpSem} (h : semOf i = some m) (s : State) :
    exec i s = runSolo m i s ∧ ∀ sl w, i.slotWord = some (sl, w) → m.slot = sl ∧ m.op = opcodeOf w := by
  cases i <;> first
    | (cases h; done)
    | (cases h; refine ⟨rfl, fun sl w e => ?_⟩; cases e; refine ⟨rfl, ?_⟩; rw [opcodeOf_slotBits]; first | rfl | exact fx_op _)

theorem soloIssuing_check1 {s : State} {m : OpSem} {w : W64} :
    check1 (s.core s.cur) [s.soloIssuing m w] = if m.check1 (s.core s.cur) then some (illegal causeIllegal m.slot m.op 0) else none := by
  simp only [check1, State.soloIssuing, List.find?_cons, List.find?_nil, List.filter_cons, List.filter_nil]
  cases m.check1 (s.core s.cur) <;> cases m.strandStore <;> rfl

theorem soloIssuing_check2 {s : State} {m : OpSem} {w : W64} :
    check2 (s.core s.cur) [s.soloIssuing m w] =
      if (s.core s.cur).cr.sys = false ∧ m.priv (s.core s.cur) = true then some (illegal causePrivilege m.slot m.op 0) else none := by
  simp only [check2, State.soloIssuing, List.find?_cons, List.find?_nil]
  cases (s.core s.cur).cr.sys <;> cases m.priv (s.core s.cur) <;> rfl

theorem powerHold_solo {c : Core} (h : c.Quiet) (i : Issuing) : powerHold c [i] = false := by
  have hw : issueWeight c [i] ≤ 12 := by
    have h1 : ([i].filter fun i => i.slot == .v0 || i.slot == .v1).length ≤ 1 := by
      simpa using List.length_filter_le (fun i => i.slot == .v0 || i.slot == .v1) [i]
    simp only [issueWeight]
    split <;> split <;> split <;> omega
  rcases h.room with e | e
  · simp [powerHold, e]
  · simp only [powerHold, Bool.and_eq_false_iff, decide_eq_false_iff_not]; right; omega

/-- A predicate that is false: nothing performs, and a knot that would be produced is RESOLVED. -/
theorem runSolo_guarded {m : OpSem} {i : Instr} {s : State} {w : W64} (hq : (s.core s.cur).Quiet) (hw : i.slotWord = some (m.slot, w))
    (hf : firstCheck s s.cur (soloFetched m i w) [s.soloIssuing m w] = none) (hg : (s.view m).guard m.guard = false) :
    ∃ t, runSolo m i s = .next t ∧ s.Follows t (match m.produces (s.view m) with
          | some (n, src) => ((s.core s.cur).resolveKnot n src).after
          | none => (s.core s.cur).after) := by
  have hperf : (s.soloIssuing m w).perf = false := hg
  have hrep : (s.core s.cur).repsLeft (soloHeader m.slot) = 1 := by simp [Core.repsLeft, hq.repLeft, soloHeader]
  have hl : (s.core s.cur).issuing (soloFetched m i w) s.free = [s.soloIssuing m w] := by
    rw [soloFetched, Core.issuing_solo hq]; rfl
  have hfatal : firstFatal s s.cur [s.soloIssuing m w] = none := by simp [firstFatal, hperf]
  have hwait : waitOf s s.cur [s.soloIssuing m w] = none := by simp [waitOf, hperf, topFreeze, freezeRank]
  have hlate : ([s.soloIssuing m w].findSome? fun i => if i.perf then i.sem.late5 s s.cur i.view else none) = none := by simp [hperf]
  have honce : s.issueOnce s.cur (soloFetched m i w) = s.issueNow s.cur (soloFetched m i w) [s.soloIssuing m w] := by
    unfold State.issueOnce
    simp only [State.sendBar_quiet hq, State.serveAwait_quiet hq, State.takeRecolors_quiet hq, Core.boundaryFreeze_quiet hq,
      State.landAllDue_quiet hq, hq.breakNext, hl, hq.yieldReq, Bool.false_eq_true, false_and, if_false, hf, hfatal, powerHold_solo hq,
      Core.asyncNext_quiet hq, hwait, hlate]
  have hcs := State.charged_spend s (soloFetched m i w) (s.soloIssuing m w)
  generalize hu : s.spend s.cur (soloFetched m i w) [s.soloIssuing m w] = u at hcs
  have hpoison : (u.core s.cur).poison = [] := by
    obtain ⟨_, _, _, _, _, e⟩ := Core.agrees_iff.mp hcs.core
    rw [e]; exact hq.poison
  have hread : u.readPoison s.cur [s.soloIssuing m w] = u := by simp [State.readPoison, hpoison]
  rw [runSolo_once hq hw, honce]
  unfold State.issueNow
  simp only [show (soloFetched m i w).header = soloHeader m.slot from rfl, hrep, Nat.sub_self, hu, hread, Issued.state,
    State.afterBundle_solo s (f := soloFetched m i w) (sl := m.slot) rfl rfl]
  have hk : ∀ (v : State) (f : Core → Core), (v.modCore s.cur f).core s.cur = f (v.core s.cur) := fun v f => State.core_modCore ..
  have hag : ∀ c : Core, (c.keepSticky (s.soloIssuing m w)).Agrees c := fun c => Core.agrees_iff.mpr ⟨_, _, _, _, _, rfl⟩
  have hfin : ∀ a : Acc, a.tail = false → a.eret = false → s.finish a = s.close a := by
    intro a h1 h2; simp only [State.finish, h1, h2, Bool.false_eq_true, if_false]
  cases hp : m.produces (s.view m) with
  | none =>
    have hpa : performAll s.cur [s.soloIssuing m w] { st := u, seed := (s.core s.cur).cr.seed } =
        { st := u.modCore s.cur fun c => c.keepSticky (s.soloIssuing m w), seed := (s.core s.cur).cr.seed } := by
      simp only [performAll, hperf, Bool.false_eq_true, if_false]
      simp only [State.soloIssuing, hp]
      rfl
    rw [hpa]
    refine ⟨_, rfl, ?_⟩
    rw [hfin _ rfl rfl]
    have := State.close_follows (e := s.core s.cur) (sd := (s.core s.cur).cr.seed) (nx := none) hq hcs
      (a := { st := u.modCore s.cur fun c => c.keepSticky (s.soloIssuing m w), seed := (s.core s.cur).cr.seed })
      ⟨by rw [hk]; exact (hag _).trans hcs.core, by rw [hk]; rfl, fun k hne => State.core_modCore_ne _ _ hne, rfl, rfl, rfl, rfl, rfl⟩ rfl
    exact State.Follows.of_core this (Core.agrees_after hq.still _ _)
  | some q =>
    obtain ⟨n, src⟩ := q
    have hpa : performAll s.cur [s.soloIssuing m w] { st := u, seed := (s.core s.cur).cr.seed } =
        { st := (u.modCore s.cur fun c => c.keepSticky (s.soloIssuing m w)).modCore s.cur fun c => c.resolveKnot n src
          seed := (s.core s.cur).cr.seed } := by
      simp only [performAll, hperf, Bool.false_eq_true, if_false]
      simp only [State.soloIssuing, hp]
      rfl
    rw [hpa]
    refine ⟨_, rfl, ?_⟩
    rw [hfin _ rfl rfl]
    have hplain : Core.Plain fun c => c.resolveKnot n src := fun _ _ _ _ _ _ => rfl
    have := State.close_follows (e := (s.core s.cur).resolveKnot n src) (sd := (s.core s.cur).cr.seed) (nx := none) hq hcs
      (a := { st := (u.modCore s.cur fun c => c.keepSticky (s.soloIssuing m w)).modCore s.cur fun c => c.resolveKnot n src, seed := (s.core s.cur).cr.seed })
      ⟨by rw [hk, hk]; exact hplain.agrees ((hag _).trans hcs.core), by rw [hk, hk]; rfl,
        fun k hne => by rw [State.core_modCore_ne _ _ hne, State.core_modCore_ne _ _ hne], rfl, rfl, rfl, rfl, rfl⟩ rfl
    have hst := hq.still
    have hst' : ((s.core s.cur).resolveKnot n src).Still := ⟨hst.pend, hst.landings, hst.drives, hst.flagOrs, hst.mq, hst.repLeft, hst.poison⟩
    exact State.Follows.of_core this (Core.agrees_after hst' _ _)

theorem runSolo_privilege {m : OpSem} {i : Instr} {s : State} {w : W64} (h : (s.core s.cur).Quiet) (hw : i.slotWord = some (m.slot, w))
    (hu : (s.core s.cur).cr.sys = false) (hc : i.check1 = none) (h1 : m.check1 (s.core s.cur) = false)
    (hp : m.priv (s.core s.cur) = true) :
    runSolo m i s = .next (s.takeTrap s.cur (illegal causePrivilege m.slot m.op 0) (s.core s.cur).pc 1) := by
  refine runSolo_traps h hw ?_
  have e1 : check1 (s.core s.cur) [s.soloIssuing m w] = none := by
    simp only [check1, State.soloIssuing, List.find?_cons, List.find?_nil, List.filter_cons, List.filter_nil, h1]
    cases m.strandStore <;> rfl
  have e2 : check2 (s.core s.cur) [s.soloIssuing m w] = some (illegal causePrivilege m.slot m.op 0) := by
    simp only [check2, hu, Bool.false_eq_true, if_false, State.soloIssuing, List.find?_cons, hp, Option.map_some]
  have e0 : (soloFetched m i w).err = none := by simp [soloFetched, hc]
  simp only [firstCheck, e0, e1, e2, Option.orElse]

end Sys2Proof.Machine
end

