-- ==== Sys2Proof/Laws/Bytes.lean ====
section
/-! SUPPORT. Little-endian bytes and the numbers they stand for (00 R7). -/

namespace Sys2Proof

theorem leNat_lt : ∀ l : List Byte, leNat l < 2 ^ (8 * l.length)
  | [] => by simp [leNat]
  | b :: l => by
    simp only [leNat, List.length_cons]
    have h1 := leNat_lt l
    have h2 := b.isLt
    rw [Nat.mul_add, Nat.pow_add]
    omega

/-- Bit `8j + k` of a little-endian number is bit `k` of its byte `j`. -/
theorem leNat_testBit : ∀ (l : List Byte) (i : Nat), (leNat l).testBit i = (l.getD (i / 8) 0).getLsbD (i % 8)
  | [], i => by simp [leNat]
  | b :: l, i => by
    have hb := b.isLt
    have e : leNat (b :: l) = 2 ^ 8 * leNat l + b.toNat := by simp only [leNat]; omega
    rw [e, Nat.testBit_two_pow_mul_add _ hb]
    by_cases h : i < 8
    · rw [if_pos h, Nat.div_eq_of_lt h, Nat.mod_eq_of_lt h]; rfl
    · rw [if_neg h, leNat_testBit l (i - 8)]
      have h1 : i / 8 = (i - 8) / 8 + 1 := by omega
      have h2 : i % 8 = (i - 8) % 8 := by omega
      rw [h1, h2]; rfl

@[simp] theorem length_leBytes : ∀ n x : Nat, (leBytes n x).length = n
  | 0, _ => rfl
  | n + 1, x => by simp [leBytes, length_leBytes n]

/-- A byte of a little-endian number. -/
theorem getD_leBytes : ∀ (n x i : Nat), i < n → (leBytes n x).getD i 0 = BitVec.ofNat 8 (x / 2 ^ (8 * i))
  | n + 1, x, 0, _ => by simp [leBytes]
  | n + 1, x, i + 1, h => by
    have := getD_leBytes n (x / 256) i (by omega)
    have e : 2 ^ (8 * (i + 1)) = 256 * 2 ^ (8 * i) := by
      rw [show 8 * (i + 1) = 8 + 8 * i by omega, Nat.pow_add]
    rw [e, ← Nat.div_div_eq_div_mul, ← this]
    simp [leBytes]

theorem leNat_leBytes : ∀ n x : Nat, leNat (leBytes n x) = x % 256 ^ n
  | 0, x => by simp [leBytes, leNat, Nat.mod_one]
  | n + 1, x => by
    simp only [leBytes, leNat, leNat_leBytes n, BitVec.toNat_ofNat]
    have h1 : (256 : Nat) ^ (n + 1) = 256 * 256 ^ n := by rw [Nat.pow_succ, Nat.mul_comm]
    rw [h1, Nat.mod_mul]

theorem leBytes_leNat : ∀ l : List Byte, leBytes l.length (leNat l) = l
  | [] => rfl
  | b :: l => by
    have hb := b.isLt
    simp only [List.length_cons, leBytes, leNat]
    have h1 : (b.toNat + 256 * leNat l) / 256 = leNat l := by omega
    have h2 : BitVec.ofNat 8 (b.toNat + 256 * leNat l) = b := by
      apply BitVec.eq_of_toNat_eq; simp; omega
    rw [h1, h2, leBytes_leNat l]

end Sys2Proof
end

