-- ==== Sys2Proof/Laws/Walk.lean ====
section
/-! SUPPORT. Translation reads memory, the page tables' base, the home map, the partitions, the translator's cache and the forwarding
entries of moving lines, and nothing of the cores (14 R366 to R371): it answers alike on states that agree on those. -/

namespace Sys2Proof.Machine

/-- Two states agree on all that translation reads. -/
structure State.SameMaps (s u : State) : Prop where
  mem : u.mem = s.mem
  bases : u.bases = s.bases
  homeMap : u.homeMap = s.homeMap
  parts : u.parts = s.parts
  tlb : u.tlb = s.tlb
  moves : u.moves = s.moves

theorem State.Charged.sameMaps {s u : State} (h : s.Charged u) (hu : s.Unaccounted) : s.SameMaps u :=
  ⟨(h.memory hu).1, by rw [h.rest], by rw [h.rest], by rw [h.rest], by rw [h.rest], by rw [h.rest]⟩
theorem State.Cycles.sameMaps {s u : State} {key : Nat} (h : s.Cycles u key) (hu : s.Unaccounted) : s.SameMaps u :=
  ⟨(h.memory hu).1, by rw [h.rest], by rw [h.rest], by rw [h.rest], by rw [h.rest], by rw [h.rest]⟩
theorem State.SameMaps.trans {s t u : State} (h : s.SameMaps t) (k : t.SameMaps u) : s.SameMaps u :=
  ⟨k.mem.trans h.mem, k.bases.trans h.bases, k.homeMap.trans h.homeMap, k.parts.trans h.parts, k.tlb.trans h.tlb, k.moves.trans h.moves⟩

section
variable {s u : State} (h : s.SameMaps u)
include h

theorem State.SameMaps.memBytes (pa n : Nat) : u.memBytes pa n = s.memBytes pa n := by simp only [State.memBytes, h.mem]
theorem State.SameMaps.memNat (pa n : Nat) : u.memNat pa n = s.memNat pa n := by simp only [State.memNat, h.memBytes]
theorem State.SameMaps.ctxEntry (a : BitVec 16) : u.ctxEntry a = s.ctxEntry a := by simp only [State.ctxEntry, h.bases]
theorem State.SameMaps.unaccounted (k : s.Unaccounted) : u.Unaccounted := by
  intro a
  have := k a
  simp only [State.account, h.memNat, h.ctxEntry] at this ⊢
  exact this
theorem State.SameMaps.homeEntry (ca : BitVec 52) : u.homeEntry ca = s.homeEntry ca := by simp only [State.homeEntry, h.homeMap]
theorem State.SameMaps.channelOk (a : BitVec 16) (pa : Nat) : u.channelOk a pa = s.channelOk a pa := by
  simp only [State.channelOk, State.partitionOf, State.ctxPart, h.memNat, h.ctxEntry, h.parts]
theorem State.SameMaps.freedSpans (a : BitVec 16) : u.freedSpans a = s.freedSpans a := by simp only [State.freedSpans, h.memNat, h.bases]

theorem State.SameMaps.walkFrom (a : BitVec 16) (ca : BitVec 52) (host : Bool) :
    ∀ (fuel table level : Nat), u.walkFrom a ca host table level fuel = s.walkFrom a ca host table level fuel
  | 0, _, _ => rfl
  | fuel + 1, table, level => by
    have e1 : u.memNat = s.memNat := funext fun _ => funext fun _ => h.memNat ..
    have e2 : u.channelOk = s.channelOk := funext fun _ => funext fun _ => h.channelOk ..
    have e3 : u.freedSpans = s.freedSpans := funext fun _ => h.freedSpans _
    have e4 : u.homeDie = s.homeDie := funext fun _ => by simp only [State.homeDie, h.homeEntry]
    unfold State.walkFrom
    simp only [State.SameMaps.walkFrom a ca host fuel]
    rw [e1, e2, e3, e4]

theorem State.SameMaps.walk (a : BitVec 16) (ca : BitVec 52) (host : Bool) : u.walk a ca host = s.walk a ca host := by
  simp only [State.walk, h.walkFrom, h.memNat, h.ctxEntry]

/-- The translator answers alike. -/
theorem State.SameMaps.translate (a : BitVec 16) (ca : BitVec 52) (need : Need) (host : Bool) :
    (u.translate a ca need host).res = (s.translate a ca need host).res ∧
      (u.translate a ca need host).st = { u with tlb := (s.translate a ca need host).st.tlb } := by
  have ht := h.tlb
  have hw : (u.walkFresh a ca need host).res = (s.walkFresh a ca need host).res ∧
      (u.walkFresh a ca need host).st = { u with tlb := (s.walkFresh a ca need host).st.tlb } := by
    simp only [State.walkFresh, h.walk]
    cases s.walk a ca host with
    | absent => exact ⟨rfl, by rw [← ht]⟩
    | bad p => exact ⟨rfl, by rw [← ht]⟩
    | leaf l => simp only [ht]; repeat' split
                all_goals exact ⟨rfl, rfl⟩
  simp only [State.translate, h.homeEntry, ht]
  split
  · exact ⟨rfl, by rw [← ht]⟩
  · split
    · split
      · exact ⟨rfl, by rw [← ht]⟩
      · split
        · exact ⟨rfl, by rw [← ht]⟩
        · exact hw
    · exact hw

theorem State.SameMaps.probeFwd (root n : Nat) (a : BitVec 57) : ∀ (fuel i : Nat), u.probeFwd root n a i fuel = s.probeFwd root n a i fuel
  | 0, _ => rfl
  | fuel + 1, i => by simp only [State.probeFwd, h.memNat, State.SameMaps.probeFwd root n a fuel]

end

/-- A reference of the good colour resolves to itself (15 R394). -/
theorem State.resolve_fresh (s : State) (asid : BitVec 16) {c : Core} {k : W64} (h1 : refAddr k ≠ 0) (h2 : refColor k = c.goodColor (refHeap k)) :
    s.resolve asid c k = (k, false) := by
  simp only [State.resolve, if_neg h1, if_pos h2]

end Sys2Proof.Machine
end

