-- ==== Sys2Proof/Laws/Memory.lean ====
section
/-! SUPPORT. Reads of memory after writes, byte by byte and as numbers. -/

namespace Sys2Proof.Machine

theorem getD_append_left {l r : List Byte} {i : Nat} (h : i < l.length) : (l ++ r).getD i 0 = l.getD i 0 := by
  simp [List.getD, List.getElem?_append, h]
theorem getD_append_right {l r : List Byte} {i : Nat} (h : l.length ≤ i) : (l ++ r).getD i 0 = r.getD (i - l.length) 0 := by
  simp [List.getD, List.getElem?_append, Nat.not_lt.mpr h]

/-- A byte beyond the first number of a record. -/
theorem getD_step (n x : Nat) (r : List Byte) (off i : Nat) (h : n ≤ off) : (leBytes n x ++ r).getD (off + i) 0 = r.getD (off - n + i) 0 := by
  rw [getD_append_right (by rw [length_leBytes]; omega), length_leBytes]
  congr 1; omega
/-- A byte of the first number of a record. -/
theorem getD_field (n x : Nat) (r : List Byte) (i : Nat) (h : i < n) : (leBytes n x ++ r).getD (0 + i) 0 = BitVec.ofNat 8 (x / 2 ^ (8 * i)) := by
  rw [Nat.zero_add, getD_append_left (by rw [length_leBytes]; omega), getD_leBytes _ _ _ h]

@[simp] theorem State.length_memBytes (s : State) (a n : Nat) : (s.memBytes a n).length = n := SMap.length_getList ..

/-- The bytes of memory from an address, one by one. -/
theorem State.memBytes_eq (s : State) (a n : Nat) : s.memBytes a n = (List.range n).map fun i => s.memByte (a + i) := SMap.getList_eq ..

theorem State.getD_memBytes (s : State) {a n i : Nat} (h : i < n) : (s.memBytes a n).getD i 0 = s.memByte (a + i) := by
  rw [State.memBytes_eq]; simp [List.getD, h]

/-- Reads of bytes that are alike are alike. -/
theorem State.memNat_congr {s t : State} {a n : Nat} (h : ∀ i, i < n → t.memByte (a + i) = s.memByte (a + i)) : t.memNat a n = s.memNat a n := by
  simp only [State.memNat, State.memBytes_eq]
  congr 1
  exact List.map_congr_left fun i hi => h i (List.mem_range.mp hi)

/-- A number whose bytes are known. -/
theorem State.memNat_of {t : State} {a n x : Nat} (h : ∀ i, i < n → t.memByte (a + i) = BitVec.ofNat 8 (x / 2 ^ (8 * i))) :
    t.memNat a n = x % 256 ^ n := by
  rw [← leNat_leBytes]
  simp only [State.memNat, State.memBytes_eq]
  congr 1
  apply List.ext_getElem (by simp)
  intro i h1 h2
  simp only [List.length_map, List.length_range] at h1
  have := getD_leBytes n x i h1
  rw [List.getD_eq_getElem?_getD, List.getElem?_eq_getElem h2] at this
  simp only [List.getElem_map, List.getElem_range, h i h1]
  exact this.symm

theorem State.memByte_memPut (s : State) (a n x b : Nat) :
    (s.memPut a n x).memByte b = if a ≤ b ∧ b < a + n then BitVec.ofNat 8 (x / 2 ^ (8 * (b - a))) else s.memByte b := by
  unfold State.memPut
  rw [State.memByte_memWrite, length_leBytes]
  split
  · next h => exact getD_leBytes _ _ _ (by omega)
  · rfl

@[simp] theorem State.memNat_memPut (s : State) (a n x : Nat) : (s.memPut a n x).memNat a n = x % 256 ^ n :=
  State.memNat_of fun i hi => by
    rw [State.memByte_memPut, if_pos (by omega)]
    congr 3; omega

theorem State.memNat_memPut_ne (s : State) {a n x b m : Nat} (h : b + m ≤ a ∨ a + n ≤ b) : (s.memPut a n x).memNat b m = s.memNat b m :=
  State.memNat_congr fun i hi => by rw [State.memByte_memPut, if_neg (by omega)]

/-- Invalidations touch the translators' and caches' part of the machine alone. -/
theorem State.sendAll_eq (s : State) (wr : Option Nat) (ca n : Nat) : ∃ p, s.sendAll wr ca n = { s with pendInv := p } := by
  simp only [State.sendAll]
  generalize List.range ((ca + n - 1) / 128 - ca / 128 + 1) = l
  induction l generalizing s with
  | nil => exact ⟨_, rfl⟩
  | cons i l ih =>
    simp only [List.foldl_cons]
    obtain ⟨p, e⟩ := ih (s.sendInvalidations wr (ca / 128 + i))
    exact ⟨p, by rw [e]; rfl⟩

end Sys2Proof.Machine
end

