-- ==== Sys2Proof/Laws/Command.lean ====
section
/-! SUPPORT. What the commands of the supervisors share: when they perform, and what they leave of the cores (08 R268). -/

namespace Sys2Proof.Machine

/-- A command that passes its tests and waits for nothing performs. -/
theorem command_performs {s : State} {m : OpSem} {op : BitVec 8} {g : Guard} {runs : Nat → Core → Bool} {rd : List (BitVec 6)}
    (h : s.Issues .s g none) (hm : m = { command op g runs rd with check5 := m.check5, fatal := m.fatal, wait := m.wait, perform := m.perform })
    (hs : s.now.cr.sys = true) (hr : runs s.cur s.now = true) (h5 : m.check5 s s.cur (s.view m) = none)
    (hf : m.fatal s s.cur (s.view m) = none) (hw : m.wait s s.cur (s.view m) = none) : m.Performs s := by
  have hslot : m.slot = .s := by rw [hm]; rfl
  have hgu : m.guard = g := by rw [hm]; rfl
  have hti : m.timing = none := by rw [hm]; rfl
  refine State.Issues.performs (by rw [hslot, hgu, hti]; exact h) (.inl hs) (by rw [hm]; exact hr)
    ⟨by rw [hm]; rfl, by rw [hm]; rfl, h5, hf, ?_, ?_, ?_, ?_, hw, ?_⟩
  · intro n hn
    have : ∀ v, m.consumes v = [] := by intro v; rw [hm]; rfl
    rw [this] at hn; cases hn
  · have : ∀ v, m.mask v = [] := by intro v; rw [hm]; rfl
    exact this _
  · intro n src hn
    have : ∀ v, m.produces v = none := by intro v; rw [hm]; rfl
    rw [this] at hn; cases hn
  · intro e he
    have : ∀ v, m.queue v = none := by intro v; rw [hm]; rfl
    rw [this] at he; cases he
  · have : ∀ v, m.late5 s s.cur v = none := by intro v; rw [hm]; rfl
    exact this _

theorem command_begun {m : OpSem} {op : BitVec 8} {g : Guard} {runs : Nat → Core → Bool} {rd : List (BitVec 6)}
    (hm : m = { command op g runs rd with check5 := m.check5, fatal := m.fatal, wait := m.wait, perform := m.perform })
    (key : Nat) (v : View) (u : State) : m.begun key v u = u := by
  have : m.produces v = none := by rw [hm]; rfl
  simp only [OpSem.begun, this]


theorem findBelow_none {p : Nat → Bool} : ∀ {n : Nat}, (∀ m, m < n → p m = false) → findBelow p n = none
  | 0, _ => rfl
  | n + 1, h => by
    have h1 := findBelow_none (n := n) fun m hm => h m (by omega)
    simp only [findBelow, h1, h n (Nat.lt_succ_self n), Bool.false_eq_true, if_false]


/-- A register as an operation of a quiet core reads it. -/
theorem State.view_s {s : State} (h : (s.core s.cur).Quiet) (m : OpSem) (n : Nat) (x : BitVec 6) : (s.view m).s n x = s.now.sReg x := by
  rw [View.s_quiet (by exact h)]; rfl

/-- An operation that changed no core leaves its own one bundle later, and the others as they were. -/
theorem State.close_cores {s u : State} {a : Acc} (hq : (s.core s.cur).Quiet) (hu : s.Charged u) (h1 : a.st.cores = u.cores)
    (h2 : a.seedSet.getD a.seed = (s.core s.cur).cr.seed) (h3 : a.next = none) :
    ((s.close a).core s.cur).Agrees (s.core s.cur).after ∧ ∀ k, k ≠ s.cur → (s.close a).core k = s.core k := by
  have hc : ∀ k, a.st.core k = u.core k := fun k => by simp only [State.core, h1]
  exact ⟨State.close_after hq (by rw [hc]; exact hu.core) h2 h3, fun k hk => by rw [State.core_close_ne _ _ hk, hc]; exact hu.others k hk⟩

/-- An operation that placed one write and changed no other core. -/
theorem State.close_write {s u : State} {a : Acc} {n : Nat} {x : Write} (hq : (s.core s.cur).Quiet) (hu : s.Charged u)
    (h1 : ∀ k, a.st.core k = if k = s.cur then (u.core s.cur).pendWrite n x else u.core k)
    (h2 : a.seedSet.getD a.seed = (s.core s.cur).cr.seed) (h3 : a.next = none) :
    ((s.close a).core s.cur).Agrees ((s.core s.cur).later n x) ∧ ∀ k, k ≠ s.cur → (s.close a).core k = s.core k := by
  refine ⟨State.close_later hq ?_ h2 h3, fun k hk => ?_⟩
  · rw [h1, if_pos rfl]; exact (Core.plain_pendWrite n x).agrees hu.core
  · rw [State.core_close_ne _ _ hk, h1, if_neg hk]; exact hu.others k hk

theorem State.core_pendWrite (u v : State) (key n : Nat) (x : Write) (h : v.cores = u.cores) (k : Nat) :
    (v.modCore key fun c => c.pendWrite n x).core k = if k = key then (u.core key).pendWrite n x else u.core k := by
  have hc : ∀ k, v.core k = u.core k := fun k => by simp only [State.core, h]
  by_cases e : k = key
  · subst e; rw [if_pos rfl, State.core_modCore, hc]
  · rw [if_neg e, State.core_modCore_ne _ _ e, hc]

end Sys2Proof.Machine
end

