-- ==== Sys2Proof/Laws/Control.lean ====
section
/-! SUPPORT. Branches, scratchpad and memory accesses, atomics, synchronisation, traps and returns of the S slot. -/

namespace Sys2Proof.Machine

theorem branchTarget_displaced (b : W64) (x : Int) (hx : BitVec.ofInt 64 x = b) (d : BitVec 35) : branchTarget b d = displaced x d := by
  apply BitVec.eq_of_toInt_eq
  subst hx
  simp only [branchTarget, displaced, BitVec.toInt_add, BitVec.toInt_mul, BitVec.toInt_ofInt, BitVec.toInt_signExtend]
  have : (4 : W64).toInt = 4 := by decide
  rw [this, show (min 64 35) = 35 from rfl, BitVec.toInt_bmod_cancel]
  simp
  rw [Int.mul_comm]

theorem ofInt_pc (c : BitVec 57) : BitVec.ofInt 64 (c.toNat : Int) = c.zeroExtend 64 := by
  apply BitVec.eq_of_toNat_eq; simp

theorem ofInt_toNat (c : W64) : BitVec.ofInt 64 (c.toNat : Int) = c := by
  apply BitVec.eq_of_toNat_eq; simp

theorem link_pc (c : BitVec 57) : c.zeroExtend 64 + 12 = BitVec.ofNat 64 (c.toNat + 12) := by
  apply BitVec.eq_of_toNat_eq; simp [BitVec.toNat_add]

theorem extendLoad_extended (sz : BitVec 2) (sgn : Bool) (bs : List Byte) (hl : bs.length = 2 ^ sz.toNat) :
   extendLoad sz sgn (BitVec.ofNat 64 (leNat bs)) = extended (2 ^ sz.toNat) sgn (leNat bs) := by
  have hb : ∀ bs : List Byte, leNat bs < 2 ^ (8 * bs.length) := by
    intro bs; induction bs with
    | nil => simp [leNat]
    | cons b l ih => simp only [leNat, List.length_cons]; have := b.isLt; rw [Nat.mul_add, Nat.pow_add]; omega
  have hv := hb bs
  rw [hl] at hv
  generalize leNat bs = v at hv
  have hsz := sz.isLt
  have : sz.toNat = 0 ∨ sz.toNat = 1 ∨ sz.toNat = 2 ∨ sz.toNat = 3 := by omega
  simp only [extendLoad, extended]
  have h64 : v < 2 ^ 64 := by rcases this with h | h | h | h <;> rw [h] at hv <;> simp at hv <;> omega
  have e0 : (BitVec.ofNat 64 v).toNat = v := (BitVec.toNat_ofNat ..).trans (Nat.mod_eq_of_lt h64)
  rw [e0]
  cases sgn with
  | false => simp only [Bool.false_eq_true, if_false, false_and]; rw [Nat.mod_eq_of_lt hv]
  | true =>
    simp only [if_true, true_and, signedBits, Nat.mod_eq_of_lt hv]
    have h2 : 2 ^ (8 * 2 ^ sz.toNat) = 2 * 2 ^ (8 * 2 ^ sz.toNat - 1) := by
      have : 8 * 2 ^ sz.toNat = (8 * 2 ^ sz.toNat - 1) + 1 := by have := Nat.two_pow_pos sz.toNat; omega
      conv => lhs; rw [this, Nat.pow_succ]
      omega
    by_cases hc : 2 ^ (8 * 2 ^ sz.toNat - 1) ≤ v
    · rw [if_pos hc, if_neg (by omega)]
    · rw [if_neg hc, if_pos (by omega)]; simp

theorem spad_getList {c : Core} (a n : Nat) : SMap.getList 0 c.spad a n = (List.range n).map fun i => c.spadByte (a + i) :=
  SMap.getList_eq ..

theorem vaTest_ok (op : BitVec 8) {a : W64} {n : Nat} (h1 : a.toNat % n = 0) (h2 : a.toNat < 2 ^ 57) : vaTest op a n = none := by
  have : ¬ 2 ^ 57 ≤ a.toNat := Nat.not_le.mpr h2
  simp only [vaTest, h1, ne_eq, not_true_eq_false, if_false, this]

theorem rangeFatal_none {c : Core} {a : W64} {n need t} (h : c.MapsTo a n need t) : rangeFatal c a need n = none := by
  have : c.rangesOf (a.extractLsb' 0 57) need n = .ok t := by
    simp only [Core.rangesOf]
    have e : (List.range n).findSome? (fun i =>
      match c.rangeOf (a.extractLsb' 0 57 + BitVec.ofNat 57 i) need with
      | .error k => some (k, a.extractLsb' 0 57 + BitVec.ofNat 57 i)
      | .ok _ => none) = none := by
      rw [List.findSome?_eq_none_iff]; intro i hi
      obtain ⟨u, hu⟩ := h.2.2.1 i (by simpa using hi)
      rw [hu]
    split
    · next e' he => 
      obtain ⟨i, hi, hh⟩ := List.exists_of_findSome?_eq_some he
      obtain ⟨u, hu⟩ := h.2.2.1 i (by simpa using hi)
      rw [hu] at hh; cases hh
    · rw [h.2.2.2]
  simp only [rangeFatal, this]

theorem Core.plain_writeCr (s : State) (i : BitVec 16) (x : W64) : Core.Plain fun c => c.writeCr s i x := by
  intro c a y p q k
  simp only [Core.writeCr]
  generalize s.ctxRanges = f
  split <;> first | rfl | (split <;> rfl)

theorem cr_ok {s : State} {c : Core} {i : BitVec 16} {x : W64} (hw : x.toNat < 2 ^ crWidth i) (h1 : i = 0x10 → 1 ≤ x.toNat ∧ x.toNat ≤ 5)
    (h0 : i = 0 → x.getLsbD 0 = true ∧ x.extractLsb' 2 2 = c.cr.dbg) (h2 : i = 2 → s.ctxState (x.extractLsb' 0 16) = 1) :
    crRefused s c i x = false := by
  have a1 : (i == 0x10 && (x == 0 || decide (5 < x.toNat))) = false := by
    by_cases h : i = 0x10
    · have := h1 h
      have hx : x ≠ 0 := fun h => by rw [h] at this; simp at this
      rw [show (x == 0) = false from by simpa using hx, show decide (5 < x.toNat) = false from by simp; omega]; simp
    · rw [show (i == 0x10) = false from by simpa using h]; rfl
  have a2 : (i == 0 && (!x.getLsbD 0 || x.extractLsb' 2 2 != c.cr.dbg)) = false := by
    by_cases h : i = 0
    · have := h0 h
      rw [this.1, this.2]; simp
    · rw [show (i == 0) = false from by simpa using h]; rfl
  have a3 : (i == 2 && s.ctxState (x.extractLsb' 0 16) != 1) = false := by
    by_cases h : i = 2
    · rw [h2 h]; simp
    · rw [show (i == 2) = false from by simpa using h]; rfl
  rw [crRefused, a1, a2, a3]; simp; omega

theorem crw_performs {s : State} {g : Guard} {w : SI} (h : s.Issues .s g none)
    (hp : (s.core s.cur).cr.sys = true ∨ (semCrw g w).priv (s.core s.cur) = false)
    (hr : crRefused s s.now (w.imm.extractLsb' 0 16) (s.now.sReg w.a) = false) : (semCrw g w).Performs s := by
  have hvs : (s.view (semCrw g w)).s 1 w.a = s.now.sReg w.a := View.s_quiet (by exact h.quiet) ..
  exact State.Issues.performs (m := semCrw g w) h hp rfl ⟨rfl, rfl, by simp only [semCrw] at hvs ⊢; rw [hvs]; exact if_neg (fun hh => Bool.noConfusion (hh.symm.trans hr)), rfl, by simp [semCrw], rfl, by simp [semCrw], by simp [semCrw], rfl, rfl⟩

theorem crw_seed {s : State} {g : Guard} {w : SI} (h : s.Issues .s g none) (hc : (Instr.crw g w).check1 = none) (hp : (semCrw g w).Performs s)
    (hi : w.imm.extractLsb' 0 16 = 0x11) : Completes (.crw g w) s (s.now.withCr { s.now.cr with seed := s.now.sReg w.a }).after := by
  have hvs : (s.view (semCrw g w)).s 1 w.a = s.now.sReg w.a := View.s_quiet (by exact h.quiet) ..
  obtain ⟨u, e, hfo⟩ := runSolo_fin (i := .crw g w) hp rfl hc (F := fun u => u) (g := fun c => c) (sd := s.now.sReg w.a) (nx := none) Core.plain_id (fun _ => rfl) (fun _ => rfl)
      (fun _ _ => ⟨rfl, fun _ _ => rfl, rfl⟩) (a := fun u => { st := u, seed := (s.core s.cur).cr.seed, seedSet := some (s.now.sReg w.a) }) (fun u _ => by
        simp only [semCrw] at hvs ⊢
        rw [hvs, if_pos hi]; rfl) (fun _ _ => ⟨rfl, rfl, rfl, rfl, rfl⟩)
  exact ⟨u, e, hfo.of_core (Core.agrees_after h.quiet.still ..)⟩

theorem crw_run {s : State} {g : Guard} {w : SI} {i : BitVec 16} (h : s.Issues .s g none) (hc : (Instr.crw g w).check1 = none)
    (hp : (semCrw g w).Performs s) (hw : w.imm.extractLsb' 0 16 = i) (hi : i ≠ 0x11) (hun : i = 2 → s.Unaccounted)
    (hst : (s.now.writeCr s i (s.now.sReg w.a)).Still) :
    Completes (.crw g w) s { ((s.now.writeCr s i (s.now.sReg w.a)).withSeed s.now.cr.seed).after with pc := s.now.pc + 12 } := by
  have hvs : (s.view (semCrw g w)).s 1 w.a = s.now.sReg w.a := View.s_quiet (by exact h.quiet) ..
  generalize s.now.sReg w.a = x at hvs hst
  obtain ⟨t, e, hf⟩ := runSolo_fin (i := .crw g w) hp rfl hc (F := fun u => u.modCore s.cur fun d => d.writeCr u i x) (g := fun d => d.writeCr s i x)
      (sd := s.now.cr.seed) (nx := none) (Core.plain_writeCr s i x)
      (fun d => by simp only [Core.writeCr]; split <;> first | rfl | (split <;> rfl))
      (fun d => by simp only [Core.writeCr]; split <;> first | rfl | (split <;> rfl))
      (fun u hu => ⟨by
        rw [State.core_modCore]
        by_cases h2 : i = 2
        · have hm := (hu.memory (hun h2)).1
          have hb : u.bases = s.bases := by rw [hu.rest]
          have hr : u.ctxRanges = s.ctxRanges := by
            funext a; simp only [State.ctxRanges, State.ctxRange, State.ctxEntry, State.memNat, State.memBytes, hm, hb]
          simp only [Core.writeCr, hr]
        · have : i.toNat ≠ 2 := fun h => h2 (BitVec.eq_of_toNat_eq h)
          simp only [Core.writeCr]
          split <;> first | (next h => exact absurd h this) | rfl, fun _ hk => State.core_modCore_ne _ _ hk, rfl⟩)
      (a := fun u => { st := u.modCore s.cur fun d => d.writeCr u i x, seed := (s.core s.cur).cr.seed }) (fun u _ => by
        simp only [semCrw, hw] at hvs ⊢
        rw [hvs, if_neg hi]; rfl) (fun _ _ => ⟨rfl, rfl, rfl, rfl, rfl⟩)
  exact ⟨t, e, hf.of_core (Core.agrees_after hst _ _)⟩

theorem crw_cr {s : State} {g : Guard} {w : SI} {i : BitVec 16} {e : CtlRegs} (h : s.Issues .s g none) (hc : (Instr.crw g w).check1 = none)
    (hw : w.imm.extractLsb' 0 16 = i) (hi : i ≠ 0x11) (h2 : i ≠ 2)
    (hp : (s.core s.cur).cr.sys = true ∨ (semCrw g w).priv (s.core s.cur) = false) (hr : crRefused s s.now i (s.now.sReg w.a) = false)
    (he : s.now.writeCr s i (s.now.sReg w.a) = { s.now with cr := e }) (hs : e.seed = s.now.cr.seed) :
    Completes (.crw g w) s (s.now.withCr e).after := by
  have hst := h.quiet.still
  have := crw_run h hc (crw_performs h hp (hw ▸ hr)) hw hi (fun k => absurd k h2) (by
    rw [he]; exact ⟨hst.1, hst.2, hst.3, hst.4, hst.5, hst.6, hst.7⟩)
  rw [he] at this
  simp only [Core.withSeed, ← hs] at this
  exact this

theorem crw_user {w : SI} {g : Guard} {c : Core} {j : BitVec 16} (hj : w.imm.extractLsb' 0 16 = j) (h1 : 0x10 ≤ j.toNat) (h2 : j.toNat ≤ 0x12) :
    (semCrw g w).priv c = false := by
  show (!(decide (0x10 ≤ (w.imm.extractLsb' 0 16).toNat) && decide ((w.imm.extractLsb' 0 16).toNat ≤ 0x12))) = false
  rw [hj]; simp [h1, h2]

theorem units_ext {x y : BitVec (1024 + 4096)} (h : ∀ u, u < 80 → x.extractLsb' (64 * u) 64 = y.extractLsb' (64 * u) 64) : x = y := by
  apply BitVec.eq_of_getLsbD_eq
  intro i hi
  have := congrArg (fun z => z.getLsbD (i % 64)) (h (i / 64) (by omega))
  simp only [BitVec.getLsbD_extractLsb', show i % 64 < 64 from Nat.mod_lt _ (by decide), decide_true, Bool.true_and] at this
  rw [show 64 * (i / 64) + i % 64 = i from Nat.div_add_mod i 64] at this
  exact this

theorem lowMask (n : Nat) (hn : 64 ≤ n) (k : Nat) : (BitVec.ofNat n (2 ^ 64 - 1)).getLsbD k = decide (k < 64) := by
  rw [BitVec.getLsbD_ofNat, Nat.testBit_two_pow_sub_one]
  simp; omega

theorem setUnit_units (b : Beat) (u : Nat) (x : W64) (hu : u < 80) (v : Nat) (hv : v < 80) :
    ((b.setUnit u x).side ++ (b.setUnit u x).data).extractLsb' (64 * v) 64 =
      if v = u then x else (b.side ++ b.data).extractLsb' (64 * v) 64 := by
  apply BitVec.eq_of_getLsbD_eq
  intro k hk
  simp only [Beat.setUnit]
  by_cases h : u < 64
  · simp only [h, if_true]
    by_cases e : v = u
    · subst e
      simp only [if_true, BitVec.getLsbD_extractLsb', hk, decide_true, Bool.true_and, BitVec.getLsbD_append, BitVec.getLsbD_or, BitVec.getLsbD_and, BitVec.getLsbD_not, BitVec.getLsbD_shiftLeft, lowMask _ (show 64 ≤ 4096 by decide)]
      have : 64 * v + k < 4096 := by omega
      have h9 : ¬ 64 * v + k < 64 * v := by omega
      simp [this, hk, h9]; intros; omega
    · simp only [e, if_false, BitVec.getLsbD_extractLsb', hk, decide_true, Bool.true_and, BitVec.getLsbD_append, BitVec.getLsbD_or, BitVec.getLsbD_and, BitVec.getLsbD_not, BitVec.getLsbD_shiftLeft, lowMask _ (show 64 ≤ 4096 by decide)]
      by_cases h4 : 64 * v + k < 4096
      · simp only [h4, decide_true, if_true, Bool.true_and]
        by_cases h5 : 64 * v + k < 64 * u
        · simp [h5]
        · have : ¬ 64 * v + k - 64 * u < 64 := by omega
          simp [h5, this]
          intro _ hx; rw [BitVec.getLsbD_of_ge _ _ (by omega)] at hx; cases hx
      · simp [h4]
  · simp only [h, if_false]
    by_cases e : v = u
    · subst e
      simp only [if_true, BitVec.getLsbD_extractLsb', hk, decide_true, Bool.true_and, BitVec.getLsbD_append, BitVec.getLsbD_or, BitVec.getLsbD_and, BitVec.getLsbD_not, BitVec.getLsbD_shiftLeft, lowMask _ (show 64 ≤ 1024 by decide)]
      have h1 : ¬ 64 * v + k < 4096 := by omega
      have h2 : 64 * v + k - 4096 < 1024 := by omega
      have h3 : 64 * v + k - 4096 - 64 * (v - 64) = k := by omega
      have h6 : ¬ 64 * v + k - 4096 < 64 * (v - 64) := by omega
      simp [h1, h2, h3, hk, h6]; intros; omega
    · simp only [e, if_false, BitVec.getLsbD_extractLsb', hk, decide_true, Bool.true_and, BitVec.getLsbD_append, BitVec.getLsbD_or, BitVec.getLsbD_and, BitVec.getLsbD_not, BitVec.getLsbD_shiftLeft, lowMask _ (show 64 ≤ 1024 by decide)]
      by_cases h4 : 64 * v + k < 4096
      · simp [h4]
      · have h2 : 64 * v + k - 4096 < 1024 := by omega
        simp only [h4, h2, decide_true, if_false, Bool.true_and]
        by_cases h5 : 64 * v + k - 4096 < 64 * (u - 64)
        · simp [h5]
        · have : ¬ 64 * v + k - 4096 - 64 * (u - 64) < 64 := by omega
          simp [h5, this]
          intro _ hx; rw [BitVec.getLsbD_of_ge _ _ (by omega)] at hx; cases hx

theorem beat_ext {a b : Beat} (h1 : a.tag = b.tag) (h2 : a.side ++ a.data = b.side ++ b.data) : a = b := by
  cases a with | mk ad as at' =>
  cases b with | mk bd bs bt =>
  simp only at h1 h2
  have d := congrArg (fun z => z.extractLsb' 0 4096) h2
  have e := congrArg (fun z => z.extractLsb' 4096 1024) h2
  simp only [BitVec.extractLsb'_append_eq_right, BitVec.extractLsb'_append_eq_left] at d e
  rw [h1, d, e]

theorem unit_eq (b : Beat) (u : Nat) (hu : u < 80) : b.unit u = (b.side ++ b.data).extractLsb' (64 * u) 64 := by
  apply BitVec.eq_of_getLsbD_eq
  intro k hk
  simp only [Beat.unit]
  split
  · next h => 
    simp only [BitVec.getLsbD_extractLsb', hk, decide_true, Bool.true_and, BitVec.getLsbD_append]
    have : 64 * u + k < 4096 := by omega
    simp [this]
  · next h =>
    simp only [BitVec.getLsbD_extractLsb', hk, decide_true, Bool.true_and, BitVec.getLsbD_append]
    have : ¬ 64 * u + k < 4096 := by omega
    simp only [this, decide_false, if_false]
    rw [show 64 * (u - 64) + k = 64 * u + k - 4096 from by omega]

theorem classAt_of {c : Core} {va : BitVec 57} {need t} (h : c.rangeOf va need = .ok t) : c.classAt va = some t.cls := by
  simp only [Core.rangeOf] at h
  split at h
  · cases h
  · next g hg =>
    split at h
    · cases h; simp only [Core.classAt, hg]; rfl
    · cases h

theorem landingFull_quiet {c : Core} (h : c.Quiet) : c.landingFull = false := by
  simp only [Core.landingFull, h.landings, List.filter_nil, List.length_nil, Core.landingSlots]
  split <;> decide

theorem amo_completes {s : State} {g : Guard} {w : SA} {t : Target} (h : s.Issues .s g none) (hm : s.now.MapsTo (s.now.sReg w.a) (2 ^ w.size.toNat) .rw t)
    (hn : t.cls ≠ .host) (opc : BitVec 8) (op : AmoOp) {i : Instr} {wd : W64} (hw : i.slotWord = some (.s, wd)) (hc : i.check1 = none) :
    ∃ u, runSolo (amoOp opc op g w) i s = .next u ∧ s.Follows u (s.now.withAtomic w op t).after := by
  have hva : (s.view (amoOp opc op g w)).addrs.a = s.now.sReg w.a := by
    show View.s _ 1 w.a = _; rw [View.s_quiet (by exact h.quiet)]; rfl
  have hb : (s.view (amoOp opc op g w)).s 2 w.b = s.now.sReg w.b := View.s_quiet (by exact h.quiet) ..
  have hcc : (s.view (amoOp opc op g w)).s 3 w.c = s.now.sReg w.c := View.s_quiet (by exact h.quiet) ..
  have hro : Core.rangeOf (s.view (amoOp opc op g w)).core ((s.now.sReg w.a).extractLsb' 0 57) .rw = .ok t := hm.2.2.2
  have hcl : ((s.view (amoOp opc op g w)).core.classAt (addrOf (s.now.sReg w.a))) = some t.cls := classAt_of hm.2.2.2
  have hfull : Core.landingFull (s.view (amoOp opc op g w)).core = false := landingFull_quiet h.quiet
  have hrf : rangeFatal (s.view (amoOp opc op g w)).core (s.now.sReg w.a) .rw (sizeBytes w.size) = none := rangeFatal_none hm
  have hfat : (amoOp opc op g w).fatal s s.cur (s.view (amoOp opc op g w)) = none := by
    show ((rangeFatal (s.view (amoOp opc op g w)).core (s.view (amoOp opc op g w)).addrs.a .rw (sizeBytes w.size)).orElse fun _ =>
      if (s.view (amoOp opc op g w)).core.classAt (addrOf (s.view (amoOp opc op g w)).addrs.a) = some .host then
        some (1, addrOf (s.view (amoOp opc op g w)).addrs.a) else none) = none
    rw [hva, hrf, hcl, if_neg (by simpa using hn)]; rfl
  have hp : (amoOp opc op g w).Performs s :=
      State.Issues.performs (m := amoOp opc op g w) h (.inr rfl) rfl
        ⟨rfl, rfl, by simp only [amoOp] at hva hfull ⊢; rw [hva, show vaTest _ (s.now.sReg w.a) (sizeBytes w.size) = none from vaTest_ok _ hm.1 hm.2.1, hfull]; rfl,
          hfat, by simp [amoOp], rfl, by simp [amoOp], by simp [amoOp], rfl, rfl⟩
  have hperf : ∀ v : View, v.addrs.a = s.now.sReg w.a → v.s 2 w.b = s.now.sReg w.b → v.s 3 w.c = s.now.sReg w.c →
      v.core.rangeOf ((s.now.sReg w.a).extractLsb' 0 57) .rw = .ok t → ∀ a : Acc, (amoOp opc op g w).perform s.cur v a = a.core s.cur fun c =>
      let id := c.nextLanding
      let c := c.takeLanding w.lnd.toNat false w.d t (.amo op w.size (s.now.sReg w.b) (s.now.sReg w.c) w.scope (w.ord == 1))
      if w.ord = 1 then { c with stream := c.stream ++ [{ seq := id, tgt := t, kind := .amo id }] } else c := by
    intro v h1 h2 h3 h4 a
    simp only [amoOp]
    have : v.core.target v.addrs.a .rw = t := by
      simp only [Core.target, h1, show addrOf (s.now.sReg w.a) = (s.now.sReg w.a).extractLsb' 0 57 from rfl, h4]
    rw [this, h2, h3]
  obtain ⟨u, e, hfo⟩ := runSolo_core (i := i) hp hw hc (g := fun c =>
      let id := c.nextLanding
      let c := c.takeLanding w.lnd.toNat false w.d t (.amo op w.size (s.now.sReg w.b) (s.now.sReg w.c) w.scope (w.ord == 1))
      if w.ord = 1 then { c with stream := c.stream ++ [{ seq := id, tgt := t, kind := .amo id }] } else c)
      (sd := s.now.cr.seed) (nx := none) (fun _ _ _ _ _ _ => by simp only; split <;> rfl) (fun _ => by simp only; split <;> rfl) (fun _ => by simp only; split <;> rfl) (fun u _ => by
        exact hperf _ hva hb hcc hro _)
  refine ⟨u, e, hfo.of_core ?_⟩
  simp only [Core.withAtomic]
  have hq := h.quiet.still
  by_cases ho : w.ord = 1
  · simp only [ho, if_true]
    have := Core.agrees_landing (c := { s.now with stream := s.now.stream ++ [⟨s.now.nextLanding, t, .amo s.now.nextLanding, .no, none⟩] })
      ⟨hq.1, hq.2, hq.3, hq.4, hq.5, hq.6, hq.7⟩ w.lnd.toNat false w.d t (.amo op w.size (s.now.sReg w.b) (s.now.sReg w.c) w.scope true) (s.now.pc + 12)
    exact this
  · simp only [ho, if_false]
    exact Core.agrees_landing hq ..

theorem plain_check (m : OpSem) (s : State) (h5 : m.check5 s s.cur (s.view m) = none) (ha : m.always5 (s.view m) = none) (w : W64) :
    check5 s s.cur [s.soloIssuing m w] = none := by
  simp [check5, State.soloIssuing, ha, h5]

theorem plain_knots (m : OpSem) (s : State) (h1 : m.consumes (s.view m) = []) (h2 : m.mask (s.view m) = []) (h3 : m.produces (s.view m) = none) (w : W64) :
    checkKnots (s.core s.cur) [] [s.soloIssuing m w] = none := by
  simp [checkKnots, knotTest, State.soloIssuing, h1, h2, h3]

theorem plain_wait (m : OpSem) (s : State) (hg : (s.view m).guard m.guard = true) (h1 : m.consumes (s.view m) = []) (h2 : m.mask (s.view m) = []) (h3 : m.queue (s.view m) = none) (w : W64) 
   {n : Nat} (h4 : m.wait s s.cur (s.view m) = some n) (hn : n = 13) :
    waitOf s s.cur [s.soloIssuing m w] = some 13 := by
  subst hn
  simp [waitOf, State.soloIssuing, h1, h2, h3, h4, hg, topFreeze, freezeRank]

theorem endItem_core (c : Core) : c.endItem.item = none := rfl

theorem landAll_landings (l : List Write) (c : Core) : (c.landAll l).landings = c.landings := by
  obtain ⟨_, _, _, _, _, _, _, _, e⟩ := Core.kept_landAll l c
  rw [e]

theorem releaseDrives_eq (c : Core) : ∃ k d, c.releaseDrives = { c with kn := k, drives := d } := by
  have h : ∀ (l : List (BitVec 6)) (c : Core), ∃ k, l.foldl (fun c n => c.finishKnot n true) c = { c with kn := k } := by
    intro l; induction l with
    | nil => intro c; exact ⟨_, rfl⟩
    | cons n l ih => 
      intro c
      obtain ⟨k, e⟩ := Core.kept_finishKnot c n true
      obtain ⟨k', e'⟩ := ih (c.finishKnot n true)
      exact ⟨k', by rw [List.foldl_cons, e', e]⟩
  obtain ⟨k, e⟩ := h (c.drives.filterMap fun d => d.kp) { c with drives := c.drives.map fun d => { d with kp := none } }
  exact ⟨k, _, e⟩

theorem regionEdge_none {c : Core} {id : BitVec 16} {b : Nat} (h : c.regionHit id b = false) : c.regionEdge id b = c := by
  simp only [Core.regionEdge, h, Bool.false_eq_true, if_false]

theorem regionHit_charged {s u : State} (hu : s.Charged u) (id : BitVec 16) (b : Nat) (r : List (BitVec 16)) :
    ({ u.core s.cur with region := r } : Core).regionHit id b = s.now.regionHit id b := by
  obtain ⟨_, _, _, _, _, e⟩ := Core.agrees_iff.mp hu.core
  rw [e]; rfl

theorem modCore_congr (u : State) (k : Nat) {f g : Core → Core} (h : f (u.core k) = g (u.core k)) : u.modCore k f = u.modCore k g := by
  simp only [State.modCore, h]

theorem barFold (l : List Nat) : ∀ (s : State) (k : Nat), ∃ b, (l.foldl (fun s k => s.modCore k fun c => { c with bar := .released }) s).core k = { s.core k with bar := b } := by
  induction l with
  | nil => intro s k; exact ⟨_, rfl⟩
  | cons x l ih =>
    intro s k
    obtain ⟨b, e⟩ := ih (s.modCore x fun c => { c with bar := .released }) k
    rw [List.foldl_cons, e]
    by_cases hx : k = x
    · subst hx; rw [State.core_modCore]; exact ⟨b, rfl⟩
    · rw [State.core_modCore_ne _ _ hx]; exact ⟨b, rfl⟩

theorem leaveGang_core (s : State) (key : Nat) (g : Option Nat) (k : Nat) : ∃ b, (s.leaveGang key g).core k = { s.core k with bar := b } := by
  simp only [State.leaveGang]
  split
  · exact ⟨_, rfl⟩
  · split
    · exact ⟨_, rfl⟩
    · simp only [State.releaseIfAll]
      split
      · exact ⟨_, rfl⟩
      · split
        · exact ⟨_, rfl⟩
        · exact barFold _ _ _

theorem endItem_still {c : Core} (h : c.Still) : c.endItem.landings = [] ∧ c.endItem.pend = [] := by
  have h1 : c.completeStores = c := by
    have : c.pendOrder = [] := by simp [Core.pendOrder, h.pend]
    simp only [Core.completeStores, this, List.filter_nil, List.map_nil, Core.landAll]
    have := h.pend
    cases c; simp only at this; subst this; rfl
  obtain ⟨k, d, e⟩ := releaseDrives_eq c
  simp only [Core.endItem, h1, h.mq, List.length_nil, Core.performAllM, e]
  simp only [Core.dropRefused, h.landings, List.filter_nil, List.map_nil, h.pend, and_self]

theorem completePend_nil {c : Core} (h : c.pend = []) : c.completePend = c := by
  have : c.pendOrder = [] := by simp [Core.pendOrder, h]
  simp only [Core.completePend, this, List.map_nil, Core.landAll]
  cases c; simp only at h; subst h; rfl

theorem trapEntry_quiet {c : Core} (h : c.Quiet) (cause : BitVec 8) (info : W64) :
    c.trapEntry cause info c.pc 1 = c.trapped cause info := by
  simp only [Core.trapEntry, completePend_nil h.pend, h.mq, List.length_nil, Core.performAllM]
  have hd := h.drives; have hl := h.landings; have hf := h.flagOrs; have hr := h.repLeft; have hb := h.bar
  clear h
  cases c with
  | mk bt pc cycle supervisor stopped rs rp rh rk rl kn cr timing region strands spad fe poison sticky pend drives flagOrs landings
      nextLanding mx mq copies nextCopy streamFault l1 refusals stream tracker ranges fmtBits latch repLeft ecc async item saved incoming bar =>
  simp only at hd hl hf hr hb
  subst hd hl hf hr hb
  rfl

theorem takeTrap_quiet {s : State} (hu : s.User) (h : (s.core s.cur).Quiet) (t : TrapReq) (ht : ¬ (t.cause = causeTrapi ∧ t.info.extractLsb' 0 17 = 0xFFF0)) :
    s.takeTrap s.cur t (s.core s.cur).pc 1 = s.setCore s.cur (s.now.trapped t.cause t.info) := by
  have h1 : (s.core s.cur).supervisor = false := hu.2
  have h2 : (s.core s.cur).cr.sys = false := hu.1
  simp only [State.takeTrap, h1, h2, Bool.false_eq_true, if_false, if_neg ht]
  simp only [State.modCore]
  rw [trapEntry_quiet h]; rfl

theorem probe_addr {s : State} (hq : (s.core s.cur).Quiet) (g : Guard) (w : SI) : (s.view (semProbe g w)).addrs.a = s.now.sReg w.a := by
  show View.s _ 1 w.a = _; rw [View.s_quiet (by exact hq)]; rfl

theorem eretResume_agrees {c d : Core} {q : BitVec 57} {l : Latch} (h : d.Agrees { (c.withSeed c.cr.seed).after with pc := q }) (hl : c.latch = some l) (hd : c.drives = [])
    (hlan : c.landings = []) (hf : c.flagOrs = []) :
    d.eretResume.Agrees { c with
        latch := none, bt := l.bt, drives := l.drives, flagOrs := l.flagOrs, chargeTo := none
        repLeft := if c.cr.erep = 0 then none else some c.cr.erep.toNat
        cr := { c.cr with sys := false }, pc := c.cr.epc.extractLsb' 0 57 } := by
  obtain ⟨_, _, _, _, _, rfl⟩ := Core.agrees_iff.mp h
  cases c
  simp only at hl hd hlan hf
  subst hl hd hlan hf
  rfl

end Sys2Proof.Machine
end

