-- ==== Sys2Proof/Laws/Elements.lean ====
section
/-! SUPPORT. The elements of a beat, the beats that lists of elements make, and what a vector operation leaves (05 R152, R157). -/

namespace Sys2Proof.Machine

/-! ### Lists of elements -/

theorem length_splitBits (w : Nat) : ∀ n x, (splitBits w n x).length = n
  | 0, _ => rfl
  | n + 1, x => by rw [splitBits, List.length_cons, length_splitBits w n]

theorem splitBits_eq (w : Nat) : ∀ n x, splitBits w n x = (List.range n).map fun i => x / 2 ^ (w * i) % 2 ^ w
  | 0, _ => rfl
  | n + 1, x => by
    rw [splitBits, splitBits_eq w n, List.range_succ_eq_map, List.map_cons, List.map_map]
    congr 1
    · simp
    · refine List.map_congr_left fun i _ => ?_
      simp only [Function.comp_apply, Nat.shiftRight_eq_div_pow, Nat.div_div_eq_div_mul, ← Nat.pow_add, Nat.succ_eq_add_one]
      rw [show w + w * i = w * (i + 1) by rw [Nat.mul_succ, Nat.add_comm]]

theorem Beat.at_eq (b : Beat) (i : Nat) : b.at i = b.data.toNat / 2 ^ (tagWidth b.tag * i) % 2 ^ tagWidth b.tag := by
  simp only [Beat.at, BitVec.extractLsb'_toNat, Nat.shiftRight_eq_div_pow]

/-- The elements of a beat in order. -/
theorem Beat.elems_eq (b : Beat) : b.elems = (List.range (tagCount b.tag)).map b.at := by
  simp only [Beat.elems, splitBits_eq]
  exact List.map_congr_left fun i _ => (b.at_eq i).symm

/-- Element i of a list of elements side by side, the last of which may be cut by the end of the field. -/
theorem packBits_at (w : Nat) : ∀ (l : List Nat) (i : Nat), packBits w l / 2 ^ (w * i) % 2 ^ w = l.getD i 0 % 2 ^ w
  | [], i => by simp [packBits]
  | x :: l, 0 => by
    simp only [packBits, Nat.shiftLeft_eq, Nat.mul_zero, Nat.pow_zero, Nat.div_one, List.getD_cons_zero]
    rw [Nat.add_mul_mod_self_right, Nat.mod_mod]
  | x :: l, i + 1 => by
    simp only [packBits, Nat.shiftLeft_eq, List.getD_cons_succ]
    rw [show w * (i + 1) = w + w * i by rw [Nat.mul_succ, Nat.add_comm], Nat.pow_add, ← Nat.div_div_eq_div_mul,
      Nat.add_mul_div_right _ _ (Nat.two_pow_pos w), Nat.div_eq_of_lt (Nat.mod_lt _ (Nat.two_pow_pos w)), Nat.zero_add]
    exact packBits_at w l i

/-- A field cut to `n` bits keeps the element that lies wholly below them. -/
theorem cut_at (n w i x : Nat) (h : w * (i + 1) ≤ n) : x % 2 ^ n / 2 ^ (w * i) % 2 ^ w = x / 2 ^ (w * i) % 2 ^ w := by
  obtain ⟨d, hd⟩ := Nat.le.dest h
  have e : n = w * i + (w + d) := by rw [Nat.mul_succ] at hd; omega
  rw [e, Nat.pow_add, Nat.mod_mul_right_div_self, Nat.pow_add, Nat.mod_mul_right_mod]

theorem count_le (t : Tag) (i : Nat) (h : i < tagCount t) : tagWidth t * (i + 1) ≤ 4096 := by
  simp only [tagCount] at h
  split at h
  · next hz =>
    simp only [tagWidth, hz, if_true]
    have hm : zbM t ≤ 8 := by
      simp only [isZ, Bool.and_eq_true, decide_eq_true_eq] at hz
      simp only [zbM]; omega
    generalize zbM t = m at *
    simp only [zbBlocks] at h
    split at h
    · exact Nat.le_trans (Nat.mul_le_mul (by assumption : m ≤ 4) (show i + 1 ≤ 1024 by omega)) (by decide)
    · exact Nat.le_trans (Nat.mul_le_mul hm (show i + 1 ≤ 512 by omega)) (by decide)
  · exact Nat.le_trans (Nat.mul_le_mul_left _ h) (Nat.mul_div_le 4096 _)

/-- A beat made of a tag's elements holds them. -/
theorem tagBeat_holds (t : Tag) (f : Nat → Nat) (l : List Nat) (h : ∀ i, i < tagCount t → l.getD i 0 = f i) : (tagBeat t l).Holds t f := by
  refine ⟨rfl, rfl, fun i hi => ?_⟩
  rw [Beat.at_eq]
  show (BitVec.ofNat 4096 (packBits (tagWidth t) l)).toNat / 2 ^ (tagWidth t * i) % 2 ^ tagWidth t = _
  rw [BitVec.toNat_ofNat, cut_at _ _ _ _ (count_le t i hi), packBits_at, h i hi]

theorem getD_rangeMap {α : Type} (n i : Nat) (f : Nat → α) (d : α) (h : i < n) : ((List.range n).map f).getD i d = f i := by
  simp [List.getD, h]

/-- A beat made of computed elements holds them, and its flags are theirs. -/
theorem beatOf_holds (t : Tag) (l : List (Nat × Flags)) (q : Nat → Nat × Flags) (h : l = (List.range (tagCount t)).map q) :
    (beatOf t l).1.Holds t (fun i => (q i).1) ∧ (beatOf t l).2 = Flags.all ((List.range (tagCount t)).map fun i => (q i).2) := by
  subst h
  refine ⟨tagBeat_holds t _ _ fun i hi => ?_, ?_⟩
  · rw [List.map_map, getD_rangeMap _ _ _ _ hi]; rfl
  · simp only [beatOf, List.map_map]; rfl

/-- Elements of beats of one count pair by pair. -/
theorem zip_elems {a b : Beat} (h : tagCount b.tag = tagCount a.tag) :
    a.elems.zip b.elems = (List.range (tagCount a.tag)).map fun i => (a.at i, b.at i) := by
  rw [Beat.elems_eq, Beat.elems_eq, h, List.zip_map']

theorem mapIdx_rangeMap {α β : Type} (n : Nat) (f : Nat → α) (g : Nat → α → β) :
    ((List.range n).map f).mapIdx g = (List.range n).map fun i => g i (f i) := by
  apply List.ext_getElem
  · simp
  · intro i h1 h2; simp

theorem elems_getD (b : Beat) (i : Nat) (h : i < tagCount b.tag) : b.elems.getD i 0 = b.at i := by
  rw [Beat.elems_eq, getD_rangeMap _ _ _ _ h]

/-! ### Draws (03 R104, R105) -/

theorem draws_eq : ∀ (n : Nat) (x : W64), draws n x = ((List.range n).map fun k => srBits (seedStep (k + 1) x), seedStep n x)
  | 0, _ => rfl
  | n + 1, x => by
    rw [draws, draws_eq n, List.range_succ_eq_map, List.map_cons, List.map_map]
    rfl

theorem drawsFor_seed (s : State) (m : RMode) (n : Nat) : (drawsFor m n s.now.cr.seed).2 = s.seedFor m n := by
  simp only [drawsFor, State.seedFor]; split
  · rw [draws_eq]
  · rfl
theorem drawsFor_getD (s : State) (m : RMode) (n k : Nat) (h : k < n) : (drawsFor m n s.now.cr.seed).1.getD k 0 = s.drawAt m k := by
  simp only [drawsFor, State.drawAt]; split
  · rw [draws_eq]; exact getD_rangeMap _ _ _ _ h
  · rfl
theorem State.seedFor_zero (s : State) (m : RMode) : s.seedFor m 0 = s.now.cr.seed := by simp only [State.seedFor]; split <;> rfl

/-! ### The law of a vector operation -/

/-- The core after a bundle that placed one drive and flags under one bound, and took draws. -/
theorem Core.agrees_vector {c : Core} (h : c.Still) (vs : VSlot) (w : VR) (b : Beat) (f : Flags) (seed : W64) (pc : BitVec 57) :
    ({ ((c.drive (station vs.slot) c.bt w.lat.toNat w.zd (some b)).flagOr w.lat.toNat f).endBundle seed with repLeft := none, pc := pc } : Core).Agrees
      { c.vector vs w b f seed with pc := pc } := by
  obtain ⟨hp, hl, hd, hf, hm, hr, ho⟩ := h
  have hz : ∀ x : Flags, x ||| 0 = x := fun x => BitVec.or_zero
  have hz' : ∀ x : Flags, 0 ||| x = x := fun x => BitVec.zero_or
  cases c with
  | mk bt pc cycle supervisor stopped rs rp rh rk rl kn cr timing region strands spad fe poison sticky pend drives flagOrs landings
      nextLanding mx mq copies nextCopy streamFault l1 refusals stream tracker ranges fmtBits latch repLeft =>
  simp only at hd hl hm hp hf hr ho
  subst hd hl hm hp hf hr ho
  generalize hL : w.lat.toNat = L
  by_cases h0 : L = 0
  · subst h0
    by_cases hf0 : f = 0
    · subst hf0
      rcases vs with _ | _ <;>
      · simp only [Core.vector, hL, Core.drive, Core.driveAt, Core.driveFrom, Core.flagOr, Core.flagsAt, Core.withSeed, Core.after, Core.endBundle,
          Core.makeDue, Core.landDue, Core.countDown, List.filter_nil, List.foldl_nil, List.map_nil, Core.landAll, Flags.all, hz,
          List.nil_append, List.filter_cons, if_false, Core.makeDrive, bne_self_eq_false, Bool.false_eq_true, if_true,
          beq_self_eq_true, VSlot.slot, station, List.foldl_cons, Core.setBeat, Core.unpoison]
        rfl
    · rcases vs with _ | _ <;>
      · simp only [Core.vector, hL, Core.drive, Core.driveAt, Core.driveFrom, Core.flagOr, hf0, Core.flagsAt, Core.withSeed, Core.after, Core.endBundle,
          Core.makeDue, Core.landDue, Core.countDown, List.filter_nil, List.foldl_nil, List.map_nil, List.map_cons, Core.landAll, Flags.all,
          List.nil_append, List.filter_cons, if_false, Core.makeDrive, bne_self_eq_false, Bool.false_eq_true, if_true, hz',
          beq_self_eq_true, VSlot.slot, station, List.foldl_cons, Core.setBeat, Core.unpoison]
        rfl
  · by_cases hf0 : f = 0
    · subst hf0
      rcases vs with _ | _ <;>
      · simp only [Core.vector, hL, Core.drive, Core.driveAt, Core.driveFrom, Core.flagOr, Core.flagsAt, Core.withSeed, Core.after, Core.endBundle,
          Core.makeDue, Core.landDue, Core.countDown, List.filter_nil, List.foldl_nil, List.map_nil, List.map_cons, Core.landAll, Flags.all, hz,
          List.nil_append, List.filter_cons, h0, if_false, bne_iff_ne, ne_eq, not_false_eq_true, if_true, beq_iff_eq, VSlot.slot, station]
        rfl
    · rcases vs with _ | _ <;>
      · simp only [Core.vector, hL, Core.drive, Core.driveAt, Core.driveFrom, Core.flagOr, hf0, Core.flagsAt, Core.withSeed, Core.after, Core.endBundle,
          Core.makeDue, Core.landDue, Core.countDown, List.filter_nil, List.foldl_nil, List.map_nil, List.map_cons, Core.landAll, Flags.all, hz,
          List.nil_append, List.filter_cons, h0, if_false, bne_iff_ne, ne_eq, not_false_eq_true, if_true, beq_iff_eq, VSlot.slot, station]
        rfl

theorem Core.vector_pc (c : Core) (vs : VSlot) (w : VR) (b : Beat) (f : Flags) (seed : W64) : (c.vector vs w b f seed).pc = c.pc + 12 := by
  simp only [Core.vector, Core.after, Core.driveAt, Core.driveFrom, Core.flagsAt, Core.withSeed]
  split <;> split <;> try split
  all_goals rfl

/-- A vector operation that may issue and whose tests pass drives its beat, places its flags and takes its draws; `rd` is what it reads of
registers and beats, which matters to poison alone. -/
theorem vecOp_completesR {vs : VSlot} {op : BitVec 8} {cls : Nat} {g : Guard} {w : VR} {zs : List (BitVec 6)} {test : View → Option TrapReq}
    {count : View → Nat} {f : View → RMode → List Nat → Beat × Flags} {rd : View → List UePlace} {i : Instr} {s : State} {x : W64}
    (h : s.Issues vs.slot g (some (vRow vs, cls, w.lat.toNat))) (hw : i.slotWord = some (vs.slot, x)) (hc : i.check1 = none)
    (ht : test (s.view (vecOp vs op cls g w zs test count f)) = none) {r : Beat × Flags} {n : Nat}
    (hn : count (s.view (vecOp vs op cls g w zs test count f)) = n)
    (hr : f (s.view (vecOp vs op cls g w zs test count f)) (s.vecMode w) (drawsFor (s.vecMode w) n s.now.cr.seed).1 = r) :
    ∃ t, runSolo { vecOp vs op cls g w zs test count f with reads := rd } i s = .next t ∧
      s.Follows t (s.now.vector vs w r.1 r.2 (s.seedFor (s.vecMode w) n)) := by
  have hp : ({ vecOp vs op cls g w zs test count f with reads := rd } : OpSem).Performs s :=
    State.Issues.performs (m := { vecOp vs op cls g w zs test count f with reads := rd }) h (.inr rfl) rfl
      ⟨rfl, rfl, ht, rfl, by simp [vecOp], rfl, by simp [vecOp], by simp [vecOp], rfl, rfl⟩
  obtain ⟨t, e, hf⟩ := runSolo_core (i := i) hp hw hc
    (g := fun c => (c.drive (station vs.slot) (s.core s.cur).bt w.lat.toNat w.zd (some r.1)).flagOr w.lat.toNat r.2)
    (sd := s.seedFor (s.vecMode w) n) (nx := none)
    (Core.Plain.comp (Core.plain_flagOr _ _) (Core.plain_drive _ _ _ _ _)) (fun _ => by simp only [Core.flagOr]; split <;> rfl)
    (fun _ => by simp only [Core.flagOr]; split <;> rfl) (fun u _ => by
      rw [← hr, ← hn, ← drawsFor_seed]
      rfl)
  refine ⟨t, e, hf.of_core (Core.Agrees.trans (Core.agrees_vector h.quiet.still vs w r.1 r.2 _ _) ?_)⟩
  rw [Option.getD_none, show (s.core s.cur).pc + 12 = (s.now.vector vs w r.1 r.2 (s.seedFor (s.vecMode w) n)).pc from (Core.vector_pc ..).symm]
  exact Core.Agrees.refl _

/-- The same of what it reads by its strands. -/
theorem vecOp_completes {vs : VSlot} {op : BitVec 8} {cls : Nat} {g : Guard} {w : VR} {zs : List (BitVec 6)} {test : View → Option TrapReq}
    {count : View → Nat} {f : View → RMode → List Nat → Beat × Flags} {i : Instr} {s : State} {x : W64}
    (h : s.Issues vs.slot g (some (vRow vs, cls, w.lat.toNat))) (hw : i.slotWord = some (vs.slot, x)) (hc : i.check1 = none)
    (ht : test (s.view (vecOp vs op cls g w zs test count f)) = none) {r : Beat × Flags} {n : Nat}
    (hn : count (s.view (vecOp vs op cls g w zs test count f)) = n)
    (hr : f (s.view (vecOp vs op cls g w zs test count f)) (s.vecMode w) (drawsFor (s.vecMode w) n s.now.cr.seed).1 = r) :
    ∃ t, runSolo (vecOp vs op cls g w zs test count f) i s = .next t ∧ s.Follows t (s.now.vector vs w r.1 r.2 (s.seedFor (s.vecMode w) n)) :=
  vecOp_completesR (rd := (vecOp vs op cls g w zs test count f).reads) h hw hc ht hn hr

theorem flags_zero (n : Nat) : Flags.all ((List.range n).map fun _ => (0 : Flags)) = 0 := by
  simp only [Flags.all]
  induction n with
  | zero => rfl
  | succ n ih => rw [List.range_succ, List.map_append, List.foldl_append, ih]; exact BitVec.or_zero

/-- A vector operation that may issue and whose tests pass. -/
theorem vecOp_drives {vs : VSlot} {op : BitVec 8} {cls : Nat} {g : Guard} {w : VR} {zs : List (BitVec 6)} {test : View → Option TrapReq}
    {count : View → Nat} {f : View → RMode → List Nat → Beat × Flags} {i : Instr} {s : State} {x : W64}
    (he : exec i s = runSolo (vecOp vs op cls g w zs test count f) i s)
    (h : s.Issues vs.slot g (some (vRow vs, cls, w.lat.toNat))) (hw : i.slotWord = some (vs.slot, x)) (hc : i.check1 = none)
    (ht : test (s.view (vecOp vs op cls g w zs test count f)) = none) {b : Beat} {fl : Flags} {n : Nat}
    (hn : count (s.view (vecOp vs op cls g w zs test count f)) = n)
    (hr : f (s.view (vecOp vs op cls g w zs test count f)) (s.vecMode w) (drawsFor (s.vecMode w) n s.now.cr.seed).1 = (b, fl)) :
    VectorDrives i s vs w b fl n := by
  obtain ⟨t, e, hf⟩ := vecOp_completes h hw hc ht hn hr
  exact ⟨t, he.trans e, hf⟩

/-- A move that may issue and whose tests pass. -/
theorem movOp_drives {vs : VSlot} {op : BitVec 8} {cls : Nat} {g : Guard} {w : VR} {zs : List (BitVec 6)} {test : View → Option TrapReq}
    {f : View → Beat} {i : Instr} {s : State} {x : W64} (he : exec i s = runSolo (movOp vs op cls g w zs test f) i s)
    (h : s.Issues vs.slot g (some (vRow vs, cls, w.lat.toNat))) (hw : i.slotWord = some (vs.slot, x)) (hc : i.check1 = none)
    (ht : test (s.view (movOp vs op cls g w zs test f)) = none) {b : Beat} (hr : f (s.view (movOp vs op cls g w zs test f)) = b) :
    VectorDrives i s vs w b 0 0 := by
  rw [VectorDrives, Completes, he]
  exact vecOp_completes (f := fun v _ _ => (f v, 0)) h hw hc ht (n := 0) rfl (r := (b, 0)) (by rw [← hr]; rfl)

/-- An operation whose result lists the elements of a tag. -/
theorem vecOp_gives {vs : VSlot} {op : BitVec 8} {cls : Nat} {g : Guard} {w : VR} {zs : List (BitVec 6)} {test : View → Option TrapReq}
    {count : View → Nat} {f : View → RMode → List Nat → Beat × Flags} {i : Instr} {s : State} {x : W64}
    (he : exec i s = runSolo (vecOp vs op cls g w zs test count f) i s)
    (h : s.Issues vs.slot g (some (vRow vs, cls, w.lat.toNat))) (hw : i.slotWord = some (vs.slot, x)) (hc : i.check1 = none)
    (ht : test (s.view (vecOp vs op cls g w zs test count f)) = none) {n : Nat}
    (hn : count (s.view (vecOp vs op cls g w zs test count f)) = n) {t : Tag} {l : List (Nat × Flags)}
    (hr : f (s.view (vecOp vs op cls g w zs test count f)) (s.vecMode w) (drawsFor (s.vecMode w) n s.now.cr.seed).1 = beatOf t l)
    {q : Nat → Nat × Flags} (hl : l = (List.range (tagCount t)).map q) : VectorGives i s vs w t n q := by
  obtain ⟨h1, h2⟩ := beatOf_holds t l q hl
  refine ⟨(beatOf t l).1, h1, ?_⟩
  rw [VectorDrives, Completes, he, ← h2]
  exact vecOp_completes h hw hc ht hn hr

/-- An operation without draws or flags whose result lists the elements of a tag. -/
theorem movOp_gives {vs : VSlot} {op : BitVec 8} {cls : Nat} {g : Guard} {w : VR} {zs : List (BitVec 6)} {test : View → Option TrapReq}
    {f : View → Beat} {i : Instr} {s : State} {x : W64} (he : exec i s = runSolo (movOp vs op cls g w zs test f) i s)
    (h : s.Issues vs.slot g (some (vRow vs, cls, w.lat.toNat))) (hw : i.slotWord = some (vs.slot, x)) (hc : i.check1 = none)
    (ht : test (s.view (movOp vs op cls g w zs test f)) = none) {t : Tag} {l : List Nat}
    (hr : f (s.view (movOp vs op cls g w zs test f)) = tagBeat t l) {q : Nat → Nat}
    (hl : ∀ k, k < tagCount t → l.getD k 0 = q k) : VectorGives i s vs w t 0 fun k => (q k, 0) := by
  refine ⟨tagBeat t l, tagBeat_holds t q l hl, ?_⟩
  rw [flags_zero]
  exact movOp_drives he h hw hc ht hr

/-- A list of checks finds nothing where each finds nothing. -/
theorem firstErr_cons {x : Option WfError} {l : List (Option WfError)} : firstErr (x :: l) = none ↔ x = none ∧ firstErr l = none := by
  cases x <;> simp [firstErr]
theorem code_none {b : Bool} : code b = none ↔ b = true := by cases b <;> simp [code]

theorem firstTrap_nil : firstTrap [] = none := rfl
theorem firstTrap_cons_none (l : List (Option TrapReq)) : firstTrap (none :: l) = firstTrap l := rfl
theorem needTag_ok (v : View) (b : Beat) (n : Nat) {ok : Bool} (h : ok = true) : needTag v b n ok = none := by rw [needTag, if_pos h]
theorem needResult_ok (v : View) (t : Tag) {ok : Bool} (h : ok = true) : needResult v t ok = none := by rw [needResult, if_pos h]
theorem needRange_ok (v : View) {ok : Bool} (h : ok = true) : needRange v ok = none := by rw [needRange, if_pos h]

end Sys2Proof.Machine
end

