-- ==== Sys2Proof/Laws/Vector.lean ====
section
/-! SUPPORT. What the vector operations make of the elements they tap (05 R152 to R182): lemmas the statements about them cite. -/

namespace Sys2Proof.Machine

theorem Core.agrees_driveFrom {c : Core} (h : c.Still) (st slot : Nat) (bound : Nat) (z : BitVec 6) (b : Beat)
    (hs : ∀ (c : Core) bt n b, c.drive st bt n z b =
      { c with drives := c.drives ++ [{ left := n, z := z, ring := ringDrive st bt n, beat := b, slot := slot }] }) (pc : BitVec 57) :
    ({ (c.drive st c.bt bound z (some b)).endBundle c.cr.seed with repLeft := none, pc := pc } : Core).Agrees
      { (c.driveFrom st slot bound z b).after with pc := pc } := by
  obtain ⟨hp, hl, hd, hf, hm, hr, ho⟩ := h
  have hz : ∀ x : Flags, x ||| 0 = x := fun x => BitVec.or_zero
  cases c with
  | mk bt pc cycle supervisor stopped rs rp rh rk rl kn cr timing region strands spad fe poison sticky pend drives flagOrs landings
      nextLanding mx mq copies nextCopy streamFault l1 refusals stream tracker ranges fmtBits latch repLeft =>
  simp only at hd hl hm hp hf hr ho
  subst hd hl hm hp hf hr ho
  simp only [hs]
  by_cases h0 : bound = 0
  · subst h0
    simp only [Core.driveFrom, Core.after, Core.endBundle, Core.makeDue, Core.landDue, Core.countDown, List.filter_nil,
        List.foldl_nil, List.map_nil, Core.landAll, Flags.all, hz, List.nil_append, List.filter_cons, if_false, Core.makeDrive,
        bne_self_eq_false, Bool.false_eq_true, if_true, beq_self_eq_true, List.foldl_cons, Core.setBeat, Core.unpoison]
    rfl
  · simp only [Core.driveFrom, Core.after, Core.endBundle, Core.makeDue, Core.landDue, Core.countDown, List.filter_nil,
        List.foldl_nil, List.map_nil, List.map_cons, Core.landAll, Flags.all, hz, List.nil_append, List.filter_cons, h0, if_false,
        bne_iff_ne, ne_eq, not_false_eq_true, if_true, beq_iff_eq]
    rfl

theorem drive_vld (vs : VSlot) (z : BitVec 6) : ∀ (c : Core) bt n b, c.drive (match vs with | .v0 => 0 | .v1 => 10) bt n z b =
      { c with drives := c.drives ++ [{ left := n, z := z, ring := ringDrive (match vs with | .v0 => 0 | .v1 => 10) bt n, beat := b, slot := match vs with | .v0 => 1 | .v1 => 2 }] } := by
  intro c bt n b
  cases vs <;> rfl

theorem granules_beat (a : Nat) (h : a % 512 = 0) : granules a 512 = (a / 16, 32) := by
  simp only [granules, Prod.mk.injEq, true_and]; omega

theorem get_setFeMap (b : Bool) : ∀ (n g i : Nat) (m : SMap Bool), SMap.get false (setFeMap m g b n) i = if g ≤ i ∧ i < g + n then b else SMap.get false m i
  | 0, g, i, m => by rw [setFeMap, if_neg (by omega)]
  | n + 1, g, i, m => by
    rw [setFeMap, get_setFeMap b n, SMap.get_set]
    by_cases h : i = g
    · subst h; simp
    · by_cases h2 : g ≤ i ∧ i < g + (n + 1)
      · rw [if_pos h2, if_pos (by omega)]
      · rw [if_neg h2, if_neg (by omega), if_neg h]

theorem leBytes_eq (n x : Nat) : leBytes n x = (List.range n).map fun i => BitVec.ofNat 8 (x / 2 ^ (8 * i)) := by
  apply List.ext_getElem
  · simp
  · intro i h1 h2
    have := getD_leBytes n x i (by simpa using h1)
    simp only [List.getD, h1, List.getElem?_eq_getElem, Option.getD_some] at this
    rw [this]; simp

theorem beat_byte (d : Data) (i : Nat) : BitVec.ofNat 8 (d.toNat / 2 ^ (8 * i)) = d.extractLsb' (8 * i) 8 := by
  apply BitVec.eq_of_toNat_eq
  rw [BitVec.extractLsb'_toNat, BitVec.toNat_ofNat, Nat.shiftRight_eq_div_pow]

theorem leNat_byte (l : List Byte) (_ : l.length = 512) (i : Nat) (hi : i < 512) :
    (BitVec.ofNat 4096 (leNat l)).extractLsb' (8 * i) 8 = l.getD i 0 := by
  apply BitVec.eq_of_getLsbD_eq
  intro j hj
  rw [BitVec.getLsbD_extractLsb', BitVec.getLsbD_ofNat, leNat_testBit]
  have h1 : 8 * i + j < 4096 := by omega
  simp only [hj, h1, decide_true, Bool.true_and]
  rw [show (8 * i + j) / 8 = i by omega, show (8 * i + j) % 8 = j by omega]

theorem interleave_getD : ∀ (l m : List Nat) (k : Nat), l.length = m.length → k < 2 * l.length →
    (interleave l m).getD k 0 = if k % 2 = 0 then l.getD (k / 2) 0 else m.getD (k / 2) 0
  | [], _, k, _, h => by simp at h
  | x :: l, [], _, h, _ => by simp at h
  | x :: l, y :: m, 0, _, _ => rfl
  | x :: l, y :: m, 1, _, _ => rfl
  | x :: l, y :: m, k + 2, h, hk => by
    simp only [interleave, List.getD_cons_succ]
    rw [interleave_getD l m k (by simpa using h) (by simp at hk; omega)]
    rw [show (k + 2) % 2 = k % 2 by omega, show (k + 2) / 2 = k / 2 + 1 by omega]
    simp only [List.getD_cons_succ]

theorem evens_getD : ∀ (l : List Nat) (k : Nat), (evens l).getD k 0 = l.getD (2 * k) 0
  | [], k => by simp [evens]
  | [x], 0 => rfl
  | [x], k + 1 => by simp [evens]
  | x :: y :: l, 0 => rfl
  | x :: y :: l, k + 1 => by
    simp only [evens, List.getD_cons_succ, show 2 * (k + 1) = 2 * k + 1 + 1 by omega]
    exact evens_getD l k

theorem evens_length : ∀ (l : List Nat), (evens l).length = (l.length + 1) / 2
  | [] => rfl
  | [x] => by simp [evens]
  | x :: y :: l => by simp only [evens, List.length_cons, evens_length l]; omega

theorem getD_app (l m : List Nat) (k : Nat) : (l ++ m).getD k 0 = if k < l.length then l.getD k 0 else m.getD (k - l.length) 0 := by
  simp only [List.getD]
  split
  · next h => rw [List.getElem?_append_left h]
  · next h => rw [List.getElem?_append_right (Nat.not_lt.mp h)]

theorem getD_drop (l : List Nat) (n k : Nat) : (l.drop n).getD k 0 = l.getD (n + k) 0 := by
  simp [List.getD]

theorem getD_take (l : List Nat) (n k : Nat) (h : k < n) : (l.take n).getD k 0 = l.getD k 0 := by
  simp [List.getD, h]

theorem shuffle_eq (pat rot n : Nat) (l m : List Nat) (hl : l.length = n) (hm : m.length = n) (hn : n % 2 = 0) (k : Nat) (hk : k < n) :
    (shuffle pat rot l m).getD k 0 = match pat with
      | 0 => if k % 2 = 0 then l.getD (k / 2) 0 else m.getD (k / 2) 0
      | 1 => if k % 2 = 0 then l.getD (n / 2 + k / 2) 0 else m.getD (n / 2 + k / 2) 0
      | 2 => if k < n / 2 then l.getD (2 * k) 0 else m.getD (2 * (k - n / 2)) 0
      | 3 => if k < n / 2 then l.getD (2 * k + 1) 0 else m.getD (2 * (k - n / 2) + 1) 0
      | _ => if rot + k < n then l.getD (rot + k) 0 else m.getD (rot + k - n) 0 := by
  match pat with
  | 0 =>
    simp only [shuffle, hl]
    rw [interleave_getD _ _ _ (by simp [hl, hm]) (by simp [hl]; omega)]
    rw [getD_take _ _ _ (by omega), getD_take _ _ _ (by omega)]
  | 1 =>
    simp only [shuffle, hl]
    rw [interleave_getD _ _ _ (by simp [hl, hm]) (by simp [hl]; omega)]
    rw [getD_drop, getD_drop]
  | 2 =>
    simp only [shuffle]
    rw [getD_app, evens_getD, evens_getD, evens_length, hl, show (n + 1) / 2 = n / 2 by omega]
  | 3 =>
    simp only [shuffle]
    rw [getD_app, evens_getD, evens_getD, evens_length, List.length_drop, hl, show (n - 1 + 1) / 2 = n / 2 by omega, getD_drop, getD_drop]
    rw [show 1 + 2 * k = 2 * k + 1 by omega, show 1 + 2 * (k - n / 2) = 2 * (k - n / 2) + 1 by omega]
  | p + 4 =>
    simp only [shuffle, hl]
    rw [getD_take _ _ _ hk, getD_drop, getD_app, hl]

theorem plain_even {t : Tag} (h : isPlainTag t = true) : tagCount t % 2 = 0 := by
  revert h; revert t; decide

theorem sameTags_two (v : View) {a b : Beat} {n m : BitVec 6} (ha : v.z n = a) (hb' : v.z m = b) {ok : Tag → Bool} (h : ok a.tag = true) (hb : b.tag = a.tag) :
    sameTags v ok false [n, m] = none := by
  simp only [sameTags, List.mapIdx_cons, List.mapIdx_nil, ha, hb', hb, List.headD_cons, h, firstTrap, needTag]
  simp

theorem sameNorm_two (v : View) {a b : Beat} {n m : BitVec 6} (ha : v.z n = a) (hb' : v.z m = b) (h : isF a.tag = true) (h2 : isF b.tag = true)
    (hb : normTag b.tag = normTag a.tag) : sameTags v isF true [n, m] = none := by
  simp only [sameTags, List.mapIdx_cons, List.mapIdx_nil, ha, hb', hb, List.headD_cons, h, h2, firstTrap, needTag]
  simp

theorem sameNorm_three (v : View) {a b c : Beat} {n m o : BitVec 6} (ha : v.z n = a) (hb' : v.z m = b) (hc' : v.z o = c) (h : isF a.tag = true)
    (h2 : isF b.tag = true) (hb : normTag b.tag = normTag a.tag) (h3 : isF c.tag = true) (hc : normTag c.tag = normTag a.tag) :
    sameTags v isF true [n, m, o] = none := by
  simp only [sameTags, List.mapIdx_cons, List.mapIdx_nil, ha, hb', hc', hb, hc, List.headD_cons, h, h2, h3, firstTrap, needTag]
  simp

theorem fmtOf_norm (t : Tag) : fmtOf (normTag t) = fmtOf t := by
  simp only [normTag]; split
  · next h => subst h; rfl
  · rfl

theorem count_norm (t : Tag) : tagCount (normTag t) = tagCount t := by
  simp only [normTag]; split
  · next h => subst h; rfl
  · rfl

theorem width_norm (t : Tag) : tagWidth (normTag t) = tagWidth t := by
  simp only [normTag]; split
  · next h => subst h; rfl
  · rfl

/-- The case of TAG and PART of R168. -/
def ArithCase (w : VR) (t r : Tag) (first : Nat) : Prop :=
  (w.tag = 0 ∨ w.tag = t) ∧ w.fn.getLsbD 0 = false ∧ r = t ∧ first = 0 ∨
    w.tag = 0x08 ∧ (t = 0x09 ∨ t = 0x0A) ∧ r = 0x08 ∧ first = (if w.fn.getLsbD 0 then 128 else 0)

theorem ArithCase.result {w : VR} {a r : Tag} {first : Nat} (h : ArithCase w (normTag a) r first) :
    arithResult w a = some (r, first, tagCount r) ∧ (w.fn.getLsbD 0 && r == normTag a) = false ∧ first + tagCount r ≤ tagCount a := by
  rcases h with ⟨h1, h2, rfl, rfl⟩ | ⟨h1, h2, rfl, rfl⟩
  · refine ⟨?_, ?_, ?_⟩
    · simp only [arithResult]; rw [if_pos h1]
    · rw [h2]; rfl
    · rw [count_norm]; omega
  · have hc : tagCount (0x08 : Tag) = 128 := by decide
    have ha : tagCount a = 256 := by rw [← count_norm]; rcases h2 with h | h <;> rw [h] <;> decide
    refine ⟨?_, ?_, ?_⟩
    · simp only [arithResult]
      rw [if_neg, if_pos ⟨h1, h2⟩, hc]
      rw [h1]; rcases h2 with h | h <;> rw [h] <;> decide
    · rw [Bool.and_eq_false_iff]; right; rcases h2 with h | h <;> rw [h] <;> decide
    · rw [hc, ha]; split <;> omega

theorem fpArith_gives {vs : VSlot} {op : BitVec 8} {g : Guard} {w : VR} {zs : List (BitVec 6)} {f : RMode → List Fv → Fv × Flags} {i : Instr}
    {s : State} {x : W64} (he : exec i s = runSolo (fpArith vs op g w zs f) i s)
    (h : s.Issues vs.slot g (some (vRow vs, 3, w.lat.toNat))) (hw : i.slotWord = some (vs.slot, x)) (hc : i.check1 = none)
    {r : Tag} {first : Nat} (hr : ArithCase w (normTag (s.tapped vs w.za).tag) r first)
    (hs : sameTags (s.view (fpArith vs op g w zs f)) isF true zs = none)
    (hz : ∀ n ∈ zs, tagCount (s.tapped vs n).tag = tagCount (s.tapped vs w.za).tag) :
    VectorGives i s vs w r (tagCount r) fun k =>
      let e := f (s.vecMode w) (zs.map fun n => (fmtOf (normTag (s.tapped vs w.za).tag)).value ((s.tapped vs n).at (first + k)))
      let y := round (fmtOf r) (s.vecMode w) (w.sat == 1) (s.drawAt (s.vecMode w) k) e.1
      (y.1, e.2 ||| y.2) := by
  obtain ⟨h1, h2, h3⟩ := hr.result
  have hga : (arithResult w (s.tapped vs w.za).tag).getD (0, 0, 0) = (r, first, tagCount r) := by rw [h1]; rfl
  have ht : firstTrap [sameTags (s.view (fpArith vs op g w zs f)) isF true zs,
      needResult (s.view (fpArith vs op g w zs f)) w.tag (arithResult w (s.tapped vs w.za).tag).isSome,
      needRange (s.view (fpArith vs op g w zs f)) (!(w.fn.getLsbD 0 && ((arithResult w (s.tapped vs w.za).tag).getD (0, 0, 0)).1 == normTag (s.tapped vs w.za).tag))] = none := by
    rw [hs, needResult_ok _ _ (by rw [h1]; rfl), needRange_ok _ (by rw [hga]; exact congrArg not h2)]; rfl
  have hn : ((arithResult w (s.tapped vs w.za).tag).getD (0, 0, 0)).2.2 = tagCount r := by rw [hga]
  have key : ∀ v : View, (∀ n, v.z n = s.tapped vs n) → arithBeat w zs f v (s.vecMode w) (drawsFor (s.vecMode w) (tagCount r) s.now.cr.seed).1 =
      beatOf r ((List.range (tagCount r)).map fun k =>
        let e := f (s.vecMode w) (zs.map fun n => (fmtOf (normTag (s.tapped vs w.za).tag)).value ((s.tapped vs n).at (first + k)))
        let y := round (fmtOf r) (s.vecMode w) (w.sat == 1) (s.drawAt (s.vecMode w) k) e.1
        (y.1, e.2 ||| y.2)) := by
    intro v hv
    simp only [arithBeat, hv, hga]
    congr 1
    refine List.map_congr_left fun k hk => ?_
    have hk : k < tagCount r := by simpa using hk
    have hcol : ((zs.map fun n => ((s.tapped vs n).elems.drop first).take (tagCount r)).map fun c => (fmtOf (s.tapped vs w.za).tag).value (c.getD k 0)) =
        zs.map fun n => (fmtOf (normTag (s.tapped vs w.za).tag)).value ((s.tapped vs n).at (first + k)) := by
      rw [List.map_map]
      refine List.map_congr_left fun n hn => ?_
      rw [fmtOf_norm]
      simp only [Function.comp_apply]
      congr 1
      rw [← elems_getD _ _ (by rw [hz n hn]; omega)]
      simp [List.getD, hk]
    rw [drawsFor_getD _ _ _ _ hk, hcol]
  exact vecOp_gives he h hw hc ht hn (key _ fun _ => rfl) rfl

theorem fpPickV_gives {vs : VSlot} {op : BitVec 8} {g : Guard} {w : VR} {mx : Bool} {i : Instr}
    {s : State} {x : W64} (he : exec i s = runSolo (fpPickV vs op g w mx) i s)
    (h : s.Issues vs.slot g (some (vRow vs, 3, w.lat.toNat))) (hw : i.slotWord = some (vs.slot, x)) (hc : i.check1 = none)
    (ha : isF (s.tapped vs w.za).tag = true) (hb : isF (s.tapped vs w.zb).tag = true) (hbt : normTag (s.tapped vs w.zb).tag = normTag (s.tapped vs w.za).tag) :
    VectorGives i s vs w (normTag (s.tapped vs w.za).tag) 0 fun k =>
      fpMinMax (fmtOf (normTag (s.tapped vs w.za).tag)) mx ((s.tapped vs w.za).at k) ((s.tapped vs w.zb).at k) := by
  have hct : tagCount (normTag (s.tapped vs w.za).tag) = tagCount (s.tapped vs w.za).tag := count_norm _
  have hcb : tagCount (s.tapped vs w.zb).tag = tagCount (s.tapped vs w.za).tag := by rw [← count_norm (s.tapped vs w.zb).tag, hbt]; exact hct
  refine vecOp_gives (t := normTag (s.tapped vs w.za).tag) he h hw hc (sameNorm_two _ rfl rfl ha hb hbt) rfl rfl ?_
  show ((s.tapped vs w.za).elems.zip (s.tapped vs w.zb).elems).map _ = _
  rw [zip_elems hcb, hct, List.map_map]; rfl

theorem fpSign_gives {vs : VSlot} {op : BitVec 8} {g : Guard} {w : VR} {f : Bool → Bool} {i : Instr}
    {s : State} {x : W64} (he : exec i s = runSolo (fpSign vs op g w f) i s)
    (h : s.Issues vs.slot g (some (vRow vs, 0, w.lat.toNat))) (hw : i.slotWord = some (vs.slot, x)) (hc : i.check1 = none)
    (ha : isF (s.tapped vs w.za).tag = true) :
    VectorGives i s vs w (normTag (s.tapped vs w.za).tag) 0 fun k =>
      if ((fmtOf (normTag (s.tapped vs w.za).tag)).value ((s.tapped vs w.za).at k)).isNan then ((fmtOf (normTag (s.tapped vs w.za).tag)).defaultNan, Flags.when ((fmtOf (normTag (s.tapped vs w.za).tag)).value ((s.tapped vs w.za).at k)).isSnan Flags.invalid)
      else ((if f (decide (2 ^ (tagWidth (normTag (s.tapped vs w.za).tag) - 1) ≤ (s.tapped vs w.za).at k)) then 2 ^ (tagWidth (normTag (s.tapped vs w.za).tag) - 1) else 0) + (s.tapped vs w.za).at k % 2 ^ (tagWidth (normTag (s.tapped vs w.za).tag) - 1), 0) := by
  have hct : tagCount (normTag (s.tapped vs w.za).tag) = tagCount (s.tapped vs w.za).tag := count_norm _
  refine vecOp_gives (t := normTag (s.tapped vs w.za).tag) he h hw hc (needTag_ok _ _ _ (by exact ha)) rfl rfl ?_
  show ((s.tapped vs w.za).elems).map _ = _
  rw [Beat.elems_eq, hct, List.map_map]; rfl

theorem VectorGives.congr {i : Instr} {s : State} {vs : VSlot} {w : VR} {t : Tag} {n : Nat} {q q' : Nat → Nat × Flags} (h : VectorGives i s vs w t n q)
    (hq : ∀ k, k < tagCount t → q k = q' k) : VectorGives i s vs w t n q' := by
  obtain ⟨b, hb, hd⟩ := h
  have e : ((List.range (tagCount t)).map fun k => (q k).2) = (List.range (tagCount t)).map fun k => (q' k).2 :=
    List.map_congr_left fun k hk => by rw [hq k (by simpa using hk)]
  rw [e] at hd
  exact ⟨b, ⟨hb.1, hb.2.1, fun k hk => (hb.2.2 k hk).trans (by show (q k).1 % _ = (q' k).1 % _; rw [hq k hk])⟩, hd⟩

theorem vcmp_gives {vs : VSlot} {g : Guard} {w : VR} {s : State}
    (h : s.Issues vs.slot g (some (vRow vs, 1, w.lat.toNat))) (hc : (Instr.vcmp vs g w).check1 = none)
    (ha : isF (s.tapped vs w.za).tag = true) (hb : isF (s.tapped vs w.zb).tag = true) (hbt : normTag (s.tapped vs w.zb).tag = normTag (s.tapped vs w.za).tag) :
    VectorGives (.vcmp vs g w) s vs w (uintTag (tagWidth (normTag (s.tapped vs w.za).tag))) 0 fun k =>
      cmpElem (w.fn.extractLsb' 0 3).toNat (tagWidth (normTag (s.tapped vs w.za).tag))
        ((fmtOf (normTag (s.tapped vs w.za).tag)).value ((s.tapped vs w.za).at k)) ((fmtOf (normTag (s.tapped vs w.za).tag)).value ((s.tapped vs w.zb).at k)) := by
  have hct : tagCount (normTag (s.tapped vs w.za).tag) = tagCount (s.tapped vs w.za).tag := count_norm _
  have hcb : tagCount (s.tapped vs w.zb).tag = tagCount (s.tapped vs w.za).tag := by rw [← count_norm (s.tapped vs w.zb).tag, hbt]; exact hct
  have hcu : tagCount (uintTag (tagWidth (normTag (s.tapped vs w.za).tag))) = tagCount (s.tapped vs w.za).tag := by
    have : ∀ x : Tag, isF x = true → tagCount (uintTag (tagWidth (normTag x))) = tagCount x := by decide
    exact this _ ha
  have he : exec (.vcmp vs g w) s = runSolo (semVcmp vs g w) (.vcmp vs g w) s := rfl
  refine vecOp_gives (i := .vcmp vs g w) (t := uintTag (tagWidth (normTag (s.tapped vs w.za).tag))) he h rfl hc (sameNorm_two _ rfl rfl ha hb hbt) rfl rfl ?_
  show ((s.tapped vs w.za).elems.zip (s.tapped vs w.zb).elems).map _ = _
  rw [zip_elems hcb, hcu, List.map_map]; rfl

theorem rangeElems (b : Beat) (n : Nat) (h : tagCount b.tag = n) : b.elems = (List.range n).map b.at := by rw [Beat.elems_eq, h]

theorem sameTags_three (v : View) {a b c : Beat} {n m o : BitVec 6} (ha : v.z n = a) (hb' : v.z m = b) (hc' : v.z o = c) {ok : Tag → Bool}
    (h : ok a.tag = true) (hb : b.tag = a.tag) (hc : c.tag = a.tag) : sameTags v ok false [n, m, o] = none := by
  simp only [sameTags, List.mapIdx_cons, List.mapIdx_nil, ha, hb', hb, hc', hc, List.headD_cons, h, firstTrap, needTag]
  simp

theorem isI_signed (t : Tag) (h : isI t = true) : isSigned t = decide (t = 2 ∨ t = 4 ∨ t = 6) := by revert h; revert t; decide

theorem isI_width (t : Tag) (h : isI t = true) : tagWidth t = 8 ∨ tagWidth t = 16 ∨ tagWidth t = 32 := by revert h; revert t; decide

theorem signedBits_at (b : Beat) (k : Nat) :
    signedBits (tagWidth b.tag) (b.at k) = (b.data.extractLsb' (tagWidth b.tag * k) (tagWidth b.tag)).toInt := by
  have key : ∀ (n : Nat) (x : BitVec n), signedBits n x.toNat = x.toInt := by
    intro n x
    simp only [signedBits]
    rw [BitVec.toInt_eq_toNat_cond, Nat.mod_eq_of_lt x.isLt]
    norm_cast
  exact key _ _

theorem intOf_at (b : Beat) (k : Nat) (h : isI b.tag = true) : intOf b.tag (b.at k) = b.int k := by
  simp only [intOf, Beat.int, isI_signed _ h, decide_eq_true_eq]
  split
  · exact signedBits_at b k
  · rfl

theorem intResult_eq (t : Tag) (sat : Bool) (x : Int) (h : isI t = true) : intResult t sat x = clamped t sat x := by
  have hlo : (intRange t) = (if t = 2 ∨ t = 4 ∨ t = 6 then -(2 ^ (tagWidth t - 1)) else 0, if t = 2 ∨ t = 4 ∨ t = 6 then 2 ^ (tagWidth t - 1) - 1 else 2 ^ tagWidth t - 1) := by
    simp only [intRange, isI_signed _ h, decide_eq_true_eq]; split <;> rfl
  simp only [intResult, clamped, hlo, wrapTo]
  generalize (if t = 2 ∨ t = 4 ∨ t = 6 then -(2 ^ (tagWidth t - 1)) else (0 : Int)) = lo at *
  have hle : lo ≤ (if t = 2 ∨ t = 4 ∨ t = 6 then 2 ^ (tagWidth t - 1) - 1 else (2 : Int) ^ tagWidth t - 1) := by
    have e1 := congrArg Prod.fst hlo; have e2 := congrArg Prod.snd hlo
    simp only at e1 e2
    rw [← e1, ← e2]
    have : ∀ t : Tag, isI t = true → (intRange t).1 ≤ (intRange t).2 := by decide
    exact this t h
  generalize (if t = 2 ∨ t = 4 ∨ t = 6 then 2 ^ (tagWidth t - 1) - 1 else (2 : Int) ^ tagWidth t - 1) = hi at *
  clear hlo
  cases sat
  · simp
  · simp only [true_and, if_true]
    by_cases h1 : x < lo
    · have e : max lo (min hi x) = lo := by omega
      rw [if_pos (.inl h1), if_pos h1, e, if_neg (by omega)]; rfl
    · by_cases h2 : hi < x
      · have e : max lo (min hi x) = hi := by omega
        rw [if_pos (.inr h2), if_neg h1, e, if_neg (by omega)]; rfl
      · have e : max lo (min hi x) = x := by omega
        rw [if_neg (by omega), e, if_pos rfl]

theorem intArith_gives {vs : VSlot} {op : BitVec 8} {cls : Nat} {g : Guard} {w : VR} {zs : List (BitVec 6)} {f : List Int → Int} {i : Instr}
    {s : State} {x : W64} (he : exec i s = runSolo (intArith vs op cls g w zs f) i s)
    (h : s.Issues vs.slot g (some (vRow vs, cls, w.lat.toNat))) (hw : i.slotWord = some (vs.slot, x)) (hc : i.check1 = none)
    (ha : isI (s.tapped vs w.za).tag = true) (hs : ∀ v : View, (∀ n, v.z n = s.tapped vs n) → sameTags v isI false zs = none)
    (hz : ∀ n ∈ zs, (s.tapped vs n).tag = (s.tapped vs w.za).tag) :
    VectorGives i s vs w (s.tapped vs w.za).tag 0 fun k => clamped (s.tapped vs w.za).tag (w.sat == 1) (f (zs.map fun n => (s.tapped vs n).int k)) := by
  refine vecOp_gives (t := (s.tapped vs w.za).tag) he h hw hc (hs _ fun _ => rfl) rfl rfl ?_
  refine List.map_congr_left fun k hk => ?_
  have hk : k < tagCount (s.tapped vs w.za).tag := List.mem_range.mp hk
  have key : ∀ v : View, (∀ n, v.z n = s.tapped vs n) → intResult (v.z w.za).tag (w.sat == 1) (f ((zs.map fun n => (v.z n).elems).map fun c => intOf (v.z w.za).tag (c.getD k 0))) =
      clamped (s.tapped vs w.za).tag (w.sat == 1) (f (zs.map fun n => (s.tapped vs n).int k)) := by
    intro v hv
    simp only [hv]
    rw [intResult_eq _ _ _ ha, List.map_map]
    congr 2
    refine List.map_congr_left fun n hn => ?_
    simp only [Function.comp_apply]
    rw [elems_getD _ _ (by rw [hz n hn]; exact hk), ← hz n hn, intOf_at _ _ (by rw [hz n hn]; exact ha)]
  exact key _ fun _ => rfl

theorem two_same {s : State} {vs : VSlot} {n m : BitVec 6} (h : (s.tapped vs m).tag = (s.tapped vs n).tag) :
    ∀ k ∈ [n, m], (s.tapped vs k).tag = (s.tapped vs n).tag := by
  intro k hk; simp only [List.mem_cons, List.not_mem_nil, or_false] at hk; rcases hk with rfl | rfl
  · rfl
  · exact h

theorem bitwise_drives {vs : VSlot} {op : BitVec 8} {g : Guard} {w : VR} {f : Data → Data → Data} {i : Instr}
    {s : State} {x : W64} (he : exec i s = runSolo (bitwise vs op g w f) i s)
    (h : s.Issues vs.slot g (some (vRow vs, 1, w.lat.toNat))) (hw : i.slotWord = some (vs.slot, x)) (hc : i.check1 = none)
    (ha : isI (s.tapped vs w.za).tag = true ∨ (s.tapped vs w.za).tag = 0x01) (hb : (s.tapped vs w.zb).tag = (s.tapped vs w.za).tag) :
    ∃ r : Beat, r.tag = (s.tapped vs w.za).tag ∧ r.data = f (s.tapped vs w.za).data (s.tapped vs w.zb).data ∧
      ((s.tapped vs w.za).tag ≠ 0x01 → r.side = 0) ∧ VectorDrives i s vs w r 0 0 := by
  generalize hr : ({ data := f (s.tapped vs w.za).data (s.tapped vs w.zb).data, side := (s.view (bitwise vs op g w f)).openSide (s.tapped vs w.za).tag
                     tag := (s.tapped vs w.za).tag } : Beat) = r
  refine ⟨r, by rw [← hr], by rw [← hr], fun hne => by rw [← hr]; exact if_neg hne, movOp_drives he h hw hc (sameTags_two _ rfl rfl ?_ hb) hr⟩
  rcases ha with ha | ha
  · show (isI (s.tapped vs w.za).tag || _) = true; rw [ha]; rfl
  · show (isI (s.tapped vs w.za).tag || (s.tapped vs w.za).tag == 0x01) = true; rw [ha]; rfl

theorem shiftOp_gives {vs : VSlot} {op : BitVec 8} {g : Guard} {w : VR} {f : Nat → Nat → Nat → Nat} {i : Instr}
    {s : State} {x : W64} (he : exec i s = runSolo (shiftOp vs op g w f) i s)
    (h : s.Issues vs.slot g (some (vRow vs, 1, w.lat.toNat))) (hw : i.slotWord = some (vs.slot, x)) (hc : i.check1 = none)
    (ha : isI (s.tapped vs w.za).tag = true) :
    VectorGives i s vs w (s.tapped vs w.za).tag 0 fun k =>
      (f (tagWidth (s.tapped vs w.za).tag) (w.fn.extractLsb' 0 5).toNat ((s.tapped vs w.za).at k), 0) := by
  refine movOp_gives (t := (s.tapped vs w.za).tag) he h hw hc (needTag_ok _ _ _ (by exact ha)) (l := (s.tapped vs w.za).elems.map fun x => f (tagWidth (s.tapped vs w.za).tag) (w.fn.extractLsb' 0 5).toNat x)
    rfl (q := fun k => f (tagWidth (s.tapped vs w.za).tag) (w.fn.extractLsb' 0 5).toNat ((s.tapped vs w.za).at k)) fun k hk => ?_
  rw [Beat.elems_eq, List.map_map, getD_rangeMap _ _ _ _ hk]; rfl

theorem vicmp_gives {vs : VSlot} {g : Guard} {w : VR} {s : State}
    (h : s.Issues vs.slot g (some (vRow vs, 1, w.lat.toNat))) (hc : (Instr.vicmp vs g w).check1 = none)
    (ha : isI (s.tapped vs w.za).tag = true) (hb : (s.tapped vs w.zb).tag = (s.tapped vs w.za).tag) :
    VectorGives (.vicmp vs g w) s vs w (uintTag (tagWidth (s.tapped vs w.za).tag)) 0 fun k =>
      (maskElem (tagWidth (s.tapped vs w.za).tag) (relOf (w.fn.extractLsb' 0 3).toNat (compare ((s.tapped vs w.za).int k) ((s.tapped vs w.zb).int k))), 0) := by
  have hcu : tagCount (uintTag (tagWidth (s.tapped vs w.za).tag)) = tagCount (s.tapped vs w.za).tag := by
    have : ∀ x : Tag, isI x = true → tagCount (uintTag (tagWidth x)) = tagCount x := by decide
    exact this _ ha
  have he : exec (.vicmp vs g w) s = runSolo (semVicmp vs g w) (.vicmp vs g w) s := rfl
  refine movOp_gives (i := .vicmp vs g w) (t := uintTag (tagWidth (s.tapped vs w.za).tag)) he h rfl hc (sameTags_two _ rfl rfl ha hb)
    (l := ((s.tapped vs w.za).elems.zip (s.tapped vs w.zb).elems).map fun q => maskElem (tagWidth (s.tapped vs w.za).tag) (relOf (w.fn.extractLsb' 0 3).toNat (compare (intOf (s.tapped vs w.za).tag q.1) (intOf (s.tapped vs w.za).tag q.2)))) (by
      have key : ∀ v : View, (∀ n, v.z n = s.tapped vs n) → tagBeat (uintTag (tagWidth (v.z w.za).tag)) (((v.z w.za).elems.zip (v.z w.zb).elems).map fun q =>
          maskElem (tagWidth (v.z w.za).tag) (relOf (w.fn.extractLsb' 0 3).toNat (compare (intOf (v.z w.za).tag q.1) (intOf (v.z w.za).tag q.2)))) =
          tagBeat (uintTag (tagWidth (s.tapped vs w.za).tag)) (((s.tapped vs w.za).elems.zip (s.tapped vs w.zb).elems).map fun q => maskElem (tagWidth (s.tapped vs w.za).tag) (relOf (w.fn.extractLsb' 0 3).toNat (compare (intOf (s.tapped vs w.za).tag q.1) (intOf (s.tapped vs w.za).tag q.2)))) := by
        intro v hv; simp only [hv]
      exact key _ fun _ => rfl)
    (q := fun k => maskElem (tagWidth (s.tapped vs w.za).tag) (relOf (w.fn.extractLsb' 0 3).toNat (compare ((s.tapped vs w.za).int k) ((s.tapped vs w.zb).int k)))) fun k hk => ?_
  rw [zip_elems (by rw [hb]), List.map_map, getD_rangeMap _ _ _ _ (by rw [← hcu]; exact hk)]
  simp only [Function.comp_apply]
  rw [intOf_at _ _ ha, ← hb, intOf_at _ _ (by rw [hb]; exact ha)]

theorem relOf_int (x y : Int) : relOf 0 (compare x y) = decide (x = y) ∧ relOf 1 (compare x y) = decide (x ≠ y) ∧ relOf 2 (compare x y) = decide (x < y) ∧
    relOf 3 (compare x y) = decide (x ≤ y) ∧ relOf 4 (compare x y) = decide (x > y) ∧ relOf 5 (compare x y) = decide (x ≥ y) := by
  rcases Int.lt_trichotomy x y with h | h | h
  · rw [Int.compare_eq_lt.mpr h]
    refine ⟨?_, ?_, ?_, ?_, ?_, ?_⟩ <;> (symm; first | exact decide_eq_true (by omega) | exact decide_eq_false (by omega))
  · rw [Int.compare_eq_eq.mpr h]
    refine ⟨?_, ?_, ?_, ?_, ?_, ?_⟩ <;> (symm; first | exact decide_eq_true (by omega) | exact decide_eq_false (by omega))
  · rw [Int.compare_eq_gt.mpr h]
    refine ⟨?_, ?_, ?_, ?_, ?_, ?_⟩ <;> (symm; first | exact decide_eq_true (by omega) | exact decide_eq_false (by omega))

theorem emod_bits (x : Nat) (w : Nat) : (((x : Int) % 2 ^ w).toNat) = x % 2 ^ w := by
  have : ((x : Int) % 2 ^ w) = ((x % 2 ^ w : Nat) : Int) := by push_cast; rfl
  rw [this]; rfl

end Sys2Proof.Machine
end

