-- ==== Sys2Proof/Laws/Convert.lean ====
section
/-! SUPPORT. conversions, quantisation and the parts of a beat -/

namespace Sys2Proof.Machine

theorem rangePart {α : Type} (f : Nat → α) (N a n : Nat) (h : a + n ≤ N) :
    (((List.range N).map f).drop a).take n = (List.range n).map fun j => f (a + j) := by
  apply List.ext_getElem
  · simp; omega
  · intro i h1 h2; simp

theorem flatMap_range {α : Type} (g : Nat → Nat → α) : ∀ n : Nat, ((List.range n).flatMap fun i => (List.range 16).map (g i)) = (List.range (16 * n)).map fun j => g (j / 16) (j % 16)
  | 0 => rfl
  | n + 1 => by
    rw [List.range_succ (n := n), List.flatMap_append, flatMap_range g n, show 16 * (n + 1) = 16 * n + 16 by omega, List.range_add, List.map_append, List.map_map]
    congr 1
    simp only [List.flatMap_cons, List.flatMap_nil, List.append_nil]
    refine List.map_congr_left fun j hj => ?_
    have : j < 16 := List.mem_range.mp hj
    simp only [Function.comp_apply]
    rw [show (16 * n + j) / 16 = n by omega, show (16 * n + j) % 16 = j by omega]

theorem values_eq (b : Beat) : b.values = (List.range (tagCount b.tag)).map b.valueAt := by
  simp only [Beat.values]
  by_cases hz : isZ b.tag = true
  · rw [if_pos hz, Beat.blocks, List.flatMap_map]
    have := flatMap_range (fun i j => (b.blk (zbM b.tag) i).value (zbM b.tag) j) (zbBlocks (zbM b.tag))
    rw [this, tagCount, if_pos hz]
    refine List.map_congr_left fun j _ => ?_
    simp only [Beat.valueAt, hz, if_true]
  · rw [if_neg hz, Beat.elems_eq]
    simp only [List.map_map]
    split
    · next hi =>
      refine List.map_congr_left fun j _ => ?_
      simp only [Function.comp_apply, Beat.valueAt, hz, hi, if_true]
      rw [intOf_at _ _ hi]; rfl
    · next hi =>
      split
      · next h18 =>
        refine List.map_congr_left fun j _ => ?_
        simp only [Function.comp_apply, Beat.valueAt, h18, if_true]
        simp only [scaleValue]
        rfl
      · next h18 =>
        refine List.map_congr_left fun j _ => ?_
        simp only [Function.comp_apply, Beat.valueAt, hz, hi, h18, if_false]
        rfl

theorem values_part (b : Beat) (first n : Nat) (h : first + n ≤ tagCount b.tag) :
    (b.values.drop first).take n = (List.range n).map fun j => b.valueAt (first + j) := by
  rw [values_eq, rangePart _ _ _ _ h]

theorem groupsOf_eq {α : Type} : ∀ (k : Nat) (l : List α), groupsOf 16 k l = (List.range k).map fun i => (l.drop (16 * i)).take 16
  | 0, _ => rfl
  | k + 1, l => by
    rw [groupsOf, groupsOf_eq k, List.range_succ_eq_map, List.map_cons, List.map_map]
    congr 1
    refine List.map_congr_left fun i _ => ?_
    simp only [Function.comp_apply, List.drop_drop]
    rw [show 16 + 16 * i = 16 * i.succ by omega]

/-- The values of a part of a beat in groups of sixteen. -/
theorem groups_part (b : Beat) (first n : Nat) (h : first + n ≤ tagCount b.tag) (h16 : n % 16 = 0) :
    groupsOf 16 (n / 16) ((b.values.drop first).take n) = (List.range (n / 16)).map fun i => (List.range 16).map fun j => b.valueAt (first + 16 * i + j) := by
  rw [values_part _ _ _ h, groupsOf_eq]
  refine List.map_congr_left fun i hi => ?_
  have hi : i < n / 16 := List.mem_range.mp hi
  rw [rangePart _ _ _ _ (by omega)]
  refine List.map_congr_left fun j _ => ?_
  rw [Nat.add_assoc]

theorem quantGroups_eq (srcMax : Nat → Dy) (m : Nat) (mode : RMode) (sat force : Bool) (lo : Nat → Option Nat) (ds : List Nat) (x : Nat → List Fv) :
    ∀ (k i : Nat), quantGroups srcMax m mode sat force lo ds i ((List.range k).map fun j => x (i + j)) =
      (List.range k).map fun j => match lo (i + j) with
        | none => (nanBlock, 0)
        | some e => quantiseBlock (srcMax (i + j)) (x (i + j)) m mode sat force e ((ds.drop (16 * (i + j))).take 16)
  | 0, _ => rfl
  | k + 1, i => by
    rw [List.range_succ_eq_map, List.map_cons, List.map_cons, List.map_map, List.map_map, quantGroups]
    have h := quantGroups_eq srcMax m mode sat force lo ds x k (i + 1)
    have e : (List.range k).map ((fun j => x (i + j)) ∘ Nat.succ) = (List.range k).map fun j => x (i + 1 + j) :=
      List.map_congr_left fun j _ => by simp only [Function.comp_apply]; rw [show i + j.succ = i + 1 + j by omega]
    rw [e, h]
    congr 1
    refine List.map_congr_left fun j _ => ?_
    simp only [Function.comp_apply]; rw [show i + j.succ = i + 1 + j by omega]

theorem blockDraws_eq (s : State) (m : RMode) (n i : Nat) (h : 16 * i + 16 ≤ n) :
    (((drawsFor m n s.now.cr.seed).1.drop (16 * i)).take 16) = s.blockDraws m i := by
  simp only [State.blockDraws, drawsFor, State.drawAt]
  split
  · rw [draws_eq, rangePart _ _ _ _ h]
  · simp

theorem spliceAt_range {α : Type} (f g : Nat → α) (N a k : Nat) (h : a + k ≤ N) :
    spliceAt ((List.range N).map f) a ((List.range k).map g) = (List.range N).map fun i => if a ≤ i ∧ i < a + k then g (i - a) else f i := by
  have e : spliceAt ((List.range N).map f) a ((List.range k).map g) =
      ((List.range N).map f).take a ++ ((List.range k).map g ++ ((List.range N).map f).drop (a + k)) := by
    rw [spliceAt, List.append_assoc, List.length_map, List.length_range]
  rw [e]
  apply List.ext_getElem
  · simp; omega
  · intro i h1 h2
    simp only [List.getElem_map, List.getElem_range]
    by_cases c1 : i < a
    · rw [List.getElem_append_left (by simp; omega)]
      simp only [List.getElem_take, List.getElem_map, List.getElem_range]; rw [if_neg (by omega)]
    · rw [List.getElem_append_right (by simp; omega)]
      by_cases c2 : i < a + k
      · rw [List.getElem_append_left (by simp; omega), if_pos ⟨by omega, c2⟩]
        simp only [List.length_take, List.length_map, List.length_range, List.getElem_map, List.getElem_range]; congr 1; omega
      · rw [List.getElem_append_right (by simp; omega), if_neg (by omega)]
        simp; congr 1; omega

theorem Placed.place {ns nd h first dst n : Nat} (p : Placed ns nd h first dst n) : placeOf ns nd h = some (first, dst, n) := by
  rcases p with ⟨h1, h2, rfl, rfl, rfl⟩ | ⟨h1, h2, rfl, rfl, rfl⟩ | ⟨rfl, rfl, rfl, rfl, rfl⟩
  · simp [placeOf, h1, h2]
  · simp [placeOf, h1, h2]; omega
  · simp [placeOf]

theorem part_le {a h b : Nat} (h1 : h < a / b) : h * b + b ≤ a := by
  have : (h + 1) * b ≤ a := Nat.le_trans (Nat.mul_le_mul_right b h1) (Nat.div_mul_le_self a b)
  rwa [Nat.add_mul, Nat.one_mul] at this

theorem Placed.bounds {ns nd h first dst n : Nat} (p : Placed ns nd h first dst n) (h1 : ns % 16 = 0) (h2 : nd % 16 = 0) :
    first + n ≤ ns ∧ dst + n ≤ nd ∧ n % 16 = 0 ∧ dst % 16 = 0 ∧ first % 16 = 0 := by
  rcases p with ⟨c1, c2, rfl, rfl, rfl⟩ | ⟨c1, c2, rfl, rfl, rfl⟩ | ⟨rfl, rfl, rfl, rfl, rfl⟩
  · exact ⟨part_le c2, by omega, h2, rfl, by rw [Nat.mul_mod, h2]; rfl⟩
  · exact ⟨by omega, part_le c2, h1, by rw [Nat.mul_mod, h1]; rfl, rfl⟩
  · exact ⟨by omega, by omega, h1, rfl, rfl⟩

theorem isZ_count16 {t : Tag} (h : isZ t = true) : tagCount t % 16 = 0 ∧ tagCount t / 16 = zbBlocks (zbM t) := by
  revert h; revert t; decide

theorem cvt_dest {a d : Tag} (h : cvtPair a d = true) : isZ d = true ∨ isF d = true ∨ isF8 d = true ∨ isI d = true := by
  simp only [cvtPair, Bool.or_eq_true, Bool.and_eq_true, beq_iff_eq] at h
  rcases h with ((⟨_, (h | h) | h⟩ | ⟨_, h | h⟩) | ⟨_, h⟩) | ⟨_, h⟩
  · rcases h with h | h
    · exact .inr (.inl h.1)
    · exact .inr (.inr (.inl h))
  · exact .inr (.inr (.inr h))
  · exact .inl h
  · rcases h with h | h
    · exact .inr (.inl h.1)
    · exact .inr (.inr (.inl h))
  · exact .inr (.inr (.inr h))
  · rcases h with h | h
    · exact .inr (.inl h.1)
    · exact .inr (.inr (.inl h))
  · rw [h]; exact .inr (.inl rfl)

theorem cvt_source {a d : Tag} (h : cvtPair a d = true) : (isF a || isF8 a || isI a || isZ a || a == 0x18) = true := by
  simp only [cvtPair, Bool.or_eq_true, Bool.and_eq_true] at h ⊢
  rcases h with ((⟨h | h, _⟩ | ⟨h, _⟩) | ⟨h, _⟩) | ⟨h, _⟩
  · exact .inl (.inl (.inl (.inl h)))
  · exact .inl (.inl (.inl (.inr h)))
  · exact .inl (.inl (.inr h))
  · exact .inl (.inr h)
  · exact .inr h

theorem cvt_count16 {a d : Tag} (h : cvtPair a d = true) : tagCount a % 16 = 0 ∧ tagCount d % 16 = 0 := by
  have h1 : ∀ a : Tag, (isF a || isF8 a || isI a || isZ a || a == 0x18) = true → tagCount a % 16 = 0 := by decide
  have h2 : ∀ a : Tag, isZ a = true ∨ isF a = true ∨ isF8 a = true ∨ isI a = true → tagCount a % 16 = 0 := by decide
  exact ⟨h1 a (cvt_source h), h2 d (cvt_dest h)⟩

theorem elems_part (b : Beat) (first n : Nat) (h : first + n ≤ tagCount b.tag) :
    (b.elems.drop first).take n = (List.range n).map fun j => b.at (first + j) := by
  rw [Beat.elems_eq, rangePart _ _ _ _ h]

/-- The merge of converted blocks. -/
theorem placeBlocks_eq (v : View) (w : VR) {c : Beat} (hc : v.z w.zc = c) (dst n : Nat) (q : Nat → Blk) (hz : isZ w.tag = true) (h : dst + n ≤ tagCount w.tag) (hd : dst % 16 = 0)
    (hn : n % 16 = 0) (hct : vrZm w = true ∨ c.tag = w.tag) :
    placeBlocks v w (dst / 16) ((List.range (n / 16)).map q) =
      { zbBeat (zbM w.tag) ((List.range (zbBlocks (zbM w.tag))).map fun k =>
          if dst / 16 ≤ k ∧ k < dst / 16 + n / 16 then q (k - dst / 16) else if vrZm w then zeroBlock else c.blk (zbM w.tag) k) with tag := w.tag } := by
  have hB := (isZ_count16 hz).2
  have hle : dst / 16 + n / 16 ≤ zbBlocks (zbM w.tag) := by rw [← hB]; omega
  simp only [placeBlocks]
  by_cases hm : vrZm w = true
  · simp only [hm, if_true]
    have : List.replicate (zbBlocks (zbM w.tag)) zeroBlock = (List.range (zbBlocks (zbM w.tag))).map fun _ => zeroBlock := by
      rw [List.map_const', List.length_range]
    rw [this, spliceAt_range _ _ _ _ _ hle]
  · have hct := hct.resolve_left hm
    simp only [hm, Bool.false_eq_true, if_false, hc]
    rw [Beat.blocks, hct, spliceAt_range _ _ _ _ _ hle]

theorem byte_at (x : Data) (i : Nat) : x.toNat >>> (8 * i) % 256 = (x.extractLsb' (8 * i) 8).toNat := by
  rw [BitVec.extractLsb'_toNat]

/-- The merge test passes. -/
theorem mergeTest_ok (v : View) (w : VR) (c : Beat) (hc : v.z w.zc = c) (hz : isZ w.tag = true ∨ isF w.tag = true ∨ isF8 w.tag = true ∨ isI w.tag = true) (h : vrZm w = true ∨ c.tag = w.tag) :
    mergeTest v w = none := by
  simp only [mergeTest]
  split
  · rfl
  · next hm =>
    refine needTag_ok _ _ _ ?_
    rw [hc, h.resolve_left hm]
    have : ∀ (k : Core) (t : Tag), isZ t = true ∨ isF t = true ∨ isF8 t = true ∨ isI t = true → (k.tagKnown t && t == t) = true := by
      intro k t h
      have hn : isNative t = true := by revert h; revert t; decide
      simp [Core.tagKnown, hn]
    exact this _ _ hz

/-- Groups quantised and merged. -/
theorem quantPlace_eq (s : State) (v : View) (w : VR) {c : Beat} (hcz : v.z w.zc = c) (srcMax : Nat → Dy) (m : RMode) (sat force : Bool) (lo : Nat → Option Nat)
    (x : Nat → List Fv) (dst n N : Nat) (hz : isZ w.tag = true) (h : dst + n ≤ tagCount w.tag) (hd : dst % 16 = 0) (hn : n % 16 = 0) (hN : n ≤ N)
    (hct : vrZm w = true ∨ c.tag = w.tag) (Q : Nat → Blk × Flags)
    (hQ : ∀ i, i < n / 16 → Q i = match lo i with
      | none => (nanBlock, 0)
      | some e => quantiseBlock (srcMax i) (x i) (zbM w.tag) m sat force e (s.blockDraws m i)) :
    let r := quantGroups srcMax (zbM w.tag) m sat force lo (drawsFor m N s.now.cr.seed).1 0 ((List.range (n / 16)).map x)
    ((placeBlocks v w (dst / 16) (r.map fun q => q.1), Flags.all (r.map fun q => q.2)) : Beat × Flags) =
      ({ zbBeat (zbM w.tag) ((List.range (zbBlocks (zbM w.tag))).map fun k =>
          if dst / 16 ≤ k ∧ k < dst / 16 + n / 16 then (Q (k - dst / 16)).1 else if vrZm w then zeroBlock else c.blk (zbM w.tag) k) with tag := w.tag },
       Flags.all ((List.range (n / 16)).map fun k => (Q k).2)) := by
  intro r
  have hr : r = (List.range (n / 16)).map Q := by
    have e := quantGroups_eq srcMax (zbM w.tag) m sat force lo (drawsFor m N s.now.cr.seed).1 x (n / 16) 0
    simp only [Nat.zero_add] at e
    refine e.trans (List.map_congr_left fun i hi => ?_)
    have hi : i < n / 16 := List.mem_range.mp hi
    rw [hQ i hi, blockDraws_eq s m N i (by omega)]
  rw [hr, List.map_map, List.map_map]
  have := placeBlocks_eq v w hcz dst n (fun i => (Q i).1) hz h hd hn hct
  exact Prod.ext this rfl

end Sys2Proof.Machine
end

