-- ==== Sys2Proof/Laws/Reduce.lean ====
section
/-! SUPPORT. the header, scale and reduction operations of a vector slot -/

namespace Sys2Proof.Machine

theorem bytes_eq (b : Beat) : b.bytes = (List.range 512).map b.byte := by
  rw [Beat.bytes, splitBits_eq]
  refine List.map_congr_left fun i _ => ?_
  rw [Beat.byte, BitVec.extractLsb'_toNat, Nat.shiftRight_eq_div_pow]

theorem sideBytes_eq (b : Beat) : b.sideBytes = (List.range 128).map b.sideByte := by
  rw [Beat.sideBytes, splitBits_eq]
  refine List.map_congr_left fun i _ => ?_
  rw [Beat.sideByte, BitVec.extractLsb'_toNat, Nat.shiftRight_eq_div_pow]

theorem headerLen_le (t : Tag) (h : isZ t = true) : headerLen t ≤ 128 ∧ zbM t * headerLen t ≤ 512 := by revert h; revert t; decide

/-- VSCGET reads the header bytes into a beat of bytes. -/
theorem vscget_holds (a b : Beat) (q n : Nat) (h : q + n ≤ 512) (hn : n ≤ 128) :
    (elemBeat 8 0x01 (spliceAt b.bytes q (a.sideBytes.take n))).Holds 0x01
      (fun i => if q ≤ i ∧ i < q + n then a.sideByte (i - q) else b.byte i) := by
  rw [bytes_eq, sideBytes_eq, show ((List.range 128).map a.sideByte).take n = (List.range n).map a.sideByte from ?_, spliceAt_range _ _ _ _ _ h]
  · exact tagBeat_holds 0x01 _ _ fun k hk => getD_rangeMap _ _ _ _ hk
  · have := rangePart a.sideByte 128 0 n (by omega)
    simpa using this

theorem low_bits (n m x : Nat) (h : 8 * m ≤ n) (i : Nat) (_ : 8 * i + 8 ≤ n) :
    ((BitVec.ofNat n (x % 2 ^ (8 * m))).extractLsb' (8 * i) 8).toNat = if i < m then x / 2 ^ (8 * i) % 256 else 0 := by
  rw [BitVec.extractLsb'_toNat, BitVec.toNat_ofNat, Nat.shiftRight_eq_div_pow, Nat.mod_eq_of_lt (a := x % 2 ^ (8 * m)) (b := 2 ^ n)
    (Nat.lt_of_lt_of_le (Nat.mod_lt _ (Nat.two_pow_pos _)) (Nat.pow_le_pow_right (by decide) h))]
  split
  · exact cut_at (8 * m) 8 i x (by omega)
  · rw [Nat.div_eq_of_lt]
    exact Nat.lt_of_lt_of_le (Nat.mod_lt _ (Nat.two_pow_pos _)) (Nat.pow_le_pow_right (by decide) (by omega))

/-- VSCSET's beat. -/
theorem vscset_bytes (a b : Beat) (t : Tag) (q : Nat) (hz : isZ t = true) (_ : q + headerLen t ≤ 512) :
    let r : Beat := { data := BitVec.ofNat 4096 (a.data.toNat % 2 ^ (8 * (2 * zbM t * zbBlocks (zbM t))))
                      side := BitVec.ofNat 1024 (b.data.toNat >>> (8 * q) % 2 ^ (8 * headerLen t)), tag := t }
    (∀ i, i < 512 → r.byte i = if i < zbM t * headerLen t then a.byte i else 0) ∧
      ∀ i, i < 128 → r.sideByte i = if i < headerLen t then b.byte (q + i) else 0 := by
  obtain ⟨h1, h2⟩ := headerLen_le t hz
  have e : 2 * zbM t * zbBlocks (zbM t) = zbM t * headerLen t := by rw [headerLen, Nat.mul_comm 2, Nat.mul_assoc]
  refine ⟨fun i hi => ?_, fun i hi => ?_⟩
  · show ((BitVec.ofNat 4096 (_ % 2 ^ (8 * _))).extractLsb' (8 * i) 8).toNat = _
    rw [e, low_bits _ _ _ (by omega) _ (by omega), Beat.byte, BitVec.extractLsb'_toNat, Nat.shiftRight_eq_div_pow]
  · show ((BitVec.ofNat 1024 (_ % 2 ^ (8 * _))).extractLsb' (8 * i) 8).toNat = _
    rw [low_bits _ _ _ (by omega) _ (by omega), Beat.byte, BitVec.extractLsb'_toNat, Nat.shiftRight_eq_div_pow, Nat.shiftRight_eq_div_pow,
      Nat.div_div_eq_div_mul, ← Nat.pow_add, Nat.mul_add]

/-- VSCADD of a block, the flags apart. -/
theorem scaleBlock_eq (m : Nat) (n : Int) (w : VR) (x : Blk) :
    scaleBlock m n (w.sat == 1) x =
      (if x.e = 0 ∨ x.e = 255 then x
        else if 254 < (x.e : Int) + n then
          if w.sat = 1 then ⟨254, 0, x.ms.map fun y => if 0 < y then 2 ^ (m - 1) - 1 else if y < 0 then -(2 ^ (m - 1)) else 0⟩ else nanBlock
        else if (x.e : Int) + n < 1 then zeroBlock else { x with e := ((x.e : Int) + n).toNat },
       if x.e = 0 ∨ x.e = 255 then 0 else if 254 < (x.e : Int) + n then 2 ||| 8
        else if (x.e : Int) + n < 1 then (if x.ms.any fun y => y != 0 then 4 ||| 8 else 0) else 0) := by
  simp only [scaleBlock, beq_iff_eq]
  by_cases h1 : x.e = 0 ∨ x.e = 255
  · simp only [h1, if_true]
  · by_cases h2 : 254 < (x.e : Int) + n
    · simp only [h1, h2, if_true, if_false]; rfl
    · by_cases h3 : (x.e : Int) + n < 1
      · simp only [h1, h2, h3, if_true, if_false]; rfl
      · simp only [h1, h2, h3, if_false]

theorem Core.agrees_flagsAt {c : Core} (h : c.Still) (n : Nat) (f : Flags) (pc : BitVec 57) :
    ({ (c.flagOr n f).endBundle c.cr.seed with repLeft := none, pc := pc } : Core).Agrees { (c.flagsAt n f).after with pc := pc } := by
  obtain ⟨hp, hl, hd, hf, hm, hr, ho⟩ := h
  have hz : ∀ x : Flags, x ||| 0 = x := fun x => BitVec.or_zero
  have hz' : ∀ x : Flags, 0 ||| x = x := fun x => BitVec.zero_or
  cases c with
  | mk bt pc cycle supervisor stopped rs rp rh rk rl kn cr timing region strands spad fe poison sticky pend drives flagOrs landings
      nextLanding mx mq copies nextCopy streamFault l1 refusals stream tracker ranges fmtBits latch repLeft =>
  simp only at hd hl hm hp hf hr ho
  subst hd hl hm hp hf hr ho
  by_cases hf0 : f = 0
  · subst hf0
    simp only [Core.flagOr, Core.flagsAt, Core.after, Core.endBundle, Core.makeDue, Core.landDue, Core.countDown, List.filter_nil,
      List.foldl_nil, List.map_nil, Core.landAll, Flags.all, hz, if_true]
    rfl
  · by_cases h0 : n = 0
    · subst h0
      simp only [Core.flagOr, Core.flagsAt, Core.after, Core.endBundle, Core.makeDue, Core.landDue, Core.countDown, List.filter_nil, hf0,
        List.foldl_nil, List.map_nil, List.map_cons, Core.landAll, Flags.all, hz', if_true, if_false, List.nil_append, List.filter_cons,
        beq_self_eq_true, bne_self_eq_false, Bool.false_eq_true, List.foldl_cons]
      rfl
    · simp only [Core.flagOr, Core.flagsAt, Core.after, Core.endBundle, Core.makeDue, Core.landDue, Core.countDown, List.filter_nil, hf0, h0,
        List.foldl_nil, List.map_nil, List.map_cons, Core.landAll, Flags.all, hz, if_true, if_false, List.nil_append, List.filter_cons,
        beq_iff_eq, bne_iff_ne, ne_eq, not_false_eq_true]
      rfl

theorem groupsOf_size {α : Type} (m : Nat) : ∀ (k : Nat) (l : List α), groupsOf m k l = (List.range k).map fun i => (l.drop (m * i)).take m
  | 0, _ => rfl
  | k + 1, l => by
    rw [groupsOf, groupsOf_size m k, List.range_succ_eq_map, List.map_cons, List.map_map]
    refine congr (congrArg _ (by simp)) (List.map_congr_left fun i _ => ?_)
    rw [List.drop_drop]; simp only [Function.comp_apply]; rw [Nat.mul_succ, Nat.add_comm]

theorem group_fits {N n k : Nat} (h : k < N / n) : n * k + n ≤ N := by
  have := part_le h; rwa [Nat.mul_comm] at this

theorem foldl_sum (l : List Int) : ∀ z, l.foldl (· + ·) z = z + l.sum := by
  induction l with
  | nil => intro z; simp
  | cons x l ih => intro z; rw [List.foldl_cons, ih, List.sum_cons]; omega

/-- The beat of a reduction. -/
theorem reduceBeat_eq {s : State} {vs : VSlot} {w : VR} {r : Tag} {f : Reducer} (m : RMode) (N : Nat)
    (hacc : w.fn.getLsbD 4 = false ∨ (s.tapped vs w.zc).tag = r)
    (hg : tagCount (s.tapped vs w.za).tag / 2 ^ (w.fn.extractLsb' 0 4).toNat ≤ tagCount r)
    (hN : ∀ k, k < tagCount (s.tapped vs w.za).tag / 2 ^ (w.fn.extractLsb' 0 4).toNat → k < N ∨ ∀ d d' l c, f (s.tapped vs w.za).tag r m d l c = f (s.tapped vs w.za).tag r m d' l c)
    (v : View) (hv : ∀ k, v.z k = s.tapped vs k) :
    reduceBeat w r f v m (drawsFor m N s.now.cr.seed).1 = beatOf r ((List.range (tagCount r)).map fun k =>
      if k < tagCount (s.tapped vs w.za).tag / 2 ^ (w.fn.extractLsb' 0 4).toNat then
        f (s.tapped vs w.za).tag r m (s.drawAt m k)
          ((List.range (2 ^ (w.fn.extractLsb' 0 4).toNat)).map fun j => (s.tapped vs w.za).at (2 ^ (w.fn.extractLsb' 0 4).toNat * k + j))
          (if w.fn.getLsbD 4 then [(s.tapped vs w.zc).at k] else [])
      else (0, 0)) := by
  simp only [reduceBeat, hv]
  generalize hgn : (2 ^ (w.fn.extractLsb' 0 4).toNat) = n at *
  have hgn' : 2 ^ vrGrp w = n := hgn
  simp only [hgn']
  generalize hG : tagCount (s.tapped vs w.za).tag / n = G at *
  congr 1
  have h1 : (List.range (tagCount r)) = (List.range G) ++ ((List.range (tagCount r - G)).map (G + ·)) := by
    rw [← List.range_add]; congr 1; omega
  rw [h1, List.map_append, groupsOf_size, mapIdx_rangeMap]
  refine congr (congrArg _ (List.map_congr_left fun k hk => ?_)) ?_
  · have hk : k < G := List.mem_range.mp hk
    rw [if_pos hk]
    have e1 : (List.drop (n * k) (s.tapped vs w.za).elems).take n = (List.range n).map fun j => (s.tapped vs w.za).at (n * k + j) :=
      elems_part _ _ _ (group_fits (by rw [hG]; exact hk))
    have e2 : ((if vrAcc w = true then (s.tapped vs w.zc).elems else []).drop k).take 1 = if w.fn.getLsbD 4 then [(s.tapped vs w.zc).at k] else [] := by
      by_cases ha : w.fn.getLsbD 4 = true
      · rw [if_pos ha, if_pos (show vrAcc w = true from ha)]
        have hc : (s.tapped vs w.zc).tag = r := hacc.resolve_left (by rw [ha]; decide)
        rw [elems_part _ k 1 (by rw [hc]; omega)]; rfl
      · rw [if_neg ha, if_neg (show ¬ vrAcc w = true from ha)]; simp
    rw [e1, e2]
    rcases hN k hk with hk' | hd
    · rw [drawsFor_getD _ _ _ _ hk']
    · exact hd _ _ _ _
  · rw [List.map_map]
    apply List.ext_getElem
    · simp
    · intro i h1 h2; simp only [List.getElem_replicate, List.getElem_map, Function.comp_apply]; rw [if_neg (by omega)]

theorem reduce_gives {vs : VSlot} {op : BitVec 8} {g : Guard} {w : VR} {tag : Tag → Tag × Bool} {draw : Bool} {f : Reducer} {i : Instr}
    {s : State} {x : W64} (he : exec i s = runSolo (reduceOp vs op g w tag draw f) i s)
    (h : s.Issues vs.slot g (some (vRow vs, 5, w.lat.toNat))) (hw : i.slotWord = some (vs.slot, x)) (hc : i.check1 = none)
    {r : Tag} (htag : tag (s.tapped vs w.za).tag = (r, true)) (hsrc : isF (s.tapped vs w.za).tag = true ∨ isI (s.tapped vs w.za).tag = true)
    (h2 : 2 ≤ 2 ^ (w.fn.extractLsb' 0 4).toNat) (hle : 2 ^ (w.fn.extractLsb' 0 4).toNat ≤ tagCount (s.tapped vs w.za).tag)
    (hacc : w.fn.getLsbD 4 = false ∨ (s.tapped vs w.zc).tag = r)
    (hg : tagCount (s.tapped vs w.za).tag / 2 ^ (w.fn.extractLsb' 0 4).toNat ≤ tagCount r) {N : Nat}
    (hcount : (if draw = true ∧ isF (s.tapped vs w.za).tag = true then tagCount (s.tapped vs w.za).tag / 2 ^ (w.fn.extractLsb' 0 4).toNat else 0) = N)
    (hN : N ≠ 0 ∨ ∀ d d' l c, f (s.tapped vs w.za).tag r (s.vecMode w) d l c = f (s.tapped vs w.za).tag r (s.vecMode w) d' l c) :
    VectorGives i s vs w r N fun k =>
      if k < tagCount (s.tapped vs w.za).tag / 2 ^ (w.fn.extractLsb' 0 4).toNat then
        f (s.tapped vs w.za).tag r (s.vecMode w) (s.drawAt (s.vecMode w) k)
          ((List.range (2 ^ (w.fn.extractLsb' 0 4).toNat)).map fun j => (s.tapped vs w.za).at (2 ^ (w.fn.extractLsb' 0 4).toNat * k + j))
          (if w.fn.getLsbD 4 then [(s.tapped vs w.zc).at k] else [])
      else (0, 0) := by
  have hN' : ∀ k, k < tagCount (s.tapped vs w.za).tag / 2 ^ (w.fn.extractLsb' 0 4).toNat → k < N ∨
      ∀ d d' l c, f (s.tapped vs w.za).tag r (s.vecMode w) d l c = f (s.tapped vs w.za).tag r (s.vecMode w) d' l c := by
    intro k hk
    rcases hN with h | h
    · left; subst hcount; split at h
      · rw [if_pos (by assumption)]; exact hk
      · exact absurd rfl h
    · exact .inr h
  have key := reduceBeat_eq (s := s) (vs := vs) (w := w) (r := r) (f := f) (s.vecMode w) N hacc hg hN'
  have ht : ∀ v : View, (∀ k, v.z k = s.tapped vs k) → firstTrap [needTag v (v.z w.za) 0 (isF (s.tapped vs w.za).tag || isI (s.tapped vs w.za).tag),
        if vrAcc w then needTag v (v.z w.zc) 2 ((s.tapped vs w.zc).tag == (tag (s.tapped vs w.za).tag).1) else none,
        needResult v w.tag (tag (s.tapped vs w.za).tag).2,
        needRange v ((vrGrp w) != 0 && decide (2 ^ (vrGrp w) ≤ tagCount (s.tapped vs w.za).tag) &&
          decide (tagCount (s.tapped vs w.za).tag / 2 ^ vrGrp w ≤ tagCount (tag (s.tapped vs w.za).tag).1))] = none := by
    intro v hv
    have hz : (vrGrp w) != 0 := by
      rw [bne_iff_ne]; intro h0
      have : (w.fn.extractLsb' 0 4).toNat = 0 := h0
      rw [this] at h2; omega
    rw [needTag_ok _ _ _ (by rw [Bool.or_eq_true]; exact hsrc), htag, needResult_ok _ _ rfl,
      needRange_ok _ (by rw [hz, decide_eq_true (show 2 ^ vrGrp w ≤ _ from hle), decide_eq_true (show _ / 2 ^ vrGrp w ≤ _ from hg)]; rfl)]
    split
    · next ha => rw [needTag_ok _ _ _ (by exact beq_iff_eq.mpr (hacc.resolve_left (by rw [show w.fn.getLsbD 4 = true from ha]; decide)))]; rfl
    · rfl
  refine vecOp_gives (t := r) he h hw hc (ht _ fun _ => rfl) hcount ?_ rfl
  show reduceBeat w (tag (s.tapped vs w.za).tag).1 f _ _ _ = _
  rw [show (tag (s.tapped vs w.za).tag).1 = r by rw [htag]]
  exact key _ fun _ => rfl

end Sys2Proof.Machine
end

