-- ==== Sys2Proof/Laws/Matrix.lean ====
section
/-! SUPPORT. the matrix engine: what joins it, and what each of its operations does -/

namespace Sys2Proof.Machine

theorem draws_list (s : State) (m : RMode) (n : Nat) : (drawsFor m n s.now.cr.seed) = (s.drawList m n, s.seedFor m n) := by
  simp only [drawsFor, State.drawList, State.seedFor]
  split
  · next h => rw [draws_eq]; refine Prod.ext ?_ rfl
              exact List.map_congr_left fun k _ => by rw [State.drawAt, if_pos h]
  · rfl

theorem Core.plain_issueM (w : MW) (bt : W64) (job : MJob) : Core.Plain fun c => c.issueM w bt job := fun _ _ _ _ _ _ => rfl

theorem Core.agrees_joins {c : Core} (h : c.Still) (w : MW) (job : MJob) (seed : W64) :
    ({ ((c.produceKnot w.kp 1).issueM w c.bt job).endBundle seed with repLeft := none, pc := c.pc + 12 } : Core).Agrees (c.joinsEngine w job seed) := by
  obtain ⟨hp, hl, hd, hf, hm, hr, ho⟩ := h
  have hz : ∀ x : Flags, x ||| 0 = x := fun x => BitVec.or_zero
  cases c with
  | mk bt pc cycle supervisor stopped rs rp rh rk rl kn cr timing region strands spad fe poison sticky pend drives flagOrs landings
      nextLanding mx mq copies nextCopy streamFault l1 refusals stream tracker ranges fmtBits latch repLeft =>
  simp only at hd hl hm hp hf hr ho
  subst hd hl hm hp hf hr ho
  simp only [Core.joinsEngine, Core.withSeed, Core.setKnot, Core.produceKnot, Core.knot, Core.issueM, mBound, Core.after, Core.endBundle, Core.makeDue, Core.landDue, Core.countDown, List.filter_nil,
      List.foldl_nil, List.map_nil, List.map_cons, Core.landAll, Flags.all, hz, List.nil_append]
  rfl

/-- A matrix operation that may issue and whose tests pass. -/
theorem matOp_joins {op : BitVec 8} {cls : Nat} {g : Guard} {w : MW} {reads : View → List UePlace} {test : View → Option TrapReq}
    {span : Core → View → Nat} {count : View → RMode × Nat} {job : View → List Nat → MJob} {base : View → Addrs} {stp : View → Addrs → Except TrapReq Addrs} {i : Instr} {s : State} {x : W64}
    (he : exec i s = runSolo { matOp op cls g w reads test span count job with base := base, step := stp } i s)
    (hk : s.now.KnotsAllow (maskKnots w.cmask w.kc0 w.kc1 w.kc2) w.kp 1)
    (h : s.Issues .m g (some (3, cls, 4 * w.lat.toNat))) (hw : i.slotWord = some (.m, x)) (hc : i.check1 = none)
    (ht : test (s.view { matOp op cls g w reads test span count job with base := base, step := stp }) = none) {q : RMode × Nat}
    (hq : count (s.view { matOp op cls g w reads test span count job with base := base, step := stp }) = q) {j : MJob}
    (hj : job (s.view { matOp op cls g w reads test span count job with base := base, step := stp }) (s.drawList q.1 q.2) = j) :
    Completes i s (s.now.joinsEngine w j (s.seedFor q.1 q.2)) := by
  obtain ⟨k1, k2, k3⟩ := hk
  have hp : ({ matOp op cls g w reads test span count job with base := base, step := stp } : OpSem).Performs s :=
    State.Issues.performs (m := { matOp op cls g w reads test span count job with base := base, step := stp }) h (.inr rfl) rfl
      ⟨rfl, rfl, ht, rfl, k1, rfl, (by intro n src e; cases e; exact ⟨k2, k3⟩), (by intro e he; cases he), rfl, rfl⟩
  have hd := draws_list s q.1 q.2
  obtain ⟨t, e, hf⟩ := runSolo_coreF (i := i) hp hw hc
    (F := fun u => (u.modCore s.cur fun c => c.produceKnot w.kp 1).modCore s.cur fun c => c.issueM w (s.core s.cur).bt j)
    (g := fun c => (c.produceKnot w.kp 1).issueM w (s.core s.cur).bt j)
    (sd := s.seedFor q.1 q.2) (nx := none)
    (Core.Plain.comp (Core.plain_issueM _ _ _) (Core.plain_produceKnot _ _)) (fun _ => rfl)
    (fun _ => rfl) (fun u _ => ⟨by rw [State.core_modCore, State.core_modCore], fun k hk => by rw [State.core_modCore_ne _ _ hk, State.core_modCore_ne _ _ hk], rfl⟩) (fun u _ => by
      subst hq
      rw [← hj, show s.drawList _ _ = _ from (congrArg Prod.fst hd).symm, show s.seedFor _ _ = _ from (congrArg Prod.snd hd).symm]
      rfl)
  exact ⟨t, he.trans e, hf.of_core (Core.agrees_joins h.quiet.still w j _)⟩

theorem matPlain_joins {op : BitVec 8} {cls : Nat} {g : Guard} {w : MW} {job : MJob} {i : Instr} {s : State} {x : W64}
    (he : exec i s = runSolo (matPlain op cls g w job) i s) (hk : s.now.KnotsAllow (maskKnots w.cmask w.kc0 w.kc1 w.kc2) w.kp 1)
    (h : s.Issues .m g (some (3, cls, 4 * w.lat.toNat))) (hw : i.slotWord = some (.m, x)) (hc : i.check1 = none) :
    Completes i s (s.now.joinsEngine w job s.now.cr.seed) :=
  matOp_joins (op := op) (cls := cls) (g := g) (w := w) (reads := fun _ => []) (test := fun _ => none) (span := fun _ _ => 1)
    (count := fun _ => (.rne, 0)) (job := fun _ _ => job) (base := fun _ => {}) (stp := fun _ a => .ok a) (q := (.rne, 0)) (j := job)
    he hk h hw hc rfl rfl rfl

theorem elem_setRow (b : Bank) (r x r' n : Nat) (hn : n < 256) :
    (b.setRow r x).elem r' n = if r' = r then x / 2 ^ (32 * n) % 2 ^ 32 else b.elem r' n := by
  simp only [Bank.elem, Bank.rowBits, Bank.setRow]
  rw [SMap.get_set]
  split
  · rw [BitVec.toNat_ofNat, Nat.shiftRight_eq_div_pow, cut_at _ _ _ _ (by omega)]
  · rfl

theorem get_foldSet {α : Type} [DecidableEq α] (d : α) (f : Nat → α) (k : Nat) (b : Nat) : ∀ (n : Nat) (m : SMap α),
    SMap.get d ((List.range n).foldl (fun t i => SMap.set d t (k + i) (f i)) m) b =
      if k ≤ b ∧ b < k + n then f (b - k) else SMap.get d m b
  | 0, m => by rw [if_neg (by omega)]; rfl
  | n + 1, m => by
    rw [List.range_succ, List.foldl_append, List.foldl_cons, List.foldl_nil, SMap.get_set, get_foldSet d f k b n]
    by_cases h : b = k + n
    · rw [if_pos h, if_pos (by omega), h, Nat.add_sub_cancel_left]
    · rw [if_neg h]
      by_cases h2 : k ≤ b ∧ b < k + n
      · rw [if_pos h2, if_pos (by omega)]
      · rw [if_neg h2, if_neg (by omega)]

theorem leNat_cut (l : List Byte) (n i : Nat) (h : 8 * i + 8 ≤ n) : (BitVec.ofNat n (leNat l)).extractLsb' (8 * i) 8 = l.getD i 0 := by
  apply BitVec.eq_of_getLsbD_eq
  intro j hj
  rw [BitVec.getLsbD_extractLsb', BitVec.getLsbD_ofNat, leNat_testBit]
  have h1 : 8 * i + j < n := by omega
  simp only [hj, h1, decide_true, Bool.true_and]
  rw [show (8 * i + j) / 8 = i by omega, show (8 * i + j) % 8 = j by omega]

/-- A row with the elements of half `f` taken out. -/
theorem keep_elem (x f n : Nat) :
    (x - (((x >>> (32 * (128 * f))) % 2 ^ 4096) <<< (32 * (128 * f)))) / 2 ^ (32 * n) % 2 ^ 32 =
      if 128 * f ≤ n ∧ n < 128 * f + 128 then 0 else x / 2 ^ (32 * n) % 2 ^ 32 := by
  rw [Nat.shiftRight_eq_div_pow, Nat.shiftLeft_eq]
  generalize hk : 32 * (128 * f) = k
  have h1 := Nat.div_add_mod x (2 ^ k)
  have h2 := Nat.div_add_mod (x / 2 ^ k) (2 ^ 4096)
  generalize hA : x % 2 ^ k = A at *
  generalize hB : x / 2 ^ k % 2 ^ 4096 = B at *
  generalize hC : x / 2 ^ k / 2 ^ 4096 = C at *
  have hAlt : A < 2 ^ k := by rw [← hA]; exact Nat.mod_lt _ (Nat.two_pow_pos _)
  have hx : x = A + 2 ^ k * B + 2 ^ (k + 4096) * C := by
    rw [← h1, ← h2, Nat.mul_add, ← Nat.mul_assoc, ← Nat.pow_add]; omega
  have hkeep : x - B * 2 ^ k = A + 2 ^ (k + 4096) * C := by rw [hx, Nat.mul_comm B]; omega
  rw [hkeep]
  have low : ∀ y, y % 2 ^ k = A → 32 * (n + 1) ≤ k → y / 2 ^ (32 * n) % 2 ^ 32 = A / 2 ^ (32 * n) % 2 ^ 32 := by
    intro y hy hle; rw [← hy, cut_at _ _ _ _ hle]
  have hm : (A + 2 ^ (k + 4096) * C) % 2 ^ k = A := by
    rw [Nat.pow_add, Nat.mul_assoc, Nat.add_mul_mod_self_left, Nat.mod_eq_of_lt hAlt]
  split
  · next hin =>
    have e : (A + 2 ^ (k + 4096) * C) % 2 ^ (k + 4096) = A := by
      rw [Nat.add_mul_mod_self_left, Nat.mod_eq_of_lt (Nat.lt_of_lt_of_le hAlt (Nat.pow_le_pow_right (by decide) (by omega)))]
    rw [← cut_at (k + 4096) 32 n _ (by omega), e, Nat.div_eq_of_lt (Nat.lt_of_lt_of_le hAlt (Nat.pow_le_pow_right (by decide) (by omega)))] <;> exact Nat.zero_mod _
  · next hout =>
    by_cases hlo : n < 128 * f
    · rw [low _ hm (by omega), low x hA (by omega)]
    · have hge : k + 4096 ≤ 32 * n := by omega
      obtain ⟨d, hd⟩ := Nat.le.dest hge
      have e1 : (A + 2 ^ (k + 4096) * C) / 2 ^ (k + 4096) = C := by
        rw [Nat.add_mul_div_left _ _ (Nat.two_pow_pos _), Nat.div_eq_of_lt (Nat.lt_of_lt_of_le hAlt (Nat.pow_le_pow_right (by decide) (by omega))), Nat.zero_add]
      have e2 : x / 2 ^ (k + 4096) = C := by rw [Nat.pow_add, ← Nat.div_div_eq_div_mul, hC]
      have e3 : 2 ^ (32 * n) = 2 ^ (k + 4096) * 2 ^ d := by rw [← hd, Nat.pow_add]
      rw [e3, ← Nat.div_div_eq_div_mul, ← Nat.div_div_eq_div_mul, e1, e2]

theorem Flags.all_cons (x : Flags) (l : List Flags) : Flags.all (x :: l) = x ||| Flags.all l := by
  have hz : ∀ x : Flags, 0 ||| x = x := fun x => BitVec.zero_or
  have h : ∀ (l : List Flags) (a : Flags), l.foldl (· ||| ·) a = a ||| l.foldl (· ||| ·) 0 := by
    intro l
    induction l with
    | nil => intro a; exact BitVec.or_zero.symm
    | cons y l ih => intro a; rw [List.foldl_cons, List.foldl_cons, ih, ih (0 ||| y), hz, BitVec.or_assoc]
  exact (h l (0 ||| x)).trans (by rw [hz]; rfl)

/-- The steps of a MAC-family operation, one by one. -/
theorem macSteps_eq (x : Matrix) (negate fresh : Bool) (pl mA mB : Nat) (a : Beat) (mode : RMode) (sat : Bool) (draws : List Nat) (B : Nat → Bank)
    (blk : Nat → List Blk)
    (hblk : ∀ i, blk i = (List.range 16).map fun j => if negate then { a.blk mA (16 * i + j) with ms := (a.blk mA (16 * i + j)).ms.map fun v => -v } else a.blk mA (16 * i + j))
    (hB : ∀ i, B (i + 1) = (x.macStep fresh (B i) pl mA mB (blk i) mode sat fun k => draws.getD (256 * i + k) 0).1) :
    ∀ (n s : Nat) (fl : Flags), x.macSteps negate fresh pl mA mB a mode sat draws n s (B s) fl =
      (B (s + n), fl ||| Flags.all ((List.range n).map fun i => (x.macStep fresh (B (s + i)) pl mA mB (blk (s + i)) mode sat fun k => draws.getD (256 * (s + i) + k) 0).2))
  | 0, s, fl => by simp only [Matrix.macSteps, List.range_zero, List.map_nil, Nat.add_zero]; exact Prod.ext rfl BitVec.or_zero.symm
  | n + 1, s, fl => by
    rw [Matrix.macSteps]
    have e : ((List.range 16).map fun j => let b := a.blk mA (16 * s + j); if negate then { b with ms := b.ms.map fun v => -v } else b) = blk s := (hblk s).symm
    simp only [e]
    rw [← hB s, macSteps_eq x negate fresh pl mA mB a mode sat draws B blk hblk hB n (s + 1)]
    rw [List.range_succ_eq_map, List.map_cons, List.map_map, Flags.all_cons, BitVec.or_assoc]
    refine Prod.ext (by rw [show s + 1 + n = s + (n + 1) by omega]) ?_
    refine congrArg (fl ||| ·) (congrArg _ (congrArg _ (List.map_congr_left fun i _ => ?_)))
    simp only [Function.comp_apply]
    rw [show s + 1 + i = s + (i + 1) by omega]

theorem packRange_at (n k : Nat) (f : Nat → Nat) (h : k < n) : packBits 32 ((List.range n).map f) / 2 ^ (32 * k) % 2 ^ 32 = f k % 2 ^ 32 := by
  rw [packBits_at, getD_rangeMap _ _ _ _ h]

theorem planeQ_pos (m : Nat) : 0 < planeQ m ∧ planeQ m ≤ 4 := by simp only [planeQ]; split <;> (try split) <;> decide

/-- One K-step. -/
theorem macStep_spec (x : Matrix) (fresh : Bool) (b : Bank) (pl mA mB : Nat) (blks : List Blk) (mode : RMode) (sat : Bool) (d : Nat → Nat) :
    let r := b.row.toNat
    let kq := b.kq.toNat % planeQ mB
    let y := fun n => kstep (if fresh ∧ kq = 0 then 0 else b.elem r n) blks (x.columnBlocks pl mB n kq) mA mB mode sat (d n)
    let b' := (x.macStep fresh b pl mA mB blks mode sat d).1
    (∀ r' n, n < 256 → b'.elem r' n = if r' = r then (y n).1 % 2 ^ 32 else b.elem r' n) ∧ b'.steps = b.steps + 1 ∧
      (b'.row, b'.kq) = (if planeQ mB ≤ kq + 1 then (b.row + 1, 0) else (b.row, BitVec.ofNat 2 (kq + 1))) ∧ b'.rm = b.rm ∧ b'.sat = b.sat ∧
      (x.macStep fresh b pl mA mB blks mode sat d).2 = Flags.all ((List.range 256).map fun n => (y n).2) := by
  intro r kq y b'
  have hq : kq < 4 := Nat.lt_of_lt_of_le (Nat.mod_lt _ (planeQ_pos mB).1) (planeQ_pos mB).2
  have hk : (BitVec.ofNat 2 kq).toNat = kq := by rw [BitVec.toNat_ofNat]; exact Nat.mod_eq_of_lt hq
  let row := packBits 32 (((List.range 256).map y).map fun p => p.1)
  have hb : b' = (Bank.setRow { b with kq := BitVec.ofNat 2 kq } r row).advance (planeQ mB) := rfl
  have hel : ∀ (c : Bank) q, (c.advance q).acc = c.acc := by intro c q; simp only [Bank.advance]; split <;> rfl
  have hel' : ∀ (c : Bank) q r n, (c.advance q).elem r n = c.elem r n := by
    intro c q r n; simp only [Bank.elem, Bank.rowBits, hel]
  refine ⟨fun r' n hn => ?_, ?_, ?_, ?_, ?_, ?_⟩
  · rw [hb, hel', elem_setRow _ _ _ _ _ hn]
    split
    · simp only [row, List.map_map]
      rw [packRange_at _ _ _ hn]; rfl
    · rfl
  · rw [hb, Bank.advance]; split <;> rfl
  · have ha : ∀ (c : Bank) Q, c.kq = BitVec.ofNat 2 kq → ((c.advance Q).row, (c.advance Q).kq) = if Q ≤ kq + 1 then (c.row + 1, 0) else (c.row, BitVec.ofNat 2 (kq + 1)) := by
      intro c Q hc
      simp only [Bank.advance, hc, hk]
      split
      · rfl
      · refine Prod.ext rfl ?_
        apply BitVec.eq_of_toNat_eq
        simp [BitVec.toNat_add]
    rw [hb]; exact ha _ _ rfl
  · rw [hb, Bank.advance]; split <;> rfl
  · rw [hb, Bank.advance]; split <;> rfl
  · simp only [Matrix.macStep, List.map_map]
    exact congrArg _ (List.map_congr_left fun _ _ => rfl)

theorem loadPlane_eq (c : Core) (pl : BitVec 3) (m a h : Nat) :
    let y := (c.runJob (.loadPlane pl m a h)).1
    y.cells = (List.range 256).foldl (fun t n => SMap.set 0 t (256 * pl.toNat + n) (BitVec.ofNat 2048 (leNat (SMap.getList 0 c.spad (a + 256 * n) 256)))) c.mx.cells ∧
      y.headers = SMap.setList 0 c.mx.headers (32768 * pl.toNat) (SMap.getList 0 c.spad h (8192 * planeQ m)) ∧
      y.tags = SMap.set 0 c.mx.tags pl.toNat (BitVec.ofNat 6 (0x0E + m)) ∧ y.bank0 = c.mx.bank0 ∧ y.bank1 = c.mx.bank1 ∧
      (c.runJob (.loadPlane pl m a h)).2 = (none, 0) := by
  simp only [Core.runJob, and_self]

theorem steps_holds (x : Matrix) (b : Bank) :
    (elemBeat 32 0x07 ([(b.steps.extractLsb' 0 32).toNat, (b.steps.extractLsb' 32 32).toNat,
      b.kq.toNat * 256 + b.row.toNat, (if b.sat then 8 else 0) + b.rm.toNat] ++
      (List.range 8).map fun p => (SMap.get 0 x.tags p).toNat)).Holds 0x07 (fun i =>
        if i = 0 then b.steps.toNat % 2 ^ 32 else if i = 1 then b.steps.toNat / 2 ^ 32 else if i = 2 then 256 * b.kq.toNat + b.row.toNat
        else if i = 3 then (if b.sat then 8 else 0) + b.rm.toNat else if i < 12 then (SMap.get 0 x.tags (i - 4)).toNat else 0) := by
  refine tagBeat_holds 0x07 _ _ fun i _ => ?_
  match i with
  | 0 => simp
  | 1 => simp [BitVec.extractLsb'_toNat, Nat.shiftRight_eq_div_pow]; have := b.steps.isLt; omega
  | 2 => simp [Nat.mul_comm]
  | 3 => simp
  | 4 => simp [List.range_succ]
  | 5 => simp [List.range_succ]
  | 6 => simp [List.range_succ]
  | 7 => simp [List.range_succ]
  | 8 => simp [List.range_succ]
  | 9 => simp [List.range_succ]
  | 10 => simp [List.range_succ]
  | 11 => simp [List.range_succ]
  | k + 12 =>
    have h : ¬ k + 12 < 12 := by omega
    simp [List.getD, List.range_succ, h] <;> omega

theorem drain_half (c : Core) (ab : BitVec 1) (row : BitVec 6) (form : BitVec 2) (mode : BitVec 3) (sat : Bool) (draws : List Nat) (h : form.toNat < 2) :
    c.runJob (.drain ab row form mode sat draws) =
      (c.mx.setBank ab ((c.mx.bank ab).setRow row.toNat ((c.mx.bank ab).rowBits row.toNat - ((((c.mx.bank ab).rowBits row.toNat >>> (32 * (128 * form.toNat))) % 2 ^ 4096) <<< (32 * (128 * form.toNat))))),
        some (elemBeat 32 0x20 ((c.mx.bank ab).elems row.toNat (128 * form.toNat) 128)), 0) := by
  simp only [Core.runJob, if_pos h]

theorem drain_full (c : Core) (ab : BitVec 1) (row : BitVec 6) (form : BitVec 2) (mode : BitVec 3) (sat : Bool) (draws : List Nat) (h : ¬ form.toNat < 2) :
    c.runJob (.drain ab row form mode sat draws) =
      (let e := (c.mx.bank ab).elem row.toNat
       let f := if form = 2 then bf16 else fp16
       let y := fun n => round f (RMode.ofCode mode) sat (draws.getD n 0) (fp32.value (e n))
       (c.mx.setBank ab ((c.mx.bank ab).setRow row.toNat 0), some (elemBeat 16 (if form = 2 then 0x09 else 0x0A) (((List.range 256).map y).map (·.1))),
        Flags.all ((List.range 256).map fun n => (y n).2) ||| if (List.range 256).any fun n => (fp32.value (e n)).isSnan then 1 else 0)) := by
  simp only [Core.runJob, if_neg h, List.map_map]
  refine Prod.ext rfl (Prod.ext rfl ?_)
  have e : ((c.mx.bank ab).elems row.toNat 0 256).any (fun x => (fp32.value x).isSnan) = (List.range 256).any fun n => (fp32.value ((c.mx.bank ab).elem row.toNat n)).isSnan := by
    rw [Bank.elems, List.any_map]
    simp only [Nat.zero_add]; rfl
  simp only [e]; rfl

end Sys2Proof.Machine
end

