-- ==== Sys2Proof/Laws/Copy.lean ====
section
/-! SUPPORT. copy operations and knots -/

namespace Sys2Proof.Machine

theorem Core.agrees_queues {c : Core} (h : c.Still) (w : CW) (e : Engine) (job : CopyJob) :
    ({ ({ c.produceKnot w.kp (engineSource e) with nextCopy := c.nextCopy + 1, copies := c.copies ++ [{ id := c.nextCopy, engine := e, kp := w.kp, job := job, asid := c.cr.asid, wid := (c.item.map Item.wid).getD 0, slot := (c.item.map Item.slot).getD 64, stage := (c.item.map Item.stage).getD 0 }] } : Core).endBundle c.cr.seed with repLeft := none, pc := c.pc + 12 } : Core).Agrees (c.queues w e job) := by
  obtain ⟨hp, hl, hd, hf, hm, hr, ho⟩ := h
  have hz : ∀ x : Flags, x ||| 0 = x := fun x => BitVec.or_zero
  cases c with
  | mk bt pc cycle supervisor stopped rs rp rh rk rl kn cr timing region strands spad fe poison sticky pend drives flagOrs landings
      nextLanding mx mq copies nextCopy streamFault l1 refusals stream tracker ranges fmtBits latch repLeft =>
  simp only at hd hl hm hp hf hr ho
  subst hd hl hm hp hf hr ho
  simp only [Core.queues, Core.setKnot, Core.produceKnot, Core.knot, Core.after, Core.endBundle, Core.makeDue, Core.landDue, Core.countDown, List.filter_nil,
      List.foldl_nil, List.map_nil, Core.landAll, Flags.all, hz]
  rfl

theorem Core.addrTest_none {v : View} {c : Core} (hv : v.core = c) {opnd : Nat} {a : W64} {al n : Nat} {need : Need} {cl : List RangeClass} (h : c.Reaches a al n need cl) :
    addrTest v opnd a al n = none := by
  obtain ⟨h1, h2, h3, _⟩ := h
  rw [addrTest, if_neg (by omega), if_neg]
  rintro (h | ⟨h, h'⟩)
  · omega
  · rw [hv] at h'; have := h3 (by simpa using h); omega

theorem Core.addrFatal_none {v : View} {c : Core} (hv : v.core = c) {a : W64} {al n : Nat} {need : Need} {cl : List RangeClass} (h : c.Reaches a al n need cl) :
    addrFatal v a need n cl = none := by
  rw [addrFatal]
  split
  · next hg =>
    obtain ⟨g, h1, h2, h3, h4⟩ := h.2.2.2 hg
    rw [extentFatal, hv, h1]
    simp only
    rw [if_neg (by rw [h2]; decide), if_neg (by omega), if_neg (by rw [List.contains_iff_mem.mpr h4]; decide)]
  · rfl

theorem Core.handle_ok {v : View} {c : Core} (hv : v.core = c) {opnd : Nat} {h : Handle} {l : List (Nat × Nat × Nat × Nat)} {runs : List (Int × Nat)} {need : Need}
    {cl : List RangeClass} (hh : c.Holds h l runs need cl) : handleTest v opnd h l = none ∧ handleFatal v h l need cl = none := by
  obtain ⟨h1, h2, h3, h4⟩ := hh
  refine ⟨?_, ?_⟩
  · rw [handleTest, h1, h2]
    simp only [Bool.not_true, Bool.false_eq_true, if_false]
    rw [List.find?_eq_none.mpr ?_]; · rfl
    intro q hq
    rw [runInside, hv, decide_eq_true (h3 q hq).1, decide_eq_true (h3 q hq).2]; decide
  · rw [handleFatal]
    cases hg : h.global with
    | false => rfl
    | true =>
      simp only [Bool.not_true, Bool.false_eq_true, if_false, h2]
      cases runs with
      | nil => rfl
      | cons q rest =>
        obtain ⟨g, e1, e2, e3, e4, e5⟩ := h4 q rest rfl hg
        simp only [extentFatal, hv, e1]
        rw [if_neg (by rw [e2]; decide), if_neg (by omega), if_neg (by rw [List.contains_iff_mem.mpr e4]; decide)]
        rw [show (none : Option (Nat × BitVec 57)).orElse _ = _ from rfl, List.find?_eq_none.mpr ?_]; · rfl
        intro x hx
        obtain ⟨i1, i2⟩ := e5 x hx
        rw [decide_eq_false (by omega), decide_eq_false (by omega)]; decide

/-- A queued operation that may issue and whose tests pass. -/
theorem copyOp_queues {op : BitVec 8} {cs : CSlot} {g : Guard} {w : CW} {reads : List UePlace} {base : View → Addrs}
    {stp : View → Addrs → Except TrapReq Addrs} {test : State → Nat → View → Option TrapReq}
    {fatal : View → Option (Nat × BitVec 57)} {job : View → CopyJob} {i : Instr} {s : State} {x : W64}
    (he : exec i s = runSolo (copyOp op cs g w reads base stp test fatal job) i s)
    (hk : s.now.KnotsAllow (maskKnots w.cmask w.kc0 w.kc1 w.kc2) w.kp (engineSource (s.now.engineOf cs)))
    (hr : (s.now.copies.filter fun o => o.engine == s.now.engineOf cs).length < 64)
    (h : s.Issues cs.slot g none) (hw : i.slotWord = some (cs.slot, x)) (hc : i.check1 = none)
    (ht : test s s.cur (s.view (copyOp op cs g w reads base stp test fatal job)) = none)
    (hf : fatal (s.view (copyOp op cs g w reads base stp test fatal job)) = none) {j : CopyJob}
    (hj : job (s.view (copyOp op cs g w reads base stp test fatal job)) = j) :
    Completes i s (s.now.queues w (s.now.engineOf cs) j) := by
  obtain ⟨k1, k2, k3⟩ := hk
  have hp : (copyOp op cs g w reads base stp test fatal job).Performs s :=
    State.Issues.performs (m := copyOp op cs g w reads base stp test fatal job) h (.inr rfl) rfl
      ⟨rfl, rfl, ht, hf, k1, rfl, (by intro n src e; cases e; exact ⟨k2, k3⟩), (by intro e he; cases he; exact hr), rfl, rfl⟩
  obtain ⟨t, e, hf⟩ := runSolo_coreF (i := i) hp hw hc
    (F := fun u => (u.modCore s.cur fun c => c.produceKnot w.kp (engineSource (s.now.engineOf cs))).modCore s.cur fun c => { c with
      nextCopy := c.nextCopy + 1, copies := c.copies ++ [{ id := c.nextCopy, engine := s.now.engineOf cs, kp := w.kp, job := j, asid := s.now.cr.asid, wid := (c.item.map Item.wid).getD 0, slot := (c.item.map Item.slot).getD 64, stage := (c.item.map Item.stage).getD 0 }] })
    (g := fun c => { c.produceKnot w.kp (engineSource (s.now.engineOf cs)) with
      nextCopy := c.nextCopy + 1, copies := c.copies ++ [{ id := c.nextCopy, engine := s.now.engineOf cs, kp := w.kp, job := j, asid := s.now.cr.asid, wid := (c.item.map Item.wid).getD 0, slot := (c.item.map Item.slot).getD 64, stage := (c.item.map Item.stage).getD 0 }] })
    (sd := s.now.cr.seed) (nx := none)
    (fun _ _ _ _ _ _ => rfl) (fun _ => rfl)
    (fun _ => rfl) (fun u _ => ⟨by rw [State.core_modCore, State.core_modCore]; rfl, fun k hk => by rw [State.core_modCore_ne _ _ hk, State.core_modCore_ne _ _ hk], rfl⟩) (fun u _ => by
      subst hj; rfl)
  exact ⟨t, he.trans e, hf.of_core (Core.agrees_queues h.quiet.still w _ j)⟩

theorem orElse_none {α : Type} {x : Option α} {f : Unit → Option α} (h : x = none) (k : f () = none) : x.orElse f = none := by rw [h]; exact k

theorem lenOf_ok {x : W64} (h : x.toNat < 2 ^ 22 ∧ x.toNat % 2 ^ 22 % 16 = 0 ∧ 16 ≤ x.toNat % 2 ^ 22 ∧ x.toNat % 2 ^ 22 ≤ 2097152) : (lenOf x).isNone = false := by
  obtain ⟨h1, h2, h3, h4⟩ := h
  rw [Nat.mod_eq_of_lt h1] at h2 h3 h4
  rw [lenOf, if_pos ⟨h1, h2, h3, h4⟩]; rfl

theorem lenBits_eq (x : W64) : lenBits x = x.toNat % 2 ^ 22 := by
  rw [lenBits, BitVec.extractLsb'_toNat]; simp

theorem oneRemote_none {r1 r2 : Bool} (h : r1 ≠ r2) (va : BitVec 57) : oneRemote r1 r2 va = none := by
  rw [oneRemote, if_neg (by simpa using h)]

theorem View.sReg_of {v : View} {c : Core} (hv : v.core = c) (hq : c.Quiet) (site : Nat) (m : BitVec 6) : v.s site m = c.sReg m := by
  rw [View.s_quiet (by rw [hv]; exact hq), hv]

theorem View.hReg_of {v : View} {c : Core} (hv : v.core = c) (hq : c.Quiet) (site : Nat) (m : BitVec 6) : v.h site m = c.hReg m := by
  rw [View.h_quiet (by rw [hv]; exact hq), hv]

theorem extents_same {d h : Handle} (k : d.SameExtents h) : ¬ (h.ext0 ≠ d.ext0 ∨ h.ext1 ≠ d.ext1 ∨ h.ext2 ≠ d.ext2 ∨ h.ext3 ≠ d.ext3) := by
  obtain ⟨h0, h1, h2, h3⟩ := k
  rintro (h | h | h | h)
  · exact h h0
  · exact h h1
  · exact h h2
  · exact h h3

/-- The same where the tests are known of every view of the core. -/
theorem copyOp_issues {op : BitVec 8} {cs : CSlot} {g : Guard} {w : CW} {reads : List UePlace} {base : View → Addrs}
    {stp : View → Addrs → Except TrapReq Addrs} {test : State → Nat → View → Option TrapReq}
    {fatal : View → Option (Nat × BitVec 57)} {job : View → CopyJob} {i : Instr} {s : State} {x : W64}
    (he : exec i s = runSolo (copyOp op cs g w reads base stp test fatal job) i s)
    (hk : s.now.KnotsAllow (maskKnots w.cmask w.kc0 w.kc1 w.kc2) w.kp (engineSource (s.now.engineOf cs)))
    (hr : (s.now.copies.filter fun o => o.engine == s.now.engineOf cs).length < 64)
    (h : s.Issues cs.slot g none) (hw : i.slotWord = some (cs.slot, x)) (hc : i.check1 = none)
    (hb : ∀ (v : View) a, base { v with addrs := a } = base v) {j : CopyJob}
    (hall : ∀ v : View, v.core = s.now → (∀ site m, v.s site m = s.now.sReg m) → (∀ site m, v.h site m = s.now.hReg m) → v.addrs = base v →
      v.spadBytes = (fun a n => SMap.getList 0 s.now.spad a n) →
      test s s.cur v = none ∧ fatal v = none ∧ job v = j) :
    Completes i s (s.now.queues w (s.now.engineOf cs) j) := by
  obtain ⟨h1, h2, h3⟩ := hall (s.view (copyOp op cs g w reads base stp test fatal job)) rfl (fun _ _ => View.sReg_of rfl h.quiet _ _)
    (fun _ _ => View.hReg_of rfl h.quiet _ _) (hb _ _).symm (funext fun a => funext fun n => View.spadBytes_quiet h.quiet.pend a n)
  exact copyOp_queues he hk hr h hw hc h1 h2 h3

theorem mem_maskOf (x : W64) (n : BitVec 6) : n ∈ maskOf x ↔ x.getLsbD n.toNat = true := by
  simp only [maskOf, List.mem_filterMap, List.mem_range]
  constructor
  · rintro ⟨i, hi, h⟩
    split at h
    · next hx => cases h; simpa [BitVec.toNat_ofNat, Nat.mod_eq_of_lt hi] using hx
    · cases h
  · intro h
    exact ⟨n.toNat, n.isLt, by rw [if_pos h]; simp⟩

theorem Core.knot_setKnot (c : Core) (a b : BitVec 6) (q : Knot) : (c.setKnot a q).knot b = if b = a then q else c.knot b := by
  simp only [Core.knot, Core.setKnot]
  rw [SMap.get_set]
  by_cases h : b = a
  · rw [if_pos h, if_pos (congrArg _ h)]
  · rw [if_neg h, if_neg (fun e => h (BitVec.eq_of_toNat_eq e))]

/-- Freeing knots one after another. -/
theorem Core.free_knots (kp : BitVec 6) : ∀ (l : List (BitVec 6)) (c : Core),
    (∀ n, (l.foldl (fun c n => if n = kp then c else c.setKnot n { c.knot n with source := 0, state := .free }) c).knot n =
      if n ≠ kp ∧ n ∈ l then { c.knot n with source := 0, state := .free } else c.knot n) ∧
    l.foldl (fun c n => if n = kp then c else c.setKnot n { c.knot n with source := 0, state := .free }) c =
      { c with kn := (l.foldl (fun c n => if n = kp then c else c.setKnot n { c.knot n with source := 0, state := .free }) c).kn }
  | [], c => ⟨fun n => by rw [List.foldl_nil, if_neg (by simp)], rfl⟩
  | m :: l, c => by
    obtain ⟨h1, h2⟩ := Core.free_knots kp l (if m = kp then c else c.setKnot m { c.knot m with source := 0, state := .free })
    have h0 : (if m = kp then c else c.setKnot m { c.knot m with source := 0, state := .free }) =
      { c with kn := (if m = kp then c else c.setKnot m { c.knot m with source := 0, state := .free }).kn } := by split <;> rfl
    refine ⟨fun n => ?_, ?_⟩
    · rw [List.foldl_cons, h1]
      by_cases hm : m = kp
      · rw [if_pos hm]
        by_cases hn : n ≠ kp ∧ n ∈ l
        · rw [if_pos hn, if_pos ⟨hn.1, List.mem_cons_of_mem _ hn.2⟩]
        · rw [if_neg hn, if_neg]
          rintro ⟨a, b⟩
          rcases List.mem_cons.mp b with b | b
          · exact a (b.trans hm)
          · exact hn ⟨a, b⟩
      · rw [if_neg hm, Core.knot_setKnot]
        by_cases hnm : n = m
        · subst hnm
          rw [if_pos rfl]
          refine Eq.trans ?_ (if_pos ⟨hm, List.mem_cons_self ..⟩).symm
          split <;> rfl
        · rw [if_neg hnm]
          by_cases hn : n ≠ kp ∧ n ∈ l
          · rw [if_pos hn, if_pos ⟨hn.1, List.mem_cons_of_mem _ hn.2⟩]
          · rw [if_neg hn, if_neg]
            rintro ⟨a, b⟩
            rcases List.mem_cons.mp b with b | b
            · exact hnm b
            · exact hn ⟨a, b⟩
    · rw [List.foldl_cons]
      exact h2.trans (by rw [h0])

theorem Core.knot_finishKnot (c : Core) (a b : BitVec 6) (ok : Bool) : (c.finishKnot a ok).knot b =
    if b = a then
      if (c.knot a).count ≤ 1 then { c.knot a with count := 0, failedOne := false, state := if (c.knot a).state = .pending then (if (c.knot a).failedOne || !ok then .failed else .resolved) else (c.knot a).state }
      else { c.knot a with count := (c.knot a).count - 1, failedOne := (c.knot a).failedOne || !ok }
    else c.knot b := by
  simp only [Core.finishKnot]
  split <;> rw [Core.knot_setKnot]

/-- What KWAIT does to its core. -/
def kwaitCore (clr : Bool) (l : List (BitVec 6)) (kp : BitVec 6) (c : Core) : Core :=
  (if clr then l.foldl (fun c n => if n = kp then c else c.setKnot n { c.knot n with source := 0, state := .free }) c else c).finishKnot kp true

theorem Core.plain_kwait (clr : Bool) (l : List (BitVec 6)) (kp : BitVec 6) : Core.Plain (kwaitCore clr l kp) := by
  have h : Core.Plain fun c => l.foldl (fun c n => if n = kp then c else c.setKnot n { c.knot n with source := 0, state := .free }) c :=
    Core.plain_foldl _ (fun n => by intro c a y x p k; simp only; split <;> rfl) l
  cases clr with
  | false => exact Core.plain_finishKnot kp true
  | true => exact show Core.Plain fun c => (l.foldl (fun c n => if n = kp then c else c.setKnot n { c.knot n with source := 0, state := .free }) c).finishKnot kp true from
      Core.Plain.comp (Core.plain_finishKnot kp true) h

theorem kwaitCore_spec (clr : Bool) (l : List (BitVec 6)) (kp : BitVec 6) (src : BitVec 3) (c : Core) :
    let d := kwaitCore clr l kp (c.produceKnot kp src)
    d = { c with kn := d.kn } ∧ ∀ n, d.knot n =
       if n = kp then
         if (c.knot kp).count = 0 then { source := src, state := if (c.knot kp).failedOne then .failed else .resolved, count := 0, failedOne := false }
         else { source := src, state := .pending, count := (c.knot kp).count, failedOne := (c.knot kp).failedOne }
       else if clr = true ∧ n ∈ l then { c.knot n with source := 0, state := .free } else c.knot n := by
  have hp : ∀ n, (c.produceKnot kp src).knot n = if n = kp then { source := src, state := .pending, count := (c.knot kp).count + 1, failedOne := (c.knot kp).failedOne } else c.knot n :=
    fun n => Core.knot_setKnot _ _ _ _
  have hkp := hp kp
  rw [if_pos rfl] at hkp
  have fin : ∀ e : Core, e.knot kp = { source := src, state := .pending, count := (c.knot kp).count + 1, failedOne := (c.knot kp).failedOne } → ∀ n,
      (e.finishKnot kp true).knot n = if n = kp then
         if (c.knot kp).count = 0 then { source := src, state := if (c.knot kp).failedOne then .failed else .resolved, count := 0, failedOne := false }
         else { source := src, state := .pending, count := (c.knot kp).count, failedOne := (c.knot kp).failedOne }
       else e.knot n := by
    intro e he n
    rw [Core.knot_finishKnot, he]
    by_cases hn : n = kp
    · rw [if_pos hn, if_pos hn]
      by_cases h0 : (c.knot kp).count = 0
      · rw [if_pos h0, if_pos (by simp only; omega)]; simp
      · rw [if_neg h0, if_neg (by simp only; omega)]; simp
    · rw [if_neg hn, if_neg hn]
  have fk : ∀ e : Core, e.finishKnot kp true = { e with kn := (e.finishKnot kp true).kn } := by intro e; simp only [Core.finishKnot]; split <;> rfl
  cases clr with
  | false =>
    refine ⟨fk _, fun n => ?_⟩
    rw [kwaitCore, if_neg (by decide), fin _ hkp, hp]
    by_cases hn : n = kp
    · rw [if_pos hn, if_pos hn]
    · rw [if_neg hn, if_neg hn, if_neg hn, if_neg (by simp)]
  | true =>
    obtain ⟨h1, h2⟩ := Core.free_knots kp l (c.produceKnot kp src)
    refine ⟨?_, fun n => ?_⟩
    · have key : ∀ e x : Core, x = { e with kn := x.kn } → e = { c with kn := e.kn } → x = { c with kn := x.kn } :=
        fun e x h1 h2 => h1.trans (congrArg (fun y : Core => { y with kn := x.kn }) h2)
      exact key _ _ (fk _) (key _ _ h2 rfl)
    · rw [kwaitCore, if_pos rfl, fin _ (by rw [h1, if_neg (by simp), hkp]), h1, hp]
      by_cases hn : n = kp
      · rw [if_pos hn, if_pos hn]
      · rw [if_neg hn, if_neg hn, if_neg hn]
        by_cases hl : n ∈ l
        · rw [if_pos ⟨hn, hl⟩, if_pos ⟨rfl, hl⟩]
        · rw [if_neg (fun h => hl h.2), if_neg (fun h => hl h.2)]

theorem Core.agrees_knots {c : Core} (h : c.Still) (K : SMap Knot) :
    ({ ({ c with kn := K } : Core).endBundle c.cr.seed with repLeft := none, pc := c.pc + 12 } : Core).Agrees ({ c with kn := K } : Core).after := by
  obtain ⟨hp, hl, hd, hf, hm, hr, ho⟩ := h
  have hz : ∀ x : Flags, x ||| 0 = x := fun x => BitVec.or_zero
  cases c with
  | mk bt pc cycle supervisor stopped rs rp rh rk rl kn cr timing region strands spad fe poison sticky pend drives flagOrs landings
      nextLanding mx mq copies nextCopy streamFault l1 refusals stream tracker ranges fmtBits latch repLeft =>
  simp only at hd hl hm hp hf hr ho
  subst hd hl hm hp hf hr ho
  simp only [Core.after, Core.endBundle, Core.makeDue, Core.landDue, Core.countDown, List.filter_nil,
      List.foldl_nil, List.map_nil, Core.landAll, Flags.all, hz]
  rfl

end Sys2Proof.Machine
end

