-- ==== Sys2Proof/Laws/Decoding.lean ====
section
/-! SUPPORT. A slot word decodes to the instruction it was written for, and back. -/

namespace Sys2Proof.Machine

theorem soloHeader_decodes (sl : Slot) : decodeHeader (soloHeader sl).word = .ok (soloHeader sl) := by
  cases sl <;> rfl

theorem soloHeader_slots (sl : Slot) : (soloHeader sl).slots = [sl] := by cases sl <;> rfl

theorem take_leBytes (n x : Nat) (r : List Byte) : (leBytes n x ++ r).take n = leBytes n x := by
  rw [List.take_append_of_le_length (Nat.le_of_eq (length_leBytes n x).symm)]
  exact List.take_of_length_le (Nat.le_of_eq (length_leBytes n x))

theorem drop_leBytes (n x : Nat) (r : List Byte) : (leBytes n x ++ r).drop n = r := by
  rw [List.drop_append_of_le_length (Nat.le_of_eq (length_leBytes n x).symm), List.drop_of_length_le (Nat.le_of_eq (length_leBytes n x))]
  rfl

theorem leNat_word {n : Nat} (x : BitVec (8 * n)) : BitVec.ofNat (8 * n) (leNat (leBytes n x.toNat)) = x := by
  apply BitVec.eq_of_toNat_eq
  rw [leNat_leBytes, BitVec.toNat_ofNat]
  have e : (256 : Nat) ^ n = 2 ^ (8 * n) := by rw [Nat.pow_mul]
  rw [e, Nat.mod_mod]
  exact Nat.mod_eq_of_lt x.isLt

/-- A slot word alone in its bundle. -/
theorem decode_solo {sl : Slot} {w : W64} {i : Instr} (h : decodeSlot sl w = .ok i) :
    decode (leBytes 4 (soloHeader sl).word.toNat ++ leBytes 8 w.toNat) = .ok ⟨soloHeader sl, [(sl, w, i)]⟩ := by
  have hl : ¬ (leBytes 4 (soloHeader sl).word.toNat ++ leBytes 8 w.toNat).length < 4 := by simp [length_leBytes]
  have e1 : BitVec.ofNat 32 (leNat (leBytes 4 (soloHeader sl).word.toNat)) = (soloHeader sl).word := leNat_word (n := 4) _
  have e2 : BitVec.ofNat 64 (leNat (leBytes 8 w.toNat)) = w := leNat_word (n := 8) w
  have hl2 : ¬ (leBytes 8 w.toNat).length < 8 := by simp [length_leBytes]
  have e3 : (leBytes 8 w.toNat).take 8 = leBytes 8 w.toNat := List.take_of_length_le (by simp [length_leBytes])
  unfold decode
  rw [if_neg hl, take_leBytes, drop_leBytes, e1, soloHeader_decodes]
  simp only [soloHeader_slots, decodeSlots, if_neg hl2, e3, e2, h, crossCheck]
  rfl

theorem soloInstr_solo (sl : Slot) (w : W64) (i : Instr) : soloInstr ⟨soloHeader sl, [(sl, w, i)]⟩ = some i := by
  simp [soloInstr]

/-- The opcode map of a slot finds an instruction in the word of its own. -/
def Found (i : Instr) : Prop := ∀ sl w, i.slotWord = some (sl, w) → i.WellFormed → (∀ g x, i ≠ .skeinldRelease g x) → rawSlot sl w = some i

theorem found_of {i : Instr} {sl : Slot} {o : BitVec 8} {g : Guard} {b : BitVec 51} (hw : i.slotWord = some (sl, slotBits o g b))
    (h : i.WellFormed → rawSlot sl (slotBits o g b) = some i) : Found i := by
  intro sl' w' e hwf _
  rw [hw] at e; cases e; exact h hwf

theorem firstErr_mem : ∀ {l : List (Option WfError)}, firstErr l = none → ∀ x ∈ l, x = none
  | [], _, x, hx => by cases hx
  | none :: l, h, x, hx => by
    rcases List.mem_cons.mp hx with rfl | hx
    · rfl
    · exact firstErr_mem (l := l) h x hx
  | some e :: l, h, x, hx => by cases h

theorem zeroIf_none {b : Bool} (h : zeroIf b = none) : b = true := by cases b <;> simp [zeroIf] at h ⊢

theorem slotCode_none {b : Bool} (h : code b = none) : b = true := by cases b <;> simp [code] at h ⊢

theorem relocStart_of {g : Guard} {w : SR} (h : (Instr.relocStart g w).WellFormed) : relocOf g w = .relocStart g w := by
  have := slotCode_none (firstErr_mem h _ (List.mem_cons_of_mem _ (List.mem_cons_self ..)))
  simp only [Bool.or_eq_true, beq_iff_eq] at this
  rcases this with e | e <;> simp [relocOf, e]

theorem relocQuery_of {g : Guard} {w : SR} (h : (Instr.relocQuery g w).WellFormed) : relocOf g w = .relocQuery g w := by
  have := slotCode_none (firstErr_mem h _ (List.mem_cons_of_mem _ (List.mem_cons_self ..)))
  simp only [beq_iff_eq] at this
  simp [relocOf, this]

theorem relocAbort_of {g : Guard} {w : SR} (h : (Instr.relocAbort g w).WellFormed) : relocOf g w = .relocAbort g w := by
  have := slotCode_none (firstErr_mem h _ (List.mem_cons_of_mem _ (List.mem_cons_self ..)))
  simp only [beq_iff_eq] at this
  simp [relocOf, this]

theorem logrRead_of {g : Guard} {w : SR} (h : (Instr.logrRead g w).WellFormed) : logrOf g w = .logrRead g w := by
  have := slotCode_none (firstErr_mem h _ (List.mem_cons_of_mem _ (List.mem_cons_self ..)))
  simp only [beq_iff_eq] at this
  simp [logrOf, this]

theorem logrApp_of {g : Guard} {w : SR} (h : (Instr.logrApp g w).WellFormed) : logrOf g w = .logrApp g w := by
  have h' : w.check false .s .s .none .none 0 = none := h
  have := zeroIf_none (firstErr_mem h' (zeroIf (w.fn &&& ~~~(0 : BitVec 7) == 0)) (by simp [SR.check]))
  simp only [beq_iff_eq] at this
  have e : w.fn = 0 := by
    have hx : ∀ x : BitVec 7, x &&& ~~~(0 : BitVec 7) = 0 → x = 0 := by decide
    exact hx _ this
  simp [logrOf, e]

theorem mrd_of {g : Guard} {w : MW} (h : (Instr.mrd g w).WellFormed) : mrdOf g w = .mrd g w := by
  have h' : w.check true false true 0x7F = none := h
  have := zeroIf_none (firstErr_mem h' (zeroIf (w.fn &&& ~~~(0x7F : BitVec 8) == 0)) (by simp [MW.check]))
  simp only [beq_iff_eq] at this
  have hx : ∀ x : BitVec 8, x &&& ~~~(0x7F : BitVec 8) = 0 → x.getLsbD 7 = false := by decide
  show (if w.fn.getLsbD 7 = true then _ else _) = _
  rw [if_neg (by rw [hx _ this]; decide)]

theorem mrdSteps_of {g : Guard} {w : MW} (h : (Instr.mrdSteps g w).WellFormed) : mrdOf g w = .mrdSteps g w := by
  have := slotCode_none (firstErr_mem h _ (List.mem_cons_of_mem _ (List.mem_cons_self ..)))
  simp [mrdOf, this]

theorem vbcstScalar_of {v : VSlot} {g : Guard} {w : VR} (h : (Instr.vbcstScalar v g w).WellFormed) : vbcstOf v g w = .vbcstScalar v g w := by
  have h' : w.check false false true false false 0 = none := h
  have := zeroIf_none (firstErr_mem h' (zeroIf (w.fn &&& ~~~(0 : BitVec 13) == 0)) (by simp [VR.check]))
  simp only [beq_iff_eq] at this
  have hx : w.fn = 0 := by
    have e : w.fn &&& BitVec.allOnes 13 = 0 := this
    rwa [BitVec.and_allOnes] at e
  simp [vbcstOf, hx]

theorem vbcstElement_of {v : VSlot} {g : Guard} {w : VR} (h : (Instr.vbcstElement v g w).WellFormed) : vbcstOf v g w = .vbcstElement v g w := by
  have := slotCode_none (firstErr_mem h _ (List.mem_cons_of_mem _ (List.mem_cons_self ..)))
  simp [vbcstOf, this]

theorem fx_raw (n : BitVec 4) (v : VSlot) (g : Guard) (w : W64) : decodeV (0xF#4 ++ n) v g w = some (.fx n v g (VR.ofWord w)) := by
  have h : ∀ n : BitVec 4, decodeV (0xF#4 ++ n) v g w = some (.fx ((0xF#4 ++ n).extractLsb' 0 4) v g (VR.ofWord w)) := by
    intro n
    have hk : ∀ n : BitVec 4, (0xF#4 ++ n).toNat = 0xF0 + n.toNat := by decide
    have hl := n.isLt
    unfold decodeV
    rw [hk]
    generalize n.toNat = k at hl
    match k, hl with
    | 0, _ => rfl
    | 1, _ => rfl
    | 2, _ => rfl
    | 3, _ => rfl
    | 4, _ => rfl
    | 5, _ => rfl
    | 6, _ => rfl
    | 7, _ => rfl
    | 8, _ => rfl
    | 9, _ => rfl
    | 10, _ => rfl
    | 11, _ => rfl
    | 12, _ => rfl
    | 13, _ => rfl
    | 14, _ => rfl
    | 15, _ => rfl
    | k + 16, h => exact absurd h (by omega)
  rw [h]
  have e : ∀ n : BitVec 4, (0xF#4 ++ n).extractLsb' 0 4 = n := by decide
  rw [e]

theorem raw_s (w : W64) : rawSlot .s w = decodeS (opcodeOf w) (Guard.ofWord w) w := rfl

theorem raw_v (v : VSlot) (w : W64) : rawSlot v.slot w = decodeV (opcodeOf w) v (Guard.ofWord w) w := by cases v <;> rfl

theorem raw_m (w : W64) : rawSlot .m w = decodeM (opcodeOf w) (Guard.ofWord w) w := rfl

theorem raw_c (c : CSlot) (w : W64) : rawSlot c.slot w = decodeC (opcodeOf w) c (Guard.ofWord w) w := by cases c <;> rfl

theorem op_eq {w : W64} {o : BitVec 8} (h : (opcodeOf w).toNat = o.toNat) : opcodeOf w = o := BitVec.eq_of_toNat_eq h

theorem back_of {sl : Slot} {w : W64} {o : BitVec 8} {b : BitVec 51} (ho : (opcodeOf w).toNat = o.toNat) (hb : b = w.extractLsb' 0 51) :
    some (sl, slotBits o (Guard.ofWord w) b) = some (sl, w) := by
  rw [← op_eq ho, hb, slotBits_split]

theorem backS {w : W64} {i : Instr} (h : decodeS (opcodeOf w) (Guard.ofWord w) w = some i) : i.slotWord = some (.s, w) := by
  unfold decodeS at h
  split at h <;> first
    | (next ho => cases h; exact back_of ho (by simp only [SR.bits_ofWord, SI.bits_ofWord, SB.bits_ofWord, SM.bits_ofWord, SG.bits_ofWord, SA.bits_ofWord]))
    | (next ho => cases h; simp only [relocOf]; repeat' split
                  all_goals exact back_of ho (SR.bits_ofWord w))
    | (next ho => cases h; simp only [logrOf]; split
                  all_goals exact back_of ho (SR.bits_ofWord w))
    | (cases h)

theorem backV {v : VSlot} {w : W64} {i : Instr} (h : decodeV (opcodeOf w) v (Guard.ofWord w) w = some i) : i.slotWord = some (v.slot, w) := by
  unfold decodeV at h
  split at h <;> first
    | (next ho => cases h; exact back_of ho (by simp only [VR.bits_ofWord, VM.bits_ofWord]))
    | (next ho => cases h; simp only [vbcstOf]; split
                  all_goals exact back_of ho (VR.bits_ofWord w))
    | (split at h
       · next hge =>
         cases h
         refine back_of ?_ (VR.bits_ofWord w)
         have e : ∀ o : BitVec 8, 0xF0 ≤ o.toNat → o.toNat = (0xF#4 ++ o.extractLsb' 0 4).toNat := by decide
         exact e _ hge
       · cases h)

theorem backM {w : W64} {i : Instr} (h : decodeM (opcodeOf w) (Guard.ofWord w) w = some i) : i.slotWord = some (.m, w) := by
  unfold decodeM at h
  split at h <;> first
    | (next ho => cases h; exact back_of ho (MW.bits_ofWord w))
    | (next ho => cases h; simp only [mrdOf]; split
                  all_goals exact back_of ho (MW.bits_ofWord w))
    | (cases h)

theorem backC {c : CSlot} {w : W64} {i : Instr} (h : decodeC (opcodeOf w) c (Guard.ofWord w) w = some i) : i.slotWord = some (c.slot, w) := by
  unfold decodeC at h
  split at h <;> first
    | (next ho => cases h; exact back_of ho (CW.bits_ofWord w))
    | (cases h)

theorem rawSlot_back {sl : Slot} {w : W64} {i : Instr} (h : rawSlot sl w = some i) : i.slotWord = some (sl, w) := by
  cases sl with
  | s => exact backS h
  | v0 => exact backV (v := .v0) h
  | v1 => exact backV (v := .v1) h
  | m => exact backM h
  | c0 => exact backC (c := .c0) h
  | c1 => exact backC (c := .c1) h

theorem headerOnly_decodes (l : BitVec 4) (r : BitVec 8) (q : BitVec 6) (hl : l.toNat ≤ 4) :
    decode (leBytes 4 (Header.word ⟨l, r, q, 0⟩).toNat) = .ok ⟨⟨l, r, q, 0⟩, []⟩ := by
  have hlen : ¬ (leBytes 4 (Header.word ⟨l, r, q, 0⟩).toNat).length < 4 := by simp [length_leBytes]
  have e0 : (leBytes 4 (Header.word ⟨l, r, q, 0⟩).toNat).take 4 = leBytes 4 (Header.word ⟨l, r, q, 0⟩).toNat :=
    List.take_of_length_le (by simp [length_leBytes])
  have e1 : BitVec.ofNat 32 (leNat (leBytes 4 (Header.word ⟨l, r, q, 0⟩).toNat)) = Header.word ⟨l, r, q, 0⟩ := leNat_word (n := 4) _
  generalize hw : Header.word ⟨l, r, q, 0⟩ = w at e1 hlen e0
  have hs : w = (0b1011#4 ++ 0#4 ++ l ++ r ++ q ++ 0#6 : BitVec (4 + 4 + 4 + 8 + 6 + 6)) := hw.symm
  have x0 : w.extractLsb' 28 4 = 0b1011 := by
    rw [hs]
    show @BitVec.extractLsb' (4 + 4 + 4 + 8 + 6 + 6) 28 4 _ = _
    rw [BitVec.extractLsb'_append_eq_of_le (by decide), BitVec.extractLsb'_append_eq_of_le (by decide), BitVec.extractLsb'_append_eq_of_le (by decide),
      BitVec.extractLsb'_append_eq_of_le (by decide), BitVec.extractLsb'_append_eq_of_le (by decide)]
    rfl
  have x1 : w.extractLsb' 24 4 = 0 := by
    rw [hs]
    show @BitVec.extractLsb' (4 + 4 + 4 + 8 + 6 + 6) 24 4 _ = _
    rw [BitVec.extractLsb'_append_eq_of_le (by decide), BitVec.extractLsb'_append_eq_of_le (by decide), BitVec.extractLsb'_append_eq_of_le (by decide),
      BitVec.extractLsb'_append_eq_of_le (by decide), BitVec.extractLsb'_append_eq_of_add_le (by decide)]
    rfl
  have x2 : w.extractLsb' 20 4 = l := by
    rw [hs]
    show @BitVec.extractLsb' (4 + 4 + 4 + 8 + 6 + 6) 20 4 _ = _
    rw [BitVec.extractLsb'_append_eq_of_le (by decide), BitVec.extractLsb'_append_eq_of_le (by decide), BitVec.extractLsb'_append_eq_of_le (by decide),
      BitVec.extractLsb'_append_eq_of_add_le (by decide)]
    exact BitVec.extractLsb'_eq_self
  have x3 : w.extractLsb' 12 8 = r := by
    rw [hs]
    show @BitVec.extractLsb' (4 + 4 + 4 + 8 + 6 + 6) 12 8 _ = _
    rw [BitVec.extractLsb'_append_eq_of_le (by decide), BitVec.extractLsb'_append_eq_of_le (by decide),
      BitVec.extractLsb'_append_eq_of_add_le (by decide)]
    exact BitVec.extractLsb'_eq_self
  have x4 : w.extractLsb' 6 6 = q := by
    rw [hs]
    show @BitVec.extractLsb' (4 + 4 + 4 + 8 + 6 + 6) 6 6 _ = _
    rw [BitVec.extractLsb'_append_eq_of_le (by decide), BitVec.extractLsb'_append_eq_of_add_le (by decide)]
    exact BitVec.extractLsb'_eq_self
  have x5 : w.extractLsb' 0 6 = 0 := by
    rw [hs]
    show @BitVec.extractLsb' (4 + 4 + 4 + 8 + 6 + 6) 0 6 _ = _
    rw [BitVec.extractLsb'_append_eq_of_add_le (by decide)]
    exact BitVec.extractLsb'_eq_self
  have hof : Header.ofWord w = ⟨l, r, q, 0⟩ := by simp only [Header.ofWord, x2, x3, x4, x5]
  have hd : decodeHeader w = .ok ⟨l, r, q, 0⟩ := by
    have hq : (0 : BitVec 6) &&& q = 0 := BitVec.zero_and
    simp only [decodeHeader, x0, x1, hof, Nat.not_lt.mpr hl, hq, ne_eq, not_true, if_false]
  have hsl : Header.slots ⟨l, r, q, 0⟩ = [] := by simp [Header.slots, Slot.all]
  unfold decode
  rw [if_neg hlen, e0, e1, hd]
  simp only [hsl, decodeSlots, crossCheck]

theorem runCore_bytes {s : State} {bs : List Byte} (hs : s.now.stopped = false) (hi : s.now.idle = false) (hp : s.pwr.phase ≠ .off)
    (hf : s.pwr.phase = .pfail → 576 ≤ s.cur) (hb : s.fetch s.cur = .bytes bs) (hw : s.waiting s.cur bs = false) :
    s.runCore = match decode bs with
        | .ok b => match soloInstr b with
          | some i => exec i s
          | none => .next (s.issueBundle b)
        | .error _ => exec .malformedBundle s := by
  have h1 : ¬ ((s.core s.cur).stopped = true ∨ s.pwr.phase = .off) := by
    have hs' : (s.core s.cur).stopped = false := hs
    rw [hs']; simp [hp]
  have h2 : ¬ (s.pwr.phase = .pfail ∧ s.cur < 576) := fun h => absurd (hf h.1) (by omega)
  have hi' : (s.core s.cur).idle = false := hi
  unfold State.runCore
  simp only [if_neg h1, if_neg h2, hi', hb, hw, Bool.false_eq_true, if_false] <;> rfl

end Sys2Proof.Machine
end

