-- ==== Sys2Proof/Laws/Integer.lean ====
section
/-! SUPPORT. What the integer, compare, predicate and scalar float meanings compute (rules of chapter 4). -/

namespace Sys2Proof.Machine

theorem scalarRR_of {f : Guard → SR → Instr} {cls : Nat} {r r' : W64 → W64 → W64} {op : BitVec 8} (he : ∀ g w s, exec (f g w) s = runSolo (aluRR op cls g w r) (f g w) s)
   (hw : ∀ g w, ∃ x, (f g w).slotWord = some (.s, x)) (hr : ∀ x y, r x y = r' x y) : ScalarRR f cls r' := by
  intro s g w h hc
  obtain ⟨x, hx⟩ := hw g w
  obtain ⟨t, e, hf⟩ := runSolo_aluOp (op := op) (reads := sPlaces [w.a, w.b]) (f := fun v => .s w.d (r (v.s 1 w.a) (v.s 2 w.b))) h hx hc
  refine ⟨t, (he ..).trans e, ?_⟩
  rw [View.s_quiet (by exact h.quiet), View.s_quiet (by exact h.quiet), hr] at hf
  exact hf

theorem scalarR_of {f : Guard → SR → Instr} {r : W64 → W64} {r' : W64 → W64 → W64} {op : BitVec 8} (he : ∀ g w s, exec (f g w) s = runSolo (aluR op g w r) (f g w) s)
   (hw : ∀ g w, ∃ x, (f g w).slotWord = some (.s, x)) (hr : ∀ x y, r x = r' x y) : ScalarRR f 0 r' := by
  intro s g w h hc
  obtain ⟨x, hx⟩ := hw g w
  obtain ⟨t, e, hf⟩ := runSolo_aluOp (op := op) (reads := sPlaces [w.a]) (f := fun v => .s w.d (r (v.s 1 w.a))) h hx hc
  refine ⟨t, (he ..).trans e, ?_⟩
  rw [View.s_quiet (by exact h.quiet), hr _ (s.now.sReg w.b)] at hf
  exact hf

theorem scalarRI_of {f : Guard → SI → Instr} {r r' : W64 → W64 → W64} {op : BitVec 8} (he : ∀ g w s, exec (f g w) s = runSolo (aluRI op g w r) (f g w) s)
   (hw : ∀ g w, ∃ x, (f g w).slotWord = some (.s, x)) (hr : ∀ x y, r x y = r' x y) : ScalarRI f r' := by
  intro s g w h hc
  obtain ⟨x, hx⟩ := hw g w
  obtain ⟨t, e, hf⟩ := runSolo_aluOp (op := op) (reads := sPlaces [w.a]) (f := fun v => .s w.d (r (v.s 1 w.a) (w.imm.signExtend 64))) h hx hc
  refine ⟨t, (he ..).trans e, ?_⟩
  rw [View.s_quiet (by exact h.quiet), hr] at hf
  exact hf

theorem compareRR_of {f : Guard → SR → Instr} {r : W64 → W64 → Bool} {r' : W64 → W64 → Prop} {op : BitVec 8} (he : ∀ g w s, exec (f g w) s = runSolo (cmpRR op g w r) (f g w) s)
   (hw : ∀ g w, ∃ x, (f g w).slotWord = some (.s, x)) (hr : ∀ x y, r x y = true ↔ r' x y) : CompareRR f r' := by
  intro s g w b h hc hb
  obtain ⟨x, hx⟩ := hw g w
  obtain ⟨t, e, hf⟩ := runSolo_aluOp (op := op) (reads := sPlaces [w.a, w.b]) (f := fun v => .p w.d (r (v.s 1 w.a) (v.s 2 w.b))) h hx hc
  refine ⟨t, (he ..).trans e, ?_⟩
  rw [View.s_quiet (by exact h.quiet), View.s_quiet (by exact h.quiet)] at hf
  have : r (s.now.sReg w.a) (s.now.sReg w.b) = b := by
    rw [← hr] at hb; exact (Bool.eq_iff_iff.mpr hb).symm
  rw [← this]; exact hf

theorem compareRI_of {f : Guard → SI → Instr} {r : W64 → W64 → Bool} {r' : W64 → W64 → Prop} {op : BitVec 8} (he : ∀ g w s, exec (f g w) s = runSolo (cmpRI op g w r) (f g w) s)
   (hw : ∀ g w, ∃ x, (f g w).slotWord = some (.s, x)) (hr : ∀ x y, r x y = true ↔ r' x y) : CompareRI f r' := by
  intro s g w b h hc hb
  obtain ⟨x, hx⟩ := hw g w
  obtain ⟨t, e, hf⟩ := runSolo_aluOp (op := op) (reads := sPlaces [w.a]) (f := fun v => .p w.d (r (v.s 1 w.a) (w.imm.signExtend 64))) h hx hc
  refine ⟨t, (he ..).trans e, ?_⟩
  rw [View.s_quiet (by exact h.quiet)] at hf
  have : r (s.now.sReg w.a) (w.imm.signExtend 64) = b := by
    rw [← hr] at hb; exact (Bool.eq_iff_iff.mpr hb).symm
  rw [← this]; exact hf

theorem predicateOp_of {f : Guard → SR → Instr} {r r' : Bool → Bool → Bool} {op : BitVec 8} (he : ∀ g w s, exec (f g w) s = runSolo (predOp op g w r) (f g w) s)
   (hw : ∀ g w, ∃ x, (f g w).slotWord = some (.s, x)) (hr : ∀ x y, r x y = r' x y) : PredicateOp f r' := by
  intro s g w h hc
  obtain ⟨x, hx⟩ := hw g w
  obtain ⟨t, e, hf⟩ := runSolo_aluOp (op := op) (reads := [.preg w.a.toNat, .preg w.b.toNat]) (f := fun v => .p w.d (r (v.p 1 w.a) (v.p 2 w.b))) h hx hc
  refine ⟨t, (he ..).trans e, ?_⟩
  rw [View.p_quiet (by exact h.quiet), View.p_quiet (by exact h.quiet), hr] at hf
  exact hf

theorem shiftLeft_nat (x y : W64) : x <<< (y.toNat % 64) = BitVec.ofNat 64 (x.toNat * 2 ^ (y.toNat % 64)) := by
  apply BitVec.eq_of_toNat_eq; simp [Nat.shiftLeft_eq]

theorem shiftRight_nat (x y : W64) : x >>> (y.toNat % 64) = BitVec.ofNat 64 (x.toNat / 2 ^ (y.toNat % 64)) := by
  apply BitVec.eq_of_toNat_eq
  rw [BitVec.toNat_ushiftRight, BitVec.toNat_ofNat, Nat.shiftRight_eq_div_pow]
  exact (Nat.mod_eq_of_lt (Nat.lt_of_le_of_lt (Nat.div_le_self ..) x.isLt)).symm

theorem shiftArith_int (x y : W64) : x.sshiftRight (y.toNat % 64) = BitVec.ofInt 64 (x.toInt / 2 ^ (y.toNat % 64)) := by
  simp only [BitVec.sshiftRight, Int.shiftRight_eq_div_pow]; norm_cast

theorem min_int (x y : W64) : (if y.slt x then y else x) = BitVec.ofInt 64 (min x.toInt y.toInt) := by
  simp only [BitVec.slt, decide_eq_true_eq]
  split
  · rw [Int.min_eq_right (by omega)]; simp
  · rw [Int.min_eq_left (by omega)]; simp

theorem max_int (x y : W64) : (if x.slt y then y else x) = BitVec.ofInt 64 (max x.toInt y.toInt) := by
  simp only [BitVec.slt, decide_eq_true_eq]
  split
  · rw [Int.max_eq_right (by omega)]; simp
  · rw [Int.max_eq_left (by omega)]; simp

theorem min_nat (x y : W64) : (if y.ult x then y else x) = BitVec.ofNat 64 (min x.toNat y.toNat) := by
  simp only [BitVec.ult, decide_eq_true_eq]
  split
  · rw [Nat.min_eq_right (by omega)]; simp
  · rw [Nat.min_eq_left (by omega)]; simp

theorem max_nat (x y : W64) : (if x.ult y then y else x) = BitVec.ofNat 64 (max x.toNat y.toNat) := by
  simp only [BitVec.ult, decide_eq_true_eq]
  split
  · rw [Nat.max_eq_right (by omega)]; simp
  · rw [Nat.max_eq_left (by omega)]; simp

theorem popCount_eq (n x : Nat) : popCount n x = (List.range n).countP fun i => x.testBit i := by
  induction n generalizing x with
  | zero => rfl
  | succ n ih =>
    rw [popCount, ih, List.range_succ_eq_map, List.countP_cons, List.countP_map]
    have : (if x.testBit 0 = true then 1 else 0) = x % 2 := by
      rw [Nat.testBit_zero]; rcases Nat.mod_two_eq_zero_or_one x with h | h <;> simp [h]
    have e : ((fun i => x.testBit i) ∘ Nat.succ) = fun i => (x/2).testBit i := by
      funext i; simp [Nat.testBit_succ]
    rw [e, this]; omega

theorem fpArith_of {f : Guard → SR → Instr} {op : BitVec 8} {cls : Nat} {x : State → SR → RMode → Fv × Flags} {y : View → SR → RMode → Fv × Flags}
   (he : ∀ g w s, exec (f g w) s = runSolo (fpOp op cls g w true fun v m d => fpRound w m d (y v w m)) (f g w) s)
   (hw : ∀ g w, ∃ z, (f g w).slotWord = some (.s, z))
   (hy : ∀ v : View, v.core.Quiet → ∀ s : State, s.now = v.core → ∀ w m, y v w m = x s w m) : FpArith f cls x := by
  intro s g w h hc
  obtain ⟨z, hz⟩ := hw g w
  obtain ⟨t, e, hf⟩ := runSolo_fpOp (op := op) (q := w) (draw := true) (f := fun v m d => fpRound w m d (y v w m)) h hz hc
  refine ⟨t, (he ..).trans e, ?_⟩
  simp only at hf
  rw [hy (s.view _) (by exact h.quiet) s rfl w] at hf
  have hm : (s.view (fpOp op cls g w true fun v m d => fpRound w m d (y v w m))).mode (w.fn.extractLsb' 0 3) = s.fpMode w := rfl
  simp only [hm, if_true] at hf
  have hd1 : (drawsFor (s.fpMode w) 1 (s.core s.cur).cr.seed).1.headD 0 = s.drawn w := by
    simp only [drawsFor, State.drawn]; split <;> rfl
  have hd2 : (drawsFor (s.fpMode w) 1 (s.core s.cur).cr.seed).2 = s.seedAfter w := by
    simp only [drawsFor, State.seedAfter]; split <;> rfl
  rw [hd1, hd2] at hf
  exact hf

theorem fpExact_of {f : Guard → SR → Instr} {op : BitVec 8} {x : State → SR → Write × Flags} {y : View → SR → Write × Flags}
   (he : ∀ g w s, exec (f g w) s = runSolo (fpOp op 2 g w false fun v m d => (y v w)) (f g w) s)
   (hw : ∀ g w, ∃ z, (f g w).slotWord = some (.s, z))
   (hy : ∀ v : View, v.core.Quiet → ∀ s : State, s.now = v.core → ∀ w, y v w = x s w) : FpExact f x := by
  intro s g w h hc
  obtain ⟨z, hz⟩ := hw g w
  obtain ⟨t, e, hf⟩ := runSolo_fpOp (op := op) (q := w) (draw := false) (f := fun v m d => (y v w)) h hz hc
  refine ⟨t, (he ..).trans e, ?_⟩
  simp only at hf
  rw [hy (s.view _) (by exact h.quiet) s rfl w] at hf
  have hd2 : ∀ m, (drawsFor m 0 (s.core s.cur).cr.seed).2 = (s.core s.cur).cr.seed := by
    intro m; simp only [drawsFor]; split <;> rfl
  simp only [Bool.false_eq_true, if_false] at hf
  rw [hd2] at hf
  have : ∀ c : Core, ∀ n fl, (c.flagsAt n fl).withSeed c.cr.seed = c.flagsAt n fl := by
    intro c n fl; simp only [Core.flagsAt]; split; rfl; split <;> rfl
  rw [this] at hf
  exact hf

theorem View.fp_quiet (v : View) (h : v.core.Quiet) (s : State) (e : s.now = v.core) (site n) : v.fp site n = s.fpOf n := by
  simp only [View.fp, State.fpOf, View.s_quiet h, e]
  rw [BitVec.extractLsb'_toNat]; rfl

theorem View.fpBits_quiet (v : View) (h : v.core.Quiet) (s : State) (e : s.now = v.core) (site n) : v.fpBits site n = (s.now.sReg n).toNat % 2^32 := by
  simp only [View.fpBits, View.s_quiet h, e]
  rw [BitVec.extractLsb'_toNat]; rfl

/-- Where check 1 passes, each of its parts passes. -/
theorem firstErr_none : ∀ {l : List (Option WfError)}, firstErr l = none → ∀ x ∈ l, x = none
  | [], _, _, h => by cases h
  | some _ :: _, h, _, _ => by cases h
  | none :: l, h, x, hx => by
    rcases List.mem_cons.mp hx with rfl | hx
    · rfl
    · exact firstErr_none (l := l) h x hx

end Sys2Proof.Machine
end

