-- ==== Sys2Proof/Laws/Sched.lean ====
section
/-! SUPPORT. What the scheduler's events change and leave alone. -/

namespace Sys2Proof.Machine

theorem checkPacket_launch (s : State) (q : QSlot) (p : List Byte) (l : Launch) (h : s.checkPacket q p = .launch l) :
    fieldOf p 0 4 = 1 ∧ l.started = 0 ∧ l.ended = 0 ∧ l.widbase = fieldOf p 0x10 8 ∧ 1 ≤ l.total ∧ l.total ≤ 2 ^ 48 ∧
      l.done = fieldOf p 0x28 8 ∧ l.args.length = 7 := by
  unfold State.checkPacket at h
  simp only at h
  split at h; · cases h
  split at h; · cases h
  split at h; · cases h
  split at h; · cases h
  split at h; · cases h
  split at h; · cases h
  split at h; · cases h
  have key : ∀ hh d w g, State.checkPacket.mk p hh d w g = .launch l →
      l.started = 0 ∧ l.ended = 0 ∧ l.widbase = fieldOf p 0x10 8 ∧ l.total = fieldOf p 0x18 8 ∧
      l.done = fieldOf p 0x28 8 ∧ l.args.length = 7 := by
    intro hh d w g hm
    unfold State.checkPacket.mk at hm
    cases hm
    exact ⟨rfl, rfl, rfl, rfl, rfl, by simp⟩
  have fin : l.started = 0 ∧ l.ended = 0 ∧ l.widbase = fieldOf p 0x10 8 ∧ l.total = fieldOf p 0x18 8 ∧
      l.done = fieldOf p 0x28 8 ∧ l.args.length = 7 := by
    split at h
    · split at h
      · cases h
      · exact key _ _ _ _ h
    · exact key _ _ _ _ h
  obtain ⟨a, b, c, d, e, f⟩ := fin
  rename_i h1 _ _ _ _ _ _ _ hc
  simp only [not_or] at hc
  refine ⟨by omega, a, b, c, ?_, ?_, e, f⟩ <;> omega

theorem foldl_modCore_core (f : Core → Core) (hf : ∀ c, f (f c) = f c) (k : Nat) : ∀ (l : List Nat) (s : State),
    (l.foldl (fun s k => s.modCore k f) s).core k = if l.contains k then f (s.core k) else s.core k
  | [], s => by simp
  | j :: l, s => by
    rw [List.foldl_cons, foldl_modCore_core f hf k l]
    by_cases h : k = j
    · subst h; simp [hf]
    · rw [State.core_modCore_ne s f h]
      simp [List.contains_cons, h]

theorem foldl_modCore_mem (f : Core → Core) : ∀ (l : List Nat) (s : State), (l.foldl (fun s k => s.modCore k f) s).mem = s.mem
  | [], _ => rfl
  | _ :: l, s => (foldl_modCore_mem f l _).trans rfl

theorem slot_setSlot (s : State) (n : Nat) (q : QSlot) : (s.setSlot n q).slot n = q := by unfold State.slot State.setSlot; rw [SMap.get_set, if_pos rfl]

theorem slot_modLaunch (s : State) (n : Nat) (f : Launch → Launch) :
    (s.modLaunch n f).slot n = { s.slot n with launch := (s.slot n).launch.map f } := slot_setSlot ..

theorem startItem_live (s : State) (key slot : Nat) (l : Launch) (it : Item) (h : s.ctxState (s.slot slot).asid = 1) :
    (s.startItem key slot l it).core key = s.startState (s.core key) (s.slot slot).asid l it ∧
    ((s.startItem key slot l it).slot slot).launch.map Launch.started = (s.slot slot).launch.map Launch.started := by
  unfold State.startItem
  simp only [h, ne_eq, not_true_eq_false, if_false]
  constructor
  · show (s.setCore key _).core key = _
    exact State.core_setCore ..
  · rw [slot_modLaunch]
    show ((s.slot slot).launch.map _).map _ = _
    rw [Option.map_map]; rfl

theorem startState_fields (s : State) (c : Core) (asid : BitVec 16) (l : Launch) (it : Item) :
    let d := s.startState c asid l it
    d.pc = BitVec.ofNat 57 (l.code + l.codeOff + (l.stages[it.stage]?.map Stage.entry).getD 0) ∧ d.cr.asid = asid ∧ d.cr.flags = 0 ∧
    d.cr.ceiling = 10 ∧ d.cr.seed = l.seed ^^^ it.wid ∧ d.cr.round = 1 ∧ d.cr.sys = false ∧ d.cr.halt = false ∧ d.p = [] ∧ d.h = [] ∧
    d.item.map Item.record = some it.record ∧ d.item.map Item.wid = some it.wid ∧ d.ranges = s.ctxRanges asid :=
  by
  simp [State.startState]

theorem itemStart_wid (s : State) (core n : Nat) (l : Launch) (q : Stage) : s.nextOf core = some (n, 0, l) → l.stages[0]? = some q → q.suspended = [] →
      q.count = 0 → s.ctxState (s.slot n).asid = 1 → ∃ t, exec (.itemStart core) s = .next t ∧
        let d := t.core core
        let wid := l.widbase + l.started
        d.pc = BitVec.ofNat 57 (l.code + l.codeOff + q.entry) ∧ d.cr.asid = (s.slot n).asid ∧ d.cr.flags = 0 ∧ d.cr.ceiling = 10 ∧
        d.cr.seed = l.seed ^^^ BitVec.ofNat 64 wid ∧ d.cr.round = 1 ∧ d.cr.sys = false ∧ d.cr.halt = false ∧ d.p = [] ∧ d.h = [] ∧
        d.item.map Item.record = some (l.widRecord wid) ∧ d.item.map Item.wid = some (BitVec.ofNat 64 wid) ∧
        d.ranges = s.ctxRanges (s.slot n).asid ∧ (t.slot n).launch.map Launch.started = (s.slot n).launch.map fun l => l.started + 1 := by
  intro h1 h2 h3 h4 h5
  refine ⟨_, by
    show execItemStart core s = _
    simp only [execItemStart, h1, h2, h3, h4, List.isEmpty_nil, Bool.not_true, Bool.false_eq_true, if_false, Nat.lt_irrefl]
    rfl, ?_⟩
  intro d wid
  have e : (s.modLaunch n fun l => { l with started := l.started + 1 }).slot n =
      { s.slot n with launch := (s.slot n).launch.map fun l => { l with started := l.started + 1 } } := slot_modLaunch ..
  have h := startItem_live (s.modLaunch n fun l => { l with started := l.started + 1 }) core n l
    (l.itemOf n 0 wid (l.widRecord wid) none) (by rw [e]; exact h5)
  rw [e] at h
  have hd : d = _ := h.1
  obtain ⟨f1, f2, f3, f4, f5, f6, f7, f8, f9, f10, f11, f12, f13⟩ := startState_fields (s.modLaunch n fun l => { l with started := l.started + 1 })
    ((s.modLaunch n fun l => { l with started := l.started + 1 }).core core) (s.slot n).asid l (l.itemOf n 0 wid (l.widRecord wid) none)
  rw [hd]
  refine ⟨f1.trans ?_, f2, f3, f4, f5, f6, f7, f8, f9, f10, f11, f12, f13, h.2.trans ?_⟩
  · show BitVec.ofNat 57 (l.code + l.codeOff + (l.stages[0]?.map Stage.entry).getD 0) = _
    rw [h2]; rfl
  · show ((s.slot n).launch.map _).map _ = _
    rw [Option.map_map]; rfl

theorem resumeEntry_starts (s : State) (core n i image : Nat) (l : Launch) (q : Stage) (it : Item) (rest) : s.nextOf core = some (n, i, l) → l.stages[i]? = some q →
      q.suspended = (image, it) :: rest → ∃ t, exec (.resumeEntry core) s = .next t ∧
        let d := t.core core
        d.pc = 0x2300 ∧ d.cr.sys = true ∧ d.cr.cause = 0x10 ∧ d.cr.asid = 0 ∧ d.cr.einfo = BitVec.ofNat 64 image ∧
        d.chargeTo = some (s.slot n).asid ∧ d.ranges = s.ctxRanges 0 ∧ t.mem = s.mem := by
  intro h1 h2 h3
  refine ⟨_, by
    show execResumeEntry core s = _
    simp only [execResumeEntry, h1, h2, h3, Option.map_some]
    rfl, ?_⟩
  intro d
  have hs : ((s.modStage n i fun q => { q with suspended := rest }).slot n).asid = (s.slot n).asid := by
    unfold State.modStage; rw [slot_modLaunch]
  let m := s.modStage n i fun q => { q with suspended := rest }
  let g : Core → Core := fun c => { c with
          pc := 0x2300, sticky := [], pend := [], drives := [], flagOrs := [], repLeft := none, latch := none, saved := false
          cr := { c.cr with sys := true, cause := 0x10, asid := 0, einfo := BitVec.ofNat 64 image }
          ranges := m.ctxRanges 0, async := [], yieldReq := false
          incoming := some { it with wdogStart := m.time, started := m.time }, chargeTo := some (m.slot n).asid }
  have hd : d = g (m.core core) := State.core_modCore m core g
  rw [hd]
  have hr : ∀ a, m.ctxRanges a = s.ctxRanges a := fun a => by
    have hm : m.mem = s.mem := rfl
    have hb : m.bases = s.bases := rfl
    simp only [State.ctxRanges, State.ctxRange, State.ctxEntry, State.memNat, State.memBytes, hm, hb]
  have hr0 := hr 0
  generalize m.ctxRanges 0 = x at hr0
  refine ⟨rfl, rfl, rfl, rfl, rfl, congrArg some hs, ?_, rfl⟩
  dsimp only [g]
  exact hr 0

/-- What the stage scheduler's decisions leave alone. -/
structure SchedKeeps (s t : State) : Prop where
  mem : t.mem = s.mem
  logSeq : t.logSeq = s.logSeq
  queues : t.queues = s.queues
  parts : t.parts = s.parts
  time : t.time = s.time
  item : ∀ k, (s.core k).item.isSome = true → (t.core k).item = (s.core k).item

theorem SchedKeeps.rfl' (s : State) : SchedKeeps s s := ⟨rfl, rfl, rfl, rfl, rfl, fun _ _ => rfl⟩

theorem SchedKeeps.trans {s t u : State} (a : SchedKeeps s t) (b : SchedKeeps t u) : SchedKeeps s u :=
  ⟨b.mem.trans a.mem, b.logSeq.trans a.logSeq, b.queues.trans a.queues, b.parts.trans a.parts, b.time.trans a.time,
    fun k h => (b.item k (by rw [a.item k h]; exact h)).trans (a.item k h)⟩

theorem SchedKeeps.foldl {α : Type} (f : State → α → State) (h : ∀ s x, SchedKeeps s (f s x)) : ∀ (l : List α) (s : State), SchedKeeps s (l.foldl f s)
  | [], s => .rfl' s
  | x :: l, s => (h s x).trans (SchedKeeps.foldl f h l (f s x))

theorem schedKeeps_setSlot (s : State) (n : Nat) (q : QSlot) : SchedKeeps s (s.setSlot n q) := ⟨rfl, rfl, rfl, rfl, rfl, fun _ _ => rfl⟩

theorem schedKeeps_modLaunch (s : State) (n : Nat) (f : Launch → Launch) : SchedKeeps s (s.modLaunch n f) := schedKeeps_setSlot ..

theorem schedKeeps_setAssign (s : State) (n : Nat) (q : Assign) : SchedKeeps s (s.setAssign n q) := ⟨rfl, rfl, rfl, rfl, rfl, fun _ _ => rfl⟩

theorem schedKeeps_mark (s : State) (n : Nat) (q) : SchedKeeps s (s.mark n q) := schedKeeps_setAssign ..

theorem schedKeeps_modWhorl (s : State) (n : Nat) (q) : SchedKeeps s (s.modWhorl n q) := ⟨rfl, rfl, rfl, rfl, rfl, fun _ _ => rfl⟩

theorem schedKeeps_readMark (s : State) (die : Nat) : SchedKeeps s (s.readMark die) := by
  unfold State.readMark
  simp only
  split
  · split
    · exact schedKeeps_modWhorl ..
    · exact .rfl' s
  · split
    · exact .rfl' s
    · exact schedKeeps_modWhorl ..
  · exact .rfl' s

theorem schedKeeps_shrink (slot n share : Nat) (t cores) : ∀ (k : Nat) (s : State), SchedKeeps s (s.shrink slot n share t cores k)
  | 0, s => .rfl' s
  | k + 1, s => by
    unfold State.shrink
    simp only
    split
    · exact .rfl' s
    · split
      · exact .rfl' s
      · exact (schedKeeps_mark ..).trans (schedKeeps_shrink slot n share t cores k _)

theorem schedKeeps_grow (slot n share : Nat) (t cores) : ∀ (k : Nat) (s : State), SchedKeeps s (s.grow slot n share t cores k)
  | 0, s => .rfl' s
  | k + 1, s => by
    unfold State.grow
    simp only
    split
    · exact .rfl' s
    · split
      · exact .rfl' s
      · exact (schedKeeps_mark ..).trans (schedKeeps_grow slot n share t cores k _)

theorem schedKeeps_moveCores (slot n : Nat) (t cores) : ∀ (k : Nat) (s : State), SchedKeeps s (s.moveCores slot n t cores k)
  | 0, s => .rfl' s
  | k + 1, s => by
    unfold State.moveCores
    simp only
    split
    · exact .rfl' s
    · split
      · exact .rfl' s
      · exact (schedKeeps_mark ..).trans (schedKeeps_moveCores slot n t cores k _)

theorem schedKeeps_assignSlot (s : State) (die slot share : Nat) (cores) : SchedKeeps s (s.assignSlot die slot share cores) := by
  unfold State.assignSlot
  simp only
  split
  · exact schedKeeps_shrink ..
  · exact (((schedKeeps_shrink ..).trans (schedKeeps_grow ..)).trans (schedKeeps_moveCores ..)).trans (schedKeeps_modLaunch ..)

theorem schedKeeps_rebalancePart (s : State) (part die : Nat) : SchedKeeps s (s.rebalancePart part die) := by
  unfold State.rebalancePart
  simp only
  refine ((SchedKeeps.foldl _ (fun s x => ?_) _ s).trans (SchedKeeps.foldl _ (fun s x => ?_) _ _)).trans
    (SchedKeeps.foldl _ (fun s x => schedKeeps_assignSlot ..) _ _)
  · exact schedKeeps_setSlot ..
  · split
    · exact schedKeeps_shrink ..
    · exact .rfl' _

theorem schedKeeps_dropStale (s : State) (die : Nat) : SchedKeeps s (s.dropStale die) := by
  unfold State.dropStale
  refine SchedKeeps.foldl _ (fun s x => ?_) _ s
  split
  · exact .rfl' _
  · simp only
    split
    · exact schedKeeps_mark ..
    · exact .rfl' _

theorem schedKeeps_modCore (s : State) (k : Nat) (f : Core → Core) (h : ∀ c, (f c).item = c.item) : SchedKeeps s (s.modCore k f) := by
  refine ⟨rfl, rfl, rfl, rfl, rfl, fun j _ => ?_⟩
  by_cases e : j = k
  · subst e; rw [State.core_modCore]; exact h _
  · rw [State.core_modCore_ne s f e]

theorem schedKeeps_settleMarks (s : State) (die : Nat) : SchedKeeps s (s.settleMarks die) := by
  unfold State.settleMarks
  refine SchedKeeps.foldl _ (fun s x => ?_) _ s
  simp only
  split
  · split
    · exact .rfl' _
    · exact schedKeeps_modCore _ _ _ fun _ => rfl
  · exact schedKeeps_setAssign ..

theorem schedKeeps_startItem (s : State) (k slot : Nat) (l : Launch) (it : Item) (h : (s.core k).item = none) : SchedKeeps s (s.startItem k slot l it) := by
  unfold State.startItem
  simp only
  split
  · exact schedKeeps_modLaunch ..
  · refine ⟨rfl, rfl, rfl, rfl, rfl, fun j hj => ?_⟩
    have e : j ≠ k := fun e => by subst e; rw [h] at hj; exact absurd hj (by decide)
    show ((s.setCore k _).core j).item = _
    rw [State.core_setCore_ne _ _ e]

theorem core_startItem_ne (s : State) (k j slot : Nat) (l : Launch) (it : Item) (e : j ≠ k) : (s.startItem k slot l it).core j = s.core j := by
  unfold State.startItem
  simp only
  split
  · rfl
  · show (s.setCore k _).core j = _
    rw [State.core_setCore_ne _ _ e]

theorem schedKeeps_startGang (slot : Nat) (l : Launch) (inner : Nat) (s0 : State) : ∀ (ks : List Nat) (s : State), (∀ k ∈ ks, (s0.core k).item = none) →
    SchedKeeps s0 s → SchedKeeps s0 (s.startGang slot l inner ks)
  | [], s, _, h => h
  | k :: rest, s, hk, h => by
    unfold State.startGang
    split
    · exact h
    · simp only
      refine schedKeeps_startGang slot l inner s0 rest _ (fun j hj => hk j (List.mem_cons_of_mem _ hj)) ?_
      have step : ∀ u : State, SchedKeeps s0 u → ∀ it, SchedKeeps s0 (u.startItem k slot l it) := fun u hu it => by
        have h0 := hk k List.mem_cons_self
        refine ⟨?_, ?_, ?_, ?_, ?_, fun j hj => ?_⟩
        · exact (show (u.startItem k slot l it).mem = u.mem by unfold State.startItem; simp only; split <;> rfl).trans hu.mem
        · exact (show (u.startItem k slot l it).logSeq = u.logSeq by unfold State.startItem; simp only; split <;> rfl).trans hu.logSeq
        · exact (show (u.startItem k slot l it).queues = u.queues by unfold State.startItem; simp only; split <;> rfl).trans hu.queues
        · exact (show (u.startItem k slot l it).parts = u.parts by unfold State.startItem; simp only; split <;> rfl).trans hu.parts
        · exact (show (u.startItem k slot l it).time = u.time by unfold State.startItem; simp only; split <;> rfl).trans hu.time
        · have e : j ≠ k := fun e => by subst e; rw [h0] at hj; exact absurd hj (by decide)
          rw [core_startItem_ne _ _ _ _ _ _ e]; exact hu.item j hj
      refine step _ (SchedKeeps.trans ?_ (schedKeeps_modLaunch ..)) _
      split
      · exact h
      · exact h.trans ⟨rfl, rfl, rfl, rfl, rfl, fun _ _ => rfl⟩

theorem schedKeeps_headGang (s : State) (die slot : Nat) : SchedKeeps s (s.headGang die slot) := by
  unfold State.headGang
  simp only
  split
  · exact .rfl' s
  · split
    · split
      · exact .rfl' s
      · split
        · exact .rfl' s
        · refine schedKeeps_startGang _ _ _ s _ s (fun k hk => ?_) (.rfl' s)
          have := List.mem_of_mem_take hk
          simp only [List.mem_map, List.mem_filter, Bool.and_eq_true, Bool.not_eq_true'] at this
          obtain ⟨a, ⟨_, ⟨⟨_, hb⟩, _⟩, _⟩, rfl⟩ := this
          unfold State.busyCore at hb
          simp only [Bool.or_eq_false_iff] at hb
          exact Option.not_isSome_iff_eq_none.mp (by rw [hb.1]; decide)
    · exact .rfl' s

theorem core_logAppend (s : State) (r : LogRec) (k : Nat) : (s.logAppend r).core k = s.core k := rfl

theorem foldl_modCore_ne (f : Nat → Core → Core) (k : Nat) : ∀ (l : List Nat) (s : State), k ∉ l →
    (l.foldl (fun s k => s.modCore k (f k)) s).core k = s.core k
  | [], _, _ => rfl
  | j :: l, s, h => by
    rw [List.foldl_cons, foldl_modCore_ne f k l _ fun hl => h (List.mem_cons_of_mem _ hl), State.core_modCore_ne]
    exact fun e => h (e ▸ List.mem_cons_self)

theorem whorl_modWhorl (s : State) (die : Nat) (f : Whorl → Whorl) : (s.modWhorl die f).whorl die = f (s.whorl die) := by
  unfold State.modWhorl State.whorl; simp only; rw [SMap.get_set, if_pos rfl]

theorem phase_left (p : WhorlPhase) (site : Nat) : (if p.site = some site then WhorlPhase.serving else p).site ≠ some site := by
  split
  · simp [WhorlPhase.site]
  · assumption

theorem modWhorl_left (s : State) (die site : Nat) :
    let t := s.modWhorl die fun w =>
        { w with
          phase := (if w.phase.site = some site then .serving else w.phase)
          retry := w.retry.filter (· ≠ site) }
    (t.whorl die).phase.site ≠ some site ∧ site ∉ (t.whorl die).retry := by
  intro t
  show ((s.modWhorl die _).whorl die).phase.site ≠ _ ∧ site ∉ ((s.modWhorl die _).whorl die).retry
  rw [whorl_modWhorl]
  exact ⟨phase_left _ site, by simp⟩

theorem raise_fold (k : Nat) (a : Async) : ∀ (l : List Nat) (s : State), (s.core k).async.head? = some a →
    let t := l.foldl (fun s k => s.modCore k fun c => c.raiseAsync 0x10 0) s
    (t.core k).async.head? = some a ∧ (t.core k).causeSeq = (s.core k).causeSeq ∧ t.resets = s.resets ∧ t.logSeq = s.logSeq ∧ t.time = s.time
  | [], _, h => ⟨h, rfl, rfl, rfl, rfl⟩
  | j :: l, s, h => by
    have hs : ((s.modCore j fun c => c.raiseAsync 0x10 0).core k).async.head? = some a ∧
        ((s.modCore j fun c => c.raiseAsync 0x10 0).core k).causeSeq = (s.core k).causeSeq := by
      by_cases e : k = j
      · subst e
        rw [State.core_modCore]
        unfold Core.raiseAsync
        split
        · exact ⟨h, rfl⟩
        · refine ⟨?_, rfl⟩
          cases hl : (s.core k).async with
          | nil => rw [hl] at h; cases h
          | cons x l => rw [hl] at h; simpa using h
      · rw [State.core_modCore_ne s _ e]; exact ⟨h, rfl⟩
    have := raise_fold k a l _ hs.1
    exact ⟨this.1, this.2.1.trans hs.2, this.2.2.1, this.2.2.2.1, this.2.2.2.2⟩

theorem watchdogExpire_done (s : State) : ∀ core it, (s.core core).item = some it → (s.core core).cr.halt = false → (s.core core).saved = false →
      (s.slot it.slot).state = .bound → (s.core core).async = [] → ∃ t, exec (.watchdogExpire core) s = .next t ∧
        t.resets.contains (s.slot it.slot).part = true ∧ t.logSeq = s.logSeq + 1 ∧
        (t.core core).async.head? = some ⟨0x11, BitVec.ofNat 64 it.slot, false⟩ ∧ (t.core core).causeSeq = some s.logSeq ∧
        s.time ≤ t.time ∧ it.wdogStart + 1000 * (if (s.slot it.slot).wdog = 0 then 50000 else (s.slot it.slot).wdog) ≤ t.time := by
  intro core it h1 h2 h3 h4 h5
  refine ⟨_, by
    show execWatchdogExpire core s = _
    simp only [execWatchdogExpire, h1]
    rw [if_neg (by rw [h2, h3, h4, h5]; decide)]
    rfl, ?_⟩
  have hh : ∀ u : State, u.core core = s.core core →
      ((u.modCore core fun c => { c.raiseAsync 0x11 (BitVec.ofNat 64 it.slot) with causeSeq := some s.logSeq }).core core).async.head? =
        some ⟨0x11, BitVec.ofNat 64 it.slot, false⟩ ∧
      ((u.modCore core fun c => { c.raiseAsync 0x11 (BitVec.ofNat 64 it.slot) with causeSeq := some s.logSeq }).core core).causeSeq = some s.logSeq := by
    intro u hu
    rw [State.core_modCore, hu]
    refine ⟨?_, rfl⟩
    simp [Core.raiseAsync, h5]
  have hq := hh ({ s with time := max s.time (it.wdogStart + 1000 * (if (s.slot it.slot).wdog = 0 then 50000 else (s.slot it.slot).wdog)) }.logAppend
    { code := 0x0030, cls := 2, part := (s.slot it.slot).part, asid := (s.slot it.slot).asid.toNat, source := 8 * 256 + it.slot
      wid := it.wid.toNat, detail := it.slot + it.yields * 2 ^ 64 }) rfl
  have hf := fun l => raise_fold core ⟨0x11, BitVec.ofNat 64 it.slot, false⟩ l
    { ({ s with time := max s.time (it.wdogStart + 1000 * (if (s.slot it.slot).wdog = 0 then 50000 else (s.slot it.slot).wdog)) }.logAppend
    { code := 0x0030, cls := 2, part := (s.slot it.slot).part, asid := (s.slot it.slot).asid.toNat, source := 8 * 256 + it.slot
      wid := it.wid.toNat, detail := it.slot + it.yields * 2 ^ 64 }).modCore core
        (fun c => { c.raiseAsync 0x11 (BitVec.ofNat 64 it.slot) with causeSeq := some s.logSeq }) with
      resets := s.resets.filter (· ≠ (s.slot it.slot).part) ++ [(s.slot it.slot).part] } hq.1
  refine ⟨?_, (hf _).2.2.2.1, (hf _).1, (hf _).2.1.trans hq.2, ?_, ?_⟩
  · refine (congrArg (List.contains · (s.slot it.slot).part) (hf _).2.2.1).trans ?_
    simp
  · exact Nat.le_trans (Nat.le_max_left ..) (Nat.le_of_eq (hf _).2.2.2.2.symm)
  · exact Nat.le_trans (Nat.le_max_right ..) (Nat.le_of_eq (hf _).2.2.2.2.symm)

end Sys2Proof.Machine
end

