-- ==== Sys2Proof/Laws/Requests.lean ====
section
/-! SUPPORT. How the mailbox requests are served and answered. -/

namespace Sys2Proof.Machine

theorem headRequest_serves {s : State} {code mb : Nat} (h : s.Serves code mb) : s.headRequest code = some (mb, s.mailbox mb) := by
  obtain ⟨h1, h2, h3, _⟩ := h
  unfold State.headRequest
  cases hq : s.host.queue with
  | nil => rw [hq] at h1; cases h1
  | cons x l =>
    rw [hq] at h1; cases h1
    simp only
    rw [if_pos ⟨h2, by rw [h3]; decide⟩]

theorem serveRequest_answer {s : State} {code mb : Nat} {f : Nat → (Nat → W64) → State → Served} {o : Nat} {vals : List W64} {t : State}
    (h : s.Serves code mb) (e : f mb (s.operand mb) s = .answer o vals t) : s.serveRequest code f = .next (t.respond mb o vals) := by
  unfold State.serveRequest
  rw [headRequest_serves h]
  simp only
  rw [if_neg fun q => h.2.2.2 q.1, show f mb (s.mailbox mb).word s = _ from e]

theorem serveRequest_wait {s : State} {code mb : Nat} {f : Nat → (Nat → W64) → State → Served} {t : State}
    (h : s.Serves code mb) (e : f mb (s.operand mb) s = .wait t) : s.serveRequest code f = .next t := by
  unfold State.serveRequest
  rw [headRequest_serves h]
  simp only
  rw [if_neg fun q => h.2.2.2 q.1, show f mb (s.mailbox mb).word s = _ from e]

theorem withContext_ok {s : State} {mb : Nat} {w : W64} {asid : BitVec 16} (h : s.ownContext mb w = .ok asid) (f : BitVec 16 → Served) :
    s.withContext mb w f = f asid := by unfold State.withContext; rw [h]

theorem chooseFrom_mem {s t : State} {l : List Nat} {n : Nat} (h : s.chooseFrom l = some (n, t)) : n ∈ l := by
  unfold State.chooseFrom at h
  simp only [Option.map_eq_some_iff] at h
  obtain ⟨x, hx, h⟩ := h
  cases h
  exact List.mem_of_getElem? hx

theorem afterRevoke_none {s : State} {p : Grant → Bool} (h : ∀ g ∈ s.host.grants, p g = false) (f : State → Served) : s.afterRevoke p f = f s := by
  unfold State.afterRevoke
  rw [if_neg]
  intro hh
  obtain ⟨g, hg, hp⟩ := List.any_eq_true.mp hh
  rw [h g hg] at hp; exact absurd hp (by decide)

theorem regq_answers (s : State) (mb : Nat) (asid : BitVec 16) (ha : s.ownContext mb (s.operand mb 1) = .ok asid) :
    s.Serves 0x08 mb → ∀ qid t a u, s.chooseFrom ((List.range 4096).filter fun q => SMap.get none s.queues q == none) = some (qid, t) →
        t.takeSystem asid 256 = some (a, u) → s.ctxState asid = 1 →
        let v := u.putSystem a (qcbImage (s.hostRead (s.operand mb 2).toNat 256) mb qid asid)
        v.qcbOk a = true → ∃ x, Answers .regq s mb 0 [BitVec.ofNat 64 qid] x ∧ x.mem = v.mem ∧
          x.queues = SMap.set none v.queues qid (some { qcb := a, part := mb, since := v.time }) ∧
          SMap.get none s.queues qid = none ∧
          (v.memNat (a + 0x10) 8 < v.memNat (a + 0x18) 8 → SMap.get false x.pendingQ qid = true) := by
  intro hs qid t a u h1 h2 h3 v h4
  have hz : SMap.get none s.queues qid = none := by
    have := chooseFrom_mem h1
    simp only [List.mem_filter, beq_iff_eq] at this
    exact this.2
  refine ⟨{ v with
      queues := SMap.set none v.queues qid (some { qcb := a, part := mb, since := v.time })
      pendingQ := if decide (v.memNat (a + 0x10) 8 < v.memNat (a + 0x18) 8) = true then SMap.set false v.pendingQ qid true else v.pendingQ },
    ?_, rfl, rfl, hz, fun hp => ?_⟩
  · show execRegq s = _
    unfold execRegq
    refine serveRequest_answer hs ((withContext_ok ha _).trans ?_)
    simp only
    rw [h1]
    simp only
    rw [h2]
    simp only
    rw [if_neg (by
      rintro (h | h)
      · exact h h3
      · rw [show State.qcbOk _ a = true from h4] at h; cases h)]
    rfl
  dsimp only
  rw [if_pos (decide_eq_true hp), SMap.get_set, if_pos rfl]

theorem regobj_ok {s : State} {asid : BitVec 16} {b n i : Nat} (h1 : 0 < n) (h2 : n < 2 ^ 48) (h3 : b + n ≤ 2 ^ 57)
    (h4 : ∀ o ∈ s.objMap asid, (o.vbase + o.size ≤ b ∨ b + n ≤ o.vbase) ∧ (o.kind = 1 → o.id ≠ i)) :
    ¬ (n = 0 ∨ 2 ^ 48 ≤ n ∨ 2 ^ 57 < b + n ∨ ((s.objMap asid).any fun o =>
      (decide (o.vbase < b + n) && decide (b < o.vbase + o.size)) || (o.kind == 1 && o.id == i)) = true) := by
  rintro (q | q | q | q)
  · omega
  · omega
  · omega
  · obtain ⟨o, ho, q⟩ := List.any_eq_true.mp q
    obtain ⟨ha, hb⟩ := h4 o ho
    simp only [Bool.or_eq_true, Bool.and_eq_true, decide_eq_true_eq, beq_iff_eq] at q
    rcases q with q | q
    · omega
    · exact hb q.1 q.2

theorem placed_any {s : State} {asid : BitVec 16} {hash : Nat} (h : ∃ q ∈ s.fnsOf asid, q.2.hash = hash) :
    ((s.fnsOf asid).any fun q => q.2.hash == hash) = true := by
  obtain ⟨y, hy, hh⟩ := h
  exact List.any_eq_true.mpr ⟨y, hy, beq_iff_eq.mpr hh⟩

theorem place_answers (s : State) (mb : Nat) (asid : BitVec 16) (ha : s.ownContext mb (s.operand mb 1) = .ok asid) (hs : s.Serves 0x10 mb)
    (hb : s.badAccount asid = false) :
    let w := s.operand mb
    (s.readVa asid (w 2).toNat 128 = none → Answers .place s mb 1 [] s) ∧
        (∀ h l, s.readVa asid (w 2).toNat 128 = some h → s.readVa asid (w 2).toNat (opListSize h) = some l →
          (opListGood l = false ∨ stagesOk l = false → Answers .place s mb 1 [] s) ∧
          (opListGood l = true → stagesOk l = true →
            (∀ e, s.grantErrata mb ((List.range (fieldOf l 0x28 2)).map fun i => fieldOf l (0x40 + 2 * i) 2) = .error e →
              Answers .place s mb e [] s) ∧
            (∀ t u v, s.grantErrata mb ((List.range (fieldOf l 0x28 2)).map fun i => fieldOf l (0x40 + 2 * i) 2) = .ok t →
              t.bindFabric mb ((List.range (fieldOf l 0x2A 2)).map fun i => fieldOf l (0x60 + 2 * i) 2) = some u →
              u.placeList asid l = some v → Answers .place s mb 0 [] v))) := by
  intro w
  have hb' : ¬ s.badAccount asid = true := by rw [hb]; decide
  refine ⟨fun h => ?_, fun h l h1 h2 => ⟨fun h3 => ?_, fun h3 h4 => ⟨fun e h5 => ?_, fun t u v h5 h6 h7 => ?_⟩⟩⟩
  · show execPlace s = _
    unfold execPlace
    refine serveRequest_answer hs ((withContext_ok ha _).trans ?_)
    rw [if_neg hb', show s.readVa asid (s.operand mb 2).toNat 128 = none from h]
    rfl
  · show execPlace s = _
    unfold execPlace
    refine serveRequest_answer hs ((withContext_ok ha _).trans ?_)
    rw [if_neg hb', show s.readVa asid (s.operand mb 2).toNat 128 = some h from h1]
    simp only [Option.bind_some]
    rw [show s.readVa asid (s.operand mb 2).toNat (opListSize h) = some l from h2]
    simp only
    rw [if_pos (h3.imp (fun h => by rw [h]; rfl) fun h => by rw [h]; rfl)]
    rfl
  · show execPlace s = _
    unfold execPlace
    refine serveRequest_answer hs ((withContext_ok ha _).trans ?_)
    rw [if_neg hb', show s.readVa asid (s.operand mb 2).toNat 128 = some h from h1]
    simp only [Option.bind_some]
    rw [show s.readVa asid (s.operand mb 2).toNat (opListSize h) = some l from h2]
    simp only
    rw [if_neg (by rw [h3, h4]; decide), h5]
    rfl
  · show execPlace s = _
    unfold execPlace
    refine serveRequest_answer hs ((withContext_ok ha _).trans ?_)
    rw [if_neg hb', show s.readVa asid (s.operand mb 2).toNat 128 = some h from h1]
    simp only [Option.bind_some]
    rw [show s.readVa asid (s.operand mb 2).toNat (opListSize h) = some l from h2]
    simp only
    rw [if_neg (by rw [h3, h4]; decide), h5]
    simp only
    rw [h6]
    simp only
    rw [h7]
    rfl

theorem modL1_fold (f : Core → Core) : ∀ (l : List (Nat × Core)) (s : State), ∃ cs, l.foldl (fun s q => s.modCore q.1 f) s = { s with cores := cs }
  | [], s => ⟨s.cores, rfl⟩
  | q :: l, s => by
    obtain ⟨cs, h⟩ := modL1_fold f l (s.modCore q.1 f)
    exact ⟨cs, h.trans rfl⟩

theorem reloc_setReloc (s : State) (die : Nat) (r : Reloc) : (s.setReloc die r).reloc die = r := by
  unfold State.setReloc State.reloc; simp only; rw [SMap.get_set, if_pos rfl]

theorem lineMoveRead_done (s : State) (die : Nat) (m : ObjMove) (h : (s.reloc die).move = some m) (h1 : (s.reloc die).paused = false)
    (h2 : m.read < m.lines) (h3 : m.read < m.copied + 16) : ∃ t, exec (.lineMoveRead die) s = .next t ∧
          let ca := s.moveLine (s.reloc die) die m m.read
          t.reloc die = { s.reloc die with move := some { m with read := m.read + 1 } } ∧ t.mem = s.mem ∧
          (SMap.get none t.moves (ca.1 / 128)).map LineMove.copied = some false ∧
          ∀ l, l ≠ ca.1 / 128 → SMap.get none t.moves l = SMap.get none s.moves l := by
  refine ⟨_, by
    show execLineMoveRead die s = _
    simp only [execLineMoveRead, h]
    rw [if_neg (by rw [h1]; simp; omega)]
    rfl, ?_⟩
  intro ca
  refine ⟨reloc_setReloc .., ?_⟩
  obtain ⟨cs, hc⟩ := modL1_fold (fun c => { c with l1 := c.l1.filter fun x => x.1 / 128 ≠ ca.1 / 128 })
    (s.cores.filter fun q => q.2.l1 ≠ []) { s with
          moves := SMap.set none s.moves (ca.1 / 128) (some { copied := false, toCa := ca.2, toPa := (s.reloc die).page.map fun (p : Nat × Nat) => p.1 + 128 * m.read, die := ((s.reloc die).page.map Prod.snd).getD die })
          rdc := s.rdc.filter fun q => q.1 % 2 ^ 45 ≠ ca.1 / 128 }
  refine ⟨(congrArg State.mem hc).trans rfl, ?_, fun l hl => ?_⟩
  · refine (congrArg (fun t : State => (SMap.get none t.moves (ca.1 / 128)).map LineMove.copied) hc).trans ?_
    simp only
    rw [SMap.get_set, if_pos rfl]; rfl
  · refine (congrArg (fun t : State => SMap.get none t.moves l) hc).trans ?_
    simp only
    rw [SMap.get_set, if_neg hl]

theorem serveForm_serves {s : State} {code mb i : Nat} {form : W64 → Bool} {f : Nat → (Nat → W64) → State → Served}
    (h : s.Serves code mb) (e : form (s.operand mb i) = true) : s.serveForm code i form f = s.serveRequest code f := by
  unfold State.serveForm
  rw [headRequest_serves h]
  simp only
  rw [if_pos (show form ((s.mailbox mb).word i) = true from e)]

theorem packets_fold (k0 : Nat) (f : Core → Core) (k : Nat) : ∀ (l : List Nat) (s : State), l.Nodup →
    (l.foldl (fun s i => s.modCore (k0 + i) f) s).core k = (if k0 ≤ k ∧ k - k0 ∈ l then f (s.core k) else s.core k) ∧
    (l.foldl (fun s i => s.modCore (k0 + i) f) s).mem = s.mem
  | [], s, _ => by simp
  | i :: l, s, h => by
    obtain ⟨h1, h2⟩ := packets_fold k0 f k l (s.modCore (k0 + i) f) (List.nodup_cons.mp h).2
    refine ⟨h1.trans ?_, h2⟩
    have hi := (List.nodup_cons.mp h).1
    by_cases e : k = k0 + i
    · subst e
      rw [State.core_modCore, show k0 + i - k0 = i by omega]
      simp [hi]
    · rw [State.core_modCore_ne s f e]
      have : (k0 ≤ k ∧ k - k0 ∈ l) ↔ (k0 ≤ k ∧ k - k0 ∈ i :: l) := by
        constructor
        · exact fun h => ⟨h.1, List.mem_cons_of_mem _ h.2⟩
        · rintro ⟨h1, h2⟩
          rcases List.mem_cons.mp h2 with h2 | h2
          · omega
          · exact ⟨h1, h2⟩
      simp only [this]

theorem capture_answers (s : State) (mb : Nat) (asid : BitVec 16) (hs : s.Serves 0x20 mb) :
    let w := s.operand mb
    (w 1).extractLsb' 0 44 = 0 → (w 3).toNat < 4 → (w 6 ++ w 5 ++ w 4 : BitVec 192).extractLsb' 144 48 = 0 →
      s.ownContext mb (((w 1).extractLsb' 48 16).zeroExtend 64) = .ok asid →
        ∃ t, Answers .capture s mb 0 [] t ∧ t.mem = s.mem ∧
          ∀ k, t.core k = if 144 * (w 3).toNat ≤ k ∧ k < 144 * (w 3).toNat + 144 ∧
              (w 6 ++ w 5 ++ w 4 : BitVec 192).getLsbD (k - 144 * (w 3).toNat) = true
            then { s.core k with acct := { (s.core k).acct with
              packets := (s.core k).acct.packets ++ [⟨w 2, asid, (w 1).extractLsb' 46 2, (w 1).extractLsb' 44 2⟩] } }
            else s.core k := by
  intro w h1 h2 h3 ha
  let f : Core → Core := fun c => { c with acct := { c.acct with packets := c.acct.packets ++ [⟨w 2, asid, (w 1).extractLsb' 46 2, (w 1).extractLsb' 44 2⟩] } }
  let l := (List.range 144).filter fun i => (w 6 ++ w 5 ++ w 4 : BitVec 192).getLsbD i
  have hl : l.Nodup := List.nodup_range.filter _
  refine ⟨l.foldl (fun s i => s.modCore (144 * (w 3).toNat + i) f) s, ?_, (packets_fold _ f 0 l s hl).2, fun k => ?_⟩
  · show execCapture s = _
    unfold execCapture
    refine serveRequest_answer hs ?_
    simp only
    rw [if_neg (by
      rintro (q | q | q)
      · exact q h1
      · have : (s.operand mb 3).toNat < 4 := h2
        omega
      · exact q h3), withContext_ok ha]
    rfl
  · rw [(packets_fold _ f k l s hl).1]
    have : (144 * (w 3).toNat ≤ k ∧ k - 144 * (w 3).toNat ∈ l) ↔ (144 * (w 3).toNat ≤ k ∧ k < 144 * (w 3).toNat + 144 ∧
              (w 6 ++ w 5 ++ w 4 : BitVec 192).getLsbD (k - 144 * (w 3).toNat) = true) := by
      simp only [l, List.mem_filter, List.mem_range]
      constructor
      · rintro ⟨a, b, c⟩; exact ⟨a, by omega, c⟩
      · rintro ⟨a, b, c⟩; exact ⟨a, by omega, c⟩
    simp only [this]
    rfl

theorem halt_request {s : State} {mb : Nat} {asid : BitVec 16} {mode : W64 → Bool} {f : Core → Nat → Core} (hs : s.Serves 0x22 mb)
    (hm : mode (s.operand mb 2) = true) (h3 : (s.operand mb 2).toNat ≤ 3) (ha : s.ownContext mb (s.operand mb 1) = .ok asid) :
    s.haltRequest mode f = .next (if s.debugLevel mb < 2 then s.respond mb 0x21 []
      else ((s.maskedCores asid (s.operand mb 3)).foldl (fun s k => s.modCore k fun c => f c s.time) s).respond mb 0 []) := by
  unfold State.haltRequest
  rw [serveForm_serves hs hm]
  by_cases hd : s.debugLevel mb < 2
  · rw [if_pos hd]
    refine serveRequest_answer hs ?_
    rw [if_neg (by omega), withContext_ok ha, if_pos hd]; rfl
  · rw [if_neg hd]
    refine serveRequest_answer hs ?_
    rw [if_neg (by omega), withContext_ok ha, if_neg hd]; rfl

theorem foldl_now (f : Core → Nat → Core) (now : Nat) : ∀ (l : List Nat) (s : State), s.time = now →
    l.foldl (fun s k => s.modCore k fun c => f c s.time) s = l.foldl (fun s k => s.modCore k fun c => f c now) s
  | [], _, _ => rfl
  | k :: l, s, h => by
    rw [List.foldl_cons, List.foldl_cons, h]
    exact foldl_now f now l (s.modCore k fun c => f c now) h

theorem patch_request {s t : State} {mb : Nat} {asid : BitVec 16} {on : Bool} {form : W64 → Bool} (hs : s.Serves 0x23 mb)
    (hf : form (s.operand mb 3) = true) (h0 : (s.mailbox mb).phase ≠ 1) (h1 : 2 ≤ s.debugLevel mb) (h2 : (s.operand mb 2).toNat % 4 = 0)
    (h3 : (s.operand mb 2).toNat < 2 ^ 57) (h4 : (s.operand mb 3).toNat ≤ 1) (ha : s.ownContext mb (s.operand mb 1) = .ok asid)
    (hp : s.partCores mb ≠ []) (ht : s.patchHeader mb asid (s.operand mb 2).toNat on = some t) :
    s.patchRequest on form = .next (t.setPhase mb 1) := by
  unfold State.patchRequest
  rw [serveForm_serves hs hf]
  refine serveRequest_wait hs ?_
  rw [if_neg h0, if_neg (by omega), if_neg (by omega), withContext_ok ha, ht]
  simp only
  rw [if_neg hp]

theorem shape_ok {b : List Byte} (hr : recordShape b 0x32 false = true) (h1 : 1 ≤ fieldOf b 5 1) (h2 : fieldOf b 5 1 ≤ 3)
    (h3 : ¬ (if fieldOf b 5 1 = 3 then fieldOf b 6 1 ≠ 0xFF else 15 < fieldOf b 6 1)) :
    ¬ ((!recordShape b 0x32 false) = true ∨ fieldOf b 5 1 = 0 ∨ 3 < fieldOf b 5 1 ∨
      (if fieldOf b 5 1 = 3 then fieldOf b 6 1 ≠ 0xFF else 15 < fieldOf b 6 1)) := by
  rintro (q | q | q | q)
  · rw [hr] at q; cases q
  · omega
  · omega
  · exact h3 q

theorem unlocked_fold (k : Link) : ∀ (l : List Nat), (∀ n ∈ l, (k.port n).locked = false) →
    l.foldl (fun k n => if (k.port n).locked then k.setPort n { k.port n with control := some (k.initUnit n) } else k) k = k
  | [], _ => rfl
  | n :: l, h => by
    rw [List.foldl_cons, h n List.mem_cons_self]
    exact unlocked_fold k l fun m hm => h m (List.mem_cons_of_mem _ hm)

theorem lifecycle_answers {s : State} {mb code : Nat} {newKey : Bool} {fits : Security → Nat → Bool} {f : List Byte → State → State}
    (hs : s.Serves code mb) :
    let b := s.hostRead (s.operand mb 1).toNat 192
    recordShape b code newKey = true → fieldOf b 5 1 = 0 → fieldOf b 6 1 = 0xFF → fits s.sec (fieldOf b 4 1) = true → s.recordSigned b = true →
    s.lifecycleRequest code newKey fits f = .next ((f b s.useChallenge).respond mb 0 []) := by
  intro b h1 h2 h3 h4 h5
  unfold State.lifecycleRequest
  refine serveRequest_answer hs ?_
  simp only
  rw [if_neg (by
    rintro (q | q | q)
    · rw [show recordShape _ _ _ = true from h1] at q; cases q
    · exact q h2
    · exact q h3), if_neg (by rw [show fits s.sec _ = true from h4]; decide), if_neg (by rw [show s.recordSigned _ = true from h5]; decide)]
  rfl

theorem dbgattach_answers (s : State) (mb : Nat) (hs : s.Serves 0x32 mb) :
    let b := s.hostRead (s.operand mb 1).toNat 192
    recordShape b 0x32 false = true →
      let level := fieldOf b 5 1
      let part := fieldOf b 6 1
      (1 ≤ level → level ≤ 2 → part < 16 →
        (s.sec.lifecycle.allows level = false → Answers .dbgattach s mb 0x21 [] s) ∧
        (s.sec.lifecycle.allows level = true → (mb = 16 ∨ part = mb) →
          (fieldOf b 4 1 ≠ 0 ∨ s.recordSigned b = false → Answers .dbgattach s mb 0x23 [] s.useChallenge) ∧
          (fieldOf b 4 1 = 0 → s.recordSigned b = true → Answers .dbgattach s mb 0 []
            { s.useChallenge with sec := { s.useChallenge.sec with level := SMap.set 0 s.sec.level part level } }.refreshDbg))) ∧
      (level = 3 → part = 0xFF → s.sec.lifecycle.allows 3 = true → (fieldOf b 4 1 = 1 ∨ fieldOf b 4 1 = 2) → s.recordSigned b = true →
        Answers .dbgattach s mb 0 [] { s.useChallenge with sec := { s.useChallenge.sec with d3 := true } }.refreshDbg) := by
  intro b hr level part
  refine ⟨fun h1 h2 h3 => ⟨fun h4 => ?_, fun h4 h5 => ⟨fun h6 => ?_, fun h6 h7 => ?_⟩⟩, fun h1 h2 h3 h4 h5 => ?_⟩
  · show execDbgattach s = _
    unfold execDbgattach
    refine serveRequest_answer hs ?_
    simp only
    rw [if_neg (shape_ok hr h1 (by omega) (by rw [if_neg (by omega)]; omega)), if_pos (Or.inl (by rw [show Lifecycle.allows _ _ = false from h4]; rfl))]; rfl
  · show execDbgattach s = _
    unfold execDbgattach
    refine serveRequest_answer hs ?_
    simp only
    rw [if_neg (shape_ok hr h1 (by omega) (by rw [if_neg (by omega)]; omega)), if_neg (by
      rintro (q | ⟨q1, _, q2⟩)
      · rw [show Lifecycle.allows _ _ = true from h4] at q; cases q
      · exact h5.elim q1 q2), if_pos (by
      rcases h6 with h6 | h6
      · exact Or.inl (by rw [if_neg (show ¬ level = 3 by omega), beq_eq_false_iff_ne.mpr h6]; rfl)
      · exact Or.inr (by rw [show s.recordSigned _ = false from h6]; rfl))]; rfl
  · show execDbgattach s = _
    unfold execDbgattach
    refine serveRequest_answer hs ?_
    simp only
    rw [if_neg (shape_ok hr h1 (by omega) (by rw [if_neg (by omega)]; omega)), if_neg (by
      rintro (q | ⟨q1, _, q2⟩)
      · rw [show Lifecycle.allows _ _ = true from h4] at q; cases q
      · exact h5.elim q1 q2), if_neg (by
      rintro (q | q)
      · rw [if_neg (show ¬ level = 3 by omega), show (fieldOf _ 4 1 == 0) = true from beq_iff_eq.mpr h6] at q; cases q
      · rw [show s.recordSigned _ = true from h7] at q; cases q)]
    rw [if_neg (show ¬ fieldOf b 5 1 = 3 by omega)]
    rfl
  · show execDbgattach s = _
    unfold execDbgattach
    refine serveRequest_answer hs ?_
    simp only
    rw [if_neg (shape_ok hr (show 1 ≤ fieldOf b 5 1 by omega) (by omega) (by rw [if_pos h1]; omega)), if_neg (by
      rintro (q | ⟨_, q2, _⟩)
      · rw [show s.sec.lifecycle.allows (fieldOf b 5 1) = true from by rw [show fieldOf b 5 1 = 3 from h1]; exact h3] at q; cases q
      · exact q2 h1), if_neg (by
      rintro (q | q)
      · rw [if_pos (show fieldOf b 5 1 = 3 from h1)] at q
        rcases h4 with h4 | h4 <;> rw [show fieldOf _ 4 1 = _ from h4] at q <;> cases q
      · rw [show s.recordSigned _ = true from h5] at q; cases q)]
    rw [if_pos (show fieldOf b 5 1 = 3 from h1)]
    rfl

theorem lifecycle_all (s : State) (mb : Nat) :
    let b := s.hostRead (s.operand mb 1).toNat 192
    fieldOf b 5 1 = 0 → fieldOf b 6 1 = 0xFF → s.recordSigned b = true →
      let u := s.useChallenge
      (s.Serves 0x48 mb → recordShape b 0x48 true = true → s.sec.lifecycle = .production → s.sec.ownerKey = none → fieldOf b 4 1 = 3 →
        Answers .claim s mb 0 [] (u.newOwner b)) ∧
      (s.Serves 0x49 mb → recordShape b 0x49 true = true → s.sec.lifecycle = .production → s.sec.ownerKey.isSome = true →
        fieldOf b 4 1 = 0 → Answers .transfer s mb 0 [] (u.newOwner b)) ∧
      (s.Serves 0x4A mb → recordShape b 0x4A false = true → s.sec.lifecycle = .production → s.sec.ownerKey.isSome = true →
        fieldOf b 4 1 = 0 → Answers .returnPkg s mb 0 [] (u.keyWipe.setLifecycle .returned)) ∧
      (s.Serves 0x4B mb → recordShape b 0x4B false = true →
        (s.sec.lifecycle = .production ∧ s.sec.ownerKey.isSome = true ∧ fieldOf b 4 1 = 0 ∨
          s.sec.lifecycle = .returned ∧ (fieldOf b 4 1 = 1 ∨ fieldOf b 4 1 = 2)) →
        Answers .retire s mb 0 [] (u.setLifecycle .retired)) := by
  intro b h1 h2 h3 u
  have hp : (Lifecycle.production == Lifecycle.production) = true := rfl
  refine ⟨fun hs hr hl ho hg => ?_, fun hs hr hl ho hg => ?_, fun hs hr hl ho hg => ?_, fun hs hr h => ?_⟩
  · show execClaim s = _
    unfold execClaim
    refine lifecycle_answers hs hr h1 h2 ?_ h3
    show (s.sec.lifecycle == .production && s.sec.ownerKey.isNone && fieldOf b 4 1 == 3) = true
    rw [hl, ho, hg]; decide
  · show execTransfer s = _
    unfold execTransfer
    refine lifecycle_answers hs hr h1 h2 ?_ h3
    show (s.sec.lifecycle == .production && s.sec.ownerKey.isSome && fieldOf b 4 1 == 0) = true
    rw [hl, ho, hg]; decide
  · show execReturnPkg s = _
    unfold execReturnPkg
    refine lifecycle_answers hs hr h1 h2 ?_ h3
    show (s.sec.lifecycle == .production && s.sec.ownerKey.isSome && fieldOf b 4 1 == 0) = true
    rw [hl, ho, hg]; decide
  · show execRetire s = _
    unfold execRetire
    refine lifecycle_answers hs hr h1 h2 ?_ h3
    show ((s.sec.lifecycle == .production && s.sec.ownerKey.isSome && fieldOf b 4 1 == 0) ||
      (s.sec.lifecycle == .returned && (fieldOf b 4 1 == 1 || fieldOf b 4 1 == 2))) = true
    rcases h with ⟨ha, hb, hc⟩ | ⟨ha, hb | hb⟩
    · rw [ha, hb, hc]; rfl
    · rw [ha, hb]; cases s.sec.ownerKey <;> rfl
    · rw [ha, hb]; cases s.sec.ownerKey <;> rfl

end Sys2Proof.Machine
end

