-- ==== Sys2Proof/Laws/Outside.lean ====
section
/-! SUPPORT. What the host's and the link's events change and leave alone. -/

namespace Sys2Proof.Machine

theorem mailbox_setMailbox (s : State) (mb : Nat) (m : Mailbox) : (s.setMailbox mb m).mailbox mb = m := by
  unfold State.setMailbox State.mailbox; simp only; rw [SMap.get_set, if_pos rfl]

theorem mailboxRing_all (s : State) (mb : Nat) (value : BitVec 32) (hm : mb < 17) :
      let m := s.mailbox mb
      (m.busy = true → exec (.mailboxRing mb value) s = .next (s.hostDropped (functionOf mb) 4 0 value.toNat)) ∧
      (m.busy = false → value ≠ 1 → exec (.mailboxRing mb value) s = .next s) ∧
      (m.busy = false → value = 1 → s.host.queue = [] →
        let taken := { m with taken := m.req, busy := true, done := false, phase := 0 }
        requestOk mb taken = true →
        exec (.mailboxRing mb value) s = .next { s.setMailbox mb taken with host := { (s.setMailbox mb taken).host with queue := [mb] } }) := by
  intro m
  refine ⟨fun h => ?_, fun h h1 => ?_, fun h h1 hq => ?_⟩
  · show execMailboxRing mb value s = _
    simp only [execMailboxRing]
    rw [if_neg (by omega), if_pos h]; rfl
  · show execMailboxRing mb value s = _
    simp only [execMailboxRing]
    rw [if_neg (by omega), if_neg (by rw [show (s.mailbox mb).busy = false from h]; decide), if_pos h1]; rfl
  · intro taken ho
    show execMailboxRing mb value s = _
    simp only [execMailboxRing]
    rw [if_neg (by omega), if_neg (by rw [show (s.mailbox mb).busy = false from h]; decide), if_neg (fun q => q h1)]
    have hs : ∀ q, ({ s.setMailbox mb taken with host := { (s.setMailbox mb taken).host with queue := q } } : State).mailbox mb = taken :=
      fun q => (show _ = (s.setMailbox mb taken).mailbox mb from rfl).trans (mailbox_setMailbox ..)
    have hr : ∀ n, State.rejectBad { s.setMailbox mb taken with host := { (s.setMailbox mb taken).host with queue := [mb] } } (n + 1) =
        { s.setMailbox mb taken with host := { (s.setMailbox mb taken).host with queue := [mb] } } := by
      intro n
      unfold State.rejectBad
      simp only
      rw [if_pos (by rw [hs [mb]]; exact ho)]
    have hc : (s.setMailbox mb taken).host.queue ++ [mb] = [mb] := by
      rw [show (s.setMailbox mb taken).host.queue = s.host.queue from rfl, hq]; rfl
    show offered (some (State.rejectBad { s.setMailbox mb taken with host := { (s.setMailbox mb taken).host with
      queue := (s.setMailbox mb taken).host.queue ++ [mb] } } ((s.setMailbox mb taken).host.queue ++ [mb]).length.succ)) = _
    rw [hc, hr]; rfl

theorem putResponse_all (s : State) (mb o : Nat) (vals : List W64) :
      let t := s.putResponse mb o vals
      (t.mailbox mb).busy = false ∧ (t.mailbox mb).done = true ∧ (t.mailbox mb).req = (s.mailbox mb).req ∧
        SMap.get 0 (t.mailbox mb).resp 0 = (BitVec.ofNat 32 o ++ ((s.mailbox mb).word 0).extractLsb' 32 32 : W64) ∧
        t.host.msix = s.host.msix ++ [(functionOf mb, 0)] ∧ t.mem = s.mem := by
  intro t
  let x : List W64 := ((BitVec.ofNat 32 o ++ ((s.mailbox mb).word 0).extractLsb' 32 32 : W64) :: (vals ++ List.replicate (7 - vals.length) 0))
  have h : t.mailbox mb = { s.mailbox mb with busy := false, done := true, resp := SMap.entries 0 0 x } :=
    (show _ = (s.setMailbox mb _).mailbox mb from rfl).trans (mailbox_setMailbox ..)
  rw [h]
  refine ⟨rfl, rfl, rfl, ?_, rfl, rfl⟩
  simp only
  rw [SMap.get_entries]
  simp [x]

theorem vendor_all (s : State) (m : VendorMsg) (rest : List VendorMsg) (hv : s.host.vendorIn = m :: rest) :
      let u := { s with host := { s.host with vendorIn := rest } }
      let dw := fun i => m.dws.getD i 0
      (m.word.extractLsb' 24 8 = 1 →
        let asid := (dw 0).extractLsb' 16 16
        let n := ((dw 3).extractLsb' 0 16).toNat
        let head := fun (n : Nat) => BitVec.ofNat 32 (((dw 0).extractLsb' 0 16).toNat + n * 65536)
        (64 < n → exec .xlateReq s = .next (u.sendVendor m.part 2 (head 64 :: List.replicate 64 0))) ∧
        (n ≤ 64 → asid.toNat < 1024 → s.ctxState asid = 1 → s.ctxPart asid = m.part →
          let r := u.grantPages m.part asid ((dw 1).toNat + (dw 2).toNat * 2 ^ 32) ((dw 3).getLsbD 16) ((dw 3).getLsbD 17) n
          exec .xlateReq s = .next (r.2.sendVendor m.part 2 (head n :: r.1)))) ∧
      (m.word.extractLsb' 24 8 = 4 → ∀ r, (s.host.revokes.find? fun r => r.tag == ((dw 0).extractLsb' 0 16).toNat && r.part == m.part) = some r →
        exec .revokeAck s = .next (u.dropGrants r)) := by
  intro u dw
  refine ⟨fun h1 => ?_, fun h1 r hr => ?_⟩
  · have ht : s.takeVendor 1 = some (m, u) := by
      unfold State.takeVendor; rw [hv]; simp only; rw [if_pos (by rw [h1]; rfl)]
    intro asid n head
    refine ⟨fun h => ?_, fun h h2 h3 h4 => ?_⟩
    · show execXlateReq s = _
      unfold execXlateReq
      rw [ht]
      simp only [Option.map_some]
      rw [if_pos (Or.inl h), show min _ 64 = 64 from Nat.min_eq_right (Nat.le_of_lt h)]; rfl
    · intro r
      show execXlateReq s = _
      unfold execXlateReq
      rw [ht]
      simp only [Option.map_some]
      rw [if_neg (by
        rintro (q | q | q | q)
        · exact absurd q (Nat.not_lt.mpr h)
        · exact absurd q (Nat.not_lt.mpr (Nat.le_of_lt_succ h2))
        · exact q h3
        · exact q h4)]; rfl
  · have ht : s.takeVendor 4 = some (m, u) := by
      unfold State.takeVendor; rw [hv]; simp only; rw [if_pos (by rw [h1]; rfl)]
    show execRevokeAck s = _
    unfold execRevokeAck
    rw [ht]
    simp only [Option.map_some]
    rw [show List.find? _ _ = some r from hr]; rfl

theorem port_setPort (k : Link) (n : Nat) (p : Port) : (k.setPort n p).port n = p := by
  unfold Link.setPort Link.port; simp only; rw [SMap.get_set, if_pos rfl]

theorem flit_all (s : State) (port : Nat) (f : Flit) (h1 : port < 18) (h2 : (s.link.port port).locked = true) :
    let k := s.link
    (flitCrc f ≠ f.extractLsb' 2016 32 → exec (.flit port f) s = .next
        { s with link := k.setPort port { k.port port with control := some (nakUnit (k.port port).rxSeq) } }) ∧
      (flitCrc f = f.extractLsb' 2016 32 →
        (f.extractLsb' 0 8 = 0 → exec (.flit port f) s = .next { s with link := k.setPort port ((k.port port).credit f s.time) }) ∧
        (f.extractLsb' 0 8 = 1 → k.devId.isSome = true →
          let p := (k.port port).credit f s.time
          let r := takeMessages (p.rxUnits ++ (List.range 14).map (flitPayload f)).length.succ (p.rxUnits ++ (List.range 14).map (flitPayload f))
          ((f.extractLsb' 16 12).toNat = p.rxSeq → ∃ t, exec (.flit port f) s = .next t ∧
            t.link.port port = { p with rxSeq := (p.rxSeq + 1) % 4096, rxUnits := r.2 } ∧
            t.link.inbox = k.inbox ++ r.1.map fun m => (port, m)) ∧
          ((f.extractLsb' 16 12).toNat ≠ p.rxSeq → ∃ t, exec (.flit port f) s = .next t ∧
            t.link.port port = { p with control := some (nakUnit p.rxSeq) } ∧ t.link.inbox = k.inbox))) := by
  intro k
  have hl : ¬ (17 < port ∨ (!(s.link.port port).locked) = true) := by rw [h2]; simp; omega
  refine ⟨fun h => ?_, fun h => ⟨fun ht => ?_, fun ht hd => ?_⟩⟩
  · show execFlit port f s = _
    simp only [execFlit]
    rw [if_neg hl, if_pos h]; rfl
  · show execFlit port f s = _
    simp only [execFlit]
    rw [if_neg hl, if_neg (fun q => q h), ht, if_neg (by decide), if_pos rfl]; rfl
  · intro p r
    have hn : ¬ s.link.devId.isNone = true := by
      rw [Option.isNone_iff_eq_none, ← Option.not_isSome_iff_eq_none]; exact fun q => q hd
    refine ⟨fun hq => ?_, fun hq => ?_⟩
    · refine ⟨{ s with link := { s.link.setPort port { p with rxSeq := (p.rxSeq + 1) % 4096, rxUnits := r.2 } with
        inbox := k.inbox ++ r.1.map fun m => (port, m) } }, ?_, port_setPort _ port _, rfl⟩
      show execFlit port f s = _
      simp only [execFlit]
      rw [if_neg hl, if_neg (fun q => q h), ht, if_neg (by decide), if_neg (by decide), if_neg (by decide), if_neg hn, if_neg (fun q => q hq)]
      rfl
    · refine ⟨{ s with link := s.link.setPort port { p with control := some (nakUnit p.rxSeq) } }, ?_, port_setPort _ port _, rfl⟩
      show execFlit port f s = _
      simp only [execFlit]
      rw [if_neg hl, if_neg (fun q => q h), ht, if_neg (by decide), if_neg (by decide), if_neg (by decide), if_neg hn, if_pos hq]
      rfl

theorem takeControl_head {s : State} {port : Nat} {u : BitVec 128} {rest : List (Nat × BitVec 128)} {n : Nat}
    (h : s.link.controls = (port, u) :: rest) (hu : (u.extractLsb' 0 8).toNat = n) :
    s.takeControl n = some (port, u, { s with link := { s.link with controls := rest } }) := by
  unfold State.takeControl; rw [h]; simp only; rw [if_pos hu]

theorem peer_sendOne {p q : Port} (h : p.sendOne = some q) : q.peer = p.peer := by
  unfold Port.sendOne at h
  simp only at h
  split at h
  · cases h
  · split at h
    · cases h
    · cases h; rfl

theorem peer_pump : ∀ (n : Nat) (p : Port), (p.pump n).peer = p.peer
  | 0, _ => rfl
  | n + 1, p => by
    unfold Port.pump
    cases h : p.sendOne with
    | none => rfl
    | some q => exact (peer_pump n q).trans (peer_sendOne h)

theorem control_all (s : State) (port : Nat) (u : BitVec 128) (rest : List (Nat × BitVec 128)) (hc : s.link.controls = (port, u) :: rest) :
    let k := s.link
    let t := { s with link := { k with controls := rest } }
    (u.extractLsb' 0 8 = 1 → ∃ v, exec .init s = .next v ∧ (v.link.port port).peer = some (u.extractLsb' 32 20, u.getLsbD 56)) ∧
      (u.extractLsb' 0 8 = 2 → ((k.port port).replay.any fun r => r.1 == (u.extractLsb' 32 12).toNat) = true → exec .nak s = .next
        ((t.wearAdd (wearPort port + 4) 4 1).logCorr (600 + port) 0x0003 31 (4 * 256 + port) 0)) ∧
      (u.extractLsb' 0 8 = 3 → exec .retrain s = .next t) := by
  intro k t
  refine ⟨fun h => ⟨_, by
    show execInit s = _
    unfold execInit
    rw [takeControl_head hc (by rw [h]; rfl)]
    rfl, ?_⟩, fun h hr => ?_, fun h => ?_⟩
  · refine (congrArg Port.peer (port_setPort _ port _)).trans ((peer_pump _ _).trans rfl)
  · show execNak s = _
    unfold execNak
    rw [takeControl_head hc (by rw [h]; rfl)]
    simp only [Option.map_some]
    rw [if_pos (show ((Link.port { s.link with controls := rest } port).replay.any fun r => r.1 == (u.extractLsb' 32 12).toNat) = true from hr)]; rfl
  · show execRetrain s = _
    unfold execRetrain
    rw [takeControl_head hc (by rw [h]; rfl)]
    rfl

theorem farRequest_ok {s t u : State} {port : Nat} {m : Msg} {ps : List Piece} {mt : BitVec 8} {need : Need} {n : Msg → Nat} {ca : Msg → BitVec 52}
    {f : Msg → List Piece → State → State} (ht : s.takeMessage mt = some (port, m, t)) (ha : t.admits m = true)
    (hp : t.pieces (m.rasid.zeroExtend 16) (ca m) need false (n m) = (.ok ps, u)) (hh : ps.any Piece.isHeld = false) :
    s.farRequest mt need n ca f = .next (f m ps u) := by
  unfold State.farRequest
  rw [ht]
  simp only
  rw [if_neg (by rw [ha]; decide), hp]
  simp only
  rw [if_neg (by rw [hh]; decide)]; rfl

theorem unlessFenced_ok {s t : State} {port : Nat} {m : Msg} {mt : BitVec 8} {f : Host.Outcome State Fault Refusal}
    (ht : s.takeMessage mt = some (port, m, t)) (hf : s.link.fencedWriter m = false) : s.unlessFenced mt f = f := by
  unfold State.unlessFenced; rw [ht]; simp only; rw [if_neg (by rw [hf]; decide)]

theorem far_all (s : State) (port : Nat) (m : Msg) (t : State) (ps : List Piece) (u : State) (ha : t.admits m = true)
    (hf : s.link.fencedWriter m = false) (hh : ps.any Piece.isHeld = false) :
        let asid := m.rasid.zeroExtend 16
        let line := BitVec.ofNat 52 (m.ca.toNat / 128 * 128)
        let grain := BitVec.ofNat 52 (m.ca.toNat / 16 * 16)
        (s.takeMessage mtRead = some (port, m, t) → t.pieces asid line .r false 128 = (.ok ps, u) →
          exec .read s = .next (u.answer m fun r =>
            { r with
              mtype := mtRdata, mask := u.piecePoison ps, poison := u.piecePoison ps ≠ 0
              units := unitsOf (ps.flatMap fun p => u.placeBytes p.place p.len) })) ∧
        (s.takeMessage mtWrite = some (port, m, t) → t.pieces asid grain .w false (16 * m.units.length) = (.ok ps, u) →
          exec .write s = .next (u.farWrite { m with ca := grain } ps)) ∧
        (s.takeMessage mtBcst = some (port, m, t) → t.pieces asid grain .w false (16 * m.units.length) = (.ok ps, u) →
          exec .bcstMessage s = .next (u.farWrite { m with ca := grain } ps)) ∧
        (∀ op, s.takeMessage mtAtomic = some (port, m, t) → amoOfCode (m.op.extractLsb' 0 4).toNat = some op →
          let size := if m.op.getLsbD 4 then 3 else 2
          t.pieces asid m.ca .rw false (2 ^ size) = (.ok ps, u) →
          let r := u.amoStep asid none ps op (BitVec.ofNat 2 size) m.arg ((m.units.headD 0).extractLsb' 0 64)
          exec .atomic s = .next (if r.2.1 then r.2.2.answerError m 3 else r.2.2.answer m fun a => { a with mtype := mtAreply, arg := r.1 })) ∧
        (s.takeMessage mtRedc = some (port, m, t) → t.pieces asid line .rw false 128 = (.ok ps, u) →
          ((ps.any fun p => u.placePoison p.place) = true → exec .redcMessage s = .next (u.answerError m 3)) ∧
          ((ps.any fun p => u.placePoison p.place) = false → exec .redcMessage s = .next
            ((u.redcStep asid none ps (m.op.extractLsb' 0 2) (m.fmt.extractLsb' 0 6) (bytesOf m.units) (m.mask != 0)).answer m
              fun r => { r with mtype := mtWack }))) := by
  intro asid line grain
  refine ⟨fun ht hp => ?_, fun ht hp => ?_, fun ht hp => ?_, fun op ht ho => ?_, fun ht hp => ⟨fun hq => ?_, fun hq => ?_⟩⟩
  · show execRead s = _
    unfold execRead
    exact farRequest_ok ht ha hp hh
  · show execWrite s = _
    unfold execWrite
    rw [unlessFenced_ok ht hf]
    exact farRequest_ok ht ha hp hh
  · show execBcstMessage s = _
    unfold execBcstMessage
    rw [unlessFenced_ok ht hf]
    exact farRequest_ok ht ha hp hh
  · intro size hp r
    show execAtomic s = _
    unfold execAtomic
    simp only
    rw [unlessFenced_ok ht hf]
    refine (farRequest_ok ht ha hp hh).trans ?_
    rw [ho]
  · show execRedcMessage s = _
    unfold execRedcMessage
    rw [unlessFenced_ok ht hf]
    refine (farRequest_ok ht ha hp hh).trans ?_
    rw [if_pos hq]
  · show execRedcMessage s = _
    unfold execRedcMessage
    rw [unlessFenced_ok ht hf]
    refine (farRequest_ok ht ha hp hh).trans ?_
    rw [if_neg (by rw [hq]; decide)]

theorem response_all (s : State) (m : Msg) (r : Req) (t : State) :
    (s.takeResponse mtRdata = some (m, none, t) → exec .rdata s = .next t) ∧
      (∀ id i l size sgn, s.takeResponse mtRdata = some (m, some r, t) → r.sink = .landing id → t.landingOf r.core id = some (i, l) →
        l.kind = .load size sgn →
        let off := l.tgt.ca.toNat % 128
        exec .rdata s = .next (t.modCore r.core fun c => c.setLanding i (.replied
          (BitVec.ofNat 64 (leNat (((bytesOf m.units).drop off).take (sizeBytes size))))
          ((granuleParts off (sizeBytes size)).any fun q => m.mask.getLsbD ((off + q.1) / 16))))) ∧
      (∀ seq, s.takeResponse mtWack = some (m, some r, t) → r.sink = .store seq →
        exec .wack s = .next (t.popSent r.core fun e => e.seq == seq)) ∧
      (∀ id i l, s.takeResponse mtAreply = some (m, some r, t) → r.sink = .landing id →
        (t.popSent r.core fun e => e.isAmoOf id).landingOf r.core id = some (i, l) →
        exec .areply s = .next ((t.popSent r.core fun e => e.isAmoOf id).modCore r.core fun c => c.setLanding i (.replied m.arg m.poison))) ∧
      (∀ id i l, s.takeResponse mtError = some (m, some r, t) → r.sink = .landing id →
        let u := t.popSent r.core fun e => e.isAmoOf id
        u.landingOf r.core id = some (i, l) →
        exec .error s = .next (if m.fmt.toNat = 3 then u.modCore r.core fun c => c.setLanding i (.replied 0 true)
          else u.failLanding r.core i l (fatalOfError m.fmt.toNat) l.tgt.va none)) := by
  refine ⟨fun h => ?_, fun id i l size sgn h hs hl hk => ?_, fun seq h hs => ?_, fun id i l h hs hl => ?_, fun id i l h hs => ?_⟩
  · show execRdata s = _
    unfold execRdata
    rw [h]; rfl
  · intro off
    show execRdata s = _
    unfold execRdata
    rw [h]
    simp only
    rw [hs]
    simp only
    rw [hl]
    simp only
    rw [hk]
    rfl
  · show execWack s = _
    unfold execWack
    rw [h]
    simp only [Option.map_some, hs]; rfl
  · show execAreply s = _
    unfold execAreply
    rw [h]
    simp only [Option.map_some, hs, hl]; rfl
  · intro u hl
    show execError s = _
    unfold execError
    rw [h]
    simp only [Option.map_some, hs]
    rw [show State.landingOf _ r.core id = some (i, l) from hl]; rfl

theorem lost_nil (p : BitVec 20 → Bool) (s : State) (k : Link) (h : k.reqs = []) :
    (((k.reqs.map Req.peer).eraseDups).filter p).foldl State.losePeer s = s := by rw [h]; rfl

theorem reqs_setPort (k : Link) (n : Nat) (p : Port) : (k.setPort n p).reqs = k.reqs := rfl

theorem reqs_put (k : Link) (n : Nat) (m : Msg) : (k.put n m).reqs = k.reqs := rfl

theorem reqs_send {k q : Link} {core : Nat} {m : Msg} (h : k.send core m = some q) : q.reqs = k.reqs := by
  unfold Link.send at h
  simp only [Option.map_eq_some_iff] at h
  obtain ⟨n, _, h⟩ := h
  subst h
  exact reqs_put ..

theorem reqs_reroute : ∀ (l : List Msg) (k : Link), (k.reroute l).reqs = k.reqs
  | [], _ => rfl
  | m :: l, k => by
    unfold Link.reroute
    rw [reqs_reroute l]
    cases h : k.send (k.coreOf m) m with
    | none => rfl
    | some q => exact reqs_send h

theorem portDown_alone (s : State) (port : Nat) (h1 : port < 18) (h2 : (s.link.port port).down = false) (h3 : (s.link.port port).replay ≠ [])
    (h4 : s.link.reqs = []) :
      ∃ t, exec (.portDown port) s = .next t ∧ t.logSeq = s.logSeq + 1 ∧ t.time = max s.time ((s.link.port port).since + 20000) := by
  let u := s.until ((s.link.port port).since + 20000)
  let v := u.logAppend { code := 0x0040, cls := 2, part := 31, source := 4 * 256 + port, addr := (match (s.link.port port).peer with | some q => q.1.toNat | none => 0), detail := port + (match (s.link.port port).peer with | some q => q.1.toNat | none => 0) * 2 ^ 32 }
  let k := (v.link.setPort port { down := true, since := v.time }).reroute ((s.link.port port).replay.map (·.2) ++ (s.link.port port).waiting)
  have hk : k.reqs = [] := (reqs_reroute _ _).trans h4
  refine ⟨{ v with link := k }, ?_, rfl, rfl⟩
  show execPortDown port s = _
  simp only [execPortDown]
  rw [if_neg (by rw [h2]; simp [h3]; omega)]
  exact congrArg (fun t => Host.Outcome.next t) (lost_nil _ { v with link := k } k hk)

theorem fenced_alone (s : State) (group peer : Nat) (h1 : (SMap.get [] s.link.groups group).contains peer = true)
    (h2 : s.link.fenced.contains (group, peer) = false) (h3 : s.link.devId ≠ some (BitVec.ofNat 20 peer)) (h4 : s.link.reqs = []) :
    ∃ t, exec (.memberFenced group peer) s = .next t ∧
        t.link.fenced = s.link.fenced ++ [(group, peer)] ∧ t.logSeq = s.logSeq + 1 ∧ t.cores = s.cores := by
  let u := (s.until (SMap.get 0 s.link.heard (2 ^ 20 * group + peer) + 2000000)).logAppend
    { code := 0x0042, cls := 2, part := 31, source := 4 * 256, addr := peer, detail := peer * 2 ^ 32 }
  refine ⟨{ u with link := { u.link with fenced := u.link.fenced ++ [(group, peer)], reqs := [] } }, ?_, rfl, rfl, rfl⟩
  show execMemberFenced group peer s = _
  simp only [execMemberFenced]
  rw [if_neg (by rw [h1, h2]; exact fun q => q.elim (by decide) fun q => q.elim (by decide) h3)]
  simp only [h4, List.filter_nil, List.foldl_nil]
  simp only [show ∀ x y, (State.logAppend (State.until s x) y).link.reqs = [] from fun _ _ => h4, List.filter_nil]
  rfl

end Sys2Proof.Machine
end

