-- ==== Sys2Proof/Laws/PerInstr.lean ====
section
/-! SUPPORT. The family SlotWords, one lemma per constructor of Instr: the word the encoder writes for a well-formed
instruction is read by the opcode map of its slot as that instruction (02 R70, 03). An event, and the bundle of a header
alone, have no slot word; the release form of SKEINLD shares the load form's word and is told from it by a register. -/

namespace Sys2Proof.Laws.SlotWords

open Sys2Proof.Machine

/-- The slot word of a well-formed instruction reads as that instruction. -/
def Statement (i : Instr) : Prop := Found i

theorem no_word {i : Instr} (h : i.slotWord = none) : Statement i := fun sl w e => by rw [h] at e; cases e

theorem headerOnlyBundle (x0 : BitVec 4) (x1 : BitVec 8) (x2 : BitVec 6) : Statement (.headerOnlyBundle x0 x1 x2) := no_word rfl
theorem add (g : Guard) (w : SR) : Statement (.add g w) := found_of rfl fun _ => by rw [raw_s, opcodeOf_slotBits, guard_slotBits]; exact congrArg (fun x => some (Instr.add g x)) (SR.ofWord_slotBits _ _ _)
theorem sub (g : Guard) (w : SR) : Statement (.sub g w) := found_of rfl fun _ => by rw [raw_s, opcodeOf_slotBits, guard_slotBits]; exact congrArg (fun x => some (Instr.sub g x)) (SR.ofWord_slotBits _ _ _)
theorem mul (g : Guard) (w : SR) : Statement (.mul g w) := found_of rfl fun _ => by rw [raw_s, opcodeOf_slotBits, guard_slotBits]; exact congrArg (fun x => some (Instr.mul g x)) (SR.ofWord_slotBits _ _ _)
theorem mulh (g : Guard) (w : SR) : Statement (.mulh g w) := found_of rfl fun _ => by rw [raw_s, opcodeOf_slotBits, guard_slotBits]; exact congrArg (fun x => some (Instr.mulh g x)) (SR.ofWord_slotBits _ _ _)
theorem mulhu (g : Guard) (w : SR) : Statement (.mulhu g w) := found_of rfl fun _ => by rw [raw_s, opcodeOf_slotBits, guard_slotBits]; exact congrArg (fun x => some (Instr.mulhu g x)) (SR.ofWord_slotBits _ _ _)
theorem and (g : Guard) (w : SR) : Statement (.and g w) := found_of rfl fun _ => by rw [raw_s, opcodeOf_slotBits, guard_slotBits]; exact congrArg (fun x => some (Instr.and g x)) (SR.ofWord_slotBits _ _ _)
theorem or (g : Guard) (w : SR) : Statement (.or g w) := found_of rfl fun _ => by rw [raw_s, opcodeOf_slotBits, guard_slotBits]; exact congrArg (fun x => some (Instr.or g x)) (SR.ofWord_slotBits _ _ _)
theorem xor (g : Guard) (w : SR) : Statement (.xor g w) := found_of rfl fun _ => by rw [raw_s, opcodeOf_slotBits, guard_slotBits]; exact congrArg (fun x => some (Instr.xor g x)) (SR.ofWord_slotBits _ _ _)
theorem shl (g : Guard) (w : SR) : Statement (.shl g w) := found_of rfl fun _ => by rw [raw_s, opcodeOf_slotBits, guard_slotBits]; exact congrArg (fun x => some (Instr.shl g x)) (SR.ofWord_slotBits _ _ _)
theorem shr (g : Guard) (w : SR) : Statement (.shr g w) := found_of rfl fun _ => by rw [raw_s, opcodeOf_slotBits, guard_slotBits]; exact congrArg (fun x => some (Instr.shr g x)) (SR.ofWord_slotBits _ _ _)
theorem sar (g : Guard) (w : SR) : Statement (.sar g w) := found_of rfl fun _ => by rw [raw_s, opcodeOf_slotBits, guard_slotBits]; exact congrArg (fun x => some (Instr.sar g x)) (SR.ofWord_slotBits _ _ _)
theorem min (g : Guard) (w : SR) : Statement (.min g w) := found_of rfl fun _ => by rw [raw_s, opcodeOf_slotBits, guard_slotBits]; exact congrArg (fun x => some (Instr.min g x)) (SR.ofWord_slotBits _ _ _)
theorem max (g : Guard) (w : SR) : Statement (.max g w) := found_of rfl fun _ => by rw [raw_s, opcodeOf_slotBits, guard_slotBits]; exact congrArg (fun x => some (Instr.max g x)) (SR.ofWord_slotBits _ _ _)
theorem minu (g : Guard) (w : SR) : Statement (.minu g w) := found_of rfl fun _ => by rw [raw_s, opcodeOf_slotBits, guard_slotBits]; exact congrArg (fun x => some (Instr.minu g x)) (SR.ofWord_slotBits _ _ _)
theorem maxu (g : Guard) (w : SR) : Statement (.maxu g w) := found_of rfl fun _ => by rw [raw_s, opcodeOf_slotBits, guard_slotBits]; exact congrArg (fun x => some (Instr.maxu g x)) (SR.ofWord_slotBits _ _ _)
theorem clz (g : Guard) (w : SR) : Statement (.clz g w) := found_of rfl fun _ => by rw [raw_s, opcodeOf_slotBits, guard_slotBits]; exact congrArg (fun x => some (Instr.clz g x)) (SR.ofWord_slotBits _ _ _)
theorem popc (g : Guard) (w : SR) : Statement (.popc g w) := found_of rfl fun _ => by rw [raw_s, opcodeOf_slotBits, guard_slotBits]; exact congrArg (fun x => some (Instr.popc g x)) (SR.ofWord_slotBits _ _ _)
theorem addi (g : Guard) (w : SI) : Statement (.addi g w) := found_of rfl fun _ => by rw [raw_s, opcodeOf_slotBits, guard_slotBits]; exact congrArg (fun x => some (Instr.addi g x)) (SI.ofWord_slotBits _ _ _)
theorem andi (g : Guard) (w : SI) : Statement (.andi g w) := found_of rfl fun _ => by rw [raw_s, opcodeOf_slotBits, guard_slotBits]; exact congrArg (fun x => some (Instr.andi g x)) (SI.ofWord_slotBits _ _ _)
theorem ori (g : Guard) (w : SI) : Statement (.ori g w) := found_of rfl fun _ => by rw [raw_s, opcodeOf_slotBits, guard_slotBits]; exact congrArg (fun x => some (Instr.ori g x)) (SI.ofWord_slotBits _ _ _)
theorem xori (g : Guard) (w : SI) : Statement (.xori g w) := found_of rfl fun _ => by rw [raw_s, opcodeOf_slotBits, guard_slotBits]; exact congrArg (fun x => some (Instr.xori g x)) (SI.ofWord_slotBits _ _ _)
theorem shli (g : Guard) (w : SI) : Statement (.shli g w) := found_of rfl fun _ => by rw [raw_s, opcodeOf_slotBits, guard_slotBits]; exact congrArg (fun x => some (Instr.shli g x)) (SI.ofWord_slotBits _ _ _)
theorem shri (g : Guard) (w : SI) : Statement (.shri g w) := found_of rfl fun _ => by rw [raw_s, opcodeOf_slotBits, guard_slotBits]; exact congrArg (fun x => some (Instr.shri g x)) (SI.ofWord_slotBits _ _ _)
theorem sari (g : Guard) (w : SI) : Statement (.sari g w) := found_of rfl fun _ => by rw [raw_s, opcodeOf_slotBits, guard_slotBits]; exact congrArg (fun x => some (Instr.sari g x)) (SI.ofWord_slotBits _ _ _)
theorem li (g : Guard) (w : SI) : Statement (.li g w) := found_of rfl fun _ => by rw [raw_s, opcodeOf_slotBits, guard_slotBits]; exact congrArg (fun x => some (Instr.li g x)) (SI.ofWord_slotBits _ _ _)
theorem cmpeq (g : Guard) (w : SR) : Statement (.cmpeq g w) := found_of rfl fun _ => by rw [raw_s, opcodeOf_slotBits, guard_slotBits]; exact congrArg (fun x => some (Instr.cmpeq g x)) (SR.ofWord_slotBits _ _ _)
theorem cmpne (g : Guard) (w : SR) : Statement (.cmpne g w) := found_of rfl fun _ => by rw [raw_s, opcodeOf_slotBits, guard_slotBits]; exact congrArg (fun x => some (Instr.cmpne g x)) (SR.ofWord_slotBits _ _ _)
theorem cmplt (g : Guard) (w : SR) : Statement (.cmplt g w) := found_of rfl fun _ => by rw [raw_s, opcodeOf_slotBits, guard_slotBits]; exact congrArg (fun x => some (Instr.cmplt g x)) (SR.ofWord_slotBits _ _ _)
theorem cmple (g : Guard) (w : SR) : Statement (.cmple g w) := found_of rfl fun _ => by rw [raw_s, opcodeOf_slotBits, guard_slotBits]; exact congrArg (fun x => some (Instr.cmple g x)) (SR.ofWord_slotBits _ _ _)
theorem cmpltu (g : Guard) (w : SR) : Statement (.cmpltu g w) := found_of rfl fun _ => by rw [raw_s, opcodeOf_slotBits, guard_slotBits]; exact congrArg (fun x => some (Instr.cmpltu g x)) (SR.ofWord_slotBits _ _ _)
theorem cmpleu (g : Guard) (w : SR) : Statement (.cmpleu g w) := found_of rfl fun _ => by rw [raw_s, opcodeOf_slotBits, guard_slotBits]; exact congrArg (fun x => some (Instr.cmpleu g x)) (SR.ofWord_slotBits _ _ _)
theorem cmpeqi (g : Guard) (w : SI) : Statement (.cmpeqi g w) := found_of rfl fun _ => by rw [raw_s, opcodeOf_slotBits, guard_slotBits]; exact congrArg (fun x => some (Instr.cmpeqi g x)) (SI.ofWord_slotBits _ _ _)
theorem cmplti (g : Guard) (w : SI) : Statement (.cmplti g w) := found_of rfl fun _ => by rw [raw_s, opcodeOf_slotBits, guard_slotBits]; exact congrArg (fun x => some (Instr.cmplti g x)) (SI.ofWord_slotBits _ _ _)
theorem pand (g : Guard) (w : SR) : Statement (.pand g w) := found_of rfl fun _ => by rw [raw_s, opcodeOf_slotBits, guard_slotBits]; exact congrArg (fun x => some (Instr.pand g x)) (SR.ofWord_slotBits _ _ _)
theorem por (g : Guard) (w : SR) : Statement (.por g w) := found_of rfl fun _ => by rw [raw_s, opcodeOf_slotBits, guard_slotBits]; exact congrArg (fun x => some (Instr.por g x)) (SR.ofWord_slotBits _ _ _)
theorem pxor (g : Guard) (w : SR) : Statement (.pxor g w) := found_of rfl fun _ => by rw [raw_s, opcodeOf_slotBits, guard_slotBits]; exact congrArg (fun x => some (Instr.pxor g x)) (SR.ofWord_slotBits _ _ _)
theorem pnot (g : Guard) (w : SR) : Statement (.pnot g w) := found_of rfl fun _ => by rw [raw_s, opcodeOf_slotBits, guard_slotBits]; exact congrArg (fun x => some (Instr.pnot g x)) (SR.ofWord_slotBits _ _ _)
theorem fadd (g : Guard) (w : SR) : Statement (.fadd g w) := found_of rfl fun _ => by rw [raw_s, opcodeOf_slotBits, guard_slotBits]; exact congrArg (fun x => some (Instr.fadd g x)) (SR.ofWord_slotBits _ _ _)
theorem fsub (g : Guard) (w : SR) : Statement (.fsub g w) := found_of rfl fun _ => by rw [raw_s, opcodeOf_slotBits, guard_slotBits]; exact congrArg (fun x => some (Instr.fsub g x)) (SR.ofWord_slotBits _ _ _)
theorem fmul (g : Guard) (w : SR) : Statement (.fmul g w) := found_of rfl fun _ => by rw [raw_s, opcodeOf_slotBits, guard_slotBits]; exact congrArg (fun x => some (Instr.fmul g x)) (SR.ofWord_slotBits _ _ _)
theorem ffma (g : Guard) (w : SR) : Statement (.ffma g w) := found_of rfl fun _ => by rw [raw_s, opcodeOf_slotBits, guard_slotBits]; exact congrArg (fun x => some (Instr.ffma g x)) (SR.ofWord_slotBits _ _ _)
theorem fdiv (g : Guard) (w : SR) : Statement (.fdiv g w) := found_of rfl fun _ => by rw [raw_s, opcodeOf_slotBits, guard_slotBits]; exact congrArg (fun x => some (Instr.fdiv g x)) (SR.ofWord_slotBits _ _ _)
theorem fsqrt (g : Guard) (w : SR) : Statement (.fsqrt g w) := found_of rfl fun _ => by rw [raw_s, opcodeOf_slotBits, guard_slotBits]; exact congrArg (fun x => some (Instr.fsqrt g x)) (SR.ofWord_slotBits _ _ _)
theorem fmin (g : Guard) (w : SR) : Statement (.fmin g w) := found_of rfl fun _ => by rw [raw_s, opcodeOf_slotBits, guard_slotBits]; exact congrArg (fun x => some (Instr.fmin g x)) (SR.ofWord_slotBits _ _ _)
theorem fmax (g : Guard) (w : SR) : Statement (.fmax g w) := found_of rfl fun _ => by rw [raw_s, opcodeOf_slotBits, guard_slotBits]; exact congrArg (fun x => some (Instr.fmax g x)) (SR.ofWord_slotBits _ _ _)
theorem fcmpeq (g : Guard) (w : SR) : Statement (.fcmpeq g w) := found_of rfl fun _ => by rw [raw_s, opcodeOf_slotBits, guard_slotBits]; exact congrArg (fun x => some (Instr.fcmpeq g x)) (SR.ofWord_slotBits _ _ _)
theorem fcmplt (g : Guard) (w : SR) : Statement (.fcmplt g w) := found_of rfl fun _ => by rw [raw_s, opcodeOf_slotBits, guard_slotBits]; exact congrArg (fun x => some (Instr.fcmplt g x)) (SR.ofWord_slotBits _ _ _)
theorem fcmple (g : Guard) (w : SR) : Statement (.fcmple g w) := found_of rfl fun _ => by rw [raw_s, opcodeOf_slotBits, guard_slotBits]; exact congrArg (fun x => some (Instr.fcmple g x)) (SR.ofWord_slotBits _ _ _)
theorem fcvti (g : Guard) (w : SR) : Statement (.fcvti g w) := found_of rfl fun _ => by rw [raw_s, opcodeOf_slotBits, guard_slotBits]; exact congrArg (fun x => some (Instr.fcvti g x)) (SR.ofWord_slotBits _ _ _)
theorem icvtf (g : Guard) (w : SR) : Statement (.icvtf g w) := found_of rfl fun _ => by rw [raw_s, opcodeOf_slotBits, guard_slotBits]; exact congrArg (fun x => some (Instr.icvtf g x)) (SR.ofWord_slotBits _ _ _)
theorem br (g : Guard) (w : SB) : Statement (.br g w) := found_of rfl fun _ => by rw [raw_s, opcodeOf_slotBits, guard_slotBits]; exact congrArg (fun x => some (Instr.br g x)) (SB.ofWord_slotBits _ _ _)
theorem bri (g : Guard) (w : SB) : Statement (.bri g w) := found_of rfl fun _ => by rw [raw_s, opcodeOf_slotBits, guard_slotBits]; exact congrArg (fun x => some (Instr.bri g x)) (SB.ofWord_slotBits _ _ _)
theorem call (g : Guard) (w : SB) : Statement (.call g w) := found_of rfl fun _ => by rw [raw_s, opcodeOf_slotBits, guard_slotBits]; exact congrArg (fun x => some (Instr.call g x)) (SB.ofWord_slotBits _ _ _)
theorem calli (g : Guard) (w : SB) : Statement (.calli g w) := found_of rfl fun _ => by rw [raw_s, opcodeOf_slotBits, guard_slotBits]; exact congrArg (fun x => some (Instr.calli g x)) (SB.ofWord_slotBits _ _ _)
theorem ret (g : Guard) (w : SB) : Statement (.ret g w) := found_of rfl fun _ => by rw [raw_s, opcodeOf_slotBits, guard_slotBits]; exact congrArg (fun x => some (Instr.ret g x)) (SB.ofWord_slotBits _ _ _)
theorem loop (g : Guard) (w : SB) : Statement (.loop g w) := found_of rfl fun _ => by rw [raw_s, opcodeOf_slotBits, guard_slotBits]; exact congrArg (fun x => some (Instr.loop g x)) (SB.ofWord_slotBits _ _ _)
theorem hbase (g : Guard) (w : SR) : Statement (.hbase g w) := found_of rfl fun _ => by rw [raw_s, opcodeOf_slotBits, guard_slotBits]; exact congrArg (fun x => some (Instr.hbase g x)) (SR.ofWord_slotBits _ _ _)
theorem hset (g : Guard) (w : SR) : Statement (.hset g w) := found_of rfl fun _ => by rw [raw_s, opcodeOf_slotBits, guard_slotBits]; exact congrArg (fun x => some (Instr.hset g x)) (SR.ofWord_slotBits _ _ _)
theorem hstep (g : Guard) (w : SR) : Statement (.hstep g w) := found_of rfl fun _ => by rw [raw_s, opcodeOf_slotBits, guard_slotBits]; exact congrArg (fun x => some (Instr.hstep g x)) (SR.ofWord_slotBits _ _ _)
theorem hget (g : Guard) (w : SR) : Statement (.hget g w) := found_of rfl fun _ => by rw [raw_s, opcodeOf_slotBits, guard_slotBits]; exact congrArg (fun x => some (Instr.hget g x)) (SR.ofWord_slotBits _ _ _)
theorem hmov (g : Guard) (w : SR) : Statement (.hmov g w) := found_of rfl fun _ => by rw [raw_s, opcodeOf_slotBits, guard_slotBits]; exact congrArg (fun x => some (Instr.hmov g x)) (SR.ofWord_slotBits _ _ _)
theorem lds (g : Guard) (w : SM) : Statement (.lds g w) := found_of rfl fun _ => by rw [raw_s, opcodeOf_slotBits, guard_slotBits]; exact congrArg (fun x => some (Instr.lds g x)) (SM.ofWord_slotBits _ _ _)
theorem sts (g : Guard) (w : SM) : Statement (.sts g w) := found_of rfl fun _ => by rw [raw_s, opcodeOf_slotBits, guard_slotBits]; exact congrArg (fun x => some (Instr.sts g x)) (SM.ofWord_slotBits _ _ _)
theorem ldg (g : Guard) (w : SG) : Statement (.ldg g w) := found_of rfl fun _ => by rw [raw_s, opcodeOf_slotBits, guard_slotBits]; exact congrArg (fun x => some (Instr.ldg g x)) (SG.ofWord_slotBits _ _ _)
theorem stg (g : Guard) (w : SG) : Statement (.stg g w) := found_of rfl fun _ => by rw [raw_s, opcodeOf_slotBits, guard_slotBits]; exact congrArg (fun x => some (Instr.stg g x)) (SG.ofWord_slotBits _ _ _)
theorem crr (g : Guard) (w : SI) : Statement (.crr g w) := found_of rfl fun _ => by rw [raw_s, opcodeOf_slotBits, guard_slotBits]; exact congrArg (fun x => some (Instr.crr g x)) (SI.ofWord_slotBits _ _ _)
theorem crw (g : Guard) (w : SI) : Statement (.crw g w) := found_of rfl fun _ => by rw [raw_s, opcodeOf_slotBits, guard_slotBits]; exact congrArg (fun x => some (Instr.crw g x)) (SI.ofWord_slotBits _ _ _)
theorem zins (g : Guard) (w : SR) : Statement (.zins g w) := found_of rfl fun _ => by rw [raw_s, opcodeOf_slotBits, guard_slotBits]; exact congrArg (fun x => some (Instr.zins g x)) (SR.ofWord_slotBits _ _ _)
theorem zext (g : Guard) (w : SR) : Statement (.zext g w) := found_of rfl fun _ => by rw [raw_s, opcodeOf_slotBits, guard_slotBits]; exact congrArg (fun x => some (Instr.zext g x)) (SR.ofWord_slotBits _ _ _)
theorem amoadd (g : Guard) (w : SA) : Statement (.amoadd g w) := found_of rfl fun _ => by rw [raw_s, opcodeOf_slotBits, guard_slotBits]; exact congrArg (fun x => some (Instr.amoadd g x)) (SA.ofWord_slotBits _ _ _)
theorem amoand (g : Guard) (w : SA) : Statement (.amoand g w) := found_of rfl fun _ => by rw [raw_s, opcodeOf_slotBits, guard_slotBits]; exact congrArg (fun x => some (Instr.amoand g x)) (SA.ofWord_slotBits _ _ _)
theorem amoor (g : Guard) (w : SA) : Statement (.amoor g w) := found_of rfl fun _ => by rw [raw_s, opcodeOf_slotBits, guard_slotBits]; exact congrArg (fun x => some (Instr.amoor g x)) (SA.ofWord_slotBits _ _ _)
theorem amoxor (g : Guard) (w : SA) : Statement (.amoxor g w) := found_of rfl fun _ => by rw [raw_s, opcodeOf_slotBits, guard_slotBits]; exact congrArg (fun x => some (Instr.amoxor g x)) (SA.ofWord_slotBits _ _ _)
theorem amomin (g : Guard) (w : SA) : Statement (.amomin g w) := found_of rfl fun _ => by rw [raw_s, opcodeOf_slotBits, guard_slotBits]; exact congrArg (fun x => some (Instr.amomin g x)) (SA.ofWord_slotBits _ _ _)
theorem amomax (g : Guard) (w : SA) : Statement (.amomax g w) := found_of rfl fun _ => by rw [raw_s, opcodeOf_slotBits, guard_slotBits]; exact congrArg (fun x => some (Instr.amomax g x)) (SA.ofWord_slotBits _ _ _)
theorem amoswap (g : Guard) (w : SA) : Statement (.amoswap g w) := found_of rfl fun _ => by rw [raw_s, opcodeOf_slotBits, guard_slotBits]; exact congrArg (fun x => some (Instr.amoswap g x)) (SA.ofWord_slotBits _ _ _)
theorem amocas (g : Guard) (w : SA) : Statement (.amocas g w) := found_of rfl fun _ => by rw [raw_s, opcodeOf_slotBits, guard_slotBits]; exact congrArg (fun x => some (Instr.amocas g x)) (SA.ofWord_slotBits _ _ _)
theorem amofadd (g : Guard) (w : SA) : Statement (.amofadd g w) := found_of rfl fun _ => by rw [raw_s, opcodeOf_slotBits, guard_slotBits]; exact congrArg (fun x => some (Instr.amofadd g x)) (SA.ofWord_slotBits _ _ _)
theorem bar (g : Guard) (w : SI) : Statement (.bar g w) := found_of rfl fun _ => by rw [raw_s, opcodeOf_slotBits, guard_slotBits]; exact congrArg (fun x => some (Instr.bar g x)) (SI.ofWord_slotBits _ _ _)
theorem drain (g : Guard) (w : SI) : Statement (.drain g w) := found_of rfl fun _ => by rw [raw_s, opcodeOf_slotBits, guard_slotBits]; exact congrArg (fun x => some (Instr.drain g x)) (SI.ofWord_slotBits _ _ _)
theorem settle (g : Guard) (w : SI) : Statement (.settle g w) := found_of rfl fun _ => by rw [raw_s, opcodeOf_slotBits, guard_slotBits]; exact congrArg (fun x => some (Instr.settle g x)) (SI.ofWord_slotBits _ _ _)
theorem yield (g : Guard) (w : SI) : Statement (.yield g w) := found_of rfl fun _ => by rw [raw_s, opcodeOf_slotBits, guard_slotBits]; exact congrArg (fun x => some (Instr.yield g x)) (SI.ofWord_slotBits _ _ _)
theorem tail (g : Guard) (w : SI) : Statement (.tail g w) := found_of rfl fun _ => by rw [raw_s, opcodeOf_slotBits, guard_slotBits]; exact congrArg (fun x => some (Instr.tail g x)) (SI.ofWord_slotBits _ _ _)
theorem enter (g : Guard) (w : SI) : Statement (.enter g w) := found_of rfl fun _ => by rw [raw_s, opcodeOf_slotBits, guard_slotBits]; exact congrArg (fun x => some (Instr.enter g x)) (SI.ofWord_slotBits _ _ _)
theorem leave (g : Guard) (w : SI) : Statement (.leave g w) := found_of rfl fun _ => by rw [raw_s, opcodeOf_slotBits, guard_slotBits]; exact congrArg (fun x => some (Instr.leave g x)) (SI.ofWord_slotBits _ _ _)
theorem probe (g : Guard) (w : SI) : Statement (.probe g w) := found_of rfl fun _ => by rw [raw_s, opcodeOf_slotBits, guard_slotBits]; exact congrArg (fun x => some (Instr.probe g x)) (SI.ofWord_slotBits _ _ _)
theorem trap (g : Guard) (w : SI) : Statement (.trap g w) := found_of rfl fun _ => by rw [raw_s, opcodeOf_slotBits, guard_slotBits]; exact congrArg (fun x => some (Instr.trap g x)) (SI.ofWord_slotBits _ _ _)
theorem eret (g : Guard) (w : SI) : Statement (.eret g w) := found_of rfl fun _ => by rw [raw_s, opcodeOf_slotBits, guard_slotBits]; exact congrArg (fun x => some (Instr.eret g x)) (SI.ofWord_slotBits _ _ _)
theorem ldref (g : Guard) (w : SG) : Statement (.ldref g w) := found_of rfl fun _ => by rw [raw_s, opcodeOf_slotBits, guard_slotBits]; exact congrArg (fun x => some (Instr.ldref g x)) (SG.ofWord_slotBits _ _ _)
theorem stref (g : Guard) (w : SG) : Statement (.stref g w) := found_of rfl fun _ => by rw [raw_s, opcodeOf_slotBits, guard_slotBits]; exact congrArg (fun x => some (Instr.stref g x)) (SG.ofWord_slotBits _ _ _)
theorem ldfld (g : Guard) (w : SG) : Statement (.ldfld g w) := found_of rfl fun _ => by rw [raw_s, opcodeOf_slotBits, guard_slotBits]; exact congrArg (fun x => some (Instr.ldfld g x)) (SG.ofWord_slotBits _ _ _)
theorem stfld (g : Guard) (w : SG) : Statement (.stfld g w) := found_of rfl fun _ => by rw [raw_s, opcodeOf_slotBits, guard_slotBits]; exact congrArg (fun x => some (Instr.stfld g x)) (SG.ofWord_slotBits _ _ _)
theorem pin (g : Guard) (w : SR) : Statement (.pin g w) := found_of rfl fun _ => by rw [raw_s, opcodeOf_slotBits, guard_slotBits]; exact congrArg (fun x => some (Instr.pin g x)) (SR.ofWord_slotBits _ _ _)
theorem unpin (g : Guard) (w : SR) : Statement (.unpin g w) := found_of rfl fun _ => by rw [raw_s, opcodeOf_slotBits, guard_slotBits]; exact congrArg (fun x => some (Instr.unpin g x)) (SR.ofWord_slotBits _ _ _)
theorem refeq (g : Guard) (w : SR) : Statement (.refeq g w) := found_of rfl fun _ => by rw [raw_s, opcodeOf_slotBits, guard_slotBits]; exact congrArg (fun x => some (Instr.refeq g x)) (SR.ofWord_slotBits _ _ _)
theorem refmk (g : Guard) (w : SR) : Statement (.refmk g w) := found_of rfl fun _ => by rw [raw_s, opcodeOf_slotBits, guard_slotBits]; exact congrArg (fun x => some (Instr.refmk g x)) (SR.ofWord_slotBits _ _ _)
theorem slotmap (g : Guard) (w : SR) : Statement (.slotmap g w) := found_of rfl fun _ => by rw [raw_s, opcodeOf_slotBits, guard_slotBits]; exact congrArg (fun x => some (Instr.slotmap g x)) (SR.ofWord_slotBits _ _ _)
theorem ttset (g : Guard) (w : SR) : Statement (.ttset g w) := found_of rfl fun _ => by rw [raw_s, opcodeOf_slotBits, guard_slotBits]; exact congrArg (fun x => some (Instr.ttset g x)) (SR.ofWord_slotBits _ _ _)
theorem skeinldLoad (g : Guard) (w : SR) : Statement (.skeinldLoad g w) := found_of rfl fun _ => by rw [raw_s, opcodeOf_slotBits, guard_slotBits]; exact congrArg (fun x => some (Instr.skeinldLoad g x)) (SR.ofWord_slotBits _ _ _)
theorem skeinldRelease (g : Guard) (w : SR) : Statement (.skeinldRelease g w) := fun sl x e hw hn => absurd rfl (hn g w)
theorem scanrun (g : Guard) (w : SR) : Statement (.scanrun g w) := found_of rfl fun _ => by rw [raw_s, opcodeOf_slotBits, guard_slotBits]; exact congrArg (fun x => some (Instr.scanrun g x)) (SR.ofWord_slotBits _ _ _)
theorem preempt (g : Guard) (w : SR) : Statement (.preempt g w) := found_of rfl fun _ => by rw [raw_s, opcodeOf_slotBits, guard_slotBits]; exact congrArg (fun x => some (Instr.preempt g x)) (SR.ofWord_slotBits _ _ _)
theorem ctxsave (g : Guard) (w : SR) : Statement (.ctxsave g w) := found_of rfl fun _ => by rw [raw_s, opcodeOf_slotBits, guard_slotBits]; exact congrArg (fun x => some (Instr.ctxsave g x)) (SR.ofWord_slotBits _ _ _)
theorem ctxload (g : Guard) (w : SR) : Statement (.ctxload g w) := found_of rfl fun _ => by rw [raw_s, opcodeOf_slotBits, guard_slotBits]; exact congrArg (fun x => some (Instr.ctxload g x)) (SR.ofWord_slotBits _ _ _)
theorem qmap (g : Guard) (w : SR) : Statement (.qmap g w) := found_of rfl fun _ => by rw [raw_s, opcodeOf_slotBits, guard_slotBits]; exact congrArg (fun x => some (Instr.qmap g x)) (SR.ofWord_slotBits _ _ _)
theorem qsave (g : Guard) (w : SR) : Statement (.qsave g w) := found_of rfl fun _ => by rw [raw_s, opcodeOf_slotBits, guard_slotBits]; exact congrArg (fun x => some (Instr.qsave g x)) (SR.ofWord_slotBits _ _ _)
theorem qload (g : Guard) (w : SR) : Statement (.qload g w) := found_of rfl fun _ => by rw [raw_s, opcodeOf_slotBits, guard_slotBits]; exact congrArg (fun x => some (Instr.qload g x)) (SR.ofWord_slotBits _ _ _)
theorem pstep (g : Guard) (w : SR) : Statement (.pstep g w) := found_of rfl fun _ => by rw [raw_s, opcodeOf_slotBits, guard_slotBits]; exact congrArg (fun x => some (Instr.pstep g x)) (SR.ofWord_slotBits _ _ _)
theorem inval (g : Guard) (w : SR) : Statement (.inval g w) := found_of rfl fun _ => by rw [raw_s, opcodeOf_slotBits, guard_slotBits]; exact congrArg (fun x => some (Instr.inval g x)) (SR.ofWord_slotBits _ _ _)
theorem relocStart (g : Guard) (w : SR) : Statement (.relocStart g w) := found_of rfl fun h => by rw [raw_s, opcodeOf_slotBits, guard_slotBits]; exact (congrArg (fun x => some (relocOf g x)) (SR.ofWord_slotBits _ _ _)).trans (congrArg some (relocStart_of h))
theorem relocQuery (g : Guard) (w : SR) : Statement (.relocQuery g w) := found_of rfl fun h => by rw [raw_s, opcodeOf_slotBits, guard_slotBits]; exact (congrArg (fun x => some (relocOf g x)) (SR.ofWord_slotBits _ _ _)).trans (congrArg some (relocQuery_of h))
theorem relocAbort (g : Guard) (w : SR) : Statement (.relocAbort g w) := found_of rfl fun h => by rw [raw_s, opcodeOf_slotBits, guard_slotBits]; exact (congrArg (fun x => some (relocOf g x)) (SR.ofWord_slotBits _ _ _)).trans (congrArg some (relocAbort_of h))
theorem fwdpub (g : Guard) (w : SR) : Statement (.fwdpub g w) := found_of rfl fun _ => by rw [raw_s, opcodeOf_slotBits, guard_slotBits]; exact congrArg (fun x => some (Instr.fwdpub g x)) (SR.ofWord_slotBits _ _ _)
theorem logrApp (g : Guard) (w : SR) : Statement (.logrApp g w) := found_of rfl fun h => by rw [raw_s, opcodeOf_slotBits, guard_slotBits]; exact (congrArg (fun x => some (logrOf g x)) (SR.ofWord_slotBits _ _ _)).trans (congrArg some (logrApp_of h))
theorem logrRead (g : Guard) (w : SR) : Statement (.logrRead g w) := found_of rfl fun h => by rw [raw_s, opcodeOf_slotBits, guard_slotBits]; exact (congrArg (fun x => some (logrOf g x)) (SR.ofWord_slotBits _ _ _)).trans (congrArg some (logrRead_of h))
theorem vld (v : VSlot) (g : Guard) (w : VM) : Statement (.vld v g w) := found_of rfl fun _ => by rw [raw_v, opcodeOf_slotBits, guard_slotBits]; exact congrArg (fun x => some (Instr.vld v g x)) (VM.ofWord_slotBits _ _ _)
theorem vst (v : VSlot) (g : Guard) (w : VM) : Statement (.vst v g w) := found_of rfl fun _ => by rw [raw_v, opcodeOf_slotBits, guard_slotBits]; exact congrArg (fun x => some (Instr.vst v g x)) (VM.ofWord_slotBits _ _ _)
theorem vmov (v : VSlot) (g : Guard) (w : VR) : Statement (.vmov v g w) := found_of rfl fun _ => by rw [raw_v, opcodeOf_slotBits, guard_slotBits]; exact congrArg (fun x => some (Instr.vmov v g x)) (VR.ofWord_slotBits _ _ _)
theorem vtag (v : VSlot) (g : Guard) (w : VR) : Statement (.vtag v g w) := found_of rfl fun _ => by rw [raw_v, opcodeOf_slotBits, guard_slotBits]; exact congrArg (fun x => some (Instr.vtag v g x)) (VR.ofWord_slotBits _ _ _)
theorem vperm (v : VSlot) (g : Guard) (w : VR) : Statement (.vperm v g w) := found_of rfl fun _ => by rw [raw_v, opcodeOf_slotBits, guard_slotBits]; exact congrArg (fun x => some (Instr.vperm v g x)) (VR.ofWord_slotBits _ _ _)
theorem vbcstScalar (v : VSlot) (g : Guard) (w : VR) : Statement (.vbcstScalar v g w) := found_of rfl fun h => by rw [raw_v, opcodeOf_slotBits, guard_slotBits]; exact (congrArg (fun x => some (vbcstOf v g x)) (VR.ofWord_slotBits _ _ _)).trans (congrArg some (vbcstScalar_of h))
theorem vbcstElement (v : VSlot) (g : Guard) (w : VR) : Statement (.vbcstElement v g w) := found_of rfl fun h => by rw [raw_v, opcodeOf_slotBits, guard_slotBits]; exact (congrArg (fun x => some (vbcstOf v g x)) (VR.ofWord_slotBits _ _ _)).trans (congrArg some (vbcstElement_of h))
theorem vshuf (v : VSlot) (g : Guard) (w : VR) : Statement (.vshuf v g w) := found_of rfl fun _ => by rw [raw_v, opcodeOf_slotBits, guard_slotBits]; exact congrArg (fun x => some (Instr.vshuf v g x)) (VR.ofWord_slotBits _ _ _)
theorem vsel (v : VSlot) (g : Guard) (w : VR) : Statement (.vsel v g w) := found_of rfl fun _ => by rw [raw_v, opcodeOf_slotBits, guard_slotBits]; exact congrArg (fun x => some (Instr.vsel v g x)) (VR.ofWord_slotBits _ _ _)
theorem vadd (v : VSlot) (g : Guard) (w : VR) : Statement (.vadd v g w) := found_of rfl fun _ => by rw [raw_v, opcodeOf_slotBits, guard_slotBits]; exact congrArg (fun x => some (Instr.vadd v g x)) (VR.ofWord_slotBits _ _ _)
theorem vsub (v : VSlot) (g : Guard) (w : VR) : Statement (.vsub v g w) := found_of rfl fun _ => by rw [raw_v, opcodeOf_slotBits, guard_slotBits]; exact congrArg (fun x => some (Instr.vsub v g x)) (VR.ofWord_slotBits _ _ _)
theorem vmul (v : VSlot) (g : Guard) (w : VR) : Statement (.vmul v g w) := found_of rfl fun _ => by rw [raw_v, opcodeOf_slotBits, guard_slotBits]; exact congrArg (fun x => some (Instr.vmul v g x)) (VR.ofWord_slotBits _ _ _)
theorem vfma (v : VSlot) (g : Guard) (w : VR) : Statement (.vfma v g w) := found_of rfl fun _ => by rw [raw_v, opcodeOf_slotBits, guard_slotBits]; exact congrArg (fun x => some (Instr.vfma v g x)) (VR.ofWord_slotBits _ _ _)
theorem vfms (v : VSlot) (g : Guard) (w : VR) : Statement (.vfms v g w) := found_of rfl fun _ => by rw [raw_v, opcodeOf_slotBits, guard_slotBits]; exact congrArg (fun x => some (Instr.vfms v g x)) (VR.ofWord_slotBits _ _ _)
theorem vmin (v : VSlot) (g : Guard) (w : VR) : Statement (.vmin v g w) := found_of rfl fun _ => by rw [raw_v, opcodeOf_slotBits, guard_slotBits]; exact congrArg (fun x => some (Instr.vmin v g x)) (VR.ofWord_slotBits _ _ _)
theorem vmax (v : VSlot) (g : Guard) (w : VR) : Statement (.vmax v g w) := found_of rfl fun _ => by rw [raw_v, opcodeOf_slotBits, guard_slotBits]; exact congrArg (fun x => some (Instr.vmax v g x)) (VR.ofWord_slotBits _ _ _)
theorem vabs (v : VSlot) (g : Guard) (w : VR) : Statement (.vabs v g w) := found_of rfl fun _ => by rw [raw_v, opcodeOf_slotBits, guard_slotBits]; exact congrArg (fun x => some (Instr.vabs v g x)) (VR.ofWord_slotBits _ _ _)
theorem vneg (v : VSlot) (g : Guard) (w : VR) : Statement (.vneg v g w) := found_of rfl fun _ => by rw [raw_v, opcodeOf_slotBits, guard_slotBits]; exact congrArg (fun x => some (Instr.vneg v g x)) (VR.ofWord_slotBits _ _ _)
theorem vcmp (v : VSlot) (g : Guard) (w : VR) : Statement (.vcmp v g w) := found_of rfl fun _ => by rw [raw_v, opcodeOf_slotBits, guard_slotBits]; exact congrArg (fun x => some (Instr.vcmp v g x)) (VR.ofWord_slotBits _ _ _)
theorem viadd (v : VSlot) (g : Guard) (w : VR) : Statement (.viadd v g w) := found_of rfl fun _ => by rw [raw_v, opcodeOf_slotBits, guard_slotBits]; exact congrArg (fun x => some (Instr.viadd v g x)) (VR.ofWord_slotBits _ _ _)
theorem visub (v : VSlot) (g : Guard) (w : VR) : Statement (.visub v g w) := found_of rfl fun _ => by rw [raw_v, opcodeOf_slotBits, guard_slotBits]; exact congrArg (fun x => some (Instr.visub v g x)) (VR.ofWord_slotBits _ _ _)
theorem vimul (v : VSlot) (g : Guard) (w : VR) : Statement (.vimul v g w) := found_of rfl fun _ => by rw [raw_v, opcodeOf_slotBits, guard_slotBits]; exact congrArg (fun x => some (Instr.vimul v g x)) (VR.ofWord_slotBits _ _ _)
theorem vimad (v : VSlot) (g : Guard) (w : VR) : Statement (.vimad v g w) := found_of rfl fun _ => by rw [raw_v, opcodeOf_slotBits, guard_slotBits]; exact congrArg (fun x => some (Instr.vimad v g x)) (VR.ofWord_slotBits _ _ _)
theorem vand (v : VSlot) (g : Guard) (w : VR) : Statement (.vand v g w) := found_of rfl fun _ => by rw [raw_v, opcodeOf_slotBits, guard_slotBits]; exact congrArg (fun x => some (Instr.vand v g x)) (VR.ofWord_slotBits _ _ _)
theorem vor (v : VSlot) (g : Guard) (w : VR) : Statement (.vor v g w) := found_of rfl fun _ => by rw [raw_v, opcodeOf_slotBits, guard_slotBits]; exact congrArg (fun x => some (Instr.vor v g x)) (VR.ofWord_slotBits _ _ _)
theorem vxor (v : VSlot) (g : Guard) (w : VR) : Statement (.vxor v g w) := found_of rfl fun _ => by rw [raw_v, opcodeOf_slotBits, guard_slotBits]; exact congrArg (fun x => some (Instr.vxor v g x)) (VR.ofWord_slotBits _ _ _)
theorem vimin (v : VSlot) (g : Guard) (w : VR) : Statement (.vimin v g w) := found_of rfl fun _ => by rw [raw_v, opcodeOf_slotBits, guard_slotBits]; exact congrArg (fun x => some (Instr.vimin v g x)) (VR.ofWord_slotBits _ _ _)
theorem vimax (v : VSlot) (g : Guard) (w : VR) : Statement (.vimax v g w) := found_of rfl fun _ => by rw [raw_v, opcodeOf_slotBits, guard_slotBits]; exact congrArg (fun x => some (Instr.vimax v g x)) (VR.ofWord_slotBits _ _ _)
theorem vshl (v : VSlot) (g : Guard) (w : VR) : Statement (.vshl v g w) := found_of rfl fun _ => by rw [raw_v, opcodeOf_slotBits, guard_slotBits]; exact congrArg (fun x => some (Instr.vshl v g x)) (VR.ofWord_slotBits _ _ _)
theorem vshr (v : VSlot) (g : Guard) (w : VR) : Statement (.vshr v g w) := found_of rfl fun _ => by rw [raw_v, opcodeOf_slotBits, guard_slotBits]; exact congrArg (fun x => some (Instr.vshr v g x)) (VR.ofWord_slotBits _ _ _)
theorem vsar (v : VSlot) (g : Guard) (w : VR) : Statement (.vsar v g w) := found_of rfl fun _ => by rw [raw_v, opcodeOf_slotBits, guard_slotBits]; exact congrArg (fun x => some (Instr.vsar v g x)) (VR.ofWord_slotBits _ _ _)
theorem vicmp (v : VSlot) (g : Guard) (w : VR) : Statement (.vicmp v g w) := found_of rfl fun _ => by rw [raw_v, opcodeOf_slotBits, guard_slotBits]; exact congrArg (fun x => some (Instr.vicmp v g x)) (VR.ofWord_slotBits _ _ _)
theorem vcvt (v : VSlot) (g : Guard) (w : VR) : Statement (.vcvt v g w) := found_of rfl fun _ => by rw [raw_v, opcodeOf_slotBits, guard_slotBits]; exact congrArg (fun x => some (Instr.vcvt v g x)) (VR.ofWord_slotBits _ _ _)
theorem vqzb (v : VSlot) (g : Guard) (w : VR) : Statement (.vqzb v g w) := found_of rfl fun _ => by rw [raw_v, opcodeOf_slotBits, guard_slotBits]; exact congrArg (fun x => some (Instr.vqzb v g x)) (VR.ofWord_slotBits _ _ _)
theorem vmxi (v : VSlot) (g : Guard) (w : VR) : Statement (.vmxi v g w) := found_of rfl fun _ => by rw [raw_v, opcodeOf_slotBits, guard_slotBits]; exact congrArg (fun x => some (Instr.vmxi v g x)) (VR.ofWord_slotBits _ _ _)
theorem vrsum (v : VSlot) (g : Guard) (w : VR) : Statement (.vrsum v g w) := found_of rfl fun _ => by rw [raw_v, opcodeOf_slotBits, guard_slotBits]; exact congrArg (fun x => some (Instr.vrsum v g x)) (VR.ofWord_slotBits _ _ _)
theorem vrmax (v : VSlot) (g : Guard) (w : VR) : Statement (.vrmax v g w) := found_of rfl fun _ => by rw [raw_v, opcodeOf_slotBits, guard_slotBits]; exact congrArg (fun x => some (Instr.vrmax v g x)) (VR.ofWord_slotBits _ _ _)
theorem vrmin (v : VSlot) (g : Guard) (w : VR) : Statement (.vrmin v g w) := found_of rfl fun _ => by rw [raw_v, opcodeOf_slotBits, guard_slotBits]; exact congrArg (fun x => some (Instr.vrmin v g x)) (VR.ofWord_slotBits _ _ _)
theorem vexp2 (v : VSlot) (g : Guard) (w : VR) : Statement (.vexp2 v g w) := found_of rfl fun _ => by rw [raw_v, opcodeOf_slotBits, guard_slotBits]; exact congrArg (fun x => some (Instr.vexp2 v g x)) (VR.ofWord_slotBits _ _ _)
theorem vlog2 (v : VSlot) (g : Guard) (w : VR) : Statement (.vlog2 v g w) := found_of rfl fun _ => by rw [raw_v, opcodeOf_slotBits, guard_slotBits]; exact congrArg (fun x => some (Instr.vlog2 v g x)) (VR.ofWord_slotBits _ _ _)
theorem vrcp (v : VSlot) (g : Guard) (w : VR) : Statement (.vrcp v g w) := found_of rfl fun _ => by rw [raw_v, opcodeOf_slotBits, guard_slotBits]; exact congrArg (fun x => some (Instr.vrcp v g x)) (VR.ofWord_slotBits _ _ _)
theorem vrsq (v : VSlot) (g : Guard) (w : VR) : Statement (.vrsq v g w) := found_of rfl fun _ => by rw [raw_v, opcodeOf_slotBits, guard_slotBits]; exact congrArg (fun x => some (Instr.vrsq v g x)) (VR.ofWord_slotBits _ _ _)
theorem vsin (v : VSlot) (g : Guard) (w : VR) : Statement (.vsin v g w) := found_of rfl fun _ => by rw [raw_v, opcodeOf_slotBits, guard_slotBits]; exact congrArg (fun x => some (Instr.vsin v g x)) (VR.ofWord_slotBits _ _ _)
theorem vcos (v : VSlot) (g : Guard) (w : VR) : Statement (.vcos v g w) := found_of rfl fun _ => by rw [raw_v, opcodeOf_slotBits, guard_slotBits]; exact congrArg (fun x => some (Instr.vcos v g x)) (VR.ofWord_slotBits _ _ _)
theorem vscget (v : VSlot) (g : Guard) (w : VR) : Statement (.vscget v g w) := found_of rfl fun _ => by rw [raw_v, opcodeOf_slotBits, guard_slotBits]; exact congrArg (fun x => some (Instr.vscget v g x)) (VR.ofWord_slotBits _ _ _)
theorem vscset (v : VSlot) (g : Guard) (w : VR) : Statement (.vscset v g w) := found_of rfl fun _ => by rw [raw_v, opcodeOf_slotBits, guard_slotBits]; exact congrArg (fun x => some (Instr.vscset v g x)) (VR.ofWord_slotBits _ _ _)
theorem vscadd (v : VSlot) (g : Guard) (w : VR) : Statement (.vscadd v g w) := found_of rfl fun _ => by rw [raw_v, opcodeOf_slotBits, guard_slotBits]; exact congrArg (fun x => some (Instr.vscadd v g x)) (VR.ofWord_slotBits _ _ _)
theorem vscmax (v : VSlot) (g : Guard) (w : VR) : Statement (.vscmax v g w) := found_of rfl fun _ => by rw [raw_v, opcodeOf_slotBits, guard_slotBits]; exact congrArg (fun x => some (Instr.vscmax v g x)) (VR.ofWord_slotBits _ _ _)
theorem fx (n : BitVec 4) (v : VSlot) (g : Guard) (w : VR) : Statement (.fx n v g w) := found_of rfl fun _ => by rw [raw_v, opcodeOf_slotBits, guard_slotBits, fx_raw, VR.ofWord_slotBits]
theorem mlb (g : Guard) (w : MW) : Statement (.mlb g w) := found_of rfl fun _ => by rw [raw_m, opcodeOf_slotBits, guard_slotBits]; exact congrArg (fun x => some (Instr.mlb g x)) (MW.ofWord_slotBits _ _ _)
theorem msel (g : Guard) (w : MW) : Statement (.msel g w) := found_of rfl fun _ => by rw [raw_m, opcodeOf_slotBits, guard_slotBits]; exact congrArg (fun x => some (Instr.msel g x)) (MW.ofWord_slotBits _ _ _)
theorem mac (g : Guard) (w : MW) : Statement (.mac g w) := found_of rfl fun _ => by rw [raw_m, opcodeOf_slotBits, guard_slotBits]; exact congrArg (fun x => some (Instr.mac g x)) (MW.ofWord_slotBits _ _ _)
theorem macn (g : Guard) (w : MW) : Statement (.macn g w) := found_of rfl fun _ => by rw [raw_m, opcodeOf_slotBits, guard_slotBits]; exact congrArg (fun x => some (Instr.macn g x)) (MW.ofWord_slotBits _ _ _)
theorem macz (g : Guard) (w : MW) : Statement (.macz g w) := found_of rfl fun _ => by rw [raw_m, opcodeOf_slotBits, guard_slotBits]; exact congrArg (fun x => some (Instr.macz g x)) (MW.ofWord_slotBits _ _ _)
theorem mrd (g : Guard) (w : MW) : Statement (.mrd g w) := found_of rfl fun h => by rw [raw_m, opcodeOf_slotBits, guard_slotBits]; exact (congrArg (fun x => some (mrdOf g x)) (MW.ofWord_slotBits _ _ _)).trans (congrArg some (mrd_of h))
theorem mrdSteps (g : Guard) (w : MW) : Statement (.mrdSteps g w) := found_of rfl fun h => by rw [raw_m, opcodeOf_slotBits, guard_slotBits]; exact (congrArg (fun x => some (mrdOf g x)) (MW.ofWord_slotBits _ _ _)).trans (congrArg some (mrdSteps_of h))
theorem mdr (g : Guard) (w : MW) : Statement (.mdr g w) := found_of rfl fun _ => by rw [raw_m, opcodeOf_slotBits, guard_slotBits]; exact congrArg (fun x => some (Instr.mdr g x)) (MW.ofWord_slotBits _ _ _)
theorem mclr (g : Guard) (w : MW) : Statement (.mclr g w) := found_of rfl fun _ => by rw [raw_m, opcodeOf_slotBits, guard_slotBits]; exact congrArg (fun x => some (Instr.mclr g x)) (MW.ofWord_slotBits _ _ _)
theorem mmode (g : Guard) (w : MW) : Statement (.mmode g w) := found_of rfl fun _ => by rw [raw_m, opcodeOf_slotBits, guard_slotBits]; exact congrArg (fun x => some (Instr.mmode g x)) (MW.ofWord_slotBits _ _ _)
theorem cpy (c : CSlot) (g : Guard) (w : CW) : Statement (.cpy c g w) := found_of rfl fun _ => by rw [raw_c, opcodeOf_slotBits, guard_slotBits]; exact congrArg (fun x => some (Instr.cpy c g x)) (CW.ofWord_slotBits _ _ _)
theorem cpyr (c : CSlot) (g : Guard) (w : CW) : Statement (.cpyr c g w) := found_of rfl fun _ => by rw [raw_c, opcodeOf_slotBits, guard_slotBits]; exact congrArg (fun x => some (Instr.cpyr c g x)) (CW.ofWord_slotBits _ _ _)
theorem cpyt (c : CSlot) (g : Guard) (w : CW) : Statement (.cpyt c g w) := found_of rfl fun _ => by rw [raw_c, opcodeOf_slotBits, guard_slotBits]; exact congrArg (fun x => some (Instr.cpyt c g x)) (CW.ofWord_slotBits _ _ _)
theorem cpytr (c : CSlot) (g : Guard) (w : CW) : Statement (.cpytr c g w) := found_of rfl fun _ => by rw [raw_c, opcodeOf_slotBits, guard_slotBits]; exact congrArg (fun x => some (Instr.cpytr c g x)) (CW.ofWord_slotBits _ _ _)
theorem gath (c : CSlot) (g : Guard) (w : CW) : Statement (.gath c g w) := found_of rfl fun _ => by rw [raw_c, opcodeOf_slotBits, guard_slotBits]; exact congrArg (fun x => some (Instr.gath c g x)) (CW.ofWord_slotBits _ _ _)
theorem gathr (c : CSlot) (g : Guard) (w : CW) : Statement (.gathr c g w) := found_of rfl fun _ => by rw [raw_c, opcodeOf_slotBits, guard_slotBits]; exact congrArg (fun x => some (Instr.gathr c g x)) (CW.ofWord_slotBits _ _ _)
theorem scat (c : CSlot) (g : Guard) (w : CW) : Statement (.scat c g w) := found_of rfl fun _ => by rw [raw_c, opcodeOf_slotBits, guard_slotBits]; exact congrArg (fun x => some (Instr.scat c g x)) (CW.ofWord_slotBits _ _ _)
theorem scatr (c : CSlot) (g : Guard) (w : CW) : Statement (.scatr c g w) := found_of rfl fun _ => by rw [raw_c, opcodeOf_slotBits, guard_slotBits]; exact congrArg (fun x => some (Instr.scatr c g x)) (CW.ofWord_slotBits _ _ _)
theorem cfill (c : CSlot) (g : Guard) (w : CW) : Statement (.cfill c g w) := found_of rfl fun _ => by rw [raw_c, opcodeOf_slotBits, guard_slotBits]; exact congrArg (fun x => some (Instr.cfill c g x)) (CW.ofWord_slotBits _ _ _)
theorem redc (c : CSlot) (g : Guard) (w : CW) : Statement (.redc c g w) := found_of rfl fun _ => by rw [raw_c, opcodeOf_slotBits, guard_slotBits]; exact congrArg (fun x => some (Instr.redc c g x)) (CW.ofWord_slotBits _ _ _)
theorem bcst (c : CSlot) (g : Guard) (w : CW) : Statement (.bcst c g w) := found_of rfl fun _ => by rw [raw_c, opcodeOf_slotBits, guard_slotBits]; exact congrArg (fun x => some (Instr.bcst c g x)) (CW.ofWord_slotBits _ _ _)
theorem ldq (c : CSlot) (g : Guard) (w : CW) : Statement (.ldq c g w) := found_of rfl fun _ => by rw [raw_c, opcodeOf_slotBits, guard_slotBits]; exact congrArg (fun x => some (Instr.ldq c g x)) (CW.ofWord_slotBits _ _ _)
theorem stq (c : CSlot) (g : Guard) (w : CW) : Statement (.stq c g w) := found_of rfl fun _ => by rw [raw_c, opcodeOf_slotBits, guard_slotBits]; exact congrArg (fun x => some (Instr.stq c g x)) (CW.ofWord_slotBits _ _ _)
theorem kwait (c : CSlot) (g : Guard) (w : CW) : Statement (.kwait c g w) := found_of rfl fun _ => by rw [raw_c, opcodeOf_slotBits, guard_slotBits]; exact congrArg (fun x => some (Instr.kwait c g x)) (CW.ofWord_slotBits _ _ _)
theorem copyPerform (x0 : Nat) (x1 : Engine) (x2 : Nat) : Statement (.copyPerform x0 x1 x2) := no_word rfl
theorem stqPushPerform (x0 : Nat) (x1 : Engine) (x2 : Nat) : Statement (.stqPushPerform x0 x1 x2) := no_word rfl
theorem mOperationPerform (x0 : Nat) : Statement (.mOperationPerform x0) := no_word rfl
theorem landingDataArrival (x0 : Nat) (x1 : Nat) : Statement (.landingDataArrival x0 x1) := no_word rfl
theorem storePerform (x0 : Nat) : Statement (.storePerform x0) := no_word rfl
theorem uncachedWriteAck (x0 : Nat) : Statement (.uncachedWriteAck x0) := no_word rfl
theorem retirementEntryFree (x0 : Nat) (x1 : Nat) : Statement (.retirementEntryFree x0 x1) := no_word rfl
theorem homeSliceAccess (x0 : Nat) (x1 : Nat) : Statement (.homeSliceAccess x0 x1) := no_word rfl
theorem invalidation (x0 : Nat) (x1 : Nat) : Statement (.invalidation x0 x1) := no_word rfl
theorem remoteWrite (x0 : Nat) (x1 : WriteSrc) : Statement (.remoteWrite x0 x1) := no_word rfl
theorem fetchFill (x0 : Nat) : Statement (.fetchFill x0) := no_word rfl
theorem eccCorr (x0 : Nat) (x1 : Nat) : Statement (.eccCorr x0 x1) := no_word rfl
theorem eccFreezeEnd (x0 : Nat) : Statement (.eccFreezeEnd x0) := no_word rfl
theorem onchipUe (x0 : Nat) (x1 : UePlace) : Statement (.onchipUe x0 x1) := no_word rfl
theorem systemUe (x0 : Nat) (x1 : BitVec 8) : Statement (.systemUe x0 x1) := no_word rfl
theorem dpcRelease (x0 : Nat) : Statement (.dpcRelease x0) := no_word rfl
theorem barPacket (x0 : Nat) : Statement (.barPacket x0) := no_word rfl
theorem barrierRelease (x0 : Nat) : Statement (.barrierRelease x0) := no_word rfl
theorem fatalContextError (x0 : Nat) : Statement (.fatalContextError x0) := no_word rfl
theorem contextKill (x0 : Nat) (x1 : BitVec 8) : Statement (.contextKill x0 x1) := no_word rfl
theorem supstart (x0 : Nat) (x1 : BitVec 64) : Statement (.supstart x0 x1) := no_word rfl
theorem accountLatch (x0 : Nat) : Statement (.accountLatch x0) := no_word rfl
theorem supervisorFlush (x0 : Nat) : Statement (.supervisorFlush x0) := no_word rfl
theorem captureStart (x0 : Nat) : Statement (.captureStart x0) := no_word rfl
theorem captureStop (x0 : Nat) : Statement (.captureStop x0) := no_word rfl
theorem shootdown (x0 : Nat) : Statement (.shootdown x0) := no_word rfl
theorem kick (x0 : Nat) (x1 : Nat) (x2 : BitVec 64) : Statement (.kick x0 x1 x2) := no_word rfl
theorem packetFetch (x0 : Nat) : Statement (.packetFetch x0) := no_word rfl
theorem launchComplete (x0 : Nat) : Statement (.launchComplete x0) := no_word rfl
theorem itemStart (x0 : Nat) : Statement (.itemStart x0) := no_word rfl
theorem resumeEntry (x0 : Nat) : Statement (.resumeEntry x0) := no_word rfl
theorem rebalance (x0 : Nat) : Statement (.rebalance x0) := no_word rfl
theorem ageing (x0 : Nat) : Statement (.ageing x0) := no_word rfl
theorem watchdogExpire (x0 : Nat) : Statement (.watchdogExpire x0) := no_word rfl
theorem partitionReset (x0 : Nat) : Statement (.partitionReset x0) := no_word rfl
theorem rangeReload (x0 : Nat) : Statement (.rangeReload x0) := no_word rfl
theorem bundlingComplete (x0 : Nat) (x1 : Nat) : Statement (.bundlingComplete x0 x1) := no_word rfl
theorem codeEvict (x0 : Nat) (x1 : Nat) : Statement (.codeEvict x0 x1) := no_word rfl
theorem objectClaim (x0 : Nat) : Statement (.objectClaim x0) := no_word rfl
theorem lineMoveRead (x0 : Nat) : Statement (.lineMoveRead x0) := no_word rfl
theorem lineMoveCopied (x0 : Nat) : Statement (.lineMoveCopied x0) := no_word rfl
theorem publish (x0 : Nat) : Statement (.publish x0) := no_word rfl
theorem hostAccess (x0 : Nat) (x1 : Nat) (x2 : Option (List Byte)) : Statement (.hostAccess x0 x1 x2) := no_word rfl
theorem pcsLock (x0 : Nat) : Statement (.pcsLock x0) := no_word rfl
theorem flit (x0 : Nat) (x1 : Flit) : Statement (.flit x0 x1) := no_word rfl
theorem portDown (x0 : Nat) : Statement (.portDown x0) := no_word rfl
theorem retrainAttempt (x0 : Nat) (x1 : Bool) : Statement (.retrainAttempt x0 x1) := no_word rfl
theorem peerUnreachable (x0 : Nat) : Statement (.peerUnreachable x0) := no_word rfl
theorem memberFenced (x0 : Nat) (x1 : Nat) : Statement (.memberFenced x0 x1) := no_word rfl
theorem routerBypass (x0 : Nat) (x1 : Nat) : Statement (.routerBypass x0 x1) := no_word rfl
theorem whorlTick (x0 : Nat) : Statement (.whorlTick x0) := no_word rfl
theorem drainmax (x0 : Nat) : Statement (.drainmax x0) := no_word rfl
theorem powerWindow (x0 : Nat) : Statement (.powerWindow x0) := no_word rfl
theorem registerWrite (x0 : PkgReg) (x1 : W64) : Statement (.registerWrite x0 x1) := no_word rfl
theorem mailboxRing (x0 : Nat) (x1 : BitVec 32) : Statement (.mailboxRing x0 x1) := no_word rfl
theorem voltageDroop (x0 : Nat) (x1 : Nat) : Statement (.voltageDroop x0 x1) := no_word rfl
theorem xlateReq : Statement (.xlateReq) := no_word rfl
theorem revokeAck : Statement (.revokeAck) := no_word rfl
theorem revokeTimeout : Statement (.revokeTimeout) := no_word rfl
theorem init : Statement (.init) := no_word rfl
theorem nak : Statement (.nak) := no_word rfl
theorem retrain : Statement (.retrain) := no_word rfl
theorem read : Statement (.read) := no_word rfl
theorem write : Statement (.write) := no_word rfl
theorem atomic : Statement (.atomic) := no_word rfl
theorem redcMessage : Statement (.redcMessage) := no_word rfl
theorem bcstMessage : Statement (.bcstMessage) := no_word rfl
theorem rdata : Statement (.rdata) := no_word rfl
theorem wack : Statement (.wack) := no_word rfl
theorem areply : Statement (.areply) := no_word rfl
theorem error : Statement (.error) := no_word rfl
theorem heartbeat : Statement (.heartbeat) := no_word rfl
theorem probeMessage : Statement (.probeMessage) := no_word rfl
theorem probeack : Statement (.probeack) := no_word rfl
theorem powerStepPin : Statement (.powerStepPin) := no_word rfl
theorem malformedBundle : Statement (.malformedBundle) := no_word rfl
theorem patchAckTimeout : Statement (.patchAckTimeout) := no_word rfl
theorem ctxalloc : Statement (.ctxalloc) := no_word rfl
theorem ctxfree : Statement (.ctxfree) := no_word rfl
theorem kill : Statement (.kill) := no_word rfl
theorem rangeset : Statement (.rangeset) := no_word rfl
theorem map : Statement (.map) := no_word rfl
theorem unmap : Statement (.unmap) := no_word rfl
theorem regq : Statement (.regq) := no_word rfl
theorem deregq : Statement (.deregq) := no_word rfl
theorem place : Statement (.place) := no_word rfl
theorem loadobj : Statement (.loadobj) := no_word rfl
theorem regobj : Statement (.regobj) := no_word rfl
theorem unregobj : Statement (.unregobj) := no_word rfl
theorem migout : Statement (.migout) := no_word rfl
theorem migin : Statement (.migin) := no_word rfl
theorem heapstart : Statement (.heapstart) := no_word rfl
theorem heapquery : Statement (.heapquery) := no_word rfl
theorem heapabort : Statement (.heapabort) := no_word rfl
theorem heappub : Statement (.heappub) := no_word rfl
theorem heapfree : Statement (.heapfree) := no_word rfl
theorem capture : Statement (.capture) := no_word rfl
theorem regionbp : Statement (.regionbp) := no_word rfl
theorem halt : Statement (.halt) := no_word rfl
theorem continueRun : Statement (.continueRun) := no_word rfl
theorem stepToEdge : Statement (.stepToEdge) := no_word rfl
theorem stepBundle : Statement (.stepBundle) := no_word rfl
theorem patchSet : Statement (.patchSet) := no_word rfl
theorem patchClear : Statement (.patchClear) := no_word rfl
theorem logread : Statement (.logread) := no_word rfl
theorem attest : Statement (.attest) := no_word rfl
theorem dbgchal : Statement (.dbgchal) := no_word rfl
theorem dbgattach : Statement (.dbgattach) := no_word rfl
theorem dbgdetach : Statement (.dbgdetach) := no_word rfl
theorem partset : Statement (.partset) := no_word rfl
theorem whorlset : Statement (.whorlset) := no_word rfl
theorem pinlevel : Statement (.pinlevel) := no_word rfl
theorem wearread : Statement (.wearread) := no_word rfl
theorem setid : Statement (.setid) := no_word rfl
theorem routeset : Statement (.routeset) := no_word rfl
theorem groupset : Statement (.groupset) := no_word rfl
theorem importEntry : Statement (.importEntry) := no_word rfl
theorem claim : Statement (.claim) := no_word rfl
theorem transfer : Statement (.transfer) := no_word rfl
theorem returnPkg : Statement (.returnPkg) := no_word rfl
theorem retire : Statement (.retire) := no_word rfl
theorem heartbeatInterval : Statement (.heartbeatInterval) := no_word rfl
theorem probeInterval : Statement (.probeInterval) := no_word rfl
theorem wearLogCommit : Statement (.wearLogCommit) := no_word rfl
theorem powerTick : Statement (.powerTick) := no_word rfl
theorem idleEntry : Statement (.idleEntry) := no_word rfl
theorem powerFail : Statement (.powerFail) := no_word rfl
theorem dumpComplete : Statement (.dumpComplete) := no_word rfl
theorem boot : Statement (.boot) := no_word rfl
theorem powerLost : Statement (.powerLost) := no_word rfl

end Sys2Proof.Laws.SlotWords

namespace Sys2Proof.Machine

/-- Every instruction but the release form of SKEINLD is what its slot word reads as. -/
theorem slot_decodes (i : Instr) : Found i := by
  cases i with
  | headerOnlyBundle x1 x2 x3 => exact Laws.SlotWords.headerOnlyBundle x1 x2 x3
  | add x1 x2 => exact Laws.SlotWords.add x1 x2
  | sub x1 x2 => exact Laws.SlotWords.sub x1 x2
  | mul x1 x2 => exact Laws.SlotWords.mul x1 x2
  | mulh x1 x2 => exact Laws.SlotWords.mulh x1 x2
  | mulhu x1 x2 => exact Laws.SlotWords.mulhu x1 x2
  | and x1 x2 => exact Laws.SlotWords.and x1 x2
  | or x1 x2 => exact Laws.SlotWords.or x1 x2
  | xor x1 x2 => exact Laws.SlotWords.xor x1 x2
  | shl x1 x2 => exact Laws.SlotWords.shl x1 x2
  | shr x1 x2 => exact Laws.SlotWords.shr x1 x2
  | sar x1 x2 => exact Laws.SlotWords.sar x1 x2
  | min x1 x2 => exact Laws.SlotWords.min x1 x2
  | max x1 x2 => exact Laws.SlotWords.max x1 x2
  | minu x1 x2 => exact Laws.SlotWords.minu x1 x2
  | maxu x1 x2 => exact Laws.SlotWords.maxu x1 x2
  | clz x1 x2 => exact Laws.SlotWords.clz x1 x2
  | popc x1 x2 => exact Laws.SlotWords.popc x1 x2
  | addi x1 x2 => exact Laws.SlotWords.addi x1 x2
  | andi x1 x2 => exact Laws.SlotWords.andi x1 x2
  | ori x1 x2 => exact Laws.SlotWords.ori x1 x2
  | xori x1 x2 => exact Laws.SlotWords.xori x1 x2
  | shli x1 x2 => exact Laws.SlotWords.shli x1 x2
  | shri x1 x2 => exact Laws.SlotWords.shri x1 x2
  | sari x1 x2 => exact Laws.SlotWords.sari x1 x2
  | li x1 x2 => exact Laws.SlotWords.li x1 x2
  | cmpeq x1 x2 => exact Laws.SlotWords.cmpeq x1 x2
  | cmpne x1 x2 => exact Laws.SlotWords.cmpne x1 x2
  | cmplt x1 x2 => exact Laws.SlotWords.cmplt x1 x2
  | cmple x1 x2 => exact Laws.SlotWords.cmple x1 x2
  | cmpltu x1 x2 => exact Laws.SlotWords.cmpltu x1 x2
  | cmpleu x1 x2 => exact Laws.SlotWords.cmpleu x1 x2
  | cmpeqi x1 x2 => exact Laws.SlotWords.cmpeqi x1 x2
  | cmplti x1 x2 => exact Laws.SlotWords.cmplti x1 x2
  | pand x1 x2 => exact Laws.SlotWords.pand x1 x2
  | por x1 x2 => exact Laws.SlotWords.por x1 x2
  | pxor x1 x2 => exact Laws.SlotWords.pxor x1 x2
  | pnot x1 x2 => exact Laws.SlotWords.pnot x1 x2
  | fadd x1 x2 => exact Laws.SlotWords.fadd x1 x2
  | fsub x1 x2 => exact Laws.SlotWords.fsub x1 x2
  | fmul x1 x2 => exact Laws.SlotWords.fmul x1 x2
  | ffma x1 x2 => exact Laws.SlotWords.ffma x1 x2
  | fdiv x1 x2 => exact Laws.SlotWords.fdiv x1 x2
  | fsqrt x1 x2 => exact Laws.SlotWords.fsqrt x1 x2
  | fmin x1 x2 => exact Laws.SlotWords.fmin x1 x2
  | fmax x1 x2 => exact Laws.SlotWords.fmax x1 x2
  | fcmpeq x1 x2 => exact Laws.SlotWords.fcmpeq x1 x2
  | fcmplt x1 x2 => exact Laws.SlotWords.fcmplt x1 x2
  | fcmple x1 x2 => exact Laws.SlotWords.fcmple x1 x2
  | fcvti x1 x2 => exact Laws.SlotWords.fcvti x1 x2
  | icvtf x1 x2 => exact Laws.SlotWords.icvtf x1 x2
  | br x1 x2 => exact Laws.SlotWords.br x1 x2
  | bri x1 x2 => exact Laws.SlotWords.bri x1 x2
  | call x1 x2 => exact Laws.SlotWords.call x1 x2
  | calli x1 x2 => exact Laws.SlotWords.calli x1 x2
  | ret x1 x2 => exact Laws.SlotWords.ret x1 x2
  | loop x1 x2 => exact Laws.SlotWords.loop x1 x2
  | hbase x1 x2 => exact Laws.SlotWords.hbase x1 x2
  | hset x1 x2 => exact Laws.SlotWords.hset x1 x2
  | hstep x1 x2 => exact Laws.SlotWords.hstep x1 x2
  | hget x1 x2 => exact Laws.SlotWords.hget x1 x2
  | hmov x1 x2 => exact Laws.SlotWords.hmov x1 x2
  | lds x1 x2 => exact Laws.SlotWords.lds x1 x2
  | sts x1 x2 => exact Laws.SlotWords.sts x1 x2
  | ldg x1 x2 => exact Laws.SlotWords.ldg x1 x2
  | stg x1 x2 => exact Laws.SlotWords.stg x1 x2
  | crr x1 x2 => exact Laws.SlotWords.crr x1 x2
  | crw x1 x2 => exact Laws.SlotWords.crw x1 x2
  | zins x1 x2 => exact Laws.SlotWords.zins x1 x2
  | zext x1 x2 => exact Laws.SlotWords.zext x1 x2
  | amoadd x1 x2 => exact Laws.SlotWords.amoadd x1 x2
  | amoand x1 x2 => exact Laws.SlotWords.amoand x1 x2
  | amoor x1 x2 => exact Laws.SlotWords.amoor x1 x2
  | amoxor x1 x2 => exact Laws.SlotWords.amoxor x1 x2
  | amomin x1 x2 => exact Laws.SlotWords.amomin x1 x2
  | amomax x1 x2 => exact Laws.SlotWords.amomax x1 x2
  | amoswap x1 x2 => exact Laws.SlotWords.amoswap x1 x2
  | amocas x1 x2 => exact Laws.SlotWords.amocas x1 x2
  | amofadd x1 x2 => exact Laws.SlotWords.amofadd x1 x2
  | bar x1 x2 => exact Laws.SlotWords.bar x1 x2
  | drain x1 x2 => exact Laws.SlotWords.drain x1 x2
  | settle x1 x2 => exact Laws.SlotWords.settle x1 x2
  | yield x1 x2 => exact Laws.SlotWords.yield x1 x2
  | tail x1 x2 => exact Laws.SlotWords.tail x1 x2
  | enter x1 x2 => exact Laws.SlotWords.enter x1 x2
  | leave x1 x2 => exact Laws.SlotWords.leave x1 x2
  | probe x1 x2 => exact Laws.SlotWords.probe x1 x2
  | trap x1 x2 => exact Laws.SlotWords.trap x1 x2
  | eret x1 x2 => exact Laws.SlotWords.eret x1 x2
  | ldref x1 x2 => exact Laws.SlotWords.ldref x1 x2
  | stref x1 x2 => exact Laws.SlotWords.stref x1 x2
  | ldfld x1 x2 => exact Laws.SlotWords.ldfld x1 x2
  | stfld x1 x2 => exact Laws.SlotWords.stfld x1 x2
  | pin x1 x2 => exact Laws.SlotWords.pin x1 x2
  | unpin x1 x2 => exact Laws.SlotWords.unpin x1 x2
  | refeq x1 x2 => exact Laws.SlotWords.refeq x1 x2
  | refmk x1 x2 => exact Laws.SlotWords.refmk x1 x2
  | slotmap x1 x2 => exact Laws.SlotWords.slotmap x1 x2
  | ttset x1 x2 => exact Laws.SlotWords.ttset x1 x2
  | skeinldLoad x1 x2 => exact Laws.SlotWords.skeinldLoad x1 x2
  | skeinldRelease x1 x2 => exact Laws.SlotWords.skeinldRelease x1 x2
  | scanrun x1 x2 => exact Laws.SlotWords.scanrun x1 x2
  | preempt x1 x2 => exact Laws.SlotWords.preempt x1 x2
  | ctxsave x1 x2 => exact Laws.SlotWords.ctxsave x1 x2
  | ctxload x1 x2 => exact Laws.SlotWords.ctxload x1 x2
  | qmap x1 x2 => exact Laws.SlotWords.qmap x1 x2
  | qsave x1 x2 => exact Laws.SlotWords.qsave x1 x2
  | qload x1 x2 => exact Laws.SlotWords.qload x1 x2
  | pstep x1 x2 => exact Laws.SlotWords.pstep x1 x2
  | inval x1 x2 => exact Laws.SlotWords.inval x1 x2
  | relocStart x1 x2 => exact Laws.SlotWords.relocStart x1 x2
  | relocQuery x1 x2 => exact Laws.SlotWords.relocQuery x1 x2
  | relocAbort x1 x2 => exact Laws.SlotWords.relocAbort x1 x2
  | fwdpub x1 x2 => exact Laws.SlotWords.fwdpub x1 x2
  | logrApp x1 x2 => exact Laws.SlotWords.logrApp x1 x2
  | logrRead x1 x2 => exact Laws.SlotWords.logrRead x1 x2
  | vld x1 x2 x3 => exact Laws.SlotWords.vld x1 x2 x3
  | vst x1 x2 x3 => exact Laws.SlotWords.vst x1 x2 x3
  | vmov x1 x2 x3 => exact Laws.SlotWords.vmov x1 x2 x3
  | vtag x1 x2 x3 => exact Laws.SlotWords.vtag x1 x2 x3
  | vperm x1 x2 x3 => exact Laws.SlotWords.vperm x1 x2 x3
  | vbcstScalar x1 x2 x3 => exact Laws.SlotWords.vbcstScalar x1 x2 x3
  | vbcstElement x1 x2 x3 => exact Laws.SlotWords.vbcstElement x1 x2 x3
  | vshuf x1 x2 x3 => exact Laws.SlotWords.vshuf x1 x2 x3
  | vsel x1 x2 x3 => exact Laws.SlotWords.vsel x1 x2 x3
  | vadd x1 x2 x3 => exact Laws.SlotWords.vadd x1 x2 x3
  | vsub x1 x2 x3 => exact Laws.SlotWords.vsub x1 x2 x3
  | vmul x1 x2 x3 => exact Laws.SlotWords.vmul x1 x2 x3
  | vfma x1 x2 x3 => exact Laws.SlotWords.vfma x1 x2 x3
  | vfms x1 x2 x3 => exact Laws.SlotWords.vfms x1 x2 x3
  | vmin x1 x2 x3 => exact Laws.SlotWords.vmin x1 x2 x3
  | vmax x1 x2 x3 => exact Laws.SlotWords.vmax x1 x2 x3
  | vabs x1 x2 x3 => exact Laws.SlotWords.vabs x1 x2 x3
  | vneg x1 x2 x3 => exact Laws.SlotWords.vneg x1 x2 x3
  | vcmp x1 x2 x3 => exact Laws.SlotWords.vcmp x1 x2 x3
  | viadd x1 x2 x3 => exact Laws.SlotWords.viadd x1 x2 x3
  | visub x1 x2 x3 => exact Laws.SlotWords.visub x1 x2 x3
  | vimul x1 x2 x3 => exact Laws.SlotWords.vimul x1 x2 x3
  | vimad x1 x2 x3 => exact Laws.SlotWords.vimad x1 x2 x3
  | vand x1 x2 x3 => exact Laws.SlotWords.vand x1 x2 x3
  | vor x1 x2 x3 => exact Laws.SlotWords.vor x1 x2 x3
  | vxor x1 x2 x3 => exact Laws.SlotWords.vxor x1 x2 x3
  | vimin x1 x2 x3 => exact Laws.SlotWords.vimin x1 x2 x3
  | vimax x1 x2 x3 => exact Laws.SlotWords.vimax x1 x2 x3
  | vshl x1 x2 x3 => exact Laws.SlotWords.vshl x1 x2 x3
  | vshr x1 x2 x3 => exact Laws.SlotWords.vshr x1 x2 x3
  | vsar x1 x2 x3 => exact Laws.SlotWords.vsar x1 x2 x3
  | vicmp x1 x2 x3 => exact Laws.SlotWords.vicmp x1 x2 x3
  | vcvt x1 x2 x3 => exact Laws.SlotWords.vcvt x1 x2 x3
  | vqzb x1 x2 x3 => exact Laws.SlotWords.vqzb x1 x2 x3
  | vmxi x1 x2 x3 => exact Laws.SlotWords.vmxi x1 x2 x3
  | vrsum x1 x2 x3 => exact Laws.SlotWords.vrsum x1 x2 x3
  | vrmax x1 x2 x3 => exact Laws.SlotWords.vrmax x1 x2 x3
  | vrmin x1 x2 x3 => exact Laws.SlotWords.vrmin x1 x2 x3
  | vexp2 x1 x2 x3 => exact Laws.SlotWords.vexp2 x1 x2 x3
  | vlog2 x1 x2 x3 => exact Laws.SlotWords.vlog2 x1 x2 x3
  | vrcp x1 x2 x3 => exact Laws.SlotWords.vrcp x1 x2 x3
  | vrsq x1 x2 x3 => exact Laws.SlotWords.vrsq x1 x2 x3
  | vsin x1 x2 x3 => exact Laws.SlotWords.vsin x1 x2 x3
  | vcos x1 x2 x3 => exact Laws.SlotWords.vcos x1 x2 x3
  | vscget x1 x2 x3 => exact Laws.SlotWords.vscget x1 x2 x3
  | vscset x1 x2 x3 => exact Laws.SlotWords.vscset x1 x2 x3
  | vscadd x1 x2 x3 => exact Laws.SlotWords.vscadd x1 x2 x3
  | vscmax x1 x2 x3 => exact Laws.SlotWords.vscmax x1 x2 x3
  | fx x1 x2 x3 x4 => exact Laws.SlotWords.fx x1 x2 x3 x4
  | mlb x1 x2 => exact Laws.SlotWords.mlb x1 x2
  | msel x1 x2 => exact Laws.SlotWords.msel x1 x2
  | mac x1 x2 => exact Laws.SlotWords.mac x1 x2
  | macn x1 x2 => exact Laws.SlotWords.macn x1 x2
  | macz x1 x2 => exact Laws.SlotWords.macz x1 x2
  | mrd x1 x2 => exact Laws.SlotWords.mrd x1 x2
  | mrdSteps x1 x2 => exact Laws.SlotWords.mrdSteps x1 x2
  | mdr x1 x2 => exact Laws.SlotWords.mdr x1 x2
  | mclr x1 x2 => exact Laws.SlotWords.mclr x1 x2
  | mmode x1 x2 => exact Laws.SlotWords.mmode x1 x2
  | cpy x1 x2 x3 => exact Laws.SlotWords.cpy x1 x2 x3
  | cpyr x1 x2 x3 => exact Laws.SlotWords.cpyr x1 x2 x3
  | cpyt x1 x2 x3 => exact Laws.SlotWords.cpyt x1 x2 x3
  | cpytr x1 x2 x3 => exact Laws.SlotWords.cpytr x1 x2 x3
  | gath x1 x2 x3 => exact Laws.SlotWords.gath x1 x2 x3
  | gathr x1 x2 x3 => exact Laws.SlotWords.gathr x1 x2 x3
  | scat x1 x2 x3 => exact Laws.SlotWords.scat x1 x2 x3
  | scatr x1 x2 x3 => exact Laws.SlotWords.scatr x1 x2 x3
  | cfill x1 x2 x3 => exact Laws.SlotWords.cfill x1 x2 x3
  | redc x1 x2 x3 => exact Laws.SlotWords.redc x1 x2 x3
  | bcst x1 x2 x3 => exact Laws.SlotWords.bcst x1 x2 x3
  | ldq x1 x2 x3 => exact Laws.SlotWords.ldq x1 x2 x3
  | stq x1 x2 x3 => exact Laws.SlotWords.stq x1 x2 x3
  | kwait x1 x2 x3 => exact Laws.SlotWords.kwait x1 x2 x3
  | copyPerform x1 x2 x3 => exact Laws.SlotWords.copyPerform x1 x2 x3
  | stqPushPerform x1 x2 x3 => exact Laws.SlotWords.stqPushPerform x1 x2 x3
  | mOperationPerform x1 => exact Laws.SlotWords.mOperationPerform x1
  | landingDataArrival x1 x2 => exact Laws.SlotWords.landingDataArrival x1 x2
  | storePerform x1 => exact Laws.SlotWords.storePerform x1
  | uncachedWriteAck x1 => exact Laws.SlotWords.uncachedWriteAck x1
  | retirementEntryFree x1 x2 => exact Laws.SlotWords.retirementEntryFree x1 x2
  | homeSliceAccess x1 x2 => exact Laws.SlotWords.homeSliceAccess x1 x2
  | invalidation x1 x2 => exact Laws.SlotWords.invalidation x1 x2
  | remoteWrite x1 x2 => exact Laws.SlotWords.remoteWrite x1 x2
  | fetchFill x1 => exact Laws.SlotWords.fetchFill x1
  | eccCorr x1 x2 => exact Laws.SlotWords.eccCorr x1 x2
  | eccFreezeEnd x1 => exact Laws.SlotWords.eccFreezeEnd x1
  | onchipUe x1 x2 => exact Laws.SlotWords.onchipUe x1 x2
  | systemUe x1 x2 => exact Laws.SlotWords.systemUe x1 x2
  | dpcRelease x1 => exact Laws.SlotWords.dpcRelease x1
  | barPacket x1 => exact Laws.SlotWords.barPacket x1
  | barrierRelease x1 => exact Laws.SlotWords.barrierRelease x1
  | fatalContextError x1 => exact Laws.SlotWords.fatalContextError x1
  | contextKill x1 x2 => exact Laws.SlotWords.contextKill x1 x2
  | supstart x1 x2 => exact Laws.SlotWords.supstart x1 x2
  | accountLatch x1 => exact Laws.SlotWords.accountLatch x1
  | supervisorFlush x1 => exact Laws.SlotWords.supervisorFlush x1
  | captureStart x1 => exact Laws.SlotWords.captureStart x1
  | captureStop x1 => exact Laws.SlotWords.captureStop x1
  | shootdown x1 => exact Laws.SlotWords.shootdown x1
  | kick x1 x2 x3 => exact Laws.SlotWords.kick x1 x2 x3
  | packetFetch x1 => exact Laws.SlotWords.packetFetch x1
  | launchComplete x1 => exact Laws.SlotWords.launchComplete x1
  | itemStart x1 => exact Laws.SlotWords.itemStart x1
  | resumeEntry x1 => exact Laws.SlotWords.resumeEntry x1
  | rebalance x1 => exact Laws.SlotWords.rebalance x1
  | ageing x1 => exact Laws.SlotWords.ageing x1
  | watchdogExpire x1 => exact Laws.SlotWords.watchdogExpire x1
  | partitionReset x1 => exact Laws.SlotWords.partitionReset x1
  | rangeReload x1 => exact Laws.SlotWords.rangeReload x1
  | bundlingComplete x1 x2 => exact Laws.SlotWords.bundlingComplete x1 x2
  | codeEvict x1 x2 => exact Laws.SlotWords.codeEvict x1 x2
  | objectClaim x1 => exact Laws.SlotWords.objectClaim x1
  | lineMoveRead x1 => exact Laws.SlotWords.lineMoveRead x1
  | lineMoveCopied x1 => exact Laws.SlotWords.lineMoveCopied x1
  | publish x1 => exact Laws.SlotWords.publish x1
  | hostAccess x1 x2 x3 => exact Laws.SlotWords.hostAccess x1 x2 x3
  | pcsLock x1 => exact Laws.SlotWords.pcsLock x1
  | flit x1 x2 => exact Laws.SlotWords.flit x1 x2
  | portDown x1 => exact Laws.SlotWords.portDown x1
  | retrainAttempt x1 x2 => exact Laws.SlotWords.retrainAttempt x1 x2
  | peerUnreachable x1 => exact Laws.SlotWords.peerUnreachable x1
  | memberFenced x1 x2 => exact Laws.SlotWords.memberFenced x1 x2
  | routerBypass x1 x2 => exact Laws.SlotWords.routerBypass x1 x2
  | whorlTick x1 => exact Laws.SlotWords.whorlTick x1
  | drainmax x1 => exact Laws.SlotWords.drainmax x1
  | powerWindow x1 => exact Laws.SlotWords.powerWindow x1
  | registerWrite x1 x2 => exact Laws.SlotWords.registerWrite x1 x2
  | mailboxRing x1 x2 => exact Laws.SlotWords.mailboxRing x1 x2
  | voltageDroop x1 x2 => exact Laws.SlotWords.voltageDroop x1 x2
  | xlateReq => exact Laws.SlotWords.xlateReq
  | revokeAck => exact Laws.SlotWords.revokeAck
  | revokeTimeout => exact Laws.SlotWords.revokeTimeout
  | init => exact Laws.SlotWords.init
  | nak => exact Laws.SlotWords.nak
  | retrain => exact Laws.SlotWords.retrain
  | read => exact Laws.SlotWords.read
  | write => exact Laws.SlotWords.write
  | atomic => exact Laws.SlotWords.atomic
  | redcMessage => exact Laws.SlotWords.redcMessage
  | bcstMessage => exact Laws.SlotWords.bcstMessage
  | rdata => exact Laws.SlotWords.rdata
  | wack => exact Laws.SlotWords.wack
  | areply => exact Laws.SlotWords.areply
  | error => exact Laws.SlotWords.error
  | heartbeat => exact Laws.SlotWords.heartbeat
  | probeMessage => exact Laws.SlotWords.probeMessage
  | probeack => exact Laws.SlotWords.probeack
  | powerStepPin => exact Laws.SlotWords.powerStepPin
  | malformedBundle => exact Laws.SlotWords.malformedBundle
  | patchAckTimeout => exact Laws.SlotWords.patchAckTimeout
  | ctxalloc => exact Laws.SlotWords.ctxalloc
  | ctxfree => exact Laws.SlotWords.ctxfree
  | kill => exact Laws.SlotWords.kill
  | rangeset => exact Laws.SlotWords.rangeset
  | map => exact Laws.SlotWords.map
  | unmap => exact Laws.SlotWords.unmap
  | regq => exact Laws.SlotWords.regq
  | deregq => exact Laws.SlotWords.deregq
  | place => exact Laws.SlotWords.place
  | loadobj => exact Laws.SlotWords.loadobj
  | regobj => exact Laws.SlotWords.regobj
  | unregobj => exact Laws.SlotWords.unregobj
  | migout => exact Laws.SlotWords.migout
  | migin => exact Laws.SlotWords.migin
  | heapstart => exact Laws.SlotWords.heapstart
  | heapquery => exact Laws.SlotWords.heapquery
  | heapabort => exact Laws.SlotWords.heapabort
  | heappub => exact Laws.SlotWords.heappub
  | heapfree => exact Laws.SlotWords.heapfree
  | capture => exact Laws.SlotWords.capture
  | regionbp => exact Laws.SlotWords.regionbp
  | halt => exact Laws.SlotWords.halt
  | continueRun => exact Laws.SlotWords.continueRun
  | stepToEdge => exact Laws.SlotWords.stepToEdge
  | stepBundle => exact Laws.SlotWords.stepBundle
  | patchSet => exact Laws.SlotWords.patchSet
  | patchClear => exact Laws.SlotWords.patchClear
  | logread => exact Laws.SlotWords.logread
  | attest => exact Laws.SlotWords.attest
  | dbgchal => exact Laws.SlotWords.dbgchal
  | dbgattach => exact Laws.SlotWords.dbgattach
  | dbgdetach => exact Laws.SlotWords.dbgdetach
  | partset => exact Laws.SlotWords.partset
  | whorlset => exact Laws.SlotWords.whorlset
  | pinlevel => exact Laws.SlotWords.pinlevel
  | wearread => exact Laws.SlotWords.wearread
  | setid => exact Laws.SlotWords.setid
  | routeset => exact Laws.SlotWords.routeset
  | groupset => exact Laws.SlotWords.groupset
  | importEntry => exact Laws.SlotWords.importEntry
  | claim => exact Laws.SlotWords.claim
  | transfer => exact Laws.SlotWords.transfer
  | returnPkg => exact Laws.SlotWords.returnPkg
  | retire => exact Laws.SlotWords.retire
  | heartbeatInterval => exact Laws.SlotWords.heartbeatInterval
  | probeInterval => exact Laws.SlotWords.probeInterval
  | wearLogCommit => exact Laws.SlotWords.wearLogCommit
  | powerTick => exact Laws.SlotWords.powerTick
  | idleEntry => exact Laws.SlotWords.idleEntry
  | powerFail => exact Laws.SlotWords.powerFail
  | dumpComplete => exact Laws.SlotWords.dumpComplete
  | boot => exact Laws.SlotWords.boot
  | powerLost => exact Laws.SlotWords.powerLost

end Sys2Proof.Machine
end

