-- ==== Sys2Proof/Laws/PowerEvents.lean ====
section
/-! SUPPORT. What the power and boot events change and leave alone. -/

namespace Sys2Proof.Machine

/-- Nothing changes but cores. -/
def CoresOnly (s t : State) : Prop := t = { s with cores := t.cores }

theorem CoresOnly.refl (s : State) : CoresOnly s s := rfl

theorem CoresOnly.trans {s t u : State} (h : CoresOnly s t) (k : CoresOnly t u) : CoresOnly s u := by
  unfold CoresOnly at *
  rw [k, h]

theorem CoresOnly.modCore (s : State) (k : Nat) (f : Core → Core) : CoresOnly s (s.modCore k f) := rfl

theorem CoresOnly.foldl {α : Type} (f : State → α → State) (h : ∀ s x, CoresOnly s (f s x)) : ∀ (l : List α) (s : State),
    CoresOnly s (l.foldl f s)
  | [], s => .refl s
  | x :: l, s => (h s x).trans (CoresOnly.foldl f h l (f s x))

theorem coresOnly_detachAll (s : State) : CoresOnly { s with sec := { s.sec with level := [], d3 := false } } s.detachAll := by
  unfold State.detachAll
  refine CoresOnly.trans (t := State.refreshDbg { s with sec := { s.sec with level := [], d3 := false } }) ?_ ?_
  · unfold State.refreshDbg
    refine CoresOnly.foldl _ (fun s k => ?_) _ _
    simp only
    (repeat' split) <;> first | exact .refl _ | exact .modCore ..
  · unfold State.releaseHalts
    refine CoresOnly.foldl _ (fun s k => ?_) _ _
    simp only
    split
    · exact .modCore ..
    · exact .refl _

theorem sec_detachAll (s : State) : (s.detachAll).sec.level = [] ∧ (s.detachAll).sec.d3 = false ∧ (s.detachAll).mem = s.mem ∧
    (s.detachAll).pwr = s.pwr := by
  have h := coresOnly_detachAll s
  unfold CoresOnly at h
  rw [h]
  exact ⟨rfl, rfl, rfl, rfl⟩

theorem powerTick_eq (s r : State) (h1 : s.booted = true) (h2 : s.pwr.phase = .on)
    (hr : (let est := s.choose 12
      let avg := est.2.choose 12
      let u := { avg.2 with time := (s.time / 10000 + 1) * 10000 }
      if s.pwr.force < est.1 then (match u.nextAct with | some a => u.shed a | none => u)
      else match s.pwr.actions with
        | a :: _ => if s.pwr.rising ∧ est.1 + Config.ratedIncrease a.stage ≤ s.pwr.force then u.unshed else u
        | [] => u) = r) :
    exec .powerTick s = .next ({ r with pwr := s.pwr }.setPower { r.pwr with draw := BitVec.ofNat 12 ((s.choose 12).2.choose 12).1 }) := by
  subst hr
  show execPowerTick s = _
  simp only [execPowerTick]
  rw [if_neg (by rw [h1, h2]; decide)]
  rfl

theorem powerOff_fields (s : State) : s.powerOff.pwr.phase = .off ∧ s.powerOff.mem = [] ∧ s.powerOff.sec.lifecycle = s.sec.lifecycle ∧
    s.powerOff.sec.flash = s.sec.flash ∧ s.powerOff.creel = s.recorded ∧ ∀ k, s.powerOff.core k = State.reset.core k :=
  ⟨rfl, rfl, rfl, rfl, rfl, fun _ => rfl⟩

theorem dumpComplete_off (s : State) (h1 : s.pwr.phase = .pfail) (h2 : s.sec.lifecycle ≠ .retired) :
    exec .dumpComplete s = .next (State.powerOff { s with
        free := s.free + 1
        sec := { s.sec with flash := some (s.dumpImage (Config.freeBits s.free (2 ^ 22) 96)) }
        creel := { s.creel with wear := s.wear } }) := by
  show execDumpComplete s = _
  simp only [execDumpComplete]
  rw [if_neg (by rw [h1]; exact fun h => h.elim (fun h => h rfl) h2)]
  rfl

theorem wear_recorded (s : State) : s.recorded.wear = s.creel.wear := by
  unfold State.recorded
  split <;> rfl

theorem pwr_wearAdd (s : State) (o w n : Nat) : (s.wearAdd o w n).pwr = s.pwr := rfl

theorem powerFail_phase (s : State) (h1 : s.booted = true) (h2 : s.pwr.phase ≠ .pfail) (h3 : s.pwr.phase ≠ .off) :
    ∃ t, exec .powerFail s = .next t ∧
      t.pwr.phase = .pfail ∧ t.pwr.failedAt = s.time ∧ t.pwr.failLevel = s.sec.highest ∧ t.mem = s.mem ∧
      t.sec.level = [] ∧ t.sec.d3 = false := by
  let u := State.wearAdd { s with pwr := { s.pwr with phase := .pfail, failedAt := s.time, failLevel := s.sec.highest }, whorls := [] } wearPackage 8 1
  have h := sec_detachAll u
  have hp : u.pwr = { s.pwr with phase := .pfail, failedAt := s.time, failLevel := s.sec.highest } := pwr_wearAdd ..
  refine ⟨u.detachAll, ?_, ?_, ?_, ?_, h.2.2.1, h.1, h.2.1⟩
  · show execPowerFail s = _
    simp only [execPowerFail]
    rw [if_neg (by simp [h1, h2, h3])]
    rfl
  all_goals rw [h.2.2.2, hp]

end Sys2Proof.Machine
end

