-- ==== Sys2Proof/Laws/Refs.lean ====
section
/-! SUPPORT. What the reference accesses, pins and unpins of chapter 13 do. -/

namespace Sys2Proof.Machine

theorem findRange_mem {r : SMap W256} {va : BitVec 57} {g : W256} : ∀ {n i : Nat}, findRange r va i n = some g → ∃ j, i ≤ j ∧ j < i + n ∧ SMap.get 0 r j = g ∧ rangeV g = true
  | 0, _, h => by simp [findRange] at h
  | n + 1, i, h => by
    simp only [findRange] at h
    split at h
    · next hh => cases h; exact ⟨i, Nat.le_refl _, by omega, rfl, hh.1⟩
    · obtain ⟨j, h1, h2, h3⟩ := findRange_mem h
      exact ⟨j, by omega, by omega, h3⟩

theorem refFatal_of {c : Core} {k va : W64} {need : Need} {n : Nat} {t : Target} (h : c.MapsTo va n need t) (hc : t.cls = .managed)
    (hh : t.heap = (refHeap k).extractLsb' 0 3) : refFatal c k va need n = none := by
  have ho := h.2.2.2
  simp only [Core.rangeOf] at ho
  split at ho
  · cases ho
  · next g hg =>
    split at ho
    · cases ho
      simp only [targetOf] at hc hh
      obtain ⟨j, _, hj, hgj, hv⟩ := findRange_mem hg
      have hof : (rangeV g && rangeClass g == .managed && g.extractLsb' 200 3 == (refHeap k).extractLsb' 0 3) = true := by
        rw [hv, hc, hh]; simp
      have hany : (List.range 8).any (fun i => rangeV (SMap.get 0 c.ranges i) && rangeClass (SMap.get 0 c.ranges i) == .managed && (SMap.get 0 c.ranges i).extractLsb' 200 3 == (refHeap k).extractLsb' 0 3) = true := by
        rw [List.any_eq_true]
        exact ⟨j, by simpa using hj, by rw [hgj]; exact hof⟩
      simp only [refFatal, hany, Bool.not_true, Bool.false_eq_true, if_false, rangeFatal_none h, hg, hof, if_true]
    · cases ho

theorem use_fresh {s u : State} {v : View} (hv : v.core = s.core s.cur) (hp : (s.core s.cur).Quiet) {w : SG} (hf : s.now.Fresh (s.now.kReg w.a)) (hb : v.addrs.b = 0) :
    u.refUse v w.a = ⟨s.now.kReg w.a, v.addrs.a, false, false⟩ := by
  have hk : v.k 1 w.a = s.now.kReg w.a := by rw [View.k_quiet (by rw [hv]; exact hp), hv]; rfl
  have hr := State.resolve_fresh u v.core.cr.asid (c := v.core) hf.2.1 (by rw [hv]; exact hf.2.2)
  have hst : v.core.stale (s.now.kReg w.a) = false := by
    simp only [Core.stale, hv]
    have := hf.2.2
    simp only [State.now] at this ⊢
    rw [this]; simp
  simp only [State.refUse, hk, hr, hst]
  rw [if_neg (by rw [hb]; decide), BitVec.sub_add_cancel]

theorem refTest_ok {op : BitVec 8} {w : SG} {n : Nat} {v : View} {s : State} (hv : v.core = s.core s.cur) (hp : (s.core s.cur).Quiet) (hf : s.now.Fresh (s.now.kReg w.a))
   (ho : 16 ≤ w.off.toInt) (h1 : v.addrs.a.toNat % n = 0) (h2 : v.addrs.a.toNat < 2 ^ 57) : refTest op w n v = none := by
  have hk : v.k 1 w.a = s.now.kReg w.a := by rw [View.k_quiet (by rw [hv]; exact hp), hv]; rfl
  simp only [refTest, hk, h1]
  have := hf.1; have h3 := hf.2.1
  rw [if_neg (by simp), if_neg]
  rintro (h | h | h | h)
  · omega
  · exact h3 h
  · omega
  · omega

/-- an access through a fresh reference -/
theorem refAccess_completes {op : BitVec 8} {g : Guard} {w : SG} {load : Bool} {n : Nat} {reads : List UePlace} {more : View → Option TrapReq}
    {act : Nat → View → RefUse → Target → Acc → Acc} {i : Instr} {wd : W64} {s : State} {t : Target} {e : Core} (h : s.Issues .s g none) (hsup : s.now.supervisor = false)
    (hw : i.slotWord = some (.s, wd)) (hc : i.check1 = none) (hr : s.now.RefersTo (s.now.kReg w.a) w.off n (if load then .r else .w) t)
    (hm : more (s.view (refAccess op g w load n reads more act)) = none) (he : e.hooks = s.now.hooks)
    (hact : ∀ (u : State) (a : Acc) (v : View), s.Charged u → v.core = s.core s.cur → v.addrs.a = (refAddr (s.now.kReg w.a)).zeroExtend 64 + w.off.signExtend 64 →
      (a.st.core s.cur).Agrees s.now → (a.st.core s.cur).cycle = (u.core s.cur).cycle → (∀ k, k ≠ s.cur → a.st.core k = u.core k) → a.st = { u with cores := a.st.cores } →
      a.seedSet = none → a.seed = s.now.cr.seed → a.next = none → a.tail = false → a.eret = false →
      (act s.cur v ⟨s.now.kReg w.a, v.addrs.a, false, false⟩ t a).Makes u s.cur e s.now.cr.seed none) :
    ∃ u, runSolo (refAccess op g w load n reads more act) i s = .next u ∧ s.Follows u { e.endBundle s.now.cr.seed with repLeft := none, pc := s.now.pc + 12 } := by
  generalize hmm : refAccess op g w load n reads more act = m at hm
  obtain ⟨hf, ho, hmt, hcl, hh⟩ := hr
  have hslot : m.slot = .s := by rw [← hmm]; rfl
  have hva : (s.view m).addrs.a = (refAddr (s.now.kReg w.a)).zeroExtend 64 + w.off.signExtend 64 := by
    rw [← hmm]; show (refAddr (View.k _ 1 w.a)).zeroExtend 64 + _ = _; rw [View.k_quiet (by exact h.quiet)]; rfl
  have hvb : (s.view m).addrs.b = 0 := by rw [← hmm]; rfl
  have hvc : (s.view m).core = s.core s.cur := rfl
  have h5 : m.check5 s s.cur (s.view m) = none := by
    have : m.check5 s s.cur (s.view m) = (refTest op w n (s.view m)).orElse fun _ => if load ∧ (s.view m).core.landingFull then some (trapS causeRange op 0) else more (s.view m) := by
      rw [← hmm]; rfl
    rw [this, refTest_ok hvc h.quiet hf ho (by rw [hva]; exact hmt.1) (by rw [hva]; exact hmt.2.1), hvc, landingFull_quiet h.quiet, hm]
    simp
  have hfat : m.fatal s s.cur (s.view m) = none := by
    have : m.fatal s s.cur (s.view m) = refFatal (s.view m).core (s.refUse (s.view m) w.a).k (s.refUse (s.view m) w.a).va (if load then .r else .w) n := by
      rw [← hmm]; rfl
    rw [this, use_fresh hvc h.quiet hf hvb, hva]
    exact refFatal_of hmt hcl hh
  have hp : m.Performs s := by
    refine State.Issues.performs ?_ (.inr ?_) ?_ ⟨?_, ?_, h5, hfat, ?_, ?_, ?_, ?_, ?_, ?_⟩ <;> rw [← hmm]
    · exact h
    · rfl
    · show (!(s.core s.cur).supervisor) = true; rw [show (s.core s.cur).supervisor = false from hsup]; rfl
    · rfl
    · rfl
    · simp [refAccess]
    · rfl
    · simp [refAccess]
    · simp [refAccess]
    · rfl
    · rfl
  have htg : ∀ v : View, v.core = s.core s.cur → v.addrs.a = (refAddr (s.now.kReg w.a)).zeroExtend 64 + w.off.signExtend 64 → v.core.target v.addrs.a (if load then .r else .w) = t := by
    intro v hv ha
    have := hmt.2.2.2
    simp only [Core.target, hv, ha, addrOf]
    simp only [State.now] at this ⊢
    rw [this]
  obtain ⟨t', e1, hfo⟩ := runSolo_makes (i := i) hp (by rw [hslot]; exact hw) hc he (sd := s.now.cr.seed) (nx := none) fun u hu => by
    have hbeg : m.begun s.cur (s.view m) u = u := by rw [← hmm]; rfl
    rw [hbeg]
    have hperf : ∀ v : View, v.core = s.core s.cur → v.addrs.b = 0 → v.addrs.a = (refAddr (s.now.kReg w.a)).zeroExtend 64 + w.off.signExtend 64 →
        m.perform s.cur v { st := u, seed := (s.core s.cur).cr.seed } =
        act s.cur v ⟨s.now.kReg w.a, v.addrs.a, false, false⟩ t { st := u.modCore s.cur fun c => c.holdVa v.slot v.addrs.a, seed := (s.core s.cur).cr.seed } := by
      intro v hv hb ha
      rw [← hmm]
      have hu := use_fresh (u := u) hv h.quiet hf hb
      simp only [refAccess, hu, htg v hv ha, Bool.false_eq_true, if_false]
      rfl
    rw [hperf _ hvc hvb hva]
    refine hact u _ _ hu hvc hva ?_ ?_ ?_ ?_ rfl rfl rfl rfl rfl
    · simp only [State.core_modCore]
      refine Core.Agrees.trans ?_ hu.core
      simp only [Core.holdVa]
      split <;> rfl
    · simp only [State.core_modCore, Core.holdVa]
      split <;> rfl
    · intro k hk; exact State.core_modCore_ne _ _ hk
    · rfl
  exact ⟨t', e1, hfo⟩

theorem makes_core {a : Acc} {u : State} {key : Nat} {c e : Core} {sd : W64} {f : Core → Core} (hf : Core.Plain f) (he : f c = e) (hy : ∀ c, (f c).cycle = c.cycle)
    (h1 : (a.st.core key).Agrees c) (h2 : (a.st.core key).cycle = (u.core key).cycle) (h3 : ∀ k, k ≠ key → a.st.core k = u.core k)
    (h4 : a.st = { u with cores := a.st.cores }) (h5 : a.seedSet = none) (h6 : a.seed = sd) (h7 : a.next = none) (h8 : a.tail = false) (h9 : a.eret = false) :
    (a.core key f).Makes u key e sd none := by
  refine ⟨?_, ?_, ?_, ?_, ?_, h7, h8, h9⟩
  · show ((a.st.modCore key f).core key).Agrees e
    rw [State.core_modCore, ← he]; exact hf.agrees h1
  · show ((a.st.modCore key f).core key).cycle = _
    rw [State.core_modCore, hy]; exact h2
  · intro k hk
    show (a.st.modCore key f).core k = _
    rw [State.core_modCore_ne _ _ hk]; exact h3 k hk
  · show a.st.modCore key f = { u with cores := (a.st.modCore key f).cores }
    simp only [State.modCore, State.setCore]
    rw [h4]
  · show (a.seedSet.getD a.seed) = sd
    rw [h5, h6]; rfl

theorem pin_target {s u : State} {k : W64} {t : Target} {pa : Nat} {n : BitVec 16} (hm : s.SameMaps u) (h : s.HeaderAt k t pa n) :
    ∃ st, u.pinTarget s.now k = (.header (refAddr k) ⟨t.ca.toNat, .mem pa, 8⟩ (BitVec.ofNat 64 (s.memNat pa 8)), { u with tlb := st }) := by
  obtain ⟨hf, hmt, hcl, hh, ⟨st, htr⟩, hpo, x, hx, h63, h62, hn⟩ := h
  have hro : s.now.rangeOf (refAddr k) .rw = .ok t := by
    have := hmt.2.2.2
    have e : (BitVec.zeroExtend 64 (refAddr k)).extractLsb' 0 57 = refAddr k := by
      apply BitVec.eq_of_toNat_eq; simp; have := (refAddr k).isLt; omega
    rw [e] at this; exact this
  have ht := hm.translate s.now.cr.asid t.ca .rw false
  rw [htr] at ht
  refine ⟨st.tlb, ?_⟩
  have hhome : u.headerHome s.now (refAddr k) = (.ok (⟨t.ca.toNat, .mem pa, 8⟩, x), { u with tlb := st.tlb }) := by
    simp only [State.headerHome, hro]
    rw [ht.1, ht.2]
    simp only [State.placeBytes]
    rw [hx]
    have : ({ u with tlb := st.tlb } : State).memBytes pa 8 = s.memBytes pa 8 := hm.memBytes pa 8
    rw [this]; rfl
  simp only [State.pinTarget, hhome, h62, h63, Bool.false_eq_true, if_false, Bool.not_false, if_true]
  rw [hx]

theorem pin_end {c : Core} (h : c.Still) (d a : BitVec 6) (x k : W64) (seed : W64) :
    ((((c.pendWrite 1 (.s d x)).pendWrite 1 (.k a k)).endBundle seed).s = (c.setS d x).s) ∧
    ((((c.pendWrite 1 (.s d x)).pendWrite 1 (.k a k)).endBundle seed).k = (c.setK a k).k) := by
  obtain ⟨hp, hl, hd, hf, hm, hr, _⟩ := h
  cases c with
  | mk bt pc cycle supervisor stopped rs rp rh rk rl kn cr timing region strands spad fe poison sticky pend drives flagOrs landings
      nextLanding mx mq copies nextCopy streamFault l1 refusals stream tracker ranges fmtBits latch repLeft =>
  simp only at hd hl hm hp hf hr
  subst hd hl hm hp hf hr
  by_cases h : d = 0
  · have : ∀ c : Core, c.setS d x = c := fun c => if_pos h
    simp only [Core.endBundle, Core.makeDue, Core.countDown, Core.landDue, Core.pendWrite, Core.landAll, Core.land, this, List.filter_cons, List.filter_nil, List.map_cons, List.map_nil, List.nil_append, List.cons_append, List.foldl_nil, Nat.sub_self, bne_self_eq_false, beq_self_eq_true, Bool.false_eq_true, if_false, if_true]
    exact ⟨rfl, rfl⟩
  · have : ∀ c : Core, c.setS d x = { c with s := SMap.set 0 c.s d.toNat x } := fun c => if_neg h
    simp only [Core.endBundle, Core.makeDue, Core.countDown, Core.landDue, Core.pendWrite, Core.landAll, Core.land, this, List.filter_cons, List.filter_nil, List.map_cons, List.map_nil, List.nil_append, List.cons_append, List.foldl_nil, Nat.sub_self, bne_self_eq_false, beq_self_eq_true, Bool.false_eq_true, if_false, if_true]
    exact ⟨rfl, rfl⟩

theorem unpin_end {c : Core} (h : c.Still) (a : BitVec 6) (k : W64) (seed : W64) :
    (((c.pendWrite 1 (.k a k)).endBundle seed).k = (c.setK a k).k) := by
  obtain ⟨hp, hl, hd, hf, hm, hr, _⟩ := h
  cases c with
  | mk bt pc cycle supervisor stopped rs rp rh rk rl kn cr timing region strands spad fe poison sticky pend drives flagOrs landings
      nextLanding mx mq copies nextCopy streamFault l1 refusals stream tracker ranges fmtBits latch repLeft =>
  simp only at hd hl hm hp hf hr
  subst hd hl hm hp hf hr
  rfl

theorem sendAll_eq (s : State) (wr : Option Nat) (ca n : Nat) : ∃ p, s.sendAll wr ca n = { s with pendInv := p } := by
  simp only [State.sendAll]
  generalize List.range ((ca + n - 1) / 128 - ca / 128 + 1) = l
  induction l generalizing s with
  | nil => exact ⟨_, rfl⟩
  | cons i l ih =>
    simp only [List.foldl_cons]
    obtain ⟨p, e⟩ := ih (s.sendInvalidations wr (ca / 128 + i))
    exact ⟨p, by rw [e]; rfl⟩

theorem pin_common {op : BitVec 8} {g : Guard} {w : SR} {refuse : BitVec 16 → Bool} {next : BitVec 16 → BitVec 16} {reply : W64 → BitVec 57 → Core → Core}
    {i : Instr} {wd : W64} {s : State} {t : Target} {pa : Nat} {n : BitVec 16} (h : s.Issues .s g none) (hsup : s.now.supervisor = false)
    (hun : s.Unaccounted) (hh : s.HeaderAt (s.now.kReg w.a) t pa n) (hw : i.slotWord = some (.s, wd)) (hc : i.check1 = none) (hpl : ∀ k o, Core.Plain (reply k o))
    (hk : ∀ k o c, (reply k o c).hooks = c.hooks) :
    (refuse n = false → ∃ u, runSolo (pinOp op g w refuse next reply) i s = .next u ∧
      (∀ a, u.memByte a = if pa ≤ a ∧ a < pa + 8 then (leBytes 8 (setPin (BitVec.ofNat 64 (s.memNat pa 8)) (next n)).toNat).getD (a - pa) 0 else s.memByte a) ∧
      (u.core s.cur).Agrees { (reply (s.now.kReg w.a) (refAddr (s.now.kReg w.a)) s.now).endBundle s.now.cr.seed with repLeft := none, pc := s.now.pc + 12 }) ∧
    (refuse n = true → runSolo (pinOp op g w refuse next reply) i s = .next (s.takeTrap s.cur (trapS causeRange op (refAddr (s.now.kReg w.a)).toNat) s.now.pc 1)) := by
  generalize hkk : s.now.kReg w.a = k at hh
  have hh0 := hh
  obtain ⟨hf, hmt, hcl, hhp, ⟨st, htr⟩, hpo, x, hx, h63, h62, hn⟩ := hh
  generalize hmm : pinOp op g w refuse next reply = m
  have hslot : m.slot = .s := by rw [← hmm]; rfl
  have hvc : (s.view m).core = s.now := rfl
  have hvk : (s.view m).k 1 w.a = k := by rw [View.k_quiet (by exact h.quiet), ← hkk]; rfl
  have huse : ∀ (u : State) (v : View), v.core = s.now → v.k 1 w.a = k → u.resolve v.core.cr.asid v.core (v.k 1 w.a) = (k, false) := by
    intro u v h1 h2
    rw [h2, h1]; exact State.resolve_fresh u _ hf.2.1 hf.2.2
  have hsame : s.SameMaps s := ⟨rfl, rfl, rfl, rfl, rfl, rfl⟩
  obtain ⟨tl0, hpt0⟩ := pin_target hsame hh0
  have h5 : m.check5 s s.cur (s.view m) = none := by
    have : m.check5 s s.cur (s.view m) = pinTest op w (s.view m) := by rw [← hmm]; rfl
    rw [this]; simp only [pinTest, hvk]
    have := hf.1; have h2 := hf.2.1
    rw [if_neg]; rintro (h | h)
    · omega
    · exact h2 h
  have hfat : m.fatal s s.cur (s.view m) = none := by
    have : m.fatal s s.cur (s.view m) = refFatal (s.view m).core (s.resolve (s.view m).core.cr.asid (s.view m).core ((s.view m).k 1 w.a)).1
        ((refAddr (s.resolve (s.view m).core.cr.asid (s.view m).core ((s.view m).k 1 w.a)).1).zeroExtend 64) .rw 8 := by rw [← hmm]; rfl
    rw [this, huse s _ hvc hvk]
    exact refFatal_of hmt hcl hhp
  have hwait : m.wait s s.cur (s.view m) = none := by
    have : m.wait s s.cur (s.view m) = match (s.pinTarget (s.view m).core (s.resolve (s.view m).core.cr.asid (s.view m).core ((s.view m).k 1 w.a)).1).1 with | .held => some acctRefbar | _ => none := by rw [← hmm]; rfl
    rw [this, huse s _ hvc hvk, hvc, hpt0]
  have hlate : m.late5 s s.cur (s.view m) = if refuse n then some (trapS causeRange op (refAddr k).toNat) else none := by
    have : m.late5 s s.cur (s.view m) = match (s.pinTarget (s.view m).core (s.resolve (s.view m).core.cr.asid (s.view m).core ((s.view m).k 1 w.a)).1).1 with
      | .header _ _ x => if refuse (pinCount x) then some (trapS causeRange op (refAddr (s.resolve (s.view m).core.cr.asid (s.view m).core ((s.view m).k 1 w.a)).1).toNat) else none
      | _ => none := by rw [← hmm]; rfl
    rw [this, huse s _ hvc hvk, hvc, hpt0]
    simp only
    rw [← hx, hn]
  have hissue : s.Issues m.slot m.guard m.timing := by rw [← hmm]; exact h
  have hrun : m.runsOn s.cur (s.core s.cur) = true := by rw [← hmm]; show (!(s.core s.cur).supervisor) = true; rw [show (s.core s.cur).supervisor = false from hsup]; rfl
  have hpriv : m.priv (s.core s.cur) = false := by rw [← hmm]; rfl
  have hc1 : m.check1 (s.core s.cur) = false := by rw [← hmm]; rfl
  have ha5 : m.always5 (s.view m) = none := by rw [← hmm]; rfl
  have hcon : m.consumes (s.view m) = [] := by rw [← hmm]; rfl
  have hmask : m.mask (s.view m) = [] := by rw [← hmm]; rfl
  have hprod : m.produces (s.view m) = none := by rw [← hmm]; rfl
  have hqu : m.queue (s.view m) = none := by rw [← hmm]; rfl
  have hgu := State.Issues.guarded hissue
  refine ⟨fun hr => ?_, fun hr => ?_⟩
  · have hp : m.Performs s := State.Issues.performs hissue (.inr hpriv) hrun
      ⟨hc1, ha5, h5, hfat, by rw [hcon]; simp, hmask, by rw [hprod]; simp, by rw [hqu]; simp, hwait, by rw [hlate, hr]; rfl⟩
    obtain ⟨u, hu, e⟩ := runSolo_performs hp (by rw [hslot]; exact hw) hc
    have hbeg : m.begun s.cur (s.view m) u = u := by simp only [OpSem.begun, hprod]
    rw [hbeg] at e
    have hcy := State.cycles_freezeCycle u s.cur acctRefbar
    have hsm : s.SameMaps u := hu.sameMaps hun
    have hsmx : s.SameMaps (u.freezeCycle s.cur acctRefbar) := hsm.trans (hcy.sameMaps (hsm.unaccounted hun))
    obtain ⟨tl, hpt⟩ := pin_target hsmx hh0
    have hperf : ∀ v : View, v.core = s.now → v.k 1 w.a = k → m.perform s.cur v { st := u, seed := s.now.cr.seed } =
       { st := (({ u.freezeCycle s.cur acctRefbar with tlb := tl } : State).homeWrite s.now.cr.asid none t.ca.toNat [⟨t.ca.toNat, .mem pa, 8⟩] (leBytes 8 (setPin x (next n)).toNat)).modCore s.cur (reply k (refAddr k)), seed := s.now.cr.seed } := by
      intro v h1 h2
      rw [← hmm]
      have hus : u.resolve s.now.cr.asid s.now k = (k, false) := State.resolve_fresh u _ hf.2.1 hf.2.2
      simp only [pinOp, h1, h2, hus, hpt, Bool.false_eq_true, if_false]
      have hpois : ({ u.freezeCycle s.cur acctRefbar with tlb := tl } : State).placePoison (.mem pa) = false := by
        simp only [State.placePoison, State.poisoned]
        have : (u.freezeCycle s.cur acctRefbar).memPoison = s.memPoison := (hcy.memory (hsm.unaccounted hun)).2.trans (hu.memory hun).2
        rw [this]; exact hpo
      simp only [hpois, Bool.false_eq_true, if_false, ← hx, hn]
      have hmk : mkRef (refColor k) (refHeap k) (refAddr k) = k := by
        simp only [mkRef, refColor, refHeap, refAddr]
        apply BitVec.eq_of_getLsbD_eq
        intro i hi
        simp only [BitVec.getLsbD_append, BitVec.getLsbD_extractLsb']
        by_cases h1 : i < 57
        · simp [h1]
        · by_cases h2 : i - 57 < 4
          · have : 57 + (i - 57) = i := by omega
            simp [h1, h2, this]
          · have : 61 + (i - 57 - 4) = i := by omega
            have h3 : i - 57 - 4 < 3 := by omega
            simp [h1, h2, h3, this]
      rw [hmk]
    refine ⟨_, e, ?_⟩
    have hfin : ∀ a : Acc, a.tail = false → a.eret = false → s.finish a = s.close a := by
      intro a h1 h2; simp only [State.finish, h1, h2, Bool.false_eq_true, if_false]
    have hpv := hperf _ hvc hvk
    have hpv' : m.perform s.cur (s.view m) { st := u, seed := (s.core s.cur).cr.seed } = _ := hpv
    rw [hpv', hfin _ rfl rfl]
    generalize hX : ({ u.freezeCycle s.cur acctRefbar with tlb := tl } : State) = X
    have hw1 : ∃ pv, X.homeWrite s.now.cr.asid none t.ca.toNat [⟨t.ca.toNat, .mem pa, 8⟩] (leBytes 8 (setPin x (next n)).toNat) =
        { X.memWrite pa (leBytes 8 (setPin x (next n)).toNat) with pendInv := pv } := by
      simp only [State.homeWrite, State.writePieces, State.writePiece]
      have hpz : X.poisoned pa = false := by
        rw [← hX]; simp only [State.poisoned]
        have : (u.freezeCycle s.cur acctRefbar).memPoison = s.memPoison := (hcy.memory (hsm.unaccounted hun)).2.trans (hu.memory hun).2
        rw [this]; exact hpo
      rw [if_neg (by rw [hpz]; simp)]
      have htk : (leBytes 8 (setPin x (next n)).toNat).take 8 = leBytes 8 (setPin x (next n)).toNat := List.take_of_length_le (by simp [length_leBytes])
      rw [htk]
      exact sendAll_eq ..
    obtain ⟨pv, hw2⟩ := hw1
    rw [hw2]
    have hXm : X.mem = s.mem := by rw [← hX]; exact hsmx.mem
    constructor
    · intro a
      have : (s.close { st := ({ X.memWrite pa (leBytes 8 (setPin x (next n)).toNat) with pendInv := pv } : State).modCore s.cur (reply k (refAddr k)), seed := s.now.cr.seed }).memByte a =
          (X.memWrite pa (leBytes 8 (setPin x (next n)).toNat)).memByte a := rfl
      rw [this, State.memByte_memWrite, length_leBytes, ← hx]
      have : X.memByte a = s.memByte a := by simp only [State.memByte, hXm]
      rw [this]
    · have hcore : (X.core s.cur).Agrees s.now := by
        rw [← hX]
        show ((u.freezeCycle s.cur acctRefbar).core s.cur).Agrees s.now
        refine Core.Agrees.trans ?_ hu.core
        rw [hcy.core]; rfl
      exact State.close_agrees h.quiet (a := { st := ({ X.memWrite pa (leBytes 8 (setPin x (next n)).toNat) with pendInv := pv } : State).modCore s.cur (reply k (refAddr k)), seed := s.now.cr.seed })
        (e := reply k (refAddr k) s.now) (by
          simp only [State.core_modCore]
          exact (hpl _ _).agrees hcore) (hk _ _ _)
  · have hck : ∀ wd, check5 s s.cur [s.soloIssuing m wd] = none := by
      intro wd; simp [check5, State.soloIssuing, ha5, h5]
    have hkn : ∀ wd, checkKnots (s.core s.cur) [] [s.soloIssuing m wd] = none := by
      intro wd; simp [checkKnots, knotTest, State.soloIssuing, hcon, hmask, hprod]
    have hwt : ∀ wd, waitOf s s.cur [s.soloIssuing m wd] = none := by
      intro wd; simp [waitOf, State.soloIssuing, hcon, hmask, hqu, hwait, topFreeze, freezeRank]
    exact runSolo_late hissue (by rw [hslot]; exact hw) hc hc1 (.inr hpriv) hrun (hck _) (hkn _) hfat hgu (hwt _) (by rw [hlate, hr]; rfl)

theorem kReg_setK (c : Core) (a : BitVec 6) (k : W64) : SMap.get 0 (c.setK a k).k a.toNat = k := by
  simp only [Core.setK, SMap.get_set]; simp

theorem sReg_setS (c : Core) (d : BitVec 6) (x : W64) : (if d = 0 then 0 else SMap.get 0 (c.setS d x).s d.toNat) = if d = 0 then 0 else x := by
  by_cases h : d = 0
  · simp [h]
  · simp only [Core.setS, if_neg h, SMap.get_set]; simp

end Sys2Proof.Machine
end

