-- ==== Sys2Proof/Laws/Repair.lean ====
section
/-! SUPPORT. The segment tables and the context images: the facts their loops rest on. -/

namespace Sys2Proof.Machine

theorem seg_foldl (die : Nat) (e : Nat → W64) : ∀ (l : List Nat) (u : State), (∀ i ∈ l, i < 2304) → ∀ (f : State → Nat → State),
    (∀ s i, f s i = s.setSegment die i (e i)) → ∃ sg, l.foldl f u = { u with segments := sg } ∧
      ∀ d i, i < 2304 → SMap.get 0 sg (2304 * d + i) = if d = die ∧ i ∈ l then e i else SMap.get 0 u.segments (2304 * d + i)
  | [], u, _, _, _ => ⟨u.segments, rfl, fun d i _ => by simp⟩
  | j :: l, u, hl, f, hf => by
    obtain ⟨sg, h1, h2⟩ := seg_foldl die e l (u.setSegment die j (e j)) (fun i hi => hl i (List.mem_cons_of_mem _ hi)) f hf
    refine ⟨sg, by rw [List.foldl_cons, hf, h1]; rfl, fun d i hi => ?_⟩
    rw [h2 d i hi]
    have hj := hl j (List.mem_cons_self ..)
    simp only [State.setSegment, SMap.get_set, List.mem_cons]
    by_cases h3 : d = die ∧ i ∈ l
    · rw [if_pos h3, if_pos ⟨h3.1, .inr h3.2⟩]
    · rw [if_neg h3]
      by_cases h4 : d = die ∧ i = j
      · obtain ⟨rfl, rfl⟩ := h4
        rw [if_pos rfl, if_pos ⟨rfl, .inl rfl⟩]
      · rw [if_neg (by omega), if_neg]
        rintro ⟨h5, h6 | h6⟩
        · exact h4 ⟨h5, h6⟩
        · exact h3 ⟨h5, h6⟩

theorem reach_lt {site i : Nat} (hi : i ∈ reach site) : i < 2304 := by
  simp only [reach, List.mem_flatMap, List.mem_filter, List.mem_map, List.mem_range, decide_eq_true_eq] at hi
  obtain ⟨r, ⟨_, hr⟩, g, hg, rfl⟩ := hi
  have := Nat.mod_lt site (show 0 < 12 by decide)
  omega

/-- Runs of bytes at rising offsets that do not meet. -/
def Rising : Nat → List (Nat × List Byte) → Prop
  | _, [] => True
  | lo, q :: l => lo ≤ q.1 ∧ Rising (q.1 + q.2.length) l

theorem Rising.mono : ∀ {l : List (Nat × List Byte)} {a b : Nat}, a ≤ b → Rising b l → Rising a l
  | [], _, _, _, _ => trivial
  | _ :: _, _, _, h, k => ⟨Nat.le_trans h k.1, k.2⟩

theorem Rising.bound : ∀ {l : List (Nat × List Byte)} {a : Nat}, Rising a l → ∀ q ∈ l, a ≤ q.1
  | [], _, _, q, hq => by cases hq
  | p :: l, a, h, q, hq => by
    rcases List.mem_cons.mp hq with rfl | hq
    · exact h.1
    · have := Rising.bound h.2 q hq; have := h.1; omega

theorem rising_place : ∀ (l : List (List Byte)) (off : Nat), Rising off (placeSections off l)
  | [], _ => trivial
  | b :: l, off => ⟨Nat.le_refl _, Rising.mono (show off + b.length ≤ (off + b.length + 127) / 128 * 128 by omega) (rising_place l _)⟩

theorem writeRuns_spec (base : Nat) : ∀ (l : List (Nat × List Byte)) (lo : Nat) (u : State), Rising lo l →
    (∃ m mp pi, u.writeRuns base l = { u with mem := m, memPoison := mp, pendInv := pi }) ∧
    (∀ off bs, (off, bs) ∈ l → ∀ i, i < bs.length → (u.writeRuns base l).memByte (base + off + i) = bs.getD i 0) ∧
    (∀ x, (∀ q ∈ l, x < base + q.1 ∨ base + q.1 + q.2.length ≤ x) → (u.writeRuns base l).memByte x = u.memByte x)
  | [], _, u, _ => ⟨⟨u.mem, u.memPoison, u.pendInv, rfl⟩, fun _ _ h => (List.not_mem_nil h).elim, fun _ _ => rfl⟩
  | q :: l, lo, u, h => by
    obtain ⟨p, ep⟩ := State.sendAll_eq (u.memWrite (base + q.1) q.2) none (base + q.1) q.2.length
    have e0 : u.writeRuns base (q :: l) = ({ u.memWrite (base + q.1) q.2 with pendInv := p } : State).writeRuns base l := by
      simp only [State.writeRuns, List.foldl_cons]; rw [ep]
    obtain ⟨⟨m, mp, pi, h1⟩, h2, h3⟩ := writeRuns_spec base l _ { u.memWrite (base + q.1) q.2 with pendInv := p } h.2
    rw [e0]
    have hb : ∀ x, ({ u.memWrite (base + q.1) q.2 with pendInv := p } : State).memByte x = if base + q.1 ≤ x ∧ x < base + q.1 + q.2.length then q.2.getD (x - (base + q.1)) 0 else u.memByte x :=
      fun x => State.memByte_memWrite u (base + q.1) x q.2
    refine ⟨⟨m, mp, pi, by rw [h1]; rfl⟩, fun off bs hm i hi => ?_, fun x hx => ?_⟩
    · rcases List.mem_cons.mp hm with rfl | hm
      · rw [h3, hb, if_pos (by simp only; omega)]
        · congr 1; simp only; omega
        · intro r hr
          have := Rising.bound h.2 r hr
          simp only at this ⊢; omega
      · exact h2 off bs hm i hi
    · rw [h3 x fun r hr => hx r (List.mem_cons_of_mem _ hr), hb, if_neg]
      have := hx q (List.mem_cons_self ..)
      omega

theorem imageEnd_le : ∀ (l : List (Nat × List Byte)) (a : Nat), a ≤ l.foldl (fun a q => max a (q.1 + q.2.length)) a ∧ ∀ q ∈ l, q.1 + q.2.length ≤ l.foldl (fun a q => max a (q.1 + q.2.length)) a
  | [], a => ⟨Nat.le_refl _, fun _ h => by cases h⟩
  | p :: l, a => by
    obtain ⟨h1, h2⟩ := imageEnd_le l (max a (p.1 + p.2.length))
    simp only [List.foldl_cons]
    refine ⟨by omega, fun q hq => ?_⟩
    rcases List.mem_cons.mp hq with rfl | hq
    · omega
    · exact h2 q hq

theorem length_secs : ∀ (l : List (Nat × List Byte)), (l.flatMap fun q => leBytes 4 q.1 ++ leBytes 4 q.2.length).length = 8 * l.length
  | [] => rfl
  | q :: l => by
    rw [List.flatMap_cons, List.length_append, length_secs l, List.length_append, length_leBytes, length_leBytes, List.length_cons]; omega

theorem length_place : ∀ (l : List (List Byte)) (off : Nat), (placeSections off l).length = l.length
  | [], _ => rfl
  | b :: l, off => by rw [placeSections, List.length_cons, length_place l, List.length_cons]

theorem length_header (s : State) (key : Nat) (b : Bool) (secs : List (Nat × List Byte)) : (s.imageHeader key b secs).length = 144 + 8 * secs.length := by
  unfold State.imageHeader
  generalize hx : (secs.flatMap fun q => leBytes 4 q.1 ++ leBytes 4 q.2.length) = x
  have := length_secs secs
  rw [hx] at this
  simp only [List.length_append, length_leBytes, this]
  omega

theorem image_eq (s : State) (key : Nat) : ∃ b secs, s.image key = (0, s.imageHeader key b (placeSections 256 secs)) :: placeSections 256 secs ∧ secs.length = 14 :=
  ⟨_, _, rfl, rfl⟩

theorem image_same {s u : State} (hu : s.Charged u) (hun : s.Unaccounted) : u.image s.cur = s.image s.cur := by
  have hsm := hu.sameMaps hun
  have hb : u.bases = s.bases := by rw [hu.rest]
  have hom : u.objMap = s.objMap := funext fun a => by simp only [State.objMap, hsm.memNat, hsm.ctxEntry]
  have hlg : u.logicalOf = s.logicalOf := funext fun k => by
    have : u.lcmapEntry = s.lcmapEntry := funext fun n => by simp only [State.lcmapEntry, hsm.memNat, hb]
    have h2 : u.coreOfLogical = s.coreOfLogical := funext fun n => by simp only [State.coreOfLogical, this]
    simp only [State.logicalOf, h2]
  obtain ⟨ac, y, x, p, k, e⟩ := Core.agrees_iff.mp hu.core
  simp only [State.image, State.imageHeader, hom, hlg, e]
  rfl

/-- The end of a bundle-time of a core that no write is due at keeps registers, the item, ranges and most control registers. -/
theorem endBundle_kept {c : Core} (hp : c.pend = []) (x : W64) : (c.endBundle x).s = c.s ∧ (c.endBundle x).ranges = c.ranges ∧
    (c.endBundle x).cr.asid = c.cr.asid ∧ (c.endBundle x).cr.sys = c.cr.sys ∧ (c.endBundle x).cr.erep = c.cr.erep := by
  simp only [Core.endBundle]
  obtain ⟨_, _, _, _, _, _, e⟩ := Core.kept_makeDue { c with cr := { c.cr with seed := x } }
  rw [e]
  rw [Core.landDue_nil (by simp only [Core.countDown, hp, List.map_nil])]
  exact ⟨rfl, rfl, rfl, rfl, rfl⟩

section

variable (u : State) (key base : Nat) (c : Core)

theorem img_asid : (u.imgCore key base c).cr.asid = BitVec.ofNat 16 (u.memNat (base + 8) 2) := by unfold State.imgCore; simp only

theorem img_sys : (u.imgCore key base c).cr.sys = c.cr.sys := by unfold State.imgCore; simp only

theorem img_item : (u.imgCore key base c).item.isSome = true := by unfold State.imgCore; simp only [Option.isSome_some]

theorem img_ranges : (u.imgCore key base c).ranges = u.ctxRanges (BitVec.ofNat 16 (u.memNat (base + 8) 2)) := by unfold State.imgCore; simp only

theorem img_erep : (u.imgCore key base c).cr.erep = BitVec.ofNat 8 (u.imgNat base 0 16 8) := by unfold State.imgCore; simp only

theorem img_hooks : (u.imgCore key base c).hooks = c.hooks := by unfold State.imgCore; simp only

theorem img_pend : (u.imgCore key base c).pend = (coreDefault key).pend := by unfold State.imgCore; simp only

theorem img_s1 : (u.imgCore key base c).s = tableOf 0 64 fun i =>
    if (if u.memNat (base + 0x0A) 2 % 2 = 1 then (BitVec.ofNat 64 (u.imgNat base 1 514 8) : W64) else 0).getLsbD i then
      BitVec.ofNat 64 (reboundWord (u.imgObjects base) (u.objMap (BitVec.ofNat 16 (u.memNat (base + 8) 2))) (BitVec.ofNat 64 (u.imgNat base 1 (8 * i) 8)))
    else BitVec.ofNat 64 (u.imgNat base 1 (8 * i) 8) := by unfold State.imgCore; simp only

theorem img_s (h0 : u.memNat (base + 0x0A) 2 % 2 = 0) : (u.imgCore key base c).s = tableOf 0 64 fun i => BitVec.ofNat 64 (u.imgNat base 1 (8 * i) 8) := by
  have h1 : ¬ u.memNat (base + 0x0A) 2 % 2 = 1 := by rw [h0]; decide
  rw [img_s1, if_neg h1]
  refine congrArg (tableOf (0 : W64) 64) (funext fun i => ?_)
  rw [show (0 : W64).getLsbD i = false from BitVec.getLsbD_zero, if_neg Bool.false_ne_true]

end

theorem ctxLoad_core (u : State) (key base : Nat) : ∃ f : Core → Core, u.ctxLoad key base = u.modCore key f ∧ ∀ c : Core,
    (f c).cr.asid = BitVec.ofNat 16 (u.memNat (base + 8) 2) ∧
    (f c).cr.sys = c.cr.sys ∧ (f c).item.isSome = true ∧ (f c).ranges = u.ctxRanges (BitVec.ofNat 16 (u.memNat (base + 8) 2)) ∧
    (f c).cr.erep = BitVec.ofNat 8 (u.imgNat base 0 16 8) ∧ (f c).hooks = c.hooks ∧
    (u.memNat (base + 0x0A) 2 % 2 = 0 → (f c).s = tableOf 0 64 fun i => BitVec.ofNat 64 (u.imgNat base 1 (8 * i) 8)) ∧
    (f c).pend = (coreDefault key).pend :=
  ⟨u.imgCore key base, rfl, fun c => ⟨img_asid .., img_sys .., img_item .., img_ranges .., img_erep .., img_hooks .., img_s u key base c, img_pend ..⟩⟩

theorem ctxsave_command (g : Guard) (w : SR) : semCtxsave g w = { command 0xA5 g (fun _ c => !c.supervisor && c.cr.cause == 0x10) [w.a] with check5 := (semCtxsave g w).check5, fatal := (semCtxsave g w).fatal, wait := (semCtxsave g w).wait, perform := (semCtxsave g w).perform } := by
  unfold semCtxsave
  simp only

theorem ctxload_command (g : Guard) (w : SR) : semCtxload g w = { command 0xA6 g onTile [w.a] with check5 := (semCtxload g w).check5, fatal := (semCtxload g w).fatal, wait := (semCtxload g w).wait, perform := (semCtxload g w).perform } := by
  unfold semCtxload
  simp only

end Sys2Proof.Machine
end

