-- ==== Sys2Proof/Laws/System.lean ====
section
/-! SUPPORT. What the supervisor's table commands change and leave alone. -/

namespace Sys2Proof.Machine

/-- Control registers, timing and kind of every core are alike. -/
structure SameTables (s t : State) : Prop where
  at' : ∀ k, (t.core k).cr = (s.core k).cr ∧ (t.core k).timing = (s.core k).timing ∧ (t.core k).supervisor = (s.core k).supervisor

theorem SameTables.refl (s : State) : SameTables s s := ⟨fun _ => ⟨rfl, rfl, rfl⟩⟩

theorem SameTables.trans {s t u : State} (h : SameTables s t) (k : SameTables t u) : SameTables s u := ⟨fun j =>
  ⟨(k.1 j).1.trans (h.1 j).1, (k.1 j).2.1.trans (h.1 j).2.1, (k.1 j).2.2.trans (h.1 j).2.2⟩⟩

theorem sameTables_modCore (s : State) (k : Nat) (f : Core → Core) (h : ∀ c, (f c).cr = c.cr ∧ (f c).timing = c.timing ∧ (f c).supervisor = c.supervisor) :
    SameTables s (s.modCore k f) := by
  refine ⟨fun j => ?_⟩
  by_cases e : j = k
  · subst e; rw [State.core_modCore]; exact h _
  · rw [State.core_modCore_ne _ _ e]; exact ⟨rfl, rfl, rfl⟩

theorem sameTables_foldl {α : Type} (f : State → α → State) (h : ∀ s x, SameTables s (f s x)) : ∀ (l : List α) (s : State), SameTables s (l.foldl f s)
  | [], s => .refl s
  | x :: l, s => (h s x).trans (sameTables_foldl f h l (f s x))

theorem sameTables_writePieces (asid : BitVec 16) : ∀ (l : List Piece) (b : List Byte) (s : State), SameTables s (s.writePieces asid l b)
  | [], _, s => .refl s
  | p :: l, b, s => by
    refine SameTables.trans ?_ (sameTables_writePieces asid l (b.drop p.len) _)
    unfold State.writePiece
    split
    · split
      · exact ⟨fun _ => ⟨rfl, rfl, rfl⟩⟩
      · exact ⟨fun _ => ⟨rfl, rfl, rfl⟩⟩
    · exact ⟨fun _ => ⟨rfl, rfl, rfl⟩⟩
    · refine sameTables_modCore _ _ _ fun c => ?_
      obtain ⟨_, _, _, _, _, _, _, _, e⟩ := Core.kept_land c (.spad ‹_› (b.take p.len) true)
      have e' : c.spadWrite _ (b.take p.len) true = _ := e
      rw [e']
      exact ⟨rfl, rfl, rfl⟩
    · exact ⟨fun _ => ⟨rfl, rfl, rfl⟩⟩

theorem sameTables_homeWrite (s : State) (asid : BitVec 16) (wr : Option Nat) (ca : Nat) (ps : List Piece) (b : List Byte) :
    SameTables s (s.homeWrite asid wr ca ps b) := by
  refine (sameTables_writePieces asid ps b s).trans ?_
  unfold State.homeWrite
  obtain ⟨p, e⟩ := sendAll_eq (s.writePieces asid ps b) wr ca b.length
  rw [e]; exact ⟨fun _ => ⟨rfl, rfl, rfl⟩⟩

theorem sameTables_shootDown (s : State) (mb : Option Nat) (asid : BitVec 16) (va line : Nat) (cores : List Nat) :
    SameTables s (s.shootDown mb asid va line cores) := by
  exact SameTables.trans (sameTables_foldl (fun s k => s.modCore k fun c => { c with hooks := { c.hooks with shootdowns := c.hooks.shootdowns ++ [line] } }) (fun s k => sameTables_modCore s k _ fun c => ⟨rfl, rfl, rfl⟩) cores s) ⟨fun _ => ⟨rfl, rfl, rfl⟩⟩

theorem sameTables_setStub (s : State) (asid : BitVec 16) (f : CodeFn) (b : Bool) : SameTables s (s.setStub asid f b) := by
  unfold State.setStub
  split
  · exact (sameTables_homeWrite ..).trans (sameTables_shootDown ..)
  · exact ⟨fun _ => ⟨rfl, rfl, rfl⟩⟩

theorem sameTables_afterProfile (s old : State) : SameTables s (s.afterProfile old) := by
  unfold State.afterProfile
  simp only
  split
  · exact ⟨fun _ => ⟨rfl, rfl, rfl⟩⟩
  · refine sameTables_foldl _ (fun s n => ?_) _ _
    split
    · split
      · exact SameTables.trans (t := s.setFn n { ‹CodeFn› with state := .stale }) ⟨fun _ => ⟨rfl, rfl, rfl⟩⟩ (sameTables_setStub ..)
      · exact ⟨fun _ => ⟨rfl, rfl, rfl⟩⟩
    · exact ⟨fun _ => ⟨rfl, rfl, rfl⟩⟩

/-- A command of a supervisor that changes the core at a site. -/
theorem command_two {s : State} {m : OpSem} {i : Instr} {wd : W64} (hp : m.Performs s) (hw : i.slotWord = some (m.slot, wd)) (hc : i.check1 = none)
    {k : Nat} (hk : k ≠ s.cur) {f : Core → Core} (he : exec i s = runSolo m i s)
    (ha : ∀ u, m.perform s.cur (s.view m) { st := m.begun s.cur (s.view m) u, seed := (s.core s.cur).cr.seed } =
      let a : Acc := { st := u, seed := (s.core s.cur).cr.seed }
      let b := a.core k f
      if u.fns = [] then b else { b with st := b.st.afterProfile u }) :
    (∃ t, exec i s = .next t ∧ (t.core k).cr = (f (s.core k)).cr ∧ (t.core k).timing = (f (s.core k)).timing ∧ (t.core k).supervisor = (f (s.core k)).supervisor) ∧
    (s.fns = [] → CompletesAt i s s.now.after k f) := by
  obtain ⟨u, hu, e⟩ := runSolo_performs hp hw hc
  rw [ha] at e
  simp only at e
  rw [he]
  constructor
  · refine ⟨_, e, ?_⟩
    have h1 : ∀ a : Acc, a.tail = false → a.eret = false → (s.finish a).core k = a.st.core k := by
      intro a h1 h2
      simp only [State.finish, h1, h2, Bool.false_eq_true, if_false]
      exact State.core_close_ne _ _ hk
    have h2 : (u.modCore k f).core k = f (s.core k) := by rw [State.core_modCore, hu.others k hk]
    split
    · rw [h1 _ rfl rfl]
      exact h2 ▸ ⟨rfl, rfl, rfl⟩
    · rw [h1 _ rfl rfl]
      have h3 := (sameTables_afterProfile (u.modCore k f) u).1 k
      rw [h2] at h3
      exact h3
  · intro hn
    have : u.fns = [] := by rw [hu.rest]; exact hn
    rw [if_pos this] at e
    have e1 : s.finish (({ st := u, seed := (s.core s.cur).cr.seed } : Acc).core k f) = s.close { st := u.modCore k f, seed := (s.core s.cur).cr.seed } := rfl
    rw [e1] at e
    unfold CompletesAt; rw [he]
    refine ⟨_, e, State.close_after hp.quiet ?_ rfl rfl, ?_, fun j h1 h2 => ?_, ?_, fun hm => ?_⟩
    · show ((u.modCore k f).core s.cur).Agrees _
      rw [State.core_modCore_ne _ _ (Ne.symm hk)]; exact hu.core
    · rw [State.core_close_ne _ _ hk]; show (u.modCore k f).core k = _; rw [State.core_modCore, hu.others k hk]
    · rw [State.core_close_ne _ _ h1]; show (u.modCore k f).core j = _; rw [State.core_modCore_ne _ _ h2, hu.others j h1]
    · rw [State.rest_close]; simp only [State.modCore, State.setCore]; rw [hu.rest]
    · exact (hu.memory hm).1

theorem find_first {l : List Nat} {p : Nat → Bool} {n : Nat} (hs : l.Pairwise (· < ·)) (hn : n ∈ l) (hp : p n = true) (hm : ∀ m ∈ l, m < n → p m = false) :
    l.find? p = some n := by
  induction l with
  | nil => cases hn
  | cons x l ih =>
    rw [List.pairwise_cons] at hs
    rcases List.mem_cons.mp hn with rfl | hn'
    · simp [hp]
    · have : p x = false := hm x (List.mem_cons_self ..) (hs.1 n hn')
      rw [List.find?_cons, this]
      exact ih hs.2 hn' fun m h => hm m (List.mem_cons_of_mem _ h)

theorem reloc_common {s : State} {g : Guard} {w : SR} {die : Nat} {f : State → Nat → Nat → Nat × State} {i : Instr} {wd : W64} (h : s.Issues .s g none)
    (hsv : s.Supervises die) (hw : i.slotWord = some (.s, wd)) (hc : i.check1 = none) (hfn : w.fn.extractLsb' 0 2 ≠ 3) (ha : (s.now.sReg w.a).toNat < 2 ^ 52)
    (hal : (s.now.sReg w.a).toNat % 128 = 0) (hcr : ∀ u, s.Charged u → (f u die (s.now.sReg w.a).toNat).2.cores = u.cores) :
    ∃ u t, s.Charged u ∧ runSolo (relocOp g w f) i s = .next t ∧ t.mem = (f u die (s.now.sReg w.a).toNat).2.mem ∧
      t.relocs = (f u die (s.now.sReg w.a).toNat).2.relocs ∧
      (t.core s.cur).Agrees (s.now.later 1 (.s w.d (((f u die (s.now.sReg w.a).toNat).2.reloc die).status (f u die (s.now.sReg w.a).toNat).1))) ∧
      ∀ k, k ≠ s.cur → t.core k = s.core k := by
  obtain ⟨hcur, hd, hsup, hsys⟩ := hsv
  have hq := h.quiet
  have hp : (relocOp g w f).Performs s := command_performs h rfl hsys hsup (by
    show relocTest w _ = none
    simp only [relocTest, State.view_s hq, decide_eq_true ha, hal]
    rw [show (w.fn.extractLsb' 0 2 != 3) = true from by simpa using hfn]; rfl) rfl rfl
  obtain ⟨u, hu, e⟩ := runSolo_performs (i := i) hp hw hc
  rw [command_begun (op := 0xAC) (g := g) (runs := onSupervisor) (rd := [w.a]) rfl] at e
  have hkey : s.cur - 576 = die := by omega
  have hk : ∀ v : View, v.s 1 w.a = s.now.sReg w.a → ∀ a : Acc, (relocOp g w f).perform s.cur v a =
      { a with st := (f a.st die (s.now.sReg w.a).toNat).2 }.core s.cur fun c => c.pendWrite 1 (.s w.d (((f a.st die (s.now.sReg w.a).toNat).2.reloc die).status (f a.st die (s.now.sReg w.a).toNat).1)) := by
    intro v h1 a; simp only [relocOp, h1, hkey]
  rw [hk _ (State.view_s hq ..)] at e
  have hcr := hcr u hu
  refine ⟨u, ?_⟩
  generalize (f u die (s.now.sReg w.a).toNat).1 = code at e ⊢
  generalize (f u die (s.now.sReg w.a).toNat).2 = x at e hcr ⊢
  have e1 : s.finish (({ st := x, seed := (s.core s.cur).cr.seed } : Acc).core s.cur fun c => c.pendWrite 1 (.s w.d ((x.reloc die).status code))) =
    s.close { st := x.modCore s.cur fun c => c.pendWrite 1 (.s w.d ((x.reloc die).status code)), seed := s.now.cr.seed } := rfl
  have e2 : runSolo (relocOp g w f) i s = .next (s.close { st := x.modCore s.cur fun c => c.pendWrite 1 (.s w.d ((x.reloc die).status code)), seed := s.now.cr.seed }) := by
    rw [← e1]; exact e
  clear e e1 hk
  generalize (x.reloc die).status code = y at e2 ⊢
  obtain ⟨r1, r2⟩ := State.close_write (n := 1) (x := .s w.d y) (a := { st := x.modCore s.cur fun c => c.pendWrite 1 (.s w.d y), seed := s.now.cr.seed }) hq hu
      (fun k => State.core_pendWrite u x s.cur 1 (.s w.d y) hcr k) rfl rfl
  exact ⟨_, hu, e2, rfl, rfl, r1, r2⟩

theorem sameHomes {s u : State} (h : s.SameMaps u) : ∀ ca, u.homeDie ca = s.homeDie ca := fun ca => by simp only [State.homeDie, h.homeEntry]

theorem sameRun {s u : State} (h : s.SameMaps u) : ∀ a n, u.systemRun a n = s.systemRun a n := fun a n => by simp only [State.systemRun, h.homeMap]

theorem sameEvac {s u : State} (h : s.SameMaps u) (die a : Nat) : u.evacuationOk die a = s.evacuationOk die a := by
  have e1 : u.ctxRanges = s.ctxRanges := funext fun a => by
    have : u.ctxRange a = s.ctxRange a := funext fun i => by simp only [State.ctxRange, h.memNat, h.ctxEntry]
    simp only [State.ctxRanges, this]
  have e2 : ∀ asid heap d va, u.managedAt asid heap d va = s.managedAt asid heap d va := fun asid heap d va => by
    simp only [State.managedAt, e1, h.homeEntry, sameHomes h]
  simp only [State.evacuationOk, h.memNat, sameRun h, State.setEntry, e2, State.ctxState, h.ctxEntry]

def recolour (heap : Nat) (c : BitVec 3) (s : State) (k : Nat) : State := s.modCore k fun d => { d with recolors := d.recolors ++ [(heap, c)] }

theorem coresOf_spec (heap : Nat) (c : BitVec 3) (k : Nat) : ∀ (l : List Nat) (u : State),
    (l.foldl (recolour heap c) u).core k = { u.core k with recolors := ((l.foldl (recolour heap c) u).core k).recolors } ∧
      ((heap, c) ∈ (u.core k).recolors → (heap, c) ∈ ((l.foldl (recolour heap c) u).core k).recolors) ∧
      (k ∈ l → (heap, c) ∈ ((l.foldl (recolour heap c) u).core k).recolors) ∧
      (k ∉ l → (l.foldl (recolour heap c) u).core k = u.core k) ∧
      (l.foldl (recolour heap c) u) = { u with cores := (l.foldl (recolour heap c) u).cores }
  | [], u => by simp
  | j :: l, u => by
    obtain ⟨h2, h3, h4, h5, h6⟩ := coresOf_spec heap c k l (recolour heap c u j)
    simp only [List.foldl_cons]
    refine ⟨?_, fun h => h3 ?_, fun h => ?_, fun h => ?_, h6⟩
    · rw [h2]
      by_cases e : k = j
      · subst e; rw [recolour, State.core_modCore]
      · rw [recolour, State.core_modCore_ne _ _ e]
    · by_cases e : k = j
      · subst e; rw [recolour, State.core_modCore]; exact List.mem_append_left _ h
      · rw [recolour, State.core_modCore_ne _ _ e]; exact h
    · rcases List.mem_cons.mp h with rfl | h
      · refine h3 ?_; rw [recolour, State.core_modCore]; simp
      · exact h4 h
    · have hne : k ≠ j := fun e => h (by rw [e]; exact List.mem_cons_self ..)
      rw [h5 fun h' => h (List.mem_cons_of_mem _ h'), recolour, State.core_modCore_ne _ _ hne]

theorem quietAwait_agrees {s u : State} (hq : (s.core s.cur).Quiet) (hu : s.Charged u) {x : State} {f : Core → Core} (hx : x.core s.cur = f (u.core s.cur))
    (hf : Core.Plain f) (hh : (f s.now).hooks = s.now.hooks) (hst : (f s.now).Still) (hsd : (f s.now).cr.seed = s.now.cr.seed) :
    ((s.close { st := x, seed := s.now.cr.seed }).core s.cur).Agrees { (f s.now).after with pc := s.now.pc + 12 } := by
  have hcl := State.close_agrees hq (a := { st := x, seed := s.now.cr.seed }) (e := f s.now) (by rw [hx]; exact hf.agrees hu.core) hh
  have := Core.agrees_after hst s.now.cr.seed (s.now.pc + 12)
  refine hcl.trans (this.trans ?_)
  rw [← hsd, Core.withSeed_self]
  exact Core.Agrees.refl _

end Sys2Proof.Machine
end

