-- ==== Sys2Proof/Tests/Slice0.lean ====
section
/-! SUPPORT. Tests: ill-formed terms refused by name, words written out from the encoding tables, the spec's worked examples, and for
every statement a state and operands that meet its hypotheses. -/

namespace Sys2Proof.Tests

open Sys2Proof.Machine

-- One proof at a time: a kernel evaluation waits for every earlier declaration, and each that waits holds a thread.
set_option Elab.async false

/-! ### Check 1 refuses a term for each of its reasons (02 R65, R77) -/

theorem test_wf_reserved : (Instr.add ⟨0, 0⟩ ⟨1, 3, 1, 2, 0, 1, 0⟩).check1 = some .reservedField := by decide
theorem test_wf_register_file : (Instr.cmpeq ⟨0, 0⟩ ⟨1, 16, 1, 2, 0, 0, 0⟩).check1 = some .registerBeyondFile := by decide
theorem test_wf_loop_file : (Instr.loop ⟨0, 0⟩ ⟨1, 4, 2, 15⟩).check1 = some .registerBeyondFile := by decide
theorem test_wf_land_zero : (Instr.ldg ⟨0, 0⟩ ⟨0, 3, 1, 3, 0, 0, 0⟩).check1 = some .landZero := by decide
theorem test_wf_invalid_code : (Instr.lds ⟨0, 0⟩ ⟨3, 3, 1, 3, 0, 3, 0, 0⟩).check1 = some .invalidCode := by decide
theorem test_wf_register_index : (Instr.crw ⟨0, 0⟩ ⟨0, 0, 1, 4⟩).check1 = some .badRegisterIndex := by decide
theorem test_wf_step_with_handle : (Instr.cpyt .c0 ⟨0, 0⟩ ⟨0, 0, 0, 0, 0, 1, 2, 0, 1⟩).check1 = some .stepWithHandle := by decide
theorem test_wf_loopend : (Instr.headerOnlyBundle 5 0 0).check1 = some .invalidCode := by decide
theorem test_wf_accepts : (Instr.add ⟨0, 0⟩ ⟨1, 3, 1, 2, 0, 0, 0⟩).WellFormed := by decide

/-! ### Words written out bit by bit from 02 R53, R54, R63 to R68 -/

/-- OPCODE, PN, PRED and the fields of SR: LAT, D, A, B, C, FN, reserved. -/
theorem test_decode_sr : (decodeSlot .s (0x01#8 ++ 0#1 ++ 0#4 ++ 1#4 ++ 3#6 ++ 1#6 ++ 2#6 ++ 0#6 ++ 0#7 ++ 0#16)).toOption =
    some (.add ⟨0, 0⟩ ⟨1, 3, 1, 2, 0, 0, 0⟩) := by decide +kernel
theorem test_decode_si : (decodeSlot .s (0x10#8 ++ 0#1 ++ 0#4 ++ 1#4 ++ 3#6 ++ 1#6 ++ 0x7FFFFFFFF#35)).toOption =
    some (.addi ⟨0, 0⟩ ⟨1, 3, 1, 0x7FFFFFFFF⟩) := by decide +kernel
theorem test_decode_sb : (decodeSlot .s (0x42#8 ++ 1#1 ++ 5#4 ++ 1#4 ++ 9#6 ++ 0#6 ++ 0x7FFFFFFFE#35)).toOption =
    some (.call ⟨1, 5⟩ ⟨1, 9, 0, 0x7FFFFFFFE⟩) := by decide +kernel
theorem test_decode_sm : (decodeSlot .s (0x61#8 ++ 0#1 ++ 0#4 ++ 3#4 ++ 3#6 ++ 1#6 ++ 2#2 ++ 0#1 ++ 1#2 ++ 16#18 ++ 4#12)).toOption =
    some (.sts ⟨0, 0⟩ ⟨3, 3, 1, 2, 0, 1, 16, 4⟩) := by decide +kernel
theorem test_decode_sg : (decodeSlot .s (0x92#8 ++ 0#1 ++ 0#4 ++ 64#12 ++ 5#6 ++ 2#6 ++ 3#2 ++ 0#1 ++ 24#12 ++ 0#12)).toOption =
    some (.ldfld ⟨0, 0⟩ ⟨64, 5, 2, 3, 0, 24, 0⟩) := by decide +kernel
theorem test_decode_sa : (decodeSlot .s (0x70#8 ++ 0#1 ++ 0#4 ++ 200#12 ++ 7#6 ++ 20#6 ++ 8#6 ++ 0#6 ++ 2#3 ++ 1#1 ++ 3#2 ++ 0#9)).toOption =
    some (.amoadd ⟨0, 0⟩ ⟨200, 7, 20, 8, 0, 2, 1, 3, 0⟩) := by decide +kernel
theorem test_decode_system : (decodeSlot .s (0xA5#8 ++ 0#1 ++ 0#4 ++ 0#4 ++ 0#6 ++ 4#6 ++ 0#6 ++ 0#6 ++ 0#7 ++ 0#16)).toOption =
    some (.ctxsave ⟨0, 0⟩ ⟨0, 0, 4, 0, 0, 0, 0⟩) := by decide +kernel
theorem test_decode_vm : (decodeSlot .v1 (0x02#8 ++ 0#1 ++ 0#4 ++ 3#4 ++ 4#6 ++ 1#6 ++ 1#2 ++ 0#20 ++ 32#13)).toOption =
    some (.vst .v1 ⟨0, 0⟩ ⟨3, 4, 1, 1, 0, 32⟩) := by decide +kernel
theorem test_decode_vr : (decodeSlot .v0 (0x10#8 ++ 0#1 ++ 0#4 ++ 4#4 ++ 4#6 ++ 1#6 ++ 2#6 ++ 0#6 ++ 0x08#6 ++ 5#3 ++ 1#1 ++ 1#13)).toOption =
    some (.vadd .v0 ⟨0, 0⟩ ⟨4, 4, 1, 2, 0, 0x08, 5, 1, 1⟩) := by decide +kernel
theorem test_decode_m : (decodeSlot .m (0x07#8 ++ 0#1 ++ 0#4 ++ 3#6 ++ 1#6 ++ 2#6 ++ 0#6 ++ 0#6 ++ 1#3 ++ 4#6 ++ 0#3 ++ 1#1 ++ 0x45#8)).toOption =
    some (.mdr ⟨0, 0⟩ ⟨3, 1, 2, 0, 0, 1, 4, 0, 1, 0x45⟩) := by decide +kernel
theorem test_decode_c : (decodeSlot .c1 (0x10#8 ++ 0#1 ++ 0#4 ++ 1#6 ++ 0#6 ++ 0#6 ++ 0#6 ++ 0#3 ++ 7#6 ++ 0#6 ++ 0#6 ++ 0#6)).toOption =
    some (.ldq .c1 ⟨0, 0⟩ ⟨1, 0, 0, 0, 0, 7, 0, 0, 0⟩) := by decide +kernel
/-- Frame 0b1011, reserved, LOOPEND, REPEAT, QUIET, PRESENT: the header that 02 R78 writes out. -/
theorem test_decode_header : (decodeHeader (0b1011#4 ++ 0#4 ++ 0#4 ++ 3#8 ++ 4#6 ++ 3#6)).toOption =
    some ⟨0, 3, 4, 3⟩ ∧
    (0b1011#4 ++ 0#4 ++ 0#4 ++ 3#8 ++ 4#6 ++ 3#6 : BitVec 32) = 0xB0003103 := by decide +kernel
/-- The idle bundle of 02: no slot present, every slot quiet. -/
theorem test_decode_idle : decodeTableWord 32 0xB0000FC0 = some (.headerOnlyBundle 0 0 63) := by decide +kernel

/-! ### One issue on a small machine -/

/-- An item of a launch with nothing in its record. -/
def item : Item := { wid := 7, stage := 0, slot := 0, footprint := 1024, strands := 0, record := [] }

/-- The machine after boot with one tile core, whose turn it is. -/
def tile (c : Core) : State := { cores := [(0, c)], cur := 0, booted := true }

/-- A tile core in user mode that runs an item. -/
def user : Core := { item := some item }

/-- A register after an instruction. -/
def sAfter (i : Instr) (s : State) (n : BitVec 6) : Option W64 :=
  match exec i s with | .next t => some ((t.core s.cur).sReg n) | _ => none
/-- A field of the core after an instruction. -/
def coreAfter {α : Type} (i : Instr) (s : State) (f : Core → α) : Option α :=
  match exec i s with | .next t => some (f (t.core s.cur)) | _ => none

/-- 04 R124: the sum wraps at 2^64. -/
theorem test_add_wraps : sAfter (.add ⟨0, 0⟩ ⟨1, 3, 1, 2, 0, 0, 0⟩) (tile { user with s := [(1, 0xFFFFFFFFFFFFFFFF), (2, 2)] }) 3 = some 1 := by
  decide +kernel
/-- 04 R124: the shift count is taken modulo 64, and SAR keeps the sign. -/
theorem test_sar : sAfter (.sar ⟨0, 0⟩ ⟨1, 3, 1, 2, 0, 0, 0⟩) (tile { user with s := [(1, 0x8000000000000000), (2, 67)] }) 3 =
    some 0xF000000000000000 := by decide +kernel
/-- 01 R15: a write to s0 is discarded. -/
theorem test_s0 : sAfter (.li ⟨0, 0⟩ ⟨1, 0, 0, 5⟩) (tile user) 0 = some 0 := by decide +kernel
/-- 02 R61: a false predicate performs nothing. -/
theorem test_predicate : sAfter (.li ⟨0, 3⟩ ⟨1, 3, 0, 5⟩) (tile user) 3 = some 0 := by decide +kernel
/-- 04 R124: CLZ of zero is 64. -/
theorem test_clz_zero : sAfter (.clz ⟨0, 0⟩ ⟨1, 3, 1, 0, 0, 0, 0⟩) (tile user) 3 = some 64 := by decide +kernel
/-- 04 R131: DISP counts words from the bundle's own address. -/
theorem test_branch_back : coreAfter (.br ⟨0, 0⟩ ⟨0, 0, 0, -2⟩) (tile { user with pc := 0x1000 }) Core.pc = some 0xFF8 := by decide +kernel
/-- 04 R133: a count of zero skips the loop. -/
theorem test_loop_zero : coreAfter (.loop ⟨0, 0⟩ ⟨1, 0, 1, 15⟩) (tile { user with pc := 0x1000 }) (fun c => (c.pc, (c.lReg 0).count)) =
    some (0x103C, 0) := by decide +kernel
/-- 08 R260, R265: TRAP takes cause 0x09 at 256 × 9 with its code in cr.einfo. -/
theorem test_trap : coreAfter (.trap ⟨0, 0⟩ ⟨0, 0, 0, 0x1234⟩) (tile { user with pc := 0x1000 })
    (fun c => (c.pc, c.cr.epc, c.cr.cause, c.cr.sys)) = some (0x900, 0x1000, 0x09, true) := by decide +kernel
/-- 08 R268: a privileged operation in user mode raises PRIVILEGE. -/
theorem test_privilege : coreAfter (.eret ⟨0, 0⟩ ⟨0, 0, 0, 0⟩) (tile user) (fun c => (c.pc, c.cr.cause)) = some (0x200, 0x02) := by
  decide +kernel
/-- 08 R257: ENTER pushes a region. -/
theorem test_enter : coreAfter (.enter ⟨0, 0⟩ ⟨0, 0, 0, 9⟩) (tile user) Core.region = some [9] := by decide +kernel
/-- 04 R142: a misaligned scratchpad load raises ALIGN. -/
theorem test_lds_align : coreAfter (.lds ⟨0, 0⟩ ⟨3, 3, 1, 3, 0, 0, 0, 0⟩) (tile { user with s := [(1, 4)] }) (fun c => c.cr.cause) =
    some 0x05 := by decide +kernel
/-- 04 R142: a byte load extends its sign when its bound has passed. -/
theorem test_lds_sign : coreAfter (.lds ⟨0, 0⟩ ⟨3, 3, 1, 0, 1, 0, 0, 0⟩) (tile { user with spad := [(0, 0x80)] }) (fun c => c.pend) =
    some [⟨2, .s 3 0xFFFFFFFFFFFFFF80⟩] := by decide +kernel

/-! ### Worked examples of the spec -/

/-- 03 R110: a block quantised to ZB4 in RNE. -/
theorem test_quantise : (quantiseBlock fp32.maxDy (([0x40400000, 0xBF19999A, 0x3E800000, 0x3DCCCCCD] ++ List.replicate 12 0).map fp32.value)
    4 .rne false false 1 []) = (⟨0x81, 0xFE, [6, -1, 1, 0] ++ List.replicate 12 0⟩, 0x0C) := by decide +kernel
/-- 03 R112: one K-step whose smaller term lies below the window. -/
theorem test_kstep : kstep 0x3F800000 ([⟨128, 0, [6, -3] ++ List.replicate 14 0⟩, ⟨70, 0, 7 :: List.replicate 15 0⟩] ++ List.replicate 14 zeroBlock)
    ([⟨127, 1, [4, 5] ++ List.replicate 14 0⟩, ⟨80, 0, 7 :: List.replicate 15 0⟩] ++ List.replicate 14 zeroBlock) 4 4 .rne false 0 =
      (0x3F920000, 0x20) := by decide +kernel
/-- 04 R141: SCOFF of a ring handle through three steps. -/
theorem test_hstep_ring :
    let h : W256 := 2#2 ++ 0#3 ++ 0#3 ++ 0#24 ++ 3#24 ++ 0#24 ++ 0#24 ++ 1#24 ++ 4#16 ++ 1#16 ++ 1#16 ++ 8#16 ++ 0x08#6 ++ 0#1 ++ 0x4000#57
    let next := fun (x : Option W256) => x.bind (hstep 32)
    ([some h, next (some h), next (next (some h)), next (next (next (some h)))].map fun x => x.map fun x => getField x 11) =
      [some 0, some 3, some 6, some 1] := by decide +kernel
/-- Memory that holds doublewords at these addresses and nothing else. -/
def words (l : List (Nat × W64)) : List Host.Cell := l.foldl (fun m q => SMap.setList 0 m q.1 (leBytes 8 q.2.toNat)) []

/-- A range register from VBASE to VEND with CBASE, its class, and R, W, X. -/
def range (lo hi base cls : Nat) (r w x : Bool) : W256 :=
  0#58 ++ BitVec.ofNat 2 cls ++ 1#1 ++ BitVec.ofBool x ++ BitVec.ofBool w ++ BitVec.ofBool r ++ BitVec.ofNat 64 base ++ BitVec.ofNat 64 hi ++
    BitVec.ofNat 64 lo

/-- 14 R371: ASID 9 with range 2, a home granule of D1, and tables whose level-2 entry is the read-only 2 MiB leaf. -/
def translating : State :=
  { tile { user with cr := { asid := 9 }, ranges := [(2, range 0x400000 0x404000 0x32000 0 true true false)] } with
    homeMap := [(0x19, 0x8001)]
    mem := words [(0x1208, 0x10000), (0x10000, 0x8000000000020000), (0x20000 + 8 * 0x19, 0x8000000000030000),
      (0x30000 + 8 * 9, 0xE00001003C600000)] }

theorem test_range_of : (translating.now.rangeOf 0x4001234560 .r).toOption.map Target.ca = some 0x321234560 := by decide +kernel
theorem test_walk : (translating.translate 9 0x321234560 .r false).res.toOption = some (.mem 0x1003C634560) := by decide +kernel
/-- A store is refused as the page is read-only: KIND 1. -/
theorem test_walk_refuses : (match (translating.translate 9 0x321234560 .w false).res with | .error e => some e | .ok _ => none) =
    some (1, none) := by decide +kernel


/-! ### Witnesses: for every statement, a state and operands that meet its hypotheses -/

/-- `Core.Quiet` as a test. -/
def quiet (c : Core) : Bool :=
  !c.idle && decide (c.bar = .none) && decide (c.await = .none) && decide (c.recolors = []) && decide (c.ecc = 0) && decide (c.async = []) &&
    decide (c.hooks.breakNext = none) && !c.hooks.haltRequest && !c.hooks.stepBundle && !c.yieldReq && decide (c.repLeft = none) &&
    decide (c.pend = []) && decide (c.landings = []) && decide (c.drives = []) && decide (c.flagOrs = []) && decide (c.mq = []) &&
    decide (c.poison = []) && (c.supervisor || decide (c.power.sum + 12 ≤ 64 * c.power.eff))

theorem quiet_of {c : Core} (h : quiet c = true) : c.Quiet := by
  simp only [quiet, Bool.and_eq_true, Bool.not_eq_true', decide_eq_true_eq, Bool.or_eq_true] at h
  obtain ⟨⟨⟨⟨⟨⟨⟨⟨⟨⟨⟨⟨⟨⟨⟨⟨⟨a, b⟩, c⟩, d⟩, e⟩, f⟩, g⟩, i⟩, j⟩, k⟩, l⟩, m⟩, n⟩, o⟩, p⟩, q⟩, r⟩, t⟩ := h
  exact ⟨a, b, c, d, e, f, g, i, j, k, l, m, n, o, p, q, r, t⟩

/-- `State.Issues` as a test. -/
def issues (s : State) (slot : Slot) (g : Guard) (t : Option (Nat × Nat × Nat)) : Bool :=
  quiet s.now && (s.now.pReg (g.pred.zeroExtend 6) != (g.pn == 1)) && decide (s.now.instanceOf slot ≠ none) &&
    match t with
    | none => true
    | some (row, cls, b) => decide (s.now.timingAt (32 * row + cls) ≠ 0) && decide (s.now.latencyOf row cls ≤ b)

theorem issues_of {s : State} {slot : Slot} {g : Guard} {t : Option (Nat × Nat × Nat)} (h : issues s slot g t = true) : s.Issues slot g t := by
  simp only [issues, Bool.and_eq_true, decide_eq_true_eq] at h
  refine ⟨quiet_of h.1.1.1, h.1.1.2, h.1.2, fun row cls b e => ?_⟩
  subst e
  have := h.2
  simp only [Bool.and_eq_true, decide_eq_true_eq] at this
  exact this

theorem ok_of {α β : Type} {e : Except α β} {t : β} (h : e.toOption = some t) : e = .ok t := by
  cases e with
  | error x => cases h
  | ok x => cases h; rfl

/-- `Core.MapsTo` as a test. -/
def maps (c : Core) (a : W64) (n : Nat) (need : Need) (t : Target) : Bool :=
  decide (a.toNat % n = 0) && decide (a.toNat < 2 ^ 57) && ((List.range n).all fun i => (c.rangeOf (a.extractLsb' 0 57 + BitVec.ofNat 57 i) need).toOption.isSome) &&
    decide ((c.rangeOf (a.extractLsb' 0 57) need).toOption = some t)

theorem maps_of {c : Core} {a : W64} {n : Nat} {need : Need} {t : Target} (h : maps c a n need t = true) : c.MapsTo a n need t := by
  simp only [maps, Bool.and_eq_true, decide_eq_true_eq, List.all_eq_true, List.mem_range] at h
  refine ⟨h.1.1.1, h.1.1.2, fun i hi => ?_, ok_of h.2⟩
  have := h.1.2 i hi
  cases e : c.rangeOf (a.extractLsb' 0 57 + BitVec.ofNat 57 i) need with
  | error x => rw [e] at this; cases this
  | ok u => exact ⟨u, rfl⟩

theorem memNat_zero {s : State} {a n : Nat} (h : ∀ q ∈ s.mem, q.1 < a ∨ a + n ≤ q.1) : s.memNat a n = 0 := by
  have hb : s.memBytes a n = List.replicate n 0 := by
    rw [State.memBytes, SMap.getList_eq]
    refine List.eq_replicate_iff.mpr ⟨by simp, fun b hb => ?_⟩
    obtain ⟨i, hi, e⟩ := List.mem_map.mp hb
    rw [← e]
    refine SMap.get_absent _ _ _ fun q hq => ?_
    have := h q hq
    have := List.mem_range.mp hi
    omega
  have z : ∀ n, leNat (List.replicate n (0 : Byte)) = 0 := by
    intro n
    induction n with
    | zero => rfl
    | succ n ih => rw [List.replicate_succ, leNat, ih]; rfl
  rw [State.memNat, hb, z]

/-- A context table at a multiple of 512, and no byte of memory where an entry has its account. -/
theorem unaccounted_of {s : State} (h : (s.bases.ctx % 512 == 0 && s.mem.all fun q => decide (q.1 % 512 < 32 ∨ 56 ≤ q.1 % 512)) = true) :
    s.Unaccounted := by
  simp only [Bool.and_eq_true, beq_iff_eq, List.all_eq_true, decide_eq_true_eq] at h
  intro a
  refine ⟨memNat_zero fun q hq => ?_, memNat_zero fun q hq => ?_⟩ <;>
    · have := h.2 q hq
      have := h.1
      simp only [State.ctxEntry] at *
      omega

theorem witness_IntegerRegisterForms : let w : SR := ⟨1, 3, 1, 2, 0, 0, 0⟩; let v : SR := ⟨3, 0, 1, 2, 0, 0, 0⟩; let u : SR := ⟨1, 63, 1, 0, 0, 0, 0⟩
    (tile user).Issues .s ⟨0, 0⟩ (some (0, 0, 1)) ∧ (tile user).Issues .s ⟨0, 0⟩ (some (0, 1, 3)) ∧
      ∀ i ∈ [Instr.add ⟨0, 0⟩ w, .sub ⟨0, 0⟩ w, .mul ⟨0, 0⟩ v, .mulh ⟨0, 0⟩ v, .mulhu ⟨0, 0⟩ v, .and ⟨0, 0⟩ w, .or ⟨0, 0⟩ w, .xor ⟨0, 0⟩ w,
        .shl ⟨0, 0⟩ w, .shr ⟨0, 0⟩ w, .sar ⟨0, 0⟩ w, .min ⟨0, 0⟩ w, .max ⟨0, 0⟩ w, .minu ⟨0, 0⟩ w, .maxu ⟨0, 0⟩ w, .clz ⟨0, 0⟩ u,
        .popc ⟨0, 0⟩ u], i.check1 = none := by
  refine ⟨issues_of ?_, issues_of ?_, ?_⟩ <;> decide +kernel

theorem witness_IntegerImmediateForms : let w : SI := ⟨1, 3, 1, 0x400000000⟩; let v : SI := ⟨1, 0, 1, 63⟩
    (tile user).Issues .s ⟨0, 0⟩ (some (0, 0, 1)) ∧
      ∀ i ∈ [Instr.addi ⟨0, 0⟩ w, .andi ⟨0, 0⟩ w, .ori ⟨0, 0⟩ w, .xori ⟨0, 0⟩ w, .shli ⟨0, 0⟩ v, .shri ⟨0, 0⟩ v, .sari ⟨0, 0⟩ v,
        .li ⟨0, 0⟩ ⟨1, 3, 0, 0x7FFFFFFFF⟩], i.check1 = none := by
  refine ⟨issues_of ?_, ?_⟩ <;> decide +kernel

theorem witness_ComparesAndPredicates : let w : SR := ⟨1, 15, 1, 2, 0, 0, 0⟩; let v : SI := ⟨1, 0, 1, 0x400000000⟩
    (tile user).Issues .s ⟨0, 0⟩ (some (0, 0, 1)) ∧
      ∀ i ∈ [Instr.cmpeq ⟨0, 0⟩ w, .cmpne ⟨0, 0⟩ w, .cmplt ⟨0, 0⟩ w, .cmple ⟨0, 0⟩ w, .cmpltu ⟨0, 0⟩ w, .cmpleu ⟨0, 0⟩ w, .cmpeqi ⟨0, 0⟩ v,
        .cmplti ⟨0, 0⟩ v, .pand ⟨0, 0⟩ w, .por ⟨0, 0⟩ w, .pxor ⟨0, 0⟩ w, .pnot ⟨0, 0⟩ ⟨1, 15, 1, 0, 0, 0, 0⟩], i.check1 = none := by
  refine ⟨issues_of ?_, ?_⟩ <;> decide +kernel

/-- The least and the greatest value of each reserved field of O1, O2 and O3, and the words that check 1 refuses for them. -/
theorem witness_reserved_fields :
    (∀ w ∈ [(⟨1, 3, 1, 1, 0, 0, 0⟩ : SR), ⟨1, 3, 1, 63, 0, 0, 0⟩], w.b ≠ 0 ∧ (Instr.clz ⟨0, 0⟩ w).check1 ≠ none ∧ (Instr.pnot ⟨0, 0⟩ w).check1 ≠ none) ∧
      (∀ v ∈ [(⟨1, 3, 1, 0x40⟩ : SI), ⟨1, 3, 1, 0x7FFFFFFC0⟩], v.imm.extractLsb' 6 29 ≠ 0 ∧ (Instr.shli ⟨0, 0⟩ v).check1 ≠ none) ∧
      ∀ v ∈ [(⟨1, 3, 1, 5⟩ : SI), ⟨1, 3, 63, 5⟩], v.a ≠ 0 ∧ (Instr.li ⟨0, 0⟩ v).check1 ≠ none := by
  decide +kernel

theorem witness_ScalarFloat : let w : SR := ⟨4, 3, 1, 2, 0, 5, 0⟩; let v : SR := ⟨4, 3, 1, 2, 0, 0, 0⟩; let p : SR := ⟨4, 15, 1, 2, 0, 0, 0⟩
    (tile user).Issues .s ⟨0, 0⟩ (some (0, 2, 4)) ∧ (tile user).Issues .s ⟨0, 0⟩ (some (0, 3, 12)) ∧
      ∀ i ∈ [Instr.fadd ⟨0, 0⟩ w, .fsub ⟨0, 0⟩ w, .fmul ⟨0, 0⟩ w, .ffma ⟨0, 0⟩ { w with c := 4 }, .fdiv ⟨0, 0⟩ { w with lat := 12 },
        .fsqrt ⟨0, 0⟩ { w with lat := 12, b := 0 }, .icvtf ⟨0, 0⟩ ⟨4, 3, 1, 0, 0, 0x11, 0⟩, .fmin ⟨0, 0⟩ v, .fmax ⟨0, 0⟩ v, .fcmpeq ⟨0, 0⟩ p,
        .fcmplt ⟨0, 0⟩ p, .fcmple ⟨0, 0⟩ p, .fcvti ⟨0, 0⟩ ⟨4, 3, 1, 0, 0, 0x02, 0⟩, .fcvti ⟨0, 0⟩ ⟨4, 3, 1, 0, 0, 0x12, 0⟩,
        .fcvti ⟨0, 0⟩ ⟨4, 3, 1, 0, 0, 0x22, 0⟩, .fcvti ⟨0, 0⟩ ⟨4, 3, 1, 0, 0, 0x32, 0⟩], i.check1 = none := by
  refine ⟨issues_of ?_, issues_of ?_, ?_⟩ <;> decide +kernel

/-- A core at 0x1000 whose s1 is the last word-aligned address. -/
def branching : State := tile { user with pc := 0x1000, s := [(1, 0x1FFFFFFFFFFFFFC)] }

theorem witness_BranchesTaken :
    TargetOk (displaced branching.now.pc.toNat (-0x400)) ∧ TargetOk (displaced (branching.now.sReg 1).toNat 0) ∧ TargetOk (branching.now.sReg 1) ∧
      branching.Issues .s ⟨0, 0⟩ none ∧ branching.Issues .s ⟨0, 0⟩ (some (0, 0, 1)) ∧
      ∀ i ∈ [Instr.br ⟨0, 0⟩ ⟨0, 0, 0, -0x400⟩, .bri ⟨0, 0⟩ ⟨0, 0, 1, 0⟩, .call ⟨0, 0⟩ ⟨1, 0, 0, -0x400⟩, .calli ⟨0, 0⟩ ⟨1, 3, 1, 0⟩,
        .ret ⟨0, 0⟩ ⟨0, 0, 1, 0⟩], i.check1 = none := by
  refine ⟨⟨?_, ?_⟩, ⟨?_, ?_⟩, ⟨?_, ?_⟩, issues_of ?_, issues_of ?_, ?_⟩ <;> decide +kernel

/-- A count of zero, and counts at the ends of the range that opens the loop. -/
theorem witness_LoopOpens : let s := tile { user with pc := 0x1000, s := [(1, 1), (2, 0xFFFFFFFF)] }
    TargetOk (displaced s.now.pc.toNat 15) ∧ s.Issues .s ⟨0, 0⟩ (some (0, 0, 1)) ∧
      (∀ a : BitVec 6, a.toNat < 3 → (Instr.loop ⟨0, 0⟩ ⟨1, 3, a, 15⟩).check1 = none) ∧ s.now.sReg 0 = 0 ∧
      s.now.sReg 1 ≠ 0 ∧ s.now.sReg 2 ≠ 0 ∧ (s.now.sReg 2).toNat < 2 ^ 32 := by
  refine ⟨⟨?_, ?_⟩, issues_of ?_, ?_, ?_, ?_, ?_, ?_⟩ <;> decide +kernel

/-- BASE at its largest value; a signed field at both ends and an unsigned one at its end; the ring handle of 04 R141. -/
theorem witness_HandleOperations :
    let h : W256 := 2#2 ++ 0#3 ++ 0#3 ++ 0#24 ++ 3#24 ++ 0#24 ++ 0#24 ++ 1#24 ++ 4#16 ++ 1#16 ++ 1#16 ++ 8#16 ++ 0x08#6 ++ 0#1 ++ 0x4000#57
    let s := tile { user with s := [(1, 0x1FFFFFFFFFFFFFF), (2, 0x7FFFFF), (3, 0xFFFFFFFFFF800000), (4, 7)], h := [(1, h)] }
    s.Issues .s ⟨0, 0⟩ (some (0, 5, 2)) ∧ (s.now.sReg 1).toNat < 2 ^ 57 ∧
      fitsField 7 (s.now.sReg 2).toInt = true ∧ fitsField 7 (s.now.sReg 3).toInt = true ∧ fitsField 12 ((s.now.sReg 4).toNat : Int) = true ∧
      (hstep (s.now.handle (s.now.hReg 1)).width (s.now.hReg 1)).isSome = true ∧
      ∀ i ∈ [Instr.hbase ⟨0, 0⟩ ⟨2, 31, 1, 0, 0, 0x7F, 0⟩, .hset ⟨0, 0⟩ ⟨2, 31, 2, 1, 0, 7, 0⟩, .hset ⟨0, 0⟩ ⟨2, 1, 3, 1, 0, 7, 0⟩,
        .hset ⟨0, 0⟩ ⟨2, 1, 4, 1, 0, 12, 0⟩, .hstep ⟨0, 0⟩ ⟨2, 2, 1, 0, 0, 0, 0⟩, .hget ⟨0, 0⟩ ⟨2, 3, 1, 0, 0, 13, 0⟩,
        .hmov ⟨0, 0⟩ ⟨2, 1, 1, 0, 0, 0, 0⟩], i.check1 = none := by
  refine ⟨issues_of ?_, ?_, ?_, ?_, ?_, ?_, ?_⟩ <;> decide +kernel

/-- The last doubleword of the scratchpad, whose granule is full; the four widths. -/
theorem witness_ScratchpadAccesses : let s := tile { user with s := [(1, 0x200000)], fe := [(0x1FFFF, true)] }
    s.Issues .s ⟨0, 0⟩ (some (0, 4, 3)) ∧
      (∀ z : BitVec 2, s.now.SpadOk (s.now.sReg 1 + (-(1#18 <<< z.toNat)).signExtend 64) (2 ^ z.toNat)) ∧ s.now.feBit (0x1FFFF8 / 16) = true ∧
      ∀ i ∈ [Instr.lds ⟨0, 0⟩ ⟨3, 3, 1, 0, 1, 0, -1, 0⟩, .lds ⟨0, 0⟩ ⟨3, 3, 1, 3, 0, 1, -8, 0⟩, .lds ⟨0, 0⟩ ⟨3, 0, 1, 2, 0, 2, -4, 0⟩,
        .sts ⟨0, 0⟩ ⟨3, 3, 1, 1, 0, 0, -2, 0⟩, .sts ⟨0, 0⟩ ⟨3, 3, 1, 3, 0, 1, -8, 8⟩], i.check1 = none := by
  refine ⟨issues_of ?_, ?_, ?_, ?_⟩
  · decide +kernel
  · simp only [Core.SpadOk]; decide +kernel
  · decide +kernel
  · decide +kernel

/-- A core with one PLAIN range of 64 KiB at 0x10000, and the address of its last doubleword. -/
def ranged : State := tile { user with s := [(1, 0x1FFF8)], ranges := [(0, range 1 2 5 0 true true false)] }

theorem witness_GlobalAccesses : ranged.Issues .s ⟨0, 0⟩ none ∧
    (∃ t, ranged.now.MapsTo (ranged.now.sReg 1) 8 .r t) ∧ (∃ t, ranged.now.MapsTo (ranged.now.sReg 1) 8 .w t) ∧
      (Instr.ldg ⟨0, 0⟩ ⟨4095, 3, 1, 3, 0, 0, 0⟩).check1 = none ∧ (Instr.ldg ⟨0, 0⟩ ⟨1, 0, 1, 0, 1, 7, 0⟩).check1 = none ∧
      (Instr.stg ⟨0, 0⟩ ⟨0, 3, 1, 3, 0, 0, 8⟩).check1 = none := by
  refine ⟨issues_of ?_, ⟨targetOf (range 1 2 5 0 true true false) 0x1FFF8 0, maps_of ?_⟩,
    ⟨targetOf (range 1 2 5 0 true true false) 0x1FFF8 0, maps_of ?_⟩, ?_, ?_, ?_⟩ <;> decide +kernel

/-- Every index of 01 R20 that the statement names, in the mode or on the core that it asks for. -/
theorem witness_ControlRegisterReads :
    (tile user).Issues .s ⟨0, 0⟩ (some (0, 6, 2)) ∧ (tile { user with cr := { sys := true } }).Issues .s ⟨0, 0⟩ (some (0, 6, 2)) ∧
      ({ tile user with cur := 576 } : State).Issues .s ⟨0, 0⟩ (some (0, 6, 2)) ∧ ({ tile user with cur := 576 } : State).now.supervisor = true ∧
      [0, 1, 2, 3, 4, 5, 6, 0x10, 0x11, 0x12, 0x13, 0x14, 0x20, 0xF0020, 0x21, 0x30, 0x31, 0x32, 0x33, 0x40].all
        (fun i => (Instr.crr ⟨0, 0⟩ ⟨2, 3, 0, i⟩).check1 == none) = true ∧
      ∃ x : W64, ∀ j, j < 8 → x.extractLsb' (8 * j) 8 = (tile user).now.timingAt (8 * 15 + j) := by
  refine ⟨issues_of ?_, issues_of ?_, issues_of ?_, ?_, ?_, 0, ?_⟩ <;> decide +kernel


/-- A tile core in system mode, and a live context 5 in the table. -/
def handler : State := { tile { user with cr := { sys := true } } with mem := words [(512 * 5, 1)] }

/-- The user registers at the ends of their ranges, and the registers of system mode. -/
theorem witness_ControlRegisterWrites :
    let u := tile { user with s := [(1, 1), (2, 5), (3, 63)] }
    let s := { handler with cores := [(0, { user with cr := { sys := true }, s := [(1, 3), (2, 0xFFFFFF), (3, 255), (4, 5)] })] }
    u.Issues .s ⟨0, 0⟩ none ∧ s.Issues .s ⟨0, 0⟩ none ∧ s.Unaccounted ∧ s.now.cr.sys = true ∧ s.now.supervisor = false ∧
      [0, 2, 3, 0x10, 0x11, 0x12, 0x13, 0x14, 0x30, 0x31, 0x32, 0x33].all (fun i => (Instr.crw ⟨0, 0⟩ ⟨0, 0, 1, i⟩).check1 == none) = true ∧
      1 ≤ (u.now.sReg 1).toNat ∧ (u.now.sReg 2).toNat ≤ 5 ∧ (u.now.sReg 3).toNat < 2 ^ 6 ∧
      ((s.now.sReg 1).extractLsb' 2 2 = s.now.cr.dbg ∧ (s.now.sReg 1).getLsbD 0 = true) ∧ (s.now.sReg 2).toNat < 2 ^ 24 ∧
      (s.now.sReg 3).toNat < 2 ^ 8 ∧ (s.now.sReg 4).toNat < 2 ^ 16 ∧ s.ctxState ((s.now.sReg 4).extractLsb' 0 16) = 1 := by
  refine ⟨issues_of ?_, issues_of ?_, unaccounted_of ?_, ?_⟩ <;> decide +kernel

/-- The last unit of a beat tagged FP32. -/
theorem witness_StrandInsertExtract :
    let s := tile { user with s := [(1, 79), (2, 5)], strands := [(20 * 4 + 19, { data := 7, side := 0, tag := 0x08 })] }
    s.Issues .s ⟨0, 0⟩ (some (0, 0, 1)) ∧ s.now.supervisor = false ∧ s.now.tagKnown (s.now.beatAt 4 (ringAt 19 s.now.bt)).tag = true ∧
      (Instr.zins ⟨0, 0⟩ ⟨1, 5, 4, 2, 1, 0, 0⟩).check1 = none ∧ (Instr.zext ⟨0, 0⟩ ⟨1, 3, 4, 1, 0, 0, 0⟩).check1 = none ∧ (s.now.sReg 1).toNat < 80 := by
  refine ⟨issues_of ?_, ?_, ?_, ?_, ?_, ?_⟩ <;> decide +kernel

theorem witness_AtomicsIssue : let w : SA := ⟨4095, 3, 1, 2, 0, 3, 1, 3, 0⟩
    ranged.Issues .s ⟨0, 0⟩ none ∧ (∃ t, ranged.now.MapsTo (ranged.now.sReg 1) 8 .rw t ∧ t.cls ≠ .host) ∧
      ∀ i ∈ [Instr.amoadd ⟨0, 0⟩ w, .amoand ⟨0, 0⟩ w, .amoor ⟨0, 0⟩ w, .amoxor ⟨0, 0⟩ w, .amomin ⟨0, 0⟩ w, .amomax ⟨0, 0⟩ w,
        .amoswap ⟨0, 0⟩ w, .amocas ⟨0, 0⟩ { w with c := 4 }, .amofadd ⟨0, 0⟩ { w with size := 2 }], i.check1 = none := by
  refine ⟨issues_of ?_, ⟨targetOf (range 1 2 5 0 true true false) 0x1FFF8 0, maps_of ?_, ?_⟩, ?_⟩ <;> decide +kernel

/-- An item of a gang; a core with a store outstanding; a core with a knot pending. -/
theorem witness_BarriersAndDrains :
    let s := tile { user with item := some { item with gang := some 3 } }
    let d := tile { user with stream := [⟨0, targetOf (range 1 2 5 0 true true false) 0x1FFF8 0, .data [1], .no, none⟩] }
    let k := tile { user with kn := [(2, { state := .pending, count := 1 })] }
    s.Issues .s ⟨0, 0⟩ none ∧ d.Issues .s ⟨0, 0⟩ none ∧ k.Issues .s ⟨0, 0⟩ none ∧ (s.now.item.bind Item.gang).isSome = true ∧
      s.drained s.cur 2 = true ∧ d.drained d.cur 2 = false ∧ d.drained d.cur 3 = false ∧ s.now.settled = true ∧ k.now.settled = false ∧
      ∀ i ∈ [Instr.bar ⟨0, 0⟩ ⟨0, 0, 0, 0⟩, .bar ⟨0, 0⟩ ⟨0, 0, 0, 3⟩, .drain ⟨0, 0⟩ ⟨0, 0, 0, 2⟩, .drain ⟨0, 0⟩ ⟨0, 0, 0, 3⟩,
        .settle ⟨0, 0⟩ ⟨0, 0, 0, 0⟩, .yield ⟨0, 0⟩ ⟨0, 0, 0, 0⟩], i.check1 = none := by
  refine ⟨issues_of ?_, issues_of ?_, issues_of ?_, ?_⟩ <;> decide +kernel

/-- A full region stack, and an empty one; an item that no gang holds. -/
theorem witness_RegionsAndTail :
    let s := tile { user with region := List.replicate 16 7 }
    s.Issues .s ⟨0, 0⟩ none ∧ s.now.regionHit 0xFFFF 0 = false ∧ (∀ id l, s.now.region = id :: l → s.now.regionHit id 1 = false) ∧
      (∀ id l, user.region = id :: l → user.regionHit id 1 = false) ∧ s.now.item = some item ∧ item.gang = none ∧
      s.now.freeTracker.isSome = true ∧ ∀ i ∈ [Instr.enter ⟨0, 0⟩ ⟨0, 0, 0, 0xFFFF⟩, .leave ⟨0, 0⟩ ⟨0, 0, 0, 0⟩, .tail ⟨0, 0⟩ ⟨0, 0, 0, 0⟩],
        i.check1 = none := by
  refine ⟨issues_of ?_, ?_, ?_, ?_, ?_⟩
  · decide +kernel
  · decide +kernel
  · intro id l h; cases h; decide +kernel
  · intro id l h; cases h
  · decide +kernel

/-- An extent of one byte that no range covers, and one whose system page the home map names. -/
theorem witness_ProbeTestsPages :
    let s := { ranged with homeMap := [(0, 0x8004)] }
    s.User ∧ s.Issues .s ⟨0, 0⟩ none ∧ (∀ i ∈ [Instr.probe ⟨0, 0⟩ ⟨0, 0, 1, 1⟩, .probe ⟨0, 0⟩ ⟨0, 0, 1, 0x1000008⟩, .probe ⟨0, 0⟩ ⟨0, 0, 0, 0x1FFFFFF⟩],
      i.check1 = none) ∧ (s.now.sReg 1).toNat < 2 ^ 57 ∧ s.probe s.now (s.now.sReg 1).toNat 8 .rw = none ∧
      (s.probe s.now 0 0xFFFFFF .rw).isSome = true := by
  refine ⟨⟨?_, ?_⟩, issues_of ?_, ?_, ?_, ?_, ?_⟩ <;> decide +kernel

theorem witness_TrapTakes : (tile user).User ∧ (tile user).Issues .s ⟨0, 0⟩ none ∧
    [0, 0xFFEF, 0xFFF1, 0xFFFF, 0x10000, 0x1FFFF].all (fun i => decide ((Instr.trap ⟨0, 0⟩ ⟨0, 0, 0, i⟩).check1 = none ∧ i.extractLsb' 0 17 ≠ 0xFFF0)) =
      true := by
  refine ⟨⟨?_, ?_⟩, issues_of ?_, ?_⟩ <;> decide +kernel

/-- A handler that returns to the top of the address space, with repetitions left and none. -/
theorem witness_EretReturns : ∀ e ∈ [0, 255],
    let s := tile { user with cr := { sys := true, cause := 0x09, epc := 0x1FFFFFFFFFFFFFC, erep := BitVec.ofNat 8 e }, latch := some {} }
    s.Issues .s ⟨0, 0⟩ none ∧ (Instr.eret ⟨0, 0⟩ ⟨0, 0, 0, 0⟩).check1 = none ∧ s.now.supervisor = false ∧ s.now.cr.sys = true ∧
      isKillCause s.now.cr.cause = false ∧ s.now.item.isSome = true ∧ s.now.saved = false ∧ s.now.latch = some {} ∧
      s.now.cr.epc.toNat % 4 = 0 ∧ s.now.cr.epc.toNat < 2 ^ 57 := by
  intro e he
  rcases List.mem_cons.mp he with rfl | he
  · refine ⟨issues_of ?_, ?_⟩ <;> decide +kernel
  · rcases List.mem_cons.mp he with rfl | he
    · refine ⟨issues_of ?_, ?_⟩ <;> decide +kernel
    · cases he

/-- A core with a write, a drive, a flag update, a landing and a copy in flight. -/
theorem witness_TrapEntrySaves :
    let s := tile { user with
      pend := [⟨2, .s 3 7⟩], drives := [{ left := 1, z := 4, ring := 2, beat := some {}, kp := some 5 }], flagOrs := [⟨1, 8⟩]
      landings := [⟨0, 5, false, 3, targetOf (range 1 2 5 0 true true false) 0x1FFF8 0, .load 3 false, .waiting, true, false, none⟩]
      copies := [{ id := 0, engine := .a, kp := 1, job := .push 0 1, asid := 0, wid := 7, slot := 0 }] }
    (s.core 0).cr.sys = false ∧ (s.core 0).supervisor = false ∧ (s.core 0).mq = [] ∧
      ∀ t ∈ [(⟨0x06, 0⟩ : TrapReq), ⟨0x09, 0xFFFF⟩], (t.cause = 0x09 → t.info.extractLsb' 0 17 ≠ 0xFFF0) := by
  decide +kernel

/-- A MANAGED range of a heap. -/
def managed (lo hi base : Nat) (heap : BitVec 3) : W256 :=
  0#53 ++ heap ++ 0#2 ++ 1#2 ++ 1#1 ++ 0#1 ++ 1#1 ++ 1#1 ++ BitVec.ofNat 64 base ++ BitVec.ofNat 64 hi ++ BitVec.ofNat 64 lo

/-- A core whose k1 names an object of heap 7 in the good colour; the heap lies in system memory at the same addresses. -/
def referring (header : W64) : State :=
  { tile { user with cr := { color := 0xA00000 }, ranges := [(3, managed 1 2 1 7)], k := [(1, 5#3 ++ 7#4 ++ 0x10000#57), (2, 0)] } with
    homeMap := [(0, 0x8004)], mem := words [(0x10000, header)] }

theorem fresh (x : W64) : (referring x).now.Fresh ((referring x).now.kReg 1) := by
  show (referring 0).now.Fresh ((referring 0).now.kReg 1)
  exact ⟨by decide +kernel, by decide +kernel, by decide +kernel⟩

theorem mem_of {x : Xlate} {p : Place} (h : x.res.toOption = some p) : ∃ st, x = ⟨.ok p, st⟩ := by
  obtain ⟨r, st⟩ := x
  exact ⟨st, congrArg (fun r => (⟨r, st⟩ : Xlate)) (ok_of h)⟩

/-- The first byte after the header and the last doubleword that an offset reaches; a null reference and a fresh one to store. -/
theorem witness_ReferenceAccesses : let s := referring 2
    s.Issues .s ⟨0, 0⟩ none ∧ s.now.supervisor = false ∧
      (∃ t, s.now.RefersTo (s.now.kReg 1) 16 8 .r t) ∧ (∃ t, s.now.RefersTo (s.now.kReg 1) 2040 8 .r t) ∧
      (∃ t, s.now.RefersTo (s.now.kReg 1) 16 8 .w t) ∧ refAddr (s.now.kReg 2) = 0 ∧ s.now.Fresh (s.now.kReg 1) ∧
      ∀ i ∈ [Instr.ldref ⟨0, 0⟩ ⟨1, 3, 1, 3, 0, 16, 0⟩, .ldfld ⟨0, 0⟩ ⟨4095, 3, 1, 3, 1, 2040, 0⟩, .stfld ⟨0, 0⟩ ⟨0, 3, 1, 3, 0, 16, 0⟩,
        .stref ⟨0, 0⟩ ⟨0, 2, 1, 3, 0, 16, 0⟩, .stref ⟨0, 0⟩ ⟨0, 1, 1, 3, 0, 16, 0⟩], i.check1 = none := by
  have f := fresh 2
  refine ⟨issues_of ?_, ?_, ⟨targetOf (managed 1 2 1 7) 0x10010 0, f, ?_, maps_of ?_, ?_, ?_⟩,
    ⟨targetOf (managed 1 2 1 7) 0x107F8 0, f, ?_, maps_of ?_, ?_, ?_⟩, ⟨targetOf (managed 1 2 1 7) 0x10010 0, f, ?_, maps_of ?_, ?_, ?_⟩, ?_, f, ?_⟩ <;>
    decide +kernel

/-- Two null references, a null and a fresh one, and one with itself; heap 7 at the top of the address space. -/
theorem witness_ReferenceValues :
    let s := tile { user with cr := { color := 0xA00000 }, k := [(1, 5#3 ++ 7#4 ++ 0x10000#57)], s := [(1, 0x1FFFFFFFFFFFFFF)] }
    s.Issues .s ⟨0, 0⟩ none ∧ s.now.supervisor = false ∧ (refHeap (s.now.kReg 1)).toNat < 8 ∧ (refHeap (s.now.kReg 2)).toNat < 8 ∧
      refAddr (s.now.kReg 2) = 0 ∧ s.now.Fresh (s.now.kReg 1) ∧ (s.now.sReg 1).toNat < 2 ^ 57 ∧
      ∀ i ∈ [Instr.refeq ⟨0, 0⟩ ⟨0, 3, 2, 3, 0, 0, 0⟩, .refeq ⟨0, 0⟩ ⟨0, 15, 1, 2, 0, 0, 0⟩, .refeq ⟨0, 0⟩ ⟨0, 0, 1, 1, 0, 0, 0⟩,
        .refmk ⟨0, 0⟩ ⟨0, 15, 1, 0, 0, 7, 0⟩], i.check1 = none := by
  refine ⟨issues_of ?_, ?_, ?_, ?_, ?_, ⟨?_, ?_, ?_⟩, ?_, ?_⟩ <;> decide +kernel

/-- Pin counts of 0, of one below the limit, and at the limit. -/
theorem witness_PinsCount : ∀ n ∈ [(0 : Nat), 0xFFFE, 0xFFFF],
    let s := referring (0#8 ++ BitVec.ofNat 16 n ++ 2#40)
    s.Issues .s ⟨0, 0⟩ none ∧ s.now.supervisor = false ∧ s.User ∧ s.Unaccounted ∧ (∃ t, s.HeaderAt (s.now.kReg 1) t 0x10000 (BitVec.ofNat 16 n)) ∧
      (Instr.pin ⟨0, 0⟩ ⟨0, 3, 1, 0, 0, 0, 0⟩).check1 = none ∧ (Instr.unpin ⟨0, 0⟩ ⟨0, 0, 1, 0, 0, 0, 0⟩).check1 = none := by
  have one : ∀ n, (issues (referring (0#8 ++ BitVec.ofNat 16 n ++ 2#40)) .s ⟨0, 0⟩ none &&
      (let s := referring (0#8 ++ BitVec.ofNat 16 n ++ 2#40)
       maps s.now ((refAddr (s.now.kReg 1)).zeroExtend 64) 8 .rw (targetOf (managed 1 2 1 7) 0x10000 0) &&
       decide ((s.translate s.now.cr.asid 0x10000 .rw false).res.toOption = some (.mem 0x10000)) && !s.poisoned 0x10000 &&
       (s.mem.all fun q => decide (q.1 % 512 < 32 ∨ 56 ≤ q.1 % 512)) &&
       let x : W64 := BitVec.ofNat 64 (s.memNat 0x10000 8)
       !x.getLsbD 63 && !x.getLsbD 62 && pinCount x == BitVec.ofNat 16 n)) = true →
      let s := referring (0#8 ++ BitVec.ofNat 16 n ++ 2#40)
      s.Issues .s ⟨0, 0⟩ none ∧ s.now.supervisor = false ∧ s.User ∧ s.Unaccounted ∧ (∃ t, s.HeaderAt (s.now.kReg 1) t 0x10000 (BitVec.ofNat 16 n)) ∧
        (Instr.pin ⟨0, 0⟩ ⟨0, 3, 1, 0, 0, 0, 0⟩).check1 = none ∧ (Instr.unpin ⟨0, 0⟩ ⟨0, 0, 1, 0, 0, 0, 0⟩).check1 = none := by
    intro n h
    simp only [Bool.and_eq_true, Bool.not_eq_true', decide_eq_true_eq, beq_iff_eq] at h
    obtain ⟨a, ⟨⟨⟨b, c⟩, d⟩, e⟩, ⟨f, g⟩, i⟩ := h
    exact ⟨issues_of a, rfl, ⟨rfl, rfl⟩, unaccounted_of (Bool.and_eq_true _ _ ▸ ⟨rfl, e⟩), ⟨targetOf (managed 1 2 1 7) 0x10000 0,
      fresh _, maps_of b, by decide +kernel,
      (by show _ = (refHeap ((referring 0).now.kReg 1)).extractLsb' 0 3; decide +kernel), mem_of c, d, _, rfl, f, g, i⟩, by decide, by decide⟩
  intro n hn
  rcases List.mem_cons.mp hn with rfl | hn
  · exact one _ (by decide +kernel)
  · rcases List.mem_cons.mp hn with rfl | hn
    · exact one _ (by decide +kernel)
    · rcases List.mem_cons.mp hn with rfl | hn
      · exact one _ (by decide +kernel)
      · cases hn

/-- The machine after boot with a supervisor core whose turn it is, and system memory in the first 512 MiB. -/
def sup (die : Nat) (regs : SMap W64) (mem : List Host.Cell) : State :=
  { cores := [(576 + die, { coreDefault 576 with s := regs })], cur := 576 + die, booted := true, homeMap := [(0, 0x8004)], mem := mem }

/-- The ends of every range: sites 143, slot map 0x1AA, entries 95, 96 and 127, levels 700 and 2,400, and extents at the ends of
the address space. -/
theorem witness_SupervisorTables :
    let s := sup 3 [(1, 143), (2, 0x1AA), (3, 95), (4, 15), (5, 96), (6, 63), (7, 127), (8, 700), (9, 2400)] []
    let d := sup 0 [(1, 1023), (2, 0xFFFF), (3, 0xFFFFFFFFF0000), (4, 0x10000), (6, 0x10000000000000)] []
    let x := fun n => s.now.sReg n
    let y := fun n => d.now.sReg n
    s.Issues .s ⟨0, 0⟩ none ∧ d.Issues .s ⟨0, 0⟩ none ∧ s.Supervises 3 ∧ d.Supervises 0 ∧ s.fns = [] ∧ s.Unaccounted ∧ d.Unaccounted ∧
      s.TargetSite 3 (x 1) ∧ s.TargetSite 3 0 ∧ (x 2).toNat < 512 ∧ (∀ i, i < 4 → (x 2).extractLsb' (2 * i) 2 ≠ 3) ∧
      ((x 3).toNat < 96 ∧ (x 4).toNat < 16) ∧ (96 ≤ (x 5).toNat ∧ (x 6).toNat < 64) ∧ (x 7).toNat < 128 ∧ 700 ≤ (x 8).toNat ∧ (x 9).toNat ≤ 2400 ∧
      (y 1).toNat < 1024 ∧ (y 2).toNat = 0xFFFF ∧ (y 3).toNat % 65536 = 0 ∧ (y 4).toNat % 65536 = 0 ∧ 65536 ≤ (y 4).toNat ∧
      (y 3).toNat + (y 4).toNat ≤ 2 ^ 52 ∧ (y 0).toNat + (y 6).toNat ≤ 2 ^ 52 ∧ d.drained d.cur 2 = true ∧
      d.probedIn (y 1).toNat (y 3).toNat (y 4).toNat = false ∧ d.probedIn (y 2).toNat (y 0).toNat (y 6).toNat = false ∧
      ∀ i ∈ [Instr.slotmap ⟨0, 0⟩ ⟨0, 0, 1, 2, 0, 0, 0⟩, .ttset ⟨0, 0⟩ ⟨0, 0, 1, 3, 4, 0, 0⟩, .ttset ⟨0, 0⟩ ⟨0, 0, 1, 5, 6, 0, 0⟩,
        .ttset ⟨0, 0⟩ ⟨0, 0, 0, 7, 6, 0, 0⟩, .pstep ⟨0, 0⟩ ⟨0, 0, 8, 0, 0, 0, 0⟩, .pstep ⟨0, 0⟩ ⟨0, 0, 9, 0, 0, 0, 0⟩,
        .inval ⟨0, 0⟩ ⟨0, 0, 1, 3, 4, 0, 0⟩, .inval ⟨0, 0⟩ ⟨0, 0, 2, 0, 6, 1, 0⟩], i.check1 = none := by
  refine ⟨issues_of ?_, issues_of ?_, ⟨?_, ?_, ?_, ?_⟩, ⟨?_, ?_, ?_, ?_⟩, ?_, unaccounted_of ?_, unaccounted_of ?_, ⟨?_, ?_⟩, ⟨?_, ?_⟩, ?_⟩ <;>
    decide +kernel

/-- A control block at 0x1000 that 13 R343 accepts: two packets in a ring of 2, and a ring of 2^16 that is full; a loaded slot and a bound
one. -/
theorem witness_QueueSlots :
    let block := fun (log prio : W64) (n : W64) => words [(0x1008, log + 0x100 * prio), (0x1018, n)]
    let s := fun m => sup 0 [(1, 0x1000), (2, 63), (3, 4095)] m
    let loaded := { s [] with qslots := [(63, { state := .loaded, qid := 4095 })] }
    let bound := { s [] with qslots := [(63, { state := .bound, qid := 4095, wridx := 1 })] }
    (∀ m ∈ [block 1 0 2, block 16 7 65536], (s m).Unaccounted ∧ (s m).Issues .s ⟨0, 0⟩ none ∧ (s m).Supervises 0 ∧
      ((s m).slot 63).state = .unbound ∧ (s m).systemRun 0x1000 256 = true ∧
      1 ≤ (s m).memNat 0x1008 1 ∧ (s m).memNat 0x1008 1 ≤ 16 ∧ (s m).memNat 0x1009 1 < 8 ∧ (s m).memNat 0x100A 1 < 8 ∧
      (s m).memNat 0x102C 212 = 0 ∧ (s m).memNat 0x1010 8 ≤ (s m).memNat 0x1018 8 ∧
      (s m).memNat 0x1018 8 ≤ (s m).memNat 0x1010 8 + 2 ^ (s m).memNat 0x1008 1 ∧
      ∀ n, n < 64 → ¬ (((s m).slot n).state = .bound ∧ ((s m).slot n).qid = (s m).memNat 0x100E 2)) ∧
    (loaded.Issues .s ⟨0, 0⟩ none ∧ loaded.Supervises 0 ∧ loaded.Unaccounted ∧ (loaded.slot 63).state = .loaded ∧ (loaded.slot 63).qid = 4095 ∧
      ∀ m, m < 64 → ¬ ((loaded.slot m).state = .bound ∧ (loaded.slot m).qid = 4095)) ∧
    (bound.Issues .s ⟨0, 0⟩ none ∧ bound.Supervises 0 ∧ bound.Unaccounted ∧ (bound.slot 63).state = .bound ∧ (bound.slot 63).launch = none ∧
      bound.systemRun 0x1000 256 = true) ∧
    ∀ i ∈ [Instr.qload ⟨0, 0⟩ ⟨0, 0, 1, 2, 0, 0, 0⟩, .qmap ⟨0, 0⟩ ⟨0, 0, 3, 2, 0, 0, 0⟩, .qsave ⟨0, 0⟩ ⟨0, 0, 1, 2, 0, 0, 0⟩], i.check1 = none := by
  refine ⟨fun m hm => ?_, ⟨issues_of ?_, ⟨?_, ?_, ?_, ?_⟩, unaccounted_of ?_, ?_⟩, ⟨issues_of ?_, ⟨?_, ?_, ?_, ?_⟩, unaccounted_of ?_, ?_⟩, ?_⟩
  · rcases List.mem_cons.mp hm with rfl | hm
    · refine ⟨unaccounted_of ?_, issues_of ?_, ⟨?_, ?_, ?_, ?_⟩, ?_⟩ <;> decide +kernel
    · rcases List.mem_cons.mp hm with rfl | hm
      · refine ⟨unaccounted_of ?_, issues_of ?_, ⟨?_, ?_, ?_, ?_⟩, ?_⟩ <;> decide +kernel
      · cases hm
  all_goals decide +kernel

/-- A tile core's record with the two ends of its codes, a supervisor's, and a log whose first record the core may read or not. -/
theorem witness_LogRecords :
    let low := fun (code cls : W64) => words [(0x1010, code + 0x10000 * cls)]
    let tile' := fun m => { tile { user with cr := { sys := true }, s := [(1, 0x1000), (2, 0)] } with homeMap := [(0, 0x8004)], mem := m, bases := { log := 0x100000 } }
    let sup' := fun m => { sup 1 [(1, 0x1000), (2, 0)] m with bases := { log := 0x100000 } }
    (∀ m ∈ [low 0xF00 0, low 0xFFF 0x10], let s := tile' m
      s.Issues .s ⟨0, 0⟩ none ∧ s.now.cr.sys = true ∧ s.Unaccounted ∧ s.systemRun 0x1000 64 = true ∧
        0x0F00 ≤ s.memNat 0x1010 2 ∧ s.memNat 0x1010 2 ≤ 0x0FFF ∧ s.memNat 0x1012 1 % 4 = 0) ∧
    (∀ m ∈ [low 1 3, low 0xFFFF 0x1F03], let s := sup' m
      s.Issues .s ⟨0, 0⟩ none ∧ s.now.cr.sys = true ∧ s.Unaccounted ∧ s.memNat 0x1010 2 ≠ 0 ∧ s.memNat 0x1012 1 < 4 ∧ s.memNat 0x1013 1 < 32) ∧
    (let s := { sup' [] with logSeq := 1 }
     s.logSeq ≤ 0 + 65536 ∧ 0 < s.logSeq ∧ 576 ≤ s.cur) ∧ (∀ n, ¬ (0 ≤ n ∧ n < (tile' []).logSeq)) ∧
    (Instr.logrApp ⟨0, 0⟩ ⟨0, 3, 1, 0, 0, 0, 0⟩).check1 = none ∧ (Instr.logrRead ⟨0, 0⟩ ⟨0, 3, 1, 2, 0, 1, 0⟩).check1 = none := by
  refine ⟨fun m hm => ?_, fun m hm => ?_, ?_, ?_, ?_⟩
  · rcases List.mem_cons.mp hm with rfl | hm
    · refine ⟨issues_of ?_, ?_, unaccounted_of ?_, ?_⟩ <;> decide +kernel
    · rcases List.mem_cons.mp hm with rfl | hm
      · refine ⟨issues_of ?_, ?_, unaccounted_of ?_, ?_⟩ <;> decide +kernel
      · cases hm
  · rcases List.mem_cons.mp hm with rfl | hm
    · refine ⟨issues_of ?_, ?_, unaccounted_of ?_, ?_⟩ <;> decide +kernel
    · rcases List.mem_cons.mp hm with rfl | hm
      · refine ⟨issues_of ?_, ?_, unaccounted_of ?_, ?_⟩ <;> decide +kernel
      · cases hm
  · decide +kernel
  · intro n h; exact absurd h.2 (Nat.not_lt_zero _)
  · decide +kernel

/-- L2ENT and STATE of the control block of heap 0 of context 5. -/
def size5 (s : State) : Nat × Nat := (s.memNat (s.hcbAddr 5 0 + 4) 1, s.memNat (s.hcbAddr 5 0) 1)

/-- A descriptor at 0x1000 of one object of heap 0 of context 5, from 0x80 to 0x100; the engine idle, active and aborting; the
heap's table too small, the heap busy, and the heap free. -/
theorem witness_RelocationCommands :
    let ctx : List (Nat × W64) := [(0xA00, 1), (0xB00, 0), (0xB08, 1), (0xB10, 0), (0xB18, 0x001B)]
    let desc : List (Nat × W64) := [(0x1000, 0x100050000), (0x1008, 0x2000), (0x2000, 0x80), (0x2008, 0x100)]
    let s := fun (log state : W64) => { sup 0 [(1, 0x1000), (2, 5)] (words (ctx ++ desc ++ [(0x102800, state + 0x100000000 * log)])) with bases := { hcb := 0x100000 } }
    let busy := fun n (m : Option ObjMove) => { s 1 0 with relocs := [(0, { state := n, move := m })] }
    (∀ t ∈ [s 0 0, s 1 1, s 1 0], t.Issues .s ⟨0, 0⟩ none ∧ t.Supervises 0 ∧ t.Unaccounted ∧ (t.now.sReg 1).toNat < 2 ^ 52 ∧ (t.now.sReg 1).toNat % 128 = 0 ∧
      (t.reloc 0).state = 0 ∧ t.systemRun 0x1000 128 = true ∧ t.memNat 0x1022 94 = 0 ∧ t.memNat 0x1000 1 = 0 ∧ t.evacuationOk 0 0x1000 = true) ∧
    (let a := size5 (s 0 0)
     let b := size5 (s 1 1)
     let c := size5 (s 1 0)
     2 ^ a.1 < 2 ∧ 2 ≤ 2 ^ b.1 ∧ b.2 ≠ 0 ∧ 2 ≤ 2 ^ c.1 ∧ c.2 = 0) ∧
    ((busy 1 none).reloc 0).state = 1 ∧ ((busy 2 none).reloc 0).state = 2 ∧ ((busy 3 none).reloc 0).state ≠ 1 ∧
    (let t := s 1 3
     t.now.sReg 2 = 5 ∧ t.ctxState 5 = 1 ∧ t.memNat (t.hcbAddr 5 0) 1 = 3 ∧ (t.hcbAddr 5 0 + 1 < t.ctxEntry 5 + 0x40 ∨ t.ctxEntry 5 + 0x44 ≤ t.hcbAddr 5 0 + 1)) ∧
    ∀ i ∈ [Instr.relocStart ⟨0, 0⟩ ⟨0, 3, 1, 0, 0, 0, 0⟩, .relocQuery ⟨0, 0⟩ ⟨0, 3, 1, 0, 0, 1, 0⟩, .relocAbort ⟨0, 0⟩ ⟨0, 3, 1, 0, 0, 2, 0⟩,
      .fwdpub ⟨0, 0⟩ ⟨0, 0, 2, 0, 0, 0, 0⟩], i.check1 = none := by
  refine ⟨fun t ht => ?_, ?_⟩
  · rcases List.mem_cons.mp ht with rfl | ht
    · refine ⟨issues_of ?_, ⟨?_, ?_, ?_, ?_⟩, unaccounted_of ?_, ?_⟩ <;> decide +kernel
    · rcases List.mem_cons.mp ht with rfl | ht
      · refine ⟨issues_of ?_, ⟨?_, ?_, ?_, ?_⟩, unaccounted_of ?_, ?_⟩ <;> decide +kernel
      · rcases List.mem_cons.mp ht with rfl | ht
        · refine ⟨issues_of ?_, ⟨?_, ?_, ?_, ?_⟩, unaccounted_of ?_, ?_⟩ <;> decide +kernel
        · cases ht
  · decide +kernel

/-- Site 143 of die 3 with an item; drained and marked; the package stepped or not; with patterns or none. -/
theorem witness_PreemptAndScan :
    let s := sup 3 [(1, 143)] []
    let held := { s with cores := (575, user) :: s.cores }
    let marked := { s with whorls := [(3, { phase := .marked 143 0 })] }
    let stepped := { marked with pwr := { level := 1400 } }
    let patterned := { marked with creel := { patterns := 1 } }
    (∀ t ∈ [s, held, marked, stepped, patterned], t.Issues .s ⟨0, 0⟩ none ∧ t.Supervises 3 ∧ t.TargetSite 3 (t.now.sReg 1)) ∧
      (s.core 575).item = none ∧ (held.core 575).item.isSome = true ∧ s.drainedSite 575 = false ∧ marked.drainedSite 575 = true ∧
      stepped.drainedSite 575 = true ∧ stepped.pwr.stepped = true ∧ marked.pwr.stepped = false ∧ marked.creel.patterns = 0 ∧
      patterned.drainedSite 575 = true ∧ patterned.pwr.stepped = false ∧ patterned.creel.patterns ≠ 0 ∧
      (Instr.preempt ⟨0, 0⟩ ⟨0, 0, 1, 0, 0, 0, 0⟩).check1 = none ∧ (Instr.scanrun ⟨0, 0⟩ ⟨0, 3, 1, 0, 0, 0, 0⟩).check1 = none := by
  refine ⟨fun t ht => ?_, ?_⟩
  · simp only [List.mem_cons, List.not_mem_nil, or_false] at ht
    rcases ht with rfl | rfl | rfl | rfl | rfl <;>
      (refine ⟨issues_of ?_, ⟨?_, ?_, ?_, ?_⟩, ⟨?_, ?_⟩⟩ <;> decide +kernel)
  · decide +kernel

/-- A skein of 24 segments for the vector unit of site 37, as in 19 R502, at offset 0x82000 of the creel. -/
def skeined (regs : SMap W64) (n : Nat) : State :=
  { sup 0 regs [] with creel := { bytes := SMap.setList 0 [] 0x82000 (leBytes 4 0x5A534B4E ++ leBytes 4 0x51A7 ++ leBytes 1 1 ++ leBytes 1 0 ++
      leBytes 2 n ++ leBytes 4 deviceStepping ++ leBytes 4 0 ++ leBytes 1 5) } }

/-- A good load with room and without, a load whose header is bad, a release of two segments, of none, and while an item runs, and a site
under a scan pass. That a signature is good is a matter of the keys, which are open (log 25). -/
theorem witness_SkeinLoads (k : W256) (hk : Config.vendorKey 0 = some k) (hs : ∀ b sig, Config.signed k b sig = true) :
    let b : W64 := 37 + 256 * 5
    let s := skeined [(1, 0x82000), (2, b), (3, b + 2 ^ 28), (4, 0xFFFFF000)] 24
    let mine := BitVec.ofNat 64 (2 * 2 ^ 62 + 37 * 2 ^ 52 + 5 * 2 ^ 44 + 0x51A7)
    let owned := { s with segments := [(5, mine), (9, mine)] }
    let busy := { owned with cores := (37, user) :: owned.cores }
    let scan := { s with whorls := [(0, { phase := .scanning 37 0 })] }
    (∀ t ∈ [s, owned, busy, scan], t.Issues .s ⟨0, 0⟩ none ∧ t.Supervises 0 ∧ t.Unaccounted ∧ t.TargetSite 0 37 ∧ t.siteDropped 37 = false) ∧
      (∀ x ∈ [b, b + 2 ^ 28], x.extractLsb' 32 32 = 0 ∧ x.extractLsb' 24 4 = 0 ∧ x.extractLsb' 16 4 = 0 ∧
        (x.extractLsb' 20 4).toNat < unitInstances (x.extractLsb' 8 8).toNat ∧ (x.extractLsb' 28 4).toNat < 2) ∧
      (0xFFFFF000 % 4096 = 0 ∧ 0xFFFFF000 + 256 ≤ 2 ^ 32) ∧ scan.siteScanning 0 37 = true ∧ s.siteScanning 0 37 = false ∧
      (s.skeinCheck 0xFFFFF000).isSome = true ∧ s.skeinCheck 0x82000 = none ∧ s.skein 0x82000 0x14 1 = 5 ∧ s.skein 0x82000 8 1 ≠ 3 ∧
      s.skein 0x82000 0x0A 2 ≤ ((reach 37).filter fun i => segState (s.segment 0 i) == 0).length ∧
      ((reach 37).filter fun i => segState ((skeined [] 81).segment 0 i) == 0).length < (skeined [] 81).skein 0x82000 0x0A 2 ∧
      (let own := fun (t : State) => (List.range 2304).filter fun i => segState (t.segment 0 i) == 2 &&
          ((t.segment 0 i).extractLsb' 0 32).toNat == 0x51A7 && segOwner (t.segment 0 i) == (37, 5, 0)
       own s = [] ∧ own owned = [5, 9] ∧ own busy = [5, 9]) ∧ (owned.core 37).item = none ∧ (busy.core 37).item.isSome = true ∧
      ∀ i ∈ [Instr.skeinldLoad ⟨0, 0⟩ ⟨0, 3, 1, 2, 0, 0, 0⟩, .skeinldRelease ⟨0, 0⟩ ⟨0, 3, 1, 3, 0, 0, 0⟩], i.check1 = none := by
  refine ⟨fun t ht => ?_, ?_, ?_, ?_, ?_, ?_, ?_, ?_⟩
  · simp only [List.mem_cons, List.not_mem_nil, or_false] at ht
    rcases ht with rfl | rfl | rfl | rfl <;>
      (refine ⟨issues_of ?_, ⟨?_, ?_, ?_, ?_⟩, unaccounted_of ?_, ⟨?_, ?_⟩, ?_⟩ <;> decide +kernel)
  · intro x hx
    simp only [List.mem_cons, List.not_mem_nil, or_false] at hx
    rcases hx with rfl | rfl <;> decide +kernel
  · decide +kernel
  · decide +kernel
  · decide +kernel
  · decide +kernel
  · unfold State.skeinCheck
    rw [if_neg (by decide +kernel), if_neg (by decide +kernel)]
    rw [show (skeined [(1, 0x82000), (2, 37 + 256 * 5), (3, 37 + 256 * 5 + 2 ^ 28), (4, 0xFFFFF000)] 24).skein 0x82000 9 1 = 0 by decide +kernel, hk]
    simp only [hs, if_true]
    rfl
  · decide +kernel
theorem place_end : ∀ (l : List (List Byte)) (off : Nat), ∀ q ∈ placeSections off l, q.1 + q.2.length ≤ off + (l.map fun b => b.length + 127).sum
  | [], _, q, h => by cases h
  | b :: l, off, q, h => by
    rw [List.map_cons, List.sum_cons]
    rcases List.mem_cons.mp h with rfl | h
    · simp only; omega
    · have := place_end l _ q h; omega

theorem foldl_end : ∀ (l : List (Nat × List Byte)) (a n : Nat), a ≤ n → (∀ q ∈ l, q.1 + q.2.length ≤ n) →
    l.foldl (fun a q => max a (q.1 + q.2.length)) a ≤ n
  | [], _, _, h, _ => h
  | q :: l, _, n, h, k => foldl_end l _ n (Nat.max_le.mpr ⟨h, k q (List.mem_cons_self ..)⟩) fun r hr => k r (List.mem_cons_of_mem _ hr)

theorem length_same {α β : Type} {f : α → List β} (n : Nat) (h : ∀ a, (f a).length = n) : ∀ l : List α, (l.flatMap f).length = l.length * n
  | [] => by rw [List.flatMap_nil]; simp
  | a :: l => by rw [List.flatMap_cons, List.length_append, h, length_same n h l, List.length_cons, Nat.add_mul]; omega

theorem length_sticky (q : Option Sticky) : (stickyImage q).length = 96 := by
  cases q with
  | none => exact length_leBytes ..
  | some x => simp only [stickyImage, List.length_append, length_leBytes]

theorem length_matrix (m : Matrix) : m.image.length = 917544 := by
  have h : ∀ b : Bank, b.rows.length = 65536 := fun b => by
    rw [Bank.rows, length_same 1024 fun _ => length_leBytes .., List.length_range]
  simp only [Matrix.image, List.length_append, h, SMap.getList_eq, List.length_map, List.length_range,
    length_same 256 fun _ => length_leBytes .., length_same 1 fun _ => length_leBytes .., List.flatMap_cons, List.flatMap_nil,
    List.length_nil, length_leBytes]

/-- The context of ASID 5 live, an image at 0x2000 of an item of it with no section, and a core in its PREEMPT handler. -/
def imaged : State :=
  { tile { user with item := some { item with footprint := 0 }, cr := { sys := true, asid := 5, cause := 0x10 }, s := [(1, 0x2000)] } with
    homeMap := [(0, 0x8004)], mem := words [(0xA00, 1), (0xA10, 0x2000), (0x2000, 0x030201005A435458), (0x2008, 5)] }

theorem length_if {b : Prop} [Decidable b] {x y : List Byte} {n : Nat} (h : x.length = n) (k : y.length = n) : (if b then x else y).length = n := by
  split <;> assumption

theorem sum_bound : ∀ (l : List (List Byte)) (n : Nat), (∀ b ∈ l, b.length ≤ n) → (l.map fun b => b.length + 127).sum ≤ l.length * (n + 127)
  | [], _, _ => Nat.zero_le _
  | b :: l, n, h => by
    have := sum_bound l n fun b hb => h b (List.mem_cons_of_mem _ hb)
    have := h b (List.mem_cons_self ..)
    rw [List.map_cons, List.sum_cons, List.length_cons, Nat.add_mul]; omega

theorem sections_bound (c : Core) (h1 : (c.item.map Item.footprint).getD 0 = 0) (h1' : (c.item.map Item.strands).getD 0 = 0)
    (h2 : c.landings.filter (fun l => l.live) = []) (h3 : c.copies.filter CopyOp.deferred = [])
    (h4 : (c.latch.getD {}).images = []) (h5 : c.portable = false) : ∀ b ∈ c.sections [] [] 0, b.length ≤ 917544 := by
  have h0 : ((List.range 64).filter fun z => (0 : W64).getLsbD z) = [] := by decide
  have w : ∀ i, (leBytes 8 (portableWord [] [] i)).length = 8 := fun _ => length_leBytes ..
  intro b hb
  unfold Core.sections at hb
  simp only [h1, h1', h2, h3, h4, h5, List.mem_cons, List.not_mem_nil, or_false] at hb
  rcases hb with hb | hb | hb | hb | hb | hb | hb | hb | hb | hb | hb | hb | hb | hb
  all_goals rw [hb]; clear hb
  · simp only [List.length_append, length_leBytes, length_same 2 (fun i => length_leBytes 2 (c.region.getD i 0).toNat)]; decide +kernel
  · rw [List.length_append, List.length_append, length_leBytes, length_same 8 fun i => length_if (w _) (length_leBytes ..)]; decide
  · rw [length_same 40 fun i => by rw [List.length_append, length_leBytes, length_if (w _) (length_leBytes ..)]]; decide
  · rw [length_same 16 fun i => by rw [List.length_append, length_leBytes, w]]; decide
  · rw [length_same 16 fun i => by rw [List.length_append, length_leBytes, w]]; decide
  · rw [length_same 1 fun i => length_leBytes ..]; decide
  · rw [length_same 96 fun i => length_sticky _]; decide
  · decide
  · decide
  · refine Nat.le_of_eq ?_; rw [length_matrix]
  · rw [Core.strandImage, h0, List.flatMap_nil]; exact Nat.zero_le _
  · simp only [List.length_append, SMap.getList_eq, Core.feImage, List.length_map, List.length_range]; decide
  · decide
  · decide

theorem image_bound (s : State) (key : Nat) (ho : s.objMap (s.core key).cr.asid = []) (hp : (s.core key).portable = false) :
    ∃ h, s.image key = (0, h) :: placeSections 256 ((s.core key).sections [] [] 0) ∧ h.length = 256 := by
  refine ⟨s.imageHeader key (((s.core key).imageAddrs 0).filter (· ≠ 0) |>.any fun a => (objOf [] a).isNone)
    (placeSections 256 ((s.core key).sections [] [] 0)), ?_, by rw [length_header, length_place]; rfl⟩
  have h : ∀ l : List Nat, l.filterMap (objOf []) = [] := fun l => by
    induction l with
    | nil => rfl
    | cons a l ih => rw [List.filterMap_cons, ih]; rfl
  unfold State.image
  simp only [ho, hp, h, List.eraseDups_nil, Bool.false_eq_true, if_false]

theorem imaged_fits : imaged.systemRun 0x2000 (imageEnd (imaged.image 0)) = true := by
  obtain ⟨h, e, k⟩ := image_bound imaged 0 (by decide +kernel) (by decide +kernel)
  have hb : imageEnd (imaged.image 0) ≤ 2 ^ 28 := by
    refine foldl_end _ 0 _ (Nat.zero_le _) fun q hq => ?_
    rw [e] at hq
    rcases List.mem_cons.mp hq with rfl | hq
    · simp only [k]; decide
    · refine Nat.le_trans (place_end _ _ q hq) ?_
      have := sum_bound _ _ (sections_bound (imaged.core 0) (by decide +kernel) (by decide +kernel) (by decide +kernel) (by decide +kernel)
        (by decide +kernel) (by decide +kernel))
      rw [show ((imaged.core 0).sections [] [] 0).length = 14 from rfl] at this
      omega
  have h0 : (0x2000 + imageEnd (imaged.image 0) - 1) / 2 ^ 29 = 0 := by omega
  unfold State.systemRun
  rw [h0]
  simp only [Bool.and_eq_true, decide_eq_true_eq]
  exact ⟨by omega, by decide +kernel⟩

theorem witness_ContextImages :
    let w : SR := ⟨0, 0, 1, 0, 0, 0, 0⟩
    imaged.Issues .s ⟨0, 0⟩ none ∧ imaged.now.cr.sys = true ∧ imaged.now.supervisor = false ∧ imaged.Unaccounted ∧
      (imaged.now.sReg 1).toNat < 2 ^ 52 ∧ imaged.memNat (imaged.ctxEntry imaged.now.cr.asid + 0x10) 8 = (imaged.now.sReg 1).toNat ∧
      (Instr.ctxsave ⟨0, 0⟩ w).check1 = none ∧ imaged.now.cr.cause = 0x10 ∧ imaged.now.saveReady = true ∧
      imaged.systemRun (imaged.now.sReg 1).toNat (imageEnd (imaged.image imaged.cur)) = true ∧
      (Instr.ctxload ⟨0, 0⟩ w).check1 = none ∧ (Instr.ctxsave ⟨0, 0⟩ { w with a := 0 }).check1 = none ∧
      imaged.systemRun (imaged.now.sReg 1).toNat 256 = true ∧ imaged.imageOk (imaged.now.sReg 1).toNat = true ∧
      imaged.memNat (0x2000 + 0x0A) 2 % 2 = 0 := by
  refine ⟨issues_of ?_, ?_, ?_, unaccounted_of ?_, ?_, ?_, ?_, ?_, ?_, imaged_fits, ?_⟩ <;> decide +kernel

/-- A core in which every beat of strands 1, 2 and 3 is the one given, with a fabric tag of 16 bits and fabric operation 15. -/
def beats (a b c : Beat) : State :=
  tile { user with fmtBits := [(1, 16)], timing := [(32 + 31, 6), (64 + 31, 6)], strands := [(1, a), (2, b), (3, c)].flatMap fun q => (List.range 20).map fun i => (20 * q.1 + i, q.2) }

/-- A beat whose data have one bit in each of 512 bytes. -/
def full (t : Tag) : Beat := { data := BitVec.ofNat 4096 ((256 ^ 512 - 1) / 255), side := 0, tag := t }

/-- The last 512 bytes of the scratchpad, their granules full, and a beat of FP32. -/
theorem witness_VectorMemory :
    let s := tile { user with s := [(1, 0x1FFE00 + 0x10000)], fe := (List.range 32).map fun i => (0x1FFE0 + i, true), strands := (List.range 20).map fun i => (80 + i, full 0x08) }
    let w : VM := ⟨3, 4, 1, 2, -0x1000, 0⟩
    (∀ v : VSlot, s.Issues v.slot ⟨0, 0⟩ (some (vRow v, 7, 3))) ∧ s.now.SpadOk (s.now.sReg 1 + w.off.signExtend 64 * 16) 512 ∧
      (∀ v : VSlot, (Instr.vld v ⟨0, 0⟩ w).check1 = none ∧ (Instr.vld v ⟨0, 0⟩ { w with qf := 0 }).check1 = none ∧
        (Instr.vst v ⟨0, 0⟩ { w with qf := 1 }).check1 = none) ∧
      (∀ i, i < 32 → s.now.feBit ((s.now.sReg 1 + w.off.signExtend 64 * 16).toNat / 16 + i) = true) ∧
      s.now.tagKnown (s.now.beatAt 4 (ringAt 17 s.now.bt)).tag = true := by
  refine ⟨fun v => issues_of ?_, ⟨?_, ?_⟩, fun v => ?_, ?_, ?_⟩
  · cases v <;> decide +kernel
  · decide +kernel
  · decide +kernel
  · cases v <;> decide +kernel
  · decide +kernel
  · decide +kernel

/-- Elements of 16 and 32 bits permuted, the last element broadcast, shuffles with the greatest rotation and of RAW, and a select by UINT32. -/
theorem witness_VectorMoves (v : VSlot) :
    let w : VR := ⟨2, 4, 1, 2, 3, 0, 0, 0, 0⟩
    let u : VR := ⟨2, 4, 1, 0, 0, 0, 0, 0, 0⟩
    let p := beats (full 0x31) (full 0x05) {}
    let q := beats (full 0x06) (full 0x05) {}
    let r := beats (full 0x0B) (full 0x0B) {}
    let x := beats (full 0x01) (full 0x01) {}
    let y := beats (full 0x08) (full 0x08) (full 0x07)
    (∀ t ∈ [p, q, r, x, y], t.Issues v.slot ⟨0, 0⟩ (some (vRow v, 0, 2)) ∧ t.now.tagKnown (t.tapped v 1).tag = true ∧
        (isPlainTag (t.tapped v 1).tag || isFmt (t.tapped v 1).tag) = true) ∧
      p.now.tagKnown 0x31 = true ∧ (p.now.tagBits (p.tapped v 1).tag = 16 ∧ isFmt (p.tapped v 1).tag = true ∧ (p.tapped v 2).tag = 0x05) ∧
      (q.now.tagBits (q.tapped v 1).tag = 32 ∧ isI (q.tapped v 1).tag = true ∧ (q.tapped v 2).tag = 0x05) ∧
      (isF 0x08 = true ∧ isF8 0x0B = true ∧ isI 7 = true) ∧ 511 < tagCount (r.tapped v 1).tag ∧ (r.tapped v 2).tag = (r.tapped v 1).tag ∧
      (x.tapped v 2).tag = (x.tapped v 1).tag ∧ ((y.tapped v 2).tag = (y.tapped v 1).tag ∧ isI (y.tapped v 3).tag = true ∧
        (y.tapped v 3).tag = 7 ∧ tagWidth (y.tapped v 3).tag = tagWidth (y.tapped v 1).tag) ∧
      ∀ i ∈ [Instr.vmov v ⟨0, 0⟩ u, .vtag v ⟨0, 0⟩ { u with tag := 0x31 }, .vperm v ⟨0, 0⟩ { w with zc := 0 },
        .vbcstScalar v ⟨0, 0⟩ { u with tag := 1 }, .vbcstScalar v ⟨0, 0⟩ { u with tag := 8 }, .vbcstElement v ⟨0, 0⟩ { u with fn := 511 + 0x1000 },
        .vshuf v ⟨0, 0⟩ { w with zc := 0, fn := 3 }, .vshuf v ⟨0, 0⟩ { w with zc := 0, fn := 4 + 8 * 511 }, .vsel v ⟨0, 0⟩ w], i.check1 = none := by
  refine ⟨fun t ht => ?_, ?_⟩
  · simp only [List.mem_cons, List.not_mem_nil, or_false] at ht
    rcases ht with rfl | rfl | rfl | rfl | rfl <;> refine ⟨issues_of ?_, ?_⟩ <;> cases v <;> decide +kernel
  · cases v <;> decide +kernel

/-- FP32 kept, BF16 kept and widened to FP32 from either half, and a raw accumulator. -/
theorem witness_VectorFloat (v : VSlot) :
    let w : VR := ⟨6, 4, 1, 2, 3, 0, 0, 1, 0⟩
    let x := beats (full 0x08) (full 0x08) (full 0x08)
    let y := beats (full 0x09) (full 0x09) (full 0x09)
    let z := beats (full 0x20) (full 0x08) (full 0x20)
    (∀ t ∈ [x, y, z], t.Issues v.slot ⟨0, 0⟩ (some (vRow v, 3, 6)) ∧ t.Issues v.slot ⟨0, 0⟩ (some (vRow v, 0, 6)) ∧
      t.Issues v.slot ⟨0, 0⟩ (some (vRow v, 1, 6)) ∧ isF (t.tapped v 1).tag = true ∧ isF (t.tapped v 2).tag = true ∧ isF (t.tapped v 3).tag = true ∧
      normTag (t.tapped v 2).tag = normTag (t.tapped v 1).tag ∧ normTag (t.tapped v 3).tag = normTag (t.tapped v 1).tag) ∧
      (w.tag = 0 ∧ w.fn.getLsbD 0 = false) ∧ normTag (y.tapped v 1).tag = 0x09 ∧ ({ w with tag := 8, fn := 1 } : VR).fn.getLsbD 0 = true ∧
      ∀ i ∈ [Instr.vadd v ⟨0, 0⟩ { w with zc := 0 }, .vsub v ⟨0, 0⟩ { w with zc := 0 }, .vmul v ⟨0, 0⟩ { w with zc := 0, tag := 8 }, .vfma v ⟨0, 0⟩ w,
        .vfms v ⟨0, 0⟩ { w with tag := 8, fn := 1 }, .vmin v ⟨0, 0⟩ { w with zc := 0, sat := 0 }, .vmax v ⟨0, 0⟩ { w with zc := 0, sat := 0 },
        .vabs v ⟨0, 0⟩ { w with zb := 0, zc := 0, sat := 0 }, .vneg v ⟨0, 0⟩ { w with zb := 0, zc := 0, sat := 0 },
        .vcmp v ⟨0, 0⟩ { w with zc := 0, sat := 0, fn := 6 }], i.check1 = none := by
  refine ⟨fun t ht => ?_, ?_⟩
  · simp only [List.mem_cons, List.not_mem_nil, or_false] at ht
    rcases ht with rfl | rfl | rfl <;> refine ⟨issues_of ?_, issues_of ?_, issues_of ?_, ?_⟩ <;> cases v <;> decide +kernel
  · cases v <;> decide +kernel

/-- INT8 and UINT32 elements, the bits of RAW beats, and the greatest shift count. -/
theorem witness_VectorInteger (v : VSlot) :
    let w : VR := ⟨6, 4, 1, 2, 0, 0, 0, 0, 0⟩
    let x := beats (full 0x02) (full 0x02) (full 0x02)
    let y := beats (full 0x07) (full 0x07) (full 0x07)
    let z := beats (full 0x01) (full 0x01) {}
    (∀ t ∈ [x, y, z], t.Issues v.slot ⟨0, 0⟩ (some (vRow v, 1, 6)) ∧ t.Issues v.slot ⟨0, 0⟩ (some (vRow v, 2, 6)) ∧
      (t.tapped v 2).tag = (t.tapped v 1).tag) ∧
      isI (x.tapped v 1).tag = true ∧ isI (y.tapped v 1).tag = true ∧ (z.tapped v 1).tag = 0x01 ∧ (y.tapped v 3).tag = (y.tapped v 1).tag ∧
      ∀ i ∈ [Instr.viadd v ⟨0, 0⟩ { w with sat := 1 }, .visub v ⟨0, 0⟩ w, .vimin v ⟨0, 0⟩ w, .vimax v ⟨0, 0⟩ w, .vicmp v ⟨0, 0⟩ { w with fn := 5 },
        .vand v ⟨0, 0⟩ w, .vor v ⟨0, 0⟩ w, .vxor v ⟨0, 0⟩ w, .vshl v ⟨0, 0⟩ { w with zb := 0, fn := 31 }, .vshr v ⟨0, 0⟩ { w with zb := 0, fn := 7 },
        .vsar v ⟨0, 0⟩ { w with zb := 0 }, .vimul v ⟨0, 0⟩ { w with sat := 1 }, .vimad v ⟨0, 0⟩ { w with zc := 3 }], i.check1 = none := by
  refine ⟨fun t ht => ?_, ?_⟩
  · simp only [List.mem_cons, List.not_mem_nil, or_false] at ht
    rcases ht with rfl | rfl | rfl <;> refine ⟨issues_of ?_, issues_of ?_, ?_⟩ <;> cases v <;> decide +kernel
  · cases v <;> decide +kernel

/-- The last part of each pair: FP16 to FP32 and back, FP32 to ZB2 of 1,024 elements, ZB8 to FP16, UINT8 to INT32; quantised with the
scales of b and without; the three forms of VMXI, the last scale group of each. -/
theorem witness_VectorConversions (v : VSlot) :
    let w : VR := ⟨6, 4, 1, 0, 0, 0, 0, 0, 0⟩
    let x := fun (a d : Tag) => beats (full a) (full 0x18) (full d)
    let last := fun (a d : Tag) (h first dst n : Nat) => (x a d).Issues v.slot ⟨0, 0⟩ (some (vRow v, 4, 6)) ∧
      ((x a d).tapped v 3).tag = d ∧ ((x a d).tapped v 2).tag = 0x18 ∧ Placed (tagCount ((x a d).tapped v 1).tag) (tagCount d) h first dst n
    (last 0x0A 0x08 1 128 0 128 ∧ cvtPair 0x0A 0x08 = true ∧ isZ 0x08 = false ∧ (Instr.vcvt v ⟨0, 0⟩ { w with tag := 0x08, fn := 9, sat := 1 }).check1 = none) ∧
      (last 0x08 0x0A 1 0 128 128 ∧ cvtPair 0x08 0x0A = true ∧ isZ 0x0A = false ∧ (Instr.vcvt v ⟨0, 0⟩ { w with tag := 0x0A, zc := 3, fn := 1, rm := 5 }).check1 = none) ∧
      (last 0x08 0x10 7 0 896 128 ∧ cvtPair 0x08 0x10 = true ∧ isZ 0x10 = true ∧ (Instr.vcvt v ⟨0, 0⟩ { w with tag := 0x10, zc := 3, fn := 7 }).check1 = none) ∧
      (last 0x16 0x0A 1 256 0 256 ∧ cvtPair 0x16 0x0A = true ∧ (Instr.vcvt v ⟨0, 0⟩ { w with tag := 0x0A, fn := 9 }).check1 = none) ∧
      (last 0x03 0x06 3 384 0 128 ∧ cvtPair 0x03 0x06 = true ∧ isI 0x06 = true ∧ isI 0x03 = true ∧ (Instr.vcvt v ⟨0, 0⟩ { w with tag := 0x06, fn := 11 }).check1 = none) ∧
      (last 0x0B 0x16 0 0 0 512 ∧ isF8 ((x 0x0B 0x16).tapped v 1).tag = true ∧ ({ w with fn := 0x30 } : VR).fn.getLsbD 4 = true ∧
        (Instr.vqzb v ⟨0, 0⟩ { w with tag := 0x16, zb := 2, zc := 3, fn := 0x30 }).check1 = none ∧ (Instr.vqzb v ⟨0, 0⟩ { w with tag := 0x16, fn := 8 }).check1 = none ∧
        ({ w with fn := 8 } : VR).fn.getLsbD 4 = false) ∧
      (last 0x0B 0x16 0 0 0 512 ∧ last 0x0C 0x10 1 0 512 512 ∧ Placed 1024 (tagCount 0x16) 1 512 0 512 ∧ (x 0x01 0x16).Issues v.slot ⟨0, 0⟩ (some (vRow v, 4, 6)) ∧
        ((x 0x01 0x16).tapped v 1).tag = 0x01 ∧ 32 * 15 + (0 + 512 - 1) / 32 < 512 ∧ 32 * 15 + (512 + 512 - 1) / 32 < 512 ∧
        (Instr.vmxi v ⟨0, 0⟩ { w with tag := 0x16, zb := 2, zc := 3, fn := 0x3C0 }).check1 = none ∧
        (Instr.vmxi v ⟨0, 0⟩ { w with tag := 0x10, zb := 2, zc := 3, fn := 0x3D1 }).check1 = none ∧
        (Instr.vmxi v ⟨0, 0⟩ { w with tag := 0x16, zb := 2, fn := 0x3E9 }).check1 = none) := by
  refine ⟨⟨⟨issues_of ?_, ?_⟩, ?_⟩, ⟨⟨issues_of ?_, ?_⟩, ?_⟩, ⟨⟨issues_of ?_, ?_⟩, ?_⟩, ⟨⟨issues_of ?_, ?_⟩, ?_⟩, ⟨⟨issues_of ?_, ?_⟩, ?_⟩,
    ⟨⟨issues_of ?_, ?_⟩, ?_⟩, ⟨issues_of ?_, ?_⟩, ⟨issues_of ?_, ?_⟩, ?_, issues_of ?_, ?_⟩ <;> (try simp only [Placed]) <;> cases v <;> decide +kernel

/-- Headers at the last place of a beat; an exponent offset at both ends; the last half of the maxima; fabric operation 15, with a skein
that taps what it may, and one that drives a beat or none (log 11). -/
theorem witness_VectorScales (v : VSlot) (hf : ∀ i z n, Config.freeBits i z n = 0) :
    let w : VR := ⟨6, 4, 1, 0, 0, 0, 0, 0, 0⟩
    let x := beats (full 0x10) (full 0x01) (full 0x18)
    let y := beats (full 0x16) (full 0x01) (full 0x18)
    let z := beats (full 0x09) (full 0x01) (full 0x18)
    (∀ t ∈ [x, y, z], t.Issues v.slot ⟨0, 0⟩ (some (vRow v, 4, 6)) ∧ t.Issues v.slot ⟨0, 0⟩ (some (vRow v, 16 + 15, 6)) ∧
      t.now.tagKnown (t.tapped v 1).tag = true ∧ t.now.tagKnown (t.tapped v 2).tag = true ∧ (t.tapped v 3).tag = 0x18) ∧
      (isZ (x.tapped v 1).tag = true ∧ 64 * 6 + 2 * zbBlocks (zbM (x.tapped v 1).tag) ≤ 512 ∧ isZ (y.tapped v 1).tag = true ∧
        64 * 7 + 2 * zbBlocks (zbM (y.tapped v 1).tag) ≤ 512 ∧ isF (z.tapped v 1).tag = true) ∧
      ((7 + 1) * (tagCount (x.tapped v 1).tag / 16) ≤ 512 ∧ (31 + 1) * (tagCount (z.tapped v 1).tag / 16) ≤ 512) ∧
      (Config.freeBits z.free (8 * 40 + v.slot.idx) 1 ≠ 1 ∧ Config.freeBits z.free (8 * 51 + v.slot.idx) 1 ≠ 1) ∧
      ∀ i ∈ [Instr.vscget v ⟨0, 0⟩ { w with zb := 2, fn := 6 }, .vscget v ⟨0, 0⟩ { w with zb := 2, fn := 7 }, .vscset v ⟨0, 0⟩ { w with zb := 2, tag := 0x16, fn := 7 },
        .vscadd v ⟨0, 0⟩ { w with fn := 0x100, sat := 1 }, .vscadd v ⟨0, 0⟩ { w with fn := 0xFF, rm := 1 }, .vscmax v ⟨0, 0⟩ { w with zc := 3, fn := 7 },
        .vscmax v ⟨0, 0⟩ { w with zc := 3, fn := 31 }, .fx 15 v ⟨0, 0⟩ { w with zb := 2, zc := 3 }], i.check1 = none := by
  refine ⟨fun t ht => ?_, ?_, ?_, ?_, ?_⟩
  · simp only [List.mem_cons, List.not_mem_nil, or_false] at ht
    rcases ht with rfl | rfl | rfl <;> refine ⟨issues_of ?_, issues_of ?_, ?_⟩ <;> cases v <;> decide +kernel
  · cases v <;> decide +kernel
  · cases v <;> decide +kernel
  · exact ⟨by rw [hf]; decide, by rw [hf]; decide⟩
  · cases v <;> decide +kernel

/-- Groups of 2 and of the whole beat, accumulated or not; sums kept and widened, and transcendentals of FP32 and FP16. -/
theorem witness_VectorReductions (v : VSlot) :
    let w : VR := ⟨12, 4, 1, 0, 3, 0, 0, 0, 0x11⟩
    let x := beats (full 0x08) {} (full 0x08)
    let y := beats (full 0x0A) {} (full 0x08)
    let z := beats (full 0x02) {} (full 0x06)
    let u := beats (full 0x05) {} (full 0x05)
    (∀ t ∈ [x, y, z, u], t.Issues v.slot ⟨0, 0⟩ (some (vRow v, 5, 12)) ∧ t.Issues v.slot ⟨0, 0⟩ (some (vRow v, 6, 12)) ∧ 2 ^ 1 ≤ tagCount (t.tapped v 1).tag) ∧
      2 ^ 7 = tagCount (x.tapped v 1).tag ∧ (isF (x.tapped v 1).tag = true ∧ (x.tapped v 3).tag = normTag (x.tapped v 1).tag) ∧
      (isF (y.tapped v 1).tag = true ∧ normTag (y.tapped v 1).tag = 0x0A ∧ (y.tapped v 3).tag = 0x08 ∧ tagCount (y.tapped v 1).tag / 2 ≤ tagCount 0x08) ∧
      (isI (z.tapped v 1).tag = true ∧ (z.tapped v 1).tag = 2 ∧ (z.tapped v 3).tag = 6 ∧ tagCount (z.tapped v 1).tag / 2 ^ 2 ≤ tagCount 0x06) ∧
      (isI (u.tapped v 1).tag = true ∧ (u.tapped v 3).tag = normTag (u.tapped v 1).tag) ∧
      (∀ i ∈ [Instr.vrsum v ⟨0, 0⟩ w, .vrsum v ⟨0, 0⟩ { w with tag := 8, rm := 5 }, .vrsum v ⟨0, 0⟩ { w with tag := 6, fn := 0x12, sat := 1 },
        .vrsum v ⟨0, 0⟩ { w with zc := 0, fn := 7 }, .vrmax v ⟨0, 0⟩ w, .vrmin v ⟨0, 0⟩ { w with zc := 0, fn := 7 }], i.check1 = none) ∧
      ∀ i ∈ [Instr.vexp2 v ⟨0, 0⟩ { w with zc := 0, fn := 0 }, .vlog2 v ⟨0, 0⟩ { w with zc := 0, fn := 0 }, .vrcp v ⟨0, 0⟩ { w with zc := 0, fn := 0 },
        .vrsq v ⟨0, 0⟩ { w with zc := 0, fn := 0 }, .vsin v ⟨0, 0⟩ { w with zc := 0, fn := 0 }, .vcos v ⟨0, 0⟩ { w with zc := 0, fn := 0, sat := 1 }], i.check1 = none := by
  refine ⟨fun t ht => ?_, ?_⟩
  · simp only [List.mem_cons, List.not_mem_nil, or_false] at ht
    rcases ht with rfl | rfl | rfl | rfl <;> refine ⟨issues_of ?_, issues_of ?_, ?_⟩ <;> cases v <;> decide +kernel
  · cases v <;> decide +kernel

/-- Row 1 with ZB8 beats on strand 1, plane 7 loaded, knot 2 RESOLVED, and the last place of a plane and of its headers. -/
theorem witness_MatrixIssues :
    let s := tile { user with
      s := [(1, 0x1F0000)], strands := (List.range 20).map fun i => (20 + i, full 0x16), mx := { tags := [(7, 0x10)] }
      kn := [(2, { state := .resolved }), (4, { state := .pending, source := 1, count := 1 })] }
    let w : MW := ⟨16, 4, 2, 0, 0, 1, 1, 7, 1, 0⟩
    let a := (s.now.sReg 1).toNat
    s.now.KnotsAllow (maskKnots w.cmask w.kc0 w.kc1 w.kc2) w.kp 1 ∧ (∀ cls, cls < 5 → s.Issues .m ⟨0, 0⟩ (some (3, cls, 64))) ∧
      (a % 512 = 0 ∧ a + 65536 ≤ 2097152) ∧ (0 ≤ (a : Int) + 32768 * (0x11 : BitVec 5).toInt ∧ (a : Int) + 32768 * (0x01 : BitVec 5).toInt + 8192 * 4 ≤ 2097152) ∧
      isZ (s.now.beatAt w.za (ringAt 7 s.now.bt)).tag = true ∧ SMap.get 0 s.now.mx.tags w.pl.toNat ≠ 0 ∧
      ∀ i ∈ [Instr.mlb ⟨0, 0⟩ { w with ab := 0, fn := 0x21 }, .mlb ⟨0, 0⟩ { w with ab := 0, fn := 0xF1 }, .msel ⟨0, 0⟩ { w with za := 0, pl := 0, fn := 0xFF }, .mac ⟨0, 0⟩ w,
        .macn ⟨0, 0⟩ w, .macz ⟨0, 0⟩ w, .mrd ⟨0, 0⟩ { w with pl := 0, fn := 0x7F }, .mrdSteps ⟨0, 0⟩ { w with pl := 0, fn := 0x80 }, .mdr ⟨0, 0⟩ { w with pl := 0, fn := 0x3F },
        .mdr ⟨0, 0⟩ { w with pl := 0, fn := 0x40 }, .mdr ⟨0, 0⟩ { w with pl := 0, fn := 0x80 }, .mdr ⟨0, 0⟩ { w with pl := 0, fn := 0xFF }, .mclr ⟨0, 0⟩ { w with za := 0, pl := 0 },
        .mmode ⟨0, 0⟩ { w with za := 0, pl := 0, fn := 0x0D }], i.check1 = none := by
  refine ⟨⟨?_, ?_, ?_⟩, fun cls h => issues_of ?_, ?_⟩
  · decide +kernel
  · decide +kernel
  · decide +kernel
  · have : ∀ n : Fin 5, issues (tile { user with
      s := [(1, 0x1F0000)], strands := (List.range 20).map fun i => (20 + i, full 0x16), mx := { tags := [(7, 0x10)] }
      kn := [(2, { state := .resolved }), (4, { state := .pending, source := 1, count := 1 })] }) .m ⟨0, 0⟩ (some (3, n.val, 64)) = true := by decide +kernel
    exact this ⟨cls, h⟩
  · decide +kernel

/-- Every job is the oldest of an engine that holds it, whatever its operands. -/
theorem witness_MatrixPerforms : ∀ job : MJob, ∃ (s : State) (o : MOp) (l : List MOp), (s.core 0).mq = o :: l ∧ o.job = job :=
  fun job => ⟨tile { user with mq := [⟨job, 4, 7, 1, 0⟩] }, ⟨job, 4, 7, 1, 0⟩, [], rfl, rfl⟩

/-- `Core.Reaches` as a test. -/
def reaches (c : Core) (a : W64) (align n : Nat) (need : Need) (classes : List RangeClass) : Bool :=
  decide (a.toNat % align = 0) && decide (a.toNat < 2 ^ 58) && (isGlobal a || decide (a.toNat + n ≤ c.spadSize)) &&
    (!isGlobal a || match findRange c.ranges (addrOf a) 0 8 with
      | some g => need.ok (g.getLsbD 192) (g.getLsbD 193) (g.getLsbD 194) && decide ((addrOf a).toNat + n ≤ (rangeBounds g).2 * 65536) &&
          decide (rangeClass g ∈ classes)
      | none => false)

theorem reaches_of {c : Core} {a : W64} {align n : Nat} {need : Need} {classes : List RangeClass} (h : reaches c a align n need classes = true) :
    c.Reaches a align n need classes := by
  simp only [reaches, Bool.and_eq_true, decide_eq_true_eq, Bool.or_eq_true, Bool.not_eq_true'] at h
  obtain ⟨⟨⟨h1, h2⟩, h3⟩, h4⟩ := h
  refine ⟨h1, h2, fun k => h3.resolve_left (by simp [k]), fun k => ?_⟩
  have h4 := h4.resolve_left (by simp [k])
  cases e : findRange c.ranges (addrOf a) 0 8 with
  | none => rw [e] at h4; cases h4
  | some g =>
    rw [e] at h4
    simp only [Bool.and_eq_true, decide_eq_true_eq] at h4
    exact ⟨g, rfl, h4.1.1, h4.1.2, h4.2⟩

/-- `Core.Holds` as a test. -/
def holds (c : Core) (h : Handle) (l : List (Nat × Nat × Nat × Nat)) (runs : List (Int × Nat)) (need : Need) (classes : List RangeClass) : Bool :=
  h.usable && decide (h.runsAt l = some runs) && (runs.all fun q => decide (0 ≤ q.1) && decide (q.1 + q.2 ≤ if h.global then 2 ^ 57 else (c.spadSize : Int))) &&
    match runs with
    | [] => true
    | q :: rest => !h.global || match findRange c.ranges (BitVec.ofNat 57 q.1.toNat) 0 8 with
      | some g => need.ok (g.getLsbD 192) (g.getLsbD 193) (g.getLsbD 194) && decide ((BitVec.ofNat 57 q.1.toNat).toNat + q.2 ≤ (rangeBounds g).2 * 65536) &&
          decide (rangeClass g ∈ classes) && rest.all fun x => decide ((rangeBounds g).1 * 65536 ≤ x.1.toNat) && decide (x.1.toNat + x.2 ≤ (rangeBounds g).2 * 65536)
      | none => false

theorem holds_of {c : Core} {h : Handle} {l : List (Nat × Nat × Nat × Nat)} {runs : List (Int × Nat)} {need : Need} {classes : List RangeClass}
    (k : holds c h l runs need classes = true) : c.Holds h l runs need classes := by
  simp only [holds, Bool.and_eq_true, decide_eq_true_eq, List.all_eq_true] at k
  obtain ⟨⟨⟨k1, k2⟩, k3⟩, k4⟩ := k
  refine ⟨k1, k2, k3, fun q rest e hg => ?_⟩
  subst e
  simp only [hg, Bool.not_true, Bool.false_or] at k4
  cases e : findRange c.ranges (BitVec.ofNat 57 q.1.toNat) 0 8 with
  | none => rw [e] at k4; cases k4
  | some g =>
    rw [e] at k4
    simp only [Bool.and_eq_true, decide_eq_true_eq, List.all_eq_true] at k4
    exact ⟨g, rfl, k4.1.1.1, k4.1.1.2, k4.1.2, fun x hx => k4.2 x hx⟩

/-- A tensor handle of FP32 rows. -/
def tensor (g : BitVec 1) (base : BitVec 57) (ext0 ext1 : Nat) : W256 :=
  0#2 ++ 0#3 ++ 0#3 ++ 0#24 ++ 0#24 ++ 0#24 ++ BitVec.ofNat 24 ext0 ++ 1#24 ++ 1#16 ++ 1#16 ++ BitVec.ofNat 16 ext1 ++ BitVec.ofNat 16 ext0 ++ 0x08#6 ++ g ++ base

/-- PLAIN memory of 4 MiB at 64 KiB, a peer's memory after it and a multicast group's after that; handles of 4 by 2 FP32 elements in
scratchpad, in memory and at the peer; a launch with a queue of 4. -/
def copying : State :=
  { tile { user with
      s := [(1, 0x1FFFF0), (2, 2 ^ 57 + 0x40FFF0), (3, 16), (4, 2 ^ 57 + 0x410000), (5, 2097152), (6, 2 ^ 57 + 0x10000), (7, 2 ^ 57 + 0x810000),
        (8, 0x4001FFFF0), (9, 2 ^ 57 + 0x80FF80), (10, 0x20800000080), (11, 0x700200000), (12, 4), (13, 0x1FFFC0), (14, 8)]
      spad := [(0x1FFFF0, 2)]
      h := [(1, tensor 0 0x1FFFE0 4 2), (2, tensor 1 0x40FFE0 4 2), (3, tensor 1 0x80FFE0 4 2)]
      kn := [(2, { state := .resolved }), (3, { state := .failed })]
      ranges := [(0, range 1 0x41 5 0 true true false), (1, range 0x41 0x81 0x41 3 true true false ||| BitVec.ofNat 256 (2 ^ 236)),
        (2, range 0x81 0xC1 0x81 3 true true false ||| BitVec.ofNat 256 (2 ^ 255))] } with
    qslots := [(0, { state := .bound, launch := some { code := 0, codeOff := 0, dataVa := 0, widths := [1], gang := 0, footprint := 0, strands := 0, stages := [{ qcap := 4 }], widbase := 0, total := 1, qbase := 0, done := 0, seed := 0, args := [] } })] }

/-- The ends of the scratchpad and of the ranges, the smallest and largest counts, a list with a row that is not there, and the knots that
KWAIT waits for and clears. -/
theorem witness_CopyIssues (cs : CSlot) :
    let c := copying.now
    let here : List RangeClass := [.plain, .managed, .host]
    let anywhere : List RangeClass := [.plain, .managed, .host, .remote]
    let w : CW := ⟨5, 2, 0, 0, 1, 0, 0, 3, 0⟩
    let x := c.sReg
    let d := c.handle (c.hReg 1)
    let t := c.handle (c.hReg 2)
    let u := c.handle (c.hReg 3)
    let row : Int → List (Int × Nat) := fun b => (List.range 8).map fun (i : Nat) => (b + 4 * (i : Int), 4)
    let first : Int → List (Int × Nat) := fun b => (List.range 12).map fun i => (b + 4 * ((i % 4 : Nat) : Int), 4)
    let rows := (List.range 4).map fun k => leNat (SMap.getList 0 c.spad (0x1FFFF0 + 4 * k) 4)
    c.KnotsAllow (maskKnots w.cmask w.kc0 w.kc1 w.kc2) w.kp (engineSource (c.engineOf cs)) ∧
      (c.copies.filter fun o => o.engine == c.engineOf cs).length < 64 ∧ copying.Issues cs.slot ⟨0, 0⟩ none ∧
      ((x 3).toNat % 2 ^ 22 = 16 ∧ (x 5).toNat % 2 ^ 22 = 2097152 ∧ (x 5).toNat < 2 ^ 22) ∧
      (c.Reaches (x 1) 16 16 .w here ∧ c.Reaches (x 2) 16 16 .r here ∧ c.Reaches (x 0) 16 2097152 .w here ∧ c.Reaches (x 6) 16 2097152 .r here ∧
        c.Reaches (x 4) 16 16 .w anywhere ∧ c.Reaches (x 1) 16 16 .r anywhere ∧ c.isRemote (x 4) ≠ c.isRemote (x 1)) ∧
      (c.tagKnown d.tag = true ∧ t.tag = d.tag ∧ u.tag = d.tag ∧ d.SameExtents t ∧ d.SameExtents u ∧ c.Holds d d.indices (row 0x1FFFE0) .w here ∧
        c.Holds t t.indices (row 0x40FFE0) .r here ∧ c.Holds d d.indices (row 0x1FFFE0) .w anywhere ∧ c.Holds u u.indices (row 0x80FFE0) .r anywhere ∧
        c.handleRemote d d.indices ≠ c.handleRemote u u.indices) ∧
      ((x 8).extractLsb' 48 16 = 0 ∧ (x 8).extractLsb' 21 11 = 0 ∧ ((x 8).extractLsb' 32 16).toNat = 4 ∧ ((x 8).extractLsb' 0 21).toNat = 0x1FFFF0 ∧
        0x1FFFF0 + 4 * 4 ≤ c.spadSize ∧ rows = [2, 0, 0, 0] ∧ isZ t.tag = false ∧ t.stepmode < 2 ∧ u.stepmode < 2 ∧ t.ext0 * t.width % 128 = 0 ∧
        u.ext0 * u.width % 128 = 0 ∧ t.ext1 = 2 ∧
        c.Holds t (t.rowsElems rows) (first 0x40FFE0) .r here ∧ c.Holds t (t.rowsElems rows) (first 0x40FFE0) .w here ∧
        c.Holds u (u.rowsElems rows) (first 0x80FFE0) .r [.remote] ∧ c.Holds u (u.rowsElems rows) (first 0x80FFE0) .w [.remote] ∧ u.global = true ∧
        c.Reaches (x 0) 16 (4 * rowBytes t) .w here ∧ c.Reaches (x 0) 16 (4 * rowBytes t) .r here) ∧
      (isGlobal (x 9) = true ∧ c.Reaches (x 9) 128 128 .w [.plain, .remote] ∧ c.namesGroup (x 9) = false ∧ c.Reaches (x 0) 128 128 .r here ∧
        (x 10).extractLsb' 32 6 = 0x08 ∧ (x 10).extractLsb' 40 2 ≠ 3 ∧ (x 10).extractLsb' 42 22 = 0 ∧ (x 10).extractLsb' 38 2 = 0 ∧
        (x 10).extractLsb' 22 10 = 0 ∧ (x 10).toNat % 2 ^ 22 = 128) ∧
      (isGlobal (x 6) = true ∧ c.Reaches (x 6) 128 2097152 .w [.plain, .remote] ∧ c.namesGroup (x 6) = false ∧ c.Reaches (x 0) 128 2097152 .r here ∧
        (x 11).extractLsb' 32 6 = 0x07 ∧ (x 11).extractLsb' 40 2 ≠ 3 ∧ (x 11).extractLsb' 42 22 = 0 ∧ (x 11).extractLsb' 38 2 = 0 ∧
        (x 11).extractLsb' 22 10 = 0 ∧ (x 11).toNat % 2 ^ 22 = 2097152) ∧
      (isGlobal (x 7) = true ∧ c.Reaches (x 7) 128 16 .w [.remote] ∧ c.namesGroup (x 7) = true ∧ c.Reaches (x 0) 128 16 .r here) ∧
      ((x 13).toNat % 64 = 0 ∧ (x 13).toNat + 64 ≤ c.spadSize ∧ copying.stageCap c (x 0).toNat ≠ 0) ∧
      ((x 12 = 4 ∧ (c.knot 2).state = .resolved ∧ (c.knot 5).state = .free) ∧ (x 14 = 8 ∧ (c.knot 3).state = .failed)) ∧
      ∀ i ∈ [Instr.cpy cs ⟨0, 0⟩ { w with a := 1, b := 2 }, .cpyr cs ⟨0, 0⟩ { w with a := 4, b := 1 }, .cfill cs ⟨0, 0⟩ { w with a := 2, b := 1 },
        .cpyt cs ⟨0, 0⟩ { w with a := 1, b := 2, c := 0 }, .cpytr cs ⟨0, 0⟩ { w with a := 1, b := 3, c := 0 }, .gath cs ⟨0, 0⟩ { w with a := 0, b := 2, c := 8 },
        .gathr cs ⟨0, 0⟩ { w with a := 0, b := 3, c := 8 }, .scat cs ⟨0, 0⟩ { w with a := 2, b := 0, c := 8 }, .scatr cs ⟨0, 0⟩ { w with a := 3, b := 0, c := 8 },
        .redc cs ⟨0, 0⟩ { w with a := 9, b := 0, c := 10 }, .bcst cs ⟨0, 0⟩ { w with a := 7, b := 0, c := 3 }, .ldq cs ⟨0, 0⟩ { w with a := 13, c := 0 },
        .stq cs ⟨0, 0⟩ { w with a := 13, c := 0 }, .kwait cs ⟨0, 0⟩ { w with a := 12, c := 0 }, .kwait cs ⟨0, 0⟩ { w with a := 14, c := 0, step := 1 }], i.check1 = none := by
  refine ⟨⟨?_, ?_, ?_⟩, ?_, issues_of ?_, ?_, ⟨reaches_of ?_, reaches_of ?_, reaches_of ?_, reaches_of ?_, reaches_of ?_, reaches_of ?_, ?_⟩,
    ⟨?_, ?_, ?_, ⟨?_, ?_, ?_, ?_⟩, ⟨?_, ?_, ?_, ?_⟩, holds_of ?_, holds_of ?_, holds_of ?_, holds_of ?_, ?_⟩,
    ⟨?_, ?_, ?_, ?_, ?_, ?_, ?_, ?_, ?_, ?_, ?_, ?_, holds_of ?_, holds_of ?_, holds_of ?_, holds_of ?_, ?_, reaches_of ?_, reaches_of ?_⟩,
    ⟨?_, reaches_of ?_, ?_, reaches_of ?_, ?_⟩, ⟨?_, reaches_of ?_, ?_, reaches_of ?_, ?_⟩, ⟨?_, reaches_of ?_, ?_, reaches_of ?_⟩, ?_⟩ <;>
    cases cs <;> decide +kernel

/-- LOOPEND and REPEAT at every end of their ranges, and counts of none, one, two and the most. -/
theorem witness_HeaderOnlyBundles :
    let s := { tile { user with l := [(0, { start := 0x40, count := 0 }), (1, { start := 0x40, count := 1 }), (2, { start := 0x40, count := 2 }), (3, { start := 0x40, count := 0xFFFFFFFF })] } with
      agenda := [.turn 0] }
    s.now.Quiet ∧ (∀ sl : Slot, s.now.stickyOf sl = none) ∧ (∀ sl : Slot, (63 : BitVec 6).getLsbD sl.idx = true) ∧
      (4 < (5 : BitVec 4).toNat ∧ 4 < (15 : BitVec 4).toNat ∧ 1 ≤ (1 : BitVec 4).toNat ∧ (4 : BitVec 4).toNat ≤ 4 ∧ (255 : BitVec 8) ≠ 0) ∧
      ((s.now.lReg 0).count.toNat ≤ 1 ∧ (s.now.lReg 1).count.toNat ≤ 1 ∧ 1 < (s.now.lReg 2).count.toNat ∧ 1 < (s.now.lReg 3).count.toNat) ∧ s.agenda ≠ [] := by
  refine ⟨quiet_of ?_, fun sl => ?_, fun sl => ?_, ?_⟩
  · decide +kernel
  · cases sl <;> decide +kernel
  · cases sl <;> decide +kernel
  · decide +kernel

/-- For each check, a bundle that fails it first, and for the last a predicate that is true, one that is false, and a knot produced. -/
theorem witness_ChecksInOrder :
    let m := semAdd ⟨0, 0⟩ ⟨1, 3, 1, 2, 0, 0, 0⟩
    let e := semEret ⟨0, 0⟩ ⟨0, 0, 0, 0⟩
    let slow := semMul ⟨0, 0⟩ ⟨1, 3, 1, 2, 0, 0, 0⟩
    let u := tile user
    let bare := tile { user with cr := { slotmap := 0x0055 ||| 2 } }
    let none' := tile { user with timing := [(0, 0)] }
    let far := semBr ⟨0, 3⟩ ⟨0, 0, 0, -1⟩
    let odd := semLds ⟨0, 0⟩ ⟨3, 3, 1, 3, 0, 0, 4, 0⟩
    let wait := semKwait .c0 ⟨0, 3⟩ ⟨5, 0, 0, 0, 0, 0, 0, 0, 0⟩
    let word := fun (i : Instr) => i.slotWord.isSome
    (u.now.Quiet ∧ bare.now.Quiet ∧ none'.now.Quiet) ∧
      (semOf (.add ⟨0, 0⟩ ⟨1, 3, 1, 2, 0, 0, 0⟩) = some m ∧ word (.add ⟨0, 0⟩ ⟨1, 3, 1, 2, 0, 0, 0⟩) = true ∧
        (Instr.add ⟨0, 0⟩ ⟨1, 3, 1, 2, 0, 0, 1⟩).check1 ≠ none ∧ (Instr.add ⟨0, 0⟩ ⟨1, 3, 1, 2, 0, 0, 0⟩).check1 = none ∧ m.check1 u.now = false) ∧
      (e.priv u.now = true ∧ u.now.cr.sys = false ∧ m.priv u.now = false) ∧
      (bare.now.instanceOf .v0 = none ∧ u.now.instanceOf .s = some 0 ∧ m.runsOn u.cur u.now = true) ∧
      (m.timing = some (0, 0, 1) ∧ none'.now.timingAt (32 * 0 + 0) = 0 ∧ u.now.timingAt (32 * 0 + 0) ≠ 0 ∧ u.now.latencyOf 0 0 ≤ 1) ∧
      (slow.timing = some (0, 1, 1) ∧ u.now.timingAt (32 * 0 + 1) ≠ 0 ∧ 1 < u.now.latencyOf 0 1) ∧
      (far.always5 (u.view far)).isSome = true ∧ odd.always5 (u.view odd) = none ∧ (odd.check5 u u.cur (u.view odd)).isSome = true ∧
      wait.always5 (u.view wait) = none ∧ wait.produces (u.view wait) = some (5, 2) ∧ m.always5 (u.view m) = none ∧ m.produces (u.view m) = none ∧ (u.now.pReg 0 != ((0 : BitVec 1) == 1)) = true ∧ (u.now.pReg 3 != ((0 : BitVec 1) == 1)) = false := by
  refine ⟨⟨quiet_of ?_, quiet_of ?_, quiet_of ?_⟩, ⟨rfl, ?_⟩, ?_⟩ <;> decide +kernel

/-- Every privileged operation in user mode. -/
theorem witness_PrivilegedOperations :
    let r : SR := ⟨0, 0, 1, 2, 0, 0, 0⟩
    let q : SR := ⟨0, 3, 1, 2, 0, 0, 0⟩
    (tile user).now.Quiet ∧ (tile user).now.cr.sys = false ∧
      (∀ i ∈ [Instr.slotmap ⟨0, 0⟩ r, .ttset ⟨0, 0⟩ { r with c := 3 }, .skeinldLoad ⟨0, 0⟩ q, .scanrun ⟨0, 0⟩ { q with b := 0 }, .preempt ⟨0, 0⟩ { r with b := 0 }, .ctxsave ⟨0, 0⟩ { r with b := 0 },
        .ctxload ⟨0, 0⟩ { r with b := 0 }, .qmap ⟨0, 0⟩ r, .qsave ⟨0, 0⟩ r, .qload ⟨0, 0⟩ r, .pstep ⟨0, 0⟩ { r with b := 0 }, .inval ⟨0, 0⟩ r,
        .relocStart ⟨0, 0⟩ { q with b := 0 }, .relocQuery ⟨0, 0⟩ { q with b := 0, fn := 1 }, .relocAbort ⟨0, 0⟩ { q with b := 0, fn := 2 }, .fwdpub ⟨0, 0⟩ { r with b := 0 },
        .logrApp ⟨0, 0⟩ { q with b := 0 }, .logrRead ⟨0, 0⟩ { q with fn := 1 }, .eret ⟨0, 0⟩ ⟨0, 0, 0, 0⟩], i.check1 = none ∧ i.slotWord.isSome = true) ∧
      [0, 2, 3, 0x13, 0x14, 0x30, 0x31, 0x32, 0x33].all (fun x => decide ((Instr.crw ⟨0, 0⟩ ⟨0, 0, 1, x⟩).check1 = none) && decide (x ≠ 0x10 ∧ x ≠ 0x11 ∧ x ≠ 0x12)) = true ∧
      [0x30, 0x31, 0x32, 0x33].all (fun x => decide ((Instr.crr ⟨0, 0⟩ ⟨2, 3, 0, x⟩).check1 = none)) = true := by
  refine ⟨quiet_of ?_, ?_⟩ <;> decide +kernel

/-- The bytes of an idle bundle, of a bundle of two operations and of no bundle; an event at the head of the agenda; the boot ROM. -/
theorem witness_StepRunsDecoded :
    let s := (tile user).withFetchWord 32 0xB0000FC0
    let both := leBytes 4 0xB0000F03 ++ leBytes 8 0x0100860840000000 ++ leBytes 8 0x0301080800000000
    let two := (tile user).withFetchWord 160 (leNat both)
    let bad := (tile user).withFetchWord 32 0xA0000FC0
    (∀ t ∈ [s, two, bad], t.agenda = [] ∧ t.booted = true ∧ t.now.stopped = false ∧ t.now.idle = false ∧ t.pwr.phase ≠ .off ∧ t.pwr.phase ≠ .pfail) ∧
      s.fetch s.cur = .bytes (leBytes 4 0xB0000FC0) ∧ s.waiting s.cur (leBytes 4 0xB0000FC0) = false ∧
      ((decode (leBytes 4 0xB0000FC0)).toOption.bind soloInstr) = some (.headerOnlyBundle 0 0 63) ∧
      bad.fetch bad.cur = .bytes (leBytes 4 0xA0000FC0) ∧ bad.waiting bad.cur (leBytes 4 0xA0000FC0) = false ∧ (decode (leBytes 4 0xA0000FC0)).toOption = none ∧
      ({ tile user with agenda := [.event (.whorlTick 0)] } : State).agenda = .event (.whorlTick 0) :: [] ∧
      State.reset.agenda = [] ∧ State.reset.booted = false ∧ two.fetch two.cur = .bytes both ∧ two.waiting two.cur both = false ∧
      (decode both).toOption.isSome = true ∧ (decode both).toOption.bind soloInstr = none := by
  decide +kernel

/-- An operation of each encoding, a release of a skein, and a word. -/
theorem witness_DecodeEncode :
    (∀ i ∈ [Instr.headerOnlyBundle 4 255 63, .add ⟨1, 15⟩ ⟨1, 63, 63, 63, 0, 0, 0⟩, .vst .v1 ⟨0, 0⟩ ⟨3, 63, 63, 1, -1, -1⟩, .mdr ⟨0, 0⟩ ⟨63, 63, 0, 0, 0, 0, 63, 0, 1, 0xFF⟩,
        .kwait .c1 ⟨0, 0⟩ ⟨63, 63, 63, 63, 7, 63, 0, 0, 1⟩], i.WellFormed ∧ encode i ≠ []) ∧
      (Instr.skeinldRelease ⟨0, 0⟩ ⟨0, 3, 1, 3, 0, 0, 0⟩).WellFormed ∧
      (decodeSlot .s 0x0100860840000000).toOption.isSome = true := by
  decide +kernel

theorem witness_HardWiredRegisters :
    let w : SR := ⟨1, 0, 1, 2, 0, 0, 0⟩
    (tile user).Issues .s ⟨0, 0⟩ (some (0, 0, 1)) ∧ w.lat = 1 ∧ w.d = 0 ∧ (Instr.add ⟨0, 0⟩ w).check1 = none ∧ (Instr.cmpeq ⟨0, 0⟩ w).check1 = none := by
  refine ⟨issues_of ?_, ?_⟩ <;> decide +kernel

/-- An access that is permitted at every byte, and that no move holds. -/
def granted (x : Except (Nat × Option Nat × Nat) (List Piece) × State) : Bool := match x.1 with | .ok ps => !ps.any Piece.isHeld | .error _ => false

theorem granted_of {x : Except (Nat × Option Nat × Nat) (List Piece) × State} (h : granted x = true) :
    ∃ ps u, x = (.ok ps, u) ∧ ps.any Piece.isHeld = false := by
  obtain ⟨r, u⟩ := x
  cases r with
  | error e => cases h
  | ok ps => exact ⟨ps, u, rfl, by simpa [granted] using h⟩

theorem some_of {x : Option (Bool × State)} {b : Bool} (h : x.map Prod.fst = some b) : ∃ u, x = some (b, u) := by
  cases x with
  | none => cases h
  | some q => obtain ⟨c, u⟩ := q; simp only [Option.map, Option.some.injEq] at h; exact ⟨u, by rw [h]⟩

/-- A target in system memory. -/
def near (ca : Nat) : Target := ⟨0, BitVec.ofNat 52 ca, .plain, false, 0, 0, 0, 5⟩

/-- A landing slot that waits for a target. -/
def slotOf (ca : Nat) (k : LandKind) (st : LandState) (live : Bool) : Landing := ⟨7, 3, false, 4, near ca, k, st, live, false, none⟩

/-- A fill of the last granule of the scratchpad. -/
def queued : CopyOp := { id := 1, engine := .a, kp := 5, job := .move [⟨.spad 0x1FFFF0, .pattern 7, 16⟩] none, asid := 5, wid := 7, slot := 0 }

/-- Four landing slots, a stream whose oldest entry is a store, a tracker entry, a line that is not in the instruction cache, a move that has no
remote line, a push that has its record, and a refusal. -/
def busyCore (st : SentState) : State :=
  { tile { user with
      landings := [slotOf 0x1000 (.load 3 false) (.replied 9 true) true, slotOf 0x1000 (.load 3 false) (.replied 9 false) false,
        slotOf 0x1FFFFFFF (.load 0 true) .waiting true, slotOf 0x1000 (.amo .cas 2 1 2 3 false) .waiting true]
      stream := [{ seq := 9, tgt := near 0x2001, kind := .data [1], sent := st }], tracker := [(7, some (7, 0))]
      ranges := [(0, range 0 2 0 0 true true true)]
      copies := [queued, { queued with id := 2, job := .loadRecord 0x1FFFC0 (List.replicate 64 1) },
        { queued with id := 3, job := .push 0 0, record := some (List.replicate 64 1) }]
      refusals := [(1, 0x1000, none)] } with
    homeMap := [(0, 0x8004)], pendInv := [⟨0, 8, none⟩]
    qslots := [(0, { state := .bound, asid := 5, launch := some { code := 0, codeOff := 0, dataVa := 0, widths := [1], gang := 0, footprint := 0, strands := 0, stages := [{ qcap := 4 }], widbase := 0, total := 1, qbase := 0, done := 0, seed := 0, args := [] } })] }

theorem witness_MemorySystemSteps :
    let s := busyCore .no
    let c := s.core 0
    ((∃ l, c.landings[0]? = some l ∧ l.state = .replied 9 true ∧ l.live = true) ∧ (∃ l, c.landings[1]? = some l ∧ l.state = .replied 9 false ∧ l.live = false) ∧
      (∃ l ps u, c.landings[2]? = some l ∧ l.state = .waiting ∧ l.tgt.cls ≠ .remote ∧ l.kind = .load 0 true ∧
        s.pieces l.tgt.asid l.tgt.ca .r (l.tgt.cls = .host) (sizeBytes 0) = (.ok ps, u) ∧ ps.any Piece.isHeld = false) ∧
      (∃ l ps u, c.landings[3]? = some l ∧ l.state = .waiting ∧ l.tgt.cls ≠ .remote ∧ l.kind = .amo .cas 2 1 2 3 false ∧ s.amoReleased 0 l 3 = true ∧
        s.pieces l.tgt.asid l.tgt.ca .rw (l.tgt.cls = .host) (sizeBytes 2) = (.ok ps, u) ∧ ps.any Piece.isHeld = false ∧ u.amoOnRef l.tgt = false)) ∧
    (∃ e, ((busyCore .acking).core 0).stream = [e] ∧ e.sent = .acking) ∧
    (∃ e ps u, c.stream = [e] ∧ e.sent = .no ∧ e.kind = .data [1] ∧ e.tgt.cls ≠ .remote ∧ c.streamFault = false ∧ c.earlierAmo e.seq e.tgt = false ∧
      s.pieces e.tgt.asid e.tgt.ca .w (e.tgt.cls = .host) 1 = (.ok ps, u) ∧ ps.any Piece.isHeld = false) ∧
    ((SMap.get none c.tracker 7).isSome = true ∧ c.trackerBusy 7 = false) ∧ (s.pendInv.any fun q => q.die == 0 && q.line == 8) = true ∧
    (0x1FFFF0 % 16 = 0 ∧ (List.replicate 16 (0 : Byte)).length % 16 = 0 ∧ 0x1FFFF0 + 16 ≤ c.spadSize ∧ 0x1FFFF8 + 8 ≤ c.spadSize ∧ c.supervisor = false) ∧
    (∃ t ps u, s.fetch 0 = .miss t ∧ s.pieces (s.fetchCore 0).cr.asid (BitVec.ofNat 52 (t.ca.toNat / 128 * 128)) .x false 128 = (.ok ps, u) ∧
      ps.any Piece.isHeld = false ∧ (u.readPieces (dieOf 0) ps).2.1 = false) ∧
    (∃ o l u, c.copyAt .a 0 = some o ∧ o.refused = false ∧ o.job = .move l none ∧ (l.any fun m => m.far.isSome) = false ∧ s.performMoves 0 o l = some (true, u)) ∧
    (∃ o, c.copyAt .a 1 = some o ∧ o.refused = false ∧ o.job = .loadRecord 0x1FFFC0 (List.replicate 64 1)) ∧
    (∃ o r u, c.copyAt .a 2 = some o ∧ o.refused = false ∧ o.job = .push 0 0 ∧ o.record = some r ∧ c.earlierPush o 0 = false ∧
      s.pushRecord o.slot o.stage 0 r = some u) ∧
    c.refusals = [(1, 0x1000, none)] := by
  refine ⟨⟨⟨_, rfl, rfl, rfl⟩, ⟨_, rfl, rfl, rfl⟩, ?_, ?_⟩, ⟨_, rfl, rfl⟩, ?_, ?_, ?_, ?_, ?_, ?_, ⟨_, rfl, rfl, rfl⟩, ?_, rfl⟩
  · obtain ⟨ps, u, e, h⟩ := granted_of (x := (busyCore .no).pieces 5 0x1FFFFFFF .r (decide (RangeClass.plain = .host)) 1) (by decide +kernel)
    exact ⟨_, ps, u, rfl, rfl, by decide, rfl, e, h⟩
  · obtain ⟨ps, u, e, h⟩ := granted_of (x := (busyCore .no).pieces 5 0x1000 .rw (decide (RangeClass.plain = .host)) 4) (by decide +kernel)
    exact ⟨_, ps, u, rfl, rfl, by decide, rfl, by decide +kernel, e, h, rfl⟩
  · obtain ⟨ps, u, e, h⟩ := granted_of (x := (busyCore .no).pieces 5 0x2001 .w (decide (RangeClass.plain = .host)) 1) (by decide +kernel)
    exact ⟨_, ps, u, rfl, rfl, rfl, by decide, rfl, by decide +kernel, e, h⟩
  · decide +kernel
  · decide +kernel
  · decide +kernel
  · obtain ⟨ps, u, e, h⟩ := granted_of (x := (busyCore .no).pieces 0 0 .x false 128) (by decide +kernel)
    have k : (match (busyCore .no).pieces 0 0 .x false 128 with | (.ok ps, u) => (u.readPieces 0 ps).2.1 | _ => true) = false := by decide +kernel
    rw [e] at k
    exact ⟨targetOf (range 0 2 0 0 true true true) 0 0, ps, u, by decide +kernel, e, h, k⟩
  · obtain ⟨u, e⟩ := some_of (x := (busyCore .no).performMoves 0 queued [⟨.spad 0x1FFFF0, .pattern 7, 16⟩]) (b := true) (by decide +kernel)
    exact ⟨_, _, u, rfl, rfl, rfl, by decide +kernel, e⟩
  · obtain ⟨u, e⟩ := Option.isSome_iff_exists.mp (show ((busyCore .no).pushRecord 0 0 0 (List.replicate 64 1)).isSome = true by decide +kernel)
    exact ⟨_, _, u, rfl, rfl, rfl, rfl, by decide +kernel, e⟩

/-- Units 0 and 5; the last tile core and supervisor; a part that is contained and one that is not; reasons 1 and 9; a supervisor that has not
started; each kind of capture packet; a line to shoot down and a patch that waits. -/
theorem witness_ErrorsAndObservers :
    let pack : BitVec 2 → CapturePacket := fun k => ⟨1, 5, 3, k⟩
    let s := { tile { user with ecc := 16, hooks := { shootdowns := [8] }, acct := { packets := [pack 2, pack 0] } } with
      cores := [(0, { user with ecc := 16, hooks := { shootdowns := [8] }, acct := { packets := [pack 2, pack 0] } }), (575, { user with acct := { packets := [pack 1] } }),
        (577, { coreDefault 577 with stopped := true })]
      contained := [0, 31], patches := [⟨5, 0, 0, [0], 1, 0, none⟩] }
    (0 < 576 ∧ 575 < 576 ∧ 5 < 6 ∧ 576 ≤ 579 ∧ 579 < 580) ∧ 0 < (s.core 0).ecc ∧ (∀ pa, UePlace.sreg 3 ≠ .mem pa) ∧
      (0xFF : BitVec 8).getLsbD 7 = true ∧ s.contained.contains 0 = true ∧ s.contained.contains 31 = true ∧
      (1 ≤ (1 : BitVec 8).toNat ∧ (9 : BitVec 8).toNat ≤ 9) ∧ (s.core 0).item.isSome = true ∧ (s.core 575).item.isSome = true ∧
      ((s.core 576).stopped = false ∧ (s.core 577).stopped = true ∧ (s.core 576).supervisor = true) ∧ (s.core 575).supervisor = false ∧
      (s.core 0).acct.packets.dropWhile (fun p => 2 ≤ p.kind.toNat) = [pack 0] ∧ (s.core 575).acct.packets.dropWhile (fun p => 2 ≤ p.kind.toNat) = [pack 1] ∧
      ((s.core 0).hooks.shootdowns = [8] ∧ s.holdsLine 0 8 = false) ∧ s.patches.length = 1 := by
  refine ⟨by decide, by decide +kernel, fun _ h => (by cases h), ?_⟩
  decide +kernel

/-- Context 5 with one range, logical core 0, a code object at 64 KiB with one stage, a launch of the last 2^48 WIDs of 64 bits, and a slot whose
ring holds that packet, one of no effect and one of type 2. -/
def launching (c : Core) (l : Option Launch) (rd : Nat) : State :=
  { tile c with
    cores := [(0, c)], homeMap := [(0, 0x8004)], bases := { lcmap := 0x300000 }, parts := [(0, some { cores := BitVec.allOnes 576 })]
    mem := words [(0xA00, 1), (0xB08, 0x40), (0xB18, 15), (0x4000, 1), (0x4008, 0x10000), (0x4010, 0xFFFF000000000000), (0x4018, 0x1000000000000),
      (0x4028, 0x5000), (0x4100, 2), (0x10000, 0x5A434F44), (0x10018, 0x4000000200), (0x10028, 0x80), (0x10080, 0x4000010001), (0x300000, 0x8000)]
    assigns := [(0, { cur := some (0, 0), tgt := some (0, 0) })], queues := [(7, some ⟨0x8000, 0, 0⟩)]
    qslots := [(0, { state := .bound, asid := 5, qid := 7, ringBase := 0x4000, ringLog := 2, rdidx := rd, wridx := 4, launch := l })] }

/-- The launch of that packet. -/
def launched : Launch :=
  { code := 0x10000, codeOff := 0x200, dataVa := 0, widths := [64], gang := 0, footprint := 0, strands := 0, stages := [{}], widbase := 0xFFFF000000000000
    total := 0x1000000000000, qbase := 0, done := 0x5000, seed := 0, args := List.replicate 7 0 }

theorem witness_LaunchEvents :
    let s := launching {} none 0
    let noop := launching {} none 1
    let odd := launching {} none 2
    let run := launching {} (some launched) 0
    let done := launching {} (some { launched with started := 0x1000000000000, ended := 0x1000000000000 }) 0
    let wait := launching {} (some { launched with stages := [{ suspended := [(0x8000, item)] }] }) 0
    let gang := launching { user with item := some { item with gang := some 3 }, bar := .sent } (some launched) 0
    let back := launching { user with bar := .released } (some launched) 0
    (s.pwr.phase ≠ .idle ∧ s.contained.contains 0 = false ∧ s.contained.contains 31 = false ∧ SMap.get none s.queues 7 = some ⟨0x8000, 0, 0⟩ ∧
        s.slotOfQueue 7 = some 0) ∧
      (∀ t ∈ [s, noop, odd], (t.slot 0).state = .bound ∧ (t.slot 0).launch = none ∧ (t.slot 0).rdidx < (t.slot 0).wridx ∧ (t.slot 0).prio ≠ 7 ∧ t.ctxState 5 = 1) ∧
      ((noop.readCa 5 0x4080 128).map fun p => fieldOf p 0 4) = some 0 ∧ ((odd.readCa 5 0x4100 128).map fun p => fieldOf p 0 4) = some 2 ∧
      (∃ p, s.readCa 5 0x4000 128 = some p ∧ s.checkPacket (s.slot 0) p = .launch launched) ∧
      (∃ l, (done.slot 0).launch = some l ∧ done.launchOver 0 l = true ∧ l.killed = false) ∧
      (run.nextOf 0 = some (0, 0, launched) ∧ launched.stages[0]? = some { entry := 0 } ∧ run.ctxState (run.slot 0).asid = 1) ∧
      (∃ l q, wait.nextOf 0 = some (0, 0, l) ∧ l.stages[0]? = some q ∧ q.suspended = [(0x8000, item)]) ∧
      ((gang.core 0).bar = .sent ∧ (gang.core 0).item.bind Item.gang = some 3) ∧ (back.core 0).bar = .released ∧
      ((run.slot 0).state = .bound ∧ (run.slot 0).demand ≠ 0 ∧ (run.slot 0).shares = []) := by
  refine ⟨?_, ?_, ?_, ?_, ?_, ⟨_, rfl, ?_, rfl⟩, ?_, ⟨{ launched with stages := [{ suspended := [(0x8000, item)] }] }, _, ?_, rfl, rfl⟩, ?_⟩
  · decide +kernel
  · decide +kernel
  · decide +kernel
  · decide +kernel
  · refine ⟨((launching {} none 0).readCa 5 0x4000 128).getD [], by decide +kernel, ?_⟩
    have h : (match (launching {} none 0).checkPacket ((launching {} none 0).slot 0) (((launching {} none 0).readCa 5 0x4000 128).getD []) with
        | .launch l => decide (l = launched) | _ => false) = true := by decide +kernel
    revert h
    cases (launching {} none 0).checkPacket ((launching {} none 0).slot 0) (((launching {} none 0).readCa 5 0x4000 128).getD []) with
    | launch l => intro h; rw [of_decide_eq_true h]
    | noop => intro h; cases h
    | refused a b => intro h; cases h
  all_goals decide +kernel

/-- Die 3; a watchdog of the default and of a stated time; a partition that is drained; a retry, the site after the last and the first again; a
marked site with an item; and the last site of the package. -/
theorem witness_EpochsAndRepair :
    let s := { launching { user with cr := { asid := 5 } } (some launched) 0 with
      resets := [1], bases := { whorl := 0x6000 }, whorls := [(1, { retry := [9] }), (2, { phase := .marked 7 5 }), (3, { last := some 143 })]
      cores := [(0, user), (295, user)], mem := words [(0x6000, 0x640001), (0x6040, 1), (0x6080, 0xFFFF0001), (0x60C0, 1)] }
    (s.core 0).item = some item ∧ (s.core 0).cr.halt = false ∧ (s.core 0).saved = false ∧ (s.slot item.slot).state = .bound ∧ (s.core 0).async = [] ∧
      s.draining 1 = true ∧ (∀ d, d < 4 → s.liveCores 1 d = []) ∧
      s.booted = true ∧ (∀ d ∈ [1, 3], (s.whorl d).phase = .serving ∧ (s.whorlCtl d).getLsbD 0 = true) ∧ s.pwr.stepped = false ∧
      (s.whorl 1).retry = [9] ∧ (s.whorl 3).retry = [] ∧ s.nextSite 3 (s.whorl 3).last = some 0 ∧ s.nextSite 3 (some 142) = some 143 ∧
      (s.whorl 2).phase = .marked 7 5 ∧ (s.core (144 * 2 + 7)).item.isSome = true ∧ s.siteState (144 * 3 + 143) ≠ .dropped true := by
  decide +kernel

/-- The package on, its draw above the level or not, an action to undo or none; at a window's end and in the midst of one, where the core is
idle; idle slots; a power failure, a dump, droops at the ends of their bins. The draw is open (log 37). -/
theorem witness_PowerEvents (hd : Config.freeBits 0 (2 ^ 22) 12 = 1000) (hr : Config.ratedIncrease 1 = 100) :
    let s := fun (lvl : Nat) (acts : List PowerAct) => { tile { user with cycle := 64 } with pwr := { level := lvl, actions := acts, rising := true } }
    let dark : State := { pwr := { level := 999, clock := 2, actions := [.halve, .suspend] }, booted := true }
    let mid := tile { cycle := 65, stopped := true }
    let failed := { tile user with pwr := { phase := .pfail } }
    (∀ t ∈ [s 999 [], s 2400 [.suspend], s 1000 [], dark], t.booted = true ∧ t.pwr.phase = .on) ∧
      ((s 999 []).pwr.force < ((s 999 []).choose 12).1 ∧ (s 999 []).nextAct = some .suspend) ∧
      (dark.pwr.force < (dark.choose 12).1 ∧ dark.nextAct = none) ∧
      (((s 2400 [.suspend]).choose 12).1 ≤ (s 2400 [.suspend]).pwr.force ∧ (s 2400 [.suspend]).pwr.actions = [.suspend] ∧ (s 2400 [.suspend]).pwr.rising = true ∧
        ((s 2400 [.suspend]).choose 12).1 + Config.ratedIncrease 1 ≤ (s 2400 [.suspend]).pwr.force) ∧
      (((s 1000 []).choose 12).1 ≤ (s 1000 []).pwr.force ∧ (s 1000 []).pwr.actions = []) ∧
      (((s 999 []).core 0).cycle.toNat % 64 = 0 ∧ (mid.core 0).cycle.toNat % 64 ≠ 0 ∧ (mid.core 0).idle = true) ∧
      (∀ n, n < 64 → (s 999 []).slot n = {}) ∧ failed.pwr.phase = .pfail ∧ failed.sec.lifecycle ≠ .retired ∧ failed.pwr.phase ≠ .off ∧ 19 < 20 ∧ 20 ≤ 1000 := by
  have h : ∀ (lvl : Nat) (acts : List PowerAct), (({ tile { user with cycle := 64 } with pwr := { level := lvl, actions := acts, rising := true } } : State).choose 12).1 = 1000 :=
    fun lvl acts => by simp only [State.choose]; exact congrArg BitVec.toNat hd
  have hk : (({ pwr := { level := 999, clock := 2, actions := [.halve, .suspend] }, booted := true } : State).choose 12).1 = 1000 := by
    simp only [State.choose]; exact congrArg BitVec.toNat hd
  refine ⟨?_, ⟨?_, ?_⟩, ⟨?_, ?_⟩, ⟨?_, ?_, ?_, ?_⟩, ⟨?_, ?_⟩, ?_, fun n _ => rfl, ?_⟩ <;> (try rw [h]) <;> (try rw [hk]) <;> (try rw [hr]) <;> decide +kernel

/-- A machine whose partition 0 has asked for this. -/
def asking (code : Nat) (ops : List W64) (s : State) : State :=
  { s with host := { s.host with mailboxes := [(0, { taken := (0, BitVec.ofNat 64 code) :: ops.mapIdx fun i x => (i + 1, x), busy := true })], queue := [0] } }

/-- Context 5 of partition 0, with page tables for granule 0x19, and with a leaf at its first page or none. -/
def paged (leaf : W64) : State :=
  { tile user with
    homeMap := [(0, 0x8004), (0x19, 0x8001)]
    mem := words [(0xA00, 1), (0xA08, 0x10000), (0x10000, 0x8000000000020000), (0x20000 + 8 * 0x19, 0x8000000000030000), (0x30000, leaf)] }

theorem get_const {α : Type} (d v : α) : ∀ (l : SMap α) (a : Nat), (∀ q ∈ l, q.2 = v) → (∃ q ∈ l, q.1 = a) → SMap.get d l a = v
  | [], _, _, h => by obtain ⟨_, h, _⟩ := h; cases h
  | (k, x) :: l, a, h, ⟨q, hq, e⟩ => by
    rw [SMap.get]
    split
    · exact h (k, x) (List.mem_cons_self ..)
    · rename_i hne
      refine get_const d v l a (fun q hq => h q (List.mem_cons_of_mem _ hq)) ⟨q, ?_, e⟩
      rcases List.mem_cons.mp hq with rfl | hq
      · exact absurd e.symm hne
      · exact hq

/-- A context table whose first `n` entries after entry 0 are live. -/
def crowded (n : Nat) : State := { tile user with mem := (List.range n).map fun i => (512 * (i + 1), 1) }

theorem crowded_live (n : Nat) {i : Nat} (h : 1 ≤ i) (k : i ≤ n) (hn : n ≤ 1023) : (crowded n).ctxState (BitVec.ofNat 16 i) = 1 := by
  have hi : (BitVec.ofNat 16 i).toNat = i := by rw [BitVec.toNat_ofNat]; omega
  have h0 : (crowded n).memByte (512 * i) = 1 := by
    refine get_const (0 : Byte) 1 ((List.range n).map fun i => (512 * (i + 1), 1)) _ (fun q hq => ?_) ⟨(512 * (i - 1 + 1), 1), ?_, ?_⟩
    · obtain ⟨j, _, rfl⟩ := List.mem_map.mp hq; rfl
    · exact List.mem_map.mpr ⟨i - 1, List.mem_range.mpr (by omega), rfl⟩
    · simp only; omega
  have hz : ∀ x, x % 512 ≠ 0 → (crowded n).memByte x = 0 := fun x hx => by
    refine SMap.get_absent (0 : Byte) ((List.range n).map fun i => (512 * (i + 1), 1)) _ fun q hq => ?_
    obtain ⟨j, _, rfl⟩ := List.mem_map.mp hq; simp only; omega
  have e : (crowded n).ctxEntry (BitVec.ofNat 16 i) = 512 * i := by simp only [State.ctxEntry, hi, crowded, tile]; omega
  have hb : (crowded n).memBytes (512 * i) 4 = [1, 0, 0, 0] := by
    rw [State.memBytes_eq]
    show [(crowded n).memByte (512 * i + 0), (crowded n).memByte (512 * i + 1), (crowded n).memByte (512 * i + 2), (crowded n).memByte (512 * i + 3)] = _
    rw [Nat.add_zero, h0, hz _ (by omega), hz _ (by omega), hz _ (by omega)]
  rw [State.ctxState, e, State.memNat, hb]; rfl

theorem asking_ctxState (code : Nat) (ops : List W64) (s : State) (a : BitVec 16) : (asking code ops s).ctxState a = s.ctxState a := rfl

theorem asking_serves (code : Nat) (ops : List W64) (s : State) (h : code < 2 ^ 32) (k : s.contained.contains 31 = false) (l : s.sec.lifecycle ≠ .retired) :
    (asking code ops s).Serves code 0 := by
  refine ⟨rfl, ?_, k, l⟩
  show ((BitVec.ofNat 64 code).extractLsb' 0 32).toNat = code
  simp only [BitVec.extractLsb'_toNat, BitVec.toNat_ofNat, Nat.shiftRight_zero]; omega

/-- The state after firmware has taken system memory. -/
def takes (s : State) (asid : BitVec 16) (b len : Nat) : State :=
  { s with free := s.free + 1, mem := SMap.clear s.mem b len, taken := s.taken ++ [⟨b, len, asid, none⟩] }

theorem takeSystem_of {s : State} {asid : BitVec 16} {len b : Nat} (h : 65536 * (Config.freeBits s.free (2 ^ 22) 36).toNat = b)
    (k : s.systemRun b len = true) (l : s.isTaken b len = false) : s.takeSystem asid len = some (b, takes s asid b len) := by
  simp only [State.takeSystem, State.choose, h, takes]
  rw [if_neg]
  rintro (e | e)
  · rw [show ({ s with free := s.free + 1 } : State).systemRun b len = s.systemRun b len from rfl, k] at e; cases e
  · rw [show ({ s with free := s.free + 1 } : State).isTaken b len = s.isTaken b len from rfl, l] at e; cases e

theorem chooseFrom_of {s : State} {l : List Nat} {x : Nat} (h : Config.freeBits s.free (2 ^ 22) 32 = 0) (k : l.head? = some x) :
    s.chooseFrom l = some (x, { s with free := s.free + 1 }) := by
  simp only [State.chooseFrom, State.choose, h]
  cases l with
  | nil => cases k
  | cons y l => simp only [List.head?_cons, Option.some.injEq] at k; subst k; simp

theorem takeContext_of {s t u v : State} {asid : BitVec 16} {a b c : Nat} (l m n : Nat) (hl : tableBytes 0 = l) (hm : 2 ^ 22 = m) (hn : 32 * 4096 = n) (e1 : s.takeSystem asid l = some (a, t))
    (e2 : t.takeSystem asid m = some (b, u)) (e3 : u.takeSystem asid n = some (c, v)) : s.takeContext asid = some (a, b, c, v) := by
  unfold State.takeContext
  rw [hl, hm, hn, e1]
  clear hl hm hn e1
  dsimp only
  rw [e2]
  dsimp only
  rw [e3]
  rfl

/-- A request for a context without a code heap. -/
def asked : State := asking 0x01 [0, 0, 0, 0, 0] (paged 0)

/-- Every request about a context or a queue; all ASIDs in use, and one free; the last register; a page at its granule's start, mapped or
not; what firmware chooses is open (log 32). -/
theorem witness_ContextRequests (h32 : ∀ n, Config.freeBits n (2 ^ 22) 32 = 0) (h36 : ∀ n, Config.freeBits n (2 ^ 22) 36 = BitVec.ofNat 36 (0x40 * (n + 1))) :
    let ctxalloc := asked
    let none' : State := asking 0x01 [0, 1, 0, 0, 0] (crowded 1023)
    let rangeset := asking 0x04 [5, 7, 0, 1, 0, 15] (paged 0)
    let map := asking 0x05 [5, 0x19 * 2 ^ 29, 2 ^ 21, 0x117, 0] (paged 0)
    let unmap := asking 0x06 [5, 0x19 * 2 ^ 29, 2 ^ 21] (paged 0xE000010000000000)
    let regq := asking 0x08 [5, 0x1000] { paged 0 with hostMem := [(0x1008, 16), (0x1018, 1)] }
    let deregq := asking 0x09 [7] { paged 0 with queues := [(7, some ⟨0x8000, 0, 0⟩)] }
    let held := { deregq with qslots := [(3, { state := .loaded, qid := 7 })] }
    let busy := asking 0x02 [5] { paged 0 with cores := [(0, { user with cr := { asid := 5 } })] }
    (ctxalloc.Serves 0x01 0 ∧ none'.Serves 0x01 0 ∧ (asking 0x02 [5] (paged 0)).Serves 0x02 0 ∧ busy.Serves 0x02 0 ∧ (asking 0x03 [5] (paged 0)).Serves 0x03 0 ∧
        rangeset.Serves 0x04 0 ∧ map.Serves 0x05 0 ∧ unmap.Serves 0x06 0 ∧ regq.Serves 0x08 0 ∧ deregq.Serves 0x09 0 ∧ held.Serves 0x09 0) ∧
      (accountOk 0 = true ∧ accountOk 1 = false ∧
        (((List.range 1023).map (· + 1)).filter fun i => none'.ctxState (BitVec.ofNat 16 i) == 0) = [] ∧
        ∃ t root image objmap u, ctxalloc.chooseFrom (((List.range 1023).map (· + 1)).filter fun i => ctxalloc.ctxState (BitVec.ofNat 16 i) == 0) = some (1, t) ∧
          t.takeContext 1 = some (root, image, objmap, u) ∧ ctxalloc.operand 0 1 = 0) ∧
      (∀ s ∈ [asking 0x02 [5] (paged 0), busy, asking 0x03 [5] (paged 0), rangeset, map, unmap, regq], s.ownContext 0 (s.operand 0 1) = .ok 5) ∧
      (let killed := (asking 0x02 [5] (paged 0)).killContext 5 (6 * 256) { reason := 1 } 1
       killed.contextBusy 5 = false ∧ killed.probedIn 5 0 (2 ^ 52) = false ∧ (killed.host.grants.all fun g => g.asid != 5) = true ∧
         (busy.killContext 5 (6 * 256) { reason := 1 } 1).contextBusy 5 = true) ∧
      ((rangeset.operand 0 2).toNat = 7 ∧ rangeAllowed (rangeset.partitionOf 5) (rangeset.operand 0 6 ++ rangeset.operand 0 5 ++ rangeset.operand 0 4 ++ rangeset.operand 0 3) = true ∧
        rangeAllowed (rangeset.partitionOf 5) (BitVec.allOnes 256) = false) ∧
      (let w := map.operand 0
       (w 4).extractLsb' 10 54 = 0 ∧ (w 4).extractLsb' 6 2 = 0 ∧ (w 4).getLsbD 3 = false ∧ ((w 4).extractLsb' 4 2).toNat = 1 ∧ ((w 4).extractLsb' 8 2).toNat = 1 ∧
         (w 5).toNat % 2 ^ sizeLog 1 = 0 ∧ (w 5).toNat + (w 3).toNat ≤ 2 ^ 52 ∧ (w 3).toNat = 2 ^ sizeLog 1 ∧ (w 2).toNat % 2 ^ sizeLog 1 = 0 ∧
         (w 2).toNat + (w 3).toNat ≤ 2 ^ 52 ∧ map.leavesIn 5 (w 2).toNat ((w 2).toNat + (w 3).toNat) ((w 3).toNat / 65536) = [] ∧
         (map.mapPages 5 (w 2).toNat 1 (pteFlags true true true true) (some (w 5).toNat) 1).isSome = true) ∧
      (let w := unmap.operand 0
       unmap.leavesIn 5 (w 2).toNat ((w 2).toNat + (w 3).toNat) ((w 3).toNat / 65536) = [((w 2).toNat, 21, 0x30000)] ∧ (w 2).toNat % 65536 = 0 ∧ (w 3).toNat = 2 ^ 21 ∧
         (w 2).toNat + (w 3).toNat ≤ 2 ^ 52 ∧ unmap.host.grants.length = 0 ∧ unmap.probedIn 5 (w 2).toNat (w 3).toNat = false) ∧
      (regq.ctxState 5 = 1 ∧ ∃ t a u, regq.chooseFrom ((List.range 4096).filter fun q => SMap.get none regq.queues q == none) = some (0, t) ∧
        t.takeSystem 5 256 = some (a, u) ∧ (u.putSystem a (qcbImage (regq.hostRead (regq.operand 0 2).toNat 256) 0 0 5)).qcbOk a = true ∧
        (u.putSystem a (qcbImage (regq.hostRead (regq.operand 0 2).toNat 256) 0 0 5)).memNat (a + 0x10) 8 <
          (u.putSystem a (qcbImage (regq.hostRead (regq.operand 0 2).toNat 256) 0 0 5)).memNat (a + 0x18) 8) ∧
      ((deregq.operand 0 1).toNat = 7 ∧ SMap.get none deregq.queues 7 = some ⟨0x8000, 0, 0⟩ ∧ SMap.get false deregq.pendingQ 7 = false ∧
        ((List.range 64).any fun n => (deregq.slot n).state != .unbound && (deregq.slot n).qid == 7) = false ∧
        ((List.range 64).any fun n => (held.slot n).state != .unbound && (held.slot n).qid == 7) = true) := by
  refine ⟨?_, ⟨?_, ?_, ?_, ?_⟩, ?_, ?_, ?_, ?_, ?_, ⟨?_, ?_⟩, ?_⟩
  · refine ⟨asking_serves _ _ _ ?_ ?_ ?_, asking_serves _ _ (crowded 1023) ?_ ?_ ?_, asking_serves _ _ _ ?_ ?_ ?_, asking_serves _ _ _ ?_ ?_ ?_, asking_serves _ _ _ ?_ ?_ ?_,
      asking_serves _ _ _ ?_ ?_ ?_, asking_serves _ _ _ ?_ ?_ ?_, asking_serves _ _ _ ?_ ?_ ?_, asking_serves _ _ _ ?_ ?_ ?_, asking_serves _ _ _ ?_ ?_ ?_, ⟨?_, ?_, ?_, ?_⟩⟩ <;> decide +kernel
  · decide +kernel
  · decide +kernel
  · refine List.filter_eq_nil_iff.mpr fun x hx => ?_
    obtain ⟨j, hj, rfl⟩ := List.mem_map.mp hx
    have := crowded_live 1023 (i := j + 1) (by omega) (by have := List.mem_range.mp hj; omega) (Nat.le_refl _)
    rw [asking_ctxState, this]; decide
  · have e1 := takeSystem_of (s := { asked with free := asked.free + 1 }) (asid := 1) (len := tableBytes 0) (b := 0x800000)
      (by rw [h36]; decide +kernel) (by decide +kernel) (by decide +kernel)
    have e2 := takeSystem_of (s := takes { asked with free := asked.free + 1 } 1 0x800000 (tableBytes 0)) (asid := 1) (len := 2 ^ 22)
      (b := 0xC00000) (by rw [h36]; decide +kernel) (by decide +kernel) (by decide +kernel)
    have e3 := takeSystem_of (s := takes (takes { asked with free := asked.free + 1 } 1 0x800000 (tableBytes 0)) 1 0xC00000 (2 ^ 22))
      (asid := 1) (len := 32 * 4096) (b := 0x1000000) (by rw [h36]; decide +kernel) (by decide +kernel) (by decide +kernel)
    exact ⟨_, _, _, _, _, chooseFrom_of (h32 _) (by decide +kernel), takeContext_of _ _ _ rfl rfl rfl e1 e2 e3, by decide +kernel⟩
  · intro s hs
    simp only [List.mem_cons, List.not_mem_nil, or_false] at hs
    rcases hs with rfl | rfl | rfl | rfl | rfl | rfl | rfl <;> exact ok_of (by decide +kernel)
  · decide +kernel
  · decide +kernel
  · decide +kernel
  · decide +kernel
  · decide +kernel
  · have e := takeSystem_of (s := { asking 0x08 [5, 0x1000] { paged 0 with hostMem := [(0x1008, 16), (0x1018, 1)] } with free := 1 }) (asid := 5) (len := 256) (b := 0x800000)
      (by rw [h36]; decide +kernel) (by decide +kernel) (by decide +kernel)
    exact ⟨_, _, _, chooseFrom_of (h32 _) (by decide +kernel), e, by decide +kernel, by decide +kernel⟩
  · decide +kernel

/-- Context 5 with a code heap at 0x20000, an object map at 0x2000, and these doublewords; partition 0 has asked for this. -/
def loading (code : Nat) (ops : List W64) (l : List (Nat × W64)) : State :=
  asking code ops { tile user with
    homeMap := [(0, 0x8004)], heaps := [(5, some ⟨0x20000, 0x10000, []⟩)]
    mem := words ([(0xA00, 1), (0xA18, 0x2000), (0xB08, 0x40), (0xB18, 15)] ++ l) }

/-- An op list at 0x30000 of one function of one op, a stage entry, with OPHASH 0. -/
def opList (magic : W64) : List (Nat × W64) :=
  [(0x30000, magic + 0x1000100000000), (0x30008, 0x8000000001), (0x30010, 160), (0x30020, 176), (0x30080, 0x100000000), (0x30088, 0x10000),
    (0x300A0, 0xF0), (0x300A8, 0x0200000000000000), (0x300B0, 0x4000010001)]

/-- That list, as the loader reads it. -/
def opBytes (magic : W64) : List Byte := ((loading 0x10 [5, 0x30000] (opList magic)).readVa 5 0x30000 336).getD []

theorem heapPut_of {s : State} {asid : BitVec 16} {n a : Nat} {h : CodeHeap} (bytes : Nat → List Byte) (k : SMap.get none s.heaps asid.toNat = some h)
    (e : Config.freeBits s.free (2 ^ 22) 32 = 0) (r : (s.heapRoom asid h n 16).head? = some a) :
    s.heapPut asid n bytes = some (a, ({ s with free := s.free + 1, heaps := SMap.set none s.heaps asid.toNat (some { h with used := h.used ++ [(a, n)] }) } : State).writeCode asid a (bytes a)) := by
  unfold State.heapPut
  rw [k]; dsimp only
  rw [chooseFrom_of e r]

theorem placeObject_of {s u t : State} {asid : BitVec 16} {hash budget flags a n : Nat} {desc : List Byte} {code : Nat → List Byte}
    (e : s.heapPut asid (224 + n) (fun a => placedObject hash budget flags desc (code (a + 224)) 0 0 a) = some (a, u))
    (k : u.addObject asid ⟨a, 224 + n, 0, hash⟩ = some t) : s.placeObject asid hash budget flags desc [] n code = some t := by
  unfold State.placeObject State.putImage
  rw [if_pos rfl]; dsimp only
  rw [show ([] : List Byte).length = 0 from rfl, e]; dsimp only
  rw [if_neg (by simp), k]

theorem placeList_of {s u t : State} {asid : BitVec 16} {l : List Byte} {h : CodeHeap} {hash budget flags : Nat} {desc : List Byte} {stubs : List Nat}
    (e : SMap.get none s.heaps asid.toNat = some h) (h1 : fieldOf l 0x30 16 = hash) (h2 : fieldOf l 0x24 2 = budget) (h3 : fieldOf l 0x26 2 % 2 = flags)
    (h4 : (l.drop (fieldOf l 0x20 4)).take 160 = desc)
    (h5 : ((List.range (fieldOf desc 2 1)).map fun i => h.base + 16 * ((s.fnsOf asid).length + fieldOf desc (0x20 + 16 * i) 4)) = stubs)
    (k : s.addFns asid h hash (s.fnsOf asid).length 0 (fieldOf l 6 2) = some u) (i : (l.drop (fieldOf l 0x18 4)).take (fieldOf l 0x1C 4) = [])
    (p : u.placeObject asid hash budget flags (stageDesc desc) [] (16 * stubs.length) (fun a => stageCode stubs a) = some t) :
    s.placeList asid l = some t := by
  unfold State.placeList
  rw [e]; dsimp only
  rw [h4, h5, h1, k]; dsimp only
  rw [i, h2, h3, p]

/-- Context 5 with that op list, and the machine as its placement goes on: its stub entered, and its code object put after it. -/
def placing : State := loading 0x10 [5, 0x30000] (opList 0x4856584C)
/-- The stub entered. -/
def placing1 : State := (placing.addFns 5 ⟨0x20000, 0x10000, []⟩ 0 0 0 1).getD {}
/-- The bytes of the code object. -/
def placingBytes (a : Nat) : List Byte := placedObject 0 0 0 (stageDesc (((opBytes 0x4856584C).drop 176).take 160)) (stageCode [0x20000] (a + 224)) 0 0 a
/-- The object put. -/
def placing2 : State :=
  ({ placing1 with free := placing1.free + 1, heaps := SMap.set none placing1.heaps (5 : BitVec 16).toNat (some ⟨0x20000, 0x10000, [(0x20010, 240)]⟩) } : State).writeCode 5 0x20010 (placingBytes 0x20010)

/-- An op list that is good, one that is not, and one that cannot be read. What an OPHASH is and what else an op list keeps are open (log 36). -/
theorem witness_LoaderEvents_Place (h32 : ∀ n, Config.freeBits n (2 ^ 22) 32 = 0) (hh : ∀ l, Config.opHash l = 0) (hl : ∀ l, Config.opListOk l = true) :
    let s := loading 0x10 [5, 0x30000] (opList 0x4856584C)
    let bad := loading 0x10 [5, 0x30000] (opList 0)
    let far := loading 0x10 [5, 0x400000] []
    (∀ t ∈ [s, bad, far], t.ownContext 0 (t.operand 0 1) = .ok 5 ∧ t.Serves 0x10 0 ∧ t.badAccount 5 = false) ∧
      far.readVa 5 (far.operand 0 2).toNat 128 = none ∧
      (∃ h l, bad.readVa 5 (bad.operand 0 2).toNat 128 = some h ∧ bad.readVa 5 (bad.operand 0 2).toNat (opListSize h) = some l ∧ opListGood l = false) ∧
      ∃ h l t u v, s.readVa 5 (s.operand 0 2).toNat 128 = some h ∧ s.readVa 5 (s.operand 0 2).toNat (opListSize h) = some l ∧ opListGood l = true ∧
        stagesOk l = true ∧ s.grantErrata 0 ((List.range (fieldOf l 0x28 2)).map fun i => fieldOf l (0x40 + 2 * i) 2) = .ok t ∧
        t.bindFabric 0 ((List.range (fieldOf l 0x2A 2)).map fun i => fieldOf l (0x60 + 2 * i) 2) = some u ∧ u.placeList 5 l = some v := by
  refine ⟨fun t ht => ?_, ?_, ?_, ?_⟩
  · simp only [List.mem_cons, List.not_mem_nil, or_false] at ht
    rcases ht with rfl | rfl | rfl <;> refine ⟨ok_of ?_, asking_serves _ _ _ ?_ ?_ ?_, ?_⟩ <;> decide +kernel
  · decide +kernel
  · refine ⟨(opBytes 0).take 128, opBytes 0, ?_, ?_, ?_⟩ <;> decide +kernel
  · have hs : opListGood (opBytes 0x4856584C) = true := by
      unfold opListGood opHeaderOk
      rw [hl, hh]; decide +kernel
    have hp : placing1.heapPut 5 240 placingBytes = some (0x20010, placing2) :=
      heapPut_of placingBytes (h := ⟨0x20000, 0x10000, []⟩) (by decide +kernel) (h32 _) (by decide +kernel)
    obtain ⟨v, hv⟩ := Option.isSome_iff_exists.mp (show (placing2.addObject 5 ⟨0x20010, 240, 0, 0⟩).isSome = true by decide +kernel)
    have hk : placing.addFns 5 ⟨0x20000, 0x10000, []⟩ 0 (placing.fnsOf 5).length 0 (fieldOf (opBytes 0x4856584C) 6 2) = some placing1 := by decide +kernel
    have ho : placing1.placeObject 5 0 0 0 (stageDesc (((opBytes 0x4856584C).drop 176).take 160)) [] (16 * [0x20000].length) (fun a => stageCode [0x20000] a) = some v :=
      placeObject_of hp hv
    refine ⟨(opBytes 0x4856584C).take 128, opBytes 0x4856584C, placing, placing, v, by decide +kernel, by decide +kernel, hs, by decide +kernel, ?_, ?_,
      placeList_of (by decide +kernel) (by decide +kernel) (by decide +kernel) (by decide +kernel) ?_ (by decide +kernel) hk (by decide +kernel) ho⟩
    · rw [show fieldOf (opBytes 0x4856584C) 0x28 2 = 0 by decide +kernel]; rfl
    · rw [show fieldOf (opBytes 0x4856584C) 0x2A 2 = 0 by decide +kernel]; rfl
    · decide +kernel

/-- A code object at 0x30000 with a header of these first words: its code 4 bytes, no data image, its descriptor as above. -/
def codeObject (stepping : W64) : List (Nat × W64) :=
  [(0x30000, 0x5A434F44 + 0x100000000 * stepping), (0x30018, 0x400000120), (0x30028, 0x80), (0x30080, 0x4000010001)]

/-- The machine that has that object to place. -/
def object : State := loading 0x11 [5, 0x30000] (codeObject 0x03020100)
/-- The bytes placed. -/
def objectBytes (a : Nat) : List Byte :=
  placedObject 0 0 0 ((object.readVa 5 (0x30000 + 0x80) 160).getD []) ((object.readVa 5 (0x30000 + 0x120) 4).getD []) 0 0 a
/-- The object put. -/
def object2 : State :=
  ({ object with free := object.free + 1, heaps := SMap.set none object.heaps (5 : BitVec 16).toNat (some ⟨0x20000, 0x10000, [(0x20000, 228)]⟩) } : State).writeCode 5 0x20000 (objectBytes 0x20000)

/-- A code object of this device placed where it fits, one of another, and an account that is bad. -/
theorem witness_LoaderEvents_Loadobj (h32 : ∀ n, Config.freeBits n (2 ^ 22) 32 = 0) :
    let s := loading 0x11 [5, 0x30000] (codeObject 0x03020100)
    let other := loading 0x11 [5, 0x30000] (codeObject 0x03020101)
    let broke := loading 0x11 [5, 0x30000] (codeObject 0x03020100 ++ [(0xA20, 0x8000), (0xA28, 11)])
    (∀ t ∈ [s, other, broke], t.ownContext 0 (t.operand 0 1) = .ok 5 ∧ t.Serves 0x11 0 ∧
        (t.readVa 5 (t.operand 0 2).toNat 64).map (fun h => (fieldOf h 0 4, fieldOf h 0x32 2, fieldOf h 0x34 12, fieldOf h 0x1C 4, fieldOf h 0x24 4)) =
          some (0x5A434F44, 0, 0, 4, 0)) ∧
      (((s.readVa 5 0x30000 64).map fun h => fieldOf h 4 4) = some deviceStepping ∧ s.badAccount 5 = false) ∧
      (((other.readVa 5 0x30000 64).map fun h => fieldOf h 4 4) = some 0x03020101 ∧ 0x03020101 ≠ deviceStepping) ∧
      (((broke.readVa 5 0x30000 64).map fun h => fieldOf h 4 4) = some deviceStepping ∧ broke.badAccount 5 = true) ∧
      ∃ code desc t, s.readVa 5 (0x30000 + 0x120) 4 = some code ∧ s.readVa 5 (0x30000 + 0x80) 160 = some desc ∧ code.length = 4 ∧
        s.placeObject 5 0 0 0 desc [] 4 (fun _ => code) = some t := by
  refine ⟨fun t ht => ?_, ?_, ?_, ?_, ?_⟩
  · simp only [List.mem_cons, List.not_mem_nil, or_false] at ht
    rcases ht with rfl | rfl | rfl <;> refine ⟨ok_of ?_, asking_serves _ _ _ ?_ ?_ ?_, ?_⟩ <;> decide +kernel
  · decide +kernel
  · decide +kernel
  · decide +kernel
  · obtain ⟨v, hv⟩ := Option.isSome_iff_exists.mp (show (object2.addObject 5 ⟨0x20000, 224 + 4, 0, 0⟩).isSome = true by decide +kernel)
    have hp : object.heapPut 5 (224 + 4) objectBytes = some (0x20000, object2) :=
      heapPut_of objectBytes (h := ⟨0x20000, 0x10000, []⟩) (by decide +kernel) (h32 _) (by decide +kernel)
    have ho : object.placeObject 5 0 0 0 ((object.readVa 5 (0x30000 + 0x80) 160).getD []) [] 4 (fun _ => (object.readVa 5 (0x30000 + 0x120) 4).getD []) = some v :=
      placeObject_of hp hv
    exact ⟨_, _, v, by decide +kernel, by decide +kernel, by decide +kernel, ho⟩


/-- An object map with room and one that is full; an object to take out; a migration out of one portable image, whose record's size is open
(log 36), and one in of no items; a function whose bundling completes and one to evict. -/
theorem witness_LoaderEvents_Rest (h32 : ∀ n, Config.freeBits n (2 ^ 22) 32 = 0) (hb : ∀ h i p, Config.bundledSize h i p = 64)
    (he : ∀ b, Config.migrationEntry b = []) (hs : ∀ b, Config.migrationSections b = []) :
    let regobj := loading 0x12 [5, 0x40000, 2 ^ 48 - 1, 9] [(0x2000, 0x20000), (0x2008, 0x20000), (0xA00, 0x100000001)]
    let full := loading 0x12 [5, 2 ^ 57 - 1, 1, 9] [(0xA00, 0x100000000001)]
    let unregobj := loading 0x13 [5, 9] [(0xA00, 0x100000001), (0x2008, 0x1000000000001), (0x2010, 9)]
    let runs := fun (s : State) => { s with qslots := [(0, { state := .bound, asid := 5, launch := some { launched with code := 0x30000, stages := [{ suspended := [(0x8000, item)] }] } })] }
    let migout := runs (loading 0x14 [5, 0x50000] [(0x30008, 1), (0x8008, 0x10005)])
    let migin := { runs (loading 0x15 [5, 0x60000] [(0x30008, 1), (0x60000, 0x4856584D), (0x60008, 1)]) with fns := [(5 * 65536, some { hash := 1, index := 0, stub := 0x20000 })] }
    let fns := fun (st : FnState) => { loading 0 [5] [] with fns := [(5 * 65536 + 65535, some { hash := 1, index := 0, stub := 0x20000, state := st })] }
    (∀ q ∈ [(0x12, regobj), (0x12, full), (0x13, unregobj), (0x14, migout), (0x15, migin)], q.2.Serves q.1 0 ∧ q.2.ownContext 0 (q.2.operand 0 1) = .ok 5) ∧
      ((regobj.objMap 5).length < 4096 ∧ (regobj.objMap 5).all (fun o => decide (o.vbase + o.size ≤ (regobj.operand 0 2).toNat) && decide (o.kind ≠ 1)) = true ∧
        0 < (regobj.operand 0 3).toNat ∧ (regobj.operand 0 3).toNat < 2 ^ 48 ∧ (regobj.operand 0 2).toNat + (regobj.operand 0 3).toNat ≤ 2 ^ 57) ∧
      ((full.objMap 5).length = 4096 ∧ (∀ o ∈ full.objMap 5, o.vbase + o.size ≤ (full.operand 0 2).toNat ∧ o.kind = 0) ∧
        (full.operand 0 2).toNat + (full.operand 0 3).toNat = 2 ^ 57) ∧
      (unregobj.objMap 5).map (fun o => (o.kind, o.id)) = [(1, (unregobj.operand 0 2).toNat)] ∧
      ((migout.coresOf 5).all (fun k => (migout.core k).saved) = true ∧ migout.suspendedOf 5 = [(0, 0x8000, item)] ∧ migout.launchHash 0 = 1 ∧
        migout.imageMigrates 0x8000 = true ∧ migout.systemRun (migout.operand 0 2).toNat (migrationRecord 1 [migout.imageBytes 0x8000]).length = true) ∧
      (let a := (migin.operand 0 2).toNat
       ((List.range 64).find? fun k => (migin.slot k).asid == 5 && (migin.slot k).launch.isSome && migin.launchHash k == 1) = some 0 ∧ migin.memNat (a + 8) 16 = 1 ∧
         migin.systemRun a 64 = true ∧ migin.memNat a 4 = 0x4856584D ∧ migin.memNat (a + 0x28) 24 = 0 ∧ (migin.fnsOf 5).map (fun q => q.2.hash) = [1] ∧ migin.memNat (a + 4) 4 = 0) ∧
      (SMap.get none (fns .bundling).fns (fnKey 5 65535) = some { hash := 1, index := 0, stub := 0x20000, state := .bundling } ∧
        SMap.get none (fns .bundling).heaps (5 : BitVec 16).toNat = some ⟨0x20000, 0x10000, []⟩ ∧
        ∃ t, (fns .bundling).chooseFrom ((fns .bundling).heapRoom 5 ⟨0x20000, 0x10000, []⟩ (Config.bundledSize 1 0 ((fns .bundling).profile 0)) 4) = some (0x20010, t)) ∧
      ((fns .evicting).codeFree 5 { hash := 1, index := 0, stub := 0x20000, state := .evicting } = true ∧ (fns .evicting).patches = []) := by
  refine ⟨fun q hq => ?_, ?_, ⟨?_, ?_, ?_⟩, ?_, ⟨?_, ?_, ?_, ?_, ?_⟩, ?_, ⟨?_, ?_, ?_⟩, ?_⟩
  · simp only [List.mem_cons, List.not_mem_nil, or_false] at hq
    rcases hq with rfl | rfl | rfl | rfl | rfl <;> refine ⟨⟨rfl, ?_, ?_, ?_⟩, ok_of ?_⟩ <;> decide +kernel
  · decide +kernel
  · decide +kernel
  · intro o ho
    obtain ⟨i, _, rfl⟩ := List.mem_map.mp ho
    have hb : (loading 0x12 [5, 2 ^ 57 - 1, 1, 9] [(0xA00, 0x100000000001)]).memNat ((loading 0x12 [5, 2 ^ 57 - 1, 1, 9] [(0xA00, 0x100000000001)]).ctxEntry 5 + 0x18) 8 =
      0x2000 := by decide +kernel
    have hk : ∀ q ∈ (loading 0x12 [5, 2 ^ 57 - 1, 1, 9] [(0xA00, 0x100000000001)]).mem, q.1 < 0x2000 := by decide +kernel
    have hm : ∀ n k, 0x2000 ≤ n → (loading 0x12 [5, 2 ^ 57 - 1, 1, 9] [(0xA00, 0x100000000001)]).memNat n k = 0 := fun n k hn =>
      memNat_zero fun q hq => .inl (Nat.lt_of_lt_of_le (hk q hq) hn)
    dsimp only
    rw [hb, hm _ _ (by omega), hm _ _ (by omega), hm _ _ (by omega)]
    exact ⟨Nat.zero_le _, rfl⟩
  · decide +kernel
  · decide +kernel
  · decide +kernel
  · decide +kernel
  · decide +kernel
  · decide +kernel
  · simp only [migrationRecord, he, hs, List.flatMap_cons, List.flatMap_nil, List.append_nil, List.length_append, length_leBytes, List.length_cons, List.length_nil]; decide +kernel
  · decide +kernel
  · decide +kernel
  · decide +kernel
  · rw [hb]; exact ⟨_, chooseFrom_of (h32 _) (by decide +kernel)⟩
  · decide +kernel

/-- Context 5 of partition 0, whose heap 0 has a set of one object, from 0x80 to 0x100, described at 0x1000; a relocation engine; and these
doublewords; partition 0 has asked for this. -/
def heaping (code : Nat) (ops : List W64) (l : List (Nat × W64)) (r : Reloc) : State :=
  asking code ops { tile { user with cr := { asid := 5 }, recolors := [(1, 2)] } with
    homeMap := [(0, 0x8004)], bases := { hcb := 0x100000 }, relocs := [(0, r)]
    mem := words ([(0xA00, 1), (0xB00, 0), (0xB08, 1), (0xB10, 0), (0xB18, 0x1B), (0x1000, 0x100050000), (0x1008, 0x2000), (0x2000, 0x80), (0x2008, 0x100)] ++ l) }

/-- A set to start and a place that is none; the engine of die 3 asked for and aborted; heaps 0 and 7 published in both passes, not published,
freed and not freed; an object that is pinned and one that moves; an object and a page in motion, at the bounds of their counts. -/
theorem witness_HeapEvents :
    let quiet : Reloc := {}
    let start := fun a => heaping 0x18 [a] [] quiet
    let query := fun n => heaping 0x19 [n] [] quiet
    let abort := heaping 0x1A [3] [] quiet
    let pub := fun h (st : W64) => heaping 0x1B [5, h] [(0x102800, st), (0x102F00, st)] quiet
    let pub2 := (pub 7 3).setPhase 0 1
    let free := fun h (st : W64) => heaping 0x1C [5, h] [(0x102800, st), (0x102F00, st)] quiet
    let active : Reloc := { state := 1, asid := 5, list := 0x2000, count := 1 }
    let object := fun (x : W64) => heaping 0 [] [(0x80, x)] active
    let m : ObjMove := { index := 0, fromVa := 0x80, toVa := 0x4000, fromCa := 0x80, toCa := 0x4000, lines := 16 }
    let moving := fun m p => heaping 0 [] [] { active with move := some m, page := p }
    (∀ q ∈ [(0x18, start 0x1040), (0x18, start 0x1000), (0x19, query 0), (0x19, query 3), (0x1A, abort), (0x1B, pub 0 2), (0x1B, pub 7 3), (0x1B, pub2),
        (0x1C, free 7 3), (0x1C, free 0 4)], q.2.Serves q.1 0) ∧
      (((start 0x1040).operand 0 1).toNat % 128 ≠ 0 ∧ ((start 0x1000).operand 0 1).toNat = 0x1000 ∧ (start 0x1000).systemRun 0x1000 128 = true ∧
        (start 0x1000).setOwned 0 0x1000 = true ∧ ((query 3).operand 0 1).toNat = 3 ∧ abort.ctxPart (abort.reloc (abort.operand 0 1).toNat).asid = 0) ∧
      (∀ s ∈ [pub 0 2, pub 7 3, pub2, free 7 3, free 0 4], s.ownContext 0 (s.operand 0 1) = .ok 5 ∧ (s.operand 0 2).toNat < 8) ∧
      (((pub 0 2).mailbox 0).phase = 0 ∧ (pub 0 2).ctxState 5 = 1 ∧ (pub 0 2).memNat ((pub 0 2).hcbAddr 5 0) 1 = 2 ∧
        ((pub 7 3).mailbox 0).phase = 0 ∧ (pub 7 3).ctxState 5 = 1 ∧ (pub 7 3).memNat ((pub 7 3).hcbAddr 5 7) 1 = 3) ∧
      ((pub2.mailbox 0).phase ≠ 0 ∧ (pub2.coresOf 5) = [0] ∧ (pub2.core 0).recolors = [(1, 2)]) ∧
      ((free 7 3).memNat ((free 7 3).hcbAddr 5 7) 1 = 3 ∧ (free 0 4).memNat ((free 0 4).hcbAddr 5 0) 1 = 4) ∧
      (∀ s ∈ [object 0x0000010000000001, object 9], s.reloc 0 = active ∧ s.setEntry active.list active.next = (0x80, 0x100) ∧
        s.managedAt 5 0 0 0x80 = some 0x80 ∧ s.managedAt 5 0 0 0x100 = some 0x100 ∧ s.homePa 5 0x80 = some 0x80) ∧
      (pinCount (BitVec.ofNat 64 ((object 0x0000010000000001).memNat 0x80 8)) ≠ 0 ∧ (object 9).memNat 0x80 8 = 9 ∧
        (object 9).extentOk active 0 0x80 2 = true ∧ (object 9).extentOk active 0 0x100 2 = true) ∧
      (let t := moving { m with read := 15 } none
       t.reloc 0 = { active with move := some { m with read := 15 } } ∧ (t.reloc 0).paused = false ∧ 15 < m.lines ∧ 15 < 0 + 16) ∧
      (let n := { m with read := 16, copied := 15 }
       let t := moving n none
       15 < 16 ∧ t.moveLine { active with move := some n } 0 n 15 = (0x800, 0x4780) ∧
        t.movePas { active with move := some n } (0x800, 0x4780) 15 = some (0x800, 0x4780)) ∧
      (let n := { m with read := 16, copied := 16 }
       let t := moving n none
       n.lines ≤ n.copied ∧ t.reloc 0 = { active with move := some n } ∧ (t.reloc 0).page = none ∧
        ((t.insertFwd 0 1 0x80 0x4000 (fhash 0x80 0) 1).homePa 5 0x80).isSome = true ∧
        (moving n (some (0x10000, 1))).reloc 0 = { active with move := some n, page := some (0x10000, 1) }) := by
  refine ⟨fun q hq => ?_, ?_, fun s hs => ?_, ?_, ?_, ?_, fun s hs => ?_, ?_, ?_, ?_, ?_⟩
  · simp only [List.mem_cons, List.not_mem_nil, or_false] at hq
    rcases hq with rfl | rfl | rfl | rfl | rfl | rfl | rfl | rfl | rfl | rfl <;> refine ⟨rfl, ?_, ?_, ?_⟩ <;> decide +kernel
  · decide +kernel
  · simp only [List.mem_cons, List.not_mem_nil, or_false] at hs
    rcases hs with rfl | rfl | rfl | rfl | rfl <;> refine ⟨ok_of ?_, ?_⟩ <;> decide +kernel
  · decide +kernel
  · decide +kernel
  · decide +kernel
  · simp only [List.mem_cons, List.not_mem_nil, or_false] at hs
    rcases hs with rfl | rfl <;> decide +kernel
  · decide +kernel
  · decide +kernel
  · decide +kernel
  · decide +kernel

/-- A machine whose partition 0 has context 5 and core 0, on which an item of it runs, and a debugger at a level; partition 0 has asked for this. -/
def debugging (level code : Nat) (ops : List W64) (c : Core) : State :=
  asking code ops { tile { c with cr := { c.cr with asid := 5 } } with
    homeMap := [(0, 0x8004)], bases := { lcmap := 0x3000 }, parts := [(0, some { cores := 1 })], sec := { level := [(0, level)] }
    mem := words [(0xA00, 1), (0xB08, 0x40), (0xB18, 15), (0x3000, 0x8000)] }

/-- A packet for sites 0 and 143 of die 3; the last region breakpoint of the package's last core, watching nothing and this context; each form
of HALT at D1 and at D2; the last bundle of the context's range patched and restored; a log with a record of another function, of this one and
none. -/
theorem witness_DebugRequests :
    let d := fun level code ops => debugging level code ops user
    let capture := d 0 0x20 [5 * 2 ^ 48, 0, 3, 1, 0, 0x8000]
    let bp := fun level (x : W64) => d level 0x21 [3, 143, 3, x]
    let halt := fun level (mode : W64) => d level 0x22 [5, mode, 0]
    let patch := fun (form : W64) => d 2 0x23 [5, 0x3FFFFC, form]
    let log := fun (n : Nat) (l : List (Nat × Byte)) => { d 0 0x28 [0, 0x9000] with logSeq := n, bases := { log := 0x8000 }, mem := l }
    (∀ q ∈ [(0x20, capture), (0x21, bp 1 0), (0x21, bp 2 0), (0x21, bp 3 0x0005000000000000), (0x22, halt 1 0), (0x22, halt 2 0), (0x22, halt 2 1), (0x22, halt 2 2),
        (0x22, halt 2 3), (0x23, patch 0), (0x23, patch 1), (0x28, log 1 []), (0x28, log 0 []), (0x28, log 1 [(0x8013, 1)])], q.2.Serves q.1 0) ∧
      ((capture.operand 0 1).extractLsb' 0 44 = 0 ∧ (capture.operand 0 3).toNat = 3 ∧
        (capture.operand 0 6 ++ capture.operand 0 5 ++ capture.operand 0 4 : BitVec 192) = 0x800000000000000000000000000000000001 ∧
        (capture.operand 0 6 ++ capture.operand 0 5 ++ capture.operand 0 4 : BitVec 192).extractLsb' 144 48 = 0 ∧
        (capture.ownContext 0 (((capture.operand 0 1).extractLsb' 48 16).zeroExtend 64)).toOption = some 5) ∧
      (((bp 1 0).operand 0 1).toNat = 3 ∧ ((bp 1 0).operand 0 2).toNat = 143 ∧ ((bp 1 0).operand 0 3).toNat = 3 ∧ (bp 1 0).operand 0 4 = 0 ∧ (bp 1 0).debugLevel 0 = 1 ∧
        (bp 2 0).debugLevel 0 = 2 ∧ ((bp 3 0x0005000000000000).operand 0 4).extractLsb' 18 30 = 0 ∧
        (bp 3 0x0005000000000000).ctxPart (((bp 3 0x0005000000000000).operand 0 4).extractLsb' 48 16) = 0) ∧
      (((halt 1 0).ownContext 0 ((halt 1 0).operand 0 1)).toOption = some 5 ∧ (halt 1 0).debugLevel 0 = 1 ∧ (halt 1 0).operand 0 2 = 0 ∧ (halt 2 0).debugLevel 0 = 2 ∧
        (halt 2 1).operand 0 2 = 1 ∧ (halt 2 2).operand 0 2 = 2 ∧ (halt 2 3).operand 0 2 = 3 ∧ (halt 2 3).maskedCores 5 ((halt 2 3).operand 0 3) = [0]) ∧
      ((((patch 0).mailbox 0).phase ≠ 1) ∧ (patch 0).debugLevel 0 = 2 ∧ ((patch 0).operand 0 2).toNat = 0x3FFFFC ∧ (0x3FFFFC : Nat) % 4 = 0 ∧
        ((patch 0).ownContext 0 ((patch 0).operand 0 1)).toOption = some 5 ∧ (patch 0).partCores 0 = [0] ∧ (patch 0).operand 0 3 = 0 ∧ (patch 1).operand 0 3 = 1) ∧
      ((∃ t, (patch 0).patchHeader 0 5 0x3FFFFC true = some t) ∧ ∃ t, (patch 1).patchHeader 0 5 0x3FFFFC false = some t) ∧
      (let mine := fun (s : State) n => s.memNat (s.recordAt n + 0x13) 1 % 32 == functionOf 0
       (log 0 []).findRecord ((log 0 []).operand 0 1).toNat (mine (log 0 [])) = none ∧
        (log 1 [(0x8013, 1)]).findRecord ((log 1 [(0x8013, 1)]).operand 0 1).toNat (mine (log 1 [(0x8013, 1)])) = none ∧
        (log 1 []).findRecord ((log 1 []).operand 0 1).toNat (mine (log 1 [])) = some 0) := by
  refine ⟨fun q hq => ?_, ?_, ?_, ?_, ?_, ⟨?_, ?_⟩, ?_⟩
  · simp only [List.mem_cons, List.not_mem_nil, or_false] at hq
    rcases hq with rfl | rfl | rfl | rfl | rfl | rfl | rfl | rfl | rfl | rfl | rfl | rfl | rfl | rfl <;> refine ⟨rfl, ?_, ?_, ?_⟩ <;> decide +kernel
  · decide +kernel
  · decide +kernel
  · decide +kernel
  · decide +kernel
  · exact Option.isSome_iff_exists.mp (by decide +kernel)
  · exact Option.isSome_iff_exists.mp (by decide +kernel)
  · decide +kernel

/-- A machine whose upstream function has asked for this. -/
def managing (code : Nat) (ops : List W64) (s : State) : State :=
  { s with host := { s.host with mailboxes := [(16, { taken := (0, BitVec.ofNat 64 code) :: ops.mapIdx fun i x => (i + 1, x), busy := true })], queue := [16] } }

/-- A partition set over none and over one of its port, and withdrawn; the bounds of WHORLSET, PINLEVEL and WEARREAD; an identifier with a port
up and with none; the last entries of both route tables; the first and last groups, the largest and none of its members; an import table's
last entry set and emptied. -/
theorem witness_AdminRequests_Tables :
    let part := fun flag p => managing 0x40 [15, 0x1000] { tile user with hostMem := [(0x1001, flag)], parts := p }
    let whorl := fun (x : W64) => managing 0x41 [3, x] (tile user)
    let pin := fun (x : W64) => managing 0x42 [x] (tile user)
    let wear := managing 0x43 [1, BitVec.ofNat 64 (wearSize - 1), 0x1000] (tile user)
    let setid := fun k => managing 0x44 [0x7FFFF] { tile user with link := k }
    let route := fun (x i : W64) => managing 0x45 [x, i, 0x3FFFF] (tile user)
    let group := fun (g n : W64) => managing 0x46 [g, 0x1000, n] { tile user with hostMem := [(0x1000, 0xFF), (0x1001, 0xFF), (0x1002, 7)] }
    let imp := fun (n : W64) => managing 0x47 [15, 63, 0x7FFFF, n] (tile user)
    let p0 : SMap (Option Partition) := [(0, some {})]
    ((∀ q ∈ [(0x40, part 1 []), (0x40, part 1 p0), (0x40, part 0 p0), (0x41, whorl 0x6400010000), (0x41, whorl 0x927C003E80001), (0x42, pin 699), (0x42, pin 700),
          (0x42, pin 2400), (0x42, pin 2401)], q.2.Serves q.1 16) ∧
        ∀ q ∈ [(0x43, wear), (0x44, setid { devId := some 1, ports := [(17, { locked := true })] }), (0x44, setid {}), (0x45, route 0 4095), (0x45, route 1 255),
          (0x46, group 0x80000 1024), (0x46, group 0xFFFFF 0), (0x47, imp 1), (0x47, imp 0)], q.2.Serves q.1 16) ∧
      (((part 1 []).operand 16 1).toNat = 15 ∧
        (partitionOfBytes ((part 1 []).hostRead ((part 1 []).operand 16 2).toNat 256)).map (fun p => (p.admitted [], p.admitted [{}])) = some (true, false) ∧
        fieldOf ((part 1 []).hostRead 0x1000 256) 1 1 = 1 ∧ fieldOf ((part 0 p0).hostRead 0x1000 256) 1 1 = 0 ∧
        (partitionOfBytes ((part 0 p0).hostRead ((part 0 p0).operand 16 2).toNat 256)).isSome = true) ∧
      ([((whorl 0x6400010000).operand 16 2, 100, 1), ((whorl 0x927C003E80001).operand 16 2, 600000, 1000)].all (fun q =>
        q.1.extractLsb' 1 15 == 0 && (q.1.extractLsb' 32 32).toNat == q.2.1 && (q.1.extractLsb' 16 16).toNat == q.2.2) = true) ∧
      (((pin 699).operand 16 1).toNat = 699 ∧ ((pin 700).operand 16 1).toNat = 700 ∧ ((pin 2400).operand 16 1).toNat = 2400 ∧ ((pin 2401).operand 16 1).toNat = 2401) ∧
      (wear.operand 16 1).toNat + (wear.operand 16 2).toNat = wearSize ∧
      (((setid {}).operand 16 1).toNat = 0x7FFFF ∧ ∀ n, n < 18 → ((setid {}).link.port n).locked = false) ∧
      ((setid { devId := some 1, ports := [(17, { locked := true })] }).link.port 17).locked = true ∧
      ((route 0 4095).operand 16 1 = 0 ∧ ((route 0 4095).operand 16 2).toNat = 4095 ∧ ((route 0 4095).operand 16 3).toNat = 2 ^ 18 - 1 ∧ (route 1 255).operand 16 1 = 1 ∧
        ((route 1 255).operand 16 2).toNat = 255) ∧
      (((group 0x80000 1024).operand 16 1).toNat = 0x80000 ∧ ((group 0x80000 1024).operand 16 3).toNat = 1024 ∧ ((group 0xFFFFF 0).operand 16 1).toNat = 0xFFFFF ∧
        (∀ m ∈ (List.range 1024).map fun i => leNat ((group 0x80000 1024).hostRead (0x1000 + 4 * i) 4), m ≤ 0x7FFFF) ∧ (group 0x80000 1024).link.groups = []) ∧
      (((imp 1).operand 16 1).toNat = 15 ∧ ((imp 1).operand 16 2).toNat = 63 ∧ ((imp 1).operand 16 3).toNat + ((imp 1).operand 16 4).toNat = 0x80000 ∧
        (imp 0).operand 16 4 = 0) := by
  refine ⟨⟨fun q hq => ?_, fun q hq => ?_⟩, ?_, ?_, ?_, ?_, ⟨?_, fun n _ => rfl⟩, ?_, ?_, ?_, ?_⟩
  · simp only [List.mem_cons, List.not_mem_nil, or_false] at hq
    rcases hq with rfl | rfl | rfl | rfl | rfl | rfl | rfl | rfl | rfl <;> refine ⟨rfl, ?_, ?_, ?_⟩ <;> decide +kernel
  · simp only [List.mem_cons, List.not_mem_nil, or_false] at hq
    rcases hq with rfl | rfl | rfl | rfl | rfl | rfl | rfl | rfl | rfl <;> refine ⟨rfl, ?_, ?_, ?_⟩ <;> decide +kernel
  · decide +kernel
  · decide +kernel
  · decide +kernel
  · decide +kernel
  · decide +kernel
  · decide +kernel
  · decide +kernel
  · decide +kernel
  · decide +kernel

theorem signed_of {s : State} {b : List Byte} {x : W256} {t : Nat} {k : W256} (c : s.sec.challenge = some (x, t)) (g : s.signerKey b = some k)
    (e : (fieldOf b 0x20 32 == x.toNat && decide (s.time ≤ t + 1000000000)) = true) (hs : ∀ m sig, Config.signed k m sig = true) : s.recordSigned b = true := by
  unfold State.recordSigned
  rw [c, g]; dsimp only
  rw [e, hs]; rfl

/-- A machine that has issued challenge 1, with a record of this code, signer, level and partition in host memory, its NEWKEY 0. -/
def recording (code signer level part : Nat) (l : Lifecycle) (owner : Option W256) : State :=
  { tile user with
    sec := { lifecycle := l, ownerKey := owner, challenge := some (1, 0) }
    hostMem := [(0x1000, BitVec.ofNat 8 code), (0x1004, BitVec.ofNat 8 signer), (0x1005, BitVec.ofNat 8 level), (0x1006, BitVec.ofNat 8 part), (0x1020, 1)] }

/-- The record. -/
def recordOf (s : State) : List Byte := s.hostRead 0x1000 192

/-- A report, a challenge, and attachments: D2 to partition 15 by its owner, by a signer that may not, in a state that forbids it, D3 to the
package, and the detachment of partition 15. That a signature is good is a matter of the keys, which are open (log 25). -/
theorem witness_AdminRequests_Debug (k : W256) (hk : Config.vendorKey 0 = some k) (hs : ∀ k b sig, Config.signed k b sig = true) :
    let attest := managing 0x30 [1, 2, 3, 4, 0x1000] (tile user)
    let chal := managing 0x31 [] (tile user)
    let attach := fun signer level part l => managing 0x32 [0x1000] (recording 0x32 signer level part l (some 5))
    let detach := managing 0x33 [15] (tile user)
    let d2 := attach 0 2 15 .production
    let bad := attach 1 2 15 .production
    let back := attach 0 2 15 .returned
    let d3 := attach 1 3 0xFF .manufacture
    (attest.Serves 0x30 16 ∧ chal.Serves 0x31 16 ∧ detach.Serves 0x33 16 ∧ (detach.operand 16 1).toNat = 15) ∧
      (∀ s ∈ [d2, bad, back, d3], s.Serves 0x32 16 ∧ recordShape (s.hostRead (s.operand 16 1).toNat 192) 0x32 false = true) ∧
      (fieldOf (recordOf d2) 5 1 = 2 ∧ fieldOf (recordOf d2) 6 1 = 15 ∧ d2.sec.lifecycle.allows 2 = true ∧ back.sec.lifecycle.allows 2 = false ∧
        fieldOf (recordOf bad) 4 1 ≠ 0 ∧ fieldOf (recordOf d2) 4 1 = 0 ∧ d2.recordSigned (recordOf d2) = true) ∧
      (fieldOf (recordOf d3) 5 1 = 3 ∧ fieldOf (recordOf d3) 6 1 = 0xFF ∧ d3.sec.lifecycle.allows 3 = true ∧ fieldOf (recordOf d3) 4 1 = 1 ∧
        d3.recordSigned (recordOf d3) = true) := by
  refine ⟨⟨⟨rfl, ?_, ?_, ?_⟩, ⟨rfl, ?_, ?_, ?_⟩, ⟨rfl, ?_, ?_, ?_⟩, ?_⟩, fun s h => ?_, ⟨?_, ?_, ?_, ?_, ?_, ?_, ?_⟩, ⟨?_, ?_, ?_, ?_, ?_⟩⟩
  all_goals first
    | decide +kernel
    | exact signed_of rfl (k := 5) rfl (by decide +kernel) (hs _)
    | exact signed_of rfl (k := k) hk (by decide +kernel) (hs _)
    | simp only [List.mem_cons, List.not_mem_nil, or_false] at h
      rcases h with rfl | rfl | rfl | rfl <;> exact ⟨⟨rfl, by decide +kernel, by decide +kernel, Lifecycle.noConfusion⟩, by decide +kernel⟩

/-- A claim, a transfer, a return and two retirements, each well signed. -/
theorem witness_AdminRequests_Owner (k : W256) (hk : Config.vendorKey 0 = some k) (hs : ∀ k b sig, Config.signed k b sig = true) :
    let claim := managing 0x48 [0x1000] (recording 0x48 3 0 0xFF .production none)
    let transfer := managing 0x49 [0x1000] (recording 0x49 0 0 0xFF .production (some 5))
    let ret := managing 0x4A [0x1000] (recording 0x4A 0 0 0xFF .production (some 5))
    let retire := managing 0x4B [0x1000] (recording 0x4B 0 0 0xFF .production (some 5))
    let retire2 := managing 0x4B [0x1000] (recording 0x4B 1 0 0xFF .returned none)
    (∀ q ∈ [(0x48, true, 3, claim), (0x49, true, 0, transfer), (0x4A, false, 0, ret), (0x4B, false, 0, retire), (0x4B, false, 1, retire2)],
      q.2.2.2.Serves q.1 16 ∧ q.2.2.2.operand 16 1 = 0x1000 ∧ fieldOf (recordOf q.2.2.2) 5 1 = 0 ∧ fieldOf (recordOf q.2.2.2) 6 1 = 0xFF ∧
        fieldOf (recordOf q.2.2.2) 4 1 = q.2.2.1 ∧ recordShape (recordOf q.2.2.2) q.1 q.2.1 = true ∧ q.2.2.2.recordSigned (recordOf q.2.2.2) = true) ∧
      (claim.sec.lifecycle = .production ∧ claim.sec.ownerKey = none ∧ transfer.sec.lifecycle = .production ∧ transfer.sec.ownerKey.isSome = true ∧
        ret.sec.lifecycle = .production ∧ ret.sec.ownerKey.isSome = true ∧ retire.sec.lifecycle = .production ∧ retire.sec.ownerKey.isSome = true ∧
        retire2.sec.lifecycle = .returned) := by
  refine ⟨fun q h => ?_, by decide +kernel⟩
  simp only [List.mem_cons, List.not_mem_nil, or_false] at h
  rcases h with rfl | rfl | rfl | rfl | rfl <;> refine ⟨⟨rfl, ?_, ?_, Lifecycle.noConfusion⟩, rfl, ?_, ?_, ?_, ?_, ?_⟩ <;> first
    | decide +kernel
    | exact signed_of rfl (k := 0) rfl (by decide +kernel) (hs _)
    | exact signed_of rfl (k := 5) rfl (by decide +kernel) (hs _)
    | exact signed_of rfl (k := k) hk (by decide +kernel) (hs _)

/-- A machine with what the host sees of it. -/
def hosting (h : HostIf) : State :=
  { tile user with homeMap := [(0, 0x8004)], mem := words [(0xA00, 1), (0xB08, 0x40), (0xB18, 15)], host := h }

/-- A ring of the last mailbox while it is busy, of a value that is none, and of a request; seven values answered; a message for too many
pages and for none of a context; an acknowledgement and a timeout; the last doubleword and the whole of the last aperture page. -/
theorem witness_HostEvents :
    let box := fun b (x : W64) => hosting { mailboxes := [(15, { req := [(0, x), (1, 5)], busy := b })] }
    let ask := fun (n : BitVec 32) => (⟨0, 0x01000000, [0x00050000, 0, 0, n, 0, 0]⟩ : VendorMsg)
    let page : Grant := ⟨15, 16383, 5, 0, 0, true, true⟩
    let rev : Revoke := ⟨7, 15, 5, 0, 1, 0⟩
    let xlate := fun n => hosting { vendorIn := [ask n] }
    let ack := hosting { vendorIn := [⟨15, 0x04000000, [7]⟩], revokes := [rev], grants := [page] }
    let host := hosting { grants := [page] }
    let off := 16383 * 65536
    (((box true 3).mailbox 15).busy = true ∧ ((box false 3).mailbox 15).busy = false ∧ (box false 3).host.queue = [] ∧
        (let m := (box false 3).mailbox 15
         requestOk 15 { m with taken := m.req, busy := true, done := false, phase := 0 } = true)) ∧
      (List.replicate 7 (1 : W64)).length ≤ 7 ∧
      ((xlate 65).host.vendorIn = [ask 65] ∧ (ask 65).word.extractLsb' 24 8 = 1 ∧ 64 < (((ask 65).dws.getD 3 0).extractLsb' 0 16).toNat) ∧
      ((((ask 64).dws.getD 3 0).extractLsb' 0 16).toNat = 64 ∧ (((ask 64).dws.getD 0 0).extractLsb' 16 16) = 5 ∧ (xlate 64).ctxState 5 = 1 ∧
        (xlate 64).ctxPart 5 = (ask 64).part) ∧
      (ack.host.vendorIn = [⟨15, 0x04000000, [7]⟩] ∧ ack.host.revokes.find? (fun r => r.tag == 7 && r.part == 15) = some rev) ∧
      ack.host.revokes = [rev] ∧
      ((host.host.grants.find? fun g => g.part == 15 && g.index == (off + 65528) / 65536) = some page ∧ (off + 65528) % 65536 + 8 = 65536 ∧
        (∃ ps u, host.pieces 5 (BitVec.ofNat 52 (page.ca + (off + 65528) % 65536)) .r false 8 = (.ok ps, u) ∧ ps.any Piece.isHeld = false) ∧
        (∃ ps u, host.pieces 5 (BitVec.ofNat 52 (page.ca + (off + 65535) % 65536)) .w false 1 = (.ok ps, u) ∧ ps.any Piece.isHeld = false)) ∧
      (host.host.grants.find? fun g => g.part == 15 && g.index == (off - 8) / 65536) = none := by
  refine ⟨?_, ?_, ?_, ?_, ?_, rfl, ⟨?_, ?_, ?_, ?_⟩, ?_⟩
  · decide +kernel
  · decide
  · decide +kernel
  · decide +kernel
  · decide +kernel
  · decide +kernel
  · decide +kernel
  · obtain ⟨ps, u, e, h⟩ := granted_of (x := (hosting { grants := [⟨15, 16383, 5, 0, 0, true, true⟩] }).pieces 5 65528 .r false 8) (by decide +kernel)
    exact ⟨ps, u, e, h⟩
  · obtain ⟨ps, u, e, h⟩ := granted_of (x := (hosting { grants := [⟨15, 16383, 5, 0, 0, true, true⟩] }).pieces 5 65535 .w false 1) (by decide +kernel)
    exact ⟨ps, u, e, h⟩
  · decide +kernel

/-- A flit of some bytes, under a frame check sequence. -/
def under (c : BitVec 32) (body : BitVec 2016) : Flit := c ++ body

theorem crc_under (c d : BitVec 32) (b : BitVec 2016) : flitCrc (under c b) = flitCrc (under d b) := by
  have e : ∀ c : BitVec 32, (under c b).toNat % 2 ^ 2016 = b.toNat := fun c => by
    have := b.isLt
    rw [under, BitVec.toNat_append, ← Nat.shiftLeft_add_eq_or_of_lt this, Nat.shiftLeft_eq, Nat.add_comm, Nat.add_mul_mod_self_right, Nat.mod_eq_of_lt this]
  unfold flitCrc
  rw [e, e]

theorem check_under (c : BitVec 32) (b : BitVec 2016) : (under c b).extractLsb' 2016 32 = c := by
  apply BitVec.eq_of_getLsbD_eq
  intro i hi
  rw [under, BitVec.getLsbD_extractLsb', BitVec.getLsbD_append]
  simp [hi]

theorem field_under (c : BitVec 32) (b : BitVec 2016) {i n : Nat} (h : i + n ≤ 2016) : (under c b).extractLsb' i n = b.extractLsb' i n := by
  apply BitVec.eq_of_getLsbD_eq
  intro j hj
  rw [under, BitVec.getLsbD_extractLsb', BitVec.getLsbD_extractLsb', BitVec.getLsbD_append, if_pos (by omega)]

/-- A flit that carries its own frame check sequence. -/
def sealed (body : BitVec 2016) : Flit := under (flitCrc (under 0 body)) body

theorem sealed_good (b : BitVec 2016) : flitCrc (sealed b) = (sealed b).extractLsb' 2016 32 := by
  rw [sealed, check_under]; exact crc_under ..

theorem crc_bad : ∃ f : Flit, flitCrc f ≠ f.extractLsb' 2016 32 := by
  by_cases h : flitCrc (under 0 0) = 0
  · refine ⟨under 1 0, ?_⟩
    rw [check_under, crc_under 1 0, h]; decide
  · refine ⟨under 0 0, ?_⟩
    rw [check_under]; exact h

theorem pump_rxSeq : ∀ (n : Nat) (p : Port), (p.pump n).rxSeq = p.rxSeq
  | 0, _ => rfl
  | n + 1, p => by
    rw [Port.pump]
    cases h : p.sendOne with
    | none => rfl
    | some q =>
      dsimp only
      rw [pump_rxSeq n q]
      unfold Port.sendOne at h
      split at h
      · cases h
      · dsimp only at h
        split at h
        · cases h
        · injection h with h; rw [← h]

theorem credit_rxSeq (p : Port) (f : Flit) (n : Nat) : (p.credit f n).rxSeq = p.rxSeq := by
  unfold Port.credit
  rw [pump_rxSeq]
  split <;> rfl

/-- 18 R454: CRC-32 of the nine characters 123456789, the check value that IEEE 802.3's polynomial is known by. -/
theorem test_crc32 : ~~~ crcBits 0xFFFFFFFF (leNat [0x31, 0x32, 0x33, 0x34, 0x35, 0x36, 0x37, 0x38, 0x39]) 72 = 0xCBF43926 := by decide +kernel

/-- Context 5 of partition 0 in system memory, and the scale-out engine. -/
def linked (k : Link) : State :=
  { tile user with homeMap := [(0, 0x8004)], mem := words [(0xA00, 1), (0xB08, 0x40), (0xB18, 15)], link := k }

/-- The last port, out of lock and in it; a bad flit, an idle one, a data flit in order and one out of it; the control messages; a member's
heartbeat and probe; ports up and down; a peer that no longer answers; the first group's member that is no longer heard. -/
theorem witness_LinkEvents_Ports :
    let up : Port := { locked := true, rxSeq := 5 }
    let port := fun p => linked { devId := some 1, ports := [(17, p)] }
    let control := fun (u : BitVec 128) => linked { controls := [(17, u)], ports := [(17, { replay := [(5, plainMsg mtRead 1 7)] })] }
    let peer := linked { devId := some 1, reqs := [⟨0xFFFFF, 9, 0, .landing 7, 0⟩], groups := [(0x80000, [2])] }
    ((((port {}).link.port 17).locked = false ∧ ((port {}).link.port 17).down = false) ∧ ((port up).link.port 17).locked = true) ∧
      (∃ f : Flit, flitCrc f ≠ f.extractLsb' 2016 32) ∧
      (flitCrc (sealed 0) = (sealed 0).extractLsb' 2016 32 ∧ (sealed 0).extractLsb' 0 8 = 0) ∧
      (flitCrc (sealed 0x50001) = (sealed 0x50001).extractLsb' 2016 32 ∧ (sealed 0x50001).extractLsb' 0 8 = 1 ∧
        ((sealed 0x50001).extractLsb' 16 12).toNat = (((port up).link.port 17).credit (sealed 0x50001) (port up).time).rxSeq) ∧
      (flitCrc (sealed 0x40001) = (sealed 0x40001).extractLsb' 2016 32 ∧ (sealed 0x40001).extractLsb' 0 8 = 1 ∧
        ((sealed 0x40001).extractLsb' 16 12).toNat ≠ (((port up).link.port 17).credit (sealed 0x40001) (port up).time).rxSeq) ∧
      ((control 1).link.controls = [(17, 1)] ∧ (1 : BitVec 128).extractLsb' 0 8 = 1 ∧ (0x500000002 : BitVec 128).extractLsb' 0 8 = 2 ∧
        ((((control 0x500000002).link.port 17).replay).any fun r => r.1 == ((0x500000002 : BitVec 128).extractLsb' 32 12).toNat) = true ∧
        (3 : BitVec 128).extractLsb' 0 8 = 3) ∧
      (peer.link.devId = some 1 ∧ (peer.link.reqs.filter fun r => r.peer == BitVec.ofNat 20 0xFFFFF) = [⟨0xFFFFF, 9, 0, .landing 7, 0⟩] ∧ 0xFFFFF < 2 ^ 20 ∧
        peer.link.unreachable.contains (BitVec.ofNat 20 0xFFFFF) = false) ∧
      ((SMap.get [] peer.link.groups 0x80000).contains 2 = true ∧ peer.link.fenced.contains (0x80000, 2) = false ∧ peer.link.devId ≠ some (BitVec.ofNat 20 2) ∧
        (linked { devId := some 1, groups := [(0x80000, [2])] }).link.reqs = []) ∧
      (((control 1).link.port 17).down = false ∧ ((control 1).link.port 17).replay ≠ [] ∧ (control 1).link.reqs = [] ∧
        ((port { down := true }).link.port 17).down = true) := by
  refine ⟨?_, crc_bad, ⟨sealed_good _, ?_⟩, ⟨sealed_good _, ?_, ?_⟩, ⟨sealed_good _, ?_, ?_⟩, ?_, ?_, ?_, ?_⟩
  · decide +kernel
  · rw [sealed, field_under _ _ (by omega)]; decide +kernel
  · rw [sealed, field_under _ _ (by omega)]; decide +kernel
  · rw [credit_rxSeq, sealed, field_under _ _ (by omega)]; decide +kernel
  · rw [sealed, field_under _ _ (by omega)]; decide +kernel
  · rw [credit_rxSeq, sealed, field_under _ _ (by omega)]; decide +kernel
  · decide +kernel
  · decide +kernel
  · decide +kernel
  · decide +kernel

/-- A message of a type that has been received, with what is known of it and of the machine without it. -/
theorem takeMessage_of {s : State} {mt : BitVec 8} (p : Nat → Msg → State → Bool)
    (h : (match s.takeMessage mt with | some q => p q.1 q.2.1 q.2.2 | none => false) = true) :
    ∃ port m t, s.takeMessage mt = some (port, m, t) ∧ p port m t = true := by
  cases e : s.takeMessage mt with
  | none => rw [e] at h; cases h
  | some q => rw [e] at h; exact ⟨q.1, q.2.1, q.2.2, rfl, h⟩

/-- A machine of identifier 1, whose partition 0 imports from package 7 alone, that has received this message; 1 is a member of group 0x80001,
and these members are fenced. -/
def far (m : Msg) (fenced : List (Nat × Nat)) : State :=
  linked { devId := some 1, inbox := [(17, m)], imports := [(63, (7, 1))], groups := [(0x80001, [1])], fenced := fenced }

/-- A message of a type from a package, for 16 bytes of context 5, the last of a line. -/
def sent (mt : BitVec 8) (src dst : BitVec 20) (op : BitVec 8) : Msg := { plainMsg mt src dst with rasid := 5, ca := 0xFF0, op := op, units := [1] }

/-- Requests of a package that is not imported, of a fenced member, and of each kind that is admitted. -/
theorem witness_LinkEvents_Requests :
    (∃ port m t, (far (sent mtRead 8 1 0) []).takeMessage mtRead = some (port, m, t) ∧ t.admits m = false) ∧
      (∃ port m t, (far (sent mtWrite 8 1 0) [(0x80001, 8)]).takeMessage mtWrite = some (port, m, t) ∧
        (!t.admits m && (far (sent mtWrite 8 1 0) [(0x80001, 8)]).link.fencedWriter m) = true) ∧
      ([((sent mtRead 7 1 0), Need.r, 128, 128), ((sent mtWrite 7 1 0), Need.w, 16, 16), ((sent mtBcst 7 0x80001 0), Need.w, 16, 16),
          ((sent mtAtomic 7 1 0x17), Need.rw, 8, 1), ((sent mtAtomic 7 1 8), Need.rw, 4, 1), ((sent mtRedc 7 1 0), Need.rw, 128, 128)].all fun q =>
        match (far q.1 []).takeMessage q.1.mtype with
        | some x => x.2.2.admits x.2.1 && !(far q.1 []).link.fencedWriter x.2.1 &&
            granted (x.2.2.pieces 5 (BitVec.ofNat 52 (x.2.1.ca.toNat / q.2.2.2 * q.2.2.2)) q.2.1 false q.2.2.1)
        | none => false) = true ∧
      (amoOfCode ((0x17 : BitVec 8).extractLsb' 0 4).toNat = some .cas ∧ amoOfCode ((8 : BitVec 8).extractLsb' 0 4).toNat = some .fadd) := by
  refine ⟨?_, ?_, ?_, ?_⟩
  · obtain ⟨port, m, t, e, h⟩ := takeMessage_of (s := far (sent mtRead 8 1 0) []) (mt := mtRead) (fun _ m t => !t.admits m) (by decide +kernel)
    exact ⟨port, m, t, e, by simpa using h⟩
  · exact takeMessage_of (s := far (sent mtWrite 8 1 0) [(0x80001, 8)]) (mt := mtWrite)
      (fun _ m t => !t.admits m && (far (sent mtWrite 8 1 0) [(0x80001, 8)]).link.fencedWriter m) (by decide +kernel)
  · decide +kernel
  · decide +kernel

/-- A line with and without poison, as REDC finds it. -/
theorem witness_LinkEvents_Poison :
    let s := fun bad => { far (sent mtRedc 7 1 0) [] with memPoison := bad }
    ([([(0xFF, true)], true), ([], false)].all fun q =>
      match (s q.1).takeMessage mtRedc with
      | some x => match x.2.2.pieces 5 0xF80 .rw false 128 with
        | (.ok ps, u) => !ps.any Piece.isHeld && (ps.any fun p => u.placePoison p.place) == q.2
        | _ => false
      | none => false) = true := by
  decide +kernel

/-- Responses: a late one, and one of each kind that is awaited; the messages between engines. -/
theorem witness_LinkEvents_Responses :
    let c : Core := { user with
      landings := [slotOf 0xFFF (.load 0 true) .waiting true]
      stream := [{ seq := 9, tgt := near 0x2001, kind := .data [1] }] }
    let s := fun (mt : BitVec 8) (reqs : List Req) (kind : BitVec 8) =>
      { linked { devId := some 1, inbox := [(17, { plainMsg mt 7 1 with fmt := kind, units := List.replicate 8 1 })], reqs := reqs } with cores := [(0, c)] }
    let l : List Req := [⟨7, 0, 0, .landing 7, 0⟩]
    let took := fun (s : State) mt => (s.takeResponse mt).map fun q => (q.2.1.map Req.sink, (q.2.2.landingOf 0 7).map Prod.fst)
    took (s mtRdata [] 0) mtRdata = some (none, some 0) ∧ took (s mtRdata l 0) mtRdata = some (some (.landing 7), some 0) ∧
      took (s mtWack [⟨7, 0, 0, .store 9, 0⟩] 0) mtWack = some (some (.store 9), some 0) ∧
      ([(mtAreply, (0 : BitVec 8)), (mtError, 3), (mtError, 2)].all fun q => (match (s q.1 l q.2).takeResponse q.1 with
        | some x => match x.2.1 with
          | some r => r.sink == .landing 7 && ((x.2.2.popSent r.core fun e => e.isAmoOf 7).landingOf r.core 7).isSome
          | none => false
        | none => false)) = true ∧
      ([mtHeartbeat, mtProbe, mtProbeack].all fun mt => ((far (sent mt 7 1 0) []).takeMessage mt).isSome) = true := by
  refine ⟨?_, ?_, ?_, ?_, ?_⟩
  · decide +kernel
  · decide +kernel
  · decide +kernel
  · decide +kernel
  · decide +kernel

theorem steps_of {s : State} (h : (match step s with | .next _ => true | _ => false) = true) : ∃ t, step s = .next t := by
  cases e : step s with
  | next t => exact ⟨t, rfl⟩
  | fault _ => rw [e] at h; cases h
  | refused _ => rw [e] at h; cases h

/-- A machine whose memory lists two bytes, the highest of the address space among them: a step of the agenda, and one that issues a bundle. -/
theorem witness_StepKeepsMemory :
    let mem : SMap Byte := [(0, 1), (2 ^ 52 - 1, 0xFF)]
    let s := { tile user with mem := mem, agenda := [.elapse 5] }
    let u := { (tile user).withFetchWord 32 0xB0000FC0 with mem := mem }
    Memory.wf s.mem ∧ (∃ t, step s = .next t) ∧ Memory.wf u.mem ∧ ∃ t, step u = .next t := by
  refine ⟨?_, ⟨_, rfl⟩, ?_, steps_of ?_⟩ <;> decide +kernel

end Sys2Proof.Tests
end

/-! ## Memory stays in its canonical form

`State.Canon` says that memory is canonical. A few operations alone change memory: `State.memWrite`, `SMap.clear`, and a reset or
a wipe that empties it; everything else writes other fields. So each function of the model that gives a state gets one lemma of the
same name, in the namespace `State.Canon`, whose proof follows the function's branches and cites the lemmas of the functions that it
calls. `CanonOpt` and `CanonOut` say the same of an optional state and of an outcome, `OpSem.Keeps` of a slot operation's meaning and
`Served.Canon` of an answer of the firmware. -/

namespace Sys2Proof.Machine

-- One proof at a time: the threads of many waiting proofs do not fit in memory.
set_option Elab.async false

/-- Memory is in its canonical form (log 4). -/
def State.Canon (s : State) : Prop := Memory.wf s.mem = true

/-- A state that may be none, canonical where there is one. -/
def CanonOpt (o : Option State) : Prop := ∀ t, o = some t → t.Canon

/-- An outcome whose next state, if there is one, is canonical. -/
def CanonOut (o : Host.Outcome State Fault Refusal) : Prop := ∀ t, o = .next t → t.Canon

namespace CanonOpt

theorem none : CanonOpt none := fun _ e => by cases e

theorem some {t : State} (h : t.Canon) : CanonOpt (some t) := by
  rintro _ ⟨⟩
  exact h

theorem branch {c : Prop} [Decidable c] {o p : Option State} (ho : CanonOpt o) (hp : CanonOpt p) : CanonOpt (if c then o else p) := by
  split
  · exact ho
  · exact hp

theorem map {α : Type} {o : Option α} {f : α → State} (hf : ∀ x, o = .some x → (f x).Canon) : CanonOpt (o.map f) := by
  intro t e
  obtain ⟨x, hx, rfl⟩ := Option.map_eq_some_iff.mp e
  exact hf x hx

end CanonOpt

namespace CanonOut

theorem next {t : State} (h : t.Canon) : CanonOut (.next t) := by
  rintro _ ⟨⟩
  exact h

theorem refused {r : Refusal} : CanonOut (.refused r) := fun _ e => by cases e
theorem fault {r : Fault} : CanonOut (.fault r) := fun _ e => by cases e

theorem branch {c : Prop} [Decidable c] {o p : Host.Outcome State Fault Refusal} (ho : CanonOut o) (hp : CanonOut p) :
    CanonOut (if c then o else p) := by
  split
  · exact ho
  · exact hp

theorem offered {o : Option State} (h : CanonOpt o) : CanonOut (offered o) := by
  cases o with
  | none => exact refused
  | some t => exact next (h t rfl)

end CanonOut

namespace State.Canon

variable {s : State}

/-! ### Writes of memory, and updates that leave it as it is -/

theorem memWrite {a l} (h : s.Canon) : (s.memWrite a l).Canon := State.wf_memWrite s a l h
theorem memPut {a n x} (h : s.Canon) : (s.memPut a n x).Canon := h.memWrite
theorem modCore {k f} (h : s.Canon) : (s.modCore k f).Canon := h

/-- A state with the same memory. -/
theorem frame {t : State} (h : s.Canon) (e : t.mem = s.mem := by rfl) : t.Canon := by
  unfold State.Canon
  rw [e]
  exact h

/-! ### Choices and folds -/

theorem branch {c : Prop} [Decidable c] {t u : State} (ht : t.Canon) (hu : u.Canon) : (if c then t else u).Canon := by
  split
  · exact ht
  · exact hu

theorem foldl {α : Type} {f : State → α → State} (h : s.Canon) (hf : ∀ t x, State.Canon t → (f t x).Canon) :
    ∀ {l : List α}, (l.foldl f s).Canon := by
  intro l
  induction l generalizing s with
  | nil => exact h
  | cons x l ih => exact ih (hf s x h)

theorem snd_eq {α : Type} {p : α × State} {x : α} {t : State} (h : p.2.Canon) (e : p = (x, t)) : t.Canon := by
  subst e
  exact h

/-! ### Accounts -/

theorem ringUnits {ring units} : ∀ {n u bs} {s : State}, s.Canon → (s.ringUnits ring units u bs n).Canon
  | 0, _, _, _, h => h
  | _ + 1, _, _, _, h => by
    unfold State.ringUnits
    exact ringUnits (memWrite h)

theorem ringRecord {asid body count} (h : s.Canon) : (s.ringRecord asid body count).Canon := by
  unfold State.ringRecord
  split
  · exact h
  · exact branch h.memPut.ringUnits h.memPut.memPut

theorem dropSpill {asid count} (h : s.Canon) : (s.dropSpill asid count).Canon := by
  unfold State.dropSpill
  split
  · exact h
  · exact h.memPut

theorem spillHash {key reason e} (h : s.Canon) : (s.spillHash key reason e).Canon :=
  branch h (branch h.dropSpill h.ringRecord)

theorem hashAdd {key ctx pc cause n} (h : s.Canon) : (s.hashAdd key ctx pc cause n).Canon := by
  unfold State.hashAdd
  dsimp only
  split
  · split
    · exact branch h.modCore h.spillHash.modCore
    · exact h
  · refine modCore ?_
    split
    · exact h.spillHash
    · exact h

theorem spillWhere {key reason p} (h : s.Canon) : (s.spillWhere key reason p).Canon :=
  (h.foldl fun _ _ h => by
    split
    · exact branch h.spillHash h
    · exact h).modCore

theorem bankSnapshot {key loop reason exits pc} (h : s.Canon) : (s.bankSnapshot key loop reason exits pc).Canon :=
  branch h h.ringRecord.modCore

theorem blockAdds {block row live} : ∀ {n k} {s : State}, s.Canon → (s.blockAdds block row live k n).Canon
  | 0, _, _, h => h
  | _ + 1, _, _, h => by
    unfold State.blockAdds
    exact blockAdds (branch h h.memPut)

theorem flushLive {key} (h : s.Canon) : (s.flushLive key).Canon := by
  unfold State.flushLive
  exact (branch h h.blockAdds).modCore

theorem setOwner {key ctx} (h : s.Canon) : (s.setOwner key ctx).Canon := branch h h.bankSnapshot.flushLive.modCore

theorem charge {key ctx pc l} (h : s.Canon) : (s.charge key ctx pc l).Canon :=
  (branch h (h.setOwner.foldl fun _ _ h => branch h h.hashAdd).modCore).modCore

/-! ### The error log -/

theorem logRaw {cls part rest} (h : s.Canon) : (s.logRaw cls part rest).Canon := h.memWrite
theorem logAppend {r} (h : s.Canon) : (s.logAppend r).Canon := h.logRaw

/-! ### Translation and accesses at the home slices -/

theorem walkFresh {asid ca need host} (h : s.Canon) : (s.walkFresh asid ca need host).st.Canon := by
  unfold State.walkFresh
  split
  · exact h
  · exact h
  · dsimp only
    repeat' split
    all_goals exact h

theorem translate {asid ca need host} (h : s.Canon) : (s.translate asid ca need host).st.Canon := by
  unfold State.translate
  split
  · exact h
  · split
    · split
      · exact h
      · split
        · exact h
        · exact h.walkFresh
    · exact h.walkFresh

theorem serve {asid ca need host} (h : s.Canon) : (s.serve asid ca need host).st.Canon := by
  unfold State.serve
  dsimp only
  split
  · split <;> exact h
  · split
    · exact h.translate
    · split
      · exact h
      · split
        · exact h.translate
        · split
          · split <;> exact h.translate
          · split
            · split <;> exact h.translate
            · exact h.translate

theorem piecesOf {asid ca need host} : ∀ {l} {s : State}, s.Canon → (s.piecesOf asid ca need host l).2.Canon
  | [], _, h => h
  | (_, _) :: l, s, h => by
    unfold State.piecesOf
    dsimp only
    split
    · exact h.serve
    · split
      · next e => exact snd_eq (piecesOf h.serve) e
      · next e => exact snd_eq (piecesOf h.serve) e

theorem pieces {asid ca need host n} (h : s.Canon) : (s.pieces asid ca need host n).2.Canon := h.piecesOf

theorem logSubword {asid p bytes} (h : s.Canon) : (s.logSubword asid p bytes).Canon := h.logAppend

theorem writePiece {asid p bytes} (h : s.Canon) : (s.writePiece asid p bytes).Canon := by
  unfold State.writePiece
  split
  · exact branch h.logSubword h.memWrite
  · exact h
  · exact h.modCore
  · exact h

theorem writePieces {asid} : ∀ {ps bytes} {s : State}, s.Canon → (s.writePieces asid ps bytes).Canon
  | [], _, _, h => h
  | _ :: _, _, _, h => by
    unfold State.writePieces
    exact writePieces (writePiece h)

theorem setPoison {p b} (h : s.Canon) : (s.setPoison p b).Canon := by
  unfold State.setPoison
  split
  · exact h
  · exact h.modCore
  · exact h

theorem sendInvalidations {writer line} (h : s.Canon) : (s.sendInvalidations writer line).Canon := h

theorem sendAll {writer ca n} (h : s.Canon) : (s.sendAll writer ca n).Canon := h.foldl fun _ _ h => h.sendInvalidations

theorem homeWrite {asid writer ca ps bytes} (h : s.Canon) : (s.homeWrite asid writer ca ps bytes).Canon :=
  h.writePieces.sendAll

theorem fillRdc {die p} (h : s.Canon) : (s.fillRdc die p).Canon := by
  unfold State.fillRdc
  dsimp only
  split
  · exact branch h h
  · exact h

theorem readPieces {die ps} (h : s.Canon) : (s.readPieces die ps).2.2.Canon := h.foldl fun _ _ h => h.fillRdc

/-! ### Items, launches, completion records and kills -/

theorem releaseIfAll {n} (h : s.Canon) : (s.releaseIfAll n).Canon := by
  unfold State.releaseIfAll
  split
  · exact h
  · exact branch h (h.foldl fun _ _ h => h.modCore)

theorem leaveGang {key g} (h : s.Canon) : (s.leaveGang key g).Canon := by
  unfold State.leaveGang
  split
  · exact h
  · split
    · exact h
    · exact releaseIfAll h

theorem setSlot {n q} (h : s.Canon) : (s.setSlot n q).Canon := h
theorem modLaunch {n f} (h : s.Canon) : (s.modLaunch n f).Canon := h.setSlot

theorem endItem {key} (h : s.Canon) : (s.endItem key).Canon := by
  unfold State.endItem
  split
  · exact h
  · exact h.modCore.leaveGang.modLaunch

theorem writeVa {asid va bytes} (h : s.Canon) : (s.writeVa asid va bytes).Canon := by
  unfold State.writeVa
  split
  · exact h
  · dsimp only
    split
    · next e => exact (h.pieces.snd_eq e).homeWrite
    · next e => exact h.pieces.snd_eq e

theorem complete {asid done status ended cores} (h : s.Canon) : (s.complete asid done status ended cores).Canon :=
  branch h (branch h.writeVa h.writeVa)

theorem killPackets {asid base size} : ∀ {n rd} {s : State}, s.Canon → (s.killPackets asid base size rd n).Canon
  | 0, _, _, h => h
  | _ + 1, _, _, h => by
    unfold State.killPackets
    exact killPackets (complete h)

theorem killSlot {n} (h : s.Canon) : (s.killSlot n).Canon := by
  unfold State.killSlot
  dsimp only
  split
  · exact h.setSlot
  · exact h.killPackets.setSlot

theorem killQueue {qid r} (h : s.Canon) : (s.killQueue qid r).Canon := by
  unfold State.killQueue State.Canon
  dsimp only
  exact h.killPackets.memPut

theorem killLaunches {asid} (h : s.Canon) : (s.killLaunches asid).Canon :=
  (h.foldl fun _ _ h => branch h.killSlot h).foldl fun _ _ h => by
    split
    · exact branch h.killQueue h
    · exact h

theorem setCtxState {asid st} (h : s.Canon) : (s.setCtxState asid st).Canon := h.memPut

theorem killContext {asid source w reason} (h : s.Canon) : (s.killContext asid source w reason).Canon :=
  branch h ((((h.setCtxState.foldl fun _ _ h => h.modCore).killLaunches.foldl fun _ _ h => h.spillWhere).foldl
    fun _ _ h => h.flushLive).logAppend)

theorem contain {part source seq} (h : s.Canon) : (s.contain part source seq).Canon :=
  (h.frame.foldl fun _ _ h => h.killContext).foldl fun _ _ h => branch h.setSlot h

/-! ### The scale-out engine -/

theorem request {core sink m} (h : s.Canon) : CanonOpt (s.request core sink m) := by
  unfold State.request
  dsimp only
  split
  · exact .none
  · exact .branch .none (.map fun _ _ => h)

theorem answer {req f} (h : s.Canon) : (s.answer req f).Canon := by
  unfold State.answer
  dsimp only
  split <;> exact h

theorem answerError {req kind} (h : s.Canon) : (s.answerError req kind).Canon := h.answer

theorem takeMessage {mtype} {q : Nat × Msg × State} (h : s.Canon) (e : s.takeMessage mtype = some q) : q.2.2.Canon := by
  unfold State.takeMessage at e
  dsimp only at e
  split at e
  · cases e
  · split at e
    · cases e
    · cases e
      exact h

/-! ### Barriers, colours, the wear log and scan passes -/

theorem sendBar {key} (h : s.Canon) : (s.sendBar key).Canon := by
  unfold State.sendBar
  split
  · exact branch h.modCore h
  · exact h

theorem takeRecolors {key} (h : s.Canon) : (s.takeRecolors key).Canon :=
  branch h (h.modCore.foldl fun _ _ h => h.modCore.foldl fun _ _ h => branch h h.modCore)

theorem wearAdd {off width n} (h : s.Canon) : (s.wearAdd off width n).Canon := h
theorem modWhorl {die f} (h : s.Canon) : (s.modWhorl die f).Canon := h
theorem setSegment {die i e} (h : s.Canon) : (s.setSegment die i e).Canon := h
theorem setSiteState {key x} (h : s.Canon) : (s.setSiteState key x).Canon := h
theorem afterScan {key} (h : s.Canon) : (s.afterScan key).Canon := h.modCore.modWhorl
theorem settleSite {key start failed} (h : s.Canon) : (s.settleSite key start failed).Canon := h

theorem scanVerdict {key start} (h : s.Canon) : (s.scanVerdict key start).2.Canon := by
  unfold State.scanVerdict
  extract_lets die n s₁ bad units native all s₂ passed
  have h₂ : s₂.Canon := foldl (s := s₁) h fun _ _ h => h.setSegment
  clear_value s₂ all
  split
  · exact h₂.frame.settleSite
  · exact h₂.setSiteState.settleSite

theorem serveAwait {key} (h : s.Canon) : (s.serveAwait key).Canon := by
  unfold State.serveAwait
  split
  · exact h
  · exact branch h.modCore h
  · exact branch h h.memPut.modCore
  · extract_lets die k finish s₁ r
    have hf : ∀ {t v}, State.Canon t → (finish t v).Canon := fun h => h.afterScan.modCore
    split
    · exact hf h
    · have h₁ : s₁.Canon := branch h h
      exact branch h₁ (hf h₁.scanVerdict)

/-! ### Placed code -/

theorem shootDown {mb asid va line cores} (h : s.Canon) : (s.shootDown mb asid va line cores).Canon :=
  (h.foldl fun _ _ h => h.modCore).frame

theorem writeCode {asid va bytes} (h : s.Canon) : (s.writeCode asid va bytes).Canon := by
  unfold State.writeCode
  split
  · exact h.homeWrite
  · exact h

theorem setStub {asid f placed} (h : s.Canon) : (s.setStub asid f placed).Canon := by
  unfold State.setStub
  split
  · exact h.homeWrite.shootDown
  · exact h

theorem setFn {key f} (h : s.Canon) : (s.setFn key f).Canon := h

theorem stubReached {key pc} (h : s.Canon) : (s.stubReached key pc).Canon := by
  unfold State.stubReached
  dsimp only
  split
  · exact h
  · split
    · exact h.setFn.modCore
    · split
      · exact h.setFn
      · exact h.setFn.setStub
      · exact h.setFn

theorem afterProfile {old} (h : s.Canon) : (s.afterProfile old).Canon :=
  branch h (h.foldl fun _ _ h => by
    dsimp only
    split
    · exact branch h.setFn.setStub h
    · exact h)

end State.Canon

/-- An operation's effects keep memory canonical. -/
def OpSem.Keeps (m : OpSem) : Prop := ∀ key v a, a.st.Canon → (m.perform key v a).st.Canon

/-- So do those of every operation that a bundle may issue, present or sticky. -/
structure Fetched.Keeps (f : Fetched) : Prop where
  present : ∀ p ∈ f.present, p.2.2.Keeps
  look : ∀ sl w m, f.look sl w = some m → m.Keeps

namespace State.Canon

variable {s : State}

/-! ### Freezes, traps and returns -/

theorem freezeCycle {key cause} (h : s.Canon) : (s.freezeCycle key cause).Canon :=
  branch h.charge (branch h.charge h.charge)

theorem freezeCycles {key cause} : ∀ {n} {s : State}, s.Canon → (s.freezeCycles key cause n).Canon
  | 0, _, h => h
  | _ + 1, _, h => by
    unfold State.freezeCycles
    exact freezeCycles (freezeCycle h)

theorem supervisorFault {key cause info epc} (h : s.Canon) : (s.supervisorFault key cause info epc).Canon := by
  unfold State.supervisorFault
  exact h.modCore.logAppend.contain

theorem systemTrap {key cause} (h : s.Canon) : (s.systemTrap key cause).Canon := by
  unfold State.systemTrap
  extract_lets c asid seq s₁ s₂ s₃
  have h₂ : s₂.Canon := h.logAppend.endItem
  exact (branch h₂ h₂.killContext : s₃.Canon).modCore

theorem takeTrap {key t epc erep} (h : s.Canon) : (s.takeTrap key t epc erep).Canon :=
  branch h.supervisorFault (branch h.systemTrap (branch h.modCore.stubReached h.modCore))

theorem eret {key} (h : s.Canon) : (s.eret key).Canon :=
  branch (branch h.endItem h.endItem.killContext) (branch h.modCore h.modCore)

theorem logFatal {key kind va pte} (h : s.Canon) : (s.logFatal key kind va pte).Canon := h.logAppend.modCore
theorem raiseFatal {key kind va pte} (h : s.Canon) : (s.raiseFatal key kind va pte).Canon := h.logFatal.modCore
theorem raisePoison {key ca consumer} (h : s.Canon) : (s.raisePoison key ca consumer).Canon := h.logAppend.modCore

/-! ### The issue of a bundle -/

theorem landOne {key l} (h : s.Canon) : (s.landOne key l).Canon := by
  unfold State.landOne
  split
  · exact branch h.raiseFatal h
  · refine branch h.raisePoison ?_
    split
    · exact h.modCore
    · exact h.modCore
    · exact branch h.modCore (branch h.modCore (branch h.freezeCycle.raisePoison h.freezeCycle.modCore))
  · exact h

theorem landAllDue {key} (h : s.Canon) : (s.landAllDue key).Canon := branch h (h.modCore.foldl fun _ _ h => h.landOne)

theorem chargeIssue {key f l} (h : s.Canon) : (s.chargeIssue key f l).Canon := branch h.freezeCycle h.charge

theorem closeLoop {key k v after} (h : s.Canon) : (s.closeLoop key k v after).1.Canon := by
  unfold State.closeLoop
  extract_lets l more
  split
  · exact h.modCore
  · exact h.modCore.bankSnapshot

theorem begun {m : OpSem} {key v} (h : s.Canon) : (m.begun key v s).Canon := by
  unfold OpSem.begun
  split
  · exact h.modCore
  · exact h

theorem performAll {key} : ∀ {l : List Issuing} {a : Acc}, (∀ i ∈ l, i.sem.Keeps) → a.st.Canon → (performAll key l a).st.Canon
  | [], _, _, h => h
  | i :: l, a, hl, h => by
    unfold Machine.performAll
    refine performAll (fun j hj => hl j (List.mem_cons_of_mem _ hj)) ?_
    split
    · exact hl i List.mem_cons_self _ _ _ (begun h)
    · split
      · exact h
      · exact h

theorem readPoison {key l} (h : s.Canon) : (s.readPoison key l).Canon := branch h (branch h.raisePoison h)

theorem spend {key f l} (h : s.Canon) : (s.spend key f l).Canon := by
  unfold State.spend
  extract_lets c losses s₁ s₂ s₃ span weight s₄
  have h₁ : s₁.Canon := h.chargeIssue
  have h₂ : s₂.Canon := branch h₁.freezeCycle h₁
  exact (h₂.freezeCycles.modCore : s₄.Canon)

theorem afterBundle {c key f v left a} (h : a.st.Canon) : (State.afterBundle c key f v left a).Canon := by
  unfold State.afterBundle
  extract_lets s₁ after r s₂ s₃
  have h₁ : s₁.Canon := h.modCore
  have hr : r.1.Canon := by
    unfold r
    split
    · exact h₁
    · split
      · exact h₁
      · exact h₁.closeLoop
  have h₂ : s₂.Canon := branch h₁.modCore hr.modCore
  have h₃ : s₃.Canon := branch h₂.endItem h₂
  exact branch h₃.eret h₃

theorem issueNow {key f l} (h : s.Canon) (hl : ∀ i ∈ l, i.sem.Keeps) : (s.issueNow key f l).state.Canon :=
  afterBundle (performAll hl h.spend.readPoison)

theorem leaveBar {key a} (h : s.Canon) : (s.leaveBar key a).Canon := by
  unfold State.leaveBar
  refine takeTrap (modCore ?_)
  dsimp only
  repeat' split
  all_goals exact h

end State.Canon

/-- What issues is what the bundle holds, or what a sticky slot is looked up as. -/
theorem Core.keeps_issuing {c : Core} {f : Fetched} {draw : Nat} (hf : f.Keeps) : ∀ i ∈ c.issuing f draw, i.sem.Keeps := by
  intro i hi
  unfold Core.issuing at hi
  obtain ⟨sl, -, e⟩ := List.mem_filterMap.mp hi
  dsimp only at e
  split at e
  · next p hp =>
    have hk := hf.present p (List.mem_of_find?_eq_some hp)
    repeat' split at e
    all_goals cases e
    all_goals exact hk
  · repeat' split at e
    all_goals cases e
    all_goals exact hf.look _ _ _ ‹_›

namespace State.Canon
variable {s : State}

theorem issueOnce {key f} (h : s.Canon) (hf : f.Keeps) : (s.issueOnce key f).state.Canon := by
  unfold State.issueOnce
  extract_lets s₁ s₂ c reps l
  have h₁ : s₁.Canon := h.sendBar.serveAwait.takeRecolors
  have h₂ : s₂.Canon := h₁.landAllDue
  clear_value s₁ s₂
  split
  · split
    · split
      · exact h₁.leaveBar
      · exact h₁.freezeCycle
    · exact h₁.freezeCycle
  · split
    · exact h₂.modCore.takeTrap
    · split
      · split
        · exact h₂
        · exact h₂.modCore.takeTrap
      · split
        · exact h₂.takeTrap
        · split
          · exact h₂.logFatal.takeTrap
          · split
            · exact h₂.freezeCycle
            · split
              · exact h₂.modCore.takeTrap
              · split
                · exact h₂.freezeCycle
                · split
                  · exact h₂.takeTrap
                  · exact h₂.issueNow (Core.keeps_issuing hf)

theorem issueAll {key f} (hf : Fetched.Keeps f) : ∀ {n} {s : State}, s.Canon → (s.issueAll key f n).Canon
  | 0, _, h => h
  | n + 1, s, h => by
    have h₁ := h.issueOnce (key := key) hf
    unfold State.issueAll
    split
    · next e =>
      rw [e] at h₁
      exact branch (issueAll hf h₁) h₁
    · next e =>
      rw [e] at h₁
      exact h₁

theorem idleCycle {key} (h : s.Canon) : (s.idleCycle key).Canon := branch h.freezeCycle h.charge
theorem powerCycle {key} (h : s.Canon) : (s.powerCycle key).Canon := branch h.idleCycle h.freezeCycle

theorem powerCycles {key} : ∀ {n} {s : State}, s.Canon → (s.powerCycles key n).Canon
  | 0, _, h => h
  | _ + 1, _, h => by
    unfold State.powerCycles
    exact powerCycles (powerCycle h)

theorem issue {f} (h : s.Canon) (hf : Fetched.Keeps f) : (s.issue f).Canon := branch h.idleCycle (issueAll hf h)

/-! ### Fetching -/

theorem fetchFatal {key kind va pte} (h : s.Canon) : (s.fetchFatal key kind va pte).Canon := h.logFatal.takeTrap

theorem fetchFill {key} (h : s.Canon) : CanonOpt (s.fetchFill key) := by
  unfold State.fetchFill
  split
  · dsimp only
    split
    · next e => exact .some (h.pieces.snd_eq e).fetchFatal
    · next e =>
      have h₁ := h.pieces.snd_eq e
      exact .branch .none (.branch (.some h₁.readPieces.raisePoison.modCore.takeTrap) (.some h₁.readPieces.modCore))
  · exact .none

/-! ### References, context images and system commands -/

theorem headerAt {c obj} (h : s.Canon) : (s.headerAt c obj).2.Canon := by
  unfold State.headerAt
  split
  · exact h
  · split
    · next e => exact h.pieces.snd_eq e
    · next e => exact h.pieces.snd_eq e
    · next e => exact h.pieces.snd_eq e

theorem headerHome {c obj} (h : s.Canon) : (s.headerHome c obj).2.Canon := by
  unfold State.headerHome
  split
  · exact h
  · dsimp only
    split
    · exact h.translate
    · exact h.translate

theorem pinTarget {c k} (h : s.Canon) : (s.pinTarget c k).2.Canon := by
  unfold State.pinTarget
  split
  · next e => exact h.headerHome.snd_eq e
  · next e =>
    have h₁ := h.headerHome.snd_eq e
    split
    · exact h₁
    · split
      · exact h₁
      · dsimp only
        split
        · next e => exact h₁.headerAt.snd_eq e
        · next e =>
          have h₂ := h₁.headerAt.snd_eq e
          split <;> exact h₂

theorem writeRuns {base l} (h : s.Canon) : (s.writeRuns base l).Canon := h.foldl fun _ _ h => h.memWrite.sendAll

theorem ctxSave {key base} (h : s.Canon) : (s.ctxSave key base).Canon := by
  unfold State.ctxSave
  refine modCore ?_
  dsimp only
  split
  · exact h.writeRuns
  · exact h.writeRuns.modLaunch

theorem ctxLoad {key base} (h : s.Canon) : (s.ctxLoad key base).Canon := h.modCore

theorem ctxLoadRefused {key base} (h : s.Canon) : (s.ctxLoadRefused key base).Canon := by
  unfold State.ctxLoadRefused
  extract_lets asid s₁ s₂ seq s₃
  have h₁ : s₁.Canon := by
    unfold s₁
    split
    · exact h.modLaunch
    · exact h
  have h₃ : s₃.Canon := logAppend (s := s₂) h₁.modCore
  exact branch h₃ h₃.killContext

theorem qsave {n a} (h : s.Canon) : (s.qsave n a).Canon := by
  unfold State.qsave
  exact h.memWrite.sendAll.frame

theorem setPower {p} (h : s.Canon) : (s.setPower p).Canon := h
theorem setLevels {f} (h : s.Canon) : (s.setLevels f).Canon := branch h.setPower.wearAdd h.setPower

theorem inval {asid base len flush} (h : s.Canon) : (s.inval asid base len flush).Canon :=
  branch h (h.frame.foldl fun _ _ h => h.modCore)

theorem logrApp {key a} (h : s.Canon) : (s.logrApp key a).Canon := branch h.logRaw h.logRaw

/-! ### Relocation engines -/

theorem setReloc {die r} (h : s.Canon) : (s.setReloc die r).Canon := h
theorem postHcb {r} (h : s.Canon) : (s.postHcb r).Canon := branch h h.memPut.memPut.memPut
theorem putReloc {die r} (h : s.Canon) : (s.putReloc die r).Canon := h.setReloc.postHcb

theorem relocStart {die a} (h : s.Canon) : (s.relocStart die a).2.Canon := by
  unfold State.relocStart
  extract_lets r kind asid heap n hcb
  split
  · exact h
  · split
    · exact h
    · split
      · split
        · exact h
        · split
          · exact h
          · split
            · exact h
            · exact h.memPut.putReloc
      · split
        · exact h
        · exact h.putReloc

theorem relocAbort {die} (h : s.Canon) : (s.relocAbort die).2.Canon := by
  unfold State.relocAbort
  extract_lets r
  split
  · exact h
  · exact h.putReloc

theorem publishHeap {asid heap} (h : s.Canon) : (s.publishHeap asid heap).Canon :=
  (h.memPut.memPut.foldl fun _ _ h => branch h.setReloc h).foldl fun _ _ h => h.modCore

theorem engineWrite {ca pa bytes} (h : s.Canon) : (s.engineWrite ca pa bytes).Canon := h.memWrite.sendAll
theorem skipObject {die r} (h : s.Canon) : (s.skipObject die r).Canon := h.putReloc

theorem claimObject {die r} (h : s.Canon) : (s.claimObject die r).Canon := by
  unfold State.claimObject
  extract_lets e bad
  have hb : (bad s).Canon := h.logAppend.skipObject
  split
  · split
    · exact hb
    · exact branch h.skipObject (branch hb h.engineWrite.setReloc)
  · exact hb

theorem copyLine {r ca pa isHeader} (h : s.Canon) : (s.copyLine r ca pa isHeader).Canon :=
  ((branch h.memWrite h.engineWrite).foldl fun _ _ h => branch h.setPoison h).frame

theorem insertFwd {root n frm dest} : ∀ {fuel i} {s : State}, s.Canon → (s.insertFwd root n frm dest i fuel).Canon
  | 0, _, _, h => h
  | _ + 1, _, _, h => by
    unfold State.insertFwd
    exact branch (insertFwd h) h.memWrite

/-! ### Skeins, rotations and repair -/

theorem skeinLoad {die off b} (h : s.Canon) : (s.skeinLoad die off b).2.Canon := by
  unfold State.skeinLoad
  extract_lets t f id key fmt isFormat n picked s₁ s₂
  have h₁ : s₁.Canon := h.foldl fun _ _ h => h.setSegment
  have h₂ : s₂.Canon := branch h₁.modCore h₁
  clear_value s₁ s₂
  split
  · exact h
  · split
    · exact h
    · split
      · exact h
      · split
        · exact h
        · exact h₂

theorem skeinRelease {die off b} (h : s.Canon) : (s.skeinRelease die off b).2.Canon := by
  unfold State.skeinRelease
  extract_lets t f id key c mine s₁ s₂
  have h₁ : s₁.Canon := h.foldl fun _ _ h => h.setSegment
  have h₂ : s₂.Canon := branch h₁.modCore h₁
  clear_value s₁ s₂
  split
  · exact h
  · split
    · exact h
    · split
      · exact h
      · exact h₂

theorem setMark {die x} (h : s.Canon) : (s.setMark die x).Canon := h.memPut

theorem unmark {die reason} (h : s.Canon) : (s.unmark die reason).Canon := by
  unfold State.unmark
  split
  · exact h.setMark.modWhorl
  · exact h.modWhorl
  · exact h

theorem readMark {die} (h : s.Canon) : (s.readMark die).Canon := by
  unfold State.readMark
  dsimp only
  split
  · exact branch h.modWhorl h
  · exact branch h h.modWhorl
  · exact h

theorem handOver {die site} (h : s.Canon) : (s.handOver die site).2.Canon := by
  unfold State.handOver
  dsimp only
  split
  · exact h
  · split
    · exact h.memPut.setSiteState
    · exact h.memPut

theorem suspectRecords {key lcore upto} (h : s.Canon) : (s.suspectRecords key lcore upto).Canon :=
  h.frame.foldl fun t _ h => by
    refine logAppend ?_
    split
    · exact branch h.writeVa.writeVa.writeVa h
    · exact h

end State.Canon

theorem State.Canon.branchAcc {c : Prop} [Decidable c] {a b : Acc} (ha : a.st.Canon) (hb : b.st.Canon) :
    (if c then a else b).st.Canon := by
  split
  · exact ha
  · exact hb

theorem State.Canon.accCore {a : Acc} {key f} (h : a.st.Canon) : (a.core key f).st.Canon := h

namespace OpSem

/-- An operation that leaves memory as it is. -/
theorem Keeps.of_mem {m : OpSem} (hm : ∀ key v a, (m.perform key v a).st.mem = a.st.mem) : m.Keeps :=
  fun key v a h => h.frame (hm key v a)

/-! ### The operations of the scalar slot that depend on a condition -/

theorem keeps_handleOp {op g w reads f} : (handleOp op g w reads f).Keeps := by
  intro key v a h
  unfold handleOp
  dsimp only
  split <;> exact h

theorem keeps_semLoop {g w} : (semLoop g w).Keeps := fun _ _ _ h => State.Canon.branchAcc h h

theorem keeps_semLdg {g w} : (semLdg g w).Keeps := by
  intro key v a h
  unfold semLdg
  dsimp only
  split <;> exact h

theorem keeps_semStg {g w} : (semStg g w).Keeps := by
  intro key v a h
  unfold semStg
  dsimp only
  split <;> exact h

theorem keeps_semCrw {g w} : (semCrw g w).Keeps := fun _ _ _ h => State.Canon.branchAcc h h

theorem keeps_semProbe {g w} : (semProbe g w).Keeps := fun _ _ _ h => h.freezeCycle.modCore

/-! ### References -/

theorem keeps_refAccess {op g w load n reads more act} (hact : ∀ key v u t a, a.st.Canon → (act key v u t a).st.Canon) :
    (refAccess op g w load n reads more act).Keeps := fun _ _ _ h =>
  have h₁ := State.Canon.branchAcc (State.Canon.freezeCycle h) h
  State.Canon.branchAcc h₁.raisePoison (hact _ _ _ _ _ h₁.modCore)

theorem keeps_semStref {g w} : (semStref g w).Keeps :=
  keeps_refAccess fun _ _ _ _ _ h =>
    have h₁ := State.Canon.branchAcc (State.Canon.freezeCycle h) h
    State.Canon.branchAcc h.modCore (State.Canon.branchAcc h₁.raisePoison h₁.modCore)

theorem keeps_pinOp {op g w refuse next reply} : (pinOp op g w refuse next reply).Keeps := by
  intro key v a h
  have h₁ := h.freezeCycle (key := key) (cause := acctRefbar)
  refine State.Canon.branchAcc h₁.raisePoison ?_
  dsimp only
  split
  · next e => exact (h₁.pinTarget.snd_eq e).raiseFatal
  · next e => exact h₁.pinTarget.snd_eq e
  · next e =>
    have h₂ := h₁.pinTarget.snd_eq e
    exact State.Canon.branchAcc h₂.raisePoison h₂.homeWrite.modCore

theorem keeps_semRefeq {g w} : (semRefeq g w).Keeps := fun _ _ _ h =>
  have h₁ := State.Canon.branchAcc (State.Canon.freezeCycle h) h
  State.Canon.branchAcc h.modCore (State.Canon.branchAcc h₁.raisePoison (State.Canon.branchAcc h₁.accCore h₁).accCore)

/-! ### The commands of system mode -/

theorem keeps_semSlotmap {g w} : (semSlotmap g w).Keeps := fun _ _ _ h => State.Canon.branchAcc h.modCore h.modCore.afterProfile

theorem keeps_semTtset {g w} : (semTtset g w).Keeps := fun _ _ _ h => State.Canon.branchAcc h.modCore h.modCore.afterProfile

theorem keeps_semPreempt {g w} : (semPreempt g w).Keeps := fun _ _ _ h => State.Canon.branchAcc h h

theorem keeps_semCtxsave {g w} : (semCtxsave g w).Keeps := fun _ _ _ h => h.ctxSave
theorem keeps_semCtxload {g w} : (semCtxload g w).Keeps := fun _ _ _ h => State.Canon.branch h.ctxLoad h.ctxLoadRefused
theorem keeps_semQsave {g w} : (semQsave g w).Keeps := fun _ _ _ h => h.qsave
theorem keeps_semPstep {g w} : (semPstep g w).Keeps := by
  intro key v a h
  unfold semPstep
  dsimp only
  exact h.setLevels
theorem keeps_semInval {g w} : (semInval g w).Keeps := fun _ _ _ h => h.inval
theorem keeps_semLogrApp {g w} : (semLogrApp g w).Keeps := fun _ _ _ h => h.logrApp.modCore

theorem keeps_semLogrRead {g w} : (semLogrRead g w).Keeps := by
  intro key v a h
  unfold semLogrRead
  dsimp only
  split
  · exact h
  · exact h.memWrite.sendAll.modCore

theorem keeps_relocOp {g w f} (hf : ∀ s die a, State.Canon s → (f s die a).2.Canon) : (relocOp g w f).Keeps :=
  fun _ _ _ h => (hf _ _ _ h).modCore

theorem keeps_semFwdpub {g w} : (semFwdpub g w).Keeps := by
  intro key v a h
  unfold semFwdpub Acc.core
  dsimp only
  exact h.publishHeap.modCore

theorem keeps_skeinOp {g w} : (skeinOp g w).Keeps := by
  intro key v a h
  refine State.Canon.modCore ?_
  dsimp only
  split
  · exact h.skeinLoad
  · exact h.skeinRelease

theorem keeps_semScanrun {g w} : (semScanrun g w).Keeps := fun _ _ _ h =>
  State.Canon.branchAcc h (State.Canon.branchAcc h (State.Canon.branchAcc h h))

end OpSem

open OpSem in
/-- Every slot operation keeps memory canonical; one that is not named here changes its core alone. -/
theorem semOf_keeps {i : Instr} {m : OpSem} (e : semOf i = some m) : m.Keeps := by
  cases i
  case loop => cases e; exact keeps_semLoop
  case hbase => cases e; exact keeps_handleOp
  case hset => cases e; exact keeps_handleOp
  case hstep => cases e; exact keeps_handleOp
  case ldg => cases e; exact keeps_semLdg
  case stg => cases e; exact keeps_semStg
  case crw => cases e; exact keeps_semCrw
  case probe => cases e; exact keeps_semProbe
  case ldref => cases e; exact keeps_refAccess fun _ _ _ _ _ h => h.modCore
  case ldfld => cases e; exact keeps_refAccess fun _ _ _ _ _ h => h.modCore
  case stref => cases e; exact keeps_semStref
  case stfld => cases e; exact keeps_refAccess fun _ _ _ _ _ h => h.modCore
  case pin => cases e; exact keeps_pinOp
  case unpin => cases e; exact keeps_pinOp
  case refeq => cases e; exact keeps_semRefeq
  case slotmap => cases e; exact keeps_semSlotmap
  case ttset => cases e; exact keeps_semTtset
  case preempt => cases e; exact keeps_semPreempt
  case ctxsave => cases e; exact keeps_semCtxsave
  case ctxload => cases e; exact keeps_semCtxload
  case qsave => cases e; exact keeps_semQsave
  case pstep => cases e; exact keeps_semPstep
  case inval => cases e; exact keeps_semInval
  case logrApp => cases e; exact keeps_semLogrApp
  case logrRead => cases e; exact keeps_semLogrRead
  case relocStart => cases e; exact keeps_relocOp fun _ _ _ h => h.relocStart
  case relocAbort => cases e; exact keeps_relocOp fun _ _ _ h => h.relocAbort
  case fwdpub => cases e; exact keeps_semFwdpub
  case skeinldLoad => cases e; exact keeps_skeinOp
  case skeinldRelease => cases e; exact keeps_skeinOp
  case scanrun => cases e; exact keeps_semScanrun
  all_goals cases e
  all_goals exact Keeps.of_mem fun _ _ _ => rfl

/-! ### Bundles -/

theorem keeps_lookWord {sl : Slot} {w : W64} {m : OpSem} (e : lookWord sl w = some m) : m.Keeps := by
  unfold lookWord at e
  split at e
  · exact semOf_keeps e
  · cases e

theorem keeps_fetchedBundle (b : Bundle) : (fetchedBundle b).Keeps where
  present := by
    intro p hp
    obtain ⟨q, -, e⟩ := List.mem_filterMap.mp hp
    obtain ⟨m, hm, rfl⟩ := Option.map_eq_some_iff.mp e
    exact semOf_keeps hm
  look _ _ _ e := keeps_lookWord e

/-- A bundle of no operation that is not looked up. -/
theorem keeps_malformed (rep : BitVec 8) (slot : BitVec 3) (op : BitVec 8) : (malformed rep slot op).Keeps where
  present _ hp := by cases hp
  look _ _ _ e := by cases e

theorem keeps_fetchedOf (bs : List Byte) : (fetchedOf bs).Keeps := by
  unfold fetchedOf
  split
  · exact keeps_fetchedBundle _
  · dsimp only
    split <;> exact keeps_malformed ..

namespace State.Canon

variable {s : State}

theorem issueBundle {b} (h : s.Canon) : (s.issueBundle b).Canon := h.issue (keeps_fetchedBundle b)
theorem issueBytes {bs} (h : s.Canon) : (s.issueBytes bs).Canon := h.issue (keeps_fetchedOf bs)

theorem runSolo {m : OpSem} {i : Instr} (h : s.Canon) (hm : m.Keeps) : CanonOut (runSolo m i s) := by
  unfold Machine.runSolo
  split
  · refine .next (h.issue ⟨fun p hp => ?_, fun _ _ _ e => by cases e⟩)
    rw [List.mem_singleton.mp hp]
    exact hm
  · exact .next h

theorem execHeaderOnlyBundle {l r q} (h : s.Canon) : CanonOut (execHeaderOnlyBundle l r q s) :=
  .branch (.next (h.issue (keeps_malformed ..))) (.next h.issueBundle)

theorem execMalformedBundle (h : s.Canon) : CanonOut (execMalformedBundle s) := by
  unfold Machine.execMalformedBundle
  split
  · split
    · exact .next h.issueBytes
    · exact .refused
  · exact .refused

theorem execPowerWindow {core} (h : s.Canon) : CanonOut (execPowerWindow core s) :=
  .branch .refused (.branch (.next h.modCore) (.branch (.next h.powerCycles) .refused))

/-! ### Landings and store streams -/

theorem amoStep {asid writer ps op size b c} (h : s.Canon) : (s.amoStep asid writer ps op size b c).2.2.Canon := by
  unfold State.amoStep
  dsimp only
  split
  · exact h
  · exact h.homeWrite

theorem failLanding {key i l kind va pte} (h : s.Canon) : (s.failLanding key i l kind va pte).Canon :=
  branch h.modCore h.logAppend.modCore

theorem serveLanding {key i l} (h : s.Canon) : CanonOpt (s.serveLanding key i l) := by
  unfold State.serveLanding
  refine .branch (.branch (.some h.failLanding) (.map fun _ e => (h.request _ e).modCore)) ?_
  dsimp only
  split
  · next e => exact .some (h.pieces.snd_eq e).failLanding
  · next e =>
    have h₁ := h.pieces.snd_eq e
    refine .branch .none ?_
    split
    · exact .branch (.some h₁.failLanding) (.some h₁.amoStep.modCore)
    · exact .branch (.some h₁.failLanding) (.some h₁.readPieces.modCore)

theorem execHomeSliceAccess {core idx} (h : s.Canon) : CanonOut (execHomeSliceAccess core idx s) := by
  refine .offered ?_
  split
  · exact .none
  · refine .branch .none ?_
    split
    · exact .branch .none h.serveLanding
    · exact h.serveLanding

theorem execLandingDataArrival {core idx} (h : s.Canon) : CanonOut (execLandingDataArrival core idx s) := by
  refine .offered ?_
  split
  · exact .none
  · split
    · exact .some h.modCore
    · exact .none

theorem execFatalContextError {core} (h : s.Canon) : CanonOut (execFatalContextError core s) := by
  refine .offered ?_
  split
  · exact .some h.modCore.raiseFatal
  · split
    · exact .none
    · split
      · exact .some h.modCore.raiseFatal
      · exact .none

theorem failStore {key e kind va pte} (h : s.Canon) : (s.failStore key e kind va pte).Canon := by
  unfold State.failStore
  split
  · exact h.modCore
  · exact h.logAppend.modCore

theorem keepL1 {key ca bytes} (h : s.Canon) : (s.keepL1 key ca bytes).Canon := branch h.modCore h

theorem storeBytes {key e bytes} (h : s.Canon) : CanonOpt (s.storeBytes key e bytes) := by
  unfold State.storeBytes
  dsimp only
  split
  · next e => exact .some (h.pieces.snd_eq e).failStore
  · next e =>
    have h₁ := h.pieces.snd_eq e
    exact .branch .none (.branch (.some h₁.homeWrite.modCore) (.some h₁.homeWrite.modCore.keepL1))

theorem healSlot {key e expect new} (h : s.Canon) : CanonOpt (s.healSlot key e expect new) := by
  unfold State.healSlot
  dsimp only
  split
  · next e => exact .some (h.pieces.snd_eq e).modCore
  · next e =>
    have h₁ := h.pieces.snd_eq e
    exact .branch .none (.branch (.some h₁.modCore.homeWrite) (.some h₁.modCore))

theorem performStore {key e} (h : s.Canon) : CanonOpt (s.performStore key e) := by
  unfold State.performStore
  dsimp only
  refine .branch .none ?_
  split
  · split
    · exact .some h.modCore
    · split
      · exact .none
      · exact .branch (.map fun _ e => (h.serveLanding _ e).modCore) (.map fun _ e => (h.serveLanding _ e).modCore)
  · exact h.healSlot
  · refine .branch (.branch (.some h.failStore) (.map fun _ e => (h.request _ e).frame.modCore)) ?_
    split
    · exact h.storeBytes
    · exact .branch (.some h.failStore) h.storeBytes
    · exact .branch (.some h.failStore) h.storeBytes
    · exact .none

theorem execStorePerform {core} (h : s.Canon) : CanonOut (execStorePerform core s) := by
  refine .offered ?_
  split
  · exact h.performStore
  · exact .none

theorem execUncachedWriteAck {core} (h : s.Canon) : CanonOut (execUncachedWriteAck core s) := by
  refine .offered ?_
  split
  · exact .branch (.some h.modCore) .none
  · exact .none

theorem execRetirementEntryFree {core idx} (h : s.Canon) : CanonOut (execRetirementEntryFree core idx s) :=
  .offered (.branch (.some h.modCore) .none)

theorem execInvalidation {die line} (h : s.Canon) : CanonOut (execInvalidation die line s) :=
  .offered (.branch (.some (h.frame.foldl fun _ _ h => h.modCore)) .none)

theorem execRemoteWrite {core src} (h : s.Canon) : CanonOut (execRemoteWrite core src s) := by
  refine .offered ?_
  split
  · exact .branch (.some h.modCore) .none
  · exact .branch (.some h.modCore) .none

theorem execFetchFill {core} (h : s.Canon) : CanonOut (execFetchFill core s) := .offered h.fetchFill

theorem execMOperationPerform {core} (h : s.Canon) : CanonOut (execMOperationPerform core s) :=
  .offered (.branch .none (.some h.modCore))

/-! ### Copies -/

theorem runPieces {key x need n} (h : s.Canon) : (s.runPieces key x need n).2.Canon := by
  unfold State.runPieces
  split
  · exact h
  · exact h
  · split
    · next e => exact h.pieces.snd_eq e
    · next e => exact h.pieces.snd_eq e

theorem putRun {key asid} : ∀ {ps bytes} {s : State}, s.Canon → (s.putRun key asid ps bytes).Canon
  | [], _, _, h => h
  | p :: _, _, s, h => by
    unfold State.putRun
    extract_lets here data s₁ s₂
    have h₁ : s₁.Canon := by
      unfold s₁
      split
      · exact h.writePiece
      · exact h.homeWrite
    exact putRun (branch h₁.setPoison h₁)

theorem modCopy {key id f} (h : s.Canon) : (s.modCopy key id f).Canon := h.modCore
theorem logKnot {key o reason pos} (h : s.Canon) : (s.logKnot key o reason pos).Canon := h.logAppend

theorem finishCopy {key o fail} (h : s.Canon) : (s.finishCopy key o fail).Canon := by
  unfold State.finishCopy
  refine modCore ?_
  split
  · exact h.logKnot
  · exact h

theorem refuseCopy {key o kind va pte} (h : s.Canon) : (s.refuseCopy key o kind va pte).Canon :=
  branch h (h.frame.logAppend.modCore)

theorem refused {key o e} (h : s.Canon) : (s.refused key o e).Canon := h.refuseCopy

theorem planMoves {key} : ∀ {l} {s : State}, s.Canon → (s.planMoves key l).2.Canon
  | [], _, h => h
  | _ :: _, _, h => by
    unfold State.planMoves
    split
    · next e => exact h.runPieces.snd_eq e
    · next e =>
      have h₁ := h.runPieces.snd_eq e
      split
      · next e => exact h₁.runPieces.snd_eq e
      · next e =>
        have h₂ := h₁.runPieces.snd_eq e
        split
        · next e => exact (planMoves h₂).snd_eq e
        · next e => exact (planMoves h₂).snd_eq e

theorem performMoves {key o l} {r : Bool × State} (h : s.Canon) (e : s.performMoves key o l = some r) : r.2.Canon := by
  unfold State.performMoves at e
  split at e
  · next e' =>
    cases e
    exact (h.planMoves.snd_eq e').refuseCopy
  · next e' =>
    have h₁ := h.planMoves.snd_eq e'
    split at e
    · cases e
    · cases e
      exact (h₁.frame.foldl fun _ _ h => h.fillRdc).foldl fun _ _ h => h.putRun

theorem redcStep {asid writer ps op tag src poison} (h : s.Canon) : (s.redcStep asid writer ps op tag src poison).Canon :=
  branch h (branch (h.homeWrite.foldl fun _ _ h => h.setPoison) h.homeWrite)

theorem reduceLines {key o dst src op tag} : ∀ {n off} {s : State} {r : Bool × State}, s.Canon →
    s.reduceLines key o dst src op tag off n = some r → r.2.Canon
  | 0, _, _, _, h, e => by
    cases e
    exact h
  | _ + 1, _, _, _, h, e => by
    unfold State.reduceLines at e
    split at e
    · next e' =>
      cases e
      exact (h.runPieces.snd_eq e').refuseCopy
    · next e' =>
      have h₁ := h.runPieces.snd_eq e'
      split at e
      · next e' =>
        cases e
        exact (h₁.runPieces.snd_eq e').refuseCopy
      · next e' =>
        have h₂ := h₁.runPieces.snd_eq e'
        split at e
        · cases e
        · exact reduceLines h₂.redcStep e

theorem sendBcast {key o t m bytes} (h : s.Canon) : CanonOpt (s.sendBcast key o t m bytes) := by
  unfold State.sendBcast
  split
  · exact .none
  · extract_lets all others asid req msg here
    have hh : ∀ {u}, State.Canon u → (here u).Canon := by
      intro u hu
      refine branch hu (branch hu.modCopy ?_)
      split
      · next e => exact (hu.pieces.snd_eq e).putRun
      · next e => exact (hu.pieces.snd_eq e).modCopy
    exact .branch (.some h.modCopy) (.branch (.some (hh h)) (.branch .none (.some (hh h).frame.modCopy)))

theorem sendLine {key o m} (h : s.Canon) : CanonOpt (s.sendLine key o m) := by
  unfold State.sendLine
  split
  · exact .map fun _ e => h.performMoves e
  · split
    · next e => exact .some (h.runPieces.snd_eq e).refused
    · next e =>
      have h₁ := h.runPieces.snd_eq e
      refine .branch .none ?_
      dsimp only
      split
      · exact h₁.sendBcast
      · exact .branch (.some h₁.modCopy) (.map fun _ e => (h₁.request _ e).frame.modCopy)
  · exact .branch (.some h.modCopy) (.map fun _ e => (h.request _ e).modCopy)

theorem sendLines {key id} : ∀ {n} {s : State}, s.Canon → (s.sendLines key id n).Canon
  | 0, _, h => h
  | _ + 1, _, h => by
    unfold State.sendLines
    split
    · exact h
    · refine branch h ?_
      split
      · split
        · next e => exact sendLines (h.sendLine _ e).modCopy
        · exact h
      · exact h

theorem stepRemote {key o moves} (h : s.Canon) : CanonOpt (s.stepRemote key o moves) := by
  unfold State.stepRemote
  extract_lets finish s' t
  have hs : s'.Canon := by
    unfold s'
    split
    · exact h.modCopy
    · exact h
  have ht : t.Canon := hs.sendLines
  clear_value t
  split
  · exact .some ht
  · exact .branch (.some ht) (.branch (.some ht.finishCopy) (.branch .none (.some ht)))

theorem modStage {slot stage f} (h : s.Canon) : (s.modStage slot stage f).Canon := h.modLaunch

theorem pushRecord {slot frm stage record} (h : s.Canon) : CanonOpt (s.pushRecord slot frm stage record) := by
  unfold State.pushRecord
  dsimp only
  split
  · exact .none
  · split
    · exact .none
    · exact .branch .none (.some h.writeVa.modStage.modLaunch)

theorem pushReady {key o} (h : s.Canon) : CanonOpt (s.pushReady key o) := by
  unfold State.pushReady
  split
  · exact .branch .none (.map fun _ e => (h.pushRecord _ e).finishCopy)
  · exact .none

theorem stepCopy {key o} (h : s.Canon) : CanonOpt (s.stepCopy key o) := by
  unfold State.stepCopy
  refine .branch .none ?_
  split
  · refine .branch h.stepRemote ?_
    split
    · next e => exact .some (finishCopy (h.performMoves e))
    · next e => exact .some (h.performMoves e)
    · exact .none
  · refine .branch h.stepRemote ?_
    split
    · next e => exact .some (finishCopy (h.reduceLines e))
    · next e => exact .some (h.reduceLines e)
    · exact .none
  · exact h.stepRemote
  · exact .some h.modCore.finishCopy
  · split
    · exact .none
    · refine .branch (.some h.finishCopy) ?_
      dsimp only
      split
      · next e => exact .some (h.modCopy.pushReady _ e)
      · exact .some h.modCopy

theorem execCopyPerform {core e idx} (h : s.Canon) : CanonOut (execCopyPerform core e idx s) := by
  refine .offered ?_
  split
  · exact .none
  · exact h.stepCopy

theorem execStqPushPerform {core e idx} (h : s.Canon) : CanonOut (execStqPushPerform core e idx s) := by
  refine .offered ?_
  split
  · exact .none
  · exact h.pushReady

/-! ### Line moves, rotations and a router taken out -/

theorem execLineMoveRead {die} (h : s.Canon) : CanonOut (execLineMoveRead die s) := by
  refine .offered ?_
  dsimp only
  split
  · exact .none
  · exact .branch .none (.some (h.frame.foldl fun _ _ h => h.modCore).setReloc)

theorem execLineMoveCopied {die} (h : s.Canon) : CanonOut (execLineMoveCopied die s) := by
  refine .offered ?_
  dsimp only
  split
  · exact .none
  · refine .branch .none (.some (setReloc ?_))
    split
    · exact h.copyLine
    · exact h

theorem execWhorlTick {die} (h : s.Canon) : CanonOut (execWhorlTick die s) := by
  refine .offered (.branch .none (.branch (.some h) ?_))
  dsimp only
  split
  · exact .some h
  · exact .some h.setMark.modWhorl

theorem execDrainmax {die} (h : s.Canon) : CanonOut (execDrainmax die s) := by
  refine .offered ?_
  split
  · exact .branch .none (.some h)
  · exact .none

theorem execRouterBypass {die site} (h : s.Canon) : CanonOut (execRouterBypass die site s) := by
  refine .offered (.branch .none ?_)
  extract_lets c seq s₁ ended s₂ lcore s₃ r s₄ s₅
  have h₂ : s₂.Canon := by
    unfold s₂
    split
    · exact h.logAppend
    · exact branch h.logAppend.endItem.killContext h.logAppend.endItem.killContext
  have h₄ : s₄.Canon := h₂.setSiteState.handOver.logAppend
  clear_value s₄
  exact .some h₄.modCore.suspectRecords.modWhorl

/-! ### Barriers -/

theorem execBarPacket {core} (h : s.Canon) : CanonOut (execBarPacket core s) := by
  refine .offered (.branch .none ?_)
  split
  · exact .none
  · exact .some h.frame.releaseIfAll

theorem execBarrierRelease {core} (h : s.Canon) : CanonOut (execBarrierRelease core s) := .offered (.branch (.some h.modCore) .none)

/-! ### Kicks, packets and launches -/

theorem hostDropped {part kind qid value} (h : s.Canon) : (s.hostDropped part kind qid value).Canon := h.logAppend

theorem execKick {part qid wridx} (h : s.Canon) : CanonOut (execKick part qid wridx s) := by
  unfold Machine.execKick
  extract_lets p s₁ v
  have h₁ : s₁.Canon := branch h h
  clear_value s₁
  refine .next (branch h₁ ?_)
  split
  · exact h₁.hostDropped
  · refine branch h₁.hostDropped ?_
    split
    · exact branch h₁.hostDropped h₁.setSlot
    · exact branch h₁.hostDropped h₁.memPut.sendAll.frame

theorem execPacketFetch {slot} (h : s.Canon) : CanonOut (execPacketFetch slot s) := by
  unfold Machine.execPacketFetch
  extract_lets q next high
  have hn : ∀ {t}, State.Canon t → (next t).Canon := fun h => h.setSlot
  have hh : ∀ {t}, State.Canon t → (high t).Canon := fun h => branch h (h.foldl fun _ _ h => branch h h.unmark)
  refine .offered (.branch .none ?_)
  split
  · exact .some (hn h)
  · dsimp only
    split
    · exact .some (hn h)
    · exact .some (hn (branch (branch h (hh h)).complete (branch h (hh h))))
    · exact .some (hh h).setSlot

theorem kernelEnd {asid} (h : s.Canon) : (s.kernelEnd asid).Canon :=
  h.foldl fun _ _ h => branch h.spillWhere.bankSnapshot.flushLive h.spillWhere

theorem execLaunchComplete {slot} (h : s.Canon) : CanonOut (execLaunchComplete slot s) := by
  refine .offered ?_
  dsimp only
  split
  · exact .none
  · exact .branch .none (.some (branch h.complete.killPackets h.complete).setSlot.kernelEnd)

theorem setAssign {key a} (h : s.Canon) : (s.setAssign key a).Canon := h

theorem startItem {key slot l it} (h : s.Canon) : (s.startItem key slot l it).Canon := branch h.modLaunch h

theorem execItemStart {core} (h : s.Canon) : CanonOut (execItemStart core s) := by
  refine .offered ?_
  split
  · exact .none
  · split
    · exact .none
    · exact .branch .none (.branch (.some h.modStage.startItem) (.some h.modLaunch.startItem))

theorem execResumeEntry {core} (h : s.Canon) : CanonOut (execResumeEntry core s) := by
  refine .offered ?_
  split
  · exact .none
  · split
    · exact .some h
    · exact .none

/-! ### Epochs -/

theorem mark {key t} (h : s.Canon) : (s.mark key t).Canon := h.setAssign

theorem shrink {slot n share t cores} : ∀ {k} {s : State}, s.Canon → (s.shrink slot n share t cores k).Canon
  | 0, _, h => h
  | _ + 1, _, h => by
    unfold State.shrink
    refine branch h ?_
    dsimp only
    split
    · exact h
    · exact shrink (mark h)

theorem grow {slot n share t cores} : ∀ {k} {s : State}, s.Canon → (s.grow slot n share t cores k).Canon
  | 0, _, h => h
  | _ + 1, _, h => by
    unfold State.grow
    dsimp only
    split
    · exact h
    · exact branch h (grow (mark h))

theorem moveCores {slot n t cores} : ∀ {k} {s : State}, s.Canon → (s.moveCores slot n t cores k).Canon
  | 0, _, h => h
  | _ + 1, _, h => by
    unfold State.moveCores
    refine branch h ?_
    split
    · exact h
    · exact moveCores (mark h)

theorem assignSlot {die slot share cores} (h : s.Canon) : (s.assignSlot die slot share cores).Canon := by
  unfold State.assignSlot
  dsimp only
  split
  · exact h.shrink
  · exact h.shrink.grow.moveCores.modLaunch

theorem rebalancePart {part die} (h : s.Canon) : (s.rebalancePart part die).Canon := by
  unfold State.rebalancePart
  extract_lets cores shares s₁ s₂
  have h₁ : s₁.Canon := h.foldl fun _ _ h => h.setSlot
  have h₂ : s₂.Canon := h₁.foldl fun _ _ h => by
    split
    · exact h.shrink
    · exact h
  exact h₂.foldl fun _ _ h => h.assignSlot

theorem dropStale {die} (h : s.Canon) : (s.dropStale die).Canon :=
  h.foldl fun _ _ h => by
    split
    · exact h
    · exact branch h.mark h

theorem settleMarks {die} (h : s.Canon) : (s.settleMarks die).Canon :=
  h.foldl fun _ _ h => branch (branch h h.modCore) h.setAssign

theorem startGang {slot l inner} : ∀ {cores} {s : State}, s.Canon → (s.startGang slot l inner cores).Canon
  | [], _, h => h
  | _ :: _, _, h => by
    unfold State.startGang
    split
    · exact h
    · refine startGang (startItem (modLaunch ?_))
      split
      · exact h
      · exact h

theorem headGang {die slot} (h : s.Canon) : (s.headGang die slot).Canon := by
  unfold State.headGang
  dsimp only
  split
  · exact h
  · split
    · exact branch h (branch h h.startGang)
    · exact h

theorem execRebalance {die} (h : s.Canon) : CanonOut (execRebalance die s) :=
  .offered (.branch .none (.some
    ((h.readMark.dropStale.foldl fun _ _ h => h.rebalancePart).settleMarks.foldl fun _ _ h => branch h.headGang h)))

theorem execAgeing {slot} (h : s.Canon) : CanonOut (execAgeing slot s) := .offered (.branch .none (.some h.setSlot))

theorem execWatchdogExpire {core} (h : s.Canon) : CanonOut (execWatchdogExpire core s) := by
  unfold Machine.execWatchdogExpire
  extract_lets c
  refine .offered ?_
  split
  · exact .none
  · extract_lets q s₁ seq s₂ s₃ s₄ others
    have h₃ : s₃.Canon := (logAppend h : s₂.Canon).modCore
    exact .branch .none (.some (h₃.frame.foldl fun _ _ h => h.modCore))

theorem execPartitionReset {part} (h : s.Canon) : CanonOut (execPartitionReset part s) :=
  .offered (.branch .none (.some (h.foldl fun _ _ h => h.modCore).logAppend.frame))

theorem execRangeReload {asid} (h : s.Canon) : CanonOut (execRangeReload asid s) := .next (h.foldl fun _ _ h => h.modCore)

/-! ### Mailboxes -/

theorem setMailbox {mb m} (h : s.Canon) : (s.setMailbox mb m).Canon := h
theorem putResponse {mb outcome vals} (h : s.Canon) : (s.putResponse mb outcome vals).Canon := h

theorem rejectBad : ∀ {n} {s : State}, s.Canon → (s.rejectBad n).Canon
  | 0, _, h => h
  | _ + 1, _, h => by
    unfold State.rejectBad
    split
    · exact h
    · exact branch h (rejectBad (putResponse h.frame))

theorem respond {mb outcome vals} (h : s.Canon) : (s.respond mb outcome vals).Canon := h.frame.rejectBad
theorem setPhase {mb n} (h : s.Canon) : (s.setPhase mb n).Canon := h.setMailbox

end State.Canon

/-- The state in which a request is answered, or waits. -/
def Served.Canon : Served → Prop
  | .answer _ _ s => s.Canon
  | .wait s => s.Canon

namespace Served.Canon

theorem answer {o v} {s : State} (h : s.Canon) : Served.Canon (.answer o v s) := h
theorem wait {s : State} (h : s.Canon) : Served.Canon (.wait s) := h
theorem refuse {o} {s : State} (h : s.Canon) : (Served.refuse s o).Canon := h

theorem branch {c : Prop} [Decidable c] {x y : Served} (hx : x.Canon) (hy : y.Canon) : (if c then x else y).Canon := by
  split
  · exact hx
  · exact hy

end Served.Canon

namespace State.Canon

variable {s : State}

theorem withContext {mb w f} (h : s.Canon) (hf : ∀ a, (f a).Canon) : (s.withContext mb w f).Canon := by
  unfold State.withContext
  split
  · exact .refuse h
  · exact hf _

theorem serveRequest {code f} (h : s.Canon) (hf : ∀ mb w, (f mb w s).Canon) : CanonOut (s.serveRequest code f) := by
  unfold State.serveRequest
  split
  · exact .refused
  · next mb m _ =>
    refine .branch (.next h.respond) ?_
    have hs := hf mb m.word
    split
    · next e =>
      rw [e] at hs
      exact .next (respond hs)
    · next e =>
      rw [e] at hs
      exact .next hs

theorem serveForm {code i form f} (h : s.Canon) (hf : ∀ mb w, (f mb w s).Canon) : CanonOut (s.serveForm code i form f) := by
  unfold State.serveForm
  split
  · exact .refused
  · exact .branch (h.serveRequest hf) .refused

theorem execMailboxRing {mb value} (h : s.Canon) : CanonOut (execMailboxRing mb value s) :=
  .offered (.branch .none (.branch (.some h.hostDropped) (.branch (.some h) (.some h.frame.rejectBad))))

theorem execRegisterWrite {reg value} (h : s.Canon) : CanonOut (execRegisterWrite reg value s) := by
  refine .next ?_
  split <;> exact h

/-! ### Errors, resets and supervisors -/

theorem logCorr {unit code part source index} (h : s.Canon) : (s.logCorr unit code part source index).Canon :=
  branch h h.frame.logAppend

theorem execEccCorr {core counter} (h : s.Canon) : CanonOut (execEccCorr core counter s) :=
  .offered (.branch .none (.some (branch h.modCore.wearAdd h.modCore).logCorr))

theorem execEccFreezeEnd {core} (h : s.Canon) : CanonOut (execEccFreezeEnd core s) :=
  .offered (.branch .none (.some h.freezeCycles))

theorem execOnchipUe {core place} (h : s.Canon) : CanonOut (execOnchipUe core place s) := by
  refine .offered ?_
  dsimp only
  split
  · exact .some h.frame.logAppend
  · refine .branch .none (.branch (.some h.supervisorFault) ?_)
    split
    · exact .some h.modCore.logAppend
    · exact .some h.modCore.logAppend
    · exact .some h.modCore.logAppend

theorem execSystemUe {ca mask} (h : s.Canon) : CanonOut (execSystemUe ca mask s) := by
  refine .next (contain (logAppend ?_))
  exact h.foldl fun _ _ h => branch h.setPoison h

/-- A package reset empties memory (log 51). -/
theorem packageReset : s.packageReset.Canon := State.wf_reset

theorem execDpcRelease {part} (h : s.Canon) : CanonOut (execDpcRelease part s) :=
  .offered (.branch .none (.branch (.some packageReset) (.some h)))

theorem execContextKill {core reason} (h : s.Canon) : CanonOut (execContextKill core reason s) :=
  .offered (.branch .none (.some h.modCore))

theorem execSupstart {die pc} (h : s.Canon) : CanonOut (execSupstart die pc s) :=
  .offered (.branch .none (.branch (.some h) (.some h.modCore)))

theorem execAccountLatch {core} (h : s.Canon) : CanonOut (execAccountLatch core s) := .offered (.branch .none (.some h.modCore))

theorem execSupervisorFlush {core} (h : s.Canon) : CanonOut (execSupervisorFlush core s) :=
  .offered (.branch .none (.some h.spillWhere.bankSnapshot.flushLive))

theorem captureRecord {key slot aborted} (h : s.Canon) : (s.captureRecord key slot aborted).Canon := by
  unfold State.captureRecord
  exact h.ringRecord

theorem execCaptureStart {core} (h : s.Canon) : CanonOut (execCaptureStart core s) := by
  refine .offered ?_
  split
  · exact .branch .none (.some (branch h.captureRecord h).modCore)
  · exact .none

theorem execCaptureStop {core} (h : s.Canon) : CanonOut (execCaptureStop core s) := by
  refine .offered ?_
  split
  · exact .branch .none (.some (branch h.captureRecord h).modCore)
  · exact .none

theorem answerPatch {p n} (h : s.Canon) : (s.answerPatch p n).Canon := by
  unfold State.answerPatch
  split
  · exact h.respond
  · exact h

theorem acknowledge {key line} (h : s.Canon) : (s.acknowledge key line).Canon := h.frame.foldl fun _ _ h => h.answerPatch

theorem execShootdown {core} (h : s.Canon) : CanonOut (execShootdown core s) := by
  refine .offered ?_
  split
  · exact .none
  · exact .branch .none (.some h.modCore.acknowledge)

theorem execPatchAckTimeout (h : s.Canon) : CanonOut (execPatchAckTimeout s) := by
  refine .offered ?_
  split
  · exact .none
  · exact .some h.frame.answerPatch

/-! ### Flits and control messages -/

theorem execPcsLock {port} (h : s.Canon) : CanonOut (execPcsLock port s) := .offered (.branch .none (.some h))

theorem execFlit {port f} (h : s.Canon) : CanonOut (execFlit port f s) :=
  .offered (.branch .none (.branch (.some h) (.branch (.some h) (.branch (.some h) (.branch (.some (branch h h))
    (.branch (.some h) (.branch (.some h) (.some h))))))))

theorem takeControl {kind} {q : Nat × BitVec 128 × State} (h : s.Canon) (e : s.takeControl kind = some q) : q.2.2.Canon := by
  unfold State.takeControl at e
  split at e
  · cases e
  · split at e
    · cases e
      exact h
    · cases e

theorem execInit (h : s.Canon) : CanonOut (execInit s) := .offered (.map fun _ e => (h.takeControl e).frame)

theorem execNak (h : s.Canon) : CanonOut (execNak s) :=
  .offered (.map fun _ e => branch (h.takeControl e).wearAdd.logCorr (h.takeControl e))

theorem execRetrain (h : s.Canon) : CanonOut (execRetrain s) := .offered (.map fun _ e => h.takeControl e)

/-! ### Requests from other packages -/

theorem farRequest {mtype need n ca f} (h : s.Canon) (hf : ∀ m ps t, State.Canon t → (f m ps t).Canon) :
    CanonOut (s.farRequest mtype need n ca f) := by
  refine .offered ?_
  split
  · exact .none
  · next e =>
    have h₁ := h.takeMessage e
    refine .branch (.some h₁.answerError) ?_
    split
    · next e => exact .some (h₁.pieces.snd_eq e).answerError
    · next e => exact .branch .none (.some (hf _ _ _ (h₁.pieces.snd_eq e)))

theorem farWrite {m ps} (h : s.Canon) : (s.farWrite m ps).Canon := by
  unfold State.farWrite
  refine answer (h.homeWrite.foldl fun _ _ h => ?_)
  split
  · exact h.setPoison
  · exact h

theorem execRead (h : s.Canon) : CanonOut (execRead s) := h.farRequest fun _ _ _ h => h.answer

theorem logFenced {peer} (h : s.Canon) : (s.logFenced peer).Canon := h.logAppend

theorem unlessFenced {mtype f} (h : s.Canon) (hf : CanonOut f) : CanonOut (s.unlessFenced mtype f) := by
  unfold State.unlessFenced
  split
  · next e => exact .branch (.next (logFenced (h.takeMessage e))) hf
  · exact hf

theorem execWrite (h : s.Canon) : CanonOut (execWrite s) := h.unlessFenced (h.farRequest fun _ _ _ h => h.farWrite)

theorem execAtomic (h : s.Canon) : CanonOut (execAtomic s) :=
  h.unlessFenced (h.farRequest fun _ _ _ h => by
    dsimp only
    split
    · exact h.answerError
    · exact branch h.amoStep.answerError h.amoStep.answer)

theorem execRedcMessage (h : s.Canon) : CanonOut (execRedcMessage s) :=
  h.unlessFenced (h.farRequest fun _ _ _ h => branch h.answerError h.redcStep.answer)

theorem execBcstMessage (h : s.Canon) : CanonOut (execBcstMessage s) := h.unlessFenced (h.farRequest fun _ _ _ h => h.farWrite)

/-! ### Responses -/

theorem takeResponse {mtype} {q : Msg × Option Req × State} (h : s.Canon) (e : s.takeResponse mtype = some q) : q.2.2.Canon := by
  obtain ⟨p, hp, rfl⟩ := Option.map_eq_some_iff.mp e
  have h₁ := h.takeMessage hp
  dsimp only
  split
  · exact h₁
  · exact h₁

theorem popSent {key p} (h : s.Canon) : (s.popSent key p).Canon := h.modCore
theorem ackCopy {key id} (h : s.Canon) : (s.ackCopy key id).Canon := h.modCopy

theorem execRdata (h : s.Canon) : CanonOut (execRdata s) := by
  refine .offered ?_
  split
  · exact .none
  · next e => exact .some (h.takeResponse e)
  · next e =>
    have h₁ := h.takeResponse e
    split
    · exact .some h₁
    · split
      · exact .some h₁
      · exact .some h₁.modCore
    · split
      · exact .some h₁
      · dsimp only
        split
        · next e => exact .some (refused (h₁.runPieces.snd_eq e))
        · next e => exact .branch .none (.some (h₁.runPieces.snd_eq e).putRun.ackCopy)

theorem execWack (h : s.Canon) : CanonOut (execWack s) := by
  refine .offered (.map fun q e => ?_)
  have h₁ := h.takeResponse e
  split
  · exact h₁
  · split
    · exact h₁.popSent
    · exact h₁.ackCopy
    · exact h₁

theorem execAreply (h : s.Canon) : CanonOut (execAreply s) := by
  refine .offered (.map fun q e => ?_)
  have h₁ := h.takeResponse e
  split
  · exact h₁
  · split
    · dsimp only
      split
      · exact h₁.popSent
      · exact h₁.popSent.modCore
    · exact h₁

theorem copyError {key o mv kind} (h : s.Canon) : (s.copyError key o mv kind).Canon := by
  unfold State.copyError
  split
  · exact branch h.finishCopy h
  · refine branch (ackCopy ?_) h.refuseCopy
    split
    · exact h
    · split
      · next e => exact (h.runPieces.snd_eq e).foldl fun _ _ h => h.setPoison
      · next e => exact h.runPieces.snd_eq e

theorem execError (h : s.Canon) : CanonOut (execError s) := by
  refine .offered (.map fun q e => ?_)
  have h₁ := h.takeResponse e
  split
  · exact h₁
  · dsimp only
    split
    · split
      · exact h₁.popSent
      · exact branch h₁.popSent.modCore h₁.popSent.failLanding
    · split
      · exact h₁
      · exact branch h₁.popSent h₁.failStore
    · split
      · exact h₁
      · exact h₁.copyError

/-! ### Peers and ports -/

theorem execHeartbeat (h : s.Canon) : CanonOut (execHeartbeat s) := .offered (.map fun _ e => (h.takeMessage e).frame)
theorem execProbeMessage (h : s.Canon) : CanonOut (execProbeMessage s) := .offered (.map fun _ e => (h.takeMessage e).answer)
theorem execProbeack (h : s.Canon) : CanonOut (execProbeack s) := .offered (.map fun _ e => (h.takeMessage e).frame)
theorem execHeartbeatInterval (h : s.Canon) : CanonOut (execHeartbeatInterval s) := .offered (.map fun _ _ => h)
theorem execProbeInterval (h : s.Canon) : CanonOut (execProbeInterval s) := .offered (.map fun _ _ => h)

theorem untilTime {t} (h : s.Canon) : (s.until t).Canon := h

theorem failRequest {r} (h : s.Canon) : (s.failRequest r).Canon := by
  unfold State.failRequest
  split
  · dsimp only
    split
    · exact h.popSent
    · exact h.popSent.failLanding
  · split
    · exact h
    · exact h.failStore
  · split
    · exact h
    · exact h.finishCopy

theorem losePeer {peer} (h : s.Canon) : (s.losePeer peer).Canon := by
  unfold State.losePeer
  extract_lets mine s₁ k s₂
  have h₁ : s₁.Canon := h.logAppend
  have h₂ : s₂.Canon := h₁
  exact h₂.foldl fun _ _ h => h.failRequest

theorem execPeerUnreachable {peer} (h : s.Canon) : CanonOut (execPeerUnreachable peer s) := by
  refine .offered ?_
  dsimp only
  split
  · exact .none
  · exact .branch .none (.some h.untilTime.losePeer)

theorem execPortDown {port} (h : s.Canon) : CanonOut (execPortDown port s) := by
  refine .offered (.branch .none ?_)
  extract_lets s₁ peer s₂ k₁ k₂ s₃ lost
  have h₂ : s₂.Canon := logAppend (s := s₁) h
  have h₃ : s₃.Canon := h₂
  exact .some (h₃.foldl fun _ _ h => h.losePeer)

theorem execRetrainAttempt {port ok} (h : s.Canon) : CanonOut (execRetrainAttempt port ok s) :=
  .offered (.branch .none (.branch (.some h) (.some h)))

theorem execMemberFenced {group peer} (h : s.Canon) : CanonOut (execMemberFenced group peer s) := by
  refine .offered (.branch .none ?_)
  extract_lets s₁ s₂ waits k s₃
  have h₂ : s₂.Canon := logAppend (s := s₁) h
  have h₃ : s₃.Canon := h₂
  exact .some (h₃.foldl fun _ _ h => by
    split
    · split
      · exact h.finishCopy
      · exact h
    · exact h)

/-! ### The firmware's choices, tables and grants -/

theorem choose {w} (h : s.Canon) : (s.choose w).2.Canon := h

theorem chooseFrom {l a t} (h : s.Canon) (e : s.chooseFrom l = some (a, t)) : t.Canon := by
  obtain ⟨_, _, e⟩ := Option.map_eq_some_iff.mp e
  cases e
  exact h

/-- The memory a context gets is cleared in place. -/
theorem takeSystem {asid len a t} (h : s.Canon) (e : s.takeSystem asid len = some (a, t)) : t.Canon := by
  unfold State.takeSystem at e
  dsimp only at e
  split at e
  · cases e
  · cases e
    exact State.wf_clear (s.choose 36).2 _ _ h

theorem putSystem {a bytes} (h : s.Canon) : (s.putSystem a bytes).Canon := h.memWrite.sendAll
theorem hostWrite {a bytes} (h : s.Canon) : (s.hostWrite a bytes).Canon := h

theorem takePage {asid ca size} {q : Nat × State} (h : s.Canon) (e : s.takePage asid ca size = some q) : q.2.Canon := by
  unfold State.takePage at e
  split at e
  · split at e
    · cases e
      exact h
    · cases e
  · dsimp only at e
    split at e
    · cases e
    · cases e
      exact h

theorem putLeaf {asid ca pte target} : ∀ {fuel table level} {s : State}, s.Canon →
    CanonOpt (s.putLeaf asid ca pte target table level fuel)
  | 0, _, _, _, _ => .none
  | _ + 1, _, _, _, h => by
    unfold State.putLeaf
    refine .branch (.branch .none (.some h.putSystem)) (.branch (.branch .none (putLeaf h)) ?_)
    split
    · exact .none
    · next e => exact putLeaf (putSystem (h.takeSystem e))

theorem mapPages {asid code flags} : ∀ {n ca host} {s : State}, s.Canon → CanonOpt (s.mapPages asid ca code flags host n)
  | 0, _, _, _, h => .some h
  | _ + 1, _, host, s, h => by
    unfold State.mapPages
    extract_lets size page
    have hp : ∀ {q : Nat × State}, page = some q → q.2.Canon := by
      unfold page
      cases host with
      | none => exact h.takePage
      | some a =>
        rintro _ ⟨⟩
        exact h
    clear_value page
    split
    · exact .none
    · have h₁ := hp rfl
      split
      · exact .none
      · next e => exact mapPages (h₁.putLeaf _ e)

theorem clearLeaf {asid l} (h : s.Canon) : (s.clearLeaf asid l).Canon := by
  unfold State.clearLeaf
  exact branch h.putSystem h.putSystem
theorem sendVendor {part code dws} (h : s.Canon) : (s.sendVendor part code dws).Canon := h
theorem revokeGrants {p} (h : s.Canon) : (s.revokeGrants p).Canon := h.foldl fun _ _ h => h.frame.sendVendor

theorem afterRevoke {p f} (h : s.Canon) (hf : (f s).Canon) : (s.afterRevoke p f).Canon := .branch (.wait h.revokeGrants) hf

theorem dropGrants {r} (h : s.Canon) : (s.dropGrants r).Canon := h

/-! ### Requests on contexts -/

theorem putCodeHeap {asid bytes} (h : s.Canon) : CanonOpt (s.putCodeHeap asid bytes) := by
  unfold State.putCodeHeap
  extract_lets n reg va ca s₁ s₂
  have h₁ : s₁.Canon := putSystem (s := ca.2) h
  have h₂ : s₂.Canon := h₁
  clear_value s₂ n
  exact .branch (.some h) (.branch .none h₂.mapPages)

-- `takeSystem` is made opaque: the kernel would run it to reduce the matches on its answers.
theorem takeContext {asid root image objmap t} (h : s.Canon) (e : s.takeContext asid = some (root, image, objmap, t)) :
    t.Canon := by
  unfold State.takeContext at e
  have take := @takeSystem
  obtain ⟨f, hf⟩ : ∃ f, f = State.takeSystem := ⟨_, rfl⟩
  rw [← hf] at e take
  split at e
  · cases e
  · next e₁ =>
    split at e
    · cases e
    · next e₂ =>
      obtain ⟨_, e₃, e⟩ := Option.map_eq_some_iff.mp e
      cases e
      exact take (take (take h e₁) e₂) e₃

theorem execCtxalloc (h : s.Canon) : CanonOut (execCtxalloc s) := h.serveRequest fun mb w => by
  refine .branch (.refuse h) ?_
  split
  · exact .refuse h
  · next e₁ =>
    dsimp only
    split
    · exact .refuse h
    · next e₂ =>
      split
      · exact .refuse h
      · next e₃ => exact .answer (putCodeHeap (putSystem ((h.chooseFrom e₁).takeContext e₂)) _ e₃)

theorem freeContext {asid} (h : s.Canon) : (s.freeContext asid).Canon := h.inval.putSystem.frame

theorem execCtxfree (h : s.Canon) : CanonOut (execCtxfree s) := h.serveRequest fun _ _ => h.withContext fun _ =>
  .branch (.wait h.killContext) (h.killContext.afterRevoke (.answer h.killContext.freeContext))

theorem execKill (h : s.Canon) : CanonOut (execKill s) := h.serveRequest fun _ _ => h.withContext fun _ => .answer h.killContext

theorem execRangeset (h : s.Canon) : CanonOut (execRangeset s) := h.serveRequest fun _ _ => h.withContext fun _ =>
  .branch (.refuse h) (.answer h.putSystem)

theorem execMap (h : s.Canon) : CanonOut (execMap s) := h.serveRequest fun _ _ => h.withContext fun _ => by
  refine .branch (.refuse h) ?_
  dsimp only
  split
  · next e => exact .answer (h.mapPages _ e)
  · exact .refuse h

theorem execUnmap (h : s.Canon) : CanonOut (execUnmap s) := h.serveRequest fun _ _ => h.withContext fun _ =>
  .branch (.refuse h) (h.afterRevoke (.branch (.wait h) (.answer (h.foldl fun _ _ h => h.clearLeaf).inval)))

theorem execRegq (h : s.Canon) : CanonOut (execRegq s) := h.serveRequest fun _ _ => h.withContext fun _ => by
  dsimp only
  split
  · exact .refuse h
  · next e₁ =>
    split
    · exact .refuse h
    · next e₂ => exact .branch (.refuse h) (.answer ((h.chooseFrom e₁).takeSystem e₂).putSystem.frame)

theorem execDeregq (h : s.Canon) : CanonOut (execDeregq s) := h.serveRequest fun _ _ => by
  dsimp only
  split
  · exact .refuse h
  · exact .branch (.refuse h) (.branch (.refuse h) (.answer h))

/-! ### Messages of the host -/

theorem logHostUr {part asid ca} (h : s.Canon) : (s.logHostUr part asid ca).Canon := h.logAppend
theorem hostReply {r} (h : s.Canon) : (s.hostReply r).Canon := h
theorem hostRefused {part asid ca isRead} (h : s.Canon) : (s.hostRefused part asid ca isRead).Canon := (branch h.hostReply h).logHostUr

theorem execHostAccess {part offset wr} (h : s.Canon) : CanonOut (execHostAccess part offset wr s) := by
  refine .offered (.branch .none ?_)
  split
  · exact .some h.hostRefused
  · refine .branch (.some h.hostRefused) ?_
    split
    · next e => exact .some (h.pieces.snd_eq e).hostRefused
    · next e =>
      have h₁ := h.pieces.snd_eq e
      refine .branch .none ?_
      split
      · exact .some h₁.homeWrite
      · exact .some h₁.hostReply

theorem vendorArrive {m} (h : s.Canon) : (s.vendorArrive m).Canon := branch h h.hostDropped

theorem takeVendor {code} {q : VendorMsg × State} (h : s.Canon) (e : s.takeVendor code = some q) : q.2.Canon := by
  unfold State.takeVendor at e
  split at e
  · split at e
    · cases e
      exact h
    · cases e
  · cases e

theorem grantPage {part asid va r w} (h : s.Canon) : (s.grantPage part asid va r w).2.Canon := by
  unfold State.grantPage
  split
  · exact h
  · extract_lets c other g rest
    have hc : c.2.Canon := by
      unfold c
      split
      · exact h
      · exact h.choose
    clear_value c
    split
    · exact hc
    · exact hc

theorem grantPages {part asid r w} : ∀ {n va} {s : State}, s.Canon → (s.grantPages part asid va r w n).2.Canon
  | 0, _, _, h => h
  | _ + 1, _, _, h => by
    unfold State.grantPages
    exact grantPages (grantPage h)

theorem execXlateReq (h : s.Canon) : CanonOut (execXlateReq s) := .offered (.map fun _ e =>
  branch (h.takeVendor e).sendVendor (h.takeVendor e).grantPages.sendVendor)

theorem execRevokeAck (h : s.Canon) : CanonOut (execRevokeAck s) := .offered (.map fun _ e => by
  have h₁ := h.takeVendor e
  dsimp only
  split
  · exact h₁.dropGrants
  · exact h₁)

theorem execRevokeTimeout (h : s.Canon) : CanonOut (execRevokeTimeout s) := by
  refine .offered ?_
  split
  · exact .none
  · exact .some h.untilTime.dropGrants.logHostUr

theorem mailboxWrite {mb off bytes} {drop : State} (h : s.Canon) (hd : drop.Canon) : (s.mailboxWrite mb off bytes drop).Canon := by
  refine branch h.setMailbox (branch ?_ hd)
  split
  · next e => exact h.execMailboxRing _ e
  · exact h

theorem barWrite {fn off bytes} (h : s.Canon) : (s.barWrite fn off bytes).Canon := by
  refine branch (branch ?_ h.hostDropped) (branch (h.mailboxWrite h.hostDropped) (branch h h.hostDropped))
  split
  · next e => exact h.execKick _ e
  · exact h

/-! ### Requests on heaps, and what the relocation engines do -/

theorem claimPage {die r} (h : s.Canon) : CanonOpt (s.claimPage die r) :=
  .branch .none (.branch (.branch .none (.some h.revokeGrants)) (.some h.setReloc))

theorem execObjectClaim {die} (h : s.Canon) : CanonOut (execObjectClaim die s) :=
  .offered (.branch .none (.branch h.claimPage (.some h.claimObject)))

theorem rewriteLeaves {asid src size pa} (h : s.Canon) : (s.rewriteLeaves asid src size pa).Canon :=
  h.foldl fun _ _ h => branch h h.putSystem

theorem withTaken {l} (h : s.Canon) : State.Canon { s with taken := l } := h
theorem withHomeMap {m} (h : s.Canon) : State.Canon { s with homeMap := m } := h

theorem settlePage {r pa die} (h : s.Canon) : (s.settlePage r pa die).Canon := by
  unfold State.settlePage
  extract_lets src size s₁ g e s₂ moved
  have h₁ : s₁.Canon := h.foldl fun _ _ h => branch h h.rewriteLeaves
  have h₂ : s₂.Canon := branch h₁ h₁.withHomeMap
  exact h₂.withTaken.inval

theorem execPublish {die} (h : s.Canon) : CanonOut (execPublish die s) := by
  refine .offered ?_
  dsimp only
  split
  · exact .none
  · refine .branch .none ?_
    split
    · exact .some h.settlePage.putReloc
    · refine .some (putReloc ?_)
      split
      · exact h.insertFwd.memPut
      · exact h.insertFwd

theorem execHeapstart (h : s.Canon) : CanonOut (execHeapstart s) := h.serveRequest fun _ _ =>
  .branch (.refuse h) (.branch (.refuse h) (.answer h.relocStart))

theorem execHeapquery (h : s.Canon) : CanonOut (execHeapquery s) := h.serveRequest fun _ _ => .branch (.refuse h) (.answer h)

theorem execHeapabort (h : s.Canon) : CanonOut (execHeapabort s) := h.serveRequest fun _ _ =>
  .branch (.refuse h) (.branch (.refuse h) (.answer h.relocAbort))

theorem execHeappub (h : s.Canon) : CanonOut (execHeappub s) := h.serveRequest fun _ _ => h.withContext fun _ =>
  .branch (.refuse h) (.branch (.branch (.refuse h) (.branch (.refuse h) (.wait h.publishHeap.setPhase)))
    (.branch (.wait h) (.answer h.memPut)))

/-- The forwarding table is cleared in place. -/
theorem freeHeap {asid heap} (h : s.Canon) : (s.freeHeap asid heap).Canon := by
  unfold State.freeHeap
  extract_lets hcb desc list spans c s₁ kept record s₂ s₃ s₄ s₅
  have h₂ : s₂.Canon := putSystem (s := s₁) h
  have h₃ : s₃.Canon := State.wf_clear s₂ _ _ h₂
  have h₄ : s₄.Canon := h₃.putSystem.putSystem
  have h₅ : s₅.Canon := h₄.foldl fun _ _ h => branch h.setReloc h
  exact h₅.foldl fun _ _ h => h.inval.frame

theorem execHeapfree (h : s.Canon) : CanonOut (execHeapfree s) := h.serveRequest fun _ _ => h.withContext fun _ =>
  .branch (.refuse h) (.branch (.refuse h) (.answer h.freeHeap))

/-! ### Debug requests -/

theorem execCapture (h : s.Canon) : CanonOut (execCapture s) := h.serveRequest fun _ _ =>
  .branch (.refuse h) (h.withContext fun _ => .answer (h.foldl fun _ _ h => h.modCore))

theorem execRegionbp (h : s.Canon) : CanonOut (execRegionbp s) := h.serveRequest fun _ _ =>
  .branch (.refuse h) (.branch (.refuse h) (.branch (.refuse h) (.answer h.modCore)))

theorem haltRequest {mode f} (h : s.Canon) : CanonOut (s.haltRequest mode f) := h.serveForm fun _ _ =>
  .branch (.refuse h) (h.withContext fun _ => .branch (.refuse h) (.answer (h.foldl fun _ _ h => h.modCore)))

theorem execHalt (h : s.Canon) : CanonOut (execHalt s) := h.haltRequest
theorem execContinueRun (h : s.Canon) : CanonOut (execContinueRun s) := h.haltRequest
theorem execStepToEdge (h : s.Canon) : CanonOut (execStepToEdge s) := h.haltRequest
theorem execStepBundle (h : s.Canon) : CanonOut (execStepBundle s) := h.haltRequest

theorem patchHeader {mb asid va on} (h : s.Canon) : CanonOpt (s.patchHeader mb asid va on) := by
  unfold State.patchHeader
  split
  · exact .none
  · refine .branch .none ?_
    split
    · next e => exact .some (h.pieces.snd_eq e).homeWrite.shootDown
    · exact .none

theorem patchRequest {on form} (h : s.Canon) : CanonOut (s.patchRequest on form) := h.serveForm fun _ _ => by
  refine .branch (.wait h) (.branch (.refuse h) (.branch (.refuse h) (h.withContext fun _ => ?_)))
  split
  · exact .refuse h
  · next e => exact .branch (.answer (h.patchHeader _ e).frame) (.wait (setPhase (h.patchHeader _ e)))

theorem execPatchSet (h : s.Canon) : CanonOut (execPatchSet s) := h.patchRequest
theorem execPatchClear (h : s.Canon) : CanonOut (execPatchClear s) := h.patchRequest

theorem execLogread (h : s.Canon) : CanonOut (execLogread s) := h.serveRequest fun _ _ => by
  split
  · exact .answer h
  · exact .answer h.hostWrite

/-! ### Administration -/

theorem refreshDbg (h : s.Canon) : s.refreshDbg.Canon := h.foldl fun _ _ h => branch h h.modCore

theorem execPartset (h : s.Canon) : CanonOut (execPartset s) := h.serveRequest fun _ _ => by
  refine .branch (.refuse h) ?_
  dsimp only
  split
  · exact .refuse h
  · exact .branch (.refuse h) (.answer h.frame.refreshDbg)

theorem execWhorlset (h : s.Canon) : CanonOut (execWhorlset s) := h.serveRequest fun _ _ => .branch (.refuse h) (.answer h.putSystem)
theorem execPinlevel (h : s.Canon) : CanonOut (execPinlevel s) := h.serveRequest fun _ _ => .branch (.refuse h) (.answer h.setLevels)
theorem execWearread (h : s.Canon) : CanonOut (execWearread s) := h.serveRequest fun _ _ => .branch (.refuse h) (.answer h.hostWrite)

theorem withLink {k} (h : s.Canon) : State.Canon { s with link := k } := h

theorem execSetid (h : s.Canon) : CanonOut (execSetid s) := h.serveRequest fun _ _ =>
  .branch (.refuse h) (.branch (.refuse h) (.answer h.withLink))

theorem execRouteset (h : s.Canon) : CanonOut (execRouteset s) := h.serveRequest fun _ _ =>
  .branch (.refuse h) (.branch (.answer h) (.answer h))

theorem execGroupset (h : s.Canon) : CanonOut (execGroupset s) := h.serveRequest fun _ _ =>
  .branch (.refuse h) (.branch (.refuse h) (.answer h))

theorem execImportEntry (h : s.Canon) : CanonOut (execImportEntry s) := h.serveRequest fun _ _ => .branch (.refuse h) (.answer h)
theorem execAttest (h : s.Canon) : CanonOut (execAttest s) := h.serveRequest fun _ _ => .answer h.hostWrite
theorem execDbgchal (h : s.Canon) : CanonOut (execDbgchal s) := h.serveRequest fun _ _ => .answer h

theorem useChallenge (h : s.Canon) : s.useChallenge.Canon := h

theorem execDbgattach (h : s.Canon) : CanonOut (execDbgattach s) := h.serveRequest fun _ _ =>
  .branch (.refuse h) (.branch (.refuse h) (.branch (.refuse h.useChallenge) (.answer h.useChallenge.frame.refreshDbg)))

theorem releaseHalts (h : s.Canon) : s.releaseHalts.Canon := h.foldl fun _ _ h => branch h.modCore h
theorem detachAll (h : s.Canon) : s.detachAll.Canon := h.frame.refreshDbg.releaseHalts

theorem execDbgdetach (h : s.Canon) : CanonOut (execDbgdetach s) := h.serveRequest fun _ _ =>
  .branch (.refuse h) (.branch (.refuse h) (.answer h.frame.refreshDbg.releaseHalts))

theorem lifecycleRequest {code newKey fits f} (h : s.Canon) (hf : ∀ b t, State.Canon t → (f b t).Canon) :
    CanonOut (s.lifecycleRequest code newKey fits f) := h.serveRequest fun _ _ =>
  .branch (.refuse h) (.branch (.refuse h) (.branch (.refuse h.useChallenge) (.answer (hf _ _ h.useChallenge))))

theorem newOwner {b} (h : s.Canon) : (s.newOwner b).Canon := h

/-- A key wipe empties memory. -/
theorem keyWipe : s.keyWipe.Canon := (frame (s := State.reset) State.wf_reset).foldl fun _ _ h => h.modCore

theorem setLifecycle {l} (h : s.Canon) : (s.setLifecycle l).Canon := h.frame.wearAdd.detachAll

theorem execClaim (h : s.Canon) : CanonOut (execClaim s) := h.lifecycleRequest fun _ _ h => h.newOwner
theorem execTransfer (h : s.Canon) : CanonOut (execTransfer s) := h.lifecycleRequest fun _ _ h => h.newOwner
theorem execReturnPkg (h : s.Canon) : CanonOut (execReturnPkg s) := h.lifecycleRequest fun _ _ _ => keyWipe.setLifecycle
theorem execRetire (h : s.Canon) : CanonOut (execRetire s) := h.lifecycleRequest fun _ _ h => h.setLifecycle

/-! ### The loader -/

theorem heapPut {asid n bytes} {q : Nat × State} (h : s.Canon) (e : s.heapPut asid n bytes = some q) : q.2.Canon := by
  unfold State.heapPut at e
  split at e
  · cases e
  · split at e
    · cases e
    · next e₁ =>
      cases e
      exact (h.chooseFrom e₁).frame.writeCode

theorem putImage {asid bytes} {q : Nat × State} (h : s.Canon) (e : s.putImage asid bytes = some q) : q.2.Canon := by
  unfold State.putImage at e
  split at e
  · cases e
    exact h
  · dsimp only at e
    split at e
    · cases e
    · next e₁ =>
      split at e
      · cases e
      · split at e
        · cases e
        · next e₂ =>
          cases e
          exact writeCode (mapPages (putSystem (choose (choose (h.chooseFrom e₁)))) _ e₂)

theorem putObjects {asid l} (h : s.Canon) : (s.putObjects asid l).Canon := h.putSystem.putSystem
theorem addObject {asid o} (h : s.Canon) : CanonOpt (s.addObject asid o) := .branch .none (.some h.putObjects)

theorem execRegobj (h : s.Canon) : CanonOut (execRegobj s) := h.serveRequest fun _ _ => h.withContext fun _ => by
  refine .branch (.refuse h) ?_
  split
  · next e => exact .answer (h.addObject _ e)
  · exact .refuse h

theorem execUnregobj (h : s.Canon) : CanonOut (execUnregobj s) := h.serveRequest fun _ _ => h.withContext fun _ =>
  .branch (.refuse h) (.answer h.putObjects)

theorem placeObject {asid hash budget flags desc image codeSize code} (h : s.Canon) :
    CanonOpt (s.placeObject asid hash budget flags desc image codeSize code) := by
  unfold State.placeObject
  split
  · exact .none
  · next e₁ =>
    split
    · exact .none
    · next e₂ => exact .branch .none ((h.putImage e₁).heapPut e₂).addObject

theorem execLoadobj (h : s.Canon) : CanonOut (execLoadobj s) := h.serveRequest fun _ _ => h.withContext fun asid => by
  generalize s.badAccount asid = bad
  dsimp only
  split
  · exact .refuse h
  · refine .branch (.refuse h) (.branch (.refuse h) (.branch (.refuse h) ?_))
    split
    · split
      · next e => exact .answer (h.placeObject _ e)
      · exact .refuse h
    · exact .refuse h

theorem bindSkein {part off} : ∀ {l} {s : State}, s.Canon → CanonOpt (s.bindSkein part off l)
  | [], _, h => .some h
  | _ :: _, _, h => by
    unfold State.bindSkein
    extract_lets c b r
    have hr : r.2.Canon := skeinLoad (s := c.2) h
    exact .branch (bindSkein h) (.branch (bindSkein hr) .none)

theorem grantErrata {part} : ∀ {l} {s t : State}, s.Canon → s.grantErrata part l = .ok t → t.Canon
  | [], _, _, h, e => by
    cases e
    exact h
  | _ :: _, _, _, h, e => by
    unfold State.grantErrata at e
    split at e
    · cases e
    · exact grantErrata h e
    · split at e
      · next e₁ => exact grantErrata (h.bindSkein _ e₁) e
      · cases e

-- The search of the format's skein is made opaque before the list is taken apart: else it is run over the whole creel
-- wherever the definition's equations are checked.
theorem bindFabric {part l} : ∀ {s : State}, s.Canon → CanonOpt (s.bindFabric part l) := by
  obtain ⟨f, hf⟩ : ∃ f, f = State.formatSkein := ⟨_, rfl⟩
  delta State.bindFabric State.bindFabric._f
  rw [← hf]
  induction l with
  | nil => exact .some
  | cons id l ih =>
    intro s h
    dsimp only
    split
    · exact .none
    · split
      · next e => exact ih (h.bindSkein _ e)
      · exact .none

theorem addFns {asid heap hash n0} : ∀ {k i} {s : State}, s.Canon → CanonOpt (s.addFns asid heap hash n0 i k)
  | 0, _, _, h => .some h
  | _ + 1, _, _, h => by
    unfold State.addFns
    exact .branch .none (addFns (writeCode (setFn h)))

theorem placeList {asid l} (h : s.Canon) : CanonOpt (s.placeList asid l) := by
  unfold State.placeList
  split
  · exact .none
  · dsimp only
    split
    · exact .none
    · next e => exact placeObject (h.addFns _ e)

theorem execPlace (h : s.Canon) : CanonOut (execPlace s) := h.serveRequest fun _ _ => h.withContext fun asid => by
  generalize s.badAccount asid = bad
  refine .branch (.refuse h) ?_
  split
  · exact .refuse h
  · refine .branch (.refuse h) ?_
    split
    · exact .refuse h
    · next e₁ =>
      split
      · exact .refuse h
      · next e₂ =>
        split
        · next e₃ => exact .answer (placeList (bindFabric (h.grantErrata e₁) _ e₂) _ e₃)
        · exact .refuse h

theorem execBundlingComplete {asid fn} (h : s.Canon) : CanonOut (execBundlingComplete asid fn s) := by
  refine .offered ?_
  dsimp only
  split
  · refine .branch .none ?_
    split
    · next e => exact .some (h.chooseFrom e).setFn.writeCode.setStub
    · split
      · exact .some h.setFn.setStub
      · exact .branch .none (.some (h.setFn.foldl fun _ _ h => branch h.modCore h))
  · exact .none

theorem execCodeEvict {asid fn} (h : s.Canon) : CanonOut (execCodeEvict asid fn s) := by
  refine .offered ?_
  split
  · exact .branch .none (.some h.setFn)
  · exact .none

theorem execMigout (h : s.Canon) : CanonOut (execMigout s) := h.serveRequest fun _ _ => h.withContext fun _ =>
  .branch (.wait (h.foldl fun _ _ h => h.modCore)) (.branch (.refuse h) (.answer h.putSystem))

theorem migrateItem {asid slot record i} (h : s.Canon) : CanonOpt (s.migrateItem asid slot record i) := by
  unfold State.migrateItem
  dsimp only
  split
  · exact .none
  · next e => exact .some (h.takeSystem e).putSystem.modLaunch

theorem migrateItems {asid slot record} : ∀ {l : List Nat} {o : Option State}, CanonOpt o →
    CanonOpt (l.foldl (fun o i => o.bind fun t => t.migrateItem asid slot record i) o)
  | [], _, h => h
  | _ :: _, _, h => by
    refine migrateItems (o := Option.bind _ _) fun t e => ?_
    obtain ⟨u, hu, e⟩ := Option.bind_eq_some_iff.mp e
    exact (h u hu).migrateItem t e

theorem execMigin (h : s.Canon) : CanonOut (execMigin s) := h.serveRequest fun _ _ => h.withContext fun _ => by
  dsimp only
  split
  · exact .refuse h
  · refine .branch (.refuse h) ?_
    split
    · next e => exact .answer (migrateItems (.some h) _ e)
    · exact .refuse h

/-! ### Power, boot and loss of power -/

theorem clockChange {clock} (h : s.Canon) : (s.clockChange clock).Canon := by
  unfold State.clockChange
  exact (h.choose.foldl fun _ _ h => branch h.powerCycles h).setPower

theorem setCeil {q} (h : s.Canon) : (s.setCeil q).Canon := h.modCore
theorem setCeils {l : List (Nat × Nat)} (h : s.Canon) : (l.foldl State.setCeil s).Canon := h.foldl fun _ _ h => h.setCeil
theorem pauseRelocs {b} (h : s.Canon) : (s.pauseRelocs b).Canon := h

theorem withPwr {p} (h : s.Canon) : State.Canon { s with pwr := p } := h

theorem shed {a} (h : s.Canon) : (s.shed a).Canon := by
  refine withPwr ?_
  split
  · exact (h.foldl fun _ _ h => h.unmark).pauseRelocs
  · exact h
  · exact h.setCeils
  · exact h.clockChange
  · exact h.withPwr.foldl fun _ _ h => branch h.modCore h

theorem unshed (h : s.Canon) : s.unshed.Canon := by
  unfold State.unshed
  split
  · exact h
  · refine withPwr ?_
    split
    · exact h.pauseRelocs
    · exact h
    · exact h.setCeils
    · exact h.clockChange
    · exact h

theorem execPowerTick (h : s.Canon) : CanonOut (execPowerTick s) := by
  refine .offered (.branch .none ?_)
  extract_lets old est s₁ avg s₂ s₃ s₄
  have h₃ : s₃.Canon := h
  have h₄ : s₄.Canon := by
    refine branch ?_ ?_
    · split
      · exact h₃.shed
      · exact h₃
    · split
      · exact branch h₃.unshed h₃
      · exact h₃
  exact .some h₄.frame.setPower

theorem execPowerStepPin (h : s.Canon) : CanonOut (execPowerStepPin s) := .offered (.branch .none (.some h.setLevels))
theorem execIdleEntry (h : s.Canon) : CanonOut (execIdleEntry s) := .offered (.branch .none (.some h))
theorem execPowerFail (h : s.Canon) : CanonOut (execPowerFail s) := .offered (.branch .none (.some h.frame.wearAdd.detachAll))

theorem powerOff : s.powerOff.Canon := withPwr packageReset

theorem execPowerLost : CanonOut (execPowerLost s) := .offered (.branch .none (.some powerOff))
theorem execDumpComplete : CanonOut (execDumpComplete s) := .offered (.branch .none (.some powerOff))

theorem execWearLogCommit (h : s.Canon) : CanonOut (execWearLogCommit s) := by
  refine .offered (.branch .none ?_)
  extract_lets s₁ s₂ s₃
  have h₂ : s₂.Canon := wearAdd (s := s₁) h
  have h₃ : s₃.Canon := h₂.foldl fun _ _ h => h.choose.wearAdd
  exact .some h₃

theorem execVoltageDroop {die mv} (h : s.Canon) : CanonOut (execVoltageDroop die mv s) :=
  .offered (.branch .none (.branch (.some h) (.some h.wearAdd)))

theorem bootMemory (h : s.Canon) : s.bootMemory.Canon := by
  unfold State.bootMemory
  exact (((h.frame.memWrite.memWrite.foldl fun _ _ h => h.modCore).foldl fun _ _ h => h.memPut).foldl fun _ _ h => h.memPut)

theorem bootCreel (h : s.Canon) : s.bootCreel.Canon :=
  ((h.frame.foldl fun _ _ h => h.skeinLoad).foldl fun _ _ h => h.modCore).foldl fun _ _ h => h.modCore

theorem execBoot (h : s.Canon) : CanonOut (execBoot s) := by
  refine .offered (.branch .none (.branch (.some h) ?_))
  extract_lets s₁
  have h₁ : s₁.Canon := h.bootMemory.bootCreel
  clear_value s₁
  exact .some h₁

/-! ### One step -/

/-- Every instruction keeps memory canonical: a slot operation by its meaning, an event by its own lemma. -/
theorem exec {i : Instr} (h : s.Canon) : CanonOut (exec i s) := by
  cases e : semOf i with
  | some m =>
    rw [(semOf_spec e s).1]
    exact h.runSolo (semOf_keeps e)
  | none =>
    cases i
    case headerOnlyBundle => exact h.execHeaderOnlyBundle
    case copyPerform => exact h.execCopyPerform
    case stqPushPerform => exact h.execStqPushPerform
    case mOperationPerform => exact h.execMOperationPerform
    case landingDataArrival => exact h.execLandingDataArrival
    case storePerform => exact h.execStorePerform
    case uncachedWriteAck => exact h.execUncachedWriteAck
    case retirementEntryFree => exact h.execRetirementEntryFree
    case homeSliceAccess => exact h.execHomeSliceAccess
    case invalidation => exact h.execInvalidation
    case remoteWrite => exact h.execRemoteWrite
    case fetchFill => exact h.execFetchFill
    case eccCorr => exact h.execEccCorr
    case eccFreezeEnd => exact h.execEccFreezeEnd
    case onchipUe => exact h.execOnchipUe
    case systemUe => exact h.execSystemUe
    case dpcRelease => exact h.execDpcRelease
    case barPacket => exact h.execBarPacket
    case barrierRelease => exact h.execBarrierRelease
    case fatalContextError => exact h.execFatalContextError
    case contextKill => exact h.execContextKill
    case supstart => exact h.execSupstart
    case accountLatch => exact h.execAccountLatch
    case supervisorFlush => exact h.execSupervisorFlush
    case captureStart => exact h.execCaptureStart
    case captureStop => exact h.execCaptureStop
    case shootdown => exact h.execShootdown
    case kick => exact h.execKick
    case packetFetch => exact h.execPacketFetch
    case launchComplete => exact h.execLaunchComplete
    case itemStart => exact h.execItemStart
    case resumeEntry => exact h.execResumeEntry
    case rebalance => exact h.execRebalance
    case ageing => exact h.execAgeing
    case watchdogExpire => exact h.execWatchdogExpire
    case partitionReset => exact h.execPartitionReset
    case rangeReload => exact h.execRangeReload
    case bundlingComplete => exact h.execBundlingComplete
    case codeEvict => exact h.execCodeEvict
    case objectClaim => exact h.execObjectClaim
    case lineMoveRead => exact h.execLineMoveRead
    case lineMoveCopied => exact h.execLineMoveCopied
    case publish => exact h.execPublish
    case hostAccess => exact h.execHostAccess
    case pcsLock => exact h.execPcsLock
    case flit => exact h.execFlit
    case portDown => exact h.execPortDown
    case retrainAttempt => exact h.execRetrainAttempt
    case peerUnreachable => exact h.execPeerUnreachable
    case memberFenced => exact h.execMemberFenced
    case routerBypass => exact h.execRouterBypass
    case whorlTick => exact h.execWhorlTick
    case drainmax => exact h.execDrainmax
    case powerWindow => exact h.execPowerWindow
    case registerWrite => exact h.execRegisterWrite
    case mailboxRing => exact h.execMailboxRing
    case voltageDroop => exact h.execVoltageDroop
    case xlateReq => exact h.execXlateReq
    case revokeAck => exact h.execRevokeAck
    case revokeTimeout => exact h.execRevokeTimeout
    case init => exact h.execInit
    case nak => exact h.execNak
    case retrain => exact h.execRetrain
    case read => exact h.execRead
    case write => exact h.execWrite
    case atomic => exact h.execAtomic
    case redcMessage => exact h.execRedcMessage
    case bcstMessage => exact h.execBcstMessage
    case rdata => exact h.execRdata
    case wack => exact h.execWack
    case areply => exact h.execAreply
    case error => exact h.execError
    case heartbeat => exact h.execHeartbeat
    case probeMessage => exact h.execProbeMessage
    case probeack => exact h.execProbeack
    case powerStepPin => exact h.execPowerStepPin
    case malformedBundle => exact h.execMalformedBundle
    case patchAckTimeout => exact h.execPatchAckTimeout
    case ctxalloc => exact h.execCtxalloc
    case ctxfree => exact h.execCtxfree
    case kill => exact h.execKill
    case rangeset => exact h.execRangeset
    case map => exact h.execMap
    case unmap => exact h.execUnmap
    case regq => exact h.execRegq
    case deregq => exact h.execDeregq
    case place => exact h.execPlace
    case loadobj => exact h.execLoadobj
    case regobj => exact h.execRegobj
    case unregobj => exact h.execUnregobj
    case migout => exact h.execMigout
    case migin => exact h.execMigin
    case heapstart => exact h.execHeapstart
    case heapquery => exact h.execHeapquery
    case heapabort => exact h.execHeapabort
    case heappub => exact h.execHeappub
    case heapfree => exact h.execHeapfree
    case capture => exact h.execCapture
    case regionbp => exact h.execRegionbp
    case halt => exact h.execHalt
    case continueRun => exact h.execContinueRun
    case stepToEdge => exact h.execStepToEdge
    case stepBundle => exact h.execStepBundle
    case patchSet => exact h.execPatchSet
    case patchClear => exact h.execPatchClear
    case logread => exact h.execLogread
    case attest => exact h.execAttest
    case dbgchal => exact h.execDbgchal
    case dbgattach => exact h.execDbgattach
    case dbgdetach => exact h.execDbgdetach
    case partset => exact h.execPartset
    case whorlset => exact h.execWhorlset
    case pinlevel => exact h.execPinlevel
    case wearread => exact h.execWearread
    case setid => exact h.execSetid
    case routeset => exact h.execRouteset
    case groupset => exact h.execGroupset
    case importEntry => exact h.execImportEntry
    case claim => exact h.execClaim
    case transfer => exact h.execTransfer
    case returnPkg => exact h.execReturnPkg
    case retire => exact h.execRetire
    case heartbeatInterval => exact h.execHeartbeatInterval
    case probeInterval => exact h.execProbeInterval
    case wearLogCommit => exact h.execWearLogCommit
    case powerTick => exact h.execPowerTick
    case idleEntry => exact h.execIdleEntry
    case powerFail => exact h.execPowerFail
    case dumpComplete => exact execDumpComplete
    case boot => exact h.execBoot
    case powerLost => exact execPowerLost
    all_goals cases e

/-- A core's turn: its bundle, or the first piece of outstanding work that can move. -/
theorem runCore (h : s.Canon) : CanonOut s.runCore := by
  unfold State.runCore
  refine .branch .fault (.branch (.next h.powerCycle) (.branch (.next h.idleCycle) ?_))
  split
  · exact .next h.fetchFatal
  · split
    · next e => exact .next (h.freezeCycle.exec _ e)
    · exact .next h.freezeCycle
  · refine .branch ?_ ?_
    · dsimp only
      split
      · next e =>
        obtain ⟨i, _, e⟩ := List.exists_of_findSome?_eq_some e
        split at e
        · next e₁ =>
          cases e
          exact .next (h.issueBytes.exec _ e₁)
        · cases e
      · exact .next h.issueBytes
    · split
      · split
        · exact h.exec
        · exact .next h.issueBundle
      · exact h.exec

/-- A step: an input of the agenda, the boot, or a core's turn. -/
theorem step (h : s.Canon) : CanonOut (step s) := by
  unfold Machine.step
  split
  · exact exec h.frame
  · exact runCore h.frame
  · exact .next h
  · exact .next (vendorArrive h.frame)
  · exact .next (barWrite h.frame)
  · exact .next h
  · exact .branch h.runCore h.exec

end State.Canon

/-- Settles O60: memory is written through `State.memWrite`, cleared in place or emptied, each of which keeps its canonical form; every
other update leaves it as it is. -/
theorem stepKeepsMemory : Obligations.StepKeepsMemory := by
  unfold Obligations.StepKeepsMemory
  intro s t h e
  exact State.Canon.step h t e

end Sys2Proof.Machine

/-! ## The first check that fails (01 R24)

One law for each check of a slot operation in a bundle of its own, under the checks before it; O41 puts them in order. -/

namespace Sys2Proof.Machine

/-- The einfo of checks 1 to 4, field by field (08 R263). -/
theorem illegal_eq (cause : BitVec 8) (sl : Slot) (op : BitVec 8) (cls : Nat) :
    illegal cause sl op cls = ⟨cause, 0#48 ++ op.extractLsb' 2 6 ++ op.extractLsb' 0 2 ++ BitVec.ofNat 5 cls ++
      BitVec.ofNat 3 (match sl with | .s => 6 | .v0 => 1 | .v1 => 2 | .m => 3 | .c0 => 4 | .c1 => 5)⟩ := by
  cases sl <;> rfl

section Checks

variable {m : OpSem} {i : Instr} {s : State} {w : W64}

/-- Check 3 of an operation whose slot is unbound or that the core does not run. -/
theorem soloIssuing_check3_unbound (h : (s.core s.cur).instanceOf m.slot = none ∨ m.runsOn s.cur (s.core s.cur) = false) :
    check3 s.cur (s.core s.cur) [s.soloIssuing m w] = some (illegal causeIllegal m.slot m.op 0) := by
  have h' : (s.core s.cur).instanceOf m.slot = none ∨ (!m.runsOn s.cur (s.core s.cur)) = true := by simpa using h
  simp only [check3, State.soloIssuing, List.findSome?_cons, h', if_true]

/-- Check 3 of an operation that the core runs in a bound slot: its timing entry is not zero. -/
theorem soloIssuing_check3_bound (hb : (s.core s.cur).instanceOf m.slot ≠ none) (hr : m.runsOn s.cur (s.core s.cur) = true)
    {row cls b : Nat} (ht : m.timing = some (row, cls, b)) :
    check3 s.cur (s.core s.cur) [s.soloIssuing m w] =
      if (s.core s.cur).timingAt (32 * row + cls) = 0 then some (illegal causeIllegal m.slot m.op cls) else none := by
  simp only [check3, State.soloIssuing, List.findSome?_singleton, hb, hr, Bool.not_true, Bool.false_eq_true, or_self, if_false, ht]

/-- Check 4 of an operation with a class: its bound is not below the timing table. -/
theorem soloIssuing_check4 {row cls b : Nat} (ht : m.timing = some (row, cls, b)) :
    check4 (s.core s.cur) [s.soloIssuing m w] =
      if b < (s.core s.cur).latencyOf row cls then some (illegal causeStale m.slot m.op cls) else none := by
  simp only [check4, State.soloIssuing, List.findSome?_singleton, ht]

/-- Checks 1 and 2 pass: the first failing check is a later one. -/
theorem firstCheck_privileged (hc : i.check1 = none) (h1 : m.check1 (s.core s.cur) = false)
    (h2 : (s.core s.cur).cr.sys = true ∨ m.priv (s.core s.cur) = false) :
    firstCheck s s.cur (soloFetched m i w) [s.soloIssuing m w] =
      (check3 s.cur (s.core s.cur) [s.soloIssuing m w]).orElse fun _ => (check4 (s.core s.cur) [s.soloIssuing m w]).orElse fun _ =>
        (check5 s s.cur [s.soloIssuing m w]).orElse fun _ => checkKnots (s.core s.cur) [] [s.soloIssuing m w] := by
  have h2' : ¬((s.core s.cur).cr.sys = false ∧ m.priv (s.core s.cur) = true) := by
    rcases h2 with h | h <;> simp [h]
  simp only [firstCheck, soloFetched, hc, Option.map_none, soloIssuing_check1, h1, soloIssuing_check2, h2', Bool.false_eq_true, if_false]
  rfl

/-- Check 1 fails, of the word or of what depends on the core. -/
theorem firstCheck_check1 (ho : m.op = opcodeOf w) (h : ¬(i.check1 = none ∧ m.check1 (s.core s.cur) = false)) :
    firstCheck s s.cur (soloFetched m i w) [s.soloIssuing m w] = some (illegal causeIllegal m.slot (opcodeOf w) 0) := by
  by_cases hc : i.check1 = none
  · have h1 : m.check1 (s.core s.cur) = true := by simpa [hc] using h
    simp only [firstCheck, soloFetched, hc, Option.map_none, soloIssuing_check1, h1, if_true, ho]
    rfl
  · exact firstCheck_illFormed hc

variable (hc : i.check1 = none) (h1 : m.check1 (s.core s.cur) = false) (h2 : (s.core s.cur).cr.sys = true ∨ m.priv (s.core s.cur) = false)
include hc h1 h2

/-- Check 3 fails for the slot or the core. -/
theorem firstCheck_unbound (h : (s.core s.cur).instanceOf m.slot = none ∨ m.runsOn s.cur (s.core s.cur) = false) :
    firstCheck s s.cur (soloFetched m i w) [s.soloIssuing m w] = some (illegal causeIllegal m.slot m.op 0) := by
  rw [firstCheck_privileged hc h1 h2, soloIssuing_check3_unbound h]
  rfl

variable (hb : (s.core s.cur).instanceOf m.slot ≠ none) (hr : m.runsOn s.cur (s.core s.cur) = true)
include hb hr

/-- Check 3 fails for a class whose timing entry is zero. -/
theorem firstCheck_untimed {row cls b : Nat} (ht : m.timing = some (row, cls, b)) (h : (s.core s.cur).timingAt (32 * row + cls) = 0) :
    firstCheck s s.cur (soloFetched m i w) [s.soloIssuing m w] = some (illegal causeIllegal m.slot m.op cls) := by
  rw [firstCheck_privileged hc h1 h2, soloIssuing_check3_bound hb hr ht, if_pos h]
  rfl

/-- Check 4 fails. -/
theorem firstCheck_stale {row cls b : Nat} (ht : m.timing = some (row, cls, b)) (h : (s.core s.cur).timingAt (32 * row + cls) ≠ 0)
    (hl : b < (s.core s.cur).latencyOf row cls) :
    firstCheck s s.cur (soloFetched m i w) [s.soloIssuing m w] = some (illegal causeStale m.slot m.op cls) := by
  rw [firstCheck_privileged hc h1 h2, soloIssuing_check3_bound hb hr ht, if_neg h, soloIssuing_check4 ht, if_pos hl]
  rfl

end Checks

section Tests

variable {m : OpSem} {s : State} {w : W64}

/-- Check 5 of one operation: the tests made whatever the predicate, then its own where the predicate is true. -/
theorem soloIssuing_check5 :
    check5 s s.cur [s.soloIssuing m w] = (m.always5 (s.view m)).orElse fun _ =>
      if (s.view m).guard m.guard then m.check5 s s.cur (s.view m) else none := by
  simp only [check5, State.soloIssuing, List.findSome?_cons, List.findSome?_nil]
  cases m.always5 (s.view m) with
  | some t => rfl
  | none =>
    cases (s.view m).guard m.guard with
    | false => rfl
    | true =>
      simp only [Bool.not_true, Bool.false_eq_true, if_false, if_true, Option.orElse_none]
      cases m.check5 s s.cur (s.view m) <;> rfl

/-- The knots of an operation whose predicate is false are not tested. -/
theorem soloIssuing_checkKnots_guarded (h : (s.view m).guard m.guard = false) :
    checkKnots (s.core s.cur) [] [s.soloIssuing m w] = none := by
  simp only [checkKnots, State.soloIssuing, h, Bool.not_false, if_true]

end Tests

/-- Settles O41: each clause is the law of its check. -/
theorem checksInOrder : Obligations.ChecksInOrder := by
  unfold Obligations.ChecksInOrder
  intro s i m sl w hm hw hq c op slot stops named first second third fourth performs
  obtain ⟨hexec, hspec⟩ := semOf_spec hm s
  obtain ⟨rfl, hop⟩ := hspec sl w hw
  have hstops : ∀ t, firstCheck s s.cur (soloFetched m i w) [s.soloIssuing m w] = some t → stops t :=
    fun t ht => hexec.trans (runSolo_traps hq hw ht)
  have hnamed : ∀ cause cls, firstCheck s s.cur (soloFetched m i w) [s.soloIssuing m w] = some (illegal cause m.slot (opcodeOf w) cls) →
      named cause (BitVec.ofNat 5 cls) := by
    intro cause cls ht
    rw [illegal_eq] at ht
    exact hstops _ ht
  have hguard : (s.view m).guard m.guard = performs := View.guard_quiet (v := s.view m) hq.pend m.guard
  refine ⟨fun h => hnamed _ _ (firstCheck_check1 hop h), fun ⟨hc, h1⟩ h => ?_, fun ⟨hc, h1⟩ h2 h => ?_,
    fun ⟨hc, h1⟩ h2 hb hr row cls b ht => ⟨fun h => ?_, fun h hl => ?_⟩, fun ⟨hc, h1⟩ h2 ⟨hb, hr, h3⟩ h4 => ?_⟩
  case refine_1 =>
    obtain ⟨husr, hpriv⟩ : c.cr.sys = false ∧ m.priv c = true := by simpa [second] using h
    have := runSolo_privilege hq hw husr hc h1 hpriv
    rw [hop, illegal_eq] at this
    exact hexec.trans this
  case refine_2 => exact hnamed _ _ (hop ▸ firstCheck_unbound hc h1 h2 h)
  case refine_3 => exact hnamed _ _ (hop ▸ firstCheck_untimed hc h1 h2 hb hr ht h)
  case refine_4 => exact hnamed _ _ (hop ▸ firstCheck_stale hc h1 h2 hb hr ht h hl)
  case refine_5 =>
    have hadm : m.Admitted s := ⟨h2, hb, hr, fun row cls b ht => ⟨h3 row cls b ht, h4 row cls b ht⟩⟩
    have hfirst := firstCheck_admitted (w := w) hc h1 hadm
    rw [soloIssuing_check5, hguard] at hfirst
    refine ⟨fun t ht => hstops t (by rw [hfirst, ht]; rfl), fun ha => ⟨fun hp t ht => hstops t ?_, fun hp => ?_⟩⟩
    · rw [hfirst, ha, hp, if_pos rfl, ht]
      rfl
    rw [hp] at hguard
    rw [ha, hp, soloIssuing_checkKnots_guarded hguard] at hfirst
    obtain ⟨t, ht, hf⟩ := runSolo_guarded hq hw hfirst hguard
    refine ⟨t, hexec.trans ht, ?_⟩
    cases hk : m.produces (s.view m) <;> (rw [hk] at hf; exact hf)

/-! ## Reset values and hard-wired registers (01 R14 to R20) -/

/-- A write to s0 under the bound 1 is discarded. -/
theorem Core.later_s0 {c : Core} (h : c.poison = []) (v : W64) : c.later 1 (.s 0 v) = c.after := by
  rw [Core.later, if_pos (Nat.le_refl 1), land_s0 h]

/-- A write to p0 under the bound 1 is discarded. -/
theorem Core.later_p0 {c : Core} (h : c.poison = []) (b : Bool) : c.later 1 (.p 0 b) = c.after := by
  rw [Core.later, if_pos (Nat.le_refl 1), land_p0 h]

/-- Settles O47: a write to s0 or p0 leaves the core as it was, so the bundle's one effect is that the next one issues. -/
theorem hardWiredRegisters : Obligations.HardWiredRegisters := by
  unfold Obligations.HardWiredRegisters
  refine ⟨fun c v b => ⟨rfl, rfl, rfl, rfl⟩, fun s g w hlat hd => ?_⟩
  have hl : w.lat.toNat = 1 := by rw [hlat]; rfl
  refine ⟨fun h hc => ?_, fun h hc => ?_⟩
  · have hadd : ScalarRR .add 0 fun x y => x + y := scalarRR_of (fun _ _ _ => rfl) (fun _ _ => ⟨_, rfl⟩) fun _ _ => rfl
    have := hadd s g w (by rw [hl]; exact h) hc
    rwa [hl, hd, Core.later_s0 (c := s.now) h.quiet.poison] at this
  · have heq : CompareRR .cmpeq fun x y => x = y := compareRR_of (fun _ _ _ => rfl) (fun _ _ => ⟨_, rfl⟩) fun _ _ => beq_iff_eq
    have := heq s g w _ (by rw [hl]; exact h) hc decide_eq_true_iff
    rwa [hl, hd, Core.later_p0 (c := s.now) h.quiet.poison] at this

/-- A tile core after reset. -/
theorem core_reset_tile {k : Nat} (hk : k < 576) : State.reset.core k = {} := (core_reset k).trans (if_pos hk)

/-- A supervisor core after reset: that of D0 alone may issue. -/
theorem core_reset_supervisor (die : Nat) : State.reset.core (576 + die) =
    { supervisor := true, stopped := 576 + die ≠ 576, cr := { sys := true, slotmap := 0x01AA } } :=
  (core_reset _).trans (if_neg (by omega))

/-- Settles O46: an absent core reads as the default of its kind, whose fields are those of the spec. -/
theorem resetValues : Obligations.ResetValues := by
  unfold Obligations.ResetValues
  intro s ship
  refine ⟨fun k hk => ?_, fun die _ => ?_, rfl, rfl, fun a => rfl⟩
  · rw [show s.core k = {} from core_reset_tile hk]
    exact ⟨rfl, rfl, rfl, rfl, rfl, rfl, rfl, rfl, rfl, rfl, tile_timing, fun n => ⟨rfl, rfl, rfl, rfl, rfl⟩, rfl, rfl, fun z i => rfl,
      fun a => rfl, fun n => ⟨rfl, rfl, rfl⟩, rfl, rfl⟩
  · rw [show s.core (576 + die) = _ from core_reset_supervisor die]
    exact ⟨rfl, rfl, rfl, rfl, supervisor_timing⟩

end Sys2Proof.Machine

/-! ## The steps of the memory system and of the copy engines (log 5) -/

namespace Sys2Proof.Machine

section MemorySystem

variable {s u : State} {core : Nat}

/-! ### Landing slots -/

/-- LANDING_DATA_ARRIVAL of a slot that has its reply: a live slot takes the data, and one whose item has ended is gone (01 R37, 08 R257). -/
theorem exec_landingDataArrival {i : Nat} {l : Landing} {v : W64} {p : Bool} (hl : (s.core core).landings[i]? = some l)
    (hs : l.state = .replied v p) :
    exec (.landingDataArrival core i) s = .next (if l.live = true then s.modCore core fun d => d.setLanding i (.arrived v p)
      else s.modCore core fun d => { d with landings := d.landings.filter fun x => x.id ≠ l.id }) := by
  change execLandingDataArrival core i s = _
  simp only [execLandingDataArrival, hl, hs, offered]
  split <;> rfl

variable {l : Landing} {ps : List Piece} {size : BitVec 2}

/-- A load is served inside the package: the bytes of its pieces, with the core's own stores before it laid over them. -/
theorem State.serveLanding_load {i : Nat} {sgn : Bool} (hc : l.tgt.cls ≠ .remote) (hk : l.kind = .load size sgn)
    (hp : s.pieces l.tgt.asid l.tgt.ca .r (l.tgt.cls = .host) (sizeBytes size) = (.ok ps, u)) (hh : ps.any Piece.isHeld = false) :
    s.serveLanding core i l =
      let r := u.readPieces (dieOf core) ps
      let d := u.core core
      let own := if l.tgt.uncached then [] else d.l1 ++ (d.stream.filter fun e => decide (e.seq < l.id)).map fun e => (e.tgt.ca.toNat, e.l1Bytes)
      some (r.2.2.modCore core fun d => d.setLanding i (.replied (BitVec.ofNat 64 (leNat (overlay l.tgt.ca.toNat r.1 own))) r.2.1)) := by
  simp only [State.serveLanding, hc, hk, hp, hh, if_false, Bool.false_eq_true]

/-- An atomic that is no access of a reference slot is served inside the package. -/
theorem State.serveLanding_amo {i : Nat} {op : AmoOp} {b x : W64} {scope : BitVec 3} {ord : Bool} (hc : l.tgt.cls ≠ .remote)
    (hk : l.kind = .amo op size b x scope ord)
    (hp : s.pieces l.tgt.asid l.tgt.ca .rw (l.tgt.cls = .host) (sizeBytes size) = (.ok ps, u)) (hh : ps.any Piece.isHeld = false)
    (hr : u.amoOnRef l.tgt = false) :
    s.serveLanding core i l =
      let r := u.amoStep l.tgt.asid (some core) ps op size b x
      some (r.2.2.modCore core fun d => d.setLanding i (.replied r.1 r.2.1)) := by
  simp only [State.serveLanding, hc, hk, hp, hh, hr, if_false, Bool.false_eq_true]

/-- HOME_SLICE_ACCESS of a load that waits (09 R277). -/
theorem exec_homeSliceAccess_load {i : Nat} {sgn : Bool} (hl : (s.core core).landings[i]? = some l) (hs : l.state = .waiting)
    (hk : l.kind = .load size sgn) : exec (.homeSliceAccess core i) s = offered (s.serveLanding core i l) := by
  change execHomeSliceAccess core i s = _
  simp only [execHomeSliceAccess, hl, hs, hk, ne_eq, not_true_eq_false, if_false]

/-- HOME_SLICE_ACCESS of an atomic that waits outside the store stream and that its scope releases (08 R247). -/
theorem exec_homeSliceAccess_amo {i : Nat} {op : AmoOp} {b x : W64} {scope : BitVec 3} (hl : (s.core core).landings[i]? = some l)
    (hs : l.state = .waiting) (hk : l.kind = .amo op size b x scope false) (hr : s.amoReleased core l scope = true) :
    exec (.homeSliceAccess core i) s = offered (s.serveLanding core i l) := by
  change execHomeSliceAccess core i s = _
  simp only [execHomeSliceAccess, hl, hs, hk, hr, ne_eq, not_true_eq_false, Bool.false_eq_true, Bool.not_true, or_self, if_false]

/-! ### The store stream and the retirement tracker -/

variable {e : StoreEntry} {es : List StoreEntry}

/-- UNCACHED_WRITE_ACK of a stream whose oldest entry awaits it. -/
theorem exec_uncachedWriteAck (he : (s.core core).stream = e :: es) (hs : e.sent = .acking) :
    exec (.uncachedWriteAck core) s = .next (s.modCore core Core.popStore) := by
  change execUncachedWriteAck core s = _
  simp only [execUncachedWriteAck, he, hs, if_true, offered]

/-- A store of bytes performs at its destination: an uncached one then waits for its acknowledgement, and another leaves the stream. -/
theorem State.storeBytes_ok {bs : List Byte} (hp : s.pieces e.tgt.asid e.tgt.ca .w (e.tgt.cls = .host) bs.length = (.ok ps, u))
    (hh : ps.any Piece.isHeld = false) :
    s.storeBytes core e bs =
      let v := u.homeWrite e.tgt.asid (some core) e.tgt.ca.toNat ps bs
      some (if e.tgt.uncached then v.modCore core fun d =>
          { d with stream := match d.stream with | q :: r => { q with sent := .acking } :: r | [] => [] }
        else (v.modCore core Core.popStore).keepL1 core e.tgt.ca.toNat bs) := by
  simp only [State.storeBytes, hp, hh, Bool.false_eq_true, if_false]
  split <;> rfl

/-- The oldest store of the stream, of plain bytes and not to another package, performs where no fault of the stream and no earlier
atomic to its line stands before it. -/
theorem State.performStore_data {bs : List Byte} (hs : e.sent = .no) (hk : e.kind = .data bs) (hc : e.tgt.cls ≠ .remote)
    (hf : (s.core core).streamFault = false ∨ e.ret.isSome = true) (ha : (s.core core).earlierAmo e.seq e.tgt = false) :
    s.performStore core e = s.storeBytes core e bs := by
  have hf' : ¬((s.core core).streamFault = true ∧ e.ret.isNone = true) := by
    rintro ⟨hfault, hnone⟩
    rcases hf with h | h
    · rw [h] at hfault
      cases hfault
    · rw [Option.isNone_iff_eq_none.mp hnone] at h
      cases h
  simp only [State.performStore, hs, hk, hc, hf', ha, ne_eq, not_true_eq_false, Bool.false_eq_true, or_self, if_false]

/-- STORE_PERFORM is the turn of the stream's oldest entry. -/
theorem exec_storePerform (he : (s.core core).stream = e :: es) : exec (.storePerform core) s = offered (s.performStore core e) := by
  change execStorePerform core s = _
  simp only [execStorePerform, he]

/-- RETIREMENT_ENTRY_FREE of an entry whose work has all performed (08 R257). -/
theorem exec_retirementEntryFree {i : Nat} (hs : (SMap.get none (s.core core).tracker i).isSome = true)
    (hb : (s.core core).trackerBusy i = false) :
    exec (.retirementEntryFree core i) s = .next (s.modCore core fun d => { d with tracker := SMap.set none d.tracker i none }) := by
  change execRetirementEntryFree core i s = _
  simp only [execRetirementEntryFree, hs, hb, Bool.not_false, and_self, if_true, offered]

/-! ### Caches and banks -/

/-- INVALIDATION of a line that a die is to drop: its cache and the scalar L1s beneath it hold the line no more (09 R275). -/
theorem exec_invalidation {die line : Nat} (h : (s.pendInv.any fun q => q.die == die && q.line == line) = true) :
    ∃ t, exec (.invalidation die line) s = .next t ∧ SMap.get [] t.rdc (rdcKey die line) = [] ∧
      t.pendInv = s.pendInv.filter (fun q => !(q.die == die && q.line == line)) ∧ t.mem = s.mem ∧
      ∀ k, dieOf k ≠ die → t.core k = s.core k := by
  obtain ⟨hcore, hrest⟩ := dieOf_foldl line die s.cores
    { s with rdc := SMap.set [] s.rdc (rdcKey die line) [], pendInv := s.pendInv.filter fun q => !(q.die == die && q.line == line) }
  refine ⟨_, show execInvalidation die line s = _ by simp only [execInvalidation, h, if_true, offered]; rfl, ?_⟩
  rw [hrest]
  exact ⟨SMap.get_set_same .., rfl, rfl, hcore⟩

/-- REMOTE_WRITE of whole granules, or of the bytes of a store, that lie in a tile core's scratchpad (09 R282). -/
theorem exec_remoteWrite {src : WriteSrc} {a : Nat} {bs : List Byte}
    (h : src = .granules a bs ∧ a % 16 = 0 ∧ bs.length % 16 = 0 ∨ src = .bytes a bs ∧ 1 ≤ bs.length ∧ bs.length ≤ 8)
    (hz : a + bs.length ≤ (s.core core).spadSize) (ht : (s.core core).supervisor = false) :
    exec (.remoteWrite core src) s = .next (s.modCore core fun d => d.spadWrite a bs true) := by
  change execRemoteWrite core src s = _
  rcases h with ⟨rfl, hline, hlen⟩ | ⟨rfl, hpos, hlen⟩
  · simp [execRemoteWrite, hline, hlen, hz, ht, offered]
  · simp [execRemoteWrite, hpos, hlen, hz, ht, offered]

/-- FETCH_FILL of a line that the translator admits and that holds no poison (01 R25). -/
theorem exec_fetchFill {t : Target} (hm : s.fetch core = .miss t)
    (hp : s.pieces (s.fetchCore core).cr.asid (BitVec.ofNat 52 (t.ca.toNat / 128 * 128)) .x false 128 = (.ok ps, u))
    (hh : ps.any Piece.isHeld = false) (hq : (u.readPieces (dieOf core) ps).2.1 = false) :
    exec (.fetchFill core) s = .next ((u.readPieces (dieOf core) ps).2.2.modCore core fun d =>
      { d with icache := SMap.set [] d.icache (icKey (s.fetchCore core).cr.asid (t.ca.toNat / 128 * 128 / 128)) (u.readPieces (dieOf core) ps).1 }) := by
  change execFetchFill core s = _
  simp only [execFetchFill, State.fetchFill, hm, hp, hh, hq, Bool.false_eq_true, if_false, offered]

/-! ### Copy engines -/

variable {eng : Engine} {i : Nat} {o : CopyOp} (ho : (s.core core).copyAt eng i = some o)
include ho

/-- COPY_PERFORM is a step of the operation. -/
theorem exec_copyPerform : exec (.copyPerform core eng i) s = offered (s.stepCopy core o) := by
  change execCopyPerform core eng i s = _
  simp only [execCopyPerform, ho]

/-- A move inside the package performs in one event, and its knot fails where a list index was out of range (07 R220, R226, log 17). -/
theorem exec_copyPerform_move {l : List Move} {miss : Option Nat} (hr : o.refused = false) (hj : o.job = .move l miss)
    (hf : (l.any fun m => m.far.isSome) = false) (hm : s.performMoves core o l = some (true, u)) :
    exec (.copyPerform core eng i) s = .next (u.finishCopy core o (miss.map fun k => (0, k))) := by
  rw [exec_copyPerform ho]
  simp only [State.stepCopy, hr, hj, hf, hm, Bool.false_eq_true, if_false, offered]

/-- The load of a record writes it to the scratchpad, full (07 R229). -/
theorem exec_copyPerform_loadRecord {dst : Nat} {r : List Byte} (hr : o.refused = false) (hj : o.job = .loadRecord dst r) :
    exec (.copyPerform core eng i) s = .next ((s.modCore core fun d => d.spadWrite dst r true).finishCopy core o none) := by
  rw [exec_copyPerform ho]
  simp only [State.stepCopy, hr, hj, Bool.false_eq_true, if_false, offered]

/-- A push that has its record, and that no earlier push of its engine to the stage precedes, enters the stage's queue (07 R230). -/
theorem exec_stqPushPerform {addr stage : Nat} {r : List Byte} (hj : o.job = .push addr stage) (hr : o.record = some r)
    (he : (s.core core).earlierPush o stage = false) (hp : s.pushRecord o.slot o.stage stage r = some u) :
    exec (.stqPushPerform core eng i) s = .next (u.finishCopy core o none) := by
  change execStqPushPerform core eng i s = _
  simp only [execStqPushPerform, ho, State.pushReady, hj, hr, he, hp, Bool.false_eq_true, if_false, Option.map_some, offered]

omit ho

/-! ### Refusals -/

/-- FATAL_CONTEXT_ERROR of the oldest refusal on its way to the core (14 R372). -/
theorem exec_fatalContextError {kind : Nat} {va : BitVec 57} {pte : Option Nat} {rest : List (Nat × BitVec 57 × Option Nat)}
    (h : (s.core core).refusals = (kind, va, pte) :: rest) :
    exec (.fatalContextError core) s = .next ((s.modCore core fun d => { d with refusals := rest }).raiseFatal core kind va pte) := by
  change execFatalContextError core s = _
  simp only [execFatalContextError, h, offered]

end MemorySystem

/-- Settles O48: each clause is the law of its event. -/
theorem memorySystemSteps : Obligations.MemorySystemSteps := by
  unfold Obligations.MemorySystemSteps
  intro s core c
  refine ⟨fun i l hl => ⟨fun v p hs => exec_landingDataArrival hl hs, fun hs hc => ⟨?_, ?_⟩⟩,
    fun e es he => ⟨exec_uncachedWriteAck he, ?_⟩, fun i => exec_retirementEntryFree, fun die line => exec_invalidation,
    fun src a bs => exec_remoteWrite, fun t ps u hm => exec_fetchFill hm, fun eng i o ho hr => ⟨fun l miss u => exec_copyPerform_move ho hr,
      fun dst r => exec_copyPerform_loadRecord ho hr, fun addr stage r u => exec_stqPushPerform ho⟩,
    fun kind va pte rest => exec_fatalContextError⟩
  · intro size sgn ps u hk hp hh
    exact (exec_homeSliceAccess_load hl hs hk).trans (congrArg offered (State.serveLanding_load hc hk hp hh))
  · intro op size b x scope ps u hk hrel hp hh href
    exact (exec_homeSliceAccess_amo hl hs hk hrel).trans (congrArg offered (State.serveLanding_amo hc hk hp hh href))
  · intro bs ps u hs hk hc hf ha hp hh
    exact (exec_storePerform he).trans (congrArg offered ((State.performStore_data hs hk hc hf ha).trans (State.storeBytes_ok hp hh)))

end Sys2Proof.Machine

/-! ## Errors, kills, containment and the observers of a core -/

namespace Sys2Proof.Machine

section Errors

variable {s : State} {core : Nat}

/-! ### Errors (01 R26, 18 R437, R445, R446) -/

@[simp] theorem State.core_wearAdd (s : State) (off width n k : Nat) : (s.wearAdd off width n).core k = s.core k := rfl

/-- ECC_CORR in one of a tile core's memories: the core freezes, the wear log counts the error, and it is logged for the partition of the
core's context. -/
theorem exec_eccCorr {n : Nat} (hc : core < 576) (hn : n < 6) :
    exec (.eccCorr core n) s =
      let u := (s.modCore core fun d => { d with ecc := 16 }).wearAdd (wearSite core + 8 * n) 8 1
      .next (u.logCorr core 0x0001 (u.ctxPart (s.core core).cr.asid) (sourceOf core) n) := by
  have hout : ¬(580 ≤ core ∨ 6 ≤ n) := by omega
  have hasid : (((s.modCore core fun d => { d with ecc := 16 }).wearAdd (wearSite core + 8 * n) 8 1).core core).cr.asid =
      (s.core core).cr.asid := by rw [State.core_wearAdd, State.core_modCore]
  change execEccCorr core n s = _
  simp only [execEccCorr, hout, hc, if_false, if_true, hasid, offered]

/-- ECC_FREEZE_END: the cycles left of the freeze pass. -/
theorem exec_eccFreezeEnd (h : 0 < (s.core core).ecc) :
    exec (.eccFreezeEnd core) s = .next (s.freezeCycles core acctEcc (s.core core).ecc) := by
  change execEccFreezeEnd core s = _
  simp only [execEccFreezeEnd, Nat.ne_of_gt h, if_false, offered]

/-- ONCHIP_UE in a tile core's scratchpad: the granule is poisoned in place, and the record names its place in its line. -/
theorem exec_onchipUe_spad {a : Nat} (hc : core < 576) :
    exec (.onchipUe core (.spad a)) s =
      let u := s.modCore core fun d => { d with poison := .spad (a / 16 * 16) :: d.poison.filter (· ≠ .spad (a / 16 * 16)) }
      .next (u.logAppend
        { code := 0x0013, cls := 2, part := u.ctxPart (s.core core).cr.asid, asid := (s.core core).cr.asid.toNat, source := sourceOf core
          wid := ((s.core core).item.map fun i => i.wid.toNat).getD 0, detail := 2 ^ (a / 16 % 8) }) := by
  change execOnchipUe core (.spad a) s = _
  simp only [execOnchipUe, show ¬580 ≤ core by omega, show ¬576 ≤ core by omega, if_false, granuleMask, offered]

/-- ONCHIP_UE in an s register of a tile core. -/
theorem exec_onchipUe_sreg {n : Nat} (hc : core < 576) :
    exec (.onchipUe core (.sreg n)) s =
      let u := s.modCore core fun d => { d with poison := .sreg n :: d.poison.filter (· ≠ .sreg n) }
      .next (u.logAppend
        { code := 0x0013, cls := 2, part := u.ctxPart (s.core core).cr.asid, asid := (s.core core).cr.asid.toNat, source := sourceOf core
          wid := ((s.core core).item.map fun i => i.wid.toNat).getD 0, detail := 0 }) := by
  change execOnchipUe core (.sreg n) s = _
  simp only [execOnchipUe, show ¬580 ≤ core by omega, show ¬576 ≤ core by omega, if_false, offered]

/-- ONCHIP_UE inside a supervisor core is SUPERVISOR_FAULT (18 R437). -/
theorem exec_onchipUe_supervisor {place : UePlace} (hp : ∀ pa, place ≠ .mem pa) (h1 : 576 ≤ core) (h2 : core < 580) :
    exec (.onchipUe core place) s = .next (s.supervisorFault core 0x21 0 (s.core core).pc) := by
  change execOnchipUe core place s = _
  have h2' : ¬580 ≤ core := by omega
  cases place with
  | mem pa => exact absurd rfl (hp pa)
  | _ => simp only [execOnchipUe, h1, h2', if_false, if_true, offered]

/-- SYSTEM_UE: the granules of the mask are poisoned, and the whole package is contained (18 R446, R448). -/
theorem exec_systemUe (ca : Nat) (mask : BitVec 8) :
    ∃ (u : State) (source : Nat), u = { s with memPoison := u.memPoison } ∧
      (∀ i, i < 8 → mask.getLsbD i = true → u.poisoned (ca / 128 * 128 + 16 * i) = true) ∧
      exec (.systemUe ca mask) s = .next ((u.logAppend
        { code := 0x0014, cls := 3, source := source, addr := ca / 128 * 128, detail := mask.toNat }).contain 31 source s.logSeq) := by
  obtain ⟨p, hfold, hset, _⟩ := poison_fold mask (ca / 128 * 128) (List.range 8) s
  refine ⟨{ s with memPoison := p }, s.homeDie (BitVec.ofNat 52 ca) * 16384 + 256 + (homeSlice (BitVec.ofNat 52 ca)).toNat, rfl,
    fun i hi hm => hset i (List.mem_range.mpr hi) hm, ?_⟩
  change execSystemUe ca mask s = _
  simp only [execSystemUe, hfold]

/-! ### Containment, kills and supervisors (01 R52, 08 R261, 18 R443, R448) -/

/-- DPC_RELEASE of the upstream port resets the package, but for the creel and the fuses (logs 4 and 51). -/
theorem exec_dpcRelease_package (h : s.contained.contains 31 = true) : exec (.dpcRelease 31) s = .next s.packageReset := by
  change execDpcRelease 31 s = _
  simp only [execDpcRelease, h, Bool.not_true, Bool.false_eq_true, if_false, if_true, offered]

/-- DPC_RELEASE of a partition ends its containment and touches neither memory nor cores. -/
theorem exec_dpcRelease_partition {part : Nat} (h : s.contained.contains part = true) (hp : part ≠ 31) :
    ∃ t, exec (.dpcRelease part) s = .next t ∧ t.contained = s.contained.filter (· ≠ part) ∧ t.mem = s.mem ∧ t.cores = s.cores := by
  have hheld : ¬(!s.contained.contains part) = true := by rw [h]; decide
  exact ⟨_, congrArg offered ((if_neg hheld).trans (if_neg hp)), rfl, rfl, rfl⟩

/-- CONTEXT_KILL delivers a reason of 18 R443 to a tile core that runs an item. -/
theorem exec_contextKill {reason : BitVec 8} (hc : core < 576) (h1 : 1 ≤ reason.toNat) (h9 : reason.toNat ≤ 9)
    (hi : (s.core core).item.isSome = true) :
    exec (.contextKill core reason) s = .next (s.modCore core fun d => d.raiseAsync 0x22 (reason.zeroExtend 64)) := by
  have hzero : reason ≠ 0 := fun e => by rw [e] at h1; exact absurd h1 (by decide)
  have hitem : (s.core core).item.isNone = false := by simpa using hi
  change execContextKill core reason s = _
  simp only [execContextKill, show ¬576 ≤ core by omega, hzero, show ¬9 < reason.toNat by omega, hitem, Bool.false_eq_true, or_self, if_false,
    offered]

/-- SUPSTART releases a stopped supervisor at a PC, and leaves one that runs (01 R52). -/
theorem exec_supstart {die : Nat} (pc : BitVec 64) (hd : die < 4) (h0 : (s.core 576).stopped = false) :
    exec (.supstart die pc) s = .next (if (s.core (576 + die)).stopped = true then
      s.modCore (576 + die) fun d => { d with stopped := false, pc := pc.extractLsb' 0 57 } else s) := by
  change execSupstart die pc s = _
  simp only [execSupstart, show ¬4 ≤ die by omega, h0, Bool.false_eq_true, or_self, if_false]
  cases (s.core (576 + die)).stopped <;> rfl

/-! ### Accounts and captures (10 R288 to R306) -/

/-- ACCOUNT_LATCH takes the live counters, CYCLE and the owner. -/
theorem exec_accountLatch (hc : core < 576) :
    exec (.accountLatch core) s = .next (s.modCore core fun d => { d with acct := { d.acct with
      latchCounts := d.acct.live, latchCycle := d.cycle, latchAsid := d.acct.owner, latchPending := false } }) := by
  change execAccountLatch core s = _
  simp only [execAccountLatch, show ¬576 ≤ core by omega, if_false, offered]

/-- A bank snapshot of a tile core leaves its bank-conflict matrix empty. -/
theorem State.bank_bankSnapshot {key : Nat} (h : (s.core key).supervisor = false) (loop reason exits : Nat) (pc : BitVec 57) :
    ((s.bankSnapshot key loop reason exits pc).core key).acct.bank = [] := by
  unfold State.bankSnapshot
  by_cases hb : (s.core key).acct.bank = []
  · simp only [hb, true_or, if_true]
  · simp only [hb, h, Bool.false_eq_true, or_self, if_false, State.core_modCore]

/-- A flush of the live counters empties them, and leaves the bank-conflict matrix. -/
theorem State.acct_flushLive (s : State) (key : Nat) :
    ((s.flushLive key).core key).acct = { (s.core key).acct with live := [] } := by
  have hcore : ∀ u : State, u.cores = s.cores → u.core key = s.core key := fun u e => by simp only [State.core, e]
  simp only [State.flushLive, State.core_modCore]
  split
  · rfl
  · obtain ⟨m, p, e⟩ := State.rest_blockAdds (s.account (s.core key).acct.owner).1 key (s.core key).acct.live 16 0 s
    rw [hcore _ (by rw [e])]

/-- SUPERVISOR_FLUSH of a tile core: its live counters and its bank-conflict matrix are empty, and other cores are as they were. -/
theorem exec_supervisorFlush (hc : core < 576) (ht : (s.core core).supervisor = false) :
    ∃ t, exec (.supervisorFlush core) s = .next t ∧ (t.core core).acct.live = [] ∧ (t.core core).acct.bank = [] ∧
      (∀ k, k ≠ core → t.core k = s.core k) := by
  have hspill := counts_spillWhere s core 3 fun _ => true
  generalize hu : s.spillWhere core 3 (fun _ => true) = u at hspill
  have ht' : (u.core core).supervisor = false := by rw [hspill.core]; exact ht
  refine ⟨(u.bankSnapshot core 0 3 0 0).flushLive core, ?_, ?_, ?_, ?_⟩
  · change execSupervisorFlush core s = _
    simp only [execSupervisorFlush, show ¬576 ≤ core by omega, if_false, hu, offered]
  · rw [State.acct_flushLive]
  · rw [State.acct_flushLive]
    exact State.bank_bankSnapshot ht' 0 3 0 0
  · exact ((hspill.trans (State.counts_bankSnapshot u core 0 3 0 0)).trans (State.counts_flushLive _ core)).others

/-- The state once the window of a busy capture slot has its record, ended by a stop or aborted by a start. -/
def State.endCapture (s : State) (key slot : Nat) (aborted : Bool) : State :=
  if (SMap.get {} (s.core key).acct.captures slot).busy then s.captureRecord key slot aborted else s

section Captures

variable {p : CapturePacket} {l : List CapturePacket} (h : (s.core core).capturePackets = p :: l)
include h

/-- CAPTURE_START ends a window of the slot as aborted, and starts one (10 R304). -/
theorem exec_captureStart (hk : p.kind = 0) :
    exec (.captureStart core) s = .next ((s.endCapture core p.slot.toNat true).modCore core fun d => d.takePacket.setCapture p.slot.toNat
      { busy := true, window := p.window, asid := p.asid, start := d.cycle, regionStart := d.crRegion }) := by
  change execCaptureStart core s = _
  simp only [execCaptureStart, h, hk, ne_eq, not_true_eq_false, if_false, offered, State.endCapture]

/-- CAPTURE_STOP ends a window of the slot, which is idle then (10 R304). -/
theorem exec_captureStop (hk : p.kind = 1) :
    exec (.captureStop core) s = .next ((s.endCapture core p.slot.toNat false).modCore core fun d => d.takePacket.setCapture p.slot.toNat {}) := by
  change execCaptureStop core s = _
  simp only [execCaptureStop, h, hk, ne_eq, not_true_eq_false, if_false, offered, State.endCapture]

end Captures

/-! ### Shootdowns (10 R312) -/

/-- SHOOTDOWN of a line of which the core has no bundle left to repeat. -/
theorem exec_shootdown {line : Nat} {rest : List Nat} (h : (s.core core).hooks.shootdowns = line :: rest) (hl : s.holdsLine core line = false) :
    exec (.shootdown core) s = .next ((s.modCore core fun d => { d with
      icache := d.icache.filter fun q => q.1 % 2 ^ 45 ≠ line, hooks := { d.hooks with shootdowns := rest } }).acknowledge core line) := by
  change execShootdown core s = _
  simp only [execShootdown, h, hl, Bool.false_eq_true, if_false, offered]

/-- PATCH_ACK_TIMEOUT answers the oldest patch with the cores that have acknowledged. -/
theorem exec_patchAckTimeout {p : Patch} {rest : List Patch} (h : s.patches = p :: rest) :
    exec .patchAckTimeout s = .next
      (({ s with time := max s.time (p.sent + 1000000), patches := rest }).answerPatch p (p.sentTo - p.waiting.length)) := by
  change execPatchAckTimeout s = _
  simp only [execPatchAckTimeout, h, offered]

end Errors

/-- Settles O49: each clause is the law of its event. -/
theorem errorsAndObservers : Obligations.ErrorsAndObservers := by
  unfold Obligations.ErrorsAndObservers
  intro s core c
  refine ⟨fun n => exec_eccCorr, fun h => ⟨_, exec_eccFreezeEnd h, rfl⟩, fun a => exec_onchipUe_spad, fun n => exec_onchipUe_sreg,
    fun place => exec_onchipUe_supervisor, exec_systemUe, fun part hp => ⟨?_, exec_dpcRelease_partition hp⟩, fun reason => exec_contextKill,
    fun die pc => exec_supstart pc, fun hc => ⟨exec_accountLatch hc, exec_supervisorFlush hc⟩,
    fun p l h => ⟨exec_captureStart h, exec_captureStop h⟩, fun line rest => exec_shootdown, fun p rest => exec_patchAckTimeout⟩
  rintro rfl
  exact ⟨_, exec_dpcRelease_package hp, rfl, rfl, rfl, rfl, rfl, rfl, fun k => rfl⟩

end Sys2Proof.Machine

/-! ## Encoding and decoding (02 R53, R54, R63 to R68, R77)

A slot word and its instruction determine each other, so a bundle of one slot word, or of a header alone, decodes to what it was
encoded from. -/

namespace Sys2Proof.Machine

/-- What a slot word decodes to: the reading of its opcode map, where check 1 finds nothing. -/
theorem decodeSlot_eq_ok_iff {sl : Slot} {w : W64} {i : Instr} :
    decodeSlot sl w = .ok i ↔ rawSlot sl w = some i ∧ i.WellFormed := by
  unfold decodeSlot
  cases rawSlot sl w with
  | none => simp only [reduceCtorEq, false_and]
  | some j =>
    cases hj : j.check1 with
    | none =>
      simp only [hj, Except.ok.injEq, Option.some.injEq]
      exact ⟨fun e => ⟨e, e ▸ hj⟩, fun e => e.1⟩
    | some e =>
      simp only [hj, reduceCtorEq, Option.some.injEq, false_iff, not_and]
      rintro rfl hwf
      cases hj.symm.trans hwf

/-- A slot word is refused as unassigned where its opcode map has no reading of it. -/
theorem decodeSlot_eq_unassigned {sl : Slot} {w : W64} (h : rawSlot sl w = none) :
    decodeSlot sl w = .error (.unassigned sl (opcodeOf w)) := by
  simp only [decodeSlot, h]

/-- The word of a well-formed instruction decodes to it. -/
theorem decodeSlot_slotWord {sl : Slot} {w : W64} {i : Instr} (hw : i.slotWord = some (sl, w)) (hwf : i.WellFormed)
    (hs : ∀ g x, i ≠ .skeinldRelease g x) : decodeSlot sl w = .ok i :=
  decodeSlot_eq_ok_iff.mpr ⟨slot_decodes i sl w hw hwf hs, hwf⟩

/-- A slot word that decodes is the word of a well-formed instruction. -/
theorem slotWord_of_decodeSlot {sl : Slot} {w : W64} {i : Instr} (h : decodeSlot sl w = .ok i) :
    i.WellFormed ∧ i.slotWord = some (sl, w) := by
  obtain ⟨hraw, hwf⟩ := decodeSlot_eq_ok_iff.mp h
  exact ⟨hwf, rawSlot_back hraw⟩

/-- The bytes of a slot operation alone in its bundle. -/
theorem encode_slotWord {i : Instr} {sl : Slot} {w : W64} (h : i.slotWord = some (sl, w)) :
    encode i = leBytes 4 (soloHeader sl).word.toNat ++ leBytes 8 w.toNat := by
  unfold encode
  split
  · cases h
  · rw [h]

/-- What has bytes is a header alone or a slot operation. -/
theorem slotWord_of_encode {i : Instr} (h : encode i ≠ []) :
    (∃ l r q, i = .headerOnlyBundle l r q) ∨ ∃ sl w, i.slotWord = some (sl, w) := by
  unfold encode at h
  split at h
  · exact .inl ⟨_, _, _, rfl⟩
  · split at h
    · next sl w hw => exact .inr ⟨sl, w, hw⟩
    · exact absurd rfl h

/-- A slot operation alone in its bundle decodes to what its word decodes to. -/
theorem decode_encode_slotWord {i j : Instr} {sl : Slot} {w : W64} (hw : i.slotWord = some (sl, w)) (h : decodeSlot sl w = .ok j) :
    ∃ b, decode (encode i) = .ok b ∧ soloInstr b = some j :=
  ⟨_, (congrArg decode (encode_slotWord hw)).trans (decode_solo h), soloInstr_solo sl w j⟩

/-- Settles O44: the encoder of a bundle with one slot word, or with none, is undone by the decoder, and slot words and well-formed
instructions determine each other, but for the word that the two rows of SKEINLD share. -/
theorem decodeEncode : Obligations.DecodeEncode := by
  unfold Obligations.DecodeEncode
  refine ⟨fun i hwf he hs => ?_, fun g w hwf => ?_, fun sl w i => slotWord_of_decodeSlot⟩
  · obtain ⟨l, r, q, rfl⟩ | ⟨sl, w, hw⟩ := slotWord_of_encode he
    · have hl : l.toNat ≤ 4 := of_decide_eq_true (slotCode_none hwf)
      exact ⟨_, headerOnly_decodes l r q hl, rfl⟩
    · exact decode_encode_slotWord hw (decodeSlot_slotWord hw hwf hs)
  · have hload : (Instr.skeinldLoad g w).WellFormed := hwf
    exact decode_encode_slotWord (i := .skeinldRelease g w) rfl (decodeSlot_slotWord rfl hload fun _ _ e => by cases e)

/-- Settles O45: the opcode map of each word's slot is run on it, and check 1 on what it reads. -/
theorem writtenWordsDecode : Obligations.WrittenWordsDecode := by
  unfold Obligations.WrittenWordsDecode
  refine ⟨?_, fun q hq => decodeSlot_eq_unassigned ?_, rfl, rfl, rfl, rfl, rfl, rfl, rfl, rfl, rfl⟩
  · simp only [decodeSlot_eq_ok_iff]
    decide +kernel
  · revert q
    decide +kernel

/-! ## One step (02 R53, R77, log 5) -/

/-- With no input pending and the boot ROM run, a step is the current core's turn. -/
theorem step_booted {s : State} (ha : s.agenda = []) (hb : s.booted = true) : step s = s.runCore := by
  unfold step
  simp only [ha, hb, if_true]

/-- Settles O43: the current core's turn is decided by what the bytes at its PC decode to. -/
theorem stepRunsDecoded : Obligations.StepRunsDecoded := by
  unfold Obligations.StepRunsDecoded
  refine ⟨fun s bs ha hb hstop hidle hoff hfail hf hw => ?_, fun s i l ha => ?_, fun s ha hb => ?_⟩
  · rw [step_booted ha hb, runCore_bytes hstop hidle hoff hfail hf hw]
    refine ⟨fun b i hd hi => ?_, fun b hd hi => ?_, fun e hd => ?_⟩
    · simp only [hd, hi]
    · simp only [hd, hi]
    · simp only [hd]
  · simp only [step, ha]
  · simp only [step, ha, hb, Bool.false_eq_true, if_false]

/-! ## Bundles of no operation (02 R55 to R57) -/

section HeaderOnly

variable {s u : State} {e : Core}

/-- One attempt to issue a bundle that a check of 01 R24 refuses: its trap, with the repetitions that are left. -/
theorem issueOnce_traps {f : Fetched} {t : TrapReq} (hq : (s.core s.cur).Quiet)
    (ht : firstCheck s s.cur f ((s.core s.cur).issuing f s.free) = some t) :
    s.issueOnce s.cur f = .held (s.takeTrap s.cur t (s.core s.cur).pc ((s.core s.cur).repsLeft f.header)) := by
  unfold State.issueOnce
  simp only [State.sendBar_quiet hq, State.serveAwait_quiet hq, State.takeRecolors_quiet hq, Core.boundaryFreeze_quiet hq,
    State.landAllDue_quiet hq, hq.breakNext, hq.yieldReq, Bool.false_eq_true, false_and, if_false, ht]

/-- Bytes that are no bundle raise ILLEGAL before the first of their repetitions. -/
theorem issue_malformed (hq : (s.core s.cur).Quiet) (r : BitVec 8) (slot : BitVec 3) (op : BitVec 8) :
    s.issue (malformed r slot op) =
      s.takeTrap s.cur ⟨causeIllegal, (0 : BitVec 48) ++ op.extractLsb' 2 6 ++ op.extractLsb' 0 2 ++ (0 : BitVec 5) ++ slot⟩
        (s.core s.cur).pc (r.toNat + 1) := by
  have hfirst := issueOnce_traps (f := malformed r slot op) hq rfl
  have hreps : (s.core s.cur).repsLeft (malformed r slot op).header = r.toNat + 1 := by
    simp only [Core.repsLeft, hq.repLeft, Option.getD_none, malformed]
  simp only [State.issue, hq.issues, Bool.false_eq_true, if_false, State.issueAll, hfirst, hreps]

/-- A header whose LOOPEND names no loop register is ILLEGAL, with slot and opcode 0 (02 R77, log 7). -/
theorem exec_headerOnly_badLoopend {l : BitVec 4} {r : BitVec 8} {q : BitVec 6} (hq : (s.core s.cur).Quiet) (hl : 4 < l.toNat) :
    exec (.headerOnlyBundle l r q) s = .next (s.takeTrap s.cur ⟨causeIllegal, 0⟩ (s.core s.cur).pc (r.toNat + 1)) := by
  change execHeaderOnlyBundle l r q s = _
  rw [execHeaderOnlyBundle, if_pos hl, issue_malformed hq]
  rfl

/-- A core with one loop register written. -/
theorem State.Follows.setL (h : s.Follows u e) (k : BitVec 6) (x : LoopReg) :
    s.Follows (u.modCore s.cur fun c => c.setL k x) (e.setL k x) :=
  h.modCore (fun _ _ _ _ _ _ => rfl) fun _ => rfl

/-- No write of a loop register is pending. -/
theorem Core.pendingL_nil {c : Core} (h : c.pend = []) (k : BitVec 6) : c.pendingL k = false := by
  simp only [Core.pendingL, h, List.any_nil]

section Loop

variable {key : Nat} {k : BitVec 6} {v : View} {after : BitVec 57} (hp : v.core.pend = [])
include hp

/-- A loop that goes round again: its count is one less, and the next bundle is its first. -/
theorem State.closeLoop_again (h : 1 < (v.core.lReg k).count.toNat) :
    u.closeLoop key k v after =
      (u.modCore key fun c => c.setL k { v.core.lReg k with count := (v.core.lReg k).count - 1 }, (v.core.lReg k).start) := by
  simp only [State.closeLoop, Core.pendingL_nil hp, Bool.false_eq_true, if_false, h, decide_true, if_true]

/-- A loop that ends: its count is 0, and the next bundle is the one after. -/
theorem State.closeLoop_ends (h : (v.core.lReg k).count.toNat ≤ 1) :
    u.closeLoop key k v after =
      ((u.modCore key fun c => c.setL k { v.core.lReg k with count := 0 }).bankSnapshot key k.toNat 0 1 v.pc, after) := by
  simp only [State.closeLoop, Core.pendingL_nil hp, Bool.false_eq_true, if_false, Nat.not_lt.mpr h, decide_false]

end Loop

/-- LOOPEND k + 1 names loop register k. -/
theorem loopend_register {l : BitVec 4} (h : 1 ≤ l.toNat) : (l - 1).zeroExtend 6 = BitVec.ofNat 6 (l.toNat - 1) := by
  bv_omega

end HeaderOnly

/-- Settles O40: the end of the bundle-time, then the PC that the repetition or the loop gives. -/
theorem headerOnlyBundles : Obligations.HeaderOnlyBundles := by
  unfold Obligations.HeaderOnlyBundles
  intro s l r q hq hs c i
  refine ⟨exec_headerOnly_badLoopend hq, fun hr hl => ?_, fun hr h1 h4 => ?_, fun hr hl ha => ?_⟩
  · obtain ⟨u, hu, -, hnext, -⟩ := headerOnly_core (l := l) (r := r) hq hs (by rw [hl]; decide)
    exact ⟨_, hnext hr hl, hu.jump hq.repLeft _⟩
  · intro k x
    have hl0 : l ≠ 0 := by rintro rfl; exact absurd h1 (by decide)
    obtain ⟨u, hu, -, -, hloop⟩ := headerOnly_core (l := l) (r := r) hq hs (Nat.not_lt.mpr h4)
    obtain ⟨v, hv, hx⟩ := hloop hr hl0
    rw [loopend_register h1] at hx
    have hpend : v.core.pend = [] := hv ▸ hq.pend
    refine ⟨fun h => ⟨_, hx, ?_⟩, fun h => ⟨_, hx, ?_⟩⟩
    · rw [State.closeLoop_again hpend (hv ▸ h), hv]
      exact (hu.setL k _).jump hq.repLeft _
    · rw [State.closeLoop_ends hpend (hv ▸ h), hv]
      exact ((hu.setL k _).counts (State.counts_bankSnapshot ..)).jump hq.repLeft _
  · obtain ⟨u, hu, hrep, -, -⟩ := headerOnly_core (l := l) (r := r) hq hs (Nat.not_lt.mpr hl)
    exact ⟨_, hrep hr ha, hu.modCore (fun _ _ _ _ _ _ => rfl) fun _ => rfl⟩

end Sys2Proof.Machine

/-! ## Integers, compares and predicates (04 R124 to R127) -/

namespace Sys2Proof.Machine

/-- A sum wraps modulo 2^64. -/
theorem add_ofInt (x y : W64) : x + y = BitVec.ofInt 64 (x.toInt + y.toInt) := by
  rw [BitVec.ofInt_add, BitVec.ofInt_toInt, BitVec.ofInt_toInt]

/-- A difference wraps modulo 2^64. -/
theorem sub_ofInt (x y : W64) : x - y = BitVec.ofInt 64 (x.toInt - y.toInt) := by
  rw [← BitVec.toInt_inj, BitVec.toInt_sub, BitVec.toInt_ofInt]

/-- The low half of a product is the same for signed and unsigned factors. -/
theorem mul_ofInt (x y : W64) : x * y = BitVec.ofInt 64 (x.toInt * y.toInt) := by
  rw [BitVec.ofInt_mul, BitVec.ofInt_toInt, BitVec.ofInt_toInt]

/-- The one bits of a word, counted by their places. -/
theorem popCount_bits (x : W64) : popCount 64 x.toNat = (List.range 64).countP fun i => x.getLsbD i := popCount_eq 64 x.toNat

/-- An SR word that reserves B has zero there, where check 1 passes. -/
theorem SR.b_of_check {w : SR} {lat : Bool} {d a c : Fld} {fn : BitVec 7} (h : w.check lat d a .none c fn = none) : w.b = 0 := by
  have hb : Fld.none.check w.b = none := firstErr_none h _ (by simp)
  simpa [Fld.check] using hb

/-- An SI word that reserves A has zero there, where check 1 passes. -/
theorem SI.a_of_check {w : SI} {lat : Bool} {d : Fld} {imm : BitVec 35} (h : w.check lat d .none imm = none) : w.a = 0 := by
  have ha : Fld.none.check w.a = none := firstErr_none h _ (by simp)
  simpa [Fld.check] using ha

/-- An SI word whose immediate is a shift amount has zero in its other 29 bits. -/
theorem SI.imm_of_check {w : SI} {lat : Bool} {d a : Fld} (h : w.check lat d a 0x3F = none) : w.imm.extractLsb' 6 29 = 0 := by
  have hz : zeroIf (w.imm &&& ~~~(0x3F : BitVec 35) == 0) = none := firstErr_none h _ (by simp)
  have hi : w.imm &&& ~~~(0x3F : BitVec 35) = 0 := by simpa [zeroIf] using hz
  have := congrArg (BitVec.extractLsb' 6 29) hi
  rwa [BitVec.extractLsb'_and, show BitVec.extractLsb' 6 29 (~~~(0x3F : BitVec 35)) = BitVec.allOnes 29 by decide, BitVec.and_allOnes] at this

/-- Settles O1: each operation computes its result in words, which the laws of 64-bit arithmetic restate in numbers. -/
theorem integerRegisterForms : Obligations.IntegerRegisterForms := by
  unfold Obligations.IntegerRegisterForms
  refine ⟨scalarRR_of (fun _ _ _ => rfl) (fun _ _ => ⟨_, rfl⟩) add_ofInt,
    scalarRR_of (fun _ _ _ => rfl) (fun _ _ => ⟨_, rfl⟩) sub_ofInt,
    scalarRR_of (fun _ _ _ => rfl) (fun _ _ => ⟨_, rfl⟩) mul_ofInt,
    scalarRR_of (fun _ _ _ => rfl) (fun _ _ => ⟨_, rfl⟩) fun _ _ => rfl,
    scalarRR_of (fun _ _ _ => rfl) (fun _ _ => ⟨_, rfl⟩) fun _ _ => rfl,
    scalarRR_of (fun _ _ _ => rfl) (fun _ _ => ⟨_, rfl⟩) fun _ _ => rfl,
    scalarRR_of (fun _ _ _ => rfl) (fun _ _ => ⟨_, rfl⟩) fun _ _ => rfl,
    scalarRR_of (fun _ _ _ => rfl) (fun _ _ => ⟨_, rfl⟩) fun _ _ => rfl,
    scalarRR_of (fun _ _ _ => rfl) (fun _ _ => ⟨_, rfl⟩) shiftLeft_nat,
    scalarRR_of (fun _ _ _ => rfl) (fun _ _ => ⟨_, rfl⟩) shiftRight_nat,
    scalarRR_of (fun _ _ _ => rfl) (fun _ _ => ⟨_, rfl⟩) shiftArith_int,
    scalarRR_of (fun _ _ _ => rfl) (fun _ _ => ⟨_, rfl⟩) min_int,
    scalarRR_of (fun _ _ _ => rfl) (fun _ _ => ⟨_, rfl⟩) max_int,
    scalarRR_of (fun _ _ _ => rfl) (fun _ _ => ⟨_, rfl⟩) min_nat,
    scalarRR_of (fun _ _ _ => rfl) (fun _ _ => ⟨_, rfl⟩) max_nat,
    scalarR_of (fun _ _ _ => rfl) (fun _ _ => ⟨_, rfl⟩) fun _ _ => rfl,
    scalarR_of (fun _ _ _ => rfl) (fun _ _ => ⟨_, rfl⟩) fun x _ => congrArg (BitVec.ofNat 64) (popCount_bits x),
    fun g w hb => ⟨fun h => hb (SR.b_of_check h), fun h => hb (SR.b_of_check h)⟩⟩

/-- Settles O2: the laws of the register forms, with the immediate for the second operand. -/
theorem integerImmediateForms : Obligations.IntegerImmediateForms := by
  unfold Obligations.IntegerImmediateForms
  refine ⟨scalarRI_of (fun _ _ _ => rfl) (fun _ _ => ⟨_, rfl⟩) add_ofInt,
    scalarRI_of (fun _ _ _ => rfl) (fun _ _ => ⟨_, rfl⟩) fun _ _ => rfl,
    scalarRI_of (fun _ _ _ => rfl) (fun _ _ => ⟨_, rfl⟩) fun _ _ => rfl,
    scalarRI_of (fun _ _ _ => rfl) (fun _ _ => ⟨_, rfl⟩) fun _ _ => rfl,
    scalarRI_of (fun _ _ _ => rfl) (fun _ _ => ⟨_, rfl⟩) shiftLeft_nat,
    scalarRI_of (fun _ _ _ => rfl) (fun _ _ => ⟨_, rfl⟩) shiftRight_nat,
    scalarRI_of (fun _ _ _ => rfl) (fun _ _ => ⟨_, rfl⟩) shiftArith_int,
    fun s g w h hc => runSolo_aluOp (i := .li g w) h rfl hc, fun g w => ⟨fun hi => ?_, fun ha h => ha (SI.a_of_check h)⟩⟩
  exact ⟨fun h => hi (SI.imm_of_check h), fun h => hi (SI.imm_of_check h), fun h => hi (SI.imm_of_check h)⟩

/-- PNOT writes the negation of its one operand. -/
theorem pnot_predicateOp : PredicateOp .pnot fun x _ => !x := by
  intro s g w h hc
  obtain ⟨t, e, hf⟩ := runSolo_aluOp (i := .pnot g w) (f := fun v => .p w.d (!(v.p 1 w.a))) h rfl hc
  rw [View.p_quiet (by exact h.quiet)] at hf
  exact ⟨t, e, hf⟩

/-- Settles O3: each compare is the decision of its relation, and each predicate operation the Boolean one. -/
theorem comparesAndPredicates : Obligations.ComparesAndPredicates := by
  unfold Obligations.ComparesAndPredicates
  exact ⟨compareRR_of (fun _ _ _ => rfl) (fun _ _ => ⟨_, rfl⟩) fun _ _ => beq_iff_eq,
    compareRR_of (fun _ _ _ => rfl) (fun _ _ => ⟨_, rfl⟩) fun _ _ => bne_iff_ne,
    compareRR_of (fun _ _ _ => rfl) (fun _ _ => ⟨_, rfl⟩) fun _ _ => BitVec.slt_iff_toInt_lt,
    compareRR_of (fun _ _ _ => rfl) (fun _ _ => ⟨_, rfl⟩) fun _ _ => BitVec.sle_iff_toInt_le,
    compareRR_of (fun _ _ _ => rfl) (fun _ _ => ⟨_, rfl⟩) fun _ _ => BitVec.ult_iff_toNat_lt,
    compareRR_of (fun _ _ _ => rfl) (fun _ _ => ⟨_, rfl⟩) fun _ _ => BitVec.ule_iff_toNat_le,
    compareRI_of (fun _ _ _ => rfl) (fun _ _ => ⟨_, rfl⟩) fun _ _ => beq_iff_eq,
    compareRI_of (fun _ _ _ => rfl) (fun _ _ => ⟨_, rfl⟩) fun _ _ => BitVec.slt_iff_toInt_lt,
    predicateOp_of (fun _ _ _ => rfl) (fun _ _ => ⟨_, rfl⟩) fun _ _ => rfl,
    predicateOp_of (fun _ _ _ => rfl) (fun _ _ => ⟨_, rfl⟩) fun _ _ => rfl,
    predicateOp_of (fun _ _ _ => rfl) (fun _ _ => ⟨_, rfl⟩) fun _ _ => rfl,
    pnot_predicateOp, fun g w hb h => hb (SR.b_of_check h)⟩

end Sys2Proof.Machine

/-! ## Scalar FP32 (04 R128 to R130) -/

namespace Sys2Proof.Machine

/-- A scalar FP operation that draws: its flags and its write under the bound, of the mode and the draw that its word selects. -/
theorem fpDraw_completes {i : Instr} {op : BitVec 8} {cls : Nat} {s : State} {g : Guard} {w : SR} {x : W64} {f : View → RMode → Nat → Write × Flags}
    (he : exec i s = runSolo (fpOp op cls g w true f) i s) (hx : i.slotWord = some (.s, x)) (h : s.Issues .s g (some (0, cls, w.lat.toNat)))
    (hc : i.check1 = none) {r : Write × Flags} (hr : f (s.view (fpOp op cls g w true f)) (s.fpMode w) (s.drawn w) = r) :
    Completes i s (((s.now.flagsAt w.lat.toNat r.2).withSeed (s.seedAfter w)).later w.lat.toNat r.1) := by
  obtain ⟨t, e, hf⟩ := runSolo_fpOp (f := f) (draw := true) h hx hc
  have hmode : (s.view (fpOp op cls g w true f)).mode (w.fn.extractLsb' 0 3) = s.fpMode w := rfl
  have hdraw : (drawsFor (s.fpMode w) 1 (s.core s.cur).cr.seed).1.headD 0 = s.drawn w := by
    unfold drawsFor State.drawn
    split <;> rfl
  have hseed : (drawsFor (s.fpMode w) 1 (s.core s.cur).cr.seed).2 = s.seedAfter w := by
    unfold drawsFor State.seedAfter
    split <;> rfl
  simp only [if_true] at hf
  rw [hmode, hdraw, hseed, hr] at hf
  exact ⟨t, he.trans e, hf⟩

/-- Settles O4: an operation reads its operands as the statement does, and the law of its form rounds once and draws once. -/
theorem scalarFloat : Obligations.ScalarFloat := by
  unfold Obligations.ScalarFloat
  refine ⟨fpArith_of (fun _ _ _ => rfl) (fun _ _ => ⟨_, rfl⟩) fun v hv s hs w m => ?_,
    fpArith_of (fun _ _ _ => rfl) (fun _ _ => ⟨_, rfl⟩) fun v hv s hs w m => ?_,
    fpArith_of (fun _ _ _ => rfl) (fun _ _ => ⟨_, rfl⟩) fun v hv s hs w m => ?_,
    fpArith_of (fun _ _ _ => rfl) (fun _ _ => ⟨_, rfl⟩) fun v hv s hs w m => ?_,
    fpArith_of (fun _ _ _ => rfl) (fun _ _ => ⟨_, rfl⟩) fun v hv s hs w m => ?_,
    fpArith_of (fun _ _ _ => rfl) (fun _ _ => ⟨_, rfl⟩) fun v hv s hs w m => ?_,
    fpArith_of (fun _ _ _ => rfl) (fun _ _ => ⟨_, rfl⟩) fun v hv s hs w m => ?_,
    fpExact_of (fun _ _ _ => rfl) (fun _ _ => ⟨_, rfl⟩) fun v hv s hs w => ?_,
    fpExact_of (fun _ _ _ => rfl) (fun _ _ => ⟨_, rfl⟩) fun v hv s hs w => ?_,
    fpExact_of (fun _ _ _ => rfl) (fun _ _ => ⟨_, rfl⟩) fun v hv s hs w => ?_,
    fpExact_of (fun _ _ _ => rfl) (fun _ _ => ⟨_, rfl⟩) fun v hv s hs w => ?_,
    fpExact_of (fun _ _ _ => rfl) (fun _ _ => ⟨_, rfl⟩) fun v hv s hs w => ?_, fun s g w h hc => ?_⟩
  case refine_13 =>
    intro lim r
    refine fpDraw_completes (r := (.s w.d (BitVec.ofInt 64 r.1), r.2)) rfl rfl h hc ?_
    simp only [View.fp_quiet (s.view _) h.quiet s rfl]
    rfl
  all_goals simp only [View.fp_quiet v hv s hs, View.fpBits_quiet v hv s hs, View.s_quiet hv, hs]

end Sys2Proof.Machine

/-! ## Branches and loops (04 R131 to R133) -/

namespace Sys2Proof.Machine

/-- A target relative to the bundle's own address (04 R132). -/
theorem branchTarget_pc (pc : BitVec 57) (disp : BitVec 35) : branchTarget (pc.zeroExtend 64) disp = displaced pc.toNat disp :=
  branchTarget_displaced _ _ (ofInt_pc pc) disp

/-- A target relative to an s register. -/
theorem branchTarget_sReg {v : View} (h : v.core.Quiet) (site : Nat) (n : BitVec 6) (disp : BitVec 35) :
    branchTarget (v.s site n) disp = displaced (v.core.sReg n).toNat disp := by
  rw [View.s_quiet h]
  exact branchTarget_displaced _ _ (ofInt_toNat _) disp

section Branch

variable {op : BitVec 8} {g : Guard} {w : SB} {reads : List UePlace} {target : View → W64} {i : Instr} {s : State} {x t : W64}
  (hx : i.slotWord = some (.s, x)) (hc : i.check1 = none) (ok : TargetOk t)
include hx hc ok

/-- A branch with no link goes to its target. -/
theorem branch_completes (he : exec i s = runSolo (branchOp op g w false reads target) i s) (h : s.Issues .s g none)
    (ht : target (s.view (branchOp op g w false reads target)) = t) : Completes i s (s.now.after.at (t.extractLsb' 0 57)) := by
  obtain ⟨u, e, hf⟩ := runSolo_branch h hx hc ht ok.1 ok.2
  exact ⟨u, he.trans e, hf⟩

/-- A call goes to its target, and writes the address of the next bundle. -/
theorem call_completes (he : exec i s = runSolo (branchOp op g w true reads target) i s) (h : s.Issues .s g (some (0, 0, w.lat.toNat)))
    (ht : target (s.view (branchOp op g w true reads target)) = t) :
    Completes i s ((s.now.later w.lat.toNat (.s w.d (BitVec.ofNat 64 (s.now.pc.toNat + 12)))).at (t.extractLsb' 0 57)) := by
  obtain ⟨u, e, hf⟩ := runSolo_link h hx hc ht ok.1 ok.2
  rw [link_pc] at hf
  exact ⟨u, he.trans e, hf⟩

end Branch

/-- Settles O5: a branch's target is the displaced base of the statement, and passes its tests. -/
theorem branchesTaken : Obligations.BranchesTaken := by
  unfold Obligations.BranchesTaken
  intro s g w
  refine ⟨fun t ht ok h hc => ?_, fun t ht ok h hc => ?_, fun t ht ok h hc => ?_, fun t ht ok h hc => ?_, fun ok h hc => ?_⟩
  · exact branch_completes rfl hc ok rfl h (ht ▸ branchTarget_pc ..)
  · exact branch_completes rfl hc ok rfl h (ht ▸ branchTarget_sReg (v := s.view _) h.quiet ..)
  · exact call_completes rfl hc ok rfl h (ht ▸ branchTarget_pc ..)
  · exact call_completes rfl hc ok rfl h (ht ▸ branchTarget_sReg (v := s.view _) h.quiet ..)
  · exact branch_completes rfl hc ok rfl h (View.s_quiet (v := s.view _) h.quiet ..)

section Loop

variable {s : State} {g : Guard} {w : SB} {t : W64} (ht : t = displaced s.now.pc.toNat w.disp) (ok : TargetOk t)
  (h : s.Issues .s g (some (0, 0, w.lat.toNat)))

/-- The count of a loop, as LOOP reads it. -/
theorem loop_count (h : s.now.Quiet) : (s.view (semLoop g w)).s 1 w.a = s.now.sReg w.a := View.s_quiet (v := s.view _) h ..

include ht in
/-- Where LOOP skips to. -/
theorem loop_target : branchTarget ((s.view (semLoop g w)).pc.zeroExtend 64) w.disp = t := ht ▸ branchTarget_pc ..

include ht ok h in
/-- LOOP with a count below 2^32 performs. -/
theorem loop_performs (hn : (s.now.sReg w.a).toNat < 2 ^ 32) : (semLoop g w).Performs s := by
  refine State.Issues.performs (m := semLoop g w) h (.inr rfl) rfl
    ⟨rfl, ?_, ?_, rfl, by simp [semLoop], rfl, by simp [semLoop], by simp [semLoop], rfl, rfl⟩
  · exact (congrArg (targetTest 0x45) (loop_target ht)).trans (targetTest_ok 0x45 ok.1 ok.2)
  · exact if_neg (by rw [loop_count h.quiet]; exact Nat.not_le.mpr hn)

variable (hc : (Instr.loop g w).check1 = none)
include ht ok h hc

/-- LOOP with a count of zero skips its body, and leaves COUNT zero. -/
theorem loop_skips (h0 : s.now.sReg w.a = 0) : Completes (.loop g w) s
    ((s.now.later w.lat.toNat (.l w.d { s.now.lReg w.d with count := 0 })).at (t.extractLsb' 0 57)) := by
  have hp := loop_performs ht ok h (by rw [h0]; decide)
  obtain ⟨u, e, hf⟩ := runSolo_writeNext (i := .loop g w) hp rfl hc rfl (nx := some (t.extractLsb' 0 57)) fun a _ => by
    have hn : ((s.view (semLoop g w)).s 1 w.a).toNat = 0 := by rw [loop_count h.quiet, h0]; rfl
    rw [← loop_target ht]
    exact if_pos hn
  exact ⟨u, e, hf⟩

/-- LOOP with another count opens the loop at the next bundle. -/
theorem loop_opens (h0 : s.now.sReg w.a ≠ 0) (h32 : (s.now.sReg w.a).toNat < 2 ^ 32) : Completes (.loop g w) s
    (s.now.later w.lat.toNat (.l w.d { start := s.now.pc + 12, count := (s.now.sReg w.a).extractLsb' 0 32 })) := by
  obtain ⟨u, e, hf⟩ := runSolo_write (i := .loop g w) (loop_performs ht ok h h32) rfl hc rfl fun a => by
    have hn : ((s.view (semLoop g w)).s 1 w.a).toNat ≠ 0 := by
      rw [loop_count h.quiet]
      exact fun e => h0 (BitVec.eq_of_toNat_eq e)
    exact (if_neg hn).trans (by rw [loop_count h.quiet])
  exact ⟨u, e, hf⟩

end Loop

/-- Settles O6: by the count. -/
theorem loopOpens : Obligations.LoopOpens := by
  unfold Obligations.LoopOpens
  exact fun s g w t ht ok h hc => ⟨loop_skips ht ok h hc, loop_opens ht ok h hc⟩

end Sys2Proof.Machine

/-! ## Handles (04 R139 to R141) -/

namespace Sys2Proof.Machine

/-- One bit of a vector, as a vector of one bit. -/
theorem ofBool_getLsbD {n : Nat} (x : BitVec n) (i : Nat) : BitVec.ofBool (x.getLsbD i) = x.extractLsb' i 1 := by
  apply BitVec.eq_of_getLsbD_eq
  intro j hj
  obtain rfl : j = 0 := by omega
  simp

/-- A handle operation whose result is not refused writes it. -/
theorem handleOp_completes {i : Instr} {op : BitVec 8} {g : Guard} {w : SR} {reads : List UePlace} {f : View → Option Write} {s : State}
    {x : W64} {y : Write} (he : exec i s = runSolo (handleOp op g w reads f) i s) (hx : i.slotWord = some (.s, x))
    (h : s.Issues .s g (some (0, 5, w.lat.toNat))) (hc : i.check1 = none) (hf : f (s.view (handleOp op g w reads f)) = some y) :
    Completes i s (s.now.later w.lat.toNat y) := by
  obtain ⟨t, e, hfo⟩ := runSolo_handleOp h hx hc hf
  exact ⟨t, he.trans e, hfo⟩

section Handles

variable {s : State} {g : Guard} {w : SR} (h : s.Issues .s g (some (0, 5, w.lat.toNat)))
include h

/-- HBASE of an address below 2^57 (04 R140). -/
theorem hbase_completes (ha : (s.now.sReg w.a).toNat < 2 ^ 57) (hc : (Instr.hbase g w).check1 = none) :
    Completes (.hbase g w) s (s.now.later w.lat.toNat
      (.h w.d (baseHandle ((s.now.sReg w.a).extractLsb' 0 57) (w.fn.getLsbD 6) (w.fn.extractLsb' 0 6)))) := by
  refine handleOp_completes rfl rfl h hc ?_
  simp only [View.s_quiet (v := s.view _) h.quiet]
  exact if_neg (Nat.not_le.mpr ha)

/-- HSET of a value that fits its field (04 R141). -/
theorem hset_completes (hc : (Instr.hset g w).check1 = none) {v : Int}
    (hv : (if (handleField (w.fn.extractLsb' 0 4).toNat).2.2 then (s.now.sReg w.a).toInt else (s.now.sReg w.a).toNat) = v)
    (hfit : fitsField (w.fn.extractLsb' 0 4).toNat v = true) :
    Completes (.hset g w) s (s.now.later w.lat.toNat (.h w.d (setField (s.now.hReg w.b) (w.fn.extractLsb' 0 4).toNat v))) := by
  refine handleOp_completes rfl rfl h hc ?_
  simp only [View.s_quiet (v := s.view _) h.quiet, View.h_quiet (v := s.view _) h.quiet]
  subst hv
  exact if_pos hfit

/-- HSTEP of a handle that steps (04 R139). -/
theorem hstep_completes (hc : (Instr.hstep g w).check1 = none) {y : W256}
    (hy : hstep (s.now.handle (s.now.hReg w.a)).width (s.now.hReg w.a) = some y) :
    Completes (.hstep g w) s (s.now.later w.lat.toNat (.h w.d y)) := by
  refine handleOp_completes rfl rfl h hc ?_
  simp only [View.h_quiet (v := s.view _) h.quiet]
  exact congrArg (Option.map fun x => Write.h w.d x) hy

/-- HGET of any field. -/
theorem hget_completes (hc : (Instr.hget g w).check1 = none) :
    Completes (.hget g w) s (s.now.later w.lat.toNat
      (.s w.d (BitVec.ofInt 64 (getField (s.now.hReg w.a) (w.fn.extractLsb' 0 4).toNat)))) := by
  refine handleOp_completes rfl rfl h hc ?_
  simp only [View.h_quiet (v := s.view _) h.quiet]
  rfl

/-- HMOV copies. -/
theorem hmov_completes (hc : (Instr.hmov g w).check1 = none) : Completes (.hmov g w) s (s.now.later w.lat.toNat (.h w.d (s.now.hReg w.a))) := by
  refine handleOp_completes rfl rfl h hc ?_
  simp only [View.h_quiet (v := s.view _) h.quiet]
  rfl

end Handles

/-- Settles O7: HSET's result is the word with its field replaced, of which the laws of fields give each bit. -/
theorem handleOperations : Obligations.HandleOperations := by
  unfold Obligations.HandleOperations
  intro s g w h
  refine ⟨fun ha hc => ?_, fun hc => ?_, fun y hc => hstep_completes h hc, hget_completes h, hmov_completes h⟩
  · rw [← ofBool_getLsbD]
    exact hbase_completes h ha hc
  · intro code v hfit
    refine ⟨setField (s.now.hReg w.b) code v, getField_setField _ _ _ hfit, fun i hi => ?_, hset_completes h hc rfl hfit⟩
    rw [setField_bit, if_neg (by omega)]

end Sys2Proof.Machine

/-! ## Scratchpad and global accesses (04 R142 to R146) -/

namespace Sys2Proof.Machine

/-- The held address of an operation that adds an offset to an s register. -/
theorem State.view_addr {s : State} (h : s.now.Quiet) {m : OpSem} {n : BitVec 6} {x : W64} (hb : ∀ v, (m.base v).a = v.s 1 n + x) :
    (s.view m).addrs.a = s.now.sReg n + x :=
  (hb _).trans (congrArg (· + x) (View.s_quiet (by exact h) 1 n))

section Scratchpad

variable {s : State} {g : Guard} {w : SM} {a : W64} (ha : a = s.now.sReg w.a + w.off.signExtend 64)
  (h : s.Issues .s g (some (0, 4, w.lat.toNat))) (ok : s.now.SpadOk a (2 ^ w.size.toNat))
include ha h ok

/-- LDS whose granule is full where it must be (04 R142, R143). -/
theorem lds_completes (hc : (Instr.lds g w).check1 = none) (hf : w.qf = 0 ∨ s.now.feBit (a.toNat / 16) = true) :
    Completes (.lds g w) s ((if w.qf = 2 then s.now.setFe (a.toNat / 16) false else s.now).later w.lat.toNat
      (.s w.d (extended (2 ^ w.size.toNat) (w.sgn == 1) (s.now.spadValue a.toNat (2 ^ w.size.toNat))))) := by
  obtain ⟨t, e, hfo⟩ := runSolo_lds (i := .lds g w) h rfl hc ha ok.1 ok.2 hf
  rw [spad_getList, extendLoad_extended _ _ _ (by rw [List.length_map, List.length_range]; rfl)] at hfo
  exact ⟨t, e, hfo⟩

/-- STS places its bytes under its bound. -/
theorem sts_completes (hc : (Instr.sts g w).check1 = none) : Completes (.sts g w) s
    (s.now.later w.lat.toNat (.spad a.toNat (leBytes (2 ^ w.size.toNat) (s.now.sReg w.d).toNat) (w.qf == 1))) := by
  have hva : (s.view (semSts g w)).addrs.a = a := (State.view_addr h.quiet fun _ => rfl).trans ha.symm
  have hd : (s.view (semSts g w)).s 4 w.d = s.now.sReg w.d := View.s_quiet (v := s.view _) h.quiet 4 w.d
  have htest : (semSts g w).check5 s s.cur (s.view (semSts g w)) = none :=
    (congrArg (spadTest 0x61 s.now · (2 ^ w.size.toNat)) hva).trans (spadTest_ok 0x61 s.now ok.1 ok.2)
  have hp : (semSts g w).Performs s := State.Issues.performs (m := semSts g w) h (.inr rfl) rfl
    ⟨rfl, rfl, htest, rfl, by simp [semSts], rfl, by simp [semSts], by simp [semSts], rfl, rfl⟩
  obtain ⟨t, e, hf⟩ := runSolo_write (i := .sts g w) hp rfl hc rfl fun _ => rfl
  rw [hva, hd] at hf
  exact ⟨t, e, hf⟩

end Scratchpad

/-- Settles O8: LDS by its QF, STS in every form. -/
theorem scratchpadAccesses : Obligations.ScratchpadAccesses := by
  unfold Obligations.ScratchpadAccesses
  intro s g w a ha n x h ok
  refine ⟨fun hc hq => ?_, fun hc hq hf => ?_, fun hc hq hf => ?_, sts_completes ha h ok⟩
  · have := lds_completes ha h ok hc (.inl hq)
    rwa [hq, if_neg (by decide)] at this
  · have := lds_completes ha h ok hc (.inr hf)
    rwa [hq, if_neg (by decide)] at this
  · have := lds_completes ha h ok hc (.inr hf)
    rwa [hq, if_pos rfl] at this

section Global

variable {s : State} {g : Guard} {w : SG} {a : W64} {t : Target} (ha : a = s.now.sReg w.a + w.off.signExtend 64) (h : s.Issues .s g none)

include ha h

/-- LDG takes a landing slot (04 R145). -/
theorem ldg_completes (hc : (Instr.ldg g w).check1 = none) (hm : s.now.MapsTo a (2 ^ w.size.toNat) .r t) :
    Completes (.ldg g w) s (s.now.withLanding (w.lnd.toNat - 1) false w.d t (.load w.size (w.sgn == 1))).after := by
  have hva : (s.view (semLdg g w)).addrs.a = a := (State.view_addr h.quiet fun _ => rfl).trans ha.symm
  have ⟨hal, hlt, _, hto⟩ := hm
  have htest : (semLdg g w).check5 s s.cur (s.view (semLdg g w)) = none := by
    change ((vaTest 0x62 (s.view (semLdg g w)).addrs.a (2 ^ w.size.toNat)).orElse fun _ =>
      if s.now.landingFull then some (trapS causeRange 0x62 0) else none) = none
    rw [hva, vaTest_ok 0x62 hal hlt, landingFull_quiet (c := s.now) h.quiet]
    rfl
  have hfatal : (semLdg g w).fatal s s.cur (s.view (semLdg g w)) = none :=
    (congrArg (rangeFatal s.now · .r (2 ^ w.size.toNat)) hva).trans (rangeFatal_none hm)
  have hro : (s.view (semLdg g w)).core.rangeOf ((s.view (semLdg g w)).addrs.a.extractLsb' 0 57) .r = .ok t := by rw [hva]; exact hto
  have hp : (semLdg g w).Performs s := State.Issues.performs (m := semLdg g w) h (.inr rfl) rfl
    ⟨rfl, rfl, htest, hfatal, by simp [semLdg], rfl, by simp [semLdg], by simp [semLdg], rfl, rfl⟩
  obtain ⟨u, e, hf⟩ := runSolo_core (i := .ldg g w) hp rfl hc (nx := none) (sd := s.now.cr.seed)
    (g := fun c => c.takeLanding w.lnd.toNat false w.d t (.load w.size (w.sgn == 1)))
    (fun _ _ _ _ _ _ => rfl) (fun _ => rfl) (fun _ => rfl) fun u _ => by
      simp only [semLdg] at hro ⊢
      rw [hro]
      rfl
  exact ⟨u, e, hf.of_core (Core.agrees_landing h.quiet.still ..)⟩

/-- STG joins the store stream (04 R146). -/
theorem stg_completes (hc : (Instr.stg g w).check1 = none) (hm : s.now.MapsTo a (2 ^ w.size.toNat) .w t) :
    Completes (.stg g w) s (s.now.withStore t (.data (leBytes (2 ^ w.size.toNat) (s.now.sReg w.d).toNat))).after := by
  have hva : (s.view (semStg g w)).addrs.a = a := (State.view_addr h.quiet fun _ => rfl).trans ha.symm
  have hd : (s.view (semStg g w)).s 4 w.d = s.now.sReg w.d := View.s_quiet (v := s.view _) h.quiet 4 w.d
  have ⟨hal, hlt, _, hto⟩ := hm
  have htest : (semStg g w).check5 s s.cur (s.view (semStg g w)) = none :=
    (congrArg (vaTest 0x63 · (2 ^ w.size.toNat)) hva).trans (vaTest_ok 0x63 hal hlt)
  have hfatal : (semStg g w).fatal s s.cur (s.view (semStg g w)) = none :=
    (congrArg (rangeFatal s.now · .w (2 ^ w.size.toNat)) hva).trans (rangeFatal_none hm)
  have hro : (s.view (semStg g w)).core.rangeOf ((s.view (semStg g w)).addrs.a.extractLsb' 0 57) .w = .ok t := by rw [hva]; exact hto
  have hp : (semStg g w).Performs s := State.Issues.performs (m := semStg g w) h (.inr rfl) rfl
    ⟨rfl, rfl, htest, hfatal, by simp [semStg], rfl, by simp [semStg], by simp [semStg], rfl, rfl⟩
  obtain ⟨u, e, hf⟩ := runSolo_change (i := .stg g w) hp rfl hc
    (g := fun c => c.streamStore t (.data (leBytes (2 ^ w.size.toNat) (s.now.sReg w.d).toNat)))
    (fun _ _ _ _ _ _ => rfl) (fun _ => rfl) (fun _ => rfl) (fun _ q => ⟨q.1, q.2, q.3, q.4, q.5, q.6, q.7⟩) (fun _ => rfl) (fun _ => rfl)
    fun u _ => by
      simp only [semStg] at hro hd ⊢
      rw [hro, hd]
      rfl
  exact ⟨u, e, hf⟩

end Global

/-- Settles O9: the range register that maps the access gives its target. -/
theorem globalAccesses : Obligations.GlobalAccesses := by
  unfold Obligations.GlobalAccesses
  exact fun s g w a t ha h => ⟨ldg_completes ha h, stg_completes ha h⟩

end Sys2Proof.Machine

/-! ## Control registers (04 R148) -/

namespace Sys2Proof.Machine

/-- A word is the little-endian number of its eight bytes. -/
theorem ofNat_leNat_bytes {f : Nat → Byte} {x : W64} (h : ∀ j, j < 8 → x.extractLsb' (8 * j) 8 = f j) :
    BitVec.ofNat 64 (leNat ((List.range 8).map f)) = x := by
  have hbytes : (List.range 8).map f = leBytes 8 x.toNat := by
    rw [leBytes_eq]
    refine List.map_congr_left fun j hj => ?_
    rw [← h j (List.mem_range.mp hj), BitVec.extractLsb', Nat.shiftRight_eq_div_pow]
  rw [hbytes]
  exact leNat_word (n := 8) x

section Charged

variable {s u : State} (hu : s.Charged u)
include hu

/-- The charge of a cycle leaves the event word. -/
theorem State.Charged.eventWord : u.eventWord s.cur = s.eventWord s.cur := by
  have hevent : (u.core s.cur).event = (s.core s.cur).event := by
    obtain ⟨_, _, _, _, _, e⟩ := Core.agrees_iff.mp hu.core
    rw [e]
  rw [State.eventWord, hevent, hu.rest]
  rfl

/-- The charge of a cycle leaves the map of logical cores, where no account is in memory. -/
theorem State.Charged.coreId (hun : s.Unaccounted) : u.coreId s.cur = s.coreId s.cur := by
  have hentry : ∀ n, u.lcmapEntry n = s.lcmapEntry n := fun n => by
    simp only [State.lcmapEntry, (hu.sameMaps hun).memNat, (hu.sameMaps hun).bases]
  simp only [State.coreId, State.logicalOf, State.coreOfLogical, hentry]

/-- A control register reads the same once the cycle of its CRR is charged. -/
theorem crValue_charged {c : Core} {i : BitVec 16} {n : Nat} (hun : i = 1 → s.Unaccounted) : crValue u s.cur c i n = crValue s s.cur c i n := by
  unfold crValue
  split
  case h_2 hi => exact hu.coreId (hun (BitVec.eq_of_toNat_eq hi))
  case h_6 => rw [show u.time = s.time by rw [hu.rest]]
  case h_7 => exact hu.eventWord
  all_goals rfl

end Charged

/-- CRR may read a register on the current core: those of 01 R51 on a supervisor, the trap registers in system mode (04 R148). Its own
identity it reads through the map of logical cores in memory, which no charge changes where no context has an account. -/
structure State.CrReadable (s : State) (i : BitVec 16) : Prop where
  coreId : i = 1 → s.Unaccounted
  supervisor : i = 5 ∨ i = 6 → s.now.supervisor = true
  system : 0x30 ≤ i.toNat → i.toNat ≤ 0x33 → s.now.cr.sys = true

/-- The other registers are read anywhere. -/
theorem State.CrReadable.anywhere {s : State} {i : BitVec 16} (h : i ≠ 1 ∧ i ≠ 5 ∧ i ≠ 6 ∧ (i.toNat < 0x30 ∨ 0x33 < i.toNat)) : s.CrReadable i := by
  obtain ⟨h1, h5, h6, hr⟩ := h
  exact ⟨fun e => absurd e h1, fun e => e.elim (absurd · h5) (absurd · h6), fun _ _ => by omega⟩

/-- In system mode so are the trap registers. -/
theorem State.CrReadable.trap {s : State} {i : BitVec 16} (hs : s.now.cr.sys = true) (h : i ≠ 1 ∧ i ≠ 5 ∧ i ≠ 6) : s.CrReadable i := by
  obtain ⟨h1, h5, h6⟩ := h
  exact ⟨fun e => absurd e h1, fun e => e.elim (absurd · h5) (absurd · h6), fun _ _ => hs⟩

/-- CRR of a register that the core may read places the value that stands in it at issue. -/
theorem crr_completes {s : State} {g : Guard} {w : SI} {i : BitVec 16} {x : W64} (h : s.Issues .s g (some (0, 6, w.lat.toNat)))
    (hc : (Instr.crr g w).check1 = none) (hi : w.imm.extractLsb' 0 16 = i) (hr : s.CrReadable i)
    (hx : crValue s s.cur s.now i (w.imm.extractLsb' 16 4).toNat = x) : Completes (.crr g w) s (s.now.later w.lat.toNat (.s w.d x)) := by
  have hpriv : s.now.cr.sys = true ∨ (semCrr g w).priv s.now = false := by
    by_cases htrap : 0x30 ≤ i.toNat ∧ i.toNat ≤ 0x33
    · exact .inl (hr.system htrap.1 htrap.2)
    · refine .inr ?_
      change (decide (0x30 ≤ (w.imm.extractLsb' 0 16).toNat) && decide ((w.imm.extractLsb' 0 16).toNat ≤ 0x33)) = false
      rw [hi, ← Bool.decide_and]
      exact decide_eq_false htrap
  have hcheck : (semCrr g w).check1 s.now = false := by
    change (!s.now.supervisor && (w.imm.extractLsb' 0 16 == 5 || w.imm.extractLsb' 0 16 == 6)) = false
    rw [hi]
    cases hs : s.now.supervisor with
    | true => rfl
    | false => simpa [hs] using hr.supervisor
  have hp : (semCrr g w).Performs s := State.Issues.performs (m := semCrr g w) h hpriv rfl
    ⟨hcheck, rfl, rfl, rfl, by simp [semCrr], rfl, by simp [semCrr], by simp [semCrr], rfl, rfl⟩
  obtain ⟨t, e, hf⟩ := runSolo_core (i := .crr g w) hp rfl hc (nx := none) (sd := s.now.cr.seed)
    (Core.plain_pendWrite w.lat.toNat (.s w.d x)) (fun _ => rfl) (fun _ => rfl) fun u hu => by
      rw [← hx, ← crValue_charged hu hr.coreId, ← hi]
      rfl
  refine ⟨t, e, hf.of_core ?_⟩
  refine (Core.agrees_later h.quiet.still ..).trans ?_
  rw [Option.getD_none, ← Core.later_pc]
  exact Core.Agrees.refl _

/-- Settles O10: each clause names a register that the core may read and the value that stands in it. -/
theorem controlRegisterReads : Obligations.ControlRegisterReads := by
  unfold Obligations.ControlRegisterReads
  intro s g w x h hc c i hx
  rcases hx with ⟨hi, rfl⟩ | ⟨hi, hun, rfl⟩ | ⟨hi, rfl⟩ | ⟨hi, rfl⟩ | ⟨hi, rfl⟩ | ⟨hi, hs, rfl⟩ | ⟨hi, hs, rfl⟩ | ⟨hi, rfl⟩ | ⟨hi, rfl⟩ |
    ⟨hi, rfl⟩ | ⟨hi, rfl⟩ | ⟨hi, rfl⟩ | ⟨hi, hx⟩ | ⟨hi, rfl⟩ | ⟨hs, ⟨hi, rfl⟩ | ⟨hi, rfl⟩ | ⟨hi, rfl⟩ | ⟨hi, rfl⟩⟩ | ⟨hi, rfl⟩
  · exact crr_completes h hc hi (.anywhere (by decide)) rfl
  · exact crr_completes h hc hi ⟨fun _ => hun, (absurd · (by decide)), (absurd · (by decide))⟩ rfl
  · exact crr_completes h hc hi (.anywhere (by decide)) rfl
  · exact crr_completes h hc hi (.anywhere (by decide)) rfl
  · exact crr_completes h hc hi (.anywhere (by decide)) rfl
  · exact crr_completes h hc hi ⟨(absurd · (by decide)), fun _ => hs, (absurd · (by decide))⟩ rfl
  · exact crr_completes h hc hi ⟨(absurd · (by decide)), fun _ => hs, (absurd · (by decide))⟩ rfl
  · exact crr_completes h hc hi (.anywhere (by decide)) rfl
  · exact crr_completes h hc hi (.anywhere (by decide)) rfl
  · exact crr_completes h hc hi (.anywhere (by decide)) rfl
  · exact crr_completes h hc hi (.anywhere (by decide)) rfl
  · exact crr_completes h hc hi (.anywhere (by decide)) rfl
  · exact crr_completes h hc hi (.anywhere (by decide)) (ofNat_leNat_bytes hx)
  · exact crr_completes h hc hi (.anywhere (by decide)) rfl
  · exact crr_completes h hc hi (.trap hs (by decide)) rfl
  · exact crr_completes h hc hi (.trap hs (by decide)) rfl
  · exact crr_completes h hc hi (.trap hs (by decide)) rfl
  · exact crr_completes h hc hi (.trap hs (by decide)) rfl
  · exact crr_completes h hc hi (.anywhere (by decide)) rfl

end Sys2Proof.Machine

/-! ## The strand unit (04 R150, R151) -/

namespace Sys2Proof.Machine

section StrandUnit

variable {s : State} {g : Guard} {w : SR} {b : Beat} (h : s.Issues .s g (some (0, 0, w.lat.toNat))) (hsup : s.now.supervisor = false)
  (hb : s.now.beatAt w.a (ringAt 19 s.now.bt) = b) (htag : s.now.tagKnown b.tag = true)

include hb htag in
/-- The tests of ZINS and ZEXT pass on a beat of a known tag and a unit below 80. -/
theorem unitTest_ok (op : BitVec 8) (v : View) (hv : v.core = s.now) {u : W64} (hu : u.toNat < 80) : unitTest op v w.a u = none := by
  have htap : v.tap 19 w.a = b := by rw [View.tap, hv, hb]
  rw [unitTest, htap, hv, htag]
  exact if_neg (Nat.not_le.mpr hu)

include h hsup hb htag

/-- ZINS drives the tapped beat with its unit replaced. -/
theorem zins_completes (hc : (Instr.zins g w).check1 = none) (hu : (s.now.sReg w.c).toNat < 80) :
    Completes (.zins g w) s (s.now.driveAt .s w.lat.toNat w.d (b.setUnit (s.now.sReg w.c).toNat (s.now.sReg w.b))).after := by
  have hB : (s.view (semZins g w)).s 2 w.b = s.now.sReg w.b := View.s_quiet (v := s.view _) h.quiet 2 w.b
  have hC : (s.view (semZins g w)).s 3 w.c = s.now.sReg w.c := View.s_quiet (v := s.view _) h.quiet 3 w.c
  have htest : (semZins g w).check5 s s.cur (s.view (semZins g w)) = none :=
    (congrArg (unitTest 0x66 (s.view (semZins g w)) w.a) hC).trans (unitTest_ok hb htag 0x66 _ rfl hu)
  have hp : (semZins g w).Performs s := State.Issues.performs (m := semZins g w) h (.inr rfl) (congrArg not hsup)
    ⟨rfl, rfl, htest, rfl, by simp [semZins], rfl, by simp [semZins], by simp [semZins], rfl, rfl⟩
  obtain ⟨t, e, hf⟩ := runSolo_drive (i := .zins g w) hp rfl hc rfl (.inl rfl) fun _ => rfl
  rw [hB, hC, show (s.view (semZins g w)).tap 19 w.a = b from hb] at hf
  exact ⟨t, e, hf⟩

/-- ZEXT lands the unit of the tapped beat. -/
theorem zext_completes (hc : (Instr.zext g w).check1 = none) (hu : (s.now.sReg w.b).toNat < 80) :
    Completes (.zext g w) s (s.now.later w.lat.toNat (.s w.d (b.unit (s.now.sReg w.b).toNat))) := by
  have hB : (s.view (semZext g w)).s 2 w.b = s.now.sReg w.b := View.s_quiet (v := s.view _) h.quiet 2 w.b
  have htest : (semZext g w).check5 s s.cur (s.view (semZext g w)) = none :=
    (congrArg (unitTest 0x67 (s.view (semZext g w)) w.a) hB).trans (unitTest_ok hb htag 0x67 _ rfl hu)
  have hp : (semZext g w).Performs s := State.Issues.performs (m := semZext g w) h (.inr rfl) (congrArg not hsup)
    ⟨rfl, rfl, htest, rfl, by simp [semZext], rfl, by simp [semZext], by simp [semZext], rfl, rfl⟩
  obtain ⟨t, e, hf⟩ := runSolo_write (i := .zext g w) hp rfl hc rfl fun _ => rfl
  rw [hB, show (s.view (semZext g w)).tap 19 w.a = b from hb] at hf
  exact ⟨t, e, hf⟩

end StrandUnit

/-- A beat is known by its tag and its 80 units. -/
theorem eq_setUnit {b b' : Beat} {n : Nat} {x : W64} (hn : n < 80) (htag : b'.tag = b.tag)
    (hu : ∀ u, u < 80 → (b'.side ++ b'.data).extractLsb' (64 * u) 64 = if u = n then x else (b.side ++ b.data).extractLsb' (64 * u) 64) :
    b' = b.setUnit n x := by
  have hset : (b.setUnit n x).tag = b.tag := by
    unfold Beat.setUnit
    split <;> rfl
  exact beat_ext (htag.trans hset.symm) (units_ext fun u h => (hu u h).trans (setUnit_units b n x hn u h).symm)

/-- Settles O12: the statement's beat is the tapped one with its unit replaced. -/
theorem strandInsertExtract : Obligations.StrandInsertExtract := by
  unfold Obligations.StrandInsertExtract
  intro s g w b h hsup hb htag
  refine ⟨fun b' hc hn htag' hu => ?_, fun hc hn => ?_⟩
  · rw [eq_setUnit hn htag' hu]
    exact zins_completes h hsup hb.symm htag hc hn
  · rw [← unit_eq b _ hn]
    exact zext_completes h hsup hb.symm htag hc hn

end Sys2Proof.Machine

/-! ## What the matrix slot issues (06 R189 to R204) -/

namespace Sys2Proof.Machine

/-- With no operation in the engine, a plane has the tag that it holds. -/
theorem Core.planeTag_idle {c : Core} (h : c.mq = []) (pl : BitVec 3) : c.planeTag pl = SMap.get 0 c.mx.tags pl.toNat := by
  rw [Core.planeTag, h, List.foldl_nil]

/-- With no operation in the engine, a bank has the mode that it holds. -/
theorem Core.bankMode_idle {c : Core} (h : c.mq = []) (ab : BitVec 1) : c.bankMode ab = ((c.mx.bank ab).rm, (c.mx.bank ab).sat) := by
  rw [Core.bankMode, h, List.foldl_nil]

theorem View.bankRound_idle {v : View} (h : v.core.mq = []) (ab : BitVec 1) :
    v.bankRound ab = if (v.core.mx.bank ab).rm = 0 then v.core.cr.round else (v.core.mx.bank ab).rm := by
  rw [View.bankRound, Core.bankMode_idle h]

theorem State.drawList_zero (s : State) (m : RMode) : s.drawList m 0 = [] := by
  rw [State.drawList, List.range_zero, List.map_nil, ite_self]

section Joins

variable {s : State} {g : Guard} {w : MW} {rm : BitVec 3}
  (hk : s.now.KnotsAllow (maskKnots w.cmask w.kc0 w.kc1 w.kc2) w.kp 1)
  (hrm : rm = if (s.now.mx.bank w.ab).rm = 0 then s.now.cr.round else (s.now.mx.bank w.ab).rm)
include hk

/-- MLB of images that lie inside the scratchpad (06 R198). -/
theorem mlb_joins (h : s.Issues .m g (some (3, 0, 4 * w.lat.toNat))) (hc : (Instr.mlb g w).check1 = none)
    (halign : (s.now.sReg w.za).toNat % 512 = 0) (hplane : (s.now.sReg w.za).toNat + 65536 ≤ 2097152)
    (hlow : 0 ≤ mlbHeader w (s.now.sReg w.za)) (hhigh : mlbHeader w (s.now.sReg w.za) + 8192 * planeQ (mlbM w) ≤ 2097152) :
    Completes (.mlb g w) s (s.now.joinsEngine w
      (.loadPlane w.pl (mlbM w) (s.now.sReg w.za).toNat (mlbHeader w (s.now.sReg w.za)).toNat) s.now.cr.seed) := by
  have haddr : (s.view (semMlb g w)).addrs.a = s.now.sReg w.za := View.s_quiet (v := { s.view (semMlb g w) with addrs := {} }) h.quiet 1 w.za
  have htest : (semMlb g w).check5 s s.cur (s.view (semMlb g w)) = none := by
    rw [← haddr] at halign hplane hlow hhigh
    exact (if_neg fun hne => hne halign).trans ((if_neg (by omega)).trans (if_neg (by omega)))
  exact matOp_joins (i := .mlb g w) rfl hk h rfl hc htest (q := (.rne, 0)) rfl
    (congrArg (fun a : W64 => MJob.loadPlane w.pl (mlbM w) a.toNat (mlbHeader w a).toNat) haddr)

/-- An operation that reads no address joins the engine with its draws. -/
theorem matOp_joins_fixed {op : BitVec 8} {cls : Nat} {reads : View → List UePlace} {test : View → Option TrapReq}
    {span : Core → View → Nat} {count : View → RMode × Nat} {job : View → List Nat → MJob} {i : Instr} {x : W64}
    (he : exec i s = runSolo (matOp op cls g w reads test span count job) i s)
    (h : s.Issues .m g (some (3, cls, 4 * w.lat.toNat))) (hw : i.slotWord = some (.m, x)) (hc : i.check1 = none)
    (ht : test (s.view (matOp op cls g w reads test span count job)) = none) {q : RMode × Nat}
    (hq : count (s.view (matOp op cls g w reads test span count job)) = q) {j : MJob}
    (hj : job (s.view (matOp op cls g w reads test span count job)) (s.drawList q.1 q.2) = j) :
    Completes i s (s.now.joinsEngine w j (s.seedFor q.1 q.2)) :=
  matOp_joins (base := fun _ => {}) (stp := fun _ a => .ok a) he hk h hw hc ht hq hj

include hrm

/-- MAC, MACN and MACZ of a ZB beat on a plane that holds one: a draw for each element of the beat (06 R200). -/
theorem macOp_joins {op : BitVec 8} {negate fresh : Bool} {i : Instr} {x : W64} (he : exec i s = runSolo (macOp op g w negate fresh) i s)
    (hw : i.slotWord = some (.m, x)) (h : s.Issues .m g (some (3, 1, 4 * w.lat.toNat))) (hc : i.check1 = none)
    {z : Beat} (hz : s.now.beatAt w.za (ringAt 7 s.now.bt) = z) (hza : isZ z.tag = true) (hpl : SMap.get 0 s.now.mx.tags w.pl.toNat ≠ 0) :
    Completes i s (s.now.joinsEngine w
      (.mac negate fresh w.ab w.pl z rm (s.now.mx.bank w.ab).sat (s.drawList (RMode.ofCode rm) (tagCount z.tag)))
      (s.seedFor (RMode.ofCode rm) (tagCount z.tag))) := by
  have hmq : s.now.mq = [] := h.quiet.mq
  subst hz
  have hround : (s.view (macOp op g w negate fresh)).bankRound w.ab = rm := (View.bankRound_idle hmq _).trans hrm.symm
  have hsat : (s.now.bankMode w.ab).2 = (s.now.mx.bank w.ab).sat := by rw [Core.bankMode_idle hmq]
  refine matOp_joins_fixed hk he h hw hc ?_ (q := (RMode.ofCode rm, _)) ?_ ?_
  · have hnot : ¬(!isZ (s.now.beatAt w.za (ringAt 7 s.now.bt)).tag) = true := by rw [hza]; decide
    exact (if_neg hnot).trans (if_neg fun hzero => hpl ((Core.planeTag_idle hmq _).symm.trans hzero))
  · exact Prod.ext (congrArg RMode.ofCode hround) rfl
  · rw [← hround, ← hsat]
    rfl

/-- MDR: the forms of two bytes take a draw for each element of the row (06 R202). -/
theorem mdr_joins {n : Nat} (hn : n = if (w.fn.extractLsb' 6 2).toNat < 2 then 0 else 256)
    (h : s.Issues .m g (some (3, 3, 4 * w.lat.toNat))) (hc : (Instr.mdr g w).check1 = none) :
    Completes (.mdr g w) s (s.now.joinsEngine w (.drain w.ab (w.fn.extractLsb' 0 6) (w.fn.extractLsb' 6 2) rm
      (s.now.mx.bank w.ab).sat (s.drawList (RMode.ofCode rm) n)) (s.seedFor (RMode.ofCode rm) n)) := by
  have hmq : s.now.mq = [] := h.quiet.mq
  have hround : (s.view (semMdr g w)).bankRound w.ab = rm := (View.bankRound_idle hmq _).trans hrm.symm
  have hsat : (s.now.bankMode w.ab).2 = (s.now.mx.bank w.ab).sat := by rw [Core.bankMode_idle hmq]
  refine matOp_joins_fixed (i := .mdr g w) hk rfl h rfl hc rfl (q := (RMode.ofCode rm, n)) ?_ ?_
  · exact Prod.ext (congrArg RMode.ofCode hround) hn.symm
  · rw [← hround, ← hsat]
    rfl

end Joins

/-- Settles O37: each clause is the law of its operation; of MDR, by how many draws its form takes. -/
theorem matrixIssues : Obligations.MatrixIssues := by
  unfold Obligations.MatrixIssues
  intro s g w hk
  refine ⟨fun halign hplane hlow hhigh h hc => mlb_joins hk h hc halign hplane hlow hhigh, fun h hc => matPlain_joins rfl hk h rfl hc, ?_,
    fun h hc => matPlain_joins rfl hk h rfl hc, fun h hc => matPlain_joins rfl hk h rfl hc, fun hform h hc => ?_, fun hform h hc => ?_,
    fun h hc => matPlain_joins rfl hk h rfl hc, fun h hc => matPlain_joins rfl hk h rfl hc⟩
  · intro hza hpl i negate fresh hmem h hc
    simp only [List.mem_cons, List.not_mem_nil, or_false, Prod.mk.injEq] at hmem
    obtain ⟨rfl, rfl, rfl⟩ | ⟨rfl, rfl, rfl⟩ | ⟨rfl, rfl, rfl⟩ := hmem
    · exact macOp_joins hk rfl rfl rfl h hc rfl hza hpl
    · exact macOp_joins hk rfl rfl rfl h hc rfl hza hpl
    · exact macOp_joins hk rfl rfl rfl h hc rfl hza hpl
  · have := mdr_joins hk rfl (n := 0) (by rcases hform with e | e <;> rw [e] <;> rfl) h hc
    rwa [State.drawList_zero, State.seedFor_zero] at this
  · exact mdr_joins hk rfl (by rcases hform with e | e <;> rw [e] <;> rfl) h hc

end Sys2Proof.Machine

/-! ## What the matrix engine performs (06 R186 to R204, log 45) -/

namespace Sys2Proof.Machine

section Performs

variable {s : State} {core : Nat} {o : MOp} {l : List MOp} (hmq : (s.core core).mq = o :: l)
include hmq

/-- M_OPERATION_PERFORM is the turn of the engine's oldest operation. -/
theorem exec_mOperationPerform : exec (.mOperationPerform core) s = .next (s.setCore core (s.core core).performM) := by
  change execMOperationPerform core s = _
  rw [execMOperationPerform, if_neg (by rw [hmq]; exact List.cons_ne_nil _ _)]
  rfl

/-- A job that drives no beat finishes its knot at once (06 R193). -/
theorem exec_mOperationPerform_done {y : Matrix} {f : Flags} (hjob : (s.core core).runJob o.job = (y, none, f)) :
    exec (.mOperationPerform core) s =
      .next (s.setCore core ((({ s.core core with mq := l, mx := y } : Core).finishKnot o.kp true).flagOr o.left f)) := by
  rw [exec_mOperationPerform hmq]
  simp only [Core.performM, hmq, hjob]

/-- A job that drives a beat leaves its knot to the drive (06 R193, log 45). -/
theorem exec_mOperationPerform_drives {y : Matrix} {b : Beat} {f : Flags} (hjob : (s.core core).runJob o.job = (y, some b, f)) :
    exec (.mOperationPerform core) s =
      .next (s.setCore core (({ s.core core with mq := l, mx := y, drives := (s.core core).drives ++
        [{ left := o.left, z := o.z, ring := o.ring, beat := some b, kp := some o.kp, slot := 3 }] } : Core).flagOr o.left f)) := by
  rw [exec_mOperationPerform hmq]
  simp only [Core.performM, hmq, hjob]

end Performs

/-! ### Plane loads (06 R186, R187, R198) -/

theorem SMap.getD_getList {α : Type} (d : α) (m : SMap α) (a : Nat) {n i : Nat} (h : i < n) : (SMap.getList d m a n).getD i d = SMap.get d m (a + i) := by
  rw [SMap.getList_eq, getD_rangeMap _ _ _ _ h]

section LoadPlane

variable (c : Core) (pl : BitVec 3) (m a h : Nat)

/-- A plane's columns are the scratchpad's runs of 256 bytes; the other planes keep theirs. -/
theorem loadPlane_cell (p : Nat) {n i : Nat} (hi : i < 256) (hn : n < 256) :
    (SMap.get 0 (c.runJob (.loadPlane pl m a h)).1.cells (256 * p + n)).extractLsb' (8 * i) 8 =
      if p = pl.toNat then SMap.get 0 c.spad (a + 256 * n + i) else (SMap.get 0 c.mx.cells (256 * p + n)).extractLsb' (8 * i) 8 := by
  obtain ⟨hcells, _⟩ := loadPlane_eq c pl m a h
  rw [hcells, get_foldSet 0 fun n => BitVec.ofNat 2048 (leNat (SMap.getList 0 c.spad (a + 256 * n) 256))]
  by_cases hp : p = pl.toNat
  · rw [if_pos (by omega), if_pos hp, leNat_cut _ _ _ (by omega), hp, Nat.add_sub_cancel_left, SMap.getD_getList _ _ _ hi]
  · rw [if_neg (by omega), if_neg hp]

/-- A plane's header image is copied from the scratchpad; the rest of its space and the other planes keep theirs. -/
theorem loadPlane_header (p : Nat) {i : Nat} (hi : i < 32768) :
    SMap.get 0 (c.runJob (.loadPlane pl m a h)).1.headers (32768 * p + i) =
      if p = pl.toNat ∧ i < 8192 * planeQ m then SMap.get 0 c.spad (h + i) else SMap.get 0 c.mx.headers (32768 * p + i) := by
  have hq := (planeQ_pos m).2
  obtain ⟨_, hheaders, _⟩ := loadPlane_eq c pl m a h
  rw [hheaders, SMap.get_setList, SMap.length_getList]
  by_cases hp : p = pl.toNat ∧ i < 8192 * planeQ m
  · rw [if_pos (by omega), if_pos hp, hp.1, Nat.add_sub_cancel_left, SMap.getD_getList _ _ _ hp.2]
  · rw [if_neg (by omega), if_neg hp]

end LoadPlane

/-! ### The MAC family (06 R188, R200) -/

/-- The blocks of a beat that K-step `i` takes, negated in MACN. -/
def Beat.stepBlocks (a : Beat) (negate : Bool) (mA i : Nat) : List Blk :=
  (List.range 16).map fun j =>
    let k := a.blk mA (16 * i + j)
    if negate then { k with ms := k.ms.map fun v => -v } else k

/-- The bank after each K-step of a MAC-family operation. -/
def Matrix.bankAfter (x : Matrix) (negate fresh : Bool) (pl mA mB : Nat) (a : Beat) (mode : RMode) (sat : Bool) (draws : List Nat) (b : Bank) :
    Nat → Bank
  | 0 => b
  | i + 1 => (x.macStep fresh (x.bankAfter negate fresh pl mA mB a mode sat draws b i) pl mA mB (a.stepBlocks negate mA i) mode sat
      fun k => draws.getD (256 * i + k) 0).1

/-- A MAC-family operation makes its K-steps in order, and gathers their flags. -/
theorem runJob_mac (c : Core) (negate fresh : Bool) (ab : BitVec 1) (pl : BitVec 3) (a : Beat) (mode : BitVec 3) (sat : Bool) (draws : List Nat) :
    let mA := zbM a.tag
    let mB := zbM (SMap.get 0 c.mx.tags pl.toNat)
    let b := c.mx.bankAfter negate fresh pl.toNat mA mB a (RMode.ofCode mode) sat draws (c.mx.bank ab)
    c.runJob (.mac negate fresh ab pl a mode sat draws) =
      (c.mx.setBank ab (b (tagCount a.tag / 256)), none, Flags.all ((List.range (tagCount a.tag / 256)).map fun i =>
        (c.mx.macStep fresh (b i) pl.toNat mA mB (a.stepBlocks negate mA i) (RMode.ofCode mode) sat fun k => draws.getD (256 * i + k) 0).2)) := by
  intro mA mB b
  have hsteps := macSteps_eq c.mx negate fresh pl.toNat mA mB a (RMode.ofCode mode) sat draws b (a.stepBlocks negate mA)
    (fun _ => rfl) (fun _ => rfl) (tagCount a.tag / 256) 0 0
  simp only [Nat.zero_add] at hsteps
  have hzero : ∀ f : Flags, 0 ||| f = f := fun _ => BitVec.zero_or
  rw [hzero] at hsteps
  change (c.mx.setBank ab (c.mx.macSteps negate fresh pl.toNat mA mB a (RMode.ofCode mode) sat draws _ 0 (b 0) 0).1, none,
    (c.mx.macSteps negate fresh pl.toNat mA mB a (RMode.ofCode mode) sat draws _ 0 (b 0) 0).2) = _
  rw [hsteps]

/-! ### Reads, drains and bank control (06 R201 to R203) -/

/-- A read drives half a row as ACC32 elements. -/
theorem elems_holds (b : Bank) (r lo : Nat) : (elemBeat 32 0x20 (b.elems r lo 128)).Holds 0x20 fun i => b.elem r (lo + i) :=
  tagBeat_holds 0x20 _ _ fun i hi => getD_rangeMap 128 i (fun i => b.elem r (lo + i)) 0 hi

/-- A drain in an FP form drives the row rounded. -/
theorem rounded_holds (form : BitVec 2) (y : Nat → Nat × Flags) :
    (elemBeat 16 (if form = 2 then 0x09 else 0x0A) (((List.range 256).map y).map (·.1))).Holds (if form = 2 then 0x09 else 0x0A) fun n => (y n).1 := by
  rw [List.map_map]
  split
  · exact tagBeat_holds 0x09 _ _ fun i hi => getD_rangeMap 256 i (fun n => (y n).1) 0 hi
  · exact tagBeat_holds 0x0A _ _ fun i hi => getD_rangeMap 256 i (fun n => (y n).1) 0 hi

/-- A bank with the half `f` of a row zero. -/
def Bank.zeroHalf (b : Bank) (r f : Nat) : Bank :=
  b.setRow r (b.rowBits r - ((b.rowBits r >>> (32 * (128 * f))) % 2 ^ 4096) <<< (32 * (128 * f)))

theorem elem_zeroHalf (b : Bank) (r f r' : Nat) {n : Nat} (hn : n < 256) :
    (b.zeroHalf r f).elem r' n = if r' = r ∧ 128 * f ≤ n ∧ n < 128 * f + 128 then 0 else b.elem r' n := by
  rw [Bank.zeroHalf, elem_setRow _ _ _ _ _ hn, keep_elem]
  by_cases hr : r' = r
  · subst hr
    simp only [if_true, true_and, Bank.elem, Nat.shiftRight_eq_div_pow]
  · rw [if_neg hr, if_neg fun h => hr h.1]

theorem elem_clear (b : Bank) (r n : Nat) : Bank.elem { b with acc := [], steps := 0, row := 0, kq := 0 } r n = 0 := by
  change (0#8192).toNat >>> (32 * n) % 2 ^ 32 = 0
  rw [BitVec.toNat_zero, Nat.zero_shiftRight, Nat.zero_mod]

/-- A drain of a half row zeroes the elements that it drives. -/
theorem elem_drained_half (b : Bank) (r r' : Nat) {form : BitVec 2} (hform : form.toNat < 2) {n : Nat} (hn : n < 256) :
    (b.zeroHalf r form.toNat).elem r' n = if r' = r ∧ (form = 0 → n < 128) ∧ (form = 1 → 128 ≤ n) then 0 else b.elem r' n := by
  rw [elem_zeroHalf _ _ _ _ hn]
  have hcases : form = 0 ∨ form = 1 := by revert hform; revert form; decide
  have hhalf : 128 * form.toNat ≤ n ∧ n < 128 * form.toNat + 128 ↔ (form = 0 → n < 128) ∧ (form = 1 → 128 ≤ n) := by
    obtain rfl | rfl := hcases
    · exact ⟨fun h => ⟨fun _ => h.2, fun h1 => absurd h1 (by decide)⟩, fun h => ⟨Nat.zero_le n, h.1 rfl⟩⟩
    · exact ⟨fun h => ⟨fun h0 => absurd h0 (by decide), fun _ => h.1⟩, fun h => ⟨h.2 rfl, hn⟩⟩
  simp only [hhalf]

/-- A drain of a whole row zeroes it. -/
theorem elem_drained_row (b : Bank) (r r' : Nat) {form : BitVec 2} (hform : ¬form.toNat < 2) {n : Nat} (hn : n < 256) :
    (b.setRow r 0).elem r' n = if r' = r ∧ (form = 0 → n < 128) ∧ (form = 1 → 128 ≤ n) then 0 else b.elem r' n := by
  have h0 : form ≠ 0 := by rintro rfl; exact hform (by decide)
  have h1 : form ≠ 1 := by rintro rfl; exact hform (by decide)
  rw [elem_setRow _ _ _ _ _ hn, Nat.zero_div, Nat.zero_mod]
  simp only [h0, h1, false_implies, and_true]

/-- Settles O38: by the job of the oldest operation. -/
theorem matrixPerforms : Obligations.MatrixPerforms := by
  unfold Obligations.MatrixPerforms
  intro s core o l hmq c x done drives
  have hdone : ∀ {y f}, c.runJob o.job = (y, none, f) → done y f := exec_mOperationPerform_done hmq
  have hdrives : ∀ {y b f}, c.runJob o.job = (y, some b, f) → drives y b f := exec_mOperationPerform_drives hmq
  clear_value done drives
  refine ⟨?loadPlane, fun ab row kq hj => hdone (by rw [hj]; rfl), fun ab rm sat hj => hdone (by rw [hj]; rfl), ?clear, ?mac, ?read, ?readSteps, ?drain⟩
  case loadPlane =>
    intro pl m a h hj
    have ⟨_, _, htags, hb0, hb1, hrest⟩ := loadPlane_eq c pl m a h
    refine ⟨_, hdone (by rw [hj]; exact Prod.ext rfl hrest), hb0, hb1, fun p n i hi hn => loadPlane_cell c pl m a h p hi hn,
      fun p i hi => loadPlane_header c pl m a h p hi, fun p => ?_⟩
    rw [htags, SMap.get_set]
  case clear =>
    exact fun ab hj => ⟨_, hdone (by rw [hj]; rfl), elem_clear (x.bank ab), rfl, rfl, rfl, rfl, rfl⟩
  case mac =>
    intro negate fresh ab pl a mode sat draws hj mA mB q blk
    have hstep := fun i => macStep_spec x fresh (x.bankAfter negate fresh pl.toNat mA mB a (RMode.ofCode mode) sat draws (x.bank ab) i)
      pl.toNat mA mB (a.stepBlocks negate mA i) (RMode.ofCode mode) sat fun k => draws.getD (256 * i + k) 0
    refine ⟨x.bankAfter negate fresh pl.toNat mA mB a (RMode.ofCode mode) sat draws (x.bank ab), rfl, fun i _ => ?_, ?_⟩
    · obtain ⟨hel, hsteps, hcursor, hrm, hsat, _⟩ := hstep i
      exact ⟨hel, hsteps, hcursor, hrm, hsat⟩
    · refine hdone (hj ▸ (runJob_mac c negate fresh ab pl a mode sat draws).trans (Prod.ext rfl (Prod.ext rfl ?_)))
      refine congrArg Flags.all (List.map_congr_left fun i _ => ?_)
      obtain ⟨_, _, _, _, _, hflags⟩ := hstep i
      exact hflags
  case read =>
    exact fun ab row half hj => ⟨_, elems_holds (x.bank ab) row.toNat _, hdrives (by rw [hj]; rfl)⟩
  case readSteps =>
    exact fun ab hj => ⟨_, steps_holds x (x.bank ab), hdrives (by rw [hj]; rfl)⟩
  case drain =>
    intro ab row form mode sat draws hj e f y
    by_cases hform : form.toNat < 2
    · have hd := hdrives (hj ▸ drain_half c ab row form mode sat draws hform)
      have hz := elems_holds (x.bank ab) row.toNat (128 * form.toNat)
      refine ⟨(x.bank ab).zeroHalf row.toNat form.toNat, elemBeat 32 0x20 ((x.bank ab).elems row.toNat (128 * form.toNat) 128), rfl, fun r n hn => elem_drained_half _ _ _ hform hn, ?_, ?_, ?_⟩
      · rintro rfl
        exact ⟨by simpa using hz, hd⟩
      · rintro rfl
        exact ⟨hz, hd⟩
      · rintro (rfl | rfl) <;> exact absurd hform (by decide)
    · have hd := hdrives (hj ▸ drain_full c ab row form mode sat draws hform)
      refine ⟨(x.bank ab).setRow row.toNat 0, _, rfl, fun r n hn => elem_drained_row _ _ _ hform hn, ?_, ?_, fun _ => ⟨rounded_holds form y, hd⟩⟩
      · rintro rfl
        exact absurd (by decide) hform
      · rintro rfl
        exact absurd (by decide) hform

end Sys2Proof.Machine

/-! ## References (07 R235 to R241, 15 R391, R400) -/

namespace Sys2Proof.Machine

/-! ### Accesses through a reference (07 R235 to R238) -/

/-- A usable reference is not stale. -/
theorem Core.Fresh.not_stale {c : Core} {k : W64} (h : c.Fresh k) : c.stale k = false := by
  obtain ⟨_, _, hcolor⟩ := h
  rw [Core.stale, hcolor, bne_self_eq_false, Bool.and_false]

theorem Core.Fresh.not_null {c : Core} {k : W64} (h : c.Fresh k) : refAddr k ≠ 0 := by
  obtain ⟨_, hnull, _⟩ := h
  exact hnull

/-- A usable reference resolves to itself. -/
theorem Core.Fresh.resolve {c : Core} {k : W64} (h : c.Fresh k) (s : State) (asid : BitVec 16) : s.resolve asid c k = (k, false) := by
  obtain ⟨_, hnull, hcolor⟩ := h
  exact State.resolve_fresh s asid hnull hcolor

/-- The object offset of an access through a register that needed no barrier is the encoded one. -/
theorem RefUse.off_encoded {k va off : W64} {stale poison : Bool} (h : va = (refAddr k).zeroExtend 64 + off) :
    RefUse.off ⟨k, va, stale, poison⟩ = off := by
  rw [RefUse.off, h, BitVec.add_comm, BitVec.add_sub_cancel]

section Access

variable {op : BitVec 8} {g : Guard} {w : SG} {n : Nat} {reads : List UePlace} {more : View → Option TrapReq}
  {act : Nat → View → RefUse → Target → Acc → Acc} {i : Instr} {x : W64} {s : State} {t : Target}
  (h : s.Issues .s g none) (hsup : s.now.supervisor = false) (hw : i.slotWord = some (.s, x)) (hc : i.check1 = none)
include h hsup hw hc

/-- A load through a usable reference takes its landing slot, with the kind that its action makes of the object offset. -/
theorem refAccess_lands {toK : Bool} {kind : W64 → LandKind} (he : exec i s = runSolo (refAccess op g w true n reads (fun _ => none) act) i s)
    (hr : s.now.RefersTo (s.now.kReg w.a) w.off n .r t)
    (hact : ∀ v u a, act s.cur v u t a = a.core s.cur fun c => c.takeLanding w.lnd.toNat toK w.d t (kind u.off)) :
    Completes i s (s.now.withLanding (w.lnd.toNat - 1) toK w.d t (kind (w.off.signExtend 64))).after := by
  obtain ⟨u, e, hf⟩ := refAccess_completes (load := true) (more := fun _ => none) (act := act)
    (e := s.now.takeLanding w.lnd.toNat toK w.d t (kind (w.off.signExtend 64))) h hsup hw hc hr rfl rfl
    fun u a v _ _ hva hcore hcycle hothers hrest hset hseed hnext htail heret => by
      rw [hact, RefUse.off_encoded hva]
      exact makes_core (fun _ _ _ _ _ _ => rfl) rfl (fun _ => rfl) hcore hcycle hothers hrest hset hseed hnext htail heret
  exact ⟨u, he.trans e, hf.of_core (Core.agrees_landing h.quiet.still ..)⟩

/-- A store through a usable reference joins the store stream, as its action says. -/
theorem refAccess_streams {kind : StoreKind} (he : exec i s = runSolo (refAccess op g w false n reads more act) i s)
    (hr : s.now.RefersTo (s.now.kReg w.a) w.off n .w t)
    (hm : more (s.view (refAccess op g w false n reads more act)) = none)
    (hact : ∀ v u a, v.core = s.now → u.off = w.off.signExtend 64 → act s.cur v u t a = a.core s.cur fun c => c.streamStore t kind) :
    Completes i s (s.now.withStore t kind).after := by
  obtain ⟨u, e, hf⟩ := refAccess_completes (load := false) (more := more) (act := act) (e := s.now.streamStore t kind) h hsup hw hc hr hm rfl
    fun u a v _ hv hva hcore hcycle hothers hrest hset hseed hnext htail heret => by
      rw [hact v _ a hv (RefUse.off_encoded hva)]
      exact makes_core (fun _ _ _ _ _ _ => rfl) rfl (fun _ => rfl) hcore hcycle hothers hrest hset hseed hnext htail heret
  obtain ⟨hpend, hland, hdrive, hflag, hmq, hrep, hpoison⟩ := h.quiet.still
  exact ⟨u, he.trans e, hf.of_core (Core.agrees_after (c := s.now.streamStore t kind) ⟨hpend, hland, hdrive, hflag, hmq, hrep, hpoison⟩ _ _)⟩

end Access

section Accesses

variable {s : State} {g : Guard} {w : SG} {t : Target} (h : s.Issues .s g none) (hsup : s.now.supervisor = false)
include h hsup

/-- LDREF lands a reference (07 R236). -/
theorem ldref_completes (hc : (Instr.ldref g w).check1 = none) (hr : s.now.RefersTo (s.now.kReg w.a) w.off 8 .r t) :
    Completes (.ldref g w) s (s.now.withLanding (w.lnd.toNat - 1) true w.d t (.ref (w.off.signExtend 64))).after :=
  refAccess_lands h hsup rfl hc (kind := .ref) rfl hr fun _ _ _ => rfl

/-- LDFLD lands a field (07 R238). -/
theorem ldfld_completes (hc : (Instr.ldfld g w).check1 = none) (hr : s.now.RefersTo (s.now.kReg w.a) w.off (2 ^ w.size.toNat) .r t) :
    Completes (.ldfld g w) s (s.now.withLanding (w.lnd.toNat - 1) false w.d t (.load w.size (w.sgn == 1))).after :=
  refAccess_lands h hsup rfl hc (kind := fun _ => .load w.size (w.sgn == 1)) rfl hr fun _ _ _ => rfl

/-- STFLD stores a field (07 R238). -/
theorem stfld_completes (hc : (Instr.stfld g w).check1 = none) (hr : s.now.RefersTo (s.now.kReg w.a) w.off (2 ^ w.size.toNat) .w t) :
    Completes (.stfld g w) s
      (s.now.withStore t (.field (leBytes (2 ^ w.size.toNat) (s.now.sReg w.d).toNat) (w.off.signExtend 64))).after := by
  refine refAccess_streams h hsup rfl hc rfl hr rfl fun v u a hv hoff => ?_
  have hd : v.s 4 w.d = s.now.sReg w.d := View.sReg_of hv h.quiet 4 w.d
  rw [← hd, ← hoff]
  rfl

/-- STREF of a null or of a usable reference stores it as it is (07 R237). -/
theorem stref_completes (hc : (Instr.stref g w).check1 = none) (hr : s.now.RefersTo (s.now.kReg w.a) w.off 8 .w t)
    (hx : refAddr (s.now.kReg w.d) = 0 ∨ s.now.Fresh (s.now.kReg w.d)) :
    Completes (.stref g w) s (s.now.withStore t (.ref (s.now.kReg w.d) (w.off.signExtend 64))).after := by
  have hk : ∀ v : View, v.core = s.now → v.k 2 w.d = s.now.kReg w.d := fun v hv => by
    rw [View.k_quiet (hv ▸ h.quiet), hv]
  have hheap : ¬(refAddr (s.now.kReg w.d) ≠ 0 ∧ 8 ≤ (refHeap (s.now.kReg w.d)).toNat) := by
    rintro ⟨hnull, h8⟩
    obtain ⟨hlt, _⟩ := hx.resolve_left hnull
    omega
  refine refAccess_streams h hsup rfl hc rfl hr ?_ fun v u a hv hoff => ?_
  · simp only [hk (s.view _) rfl]
    exact if_neg hheap
  · rw [← hoff]
    rcases hx with hnull | hfresh
    · simp only [hk v hv, hnull, if_true]
    · simp only [hk v hv, hv, hfresh.not_null, hfresh.resolve, hfresh.not_stale, Bool.false_eq_true, if_false]

end Accesses

/-- Settles O20: each clause is the law of its access. -/
theorem referenceAccesses : Obligations.ReferenceAccesses := by
  unfold Obligations.ReferenceAccesses
  intro s g w t h hsup k off
  exact ⟨ldref_completes h hsup, ldfld_completes h hsup, stfld_completes h hsup, stref_completes h hsup⟩

/-! ### Comparison and making of references (07 R240, R241) -/

section Values

variable {s : State} {g : Guard} {w : SR} (h : s.Issues .s g none) (hsup : s.now.supervisor = false)
include h hsup

/-- REFEQ of references that are null or usable lands whether both are null or both name one object (07 R240). -/
theorem refeq_completes (hc : (Instr.refeq g w).check1 = none) {x y : W64} (hx : s.now.kReg w.a = x) (hy : s.now.kReg w.b = y)
    (h8x : (refHeap x).toNat < 8) (h8y : (refHeap y).toNat < 8) (hxy : refAddr x = 0 ∨ refAddr y = 0 ∨ s.now.Fresh x ∧ s.now.Fresh y)
    {b : Bool} (hb : b = true ↔ refAddr x = refAddr y ∧ (refAddr x = 0 ∨ refHeap x = refHeap y)) :
    Completes (.refeq g w) s (s.now.later 1 (.p w.d b)) := by
  have hA : (s.view (semRefeq g w)).k 1 w.a = x := (View.k_quiet (v := s.view _) h.quiet 1 w.a).trans hx
  have hB : (s.view (semRefeq g w)).k 2 w.b = y := (View.k_quiet (v := s.view _) h.quiet 2 w.b).trans hy
  have htest : (semRefeq g w).check5 s s.cur (s.view (semRefeq g w)) = none := by
    simp only [semRefeq] at hA hB ⊢
    rw [hA, hB, if_neg (Nat.not_le.mpr h8x), if_neg (Nat.not_le.mpr h8y)]
  have hp : (semRefeq g w).Performs s := State.Issues.performs (m := semRefeq g w) h (.inr rfl) (congrArg not hsup)
    ⟨rfl, rfl, htest, rfl, by simp [semRefeq], rfl, by simp [semRefeq], by simp [semRefeq], rfl, rfl⟩
  refine runSolo_write (i := .refeq g w) hp rfl hc rfl fun a => ?_
  simp only [semRefeq] at hA hB ⊢
  simp only [hA, hB]
  by_cases hnull : refAddr x = 0 ∨ refAddr y = 0
  · rw [if_pos hnull]
    have : (refAddr x == refAddr y) = b := by
      rw [Bool.eq_iff_iff, hb, beq_iff_eq]
      exact ⟨fun e => ⟨e, .inl (hnull.elim id e.trans)⟩, And.left⟩
    rw [this]
  · obtain ⟨hnx, hny⟩ := not_or.mp hnull
    obtain ⟨hfx, hfy⟩ := (hxy.resolve_left hnx).resolve_left hny
    have : (refHeap x == refHeap y && refAddr x == refAddr y) = b := by
      rw [Bool.eq_iff_iff, hb, Bool.and_eq_true, beq_iff_eq, beq_iff_eq, or_iff_right hnx, and_comm]
    rw [if_neg hnull, ← this]
    have hcore : (s.view (semRefeq g w)).core = s.now := rfl
    simp only [semRefeq] at hcore
    simp only [hcore, hfx.resolve, hfy.resolve, hfx.not_stale, hfy.not_stale, Bool.or_self, Bool.false_eq_true, or_self, if_false]

/-- REFMK of a heap below 8 and an address of 57 bits makes a reference of the good colour (07 R241). -/
theorem refmk_completes (hc : (Instr.refmk g w).check1 = none) (h8 : (w.fn.extractLsb' 0 4).toNat < 8) (ha : (s.now.sReg w.a).toNat < 2 ^ 57) :
    Completes (.refmk g w) s (s.now.later 1 (.k w.d
      (s.now.goodColor (w.fn.extractLsb' 0 4) ++ w.fn.extractLsb' 0 4 ++ (s.now.sReg w.a).extractLsb' 0 57))) := by
  have hA : (s.view (semRefmk g w)).s 1 w.a = s.now.sReg w.a := View.s_quiet (v := s.view _) h.quiet 1 w.a
  have htest : (semRefmk g w).check5 s s.cur (s.view (semRefmk g w)) = none := by
    simp only [semRefmk] at hA ⊢
    rw [hA]
    exact if_neg (not_or.mpr ⟨Nat.not_le.mpr h8, Nat.not_le.mpr ha⟩)
  have hp : (semRefmk g w).Performs s := State.Issues.performs (m := semRefmk g w) h (.inr rfl) (congrArg not hsup)
    ⟨rfl, rfl, htest, rfl, by simp [semRefmk], rfl, by simp [semRefmk], by simp [semRefmk], rfl, rfl⟩
  rw [← hA]
  exact runSolo_write (i := .refmk g w) hp rfl hc rfl fun _ => rfl

end Values

/-- Settles O21: each clause is the law of its operation. -/
theorem referenceValues : Obligations.ReferenceValues := by
  unfold Obligations.ReferenceValues
  intro s g w h hsup
  exact ⟨fun b hc h8x h8y hxy hb => refeq_completes h hsup hc rfl rfl h8x h8y hxy hb, refmk_completes h hsup⟩

/-! ### Pins (07 R239, 15 R391, R400) -/

theorem Core.Agrees.sReg {c e : Core} (h : c.Agrees e) (n : BitVec 6) : c.sReg n = e.sReg n := by
  obtain ⟨_, _, _, _, _, rfl⟩ := Core.agrees_iff.mp h
  rfl

theorem Core.Agrees.kReg {c e : Core} (h : c.Agrees e) (n : BitVec 6) : c.kReg n = e.kReg n := by
  obtain ⟨_, _, _, _, _, rfl⟩ := Core.agrees_iff.mp h
  rfl

theorem Core.Agrees.pc {c e : Core} (h : c.Agrees e) : c.pc = e.pc := by
  obtain ⟨_, _, _, _, _, rfl⟩ := Core.agrees_iff.mp h
  rfl

/-- What a pin leaves: the header's word with another count, the reference register as it was, and the next bundle. -/
def PinCounted (s u : State) (r : BitVec 6) (pa : Nat) (n : BitVec 16) : Prop :=
  (∀ a, u.memByte a = if pa ≤ a ∧ a < pa + 8 then (leBytes 8 (setPin (BitVec.ofNat 64 (s.memNat pa 8)) n).toNat).getD (a - pa) 0
    else s.memByte a) ∧ (u.core s.cur).kReg r = s.now.kReg r ∧ (u.core s.cur).pc = s.now.pc + 12

section PinOp

variable {op : BitVec 8} {g : Guard} {w : SR} {refuse : BitVec 16 → Bool} {next : BitVec 16 → BitVec 16} {reply : W64 → BitVec 57 → Core → Core}
  {i : Instr} {x : W64} {s : State} {t : Target} {pa : Nat} {n : BitVec 16} (he : exec i s = runSolo (pinOp op g w refuse next reply) i s)
  (hw : i.slotWord = some (.s, x)) (hpl : ∀ k o, Core.Plain (reply k o)) (hhk : ∀ k o c, (reply k o c).hooks = c.hooks)
  (h : s.Issues .s g none) (hsup : s.now.supervisor = false) (hun : s.Unaccounted) (hh : s.HeaderAt (s.now.kReg w.a) t pa n)
  (hc : i.check1 = none)
include he hw hpl hhk h hsup hun hh hc

/-- A count that is not refused is written to the header, and the registers are what the reply makes of them. -/
theorem pinOp_counts (hr : refuse n = false) {e : Core}
    (hreply : (reply (s.now.kReg w.a) (refAddr (s.now.kReg w.a)) s.now).endBundle s.now.cr.seed = e)
    (hk : e.kReg w.a = s.now.kReg w.a) :
    ∃ u, exec i s = .next u ∧ PinCounted s u w.a pa (next n) ∧ ∀ d, (u.core s.cur).sReg d = e.sReg d := by
  obtain ⟨hcounts, _⟩ := pin_common h hsup hun hh hw hc hpl hhk
  obtain ⟨u, eu, hmem, hcore⟩ := hcounts hr
  rw [hreply] at hcore
  exact ⟨u, he.trans eu, ⟨hmem, (hcore.kReg w.a).trans hk, hcore.pc⟩, hcore.sReg⟩

/-- A count that is refused raises RANGE with nothing performed (15 R391). -/
theorem pinOp_refused (hr : refuse n = true) (hu : s.User) :
    Traps i s 0x06 (info263 .s (refAddr (s.now.kReg w.a)).toNat (op.extractLsb' 2 6) op 0) := by
  have hrange : ¬((trapS causeRange op (refAddr (s.now.kReg w.a)).toNat).cause = causeTrapi ∧
      (trapS causeRange op (refAddr (s.now.kReg w.a)).toNat).info.extractLsb' 0 17 = 0xFFF0) := fun e => absurd e.1 (by decide : ¬causeRange = causeTrapi)
  exact he.trans (((pin_common h hsup hun hh hw hc hpl hhk).2 hr).trans (congrArg Host.Outcome.next (takeTrap_quiet hu h.quiet _ hrange)))

end PinOp

section Pins

variable {s : State} {g : Guard} {w : SR} {t : Target} {pa : Nat} {n : BitVec 16} (h : s.Issues .s g none) (hsup : s.now.supervisor = false)
  (hun : s.Unaccounted) (hh : s.HeaderAt (s.now.kReg w.a) t pa n)
include h hsup hun hh

/-- PIN raises a count below its limit and gives the header's address; it refuses a count at its limit (07 R239). -/
theorem pin_law (hc : (Instr.pin g w).check1 = none) :
    (n ≠ 0xFFFF → ∃ u, exec (.pin g w) s = .next u ∧ PinCounted s u w.a pa (n + 1) ∧
      (u.core s.cur).sReg w.d = if w.d = 0 then 0 else (refAddr (s.now.kReg w.a)).zeroExtend 64) ∧
    (n = 0xFFFF → s.User → Traps (.pin g w) s 0x06 (info263 .s (refAddr (s.now.kReg w.a)).toNat 0x25 0x94 0)) := by
  have he : exec (.pin g w) s = runSolo (pinOp 0x94 g w (fun n => n == 0xFFFF) (fun n => n + 1) fun k o c =>
      (c.pendWrite 1 (.s w.d (o.zeroExtend 64))).pendWrite 1 (.k w.a k)) (.pin g w) s := rfl
  have hpl : ∀ (k : W64) (o : BitVec 57), Core.Plain fun c => (c.pendWrite 1 (.s w.d (o.zeroExtend 64))).pendWrite 1 (.k w.a k) :=
    fun k o => (Core.plain_pendWrite 1 (.k w.a k)).comp (Core.plain_pendWrite 1 (.s w.d (o.zeroExtend 64)))
  obtain ⟨hs, hk⟩ := pin_end h.quiet.still w.d w.a ((refAddr (s.now.kReg w.a)).zeroExtend 64) (s.now.kReg w.a) s.now.cr.seed
  refine ⟨fun hn => ?_, fun hn hu => (pinOp_refused he rfl hpl (fun _ _ _ => rfl) h hsup hun hh hc (beq_iff_eq.mpr hn) hu :)⟩
  obtain ⟨u, eu, hcounted, hsReg⟩ := pinOp_counts he rfl hpl (fun _ _ _ => rfl) h hsup hun hh hc (beq_eq_false_iff_ne.mpr hn) rfl
    ((congrArg (SMap.get 0 · w.a.toNat) hk).trans (kReg_setK ..))
  exact ⟨u, eu, hcounted, (hsReg w.d).trans ((congrArg (fun m => if w.d = 0 then 0 else SMap.get 0 m w.d.toNat) hs).trans (sReg_setS ..))⟩

/-- UNPIN lowers a count that is not zero, and refuses one that is (07 R239). -/
theorem unpin_law (hc : (Instr.unpin g w).check1 = none) :
    (n ≠ 0 → ∃ u, exec (.unpin g w) s = .next u ∧ PinCounted s u w.a pa (n - 1)) ∧
    (n = 0 → s.User → Traps (.unpin g w) s 0x06 (info263 .s (refAddr (s.now.kReg w.a)).toNat 0x25 0x95 0)) := by
  have he : exec (.unpin g w) s = runSolo (pinOp 0x95 g w (fun n => n == 0) (fun n => n - 1) fun k _ c =>
      c.pendWrite 1 (.k w.a k)) (.unpin g w) s := rfl
  have hpl : ∀ (k : W64) (_ : BitVec 57), Core.Plain fun c => c.pendWrite 1 (.k w.a k) := fun k _ => Core.plain_pendWrite 1 (.k w.a k)
  have hk := unpin_end h.quiet.still w.a (s.now.kReg w.a) s.now.cr.seed
  refine ⟨fun hn => ?_, fun hn hu => (pinOp_refused he rfl hpl (fun _ _ _ => rfl) h hsup hun hh hc (beq_iff_eq.mpr hn) hu :)⟩
  obtain ⟨u, eu, hcounted, _⟩ := pinOp_counts he rfl hpl (fun _ _ _ => rfl) h hsup hun hh hc (beq_eq_false_iff_ne.mpr hn) rfl
    ((congrArg (SMap.get 0 · w.a.toNat) hk).trans (kReg_setK ..))
  exact ⟨u, eu, hcounted⟩

end Pins

/-- Settles O22: each clause is the law of its operation. -/
theorem pinsCount : Obligations.PinsCount := by
  unfold Obligations.PinsCount
  intro s g w t pa n h hsup hun hh
  exact ⟨pin_law h hsup hun hh, unpin_law h hsup hun hh⟩

end Sys2Proof.Machine

/-! ## What the copy slots issue (07 R209 to R231, log 13) -/

namespace Sys2Proof.Machine

/-! ### Tests of destinations and records -/

/-- A global destination that passes its tests over some extent is one that a collective may write. -/
theorem globalDest_none {s : State} {v : View} {a : W64} {n : Nat} {classes : List RangeClass} (hv : v.core = s.now) (hA : v.addrs.a = a)
    (hg : isGlobal a = true) (ha : s.now.Reaches a 128 n .w classes) : globalDest v = none := by
  obtain ⟨halign, hhigh, _, hrange⟩ := ha
  have hnone : s.now.Reaches a 128 0 .w classes := by
    refine ⟨halign, hhigh, fun hl => absurd (hg.symm.trans hl) (by decide), fun hg => ?_⟩
    obtain ⟨q, hq, hneed, hend, hclass⟩ := hrange hg
    exact ⟨q, hq, hneed, by omega, hclass⟩
  rw [globalDest, hA]
  exact orElse_none (Core.addrTest_none hv hnone) (if_pos hg)

/-- An aligned record inside the scratchpad passes its tests. -/
theorem recordTest_none {s : State} {v : View} {a : W64} (hv : v.core = s.now) (hA : v.addrs.a = a) (halign : a.toNat % 64 = 0)
    (hend : a.toNat + 64 ≤ s.now.spadSize) : recordTest v = none := by
  rw [recordTest, hA, hv, if_neg (fun hne => hne halign), if_neg (Nat.not_lt.mpr hend)]

section CopySlots

variable {s : State} {cs : CSlot} {g : Guard} {w : CW}
  (hk : s.now.KnotsAllow (maskKnots w.cmask w.kc0 w.kc1 w.kc2) w.kp (engineSource (s.now.engineOf cs)))
  (hroom : (s.now.copies.filter fun o => o.engine == s.now.engineOf cs).length < 64) (h : s.Issues cs.slot g none)
include hk hroom h

/-! ### Copies of bytes (07 R222, R224) -/

section Bytes

variable {n : Nat} (hn : (s.now.sReg w.c).toNat % 2 ^ 22 = n)
  (hsized : (s.now.sReg w.c).toNat < 2 ^ 22 ∧ n % 16 = 0 ∧ 16 ≤ n ∧ n ≤ 2097152)
include hn hsized

/-- CPY and CPYR of a length within its limits between operands that pass their tests; CPYR's lie in one REMOTE range alone (07 R222). -/
theorem copyBytes_queues {op : BitVec 8} {remote : Bool} {i : Instr} {x : W64} (he : exec i s = runSolo (copyBytes op remote cs g w) i s)
    (hw : i.slotWord = some (cs.slot, x)) (hc : i.check1 = none)
    (ha : s.now.Reaches (s.now.sReg w.a) 16 n .w (if remote then anyClass else localClasses))
    (hb : s.now.Reaches (s.now.sReg w.b) 16 n .r (if remote then anyClass else localClasses))
    (hone : remote = true → s.now.isRemote (s.now.sReg w.a) ≠ s.now.isRemote (s.now.sReg w.b)) :
    Completes i s (s.now.queues w (s.now.engineOf cs)
      (.move [⟨s.now.caddr (s.now.sReg w.a) .w, s.now.caddr (s.now.sReg w.b) .r, n⟩] none)) := by
  subst hn
  refine copyOp_issues he hk hroom h hw hc (fun _ _ => rfl) fun v hv hs _ haddr _ => ?_
  have hA : v.addrs.a = s.now.sReg w.a := (congrArg Addrs.a haddr).trans (hs 1 w.a)
  have hB : v.addrs.b = s.now.sReg w.b := (congrArg Addrs.b haddr).trans (hs 2 w.b)
  simp only [hA, hB, hs, lenBits_eq, View.caddr, View.isRemote, hv]
  refine ⟨?_, orElse_none (Core.addrFatal_none hv ha) (orElse_none (Core.addrFatal_none hv hb) ?_), trivial⟩
  · exact orElse_none (Core.addrTest_none hv ha) (orElse_none (Core.addrTest_none hv hb)
      (if_neg (by rw [lenOf_ok hsized]; decide)))
  · split
    · next hr => exact oneRemote_none (hone hr) _
    · rfl

/-- CFILL of a length within its limits (07 R224). -/
theorem cfill_queues (hc : (Instr.cfill cs g w).check1 = none) (ha : s.now.Reaches (s.now.sReg w.a) 16 n .w localClasses) :
    Completes (.cfill cs g w) s (s.now.queues w (s.now.engineOf cs)
      (.move [⟨s.now.caddr (s.now.sReg w.a) .w, .pattern (s.now.sReg w.b), n⟩] none)) := by
  subst hn
  refine copyOp_issues rfl hk hroom h rfl hc (fun _ _ => rfl) fun v hv hs _ haddr _ => ?_
  have hA : v.addrs.a = s.now.sReg w.a := (congrArg Addrs.a haddr).trans (hs 1 w.a)
  simp only [hA, hs, lenBits_eq, View.caddr, hv]
  exact ⟨orElse_none (Core.addrTest_none hv ha) (if_neg (by rw [lenOf_ok hsized]; decide)), Core.addrFatal_none hv ha, trivial⟩

end Bytes

/-! ### Tensors (07 R223) -/

/-- CPYT and CPYTR of handles of one known tag and one shape that pass their tests; CPYTR's lie in one REMOTE range alone. -/
theorem copyTensor_queues {op : BitVec 8} {remote : Bool} {i : Instr} {x : W64} (he : exec i s = runSolo (copyTensor op remote cs g w) i s)
    (hw : i.slotWord = some (cs.slot, x)) (hc : i.check1 = none) {d t : Handle} (hd : s.now.handle (s.now.hReg w.a) = d)
    (ht : s.now.handle (s.now.hReg w.b) = t) (hknown : s.now.tagKnown d.tag = true) (htag : t.tag = d.tag) (hext : d.SameExtents t)
    {q r : List (Int × Nat)} (hq : s.now.Holds d d.indices q .w (if remote then anyClass else localClasses))
    (hr : s.now.Holds t t.indices r .r (if remote then anyClass else localClasses))
    (hone : remote = true → s.now.handleRemote d d.indices ≠ s.now.handleRemote t t.indices) :
    Completes i s (s.now.queues w (s.now.engineOf cs)
      (.move ((q.zip r).map fun p => ⟨s.now.hrun d .w p.1.1, s.now.hrun t .r p.2.1, p.1.2⟩) none)) := by
  have ⟨_, hqruns, _⟩ := hq
  have ⟨_, hrruns, _⟩ := hr
  refine copyOp_issues he hk hroom h hw hc (fun _ _ => rfl) fun v hv _ hh haddr _ => ?_
  have hA : v.addrs.ha = s.now.hReg w.a := (congrArg Addrs.ha haddr).trans (hh 1 w.a)
  have hB : v.addrs.hb = s.now.hReg w.b := (congrArg Addrs.hb haddr).trans (hh 2 w.b)
  obtain ⟨hqtest, hqfatal⟩ := Core.handle_ok hv (opnd := 0) hq
  obtain ⟨hrtest, hrfatal⟩ := Core.handle_ok hv (opnd := 1) hr
  simp only [hA, hB, hv, hd, ht, hqruns, hrruns, Option.getD_some]
  refine ⟨?_, orElse_none hqfatal (orElse_none hrfatal ?_), trivial⟩
  · rw [hknown, if_neg (by decide), if_neg (fun hne => hne htag), if_neg (extents_same hext)]
    exact orElse_none hqtest hrtest
  · split
    · next hrem => exact oneRemote_none (hone hrem) _
    · rfl

/-! ### Gathers and scatters (07 R225, R226) -/

/-- GATH, GATHR, SCAT and SCATR of a list within its limits, a table of whole units and a contiguous operand that pass their tests. -/
theorem rowCopy_queues {op : BitVec 8} {gath remote : Bool} {i : Instr} {x y : W64} (he : exec i s = runSolo (rowCopy op gath remote cs g w) i s)
    (hw : i.slotWord = some (cs.slot, x)) (hc : i.check1 = none) (hy : s.now.sReg w.c = y) (hok : indexOk s.now y = true)
    {rows : List Nat} (hrows : ((List.range (indexCount y)).map fun k => leNat (SMap.getList 0 s.now.spad (indexList y + 4 * k) 4)) = rows)
    {t : Handle} (ht : s.now.handle (s.now.hReg (if gath then w.b else w.a)) = t)
    {flat : W64} (hflat : (if gath then s.now.sReg w.a else s.now.sReg w.b) = flat) {runs : List (Int × Nat)}
    (hknown : s.now.tagKnown t.tag = true) (hz : isZ t.tag = false) (hstep : t.stepmode < 2) (hrow : t.ext0 * t.width % 128 = 0)
    (hq : s.now.Holds t (t.rowsElems rows) runs (if gath then .r else .w) (if remote then [.remote] else localClasses))
    (hglobal : remote = true → t.global = true)
    (hf : s.now.Reaches flat 16 (indexCount y * rowBytes t) (if gath then .w else .r) localClasses) :
    Completes i s (s.now.queues w (s.now.engineOf cs) (.move (s.now.rowMoves gath t flat rows) (firstMiss t rows))) := by
  refine copyOp_issues he hk hroom h hw hc (fun _ _ => rfl) fun v hv hs hh haddr hspad => ?_
  have hA : v.addrs.a = flat := by
    rw [haddr, ← hflat]
    cases gath
    · exact hs 2 w.b
    · exact hs 1 w.a
  have hT : v.addrs.ha = s.now.hReg (if gath then w.b else w.a) := by
    rw [haddr]
    cases gath
    · exact hh 1 w.a
    · exact hh 2 w.b
  have hvalues : v.indexValues y = rows := by
    rw [← hrows]
    simp only [View.indexValues, View.spadLoad, hspad]
  have htable : ∀ opnd, (if (!s.now.tagKnown t.tag) = true ∨ isZ t.tag = true then some (trapTag v.slot t.tag opnd)
      else if 2 ≤ t.stepmode ∨ t.ext0 * t.width % 128 ≠ 0 then some (trapV causeRange v.slot 0 opnd)
      else handleTest v opnd t (t.rowsElems rows)) = none := fun opnd => by
    rw [hknown, hz, if_neg (by decide), if_neg (by omega)]
    exact (Core.handle_ok hv hq).1
  have htableFatal : (if remote = true ∧ (!t.global) = true then some (1, BitVec.ofNat 57 t.base)
      else handleFatal v t (t.rowsElems rows) (if gath then .r else .w) (if remote then [RangeClass.remote] else localClasses)) = none := by
    rw [if_neg (by rintro ⟨hrem, hl⟩; rw [hglobal hrem] at hl; exact absurd hl (by decide))]
    exact (Core.handle_ok hv (opnd := 0) hq).2
  have hflatTest : ∀ opnd, addrTest v opnd flat 16 (indexCount y * rowBytes t) = none := fun opnd => Core.addrTest_none hv hf
  have hflatFatal : addrFatal v flat (if gath then .w else .r) (indexCount y * rowBytes t) localClasses = none := Core.addrFatal_none hv hf
  simp only [hA, hT, hv, hs, hy, ht, hok, hvalues, if_true]
  refine ⟨orElse_none ?_ rfl, ?_, trivial⟩
  · split
    · exact orElse_none (hflatTest 0) (htable 1)
    · exact orElse_none (htable 0) (hflatTest 1)
  · cases gath
    · exact orElse_none htableFatal hflatFatal
    · exact orElse_none hflatFatal htableFatal

/-! ### Collectives and work records (07 R227 to R230) -/

section Collectives

variable {n : Nat} (hn : (s.now.sReg w.c).toNat % 2 ^ 22 = n) (hg : isGlobal (s.now.sReg w.a) = true)
  (hb : s.now.Reaches (s.now.sReg w.b) 128 n .r localClasses)
include hn hg hb

/-- REDC of one of its four tags and a control word within its limits, to a destination that names no group (07 R227). -/
theorem redc_queues (hc : (Instr.redc cs g w).check1 = none) {x : W64} (hx : s.now.sReg w.c = x)
    (ha : s.now.Reaches (s.now.sReg w.a) 128 n .w [.plain, .remote]) (hgroup : s.now.namesGroup (s.now.sReg w.a) = false)
    (htag : redcTag x = 0x08 ∨ redcTag x = 0x09 ∨ redcTag x = 0x06 ∨ redcTag x = 0x07) (hok : redcOk x = true) :
    Completes (.redc cs g w) s (s.now.queues w (s.now.engineOf cs)
      (.reduce (s.now.target (s.now.sReg w.a) .w) (s.now.caddr (s.now.sReg w.b) .r) (x.extractLsb' 40 2) (redcTag x) n)) := by
  subst hn hx
  have hmem : [0x08, 0x09, 0x06, 0x07].contains (redcTag (s.now.sReg w.c)).toNat = true := by
    rcases htag with e | e | e | e <;> rw [e] <;> rfl
  refine copyOp_issues rfl hk hroom h rfl hc (fun _ _ => rfl) fun v hv hs _ haddr _ => ?_
  have hA : v.addrs.a = s.now.sReg w.a := (congrArg Addrs.a haddr).trans (hs 1 w.a)
  have hB : v.addrs.b = s.now.sReg w.b := (congrArg Addrs.b haddr).trans (hs 2 w.b)
  have hdest := globalDest_none hv hA hg ha
  simp only [hA, hB, hs, lenBits_eq, View.caddr, hv]
  refine ⟨orElse_none hdest (orElse_none (Core.addrTest_none hv hb) ?_), orElse_none (Core.addrFatal_none hv ha) ?_, trivial⟩
  · rw [hmem, if_neg (by decide), if_pos hok]
  · rw [hgroup, if_neg (by decide)]
    exact Core.addrFatal_none hv hb

/-- BCST of a length within its limits to a destination that names a group (07 R228). -/
theorem bcst_queues (hc : (Instr.bcst cs g w).check1 = none)
    (hsized : (s.now.sReg w.c).toNat < 2 ^ 22 ∧ n % 16 = 0 ∧ 16 ≤ n ∧ n ≤ 2097152)
    (ha : s.now.Reaches (s.now.sReg w.a) 128 n .w [.remote]) (hgroup : s.now.namesGroup (s.now.sReg w.a) = true) :
    Completes (.bcst cs g w) s (s.now.queues w (s.now.engineOf cs)
      (.bcast (s.now.target (s.now.sReg w.a) .w) (s.now.caddr (s.now.sReg w.b) .r) n)) := by
  subst hn
  refine copyOp_issues rfl hk hroom h rfl hc (fun _ _ => rfl) fun v hv hs _ haddr _ => ?_
  have hA : v.addrs.a = s.now.sReg w.a := (congrArg Addrs.a haddr).trans (hs 1 w.a)
  have hB : v.addrs.b = s.now.sReg w.b := (congrArg Addrs.b haddr).trans (hs 2 w.b)
  have hdest := globalDest_none hv hA hg ha
  simp only [hA, hB, hs, lenBits_eq, View.caddr, hv]
  refine ⟨orElse_none hdest (orElse_none (Core.addrTest_none hv hb) (if_neg (by rw [lenOf_ok hsized]; decide))),
    orElse_none (Core.addrFatal_none hv ha) ?_, trivial⟩
  rw [if_pos hgroup]
  exact Core.addrFatal_none hv hb

end Collectives

section Records

variable (halign : (s.now.sReg w.a).toNat % 64 = 0) (hend : (s.now.sReg w.a).toNat + 64 ≤ s.now.spadSize)
include halign hend

/-- LDQ takes the item's record, or zeros without an item (07 R229). -/
theorem ldq_queues (hc : (Instr.ldq cs g w).check1 = none) :
    Completes (.ldq cs g w) s (s.now.queues w (s.now.engineOf cs)
      (.loadRecord (s.now.sReg w.a).toNat ((s.now.item.map Item.record).getD (List.replicate 64 0)))) := by
  refine copyOp_issues rfl hk hroom h rfl hc (fun _ _ => rfl) fun v hv hs _ haddr _ => ?_
  have hA : v.addrs.a = s.now.sReg w.a := (congrArg Addrs.a haddr).trans (hs 1 w.a)
  refine ⟨recordTest_none hv hA halign hend, rfl, ?_⟩
  simp only [hA, hv]
  cases s.now.item <;> rfl

/-- STQ to a stage that has a queue (07 R230). -/
theorem stq_queues (hc : (Instr.stq cs g w).check1 = none) (hcap : s.stageCap s.now (s.now.sReg w.b).toNat ≠ 0) :
    Completes (.stq cs g w) s (s.now.queues w (s.now.engineOf cs) (.push (s.now.sReg w.a).toNat (s.now.sReg w.b).toNat)) := by
  refine copyOp_issues rfl hk hroom h rfl hc (fun _ _ => rfl) fun v hv hs _ haddr _ => ?_
  have hA : v.addrs.a = s.now.sReg w.a := (congrArg Addrs.a haddr).trans (hs 1 w.a)
  simp only [hA, hs, hv]
  exact ⟨orElse_none (recordTest_none hv hA halign hend) (if_neg hcap), trivial, trivial⟩

end Records

end CopySlots

/-! ### KWAIT (07 R211, R231) -/

/-- The knot tests of an operation pass: what it reads is not FREE, and FAILED only where it is lenient; what it produces is produced by no
other operation of the bundle, and neither FAILED, but where it is lenient and waits for it, nor PENDING for another source. -/
theorem knotTest_none {c : Core} {named : List (BitVec 6)} {i : Issuing}
    (hused : ∀ n ∈ i.sem.consumes i.view, (c.knot n).state ≠ .free ∧ ((c.knot n).state = .failed → i.sem.lenient = true))
    (hmask : ∀ n ∈ i.sem.mask i.view, (c.knot n).state = .failed → i.sem.lenient = true)
    (hprod : ∀ n src, i.sem.produces i.view = some (n, src) → n ∉ named ∧
      ((c.knot n).state = .failed → i.sem.lenient = true ∧ (n ∈ i.sem.consumes i.view ∨ n ∈ i.sem.mask i.view)) ∧
      ((c.knot n).state = .pending → (c.knot n).source = src)) :
    knotTest c named i = none := by
  have hfind : (if i.sem.lenient then none else (i.sem.mask i.view).find? fun n => (c.knot n).state == .failed) = none := by
    split
    · rfl
    · next hl => exact List.find?_eq_none.mpr fun n hn he => hl (hmask n hn (beq_iff_eq.mp he))
  simp only [knotTest, hfind]
  split
  · next x hx =>
    obtain ⟨n, hn, he⟩ := List.exists_of_findSome?_eq_some hx
    obtain ⟨hfree, hfailed⟩ := hused n hn
    cases hst : (c.knot n).state with
    | free => exact absurd hst hfree
    | failed => simp [hst, hfailed hst] at he
    | pending => simp [hst] at he
    | resolved => simp [hst] at he
  · split
    · rfl
    · next n src hp =>
      obtain ⟨hnamed, hfailed, hpending⟩ := hprod n src hp
      rw [if_neg, if_neg]
      · rintro (hin | ⟨hst, hne⟩)
        · exact hnamed (List.contains_iff_mem.mp hin)
        · exact hne (hpending hst)
      · rintro ⟨hst, hno⟩
        obtain ⟨hl, hin⟩ := hfailed hst
        rw [hl, Bool.true_and, Bool.not_eq_true', Bool.or_eq_false_iff] at hno
        obtain ⟨hconsumed, hmasked⟩ := hno
        rcases hin with hin | hin
        · rw [List.contains_iff_mem.mpr hin] at hconsumed
          cases hconsumed
        · rw [List.contains_iff_mem.mpr hin] at hmasked
          cases hmasked

section Solo

variable {m : OpSem} {s : State} (hg : (s.view m).guard m.guard = true)
include hg

/-- The knot tests of a bundle of one operation are the operation's. -/
theorem checkKnots_solo (h : knotTest s.now [] (s.soloIssuing m 0) = none) : checkKnots s.now [] [s.soloIssuing m 0] = none := by
  have hperf : (s.soloIssuing m 0).perf = true := hg
  simp only [checkKnots, hperf, h, Bool.not_true, Bool.false_eq_true, if_false]

/-- One operation that enters no queue and has no wait of its own waits for nothing where no knot it waits on is PENDING. -/
theorem waitOf_solo (hqueue : m.queue (s.view m) = none) (hwait : m.wait s s.cur (s.view m) = none)
    (hpending : ∀ n ∈ m.consumes (s.view m) ++ m.mask (s.view m), (s.now.knot n).state ≠ .pending) :
    waitOf s s.cur [s.soloIssuing m 0] = none := by
  have hany : ((m.consumes (s.view m) ++ m.mask (s.view m)).any fun n => ((s.core s.cur).knot n).state == .pending) = false := by
    rw [List.any_eq_false]
    exact fun n hn he => hpending n hn (beq_iff_eq.mp he)
  have hperf : (s.soloIssuing m 0).perf = true := hg
  have hsem : (s.soloIssuing m 0).sem = m := rfl
  have hview : (s.soloIssuing m 0).view = s.view m := rfl
  simp only [waitOf, List.filterMap_cons, List.filterMap_nil, hperf, hsem, hview, hqueue, hwait, hany]
  rfl

end Solo

/-- The core after a bundle that changed its knots alone. -/
theorem Core.agrees_joined {c d : Core} (h : c.Still) (hd : d = { c with kn := d.kn }) :
    ({ d.endBundle c.cr.seed with repLeft := none, pc := c.pc + 12 } : Core).Agrees d.after := by
  have hknots := Core.agrees_knots h d.kn
  rwa [← hd] at hknots

section Kwait

variable {s : State} {cs : CSlot} {g : Guard} {w : CW} {used : List (BitVec 6)} (hu : used = maskKnots w.cmask w.kc0 w.kc1 w.kc2)
  (h : s.Issues cs.slot g none)
  (hused : ∀ n, n ∈ used → (s.now.knot n).state = .resolved ∨ w.step.getLsbD 0 = true ∧ (s.now.knot n).state = .failed)
  (hmask : ∀ n : BitVec 6, (s.now.sReg w.a).getLsbD n.toNat = true →
    (s.now.knot n).state ≠ .pending ∧ (w.step.getLsbD 0 = true ∨ (s.now.knot n).state ≠ .failed))
  (hfailed : (s.now.knot w.kp).state = .failed →
    w.step.getLsbD 0 = true ∧ (w.kp ∈ used ∨ (s.now.sReg w.a).getLsbD w.kp.toNat = true))
  (hpending : (s.now.knot w.kp).state = .pending → (s.now.knot w.kp).source = engineSource (s.now.engineOf cs))
include hu h hused hmask hfailed hpending

/-- KWAIT performs where the knots that it waits for are done, and FAILED only with CLR. -/
theorem kwait_performs : (semKwait cs g w).Performs s := by
  have hissue : s.Issues (semKwait cs g w).slot (semKwait cs g w).guard (semKwait cs g w).timing := h
  have hA : (s.view (semKwait cs g w)).s 1 w.a = s.now.sReg w.a := View.s_quiet (v := s.view _) h.quiet 1 w.a
  have hmem : ∀ n, n ∈ (semKwait cs g w).mask (s.view (semKwait cs g w)) ↔ (s.now.sReg w.a).getLsbD n.toNat = true := fun n => by
    rw [← mem_maskOf, ← hA]
    rfl
  subst hu
  refine ⟨h.quiet, hissue.admitted (.inr rfl) rfl, hissue.guarded, rfl, rfl, rfl, ?_, rfl, ?_, rfl⟩
  · refine checkKnots_solo hissue.guarded (knotTest_none (fun n hn => ?_) (fun n hn hst => ?_) fun n src e => ?_)
    · rcases hused n hn with hst | ⟨hclr, hst⟩
      · exact ⟨by rw [hst]; decide, fun e => absurd (hst.symm.trans e) (by decide)⟩
      · exact ⟨by rw [hst]; decide, fun _ => hclr⟩
    · exact (hmask n ((hmem n).mp hn)).2.resolve_right fun hne => hne hst
    · cases e
      refine ⟨List.not_mem_nil, fun hst => ?_, hpending⟩
      obtain ⟨hclr, hin⟩ := hfailed hst
      exact ⟨hclr, hin.imp id (hmem w.kp).mpr⟩
  · refine waitOf_solo hissue.guarded rfl rfl fun n hn => ?_
    rcases List.mem_append.mp hn with hn | hn
    · rcases hused n hn with hst | ⟨_, hst⟩ <;> rw [hst] <;> decide
    · exact (hmask n ((hmem n).mp hn)).1

/-- KWAIT joins the knots that it waits for: its own resolves when its earlier issues are done, and with CLR the others are FREE. -/
theorem kwait_joins (hc : (Instr.kwait cs g w).check1 = none) :
    ∃ d : Core, Completes (.kwait cs g w) s d.after ∧ d = { s.now with kn := d.kn } ∧ ∀ n, d.knot n =
      if n = w.kp then
        if (s.now.knot w.kp).count = 0 then
          { source := engineSource (s.now.engineOf cs), state := if (s.now.knot w.kp).failedOne then .failed else .resolved, count := 0, failedOne := false }
        else { source := engineSource (s.now.engineOf cs), state := .pending, count := (s.now.knot w.kp).count, failedOne := (s.now.knot w.kp).failedOne }
      else if w.step.getLsbD 0 = true ∧ (n ∈ used ∨ (s.now.sReg w.a).getLsbD n.toNat = true) then { s.now.knot n with source := 0, state := .free }
      else s.now.knot n := by
  have hp := kwait_performs hu h hused hmask hfailed hpending
  have hA : (s.view (semKwait cs g w)).s 1 w.a = s.now.sReg w.a := View.s_quiet (v := s.view _) h.quiet 1 w.a
  obtain ⟨hd, hknots⟩ := kwaitCore_spec (w.step.getLsbD 0) (used ++ maskOf (s.now.sReg w.a)) w.kp (engineSource (s.now.engineOf cs)) s.now
  have hhooks : ∀ c : Core, (kwaitCore (w.step.getLsbD 0) (used ++ maskOf (s.now.sReg w.a)) w.kp
      (c.produceKnot w.kp (engineSource (s.now.engineOf cs)))).hooks = c.hooks := fun c => (congrArg Core.hooks (kwaitCore_spec ..).1 :)
  have hcycle : ∀ c : Core, (kwaitCore (w.step.getLsbD 0) (used ++ maskOf (s.now.sReg w.a)) w.kp
      (c.produceKnot w.kp (engineSource (s.now.engineOf cs)))).cycle = c.cycle := fun c => (congrArg Core.cycle (kwaitCore_spec ..).1 :)
  refine ⟨_, ?_, hd, fun n => ?_⟩
  · obtain ⟨t, e, hf⟩ := runSolo_coreF (i := .kwait cs g w) hp rfl hc (nx := none) (sd := s.now.cr.seed)
      (F := fun u => (u.modCore s.cur fun c => c.produceKnot w.kp (engineSource (s.now.engineOf cs))).modCore s.cur
        (kwaitCore (w.step.getLsbD 0) (used ++ maskOf (s.now.sReg w.a)) w.kp))
      (Core.Plain.comp (Core.plain_kwait _ _ _) (Core.plain_produceKnot w.kp _)) hhooks hcycle
      (fun u _ => ⟨by rw [State.core_modCore, State.core_modCore],
        fun k hk => by rw [State.core_modCore_ne _ _ hk, State.core_modCore_ne _ _ hk], rfl⟩) fun u _ => by
        rw [← hA, hu]
        rfl
    exact ⟨t, e, hf.of_core (Core.agrees_joined h.quiet.still hd)⟩
  · simp only [hknots n, List.mem_append, mem_maskOf]

end Kwait

/-- The limits of an index descriptor, one by one (07 R225). -/
theorem indexOk_of {c : Core} {x : W64} (hhigh : x.extractLsb' 48 16 = 0) (hmid : x.extractLsb' 21 11 = 0) (h1 : 1 ≤ indexCount x)
    (h4096 : indexCount x ≤ 4096) (halign : indexList x % 16 = 0) (hend : indexList x + 4 * indexCount x ≤ c.spadSize) : indexOk c x = true := by
  simp only [indexOk, hhigh, hmid, h1, h4096, halign, hend, decide_true, beq_self_eq_true, Bool.and_self]

/-- The limits of a REDC's control word, one by one (07 R227). -/
theorem redcOk_of {x : W64} {n : Nat} (hn : x.toNat % 2 ^ 22 = n) (hop : x.extractLsb' 40 2 ≠ 3) (hhigh : x.extractLsb' 42 22 = 0)
    (hmid : x.extractLsb' 38 2 = 0) (hlow : x.extractLsb' 22 10 = 0) (halign : n % 128 = 0) (h1 : 1 ≤ n) (hmax : n ≤ 2097152) :
    redcOk x = true := by
  simp only [redcOk, lenBits_eq, hn, hhigh, hmid, hlow, bne_iff_ne.mpr hop, halign, h1, hmax, decide_true, beq_self_eq_true, Bool.and_self]

/-- Settles O39: each clause is the law of its operation; of the row copies, by direction and class. -/
theorem copyIssues : Obligations.CopyIssues := by
  unfold Obligations.CopyIssues
  intro s cs g w c e used
  refine ⟨fun hk hroom => ?_, fun h hc hused hmask hfailed hpending => kwait_joins rfl h hused hmask hfailed hpending hc⟩
  intro queues a b x n here anywhere sized
  refine ⟨fun hs ha hb h hc => copyBytes_queues (remote := false) hk hroom h rfl hs rfl rfl hc ha hb nofun,
    fun hs ha hb hone h hc => copyBytes_queues (remote := true) hk hroom h rfl hs rfl rfl hc ha hb fun _ => hone,
    fun hs ha h hc => cfill_queues hk hroom h rfl hs hc ha, ?tensors, ?rows, ?redc,
    fun hs hg ha hgroup hb h hc => bcst_queues hk hroom h rfl hg hb hc hs ha hgroup,
    fun halign hend h hc => ldq_queues hk hroom h halign hend hc, fun halign hend hcap h hc => stq_queues hk hroom h halign hend hc hcap⟩
  case tensors =>
    intro d t move q r hknown htag hext
    exact ⟨fun hq hr h hc => copyTensor_queues (remote := false) hk hroom h rfl rfl hc rfl rfl hknown htag hext hq hr nofun,
      fun hq hr hone h hc => copyTensor_queues (remote := true) hk hroom h rfl rfl hc rfl rfl hknown htag hext hq hr fun _ => hone⟩
  case rows =>
    intro hhigh hmid list count h1 h4096 halign hend rows i gath remote hi t flat runs hknown hz hstep hrow hq hglobal hf h hc
    have hok : indexOk c x = true := indexOk_of hhigh hmid h1 h4096 halign hend
    simp only [List.mem_cons, List.not_mem_nil, or_false, Prod.mk.injEq] at hi
    obtain ⟨rfl, rfl, rfl⟩ | ⟨rfl, rfl, rfl⟩ | ⟨rfl, rfl, rfl⟩ | ⟨rfl, rfl, rfl⟩ := hi
    · exact rowCopy_queues (gath := true) (remote := false) hk hroom h rfl rfl hc rfl hok rfl rfl rfl hknown hz hstep hrow hq hglobal hf
    · exact rowCopy_queues (gath := true) (remote := true) hk hroom h rfl rfl hc rfl hok rfl rfl rfl hknown hz hstep hrow hq hglobal hf
    · exact rowCopy_queues (gath := false) (remote := false) hk hroom h rfl rfl hc rfl hok rfl rfl rfl hknown hz hstep hrow hq hglobal hf
    · exact rowCopy_queues (gath := false) (remote := true) hk hroom h rfl rfl hc rfl hok rfl rfl rfl hknown hz hstep hrow hq hglobal hf
  case redc =>
    intro op tag hg ha hgroup hb htag hop hhigh hmid hlow halign h1 hmax h hc
    exact redc_queues hk hroom h rfl hg hb hc rfl ha hgroup htag (redcOk_of rfl hop hhigh hmid hlow halign h1 hmax)

end Sys2Proof.Machine

/-! ## The scale-out engine (07 R228, R233, 14 R363, 18 R450 to R459) -/

namespace Sys2Proof.Machine

section LinkEvents

variable {s t : State} {port : Nat} {m : Msg}

/-! ### Ports (18 R451, R454) -/

/-- PCS_LOCK of a port that is neither locked nor down: it locks and sends INIT. -/
theorem exec_pcsLock (hp : port < 18) (hl : (s.link.port port).locked = false) (hd : (s.link.port port).down = false) :
    exec (.pcsLock port) s = .next { s with
      link := s.link.setPort port { s.link.port port with locked := true, control := some (s.link.initUnit port) } } := by
  change execPcsLock port s = _
  simp only [execPcsLock, hl, hd, show ¬17 < port by omega, Bool.false_eq_true, or_self, if_false, offered]

section Retrain

variable (hp : port < 18) (hd : (s.link.port port).down = true)
include hp hd

/-- RETRAIN_ATTEMPT that succeeds: the port locks anew and sends INIT, and the wear log counts it. -/
theorem exec_retrainAttempt_ok :
    let u := s.until ((s.link.port port).since + 1000000)
    exec (.retrainAttempt port true) s = .next { u.wearAdd (wearPort port) 4 1 with
      link := u.link.setPort port { locked := true, since := u.time, control := some (u.link.initUnit port) } } := by
  change execRetrainAttempt port true s = _
  simp only [execRetrainAttempt, hd, show ¬17 < port by omega, Bool.not_true, Bool.false_eq_true, or_self, if_false, if_true, offered]
  rfl

/-- RETRAIN_ATTEMPT that fails: the port waits for the next one. -/
theorem exec_retrainAttempt_fails :
    let u := s.until ((s.link.port port).since + 1000000)
    exec (.retrainAttempt port false) s = .next { u with link := u.link.setPort port { s.link.port port with since := u.time } } := by
  change execRetrainAttempt port false s = _
  simp only [execRetrainAttempt, hd, show ¬17 < port by omega, Bool.not_true, Bool.false_eq_true, or_self, if_false, offered]

end Retrain

/-! ### Requests that are refused (14 R363, 18 R453, R459) -/

/-- READ from a sender that is not admitted is answered with ERROR 1. -/
theorem exec_read_refused (ht : s.takeMessage mtRead = some (port, m, t)) (ha : t.admits m = false) :
    exec .read s = .next (t.answerError m 1) := by
  change execRead s = _
  simp only [execRead, State.farRequest, ht, ha, Bool.not_false, if_true, offered]

/-- WRITE of a fenced member is dropped and logged (log 21). -/
theorem exec_write_fenced (ht : s.takeMessage mtWrite = some (port, m, t)) (hf : s.link.fencedWriter m = true) :
    exec .write s = .next (t.logFenced m.src.toNat) := by
  change execWrite s = _
  simp only [execWrite, State.unlessFenced, ht, hf, if_true]

/-! ### Heartbeats and probes (18 R452, R453, R458) -/

/-- HEARTBEAT restarts the timer of its sender in its group. -/
theorem exec_heartbeat (ht : s.takeMessage mtHeartbeat = some (port, m, t)) :
    exec .heartbeat s = .next { t with link := { t.link with
      heard := SMap.set 0 t.link.heard (2 ^ 20 * m.dst.toNat + m.src.toNat) t.time } } := by
  change execHeartbeat s = _
  simp only [execHeartbeat, ht, Option.map_some, offered]

/-- PROBE is answered with PROBEACK. -/
theorem exec_probeMessage (ht : s.takeMessage mtProbe = some (port, m, t)) :
    exec .probeMessage s = .next (t.answer m fun r => { r with mtype := mtProbeack }) := by
  change execProbeMessage s = _
  simp only [execProbeMessage, ht, Option.map_some, offered]

/-- PROBEACK makes its sender reachable again. -/
theorem exec_probeack (ht : s.takeMessage mtProbeack = some (port, m, t)) :
    exec .probeack s = .next { t with link := { t.link with unreachable := t.link.unreachable.filter (· ≠ m.src) } } := by
  change execProbeack s = _
  simp only [execProbeack, ht, Option.map_some, offered]

section Intervals

variable {id : BitVec 20} (hid : s.link.devId = some id)
include hid

/-- HEARTBEAT_INTERVAL sends a heartbeat to each group that lists the package. -/
theorem exec_heartbeatInterval :
    exec .heartbeatInterval s = .next { s with
      link := (s.link.groups.filter fun g => g.2.contains id.toNat).foldl
        (fun k g => k.multicast (plainMsg mtHeartbeat id (BitVec.ofNat 20 g.1))) s.link } := by
  change execHeartbeatInterval s = _
  simp only [execHeartbeatInterval, hid, Option.map_some, offered]

/-- PROBE_INTERVAL sends a probe to each unreachable peer. -/
theorem exec_probeInterval :
    exec .probeInterval s = .next { s with
      link := s.link.unreachable.foldl (fun k p => (k.send engineFlow (plainMsg mtProbe id p)).getD k) s.link } := by
  change execProbeInterval s = _
  simp only [execProbeInterval, hid, Option.map_some, offered]

end Intervals

/-! ### Timeouts (18 R450, R452) -/

/-- PEER_UNREACHABLE of a peer with requests outstanding: it is lost 200 us after its oldest request or its last answer. -/
theorem exec_peerUnreachable {peer : Nat} {r : Req} {l : List Req} (hp : peer < 2 ^ 20)
    (hr : (s.link.reqs.filter fun r => r.peer == BitVec.ofNat 20 peer) = r :: l)
    (hu : s.link.unreachable.contains (BitVec.ofNat 20 peer) = false) :
    exec (.peerUnreachable peer) s = .next ((s.until (max (l.foldl (fun t q => min t q.sent) r.sent)
      (SMap.get 0 s.link.answered peer) + 200000)).losePeer (BitVec.ofNat 20 peer)) := by
  change execPeerUnreachable peer s = _
  simp only [execPeerUnreachable, hr, hu, Nat.not_le.mpr hp, Bool.false_eq_true, or_self, if_false, offered]

end LinkEvents

/-- Settles O59: each clause is the law of its event. -/
theorem linkEvents : Obligations.LinkEvents := by
  unfold Obligations.LinkEvents
  intro s k
  refine ⟨fun port => exec_pcsLock, fun port f => flit_all s port f, fun port u rest => control_all s port u rest,
    fun port m t => ⟨?refusals, fun ps u => far_all s port m t ps u⟩, fun m r t => response_all s m r t,
    fun port m t => ⟨exec_heartbeat, exec_probeMessage, exec_probeack⟩,
    fun id hid => ⟨exec_heartbeatInterval hid, exec_probeInterval hid⟩, fun port => portDown_alone s port,
    fun port hp hd => ⟨exec_retrainAttempt_ok hp hd, exec_retrainAttempt_fails hp hd⟩, fun peer r l => exec_peerUnreachable,
    fun group peer => fenced_alone s group peer⟩
  case refusals =>
    intro mt ht ha
    exact ⟨fun e => exec_read_refused (e ▸ ht) ha, fun e hf => exec_write_fenced (e ▸ ht) hf⟩

end Sys2Proof.Machine

/-! ## The requests of a driver's tools and of a debugger (10 R308 to R312, 13 R348, 18 R441) -/

namespace Sys2Proof.Machine

section DebugRequests

variable {s t : State} {mb : Nat} {asid : BitVec 16}

/-! ### Region breakpoints (10 R310) -/

section Regionbp

variable (hs : s.Serves 0x21 mb)
include hs

theorem regionbp_notPermitted (hd : s.debugLevel mb < 2) : Answers .regionbp s mb 0x21 [] s := by
  change execRegionbp s = _
  refine serveRequest_answer hs ?_
  rw [if_pos hd]
  rfl

/-- REGIONBP at D2, of a register that exists, with its reserved bits 0, over any context or over one of the partition. -/
theorem regionbp_writes (hd : 2 ≤ s.debugLevel mb) (hdie : (s.operand mb 1).toNat < 4) (hsite : (s.operand mb 2).toNat < 144)
    (hreg : (s.operand mb 3).toNat < 4) (hres : (s.operand mb 4).extractLsb' 18 30 = 0)
    (hctx : (s.operand mb 4).extractLsb' 48 16 = 0 ∨ s.ctxPart ((s.operand mb 4).extractLsb' 48 16) = mb) :
    Answers .regionbp s mb 0 [] (s.modCore (144 * (s.operand mb 1).toNat + (s.operand mb 2).toNat) fun c =>
      { c with hooks := { c.hooks with regionBp := SMap.set 0 c.hooks.regionBp (s.operand mb 3).toNat (s.operand mb 4) } }) := by
  have hgood : ¬(3 < (s.operand mb 1).toNat ∨ 143 < (s.operand mb 2).toNat ∨ 3 < (s.operand mb 3).toNat ∨
      (s.operand mb 4).extractLsb' 18 30 ≠ 0) := by
    rintro (h | h | h | h)
    · omega
    · omega
    · omega
    · exact h hres
  have hown : ¬((s.operand mb 4).extractLsb' 48 16 ≠ 0 ∧ s.ctxPart ((s.operand mb 4).extractLsb' 48 16) ≠ mb) :=
    fun ⟨h0, hp⟩ => hctx.elim h0 hp
  change execRegionbp s = _
  refine serveRequest_answer hs ?_
  rw [if_neg (Nat.not_lt.mpr hd), if_neg hgood, if_neg hown]
  rfl

end Regionbp

/-! ### Halts (10 R308, R309) -/

section Halts

variable (hs : s.Serves 0x22 mb) (ha : s.ownContext mb (s.operand mb 1) = .ok asid)
include hs ha

theorem halt_notPermitted (hd : s.debugLevel mb < 2) (hn : s.operand mb 2 = 0) : Answers .halt s mb 0x21 [] s := by
  change execHalt s = _
  refine (halt_request hs (by rw [hn]; rfl) (by rw [hn]; decide) ha).trans ?_
  rw [if_pos hd]

variable (hd : 2 ≤ s.debugLevel mb)
include hd

/-- HALT's request at D2: each core named changes as the mode says, all of them at the time of the request. -/
theorem haltRequest_named {n : W64} {mode : W64 → Bool} {f : Core → Nat → Core} (hn : s.operand mb 2 = n) (hm : mode n = true)
    (h3 : n.toNat ≤ 3) : s.haltRequest mode f = .next
      (((s.maskedCores asid (s.operand mb 3)).foldl (fun u k => u.modCore k fun c => f c s.time) s).respond mb 0 []) := by
  rw [halt_request hs (hn ▸ hm) (hn ▸ h3) ha, if_neg (Nat.not_lt.mpr hd), foldl_now f s.time _ s rfl]

theorem halt_requests (hn : s.operand mb 2 = 0) : Answers .halt s mb 0 [] ((s.maskedCores asid (s.operand mb 3)).foldl
    (fun u k => u.modCore k fun c => { c with hooks := { c.hooks with haltRequest := true } }) s) := by
  change execHalt s = _
  exact haltRequest_named hs ha hd hn rfl (by decide)

theorem continueRun_unhalts (hn : s.operand mb 2 = 1) : Answers .continueRun s mb 0 []
    ((s.maskedCores asid (s.operand mb 3)).foldl (fun u k => u.modCore k fun c => c.unhalt s.time) s) := by
  change execContinueRun s = _
  exact haltRequest_named hs ha hd hn rfl (by decide)

theorem stepToEdge_unhalts (hn : s.operand mb 2 = 2) : Answers .stepToEdge s mb 0 [] ((s.maskedCores asid (s.operand mb 3)).foldl
    (fun u k => u.modCore k fun c =>
      if c.cr.halt then { c.unhalt s.time with hooks := { c.hooks with haltRequest := true } } else c) s) := by
  change execStepToEdge s = _
  exact haltRequest_named hs ha hd hn rfl (by decide)

theorem stepBundle_unhalts (hn : s.operand mb 2 = 3) : Answers .stepBundle s mb 0 [] ((s.maskedCores asid (s.operand mb 3)).foldl
    (fun u k => u.modCore k fun c =>
      if c.cr.halt then { c.unhalt s.time with hooks := { c.hooks with stepBundle := true } } else c) s) := by
  change execStepBundle s = _
  exact haltRequest_named hs ha hd hn rfl (by decide)

end Halts

/-! ### Patches (10 R311, R312) -/

section Patches

variable (hs : s.Serves 0x23 mb) (h0 : (s.mailbox mb).phase ≠ 1) (hd : 2 ≤ s.debugLevel mb) (h4 : (s.operand mb 2).toNat % 4 = 0)
  (h57 : (s.operand mb 2).toNat < 2 ^ 57) (ha : s.ownContext mb (s.operand mb 1) = .ok asid) (hp : s.partCores mb ≠ [])
include hs h0 hd h4 h57 ha hp

/-- PATCH_SET patches the header and waits for the acknowledgements. -/
theorem exec_patchSet (hw : s.operand mb 3 = 0) (ht : s.patchHeader mb asid (s.operand mb 2).toNat true = some t) :
    exec .patchSet s = .next (t.setPhase mb 1) := by
  change execPatchSet s = _
  exact patch_request hs (by rw [hw]; rfl) h0 hd h4 h57 (by rw [hw]; decide) ha hp ht

/-- PATCH_CLEAR restores the header and waits for the acknowledgements. -/
theorem exec_patchClear (hw : s.operand mb 3 = 1) (ht : s.patchHeader mb asid (s.operand mb 2).toNat false = some t) :
    exec .patchClear s = .next (t.setPhase mb 1) := by
  change execPatchClear s = _
  exact patch_request hs (by rw [hw]; rfl) h0 hd h4 h57 (by rw [hw]; decide) ha hp ht

end Patches

/-! ### LOGREAD (18 R441) -/

section Logread

variable (hs : s.Serves 0x28 mb)
include hs

theorem logread_none
    (hr : (s.findRecord (s.operand mb 1).toNat fun n => s.memNat (s.recordAt n + 0x13) 1 % 32 == functionOf mb) = none) :
    Answers .logread s mb 0 [BitVec.ofNat 64 (2 ^ 63 + s.logSeq)] s := by
  change execLogread s = _
  refine serveRequest_answer hs ?_
  simp only [hr]
  rfl

theorem logread_some {n : Nat}
    (hr : (s.findRecord (s.operand mb 1).toNat fun n => s.memNat (s.recordAt n + 0x13) 1 % 32 == functionOf mb) = some n) :
    Answers .logread s mb 0 [BitVec.ofNat 64 n] (s.hostWrite (s.operand mb 2).toNat (s.memBytes (s.recordAt n) 64)) := by
  change execLogread s = _
  refine serveRequest_answer hs ?_
  simp only [hr]
  rfl

end Logread

end DebugRequests

/-- Settles O56: each clause is the law of its request. -/
theorem debugRequests : Obligations.DebugRequests := by
  unfold Obligations.DebugRequests
  intro s mb
  exact ⟨fun hs hpkt hdie hmask asid ha => capture_answers s mb asid hs hpkt hdie hmask ha,
    fun hs hdie hsite hreg hres => ⟨regionbp_notPermitted hs, fun hd => regionbp_writes hs hd hdie hsite hreg hres⟩,
    fun asid hs ha => ⟨halt_notPermitted hs ha, fun hd => ⟨halt_requests hs ha hd, continueRun_unhalts hs ha hd,
      stepToEdge_unhalts hs ha hd, stepBundle_unhalts hs ha hd⟩⟩,
    fun asid t hs h0 hd h4 h57 ha hp => ⟨exec_patchSet hs h0 hd h4 h57 ha hp, exec_patchClear hs h0 hd h4 h57 ha hp⟩,
    fun hs => ⟨logread_none hs, fun n => logread_some hs⟩⟩

end Sys2Proof.Machine

/-! ## Queue slots (13 R343, R344) -/

namespace Sys2Proof.Machine

/-- The command of a supervisor that acts on the machine beside its cores by `f`: it performs, and what it leaves is `f` of the charged
state but for the cores, of which its own is one bundle later (08 R268). -/
theorem command_aside {s : State} {m : OpSem} {op : BitVec 8} {g : Guard} {runs : Nat → Core → Bool} {rd : List (BitVec 6)} {i : Instr}
    {x : W64} {f : State → State} (h : s.Issues .s g none)
    (hm : m = { command op g runs rd with check5 := m.check5, fatal := m.fatal, wait := m.wait, perform := m.perform })
    (hsys : s.now.cr.sys = true) (hr : runs s.cur s.now = true) (h5 : m.check5 s s.cur (s.view m) = none)
    (hf : m.fatal s s.cur (s.view m) = none) (hwait : m.wait s s.cur (s.view m) = none) (hw : i.slotWord = some (m.slot, x))
    (hc : i.check1 = none) (hp : ∀ a : Acc, m.perform s.cur (s.view m) a = { a with st := f a.st })
    (hcores : ∀ u, (f u).cores = u.cores) :
    ∃ u t, s.Charged u ∧ runSolo m i s = .next t ∧ t = { f u with cores := t.cores } ∧
      (t.core s.cur).Agrees s.now.after ∧ ∀ k, k ≠ s.cur → t.core k = s.core k := by
  obtain ⟨u, hu, hrun⟩ := runSolo_performs (command_performs h hm hsys hr h5 hf hwait) hw hc
  rw [command_begun hm, hp] at hrun
  exact ⟨u, _, hu, hrun, State.rest_close .., State.close_cores h.quiet hu (hcores u) rfl rfl⟩

/-! ### What the commands read and write -/

section QueueSlots

variable {s u : State} {n a : Nat}

theorem State.Charged.slot (hu : s.Charged u) (n : Nat) : u.slot n = s.slot n := by rw [hu.rest]; rfl

theorem State.Charged.pendingQ (hu : s.Charged u) : u.pendingQ = s.pendingQ := by rw [hu.rest]

/-- A control block that memory holds alike is loaded alike. -/
theorem State.SameMaps.qcbAt (h : s.SameMaps u) (a : Nat) : u.qcbAt a = s.qcbAt a := by simp only [State.qcbAt, h.memNat]

theorem slot_setSlot_ne (q : QSlot) {m : Nat} (h : m ≠ n) : (s.setSlot n q).slot m = s.slot m := by
  unfold State.slot State.setSlot
  rw [SMap.get_set, if_neg h]

theorem slotOfQueue_none {qid : Nat} (h : ∀ m, m < 64 → ¬((s.slot m).state = .bound ∧ (s.slot m).qid = qid)) : s.slotOfQueue qid = none :=
  findBelow_none fun m hm => decide_eq_false (h m hm)

theorem systemFatal_none (h : s.systemRun a n = true) : s.systemFatal a n = none := by rw [State.systemFatal, if_pos h]

theorem rangeUnless_true {op : BitVec 8} {x : W64} {ok : Bool} (h : ok = true) : rangeUnless op x ok = none := by rw [rangeUnless, if_pos h]

/-- The fields of a queue control block: offset, bytes and value (13 R343). -/
def QSlot.qcbFields (q : QSlot) : List (Nat × Nat × Nat) :=
  [(0, 8, q.ringBase), (8, 1, q.ringLog), (9, 1, q.prio), (0x0A, 1, q.effPrio), (0x0B, 1, q.part), (0x0C, 2, q.asid.toNat),
    (0x0E, 2, q.qid), (0x10, 8, q.rdidx), (0x18, 8, q.wridx), (0x20, 4, q.wdog), (0x24, 4, q.ageInt), (0x28, 4, q.age)]

theorem QSlot.length_qcb (q : QSlot) : q.qcb.length = 256 := by simp only [QSlot.qcb, List.length_append, length_leBytes]

theorem QSlot.qcbFields_fit {q : QSlot} {off len v : Nat} (h : (off, len, v) ∈ q.qcbFields) : off + len ≤ 256 := by
  have hall : ∀ f ∈ q.qcbFields, f.1 + f.2.1 ≤ 256 := by simp [QSlot.qcbFields]
  exact hall _ h

/-- Each field of the block lies at its offset, little-endian. -/
theorem QSlot.getD_qcb {q : QSlot} {off len v i : Nat} (h : (off, len, v) ∈ q.qcbFields) (hi : i < len) :
    q.qcb.getD (off + i) 0 = BitVec.ofNat 8 (v / 2 ^ (8 * i)) := by
  simp only [QSlot.qcbFields, List.mem_cons, Prod.mk.injEq, List.not_mem_nil, or_false] at h
  simp only [QSlot.qcb, List.append_assoc]
  rcases h with ⟨rfl, rfl, rfl⟩ | ⟨rfl, rfl, rfl⟩ | ⟨rfl, rfl, rfl⟩ | ⟨rfl, rfl, rfl⟩ | ⟨rfl, rfl, rfl⟩ | ⟨rfl, rfl, rfl⟩ | ⟨rfl, rfl, rfl⟩ |
    ⟨rfl, rfl, rfl⟩ | ⟨rfl, rfl, rfl⟩ | ⟨rfl, rfl, rfl⟩ | ⟨rfl, rfl, rfl⟩ | ⟨rfl, rfl, rfl⟩ <;>
  simp (disch := omega) only [getD_step, getD_field, Nat.reduceSub]

section Qsave

theorem State.cores_qsave : (s.qsave n a).cores = s.cores := by
  obtain ⟨ps, hps⟩ := State.sendAll_eq (s.memWrite a (s.slot n).qcb) none a 256
  simp only [State.qsave, hps]
  rfl

/-- QSAVE writes the 256 bytes of the control block. -/
theorem State.memByte_qsave (x : Nat) :
    (s.qsave n a).memByte x = if a ≤ x ∧ x < a + 256 then (s.slot n).qcb.getD (x - a) 0 else s.memByte x := by
  obtain ⟨ps, hps⟩ := State.sendAll_eq (s.memWrite a (s.slot n).qcb) none a 256
  have hmem : (s.qsave n a).memByte x = (s.memWrite a (s.slot n).qcb).memByte x := by
    simp only [State.qsave, hps]
    rfl
  rw [hmem, State.memByte_memWrite, QSlot.length_qcb]

theorem State.slot_qsave (m : Nat) : (s.qsave n a).slot m = if m = n then {} else s.slot m := by
  obtain ⟨ps, hps⟩ := State.sendAll_eq (s.memWrite a (s.slot n).qcb) none a 256
  have hslot : (s.qsave n a).slot m = (s.setSlot n {}).slot m := by
    simp only [State.qsave, hps]
    rfl
  rw [hslot]
  split
  · next h => exact h ▸ slot_setSlot s n {}
  · next h => exact slot_setSlot_ne {} h

/-- The queue of a saved slot is pending where it has packets left. -/
theorem State.pendingQ_qsave (q : Nat) : SMap.get false (s.qsave n a).pendingQ q =
    (SMap.get false s.pendingQ q || q == (s.slot n).qid && decide ((s.slot n).rdidx < (s.slot n).wridx)) := by
  obtain ⟨ps, hps⟩ := State.sendAll_eq (s.memWrite a (s.slot n).qcb) none a 256
  have hpend : (s.qsave n a).pendingQ =
      if (s.slot n).rdidx < (s.slot n).wridx then SMap.set false s.pendingQ (s.slot n).qid true else s.pendingQ := by
    simp only [State.qsave, hps]
    rfl
  rw [hpend]
  split
  · next h =>
    rw [SMap.get_set, decide_eq_true h, Bool.and_true]
    split
    · next e => rw [e, beq_self_eq_true, Bool.or_true]
    · next e => rw [beq_eq_false_iff_ne.mpr e, Bool.or_false]
  · next h => rw [decide_eq_false h, Bool.and_false, Bool.or_false]

end Qsave

end QueueSlots

/-! ### The commands -/

/-- What a command on a slot leaves: its core one bundle later, and the other cores and slots as they were. -/
def LeavesOthers (s t : State) (n : Nat) : Prop :=
  (t.core s.cur).Agrees s.now.after ∧ (∀ k, k ≠ s.cur → t.core k = s.core k) ∧ ∀ m, m ≠ n → t.slot m = s.slot m

section QueueCommands

variable {s : State} {g : Guard} {w : SR} {die a n : Nat} (h : s.Issues .s g none) (hsv : s.Supervises die)
  (ea : (s.now.sReg w.a).toNat = a) (en : (s.now.sReg w.b).toNat = n)
include h hsv ea en

/-- QLOAD of a valid control block whose queue no slot holds. -/
theorem qload_loads (hun : s.Unaccounted) (hc : (Instr.qload g w).check1 = none) (hn : n < 64) (ha : a < 2 ^ 52) (h128 : a % 128 = 0)
    (hfree : (s.slot n).state = .unbound) (hrun : s.systemRun a 256 = true) (hok : s.qcbOk a = true)
    (hnone : s.slotOfQueue (s.memNat (a + 0x0E) 2) = none) :
    ∃ t, exec (.qload g w) s = .next t ∧ LeavesOthers s t n ∧ t.mem = s.mem ∧ t.slot n = s.qcbAt a := by
  obtain ⟨_, _, hsup, hsys⟩ := hsv
  have h5 : (semQload g w).check5 s s.cur (s.view (semQload g w)) = none := rangeUnless_true (by
    simp only [State.view_s h.quiet, ea, en, slotAddrOk, hn, ha, h128, hfree, hrun, hok, hnone]
    rfl)
  have hfatal : (semQload g w).fatal s s.cur (s.view (semQload g w)) = none :=
    systemFatal_none (by rw [State.view_s h.quiet, ea]; exact hrun)
  obtain ⟨u, t, hu, hrun', ht, hnow, hothers⟩ := command_aside (m := semQload g w) (i := .qload g w)
    (f := fun u => u.setSlot n (u.qcbAt a)) h rfl hsys hsup h5 hfatal rfl rfl hc
    (fun acc => by simp only [semQload, State.view_s h.quiet, ea, en]) fun _ => rfl
  have hslot : ∀ m, t.slot m = (u.setSlot n (u.qcbAt a)).slot m := fun m => by rw [ht]; rfl
  refine ⟨t, hrun', ⟨hnow, hothers, fun m hm => ?_⟩, ?_, ?_⟩
  · rw [hslot, slot_setSlot_ne _ hm, hu.slot]
  · rw [ht]; exact (hu.memory hun).1
  · rw [hslot, slot_setSlot, (hu.sameMaps hun).qcbAt]

/-- QMAP of a loaded slot to its queue, which no slot holds. -/
theorem qmap_binds (hun : s.Unaccounted) (hc : (Instr.qmap g w).check1 = none) (ha : a < 4096) (hn : n < 64)
    (hst : (s.slot n).state = .loaded) (hq : (s.slot n).qid = a) (hnone : s.slotOfQueue a = none) :
    ∃ t, exec (.qmap g w) s = .next t ∧ LeavesOthers s t n ∧ t.mem = s.mem ∧ t.slot n = { s.slot n with state := .bound } ∧
      ∀ q, SMap.get false t.pendingQ q = if q = a then false else SMap.get false s.pendingQ q := by
  obtain ⟨_, _, hsup, hsys⟩ := hsv
  have h5 : (semQmap g w).check5 s s.cur (s.view (semQmap g w)) = none := rangeUnless_true (by
    simp only [State.view_s h.quiet, ea, en, ha, hn, hst, hq, hnone, beq_self_eq_true]
    rfl)
  obtain ⟨u, t, hu, hrun, ht, hnow, hothers⟩ := command_aside (m := semQmap g w) (i := .qmap g w)
    (f := fun u => { u.setSlot n { u.slot n with state := .bound } with pendingQ := SMap.set false u.pendingQ a false }) h rfl hsys hsup h5 rfl rfl rfl hc
    (fun acc => by simp only [semQmap, State.view_s h.quiet, ea, en]) fun _ => rfl
  have hslot : ∀ m, t.slot m = (u.setSlot n { u.slot n with state := .bound }).slot m := fun m => by rw [ht]; rfl
  refine ⟨t, hrun, ⟨hnow, hothers, fun m hm => ?_⟩, ?_, ?_, fun q => ?_⟩
  · rw [hslot, slot_setSlot_ne _ hm, hu.slot]
  · rw [ht]; exact (hu.memory hun).1
  · rw [hslot, slot_setSlot, hu.slot]
  · rw [ht, ← hu.pendingQ]; exact SMap.get_set ..

/-- QSAVE of a bound slot that runs no launch. -/
theorem qsave_saves (hun : s.Unaccounted) (hc : (Instr.qsave g w).check1 = none) (hn : n < 64) (ha : a < 2 ^ 52) (h128 : a % 128 = 0)
    (hst : (s.slot n).state = .bound) (hl : (s.slot n).launch = none) (hrun : s.systemRun a 256 = true) :
    ∃ t, exec (.qsave g w) s = .next t ∧ LeavesOthers s t n ∧ (t.slot n).state = .unbound ∧
      (∀ x, t.memByte x = if a ≤ x ∧ x < a + 256 then (s.slot n).qcb.getD (x - a) 0 else s.memByte x) ∧
      ∀ q, SMap.get false t.pendingQ q = (SMap.get false s.pendingQ q || q == (s.slot n).qid &&
        decide ((s.slot n).rdidx < (s.slot n).wridx)) := by
  obtain ⟨_, _, hsup, hsys⟩ := hsv
  have h5 : (semQsave g w).check5 s s.cur (s.view (semQsave g w)) = none := rangeUnless_true (by
    simp only [State.view_s h.quiet, ea, en, slotAddrOk, hn, ha, h128, hst, hl]
    rfl)
  have hfatal : (semQsave g w).fatal s s.cur (s.view (semQsave g w)) = none :=
    systemFatal_none (by rw [State.view_s h.quiet, ea]; exact hrun)
  obtain ⟨u, t, hu, hrun', ht, hnow, hothers⟩ := command_aside (m := semQsave g w) (i := .qsave g w)
    (f := fun u => u.qsave n a) h rfl hsys hsup h5 hfatal rfl rfl hc
    (fun acc => by simp only [semQsave, State.view_s h.quiet, ea, en]) fun _ => State.cores_qsave
  have hslot : ∀ m, t.slot m = (u.qsave n a).slot m := fun m => by rw [ht]; rfl
  have hbyte : ∀ x, t.memByte x = (u.qsave n a).memByte x := fun x => by rw [ht]; rfl
  have hmem : ∀ x, u.memByte x = s.memByte x := fun x => by rw [State.memByte, (hu.memory hun).1]; rfl
  refine ⟨t, hrun', ⟨hnow, hothers, fun m hm => ?_⟩, ?_, fun x => ?_, fun q => ?_⟩
  · rw [hslot, State.slot_qsave, if_neg hm, hu.slot]
  · rw [hslot, State.slot_qsave, if_pos rfl]
  · rw [hbyte, State.memByte_qsave, hu.slot, hmem]
  · rw [ht, ← hu.pendingQ, ← hu.slot]; exact State.pendingQ_qsave q

end QueueCommands

/-- Settles O24: each clause is the law of its command. -/
theorem queueSlots : Obligations.QueueSlots := by
  unfold Obligations.QueueSlots
  intro s g w die h hsv hun a n rest
  refine ⟨fun hc hn ha h128 hfree hrun hlog1 hlog16 hprio heff hrsv hrd hwr hnone => ?load,
    fun hc ha hn hst hq hnone => qmap_binds h hsv rfl rfl hun hc ha hn hst hq (slotOfQueue_none hnone),
    fun hc hn ha h128 hst hl hrun => ?save⟩
  case load =>
    refine qload_loads h hsv rfl rfl hun hc hn ha h128 hfree hrun ?_ (slotOfQueue_none hnone)
    simp only [State.qcbOk, a, hlog1, hlog16, hprio, heff, hrsv, hrd, hwr, decide_true, beq_self_eq_true, Bool.and_self]
  case save =>
    obtain ⟨t, hexec, hrest, hslot, hmem, hpend⟩ := qsave_saves h hsv rfl rfl hun hc hn ha h128 hst hl hrun
    refine ⟨t, hexec, hrest, hslot, fun x hx => ?_, fun off len v hf i hi => ?_, hpend⟩
    · exact (hmem x).trans (if_neg (by omega))
    · have hfit := QSlot.qcbFields_fit hf
      rw [hmem, if_pos (by omega), show a + off + i - a = off + i by omega, QSlot.getD_qcb hf hi]

end Sys2Proof.Machine

/-! ## The requests of a driver about its contexts and queues (13 R347 to R349, 14 R353 to R379, 18 R443) -/

namespace Sys2Proof.Machine

/-- What MAP asks of its operands (13 R348, 14 R368): reserved bits 0, a size code and a kind of memory that exist, and whole pages inside
the chip address space, and inside the host's where MEM is 1. -/
structure MapAdmits (w : Nat → W64) (code mem size : Nat) : Prop where
  high : (w 4).extractLsb' 10 54 = 0
  middle : (w 4).extractLsb' 6 2 = 0
  low : (w 4).getLsbD 3 = false
  sized : code ≠ 3
  backed : mem < 2
  hostInside : mem = 1 → (w 5).toNat % size = 0 ∧ (w 5).toNat + (w 3).toNat ≤ 2 ^ 52
  pages : (w 3).toNat ≠ 0
  aligned : (w 2).toNat % size = 0
  whole : (w 3).toNat % size = 0
  inside : (w 2).toNat + (w 3).toNat ≤ 2 ^ 52

section ContextRequests

variable {s : State} {mb : Nat}

/-! ### CTXALLOC (14 R353, R354) -/

/-- The numbers that CTXALLOC chooses from: those of the contexts that are not in use. -/
def State.freeContexts (s : State) : List Nat :=
  ((List.range 1023).map (· + 1)).filter fun i => s.ctxState (BitVec.ofNat 16 i) == 0

theorem mem_freeContexts {n : Nat} : n ∈ s.freeContexts ↔ (1 ≤ n ∧ n ≤ 1023) ∧ s.ctxState (BitVec.ofNat 16 n) = 0 := by
  simp only [State.freeContexts, List.mem_filter, List.mem_map, List.mem_range, beq_iff_eq]
  refine and_congr_left fun _ => ⟨?_, fun h => ⟨n - 1, by omega⟩⟩
  rintro ⟨i, hi, rfl⟩
  omega

section Ctxalloc

variable (hs : s.Serves 0x01 mb)
include hs

theorem ctxalloc_badAccount (ha : accountOk (s.operand mb 5 ++ s.operand mb 4 ++ s.operand mb 3 ++ s.operand mb 2) = false) :
    Answers .ctxalloc s mb 0x20 [] s := by
  change execCtxalloc s = _
  refine serveRequest_answer hs ?_
  rw [if_pos (by rw [ha]; rfl)]
  rfl

variable (ha : accountOk (s.operand mb 5 ++ s.operand mb 4 ++ s.operand mb 3 ++ s.operand mb 2) = true)
include ha

theorem ctxalloc_noContext (hf : s.freeContexts = []) : Answers .ctxalloc s mb 0x22 [] s := by
  have hnone : s.chooseFrom s.freeContexts = none := by rw [hf]; rfl
  simp only [State.freeContexts] at hnone
  change execCtxalloc s = _
  refine serveRequest_answer hs ?_
  simp only [ha, Bool.not_true, Bool.false_eq_true, if_false, hnone]
  rfl

/-- CTXALLOC of a context that firmware chooses, of what it needs, and of its code heap. -/
theorem ctxalloc_allocates {n root image objmap colors : Nat} {t u v : State} (hn : s.chooseFrom s.freeContexts = some (n, t))
    (hu : t.takeContext (BitVec.ofNat 16 n) = some (root, image, objmap, u))
    (hc : (List.range 8).foldl (fun a h => a + (u.good (BitVec.ofNat 16 n) h).toNat * 2 ^ (3 * h)) 0 = colors)
    (hv : (u.putSystem (u.ctxEntry (BitVec.ofNat 16 n)) (ctxEntryBytes mb root image objmap
      (s.operand mb 5 ++ s.operand mb 4 ++ s.operand mb 3 ++ s.operand mb 2) colors)).putCodeHeap (BitVec.ofNat 16 n)
        (s.operand mb 1).toNat = some v) :
    Answers .ctxalloc s mb 0 [BitVec.ofNat 64 n] v := by
  simp only [State.freeContexts] at hn
  change execCtxalloc s = _
  refine serveRequest_answer hs ?_
  simp only [ha, Bool.not_true, Bool.false_eq_true, if_false, hn, hu, hc, hv]
  rfl

end Ctxalloc

/-! ### Requests that name a context -/

section Named

variable {asid : BitVec 16} (ha : s.ownContext mb (s.operand mb 1) = .ok asid)
include ha

/-! #### CTXFREE and KILL (14 R353, R379, 18 R443) -/

section Ctxfree

variable (hs : s.Serves 0x02 mb)
include hs

/-- CTXFREE of a context with nothing left running or held, and no page granted: its ASID is free. -/
theorem ctxfree_frees {killed : State} (hk : s.killContext asid (6 * 256) { reason := 1 } 1 = killed) (hb : killed.contextBusy asid = false)
    (hp : killed.probedIn asid.toNat 0 (2 ^ 52) = false) (hg : ∀ g ∈ killed.host.grants, g.asid ≠ asid) :
    Answers .ctxfree s mb 0 [] (killed.freeContext asid) := by
  change execCtxfree s = _
  refine serveRequest_answer hs ((withContext_ok ha _).trans ?_)
  simp only [hk, hb, hp, Bool.false_eq_true, or_self, if_false]
  exact afterRevoke_none (fun g h => beq_eq_false_iff_ne.mpr (hg g h)) _

/-- CTXFREE waits while an item of the context runs or its accesses are outstanding. -/
theorem exec_ctxfree_busy (hb : (s.killContext asid (6 * 256) { reason := 1 } 1).contextBusy asid = true) :
    exec .ctxfree s = .next (s.killContext asid (6 * 256) { reason := 1 } 1) := by
  change execCtxfree s = _
  refine serveRequest_wait hs ((withContext_ok ha _).trans ?_)
  simp only [hb, true_or, if_true]

end Ctxfree

theorem kill_kills (hs : s.Serves 0x03 mb) : Answers .kill s mb 0 [] (s.killContext asid (6 * 256) { reason := 1 } 1) := by
  change execKill s = _
  exact serveRequest_answer hs (withContext_ok ha _)

/-! #### RANGESET (14 R356, R361) -/

section Rangeset

variable (hs : s.Serves 0x04 mb)
include hs

theorem rangeset_writes (hr : (s.operand mb 2).toNat ≤ 7)
    (hg : rangeAllowed (s.partitionOf asid) (s.operand mb 6 ++ s.operand mb 5 ++ s.operand mb 4 ++ s.operand mb 3) = true) :
    Answers .rangeset s mb 0 [] (s.putSystem (s.ctxEntry asid + 0x100 + 32 * (s.operand mb 2).toNat)
      (leBytes 32 (s.operand mb 6 ++ s.operand mb 5 ++ s.operand mb 4 ++ s.operand mb 3 : W256).toNat)) := by
  change execRangeset s = _
  refine serveRequest_answer hs ((withContext_ok ha _).trans ?_)
  simp only [Nat.not_lt.mpr hr, hg, Bool.not_true, Bool.false_eq_true, or_self, if_false]
  rfl

theorem rangeset_refused (h : 7 < (s.operand mb 2).toNat ∨
      rangeAllowed (s.partitionOf asid) (s.operand mb 6 ++ s.operand mb 5 ++ s.operand mb 4 ++ s.operand mb 3) = false) :
    Answers .rangeset s mb 0x20 [] s := by
  change execRangeset s = _
  refine serveRequest_answer hs ((withContext_ok ha _).trans ?_)
  rw [if_pos (h.imp_right fun e => by rw [e]; rfl)]
  rfl

end Rangeset

/-! #### MAP and UNMAP (14 R368, R370, R375, R379) -/

/-- MAP of pages none of which is mapped yet. -/
theorem map_maps (hs : s.Serves 0x05 mb) {code mem size : Nat} {t : State} (hcode : ((s.operand mb 4).extractLsb' 4 2).toNat = code)
    (hmem : ((s.operand mb 4).extractLsb' 8 2).toNat = mem) (hsize : 2 ^ sizeLog code = size) (h : MapAdmits (s.operand mb) code mem size)
    (hfree : s.leavesIn asid (s.operand mb 2).toNat ((s.operand mb 2).toNat + (s.operand mb 3).toNat) ((s.operand mb 3).toNat / 65536) = [])
    (ht : s.mapPages asid (s.operand mb 2).toNat code
      (pteFlags ((s.operand mb 4).getLsbD 0) ((s.operand mb 4).getLsbD 1) ((s.operand mb 4).getLsbD 2) (mem = 1))
      (if mem = 1 then some (s.operand mb 5).toNat else none) ((s.operand mb 3).toNat / size) = some t) :
    Answers .map s mb 0 [BitVec.ofNat 64 ((s.operand mb 3).toNat / size)] t := by
  have hinside : ¬(mem = 1 ∧ ((s.operand mb 5).toNat % size ≠ 0 ∨ 2 ^ 52 < (s.operand mb 5).toNat + (s.operand mb 3).toNat)) := by
    rintro ⟨h1, hout | hout⟩
    · exact hout (h.hostInside h1).1
    · exact absurd (h.hostInside h1).2 (Nat.not_le.mpr hout)
  change execMap s = _
  refine serveRequest_answer hs ((withContext_ok ha _).trans ?_)
  simp only [hcode, hmem, hsize, h.high, h.middle, h.low, h.sized, Nat.not_le.mpr h.backed, h.pages, h.aligned, h.whole,
    Nat.not_lt.mpr h.inside, hinside, hfree, ne_eq, not_true_eq_false, Bool.false_eq_true, or_self, if_false, ht]
  rfl

/-- UNMAP of an extent that cuts no page, with none of it granted or held by a PROBE. -/
theorem unmap_clears (hs : s.Serves 0x06 mb) {ca len : Nat} {leaves : List (Nat × Nat × Nat)} (eca : (s.operand mb 2).toNat = ca)
    (elen : (s.operand mb 3).toNat = len) (hl : s.leavesIn asid ca (ca + len) (len / 65536) = leaves) (hca : ca % 65536 = 0)
    (hpages : len % 65536 = 0) (hlen : len ≠ 0) (hend : ca + len ≤ 2 ^ 52)
    (hwhole : ∀ l ∈ leaves, ca ≤ l.1 ∧ l.1 + 2 ^ l.2.1 ≤ ca + len) (hg : ∀ g ∈ s.host.grants, g.inExtent asid ca len = false)
    (hp : s.probedIn asid.toNat ca len = false) :
    Answers .unmap s mb 0 [] ((leaves.foldl (fun s l => s.clearLeaf asid l) s).inval asid.toNat ca len true) := by
  have hcut : (leaves.any fun l => decide (l.1 < ca) || decide (ca + len < l.1 + 2 ^ l.2.1)) = false := by
    simpa only [List.any_eq_false, Bool.or_eq_true, decide_eq_true_eq, not_or, Nat.not_lt] using hwhole
  change execUnmap s = _
  refine serveRequest_answer hs ((withContext_ok ha _).trans ?_)
  simp only [eca, elen, hl, hca, hpages, hlen, Nat.not_lt.mpr hend, hcut, ne_eq, not_true_eq_false, Bool.false_eq_true, or_self, if_false]
  rw [afterRevoke_none hg, if_neg (by rw [hp]; decide)]
  rfl

end Named

/-! ### DEREGQ (13 R349) -/

section Deregq

variable (hs : s.Serves 0x09 mb) {r : QueueReg} (hr : SMap.get none s.queues (s.operand mb 1).toNat = some r) (hown : r.part = mb)
include hs hr hown

/-- DEREGQ of a queue that is pending or in a slot is BUSY. -/
theorem deregq_busy (h : SMap.get false s.pendingQ (s.operand mb 1).toNat = true ∨
    ((List.range 64).any fun n => (s.slot n).state != .unbound && (s.slot n).qid == (s.operand mb 1).toNat) = true) :
    Answers .deregq s mb 0x24 [] s := by
  change execDeregq s = _
  refine serveRequest_answer hs ?_
  simp only [hr, hown, h, ne_eq, not_true_eq_false, if_true, if_false]
  rfl

theorem deregq_removes (hp : SMap.get false s.pendingQ (s.operand mb 1).toNat = false)
    (hheld : ((List.range 64).any fun n => (s.slot n).state != .unbound && (s.slot n).qid == (s.operand mb 1).toNat) = false) :
    Answers .deregq s mb 0 [] { s with
      queues := SMap.set none s.queues (s.operand mb 1).toNat none, taken := s.taken.filter fun t => t.base ≠ r.qcb } := by
  change execDeregq s = _
  refine serveRequest_answer hs ?_
  simp only [hr, hown, hp, hheld, ne_eq, not_true_eq_false, Bool.false_eq_true, or_self, if_false]
  rfl

end Deregq

end ContextRequests

/-- Settles O53: each clause is the law of its request. -/
theorem contextRequests : Obligations.ContextRequests := by
  unfold Obligations.ContextRequests
  intro s mb
  refine ⟨fun hs => ⟨ctxalloc_badAccount hs, ctxalloc_noContext hs, ?alloc⟩,
    fun asid ha => ⟨fun hs => ctxfree_frees ha hs rfl, exec_ctxfree_busy ha, kill_kills ha,
      fun hs => ⟨rangeset_writes ha hs, rangeset_refused ha hs⟩,
      fun hs hhigh hmiddle hlow hcode hmem hhost hpages haligned hwhole hinside hfree t =>
        map_maps ha hs rfl rfl rfl ⟨hhigh, hmiddle, hlow, hcode, hmem, hhost, hpages, haligned, hwhole, hinside⟩ hfree,
      fun hs leaves hl => unmap_clears ha hs rfl rfl hl.symm, regq_answers s mb asid ha⟩,
    fun hs r hr hown => ⟨deregq_busy hs hr hown, deregq_removes hs hr hown⟩⟩
  case alloc =>
    intro n t root image objmap u v hacc hn hu hv
    obtain ⟨⟨h1, h1023⟩, hstate⟩ := mem_freeContexts.mp (chooseFrom_mem hn)
    exact ⟨h1, h1023, hstate, ctxalloc_allocates hs hacc hn hu rfl hv⟩

end Sys2Proof.Machine

/-! ## The requests about heaps and the relocation engines (13 R348, 15 R396 to R405) -/

namespace Sys2Proof.Machine

section HeapRequests

variable {s : State} {mb : Nat}

/-! ### HEAPSTART, HEAPQUERY and HEAPABORT (15 R396, R399) -/

section Heapstart

variable (hs : s.Serves 0x18 mb)
include hs

theorem heapstart_misaligned (ha : (s.operand mb 1).toNat % 128 ≠ 0) : Answers .heapstart s mb 0x20 [] s := by
  change execHeapstart s = _
  refine serveRequest_answer hs ?_
  rw [if_pos (.inl ha)]
  rfl

/-- HEAPSTART of a descriptor in system memory that names what is the partition's: RELOC.start on the die of the set. -/
theorem heapstart_starts (ha : (s.operand mb 1).toNat % 128 = 0) (hrun : s.systemRun (s.operand mb 1).toNat 128 = true)
    (hown : s.setOwned mb (s.operand mb 1).toNat = true) :
    let r := s.relocStart (s.setDie (s.operand mb 1).toNat) (s.operand mb 1).toNat
    Answers .heapstart s mb 0 [(r.2.reloc (s.setDie (s.operand mb 1).toNat)).status r.1] r.2 := by
  change execHeapstart s = _
  refine serveRequest_answer hs ?_
  simp only [ha, hrun, hown, ne_eq, not_true_eq_false, Bool.not_true, Bool.false_eq_true, or_self, if_false]
  rfl

end Heapstart

theorem heapquery_status (hs : s.Serves 0x19 mb) (hd : (s.operand mb 1).toNat < 4) :
    Answers .heapquery s mb 0 [(s.reloc (s.operand mb 1).toNat).status 0] s := by
  change execHeapquery s = _
  refine serveRequest_answer hs ?_
  rw [if_neg (by omega)]
  rfl

/-- HEAPABORT of a set of the partition's own context: RELOC.abort. -/
theorem heapabort_aborts (hs : s.Serves 0x1A mb) (hd : (s.operand mb 1).toNat < 4)
    (hown : s.ctxPart (s.reloc (s.operand mb 1).toNat).asid = mb) :
    let r := s.relocAbort (s.operand mb 1).toNat
    Answers .heapabort s mb 0 [(r.2.reloc (s.operand mb 1).toNat).status r.1] r.2 := by
  change execHeapabort s = _
  refine serveRequest_answer hs ?_
  simp only [show ¬3 < (s.operand mb 1).toNat by omega, hown, ne_eq, not_true_eq_false, and_false, if_false]
  rfl

/-! ### HEAPPUB and HEAPFREE (15 R398, R402) -/

section Published

variable {asid : BitVec 16} (ha : s.ownContext mb (s.operand mb 1) = .ok asid) (hheap : (s.operand mb 2).toNat < 8)
include ha hheap

section Heappub

variable (hs : s.Serves 0x1B mb)
include hs

section First

variable (h0 : (s.mailbox mb).phase = 0) (hlive : s.ctxState asid = 1)
include h0 hlive

theorem heappub_busy (hst : s.memNat (s.hcbAddr asid (s.operand mb 2).toNat) 1 ≠ 3) : Answers .heappub s mb 0x24 [] s := by
  change execHeappub s = _
  refine serveRequest_answer hs ((withContext_ok ha _).trans ?_)
  simp only [Nat.not_lt.mpr (Nat.le_of_lt_succ hheap), h0, hlive, hst, ne_eq, not_true_eq_false, not_false_eq_true, if_true, if_false]
  rfl

/-- HEAPPUB of a COPIED set publishes it and waits for the cores of its context. -/
theorem exec_heappub_publishes (hst : s.memNat (s.hcbAddr asid (s.operand mb 2).toNat) 1 = 3) :
    exec .heappub s = .next ((s.publishHeap asid (s.operand mb 2).toNat).setPhase mb 1) := by
  change execHeappub s = _
  refine serveRequest_wait hs ((withContext_ok ha _).trans ?_)
  simp only [Nat.not_lt.mpr (Nat.le_of_lt_succ hheap), h0, hlive, hst, ne_eq, not_true_eq_false, if_true, if_false]

end First

/-- HEAPPUB is answered once no core of the context has the new colour still to take. -/
theorem heappub_done (h0 : (s.mailbox mb).phase ≠ 0)
    (hc : ∀ k ∈ s.coresOf asid, ∀ q ∈ (s.core k).recolors, q.1 ≠ (s.operand mb 2).toNat) :
    Answers .heappub s mb 0 [] (s.memPut (s.hcbAddr asid (s.operand mb 2).toNat) 1 4) := by
  have hnone : ((s.coresOf asid).any fun k => (s.core k).recolors.any fun q => q.1 == (s.operand mb 2).toNat) = false := by
    simpa only [List.any_eq_false, beq_iff_eq, List.any_eq_true, not_exists, not_and] using hc
  change execHeappub s = _
  refine serveRequest_answer hs ((withContext_ok ha _).trans ?_)
  simp only [Nat.not_lt.mpr (Nat.le_of_lt_succ hheap), h0, hnone, Bool.false_eq_true, if_false]
  rfl

end Heappub

section Heapfree

variable (hs : s.Serves 0x1C mb)
include hs

theorem heapfree_busy (hst : s.memNat (s.hcbAddr asid (s.operand mb 2).toNat) 1 ≠ 4) : Answers .heapfree s mb 0x24 [] s := by
  change execHeapfree s = _
  refine serveRequest_answer hs ((withContext_ok ha _).trans ?_)
  rw [if_neg (Nat.not_lt.mpr (Nat.le_of_lt_succ hheap)), if_pos hst]
  rfl

theorem heapfree_frees (hst : s.memNat (s.hcbAddr asid (s.operand mb 2).toNat) 1 = 4) :
    Answers .heapfree s mb 0 [] (s.freeHeap asid (s.operand mb 2).toNat) := by
  change execHeapfree s = _
  refine serveRequest_answer hs ((withContext_ok ha _).trans ?_)
  rw [if_neg (Nat.not_lt.mpr (Nat.le_of_lt_succ hheap)), if_neg (not_not_intro hst)]
  rfl

end Heapfree

end Published

end HeapRequests

/-! ### The steps of a relocation engine (15 R397, R403, R405) -/

section RelocationSteps

variable {s : State} {die : Nat}

/-- OBJECT_CLAIM of an engine that runs on an evacuation set, is not paused, and has no object in hand. -/
theorem exec_objectClaim (h1 : (s.reloc die).state = 1) (hp : (s.reloc die).paused = false) (hm : (s.reloc die).move = none)
    (hpage : (s.reloc die).page = none) : exec (.objectClaim die) s = .next (s.claimObject die (s.reloc die)) := by
  change execObjectClaim die s = _
  simp only [execObjectClaim, h1, hp, hm, hpage, ne_eq, not_true_eq_false, Bool.false_eq_true, Option.isSome_none, or_self, if_false, offered]

section Claim

variable {r : Reloc} {fca tca : BitVec 52} {pa : Nat} (hf : s.managedAt r.asid r.heap die (s.setEntry r.list r.next).1 = some fca)
  (ht : s.managedAt r.asid r.heap die (s.setEntry r.list r.next).2 = some tca) (hpa : s.homePa r.asid fca = some pa)
include hf ht hpa

/-- An object that is pinned or forwarded is left in place (15 R397 step 1). -/
theorem claimObject_skips (hx : pinCount (BitVec.ofNat 64 (s.memNat pa 8)) ≠ 0 ∨ (BitVec.ofNat 64 (s.memNat pa 8)).getLsbD 63 = true) :
    s.claimObject die r = s.skipObject die r := by
  simp only [State.claimObject, hf, ht, hpa]
  rw [if_pos hx]

/-- A free object whose two extents lie in the heap is claimed: MOV in its header, and its lines are the engine's to move. -/
theorem claimObject_claims (hpin : pinCount (BitVec.ofNat 64 (s.memNat pa 8)) = 0)
    (hfwd : (BitVec.ofNat 64 (s.memNat pa 8)).getLsbD 63 = false) {n : Nat}
    (hn : max 1 ((16 * ((BitVec.ofNat 64 (s.memNat pa 8)).extractLsb' 0 32).toNat + 127) / 128) = n)
    (hfrom : s.extentOk r die (s.setEntry r.list r.next).1 n = true) (hto : s.extentOk r die (s.setEntry r.list r.next).2 n = true) :
    s.claimObject die r =
      (s.engineWrite fca.toNat pa (leBytes 8 (BitVec.ofNat 64 (s.memNat pa 8) ||| 0x4000000000000000).toNat)).setReloc die
        { r with move := some { index := r.next, fromVa := (s.setEntry r.list r.next).1, toVa := (s.setEntry r.list r.next).2
                                fromCa := fca.toNat, toCa := tca.toNat, lines := n } } := by
  have hfree : ¬(pinCount (BitVec.ofNat 64 (s.memNat pa 8)) ≠ 0 ∨ (BitVec.ofNat 64 (s.memNat pa 8)).getLsbD 63 = true) := by
    simp only [hpin, hfwd, ne_eq, not_true_eq_false, Bool.false_eq_true, or_self, not_false_eq_true]
  simp only [State.claimObject, hf, ht, hpa, hn]
  rw [if_neg hfree]
  simp only [hfrom, hto, Bool.not_true, Bool.false_eq_true, or_self, if_false]

end Claim

section Moving

variable {m : ObjMove} (hm : (s.reloc die).move = some m)
include hm

/-- LINE_MOVE_COPIED of a line that has its place at both ends: it is copied, and the engine goes on to the next. -/
theorem exec_lineMoveCopied (hc : m.copied < m.read) {pa : Nat × Nat}
    (hpa : s.movePas (s.reloc die) (s.moveLine (s.reloc die) die m m.copied) m.copied = some pa) :
    exec (.lineMoveCopied die) s = .next ((s.copyLine (s.reloc die) (s.moveLine (s.reloc die) die m m.copied) pa
      (m.copied = 0 && (s.reloc die).page.isNone)).setReloc die
        { s.reloc die with move := some { m with copied := m.copied + 1 } }) := by
  change execLineMoveCopied die s = _
  simp only [execLineMoveCopied, hm, Nat.not_le.mpr hc, if_false, hpa, offered]

section Copied

variable (hl : m.lines ≤ m.copied)
include hl

/-- PUBLISH of an object: its forwarding entry, and FWD in the header it leaves (15 R397 steps 3 and 4). -/
theorem exec_publish_object (hpage : (s.reloc die).page = none) {u : State}
    (hu : s.insertFwd (s.memNat (s.hcbAddr (s.reloc die).asid (s.reloc die).heap + 8) 8)
      (2 ^ s.memNat (s.hcbAddr (s.reloc die).asid (s.reloc die).heap + 4) 1) m.fromVa m.toVa
      (fhash (BitVec.ofNat 57 m.fromVa) (s.memNat (s.hcbAddr (s.reloc die).asid (s.reloc die).heap + 4) 1))
      (2 ^ s.memNat (s.hcbAddr (s.reloc die).asid (s.reloc die).heap + 4) 1) = u) {pa : Nat}
    (hpa : u.homePa (s.reloc die).asid (BitVec.ofNat 52 m.fromCa) = some pa) :
    exec (.publish die) s = .next ((u.memPut pa 8
      ((BitVec.ofNat 64 (u.memNat pa 8) &&& 0x3FFFFFFFFFFFFFFF) ||| 0x8000000000000000 : W64).toNat).putReloc die
        { s.reloc die with done := (s.reloc die).done + 1 }.advance) := by
  change execPublish die s = _
  simp only [execPublish, hm, Nat.not_lt.mpr hl, if_false, hpage, hu, hpa, offered]

/-- PUBLISH of a page settles it (15 R405). -/
theorem exec_publish_page {page : Nat × Nat} (hpage : (s.reloc die).page = some page) :
    exec (.publish die) s = .next ((s.settlePage (s.reloc die) page.1 page.2).putReloc die
      { s.reloc die with done := (s.reloc die).done + 1 }.advance) := by
  change execPublish die s = _
  simp only [execPublish, hm, Nat.not_lt.mpr hl, if_false, hpage, offered]

end Copied

end Moving

end RelocationSteps

/-- Settles O55: each clause is the law of its request or of its engine's step. -/
theorem heapEvents : Obligations.HeapEvents := by
  unfold Obligations.HeapEvents
  intro s mb
  refine ⟨fun hs => ⟨heapstart_misaligned hs, heapstart_starts hs⟩, heapquery_status, heapabort_aborts,
    fun asid ha hheap => ⟨fun hs h0 hlive => ⟨heappub_busy ha hheap hs h0 hlive, exec_heappub_publishes ha hheap hs h0 hlive⟩,
      heappub_done ha hheap, fun hs => ⟨heapfree_busy ha hheap hs, heapfree_frees ha hheap hs⟩⟩,
    fun die => ⟨?claim, fun m hm => ⟨lineMoveRead_done s die m hm, fun hc pa => exec_lineMoveCopied hm hc,
      fun hl hpage pa => exec_publish_object hm hl hpage rfl, fun hl page => exec_publish_page hm hl⟩⟩⟩
  case claim =>
    intro h1 hp hm hpage e fca tca pa hf ht hpa x n
    rw [exec_objectClaim h1 hp hm hpage]
    exact ⟨fun hx => congrArg Host.Outcome.next (claimObject_skips hf ht hpa hx),
      fun hpin hfwd hfrom hto => congrArg Host.Outcome.next (claimObject_claims hf ht hpa hpin hfwd rfl hfrom hto)⟩

end Sys2Proof.Machine

/-! ## Mailboxes, page grants and the aperture (13 R346, R347, 14 R377 to R379) -/

namespace Sys2Proof.Machine

section HostEvents

variable {s : State}

/-- REVOKE_TIMEOUT 10 ms after the oldest REVOKE: its pages leave the aperture, and one of them is named in the log (14 R379). -/
theorem exec_revokeTimeout {r : Revoke} {rest : List Revoke} (hr : s.host.revokes = r :: rest) :
    ∃ ca, exec .revokeTimeout s = .next (((s.until (r.sent + 10000000)).dropGrants r).logHostUr r.part r.asid ca) := by
  change ∃ ca, execRevokeTimeout s = _
  simp only [execRevokeTimeout, hr, offered]
  exact ⟨_, rfl⟩

section Aperture

variable {part offset : Nat} {g : Grant} {ps : List Piece} {u : State} (hp : part < 16)

section Granted

variable (hg : (s.host.grants.find? fun g => g.part == part && g.index == offset / 65536) = some g) (hh : ps.any Piece.isHeld = false)
include hp hg hh

/-- A read of 8 bytes of a page granted for reading gives the bytes of its pieces (14 R377). -/
theorem exec_hostAccess_read (hn : offset % 65536 + 8 ≤ 65536) (hr : g.r = true)
    (hps : s.pieces g.asid (BitVec.ofNat 52 (g.ca + offset % 65536)) .r false 8 = (.ok ps, u)) :
    exec (.hostAccess part offset none) s = .next (u.hostReply (some (ps.flatMap fun p => u.placeBytes p.place p.len))) := by
  have hfits : ¬(15 < part ∨ 8 = 0 ∨ 65536 < offset % 65536 + 8) := by omega
  change execHostAccess part offset none s = _
  simp only [execHostAccess, if_neg hfits, hg, Option.isSome_none, Bool.false_eq_true, if_false, hr, Bool.not_true, hps, hh, offered]

/-- A write of some bytes to a page granted for writing is made at their home (14 R377). -/
theorem exec_hostAccess_write {bs : List Byte} (hb : 0 < bs.length) (hn : offset % 65536 + bs.length ≤ 65536) (hw : g.w = true)
    (hps : s.pieces g.asid (BitVec.ofNat 52 (g.ca + offset % 65536)) .w false bs.length = (.ok ps, u)) :
    exec (.hostAccess part offset (some bs)) s = .next (u.homeWrite g.asid none (g.ca + offset % 65536) ps bs) := by
  have hfits : ¬(15 < part ∨ bs.length = 0 ∨ 65536 < offset % 65536 + bs.length) := by omega
  change execHostAccess part offset (some bs) s = _
  simp only [execHostAccess, if_neg hfits, hg, Option.isSome_some, if_true, hw, Bool.not_true, Bool.false_eq_true, if_false, hps, hh, offered]

end Granted

include hp in
/-- A read of a page that is not granted completes as Unsupported Request and is logged (14 R377, 18 R437). -/
theorem exec_hostAccess_notGranted (hn : offset % 65536 + 8 ≤ 65536)
    (hg : (s.host.grants.find? fun g => g.part == part && g.index == offset / 65536) = none) :
    exec (.hostAccess part offset none) s = .next ((s.hostReply none).logHostUr part 0 0) := by
  have hfits : ¬(15 < part ∨ 8 = 0 ∨ 65536 < offset % 65536 + 8) := by omega
  change execHostAccess part offset none s = _
  simp only [execHostAccess, if_neg hfits, hg, State.hostRefused, Option.isNone_none, if_true, offered]

end Aperture

end HostEvents

/-- Settles O58: each clause is the law of its event; a write of a register that only holds a value replaces it. -/
theorem hostEvents : Obligations.HostEvents := by
  unfold Obligations.HostEvents
  intro s
  refine ⟨fun mb value => mailboxRing_all s mb value, fun mb o vals _ => putResponse_all s mb o vals,
    fun value => ⟨rfl, rfl, rfl, rfl, rfl, fun mb word => rfl⟩, fun m rest => vendor_all s m rest, fun r rest hr => ?timeout,
    fun part offset g hp hg => ⟨fun ps u hn hr hps hh => exec_hostAccess_read hp hg hh hn hr hps,
      fun bs ps u hb hn hw hps hh => exec_hostAccess_write hp hg hh hb hn hw hps⟩,
    fun part offset hp hn hg => ⟨_, exec_hostAccess_notGranted hp hn hg, rfl, rfl⟩⟩
  case timeout =>
    obtain ⟨ca, hexec⟩ := exec_revokeTimeout hr
    exact ⟨_, hexec, Nat.le_max_right s.time _, rfl, rfl⟩

end Sys2Proof.Machine

/-! ## The requests of the upstream function's driver, attestation and ownership (14 R357, 18 R451 to R459, 19 R472, R479, 20 R486 to R496) -/

namespace Sys2Proof.Machine

section AdminRequests

variable {s : State} {mb : Nat}

/-! ### PARTSET (14 R357) -/

/-- The valid partitions that PARTSET holds its descriptor against: all but the one of its number. -/
def State.otherParts (s : State) (n : Nat) : List Partition := s.parts.filterMap fun q => if q.1 = n then none else q.2

section Partset

variable {p : Partition} (hs : s.Serves 0x40 mb) (hn : (s.operand mb 1).toNat < 16)
  (hp : partitionOfBytes (s.hostRead (s.operand mb 2).toNat 256) = some p)
include hs hn hp

/-- PARTSET of a descriptor that says `v` in its VALID flag, where a valid one is admitted beside the others. -/
theorem partset_sets {v : Bool} (hv : (fieldOf (s.hostRead (s.operand mb 2).toNat 256) 1 1 % 2 == 1) = v)
    (ha : v = true → p.admitted (s.otherParts (s.operand mb 1).toNat) = true) : Answers .partset s mb 0 []
      { s with parts := SMap.set none s.parts (s.operand mb 1).toNat (if v then some p else none) }.refreshDbg := by
  have hok : (v && !p.admitted (s.otherParts (s.operand mb 1).toNat)) = false := by
    cases v with
    | false => rfl
    | true => rw [ha rfl]; rfl
  simp only [State.otherParts] at hok
  change execPartset s = _
  refine serveRequest_answer hs ?_
  simp only [if_neg (show ¬15 < (s.operand mb 1).toNat by omega), hp, hv, hok, Bool.false_eq_true, if_false]
  rfl

theorem partset_notAdmitted (hv : fieldOf (s.hostRead (s.operand mb 2).toNat 256) 1 1 % 2 = 1)
    (ha : p.admitted (s.otherParts (s.operand mb 1).toNat) = false) : Answers .partset s mb 0x20 [] s := by
  simp only [State.otherParts] at ha
  change execPartset s = _
  refine serveRequest_answer hs ?_
  simp only [if_neg (show ¬15 < (s.operand mb 1).toNat by omega), hp, hv, ha, BEq.rfl, Bool.not_false, Bool.and_true, if_true]
  rfl

end Partset

/-! ### WHORLSET, PINLEVEL and WEARREAD (19 R472, R479, 20 R486) -/

theorem whorlset_sets (hs : s.Serves 0x41 mb) (hdie : (s.operand mb 1).toNat < 4)
    (hp : 100 ≤ ((s.operand mb 2).extractLsb' 32 32).toNat) (hp' : ((s.operand mb 2).extractLsb' 32 32).toNat ≤ 600000)
    (hd : 1 ≤ ((s.operand mb 2).extractLsb' 16 16).toNat) (hd' : ((s.operand mb 2).extractLsb' 16 16).toNat ≤ 1000)
    (hres : (s.operand mb 2).extractLsb' 1 15 = 0) : Answers .whorlset s mb 0 []
      (s.putSystem (s.bases.whorl + 64 * (s.operand mb 1).toNat) (leBytes 8 (s.operand mb 2).toNat)) := by
  change execWhorlset s = _
  refine serveRequest_answer hs ?_
  dsimp only
  rw [if_neg]
  · rfl
  · rintro (h | h | h | h | h | h)
    case inr.inr.inr.inr.inr => exact h hres
    all_goals omega

theorem pinlevel_badRequest (hs : s.Serves 0x42 mb) (hv : (s.operand mb 1).toNat < 700 ∨ 2400 < (s.operand mb 1).toNat) :
    Answers .pinlevel s mb 0x20 [] s := by
  change execPinlevel s = _
  refine serveRequest_answer hs ?_
  rw [if_pos hv]
  rfl

theorem pinlevel_sets (hs : s.Serves 0x42 mb) (hv : 700 ≤ (s.operand mb 1).toNat) (hv' : (s.operand mb 1).toNat ≤ 2400) :
    Answers .pinlevel s mb 0 [] (s.setLevels fun p => { p with pinLevel := (s.operand mb 1).toNat }) := by
  change execPinlevel s = _
  refine serveRequest_answer hs ?_
  rw [if_neg (by omega)]
  rfl

theorem wearread_reads (hs : s.Serves 0x43 mb) (hn : (s.operand mb 1).toNat + (s.operand mb 2).toNat ≤ wearSize) :
    Answers .wearread s mb 0 []
      (s.hostWrite (s.operand mb 3).toNat (s.wearBytes (s.operand mb 1).toNat (s.operand mb 2).toNat)) := by
  change execWearread s = _
  refine serveRequest_answer hs ?_
  dsimp only
  rw [if_neg (Nat.not_lt.mpr hn)]
  rfl

/-! ### The scale-out engine's tables (18 R451, R453, R459) -/

section Setid

variable (hs : s.Serves 0x44 mb) (hid : (s.operand mb 1).toNat ≤ 0x7FFFF)
include hs hid

/-- An identifier is not set again while a port is up (18 R451). -/
theorem setid_busy (hset : s.link.devId.isSome = true)
    (hup : ∃ n, n < 18 ∧ (s.link.port n).locked = true ∧ (s.link.port n).down = false) : Answers .setid s mb 0x24 [] s := by
  have hany : ((List.range 18).any fun n => (s.link.port n).locked && !(s.link.port n).down) = true := by
    obtain ⟨n, hn, hlock, hdown⟩ := hup
    exact List.any_eq_true.mpr ⟨n, List.mem_range.mpr hn, by rw [hlock, hdown]; rfl⟩
  change execSetid s = _
  refine serveRequest_answer hs ?_
  dsimp only
  rw [if_neg (Nat.not_lt.mpr hid), if_pos ⟨hset, hany⟩]
  rfl

/-- With no port locked there is none to take down, and none that sends INIT. -/
theorem setid_sets (hfree : ∀ n, n < 18 → (s.link.port n).locked = false) : Answers .setid s mb 0 []
    { s with link := { s.link with devId := some ((s.operand mb 1).extractLsb' 0 20) } } := by
  have hnone : ¬((List.range 18).any fun n => (s.link.port n).locked && !(s.link.port n).down) = true := fun h => by
    obtain ⟨n, hn, hlock⟩ := List.any_eq_true.mp h
    rw [hfree n (List.mem_range.mp hn)] at hlock
    cases hlock
  change execSetid s = _
  refine serveRequest_answer hs ?_
  dsimp only
  rw [if_neg (Nat.not_lt.mpr hid), if_neg fun h => hnone h.2,
    unlocked_fold { s.link with devId := some ((s.operand mb 1).extractLsb' 0 20) } _ fun n hn => hfree n (List.mem_range.mp hn)]
  rfl

end Setid

section Routeset

variable (hs : s.Serves 0x45 mb) (hmask : (s.operand mb 3).toNat < 2 ^ 18)
include hs hmask

theorem routeset_main (htable : s.operand mb 1 = 0) (hi : (s.operand mb 2).toNat < 4096) : Answers .routeset s mb 0 []
    { s with link := { s.link with
      mainRoutes := SMap.set 0 s.link.mainRoutes (s.operand mb 2).toNat ((s.operand mb 3).extractLsb' 0 18) } } := by
  change execRouteset s = _
  refine serveRequest_answer hs ?_
  simp only [htable, if_true]
  rw [if_neg]
  · rfl
  · rintro (h | h | h)
    · exact absurd h (by decide)
    · omega
    · omega

theorem routeset_local (htable : s.operand mb 1 = 1) (hi : (s.operand mb 2).toNat < 256) : Answers .routeset s mb 0 []
    { s with link := { s.link with
      localRoutes := SMap.set 0 s.link.localRoutes (s.operand mb 2).toNat ((s.operand mb 3).extractLsb' 0 18) } } := by
  have h10 : (1 : W64) ≠ 0 := by decide
  change execRouteset s = _
  refine serveRequest_answer hs ?_
  simp only [htable, if_neg h10]
  rw [if_neg]
  · rfl
  · rintro (h | h | h)
    · exact absurd h (by decide)
    · omega
    · omega

end Routeset

/-- The member list of a GROUPSET in host memory (log 35). -/
def State.memberList (s : State) (mb : Nat) : List Nat :=
  (List.range (s.operand mb 3).toNat).map fun i => leNat (s.hostRead ((s.operand mb 2).toNat + 4 * i) 4)

theorem groupset_sets (hs : s.Serves 0x46 mb) (hlo : 0x80000 ≤ (s.operand mb 1).toNat) (hhi : (s.operand mb 1).toNat ≤ 0xFFFFF)
    (hn : (s.operand mb 3).toNat ≤ 1024) (hm : ∀ m ∈ s.memberList mb, m ≤ 0x7FFFF)
    (hroom : SMap.get [] s.link.groups (s.operand mb 1).toNat ≠ [] ∨ s.link.groups.length < 256) : Answers .groupset s mb 0 []
      { s with link := { s.link with
        groups := SMap.set [] s.link.groups (s.operand mb 1).toNat (s.memberList mb)
        fenced := s.link.fenced.filter fun f => f.1 ≠ (s.operand mb 1).toNat
        heard := (s.memberList mb).foldl (fun h m => SMap.set 0 h (2 ^ 20 * (s.operand mb 1).toNat + m) s.time) s.link.heard } } := by
  have hgood : ¬((s.operand mb 1).toNat < 0x80000 ∨ 0xFFFFF < (s.operand mb 1).toNat ∨ 1024 < (s.operand mb 3).toNat ∨
      ((s.memberList mb).any fun m => decide (0x7FFFF < m)) = true) := by
    rintro (h | h | h | h)
    · omega
    · omega
    · omega
    · obtain ⟨m, hmem, hbig⟩ := List.any_eq_true.mp h
      exact Nat.not_lt.mpr (hm m hmem) (of_decide_eq_true hbig)
  have hfits : ¬(SMap.get [] s.link.groups (s.operand mb 1).toNat = [] ∧ 256 ≤ s.link.groups.length) :=
    fun ⟨hempty, hfull⟩ => hroom.elim (· hempty) fun h => Nat.not_lt.mpr hfull h
  simp only [State.memberList] at hgood ⊢
  change execGroupset s = _
  refine serveRequest_answer hs ?_
  dsimp only
  rw [if_pos hn, if_neg hgood, if_neg hfits]
  rfl

theorem importEntry_sets (hs : s.Serves 0x47 mb) (hpart : (s.operand mb 1).toNat < 16) (hi : (s.operand mb 2).toNat < 64)
    (hbase : (s.operand mb 3).toNat ≤ 0x7FFFF) (hend : (s.operand mb 3).toNat + (s.operand mb 4).toNat ≤ 0x80000) :
    Answers .importEntry s mb 0 [] { s with link := { s.link with
      imports := SMap.set (0, 0) s.link.imports (64 * (s.operand mb 1).toNat + (s.operand mb 2).toNat)
        (if (s.operand mb 4).toNat = 0 then (0, 0) else ((s.operand mb 3).toNat, (s.operand mb 4).toNat)) } } := by
  change execImportEntry s = _
  refine serveRequest_answer hs ?_
  dsimp only
  rw [if_neg (by omega)]
  rfl

/-! ### Attestation and the end of an attachment (20 R493 to R495) -/

theorem attest_reports (hs : s.Serves 0x30 mb) : Answers .attest s mb 0 [] (s.hostWrite (s.operand mb 5).toNat
    (s.report (if mb = 16 then 0xFF else mb) (s.operand mb 4 ++ s.operand mb 3 ++ s.operand mb 2 ++ s.operand mb 1))) := by
  change execAttest s = _
  exact serveRequest_answer hs rfl

theorem dbgchal_challenges (hs : s.Serves 0x31 mb) : ∃ x : BitVec 256, Answers .dbgchal s mb 0
    [x.extractLsb' 0 64, x.extractLsb' 64 64, x.extractLsb' 128 64, x.extractLsb' 192 64]
    { s with free := s.free + 1, sec := { s.sec with challenge := some (x, s.time) } } := by
  refine ⟨Config.freeBits s.free (2 ^ 22) 256, ?_⟩
  change execDbgchal s = _
  exact serveRequest_answer hs rfl

/-- DBGDETACH of one partition, by the package's driver or by its own. -/
theorem dbgdetach_detaches (hs : s.Serves 0x33 mb) (hpart : (s.operand mb 1).toNat < 16) (hown : mb = 16 ∨ (s.operand mb 1).toNat = mb) :
    Answers .dbgdetach s mb 0 []
      ({ s with sec := { s.sec with level := SMap.set 0 s.sec.level (s.operand mb 1).toNat 0 } }.refreshDbg).releaseHalts := by
  change execDbgdetach s = _
  refine serveRequest_answer hs ?_
  dsimp only
  rw [if_neg (show ¬((s.operand mb 1).toNat ≠ 0xFF ∧ 15 < (s.operand mb 1).toNat) by omega), if_neg (by omega),
    if_neg (show ¬(s.operand mb 1).toNat = 0xFF by omega)]
  rfl

end AdminRequests

/-- Settles O57: each clause is the law of its request. -/
theorem adminRequests : Obligations.AdminRequests := by
  unfold Obligations.AdminRequests
  intro s mb
  refine ⟨fun p hs hn hp => ⟨fun hv => ⟨fun ha => ?valid, partset_notAdmitted hs hn hp hv⟩, fun hv => ?invalid⟩,
    whorlset_sets, fun hs => ⟨pinlevel_badRequest hs, pinlevel_sets hs⟩, wearread_reads,
    fun hs hid => ⟨setid_busy hs hid, setid_sets hs hid⟩, fun hs hmask => ⟨routeset_main hs hmask, routeset_local hs hmask⟩,
    groupset_sets, importEntry_sets, attest_reports, dbgchal_challenges, dbgattach_answers s mb, dbgdetach_detaches,
    lifecycle_all s mb⟩
  case valid => exact partset_sets hs hn hp (v := true) (by rw [hv]; rfl) fun _ => ha
  case invalid => exact partset_sets hs hn hp (v := false) (by rw [hv]; rfl) fun h => nomatch h

end Sys2Proof.Machine

/-! ## The power controller, power states, the dump and the wear log (19 R479, 20 R481 to R489, R497) -/

namespace Sys2Proof.Machine

section PowerEvents

variable {s : State}

/-! ### Ticks of the controller (20 R484, R485) -/

section Ticks

/-- The machine that the controller judges at a tick: its two estimates drawn and the time at the tick, the power of 20 R483 as it was. -/
def State.atTick (s : State) : State := { ((s.choose 12).2.choose 12).2 with time := (s.time / 10000 + 1) * 10000 }

/-- POWER_TICK leaves `v` with the controller's new reading. -/
def TicksTo (s v : State) : Prop :=
  exec .powerTick s = .next ({ v with pwr := s.pwr }.setPower { v.pwr with draw := BitVec.ofNat 12 ((s.choose 12).2.choose 12).1 })

variable (hb : s.booted = true) (hon : s.pwr.phase = .on)
include hb hon

/-- Above the level in force the next shedding action is taken. -/
theorem powerTick_sheds {a : PowerAct} (h : s.pwr.force < (s.choose 12).1) (ha : s.atTick.nextAct = some a) : TicksTo s (s.atTick.shed a) := by
  simp only [State.atTick] at ha
  refine powerTick_eq s _ hb hon ?_
  dsimp only
  rw [if_pos h, ha]
  rfl

/-- Above the level in force with nothing left to shed. -/
theorem powerTick_exhausted (h : s.pwr.force < (s.choose 12).1) (ha : s.atTick.nextAct = none) : TicksTo s s.atTick := by
  simp only [State.atTick] at ha
  refine powerTick_eq s _ hb hon ?_
  dsimp only
  rw [if_pos h, ha]
  rfl

/-- The newest action is undone after a rise of the level that leaves room for what it shed. -/
theorem powerTick_unsheds {a : PowerAct} {l : List PowerAct} (h : (s.choose 12).1 ≤ s.pwr.force) (ha : s.pwr.actions = a :: l)
    (hr : s.pwr.rising = true) (hroom : (s.choose 12).1 + Config.ratedIncrease a.stage ≤ s.pwr.force) : TicksTo s s.atTick.unshed := by
  refine powerTick_eq s _ hb hon ?_
  dsimp only
  rw [if_neg (Nat.not_lt.mpr h), ha]
  exact if_pos ⟨hr, hroom⟩

/-- Nothing to undo. -/
theorem powerTick_rests (h : (s.choose 12).1 ≤ s.pwr.force) (ha : s.pwr.actions = []) : TicksTo s s.atTick := by
  refine powerTick_eq s _ hb hon ?_
  dsimp only
  rw [if_neg (Nat.not_lt.mpr h), ha]
  rfl

end Ticks

/-! ### The pin and the windows (20 R481 to R483) -/

theorem exec_powerStepPin (hb : s.booted = true) (hf : s.pwr.phase ≠ .pfail) (ho : s.pwr.phase ≠ .off) :
    exec .powerStepPin s = .next (s.setLevels fun p => { p with pin := !p.pin }) := by
  change execPowerStepPin s = _
  simp only [execPowerStepPin, hb, hf, ho, Bool.not_true, Bool.false_eq_true, or_self, if_false, offered]

section Windows

variable {core : Nat} (hc : core < 576)
include hc

theorem exec_powerWindow_begins (h : (s.core core).cycle.toNat % 64 = 0) :
    exec (.powerWindow core) s = .next (s.modCore core Core.newWindow) := by
  change execPowerWindow core s = _
  simp only [execPowerWindow, Nat.not_le.mpr hc, if_false, h, Nat.sub_zero, Nat.mod_self, if_true]

/-- A core that issues nothing passes the rest of its window. -/
theorem exec_powerWindow_idle (h : (s.core core).cycle.toNat % 64 ≠ 0) (hi : (s.core core).idle = true) :
    exec (.powerWindow core) s = .next (s.powerCycles core (64 - (s.core core).cycle.toNat % 64)) := by
  have hleft : (64 - (s.core core).cycle.toNat % 64) % 64 = 64 - (s.core core).cycle.toNat % 64 := Nat.mod_eq_of_lt (by omega)
  have hpos : 64 - (s.core core).cycle.toNat % 64 ≠ 0 := by omega
  change execPowerWindow core s = _
  simp only [execPowerWindow, Nat.not_le.mpr hc, if_false, hleft, hpos, hi, true_or, if_true]

end Windows

/-! ### Power states (20 R487, R488, R497) -/

theorem exec_idleEntry (hb : s.booted = true) (hon : s.pwr.phase = .on)
    (hd : ∀ n, n < 64 → (s.slot n).state = .bound → (s.slot n).demand = 0) :
    exec .idleEntry s = .next { s with time := s.time + 10000000, pwr := { s.pwr with phase := .idle } } := by
  have hnone : ((List.range 64).any fun n => (s.slot n).state == .bound && (s.slot n).demand != 0) = false := by
    simpa only [List.any_eq_false, List.mem_range, Bool.and_eq_true, beq_iff_eq, bne_iff_ne, ne_eq, not_and, Decidable.not_not] using hd
  change execIdleEntry s = _
  simp only [execIdleEntry, hb, hon, hnone, Bool.not_true, Bool.false_eq_true, ne_eq, not_true_eq_false, or_self, if_false, offered]

/-- The dump of a package that loses its power is on board flash with the wear log committed, and the package is OFF. -/
theorem dumpComplete_dumps (hf : s.pwr.phase = .pfail) (hl : s.sec.lifecycle ≠ .retired) :
    ∃ t, exec .dumpComplete s = .next t ∧ t.pwr.phase = .off ∧ t.mem = [] ∧
      t.sec.flash = some (s.dumpImage (Config.freeBits s.free (2 ^ 22) 96)) ∧ t.creel.wear = s.wear := by
  obtain ⟨hoff, hmem, -, hflash, hcreel, -⟩ := powerOff_fields { s with
    free := s.free + 1
    sec := { s.sec with flash := some (s.dumpImage (Config.freeBits s.free (2 ^ 22) 96)) }
    creel := { s.creel with wear := s.wear } }
  exact ⟨_, dumpComplete_off s hf hl, hoff, hmem, hflash, (congrArg Creel.wear hcreel).trans (wear_recorded _)⟩

theorem powerLost_wipes (ho : s.pwr.phase ≠ .off) : ∃ t, exec .powerLost s = .next t ∧ t.pwr.phase = .off ∧ t.mem = [] ∧
    t.sec.lifecycle = s.sec.lifecycle ∧ t.sec.flash = s.sec.flash ∧ t.creel = s.recorded ∧ ∀ k, t.core k = State.reset.core k := by
  refine ⟨s.powerOff, ?_, powerOff_fields s⟩
  change execPowerLost s = _
  rw [execPowerLost, if_neg ho, offered]

/-! ### The wear log (19 R479) -/

/-- The hour is counted: the time at the next one, and the package's count of hours. -/
def State.countHour (s : State) : State :=
  State.wearAdd { s with time := (s.time / 3600000000000 + 1) * 3600000000000 } (wearPackage + 16) 8 1

/-- A die's temperature, in a bin of free choice, is counted for an hour. -/
def State.countTemperature (s : State) (d : Nat) : State := (s.choose 4).2.wearAdd (wearDie d + 8 * (s.choose 4).1) 8 3600

/-- Counting temperatures touches the wear log and the free choices alone. -/
theorem countTemperatures_eq : ∀ (l : List Nat) (u : State), ∃ n w, l.foldl State.countTemperature u = { u with free := n, wear := w }
  | [], u => ⟨u.free, u.wear, rfl⟩
  | d :: l, u => by
    obtain ⟨n, w, e⟩ := countTemperatures_eq l (u.countTemperature d)
    exact ⟨n, w, e⟩

/-- The log that WEAR_LOG_COMMIT commits to the creel. -/
theorem exec_wearLogCommit (hb : s.booted = true) (hf : s.pwr.phase ≠ .pfail) (ho : s.pwr.phase ≠ .off) {u : State}
    (hu : (List.range 4).foldl State.countTemperature s.countHour = u) :
    exec .wearLogCommit s = .next { u with creel := { u.creel with wear := u.wear } } := by
  subst hu
  change execWearLogCommit s = _
  rw [execWearLogCommit, if_neg (by simp only [hb, hf, ho, Bool.not_true, Bool.false_eq_true, or_self, not_false_eq_true])]
  rfl

theorem wearLogCommit_commits (hb : s.booted = true) (hf : s.pwr.phase ≠ .pfail) (ho : s.pwr.phase ≠ .off) :
    ∃ t, exec .wearLogCommit s = .next t ∧ t.time = (s.time / 3600000000000 + 1) * 3600000000000 ∧ t.creel.wear = t.wear ∧
      t.mem = s.mem ∧ t.cores = s.cores := by
  obtain ⟨n, w, hu⟩ := countTemperatures_eq (List.range 4) s.countHour
  exact ⟨_, exec_wearLogCommit hb hf ho hu, rfl, rfl, rfl, rfl⟩

section Droops

variable {die mv : Nat} (hd : die < 4) (ho : s.pwr.phase ≠ .off)
include hd ho

theorem exec_voltageDroop_shallow (hm : mv < 20) : exec (.voltageDroop die mv) s = .next s := by
  change execVoltageDroop die mv s = _
  simp only [execVoltageDroop, Nat.not_le.mpr hd, ho, or_self, if_false, hm, if_true, offered]

theorem exec_voltageDroop_counted (hm : 20 ≤ mv) :
    exec (.voltageDroop die mv) s = .next (s.wearAdd (wearDie die + 128 + 8 * min 7 ((mv - 20) / 10)) 8 1) := by
  change execVoltageDroop die mv s = _
  simp only [execVoltageDroop, Nat.not_le.mpr hd, ho, or_self, if_false, Nat.not_lt.mpr hm, offered]

end Droops

end PowerEvents

/-- Settles O52: each clause is the law of its event. -/
theorem powerEvents : Obligations.PowerEvents := by
  unfold Obligations.PowerEvents
  intro s
  exact ⟨fun hb hon => ⟨fun _ => powerTick_sheds hb hon, powerTick_exhausted hb hon, fun _ _ => powerTick_unsheds hb hon,
      powerTick_rests hb hon⟩,
    exec_powerStepPin, fun core hc => ⟨exec_powerWindow_begins hc, exec_powerWindow_idle hc⟩, exec_idleEntry, powerFail_phase s,
    dumpComplete_dumps, wearLogCommit_commits, fun die mv hd ho => ⟨exec_voltageDroop_shallow hd ho, exec_voltageDroop_counted hd ho⟩,
    powerLost_wipes⟩

end Sys2Proof.Machine

/-! ## The loader (17 R416 to R435) -/

namespace Sys2Proof.Machine

section LoaderEvents

variable {s : State} {mb : Nat} {asid : BitVec 16}

/-! ### Requests that name a context -/

section Named

variable (ha : s.ownContext mb (s.operand mb 1) = .ok asid)
include ha

/-! #### LOADOBJ (17 R423) -/

section Loadobj

/-- A code object of zas at the address that LOADOBJ names: its header, with the reserved flags and bytes 0. -/
structure ObjectHeader (s : State) (mb : Nat) (asid : BitVec 16) (h : List Byte) : Prop where
  read : s.readVa asid (s.operand mb 2).toNat 64 = some h
  magic : fieldOf h 0 4 = 0x5A434F44
  flags : fieldOf h 0x32 2 < 2
  reserved : fieldOf h 0x34 12 = 0

variable (hs : s.Serves 0x11 mb) {h : List Byte} (hh : ObjectHeader s mb asid h)
include hs hh

theorem loadobj_wrongStepping (hstep : fieldOf h 4 4 ≠ deviceStepping) : Answers .loadobj s mb 7 [] s := by
  obtain ⟨hread, hmagic, hflags, hrsv⟩ := hh
  change execLoadobj s = _
  refine serveRequest_answer hs ((withContext_ok ha _).trans ?_)
  simp only [Nat.add_zero, hread, Nat.reduceEqDiff, if_false]
  rw [if_neg (by omega), if_pos hstep]
  rfl

variable (hstep : fieldOf h 4 4 = deviceStepping)
include hstep

theorem loadobj_badAccount (hb : s.badAccount asid = true) : Answers .loadobj s mb 9 [] s := by
  obtain ⟨hread, hmagic, hflags, hrsv⟩ := hh
  change execLoadobj s = _
  refine serveRequest_answer hs ((withContext_ok ha _).trans ?_)
  simp only [Nat.add_zero, hread, Nat.reduceEqDiff, if_false]
  rw [if_neg (by omega), if_neg (not_not_intro hstep), if_pos hb]
  rfl

/-- LOADOBJ of an object whose parts can be read and for which the heap has room. -/
theorem loadobj_places (hb : s.badAccount asid = false) {code image desc : List Byte} {t : State}
    (hcode : (if fieldOf h 0x1C 4 = 0 then some [] else s.readVa asid ((s.operand mb 2).toNat + fieldOf h 0x18 4) (fieldOf h 0x1C 4)) = some code)
    (himage : (if fieldOf h 0x24 4 = 0 then some [] else s.readVa asid ((s.operand mb 2).toNat + fieldOf h 0x20 4) (fieldOf h 0x24 4)) = some image)
    (hdesc : s.readVa asid ((s.operand mb 2).toNat + fieldOf h 0x28 4) 160 = some desc)
    (ht : s.placeObject asid (fieldOf h 8 16) (fieldOf h 0x30 2) (fieldOf h 0x32 2) desc image code.length (fun _ => code) = some t) :
    Answers .loadobj s mb 0 [] t := by
  obtain ⟨hread, hmagic, hflags, hrsv⟩ := hh
  change execLoadobj s = _
  refine serveRequest_answer hs ((withContext_ok ha _).trans ?_)
  simp only [Nat.add_zero, hread, Nat.reduceEqDiff, if_false]
  rw [if_neg (by omega), if_neg (not_not_intro hstep), if_neg (by rw [hb]; decide)]
  simp only [hcode, himage, hdesc, ht]
  rfl

end Loadobj

/-! #### REGOBJ and UNREGOBJ (17 R423, 14 R385) -/

section Regobj

variable (hs : s.Serves 0x12 mb) (hpos : 0 < (s.operand mb 3).toNat) (hsize : (s.operand mb 3).toNat < 2 ^ 48)
  (hend : (s.operand mb 2).toNat + (s.operand mb 3).toNat ≤ 2 ^ 57)
  (hfree : ∀ o ∈ s.objMap asid, (o.vbase + o.size ≤ (s.operand mb 2).toNat ∨ (s.operand mb 2).toNat + (s.operand mb 3).toNat ≤ o.vbase) ∧
    (o.kind = 1 → o.id ≠ (s.operand mb 4).toNat))
include hs hpos hsize hend hfree

theorem regobj_registers (hroom : (s.objMap asid).length < 4096) : Answers .regobj s mb 0 [] (s.putObjects asid
    (insertObj ⟨(s.operand mb 2).toNat, (s.operand mb 3).toNat, 1, (s.operand mb 4).toNat⟩ (s.objMap asid))) := by
  change execRegobj s = _
  refine serveRequest_answer hs ((withContext_ok ha _).trans ?_)
  dsimp only
  rw [if_neg (regobj_ok hpos hsize hend hfree), State.addObject, if_neg (Nat.not_le.mpr hroom)]
  rfl

theorem regobj_full (hfull : 4096 ≤ (s.objMap asid).length) : Answers .regobj s mb 0x22 [] s := by
  change execRegobj s = _
  refine serveRequest_answer hs ((withContext_ok ha _).trans ?_)
  dsimp only
  rw [if_neg (regobj_ok hpos hsize hend hfree), State.addObject, if_pos hfull]
  rfl

end Regobj

theorem unregobj_removes (hs : s.Serves 0x13 mb) (hmine : ∃ o ∈ s.objMap asid, o.kind = 1 ∧ o.id = (s.operand mb 2).toNat) :
    Answers .unregobj s mb 0 []
      (s.putObjects asid ((s.objMap asid).filter fun o => !(o.kind == 1 && o.id == (s.operand mb 2).toNat))) := by
  have hany : ((s.objMap asid).any fun o => o.kind == 1 && o.id == (s.operand mb 2).toNat) = true := by
    simpa only [List.any_eq_true, Bool.and_eq_true, beq_iff_eq] using hmine
  change execUnregobj s = _
  refine serveRequest_answer hs ((withContext_ok ha _).trans ?_)
  dsimp only
  rw [if_neg (by rw [hany]; decide)]
  rfl

/-! #### MIGOUT and MIGIN (17 R434, R435) -/

/-- MIGOUT of a context whose items are all suspended, in images that migrate and under one launch's op list. -/
theorem migout_writes (hs : s.Serves 0x14 mb) (hsaved : ∀ k ∈ s.coresOf asid, (s.core k).saved = true) {x : Nat × Nat × Item}
    {l : List (Nat × Nat × Item)} (hl : s.suspendedOf asid = x :: l) (hhash : s.launchHash x.1 ≠ 0)
    (hall : ∀ y ∈ x :: l, s.imageMigrates y.2.1 = true ∧ s.launchHash y.1 = s.launchHash x.1) {record : List Byte}
    (hr : migrationRecord (s.launchHash x.1) ((x :: l).map fun y => s.imageBytes y.2.1) = record)
    (hrun : s.systemRun (s.operand mb 2).toNat record.length = true) :
    Answers .migout s mb 0 [] (s.putSystem (s.operand mb 2).toNat record) := by
  have hnone : ((s.coresOf asid).filter fun k => !(s.core k).saved) = [] :=
    List.filter_eq_nil_iff.mpr fun k hk => by rw [hsaved k hk]; decide
  have hgood : ((x :: l).any fun y => !s.imageMigrates y.2.1 || s.launchHash y.1 != s.launchHash x.1) = false :=
    List.any_eq_false.mpr fun y hy => by rw [(hall y hy).1, (hall y hy).2, bne_self_eq_false]; decide
  change execMigout s = _
  refine serveRequest_answer hs ((withContext_ok ha _).trans ?_)
  simp only [hnone, hl, hr, hgood, hhash, hrun, ne_eq, not_true_eq_false, if_false, reduceCtorEq, Bool.not_true, Bool.false_eq_true, or_self]
  rfl

/-- MIGIN of a record for a launch of the context that runs its op list. -/
theorem migin_joins (hs : s.Serves 0x15 mb) {a hash slot : Nat} {t : State} (ea : (s.operand mb 2).toNat = a)
    (ehash : s.memNat (a + 8) 16 = hash)
    (hslot : ((List.range 64).find? fun k => (s.slot k).asid == asid && (s.slot k).launch.isSome && s.launchHash k == hash) = some slot)
    (hrun : s.systemRun a 64 = true) (hmagic : s.memNat a 4 = 0x4856584D) (hrsv : s.memNat (a + 0x28) 24 = 0) (hhash : hash ≠ 0)
    (hplaced : ∃ q ∈ s.fnsOf asid, q.2.hash = hash)
    (ht : (List.range (s.memNat (a + 4) 4)).foldl (fun o i => o.bind fun t =>
      t.migrateItem asid slot (s.memBytes a (64 + s.memNat (a + 0x20) 8)) i) (some s) = some t) :
    Answers .migin s mb 0 [] t := by
  change execMigin s = _
  refine serveRequest_answer hs ((withContext_ok ha _).trans ?_)
  simp only [ea, ehash, hslot, hrun, hmagic, hrsv, hhash, placed_any hplaced, ne_eq, not_true_eq_false, Bool.not_true, Bool.false_eq_true,
    or_self, if_false, ht]
  rfl

end Named

/-! ### Bundling and eviction (17 R426 to R429) -/

section Functions

variable {fn : Nat} {f : CodeFn} (hasid : asid.toNat ≤ 1023) (hfn : fn ≤ 65535) (hf : SMap.get none s.fns (fnKey asid fn) = some f)
include hasid hfn hf

/-- BUNDLING_COMPLETE of a function for which the code heap has room: the code is placed and the stub takes its PLACED form. -/
theorem exec_bundlingComplete_places {h : CodeHeap} {entry size : Nat} {t : State} {p : Nat → Byte} {g : CodeFn}
    (hh : SMap.get none s.heaps asid.toNat = some h) (hst : f.state = .bundling)
    (hsize : Config.bundledSize f.hash f.index (s.profile (s.ctxPart asid)) = size)
    (hp : Config.bundledByte f.hash f.index (s.profile (s.ctxPart asid)) entry = p)
    (hg : { f with state := .placed, entry := entry, size := size, waiting := [], full := false } = g)
    (ht : s.chooseFrom (s.heapRoom asid h size 4) = some (entry, t)) :
    exec (.bundlingComplete asid.toNat fn) s =
      .next (((t.setFn (fnKey asid fn) g).writeCode asid entry ((List.range size).map p)).setStub asid g true) := by
  change execBundlingComplete asid.toNat fn s = _
  simp only [execBundlingComplete, BitVec.ofNat_toNat, BitVec.setWidth_eq, hf, hh, Nat.not_lt.mpr hasid, Nat.not_lt.mpr hfn, hst, hsize, ht,
    hp, hg, ne_eq, not_true_eq_false, or_self, if_false, offered]

/-- CODE_EVICT of a function that nothing of its context names and no core has a trapping stub of still to take. -/
theorem exec_codeEvict_frees (hst : f.state = .evicting) (hfree : s.codeFree asid f = true)
    (hp : ∀ p ∈ s.patches, p.asid = asid → p.va ≠ f.stub + 8) :
    exec (.codeEvict asid.toNat fn) s = .next (s.setFn (fnKey asid fn) { f with state := .unplaced, entry := 0, size := 0 }) := by
  have hnone : (s.patches.any fun p => p.asid == asid && p.va == f.stub + 8) = false := by
    simpa only [List.any_eq_false, Bool.and_eq_true, beq_iff_eq, not_and] using hp
  change execCodeEvict asid.toNat fn s = _
  simp only [execCodeEvict, BitVec.ofNat_toNat, BitVec.setWidth_eq, hf, Nat.not_lt.mpr hasid, Nat.not_lt.mpr hfn, hst, hfree, hnone, ne_eq,
    not_true_eq_false, Bool.not_true, Bool.false_eq_true, or_self, if_false, offered]

end Functions

end LoaderEvents

/-- Settles O54: each clause is the law of its request or event. -/
theorem loaderEvents : Obligations.LoaderEvents := by
  unfold Obligations.LoaderEvents
  intro s mb asid w ha
  refine ⟨fun hs hb => place_answers s mb asid ha hs hb, fun hs h hread hmagic hflags hrsv => ?load,
    fun hs hpos hsize hend hfree => ⟨regobj_registers ha hs hpos hsize hend hfree, regobj_full ha hs hpos hsize hend hfree⟩,
    unregobj_removes ha, fun hs hsaved x l hl hhash hall => migout_writes ha hs hsaved hl hhash hall rfl,
    fun hs slot t hslot hrun hmagic hrsv hhash hplaced =>
      migin_joins ha hs rfl rfl hslot hrun hmagic hrsv hhash hplaced,
    fun fn f h entry t hasid hfn hf hh hst => exec_bundlingComplete_places hasid hfn hf hh hst rfl rfl rfl,
    fun fn f hasid hfn hf => exec_codeEvict_frees hasid hfn hf⟩
  case load =>
    have hh : ObjectHeader s mb asid h := ⟨hread, hmagic, hflags, hrsv⟩
    exact ⟨loadobj_wrongStepping ha hs hh, loadobj_badAccount ha hs hh,
      fun code image desc t hstep hb => loadobj_places ha hs hh hstep hb⟩

end Sys2Proof.Machine

/-! ## The error log as cores see it (18 R438, R441, R442) -/

namespace Sys2Proof.Machine

/-! ### Commands that answer with a register -/

/-- A command leaves `x` in s[D] one bundle later, and no other core changed. -/
def AnswersWord (s t : State) (d : BitVec 6) (x : W64) : Prop :=
  (t.core s.cur).Agrees (s.now.later 1 (.s d x)) ∧ ∀ k, k ≠ s.cur → t.core k = s.core k

/-- The command that acts on the machine beside its own core by `f` and answers with `y` in s[D]: it performs, and what it leaves is `f` of
the charged state but for its core, which is one bundle later with the answer (08 R268). -/
theorem command_answers {s : State} {m : OpSem} {op : BitVec 8} {g : Guard} {runs : Nat → Core → Bool} {rd : List (BitVec 6)} {i : Instr}
    {x : W64} {d : BitVec 6} {f : State → State} {y : State → W64} (h : s.Issues .s g none)
    (hm : m = { command op g runs rd with check5 := m.check5, fatal := m.fatal, wait := m.wait, perform := m.perform })
    (hsys : s.now.cr.sys = true) (hr : runs s.cur s.now = true) (h5 : m.check5 s s.cur (s.view m) = none)
    (hf : m.fatal s s.cur (s.view m) = none) (hwait : m.wait s s.cur (s.view m) = none) (hw : i.slotWord = some (m.slot, x))
    (hc : i.check1 = none)
    (hp : ∀ a : Acc, m.perform s.cur (s.view m) a = { a with st := f a.st }.core s.cur fun c => c.pendWrite 1 (.s d (y a.st)))
    (hcore : ∀ u, s.Charged u → (f u).core s.cur = u.core s.cur) :
    ∃ u t, s.Charged u ∧ runSolo m i s = .next t ∧ t = { f u with cores := t.cores } ∧
      (t.core s.cur).Agrees (s.now.later 1 (.s d (y u))) ∧ ∀ k, k ≠ s.cur → t.core k = (f u).core k := by
  obtain ⟨u, hu, hrun⟩ := runSolo_performs (command_performs h hm hsys hr h5 hf hwait) hw hc
  rw [command_begun hm, hp] at hrun
  refine ⟨u, _, hu, hrun, rfl, State.close_later h.quiet ?_ rfl rfl, fun k hk => ?_⟩
  · have hwrite : ((f u).modCore s.cur fun c => c.pendWrite 1 (.s d (y u))).core s.cur = (u.core s.cur).pendWrite 1 (.s d (y u)) := by
      rw [State.core_modCore, hcore u hu]
    exact hwrite ▸ (Core.plain_pendWrite 1 (.s d (y u))).agrees hu.core
  · exact (State.core_close_ne _ _ hk).trans (State.core_modCore_ne _ _ hk)

/-! ### What a record's bytes are -/

theorem getD_append_skip {l r : List Byte} {n j : Nat} (hl : l.length = n) (h : n ≤ j) : (l ++ r).getD j 0 = r.getD (j - n) 0 := by
  rw [getD_append_right (hl ▸ h), hl]

section LogRecords

variable {s u : State}

theorem State.SameMaps.ctxPart (h : s.SameMaps u) (asid : BitVec 16) : u.ctxPart asid = s.ctxPart asid := by
  simp only [State.ctxPart, h.memNat, h.ctxEntry]

theorem State.Charged.asid (hu : s.Charged u) : (u.core s.cur).cr.asid = (s.core s.cur).cr.asid := by
  obtain ⟨_, _, _, _, _, e⟩ := Core.agrees_iff.mp hu.core
  rw [e]

/-- The bytes of a record from its CODE on, as a tile core's append leaves them: its own partition, context and number in their places
(18 R441). -/
def tileRecord (bs : List Byte) (part asid source : Nat) : List Byte :=
  bs.take 3 ++ leBytes 1 part ++ leBytes 2 asid ++ leBytes 2 source ++ bs.drop 8

theorem length_tileRecord {bs : List Byte} (hl : bs.length = 48) (part asid source : Nat) : (tileRecord bs part asid source).length = 48 := by
  simp only [tileRecord, List.length_append, List.length_take, List.length_drop, length_leBytes, hl]
  rfl

theorem getD_tileRecord {bs : List Byte} (hl : bs.length = 48) (part asid source j : Nat) :
    (tileRecord bs part asid source).getD j 0 =
      if j = 3 then BitVec.ofNat 8 part
      else if 4 ≤ j ∧ j < 6 then BitVec.ofNat 8 (asid / 2 ^ (8 * (j - 4)))
      else if 6 ≤ j ∧ j < 8 then BitVec.ofNat 8 (source / 2 ^ (8 * (j - 6)))
      else bs.getD j 0 := by
  have h3 : (bs.take 3).length = 3 := by rw [List.length_take, hl]; rfl
  simp only [tileRecord, List.append_assoc]
  rcases Nat.lt_or_ge j 3 with hj | hj
  · rw [getD_append_left (by omega), if_neg (by omega), if_neg (by omega), if_neg (by omega), List.getD, List.getD,
      List.getElem?_take_of_lt hj]
  rw [getD_append_skip h3 hj]
  by_cases e3 : j = 3
  · subst e3
    rw [if_pos rfl, getD_append_left (by rw [length_leBytes]; omega), getD_leBytes _ _ _ (by omega)]
    simp only [Nat.sub_self, Nat.mul_zero, Nat.pow_zero, Nat.div_one]
  rw [if_neg e3, getD_append_skip (length_leBytes ..) (by omega), Nat.sub_sub]
  rcases Nat.lt_or_ge j 6 with h6 | h6
  · rw [if_pos (by omega), getD_append_left (by rw [length_leBytes]; omega), getD_leBytes _ _ _ (by omega)]
  rw [if_neg (by omega), getD_append_skip (length_leBytes ..) (by omega), Nat.sub_sub]
  rcases Nat.lt_or_ge j 8 with h8 | h8
  · rw [if_pos (by omega), getD_append_left (by rw [length_leBytes]; omega), getD_leBytes _ _ _ (by omega)]
  · rw [if_neg (by omega), getD_append_skip (length_leBytes ..) (by omega), Nat.sub_sub, List.getD, List.getD, List.getElem?_drop]
    congr 2
    omega

/-- The bytes from its CODE on of the record that a core appends from memory. -/
def State.appended (s : State) (key a : Nat) : List Byte :=
  if key < 576 then
    tileRecord (s.memBytes (a + 0x10) 48) (s.ctxPart (s.core key).cr.asid) (s.core key).cr.asid.toNat (sourceOf key)
  else s.memBytes (a + 0x10) 48

theorem State.length_appended (key a : Nat) : (s.appended key a).length = 48 := by
  unfold State.appended
  split
  · exact length_tileRecord (s.length_memBytes ..) ..
  · exact s.length_memBytes ..

/-- LOGR.app appends those bytes under the next number. -/
theorem State.logrApp_eq (key a : Nat) : ∃ cls part, s.logrApp key a = s.logRaw cls part (s.appended key a) := by
  unfold State.logrApp State.appended
  split <;> exact ⟨_, _, rfl⟩

theorem State.core_logrApp (key a k : Nat) : (s.logrApp key a).core k = s.core k := by
  obtain ⟨cls, part, e⟩ := s.logrApp_eq key a
  rw [e]
  rfl

theorem State.Charged.appended (hu : s.Charged u) (hun : s.Unaccounted) (a : Nat) : u.appended s.cur a = s.appended s.cur a := by
  have hsm := hu.sameMaps hun
  simp only [State.appended, hu.asid, hsm.memBytes, hsm.ctxPart]

theorem State.getD_appended (a : Nat) {i : Nat} (hlo : 16 ≤ i) (hhi : i < 64) : (s.appended s.cur a).getD (i - 16) 0 =
    if s.cur < 576 ∧ i = 0x13 then BitVec.ofNat 8 (s.ctxPart s.now.cr.asid)
    else if s.cur < 576 ∧ 0x14 ≤ i ∧ i < 0x16 then BitVec.ofNat 8 (s.now.cr.asid.toNat / 2 ^ (8 * (i - 0x14)))
    else if s.cur < 576 ∧ 0x16 ≤ i ∧ i < 0x18 then BitVec.ofNat 8 (sourceOf s.cur / 2 ^ (8 * (i - 0x16)))
    else s.memByte (a + i) := by
  have hbyte : (s.memBytes (a + 0x10) 48).getD (i - 16) 0 = s.memByte (a + i) := by
    rw [State.getD_memBytes _ (by omega)]
    congr 1
    omega
  unfold State.appended
  split
  · next ht =>
    rw [getD_tileRecord (s.length_memBytes ..), hbyte]
    have e3 : i - 16 = 3 ↔ i = 0x13 := by omega
    have e4 : (4 ≤ i - 16 ∧ i - 16 < 6) ↔ 0x14 ≤ i ∧ i < 0x16 := by omega
    have e6 : (6 ≤ i - 16 ∧ i - 16 < 8) ↔ 0x16 ≤ i ∧ i < 0x18 := by omega
    simp only [ht, true_and, e3, e4, e6, Nat.sub_sub, Nat.reduceAdd]
    rfl
  · next ht => rw [hbyte, if_neg fun h => ht h.1, if_neg fun h => ht h.1, if_neg fun h => ht h.1]

/-- The 64 bytes of a record (18 R438). -/
theorem State.memByte_logRaw (cls part : Nat) {rest : List Byte} (hl : rest.length = 48) (x : Nat) :
    (s.logRaw cls part rest).memByte x = if s.recordAt s.logSeq ≤ x ∧ x < s.recordAt s.logSeq + 64 then
      (leBytes 8 s.logSeq ++ leBytes 8 s.time ++ rest).getD (x - s.recordAt s.logSeq) 0 else s.memByte x := by
  have hlen : (leBytes 8 s.logSeq ++ leBytes 8 s.time ++ rest).length = 64 := by
    simp only [List.length_append, length_leBytes, hl]
  have := s.memByte_memWrite (s.recordAt s.logSeq) x (leBytes 8 s.logSeq ++ leBytes 8 s.time ++ rest)
  rw [hlen] at this
  exact this

/-! ### LOGR.app (18 R441) -/

/-- What LOGR.app asks of the record it finds: a class and a code that the core may append. -/
theorem appendOk_of {key a : Nat} (h : if key < 576 then 0x0F00 ≤ s.memNat (a + 0x10) 2 ∧ s.memNat (a + 0x10) 2 ≤ 0x0FFF ∧
      s.memNat (a + 0x12) 1 % 4 = 0
    else s.memNat (a + 0x10) 2 ≠ 0 ∧ s.memNat (a + 0x12) 1 < 4 ∧ s.memNat (a + 0x13) 1 < 32) : s.appendOk key a = true := by
  unfold State.appendOk
  split at h
  · next hk => simpa only [hk, if_true, Bool.and_eq_true, decide_eq_true_eq, beq_iff_eq, and_assoc] using h
  · next hk => simpa only [hk, if_false, Bool.and_eq_true, decide_eq_true_eq, bne_iff_ne, and_assoc] using h

/-- What LOGR.read writes to memory: the 64 bytes of the record that it found. -/
def State.copyRecord (s : State) (a : Nat) : Option Nat → State
  | none => s
  | some n => (s.memWrite a (s.memBytes (s.recordAt n) 64)).sendAll none a 64

theorem State.core_copyRecord (a : Nat) (o : Option Nat) (k : Nat) : (s.copyRecord a o).core k = s.core k := by
  cases o with
  | none => rfl
  | some n =>
    obtain ⟨p, e⟩ := State.sendAll_eq (s.memWrite a (s.memBytes (s.recordAt n) 64)) none a 64
    rw [State.copyRecord, e]
    rfl

theorem State.logSeq_copyRecord (a : Nat) (o : Option Nat) : (s.copyRecord a o).logSeq = s.logSeq := by
  cases o with
  | none => rfl
  | some n =>
    obtain ⟨p, e⟩ := State.sendAll_eq (s.memWrite a (s.memBytes (s.recordAt n) 64)) none a 64
    rw [State.copyRecord, e]
    rfl

theorem State.memByte_copyRecord (a n x : Nat) : (s.copyRecord a (some n)).memByte x =
    if a ≤ x ∧ x < a + 64 then s.memByte (s.recordAt n + (x - a)) else s.memByte x := by
  obtain ⟨p, e⟩ := State.sendAll_eq (s.memWrite a (s.memBytes (s.recordAt n) 64)) none a 64
  have hbyte : (s.copyRecord a (some n)).memByte x = (s.memWrite a (s.memBytes (s.recordAt n) 64)).memByte x := by
    rw [State.copyRecord, e]
    rfl
  rw [hbyte, State.memByte_memWrite, State.length_memBytes]
  split
  · exact State.getD_memBytes s (by omega)
  · rfl

/-- A record that LOGR.read may give: from the number on, still held, and one that the core may read. -/
def State.Readable (s : State) (b n : Nat) : Prop :=
  b ≤ n ∧ s.logSeq ≤ n + 65536 ∧ n < s.logSeq ∧ (576 ≤ s.cur ∨ s.memNat (s.recordAt n + 0x13) 1 % 32 = s.ctxPart s.now.cr.asid)

theorem mayRead_iff {n : Nat} : s.mayRead s.cur n = true ↔
    576 ≤ s.cur ∨ s.memNat (s.recordAt n + 0x13) 1 % 32 = s.ctxPart s.now.cr.asid := by
  simp only [State.mayRead, Bool.or_eq_true, decide_eq_true_eq, beq_iff_eq]
  rfl

/-- The numbers that a search from `b` goes through. -/
theorem mem_searched {b n : Nat} :
    n ∈ (List.range (s.logSeq - max b (s.logSeq - 65536))).map (fun i => max b (s.logSeq - 65536) + i) ↔
      b ≤ n ∧ s.logSeq ≤ n + 65536 ∧ n < s.logSeq := by
  simp only [List.mem_map, List.mem_range]
  refine ⟨?_, fun h => ⟨n - max b (s.logSeq - 65536), by omega, by omega⟩⟩
  rintro ⟨i, hi, rfl⟩
  omega

theorem findRecord_first {b n : Nat} (hn : s.Readable b n) (hfirst : ∀ m, m < n → ¬ s.Readable b m) :
    s.findRecord b (s.mayRead s.cur) = some n := by
  obtain ⟨hb, hheld, hlt, hmay⟩ := hn
  refine find_first ?_ (mem_searched.mpr ⟨hb, hheld, hlt⟩) (mayRead_iff.mpr hmay) fun m hm hmn => ?_
  · exact List.Pairwise.map _ (fun i j hij => Nat.add_lt_add_left hij _) List.pairwise_lt_range
  · obtain ⟨hb', hheld', hlt'⟩ := mem_searched.mp hm
    exact Bool.eq_false_iff.mpr fun hr => hfirst m hmn ⟨hb', hheld', hlt', mayRead_iff.mp hr⟩

theorem findRecord_none {b : Nat} (hnone : ∀ n, ¬ s.Readable b n) : s.findRecord b (s.mayRead s.cur) = none := by
  refine List.find?_eq_none.mpr fun n hn hr => ?_
  obtain ⟨hb, hheld, hlt⟩ := mem_searched.mp hn
  exact hnone n ⟨hb, hheld, hlt, mayRead_iff.mp hr⟩

/-- A search finds the same record once the cycle has been charged. -/
theorem State.Charged.findRecord (hu : s.Charged u) (hun : s.Unaccounted) (b : Nat) :
    u.findRecord b (u.mayRead s.cur) = s.findRecord b (s.mayRead s.cur) := by
  have hsm := hu.sameMaps hun
  have hseq : u.logSeq = s.logSeq := by rw [hu.rest]
  have hmay : u.mayRead s.cur = s.mayRead s.cur := funext fun n => by
    simp only [State.mayRead, State.recordAt, hsm.bases, hsm.memNat, hsm.ctxPart, hu.asid]
  simp only [State.findRecord, hseq, hmay]

theorem recordOk_none {op : BitVec 8} {x : W64} {a : Nat} (ea : x.toNat = a) (ha : a < 2 ^ 52) (h64 : a % 64 = 0) : recordOk op x = none :=
  rangeUnless_true (by rw [ea, decide_eq_true ha, h64]; rfl)

section Commands

variable {g : Guard} {w : SR} {a : Nat} (h : s.Issues .s g none) (hsys : s.now.cr.sys = true) (hun : s.Unaccounted)
  (ea : (s.now.sReg w.a).toNat = a) (ha : a < 2 ^ 52) (h64 : a % 64 = 0) (hrun : s.systemRun a 64 = true)
include h hsys hun ea ha h64 hrun

/-- LOGR.app of a record that the core may append. -/
theorem logrApp_appends (hc : (Instr.logrApp g w).check1 = none) (hok : s.appendOk s.cur a = true) :
    ∃ t, exec (.logrApp g w) s = .next t ∧ AnswersWord s t w.d (BitVec.ofNat 64 s.logSeq) ∧ t.logSeq = s.logSeq + 1 ∧
      ∀ x, t.memByte x = if s.recordAt s.logSeq ≤ x ∧ x < s.recordAt s.logSeq + 64 then
        (leBytes 8 s.logSeq ++ leBytes 8 s.time ++ s.appended s.cur a).getD (x - s.recordAt s.logSeq) 0 else s.memByte x := by
  have h5 : (semLogrApp g w).check5 s s.cur (s.view (semLogrApp g w)) = none := by
    simp only [semLogrApp, State.view_s h.quiet, recordOk_none ea ha h64, ea, hrun, if_true, rangeUnless_true hok]
    rfl
  have hfatal : (semLogrApp g w).fatal s s.cur (s.view (semLogrApp g w)) = none :=
    systemFatal_none (by rw [State.view_s h.quiet, ea]; exact hrun)
  obtain ⟨u, t, hu, hexec, ht, hnow, hothers⟩ := command_answers (m := semLogrApp g w) (i := .logrApp g w) (d := w.d)
    (f := fun u => u.logrApp s.cur a) (y := fun u => BitVec.ofNat 64 u.logSeq) h rfl hsys rfl h5 hfatal rfl rfl hc
    (fun acc => by simp only [semLogrApp, State.view_s h.quiet, ea]) fun _ _ => State.core_logrApp ..
  have hseq : u.logSeq = s.logSeq := by rw [hu.rest]
  have htime : u.time = s.time := by rw [hu.rest]
  have hrec : u.recordAt s.logSeq = s.recordAt s.logSeq := by rw [hu.rest]; rfl
  have hmem : ∀ x, u.memByte x = s.memByte x := fun x => by rw [State.memByte, (hu.memory hun).1]; rfl
  obtain ⟨cls, part, e⟩ := u.logrApp_eq s.cur a
  rw [hseq] at hnow
  refine ⟨t, hexec, ⟨hnow, fun k hk => (hothers k hk).trans ((State.core_logrApp ..).trans (hu.others k hk))⟩, ?_, fun x => ?_⟩
  · rw [ht, e]
    exact congrArg (· + 1) hseq
  · have hbyte : t.memByte x = (u.logRaw cls part (u.appended s.cur a)).memByte x := by rw [ht, e]; rfl
    rw [hbyte, State.memByte_logRaw cls part (State.length_appended ..), hseq, htime, hrec, hu.appended hun, hmem]

/-! ### LOGR.read (18 R441, R442) -/

section Read

variable (hc : (Instr.logrRead g w).check1 = none)
include hc

/-- LOGR.read answers with the record that it finds, if any: `o` is its number. -/
theorem logrRead_answers {o : Option Nat} (ho : s.findRecord (s.now.sReg w.b).toNat (s.mayRead s.cur) = o) :
    ∃ u t, s.Charged u ∧ exec (.logrRead g w) s = .next t ∧ t = { u.copyRecord a o with cores := t.cores } ∧
      AnswersWord s t w.d (BitVec.ofNat 64 (o.getD (2 ^ 63 + s.logSeq))) := by
  have h5 : (semLogrRead g w).check5 s s.cur (s.view (semLogrRead g w)) = none := by
    simp only [semLogrRead, State.view_s h.quiet, recordOk_none ea ha h64]
  have hfatal : (semLogrRead g w).fatal s s.cur (s.view (semLogrRead g w)) = none :=
    systemFatal_none (by rw [State.view_s h.quiet, ea]; exact hrun)
  obtain ⟨u, t, hu, hexec, ht, hnow, hothers⟩ := command_answers (m := semLogrRead g w) (i := .logrRead g w) (d := w.d)
    (f := fun u => u.copyRecord a (u.findRecord (s.now.sReg w.b).toNat (u.mayRead s.cur)))
    (y := fun u => BitVec.ofNat 64 ((u.findRecord (s.now.sReg w.b).toNat (u.mayRead s.cur)).getD (2 ^ 63 + u.logSeq)))
    h rfl hsys rfl h5 hfatal rfl rfl hc
    (fun acc => by
      simp only [semLogrRead, State.view_s h.quiet, ea]
      cases acc.st.findRecord (s.now.sReg w.b).toNat (acc.st.mayRead s.cur) <;> rfl)
    fun _ _ => State.core_copyRecord ..
  have hfound := (hu.findRecord hun _).trans ho
  have hseq : u.logSeq = s.logSeq := by rw [hu.rest]
  simp only [hfound, hseq] at ht hnow hothers
  exact ⟨u, t, hu, hexec, ht, hnow, fun k hk => (hothers k hk).trans ((State.core_copyRecord ..).trans (hu.others k hk))⟩

end Read

end Commands

end LogRecords

/-- Settles O25: LOGR.app's clause reads the bytes of the appended record off, and LOGR.read's are the law with what its search finds. -/
theorem logRecords : Obligations.LogRecords := by
  unfold Obligations.LogRecords
  intro s g w h hsys hun a b record code cls answers ha h64 hrun
  refine ⟨fun hc hok => ?app, fun hc => ⟨fun n hn hfirst => ?found, fun hnone => ?none⟩⟩
  case app =>
    obtain ⟨t, hexec, hans, hseq, hmem⟩ := logrApp_appends h hsys hun rfl ha h64 hrun hc (appendOk_of hok)
    have hrec : s.recordAt s.logSeq = record s.logSeq := rfl
    rw [hrec, List.append_assoc] at hmem
    have hin : ∀ i, i < 64 → t.memByte (record s.logSeq + i) =
        (leBytes 8 s.logSeq ++ (leBytes 8 s.time ++ s.appended s.cur a)).getD i 0 := fun i hi => by
      rw [hmem, if_pos (by omega), Nat.add_sub_cancel_left]
    refine ⟨t, hexec, hans, hseq, fun x hx => ?_, ?_, ?_, fun i hlo hhi => ?_⟩
    · exact (hmem x).trans (if_neg (by omega))
    · refine (State.memNat_of (x := s.logSeq) fun i hi => ?_).trans (congrArg (s.logSeq % ·) (show 256 ^ 8 = 2 ^ 64 by decide))
      rw [hin i (by omega), getD_append_left (by rw [length_leBytes]; exact hi), getD_leBytes _ _ _ hi]
    · refine (State.memNat_of (x := s.time) fun i hi => ?_).trans (congrArg (s.time % ·) (show 256 ^ 8 = 2 ^ 64 by decide))
      rw [Nat.add_assoc, hin (8 + i) (by omega), getD_append_skip (length_leBytes ..) (by omega), Nat.add_sub_cancel_left,
        getD_append_left (by rw [length_leBytes]; exact hi), getD_leBytes _ _ _ hi]
    · rw [hin i hhi, getD_append_skip (length_leBytes ..) (by omega), getD_append_skip (length_leBytes ..) (by omega), Nat.sub_sub]
      exact State.getD_appended a hlo hhi
  case found =>
    obtain ⟨u, t, hu, hexec, ht, hans⟩ := logrRead_answers h hsys hun rfl ha h64 hrun hc (findRecord_first hn hfirst)
    have hmem : ∀ x, u.memByte x = s.memByte x := fun x => by rw [State.memByte, (hu.memory hun).1]; rfl
    have hrec : u.recordAt n = record n := by rw [hu.rest]; rfl
    refine ⟨t, hexec, hans, ?_, fun x => ?_⟩
    · rw [ht, hu.rest]
      exact State.logSeq_copyRecord ..
    · have hbyte : t.memByte x = (u.copyRecord a (some n)).memByte x := by rw [ht]; rfl
      rw [hbyte, State.memByte_copyRecord, hmem, hmem, hrec]
  case none =>
    obtain ⟨u, t, hu, hexec, ht, hans⟩ := logrRead_answers h hsys hun rfl ha h64 hrun hc (findRecord_none hnone)
    exact ⟨t, hexec, hans, by rw [ht]; exact (hu.memory hun).1⟩

end Sys2Proof.Machine

/-! ## Skeins (19 R460 to R466) -/

namespace Sys2Proof.Machine

/-! ### What SKEINLD makes of the segments -/

/-- SKEINLD by the ACTION of its target descriptor: the status word, and the state (19 R465, log 26). -/
def State.skeinld (s : State) (die off : Nat) (b : W64) : W64 × State :=
  if b.extractLsb' 28 4 = 0 then s.skeinLoad die off b else s.skeinRelease die off b

/-- The free segments within reach of a site, nearest first (19 R460, R465). -/
def State.freeInReach (s : State) (die site : Nat) : List Nat := (reach site).filter fun i => segState (s.segment die i) == 0

/-- The segments that are ACTIVE under a skein for a target. -/
def State.ownedBy (s : State) (die id : Nat) (t : Nat × Nat × Nat) : List Nat :=
  (List.range 2304).filter fun i => segState (s.segment die i) == 2 && ((s.segment die i).extractLsb' 0 32).toNat == id &&
    segOwner (s.segment die i) == t

/-- The state after a load that takes segments for its target; the creel records it. -/
def State.takeSegments (s : State) (die off : Nat) (b : W64) (l : List Nat) : State :=
  let t := l.foldl (fun t i => t.setSegment die i (activeSegment (skeinTarget b) (s.skein off 4 4))) s
  { t with creel := { t.creel with skeins := t.creel.skeins ++ [(die, off, b.toNat)] } }

/-- A format of a core is undefined (19 R463). -/
def Core.clearFormat (n : Nat) (c : Core) : Core := { c with fmtBits := SMap.set 0 c.fmtBits n 0 }

/-- The state after a release that frees its owner's segments: the creel forgets the load, and a FORMAT skein's format is undefined. -/
def State.freeSegments (s : State) (die off : Nat) (b : W64) (l : List Nat) : State :=
  let t := l.foldl (fun t i => t.setSegment die i 0) s
  let t := if s.skein off 8 1 = 3 then t.modCore (144 * die + (skeinTarget b).1) (Core.clearFormat (s.skein off 0x15 1 % 16))
    else t
  { t with creel := { t.creel with
      skeins := t.creel.skeins.filter fun q => !(q.1 == die && skeinTarget (BitVec.ofNat 64 q.2.2) == skeinTarget b && q.2.1 == off) } }

section Skeins

variable {s u : State} {die off : Nat} {b : W64}

theorem mem_freeInReach_lt {n i : Nat} {site : Nat} (h : i ∈ (s.freeInReach die site).take n) : i < 2304 :=
  reach_lt (List.mem_filter.mp (List.mem_of_mem_take h)).1

theorem skeinld_scanning (h : s.siteScanning die (skeinTarget b).1 = true) :
    s.skeinld die off b = (skeinStatus (s.skein off 4 4) 0 0 6, s) := by
  unfold State.skeinld
  split
  · simp only [State.skeinLoad, h, if_true]
  · simp only [State.skeinRelease, h, if_true]

section Load

variable (h0 : b.extractLsb' 28 4 = 0) (hs : s.siteScanning die (skeinTarget b).1 = false)
include h0 hs

theorem skeinld_refused {code : Nat} (hc : s.skeinCheck off = some code) :
    s.skeinld die off b = (skeinStatus (s.skein off 4 4) 0 0 code, s) := by
  rw [State.skeinld, if_pos h0]
  simp only [State.skeinLoad, hs, Bool.false_eq_true, if_false, hc]

variable (hc : s.skeinCheck off = none) (hunit : s.skein off 0x14 1 = (skeinTarget b).2.1) (htype : s.skein off 8 1 ≠ 3)
include hc hunit htype

theorem skeinld_noSegments (hn : (s.freeInReach die (skeinTarget b).1).length < s.skein off 0x0A 2) :
    s.skeinld die off b = (skeinStatus (s.skein off 4 4) 0 0 5, s) := by
  have hfew : ((s.freeInReach die (skeinTarget b).1).take (s.skein off 0x0A 2)).length < s.skein off 0x0A 2 := by
    rw [List.length_take]
    omega
  simp only [State.freeInReach] at hfew
  rw [State.skeinld, if_pos h0]
  simp only [State.skeinLoad, hs, hc, hunit, hfew, beq_eq_false_iff_ne.mpr htype, Bool.false_eq_true, ne_eq, not_true_eq_false,
    false_and, or_self, if_false, if_true]

theorem skeinld_loads {l : List Nat} (hn : s.skein off 0x0A 2 ≤ (s.freeInReach die (skeinTarget b).1).length)
    (hl : (s.freeInReach die (skeinTarget b).1).take (s.skein off 0x0A 2) = l) :
    s.skeinld die off b =
      (skeinStatus (s.skein off 4 4) (l.foldl min (l.headD 0)) (s.skein off 0x0A 2) 0, s.takeSegments die off b l) := by
  have henough : ¬l.length < s.skein off 0x0A 2 := by
    rw [← hl, List.length_take]
    omega
  simp only [State.freeInReach] at hl
  rw [State.skeinld, if_pos h0]
  simp only [State.skeinLoad, hs, hc, hunit, hl, henough, beq_eq_false_iff_ne.mpr htype, Bool.false_eq_true, ne_eq, not_true_eq_false,
    false_and, or_self, if_false, State.takeSegments]

end Load

section Release

variable (h1 : b.extractLsb' 28 4 ≠ 0) (hs : s.siteScanning die (skeinTarget b).1 = false)
include h1 hs

theorem skeinld_notLoaded (hl : s.ownedBy die (s.skein off 4 4) (skeinTarget b) = []) :
    s.skeinld die off b = (skeinStatus (s.skein off 4 4) 0 0 7, s) := by
  simp only [State.ownedBy] at hl
  rw [State.skeinld, if_neg h1]
  simp only [State.skeinRelease, hs, hl, Bool.false_eq_true, if_false, if_true]

variable (hl : s.ownedBy die (s.skein off 4 4) (skeinTarget b) ≠ [])
include hl

theorem skeinld_busy (hi : (s.core (144 * die + (skeinTarget b).1)).item.isSome = true) :
    s.skeinld die off b = (skeinStatus (s.skein off 4 4) 0 0 6, s) := by
  simp only [State.ownedBy] at hl
  rw [State.skeinld, if_neg h1]
  simp only [State.skeinRelease, hs, hl, hi, Bool.false_eq_true, if_false, true_or, if_true]

theorem skeinld_releases (hi : (s.core (144 * die + (skeinTarget b).1)).item = none) (hunit : (skeinTarget b).2.1 ≠ 8) :
    s.skeinld die off b = (skeinStatus (s.skein off 4 4) 0 (s.ownedBy die (s.skein off 4 4) (skeinTarget b)).length 0,
      s.freeSegments die off b (s.ownedBy die (s.skein off 4 4) (skeinTarget b))) := by
  have hfree : ¬((s.core (144 * die + (skeinTarget b).1)).item.isSome = true) := by rw [hi]; decide
  simp only [State.ownedBy] at hl
  rw [State.skeinld, if_neg h1]
  simp only [State.skeinRelease, hs, hl, hfree, hunit, Bool.false_eq_true, if_false, false_and, or_self]
  rfl

end Release

/-! ### What the two states hold -/

theorem takeSegments_eq {l : List Nat} (hl : ∀ i ∈ l, i < 2304) : ∃ sg cr, s.takeSegments die off b l = { s with segments := sg, creel := cr } ∧
    ∀ d i, i < 2304 → SMap.get 0 sg (2304 * d + i) =
      if d = die ∧ i ∈ l then activeSegment (skeinTarget b) (s.skein off 4 4) else s.segment d i := by
  obtain ⟨sg, e, hsg⟩ := seg_foldl die (fun _ => activeSegment (skeinTarget b) (s.skein off 4 4)) l s hl
    (fun t i => t.setSegment die i (activeSegment (skeinTarget b) (s.skein off 4 4))) fun _ _ => rfl
  exact ⟨sg, _, by rw [State.takeSegments, e], hsg⟩

/-- Segments and cores after a release. -/
theorem freeSegments_eq {l : List Nat} (hl : ∀ i ∈ l, i < 2304) :
    (∀ k, k ≠ 144 * die + (skeinTarget b).1 → (s.freeSegments die off b l).core k = s.core k) ∧
    ∀ d i, i < 2304 → (s.freeSegments die off b l).segment d i = if d = die ∧ i ∈ l then 0 else s.segment d i := by
  obtain ⟨sg, e, hsg⟩ := seg_foldl die (fun _ => 0) l s hl (fun t i => t.setSegment die i 0) fun _ _ => rfl
  simp only [State.freeSegments, e]
  split
  · exact ⟨fun k hk => State.core_modCore_ne { s with segments := sg } (Core.clearFormat _) hk, hsg⟩
  · exact ⟨fun k _ => rfl, hsg⟩

/-! ### The instruction -/

theorem State.Charged.skein (hu : s.Charged u) (off at' n : Nat) : u.skein off at' n = s.skein off at' n := by rw [hu.rest]; rfl
theorem State.Charged.skeinCheck (hu : s.Charged u) (off : Nat) : u.skeinCheck off = s.skeinCheck off := by rw [hu.rest]; rfl
theorem State.Charged.segment (hu : s.Charged u) (d i : Nat) : u.segment d i = s.segment d i := by rw [hu.rest]; rfl
theorem State.Charged.siteScanning (hu : s.Charged u) (die site : Nat) : u.siteScanning die site = s.siteScanning die site := by
  rw [hu.rest]; rfl

theorem State.Charged.freeInReach (hu : s.Charged u) (die site : Nat) : u.freeInReach die site = s.freeInReach die site := by
  simp only [State.freeInReach, hu.segment]
theorem State.Charged.ownedBy (hu : s.Charged u) (die id : Nat) (t : Nat × Nat × Nat) : u.ownedBy die id t = s.ownedBy die id t := by
  simp only [State.ownedBy, hu.segment]

/-- The tests that SKEINLD makes of its operands (19 R465). -/
structure SkeinOperands (s : State) (die off : Nat) (b : W64) : Prop where
  aligned : off % 4096 = 0
  inside : off + 256 ≤ 2 ^ 32
  high : b.extractLsb' 32 32 = 0
  middle : b.extractLsb' 24 4 = 0
  low : b.extractLsb' 16 4 = 0
  action : (b.extractLsb' 28 4).toNat < 2
  unitInstance : (skeinTarget b).2.2 < unitInstances (skeinTarget b).2.1
  site : (skeinTarget b).1 < 144
  serving : s.siteDropped (144 * die + (skeinTarget b).1) = false

theorem SkeinOperands.ok {key : Nat} {a : W64} (h : SkeinOperands s die off b) (ea : a.toNat = off) (hkey : key - 576 = die) :
    s.skeinOk key a b = true := by
  obtain ⟨haligned, hinside, hhigh, hmiddle, hlow, haction, hinst, hsite, hserving⟩ := h
  unfold State.siteDropped at hserving
  simp only [State.skeinOk, ea, hkey, haligned, hinside, hhigh, hmiddle, hlow, haction, hinst, hsite, decide_true, beq_self_eq_true, Bool.and_self,
    Bool.true_and]
  generalize s.siteState (144 * die + (skeinTarget b).1) = x at hserving ⊢
  cases x with
  | dropped => cases hserving
  | _ => rfl

/-- The target is a tile core, another than the supervisor that issues. -/
theorem SkeinOperands.cur_ne (h : SkeinOperands s die off b) (hsv : s.Supervises die) : s.cur ≠ 144 * die + (skeinTarget b).1 := by
  have hsite := h.site
  obtain ⟨hcur, hdie, -⟩ := hsv
  omega

/-- Either form of SKEINLD answers with its status word and leaves what it makes of the segments. -/
theorem skeinld_answers {g : Guard} {w : SR} {i : Instr} {x : W64} {f : State → State} (h : s.Issues .s g none) (hsv : s.Supervises die)
    (hi : i = .skeinldLoad g w ∨ i = .skeinldRelease g w) (hc : i.check1 = none) (ea : (s.now.sReg w.a).toNat = off)
    (eb : s.now.sReg w.b = b) (hok : SkeinOperands s die off b) (hr : ∀ u, s.Charged u → u.skeinld die off b = (x, f u))
    (hcore : ∀ u, s.Charged u → (f u).core s.cur = u.core s.cur) :
    ∃ u t, s.Charged u ∧ exec i s = .next t ∧ t.segments = (f u).segments ∧ (t.core s.cur).Agrees (s.now.later 1 (.s w.d x)) := by
  obtain ⟨hcur, _, hsup, hsys⟩ := hsv
  have hdie : s.cur - 576 = die := by omega
  have hexec : exec i s = runSolo (skeinOp g w) i s := by rcases hi with rfl | rfl <;> rfl
  have hword : ∃ wd, i.slotWord = some ((skeinOp g w).slot, wd) := by rcases hi with rfl | rfl <;> exact ⟨_, rfl⟩
  obtain ⟨wd, hword⟩ := hword
  have h5 : (skeinOp g w).check5 s s.cur (s.view (skeinOp g w)) = none := rangeUnless_true (by
    rw [State.view_s h.quiet, State.view_s h.quiet, eb]
    exact hok.ok ea hdie)
  obtain ⟨u, t, hu, hrun, ht, hnow, -⟩ := command_answers (m := skeinOp g w) (i := i) (d := w.d)
    (f := fun u => (u.skeinld die off b).2) (y := fun u => (u.skeinld die off b).1) h rfl hsys hsup h5 rfl rfl hword hc
    (fun acc => by simp only [skeinOp, State.view_s h.quiet, ea, eb, hdie, State.skeinld])
    fun v hv => by rw [hr v hv]; exact hcore v hv
  rw [hr u hu] at hnow
  refine ⟨u, t, hu, hexec.trans hrun, ?_, hnow⟩
  rw [ht, hr u hu]

end Skeins

section Outcomes

variable {s : State} {die off : Nat} {b : W64} {g : Guard} {w : SR} (h : s.Issues .s g none) (hsv : s.Supervises die)
  (ea : (s.now.sReg w.a).toNat = off) (eb : s.now.sReg w.b = b) (hok : SkeinOperands s die off b)
include h hsv ea eb hok

/-- SKEINLD leaves the status word of the skein in s[D]. -/
def SkeinAnswers (s t : State) (off : Nat) (d : BitVec 6) (first nseg code : Nat) : Prop :=
  (t.core s.cur).Agrees (s.now.later 1 (.s d (skeinStatus (s.skein off 4 4) first nseg code)))

/-- An outcome in which no segment changes. -/
theorem skeinld_keeps {i : Instr} (hi : i = .skeinldLoad g w ∨ i = .skeinldRelease g w) (hc : i.check1 = none) {code : Nat}
    (hr : ∀ u, s.Charged u → u.skeinld die off b = (skeinStatus (u.skein off 4 4) 0 0 code, u)) :
    ∃ t, exec i s = .next t ∧ SkeinAnswers s t off w.d 0 0 code ∧ t.segments = s.segments := by
  obtain ⟨u, t, hu, hexec, hseg, hnow⟩ := skeinld_answers (f := fun u => u) h hsv hi hc ea eb hok
    (fun u hu => hu.skein off 4 4 ▸ hr u hu) fun _ _ => rfl
  exact ⟨t, hexec, hnow, hseg.trans (by rw [hu.rest])⟩

/-- A load that finds segments enough takes the nearest of them. -/
theorem skeinldLoad_takes (hc : (Instr.skeinldLoad g w).check1 = none) (h0 : b.extractLsb' 28 4 = 0)
    (hs : s.siteScanning die (skeinTarget b).1 = false) (hck : s.skeinCheck off = none) (hunit : s.skein off 0x14 1 = (skeinTarget b).2.1)
    (htype : s.skein off 8 1 ≠ 3) {l : List Nat} (hn : s.skein off 0x0A 2 ≤ (s.freeInReach die (skeinTarget b).1).length)
    (hl : (s.freeInReach die (skeinTarget b).1).take (s.skein off 0x0A 2) = l) :
    ∃ t, exec (.skeinldLoad g w) s = .next t ∧ SkeinAnswers s t off w.d (l.foldl min (l.headD 0)) (s.skein off 0x0A 2) 0 ∧
      ∀ d i, i < 2304 → t.segment d i =
        if d = die ∧ i ∈ l then activeSegment (skeinTarget b) (s.skein off 4 4) else s.segment d i := by
  have hlt : ∀ i ∈ l, i < 2304 := fun i hi => mem_freeInReach_lt (hl ▸ hi)
  obtain ⟨u, t, hu, hexec, hseg, hnow⟩ := skeinld_answers (f := fun u => u.takeSegments die off b l) h hsv (.inl rfl) hc ea eb hok
    (x := skeinStatus (s.skein off 4 4) (l.foldl min (l.headD 0)) (s.skein off 0x0A 2) 0)
    (fun u hu => by
      have hload := skeinld_loads h0 ((hu.siteScanning ..).trans hs) ((hu.skeinCheck off).trans hck) ((hu.skein ..).trans hunit)
        (by rw [hu.skein]; exact htype) (l := l) (by rw [hu.skein, hu.freeInReach]; exact hn) (by rw [hu.skein, hu.freeInReach]; exact hl)
      rwa [hu.skein, hu.skein] at hload)
    fun u _ => by
      obtain ⟨sg, cr, e, -⟩ := takeSegments_eq (s := u) (die := die) (off := off) (b := b) hlt
      rw [e]
      rfl
  obtain ⟨sg, cr, e, hsg⟩ := takeSegments_eq (s := u) (die := die) (off := off) (b := b) hlt
  refine ⟨t, hexec, hnow, fun d i hi => ?_⟩
  rw [State.segment, hseg, e, ← hu.segment, ← hu.skein]
  exact hsg d i hi

/-- A release of a load whose site holds no item frees the owner's segments. -/
theorem skeinldRelease_frees (hc : (Instr.skeinldRelease g w).check1 = none) (h1 : b.extractLsb' 28 4 ≠ 0)
    (hs : s.siteScanning die (skeinTarget b).1 = false) {l : List Nat} (hl : s.ownedBy die (s.skein off 4 4) (skeinTarget b) = l)
    (hne : l ≠ []) (hi : (s.core (144 * die + (skeinTarget b).1)).item = none) (hunit : (skeinTarget b).2.1 ≠ 8) :
    ∃ t, exec (.skeinldRelease g w) s = .next t ∧ SkeinAnswers s t off w.d 0 l.length 0 ∧
      ∀ d i, i < 2304 → t.segment d i = if d = die ∧ i ∈ l then 0 else s.segment d i := by
  have hlt : ∀ i ∈ l, i < 2304 := fun i hi => List.mem_range.mp (List.mem_filter.mp (hl ▸ hi)).1
  have hcur := hok.cur_ne hsv
  obtain ⟨u, t, hu, hexec, hseg, hnow⟩ := skeinld_answers (f := fun u => u.freeSegments die off b l) h hsv (.inr rfl) hc ea eb hok
    (fun u hu => by
      have hlu : u.ownedBy die (u.skein off 4 4) (skeinTarget b) = l := by rw [hu.skein, hu.ownedBy]; exact hl
      rw [skeinld_releases h1 ((hu.siteScanning ..).trans hs) (by rw [hlu]; exact hne) (by rw [hu.others _ hcur.symm]; exact hi) hunit, hlu, hu.skein])
    fun u _ => (freeSegments_eq hlt).1 _ hcur
  refine ⟨t, hexec, hnow, fun d i hi => ?_⟩
  rw [State.segment, hseg, ← hu.segment]
  exact (freeSegments_eq hlt).2 d i hi

end Outcomes

/-- Settles O28: SKEINLD makes the same of the charged state as of the state, and each clause is one of its outcomes. -/
theorem skeinLoads : Obligations.SkeinLoads := by
  unfold Obligations.SkeinLoads
  intro s g w die h hsv hun b off site unit inst id n answers free haligned hinside hhigh hmiddle hlow hinst htarget hserving
  have hsite : site < 144 := by
    have hlt := htarget.1
    rwa [BitVec.toNat_setWidth, Nat.mod_eq_of_lt (Nat.lt_trans (b.extractLsb' 0 8).isLt (by decide))] at hlt
  have hops : (b.extractLsb' 28 4).toNat < 2 → SkeinOperands s die off b := fun ha =>
    ⟨haligned, hinside, hhigh, hmiddle, hlow, ha, hinst, hsite, hserving⟩
  refine ⟨fun i hi hc ha hscan => ?scanning, fun hc h0 hscan => ?load, fun hc h1 hscan => ?release⟩
  case scanning =>
    exact skeinld_keeps h hsv rfl rfl (hops ha) hi hc fun u hu => skeinld_scanning ((hu.siteScanning ..).trans hscan)
  case load =>
    have hok := hops (by rw [h0]; decide)
    have hkeeps := fun code => skeinld_keeps h hsv rfl rfl hok (.inl rfl) hc (code := code)
    refine ⟨fun code hck => hkeeps code fun u hu => skeinld_refused h0 ((hu.siteScanning ..).trans hscan) ((hu.skeinCheck off).trans hck),
      fun hck hunit htype => ⟨fun hfew => hkeeps 5 fun u hu => ?few,
        fun henough => skeinldLoad_takes h hsv rfl rfl hok hc h0 hscan hck hunit htype henough rfl⟩⟩
    exact skeinld_noSegments h0 ((hu.siteScanning ..).trans hscan) ((hu.skeinCheck off).trans hck) ((hu.skein ..).trans hunit)
      (by rw [hu.skein]; exact htype) (by rw [hu.skein, hu.freeInReach]; exact hfew)
  case release =>
    have hok := hops (by rw [h1]; decide)
    have h1' : b.extractLsb' 28 4 ≠ 0 := by rw [h1]; decide
    have hkeeps := fun code => skeinld_keeps h hsv rfl rfl hok (.inr rfl) hc (code := code)
    have hmine : ∀ u, s.Charged u → u.ownedBy die (u.skein off 4 4) (skeinTarget b) = s.ownedBy die id (skeinTarget b) := fun u hu => by
      rw [hu.skein, hu.ownedBy]
    refine ⟨fun hnone => hkeeps 7 fun u hu => skeinld_notLoaded h1' ((hu.siteScanning ..).trans hscan) ((hmine u hu).trans hnone),
      fun hne hbusy => hkeeps 6 fun u hu => ?busy,
      fun hne hidle hunit => skeinldRelease_frees h hsv rfl rfl hok hc h1' hscan rfl hne hidle hunit⟩
    exact skeinld_busy h1' ((hu.siteScanning ..).trans hscan) (by rw [hmine u hu]; exact hne)
      (by rw [hu.others _ (hok.cur_ne hsv).symm]; exact hbusy)

end Sys2Proof.Machine

/-! ## RELOC and FWDPUB (15 R389, R395, R396, R398, R399) -/

namespace Sys2Proof.Machine

section Reads

variable {s t u : State}

theorem memByte_of_mem (h : t.mem = s.mem) (x : Nat) : t.memByte x = s.memByte x := by rw [State.memByte, h]; rfl
theorem memNat_of_mem (h : t.mem = s.mem) (a n : Nat) : t.memNat a n = s.memNat a n := State.memNat_congr fun _ _ => memByte_of_mem h _

theorem State.SameMaps.hcbAddr (h : s.SameMaps u) (asid : BitVec 16) (heap : Nat) : u.hcbAddr asid heap = s.hcbAddr asid heap := by
  simp only [State.hcbAddr, h.bases]

theorem State.SameMaps.ctxState (h : s.SameMaps u) (asid : BitVec 16) : u.ctxState asid = s.ctxState asid := by
  simp only [State.ctxState, h.memNat, h.ctxEntry]

theorem State.Charged.reloc (hu : s.Charged u) (die : Nat) : u.reloc die = s.reloc die := by rw [hu.rest]; rfl

end Reads

/-! ### The relocation engine's commands -/

section Engine

variable {s u : State} {die a : Nat}

theorem State.relocs_postHcb (r : Reloc) : (s.postHcb r).relocs = s.relocs := by unfold State.postHcb; split <;> rfl
theorem State.cores_postHcb (r : Reloc) : (s.postHcb r).cores = s.cores := by unfold State.postHcb; split <;> rfl

theorem State.cores_putReloc (r : Reloc) : (s.putReloc die r).cores = s.cores := State.cores_postHcb r

theorem State.reloc_putReloc (r : Reloc) (d : Nat) : (s.putReloc die r).reloc d = if d = die then r else s.reloc d := by
  rw [State.reloc, State.putReloc, State.relocs_postHcb]
  exact SMap.get_set ..

section Posted

variable {r : Reloc} {h : Nat} (hh : s.hcbAddr r.asid r.heap = h)
include hh

/-- A set's control block holds the state that its engine has posted (15 R389). -/
theorem memNat_state_putReloc (hr : r.page = none) : (s.putReloc die r).memNat h 1 = r.state % 256 := by
  have hpost : s.putReloc die r =
      (((s.setReloc die r).memPut h 1 r.state).memPut (h + 0x18) 4 r.done).memPut (h + 0x1C) 4 r.skipped := by
    rw [State.putReloc, State.postHcb, if_neg (by rw [hr]; decide), ← hh]
    rfl
  rw [hpost, State.memNat_memPut_ne _ (by omega), State.memNat_memPut_ne _ (by omega), State.memNat_memPut, Nat.pow_one]

/-- Nothing of memory changes but the state and the two counts of the control block. -/
theorem memByte_putReloc {x : Nat} (h0 : x ≠ h) (h1 : x < h + 0x18 ∨ h + 0x20 ≤ x) : (s.putReloc die r).memByte x = s.memByte x := by
  have hhcb : (s.setReloc die r).hcbAddr r.asid r.heap = h := hh
  unfold State.putReloc State.postHcb
  split
  · rfl
  · simp only [State.memByte_memPut, hhcb]
    rw [if_neg (by omega), if_neg (by omega), if_neg (by omega)]
    rfl

end Posted

/-- A descriptor of an evacuation set that 15 R395 admits, for an engine without a set in hand. -/
structure Evacuates (s : State) (die a : Nat) : Prop where
  fresh : (s.reloc die).state ≠ 1
  settled : (s.reloc die).state ≠ 2
  run : s.systemRun a 128 = true
  reserved : s.memNat (a + 0x22) 94 = 0
  kind : s.memNat a 1 = 0
  ok : s.evacuationOk die a = true

theorem Evacuates.charged (h : Evacuates s die a) (hu : s.Charged u) (hun : s.Unaccounted) : Evacuates u die a := by
  have hsm := hu.sameMaps hun
  obtain ⟨hfresh, hsettled, hrun, hrsv, hkind, hok⟩ := h
  have he := hu.reloc die
  exact ⟨he ▸ hfresh, he ▸ hsettled, (sameRun hsm ..).trans hrun, (hsm.memNat ..).trans hrsv, (hsm.memNat ..).trans hkind,
    (sameEvac hsm ..).trans hok⟩

/-- The control block of the heap that a descriptor names. -/
def State.setHcb (s : State) (a : Nat) : Nat := s.hcbAddr (BitVec.ofNat 16 (s.memNat (a + 2) 2)) (s.memNat (a + 1) 1)

/-- The engine as RELOC.start leaves it for an evacuation set. -/
def State.newSet (s : State) (die a : Nat) : Reloc :=
  { state := 1, desc := a, asid := BitVec.ofNat 16 (s.memNat (a + 2) 2), heap := s.memNat (a + 1) 1, count := s.memNat (a + 4) 4
    list := s.memNat (a + 8) 8, paused := (s.reloc die).paused }

theorem State.SameMaps.setHcb (h : s.SameMaps u) (a : Nat) : u.setHcb a = s.setHcb a := by simp only [State.setHcb, h.memNat, h.hcbAddr]

theorem State.Charged.newSet (hu : s.Charged u) (hun : s.Unaccounted) (die a : Nat) : u.newSet die a = s.newSet die a := by
  simp only [State.newSet, (hu.sameMaps hun).memNat, hu.reloc]

theorem relocStart_busy (h : (s.reloc die).state = 1 ∨ (s.reloc die).state = 2) : s.relocStart die a = (1, s) := by
  simp only [State.relocStart, h, if_true]

/-- RELOC.start of an admitted set turns on the size of the heap's forwarding table and the state of its control block. -/
theorem relocStart_admitted (h : Evacuates s die a) : s.relocStart die a =
    if 2 ^ s.memNat (s.setHcb a + 4) 1 < 2 * s.memNat (a + 4) 4 then (3, s)
    else if s.memNat (s.setHcb a) 1 ≠ 0 then (4, s)
    else (0, (s.memPut (s.setHcb a + 0x10) 8 a).putReloc die (s.newSet die a)) := by
  obtain ⟨hfresh, hsettled, hrun, hrsv, hkind, hok⟩ := h
  simp only [State.relocStart, hfresh, hsettled, hrun, hrsv, hkind, hok, Bool.not_true, Bool.false_eq_true, ne_eq, not_true_eq_false,
    Nat.reduceLeDiff, or_self, if_false, if_true]
  rfl

theorem relocAbort_idle (h : (s.reloc die).state ≠ 1) : s.relocAbort die = (5, s) := by
  simp only [State.relocAbort, h, ne_eq, not_false_eq_true, if_true]

theorem relocAbort_active (h : (s.reloc die).state = 1) : s.relocAbort die =
    (0, s.putReloc die { s.reloc die with state := if (s.reloc die).move.isSome then 2 else 3 }) := by
  simp only [State.relocAbort, h, ne_eq, not_true_eq_false, if_false]

end Engine

/-- RELOC leaves the status word of the die's engine, which is as `e`, in s[D], and no other core or engine changed (15 R396). -/
def RelocAnswers (s t : State) (die : Nat) (d : BitVec 6) (e : Reloc) (code : Nat) : Prop :=
  (t.core s.cur).Agrees (s.now.later 1 (.s d (e.status code))) ∧ (∀ k, k ≠ s.cur → t.core k = s.core k) ∧
    ∀ j, t.reloc j = if j = die then e else s.reloc j

section Commands

variable {s : State} {g : Guard} {w : SR} {die a : Nat} {i : Instr} {x : W64} {f : State → Nat → Nat → Nat × State}
  (h : s.Issues .s g none) (hsv : s.Supervises die) (hi : exec i s = runSolo (relocOp g w f) i s) (hw : i.slotWord = some (.s, x))
  (hc : i.check1 = none) (hfn : w.fn.extractLsb' 0 2 ≠ 3) (ea : (s.now.sReg w.a).toNat = a) (ha : a < 2 ^ 52) (h128 : a % 128 = 0)
include h hsv hi hw hc hfn ea ha h128

/-- A form of RELOC that makes `v u` of the charged state `u`, with its engine as `e`. -/
theorem reloc_answers {code : Nat} {e : Reloc} {v : State → State} (hr : ∀ u, s.Charged u → f u die a = (code, v u))
    (hcores : ∀ u, s.Charged u → (v u).cores = u.cores)
    (hreloc : ∀ u, s.Charged u → ∀ j, (v u).reloc j = if j = die then e else s.reloc j) :
    ∃ u t, s.Charged u ∧ exec i s = .next t ∧ t.mem = (v u).mem ∧ RelocAnswers s t die w.d e code := by
  subst ea
  obtain ⟨u, t, hu, hrun, hmem, hrelocs, hnow, hothers⟩ := reloc_common (f := f) h hsv hw hc hfn ha h128
    fun u hu => by rw [hr u hu]; exact hcores u hu
  rw [hr u hu] at hmem hrelocs hnow
  rw [hreloc u hu, if_pos rfl] at hnow
  exact ⟨u, t, hu, hi.trans hrun, hmem, hnow, hothers, fun j => by rw [State.reloc, hrelocs]; exact hreloc u hu j⟩

/-- A form of RELOC that only answers with a code. -/
theorem reloc_reports (hun : s.Unaccounted) {code : Nat} (hr : ∀ u, s.Charged u → f u die a = (code, u)) :
    ∃ t, exec i s = .next t ∧ RelocAnswers s t die w.d (s.reloc die) code ∧ t.mem = s.mem := by
  obtain ⟨u, t, hu, hexec, hmem, hans⟩ := reloc_answers (v := fun u => u) h hsv hi hw hc hfn ea ha h128 hr (fun _ _ => rfl) fun u hu j => by
    rw [hu.reloc]
    split
    · next e => rw [e]
    · rfl
  exact ⟨t, hexec, hans, hmem.trans (hu.memory hun).1⟩

end Commands

/-- RELOC.start of an admitted set on a heap in state 0 with a forwarding table large enough. -/
theorem relocStart_starts {s : State} {g : Guard} {w : SR} {die a : Nat} (h : s.Issues .s g none) (hsv : s.Supervises die)
    (hun : s.Unaccounted) (hc : (Instr.relocStart g w).check1 = none) (hfn : w.fn.extractLsb' 0 2 ≠ 3) (ea : (s.now.sReg w.a).toNat = a)
    (ha : a < 2 ^ 52) (h128 : a % 128 = 0) (hev : Evacuates s die a)
    (hfit : 2 * s.memNat (a + 4) 4 ≤ 2 ^ s.memNat (s.setHcb a + 4) 1) (hst : s.memNat (s.setHcb a) 1 = 0) :
    ∃ t, exec (.relocStart g w) s = .next t ∧ t.memNat (s.setHcb a) 1 = 1 ∧ t.memNat (s.setHcb a + 0x10) 8 = a ∧
      (∀ x, x < s.setHcb a ∨ s.setHcb a + 0x20 ≤ x → t.memByte x = s.memByte x) ∧ RelocAnswers s t die w.d (s.newSet die a) 0 := by
  obtain ⟨u, t, hu, hexec, hmem, hans⟩ := reloc_answers (i := .relocStart g w) (f := State.relocStart)
    (v := fun u => (u.memPut (s.setHcb a + 0x10) 8 a).putReloc die (s.newSet die a)) h hsv rfl rfl hc hfn ea ha h128
    (fun u hu => by
      have hsm := hu.sameMaps hun
      rw [relocStart_admitted (hev.charged hu hun), hsm.setHcb, hsm.memNat, hsm.memNat, hsm.memNat, hu.newSet hun,
        if_neg (Nat.not_lt.mpr hfit), if_neg (not_not_intro hst)])
    (fun u _ => State.cores_putReloc _) fun u hu j => by rw [State.reloc_putReloc]; congr 1; exact hu.reloc j
  have hsm := hu.sameMaps hun
  have hhcb : (u.memPut (s.setHcb a + 0x10) 8 a).hcbAddr (s.newSet die a).asid (s.newSet die a).heap = s.setHcb a := hsm.hcbAddr ..
  refine ⟨t, hexec, ?_, ?_, fun x hx => ?_, hans⟩
  · rw [memNat_of_mem hmem, memNat_state_putReloc hhcb rfl]
    rfl
  · rw [memNat_of_mem hmem]
    refine (State.memNat_congr fun i hi => memByte_putReloc hhcb (by omega) (by omega)).trans ?_
    rw [State.memNat_memPut]
    omega
  · rw [memByte_of_mem hmem, memByte_putReloc hhcb (by omega) (by omega), State.memByte_memPut, if_neg (by omega), memByte_of_mem hsm.mem]

/-- RELOC.abort of a running set: an object in hand is finished first (15 R399). -/
theorem relocAbort_aborts {s : State} {g : Guard} {w : SR} {die a : Nat} (h : s.Issues .s g none) (hsv : s.Supervises die)
    (hc : (Instr.relocAbort g w).check1 = none) (hfn : w.fn.extractLsb' 0 2 ≠ 3) (ea : (s.now.sReg w.a).toNat = a)
    (ha : a < 2 ^ 52) (h128 : a % 128 = 0) (hst : (s.reloc die).state = 1) : ∃ t, exec (.relocAbort g w) s = .next t ∧
      RelocAnswers s t die w.d { s.reloc die with state := if (s.reloc die).move.isSome then 2 else 3 } 0 := by
  obtain ⟨u, t, -, hexec, -, hans⟩ := reloc_answers (i := .relocAbort g w) (f := fun s die _ => s.relocAbort die)
    (v := fun u => u.putReloc die { s.reloc die with state := if (s.reloc die).move.isSome then 2 else 3 }) h hsv rfl rfl hc hfn ea ha h128
    (fun u hu => by rw [relocAbort_active (by rw [hu.reloc]; exact hst), hu.reloc])
    (fun u _ => State.cores_putReloc _) fun u hu j => by rw [State.reloc_putReloc, hu.reloc]
  exact ⟨t, hexec, hans⟩

/-! ### FWDPUB (15 R389, R398) -/

section Publish

variable {s u : State} {asid : BitVec 16} {heap : Nat}

theorem item_coreDefault (k : Nat) : (coreDefault k).item = none := by unfold coreDefault; split <;> rfl

/-- The cores of a context: the tile cores that hold an item of it. -/
theorem mem_coresOf {k : Nat} : k ∈ s.coresOf asid ↔
    (s.core k).supervisor = false ∧ (s.core k).item.isSome = true ∧ (s.core k).cr.asid = asid := by
  simp only [State.coresOf, List.mem_filter, Bool.and_eq_true, Bool.not_eq_true', beq_iff_eq, and_assoc]
  refine ⟨fun h => h.2, fun h => ⟨Decidable.byContradiction fun hk => ?_, h⟩⟩
  have hcore : s.core k = coreDefault k := SMap.get_absent _ _ _ fun q hq e => hk (List.mem_map.mpr ⟨q, hq, e⟩)
  have hitem := h.2.1
  rw [hcore, item_coreDefault] at hitem
  cases hitem

/-- The engines whose COPIED set has been published. -/
def State.publishSets (s : State) (asid : BitVec 16) (heap : Nat) (l : List Nat) : State :=
  l.foldl (fun s d =>
    let r := s.reloc d
    if r.state = 3 ∧ r.page = none ∧ r.asid = asid ∧ r.heap = heap then s.setReloc d { r with state := 4 } else s) s

theorem publishSets_eq : ∀ (l : List Nat) (s : State), ∃ r, s.publishSets asid heap l = { s with relocs := r }
  | [], s => ⟨s.relocs, rfl⟩
  | d :: l, s => by
    by_cases h : (s.reloc d).state = 3 ∧ (s.reloc d).page = none ∧ (s.reloc d).asid = asid ∧ (s.reloc d).heap = heap
    · obtain ⟨r, e⟩ := publishSets_eq l (s.setReloc d { s.reloc d with state := 4 })
      exact ⟨r, by rw [State.publishSets, List.foldl_cons, if_pos h]; exact e⟩
    · obtain ⟨r, e⟩ := publishSets_eq l s
      exact ⟨r, by rw [State.publishSets, List.foldl_cons, if_neg h]; exact e⟩

/-- GOODCOLOR with a heap's colour replaced. -/
def goodColors (word : BitVec 32) (heap : Nat) (c : BitVec 3) : BitVec 32 :=
  (word &&& ~~~BitVec.ofNat 32 (7 <<< (3 * heap))) ||| BitVec.ofNat 32 (c.toNat <<< (3 * heap))

theorem getLsbD_goodColors (word : BitVec 32) (c : BitVec 3) {i : Nat} (hi : i < 32) : (goodColors word heap c).getLsbD i =
    if 3 * heap ≤ i ∧ i < 3 * heap + 3 then c.getLsbD (i - 3 * heap) else word.getLsbD i := by
  have h7 : ∀ j, (7 : Nat).testBit j = decide (j < 3) := fun j => Nat.testBit_two_pow_sub_one 3 j
  have hc : c.toNat.testBit (i - 3 * heap) = c.getLsbD (i - 3 * heap) := rfl
  simp only [goodColors, BitVec.getLsbD_or, BitVec.getLsbD_and, BitVec.getLsbD_not, BitVec.getLsbD_ofNat, Nat.testBit_shiftLeft, h7, hi, hc,
    decide_true, Bool.true_and]
  by_cases hlo : 3 * heap ≤ i
  · by_cases hhi : i < 3 * heap + 3
    · simp [hlo, hhi, show i - 3 * heap < 3 by omega]
    · simp [hlo, hhi, show ¬i - 3 * heap < 3 by omega, BitVec.getLsbD_of_ge c (i - 3 * heap) (by omega)]
  · simp [hlo]

/-- The two writes of a publication: GOOD of the control block, and the heap's colour in GOODCOLOR. -/
def State.writeColour (s : State) (asid : BitVec 16) (heap : Nat) : State :=
  (s.memPut (s.hcbAddr asid heap + 1) 1 (s.good asid heap + 1).toNat).memPut (s.ctxEntry asid + 0x40) 4
    (goodColors (BitVec.ofNat 32 (s.memNat (s.ctxEntry asid + 0x40) 4)) heap (s.good asid heap + 1)).toNat

/-- A publication writes memory, marks engines and sends the colour, and touches nothing else. -/
theorem publishHeap_eq (s : State) (asid : BitVec 16) (heap : Nat) : ∃ r, s.publishHeap asid heap =
    (s.coresOf asid).foldl (recolour heap (s.good asid heap + 1)) { s.writeColour asid heap with relocs := r } := by
  obtain ⟨r, e⟩ := publishSets_eq (asid := asid) (heap := heap) (List.range 4) (s.writeColour asid heap)
  have hcores : ((s.writeColour asid heap).publishSets asid heap (List.range 4)).coresOf asid = s.coresOf asid := by
    rw [e]
    rfl
  refine ⟨r, ?_⟩
  change (((s.writeColour asid heap).publishSets asid heap (List.range 4)).coresOf asid).foldl (recolour heap (s.good asid heap + 1))
    ((s.writeColour asid heap).publishSets asid heap (List.range 4)) = _
  rw [hcores, e]

theorem mem_publishHeap : (s.publishHeap asid heap).mem = (s.writeColour asid heap).mem := by
  obtain ⟨r, e⟩ := publishHeap_eq s asid heap
  obtain ⟨-, -, -, -, hrest⟩ := coresOf_spec heap (s.good asid heap + 1) 0 (s.coresOf asid) { s.writeColour asid heap with relocs := r }
  rw [e, hrest]

/-- A core after a publication: the colour is on its way to it where it is one of the context's. -/
theorem core_publishHeap (k : Nat) :
    (s.publishHeap asid heap).core k = { s.core k with recolors := ((s.publishHeap asid heap).core k).recolors } ∧
      (k ∈ s.coresOf asid → (heap, s.good asid heap + 1) ∈ ((s.publishHeap asid heap).core k).recolors) ∧
      (k ∉ s.coresOf asid → (s.publishHeap asid heap).core k = s.core k) := by
  obtain ⟨r, e⟩ := publishHeap_eq s asid heap
  obtain ⟨hcore, -, hsent, hother, -⟩ := coresOf_spec heap (s.good asid heap + 1) k (s.coresOf asid) { s.writeColour asid heap with relocs := r }
  rw [e]
  exact ⟨hcore, hsent, hother⟩

theorem State.SameMaps.good (h : s.SameMaps u) (asid : BitVec 16) (heap : Nat) : u.good asid heap = s.good asid heap := by
  simp only [State.good, h.hcbAddr, h.memNat]

/-- What the two writes leave in memory, where they do not meet. -/
theorem memNat_writeColour {h e : Nat} (hh : s.hcbAddr asid heap = h) (he : s.ctxEntry asid + 0x40 = e) (hd : h + 1 < e ∨ e + 4 ≤ h + 1) :
    (s.writeColour asid heap).memNat (h + 1) 1 = (s.good asid heap + 1).toNat ∧
    (∀ x, x ≠ h + 1 → x < e ∨ e + 4 ≤ x → (s.writeColour asid heap).memByte x = s.memByte x) ∧
    ∀ i, i < 32 → ((s.writeColour asid heap).memNat e 4).testBit i =
      if 3 * heap ≤ i ∧ i < 3 * heap + 3 then (s.good asid heap + 1).getLsbD (i - 3 * heap) else (s.memNat e 4).testBit i := by
  unfold State.writeColour
  rw [hh, he]
  refine ⟨?_, fun x h1 h2 => ?_, fun i hi => ?_⟩
  · rw [State.memNat_memPut_ne _ (by omega), State.memNat_memPut]
    omega
  · rw [State.memByte_memPut, if_neg (by omega), State.memByte_memPut, if_neg (by omega)]
  · rw [State.memNat_memPut, show 256 ^ 4 = 2 ^ 32 by decide, Nat.mod_eq_of_lt (BitVec.isLt _)]
    refine (getLsbD_goodColors _ _ hi).trans ?_
    rw [BitVec.getLsbD_ofNat, decide_eq_true hi, Bool.true_and]

/-- A supervisor that waits for the cores of a context to take a colour. -/
def Core.awaitsRecolor (asid : BitVec 16) (heap : Nat) (l : List (Nat × BitVec 3)) (c : Core) : Core :=
  { c with recolors := l, await := .recolor asid heap }

/-- FWDPUB of a COPIED heap of a live context performs, and what it leaves is the publication but for its own core, which waits. -/
theorem fwdpub_publishes {g : Guard} {w : SR} {die : Nat} (h : s.Issues .s g none) (hsv : s.Supervises die)
    (hc : (Instr.fwdpub g w).check1 = none) (ha : (s.now.sReg w.a).toNat < 1024) (hheap : (s.now.sReg w.b).toNat = heap)
    (hlt : heap < 8) (easid : (s.now.sReg w.a).extractLsb' 0 16 = asid) (hlive : s.ctxState asid = 1)
    (hst : s.memNat (s.hcbAddr asid heap) 1 = 3) :
    ∃ u t, s.Charged u ∧ exec (.fwdpub g w) s = .next t ∧ t.mem = (u.publishHeap asid heap).mem ∧
      (∀ k, k ≠ s.cur → t.core k = (u.publishHeap asid heap).core k) ∧
      (t.core s.cur).await = .recolor asid heap ∧ (t.core s.cur).pc = s.now.pc + 12 := by
  obtain ⟨-, -, hsup, hsys⟩ := hsv
  have hq := h.quiet
  have h5 : (semFwdpub g w).check5 s s.cur (s.view (semFwdpub g w)) = none := rangeUnless_true (by
    simp only [State.view_s hq, ha, hheap, hlt, easid, hlive, hst, decide_true, beq_self_eq_true, Bool.and_self])
  obtain ⟨u, hu, hrun⟩ := runSolo_performs (i := .fwdpub g w) (command_performs (m := semFwdpub g w) h rfl hsys hsup h5 rfl rfl) rfl hc
  rw [command_begun (m := semFwdpub g w) rfl] at hrun
  have hperform : ∀ acc : Acc, (semFwdpub g w).perform s.cur (s.view (semFwdpub g w)) acc =
      { acc with st := acc.st.publishHeap asid heap }.core s.cur fun c => { c with await := .recolor asid heap } := fun acc => by
    simp only [semFwdpub, State.view_s hq, hheap, easid]
  rw [hperform] at hrun
  refine ⟨u, _, hu, hrun, ?_⟩
  have hpub := (core_publishHeap (s := u) (asid := asid) (heap := heap) s.cur).1
  generalize u.publishHeap asid heap = p at hpub ⊢
  refine ⟨rfl, fun k hk => (State.core_close_ne _ _ hk).trans (State.core_modCore_ne _ _ hk), ?_⟩
  have hcore : (p.modCore s.cur fun c => { c with await := .recolor asid heap }).core s.cur =
      Core.awaitsRecolor asid heap (p.core s.cur).recolors (u.core s.cur) := by
    rw [State.core_modCore, hpub]
    rfl
  have hstill := hq.still
  have hagrees := quietAwait_agrees hq hu hcore (fun _ _ _ _ _ _ => rfl) rfl
    ⟨hstill.pend, hstill.landings, hstill.drives, hstill.flagOrs, hstill.mq, hstill.repLeft, hstill.poison⟩ rfl
  obtain ⟨_, _, _, _, _, e⟩ := Core.agrees_iff.mp hagrees
  exact ⟨congrArg Core.await e, congrArg Core.pc e⟩

theorem State.SameMaps.mem_writeColour (h : s.SameMaps u) : (u.writeColour asid heap).mem = (s.writeColour asid heap).mem := by
  simp only [State.writeColour, h.hcbAddr, h.good, h.ctxEntry, h.memNat, State.memPut, State.memWrite, h.mem]

/-- The colour after a heap's next publication is sent to a core. -/
def Sent (s t : State) (asid : BitVec 16) (heap k : Nat) : Prop :=
  t.core k = { s.core k with recolors := (t.core k).recolors } ∧ (heap, s.good asid heap + 1) ∈ (t.core k).recolors

/-- FWDPUB as the machine before it tells: its two writes of memory, and the colour sent to the context's cores alone. -/
theorem fwdpub_sends {g : Guard} {w : SR} {die : Nat} (h : s.Issues .s g none) (hsv : s.Supervises die) (hun : s.Unaccounted)
    (hc : (Instr.fwdpub g w).check1 = none) (ha : (s.now.sReg w.a).toNat < 1024) (hheap : (s.now.sReg w.b).toNat = heap)
    (hlt : heap < 8) (easid : (s.now.sReg w.a).extractLsb' 0 16 = asid) (hlive : s.ctxState asid = 1)
    (hst : s.memNat (s.hcbAddr asid heap) 1 = 3) :
    ∃ t, exec (.fwdpub g w) s = .next t ∧ t.mem = (s.writeColour asid heap).mem ∧ (t.core s.cur).await = .recolor asid heap ∧
      (t.core s.cur).pc = s.now.pc + 12 ∧ (∀ k, k ≠ s.cur → k ∉ s.coresOf asid → t.core k = s.core k) ∧
      ∀ k, k ≠ s.cur → k ∈ s.coresOf asid → Sent s t asid heap k := by
  obtain ⟨u, t, hu, hexec, hmem, hcores, hawait, hpc⟩ := fwdpub_publishes h hsv hc ha hheap hlt easid hlive hst
  have hsm := hu.sameMaps hun
  have hof : ∀ k, k ≠ s.cur → (k ∈ u.coresOf asid ↔ k ∈ s.coresOf asid) := fun k hk => by
    rw [mem_coresOf, mem_coresOf, hu.others k hk]
  refine ⟨t, hexec, hmem.trans (mem_publishHeap.trans hsm.mem_writeColour), hawait, hpc, fun k hk hout => ?_, fun k hk hin => ?_⟩
  · obtain ⟨-, -, hkept⟩ := core_publishHeap (s := u) (asid := asid) (heap := heap) k
    rw [hcores k hk, hkept fun hin => hout ((hof k hk).mp hin), hu.others k hk]
  · obtain ⟨hcore, hsent, -⟩ := core_publishHeap (s := u) (asid := asid) (heap := heap) k
    rw [Sent, hcores k hk, ← hsm.good, ← hu.others k hk]
    exact ⟨hcore, hsent ((hof k hk).mpr hin)⟩

end Publish

/-- Settles O26: each clause is the law of its command, RELOC's with what 15 R396 makes of the engine and FWDPUB's with the publication of
15 R398. -/
theorem relocationCommands : Obligations.RelocationCommands := by
  unfold Obligations.RelocationCommands
  intro s g w die h hsv hun a r word answers
  refine ⟨fun hfn ha h128 => ⟨fun hc => ⟨fun hbusy => ?busy, fun hfresh hsettled hrun hrsv hkind hok => ?start⟩,
    fun hc => reloc_reports (f := fun s _ _ => (0, s)) h hsv rfl rfl hc hfn rfl ha h128 hun fun _ _ => rfl,
    fun hc => ⟨fun hidle => ?idle, relocAbort_aborts h hsv hc hfn rfl ha h128⟩⟩, fun hc ha hheap hlive hst => ?fwdpub⟩
  case busy =>
    exact reloc_reports (f := State.relocStart) h hsv rfl rfl hc hfn rfl ha h128 hun fun u hu => relocStart_busy (hu.reloc die ▸ hbusy)
  case idle =>
    exact reloc_reports (f := fun s die _ => s.relocAbort die) h hsv rfl rfl hc hfn rfl ha h128 hun fun u hu =>
      relocAbort_idle (hu.reloc die ▸ hidle)
  case start =>
    have hev : Evacuates s die a := ⟨hfresh, hsettled, hrun, hrsv, hkind, hok⟩
    refine ⟨fun hsize => reloc_reports (f := State.relocStart) h hsv rfl rfl hc hfn rfl ha h128 hun fun u hu => ?_,
      fun hsize hnew => reloc_reports (f := State.relocStart) h hsv rfl rfl hc hfn rfl ha h128 hun fun u hu => ?_,
      fun hsize hnew => relocStart_starts h hsv hun hc hfn rfl ha h128 hev hsize hnew⟩
    all_goals
      have hsm := hu.sameMaps hun
      rw [relocStart_admitted (hev.charged hu hun), hsm.setHcb, hsm.memNat, hsm.memNat, hsm.memNat]
    · exact if_pos hsize
    · exact (if_neg (Nat.not_lt.mpr hsize)).trans (if_pos hnew)
  case fwdpub =>
    obtain ⟨t, hexec, hmem, hawait, hpc, hkept, hsent⟩ := fwdpub_sends h hsv hun hc ha rfl hheap rfl hlive hst
    refine ⟨t, hexec, hawait, hpc, hkept, hsent, fun hd => ?_⟩
    obtain ⟨hhcb, hbytes, hbits⟩ := memNat_writeColour rfl rfl hd
    exact ⟨(memNat_of_mem hmem ..).trans hhcb, fun x h1 h2 => (memByte_of_mem hmem x).trans (hbytes x h1 h2),
      fun i hi => (congrArg (Nat.testBit · i) (memNat_of_mem hmem ..)).trans (hbits i hi)⟩

end Sys2Proof.Machine

/-! ## Writes of control registers (08 R267) -/

namespace Sys2Proof.Machine

/-- The core in a context whose range registers are `r`. -/
def Core.inContext (c : Core) (asid : BitVec 16) (r : SMap W256) : Core := { c with cr := { c.cr with asid := asid }, ranges := r }

/-- The core one bundle later, in another context. -/
theorem Core.after_inContext (c : Core) (asid : BitVec 16) (r : SMap W256) :
    (c.inContext asid r).after = { c.after with cr := { c.cr with asid := asid }, ranges := r } := rfl

/-- A change of context keeps the seed and the PC. -/
theorem Core.after_inContext_withSeed (c : Core) (asid : BitVec 16) (r : SMap W256) :
    { ((c.inContext asid r).withSeed c.cr.seed).after with pc := c.pc + 12 } = (c.inContext asid r).after := rfl

/-- The write of cr.asid enters a context with its ranges. -/
theorem writeCr_asid {s : State} {c : Core} {x : W64} (hsup : c.supervisor = false) :
    c.writeCr s 2 x = c.inContext (x.extractLsb' 0 16) (s.ctxRanges (x.extractLsb' 0 16)) :=
  if_neg (by simp [hsup])

section ControlWrite

variable {s : State} {g : Guard} {w : SI} {i : BitVec 16} {e : CtlRegs} (h : s.Issues .s g none) (hc : (Instr.crw g w).check1 = none)
include h hc

/-- CRW changes the control registers alone, where the core may write the register and the value fits it. -/
theorem crw_completes (hw : w.imm.extractLsb' 0 16 = i) (hi : i ≠ 0x11 ∧ i ≠ 2)
    (hp : s.now.cr.sys = true ∨ 0x10 ≤ i.toNat ∧ i.toNat ≤ 0x12) (hfit : (s.now.sReg w.a).toNat < 2 ^ crWidth i)
    (hround : i = 0x10 → 1 ≤ (s.now.sReg w.a).toNat ∧ (s.now.sReg w.a).toNat ≤ 5)
    (hhalt : i = 0 → (s.now.sReg w.a).getLsbD 0 = true ∧ (s.now.sReg w.a).extractLsb' 2 2 = s.now.cr.dbg)
    (he : s.now.writeCr s i (s.now.sReg w.a) = s.now.withCr e) (hseed : e.seed = s.now.cr.seed) :
    Completes (.crw g w) s (s.now.withCr e).after :=
  crw_cr h hc hw hi.1 hi.2 (hp.imp_right fun hu => crw_user hw hu.1 hu.2) (cr_ok hfit hround hhalt fun h2 => absurd h2 hi.2) he hseed

/-- In system mode, a register whose values have no test beside their width. -/
theorem crw_system (hsys : s.now.cr.sys = true) (hw : w.imm.extractLsb' 0 16 = i) (hi : i ≠ 0x11 ∧ i ≠ 2 ∧ i ≠ 0x10 ∧ i ≠ 0)
    (hfit : (s.now.sReg w.a).toNat < 2 ^ crWidth i) (he : s.now.writeCr s i (s.now.sReg w.a) = s.now.withCr e)
    (hseed : e.seed = s.now.cr.seed) : Completes (.crw g w) s (s.now.withCr e).after :=
  crw_completes h hc hw ⟨hi.1, hi.2.1⟩ (.inl hsys) hfit (absurd · hi.2.2.1) (absurd · hi.2.2.2) he hseed

/-- cr.bt gives the next bundle its bundle-time: the end of this one adds the 1 that the write takes off. -/
theorem crw_bt (hsys : s.now.cr.sys = true) (hw : w.imm.extractLsb' 0 16 = 3) :
    Completes (.crw g w) s { s.now.after with bt := s.now.sReg w.a } := by
  have hst := h.quiet.still
  have hok : crRefused s s.now 3 (s.now.sReg w.a) = false :=
    cr_ok (s.now.sReg w.a).isLt (absurd · (by decide)) (absurd · (by decide)) (absurd · (by decide))
  have hrun := crw_run h hc (crw_performs h (.inl hsys) (hw ▸ hok)) hw (by decide) (absurd · (by decide))
    ⟨hst.1, hst.2, hst.3, hst.4, hst.5, hst.6, hst.7⟩
  have hnext : Completes (.crw g w) s { s.now.after with bt := s.now.sReg w.a - 1 + 1 } := hrun
  rwa [BitVec.sub_add_cancel] at hnext

/-- cr.asid of a live context loads the context's ranges. -/
theorem crw_asid (hsys : s.now.cr.sys = true) (hsup : s.now.supervisor = false) (hun : s.Unaccounted)
    (hw : w.imm.extractLsb' 0 16 = 2) (hfit : (s.now.sReg w.a).toNat < 2 ^ 16) (hlive : s.ctxState ((s.now.sReg w.a).extractLsb' 0 16) = 1) :
    Completes (.crw g w) s (s.now.inContext ((s.now.sReg w.a).extractLsb' 0 16)
      (s.ctxRanges ((s.now.sReg w.a).extractLsb' 0 16))).after := by
  have hst := h.quiet.still
  have hok : crRefused s s.now 2 (s.now.sReg w.a) = false :=
    cr_ok hfit (absurd · (by decide)) (absurd · (by decide)) fun _ => hlive
  have hstill : (s.now.writeCr s 2 (s.now.sReg w.a)).Still := by
    rw [writeCr_asid hsup]
    exact ⟨hst.1, hst.2, hst.3, hst.4, hst.5, hst.6, hst.7⟩
  have hrun := crw_run h hc (crw_performs h (.inl hsys) (hw ▸ hok)) hw (by decide) (fun _ => hun) hstill
  rwa [writeCr_asid hsup, Core.after_inContext_withSeed] at hrun

end ControlWrite

/-- Settles O11: each clause names a register that the core may write and a value that fits it. -/
theorem controlRegisterWrites : Obligations.ControlRegisterWrites := by
  unfold Obligations.ControlRegisterWrites
  intro s g w e h hc c i x
  refine ⟨?_, crw_bt h hc, fun hsys hsup hun hi hx hlive => ?_⟩
  · rintro (⟨hi, h1, h5, rfl⟩ | ⟨hi, rfl⟩ | ⟨hi, hx, rfl⟩ |
      ⟨hsys, ⟨hi, hdbg, h0, rfl⟩ | ⟨hi, hx, rfl⟩ | ⟨hi, hx, rfl⟩ | ⟨hi, rfl⟩ | ⟨hi, hx, rfl⟩ | ⟨hi, rfl⟩ | ⟨hi, hx, rfl⟩⟩)
    · exact crw_completes h hc hi (by decide) (.inr (by decide)) (Nat.lt_of_le_of_lt h5 (by decide)) (fun _ => ⟨h1, h5⟩)
        (absurd · (by decide)) rfl rfl
    · have hok : crRefused s s.now 0x11 x = false :=
        cr_ok x.isLt (absurd · (by decide)) (absurd · (by decide)) (absurd · (by decide))
      exact crw_seed h hc (crw_performs h (.inr (crw_user hi (by decide) (by decide))) ((congrArg (crRefused s s.now · x) hi).trans hok)) hi
    · exact crw_completes h hc hi (by decide) (.inr (by decide)) hx (absurd · (by decide)) (absurd · (by decide)) rfl rfl
    · exact crw_completes h hc hi (by decide) (.inl hsys) x.isLt (absurd · (by decide)) (fun _ => ⟨h0, hdbg⟩) rfl rfl
    · exact crw_system h hc hsys hi (by decide) hx rfl rfl
    · exact crw_system h hc hsys hi (by decide) hx rfl rfl
    · exact crw_system h hc hsys hi (by decide) x.isLt rfl rfl
    · exact crw_system h hc hsys hi (by decide) hx rfl rfl
    · exact crw_system h hc hsys hi (by decide) x.isLt rfl rfl
    · exact crw_system h hc hsys hi (by decide) hx rfl rfl
  · rw [← Core.after_inContext]
    exact crw_asid h hc hsys hsup hun hi hx hlive

end Sys2Proof.Machine

/-! ## Atomics (08 R244 to R246) -/

namespace Sys2Proof.Machine

/-- Settles O13: every atomic is the one form of its operation, which the law of the form settles. -/
theorem atomicsIssue : Obligations.AtomicsIssue := by
  unfold Obligations.AtomicsIssue
  intro s g w t h hm hhost
  have hamo : ∀ (opc : BitVec 8) (op : AmoOp) (i : Instr) (x : W64), exec i s = runSolo (amoOp opc op g w) i s → i.slotWord = some (.s, x) →
      i.check1 = none → Completes i s (s.now.withAtomic w op t).after := fun opc op i x he hx hc => by
    obtain ⟨u, e, hf⟩ := amo_completes h hm hhost opc op hx hc
    exact ⟨u, he.trans e, hf⟩
  exact ⟨hamo _ _ _ _ rfl rfl, hamo _ _ _ _ rfl rfl, hamo _ _ _ _ rfl rfl, hamo _ _ _ _ rfl rfl, hamo _ _ _ _ rfl rfl,
    hamo _ _ _ _ rfl rfl, hamo _ _ _ _ rfl rfl, hamo _ _ _ _ rfl rfl, hamo _ _ _ _ rfl rfl⟩

end Sys2Proof.Machine

/-! ## Barriers, drains and yields (08 R250 to R256) -/

namespace Sys2Proof.Machine

section Barriers

variable {s : State} {g : Guard} {w : SI} (h : s.Issues .s g none)
include h

/-- BAR of a member of a gang, which reports at once or after the drain that it selects. -/
theorem bar_completes (hc : (Instr.bar g w).check1 = none) (hgang : (s.now.item.bind Item.gang).isSome = true) :
    Completes (.bar g w) s { s.now.after with
      barPc := s.now.pc, bar := if w.imm.extractLsb' 0 2 = 0 then .sent else .draining (w.imm.extractLsb' 0 2) } := by
  obtain ⟨n, hn⟩ := Option.isSome_iff_exists.mp hgang
  have htest : (semBar g w).check5 s s.cur (s.view (semBar g w)) = none := by
    change (match s.now.item.bind Item.gang with | none => some (trapS causeRange 0x80 0) | some _ => none) = none
    rw [hn]
  have hp : (semBar g w).Performs s := State.Issues.performs (m := semBar g w) h (.inr rfl) rfl
    ⟨rfl, rfl, htest, rfl, nofun, rfl, nofun, nofun, rfl, rfl⟩
  obtain ⟨t, e, hf⟩ := runSolo_change (i := .bar g w) hp rfl hc
    (g := fun c => { c with barPc := s.now.pc, bar := if w.imm.extractLsb' 0 2 = 0 then .sent else .draining (w.imm.extractLsb' 0 2) })
    (fun _ _ _ _ _ _ => rfl) (fun _ => rfl) (fun _ => rfl) (fun _ q => ⟨q.1, q.2, q.3, q.4, q.5, q.6, q.7⟩) (fun _ => rfl) (fun _ => rfl)
    fun _ _ => rfl
  exact ⟨t, e, hf⟩

/-- YIELD with no request pending restarts the watchdog. -/
theorem yield_completes (hc : (Instr.yield g w).check1 = none) :
    Completes (.yield g w) s { s.now.after with
      probed := [], item := s.now.item.map fun it => { it with wdogStart := s.time, yields := it.yields + 1 } } := by
  have hp : (semYield g w).Performs s := State.Issues.performs (m := semYield g w) h (.inr rfl) rfl
    ⟨rfl, rfl, rfl, rfl, nofun, rfl, nofun, nofun, rfl, rfl⟩
  obtain ⟨t, e, hf⟩ := runSolo_change (i := .yield g w) hp rfl hc
    (g := fun c => { c with probed := [], item := c.item.map fun it => { it with wdogStart := s.time, yields := it.yields + 1 } })
    (fun _ _ _ _ _ _ => rfl) (fun _ => rfl) (fun _ => rfl) (fun _ q => ⟨q.1, q.2, q.3, q.4, q.5, q.6, q.7⟩) (fun _ => rfl) (fun _ => rfl)
    fun u hu => by
      have htime : u.time = s.time := by rw [hu.rest]
      rw [← htime]
      rfl
  exact ⟨t, e, hf⟩

section Wait

variable {op : BitVec 8} {i : Instr} {x : W64} {wait : State → Nat → View → Option Nat}
  (he : exec i s = runSolo { plainSI op g with wait := wait } i s) (hx : i.slotWord = some (.s, x)) (hc : i.check1 = none)
include he hx hc

/-- An operation that does nothing but wait, once it need not. -/
theorem wait_completes (hw : wait s s.cur (s.view { plainSI op g with wait := wait }) = none) : Completes i s s.now.after := by
  have hp : ({ plainSI op g with wait := wait } : OpSem).Performs s :=
    State.Issues.performs (m := { plainSI op g with wait := wait }) h (.inr rfl) rfl
      ⟨rfl, rfl, rfl, rfl, nofun, rfl, nofun, nofun, hw, rfl⟩
  obtain ⟨t, e, hf⟩ := runSolo_next hp hx hc rfl (nx := none) fun a ha => by rw [← ha]; rfl
  exact ⟨t, he.trans e, hf⟩

/-- Until then it freezes under DRAIN. -/
theorem wait_freezes (hw : wait s s.cur (s.view { plainSI op g with wait := wait }) = some acctDrain) :
    exec i s = .next (s.freezeCycle s.cur 13) := by
  let m : OpSem := { plainSI op g with wait := wait }
  exact he.trans (runSolo_waits (m := m) h hx hc rfl (.inr rfl) rfl (plain_check m s rfl rfl x) (plain_knots m s rfl rfl rfl x) rfl
    (plain_wait m s (State.Issues.guarded (m := m) h) rfl rfl rfl x hw rfl))

end Wait

end Barriers

/-- Settles O14: BAR and YIELD change their core, DRAIN and SETTLE are waits on its condition. -/
theorem barriersAndDrains : Obligations.BarriersAndDrains := by
  unfold Obligations.BarriersAndDrains
  intro s g w h
  refine ⟨bar_completes h, fun hc => ⟨fun hd => ?_, fun hd => ?_⟩, fun hc => ⟨fun hd => ?_, fun hd => ?_⟩, yield_completes h⟩
  · exact wait_completes h rfl rfl hc (if_pos hd)
  · exact wait_freezes h rfl rfl hc (if_neg (ne_true_of_eq_false hd))
  · exact wait_completes h rfl rfl hc (if_pos hd)
  · exact wait_freezes h rfl rfl hc (if_neg (ne_true_of_eq_false hd))

end Sys2Proof.Machine

/-! ## Regions and the end of an item (08 R257, R258) -/

namespace Sys2Proof.Machine

/-- A core has nothing to count down where it agrees with one that has not. -/
theorem Core.Agrees.still {c e : Core} (h : c.Agrees e) (hs : e.Still) : c.Still := by
  obtain ⟨_, _, _, _, _, rfl⟩ := Core.agrees_iff.mp h
  exact ⟨hs.1, hs.2, hs.3, hs.4, hs.5, hs.6, hs.7⟩

/-- Cores that agree hold the same item. -/
theorem Core.Agrees.item {c e : Core} (h : c.Agrees e) : c.item = e.item := by
  obtain ⟨_, _, _, _, _, rfl⟩ := Core.agrees_iff.mp h
  rfl

/-- A core one bundle later has nothing to count down either. -/
theorem Core.Still.after {c : Core} (h : c.Still) : c.after.Still := ⟨h.1, h.2, h.3, h.4, h.5, h.6, h.7⟩

section Regions

variable {s : State} {g : Guard} {w : SI} (h : s.Issues .s g none)
include h

/-- An operation that makes the region stack `r` of what it was. -/
theorem region_completes {op : BitVec 8} {f : Core → Core} {i : Instr} {x : W64} (r : List (BitVec 16) → List (BitVec 16))
    (he : exec i s = runSolo { plainSI op g with perform := fun key _ a => { a.core key f with edge := true } } i s)
    (hx : i.slotWord = some (.s, x)) (hc : i.check1 = none)
    (hp : ∀ u, s.Charged u → f (u.core s.cur) = { u.core s.cur with region := r (u.core s.cur).region }) :
    Completes i s { s.now.after with region := r s.now.region } := by
  let m : OpSem := { plainSI op g with perform := fun key _ a => { a.core key f with edge := true } }
  have hm : m.Performs s := State.Issues.performs (m := m) h (.inr rfl) rfl ⟨rfl, rfl, rfl, rfl, nofun, rfl, nofun, nofun, rfl, rfl⟩
  obtain ⟨t, e, hf⟩ := runSolo_fin hm hx hc (g := fun c => { c with region := r c.region }) (sd := s.now.cr.seed) (nx := none)
    (F := fun u => u.modCore s.cur f) (a := fun u => { st := u.modCore s.cur f, seed := s.now.cr.seed, edge := true })
    (fun _ _ _ _ _ _ => rfl) (fun _ => rfl) (fun _ => rfl)
    (fun u hu => ⟨(State.core_modCore ..).trans (hp u hu), fun _ hk => State.core_modCore_ne _ _ hk, rfl⟩)
    (fun _ _ => rfl) fun _ _ => ⟨rfl, rfl, rfl, rfl, rfl⟩
  have hs := h.quiet.still
  exact ⟨t, he.trans e, hf.of_core (Core.agrees_after (c := { s.now with region := r s.now.region }) ⟨hs.1, hs.2, hs.3, hs.4, hs.5, hs.6, hs.7⟩ _ _)⟩

/-- ENTER that meets no breakpoint pushes its region. -/
theorem enter_completes (hc : (Instr.enter g w).check1 = none) (hhit : s.now.regionHit (w.imm.extractLsb' 0 16) 0 = false) :
    Completes (.enter g w) s { s.now.after with region := (w.imm.extractLsb' 0 16 :: s.now.region).take 16 } :=
  region_completes h (fun l => (w.imm.extractLsb' 0 16 :: l).take 16) rfl rfl hc fun _ hu =>
    regionEdge_none ((regionHit_charged hu _ _ _).trans hhit)

/-- LEAVE that meets no breakpoint pops the region on top. -/
theorem leave_completes (hc : (Instr.leave g w).check1 = none)
    (hhit : ∀ id l, s.now.region = id :: l → s.now.regionHit id 1 = false) :
    Completes (.leave g w) s { s.now.after with region := s.now.region.tail } := by
  refine region_completes h List.tail rfl rfl hc fun u hu => ?_
  have hregion : (u.core s.cur).region = s.now.region := by
    obtain ⟨_, _, _, _, _, e⟩ := Core.agrees_iff.mp hu.core
    rw [e]
    rfl
  split
  · next hr => rw [hr, List.tail_nil, ← hr]
  · next id l hr =>
    rw [hr, List.tail_cons]
    exact regionEdge_none ((regionHit_charged hu _ _ _).trans (hhit id l (hregion.symm.trans hr)))

end Regions

/-- What the end of an item leaves of its core, which had nothing outstanding, and of the others. -/
theorem core_endItem {s : State} {key : Nat} {it : Item} (hs : (s.core key).Still) (hi : (s.core key).item = some it) :
    ((s.endItem key).core key).item = none ∧ ((s.endItem key).core key).landings = [] ∧ ((s.endItem key).core key).pend = [] ∧
      (it.gang = none → ∀ k, k ≠ key → (s.endItem key).core k = s.core k) := by
  have hend : ∀ k, (s.endItem key).core k = (State.leaveGang (s.modCore key Core.endItem) key it.gang).core k := fun k => by
    simp only [State.endItem, hi]
    rfl
  obtain ⟨b, hb⟩ := leaveGang_core (s.modCore key Core.endItem) key it.gang key
  obtain ⟨hl, hp⟩ := endItem_still hs
  rw [State.core_modCore] at hb
  rw [hend, hb]
  refine ⟨rfl, hl, hp, fun hg k hk => ?_⟩
  rw [hend, hg]
  exact State.core_modCore_ne _ _ hk

/-- TAIL ends the item of its core, once one bundle has passed. -/
theorem tail_ends {s : State} {g : Guard} {w : SI} (h : s.Issues .s g none) (hc : (Instr.tail g w).check1 = none)
    (hfree : s.now.freeTracker.isSome = true) : ∃ t, exec (.tail g w) s = .next (t.endItem s.cur) ∧ s.Follows t s.now.after := by
  have hwait : (semTail g w).wait s s.cur (s.view (semTail g w)) = none :=
    if_neg (by rw [Option.isNone_iff_eq_none]; exact Option.isSome_iff_ne_none.mp hfree)
  have hp : (semTail g w).Performs s := State.Issues.performs (m := semTail g w) h (.inr rfl) rfl
    ⟨rfl, rfl, rfl, rfl, nofun, rfl, nofun, nofun, hwait, rfl⟩
  obtain ⟨t, e, hf⟩ := runSolo_post (i := .tail g w) hp rfl hc (F := fun u => u) (g := fun c => c) (sd := s.now.cr.seed) (nx := none)
    (tl := true) (er := false) Core.plain_id (fun _ => rfl) (fun _ => rfl) (fun _ _ => ⟨rfl, fun _ _ => rfl, rfl⟩)
    (fun _ _ => rfl) fun _ _ => ⟨rfl, rfl, rfl, rfl, rfl⟩
  exact ⟨t, e, hf.of_core (Core.agrees_after h.quiet.still ..)⟩

/-- Settles O15: ENTER and LEAVE change the region stack, TAIL is the end of the item one bundle later. -/
theorem regionsAndTail : Obligations.RegionsAndTail := by
  unfold Obligations.RegionsAndTail
  intro s g w h
  refine ⟨enter_completes h, leave_completes h, fun it hit hfree hc => ?_⟩
  obtain ⟨t, e, hf⟩ := tail_ends h hc hfree
  obtain ⟨hitem, hl, hp, hothers⟩ := core_endItem (hf.core.still h.quiet.still.after) (hf.core.item.trans hit)
  exact ⟨_, e, hitem, fun hg k hk => (hothers hg k hk).trans (hf.others k hk), hl, hp⟩

end Sys2Proof.Machine

/-! ## PROBE (08 R259) -/

namespace Sys2Proof.Machine

/-- Cores that agree have the same bundle-time. -/
theorem Core.Agrees.bt {c e : Core} (h : c.Agrees e) : c.bt = e.bt := by
  obtain ⟨_, _, _, _, _, rfl⟩ := Core.agrees_iff.mp h
  rfl

/-- A cycle that passes leaves the core as it was in all but what `Agrees` leaves out. -/
theorem State.Cycles.agrees {s t : State} {key : Nat} (h : s.Cycles t key) : (t.core key).Agrees (s.core key) := by
  rw [h.core]
  exact Core.agrees_iff.mpr ⟨_, _, _, _, _, rfl⟩

section Probe

variable {s : State} {g : Guard} {w : SI} (h : s.Issues .s g none) (hc : (Instr.probe g w).check1 = none)
  (hlen : (w.imm.extractLsb' 0 24).toNat ≠ 0) (ha : (s.now.sReg w.a).toNat < 2 ^ 57)

include h hlen ha in
/-- The extent of a PROBE passes its tests. -/
theorem probe_check5 : (semProbe g w).check5 s s.cur (s.view (semProbe g w)) = none := by
  refine if_neg ?_
  rw [probe_addr h.quiet]
  exact fun e => e.elim hlen (Nat.not_le.mpr ha)

include h in
/-- What the late test of PROBE finds is the first failing byte of its extent. -/
theorem probe_late5 : (semProbe g w).late5 s s.cur (s.view (semProbe g w)) =
    (s.probe s.now (s.now.sReg w.a).toNat (w.imm.extractLsb' 0 24).toNat (if w.imm.getLsbD 24 then .rw else .r)).map fun q =>
      ⟨0x07, BitVec.ofBool (w.imm.getLsbD 24) ++ BitVec.ofNat 2 q.1 ++ (0 : BitVec 4) ++ BitVec.ofNat 57 q.2⟩ := by
  rw [← probe_addr h.quiet g w]
  rfl

include h hc hlen ha

/-- PROBE of an extent that is admitted throughout goes on to the next bundle, with the pages it has touched. -/
theorem probe_passes (hok : s.probe s.now (s.now.sReg w.a).toNat (w.imm.extractLsb' 0 24).toNat (if w.imm.getLsbD 24 then .rw else .r) = none) :
    ∃ t ps, exec (.probe g w) s = .next t ∧ (t.core s.cur).Agrees { s.now.after with probed := ps } ∧ ∀ k, k ≠ s.cur → t.core k = s.core k := by
  have hlate : (semProbe g w).late5 s s.cur (s.view (semProbe g w)) = none := by
    rw [probe_late5 h, hok]
    rfl
  have hp : (semProbe g w).Performs s := State.Issues.performs (m := semProbe g w) h (.inr rfl) rfl
    ⟨rfl, rfl, probe_check5 h hlen ha, rfl, nofun, rfl, nofun, nofun, rfl, hlate⟩
  obtain ⟨u, hu, e⟩ := runSolo_performs (i := .probe g w) hp rfl hc
  obtain ⟨ps, hps⟩ : ∃ ps, (semProbe g w).perform s.cur (s.view (semProbe g w)) { st := u, seed := s.now.cr.seed } =
      { st := (u.freezeCycle s.cur acctDrain).modCore s.cur fun c => { c with probed := c.probed ++ ps }, seed := s.now.cr.seed } := ⟨_, rfl⟩
  have hfreeze := State.cycles_freezeCycle u s.cur acctDrain
  have hs := h.quiet.still
  refine ⟨_, s.now.probed ++ ps, e.trans (congrArg (fun a => Host.Outcome.next (s.finish a)) hps), ?_, fun k hk => ?_⟩
  · have hplain : Core.Plain fun c => { c with probed := c.probed ++ ps } := fun _ _ _ _ _ _ => rfl
    refine (State.close_agrees h.quiet (e := { s.now with probed := s.now.probed ++ ps }) ?_ rfl).trans
      (Core.agrees_after (c := { s.now with probed := s.now.probed ++ ps }) ⟨hs.1, hs.2, hs.3, hs.4, hs.5, hs.6, hs.7⟩ _ _)
    rw [State.core_modCore]
    exact hplain.agrees (hfreeze.agrees.trans hu.core)
  · exact (State.core_close_ne _ _ hk).trans ((State.core_modCore_ne _ _ hk).trans ((hfreeze.others k hk).trans (hu.others k hk)))

/-- PROBE of an extent with a failing byte takes PROBE_FAULT. -/
theorem probe_faults (hu : s.User) {kind va : Nat}
    (hfail : s.probe s.now (s.now.sReg w.a).toNat (w.imm.extractLsb' 0 24).toNat (if w.imm.getLsbD 24 then .rw else .r) = some (kind, va)) :
    Traps (.probe g w) s 0x07 (BitVec.ofBool (w.imm.getLsbD 24) ++ BitVec.ofNat 2 kind ++ (0 : BitVec 4) ++ BitVec.ofNat 57 va) := by
  let m := semProbe g w
  have hlate : m.late5 s s.cur (s.view m) = some ⟨0x07, BitVec.ofBool (w.imm.getLsbD 24) ++ BitVec.ofNat 2 kind ++ (0 : BitVec 4) ++ BitVec.ofNat 57 va⟩ := by
    rw [probe_late5 h, hfail]
    rfl
  have hwait : ∀ x, waitOf s s.cur [s.soloIssuing m x] = none := fun x => by
    simp [waitOf, State.soloIssuing, m, semProbe, topFreeze]
  exact (runSolo_late (m := m) (i := .probe g w) h rfl hc rfl (.inr rfl) rfl (plain_check m s (probe_check5 h hlen ha) rfl _)
    (plain_knots m s rfl rfl rfl _) rfl (State.Issues.guarded (m := m) h) (hwait _) hlate).trans
    (congrArg _ (takeTrap_quiet hu h.quiet _ fun e => absurd e.1 (show (0x07 : BitVec 8) ≠ causeTrapi by decide)))

end Probe

/-- Settles O16: by what the probe of the extent finds. -/
theorem probeTestsPages : Obligations.ProbeTestsPages := by
  unfold Obligations.ProbeTestsPages
  intro s g w hu h hc a len need hlen ha
  refine ⟨fun hok => ?_, fun kind va hfail => probe_faults h hc hlen ha hu hfail⟩
  obtain ⟨t, ps, e, hcore, hothers⟩ := probe_passes h hc hlen ha hok
  exact ⟨t, e, hcore.pc, hcore.bt, hcore.sReg, hothers⟩

end Sys2Proof.Machine

/-! ## TRAP and ERET (08 R260, R264, R265) -/

namespace Sys2Proof.Machine

/-- Settles O17: the test of TRAP always fails, with the cause and einfo of the word. -/
theorem trapTakes : Obligations.TrapTakes := by
  unfold Obligations.TrapTakes
  intro s g w hu h hc hcode
  have hcheck := runSolo_check5 (m := semTrap g w) (i := .trap g w) h rfl hc rfl (.inr rfl) rfl rfl rfl
  refine hcheck.trans (congrArg _ (takeTrap_quiet hu h.quiet _ ?_))
  rintro ⟨-, hinfo⟩
  exact hcode ((BitVec.extractLsb'_append_eq_right ..).symm.trans hinfo)

/-- The tests of ERET pass for an aligned return address below 2^57. -/
theorem eret_check5 {s : State} {g : Guard} {w : SI} (h4 : s.now.cr.epc.toNat % 4 = 0) (h57 : s.now.cr.epc.toNat < 2 ^ 57) :
    (semEret g w).check5 s s.cur (s.view (semEret g w)) = none := by
  have halign : s.now.cr.epc.extractLsb' 0 2 = 0 := by
    apply BitVec.eq_of_toNat_eq
    simpa using h4
  have hhigh : s.now.cr.epc.extractLsb' 57 7 = 0 := by
    apply BitVec.eq_of_toNat_eq
    rw [BitVec.extractLsb'_toNat, Nat.shiftRight_eq_div_pow, Nat.div_eq_of_lt h57]
    rfl
  change (if _ then none else if s.now.cr.epc.extractLsb' 0 2 ≠ 0 then _ else if s.now.cr.epc.extractLsb' 57 7 ≠ 0 then _ else none) = none
  rw [halign, hhigh]
  simp

/-- ERET of an item that is neither killed nor saved resumes it. -/
theorem eret_resumes {s : State} {key : Nat} (hkill : isKillCause (s.core key).cr.cause = false) (hitem : (s.core key).item.isSome = true)
    (hsaved : (s.core key).saved = false) : s.eret key = s.modCore key Core.eretResume := by
  have hnone : (s.core key).item.isNone = false := by rw [← Option.not_isSome, hitem]; rfl
  simp only [State.eret, hkill, hnone, hsaved, Bool.false_eq_true, false_and, or_self, if_false]

/-- Settles O18: ERET is the return of its core, one bundle later. -/
theorem eretReturns : Obligations.EretReturns := by
  unfold Obligations.EretReturns
  intro s g w l h hc hsup hsys hkill hitem hsaved hlatch h4 h57
  have hp : (semEret g w).Performs s := State.Issues.performs (m := semEret g w) h (.inl hsys) (congrArg not hsup)
    ⟨rfl, rfl, eret_check5 h4 h57, rfl, nofun, rfl, nofun, nofun, rfl, rfl⟩
  obtain ⟨t, e, hf⟩ := runSolo_post (i := .eret g w) hp rfl hc (F := fun u => u) (g := fun c => c) (sd := s.now.cr.seed) (nx := none)
    (tl := false) (er := true) Core.plain_id (fun _ => rfl) (fun _ => rfl) (fun _ _ => ⟨rfl, fun _ _ => rfl, rfl⟩)
    (fun _ _ => rfl) fun _ _ => ⟨rfl, rfl, rfl, rfl, rfl⟩
  have hcore := hf.core.trans (Core.agrees_after h.quiet.still ..)
  obtain ⟨_, _, _, _, _, hnow⟩ := Core.agrees_iff.mp hcore
  have hret : t.eret s.cur = t.modCore s.cur Core.eretResume :=
    eret_resumes (by rw [hnow]; exact hkill) (by rw [hnow]; exact hitem) (by rw [hnow]; exact hsaved)
  refine ⟨t.eret s.cur, e, ?_⟩
  rw [hret]
  refine ⟨fun k hk => (State.core_modCore_ne _ _ hk).trans (hf.others k hk), ?_, ?_⟩
  · rw [State.core_modCore, hnow]
    exact congrArg (fun x => (Option.getD x {}).sticky) hlatch
  · rw [State.core_modCore]
    exact eretResume_agrees hcore hlatch h.quiet.drives h.quiet.landings h.quiet.flagOrs

end Sys2Proof.Machine

/-! ## The tables of the supervisors (08 R268, R269, 14 R375, 20 R483) -/

namespace Sys2Proof.Machine

/-- The command that makes the machine `f` of what it was: it performs, and the end of its bundle-time closes `f` of the charged state. -/
theorem command_closes {s : State} {m : OpSem} {op : BitVec 8} {g : Guard} {runs : Nat → Core → Bool} {rd : List (BitVec 6)} {i : Instr}
    {x : W64} {f : State → State} (h : s.Issues .s g none)
    (hm : m = { command op g runs rd with check5 := m.check5, fatal := m.fatal, wait := m.wait, perform := m.perform })
    (hsys : s.now.cr.sys = true) (hr : runs s.cur s.now = true) (h5 : m.check5 s s.cur (s.view m) = none)
    (hf : m.fatal s s.cur (s.view m) = none) (hwait : m.wait s s.cur (s.view m) = none) (hw : i.slotWord = some (m.slot, x))
    (hc : i.check1 = none) (hp : ∀ a : Acc, m.perform s.cur (s.view m) a = { a with st := f a.st }) :
    ∃ u, s.Charged u ∧ runSolo m i s = .next (s.close { st := f u, seed := s.now.cr.seed }) := by
  obtain ⟨u, hu, hrun⟩ := runSolo_performs (command_performs h hm hsys hr h5 hf hwait) hw hc
  rw [command_begun hm, hp] at hrun
  exact ⟨u, hu, hrun⟩

section Target

variable {s : State} {die : Nat} {x : W64} (hsv : s.Supervises die)
include hsv

/-- The core at a site of the issuing supervisor's die. -/
theorem State.Supervises.siteKey : siteKey s.cur x = 144 * die + x.toNat := by
  rw [Machine.siteKey, hsv.1, Nat.add_sub_cancel_left]

variable (ht : s.TargetSite die x)
include ht

/-- A target site passes the test of a command. -/
theorem State.Supervises.targetOk : s.targetOk s.cur x = true := by
  rw [State.targetOk, hsv.siteKey, Bool.and_eq_true]
  exact ⟨decide_eq_true ht.1, decide_eq_true ht.2⟩

/-- The core of a target site is a tile core, so not the supervisor. -/
theorem State.Supervises.site_ne : 144 * die + x.toNat ≠ s.cur := by
  obtain ⟨hcur, hdie, -⟩ := hsv
  have := ht.1
  omega

end Target

/-! ### Slot maps and timing entries -/

/-- A read of a table after keys were cleared. -/
theorem SMap.get_clear {α : Type} (d : α) (m : SMap α) (a n b : Nat) :
    SMap.get d (SMap.clear m a n) b = if a ≤ b ∧ b < a + n then d else SMap.get d m b := by
  refine (SMap.get_filter d m (fun k => decide (k < a) || decide (a + n ≤ k)) b).trans ?_
  by_cases h : a ≤ b ∧ b < a + n
  · rw [if_pos h, if_neg (by simp; omega)]
  · rw [if_neg h, if_pos (by simp; omega)]

/-- The write of a timing entry, which is kept only where it differs from the entry as shipped. -/
theorem Core.timingAt_setTiming (c : Core) (i j : Nat) (v : BitVec 8) :
    (c.setTiming i v).timingAt j = if j = i then v else c.timingAt j := by
  unfold Core.setTiming Core.timingAt
  by_cases hv : v = BitVec.ofNat 8 (shipTiming c.supervisor i)
  · simp only [if_pos hv, SMap.get_clear]
    by_cases h : j = i
    · rw [if_pos h, if_pos (by omega), hv, h]
    · rw [if_neg h, if_neg (by omega)]
  · simp only [if_neg hv]
    by_cases h : j = i
    · rw [if_pos h, h, SMap.get_set_same]
    · rw [if_neg h, SMap.get_set_ne _ _ _ _ h]

section Commands

variable {s : State} {g : Guard} {w : SR} {die : Nat} (h : s.Issues .s g none) (hsv : s.Supervises die)
include h hsv

/-- SLOTMAP of a value that a slot map may take. -/
theorem slotmap_completes (hc : (Instr.slotmap g w).check1 = none) (ht : s.TargetSite die (s.now.sReg w.a)) (hb : (s.now.sReg w.b).toNat < 512)
    (hmap : ∀ i, i < 4 → (s.now.sReg w.b).extractLsb' (2 * i) 2 ≠ 3) :
    (∃ t, exec (.slotmap g w) s = .next t ∧ (t.core (144 * die + (s.now.sReg w.a).toNat)).cr.slotmap = (s.now.sReg w.b).extractLsb' 0 16) ∧
    (s.fns = [] → CompletesAt (.slotmap g w) s s.now.after (144 * die + (s.now.sReg w.a).toNat) fun d =>
      { d with cr := { d.cr with slotmap := (s.now.sReg w.b).extractLsb' 0 16 } }) := by
  obtain ⟨-, -, hsup, hsys⟩ := id hsv
  have hok : slotmapOk (s.now.sReg w.b) = true := by
    rw [slotmapOk, decide_eq_true hb, Bool.true_and, List.all_eq_true]
    exact fun i hi => bne_iff_ne.mpr (hmap i (List.mem_range.mp hi))
  have htest : (semSlotmap g w).check5 s s.cur (s.view (semSlotmap g w)) = none := by
    refine rangeUnless_true ?_
    rw [State.view_s h.quiet, State.view_s h.quiet, hsv.targetOk ht, hok]
    rfl
  have hp : (semSlotmap g w).Performs s := command_performs h rfl hsys hsup htest rfl rfl
  obtain ⟨⟨t, e, hcr, -, -⟩, hat⟩ := command_two (i := .slotmap g w) hp rfl hc (hsv.site_ne ht)
    (f := fun d => { d with cr := { d.cr with slotmap := (s.now.sReg w.b).extractLsb' 0 16 } }) rfl fun u => by
      simp only [semSlotmap, State.view_s h.quiet, hsv.siteKey]
      rfl
  exact ⟨⟨t, e, congrArg CtlRegs.slotmap hcr⟩, hat⟩

/-- TTSET of a value that an entry of cr.timing may take. -/
theorem ttset_completes (hc : (Instr.ttset g w).check1 = none) (ht : s.TargetSite die (s.now.sReg w.a)) (hb : (s.now.sReg w.b).toNat < 128)
    (hv : (s.now.sReg w.c).toNat < if (s.now.sReg w.b).toNat < 96 then 16 else 64) :
    (∃ t, exec (.ttset g w) s = .next t ∧ ∀ i, (t.core (144 * die + (s.now.sReg w.a).toNat)).timingAt i =
      if i = (s.now.sReg w.b).toNat then (s.now.sReg w.c).extractLsb' 0 8
      else (s.core (144 * die + (s.now.sReg w.a).toNat)).timingAt i) ∧
    (s.fns = [] → CompletesAt (.ttset g w) s s.now.after (144 * die + (s.now.sReg w.a).toNat) fun d =>
      d.setTiming (s.now.sReg w.b).toNat ((s.now.sReg w.c).extractLsb' 0 8)) := by
  obtain ⟨-, -, hsup, hsys⟩ := id hsv
  have htest : (semTtset g w).check5 s s.cur (s.view (semTtset g w)) = none := by
    refine rangeUnless_true ?_
    rw [State.view_s h.quiet, State.view_s h.quiet, State.view_s h.quiet, hsv.targetOk ht, timingOk, decide_eq_true hb, decide_eq_true hv]
    rfl
  have hp : (semTtset g w).Performs s := command_performs h rfl hsys hsup htest rfl rfl
  obtain ⟨⟨t, e, -, htiming, hsame⟩, hat⟩ := command_two (i := .ttset g w) hp rfl hc (hsv.site_ne ht)
    (f := fun d => d.setTiming (s.now.sReg w.b).toNat ((s.now.sReg w.c).extractLsb' 0 8)) rfl fun u => by
      simp only [semTtset, State.view_s h.quiet, hsv.siteKey]
      rfl
  refine ⟨⟨t, e, fun i => ?_⟩, hat⟩
  rw [← Core.timingAt_setTiming]
  unfold Core.timingAt
  rw [htiming, hsame]

omit h hsv in
/-- What a change of the power levels leaves: the level given, memory and the other cores. -/
theorem setLevels_keeps (u : State) (f : PowerCtl → PowerCtl) : (u.setLevels f).pwr.level = (f u.pwr).level ∧
    (u.setLevels f).mem = u.mem ∧ ∀ k, k ≠ 576 → (u.setLevels f).core k = u.core k := by
  have hothers : ∀ p k, k ≠ 576 → (u.setPower p).core k = u.core k := fun p k hk => State.core_modCore_ne _ _ hk
  simp only [State.setLevels]
  repeat' split
  all_goals exact ⟨rfl, rfl, hothers _⟩

/-- PSTEP of a level of 700 W to 2,400 W. -/
theorem pstep_completes (hc : (Instr.pstep g w).check1 = none) (hlo : 700 ≤ (s.now.sReg w.a).toNat) (hhi : (s.now.sReg w.a).toNat ≤ 2400) :
    ∃ t, exec (.pstep g w) s = .next t ∧ t.pwr.level = (s.now.sReg w.a).toNat ∧ (∀ k, k ≠ s.cur → k ≠ 576 → t.core k = s.core k) ∧
      (s.Unaccounted → t.mem = s.mem) := by
  obtain ⟨-, -, hsup, hsys⟩ := hsv
  have htest : (semPstep g w).check5 s s.cur (s.view (semPstep g w)) = none := by
    refine rangeUnless_true ?_
    rw [State.view_s h.quiet, decide_eq_true hlo, decide_eq_true hhi]
    rfl
  obtain ⟨u, hu, e⟩ := command_closes (m := semPstep g w) (i := .pstep g w) (f := fun u => u.setLevels fun p => { p with level := (s.now.sReg w.a).toNat })
    h rfl hsys hsup htest rfl rfl rfl hc fun a => by
      simp only [semPstep, State.view_s h.quiet]
  obtain ⟨hlevel, hmem, hcore⟩ := setLevels_keeps u fun p => { p with level := (s.now.sReg w.a).toNat }
  refine ⟨_, e, hlevel, fun k hk h576 => ?_, fun hun => hmem.trans (hu.memory hun).1⟩
  exact (State.core_close_ne _ _ hk).trans ((hcore k h576).trans (hu.others k hk))

end Commands

/-! ### Invalidations -/

/-- A fold of changes to cores changes cores alone. -/
theorem foldl_modCore_rest {α : Type} (key : α → Nat) (f : α → Core → Core) : ∀ (l : List α) (s : State),
    l.foldl (fun s q => s.modCore (key q) (f q)) s = { s with cores := (l.foldl (fun s q => s.modCore (key q) (f q)) s).cores }
  | [], _ => rfl
  | q :: l, s => foldl_modCore_rest key f l (s.modCore (key q) (f q))

/-- What an invalidation leaves of the translations, of the remote-data caches and of memory. -/
theorem inval_keeps (s : State) (asid base len : Nat) (flush : Bool) :
    (s.inval asid base len flush).tlb = (s.tlb.filter fun q => match q.2 with
      | none => false
      | some l => !((asid = 0xFFFF || q.1 / 2 ^ 36 == asid) && decide (l.page < base + len) && decide (base < l.page + l.size))) ∧
    (flush = true → (s.inval asid base len flush).rdc =
      s.rdc.filter fun q => !(decide (base / 128 ≤ q.1 % 2 ^ 45) && decide (q.1 % 2 ^ 45 < (base + len) / 128))) ∧
    (s.inval asid base len flush).mem = s.mem := by
  cases flush with
  | false => exact ⟨rfl, nofun, rfl⟩
  | true =>
    exact ⟨congrArg State.tlb (foldl_modCore_rest Prod.fst _ _ _), fun _ => congrArg State.rdc (foldl_modCore_rest Prod.fst _ _ _),
      (congrArg State.mem (foldl_modCore_rest Prod.fst _ _ _)).trans rfl⟩

/-- A translation is left where the invalidation does not name its context or its page does not meet the extent. -/
theorem mem_tlb_inval {s : State} {asid base len : Nat} {flush : Bool} {q : Nat} {l : Leaf} :
    (q, some l) ∈ (s.inval asid base len flush).tlb ↔ (q, some l) ∈ s.tlb ∧
      ¬((asid = 0xFFFF ∨ q / 2 ^ 36 = asid) ∧ l.page < base + len ∧ base < l.page + l.size) := by
  rw [(inval_keeps ..).1, List.mem_filter]
  simp only [Bool.not_eq_true', ← Bool.not_eq_true, Bool.and_eq_true, Bool.or_eq_true, decide_eq_true_eq, beq_iff_eq, and_assoc]

/-- No line of the extent, which is whole lines, is left in a remote-data cache. -/
theorem rdc_inval {s : State} {asid base len : Nat} (hb : base % 65536 = 0) (hl : len % 65536 = 0) :
    ∀ q ∈ (s.inval asid base len true).rdc, ¬(base ≤ 128 * (q.1 % 2 ^ 45) ∧ 128 * (q.1 % 2 ^ 45) < base + len) := by
  intro q hq
  rw [(inval_keeps ..).2.1 rfl, List.mem_filter] at hq
  have hmiss := hq.2
  simp only [Bool.not_eq_true', Bool.and_eq_false_iff, decide_eq_false_iff_not] at hmiss
  omega

/-- INVAL by the D0 supervisor, with no write outstanding and no probed page in its extent. -/
theorem inval_completes {s : State} {g : Guard} {w : SR} (h : s.Issues .s g none) (hsv : s.Supervises 0) (hc : (Instr.inval g w).check1 = none)
    {a b n : Nat} (ha : (s.now.sReg w.a).toNat = a) (hb : (s.now.sReg w.b).toNat = b) (hn : (s.now.sReg w.c).toNat = n)
    (hasid : a < 1024 ∨ a = 0xFFFF) (hbase : b % 65536 = 0) (hlen : n % 65536 = 0) (hmin : 65536 ≤ n) (hmax : b + n ≤ 2 ^ 52)
    (hd : s.drained s.cur 2 = true) (hpr : s.probedIn a b n = false) :
    ∃ u t, s.Charged u ∧ exec (.inval g w) s = .next t ∧ t.tlb = (u.inval a b n (w.fn.getLsbD 0)).tlb ∧
      t.rdc = (u.inval a b n (w.fn.getLsbD 0)).rdc ∧ t.mem = (u.inval a b n (w.fn.getLsbD 0)).mem := by
  obtain ⟨hcur, -, hsup, hsys⟩ := hsv
  have htest : (semInval g w).check5 s s.cur (s.view (semInval g w)) = none := by
    refine rangeUnless_true ?_
    rw [State.view_s h.quiet, State.view_s h.quiet, State.view_s h.quiet, ha, hb, hn, hbase, hlen, decide_eq_true hmin, decide_eq_true hmax]
    rcases hasid with h1 | h1 <;> simp [h1]
  have hwait : (semInval g w).wait s s.cur (s.view (semInval g w)) = none := by
    refine if_pos ⟨hd, ?_⟩
    rw [State.view_s h.quiet, State.view_s h.quiet, State.view_s h.quiet, ha, hb, hn, hpr]
    rfl
  obtain ⟨u, hu, e⟩ := command_closes (m := semInval g w) (i := .inval g w) (f := fun u => u.inval a b n (w.fn.getLsbD 0))
    h rfl hsys (beq_iff_eq.mpr hcur) htest rfl hwait rfl hc fun acc => by
      simp only [semInval, State.view_s h.quiet, ha, hb, hn]
  exact ⟨u, _, hu, e, rfl, rfl, rfl⟩

/-- Settles O23: each clause is the law of its command. -/
theorem supervisorTables : Obligations.SupervisorTables := by
  unfold Obligations.SupervisorTables
  intro s g w die h hsv a b c k
  refine ⟨slotmap_completes h hsv, fun hc ht hb hv => ?_, pstep_completes h hsv, ?_⟩
  · obtain ⟨⟨t, e, htiming⟩, hat⟩ := ttset_completes h hsv hc ht hb hv
    exact ⟨⟨t, e, fun i _ => htiming i⟩, hat⟩
  · rintro hc rfl hasid hbase hlen hmin hmax hd hpr
    obtain ⟨u, t, hu, e, htlb, hrdc, hmem⟩ := inval_completes h hsv hc rfl rfl rfl hasid hbase hlen hmin hmax hd hpr
    refine ⟨t, e, fun hun => ?_, fun q l => ?_, fun hflush => ?_⟩
    · exact hmem.trans ((inval_keeps ..).2.2.trans (hu.memory hun).1)
    · rw [htlb, mem_tlb_inval, show u.tlb = s.tlb by rw [hu.rest]]
    · rw [hrdc, hflush]
      exact rdc_inval hbase hlen

end Sys2Proof.Machine

/-! ## Pre-emption and scan passes (08 R270, 19 R473) -/

namespace Sys2Proof.Machine

/-- An operation that places one write, which may depend on what the charge of its cycle leaves. -/
theorem runSolo_placed {m : OpSem} {i : Instr} {s : State} {w : W64} (h : m.Performs s) (hw : i.slotWord = some (m.slot, w))
    (hc : i.check1 = none) {bound : Nat} {x : Write}
    (hp : ∀ u : State, s.Charged u → m.perform s.cur (s.view m) { st := m.begun s.cur (s.view m) u, seed := s.now.cr.seed } =
      { st := u.modCore s.cur fun c => c.pendWrite bound x, seed := s.now.cr.seed }) :
    ∃ t, runSolo m i s = .next t ∧ s.Follows t (s.now.later bound x) := by
  obtain ⟨t, e, hf⟩ := runSolo_core h hw hc (nx := none) (sd := s.now.cr.seed) (Core.plain_pendWrite bound x) (fun _ => rfl) (fun _ => rfl) hp
  refine ⟨t, e, hf.of_core ((Core.agrees_later h.quiet.still ..).trans ?_)⟩
  rw [Option.getD_none, ← Core.later_pc]
  exact Core.Agrees.refl _

/-- The core that waits for an outcome. -/
def Core.awaits (c : Core) (a : Await) : Core := { c with await := a }

/-- What a quiet core that waits is, one bundle later. -/
theorem close_awaits {s u x : State} (hq : s.now.Quiet) (hu : s.Charged u) {a : Await} (hx : x.core s.cur = (u.core s.cur).awaits a) :
    ((s.close { st := x, seed := s.now.cr.seed }).core s.cur).Agrees { s.now.after with await := a } := by
  have hs := hq.still
  exact quietAwait_agrees (f := fun c => c.awaits a) hq hu hx (fun _ _ _ _ _ _ => rfl) rfl ⟨hs.1, hs.2, hs.3, hs.4, hs.5, hs.6, hs.7⟩ rfl

section Commands

variable {s : State} {g : Guard} {w : SR} {die k : Nat} (h : s.Issues .s g none) (hsv : s.Supervises die)
  (ht : s.TargetSite die (s.now.sReg w.a)) (hk : 144 * die + (s.now.sReg w.a).toNat = k)

section Preempt

include h hsv ht

/-- PREEMPT of a target site performs. -/
theorem preempt_performs : (semPreempt g w).Performs s := by
  obtain ⟨-, -, hsup, hsys⟩ := id hsv
  refine command_performs h rfl hsys hsup (rangeUnless_true ?_) rfl rfl
  rw [State.view_s h.quiet]
  exact hsv.targetOk ht

include hk

/-- PREEMPT of a site that holds no item does nothing. -/
theorem preempt_empty (hc : (Instr.preempt g w).check1 = none) (hitem : (s.core k).item = none) :
    Completes (.preempt g w) s s.now.after := by
  have hne : k ≠ s.cur := hk ▸ hsv.site_ne ht
  obtain ⟨t, e, hf⟩ := runSolo_coreF (i := .preempt g w) (preempt_performs h hsv ht) rfl hc (F := fun u => u) (g := fun c => c)
    (sd := s.now.cr.seed) (nx := none) Core.plain_id (fun _ => rfl) (fun _ => rfl) (fun _ _ => ⟨rfl, fun _ _ => rfl, rfl⟩) fun u hu => by
      have hnone : (u.core k).item.isNone = true := by rw [hu.others k hne, hitem]; rfl
      simp only [semPreempt, State.view_s h.quiet, hsv.siteKey, hk]
      exact if_pos hnone
  exact ⟨t, e, hf.of_core (Core.agrees_after h.quiet.still ..)⟩

/-- PREEMPT of a site that holds an item raises its cause there and waits. -/
theorem preempt_raises (hc : (Instr.preempt g w).check1 = none) (hitem : (s.core k).item.isSome = true) :
    CompletesAt (.preempt g w) s { s.now.after with await := .preempt k } k fun c => c.raiseAsync 0x10 0 := by
  have hne : k ≠ s.cur := hk ▸ hsv.site_ne ht
  obtain ⟨u, hu, e⟩ := runSolo_performs (i := .preempt g w) (preempt_performs h hsv ht) rfl hc
  have hperform : (semPreempt g w).perform s.cur (s.view (semPreempt g w)) { st := u, seed := s.now.cr.seed } =
      { st := (u.modCore k fun c => c.raiseAsync 0x10 0).modCore s.cur fun c => c.awaits (.preempt k), seed := s.now.cr.seed } := by
    have hsome : ¬(u.core k).item.isNone = true := by rw [hu.others k hne, ← Option.not_isSome, hitem]; decide
    simp only [semPreempt, State.view_s h.quiet, hsv.siteKey, hk]
    exact if_neg hsome
  refine ⟨_, e.trans (congrArg (fun a => Host.Outcome.next (s.finish a)) hperform), close_awaits h.quiet hu ?_, ?_, fun j h1 h2 => ?_, ?_, fun hun => ?_⟩
  · rw [State.core_modCore, State.core_modCore_ne _ _ hne.symm]
  · refine (State.core_close_ne _ _ hne).trans ((State.core_modCore_ne _ _ hne).trans ?_)
    rw [State.core_modCore, hu.others k hne]
  · exact (State.core_close_ne _ _ h1).trans ((State.core_modCore_ne _ _ h1).trans ((State.core_modCore_ne _ _ h2).trans (hu.others j h1)))
  · refine (State.rest_close ..).trans ?_
    simp only [State.modCore, State.setCore]
    rw [hu.rest]
    rfl
  · exact (hu.memory hun).1

end Preempt

section Scanrun

/-- The charge of a cycle leaves what a scan of another site depends on. -/
theorem State.Charged.drainedSite {u : State} (hu : s.Charged u) (hne : k ≠ s.cur) : u.drainedSite k = s.drainedSite k := by
  have hwhorl : u.whorl (k / 144) = s.whorl (k / 144) := by rw [hu.rest]; rfl
  rw [State.drainedSite, State.drainedSite, hu.others k hne, hwhorl]

include h hsv ht

/-- SCANRUN of a target site performs. -/
theorem scanrun_performs : (semScanrun g w).Performs s := by
  obtain ⟨-, -, hsup, hsys⟩ := id hsv
  refine command_performs h rfl hsys hsup (rangeUnless_true ?_) rfl rfl
  rw [State.view_s h.quiet]
  exact hsv.targetOk ht

/-- SCANRUN that answers at once, with a code. -/
theorem scanrun_answers (hc : (Instr.scanrun g w).check1 = none) (code : Nat)
    (hp : ∀ u, s.Charged u → (semScanrun g w).perform s.cur (s.view (semScanrun g w)) { st := u, seed := s.now.cr.seed } =
      { st := u.modCore s.cur fun c => c.pendWrite 1 (.s w.d (scanStatus code 0 0 0)), seed := s.now.cr.seed }) :
    Completes (.scanrun g w) s (s.now.later 1 (.s w.d (scanStatus code 0 0 0))) := by
  obtain ⟨t, e, hf⟩ := runSolo_placed (i := .scanrun g w) (scanrun_performs h hsv ht) rfl hc hp
  exact ⟨t, e, hf⟩

include hk

/-- SCANRUN of a site that is not drained. -/
theorem scanrun_undrained (hc : (Instr.scanrun g w).check1 = none) (hd : s.drainedSite k = false) :
    Completes (.scanrun g w) s (s.now.later 1 (.s w.d 3)) := by
  refine scanrun_answers h hsv ht hc 3 fun u hu => ?_
  have hu' : ¬u.drainedSite k = true := by rw [hu.drainedSite (hk ▸ hsv.site_ne ht), hd]; decide
  simp only [semScanrun, State.view_s h.quiet, hsv.siteKey, hk, Bool.not_eq_true', if_pos (Bool.eq_false_of_not_eq_true hu')]
  rfl

variable (hd : s.drainedSite k = true)
include hd

/-- SCANRUN of a package that is STEPPED. -/
theorem scanrun_stepped (hc : (Instr.scanrun g w).check1 = none) (hst : s.pwr.stepped = true) :
    Completes (.scanrun g w) s (s.now.later 1 (.s w.d 5)) := by
  refine scanrun_answers h hsv ht hc 5 fun u hu => ?_
  have hu' : u.drainedSite k = true := (hu.drainedSite (hk ▸ hsv.site_ne ht)).trans hd
  have hpwr : u.pwr = s.pwr := by rw [hu.rest]
  simp only [semScanrun, State.view_s h.quiet, hsv.siteKey, hk, hu', hpwr, hst, Bool.not_true, Bool.false_eq_true, if_false, if_true]
  rfl

variable (hst : s.pwr.stepped = false)
include hst

/-- SCANRUN without patterns in the creel. -/
theorem scanrun_unpatterned (hc : (Instr.scanrun g w).check1 = none) (hpat : s.creel.patterns = 0) :
    Completes (.scanrun g w) s (s.now.later 1 (.s w.d 4)) := by
  refine scanrun_answers h hsv ht hc 4 fun u hu => ?_
  have hu' : u.drainedSite k = true := (hu.drainedSite (hk ▸ hsv.site_ne ht)).trans hd
  have hpwr : u.pwr = s.pwr := by rw [hu.rest]
  have hcreel : u.creel = s.creel := by rw [hu.rest]
  simp only [semScanrun, State.view_s h.quiet, hsv.siteKey, hk, hu', hpwr, hst, hcreel, hpat, Bool.not_true, Bool.false_eq_true, if_false, if_true]
  rfl

/-- SCANRUN that starts a pass, for whose outcome its core waits. -/
theorem scanrun_starts (hc : (Instr.scanrun g w).check1 = none) (hpat : s.creel.patterns ≠ 0) :
    ∃ t, exec (.scanrun g w) s = .next t ∧ (t.whorl die).phase = .scanning (s.now.sReg w.a).toNat s.time ∧
      (∀ d, d ≠ die → t.whorl d = s.whorl d) ∧ (∀ j, j ≠ s.cur → t.core j = s.core j) ∧
      (t.core s.cur).Agrees { s.now.after with await := .scan (s.now.sReg w.a).toNat s.time w.d } := by
  obtain ⟨u, hu, e⟩ := runSolo_performs (i := .scanrun g w) (scanrun_performs h hsv ht) rfl hc
  have hu' : u.drainedSite k = true := (hu.drainedSite (hk ▸ hsv.site_ne ht)).trans hd
  have hpwr : u.pwr = s.pwr := by rw [hu.rest]
  have hcreel : u.creel = s.creel := by rw [hu.rest]
  have htime : u.time = s.time := by rw [hu.rest]
  have hwhorl : ∀ d, u.whorl d = s.whorl d := fun d => by rw [hu.rest]; rfl
  have hdie : s.cur - 576 = die := by rw [hsv.1, Nat.add_sub_cancel_left]
  have hperform : (semScanrun g w).perform s.cur (s.view (semScanrun g w)) { st := u, seed := s.now.cr.seed } =
      { st := (u.modWhorl die fun q => { q with phase := .scanning (s.now.sReg w.a).toNat s.time }).modCore s.cur fun c =>
          c.awaits (.scan (s.now.sReg w.a).toNat s.time w.d), seed := s.now.cr.seed } := by
    simp only [semScanrun, State.view_s h.quiet, hsv.siteKey, hk, hu', hpwr, hst, hcreel, hpat, htime, hdie, Bool.not_true,
      Bool.false_eq_true, if_false]
    rfl
  refine ⟨_, e.trans (congrArg (fun a => Host.Outcome.next (s.finish a)) hperform), ?_, fun d hne => ?_, fun j hj => ?_, close_awaits h.quiet hu ?_⟩
  · exact congrArg Whorl.phase (SMap.get_set_same ..)
  · exact (SMap.get_set_ne _ _ _ _ hne).trans (hwhorl d)
  · exact (State.core_close_ne _ _ hj).trans ((State.core_modCore_ne _ _ hj).trans (hu.others j hj))
  · exact State.core_modCore ..

end Scanrun

end Commands

/-- Settles O27: each clause is the law of its command. -/
theorem preemptAndScan : Obligations.PreemptAndScan := by
  unfold Obligations.PreemptAndScan
  intro s g w die h hsv a k ht
  exact ⟨fun hc => ⟨preempt_empty h hsv ht rfl hc, preempt_raises h hsv ht rfl hc⟩, fun hc =>
    ⟨fun hd => scanrun_undrained h hsv ht rfl hc hd, fun hd hst => scanrun_stepped h hsv ht rfl hd hc hst,
      fun hd hst hpat => scanrun_unpatterned h hsv ht rfl hd hst hc hpat, fun hd hst hpat => scanrun_starts h hsv ht rfl hd hst hc hpat⟩⟩

end Sys2Proof.Machine

/-! ## Context images (08 R270, 14 R380 to R386) -/

namespace Sys2Proof.Machine

/-- Every core but the supervisors is at its reset values where it has no entry (log 1). -/
theorem coreDefault_cleared (key : Nat) : (coreDefault key).Still ∧ (coreDefault key).item = none ∧ (coreDefault key).latch = none ∧
    (coreDefault key).s = [] ∧ (coreDefault key).mx = {} := by
  unfold coreDefault
  split <;> exact ⟨⟨rfl, rfl, rfl, rfl, rfl, rfl, rfl⟩, rfl, rfl, rfl, rfl⟩

/-- The core after a save has nothing to count down. -/
theorem Core.still_clearSaved (c : Core) (key : Nat) : (c.clearSaved key).Still := by
  obtain ⟨hs, -⟩ := coreDefault_cleared key
  exact ⟨hs.1, hs.2, hs.3, hs.4, hs.5, hs.6, hs.7⟩

/-- A save of cores that agree leaves cores that agree. -/
theorem Core.Agrees.clearSaved {c e : Core} (h : c.Agrees e) (key : Nat) : (c.clearSaved key).Agrees (e.clearSaved key) := by
  obtain ⟨_, _, _, _, _, rfl⟩ := Core.agrees_iff.mp h
  exact Core.agrees_iff.mpr ⟨_, _, _, _, _, rfl⟩

/-! ### Where the image is -/

section Base

variable {s u : State} {g : Guard} {w : SR}

/-- The chip address of an image, of the core that saves or loads it. -/
def State.imageAt (s : State) (w : SR) : Nat :=
  if w.a = 0 then s.memNat (s.ctxEntry s.now.cr.asid + 0x10) 8 else (s.now.sReg w.a).toNat

/-- An operation finds the image where its core does. -/
theorem imageBase_view (hq : s.now.Quiet) (m : OpSem) : imageBase w s (s.view m) = s.imageAt w := by
  rw [imageBase, State.view_s hq]
  rfl

/-- The charge of a cycle leaves the image where it is, where no account is in memory. -/
theorem imageBase_charged (hq : s.now.Quiet) (hu : s.Charged u) (hun : s.Unaccounted) (m : OpSem) : imageBase w u (s.view m) = s.imageAt w := by
  have hsm := hu.sameMaps hun
  rw [← imageBase_view hq m, imageBase, imageBase, hsm.memNat, hsm.ctxEntry]

end Base

/-! ### Saving -/

/-- The header of an image takes 256 bytes, and the sections follow it without meeting. -/
theorem rising_image (s : State) (key : Nat) : Rising 0 (s.image key) := by
  obtain ⟨b, secs, himage, hlen⟩ := image_eq s key
  rw [himage]
  refine ⟨Nat.le_refl 0, ?_⟩
  rw [length_header, length_place, hlen]
  exact rising_place secs 256

/-- The header of an image begins with the image's mark, and holds its context. -/
theorem image_header (s : State) (key : Nat) : ∃ bs, (0, bs) ∈ s.image key ∧ bs.length = 256 ∧
    (∀ i, i < 4 → bs.getD i 0 = BitVec.ofNat 8 (0x5A435458 / 2 ^ (8 * i))) ∧
    ∀ i, i < 2 → bs.getD (8 + i) 0 = BitVec.ofNat 8 ((s.core key).cr.asid.toNat / 2 ^ (8 * i)) := by
  obtain ⟨b, secs, himage, hlen⟩ := image_eq s key
  refine ⟨_, himage ▸ List.mem_cons_self .., by rw [length_header, length_place, hlen], fun i hi => ?_, fun i hi => ?_⟩
  all_goals simp only [State.imageHeader, List.append_assoc]
  · rw [← Nat.zero_add i, getD_field _ _ _ _ hi, Nat.zero_add]
  · rw [getD_step _ _ _ _ _ (by decide), getD_step _ _ _ _ _ (by decide), getD_field _ _ _ _ hi]

/-- A change of a launch leaves the cores and memory. -/
theorem State.modLaunch_keeps (s : State) (n : Nat) (f : Launch → Launch) : (s.modLaunch n f).cores = s.cores ∧ (s.modLaunch n f).mem = s.mem :=
  ⟨rfl, rfl⟩

/-- A save writes the image, changes a launch and clears its core. -/
theorem ctxSave_spec (u : State) (key base : Nat) : ∃ v : State, u.ctxSave key base = v.modCore key (fun c => c.clearSaved key) ∧
    v.cores = u.cores ∧ v.mem = (u.writeRuns base (u.image key)).mem := by
  obtain ⟨⟨m, mp, pi, hwrite⟩, -, -⟩ := writeRuns_spec base (u.image key) 0 u (rising_image u key)
  have hcores : (u.writeRuns base (u.image key)).cores = u.cores := by rw [hwrite]
  unfold State.ctxSave
  generalize u.writeRuns base (u.image key) = x at hcores
  cases hitem : (u.core key).item with
  | none =>
    simp only [hitem]
    exact ⟨x, rfl, hcores, rfl⟩
  | some it =>
    simp only [hitem]
    exact ⟨_, rfl, (State.modLaunch_keeps ..).1.trans hcores, (State.modLaunch_keeps ..).2⟩

/-- The fatal test of CTXSAVE is of the whole image. -/
theorem ctxsave_fatal (g : Guard) (w : SR) (s : State) (key : Nat) (v : View) :
    (semCtxsave g w).fatal s key v = s.systemFatal (imageBase w s v) (imageEnd (s.image key)) := by
  unfold semCtxsave
  simp only

/-- CTXSAVE is the save of its core. -/
theorem ctxsave_perform (g : Guard) (w : SR) (key : Nat) (v : View) (a : Acc) :
    (semCtxsave g w).perform key v a = { a with st := a.st.ctxSave key (imageBase w a.st v) } := by
  unfold semCtxsave
  simp only

section Save

variable {s : State} {g : Guard} {w : SR} (h : s.Issues .s g none) (hsys : s.now.cr.sys = true) (hsup : s.now.supervisor = false)
  (hun : s.Unaccounted) (hbase : s.imageAt w < 2 ^ 52)
include h hsys hsup hun hbase

/-- CTXSAVE in a PREEMPT handler whose core is ready: the image stands in memory, and the core is cleared one bundle later. -/
theorem ctxsave_saves (hc : (Instr.ctxsave g w).check1 = none) (hcause : s.now.cr.cause = 0x10) (hready : s.now.saveReady = true)
    (hrun : s.systemRun (s.imageAt w) (imageEnd (s.image s.cur)) = true) :
    ∃ t, exec (.ctxsave g w) s = .next t ∧ (∀ k, k ≠ s.cur → t.core k = s.core k) ∧ (t.core s.cur).Agrees (s.now.clearSaved s.cur).after ∧
      ∃ u : State, s.Charged u ∧ t.mem = (u.writeRuns (s.imageAt w) (s.image s.cur)).mem := by
  have htest : (semCtxsave g w).check5 s s.cur (s.view (semCtxsave g w)) = none :=
    rangeUnless_true (by rw [imageBase_view h.quiet]; exact decide_eq_true hbase)
  have hfatal : (semCtxsave g w).fatal s s.cur (s.view (semCtxsave g w)) = none :=
    by rw [ctxsave_fatal, imageBase_view h.quiet]; exact systemFatal_none hrun
  have hruns : (!s.now.supervisor && s.now.cr.cause == 0x10) = true := by rw [hsup, hcause]; rfl
  obtain ⟨u, hu, e⟩ := runSolo_performs (i := .ctxsave g w)
    (command_performs h (ctxsave_command g w) hsys hruns htest hfatal (if_pos hready)) rfl hc
  rw [command_begun (ctxsave_command g w)] at e
  obtain ⟨v, hsave, hcores, hmem⟩ := ctxSave_spec u s.cur (s.imageAt w)
  have hperform : (semCtxsave g w).perform s.cur (s.view (semCtxsave g w)) { st := u, seed := s.now.cr.seed } =
      { st := v.modCore s.cur fun c => c.clearSaved s.cur, seed := s.now.cr.seed } := by
    rw [ctxsave_perform, imageBase_charged h.quiet hu hun, hsave]
  have hcore : ∀ k, v.core k = u.core k := fun k => by rw [State.core, hcores]; rfl
  refine ⟨_, e.trans (congrArg (fun a => Host.Outcome.next (s.finish a)) hperform), fun k hk => ?_, ?_, u, hu, ?_⟩
  · exact (State.core_close_ne _ _ hk).trans ((State.core_modCore_ne _ _ hk).trans ((hcore k).trans (hu.others k hk)))
  · refine (State.close_agrees h.quiet (e := s.now.clearSaved s.cur) ?_ rfl).trans (Core.agrees_after (Core.still_clearSaved ..) _ _)
    rw [State.core_modCore, hcore]
    exact hu.core.clearSaved s.cur
  · rw [← image_same hu hun]
    exact hmem

/-- What CTXSAVE leaves. -/
theorem ctxsave_completes (hc : (Instr.ctxsave g w).check1 = none) (hcause : s.now.cr.cause = 0x10) (hready : s.now.saveReady = true)
    (hrun : s.systemRun (s.imageAt w) (imageEnd (s.image s.cur)) = true) :
    ∃ t, exec (.ctxsave g w) s = .next t ∧ (∀ k, k ≠ s.cur → t.core k = s.core k) ∧
      (t.core s.cur).item = none ∧ (t.core s.cur).saved = true ∧ (t.core s.cur).latch = none ∧ (t.core s.cur).cr = s.now.cr ∧
      (∀ n, (t.core s.cur).sReg n = 0) ∧ (t.core s.cur).mx = {} ∧
      (∀ x, x < s.imageAt w ∨ s.imageAt w + imageEnd (s.image s.cur) ≤ x → t.memByte x = s.memByte x) ∧
      t.memNat (s.imageAt w) 4 = 0x5A435458 ∧ t.memNat (s.imageAt w + 8) 2 = s.now.cr.asid.toNat ∧
      ∀ off bs, (off, bs) ∈ s.image s.cur → ∀ i, i < bs.length → t.memByte (s.imageAt w + off + i) = bs.getD i 0 := by
  obtain ⟨t, e, hothers, hcore, u, hu, hmem⟩ := ctxsave_saves h hsys hsup hun hbase hc hcause hready hrun
  obtain ⟨_, _, _, _, _, hc'⟩ := Core.agrees_iff.mp hcore
  obtain ⟨-, hitem, hlatch, hs, hmx⟩ := coreDefault_cleared s.cur
  obtain ⟨-, hbytes, hkept⟩ := writeRuns_spec (s.imageAt w) (s.image s.cur) 0 u (rising_image s s.cur)
  have hbyte : ∀ off bs, (off, bs) ∈ s.image s.cur → ∀ i, i < bs.length → t.memByte (s.imageAt w + off + i) = bs.getD i 0 :=
    fun off bs hb i hi => (memByte_of_mem hmem _).trans (hbytes off bs hb i hi)
  obtain ⟨bs, hhead, hlen, hmark, hasid⟩ := image_header s s.cur
  refine ⟨t, e, hothers, ?_, ?_, ?_, ?_, fun n => ?_, ?_, fun x hx => ?_, ?_, ?_, hbyte⟩
  · rw [hc']; exact hitem
  · rw [hc']; rfl
  · rw [hc']; exact hlatch
  · rw [hc']; rfl
  · have hnone : (t.core s.cur).s = [] := by rw [hc']; exact hs
    rw [Core.sReg, hnone, SMap.get_nil, ite_self]
  · rw [hc']; exact hmx
  · have hend := (imageEnd_le (s.image s.cur) 0).2
    refine (memByte_of_mem hmem x).trans ((hkept x fun q hq => ?_).trans (memByte_of_mem (hu.memory hun).1 x))
    have := hend q hq
    simp only [imageEnd] at hx
    omega
  · refine (State.memNat_of (x := 0x5A435458) fun i hi => ?_).trans (by decide)
    exact (hbyte 0 bs hhead i (by omega)).trans (hmark i hi)
  · refine (State.memNat_of fun i hi => ?_).trans (Nat.mod_eq_of_lt s.now.cr.asid.isLt)
    rw [Nat.add_assoc]
    exact (hbyte 0 bs hhead (8 + i) (by omega)).trans (hasid i hi)

end Save

/-! ### Loading -/

/-- CTXLOAD of a sound image is the load of its core. -/
theorem ctxload_perform (g : Guard) (w : SR) (key : Nat) (v : View) (a : Acc) (h : a.st.imageOk (imageBase w a.st v) = true) :
    (semCtxload g w).perform key v a = { a with st := a.st.ctxLoad key (imageBase w a.st v) } := by
  unfold semCtxload
  simp only [h, if_true]

/-- The fatal test of CTXLOAD is of the header alone. -/
theorem ctxload_fatal (g : Guard) (w : SR) (s : State) (key : Nat) (v : View) :
    (semCtxload g w).fatal s key v = s.systemFatal (imageBase w s v) 256 := by
  unfold semCtxload
  simp only

/-- The checks of an image read memory and tables alone. -/
theorem sameImageOk {s u : State} (h : s.SameMaps u) (base : Nat) : u.imageOk base = s.imageOk base := by
  simp only [State.imageOk, State.objMap, State.ctxState, State.imgObjects, State.imgNat, h.memNat, h.ctxEntry]

/-- The range registers of a context are those of memory. -/
theorem sameCtxRanges {s u : State} (h : s.SameMaps u) (a : BitVec 16) : u.ctxRanges a = s.ctxRanges a := by
  simp only [State.ctxRanges, State.ctxRange, h.memNat, h.ctxEntry]

/-- What a load of the image at `base` leaves in a core that was in system mode. -/
structure State.Loads (s : State) (base : Nat) (d : Core) : Prop where
  asid : d.cr.asid = BitVec.ofNat 16 (s.memNat (base + 8) 2)
  sys : d.cr.sys = true
  item : d.item.isSome = true
  ranges : d.ranges = s.ctxRanges (BitVec.ofNat 16 (s.memNat (base + 8) 2))
  erep : d.cr.erep = BitVec.ofNat 8 (s.imgNat base 0 16 8)
  regs : s.memNat (base + 0x0A) 2 % 2 = 0 → d.s = tableOf 0 64 fun i => BitVec.ofNat 64 (s.imgNat base 1 (8 * i) 8)
  pend : d.pend = []

/-- A load changes its core alone. -/
theorem ctxLoad_loads {s u : State} (h : s.SameMaps u) (key base : Nat) (hsys : (u.core key).cr.sys = true) :
    ∃ f : Core → Core, u.ctxLoad key base = u.modCore key f ∧ (f (u.core key)).hooks = (u.core key).hooks ∧ s.Loads base (f (u.core key)) := by
  obtain ⟨f, hload, hf⟩ := ctxLoad_core u key base
  obtain ⟨hasid, hs, hitem, hranges, herep, hhooks, hregs, hpend⟩ := hf (u.core key)
  refine ⟨f, hload, hhooks, ?_, hs.trans hsys, hitem, ?_, ?_, ?_, hpend.trans (coreDefault_cleared key).1.pend⟩
  · rw [hasid, h.memNat]
  · rw [hranges, h.memNat, sameCtxRanges h]
  · rw [herep]
    simp only [State.imgNat, h.memNat]
  · simp only [State.imgNat, h.memNat] at hregs ⊢
    exact hregs

/-- A register of a loaded core. -/
theorem State.Loads.sReg {s : State} {base : Nat} {d : Core} (h : s.Loads base d) (h0 : s.memNat (base + 0x0A) 2 % 2 = 0) {n : BitVec 6}
    (hn : n ≠ 0) : d.sReg n = BitVec.ofNat 64 (s.memNat (base + s.memNat (base + 0x48) 4 + 8 * n.toNat) 8) := by
  rw [Core.sReg, if_neg hn, h.regs h0, tableOf, SMap.get_entries, if_pos (Nat.zero_le _), Nat.sub_zero, getD_rangeMap 64 _ _ _ n.isLt]
  rfl

section Load

variable {s : State} {g : Guard} {w : SR} (h : s.Issues .s g none) (hsys : s.now.cr.sys = true) (hsup : s.now.supervisor = false)
  (hun : s.Unaccounted) (hbase : s.imageAt w < 2 ^ 52)
include h hsys hsup hun hbase

/-- CTXLOAD of a sound image: the core is the loaded one, one bundle later, and the rest of the machine is as it was. -/
theorem ctxload_loads (hc : (Instr.ctxload g w).check1 = none) (hrun : s.systemRun (s.imageAt w) 256 = true)
    (hok : s.imageOk (s.imageAt w) = true) :
    ∃ (t : State) (d : Core), exec (.ctxload g w) s = .next t ∧ (∀ k, k ≠ s.cur → t.core k = s.core k) ∧ t.mem = s.mem ∧
      s.Loads (s.imageAt w) d ∧ (t.core s.cur).Agrees { d.endBundle s.now.cr.seed with repLeft := none, pc := s.now.pc + 12 } := by
  have htest : (semCtxload g w).check5 s s.cur (s.view (semCtxload g w)) = none :=
    rangeUnless_true (by rw [imageBase_view h.quiet]; exact decide_eq_true hbase)
  have hfatal : (semCtxload g w).fatal s s.cur (s.view (semCtxload g w)) = none := by
    rw [ctxload_fatal, imageBase_view h.quiet]
    exact systemFatal_none hrun
  have hruns : onTile s.cur s.now = true := by rw [onTile, hsup]; rfl
  obtain ⟨u, hu, e⟩ := runSolo_performs (i := .ctxload g w)
    (command_performs h (ctxload_command g w) hsys hruns htest hfatal rfl) rfl hc
  rw [command_begun (ctxload_command g w)] at e
  have hsm := hu.sameMaps hun
  obtain ⟨_, _, _, _, _, hcore⟩ := Core.agrees_iff.mp hu.core
  obtain ⟨f, hload, hhooks, hloads⟩ := ctxLoad_loads hsm s.cur (s.imageAt w) (show (u.core s.cur).cr.sys = true by rw [hcore]; exact hsys)
  have hsound : u.imageOk (imageBase w u (s.view (semCtxload g w))) = true := by
    rw [imageBase_charged h.quiet hu hun, sameImageOk hsm]
    exact hok
  have hperform : (semCtxload g w).perform s.cur (s.view (semCtxload g w)) { st := u, seed := s.now.cr.seed } =
      { st := u.modCore s.cur f, seed := s.now.cr.seed } := by
    rw [ctxload_perform g w s.cur (s.view (semCtxload g w)) { st := u, seed := s.now.cr.seed } hsound, imageBase_charged h.quiet hu hun, hload]
  refine ⟨_, f (u.core s.cur), e.trans (congrArg (fun a => Host.Outcome.next (s.finish a)) hperform), fun k hk => ?_, (hu.memory hun).1, hloads, ?_⟩
  · exact (State.core_close_ne _ _ hk).trans ((State.core_modCore_ne _ _ hk).trans (hu.others k hk))
  · refine State.close_agrees h.quiet (e := f (u.core s.cur)) ?_ (hhooks.trans (by rw [hcore]))
    rw [State.core_modCore]
    exact Core.Agrees.refl _

/-- What CTXLOAD leaves. -/
theorem ctxload_completes (hc : (Instr.ctxload g w).check1 = none) (hrun : s.systemRun (s.imageAt w) 256 = true)
    (hok : s.imageOk (s.imageAt w) = true) :
    ∃ t, exec (.ctxload g w) s = .next t ∧ (∀ k, k ≠ s.cur → t.core k = s.core k) ∧ t.mem = s.mem ∧
      s.Loads (s.imageAt w) { t.core s.cur with pend := [] } ∧ (t.core s.cur).pc = s.now.pc + 12 := by
  obtain ⟨t, d, e, hothers, hmem, hd, hcore⟩ := ctxload_loads h hsys hsup hun hbase hc hrun hok
  obtain ⟨_, _, _, _, _, hc'⟩ := Core.agrees_iff.mp hcore
  obtain ⟨hs, hranges, hasid, hsys', herep⟩ := endBundle_kept hd.pend s.now.cr.seed
  obtain ⟨-, -, -, hitem, -, -⟩ := Core.kept_endBundle d s.now.cr.seed
  refine ⟨t, e, hothers, hmem, ?_, by rw [hc']⟩
  rw [hc']
  exact ⟨hasid.trans hd.asid, hsys'.trans hd.sys, (congrArg Option.isSome hitem).trans hd.item, hranges.trans hd.ranges, herep.trans hd.erep,
    fun h0 => hs.trans (hd.regs h0), rfl⟩

end Load

/-- Settles O29: a save writes the image and clears its core; a load of a sound image takes its state. -/
theorem contextImages : Obligations.ContextImages := by
  unfold Obligations.ContextImages
  intro s g w h hsys hsup hun base hbase
  refine ⟨ctxsave_completes h hsys hsup hun hbase, fun hc hrun hok => ?_⟩
  obtain ⟨t, e, hothers, hmem, hd, hpc⟩ := ctxload_completes h hsys hsup hun hbase hc hrun hok
  exact ⟨t, e, hothers, hmem, hd.asid, hd.sys, hpc, hd.item, hd.ranges, hd.erep, fun h0 n hn => hd.sReg h0 hn⟩

end Sys2Proof.Machine

/-! ## Privileged operations (08 R268) -/

namespace Sys2Proof.Machine

/-- An operation of the S slot raises PRIVILEGE at check 2. -/
def RaisesPrivilege (i : Instr) (s : State) : Prop :=
  ∀ sl w, i.slotWord = some (sl, w) →
    exec i s = .next (s.takeTrap s.cur ⟨0x02, info263 .s 0 ((opcodeOf w).extractLsb' 2 6) (opcodeOf w) 0⟩ s.now.pc 1)

/-- A privileged operation of the S slot in user mode, whose word passes check 1. -/
theorem raisesPrivilege {i : Instr} {m : OpSem} {s : State} (hm : semOf i = some m) (hslot : m.slot = .s) (hq : s.now.Quiet)
    (husr : s.now.cr.sys = false) (hc : i.check1 = none) (h1 : m.check1 s.now = false) (hpriv : m.priv s.now = true) : RaisesPrivilege i s := by
  intro sl w hw
  obtain ⟨hexec, hspec⟩ := semOf_spec hm s
  obtain ⟨rfl, hop⟩ := hspec sl w hw
  have htrap := runSolo_privilege hq hw husr hc h1 hpriv
  rw [hslot, hop] at htrap
  exact hexec.trans htrap

/-- CRW is privileged but for cr.round, cr.seed and cr.flags. -/
theorem crw_priv {g : Guard} {w : SI} (h : w.imm.extractLsb' 0 16 ∉ [(0x10 : BitVec 16), 0x11, 0x12]) (c : Core) : (semCrw g w).priv c = true := by
  change (!(decide (0x10 ≤ (w.imm.extractLsb' 0 16).toNat) && decide ((w.imm.extractLsb' 0 16).toNat ≤ 0x12))) = true
  generalize w.imm.extractLsb' 0 16 = x at h
  simp only [List.mem_cons, List.not_mem_nil, or_false, not_or] at h
  obtain ⟨h0, h1, h2⟩ := h
  rw [Bool.not_eq_true', ← Bool.not_eq_true, Bool.and_eq_true, decide_eq_true_iff, decide_eq_true_iff]
  rintro ⟨hlo, hhi⟩
  have hx : x.toNat = 0x10 ∨ x.toNat = 0x11 ∨ x.toNat = 0x12 := by omega
  rcases hx with e | e | e
  · exact h0 (BitVec.eq_of_toNat_eq e)
  · exact h1 (BitVec.eq_of_toNat_eq e)
  · exact h2 (BitVec.eq_of_toNat_eq e)

/-- CRR of the trap registers is privileged and passes check 1. -/
theorem crr_priv {g : Guard} {w : SI} (h : w.imm.extractLsb' 0 16 ∈ [(0x30 : BitVec 16), 0x31, 0x32, 0x33]) (c : Core) :
    (semCrr g w).priv c = true ∧ (semCrr g w).check1 c = false := by
  change (decide (0x30 ≤ (w.imm.extractLsb' 0 16).toNat) && decide ((w.imm.extractLsb' 0 16).toNat ≤ 0x33)) = true ∧
    (!c.supervisor && (w.imm.extractLsb' 0 16 == 5 || w.imm.extractLsb' 0 16 == 6)) = false
  generalize w.imm.extractLsb' 0 16 = x at h
  simp only [List.mem_cons, List.not_mem_nil, or_false] at h
  rcases h with rfl | rfl | rfl | rfl <;> exact ⟨rfl, Bool.and_false _⟩

/-- Settles O42: each operation of the list is privileged, and the two of the control registers are for the registers named. -/
theorem privilegedOperations : Obligations.PrivilegedOperations := by
  unfold Obligations.PrivilegedOperations
  intro s g r j i hq husr hc x h
  rcases h with h | ⟨rfl, hx⟩ | ⟨rfl, hx⟩
  · simp only [List.mem_cons, List.not_mem_nil, or_false] at h
    rcases h with rfl | rfl | rfl | rfl | rfl | rfl | rfl | rfl | rfl | rfl | rfl | rfl | rfl | rfl | rfl | rfl | rfl | rfl | rfl <;>
      exact raisesPrivilege rfl rfl hq husr hc rfl rfl
  · exact raisesPrivilege rfl rfl hq husr hc rfl (crw_priv hx _)
  · exact raisesPrivilege rfl rfl hq husr hc (crr_priv hx _).2 (crr_priv hx _).1

end Sys2Proof.Machine

/-! ## Launches and the stage scheduler (13 R333 to R345, 08 R250, R251, 14 R356) -/

namespace Sys2Proof.Machine

/-! ### Kicks and packets -/

section Queue

variable {s : State}

/-- A kick of a bound queue: the slot takes the new WRIDX, or the package drops a value outside the ring. -/
theorem kick_bound {part qid : Nat} {wr : BitVec 64} {r : QueueReg} {n : Nat} (hidle : s.pwr.phase ≠ .idle)
    (hpart : s.contained.contains part = false) (hall : s.contained.contains 31 = false) (hreg : SMap.get none s.queues qid = some r)
    (hown : r.part = part) (hslot : s.slotOfQueue qid = some n) :
    exec (.kick part qid wr) s = .next (if wr.toNat < (s.slot n).wridx ∨ (s.slot n).rdidx + 2 ^ (s.slot n).ringLog < wr.toNat
      then s.hostDropped part 1 qid wr.toNat else s.setSlot n { s.slot n with wridx := wr.toNat }) := by
  subst hown
  show execKick r.part qid wr s = _
  simp only [execKick, hidle, hpart, hall, hreg, hslot, if_false, Bool.false_eq_true, or_self, ne_eq, not_true_eq_false]

section Fetch

variable {n : Nat} {p : List Byte} (hn : n < 64) (hbound : (s.slot n).state = .bound) (hnone : (s.slot n).launch = none)
  (hrd : (s.slot n).rdidx < (s.slot n).wridx)
  (hp : s.readCa (s.slot n).asid ((s.slot n).ringBase + 128 * ((s.slot n).rdidx % 2 ^ (s.slot n).ringLog)) 128 = some p)
include hn hbound hnone hrd hp

/-- A fetch of a readable packet does what the packet's check says. -/
theorem packetFetch_eq :
    let next := fun (u : State) => u.setSlot n { s.slot n with rdidx := (s.slot n).rdidx + 1 }
    let high := fun (u : State) => if (s.slot n).prio ≠ 7 then u
      else (List.range 4).foldl (fun u d => if (u.liveCores (s.slot n).part d).isEmpty then u else u.unmark d 0) u
    exec (.packetFetch n) s = .next (match s.checkPacket (s.slot n) p with
      | .noop => next s
      | .refused status record =>
        let u := if status = 3 then s else high s
        next (if record then u.complete (s.slot n).asid (fieldOf p 0x28 8) status 0 [] else u)
      | .launch l => (high s).setSlot n { s.slot n with launch := some (if s.ctxState (s.slot n).asid = 1 then l else l.kill) }) := by
  have hopen : ¬ (64 ≤ n ∨ (s.slot n).state ≠ .bound ∨ (s.slot n).launch.isSome = true ∨ (s.slot n).wridx ≤ (s.slot n).rdidx) := by
    simp only [hbound, hnone, ne_eq, not_true_eq_false, Option.isSome_none, Bool.false_eq_true, false_or]
    omega
  show execPacketFetch n s = _
  simp only [execPacketFetch, hopen, hp, if_false]
  cases s.checkPacket (s.slot n) p <;> rfl

/-- A packet of type 0 is consumed without effect. -/
theorem packetFetch_noop (h0 : fieldOf p 0 4 = 0) :
    exec (.packetFetch n) s = .next (s.setSlot n { s.slot n with rdidx := (s.slot n).rdidx + 1 }) := by
  have hcheck : s.checkPacket (s.slot n) p = .noop := if_pos h0
  rw [packetFetch_eq hn hbound hnone hrd hp, hcheck]

/-- A packet of a reserved type completes with status 3. -/
theorem packetFetch_reserved (h2 : 2 ≤ fieldOf p 0 4) :
    exec (.packetFetch n) s = .next ((s.complete (s.slot n).asid (fieldOf p 0x28 8) 3 0 []).setSlot n
      { s.slot n with rdidx := (s.slot n).rdidx + 1 }) := by
  have hcheck : s.checkPacket (s.slot n) p = .refused 3 true :=
    (if_neg (show ¬ fieldOf p 0 4 = 0 by omega)).trans (if_pos (show fieldOf p 0 4 ≠ 1 by omega))
  rw [packetFetch_eq hn hbound hnone hrd hp, hcheck]
  rfl

/-- An accepted packet starts its launch. -/
theorem packetFetch_launch {l : Launch} (hcheck : s.checkPacket (s.slot n) p = .launch l) (hprio : (s.slot n).prio ≠ 7)
    (hlive : s.ctxState (s.slot n).asid = 1) : exec (.packetFetch n) s = .next (s.setSlot n { s.slot n with launch := some l }) := by
  rw [packetFetch_eq hn hbound hnone hrd hp, hcheck]
  simp only [hprio, hlive, ne_eq, not_false_eq_true, if_true]

end Fetch

/-- The end of a launch that was not killed: its completion record, the next packet, and the end of its kernel. -/
theorem launchComplete_over {n : Nat} {l : Launch} (hl : (s.slot n).launch = some l) (hover : s.launchOver n l = true) (hk : l.killed = false) :
    exec (.launchComplete n) s = .next (((s.complete (s.slot n).asid l.done 0 l.ended l.cores).setSlot n
      { s.slot n with launch := none, rdidx := (s.slot n).rdidx + 1 }).kernelEnd (s.slot n).asid) := by
  show execLaunchComplete n s = _
  simp only [execLaunchComplete, hl, hover, hk, Bool.not_true, Bool.false_eq_true, if_false]
  rfl

end Queue

/-! ### Gangs, ageing and ranges -/

section Events

variable {s : State}

/-- A member's report reaches its gang. -/
theorem barPacket_reports {core n : Nat} (hsent : (s.core core).bar = .sent) (hgang : (s.core core).item.bind Item.gang = some n) :
    let u := s.modCore core fun c => { c with bar := .reported }
    exec (.barPacket core) s = .next ({ u with gangs := SMap.set none u.gangs n ((SMap.get none u.gangs n).map fun (q : Gang) =>
      { q with reported := q.reported.filter (· ≠ core) ++ [core] }) }.releaseIfAll n) := by
  show execBarPacket core s = _
  simp only [execBarPacket, hsent, hgang, ne_eq, not_true_eq_false, if_false]
  rfl

/-- A release reaches a member. -/
theorem barrierRelease_reaches {core : Nat} (h : (s.core core).bar = .released) :
    exec (.barrierRelease core) s = .next (s.modCore core fun c => { c with bar := .none }) :=
  congrArg offered (if_pos h)

/-- An epoch of a slot that has demand and no share ages it. -/
theorem ageing_waits {n : Nat} (hn : n < 64) (hbound : (s.slot n).state = .bound) (hdem : (s.slot n).demand ≠ 0) (hsh : (s.slot n).shares = []) :
    exec (.ageing n) s = .next (s.setSlot n (if (s.slot n).age + 1 < (if (s.slot n).ageInt = 0 then 256 else (s.slot n).ageInt)
      then { s.slot n with age := (s.slot n).age + 1 }
      else { s.slot n with age := 0, effPrio := min 7 ((s.slot n).effPrio + 1) })) := by
  have hopen : ¬ (64 ≤ n ∨ (s.slot n).state ≠ .bound) := by
    simp only [hbound, ne_eq, not_true_eq_false, or_false]
    omega
  show execAgeing n s = _
  simp only [execAgeing, if_neg hopen, hdem, hsh, ne_eq, not_false_eq_true, and_self, decide_true, Bool.not_true, Bool.false_eq_true, if_false]
  rw [← hsh]
  rfl

/-- The cores of a context load its ranges. -/
theorem rangeReload_loads (asid : Nat) : ∃ t, exec (.rangeReload asid) s = .next t ∧ t.mem = s.mem ∧
    ∀ k, t.core k = if (s.coresOf (BitVec.ofNat 16 asid)).contains k then { s.core k with ranges := s.ctxRanges (BitVec.ofNat 16 asid) }
      else s.core k :=
  ⟨_, rfl, foldl_modCore_mem _ _ s, fun k => foldl_modCore_core (fun c => { c with ranges := s.ctxRanges (BitVec.ofNat 16 asid) }) (fun _ => rfl) k _ s⟩

end Events

/-- Settles O50: each event is the law of its handler where it is offered. -/
theorem launchEvents : Obligations.LaunchEvents := by
  unfold Obligations.LaunchEvents
  intro s
  refine ⟨fun _ _ _ _ _ => kick_bound, fun n p hn hbound hnone hrd hp => ⟨packetFetch_noop hn hbound hnone hrd hp,
    packetFetch_reserved hn hbound hnone hrd hp, fun l hcheck hprio hlive => ⟨packetFetch_launch hn hbound hnone hrd hp hcheck hprio hlive,
      checkPacket_launch s _ p l hcheck⟩⟩, fun _ _ => launchComplete_over, itemStart_wid s, resumeEntry_starts s,
    fun _ _ => barPacket_reports, fun _ => barrierRelease_reaches, fun _ => ageing_waits, rangeReload_loads⟩

end Sys2Proof.Machine

/-! ## Strand loads and stores (05 R160, R161) -/

namespace Sys2Proof.Machine

/-! ### The granules of a beat -/

/-- A load of a beat empties its granules under `.fe.clr`, where nothing is pending. -/
theorem Core.feRead_beat {c : Core} (h : c.pend = []) (qf : BitVec 2) {a : Nat} (ha : a % 512 = 0) :
    c.feRead qf a 512 = { c with fe := if qf = 2 then setFeMap c.fe (a / 16) false 32 else c.fe } := by
  simp only [Core.feRead, granules_beat a ha, Core.completeGranules_still h]
  split
  · exact Core.setFes_eq false 32 (a / 16) c
  · rfl

/-- A load of a beat waits for none of its granules where all are full. -/
theorem Core.feEmpty_beat {c : Core} (h : c.pend = []) {a : Nat} (ha : a % 512 = 0) (hf : ∀ i, i < 32 → c.feBit (a / 16 + i) = true) :
    c.feEmpty a 512 = false := by
  simp only [Core.feEmpty, granules_beat a ha, Core.completeGranules_still h]
  rw [List.any_eq_false]
  intro i hi
  rw [hf i (List.mem_range.mp hi)]
  decide

/-- A load reads the bytes of the scratchpad where nothing is pending. -/
theorem View.feBytes_quiet {v : View} (h : v.core.pend = []) (a n : Nat) : v.feBytes a n = SMap.getList 0 v.core.spad a n := by
  simp only [View.feBytes]
  rw [Core.completeGranules_still h]
  exact View.spadBytes_quiet h ..

section Strand

variable {s : State} {vs : VSlot} {g : Guard} {w : VM} {a : W64}

/-- ALIGN and RANGE of a strand access that lies in the scratchpad. -/
theorem beatTest_ok {v : View} (hv : v.addrs.a = a) (hok : v.core.SpadOk a 512) : beatTest v = none := by
  obtain ⟨halign, hrange⟩ := hok
  simp only [beatTest, hv]
  rw [if_neg (not_not.mpr halign), if_neg (Nat.not_lt.mpr hrange)]

variable (ha : a = s.now.sReg w.a + w.off.signExtend 64 * 16) (h : s.Issues vs.slot g (some (vRow vs, 7, w.lat.toNat)))
include ha h

/-- The address of a strand access. -/
theorem vmBase_view {v : View} (hv : v.core = s.now) : (vmBase w v).a = a := by
  have hq : v.core.Quiet := by
    rw [hv]
    exact h.quiet
  rw [ha, vmBase, View.s_quiet hq, hv]

variable (hok : s.now.SpadOk a 512)
include hok

/-- VST writes the data bytes of the tapped beat under its bound. -/
theorem vst_completes (hc : (Instr.vst vs g w).check1 = none) (ht : s.now.tagKnown (s.now.beatAt w.z (ringAt 17 s.now.bt)).tag = true) :
    Completes (.vst vs g w) s (s.now.later w.lat.toNat
      (.spad a.toNat (leBytes 512 (s.now.beatAt w.z (ringAt 17 s.now.bt)).data.toNat) (w.qf == 1))) := by
  have haddr : (s.view (semVst vs g w)).addrs.a = a := vmBase_view ha h rfl
  have htest : (semVst vs g w).check5 s s.cur (s.view (semVst vs g w)) = none := orElse_none (needTag_ok _ _ _ ht) (beatTest_ok haddr hok)
  have hp : (semVst vs g w).Performs s :=
    State.Issues.performs (m := semVst vs g w) h (.inr rfl) rfl ⟨rfl, rfl, htest, rfl, nofun, rfl, nofun, nofun, rfl, rfl⟩
  refine runSolo_write (i := .vst vs g w) hp rfl hc rfl fun x => ?_
  rw [← haddr]
  rfl

/-- VLD drives the bytes at its address from its station, and empties their granules under `.fe.clr`. -/
theorem vld_completes {st slot : Nat} (hst : (if vs = .v0 then 0 else 10) = st)
    (hdrive : ∀ (c : Core) bt n b, c.drive st bt n w.z b =
      { c with drives := c.drives ++ [{ left := n, z := w.z, ring := ringDrive st bt n, beat := b, slot := slot }] })
    (hc : (Instr.vld vs g w).check1 = none) (hfull : w.qf ≠ 0 → ∀ i, i < 32 → s.now.feBit (a.toNat / 16 + i) = true) :
    Completes (.vld vs g w) s
      (({ s.now with fe := if w.qf = 2 then setFeMap s.now.fe (a.toNat / 16) false 32 else s.now.fe } : Core).driveFrom st slot w.lat.toNat w.z
        { data := BitVec.ofNat 4096 (leNat (SMap.getList 0 s.now.spad a.toNat 512)), side := 0, tag := 0x01 }).after := by
  have hpend := h.quiet.pend
  have haddr : (s.view (semVld vs g w)).addrs.a = a := vmBase_view ha h rfl
  have hwait : (semVld vs g w).wait s s.cur (s.view (semVld vs g w)) = none := by
    refine if_neg fun ⟨hne, he⟩ => ?_
    rw [haddr] at he
    exact Bool.false_ne_true ((Core.feEmpty_beat hpend hok.1 (hfull hne)).symm.trans he)
  have hp : (semVld vs g w).Performs s :=
    State.Issues.performs (m := semVld vs g w) h (.inr rfl) rfl ⟨rfl, rfl, beatTest_ok haddr hok, rfl, nofun, rfl, nofun, nofun, hwait, rfl⟩
  generalize hb : ({ data := BitVec.ofNat 4096 (leNat (SMap.getList 0 s.now.spad a.toNat 512)), side := 0, tag := 0x01 } : Beat) = b
  have hbytes : (if w.qf = 0 then (s.view (semVld vs g w)).spadBytes a.toNat 512 else (s.view (semVld vs g w)).feBytes a.toNat 512) =
      SMap.getList 0 s.now.spad a.toNat 512 := by
    split
    · exact View.spadBytes_quiet (by exact hpend) ..
    · exact View.feBytes_quiet (by exact hpend) ..
  have hread : ∀ c : Core, c.pend = [] → (if w.qf = 0 then c else c.feRead w.qf a.toNat 512) =
      { c with fe := if w.qf = 2 then setFeMap c.fe (a.toNat / 16) false 32 else c.fe } := fun c hcp => by
    split
    · next h0 => rw [if_neg (by rw [h0]; decide)]
    · exact Core.feRead_beat hcp w.qf hok.1
  obtain ⟨t, e, hf⟩ := runSolo_coreF (i := .vld vs g w) hp rfl hc
    (F := fun u => u.modCore s.cur fun c => (if w.qf = 0 then c else c.feRead w.qf a.toNat 512).drive st s.now.bt w.lat.toNat w.z (some b))
    (g := fun c => ({ c with fe := if w.qf = 2 then setFeMap c.fe (a.toNat / 16) false 32 else c.fe } : Core).drive st s.now.bt w.lat.toNat w.z (some b))
    (sd := s.now.cr.seed) (nx := none) (fun _ _ _ _ _ _ => rfl) (fun _ => rfl) (fun _ => rfl)
    (fun u hu => ⟨by
      rw [State.core_modCore, hread]
      obtain ⟨_, _, _, _, _, e⟩ := Core.agrees_iff.mp hu.core
      rw [e]
      exact hpend, fun _ hk => State.core_modCore_ne _ _ hk, rfl⟩)
    (fun u _ => by
      rw [← hb, ← hbytes, ← hst, ← haddr]
      rfl)
  have hs := h.quiet.still
  have hstill : ({ s.now with fe := if w.qf = 2 then setFeMap s.now.fe (a.toNat / 16) false 32 else s.now.fe } : Core).Still :=
    ⟨hs.1, hs.2, hs.3, hs.4, hs.5, hs.6, hs.7⟩
  refine ⟨t, e, hf.of_core ((Core.agrees_driveFrom hstill st slot w.lat.toNat w.z b hdrive _).trans ?_)⟩
  simp only [Core.driveFrom, Core.after]
  split <;> exact Core.Agrees.refl _

end Strand

/-- Settles O30: VLD is a drive of the bytes it reads, VST a write of the bytes of the beat it taps. -/
theorem vectorMemory : Obligations.VectorMemory := by
  unfold Obligations.VectorMemory
  intro s vs g w a ha h hok
  refine ⟨fun hc hfull => ?_, fun hc ht => ?_⟩
  · refine ⟨{ data := BitVec.ofNat 4096 (leNat (SMap.getList 0 s.now.spad a.toNat 512)), side := 0, tag := 0x01 },
      if w.qf = 2 then setFeMap s.now.fe (a.toNat / 16) false 32 else s.now.fe, rfl, rfl, fun i hi => ?_, fun i => ?_, ?_⟩
    · rw [leNat_byte _ (by rw [SMap.getList_eq, List.length_map, List.length_range]) i hi, SMap.getList_eq, getD_rangeMap _ _ _ _ hi]
      rfl
    · by_cases hclr : w.qf = 2
      · rw [if_pos hclr, get_setFeMap]
        simp only [hclr, true_and]
        rfl
      · rw [if_neg hclr, if_neg fun hx => hclr hx.1]
        rfl
    · cases vs
      · exact vld_completes ha h hok rfl (drive_vld .v0 w.z) hc hfull
      · exact vld_completes ha h hok rfl (drive_vld .v1 w.z) hc hfull
  · have hst := vst_completes ha h hok hc ht
    rw [leBytes_eq] at hst
    simp only [beat_byte] at hst
    exact hst

end Sys2Proof.Machine

/-! ## Vector moves, permutes, shuffles and selects (05 R163 to R167) -/

namespace Sys2Proof.Machine

/-! ### Fields of a beat's data -/

/-- A field of elements side by side, wholly inside a field of `n` bits. -/
theorem extract_packBits (n w k : Nat) (l : List Nat) (h : w * (k + 1) ≤ n) :
    (BitVec.ofNat n (packBits w l)).extractLsb' (w * k) w = BitVec.ofNat w (l.getD k 0) := by
  apply BitVec.eq_of_toNat_eq
  rw [BitVec.extractLsb'_toNat, BitVec.toNat_ofNat, BitVec.toNat_ofNat, Nat.shiftRight_eq_div_pow, cut_at _ _ _ _ h, packBits_at]

/-- A field of a beat's data, or zero past the last. -/
theorem splitBits_getD (w n i : Nat) (d : Data) :
    BitVec.ofNat w ((splitBits w n d.toNat).getD i 0) = if i < n then d.extractLsb' (w * i) w else 0 := by
  rw [splitBits_eq]
  split
  · next hi =>
    rw [getD_rangeMap _ _ _ _ hi]
    apply BitVec.eq_of_toNat_eq
    rw [BitVec.toNat_ofNat, BitVec.extractLsb'_toNat, Nat.shiftRight_eq_div_pow, Nat.mod_mod]
  · next hi => rw [List.getD_eq_default _ _ (by simp; omega)]; rfl

/-- VPERM's beat: the fields of `e` bits of a that the elements of b select (05 R164). -/
def permuted (e : Nat) (a b : Beat) : Beat :=
  let es := splitBits e (4096 / e) a.data.toNat
  elemBeat e a.tag ((b.elems.take es.length).map fun i => es.getD i 0)

theorem permuted_field {e : Nat} (he : e = 16 ∨ e = 32) (a b : Beat) (hb : b.tag = 0x05) {k : Nat} (hk : k < 4096 / e) :
    (permuted e a b).data.extractLsb' (e * k) e = if b.at k < 4096 / e then a.data.extractLsb' (e * b.at k) e else 0 := by
  have hcount : 4096 / e ≤ tagCount b.tag := by
    rw [hb]
    obtain rfl | rfl := he <;> decide
  have hfit : e * (k + 1) ≤ 4096 := Nat.le_trans (Nat.mul_le_mul_left e hk) (Nat.mul_div_le 4096 e)
  have hel : b.elems.take (4096 / e) = (List.range (4096 / e)).map b.at := by
    have := elems_part b 0 (4096 / e) (by omega)
    simpa using this
  refine (extract_packBits 4096 e k _ hfit).trans ?_
  rw [length_splitBits, hel, List.map_map, getD_rangeMap _ _ _ _ hk]
  exact splitBits_getD e (4096 / e) (b.at k) a.data

/-! ### Elements -/

/-- Tests that find nothing, one after another. -/
theorem firstTrap_cons {x : Option TrapReq} {l : List (Option TrapReq)} (h : x = none) (hl : firstTrap l = none) : firstTrap (x :: l) = none := by
  rw [h]
  exact hl

/-- The tags of classes other than Z count their elements by their width. -/
theorem count_of_width {t c : Tag} (ht : isPlainTag t = true) (hc : isI c = true) (hw : tagWidth c = tagWidth t) : tagCount c = tagCount t := by
  have hz : ∀ x : Tag, isPlainTag x = true ∨ isI x = true → isZ x = false := by decide
  simp only [tagCount, hz t (.inl ht), hz c (.inr hc), hw, Bool.false_eq_true, if_false]

/-- The pattern of VSHUF on two lists of `n` elements, element by element (05 R166). -/
def shuffled (pat rot n : Nat) (a b : Nat → Nat) (k : Nat) : Nat :=
  match pat with
  | 0 => if k % 2 = 0 then a (k / 2) else b (k / 2)
  | 1 => if k % 2 = 0 then a (n / 2 + k / 2) else b (n / 2 + k / 2)
  | 2 => if k < n / 2 then a (2 * k) else b (2 * (k - n / 2))
  | 3 => if k < n / 2 then a (2 * k + 1) else b (2 * (k - n / 2) + 1)
  | _ => if rot + k < n then a (rot + k) else b (rot + k - n)

theorem shuffle_elems {a b : Beat} (hb : b.tag = a.tag) (hp : isPlainTag a.tag = true) (pat : Nat) {rot k : Nat}
    (hrot : pat = 4 → rot < tagCount a.tag) (hpat : pat ≤ 4) (hk : k < tagCount a.tag) :
    (shuffle pat rot a.elems b.elems).getD k 0 = shuffled pat rot (tagCount a.tag) a.at b.at k := by
  have heven := plain_even hp
  have hla : a.elems.length = tagCount a.tag := by rw [Beat.elems_eq, List.length_map, List.length_range]
  have hlb : b.elems.length = tagCount a.tag := by rw [Beat.elems_eq, List.length_map, List.length_range, hb]
  have ha : ∀ i, i < tagCount a.tag → a.elems.getD i 0 = a.at i := fun i hi => elems_getD a i hi
  have hb' : ∀ i, i < tagCount a.tag → b.elems.getD i 0 = b.at i := fun i hi => elems_getD b i (by rw [hb]; exact hi)
  rw [shuffle_eq pat rot _ _ _ hla hlb heven k hk]
  match pat with
  | 0 => exact if_congr Iff.rfl (ha _ (by omega)) (hb' _ (by omega))
  | 1 => exact if_congr Iff.rfl (ha _ (by omega)) (hb' _ (by omega))
  | 2 => exact ite_congr rfl (fun h => ha _ (by omega)) fun h => hb' _ (by omega)
  | 3 => exact ite_congr rfl (fun h => ha _ (by omega)) fun h => hb' _ (by omega)
  | 4 =>
    have := hrot rfl
    exact ite_congr rfl (fun h => ha _ h) fun h => hb' _ (by omega)

/-- A tag of class I, unsigned, is the unsigned tag of its width. -/
theorem uintTag_of {t : Tag} (h : isI t = true) (h2 : t ≠ 2) (h4 : t ≠ 4) (h6 : t ≠ 6) : uintTag (tagWidth t) = t := by
  revert h h2 h4 h6; revert t; decide

/-- A tag of RAW or of class F, F8 or I is one that VBCST of a scalar makes. -/
theorem scalarTag {t : Tag} (h : isF t = true ∨ isF8 t = true ∨ isI t = true ∨ t = 0x01) : (isNative t && !isZ t && t != 0x18) = true := by
  revert h; revert t; decide

section Moves

variable {s : State} {vs : VSlot} {g : Guard} {w : VR} (h : s.Issues vs.slot g (some (vRow vs, 0, w.lat.toNat)))
include h

theorem vmov_drives (hc : (Instr.vmov vs g w).check1 = none) (ha : s.now.tagKnown (s.tapped vs w.za).tag = true) :
    VectorDrives (.vmov vs g w) s vs w (s.tapped vs w.za) 0 0 :=
  movOp_drives (i := .vmov vs g w) (f := fun v => v.z w.za)
    (test := fun v => needTag v (v.z w.za) 0 (v.core.tagKnown (v.z w.za).tag)) rfl h rfl hc (needTag_ok _ _ _ ha) rfl

theorem vtag_drives (hc : (Instr.vtag vs g w).check1 = none) (ha : s.now.tagKnown (s.tapped vs w.za).tag = true)
    (ht : s.now.tagKnown w.tag = true) : VectorDrives (.vtag vs g w) s vs w { s.tapped vs w.za with tag := w.tag } 0 0 :=
  movOp_drives (i := .vtag vs g w) (f := fun v => { v.z w.za with tag := w.tag })
    (test := fun v => firstTrap [needTag v (v.z w.za) 0 (v.core.tagKnown (v.z w.za).tag), needResult v w.tag (v.core.tagKnown w.tag)])
    rfl h rfl hc (firstTrap_cons (needTag_ok _ _ _ ha) (firstTrap_cons (needResult_ok _ _ ht) rfl)) rfl

theorem vperm_drives (hc : (Instr.vperm vs g w).check1 = none)
    (he : s.now.tagBits (s.tapped vs w.za).tag = 16 ∨ s.now.tagBits (s.tapped vs w.za).tag = 32)
    (ha : isF (s.tapped vs w.za).tag = true ∨ isI (s.tapped vs w.za).tag = true ∨
      isFmt (s.tapped vs w.za).tag = true ∧ s.now.tagKnown (s.tapped vs w.za).tag = true)
    (hb : (s.tapped vs w.zb).tag = 0x05) :
    VectorDrives (.vperm vs g w) s vs w
      (permuted (s.now.tagBits (s.tapped vs w.za).tag) (s.tapped vs w.za) (s.tapped vs w.zb)) 0 0 := by
  have hkind : ((isF (s.tapped vs w.za).tag || isI (s.tapped vs w.za).tag || (isFmt (s.tapped vs w.za).tag && s.now.tagKnown (s.tapped vs w.za).tag)) &&
      (s.now.tagBits (s.tapped vs w.za).tag == 16 || s.now.tagBits (s.tapped vs w.za).tag == 32)) = true := by
    simp only [Bool.and_eq_true, Bool.or_eq_true, beq_iff_eq, or_assoc]
    exact ⟨ha, he⟩
  refine movOp_drives (i := .vperm vs g w) (vs := vs) (op := 0x04) (cls := 0) (g := g) (w := w) (zs := [w.za, w.zb]) rfl h rfl hc
    (firstTrap_cons (needTag_ok _ _ _ hkind) (firstTrap_cons (needTag_ok _ _ _ (beq_iff_eq.mpr hb)) rfl)) rfl

theorem vbcstScalar_gives (hc : (Instr.vbcstScalar vs g w).check1 = none)
    (ht : isF w.tag = true ∨ isF8 w.tag = true ∨ isI w.tag = true ∨ w.tag = 0x01) :
    VectorGives (.vbcstScalar vs g w) s vs w w.tag 0 fun _ => ((s.now.sReg w.za).toNat, 0) := by
  refine ⟨tagBeat w.tag (List.replicate (tagCount w.tag) ((s.now.sReg w.za).toNat % 2 ^ tagWidth w.tag)), ?_, ?_⟩
  · obtain ⟨htag, hside, hat⟩ := tagBeat_holds w.tag (fun _ => (s.now.sReg w.za).toNat % 2 ^ tagWidth w.tag)
      (List.replicate (tagCount w.tag) ((s.now.sReg w.za).toNat % 2 ^ tagWidth w.tag)) fun i hi => List.getD_replicate _ hi
    exact ⟨htag, hside, fun i hi => (hat i hi).trans (Nat.mod_mod ..)⟩
  · rw [flags_zero]
    exact vecOp_completesR (i := .vbcstScalar vs g w) (op := 0x05) (zs := [])
      (rd := fun _ => [.preg g.pred.toNat, .sreg w.za.toNat])
      (test := fun v => needResult v w.tag (isNative w.tag && !isZ w.tag && w.tag != 0x18)) (count := fun _ => 0)
      (f := fun v _ _ => (tagBeat w.tag (List.replicate (tagCount w.tag) ((v.s 1 w.za).toNat % 2 ^ tagWidth w.tag)), 0))
      (r := (tagBeat w.tag (List.replicate (tagCount w.tag) ((s.now.sReg w.za).toNat % 2 ^ tagWidth w.tag)), 0))
      h rfl hc (needResult_ok _ _ (scalarTag ht)) rfl
      (congrArg (fun x : W64 => (tagBeat w.tag (List.replicate (tagCount w.tag) (x.toNat % 2 ^ tagWidth w.tag)), (0 : Flags)))
        (View.sReg_of rfl h.quiet 1 w.za))

theorem vbcstElement_gives (hc : (Instr.vbcstElement vs g w).check1 = none) (hp : isPlainTag (s.tapped vs w.za).tag = true)
    (hi : (w.fn.extractLsb' 0 10).toNat < tagCount (s.tapped vs w.za).tag) :
    VectorGives (.vbcstElement vs g w) s vs w (s.tapped vs w.za).tag 0
      fun _ => ((s.tapped vs w.za).at (w.fn.extractLsb' 0 10).toNat, 0) := by
  refine movOp_gives (i := .vbcstElement vs g w) (t := (s.tapped vs w.za).tag) (op := 0x05) (cls := 0) (zs := [w.za])
    (f := fun v => tagBeat (v.z w.za).tag (List.replicate (tagCount (v.z w.za).tag) ((v.z w.za).elems.getD (w.fn.extractLsb' 0 10).toNat 0)))
    rfl h rfl hc (firstTrap_cons (needTag_ok _ _ _ hp) (firstTrap_cons (needRange_ok _ (decide_eq_true hi)) rfl)) (q := fun _ => (s.tapped vs w.za).at (w.fn.extractLsb' 0 10).toNat)
    (l := List.replicate (tagCount (s.tapped vs w.za).tag) ((s.tapped vs w.za).elems.getD (w.fn.extractLsb' 0 10).toNat 0)) rfl fun k hk => ?_
  rw [elems_getD _ _ hi, List.getD_replicate _ hk]

section Pairs

variable (hp : isPlainTag (s.tapped vs w.za).tag = true) (hb : (s.tapped vs w.zb).tag = (s.tapped vs w.za).tag)
include hp hb

theorem vshuf_drives (hc : (Instr.vshuf vs g w).check1 = none)
    (hrot : w.fn.extractLsb' 0 3 = 4 → (w.fn.extractLsb' 3 10).toNat < tagCount (s.tapped vs w.za).tag) :
    ∃ r : Beat, ({ r with side := 0 } : Beat).Holds (s.tapped vs w.za).tag
        (shuffled (w.fn.extractLsb' 0 3).toNat (w.fn.extractLsb' 3 10).toNat (tagCount (s.tapped vs w.za).tag) (s.tapped vs w.za).at (s.tapped vs w.zb).at) ∧
      ((s.tapped vs w.za).tag ≠ 0x01 → r.side = 0) ∧ VectorDrives (.vshuf vs g w) s vs w r 0 0 := by
  have hrot' : (w.fn.extractLsb' 0 3).toNat = 4 → (w.fn.extractLsb' 3 10).toNat < tagCount (s.tapped vs w.za).tag :=
    fun e => hrot (BitVec.eq_of_toNat_eq e)
  have hpat : (w.fn.extractLsb' 0 3).toNat ≤ 4 :=
    decide_eq_true_eq.mp (slotCode_none (firstErr_mem hc (code (decide ((w.fn.extractLsb' 0 3).toNat ≤ 4))) (by simp)))
  have hrange : ((w.fn.extractLsb' 0 3).toNat != 4 || decide ((w.fn.extractLsb' 3 10).toNat < tagCount (s.tapped vs w.za).tag)) = true := by
    rw [Bool.or_eq_true, bne_iff_ne, decide_eq_true_eq]
    exact or_iff_not_imp_left.mpr fun hn => hrot' (not_not.mp hn)
  refine ⟨{ tagBeat (s.tapped vs w.za).tag (shuffle (w.fn.extractLsb' 0 3).toNat (w.fn.extractLsb' 3 10).toNat (s.tapped vs w.za).elems (s.tapped vs w.zb).elems)
    with side := (s.view (semVshuf vs g w)).openSide (s.tapped vs w.za).tag }, ?_, fun hne => if_neg hne, ?_⟩
  · exact tagBeat_holds _ _ _ fun k hk => shuffle_elems hb hp _ hrot' hpat hk
  · exact movOp_drives (i := .vshuf vs g w) (vs := vs) (op := 0x06) (cls := 0) (g := g) (w := w) (zs := [w.za, w.zb]) rfl h rfl hc
      (firstTrap_cons (sameTags_two _ rfl rfl hp hb) (firstTrap_cons (needRange_ok _ hrange) rfl)) rfl

theorem vsel_gives (hc : (Instr.vsel vs g w).check1 = none) (hi : isI (s.tapped vs w.zc).tag = true) (h2 : (s.tapped vs w.zc).tag ≠ 2)
    (h4 : (s.tapped vs w.zc).tag ≠ 4) (h6 : (s.tapped vs w.zc).tag ≠ 6) (hw : tagWidth (s.tapped vs w.zc).tag = tagWidth (s.tapped vs w.za).tag) :
    VectorGives (.vsel vs g w) s vs w (s.tapped vs w.za).tag 0
      fun k => (if (s.tapped vs w.zc).at k ≠ 0 then (s.tapped vs w.za).at k else (s.tapped vs w.zb).at k, 0) := by
  have hcount : tagCount (s.tapped vs w.zc).tag = tagCount (s.tapped vs w.za).tag := count_of_width hp hi hw
  refine movOp_gives (i := .vsel vs g w) (t := (s.tapped vs w.za).tag) (vs := vs) (op := 0x07) (cls := 0) (g := g) (w := w) (zs := [w.za, w.zb, w.zc]) rfl h rfl hc
    (firstTrap_cons (sameTags_two _ rfl rfl hp hb)
      (firstTrap_cons (needTag_ok _ _ _ (beq_iff_eq.mpr ((uintTag_of hi h2 h4 h6).symm.trans (congrArg uintTag hw)))) rfl)) rfl
    (q := fun k => if (s.tapped vs w.zc).at k ≠ 0 then (s.tapped vs w.za).at k else (s.tapped vs w.zb).at k) fun k hk => ?_
  show (List.map _ ((List.zip (s.tapped vs w.za).elems (s.tapped vs w.zb).elems).zip (s.tapped vs w.zc).elems)).getD k 0 = _
  rw [zip_elems (by rw [hb]), Beat.elems_eq (s.tapped vs w.zc), hcount, List.zip_map', List.map_map, getD_rangeMap _ _ _ _ hk]
  rfl

end Pairs

end Moves

/-- Settles O31. -/
theorem vectorMoves : Obligations.VectorMoves := by
  unfold Obligations.VectorMoves
  intro s vs g w h a b c n
  refine ⟨vmov_drives h, vtag_drives h, fun e hc he hbits ha hb => ?_, vbcstScalar_gives h, fun hp => ⟨fun hc => vbcstElement_gives h hc hp,
    fun hb hc => vshuf_drives h hp hb hc, fun hb hi h2 h4 h6 hw hc => vsel_gives h hp hb hc hi h2 h4 h6 hw⟩⟩
  subst he
  exact ⟨permuted (s.now.tagBits a.tag) a b, rfl, rfl, fun k hk => permuted_field hbits a b hb hk, vperm_drives h hc hbits ha hb⟩

end Sys2Proof.Machine

/-! ## Vector integers (05 R171 to R173) -/

namespace Sys2Proof.Machine

/-- An element of an integer tag lies in the range of its tag, so nothing of it is clamped. -/
theorem clamped_int (b : Beat) (k : Nat) (sat : Bool) : clamped b.tag sat (b.int k) = ((b.int k % 2 ^ tagWidth b.tag).toNat, 0) := by
  have hid : ∀ lo hi y : Int, lo ≤ y → y ≤ hi → (if sat = true then max lo (min hi y) else y) = y := fun lo hi y h1 h2 => by
    split <;> omega
  generalize hx : b.data.extractLsb' (tagWidth b.tag * k) (tagWidth b.tag) = x
  have hlo := BitVec.le_toInt x
  have hhi := BitVec.toInt_lt (x := x)
  have hnat : (x.toNat : Int) < 2 ^ tagWidth b.tag := by exact_mod_cast x.isLt
  simp only [clamped, Beat.int, hx]
  by_cases hsigned : b.tag = 2 ∨ b.tag = 4 ∨ b.tag = 6
  · simp only [hsigned, if_true]
    rw [hid _ _ _ hlo (by omega), if_pos rfl]
  · simp only [hsigned, if_false]
    rw [hid _ _ _ (by omega) (by omega), if_pos rfl]

/-- The lesser of two elements of one tag is one of them. -/
theorem clamped_min {a b : Beat} (h : b.tag = a.tag) (k : Nat) (sat : Bool) :
    clamped a.tag sat (if a.int k ≤ b.int k then a.int k else b.int k) = ((min (a.int k) (b.int k) % 2 ^ tagWidth a.tag).toNat, 0) := by
  split
  · next hle => rw [clamped_int, min_eq_left hle]
  · next hle => rw [min_eq_right (by omega), ← h, clamped_int]

/-- The greater of two elements of one tag is one of them. -/
theorem clamped_max {a b : Beat} (h : b.tag = a.tag) (k : Nat) (sat : Bool) :
    clamped a.tag sat (if a.int k ≤ b.int k then b.int k else a.int k) = ((max (a.int k) (b.int k) % 2 ^ tagWidth a.tag).toNat, 0) := by
  split
  · next hle => rw [max_eq_right hle, ← h, clamped_int]
  · next hle => rw [clamped_int, max_eq_left (by omega)]

/-- A shift to the left, modulo the width. -/
theorem shiftLeft_element (x n w : Nat) : (x <<< n) % 2 ^ w = ((x : Int) * 2 ^ n % 2 ^ w).toNat := by
  rw [Nat.shiftLeft_eq, ← emod_bits]
  push_cast
  rfl

/-- A shift to the right of an element stays within the width. -/
theorem shiftRight_element {x w : Nat} (h : x < 2 ^ w) (n : Nat) : x >>> n = ((x : Int) / 2 ^ n % 2 ^ w).toNat := by
  rw [Nat.shiftRight_eq_div_pow, ← Nat.mod_eq_of_lt (Nat.lt_of_le_of_lt (Nat.div_le_self x (2 ^ n)) h), ← emod_bits]
  push_cast
  rfl

theorem Beat.at_lt (b : Beat) (k : Nat) : b.at k < 2 ^ tagWidth b.tag := BitVec.isLt _

/-- The relation of VICMP between two integers. -/
def intRel (rel : Nat) (x y : Int) : Bool :=
  match rel with
  | 0 => decide (x = y)
  | 1 => decide (x ≠ y)
  | 2 => decide (x < y)
  | 3 => decide (x ≤ y)
  | 4 => decide (x > y)
  | _ => decide (x ≥ y)

theorem relOf_intRel (rel : Nat) (x y : Int) : relOf rel (compare x y) = intRel rel x y := by
  obtain ⟨h0, h1, h2, h3, h4, h5⟩ := relOf_int x y
  match rel with
  | 0 => exact h0
  | 1 => exact h1
  | 2 => exact h2
  | 3 => exact h3
  | 4 => exact h4
  | _ + 5 => exact h5

theorem maskElem_tag (t : Tag) (b : Bool) : maskElem (tagWidth t) b = allOnes t b := rfl

/-- The tag of a comparison's mask: the unsigned one of the width. -/
theorem uintTag_isI {t : Tag} (h : isI t = true) : uintTag (tagWidth t) = if tagWidth t = 8 then 3 else if tagWidth t = 16 then 5 else 7 := by
  revert h; revert t; decide

section Integer

variable {s : State} {vs : VSlot} {g : Guard} {w : VR}

section ClassOne

variable (h : s.Issues vs.slot g (some (vRow vs, 1, w.lat.toNat)))
include h

/-- VIADD, VISUB, VIMIN, VIMAX and VICMP of two beats of one integer tag. -/
theorem integers_give (hb : (s.tapped vs w.zb).tag = (s.tapped vs w.za).tag) (ha : isI (s.tapped vs w.za).tag = true) :
    ((Instr.viadd vs g w).check1 = none → VectorGives (.viadd vs g w) s vs w (s.tapped vs w.za).tag 0 fun k =>
      clamped (s.tapped vs w.za).tag (w.sat == 1) ((s.tapped vs w.za).int k + (s.tapped vs w.zb).int k)) ∧
    ((Instr.visub vs g w).check1 = none → VectorGives (.visub vs g w) s vs w (s.tapped vs w.za).tag 0 fun k =>
      clamped (s.tapped vs w.za).tag (w.sat == 1) ((s.tapped vs w.za).int k - (s.tapped vs w.zb).int k)) ∧
    ((Instr.vimin vs g w).check1 = none → VectorGives (.vimin vs g w) s vs w (s.tapped vs w.za).tag 0 fun k =>
      ((min ((s.tapped vs w.za).int k) ((s.tapped vs w.zb).int k) % 2 ^ tagWidth (s.tapped vs w.za).tag).toNat, 0)) ∧
    ((Instr.vimax vs g w).check1 = none → VectorGives (.vimax vs g w) s vs w (s.tapped vs w.za).tag 0 fun k =>
      ((max ((s.tapped vs w.za).int k) ((s.tapped vs w.zb).int k) % 2 ^ tagWidth (s.tapped vs w.za).tag).toNat, 0)) ∧
    ((Instr.vicmp vs g w).check1 = none → VectorGives (.vicmp vs g w) s vs w
      (if tagWidth (s.tapped vs w.za).tag = 8 then 3 else if tagWidth (s.tapped vs w.za).tag = 16 then 5 else 7) 0 fun k =>
        (allOnes (s.tapped vs w.za).tag (intRel (w.fn.extractLsb' 0 3).toNat ((s.tapped vs w.za).int k) ((s.tapped vs w.zb).int k)), 0)) := by
  have hs : ∀ v : View, (∀ n, v.z n = s.tapped vs n) → sameTags v isI false [w.za, w.zb] = none := fun v hv => sameTags_two v (hv _) (hv _) ha hb
  refine ⟨fun hc => ?_, fun hc => ?_, fun hc => ?_, fun hc => ?_, fun hc => ?_⟩
  · exact intArith_gives (i := .viadd vs g w) (zs := [w.za, w.zb]) (f := fun x => intAt x 0 + intAt x 1) rfl h rfl hc ha hs (two_same hb)
  · exact intArith_gives (i := .visub vs g w) (zs := [w.za, w.zb]) (f := fun x => intAt x 0 - intAt x 1) rfl h rfl hc ha hs (two_same hb)
  · exact (intArith_gives (i := .vimin vs g w) (zs := [w.za, w.zb]) (f := fun x => if intAt x 0 ≤ intAt x 1 then intAt x 0 else intAt x 1) rfl h rfl hc ha hs (two_same hb)).congr fun k _ => clamped_min hb k _
  · exact (intArith_gives (i := .vimax vs g w) (zs := [w.za, w.zb]) (f := fun x => if intAt x 0 ≤ intAt x 1 then intAt x 1 else intAt x 0) rfl h rfl hc ha hs (two_same hb)).congr fun k _ => clamped_max hb k _
  · rw [← uintTag_isI ha]
    exact (vicmp_gives h hc ha hb).congr fun k _ => by rw [relOf_intRel, maskElem_tag]

/-- VSHL, VSHR and VSAR of a beat of an integer tag. -/
theorem shifts_give (ha : isI (s.tapped vs w.za).tag = true) :
    ((Instr.vshl vs g w).check1 = none → VectorGives (.vshl vs g w) s vs w (s.tapped vs w.za).tag 0 fun k =>
      ((((s.tapped vs w.za).at k : Int) * 2 ^ (w.fn.extractLsb' 0 5).toNat % 2 ^ tagWidth (s.tapped vs w.za).tag).toNat, 0)) ∧
    ((Instr.vshr vs g w).check1 = none → VectorGives (.vshr vs g w) s vs w (s.tapped vs w.za).tag 0 fun k =>
      ((((s.tapped vs w.za).at k : Int) / 2 ^ (w.fn.extractLsb' 0 5).toNat % 2 ^ tagWidth (s.tapped vs w.za).tag).toNat, 0)) ∧
    ((Instr.vsar vs g w).check1 = none → VectorGives (.vsar vs g w) s vs w (s.tapped vs w.za).tag 0 fun k =>
      (((((s.tapped vs w.za).data.extractLsb' (tagWidth (s.tapped vs w.za).tag * k) (tagWidth (s.tapped vs w.za).tag)).toInt /
        2 ^ (w.fn.extractLsb' 0 5).toNat) % 2 ^ tagWidth (s.tapped vs w.za).tag).toNat, 0)) := by
  refine ⟨fun hc => ?_, fun hc => ?_, fun hc => ?_⟩
  · exact (shiftOp_gives (i := .vshl vs g w) (f := fun k n x => (x <<< n) % 2 ^ k) rfl h rfl hc ha).congr fun k _ => Prod.ext (shiftLeft_element ..) rfl
  · exact (shiftOp_gives (i := .vshr vs g w) (f := fun _ n x => x >>> n) rfl h rfl hc ha).congr fun k _ => Prod.ext (shiftRight_element (Beat.at_lt ..) _) rfl
  · exact (shiftOp_gives (i := .vsar vs g w) (f := fun k n x => wrapTo k (signedBits k x / 2 ^ n)) rfl h rfl hc ha).congr fun k _ => by rw [signedBits_at]; rfl

end ClassOne

/-- VIMUL and VIMAD of beats of one integer tag. -/
theorem products_give (h : s.Issues vs.slot g (some (vRow vs, 2, w.lat.toNat))) (hb : (s.tapped vs w.zb).tag = (s.tapped vs w.za).tag)
    (ha : isI (s.tapped vs w.za).tag = true) :
    ((Instr.vimul vs g w).check1 = none → VectorGives (.vimul vs g w) s vs w (s.tapped vs w.za).tag 0 fun k =>
      clamped (s.tapped vs w.za).tag (w.sat == 1) ((s.tapped vs w.za).int k * (s.tapped vs w.zb).int k)) ∧
    ((s.tapped vs w.zc).tag = (s.tapped vs w.za).tag → (Instr.vimad vs g w).check1 = none →
      VectorGives (.vimad vs g w) s vs w (s.tapped vs w.za).tag 0 fun k =>
        clamped (s.tapped vs w.za).tag (w.sat == 1) ((s.tapped vs w.za).int k * (s.tapped vs w.zb).int k + (s.tapped vs w.zc).int k)) := by
  refine ⟨fun hc => ?_, fun hz hc => ?_⟩
  · exact intArith_gives (i := .vimul vs g w) (zs := [w.za, w.zb]) (f := fun x => intAt x 0 * intAt x 1) rfl h rfl hc ha (fun v hv => sameTags_two v (hv _) (hv _) ha hb) (two_same hb)
  · refine intArith_gives (i := .vimad vs g w) (zs := [w.za, w.zb, w.zc]) (f := fun x => intAt x 0 * intAt x 1 + intAt x 2) rfl h rfl hc ha (fun v hv => sameTags_three v (hv _) (hv _) (hv _) ha hb hz) fun n hn => ?_
    simp only [List.mem_cons, List.not_mem_nil, or_false] at hn
    obtain rfl | rfl | rfl := hn
    · rfl
    · exact hb
    · exact hz

end Integer

/-- Settles O33: each operation is the law of its form on the elements it taps; minima, maxima and shifts stay within their width. -/
theorem vectorInteger : Obligations.VectorInteger := by
  unfold Obligations.VectorInteger
  intro s vs g w
  refine ⟨fun h => ⟨integers_give h, fun hb ha => ⟨fun hc => ?_, fun hc => ?_, fun hc => ?_⟩, shifts_give h⟩, products_give⟩
  · exact bitwise_drives (i := .vand vs g w) (f := fun x y => x &&& y) rfl h rfl hc ha hb
  · exact bitwise_drives (i := .vor vs g w) (f := fun x y => x ||| y) rfl h rfl hc ha hb
  · exact bitwise_drives (i := .vxor vs g w) (f := fun x y => x ^^^ y) rfl h rfl hc ha hb

end Sys2Proof.Machine

/-! ## Vector floating point (05 R168 to R170) -/

namespace Sys2Proof.Machine

theorem width_isF {t : Tag} (h : isF t = true) : tagWidth (normTag t) = tagWidth t ∧ tagWidth t = tagWidth t - 1 + 1 ∧
    uintTag (tagWidth (normTag t)) = if tagWidth (normTag t) = 32 then 0x07 else 0x05 := by
  revert h; revert t; decide

/-- VABS: the sign bit is cleared. -/
theorem abs_element (half x : Nat) : (if false = true then half else 0) + x % half = x % half := by
  rw [if_neg Bool.false_ne_true, Nat.zero_add]

/-- VNEG: the sign bit is changed. -/
theorem neg_element {half x : Nat} (hx : x < 2 * half) :
    (if (!decide (half ≤ x)) = true then half else 0) + x % half = if x < half then x + half else x - half := by
  by_cases h : half ≤ x
  · rw [Nat.mod_eq_sub_mod h, Nat.mod_eq_of_lt (by omega), if_neg (by simp [h]), if_neg (by omega), Nat.zero_add]
  · rw [Nat.mod_eq_of_lt (by omega), if_pos (by simp [h]), if_pos (by omega), Nat.add_comm]

/-- The relation of VCMP between two values: code 1 holds of unordered values, code 6 of them alone. -/
def valueRel (rel : Nat) (x y : Fv) : Bool :=
  let un := x.isNan || y.isNan
  let o := x.cmp y
  match rel with
  | 0 => decide (un = false ∧ o = .eq)
  | 1 => decide (un = true ∨ o ≠ .eq)
  | 2 => decide (un = false ∧ o = .lt)
  | 3 => decide (un = false ∧ o ≠ .gt)
  | 4 => decide (un = false ∧ o = .gt)
  | 5 => decide (un = false ∧ o ≠ .lt)
  | _ => un

theorem cmpElem_rel {rel : Nat} (h : rel ≤ 6) (x y : Fv) :
    (if rel = 6 then x.isNan || y.isNan else if x.isNan || y.isNan then rel == 1 else relOf rel (x.cmp y)) = valueRel rel x y := by
  unfold valueRel
  generalize (x.isNan || y.isNan) = un
  generalize x.cmp y = o
  interval_cases rel <;> cases un <;> cases o <;> rfl

/-- One element of VCMP. -/
theorem cmpElem_eq {rel : Nat} (h : rel ≤ 6) (t : Tag) (x y : Fv) :
    cmpElem rel (tagWidth t) x y = (allOnes t (valueRel rel x y),
      if x.isSnan ∨ y.isSnan ∨ (x.isNan || y.isNan) = true ∧ 2 ≤ rel ∧ rel ≤ 5 then 1 else 0) := by
  refine Prod.ext (congrArg (maskElem (tagWidth t)) (cmpElem_rel h x y)) ?_
  simp only [cmpElem, Flags.when, Flags.invalid, Bool.or_eq_true, Bool.and_eq_true, decide_eq_true_eq, or_assoc, and_assoc]

section Float

variable {s : State} {vs : VSlot} {g : Guard} {w : VR} (ha : isF (s.tapped vs w.za).tag = true)
include ha

/-- The value of an element of a tapped beat in the format that the sources of an operation share. -/
def State.sharedValue (s : State) (vs : VSlot) (w : VR) (n : BitVec 6) (k : Nat) : Fv :=
  (fmtOf (normTag (s.tapped vs w.za).tag)).value ((s.tapped vs n).at k)

/-- The operations of R168: an exact value for each element, rounded once to the result format. -/
theorem arith_give (h : s.Issues vs.slot g (some (vRow vs, 3, w.lat.toNat))) (hb : isF (s.tapped vs w.zb).tag = true)
    (hbt : normTag (s.tapped vs w.zb).tag = normTag (s.tapped vs w.za).tag) {r : Tag} {first : Nat}
    (hr : ArithCase w (normTag (s.tapped vs w.za).tag) r first) :
    let gives := fun (i : Instr) (x : Nat → Fv × Flags) =>
      i.check1 = none → VectorGives i s vs w r (tagCount r) fun k =>
        let e := x (first + k)
        let y := round (fmtOf r) (s.vecMode w) (w.sat == 1) (s.drawAt (s.vecMode w) k) e.1
        (y.1, e.2 ||| y.2)
    let a := s.sharedValue vs w w.za
    let b := s.sharedValue vs w w.zb
    let c := s.sharedValue vs w w.zc
    let m := s.vecMode w
    gives (.vadd vs g w) (fun k => (a k).add m (b k)) ∧ gives (.vsub vs g w) (fun k => (a k).add m (b k).negate) ∧
    gives (.vmul vs g w) (fun k => (a k).mul (b k)) ∧
    (isF (s.tapped vs w.zc).tag = true → normTag (s.tapped vs w.zc).tag = normTag (s.tapped vs w.za).tag →
      gives (.vfma vs g w) (fun k => Fv.fma m (a k) (b k) (c k)) ∧ gives (.vfms vs g w) (fun k => Fv.fma m (a k) (b k) (c k).negate)) := by
  have hcount : ∀ n, normTag (s.tapped vs n).tag = normTag (s.tapped vs w.za).tag →
      tagCount (s.tapped vs n).tag = tagCount (s.tapped vs w.za).tag := fun n hn => by rw [← count_norm, hn, count_norm]
  have htwo : ∀ n ∈ [w.za, w.zb], tagCount (s.tapped vs n).tag = tagCount (s.tapped vs w.za).tag := by
    simp only [List.forall_mem_cons, List.not_mem_nil, false_imp_iff, implies_true, and_true]
    exact ⟨trivial, hcount _ hbt⟩
  intro gives a b c m
  refine ⟨fun hc => ?_, fun hc => ?_, fun hc => ?_, fun hcf hct => ?_⟩
  · exact fpArith_gives (i := .vadd vs g w) (zs := [w.za, w.zb]) (f := fun m x => (fvAt x 0).add m (fvAt x 1)) rfl h rfl hc hr
      (sameNorm_two _ rfl rfl ha hb hbt) htwo
  · exact fpArith_gives (i := .vsub vs g w) (zs := [w.za, w.zb]) (f := fun m x => (fvAt x 0).add m (fvAt x 1).negate) rfl h rfl hc hr
      (sameNorm_two _ rfl rfl ha hb hbt) htwo
  · exact fpArith_gives (i := .vmul vs g w) (zs := [w.za, w.zb]) (f := fun _ x => (fvAt x 0).mul (fvAt x 1)) rfl h rfl hc hr
      (sameNorm_two _ rfl rfl ha hb hbt) htwo
  · have hthree : ∀ n ∈ [w.za, w.zb, w.zc], tagCount (s.tapped vs n).tag = tagCount (s.tapped vs w.za).tag := by
      simp only [List.forall_mem_cons, List.not_mem_nil, false_imp_iff, implies_true, and_true]
      exact ⟨trivial, hcount _ hbt, hcount _ hct⟩
    refine ⟨fun hc => ?_, fun hc => ?_⟩
    · exact fpArith_gives (i := .vfma vs g w) (zs := [w.za, w.zb, w.zc]) (f := fun m x => Fv.fma m (fvAt x 0) (fvAt x 1) (fvAt x 2))
        rfl h rfl hc hr (sameNorm_three _ rfl rfl rfl ha hb hbt hcf hct) hthree
    · exact fpArith_gives (i := .vfms vs g w) (zs := [w.za, w.zb, w.zc]) (f := fun m x => Fv.fma m (fvAt x 0) (fvAt x 1) (fvAt x 2).negate)
        rfl h rfl hc hr (sameNorm_three _ rfl rfl rfl ha hb hbt hcf hct) hthree

/-- VABS and VNEG: the sign bit of every element that is no NaN. -/
theorem signs_give (h : s.Issues vs.slot g (some (vRow vs, 0, w.lat.toNat))) :
    let f := fmtOf (normTag (s.tapped vs w.za).tag)
    let half := 2 ^ (tagWidth (normTag (s.tapped vs w.za).tag) - 1)
    let val := s.sharedValue vs w w.za
    let sign := fun (i : Instr) (y : Nat → Nat) =>
      i.check1 = none → VectorGives i s vs w (normTag (s.tapped vs w.za).tag) 0 fun k =>
        if (val k).isNan then (f.defaultNan, if (val k).isSnan then 1 else 0) else (y ((s.tapped vs w.za).at k), 0)
    sign (.vabs vs g w) (fun x => x % half) ∧ sign (.vneg vs g w) (fun x => if x < half then x + half else x - half) := by
  obtain ⟨hnorm, hwidth, -⟩ := width_isF ha
  intro f half val sign
  refine ⟨fun hc => ?_, fun hc => ?_⟩
  · refine (fpSign_gives (i := .vabs vs g w) (f := fun _ => false) rfl h rfl hc ha).congr fun k _ => ?_
    rw [abs_element]
    rfl
  · refine (fpSign_gives (i := .vneg vs g w) (f := fun n => !n) rfl h rfl hc ha).congr fun k _ => ?_
    rw [neg_element]
    · rfl
    · have := (s.tapped vs w.za).at_lt k
      rwa [hwidth, Nat.pow_succ, Nat.mul_comm, ← hnorm] at this

/-- VCMP: a mask for each element. -/
theorem compare_gives (h : s.Issues vs.slot g (some (vRow vs, 1, w.lat.toNat))) (hb : isF (s.tapped vs w.zb).tag = true)
    (hbt : normTag (s.tapped vs w.zb).tag = normTag (s.tapped vs w.za).tag) (hc : (Instr.vcmp vs g w).check1 = none) :
    let t := normTag (s.tapped vs w.za).tag
    let rel := (w.fn.extractLsb' 0 3).toNat
    let x := s.sharedValue vs w w.za
    let y := s.sharedValue vs w w.zb
    VectorGives (.vcmp vs g w) s vs w (if tagWidth t = 32 then 0x07 else 0x05) 0 fun k =>
      (allOnes t (valueRel rel (x k) (y k)),
        if (x k).isSnan ∨ (y k).isSnan ∨ ((x k).isNan || (y k).isNan) = true ∧ 2 ≤ rel ∧ rel ≤ 5 then 1 else 0) := by
  intro t rel x y
  have hrel : rel ≤ 6 := by
    have hne : w.fn.extractLsb' 0 3 ≠ 7 := bne_iff_ne.mp (slotCode_none (firstErr_mem hc _ (by simp)))
    have hlt := (w.fn.extractLsb' 0 3).isLt
    have hne' : (w.fn.extractLsb' 0 3).toNat ≠ 7 := fun e => hne (BitVec.eq_of_toNat_eq e)
    show (w.fn.extractLsb' 0 3).toNat ≤ 6
    omega
  rw [← (width_isF ha).2.2]
  exact (vcmp_gives h hc ha hb hbt).congr fun k _ => cmpElem_eq hrel _ _ _

end Float

/-- Settles O32: each operation is the law of its form on the values of the elements it taps. -/
theorem vectorFloat : Obligations.VectorFloat := by
  unfold Obligations.VectorFloat
  intro s vs g w a b c t f m val ha
  refine ⟨fun h hb hbt => ⟨fun r first hr => arith_give ha h hb hbt hr, fun hc => ?_, fun hc => ?_⟩, signs_give ha, compare_gives ha⟩
  · exact fpPickV_gives (i := .vmin vs g w) (mx := false) rfl h rfl hc ha hb hbt
  · exact fpPickV_gives (i := .vmax vs g w) (mx := true) rfl h rfl hc ha hb hbt

end Sys2Proof.Machine

/-! ## Reductions and the transcendental operations (05 R177, R178) -/

namespace Sys2Proof.Machine

theorem isI_of {t : Tag} (h : isI t = true) : isF t = false ∧ normTag t = t ∧ isI (normTag t) = true := by revert h; revert t; decide

theorem isF_of {t : Tag} (h : isF t = true) : isZ t = false ∧ isI t = false ∧ t ≠ 0x18 ∧ isF (normTag t) = true := by revert h; revert t; decide

/-- The value of an element of a floating-point tag. -/
theorem valueAt_isF {b : Beat} (h : isF b.tag = true) (j : Nat) : b.valueAt j = (fmtOf b.tag).value (b.at j) := by
  obtain ⟨hz, hi, he, -⟩ := isF_of h
  simp only [Beat.valueAt, hz, hi, he, Bool.false_eq_true, if_false]

/-- The result tag of VRSUM where TAG is 0 or the source's. -/
theorem sumTag_same {w : VR} {a : Tag} (h : w.tag = 0 ∨ w.tag = normTag a) : sumTag w a = (normTag a, true) := if_pos h

/-- The result tag of VRSUM where TAG names a wider one. -/
theorem sumTag_wide {w : VR} {a : Tag}
    (h : w.tag = 8 ∧ (normTag a = 9 ∨ normTag a = 10) ∨ w.tag = 6 ∧ (a = 2 ∨ a = 4 ∨ a = 6) ∨ w.tag = 7 ∧ (a = 3 ∨ a = 5 ∨ a = 7)) :
    sumTag w a = (w.tag, true) := by
  by_cases hsame : w.tag = 0 ∨ w.tag = normTag a
  · rw [sumTag_same hsame]
    obtain h0 | hs := hsame
    · rw [h0] at h
      revert h; simp
    · rw [hs]
  · refine (if_neg hsame).trans (Prod.ext rfl ?_)
    obtain ⟨ht, ha⟩ | ⟨ht, ha⟩ | ⟨ht, ha⟩ := h
    · rw [ht]
      obtain ha | ha := ha <;> rw [ha] <;> rfl
    · rw [ht]
      obtain rfl | rfl | rfl := ha <;> rfl
    · rw [ht]
      obtain rfl | rfl | rfl := ha <;> rfl

section Reduce

variable {s : State} {vs : VSlot} {g : Guard} {w : VR}

/-- The elements of a group. -/
def State.groupElems (s : State) (vs : VSlot) (w : VR) (k : Nat) : List Nat :=
  (List.range (2 ^ vrGrp w)).map fun j => (s.tapped vs w.za).at (2 ^ vrGrp w * k + j)

/-- The element of c that takes part in the reduction of a group. -/
def State.groupAcc (s : State) (vs : VSlot) (w : VR) (k : Nat) : List Nat := if w.fn.getLsbD 4 then [(s.tapped vs w.zc).at k] else []

/-- The group's sum of integers. -/
theorem sumReducer_int {r : Tag} (ha : isI (s.tapped vs w.za).tag = true) (hr : isI r = true)
    (hacc : w.fn.getLsbD 4 = false ∨ (s.tapped vs w.zc).tag = r) (m : RMode) (d k : Nat) :
    sumReducer w (s.tapped vs w.za).tag r m d (s.groupElems vs w k) (s.groupAcc vs w k) =
      clamped r (w.sat == 1) (((List.range (2 ^ vrGrp w)).map fun j => (s.tapped vs w.za).int (2 ^ vrGrp w * k + j)).sum +
        if w.fn.getLsbD 4 then (s.tapped vs w.zc).int k else 0) := by
  have hgroup : (s.groupElems vs w k).map (intOf (s.tapped vs w.za).tag) =
      (List.range (2 ^ vrGrp w)).map fun j => (s.tapped vs w.za).int (2 ^ vrGrp w * k + j) := by
    rw [State.groupElems, List.map_map]
    exact List.map_congr_left fun j _ => intOf_at _ _ ha
  have hc : ((s.groupAcc vs w k).map (intOf r)).foldl (· + ·) 0 = if w.fn.getLsbD 4 then (s.tapped vs w.zc).int k else 0 := by
    unfold State.groupAcc
    split
    · next hon =>
      have htag := hacc.resolve_left (by rw [hon]; decide)
      have hone : intOf r ((s.tapped vs w.zc).at k) = (s.tapped vs w.zc).int k := by
        rw [← htag]
        exact intOf_at _ _ (by rw [htag]; exact hr)
      simp only [List.map_cons, List.map_nil, List.foldl_cons, List.foldl_nil, hone, Int.zero_add]
    · rfl
  rw [sumReducer, if_pos ha, intResult_eq _ _ _ hr, hgroup, hc, foldl_sum, Int.zero_add]

/-- The group's sum of floating-point values, rounded once. -/
theorem sumReducer_fp {r : Tag} (ha : isF (s.tapped vs w.za).tag = true) (hr : isF r = true)
    (hacc : w.fn.getLsbD 4 = false ∨ (s.tapped vs w.zc).tag = r) (m : RMode) (d k : Nat) :
    let x := groupSum m (((List.range (2 ^ vrGrp w)).map fun j => (s.tapped vs w.za).valueAt (2 ^ vrGrp w * k + j)) ++
      if w.fn.getLsbD 4 then [(s.tapped vs w.zc).valueAt k] else [])
    let y := round (fmtOf r) m (w.sat == 1) d x.1
    sumReducer w (s.tapped vs w.za).tag r m d (s.groupElems vs w k) (s.groupAcc vs w k) = (y.1, x.2 ||| y.2) := by
  have hgroup : (s.groupElems vs w k).map (fmtOf (s.tapped vs w.za).tag).value =
      (List.range (2 ^ vrGrp w)).map fun j => (s.tapped vs w.za).valueAt (2 ^ vrGrp w * k + j) := by
    rw [State.groupElems, List.map_map]
    exact List.map_congr_left fun j _ => (valueAt_isF ha _).symm
  have hc : (s.groupAcc vs w k).map (fmtOf r).value = if w.fn.getLsbD 4 then [(s.tapped vs w.zc).valueAt k] else [] := by
    unfold State.groupAcc
    split
    · next hon =>
      have htag := hacc.resolve_left (by rw [hon]; decide)
      rw [valueAt_isF (by rw [htag]; exact hr), htag, List.map_cons, List.map_nil]
    · rfl
  intro x y
  rw [sumReducer, if_neg (by rw [(isF_of ha).2.1]; decide), hgroup, hc]

/-- The group's maximum or minimum of integers. -/
theorem pickReducer_int (ha : isI (s.tapped vs w.za).tag = true)
    (hacc : w.fn.getLsbD 4 = false ∨ (s.tapped vs w.zc).tag = (s.tapped vs w.za).tag) (max : Bool) (t : Tag) (m : RMode) (d k : Nat) :
    pickReducer max (s.tapped vs w.za).tag t m d (s.groupElems vs w k) (s.groupAcc vs w k) =
      ((intPick max (((List.range (2 ^ vrGrp w)).map fun j => (s.tapped vs w.za).int (2 ^ vrGrp w * k + j)) ++
        if w.fn.getLsbD 4 then [(s.tapped vs w.zc).int k] else []) % 2 ^ tagWidth t).toNat, 0) := by
  have hgroup : (s.groupElems vs w k).map (intOf (s.tapped vs w.za).tag) =
      (List.range (2 ^ vrGrp w)).map fun j => (s.tapped vs w.za).int (2 ^ vrGrp w * k + j) := by
    rw [State.groupElems, List.map_map]
    exact List.map_congr_left fun j _ => intOf_at _ _ ha
  have hc : (s.groupAcc vs w k).map (intOf (s.tapped vs w.za).tag) = if w.fn.getLsbD 4 then [(s.tapped vs w.zc).int k] else [] := by
    unfold State.groupAcc
    split
    · next hon =>
      have htag := hacc.resolve_left (by rw [hon]; decide)
      rw [← htag, List.map_cons, List.map_nil, intOf_at _ _ (by rw [htag]; exact ha)]
    · rfl
  rw [pickReducer, if_pos ha, List.map_append, hgroup, hc]
  rfl

end Reduce

section Reductions

variable {s : State} {vs : VSlot} {g : Guard} {w : VR} (h : s.Issues vs.slot g (some (vRow vs, 5, w.lat.toNat)))
  (h2 : 2 ≤ 2 ^ (w.fn.extractLsb' 0 4).toNat) (hle : 2 ^ (w.fn.extractLsb' 0 4).toNat ≤ tagCount (s.tapped vs w.za).tag)
include h h2 hle

/-- VRSUM of a beat of an integer tag. -/
theorem vrsum_int {r : Tag} (hc : (Instr.vrsum vs g w).check1 = none) (ha : isI (s.tapped vs w.za).tag = true) (hr : isI r = true)
    (htag : sumTag w (s.tapped vs w.za).tag = (r, true)) (hacc : w.fn.getLsbD 4 = false ∨ (s.tapped vs w.zc).tag = r)
    (hg : tagCount (s.tapped vs w.za).tag / 2 ^ (w.fn.extractLsb' 0 4).toNat ≤ tagCount r) :
    VectorGives (.vrsum vs g w) s vs w r 0 fun k =>
      if k < tagCount (s.tapped vs w.za).tag / 2 ^ vrGrp w then
        clamped r (w.sat == 1) (((List.range (2 ^ vrGrp w)).map fun j => (s.tapped vs w.za).int (2 ^ vrGrp w * k + j)).sum +
          if w.fn.getLsbD 4 then (s.tapped vs w.zc).int k else 0)
      else (0, 0) := by
  have hdraw : ∀ d d' l c, sumReducer w (s.tapped vs w.za).tag r (s.vecMode w) d l c = sumReducer w (s.tapped vs w.za).tag r (s.vecMode w) d' l c :=
    fun d d' l c => by rw [sumReducer, sumReducer, if_pos ha, if_pos ha]
  refine (reduce_gives (i := .vrsum vs g w) (tag := sumTag w) (draw := true) (f := sumReducer w) rfl h rfl hc htag (.inr ha) h2 hle hacc hg
    (if_neg fun hf => by rw [(isI_of ha).1] at hf; exact Bool.false_ne_true hf.2) (.inr hdraw)).congr fun k _ => ?_
  exact if_congr Iff.rfl (sumReducer_int ha hr hacc ..) rfl

/-- VRSUM of a beat of a floating-point tag. -/
theorem vrsum_fp {r : Tag} (hc : (Instr.vrsum vs g w).check1 = none) (ha : isF (s.tapped vs w.za).tag = true) (hr : isF r = true)
    (htag : sumTag w (s.tapped vs w.za).tag = (r, true)) (hacc : w.fn.getLsbD 4 = false ∨ (s.tapped vs w.zc).tag = r)
    (hg : tagCount (s.tapped vs w.za).tag / 2 ^ (w.fn.extractLsb' 0 4).toNat ≤ tagCount r) :
    VectorGives (.vrsum vs g w) s vs w r (tagCount (s.tapped vs w.za).tag / 2 ^ vrGrp w) fun k =>
      if k < tagCount (s.tapped vs w.za).tag / 2 ^ vrGrp w then
        let x := groupSum (s.vecMode w) (((List.range (2 ^ vrGrp w)).map fun j => (s.tapped vs w.za).valueAt (2 ^ vrGrp w * k + j)) ++
          if w.fn.getLsbD 4 then [(s.tapped vs w.zc).valueAt k] else [])
        let y := round (fmtOf r) (s.vecMode w) (w.sat == 1) (s.drawAt (s.vecMode w) k) x.1
        (y.1, x.2 ||| y.2)
      else (0, 0) := by
  have hone : tagCount (s.tapped vs w.za).tag / 2 ^ (w.fn.extractLsb' 0 4).toNat ≠ 0 := (Nat.div_pos hle (by omega)).ne'
  refine (reduce_gives (i := .vrsum vs g w) (tag := sumTag w) (draw := true) (f := sumReducer w) rfl h rfl hc htag (.inl ha) h2 hle hacc hg
    (if_pos ⟨rfl, ha⟩) (.inl hone)).congr fun k _ => ?_
  exact if_congr Iff.rfl (sumReducer_fp ha hr hacc ..) rfl

/-- VRMAX and VRMIN. -/
theorem vrpick_gives {op : BitVec 8} {max : Bool} {i : Instr} {x : W64} (he : exec i s = runSolo (reducePick vs op g w max) i s)
    (hw : i.slotWord = some (vs.slot, x)) (hc : i.check1 = none)
    (hsrc : isF (s.tapped vs w.za).tag = true ∨ isI (s.tapped vs w.za).tag = true)
    (hacc : w.fn.getLsbD 4 = false ∨ (s.tapped vs w.zc).tag = normTag (s.tapped vs w.za).tag) :
    VectorGives i s vs w (normTag (s.tapped vs w.za).tag) 0 fun k =>
      if k < tagCount (s.tapped vs w.za).tag / 2 ^ vrGrp w then
        pickReducer max (s.tapped vs w.za).tag (normTag (s.tapped vs w.za).tag) (s.vecMode w) (s.drawAt (s.vecMode w) k)
          (s.groupElems vs w k) (s.groupAcc vs w k)
      else (0, 0) :=
  reduce_gives (tag := fun t => (normTag t, true)) (draw := false) (f := pickReducer max) he h hw hc rfl hsrc h2 hle hacc
    (by rw [count_norm]; exact Nat.div_le_self ..) (if_neg fun hf => Bool.false_ne_true hf.1) (.inr fun _ _ _ _ => rfl)

end Reductions

/-- A transcendental operation: every element by its algorithm, rounded once. -/
theorem transOp_gives {s : State} {vs : VSlot} {g : Guard} {w : VR} {op : BitVec 8} {f : Trans} {i : Instr} {x : W64}
    (he : exec i s = runSolo (transOp vs op g w f) i s) (h : s.Issues vs.slot g (some (vRow vs, 6, w.lat.toNat)))
    (hw : i.slotWord = some (vs.slot, x)) (hc : i.check1 = none) (ha : isF (s.tapped vs w.za).tag = true) :
    VectorGives i s vs w (normTag (s.tapped vs w.za).tag) (tagCount (s.tapped vs w.za).tag) fun k =>
      transElem f (normTag (s.tapped vs w.za).tag) (s.vecMode w) (w.sat == 1) (s.drawAt (s.vecMode w) k) ((s.tapped vs w.za).at k) := by
  refine vecOp_gives (t := normTag (s.tapped vs w.za).tag) he h hw hc (needTag_ok _ _ _ (by exact ha)) rfl rfl ?_
  show ((s.tapped vs w.za).elems).mapIdx _ = _
  rw [Beat.elems_eq, mapIdx_rangeMap, count_norm]
  refine List.map_congr_left fun k hk => ?_
  exact congrArg (fun d => transElem f (normTag (s.tapped vs w.za).tag) (s.vecMode w) (w.sat == 1) d ((s.tapped vs w.za).at k))
    (drawsFor_getD _ _ _ _ (List.mem_range.mp hk))

/-- Settles O36: a reduction is the law of its reducer on the groups of its source, and a transcendental operation that of its algorithm. -/
theorem vectorReductions : Obligations.VectorReductions := by
  unfold Obligations.VectorReductions
  intro s vs g w a c t m sat n acc groups
  refine ⟨fun h h2 hle => ⟨fun r hc hacc hg => ⟨fun ha hr => ?_, fun ha hr => ?_⟩, fun hacc i max hi hc => ?_⟩, fun h ha i f hi hc => ?_⟩
  · obtain ⟨hsame, rfl⟩ | ⟨hw, hs, rfl⟩ | ⟨hw, hs, rfl⟩ := hr
    · exact vrsum_int h h2 hle hc ha (isI_of ha).2.2 (sumTag_same hsame) hacc hg
    · exact vrsum_int h h2 hle hc ha rfl (hw ▸ sumTag_wide (.inr (.inl ⟨hw, hs⟩))) hacc hg
    · exact vrsum_int h h2 hle hc ha rfl (hw ▸ sumTag_wide (.inr (.inr ⟨hw, hs⟩))) hacc hg
  · obtain ⟨hsame, rfl⟩ | ⟨hw, hs, rfl⟩ := hr
    · exact vrsum_fp h h2 hle hc ha (isF_of ha).2.2.2 (sumTag_same hsame) hacc hg
    · exact vrsum_fp h h2 hle hc ha rfl (hw ▸ sumTag_wide (.inl ⟨hw, hs⟩)) hacc hg
  · have hgives : (isF a.tag = true ∨ isI a.tag = true) → VectorGives i s vs w t 0 fun k =>
        if k < groups then pickReducer max a.tag t m (s.drawAt m k) (s.groupElems vs w k) (s.groupAcc vs w k) else (0, 0) := fun hsrc => by
      obtain ⟨rfl, rfl⟩ | ⟨rfl, rfl⟩ := hi
      · exact vrpick_gives h h2 hle rfl rfl hc hsrc hacc
      · exact vrpick_gives h h2 hle rfl rfl hc hsrc hacc
    refine ⟨fun ha => (hgives (.inl ha)).congr fun k _ => ?_, fun ha => (hgives (.inr ha)).congr fun k _ => ?_⟩
    · exact if_congr Iff.rfl (if_neg (by rw [(isF_of ha).2.1]; decide)) rfl
    · have hacc' : w.fn.getLsbD 4 = false ∨ (s.tapped vs w.zc).tag = (s.tapped vs w.za).tag := hacc.imp_right fun e => e.trans (isI_of ha).2.1
      exact if_congr Iff.rfl (pickReducer_int ha hacc' ..) rfl
  · simp only [List.mem_cons, Prod.mk.injEq, List.not_mem_nil, or_false] at hi
    obtain ⟨rfl, rfl⟩ | ⟨rfl, rfl⟩ | ⟨rfl, rfl⟩ | ⟨rfl, rfl⟩ | ⟨rfl, rfl⟩ | ⟨rfl, rfl⟩ := hi
    all_goals exact transOp_gives rfl h rfl hc ha

end Sys2Proof.Machine

/-! ## Headers, scales and fabric-defined operations (05 R179 to R182) -/

namespace Sys2Proof.Machine

/-- The exponent of a block, or of sixteen values, that VSCMAX folds into a scale (05 R181). -/
def Beat.exponent (b : Beat) (k : Nat) : Nat :=
  if isZ b.tag then (b.blk (zbM b.tag) k).e else blockExp ((List.range 16).map fun j => b.valueAt (16 * k + j))

/-- The exponents of a beat, in order. -/
theorem exponents_eq {a : Beat} (ha : isF a.tag = true ∨ isZ a.tag = true) :
    (if isZ a.tag then a.blocks.map fun b => b.e else (groupsOf 16 (tagCount a.tag / 16) a.values).map blockExp) =
      (List.range (tagCount a.tag / 16)).map a.exponent := by
  by_cases hz : isZ a.tag = true
  · rw [if_pos hz, (isZ_count16 hz).2, Beat.blocks, List.map_map]
    exact List.map_congr_left fun k _ => (if_pos hz).symm
  · have h16 : tagCount a.tag % 16 = 0 := by
      have : ∀ t : Tag, isF t = true → tagCount t % 16 = 0 := by decide
      exact this _ (ha.resolve_right hz)
    have hgroups := groups_part a 0 (tagCount a.tag) (by omega) h16
    rw [List.drop_zero, List.take_of_length_le (by rw [values_eq]; simp)] at hgroups
    rw [if_neg hz, hgroups, List.map_map]
    refine List.map_congr_left fun k _ => ((if_neg hz).trans ?_).symm
    simp only [Function.comp_apply, Nat.zero_add]

section Scales

variable {s : State} {vs : VSlot} {g : Guard} {w : VR} (h : s.Issues vs.slot g (some (vRow vs, 4, w.lat.toNat)))
include h

/-- VSCGET: the header bytes of a, spliced into the data bytes of b. -/
theorem vscget_drives (hc : (Instr.vscget vs g w).check1 = none) (ha : isZ (s.tapped vs w.za).tag = true)
    (hb : s.now.tagKnown (s.tapped vs w.zb).tag = true) (hq : 64 * (w.fn.extractLsb' 0 3).toNat + headerLen (s.tapped vs w.za).tag ≤ 512) :
    VectorDrives (.vscget vs g w) s vs w
      (elemBeat 8 0x01 (spliceAt (s.tapped vs w.zb).bytes (64 * (w.fn.extractLsb' 0 3).toNat)
        ((s.tapped vs w.za).sideBytes.take (headerLen (s.tapped vs w.za).tag)))) 0 0 :=
  movOp_drives (i := .vscget vs g w) (vs := vs) (op := 0x60) (cls := 4) (g := g) (w := w) (zs := [w.za, w.zb]) rfl h rfl hc
    (firstTrap_cons (needTag_ok _ _ _ ha) (firstTrap_cons (needTag_ok _ _ _ hb)
      (firstTrap_cons (needRange_ok _ (decide_eq_true hq)) rfl))) rfl

/-- VSCSET: the data bytes of a under a header of bytes of b. -/
theorem vscset_drives (hc : (Instr.vscset vs g w).check1 = none) (ha : s.now.tagKnown (s.tapped vs w.za).tag = true)
    (hb : s.now.tagKnown (s.tapped vs w.zb).tag = true) (ht : isZ w.tag = true)
    (hq : 64 * (w.fn.extractLsb' 0 3).toNat + headerLen w.tag ≤ 512) :
    VectorDrives (.vscset vs g w) s vs w
      { data := BitVec.ofNat 4096 ((s.tapped vs w.za).data.toNat % 2 ^ (8 * (2 * zbM w.tag * zbBlocks (zbM w.tag))))
        side := BitVec.ofNat 1024 ((s.tapped vs w.zb).data.toNat >>> (8 * (64 * (w.fn.extractLsb' 0 3).toNat)) % 2 ^ (8 * headerLen w.tag))
        tag := w.tag } 0 0 :=
  movOp_drives (i := .vscset vs g w) (vs := vs) (op := 0x61) (cls := 4) (g := g) (w := w) (zs := [w.za, w.zb]) rfl h rfl hc
    (firstTrap_cons (needTag_ok _ _ _ ha) (firstTrap_cons (needTag_ok _ _ _ hb)
      (firstTrap_cons (needResult_ok _ _ ht) (firstTrap_cons (needRange_ok _ (decide_eq_true hq)) rfl)))) rfl

/-- VSCADD of floating-point elements: each scaled by a power of two and rounded once. -/
theorem vscadd_gives (hc : (Instr.vscadd vs g w).check1 = none) (ha : isF (s.tapped vs w.za).tag = true) :
    VectorGives (.vscadd vs g w) s vs w (normTag (s.tapped vs w.za).tag) (tagCount (s.tapped vs w.za).tag) fun k =>
      let x := (s.tapped vs w.za).valueAt k
      let r := round (fmtOf (s.tapped vs w.za).tag) (s.vecMode w) (w.sat == 1) (s.drawAt (s.vecMode w) k) (x.scale (w.fn.extractLsb' 0 9).toInt)
      (r.1, r.2 ||| if x.isSnan then 1 else 0) := by
  have hz := (isF_of ha).1
  have hbeat : ∀ v : View, v.z w.za = s.tapped vs w.za → vscaddBeat w v (s.vecMode w)
      (drawsFor (s.vecMode w) (tagCount (s.tapped vs w.za).tag) s.now.cr.seed).1 =
      beatOf (normTag (s.tapped vs w.za).tag) ((List.range (tagCount (normTag (s.tapped vs w.za).tag))).map fun k =>
        let x := (s.tapped vs w.za).valueAt k
        let r := round (fmtOf (s.tapped vs w.za).tag) (s.vecMode w) (w.sat == 1) (s.drawAt (s.vecMode w) k) (x.scale (w.fn.extractLsb' 0 9).toInt)
        (r.1, r.2 ||| if x.isSnan then 1 else 0)) := fun v hv => by
    simp only [vscaddBeat, hv, hz, Bool.false_eq_true, if_false, fmtOf_norm, count_norm]
    rw [Beat.elems_eq, mapIdx_rangeMap]
    refine congrArg (beatOf _) (List.map_congr_left fun k hk => ?_)
    rw [drawsFor_getD _ _ _ _ (List.mem_range.mp hk), valueAt_isF ha]
    rfl
  exact vecOp_gives (i := .vscadd vs g w) (vs := vs) (op := 0x62) (cls := 4) (g := g) (w := w) (zs := [w.za]) (f := vscaddBeat w) rfl h rfl hc
    (needTag_ok _ _ _ (by rw [Bool.or_eq_true]; exact .inl ha)) (if_pos ha) (hbeat _ rfl) rfl

/-- VSCADD of blocks: the exponent of each moves, within its range. -/
theorem vscadd_blocks (hc : (Instr.vscadd vs g w).check1 = none) (ha : isZ (s.tapped vs w.za).tag = true) :
    let z := zbM (s.tapped vs w.za).tag
    let q := fun k => scaleBlock z (w.fn.extractLsb' 0 9).toInt (w.sat == 1) ((s.tapped vs w.za).blk z k)
    VectorBlocks (.vscadd vs g w) s vs w (s.tapped vs w.za).tag (fun k => (q k).1) (Flags.all ((List.range (zbBlocks z)).map fun k => (q k).2)) 0 := by
  intro z q
  have hf : ¬ isF (s.tapped vs w.za).tag = true := by
    have : ∀ t : Tag, isZ t = true → ¬ isF t = true := by decide
    exact this _ ha
  have hbeat : ∀ (v : View) (ds : List Nat), v.z w.za = s.tapped vs w.za → vscaddBeat w v (s.vecMode w) ds =
      ({ zbBeat z ((List.range (zbBlocks z)).map fun k => (q k).1) with tag := (s.tapped vs w.za).tag },
        Flags.all ((List.range (zbBlocks z)).map fun k => (q k).2)) := fun v ds hv => by
    simp only [vscaddBeat, hv, ha, if_true, Beat.blocks, List.map_map]
    rfl
  exact vecOp_drives (i := .vscadd vs g w) (vs := vs) (op := 0x62) (cls := 4) (g := g) (w := w) (zs := [w.za]) (f := vscaddBeat w) rfl h rfl hc
    (needTag_ok _ _ _ (by rw [Bool.or_eq_true]; exact .inr ha)) (if_neg hf) (hbeat _ _ rfl)

/-- The byte that VSCMAX makes of byte k of c: an exponent of a folded into it, or itself. -/
def State.foldedByte (s : State) (vs : VSlot) (w : VR) (k : Nat) : Nat :=
  let nb := tagCount (s.tapped vs w.za).tag / 16
  let h := (w.fn.extractLsb' 0 6).toNat
  if h * nb ≤ k ∧ k < h * nb + nb then max ((s.tapped vs w.zc).byte k) ((s.tapped vs w.za).exponent (k - h * nb))
  else (s.tapped vs w.zc).byte k

omit h in
/-- The bytes of VSCMAX, in order. -/
theorem vscmaxBytes_eq (ha : isF (s.tapped vs w.za).tag = true ∨ isZ (s.tapped vs w.za).tag = true)
    (hle : ((w.fn.extractLsb' 0 6).toNat + 1) * (tagCount (s.tapped vs w.za).tag / 16) ≤ 512) {v : View} (hv : ∀ n, v.z n = s.tapped vs n) :
    vscmaxBytes w v = (List.range 512).map (s.foldedByte vs w) := by
  rw [Nat.add_mul, Nat.one_mul] at hle
  simp only [vscmaxBytes, hv, exponents_eq ha]
  generalize hp : (w.fn.extractLsb' 0 6).toNat * (tagCount (s.tapped vs w.za).tag / 16) = p at hle
  generalize hnb : tagCount (s.tapped vs w.za).tag / 16 = nb at hle
  rw [mapIdx_rangeMap, bytes_eq, spliceAt_range _ _ _ _ _ hle]
  refine List.map_congr_left fun k _ => ?_
  simp only [State.foldedByte, hnb]
  rw [← hnb, hp, hnb]
  refine ite_congr rfl (fun hk => ?_) fun _ => rfl
  rw [getD_rangeMap _ _ _ _ (show p + (k - p) < 512 by omega), Nat.add_sub_cancel' hk.1]

/-- VSCMAX: each exponent folded into its byte of c. -/
theorem vscmax_gives (hc : (Instr.vscmax vs g w).check1 = none) (ha : isF (s.tapped vs w.za).tag = true ∨ isZ (s.tapped vs w.za).tag = true)
    (hct : (s.tapped vs w.zc).tag = 0x18)
    (hle : ((w.fn.extractLsb' 0 6).toNat + 1) * (tagCount (s.tapped vs w.za).tag / 16) ≤ 512) :
    VectorGives (.vscmax vs g w) s vs w 0x18 0 fun k => (s.foldedByte vs w k, 0) := by
  have hcount : tagCount 0x18 = 512 := by decide
  exact movOp_gives (i := .vscmax vs g w) (t := 0x18) (vs := vs) (op := 0x63) (cls := 4) (g := g) (w := w) (zs := [w.za, w.zc])
    (f := fun v => elemBeat 8 0x18 (vscmaxBytes w v)) (l := (List.range 512).map (s.foldedByte vs w)) (q := s.foldedByte vs w) rfl h rfl hc
    (firstTrap_cons (needTag_ok _ _ _ (by rw [Bool.or_eq_true]; exact ha)) (firstTrap_cons (needTag_ok _ _ _ (beq_iff_eq.mpr hct))
      (firstTrap_cons (needRange_ok _ (decide_eq_true hle)) rfl))) (congrArg (elemBeat 8 0x18) (vscmaxBytes_eq ha hle fun _ => rfl))
    fun k hk => getD_rangeMap _ _ _ _ (by rw [← hcount]; exact hk)

end Scales

/-! ### Fabric-defined operations (05 R182) -/

/-- Flags under a bound leave the next bundle the one after. -/
theorem Core.flagsAt_pc (c : Core) (n : Nat) (f : Flags) : (c.flagsAt n f).after.pc = c.pc + 12 := by
  simp only [Core.flagsAt, Core.after]
  split
  · rfl
  · split <;> rfl

section Fabric

variable {s : State} {vs : VSlot} {g : Guard} {w : VR} {x : BitVec 4}

/-- The free choice of a fabric-defined operation (log 11). -/
def State.fabricFree (s : State) (vs : VSlot) (site n : Nat) : BitVec n := Config.freeBits s.free (8 * site + vs.slot.idx) n

variable (h : s.Issues vs.slot g (some (vRow vs, 16 + x.toNat, w.lat.toNat)))
  (htags : ∀ i z, (i, z) ∈ [(0, s.tapped vs w.za), (1, s.tapped vs w.zb), (2, s.tapped vs w.zc)] → s.fabricFree vs (40 + i) 1 = 1 →
    s.now.tagKnown (z : Beat).tag = true ∧ s.fabricFree vs (44 + i) 1 = 1)
include htags

/-- The test of one strand that the operation may tap. -/
theorem fx_operand {i : Nat} {b : Beat} (hb : (i, b) ∈ [(0, s.tapped vs w.za), (1, s.tapped vs w.zb), (2, s.tapped vs w.zc)]) (v : View) :
    (if (s.fabricFree vs (40 + i) 1 == 1) = true then needTag v b i (s.now.tagKnown b.tag && s.fabricFree vs (44 + i) 1 == 1) else none) = none := by
  split
  · next ht =>
    obtain ⟨hk, ha⟩ := htags i b hb (beq_iff_eq.mp ht)
    exact needTag_ok _ _ _ (by rw [hk, ha]; rfl)
  · rfl

include h

theorem fx_performs : (semFx x vs g w).Performs s := by
  have hclear : (semFx x vs g w).check5 s s.cur (s.view (semFx x vs g w)) = none :=
    firstTrap_cons (fx_operand htags (.head _) _) (firstTrap_cons (fx_operand htags (.tail _ (.head _)) _)
      (firstTrap_cons (fx_operand htags (.tail _ (.tail _ (.head _))) _) rfl))
  exact State.Issues.performs (m := semFx x vs g w) h (.inr rfl) rfl ⟨rfl, rfl, hclear, rfl, nofun, rfl, nofun, nofun, rfl, rfl⟩

/-- A fabric-defined operation leaves its core with the beat it drives, if any, and its flags. -/
theorem fx_core (hc : (Instr.fx x vs g w).check1 = none) :
    ∃ t, exec (.fx x vs g w) s = .next t ∧ s.Follows t
      { ((if s.fabricFree vs 51 1 = 1 then
            s.now.drive (station vs.slot) s.now.bt w.lat.toNat w.zd
              (some { data := s.fabricFree vs 48 4096, side := s.fabricFree vs 49 1024, tag := s.fabricFree vs 50 6 })
          else s.now).flagOr w.lat.toNat (s.fabricFree vs 52 6)).endBundle s.now.cr.seed with repLeft := none, pc := s.now.pc + 12 } := by
  have hplain : Core.Plain fun c => if s.fabricFree vs 51 1 = 1 then
      c.drive (station vs.slot) s.now.bt w.lat.toNat w.zd
        (some { data := s.fabricFree vs 48 4096, side := s.fabricFree vs 49 1024, tag := s.fabricFree vs 50 6 })
      else c := by
    split
    · exact Core.plain_drive _ _ _ _ _
    · exact Core.plain_id
  exact runSolo_core (i := .fx x vs g w) (fx_performs h htags) rfl hc (nx := none)
    (g := fun c => (if s.fabricFree vs 51 1 = 1 then
      c.drive (station vs.slot) s.now.bt w.lat.toNat w.zd
        (some { data := s.fabricFree vs 48 4096, side := s.fabricFree vs 49 1024, tag := s.fabricFree vs 50 6 })
      else c).flagOr w.lat.toNat (s.fabricFree vs 52 6)) ((Core.plain_flagOr _ _).comp hplain)
    (fun _ => by simp only [Core.flagOr]; split <;> split <;> rfl) (fun _ => by simp only [Core.flagOr]; split <;> split <;> rfl)
    fun _ _ => rfl

theorem fx_drives (hc : (Instr.fx x vs g w).check1 = none) (hd : s.fabricFree vs 51 1 = 1) :
    VectorDrives (.fx x vs g w) s vs w { data := s.fabricFree vs 48 4096, side := s.fabricFree vs 49 1024, tag := s.fabricFree vs 50 6 } (s.fabricFree vs 52 6) 0 := by
  obtain ⟨t, e, hf⟩ := fx_core h htags hc
  rw [if_pos hd] at hf
  refine ⟨t, e, hf.of_core ((Core.agrees_vector h.quiet.still vs w _ _ _ _).trans ?_)⟩
  rw [State.seedFor_zero, ← Core.vector_pc]
  exact Core.Agrees.refl _

theorem fx_flags (hc : (Instr.fx x vs g w).check1 = none) (hd : s.fabricFree vs 51 1 ≠ 1) :
    Completes (.fx x vs g w) s (s.now.flagsAt w.lat.toNat (s.fabricFree vs 52 6)).after := by
  obtain ⟨t, e, hf⟩ := fx_core h htags hc
  rw [if_neg hd] at hf
  refine ⟨t, e, hf.of_core ((Core.agrees_flagsAt h.quiet.still _ _ _).trans ?_)⟩
  rw [← Core.flagsAt_pc s.now w.lat.toNat (s.fabricFree vs 52 6)]
  exact Core.Agrees.refl _

end Fabric

/-- Settles O35: each operation is the law of its form on the beats it taps. -/
theorem vectorScales : Obligations.VectorScales := by
  unfold Obligations.VectorScales
  intro s vs g w a b c m q len
  refine ⟨fun h => ⟨fun hc ha hb hq => ?_, fun hc ha hb ht hq => ?_, fun hc => ⟨vscadd_gives h hc, fun ha => ?_⟩, vscmax_gives h⟩,
    fun x h hc htags => ⟨fx_drives h htags hc, fx_flags h htags hc⟩⟩
  · exact ⟨_, vscget_holds a b q _ hq (headerLen_le _ ha).1, vscget_drives h hc ha hb hq⟩
  · obtain ⟨hdata, hside⟩ := vscset_bytes a b w.tag q ht hq
    exact ⟨_, rfl, hdata, hside, vscset_drives h hc ha hb ht hq⟩
  · have hblocks := vscadd_blocks h hc ha
    simp only [scaleBlock_eq] at hblocks
    exact hblocks

end Sys2Proof.Machine

/-! ## Vector conversions and quantisation (05 R155, R174 to R176) -/

namespace Sys2Proof.Machine

/-- Consecutive groups of sixteen of a part of a list. -/
theorem groups_range {α : Type} (f : Nat → α) {N first n : Nat} (h : first + n ≤ N) (h16 : n % 16 = 0) :
    groupsOf 16 (n / 16) ((((List.range N).map f).drop first).take n) =
      (List.range (n / 16)).map fun i => (List.range 16).map fun j => f (first + 16 * i + j) := by
  rw [rangePart _ _ _ _ h, groupsOf_eq]
  refine List.map_congr_left fun i hi => ?_
  have hi := List.mem_range.mp hi
  rw [rangePart _ _ _ _ (by omega)]
  exact List.map_congr_left fun j _ => by rw [Nat.add_assoc]

/-- The draw of an element: none where the conversion is exact. -/
theorem drawsFor_exact (s : State) (m : RMode) (exact : Bool) {n j : Nat} (h : j < n) :
    (drawsFor m (if exact = true then 0 else n) s.now.cr.seed).1.getD j 0 = if exact = true then 0 else s.drawAt m j := by
  cases exact
  · exact drawsFor_getD s m n j h
  · simp only [drawsFor]
    split <;> rfl

/-- A conversion to blocks rounds. -/
theorem cvtExact_isZ {a d : Tag} (hp : cvtPair a d = true) (hz : isZ d = true) : cvtExact a d = false := by
  have hclass : ∀ t : Tag, isZ t = true → isI t = false ∧ isF t = false ∧ isF8 t = false ∧ cvtPair 0x18 t = false := by decide
  obtain ⟨hi, hf, hf8, hscale⟩ := hclass d hz
  have ha : a ≠ 0x18 := fun e => Bool.false_ne_true (hscale.symm.trans (e ▸ hp))
  simp only [cvtExact, hi, hf, hf8, Bool.and_false, Bool.or_false, Bool.false_or, Bool.false_and, beq_eq_false_iff_ne, ne_eq, ha, not_false_eq_true]

/-- The four-bit elements of a beat. -/
theorem fourBits_eq (d : Data) : splitBits 4 1024 d.toNat = (List.range 1024).map fun j => (d.extractLsb' (4 * j) 4).toNat := by
  rw [splitBits_eq]
  exact List.map_congr_left fun j _ => by rw [BitVec.extractLsb'_toNat, Nat.shiftRight_eq_div_pow]

/-- The source of each KIND. -/
theorem mxSource_of {w : VR} {ns : Nat} {t : Tag} {val : Nat → Fv} {top : Dy} {a : Beat}
    (hk : w.fn.extractLsb' 4 2 = 0 ∧ ns = 512 ∧ t = 0x0B ∧ val = (fun j => e4m3.value (a.byte j)) ∧ top = e4m3.maxDy ∨
      w.fn.extractLsb' 4 2 = 1 ∧ ns = 512 ∧ t = 0x0C ∧ val = (fun j => e5m2.value (a.byte j)) ∧ top = e5m2.maxDy ∨
      w.fn.extractLsb' 4 2 = 2 ∧ ns = 1024 ∧ t = 0x01 ∧ val = (fun j => e2m1Value (a.data.extractLsb' (4 * j) 4).toNat) ∧ top = ⟨false, 6, 0⟩) :
    (mxSource (mxKind w)).2.1 = ns ∧ (mxSource (mxKind w)).1 = t ∧ (mxSource (mxKind w)).2.2 a = (List.range ns).map val ∧
      mxMax (mxKind w) = top ∧ ns % 16 = 0 := by
  obtain ⟨hk, rfl, rfl, rfl, rfl⟩ | ⟨hk, rfl, rfl, rfl, rfl⟩ | ⟨hk, rfl, rfl, rfl, rfl⟩ := hk
  · rw [show mxKind w = 0 from congrArg BitVec.toNat hk]
    exact ⟨rfl, rfl, (congrArg (List.map _) (bytes_eq a)).trans List.map_map, rfl, rfl⟩
  · rw [show mxKind w = 1 from congrArg BitVec.toNat hk]
    exact ⟨rfl, rfl, (congrArg (List.map _) (bytes_eq a)).trans List.map_map, rfl, rfl⟩
  · rw [show mxKind w = 2 from congrArg BitVec.toNat hk]
    exact ⟨rfl, rfl, (congrArg (List.map _) (fourBits_eq a.data)).trans List.map_map, rfl, rfl⟩

section Convert

variable {s : State} {vs : VSlot} {g : Guard} {w : VR} {first dst n : Nat}

/-- A converted element (03 R107, 05 R174). -/
def State.converted (s : State) (vs : VSlot) (w : VR) (first j : Nat) : Nat × Flags :=
  let a := s.tapped vs w.za
  let d := w.tag
  let m := s.vecMode w
  let x := a.valueAt (first + j)
  let dr := if cvtExact a.tag d then 0 else s.drawAt m j
  if isI d then
    if isI a.tag then clamped d (w.sat == 1) (a.int (first + j))
    else
      let r := toIntRange m dr (intRange d).1 (intRange d).2 x
      ((r.1 % 2 ^ tagWidth d).toNat, r.2)
  else
    let r := round (fmtOf d) m (w.sat == 1) dr x
    (r.1, r.2 ||| if x.isSnan then 1 else 0)

/-- What a conversion makes of an element that is no block's. -/
theorem cvtElem_eq {raw : Nat} {j : Nat} (hraw : isI (s.tapped vs w.za).tag = true → raw = (s.tapped vs w.za).at (first + j)) :
    cvtElem (s.tapped vs w.za).tag w.tag (s.vecMode w) (w.sat == 1)
      (if cvtExact (s.tapped vs w.za).tag w.tag = true then 0 else s.drawAt (s.vecMode w) j) raw ((s.tapped vs w.za).valueAt (first + j)) =
      s.converted vs w first j := by
  unfold cvtElem State.converted
  by_cases hd : isI w.tag = true
  · by_cases ha : isI (s.tapped vs w.za).tag = true
    · simp only [hd, ha, and_self, if_true]
      rw [intResult_eq _ _ _ hd, hraw ha, intOf_at _ _ ha]
    · simp only [hd, ha, Bool.false_eq_true, false_and, if_true, if_false]
      rfl
  · simp only [hd, Bool.false_eq_true, and_false, if_false]
    rfl

variable (hm : vrZm w = true ∨ (s.tapped vs w.zc).tag = w.tag)
include hm

/-- Elements merged with those of c, or with zeros (05 R155). -/
theorem placeElems_eq {v : View} (hv : v.z w.zc = s.tapped vs w.zc) {q : Nat → Nat × Flags} (hfit : dst + n ≤ tagCount w.tag) :
    placeElems v w dst ((List.range n).map q) =
      (tagBeat w.tag ((List.range (tagCount w.tag)).map fun k =>
        if dst ≤ k ∧ k < dst + n then (q (k - dst)).1 else if vrZm w then 0 else (s.tapped vs w.zc).at k),
       Flags.all ((List.range n).map fun j => (q j).2)) := by
  simp only [placeElems, List.map_map]
  refine Prod.ext (congrArg (tagBeat w.tag) ?_) rfl
  by_cases hz : vrZm w = true
  · have hzero : List.replicate (tagCount w.tag) 0 = (List.range (tagCount w.tag)).map fun _ => 0 := by rw [List.map_const', List.length_range]
    rw [if_pos hz, hzero]
    simp only [hz, if_true]
    exact spliceAt_range _ _ _ _ _ hfit
  · rw [if_neg hz, hv, Beat.elems_eq, hm.resolve_left hz]
    simp only [hz, Bool.false_eq_true, if_false]
    exact spliceAt_range _ _ _ _ _ hfit

omit hm in
/-- Blocks merged with those of c, or with zero blocks (05 R155), and their flags. -/
def State.mergedBlocks (s : State) (vs : VSlot) (w : VR) (dst n : Nat) (q : Nat → Blk × Flags) : Beat × Flags :=
  ({ zbBeat (zbM w.tag) ((List.range (zbBlocks (zbM w.tag))).map fun k =>
      if dst / 16 ≤ k ∧ k < dst / 16 + n / 16 then (q (k - dst / 16)).1
      else if vrZm w then zeroBlock else (s.tapped vs w.zc).blk (zbM w.tag) k) with tag := w.tag },
    Flags.all ((List.range (n / 16)).map fun k => (q k).2))

section Vcvt

variable (h : s.Issues vs.slot g (some (vRow vs, 4, w.lat.toNat)))
  (hp : Placed (tagCount (s.tapped vs w.za).tag) (tagCount w.tag) (w.fn.extractLsb' 0 3).toNat first dst n)
include hp

omit hm in
theorem cvtPlace_eq {v : View} (hv : v.z w.za = s.tapped vs w.za) : cvtPlace w v = some (first, dst, n) := by
  rw [cvtPlace, hv]
  exact hp.place

omit hm in
/-- The elements of VCVT's part. -/
theorem cvtElems_eq (hpair : cvtPair (s.tapped vs w.za).tag w.tag = true) :
    let raws := if isZ (s.tapped vs w.za).tag then [] else ((s.tapped vs w.za).elems.drop first).take n
    let ds := (drawsFor (s.vecMode w) (if cvtExact (s.tapped vs w.za).tag w.tag = true then 0 else n) s.now.cr.seed).1
    ((((s.tapped vs w.za).values.drop first).take n).mapIdx fun i x =>
      cvtElem (s.tapped vs w.za).tag w.tag (s.vecMode w) (w.sat == 1) (ds.getD i 0) (raws.getD i 0) x) =
      (List.range n).map (s.converted vs w first) := by
  obtain ⟨h1, h2⟩ := cvt_count16 hpair
  obtain ⟨hsrc, -, -, -, -⟩ := hp.bounds h1 h2
  intro raws ds
  rw [values_part _ _ _ hsrc, mapIdx_rangeMap]
  refine List.map_congr_left fun j hj => ?_
  have hj := List.mem_range.mp hj
  rw [drawsFor_exact s _ _ hj]
  refine cvtElem_eq fun hi => ?_
  have hz : ¬ isZ (s.tapped vs w.za).tag = true := by
    have : ∀ t : Tag, isI t = true → ¬ isZ t = true := by decide
    exact this _ hi
  rw [show raws = ((s.tapped vs w.za).elems.drop first).take n from if_neg hz, elems_part _ _ _ hsrc, getD_rangeMap _ _ _ _ hj]

omit hp in
/-- The merge test of a destination tag. -/
theorem merge_ok (v : View) (hv : v.z w.zc = s.tapped vs w.zc) (ht : isZ w.tag = true ∨ isF w.tag = true ∨ isF8 w.tag = true ∨ isI w.tag = true) :
    mergeTest v w = none := mergeTest_ok v w _ hv ht hm

include h

/-- VCVT to elements. -/
theorem vcvt_elems (hc : (Instr.vcvt vs g w).check1 = none) (hpair : cvtPair (s.tapped vs w.za).tag w.tag = true) (hz : isZ w.tag = false) :
    ∃ r : Beat, r.Holds w.tag (fun k =>
        if dst ≤ k ∧ k < dst + n then (s.converted vs w first (k - dst)).1 else if vrZm w then 0 else (s.tapped vs w.zc).at k) ∧
      VectorDrives (.vcvt vs g w) s vs w r (Flags.all ((List.range n).map fun j => (s.converted vs w first j).2))
        (if cvtExact (s.tapped vs w.za).tag w.tag then 0 else n) := by
  obtain ⟨h1, h2⟩ := cvt_count16 hpair
  obtain ⟨-, hdst, -, -, -⟩ := hp.bounds h1 h2
  have hbeat : ∀ v : View, (∀ n, v.z n = s.tapped vs n) →
      cvtBeat w v (s.vecMode w) (drawsFor (s.vecMode w) (if cvtExact (s.tapped vs w.za).tag w.tag = true then 0 else n) s.now.cr.seed).1 =
        placeElems v w dst ((List.range n).map (s.converted vs w first)) := fun v hv => by
    simp only [cvtBeat, cvtPlace_eq hp (hv w.za), Option.getD_some, hz, Bool.false_eq_true, if_false, hv]
    exact congrArg (placeElems v w dst) (cvtElems_eq hp hpair)
  have hcount : ∀ v : View, (∀ n, v.z n = s.tapped vs n) → (if cvtExact (v.z w.za).tag w.tag = true then 0 else ((cvtPlace w v).getD (0, 0, 0)).2.2) =
      if cvtExact (s.tapped vs w.za).tag w.tag = true then 0 else n := fun v hv => by
    rw [cvtPlace_eq hp (hv w.za), hv, Option.getD_some]
  refine ⟨_, tagBeat_holds w.tag _ _ fun k hk => getD_rangeMap _ _ _ _ hk, ?_⟩
  exact vecOp_drives (i := .vcvt vs g w) (vs := vs) (op := 0x30) (cls := 4) (g := g) (w := w) (zs := w.za :: vrMergeZ w) (f := cvtBeat w) rfl h rfl hc
    (firstTrap_cons (needTag_ok _ _ _ (cvt_source hpair)) (firstTrap_cons (merge_ok hm _ rfl (cvt_dest hpair))
      (firstTrap_cons (needResult_ok _ _ hpair) (firstTrap_cons (needRange_ok _ (by rw [cvtPlace_eq hp rfl]; rfl)) rfl))))
    (hcount _ fun _ => rfl) ((hbeat _ fun _ => rfl).trans (placeElems_eq hm rfl hdst))

/-- VCVT to blocks. -/
theorem vcvt_blocks (hc : (Instr.vcvt vs g w).check1 = none) (hpair : cvtPair (s.tapped vs w.za).tag w.tag = true) (hz : isZ w.tag = true) :
    let q := fun i => quantiseBlock (fmtOf (s.tapped vs w.za).tag).maxDy ((List.range 16).map fun j => (s.tapped vs w.za).valueAt (first + 16 * i + j))
      (zbM w.tag) (s.vecMode w) (w.sat == 1) false 1 (s.blockDraws (s.vecMode w) i)
    VectorDrives (.vcvt vs g w) s vs w (s.mergedBlocks vs w dst n q).1 (s.mergedBlocks vs w dst n q).2 n := by
  obtain ⟨h1, h2⟩ := cvt_count16 hpair
  obtain ⟨hsrc, hdst, hn, hd, -⟩ := hp.bounds h1 h2
  intro q
  have hbeat : ∀ v : View, (∀ n, v.z n = s.tapped vs n) → cvtBeat w v (s.vecMode w) (drawsFor (s.vecMode w) n s.now.cr.seed).1 = s.mergedBlocks vs w dst n q := fun v hv => by
    simp only [cvtBeat, cvtPlace_eq hp (hv w.za), Option.getD_some, hz, if_true, hv]
    rw [groups_part _ _ _ hsrc hn]
    exact quantPlace_eq s v w (hv w.zc) (fun _ => (fmtOf (s.tapped vs w.za).tag).maxDy) (s.vecMode w) (w.sat == 1) false (fun _ => some 1) _ dst n n hz hdst hd hn
      (Nat.le_refl n) hm q fun _ _ => rfl
  have hcount : ∀ v : View, (∀ n, v.z n = s.tapped vs n) →
      (if cvtExact (v.z w.za).tag w.tag = true then 0 else ((cvtPlace w v).getD (0, 0, 0)).2.2) = n := fun v hv => by
    rw [cvtPlace_eq hp (hv w.za), hv, cvtExact_isZ hpair hz]
    rfl
  exact vecOp_drives (i := .vcvt vs g w) (vs := vs) (op := 0x30) (cls := 4) (g := g) (w := w) (zs := w.za :: vrMergeZ w) (f := cvtBeat w) rfl h rfl hc
    (firstTrap_cons (needTag_ok _ _ _ (cvt_source hpair)) (firstTrap_cons (merge_ok hm _ rfl (cvt_dest hpair))
      (firstTrap_cons (needResult_ok _ _ hpair) (firstTrap_cons (needRange_ok _ (by rw [cvtPlace_eq hp rfl]; rfl)) rfl))))
    (hcount _ fun _ => rfl) (hbeat _ fun _ => rfl)

omit hm hp h in
/-- A block that VQZB quantises under a least exponent (05 R175). -/
def State.quantised (s : State) (vs : VSlot) (w : VR) (first i e : Nat) : Blk × Flags :=
  quantiseBlock (fmtOf (s.tapped vs w.za).tag).maxDy ((List.range 16).map fun j => (s.tapped vs w.za).valueAt (first + 16 * i + j))
    (zbM w.tag) (s.vecMode w) (w.sat == 1) (w.fn.getLsbD 5) e (s.blockDraws (s.vecMode w) i)

/-- VQZB: `lo` gives each block's least exponent, or none for a NaN block. -/
theorem vqzb_blocks {lo : Nat → Option Nat} (hc : (Instr.vqzb vs g w).check1 = none)
    (ha : isF (s.tapped vs w.za).tag = true ∨ isF8 (s.tapped vs w.za).tag = true) (hz : isZ w.tag = true)
    (hb : w.fn.getLsbD 4 = true → (s.tapped vs w.zb).tag = 0x18)
    (hlo : ∀ v : View, v.z w.zb = s.tapped vs w.zb → ∀ i, qzbLow w v (dst / 16 + i) = lo i) (q : Nat → Blk × Flags)
    (hq : ∀ i, q i = match lo i with
      | none => (nanBlock, 0)
      | some e => s.quantised vs w first i e) :
    VectorDrives (.vqzb vs g w) s vs w (s.mergedBlocks vs w dst n q).1 (s.mergedBlocks vs w dst n q).2 n := by
  have h1 : tagCount (s.tapped vs w.za).tag % 16 = 0 := by
    have : ∀ t : Tag, isF t = true ∨ isF8 t = true → tagCount t % 16 = 0 := by decide
    exact this _ ha
  obtain ⟨hsrc, hdst, hn, hd, -⟩ := hp.bounds h1 (isZ_count16 hz).1
  have hbeat : ∀ v : View, (∀ n, v.z n = s.tapped vs n) → qzbBeat w v (s.vecMode w) (drawsFor (s.vecMode w) n s.now.cr.seed).1 = s.mergedBlocks vs w dst n q := fun v hv => by
    simp only [qzbBeat, cvtPlace_eq hp (hv w.za), Option.getD_some, hlo v (hv w.zb), hv]
    rw [groups_part _ _ _ hsrc hn]
    exact quantPlace_eq s v w (hv w.zc) (fun _ => (fmtOf (s.tapped vs w.za).tag).maxDy) (s.vecMode w) (w.sat == 1) (w.fn.getLsbD 5) lo _ dst n n hz hdst hd hn
      (Nat.le_refl n) hm q fun i _ => hq i
  have hscale : ∀ v : View, v.z w.zb = s.tapped vs w.zb →
      (if w.fn.getLsbD 4 then needTag v (v.z w.zb) 1 ((v.z w.zb).tag == 0x18) else none) = none := fun v hv => by
    split
    · next hx => exact needTag_ok _ _ _ (by rw [hv, hb hx]; rfl)
    · rfl
  exact vecOp_drives (i := .vqzb vs g w) (vs := vs) (op := 0x31) (cls := 4) (g := g) (w := w)
    (zs := w.za :: (if w.fn.getLsbD 4 then [w.zb] else []) ++ vrMergeZ w) (f := qzbBeat w) rfl h rfl hc
    (firstTrap_cons (needTag_ok _ _ _ (by rw [Bool.or_eq_true]; exact ha)) (firstTrap_cons (hscale _ rfl)
      (firstTrap_cons (merge_ok hm _ rfl (.inl hz)) (firstTrap_cons (needResult_ok _ _ hz)
        (firstTrap_cons (needRange_ok _ (by rw [cvtPlace_eq hp rfl]; rfl)) rfl)))))
    (by rw [cvtPlace_eq hp rfl]; rfl) (hbeat _ fun _ => rfl)

end Vcvt

/-! ### Microscaling data (05 R176) -/

/-- The scale of a source element of VMXI. -/
def State.mxScaleOf (s : State) (vs : VSlot) (w : VR) (j : Nat) : Nat :=
  (s.tapped vs w.zb).byte (32 * (w.fn.extractLsb' 6 4).toNat + j / 32)

omit hm in
/-- A block that VMXI imports (05 R176, 03 R99). -/
def State.imported (s : State) (vs : VSlot) (w : VR) (first : Nat) (val : Nat → Fv) (top : Dy) (i : Nat) : Blk × Flags :=
  let e := s.mxScaleOf vs w (first + 16 * i)
  if e = 255 then (nanBlock, 0)
  else quantiseBlock (top.scale ((e : Int) - 127)) ((List.range 16).map fun j => (val (first + 16 * i + j)).scale ((e : Int) - 127))
    (zbM w.tag) (s.vecMode w) (w.sat == 1) true 1 (s.blockDraws (s.vecMode w) i)

/-- VMXI: `ns`, `t`, `val` and `top` are the count, the tag, the values and the greatest value of KIND. -/
theorem vmxi_blocks {ns : Nat} {t : Tag} {val : Nat → Fv} {top : Dy} (h : s.Issues vs.slot g (some (vRow vs, 4, w.lat.toNat)))
    (hc : (Instr.vmxi vs g w).check1 = none) (hp : Placed ns (tagCount w.tag) (w.fn.extractLsb' 0 3).toNat first dst n)
    (hcount : (mxSource (mxKind w)).2.1 = ns) (htag : (mxSource (mxKind w)).1 = t)
    (hval : (mxSource (mxKind w)).2.2 (s.tapped vs w.za) = (List.range ns).map val) (htop : mxMax (mxKind w) = top) (hns : ns % 16 = 0)
    (ha : (s.tapped vs w.za).tag = t) (hb : (s.tapped vs w.zb).tag = 0x18) (hz : isZ w.tag = true)
    (hfit : 32 * (w.fn.extractLsb' 6 4).toNat + (first + n - 1) / 32 < 512) :
    VectorDrives (.vmxi vs g w) s vs w (s.mergedBlocks vs w dst n (s.imported vs w first val top)).1
      (s.mergedBlocks vs w dst n (s.imported vs w first val top)).2 n := by
  obtain ⟨hsrc, hdst, hn, hd, -⟩ := hp.bounds hns (isZ_count16 hz).1
  have hplace : mxPlace w = some (first, dst, n) := by
    rw [mxPlace, hcount]
    exact hp.place
  have hbeat : ∀ v : View, (∀ n, v.z n = s.tapped vs n) →
      mxiBeat w v (s.vecMode w) (drawsFor (s.vecMode w) n s.now.cr.seed).1 = s.mergedBlocks vs w dst n (s.imported vs w first val top) := fun v hv => by
    have hscale : ∀ j, mxScale w v j = s.mxScaleOf vs w j := fun j => by
      rw [mxScale, hv, byte_at]
      rfl
    simp only [mxiBeat, hplace, Option.getD_some, hscale, hv, hval, htop]
    rw [groups_range val hsrc hn, mapIdx_rangeMap]
    refine quantPlace_eq s v w (hv w.zc) (fun i => top.scale ((s.mxScaleOf vs w (first + 16 * i) : Int) - 127)) (s.vecMode w) (w.sat == 1) true
      (fun i => if s.mxScaleOf vs w (first + 16 * i) = 255 then none else some 1) _ dst n n hz hdst hd hn (Nat.le_refl n) hm _ fun i _ => ?_
    by_cases hnan : s.mxScaleOf vs w (first + 16 * i) = 255
    · simp only [State.imported, hnan, if_true]
    · simp only [State.imported, hnan, if_false, List.map_map]
      rfl
  have hrange : ∀ v : View, needRange v (match mxPlace w with | some p => decide (mxBase w + (p.1 + p.2.2 - 1) / 32 < 512) | none => false) = none :=
    fun v => needRange_ok v (by rw [hplace]; exact decide_eq_true hfit)
  exact vecOp_drives (i := .vmxi vs g w) (vs := vs) (op := 0x32) (cls := 4) (g := g) (w := w) (zs := w.za :: w.zb :: vrMergeZ w) (f := mxiBeat w)
    rfl h rfl hc
    (firstTrap_cons (needTag_ok _ _ _ (beq_iff_eq.mpr (ha.trans htag.symm))) (firstTrap_cons (needTag_ok _ _ _ (beq_iff_eq.mpr hb))
      (firstTrap_cons (merge_ok hm _ rfl (.inl hz)) (firstTrap_cons (needResult_ok _ _ hz) (firstTrap_cons (hrange _) rfl)))))
    (by rw [hplace]; rfl) (hbeat _ fun _ => rfl)

end Convert

/-- Settles O34: a conversion is the law of its form on the part it takes, merged with c or with zeros. -/
theorem vectorConversions : Obligations.VectorConversions := by
  unfold Obligations.VectorConversions
  intro s vs g w first dst n h a b c d m sat zm part merged blocks hm
  refine ⟨fun hp => ⟨fun hc hpair => ⟨vcvt_elems hm h hp hc hpair, vcvt_blocks hm h hp hc hpair⟩, fun hc ha hz hx hb => ?_,
    fun hc ha hz hx => ?_⟩, fun ns t val top hp hk hc ha hb hz hfit => ?_⟩
  · refine vqzb_blocks hm h hp (lo := fun i => if b.byte (dst / 16 + i) = 255 then none else some (b.byte (dst / 16 + i))) hc ha hz (fun _ => hb)
      (fun v hv i => ?_) (fun i => if b.byte (dst / 16 + i) = 255 then (nanBlock, 0) else s.quantised vs w first i (b.byte (dst / 16 + i))) fun i => ?_
    · simp only [qzbLow, hx, hv, byte_at]
      rfl
    · split <;> rfl
  · exact vqzb_blocks hm h hp (lo := fun _ => some 1) hc ha hz (fun hon => absurd (hx.symm.trans hon) Bool.false_ne_true)
      (fun v _ i => by simp only [qzbLow, hx]; rfl) (fun i => s.quantised vs w first i 1) fun _ => rfl
  · obtain ⟨hcount, htag, hval, htop, hns⟩ := mxSource_of hk
    exact vmxi_blocks hm h hc hp hcount htag hval htop hns ha hb hz hfit

end Sys2Proof.Machine
